-- ==== Sys2Proof/Word.lean ====
section
/-! DEFINITION. The word types of the LX8 (02 R33) and the two sparse stores every piece of bulk state is
held in. A store is a list of (key, value) pairs with strictly rising keys. -/

namespace Sys2Proof

abbrev Byte := BitVec 8
abbrev Word := BitVec 32
abbrev DWord := BitVec 64
/-- A virtual address or an address register (R8, R15). -/
abbrev VAddr := BitVec 72
/-- A lane mask: bit l stands for lane l (R7). -/
abbrev Mask := BitVec 128

/-- Bulk state of w-bit values by key; a key that is not listed reads zero, and no entry holds zero. -/
abbrev Cells (w : Nat) := List (Nat × BitVec w)

/-- Records by key; a key that is not listed has no record. -/
abbrev Tab (α : Type) := List (Nat × α)

end Sys2Proof
end

