-- ==== Sys2Proof/Config.lean ====
section
/-! DEFINITION. What an implementation fixes and the free values. A free value is an opaque constant: nothing
can be proved of what it is, so a claim holds for every value of it. -/

namespace Sys2Proof.Config

/-- Cycles that pass in a step, beyond the one it always takes; by step number (log 6). -/
opaque elapsed : Nat → DWord

/-- Which entry a full translation or record cache drops, among n; by draw (log 7). -/
opaque victim : Nat → Nat

/-- Whether a valid stamp has left L2 with its line before a check reads it; by draw (R132, R137, log 3). -/
opaque stampLost : Nat → Bool

/-- Whether a drawer line stays in a core's L1 as a step begins; by step number, core and line (R81, R149, log 3). -/
opaque lineKept : Nat → Nat → Nat → Bool

/-- Candidate results of the approximate forms, by operand and FTZ (R236, log 8). -/
opaque approxRsq : BitVec 32 → Bool → BitVec 32
opaque approxExp2 : BitVec 32 → Bool → BitVec 32
opaque approxLog2 : BitVec 32 → Bool → BitVec 32
opaque approxSin : BitVec 32 → Bool → BitVec 32
opaque approxCos : BitVec 32 → Bool → BitVec 32

/-- Bytes that a freeze image needs, by context and step number (R351, log 9). -/
opaque imageSize : Nat → Nat → Nat

/-- Bytes of a freeze image, by draw and offset (R353, log 9). -/
opaque imageByte : Nat → Nat → BitVec 8

/-- SHA-256, and what the security block measures beside the configuration record: the boot ROM, the firmware image and the
running firmware (R382, log 12). -/
opaque sha256 : List (BitVec 8) → BitVec 256
opaque bootRom : List (BitVec 8)
opaque firmwareImage : List (BitVec 8)
opaque runningFirmware : List (BitVec 8)

/-- Signatures of an attestation key, by generation, one-time index and what is signed; those of the identity key, by index
and what is signed; the public key of a generation, and that of the identity key with Fenfel's certificate of it, which
flash holds (R381-R383, log 12). -/
opaque signature : Nat → Nat → BitVec 256 → BitVec 256
opaque identitySignature : Nat → BitVec 256 → BitVec 256
opaque attestationKey : Nat → BitVec 256
opaque identityKey : BitVec 256
opaque identityCertificate : BitVec 256

/-- How the debugger finds the header of a fragment's save record packed, and the last half of its handler's part; by the
fields (R183, log 134). -/
opaque packRecord : List Nat → BitVec 512

/-- Power in W that the module draws beside its compute dies, by step number (R3, log 132). -/
opaque otherPower : Nat → Nat

/-- Near-tier page that firmware's allocator holds free for a migrate move, by draw (R23, log 13). -/
opaque freeFrame : Nat → Nat

/-- The near-tier carve-outs beside the granule counts that firmware reserves: 0 and 1 are the first 64 KiB pages of the
two, 2 is the pages of the second (R9, R77, log 13). -/
opaque carveOut : Nat → Nat

/-- The check of a flit over its header and payload: a CRC-32 and error correction parity, whose codes the spec does not give
(R85, log 126). -/
opaque flitCheck : List (BitVec 8) → BitVec 128

/-- Whether the flit whose check fails is a downstream one, which the module sends again; by draw (R93, log 126). -/
opaque failedDown : Nat → Bool

/-- The granule of the drawer region whose count a link controller writes back in a slot, if any; by draw (R98, log 126). -/
opaque countWriteBack : Nat → Option Nat

/-- A value the spec does not state, by draw (log 10). -/
opaque freeDWord : Nat → DWord

end Sys2Proof.Config
end

