-- ==== Sys2Proof/Machine/Store.lean ====
section
/-! DEFINITION. The operations of the two sparse stores, and the bit-field, byte-order and extension helpers
every other file uses. -/

namespace Sys2Proof

/-! ## Cells: values by key, zero where nothing is listed -/

namespace Cells

def get {w : Nat} : Cells w → Nat → BitVec w
  | [], _ => 0
  | (j, x) :: r, k => if j = k then x else get r k

/-- Every entry but the one at k. -/
def drop {w : Nat} (m : Cells w) (k : Nat) : Cells w := m.filter (fun e => e.1 != k)

/-- Puts an entry before the first greater key. -/
def ins {w : Nat} : Cells w → Nat → BitVec w → Cells w
  | [], k, x => [(k, x)]
  | (j, y) :: r, k, x => if k < j then (k, x) :: (j, y) :: r else (j, y) :: ins r k x

/-- Writes x at k; writing zero removes the entry. -/
def set {w : Nat} (m : Cells w) (k : Nat) (x : BitVec w) : Cells w :=
  if x = 0 then m.drop k else (m.drop k).ins k x

/-- The canonical form: keys strictly rising, no entry zero. -/
def wf {w : Nat} : Cells w → Bool
  | [] => true
  | (j, x) :: r => (x != 0) && r.all (fun e => decide (j < e.1)) && wf r

/-- Keys lo to lo + n - 1 read zero. -/
def clear {w : Nat} (m : Cells w) (lo n : Nat) : Cells w :=
  m.filter (fun e => e.1 < lo || lo + n ≤ e.1)

/-- The entries of keys lo to lo + n - 1. -/
def slice {w : Nat} (m : Cells w) (lo n : Nat) : Cells w :=
  m.filter (fun e => lo ≤ e.1 && e.1 < lo + n)

/-- Copies the values of n keys to another place. -/
def copyTo {w : Nat} (m : Cells w) (src dst n : Nat) : Cells w :=
  (m.slice src n).foldl (fun r e => r.set (e.1 - src + dst) e.2) (m.clear dst n)

/-- Moves the values of n keys from one place to another. -/
def moveTo {w : Nat} (m : Cells w) (src dst n : Nat) : Cells w :=
  (m.slice src n).foldl (fun r e => r.set (e.1 - src + dst) e.2) ((m.clear dst n).clear src n)

end Cells

/-! ## Tab: records by key -/

namespace Tab

def find {α : Type} : Tab α → Nat → Option α
  | [], _ => none
  | (j, x) :: r, k => if j = k then some x else find r k

def erase {α : Type} (m : Tab α) (k : Nat) : Tab α := m.filter (fun e => e.1 != k)

def ins {α : Type} : Tab α → Nat → α → Tab α
  | [], k, x => [(k, x)]
  | (j, y) :: r, k, x => if k < j then (k, x) :: (j, y) :: r else (j, y) :: ins r k x

def put {α : Type} (m : Tab α) (k : Nat) (x : α) : Tab α := Tab.ins (Tab.erase m k) k x

def getD {α : Type} (m : Tab α) (k : Nat) (d : α) : α := (m.find k).getD d

/-- Least key from lo up, below lo + n, that has no record. -/
def freeKey {α : Type} (m : Tab α) (lo : Nat) : Nat → Option Nat
  | 0 => none
  | n + 1 => if (m.find lo).isNone then some lo else freeKey m (lo + 1) n

end Tab

/-! ## Bits -/

/-- Bits hi down to lo of a word, as a number. -/
def bitsN {w : Nat} (x : BitVec w) (hi lo : Nat) : Nat := (x.toNat >>> lo) % 2 ^ (hi + 1 - lo)

/-- Bits hi down to lo of a number. -/
def natBits (x hi lo : Nat) : Nat := (x >>> lo) % 2 ^ (hi + 1 - lo)

/-- Bit k of a word. -/
def bitB {w : Nat} (x : BitVec w) (k : Nat) : Bool := x.getLsbD k

/-- x with bits hi down to lo replaced by v. -/
def putBits {w : Nat} (x : BitVec w) (hi lo v : Nat) : BitVec w :=
  let f := BitVec.ofNat w ((2 ^ (hi + 1 - lo) - 1) <<< lo)
  (x &&& ~~~f) ||| (BitVec.ofNat w ((v % 2 ^ (hi + 1 - lo)) <<< lo))

/-- x with bit k set to b. -/
def putBit {w : Nat} (x : BitVec w) (k : Nat) (b : Bool) : BitVec w := putBits x k k (if b then 1 else 0)

def boolNat (b : Bool) : Nat := if b then 1 else 0

/-- Signed reading of the low n bits of a number. -/
def signedNat (n x : Nat) : Int :=
  let m := x % 2 ^ n
  if m < 2 ^ (n - 1) then m else (m : Int) - 2 ^ n

/-- Number of one bits. -/
def popcount {w : Nat} (x : BitVec w) : Nat := ((List.range w).filter (fun i => x.getLsbD i)).length

/-- Leading zero bits; w when the word is zero. -/
def clz {w : Nat} (x : BitVec w) : Nat :=
  (((List.range w).reverse).takeWhile (fun i => !x.getLsbD i)).length

/-- Bits in the opposite order. -/
def bitrev {w : Nat} (x : BitVec w) : BitVec w :=
  (List.range w).foldl (fun acc i => putBit acc (w - 1 - i) (x.getLsbD i)) 0

/-- Bytes of a number, lowest address first (R30). -/
def bytesOf : Nat → Nat → List Byte
  | 0, _ => []
  | n + 1, x => BitVec.ofNat 8 x :: bytesOf n (x / 256)

/-- Number held by bytes, lowest address first (R30). -/
def ofBytes : List Byte → Nat
  | [] => 0
  | b :: r => b.toNat + 256 * ofBytes r

/-- Reads n bytes from address a. -/
def Cells.readN (m : Cells 8) (a n : Nat) : List Byte := (List.range n).map (fun i => m.get (a + i))

/-- Reads an n-byte little-endian number. -/
def Cells.readNat (m : Cells 8) (a n : Nat) : Nat := ofBytes (m.readN a n)

/-- Writes bytes from address a up. -/
def Cells.writeN : Cells 8 → Nat → List Byte → Cells 8
  | m, _, [] => m
  | m, a, b :: r => Cells.writeN (m.set a b) (a + 1) r

/-- Lanes of a mask, ascending. -/
def lanesOf (m : Mask) : List Nat := (List.range 128).filter (fun l => m.getLsbD l)

/-- The mask of a list of lanes. -/
def maskOf (ls : List Nat) : Mask := ls.foldl (fun m l => m ||| (1#128 <<< l)) 0

/-- Lowest lane of a mask, or 0. -/
def lowestLane (m : Mask) : Nat := ((List.range 128).find? (fun l => m.getLsbD l)).getD 0

end Sys2Proof
end

