-- ==== Sys2Proof/Machine/Float.lean ====
section
/-! DEFINITION. Floating point (R233-R237): formats, exact values, one rounding, and the operations the lane
forms, the canvas banks and the matrix array share. -/

namespace Sys2Proof.Float

/-! ## Formats and exact values -/

/-- Exponent and fraction bits of a format (R36). -/
structure Fmt where
  ew : Nat
  fw : Nat
  deriving DecidableEq, Repr

def h16 : Fmt := { ew := 5, fw := 10 }
def w16 : Fmt := { ew := 8, fw := 7 }
def f32 : Fmt := { ew := 8, fw := 23 }
def f64 : Fmt := { ew := 11, fw := 52 }

/-- The format of a float type code; packed types give the format of an element. -/
def ofType (t : Nat) : Fmt :=
  if t = 12 ∨ t = 13 then h16 else if t = 14 ∨ t = 15 then w16 else if t = 17 then f64 else f32

def Fmt.width (f : Fmt) : Nat := f.ew + f.fw + 1
def Fmt.bias (f : Fmt) : Nat := 2 ^ (f.ew - 1) - 1
/-- Exponent of the least normal value. -/
def Fmt.emin (f : Fmt) : Int := 1 - (f.bias : Int)
def Fmt.emax (f : Fmt) : Int := f.bias
/-- Exponent of the last place of a subnormal. -/
def Fmt.qmin (f : Fmt) : Int := f.emin - f.fw
def Fmt.inf (f : Fmt) (neg : Bool) : Nat := boolNat neg * 2 ^ (f.ew + f.fw) + (2 ^ f.ew - 1) * 2 ^ f.fw
def Fmt.zero (f : Fmt) (neg : Bool) : Nat := boolNat neg * 2 ^ (f.ew + f.fw)
/-- The canonical quiet NaN (R233). -/
def Fmt.nan (f : Fmt) : Nat := (2 ^ f.ew - 1) * 2 ^ f.fw + 2 ^ (f.fw - 1)
def Fmt.maxFinite (f : Fmt) (neg : Bool) : Nat := f.inf neg - 1

/-- A value: NaN, infinity, or ±m × 2^e. -/
inductive Val where
  | nan (signalling : Bool)
  | inf (neg : Bool)
  | num (neg : Bool) (m : Nat) (e : Int)
  deriving DecidableEq, Repr

/-- Reads a pattern. -/
def read (f : Fmt) (x : Nat) : Val :=
  let s := x >>> (f.ew + f.fw) % 2 = 1
  let e := x >>> f.fw % 2 ^ f.ew
  let m := x % 2 ^ f.fw
  if e = 2 ^ f.ew - 1 then (if m = 0 then .inf s else .nan (m < 2 ^ (f.fw - 1)))
  else if e = 0 then .num s m f.qmin
  else .num s (m + 2 ^ f.fw) (f.qmin + (e : Int) - 1)

/-- Reads a pattern under FTZ: a subnormal reads as zero of its sign (R233). -/
def readFtz (f : Fmt) (ftz : Bool) (x : Nat) : Val :=
  match read f x with
  | .num s m e => if ftz && m < 2 ^ f.fw then .num s 0 e else .num s m e
  | v => v

/-- The five exceptions, as the flag bits of sys.fpctl (R38). -/
abbrev Flags := BitVec 5
def NV : Flags := 16
def DZ : Flags := 8
def OF : Flags := 4
def UF : Flags := 2
def NX : Flags := 1
def noFlags : Flags := 0

/-! ## Rounding -/

/-- Rounds m × 2^-sh to an integer, under a rounding of R40; sticky says that a part below is lost already.
Answers the integer and whether it differs from the value. -/
def roundShift (rm : Nat) (neg : Bool) (m sh : Nat) (sticky : Bool) : Nat × Bool :=
  let k := m >>> sh
  let r := m % 2 ^ sh
  let inexact := r ≠ 0 || sticky
  let up :=
    match rm with
    | 0 => (decide (2 ^ sh < 2 * r)) || (decide (2 ^ sh = 2 * r) && (sticky || k % 2 == 1))
    | 1 => false
    | 2 => inexact && !neg
    | 3 => inexact && neg
    | _ => decide (2 ^ sh ≤ 2 * r)
  (if up then k + 1 else k, inexact)

/-- Rounds m × 2^e to a multiple of 2^q, answering the multiple. -/
def roundAt (rm : Nat) (neg : Bool) (m : Nat) (e q : Int) (sticky : Bool) : Nat × Bool :=
  if q ≤ e then (m <<< (e - q).toNat, sticky) else roundShift rm neg m (q - e).toNat sticky

/-- Bits of a number; 0 for 0. -/
def bitLen (n : Nat) : Nat := if n = 0 then 0 else n.log2 + 1

/-- The value an overflow gives. -/
def overflowed (f : Fmt) (rm : Nat) (neg : Bool) : Nat :=
  let toInf := match rm with | 1 => false | 2 => !neg | 3 => neg | _ => true
  if toInf then f.inf neg else f.maxFinite neg

/-- Rounds ±m × 2^e once to a format (R233). A sticky value needs m of at least fw + 3 bits. -/
def round (f : Fmt) (rm : Nat) (ftz : Bool) (neg : Bool) (m : Nat) (e : Int) (sticky : Bool) : Nat × Flags :=
  if m = 0 then (f.zero neg, noFlags)
  else
    let top : Int := e + bitLen m - 1
    let free := roundAt rm neg m e (top - f.fw) sticky
    let tiny := decide ((if free.1 = 2 ^ (f.fw + 1) then top + 1 else top) < f.emin)
    let q := max (top - f.fw) f.qmin
    let r := roundAt rm neg m e q sticky
    let mag := (q - f.qmin).toNat * 2 ^ f.fw + r.1
    if f.inf false ≤ mag then (overflowed f rm neg, OF ||| NX)
    else if ftz && mag < 2 ^ f.fw then (f.zero neg, UF ||| NX)
    else (f.zero neg + mag, (if r.2 then NX else 0) ||| (if r.2 && tiny then UF else 0))

/-- SAT: the rounded result is clamped to [+0, 1], and NaN becomes +0 (R233). -/
def clamp (f : Fmt) (x : Nat) : Nat :=
  match read f x with
  | .nan _ => 0
  | .inf neg => if neg then 0 else f.bias * 2 ^ f.fw
  | .num neg _ _ => if neg then 0 else min x (f.bias * 2 ^ f.fw)

/-! ## Arithmetic -/

def Val.isSnan : Val → Bool
  | .nan s => s
  | _ => false
def Val.isNan : Val → Bool
  | .nan _ => true
  | _ => false
def Val.neg : Val → Bool
  | .nan _ => false
  | .inf s => s
  | .num s _ _ => s
def Val.isZero : Val → Bool
  | .num _ 0 _ => true
  | _ => false
def Val.flip : Val → Val
  | .nan s => .nan s
  | .inf s => .inf (!s)
  | .num s m e => .num (!s) m e

def invalid (f : Fmt) : Nat × Flags := (f.nan, NV)
/-- The NaN that follows from NaN operands. -/
def nanOf (f : Fmt) (vs : List Val) : Nat × Flags := (f.nan, if vs.any Val.isSnan then NV else 0)

/-- Signed multiple of 2^q. -/
def toInt (neg : Bool) (m : Nat) (e q : Int) : Int :=
  let x : Int := (m <<< (e - q).toNat : Nat)
  if neg then -x else x

/-- Exact sum of two finite values, rounded once. -/
def addNum (f : Fmt) (rm : Nat) (ftz : Bool) (s1 : Bool) (m1 : Nat) (e1 : Int) (s2 : Bool) (m2 : Nat) (e2 : Int) :
    Nat × Flags :=
  let q := if m1 = 0 then e2 else if m2 = 0 then e1 else min e1 e2
  let x := (if m1 = 0 then 0 else toInt s1 m1 e1 q) + (if m2 = 0 then 0 else toInt s2 m2 e2 q)
  if x = 0 then (f.zero (if m1 = 0 && m2 = 0 && s1 == s2 then s1 else rm == 3), noFlags)
  else round f rm ftz (decide (x < 0)) x.natAbs q false

/-- Sum of values. -/
def addVal (f : Fmt) (rm : Nat) (ftz : Bool) (a b : Val) : Nat × Flags :=
  match a, b with
  | .num s1 m1 e1, .num s2 m2 e2 => addNum f rm ftz s1 m1 e1 s2 m2 e2
  | .inf s1, .inf s2 => if s1 = s2 then (f.inf s1, 0) else invalid f
  | .inf s1, .num _ _ _ => (f.inf s1, 0)
  | .num _ _ _, .inf s2 => (f.inf s2, 0)
  | _, _ => nanOf f [a, b]

def add (f : Fmt) (rm : Nat) (ftz : Bool) (a b : Nat) : Nat × Flags :=
  addVal f rm ftz (readFtz f ftz a) (readFtz f ftz b)

def sub (f : Fmt) (rm : Nat) (ftz : Bool) (a b : Nat) : Nat × Flags :=
  addVal f rm ftz (readFtz f ftz a) (readFtz f ftz b).flip

def mul (f : Fmt) (rm : Nat) (ftz : Bool) (a b : Nat) : Nat × Flags :=
  match readFtz f ftz a, readFtz f ftz b with
  | .num s1 m1 e1, .num s2 m2 e2 => round f rm ftz (s1 != s2) (m1 * m2) (e1 + e2) false
  | .inf s1, .inf s2 => (f.inf (s1 != s2), 0)
  | .inf s1, .num s2 m _ => if m = 0 then invalid f else (f.inf (s1 != s2), 0)
  | .num s1 m _, .inf s2 => if m = 0 then invalid f else (f.inf (s1 != s2), 0)
  | x, y => nanOf f [x, y]

/-- a × b + c, rounded once; ∞ × 0 is invalid whatever c is (R234). -/
def fma (f : Fmt) (rm : Nat) (ftz : Bool) (a b c : Nat) : Nat × Flags :=
  let x := readFtz f ftz a
  let y := readFtz f ftz b
  let z := readFtz f ftz c
  match x, y with
  | .num s1 m1 e1, .num s2 m2 e2 =>
    match z with
    | .num s3 m3 e3 => addNum f rm ftz (s1 != s2) (m1 * m2) (e1 + e2) s3 m3 e3
    | .inf s3 => (f.inf s3, 0)
    | .nan _ => nanOf f [z]
  | .nan _, _ => nanOf f [x, y, z]
  | _, .nan _ => nanOf f [x, y, z]
  | _, _ =>
    if x.isZero || y.isZero then invalid f
    else
      let s := x.neg != y.neg
      match z with
      | .nan _ => nanOf f [z]
      | .inf s3 => if s3 = s then (f.inf s, 0) else invalid f
      | .num _ _ _ => (f.inf s, 0)

def div (f : Fmt) (rm : Nat) (ftz : Bool) (a b : Nat) : Nat × Flags :=
  match readFtz f ftz a, readFtz f ftz b with
  | .num s1 m1 e1, .num s2 m2 e2 =>
    let s := s1 != s2
    if m2 = 0 then (if m1 = 0 then invalid f else (f.inf s, DZ))
    else
      let k := f.fw + 4 + bitLen m2
      round f rm ftz s ((m1 <<< k) / m2) (e1 - e2 - k) ((m1 <<< k) % m2 ≠ 0)
  | .inf _, .inf _ => invalid f
  | .inf s1, .num s2 _ _ => (f.inf (s1 != s2), 0)
  | .num s1 _ _, .inf s2 => (f.zero (s1 != s2), 0)
  | x, y => nanOf f [x, y]

def one (f : Fmt) : Nat := f.bias * 2 ^ f.fw

/-- Greatest r with r² ≤ n, among r of k bits. -/
def isqrtFrom (n : Nat) : Nat → Nat → Nat
  | 0, r => r
  | k + 1, r =>
    let t := r + 2 ^ k
    isqrtFrom n k (if t * t ≤ n then t else r)

def isqrt (n : Nat) : Nat := isqrtFrom n (bitLen n / 2 + 1) 0

def sqrt (f : Fmt) (rm : Nat) (ftz : Bool) (a : Nat) : Nat × Flags :=
  match readFtz f ftz a with
  | .num s m e =>
    if m = 0 then (f.zero s, 0)
    else if s then invalid f
    else
      let k : Nat := 2 * (f.fw + 4) + (e % 2).toNat
      let n := m <<< k
      let r := isqrt n
      round f rm ftz false r ((e - k) / 2) (r * r ≠ n)
  | .inf s => if s then invalid f else (f.inf false, 0)
  | v => nanOf f [v]

/-! ## Comparison, minimum, class -/

/-- Order of two values that are not NaN; zeros are equal. -/
def ltVal (a b : Val) : Bool :=
  match a, b with
  | .inf s1, .inf s2 => s1 && !s2
  | .inf s1, _ => s1
  | _, .inf s2 => !s2
  | .num s1 m1 e1, .num s2 m2 e2 => let q := min e1 e2; decide (toInt s1 m1 e1 q < toInt s2 m2 e2 q)
  | _, _ => false

def eqVal (a b : Val) : Bool := !a.isNan && !b.isNan && !ltVal a b && !ltVal b a

/-- Compare by a code of R232, with its exceptions. -/
def cmp (f : Fmt) (code : Nat) (a b : Nat) : Bool × Flags :=
  let x := read f a
  let y := read f b
  let un := x.isNan || y.isNan
  let r := match code with
    | 0 => eqVal x y
    | 1 => !eqVal x y
    | 2 => !un && ltVal x y
    | 3 => !un && !ltVal x y
    | 4 => !un && !ltVal y x
    | 5 => !un && ltVal y x
    | 6 => un
    | _ => !un
  (r, if x.isSnan || y.isSnan then NV else 0)

/-- Strict order with −0 below +0 (R62, R235). -/
def below (a b : Val) : Bool := ltVal a b || (a.isZero && b.isZero && a.neg && !b.neg)

/-- The pattern FTZ makes of an operand. -/
def flushed (f : Fmt) (ftz : Bool) (x : Nat) : Nat :=
  match readFtz f ftz x with
  | .num s 0 _ => f.zero s
  | _ => x % 2 ^ f.width

/-- FMIN and FMAX (R235). -/
def minMax (f : Fmt) (ftz isMax : Bool) (a b : Nat) : Nat × Flags :=
  let x := readFtz f ftz a
  let y := readFtz f ftz b
  let fl := if x.isSnan || y.isSnan then NV else 0
  let v := match x.isNan, y.isNan with
    | true, true => f.nan
    | true, false => flushed f ftz b
    | false, true => flushed f ftz a
    | false, false =>
      if (if isMax then below x y else below y x) then flushed f ftz b else flushed f ftz a
  (v, fl)

/-- FCLASS of one element (R235). -/
def classBit (f : Fmt) (x : Nat) : Nat :=
  match read f x with
  | .nan s => if s then 8 else 9
  | .inf s => if s then 0 else 7
  | .num s m _ => if m = 0 then (if s then 3 else 4) else if m < 2 ^ f.fw then (if s then 2 else 5) else (if s then 1 else 6)

/-! ## Conversion (R237) -/

/-- Integer to float. -/
def ofInt (f : Fmt) (rm : Nat) (ftz : Bool) (x : Int) : Nat × Flags := round f rm ftz (decide (x < 0)) x.natAbs 0 false

/-- Integer to a float, which overflows to an infinity in every rounding mode (R237). -/
def ofIntInf (f : Fmt) (rm : Nat) (ftz : Bool) (x : Int) : Nat × Flags :=
  let r := ofInt f rm ftz x
  if r.2 &&& OF ≠ 0 then (f.inf (decide (x < 0)), r.2) else r

/-- Float to integer in [lo, hi]. -/
def toIntRange (f : Fmt) (rm : Nat) (ftz : Bool) (lo hi : Int) (x : Nat) : Int × Flags :=
  match readFtz f ftz x with
  | .nan _ => (0, NV)
  | .inf s => (if s then lo else hi, NV)
  | .num s m e =>
    let r := roundAt rm s m e 0 false
    let v : Int := if s then -(r.1 : Int) else r.1
    if v < lo then (lo, NV) else if hi < v then (hi, NV) else (v, if r.2 then NX else 0)

/-- Float to another float format. -/
def toFmt (src dst : Fmt) (rm : Nat) (ftz : Bool) (x : Nat) : Nat × Flags :=
  match readFtz src ftz x with
  | .nan s => (dst.nan, if s then NV else 0)
  | .inf s => (dst.inf s, 0)
  | .num s m e => round dst rm ftz s m e false

/-- Float to an integral value of its own type: only a signalling NaN raises. -/
def toIntegral (f : Fmt) (rm : Nat) (ftz : Bool) (x : Nat) : Nat × Flags :=
  match readFtz f ftz x with
  | .nan s => (if s then f.nan else x % 2 ^ f.width, if s then NV else 0)
  | .inf s => (f.inf s, 0)
  | .num s m e =>
    if 0 ≤ e then (flushed f ftz x, 0)
    else ((round f 0 false s (roundAt rm s m e 0 false).1 0 false).1, 0)

/-! ## Approximate forms (R236)

A result is the free value of Config when it lies within the form's bound of an enclosure of the exact value, and
else the exact value rounded to nearest (log 8). Enclosures are fixed point with 160 fraction bits. -/

def fixBits : Nat := 160
def fixOne : Nat := 2 ^ fixBits

/-- A positive real between lo and hi, in units of 2^-160 scaled by 2^e. -/
structure Encl where
  neg : Bool
  lo : Nat
  hi : Nat
  e : Int
  deriving DecidableEq, Repr

/-- The exact value rounded to nearest. -/
def Encl.nearest (x : Encl) (ftz : Bool) : Nat := (round f32 0 ftz x.neg x.lo (x.e - fixBits) true).1

/-- Signed multiple of 2^q with q at most every exponent in use. -/
def scaled (neg : Bool) (m : Nat) (e q : Int) : Int := toInt neg m e q

/-- A candidate lies within b × 2^be of the enclosed value. -/
def Encl.within (x : Encl) (c : Nat) (b : Nat) (be : Int) : Bool :=
  match read f32 c with
  | .num s m e =>
    let q := min (min (x.e - fixBits) e) be
    let v := scaled s m e q
    let lo := scaled x.neg x.lo (x.e - fixBits) q
    let hi := scaled x.neg x.hi (x.e - fixBits) q
    let d := scaled false b be q
    decide (max (v - min lo hi).natAbs (max lo hi - v).natAbs ≤ d.natAbs)
  | _ => false

/-- The last place of the enclosed value in binary32. -/
def Encl.ulp (x : Encl) : Int := max (x.e - fixBits + bitLen x.lo - 1 - 23) f32.qmin

/-- Flags of an approximate result: inexact, with overflow or underflow where it leaves the normal range. -/
def approxFlags (tiny : Bool) (r : Nat) : Flags :=
  match read f32 r with
  | .num _ m _ => if tiny || (m ≠ 0 && m < 2 ^ 23) then UF ||| NX else NX
  | .inf _ => OF ||| NX
  | .nan _ => NX

/-- The result of an approximate form: the candidate if it is within its bound. -/
def settleApprox (ftz : Bool) (x : Encl) (cand : Nat) (b : Nat) (be : Int) : Nat × Flags :=
  let r := if x.within cand b be then cand else x.nearest ftz
  let tiny := decide (x.e - fixBits + bitLen x.lo - 1 < f32.emin)
  if ftz then (flushed f32 true r, approxFlags (tiny || flushed f32 true r ≠ r) r) else (r, approxFlags tiny r)

/-- 1 ÷ √(m × 2^e), enclosed (R236). -/
def frsqEncl (m : Nat) (e : Int) : Encl :=
  let r := isqrt (2 ^ (4 * fixBits) / (m <<< (e % 2).toNat))
  { neg := false, lo := r, hi := r + 2, e := -((e - e % 2) / 2) - fixBits }

/-- 1 ÷ √a. -/
def frsq (ftz : Bool) (a : Nat) (cand : Nat) : Nat × Flags :=
  match readFtz f32 ftz a with
  | .nan s => (f32.nan, if s then NV else 0)
  | .inf s => if s then invalid f32 else (0, 0)
  | .num s m e =>
    if m = 0 then (f32.inf s, DZ)
    else if s then invalid f32
    else settleApprox ftz (frsqEncl m e) cand 1 (frsqEncl m e).ulp

/-- Product of two 160-bit fractions, rounded down. -/
def fixMul (a b : Nat) : Nat := a * b / fixOne

/-- 2^(x / 2^160) for x below 2^160, from the square roots of 2; within 2^-150. -/
def exp2Frac (x : Nat) : Nat :=
  ((List.range fixBits).foldl (fun (r : Nat × Nat) i =>
    let t := isqrt (r.2 * fixOne)
    (if x.testBit (fixBits - 1 - i) then fixMul r.1 t else r.1, t)) (fixOne, 2 * fixOne)).1

/-- 2^(n + i ÷ sc) for i below sc, enclosed (R236). -/
def exp2Encl (n : Int) (i sc : Nat) : Encl :=
  let r := exp2Frac (i * fixOne / sc)
  { neg := false, lo := r - 2 ^ 16, hi := r + 2 ^ 16, e := n }

/-- Everything below 2^-151, where every 2^a with a below −151 lies. -/
def exp2Tiny : Encl := { neg := false, lo := 0, hi := fixOne, e := -151 }

/-- 2^a. A result below the normal range raises underflow though it be exact (R236). -/
def fexp2 (ftz : Bool) (a : Nat) (cand : Nat) : Nat × Flags :=
  match readFtz f32 ftz a with
  | .nan s => (f32.nan, if s then NV else 0)
  | .inf s => (if s then 0 else f32.inf false, 0)
  | .num s m e =>
    if m = 0 then (one f32, 0)
    else
      let big := decide (8 < e + bitLen m)
      let i := toInt s m e (min e 0)
      let sc : Int := 2 ^ (-(min e 0)).toNat
      let n := i / sc
      if (big && !s) || decide (128 ≤ n) then (f32.inf false, OF ||| NX)
      else if big || decide (n < -151) then settleApprox ftz exp2Tiny cand 2 f32.qmin
      else if i % sc = 0 && decide (-149 ≤ n) then
        let r := round f32 0 ftz false 1 n false
        (r.1, if n < f32.emin then UF ||| r.2 else r.2)
      else
        let x := exp2Encl n (i % sc).toNat sc.toNat
        settleApprox ftz x cand 2 x.ulp

/-- log2 of x / 2^160 in [1, 2), bit by bit; within 2^-100. -/
def log2Frac (x : Nat) : Nat :=
  ((List.range 120).foldl (fun (r : Nat × Nat) _ =>
    let y := fixMul r.2 r.2
    if 2 * fixOne ≤ y then (2 * r.1 + 1, y / 2) else (2 * r.1, y)) (0, x)).1

/-- log2 of m × 2^e, enclosed (R236). -/
def log2Encl (m : Nat) (e : Int) : Encl :=
  let v : Int := (e + bitLen m - 1) * 2 ^ 120 + log2Frac (m * fixOne / 2 ^ (bitLen m - 1))
  let mag := v.natAbs <<< 40
  { neg := decide (v < 0), lo := mag - 2 ^ 70, hi := mag + 2 ^ 70, e := 0 }

/-- log2 a. -/
def flog2 (ftz : Bool) (a : Nat) (cand : Nat) : Nat × Flags :=
  match readFtz f32 ftz a with
  | .nan s => (f32.nan, if s then NV else 0)
  | .inf s => if s then invalid f32 else (f32.inf false, 0)
  | .num s m e =>
    if m = 0 then (f32.inf true, DZ)
    else if s then invalid f32
    else
      let n : Int := e + bitLen m - 1
      if m = 2 ^ (bitLen m - 1) then ofInt f32 0 ftz n
      else
        let x := log2Encl m e
        if n = 0 ∨ n = -1 then settleApprox ftz x cand 1 (-22) else settleApprox ftz x cand 2 x.ulp

/-- π × 2^320, rounded down. -/
def piFix : Nat :=
  3 * 2 ^ 320 + 0x243F6A8885A308D313198A2E03707344A4093822299F31D0082EFA98EC4E6C89452821E638D01377

/-- Sine of x / 2^160 by its series, x below 2^161: within 2^-140. -/
def sinFix (x : Nat) : Int :=
  ((List.range 40).foldl (fun (r : Int × Nat) i =>
    let t := fixMul (fixMul r.2 x) x / ((2 * i + 2) * (2 * i + 3))
    (if i % 2 = 0 then r.1 - t else r.1 + t, t)) ((x : Int), x)).1

def cosFix (x : Nat) : Int :=
  ((List.range 40).foldl (fun (r : Int × Nat) i =>
    let t := fixMul (fixMul r.2 x) x / ((2 * i + 1) * (2 * i + 2))
    (if i % 2 = 0 then r.1 - t else r.1 + t, t)) ((fixOne : Int), fixOne)).1

/-- |a| modulo π/2, in units of 2^-160, with the quadrant. -/
def reduce (m : Nat) (e : Int) : Nat × Nat :=
  let n := if 0 ≤ e then m <<< (e.toNat + 320) else (m <<< 320) >>> (-e).toNat
  let q := 2 * n / piFix
  (q % 4, (n - q * piFix / 2) / 2 ^ 160)

/-- sin or cos of ±m × 2^e, enclosed (R236). -/
def trigEncl (isCos s : Bool) (m : Nat) (e : Int) : Encl :=
  let r := reduce m e
  let v : Int := match (if isCos then (r.1 + 1) % 4 else r.1) with
    | 0 => sinFix r.2
    | 1 => cosFix r.2
    | 2 => -(sinFix r.2)
    | _ => -(cosFix r.2)
  let v : Int := if s && !isCos then -v else v
  { neg := decide (v < 0), lo := v.natAbs, hi := v.natAbs + 2 ^ 30, e := 0 }

/-- sin or cos of a. -/
def trig (isCos ftz : Bool) (a : Nat) (cand : Nat) : Nat × Flags :=
  match readFtz f32 ftz a with
  | .nan s => (f32.nan, if s then NV else 0)
  | .inf _ => invalid f32
  | .num s m e =>
    if m = 0 then (if isCos then one f32 else f32.zero s, 0)
    else settleApprox ftz (trigEncl isCos s m e) cand 1 (-22)

end Sys2Proof.Float
end

