-- ==== Sys2Proof/Syntax.lean ====
section
/-! DEFINITION. Every row of the opcode table as a constructor of Instr: scalar instruction words (R43, R50),
lane instruction words (R39, R49), and the hub commands and events of the module's other agents
(95_what_each_step_holds.md). Operand fields keep the widths the encodings give them; what a field may hold
is checked in WellFormed. -/

namespace Sys2Proof

/-- The fields of a lane word below its opcode (R39). Every card uses this one layout and says which of the
fields its form reads; the others must be zero (R40). -/
structure LaneWord where
  g : BitVec 3
  gn : BitVec 1
  la : BitVec 4
  ty : BitVec 5
  d : BitVec 8
  a : BitVec 8
  b : BitVec 8
  c : BitVec 8
  rnd : BitVec 3
  sat : BitVec 1
  md : BitVec 5
  ext : BitVec 32
  deriving DecidableEq, Repr

/-- Where an uncorrectable error is found (R358, R359, R363, R355 cause state). -/
inductive ErrSite where
  | laneRegister (wid reg lane : Nat)
  | memory (pa : Nat)
  | canvas (die addr : Nat)
  | scalarState (wid : Nat)
  | hubState
  | contextState (ctx : Nat)
  deriving DecidableEq, Repr

/-- One row of the opcode table. -/
inductive Instr where
  -- scalar words
  /-- SADD (R203). Writes the 64-bit wrapping sum of two scalar registers into a scalar register. -/
  | sadd (d : BitVec 6) (a : BitVec 6) (b : BitVec 6)
  /-- SSUB (R203). Writes the 64-bit wrapping difference of two scalar registers into a scalar register. -/
  | ssub (d : BitVec 6) (a : BitVec 6) (b : BitVec 6)
  /-- SMUL (R203). Writes the low 64 bits of the product of two scalar registers. -/
  | smul (d : BitVec 6) (a : BitVec 6) (b : BitVec 6)
  /-- SMULH (R203). Writes bits 127–64 of the exact signed or unsigned product. -/
  | smulh (d : BitVec 6) (a : BitVec 6) (b : BitVec 6) (u : BitVec 1)
  /-- SDIV (R203). Writes the quotient, rounded toward zero, of a signed or unsigned division that never faults. -/
  | sdiv (d : BitVec 6) (a : BitVec 6) (b : BitVec 6) (u : BitVec 1)
  /-- SREM (R203). Writes the remainder of a signed or unsigned division. -/
  | srem (d : BitVec 6) (a : BitVec 6) (b : BitVec 6) (u : BitVec 1)
  /-- SAND (R203). Writes the bitwise and of two scalar registers. -/
  | sand (d : BitVec 6) (a : BitVec 6) (b : BitVec 6)
  /-- SOR (R203). Writes the bitwise or of two scalar registers. -/
  | sor (d : BitVec 6) (a : BitVec 6) (b : BitVec 6)
  /-- SXOR (R203). Writes the bitwise xor of two scalar registers. -/
  | sxor (d : BitVec 6) (a : BitVec 6) (b : BitVec 6)
  /-- SSHL (R203). Shifts a scalar register left by B mod 64. -/
  | sshl (d : BitVec 6) (a : BitVec 6) (b : BitVec 6)
  /-- SSHR (R203). Shifts a scalar register right by B mod 64, shifting in zeros. -/
  | sshr (d : BitVec 6) (a : BitVec 6) (b : BitVec 6)
  /-- SSAR (R203). Shifts a scalar register right by B mod 64, shifting in copies of the sign bit. -/
  | ssar (d : BitVec 6) (a : BitVec 6) (b : BitVec 6)
  /-- SMIN (R203). Writes the smaller of two scalar registers, compared signed or unsigned. -/
  | smin (d : BitVec 6) (a : BitVec 6) (b : BitVec 6) (u : BitVec 1)
  /-- SMAX (R203). Writes the larger of two scalar registers, compared signed or unsigned. -/
  | smax (d : BitVec 6) (a : BitVec 6) (b : BitVec 6) (u : BitVec 1)
  /-- SPOPC (R203). Writes the number of one bits of a scalar register. -/
  | spopc (d : BitVec 6) (a : BitVec 6)
  /-- SCLZ (R203). Writes the count of leading zero bits of a scalar register. -/
  | sclz (d : BitVec 6) (a : BitVec 6)
  /-- SMOV (R203). Copies one scalar register into another. -/
  | smov (d : BitVec 6) (a : BitVec 6)
  /-- SSEL (R203). Selects A or B into a scalar register according to q register N. -/
  | ssel (d : BitVec 6) (a : BitVec 6) (b : BitVec 6) (n : BitVec 3)
  /-- SCMP (R204). Writes a q register with the result of comparing two scalar registers under a condition code. -/
  | scmp (d : BitVec 3) (a : BitVec 6) (b : BitVec 6) (c : BitVec 3)
  /-- AADD (R207). Adds a signed scalar register to an address register, faulting on wrap. -/
  | aadd (d : BitVec 4) (a : BitVec 4) (b : BitVec 6)
  /-- ASUB (R207). Writes the saturated signed difference of two address registers into a scalar register. -/
  | asub (d : BitVec 6) (a : BitVec 4) (b : BitVec 4)
  /-- ASET (R207). Sets an address register from a scalar register, zero-extended to 72 bits. -/
  | aset (d : BitVec 4) (a : BitVec 6)
  /-- ASET_W (R207). Sets an address register from a scalar register with bits 71–64 taken from a second scalar register. -/
  | asetW (d : BitVec 4) (a : BitVec 6) (b : BitVec 6)
  /-- AGET (R207). Writes bits 63–0 of an address register into a scalar register. -/
  | aget (d : BitVec 6) (a : BitVec 4)
  /-- AGET_HI (R207). Writes bits 71–64 of an address register, zero-extended, into a scalar register. -/
  | agetHi (d : BitVec 6) (a : BitVec 4)
  /-- ACMP (R207). Compares two address registers as 72-bit unsigned values into a q register. -/
  | acmp (d : BitVec 3) (a : BitVec 4) (b : BitVec 4) (c : BitVec 3)
  /-- SADDI (R205). Adds a sign-extended 14-bit immediate to a scalar register. -/
  | saddi (d : BitVec 6) (a : BitVec 6) (i : BitVec 14)
  /-- SANDI (R205). Ands a scalar register with a sign-extended immediate. -/
  | sandi (d : BitVec 6) (a : BitVec 6) (i : BitVec 14)
  /-- SORI (R205). Ors a scalar register with a sign-extended immediate. -/
  | sori (d : BitVec 6) (a : BitVec 6) (i : BitVec 14)
  /-- SXORI (R205). Xors a scalar register with a sign-extended immediate. -/
  | sxori (d : BitVec 6) (a : BitVec 6) (i : BitVec 14)
  /-- SSHLI (R205). Shifts a scalar register left by a 6-bit immediate. -/
  | sshli (d : BitVec 6) (a : BitVec 6) (i : BitVec 6)
  /-- SSHRI (R205). Shifts a scalar register right by a 6-bit immediate, shifting in zeros. -/
  | sshri (d : BitVec 6) (a : BitVec 6) (i : BitVec 6)
  /-- SSARI (R205). Shifts a scalar register right arithmetically by a 6-bit immediate. -/
  | ssari (d : BitVec 6) (a : BitVec 6) (i : BitVec 6)
  /-- SCMPI (R205). Compares a scalar register with a signed 11-bit immediate into a q register. -/
  | scmpi (d : BitVec 3) (a : BitVec 6) (c : BitVec 3) (i : BitVec 11)
  /-- AADDI (R207). Adds a sign-extended immediate to an address register, faulting on wrap. -/
  | aaddi (d : BitVec 4) (a : BitVec 4) (i : BitVec 14)
  /-- SLUI (R206). Shifts a scalar register left by 20 and adds a 20-bit immediate. -/
  | slui (d : BitVec 6) (i : BitVec 20)
  /-- BR (R208). Branches unconditionally by a signed word offset. -/
  | br (o : BitVec 22)
  /-- BQ (R208). Branches when q register N equals the sense bit. -/
  | bq (q : BitVec 3) (s : BitVec 1) (o : BitVec 22)
  /-- BRD (R175). Divergent branch: waits for earlier runs, opens a join record and splits the path by a lane predicate. -/
  | brd (p : BitVec 3) (s : BitVec 1) (t : BitVec 11) (j : BitVec 11)
  /-- CALL (R208). Saves the return word offset in s63 and branches. -/
  | call (o : BitVec 22)
  /-- JOIN (R178). Waits for the path's runs, then marks its lanes arrived at its innermost join record and gives up the slot. -/
  | join
  /-- CALLI (R209). Saves the return offset in s63 and jumps to a word offset held in a scalar register. -/
  | calli (a : BitVec 6)
  /-- RET (R209). Jumps to the word offset held in s63. -/
  | ret
  /-- EXIT (R180). Waits for the path's runs, then its lanes exit and it gives up its slot. -/
  | exit
  /-- NAP (R209). Makes the path ineligible for a number of cycles held in a scalar register. -/
  | nap (a : BitVec 6)
  /-- YIELD (R211). Waits for the path's runs, then pushes the path as a yielded path if another path or READY fragment waits for a slot. -/
  | yield
  /-- LOOP (R212). Decrements a scalar register and branches while it is not zero. -/
  | loop (d : BitVec 6) (i : BitVec 14)
  /-- SLD (R145). Scalar load of 1 to 8 bytes into a scalar register, extended by size. -/
  | sld (d : BitVec 6) (r : BitVec 4) (z : BitVec 4) (l : BitVec 4) (i : BitVec 8)
  /-- SST (R145). Scalar store of the low bytes of a scalar register. -/
  | sst (d : BitVec 6) (r : BitVec 4) (z : BitVec 4) (l : BitVec 4) (i : BitVec 8)
  /-- SLDA (R145). Loads an address register from 8 or 16 bytes of memory. -/
  | slda (d : BitVec 4) (r : BitVec 4) (z : BitVec 4) (l : BitVec 4) (i : BitVec 8)
  /-- SSTA (R145). Stores an address register as 16 bytes with bits 127–72 zero. -/
  | ssta (d : BitVec 4) (r : BitVec 4) (l : BitVec 4) (i : BitVec 8)
  /-- SAMO (R146). Scalar 8-byte atomic at an address register with ordering and scope, returning the old value. -/
  | samo (d : BitVec 6) (a : BitVec 4) (b : BitVec 6) (o : BitVec 4) (r : BitVec 2) (s : BitVec 2)
  /-- LRUN (R213). Places a lane run of 1 to 64 words into the path's lane queue, waiting while the queue is full. -/
  | lrun (c : BitVec 6) (o : BitVec 20)
  /-- LSYNC (R214). Waits until every earlier run of the path has completed and its accesses are performed. -/
  | lsync
  /-- BARA (R216). Arrives at a team barrier after earlier accesses are performed, and continues. -/
  | bara (b : BitVec 4)
  /-- BARW (R192). Waits until the phase in which the path last arrived at the barrier completes. -/
  | barw (b : BitVec 4)
  /-- BARAW (R216). Arrives at a team barrier and waits for the phase to complete. -/
  | baraw (b : BitVec 4)
  /-- GANGSET (R217). Checks a value against the gang register layout and writes it into g0. -/
  | gangset (s : BitVec 6)
  /-- TXLD (R267). Fetches a shape record, checks operands and enqueues a copy of a box from memory into the canvas or a ring stage. -/
  | txld (q : BitVec 2) (r : BitVec 4) (g : BitVec 4) (c : BitVec 6) (l : BitVec 4)
  /-- TXST (R267). Fetches a shape record, checks operands and enqueues a copy of canvas tiles out to memory. -/
  | txst (q : BitVec 2) (r : BitVec 4) (g : BitVec 4) (c : BitVec 6) (l : BitVec 4)
  /-- TXPF (R268). Enqueues a prefetch walk of a box into L2 or a migration request, reading nothing into the canvas. -/
  | txpf (q : BitVec 2) (r : BitVec 4) (g : BitVec 4)
  /-- WBLOAD (R269). Reads and checks a B tile head and enqueues its load into a weight slot. -/
  | wbload (q : BitVec 2) (s : BitVec 6) (c : BitVec 6) (l : BitVec 4)
  /-- RECFENCE (R270). After the path's stores are performed, removes one record from the core's record cache. -/
  | recfence (r : BitVec 4)
  /-- RECFENCE_ALL (R270). After the path's stores are performed, empties the core's record cache. -/
  | recfenceAll
  /-- QFENCE (R168). Places one fence entry at the tail of every named engine queue in one step. -/
  | qfence (m : BitVec 4)
  /-- QWAIT (R169). Waits until every entry the warp placed in the named engine queues has retired; an acquire at team scope. -/
  | qwait (m : BitVec 4) (l : BitVec 4)
  /-- CNODE (R110). Creates a change-tree node at the lowest free index under a parent, bumping the parent. -/
  | cnode (d : BitVec 6) (p : BitVec 6) (l : BitVec 4)
  /-- CENROL (R111). Enrols a range of granules under a node, bumping the gaining and losing nodes. -/
  | cenrol (n : BitVec 6) (a : BitVec 4) (c : BitVec 6)
  /-- CUNROL (R111). Returns a range of enrolled granules to the root's direct set. -/
  | cunrol (a : BitVec 4) (c : BitVec 6)
  /-- CREAD (R112). Reads a node's count as it stands without waiting for roll-up. -/
  | cread (d : BitVec 6) (n : BitVec 6) (l : BitVec 4)
  /-- CSETTLE (R113). Settles a node, carrying every pending mark beneath it, and returns its count. -/
  | csettle (d : BitVec 6) (n : BitVec 6) (l : BitVec 4)
  /-- CWATCH (R114). Binds or unbinds a node to a watch slot of a standing system. -/
  | cwatch (n : BitVec 6) (y : BitVec 6) (z : BitVec 6)
  /-- CREPAR (R106). Atomically moves a node and its subtree under a new parent. -/
  | crepar (n : BitVec 6) (p : BitVec 6)
  /-- CFREE (R116). Frees a childless, unwatched node with no enrolled granules, bumping its parent. -/
  | cfree (n : BitVec 6)
  /-- CREAD_G (R112). Reads the 32-bit count of the granule holding an address. -/
  | creadG (d : BitVec 6) (a : BitVec 4) (l : BitVec 4)
  /-- RAISE (R302). Sends a max-form raise of a plot of a standing system, as a release. -/
  | raise (x : BitVec 6) (y : BitVec 6) (z : BitVec 6)
  /-- RAISE_SUM (R302). Sends a sum-form raise of a plot of a standing system, as a release. -/
  | raiseSum (x : BitVec 6) (y : BitVec 6) (z : BitVec 6)
  /-- PLOTEND (R303). Waits for the path's runs, accesses and raises, records a stated key and exits the path. -/
  | plotend (x : BitVec 6)
  /-- REAP (R305). Takes a consistent copy of plot iterate regions and writes a reap report with the residual bound. -/
  | reap (d : BitVec 6) (a : BitVec 4) (l : BitVec 4)
  /-- SYSR (R219). Reads a snapshot of a system register into a scalar register. -/
  | sysr (d : BitVec 6) (n : BitVec 12)
  /-- SYSW (R219). Writes a system register from a scalar register. -/
  | sysw (s : BitVec 6) (n : BitVec 12)
  /-- TRAP (R220). Delivers a software trap with the given code to the context's trap vector. -/
  | trap (c : BitVec 8)
  /-- TRET (R346). Ends the running handler and applies its disposition: replay, skip or exit. -/
  | tret
  /-- BRKPT (R221). Stops the path for an attached debugger with breakpoints enabled, reporting a tag. -/
  | brkpt (t : BitVec 12)
  /-- FENCE (R147). Scalar fence with ordering and scope, optionally covering earlier lane runs. -/
  | fence (l : BitVec 1) (s : BitVec 2) (o : BitVec 2)
  /-- PSET (R223). Sets and checks one parameter of the pending launch in the Prologue Unit. -/
  | pset (s : BitVec 6) (n : BitVec 12)
  /-- PCANCEL (R222). Ends the prologue run with no launch. -/
  | pcancel
  /-- PREPEAT (R224). Ends the prologue, makes the launch and asks for a repeat. -/
  | prepeat
  -- lane words
  /-- VADD (R229). Per-lane integer add, wrapping or saturating. -/
  | vadd (f : LaneWord)
  /-- VSUB (R229). Per-lane integer subtract. -/
  | vsub (f : LaneWord)
  /-- VMUL (R229). Per-lane integer multiply. -/
  | vmul (f : LaneWord)
  /-- VMULH (R229). Per-lane high half of an integer product. -/
  | vmulh (f : LaneWord)
  /-- VMAD (R229). Per-lane integer multiply-add. -/
  | vmad (f : LaneWord)
  /-- VMIN (R229). Per-lane integer minimum. -/
  | vmin (f : LaneWord)
  /-- VMAX (R229). Per-lane integer maximum. -/
  | vmax (f : LaneWord)
  /-- VABS (R229). Per-lane integer absolute value. -/
  | vabs (f : LaneWord)
  /-- VNEG (R229). Per-lane integer negation. -/
  | vneg (f : LaneWord)
  /-- VDOT4 (R229). Per-lane four-byte dot product with addend. -/
  | vdot4 (f : LaneWord)
  /-- VSHL (R230). Per-lane left shift. -/
  | vshl (f : LaneWord)
  /-- VSHR (R230). Per-lane logical right shift. -/
  | vshr (f : LaneWord)
  /-- VSAR (R230). Per-lane arithmetic right shift. -/
  | vsar (f : LaneWord)
  /-- VAND (R230). Per-lane bitwise and. -/
  | vand (f : LaneWord)
  /-- VOR (R230). Per-lane bitwise or. -/
  | vor (f : LaneWord)
  /-- VXOR (R230). Per-lane bitwise xor. -/
  | vxor (f : LaneWord)
  /-- VNOT (R230). Per-lane bitwise complement. -/
  | vnot (f : LaneWord)
  /-- VLOP3 (R230). Per-lane three-input logic operation from an 8-bit table. -/
  | vlop3 (f : LaneWord)
  /-- VPOPC (R230). Per-lane population count. -/
  | vpopc (f : LaneWord)
  /-- VCLZ (R230). Per-lane leading-zero count. -/
  | vclz (f : LaneWord)
  /-- VBREV (R230). Per-lane bit reversal. -/
  | vbrev (f : LaneWord)
  /-- VBFX (R230). Per-lane bit-field extract. -/
  | vbfx (f : LaneWord)
  /-- VBFI (R230). Per-lane bit-field insert. -/
  | vbfi (f : LaneWord)
  /-- VMOV (R231). Per-lane register move. -/
  | vmov (f : LaneWord)
  /-- VMOVI (R231). Per-lane move of an immediate. -/
  | vmovi (f : LaneWord)
  /-- VMOVS (R231). Moves a scalar or address register value into every active lane. -/
  | vmovs (f : LaneWord)
  /-- VSEL (R231). Per-lane select by a predicate. -/
  | vsel (f : LaneWord)
  /-- VCMP (R232). Per-lane compare into a predicate. -/
  | vcmp (f : LaneWord)
  /-- VLANE (R231). Writes each lane's index. -/
  | vlane (f : LaneWord)
  /-- FADD (R234). Per-lane floating-point add. -/
  | fadd (f : LaneWord)
  /-- FSUB (R234). Per-lane floating-point subtract. -/
  | fsub (f : LaneWord)
  /-- FMUL (R234). Per-lane floating-point multiply. -/
  | fmul (f : LaneWord)
  /-- FFMA (R234). Per-lane fused multiply-add rounded once. -/
  | ffma (f : LaneWord)
  /-- FMIN (R235). Per-lane floating-point minimum. -/
  | fmin (f : LaneWord)
  /-- FMAX (R235). Per-lane floating-point maximum. -/
  | fmax (f : LaneWord)
  /-- FABS (R234). Per-lane clearing of the sign bit. -/
  | fabs (f : LaneWord)
  /-- FNEG (R234). Per-lane inversion of the sign bit. -/
  | fneg (f : LaneWord)
  /-- FCPYS (R234). Per-lane copy of a sign bit. -/
  | fcpys (f : LaneWord)
  /-- FCLASS (R235). Per-lane floating-point class mask. -/
  | fclass (f : LaneWord)
  /-- FDIV (R234). Per-lane correctly rounded division. -/
  | fdiv (f : LaneWord)
  /-- FSQRT (R234). Per-lane correctly rounded square root. -/
  | fsqrt (f : LaneWord)
  /-- FRCP (R234). Per-lane correctly rounded reciprocal. -/
  | frcp (f : LaneWord)
  /-- FRSQ (R236). Per-lane approximate reciprocal square root. -/
  | frsq (f : LaneWord)
  /-- FEXP2 (R236). Per-lane approximate power of two. -/
  | fexp2 (f : LaneWord)
  /-- FLOG2 (R236). Per-lane approximate base-2 logarithm. -/
  | flog2 (f : LaneWord)
  /-- FSIN (R236). Per-lane approximate sine. -/
  | fsin (f : LaneWord)
  /-- FCOS (R236). Per-lane approximate cosine. -/
  | fcos (f : LaneWord)
  /-- CVT (R237). Per-lane type conversion. -/
  | cvt (f : LaneWord)
  /-- VSHUF (R240). Moves values between present lanes by index, xor, up or down, with an identity operand. -/
  | vshuf (f : LaneWord)
  /-- VVOTE (R245). Writes any, all or ballot of a predicate over present lanes into scalar registers. -/
  | vvote (f : LaneWord)
  /-- VRED (R241). Reduces a lane register over present lanes into a scalar register by a fixed tree. -/
  | vred (f : LaneWord)
  /-- VREDIX (R242). Writes the least or greatest value over present lanes and the lowest lane holding it. -/
  | vredix (f : LaneWord)
  /-- VSCAN (R243). Per-lane inclusive or exclusive scan over present lanes. -/
  | vscan (f : LaneWord)
  /-- VGET (R247). Copies one lane's value into a scalar register. -/
  | vget (f : LaneWord)
  /-- VSYNC (R248). Lanes arrive with a membership mask and wait until every member lane has arrived. -/
  | vsync (f : LaneWord)
  /-- PAND (R238). Per-lane predicate and. -/
  | pand (f : LaneWord)
  /-- POR (R238). Per-lane predicate or. -/
  | por (f : LaneWord)
  /-- PXOR (R238). Per-lane predicate xor. -/
  | pxor (f : LaneWord)
  /-- PNOT (R238). Per-lane predicate complement. -/
  | pnot (f : LaneWord)
  /-- PMOV (R238). Per-lane predicate move, optionally of the dead-source bit. -/
  | pmov (f : LaneWord)
  /-- PGET (R246). Writes a predicate's value or dead-source bits over the path's live lanes into scalar registers. -/
  | pget (f : LaneWord)
  /-- VLD (R140). Per-lane global load with translation, permission and race checks. -/
  | vld (f : LaneWord)
  /-- VST (R140). Per-lane global store that bumps granule counts. -/
  | vst (f : LaneWord)
  /-- VPF (R141). Per-lane prefetch of a line into L1 or L2, never faulting. -/
  | vpf (f : LaneWord)
  /-- VAMO (R142). Per-lane global atomic with ordering and scope. -/
  | vamo (scope : BitVec 2) (f : LaneWord)
  /-- VFENCE (R144). Lane-stream fence ordering earlier accesses of both streams against later lane accesses. -/
  | vfence (f : LaneWord)
  /-- CLD (R61). Per-lane canvas load after bounds checks. -/
  | cld (f : LaneWord)
  /-- CST (R61). Per-lane canvas store after bounds and ring-header checks. -/
  | cst (f : LaneWord)
  /-- CAMO (R62). Per-lane canvas atomic performed by the bank ALU. -/
  | camo (f : LaneWord)
  /-- CUPD (R63). Per-lane in-place bank update of 1 to 4 elements without return. -/
  | cupd (f : LaneWord)
  /-- CRED (R64). Per-lane reduction over a canvas run read atomically. -/
  | cred (f : LaneWord)
  /-- RINIT (R70). Writes a ring header with every stage free, or retires an idle ring. -/
  | rinit (f : LaneWord)
  /-- RWAIT_FILL (R71). Waits until a ring stage is ready, then grants the stage at CIDX. -/
  | rwaitFill (f : LaneWord)
  /-- RWAIT_FREE (R71). Waits until a ring stage is free, then claims the stage at PIDX for lane producers. -/
  | rwaitFree (f : LaneWord)
  /-- RFREE (R72). Releases a granted or poisoned ring stage. -/
  | rfree (f : LaneWord)
  /-- RPOST (R72). Marks a claimed ring stage filled. -/
  | rpost (f : LaneWord)
  /-- MXACC (R275). Joint gang form: accumulates an A tile times a weight slot into accumulator tiles. -/
  | mxacc (f : LaneWord)
  /-- MXZERO (R277). Joint gang form that zeroes accumulator tiles. -/
  | mxzero (f : LaneWord)
  /-- MXLOADC (R277). Joint gang form that loads accumulator tiles from CX tiles. -/
  | mxloadc (f : LaneWord)
  /-- MXDRAIN (R277). Joint gang form that writes accumulator tiles as CX tiles, optionally merging amax. -/
  | mxdrain (f : LaneWord)
  /-- VRKEY (R299). Per-lane conversion of a value into a residual key. -/
  | vrkey (f : LaneWord)
  /-- VRAISE (R300). Per-lane raises of plots of a standing system, as a release. -/
  | vraise (f : LaneWord)
  -- events of the module's other agents
  /-- MATRIX_OPERATION (R274). The array performs a released operation, waiting for a loading slot, warp by warp in g0 order. -/
  | matrixOperation (core : Nat)
  /-- ROLLUP_GRANULE_STEP (R101). A roll-up engine clears a granule's pending mark and bumps its node. -/
  | rollupGranuleStep (granule : Nat)
  /-- ROLLUP_NODE_STEP (R101). A roll-up engine carries a node's pending mark to its parent. -/
  | rollupNodeStep (ctx node : Nat)
  /-- WATCH_EVENT (R105). A watch event from a node's count change arrives at the RD and raises the slot's plots to 0xFFFF. -/
  | watchEvent (sys slot : Nat)
  /-- RAISE_ARRIVAL (R285). A raise arrives at the plot's home or forwarding RD and updates the key. -/
  | raiseArrival (k : Nat)
  /-- DEAL (R319). A die chooses a context and draws a queue by lottery to deal a team into a free slot. -/
  | deal (die : Nat)
  /-- PLOT_TASK_COMPLETE (R287). A plot task completes; its key is recomputed and the plot becomes pending or idle. -/
  | plotTaskComplete (sys plot : Nat)
  /-- QUIET_ROUND (R292). The lead RD begins a quiet round of settles and die queries for a system. -/
  | quietRound (sys : Nat)
  /-- REHOME_SWITCH (R296). After the plot is idle or pending and its kept canvas is copied, the plot switches to its new RD. -/
  | rehomeSwitch (set : Nat)
  /-- TEAM_END (R262). A team ends once its last warp ends and its engine entries retire, releasing canvas, grant and slot. -/
  | teamEnd (team : Nat)
  /-- FRAGMENT_HANDLER_ENTRY (R344). A READY fragment takes a free slot and enters the context's trap handler. -/
  | fragmentHandlerEntry (core entry : Nat)
  /-- ASYNC_EVENT_DELIVERY (R349). A pending asynchronous event is delivered to the lowest live path not in a handler. -/
  | asyncEventDelivery (wid : Nat)
  /-- MIGRATE_MOVE (R23). Firmware completes moving a migrate-on-touch page and repairs the parked fragments. -/
  | migrateMove (ctx vpn : Nat) (frame : Option Nat)
  /-- PENDING_DATA_ARRIVAL (R94). Data for a link-stalled fragment arrives; its result is written and it resumes. -/
  | pendingDataArrival (core entry : Nat)
  /-- NAP_EXPIRY (R209). A napping path's cycle count runs out and it becomes eligible. -/
  | napExpiry (wid slot : Nat)
  /-- ENGINE_ENTRY_START (R262). An engine queue entry reaches its queue head and starts moving data. -/
  | engineEntryStart (core q : Nat)
  /-- ENGINE_SEGMENT_COMPLETE (R263). An engine entry completes a 256-byte output segment, filling a ring stage when all are counted. -/
  | engineSegmentComplete (core q : Nat)
  /-- ENGINE_ENTRY_RETIRE (R263). An engine entry retires once all its writes are performed. -/
  | engineEntryRetire (core q : Nat)
  /-- ENGINE_QUEUE_RESUME (R264). A parked engine queue resumes at its first uncounted segment after repair. -/
  | engineQueueResume (core q : Nat)
  /-- QFENCE_RETIRE (R168). Fence entries of one QFENCE all stand at their queue heads and retire together. -/
  | qfenceRetire (core q : Nat)
  /-- RING_GRANT (R71). A waiting ring request is granted or claims its stage when the ring has one ready or free. -/
  | ringGrant (team offset : Nat)
  /-- DRAWER_REQUEST_ENQUEUE (R82). A request enters a drawer link controller's queue when an entry is free. -/
  | drawerRequestEnqueue (link : Nat)
  /-- LINK_SLOT (R86). A downstream slot departs, its read and write parts filled by class, lending and pool rotation. -/
  | linkSlot (link : Nat)
  /-- UPSTREAM_FLIT (R85). An upstream flit of read data or atomic result arrives from the drawer. -/
  | upstreamFlit (link : Nat) (header : BitVec 128)
  /-- FRAME_BOUNDARY (R87). A frame boundary makes a committed slot table live and completes a pending park. -/
  | frameBoundary (link : Nat)
  /-- FRAME_MARK (R91). A frame mark completes a waiting switch to the woken width. -/
  | frameMark (link : Nat)
  /-- RETUNE_ELAPSED (R91). 1.2 µs of retune elapse and the link enters LOCKING. -/
  | retuneElapsed (link : Nat)
  /-- LOCK_HELD (R91). Lock is held for 0.4 µs and the link enters SWITCH. -/
  | lockHeld (link : Nat)
  /-- LOCK_REGAINED (R93). A retraining link regains lock, replays and returns to RUN. -/
  | lockRegained (link : Nat)
  /-- RETRAIN_TIMEOUT (R94). 100 µs pass without lock and the link goes DOWN as a fatal device error. -/
  | retrainTimeout (link : Nat)
  /-- SHOOTDOWN_COMPLETE (R25). Every translating agent has acknowledged; BUSY clears and SEQ advances. -/
  | shootdownComplete (set : Nat)
  /-- CT_COMMAND_COMPLETE (R117). A tree command completes, filling CTRES and clearing BUSY. -/
  | ctCommandComplete (set : Nat)
  /-- SCRUB_COMPLETE (R311). The last scrub write is performed and SCRUB clears. -/
  | scrubComplete (ctx q : Nat)
  /-- ENTRY_CONSUME (R314). The front end reads a published entry whose marker matches, advances QHEAD and writes the head word. -/
  | entryConsume (ctx q : Nat)
  /-- SLOT_REREAD (R314). The 2 µs timer rereads an unpublished slot. -/
  | slotReread (ctx q : Nat)
  /-- ENTRY_COMPLETE (R315). A queue entry completes and its completion word is written. -/
  | entryComplete (ctx q : Nat)
  /-- LAUNCH (R316). Queue command that reads a job card and launches its teams, possibly repeated. -/
  | launch (ctx q : Nat)
  /-- WAITSEM (R321). Queue command that waits until a semaphore word satisfies a comparison. -/
  | waitsem (ctx q : Nat)
  /-- SEMAPHORE_REREAD (R321). A semaphore is read again on its granule count change or at the 4 µs timer. -/
  | semaphoreReread (ctx q : Nat)
  /-- SIGSEM (R321). Queue command that atomically updates a semaphore word. -/
  | sigsem (ctx q : Nat)
  /-- QFENCE_ENTRY (R333). Queue command that completes together with matching fences of the named queues. -/
  | qfenceEntry (ctx q : Nat)
  /-- GRAPH (R330). Queue command that reads a graph and runs its nodes from START. -/
  | graph (ctx q : Nat)
  /-- KERNEL_NODE (R330). A graph KERNEL node launches a job card and waits for it. -/
  | kernelNode (ctx q : Nat)
  /-- COND_NODE (R330). A graph COND node reads a word and chooses NEXT or ALT. -/
  | condNode (ctx q : Nat)
  /-- LOOP_NODE (R330). A graph LOOP node tests a word and its count to enter the body or leave. -/
  | loopNode (ctx q : Nat)
  /-- END_NODE (R330). A graph END node completes the entry. -/
  | endNode (ctx q : Nat)
  /-- ATTACH (R283). Queue command that checks and makes a standing system live on its queue. -/
  | attach (ctx q : Nat)
  /-- DETACH (R297). Queue command that stops a system, waits for tasks and writes keys back. -/
  | detach (ctx q : Nat)
  /-- REAPQ (R331). Queue command that performs a reap and writes only the report. -/
  | reapq (ctx q : Nat)
  /-- COPY (R332). Queue command that copies a byte range in 8-byte units. -/
  | copy (ctx q : Nat)
  /-- PROLOGUE_RUN (R328). The Prologue Unit starts a prologue run before a launch. -/
  | prologueRun (ctx q : Nat)
  /-- LAUNCH_COMPLETE (R327). Every team of a launch has ended and its writes are performed. -/
  | launchComplete (ctx q : Nat)
  /-- HOME_DIE_TIMEOUT (R324). A non-strict chunk whose home die has lacked room for 2 µs is offered to every die. -/
  | homeDieTimeout (ctx q : Nat)
  /-- DRAIN_DEADLINE (R352). The drain deadline expires and the context freezes or is reset. -/
  | drainDeadline (ctx : Nat)
  /-- FREEZE_COMPLETE (R353). The image is written, resources are released and STATE becomes frozen. -/
  | freezeComplete (ctx : Nat)
  /-- LINK_POLICY_SAMPLE (R384). Every 100 µs firmware samples link FLITS and parks idle links. -/
  | linkPolicySample
  /-- CORE_POWER_GATE (R387). A core that has held no team for 50 µs is power-gated. -/
  | corePowerGate (core : Nat)
  /-- CORE_WAKE (R387). A gated core finishes waking for a deal. -/
  | coreWake (core : Nat)
  /-- OPERATING_POINT_CHANGE (R386). The governor completes a change of a die's operating point. -/
  | operatingPointChange (die : Nat)
  /-- BREAKPOINT_STOP (R371). A path about to issue a matching breakpoint PC stops before it. -/
  | breakpointStop (wid slot : Nat) (lane : Bool)
  /-- SAMPLE (R374). Each sample period a core writes a path record of the next resident warp. -/
  | sample (ctx core : Nat)
  /-- DEADLOCK_CHECK (R375). Every 1 ms firmware builds a wait-for graph and reports standing cycles. -/
  | deadlockCheck (ctx : Nat)
  /-- ME_TRANSACTION_COMPLETE (R336). A mailbox transaction finishes: MBRES is written and BUSY clears. -/
  | meTransactionComplete (mb : Nat)
  /-- RESTORE_COMPLETE (R354). A restore finishes placing every team from the image and the context leaves STATE restoring. -/
  | restoreComplete (ctx : Nat)
  /-- STAGE_COMPLETE (R377). A start-up stage completes or fails and MODSTAT advances. -/
  | stageComplete (fcode : BitVec 8) (linkUp : BitVec 32)
  -- commands and inputs from outside
  /-- REHOME (R295). RHCMD GO starts the re-home of a plot to a new die. -/
  | rehome (set : Nat) (v : DWord)
  /-- LOSS_OF_LOCK (R93). A wavelength in use loses lock and the link enters RETRAIN. -/
  | lossOfLock (link : Nat)
  /-- WAKING_LOCK_LOSS (R91). A waking wavelength loses lock and the lock phase restarts. -/
  | wakingLockLoss (link : Nat)
  /-- FLIT_CRC_FAIL (R93). A flit fails its CRC after correction and the sender replays from the last ACK. -/
  | flitCrcFail (link : Nat)
  /-- DLCTL_WRITE (R367). A write of a link's control register replaces its RW fields and may count as a threshold crossing. -/
  | dlctlWrite (link : Nat) (v : DWord)
  /-- DLCOMMIT (R87). DLCOMMIT GO arms the shadow slot table to go live at the next frame boundary. -/
  | dlcommit (link : Nat) (v : DWord)
  /-- SHOOTDOWN_PAGES (R25). XSCMD GO with KIND pages starts a shoot-down of a page range. -/
  | shootdownPages (set : Nat) (v : DWord)
  /-- SHOOTDOWN_SPACE (R25). XSCMD GO with KIND whole space starts a shoot-down of one space. -/
  | shootdownSpace (set : Nat) (v : DWord)
  /-- SHOOTDOWN_EVERY_SPACE (R25). XSCMD GO with KIND every space starts a shoot-down of every space. -/
  | shootdownEverySpace (set : Nat) (v : DWord)
  /-- CT_SETTLE_NODE (R117). CTCMD GO with KIND 0b00 settles a node and reads its record. -/
  | ctSettleNode (set : Nat) (v : DWord)
  /-- CT_READ_RECORD (R117). CTCMD GO with KIND 0b01 reads a node record. -/
  | ctReadRecord (set : Nat) (v : DWord)
  /-- CT_READ_GRANULE (R117). CTCMD GO with KIND 0b10 translates an address and reads its granule count. -/
  | ctReadGranule (set : Nat) (v : DWord)
  /-- QTAIL_WRITE (R312). A write to QTAIL takes the maximum and triggers a reread of an unpublished slot. -/
  | qtailWrite (ctx q : Nat) (v : DWord)
  /-- QCFG_WRITE (R311). A QCFG write changes queue configuration, and enabling the queue starts the scrub. -/
  | qcfgWrite (ctx q : Nat) (v : DWord)
  /-- ME_WRITE (R336). Mailbox GO with OP write performs a host write through the ME. -/
  | meWrite (mb : Nat) (v : DWord)
  /-- ME_READ (R336). Mailbox GO with OP read performs a host read through the ME. -/
  | meRead (mb : Nat) (v : DWord)
  /-- ME_ADD (R336). Mailbox GO with OP add performs an atomic add. -/
  | meAdd (mb : Nat) (v : DWord)
  /-- ME_MAX (R336). Mailbox GO with OP max performs an unsigned atomic maximum. -/
  | meMax (mb : Nat) (v : DWord)
  /-- ME_CAS (R336). Mailbox GO with OP cas performs an atomic compare-and-swap. -/
  | meCas (mb : Nat) (v : DWord)
  /-- MAILBOX_DATA_WRITE (R339). A write to MBADDR, MBDATA or MBCMP, discarded while BUSY. -/
  | mailboxDataWrite (mb reg : Nat) (v : DWord)
  /-- CTXCFG_WRITE (R310). A CTXCFG write sets the slot, RUN and FUNC, and clearing V returns the slot fresh when allowed. -/
  | ctxcfgWrite (fn ctx : Nat) (v : DWord)
  /-- SSOWN_WRITE (R397). A write of a system ownership register, discarded while the system is live. -/
  | ssownWrite (fn n : Nat) (v : DWord)
  /-- CTX_DRAIN (R352). CTXPRE GO with OP drain stops dealing and sends pre-emption notices. -/
  | ctxDrain (ctx : Nat) (v : DWord)
  /-- CTX_RESUME (R352). CTXPRE GO with OP resume restarts dealing for a drained context. -/
  | ctxResume (ctx : Nat) (v : DWord)
  /-- CTX_RESTORE (R354). CTXPRE GO with OP restore reinstates a saved context image. -/
  | ctxRestore (ctx : Nat) (v : DWord)
  /-- CTX_RESET (R352). CTXPRE GO with OP reset tears the context down with cause reset. -/
  | ctxReset (ctx : Nat) (v : DWord)
  /-- UNCORRECTABLE_ERROR (R358). An uncorrectable error in registers or scalar state poisons data or kills lanes or warps. -/
  | uncorrectableError (site : ErrSite)
  /-- SCHEDULER_REBUILD (R362). A non-one-hot scheduler code stops issue and the core rebuilds its scheduler. -/
  | schedulerRebuild (core : Nat) (ok : Bool)
  /-- DEVPOP (R363). A write of 1 to DEVPOP bit 63 removes the oldest error log entry. -/
  | devpop (v : DWord)
  /-- SECURITY_ALARM (R365). A tamper, glitch or measurement mismatch raises the fatal security alarm. -/
  | securityAlarm
  /-- MEASUREMENT_CHECK (R382). Policy Core firmware is measured again every 10 ms. -/
  | measurementCheck (matches_ : Bool)
  /-- ATTESTATION_REQUEST (R382). An MCTP attestation request with a nonce is answered with signed measurements. -/
  | attestationRequest (nonce : BitVec 256)
  /-- THERMAL_TRIP (R388). A die junction reaches 105 °C and power is removed from every compute die. -/
  | thermalTrip (die : Nat)
  /-- RESET_RELEASE (R377). Reset is released and the module begins stage 0. -/
  | resetRelease
  /-- MODRST (R377). A write of 1 to MODRST bit 63 resets the module. -/
  | modrst (v : DWord)
  /-- DBG_STOP (R372). DBGCMD stop halts the named path at its next boundary. -/
  | dbgStop (ctx : Nat) (v : DWord)
  /-- DBG_RESUME (R372). DBGCMD resume runs the named stopped path on. -/
  | dbgResume (ctx : Nat) (v : DWord)
  /-- DBG_STEP_SCALAR (R372). DBGCMD step scalar issues one scalar instruction of a stopped path. -/
  | dbgStepScalar (ctx : Nat) (v : DWord)
  /-- DBG_STEP_LANE (R372). DBGCMD step lane issues one lane instruction of a stopped path. -/
  | dbgStepLane (ctx : Nat) (v : DWord)
  /-- DBG_STOP_ALL (R372). DBGCMD stop all halts every path of the context. -/
  | dbgStopAll (ctx : Nat) (v : DWord)
  /-- DBG_RESUME_ALL (R372). DBGCMD resume all runs every stopped path on. -/
  | dbgResumeAll (ctx : Nat) (v : DWord)
  /-- DBG_REPLAY (R372). DBGCMD replay resumes a watch-hit fragment with DISP replay. -/
  | dbgReplay (ctx : Nat) (v : DWord)
  /-- DBG_SKIP (R372). DBGCMD skip resumes a watch-hit fragment with DISP skip. -/
  | dbgSkip (ctx : Nat) (v : DWord)
  /-- DBGCTL_WRITE (R372). A DBGCTL write sets debug enables; clearing ATT resumes stopped paths and disarms watches. -/
  | dbgctlWrite (ctx : Nat) (v : DWord)
  /-- PRFSEL_CLEAR (R376). A write of CLR to PRFSEL clears the selected slice's histogram bins. -/
  | prfselClear (v : DWord)
  /-- REGISTER_WRITE (R309). A write to a hub register with no behaviour of its own updates its fields. -/
  | registerWrite (fn offset : Nat) (v : DWord)
  /-- ECC_CORRECTED (R363). Registers, caches, canvas or near tier correct an ECC error, which is logged as a correctable event with ERR_COR. -/
  | eccCorrected (die core : Nat)
  /-- PEER_WRITE (R158). A host-mediated peer write arrives from PCI Express at the module's memory window and the ME performs it under R155. -/
  | peerWrite (pa size : Nat) (v : DWord)
  /-- POWER_GOVERNOR_DECISION (R386). Over its 1 ms power windows the governor chooses a new operating point for a die and starts the 10 µs change. -/
  | powerGovernorDecision (die : Nat) (point : BitVec 2) (watts : BitVec 16)
  /-- CONVENTIONAL_RESET (R377). A PCI Express conventional reset is asserted on the module's input and the module enters reset. -/
  | conventionalReset
  /-- POWER_LOSS (R381). The module loses power, and only the flash and the replay-protected counters survive. -/
  | powerLoss
  deriving DecidableEq, Repr

end Sys2Proof
end

