-- ==== Sys2Proof/Machine/Legal.lean ====
section
/-! DEFINITION. Which field values an instruction's card accepts (R34, R36, R40, R41, R43, R51): the checks of
R51 rows 4 to 8, made from the encoding alone, in the order of the rows. -/

namespace Sys2Proof

/-- Causes of an illegal-instruction fault (R51). -/
inductive Cause where
  | opcode | type | field | register | budget | window | sysreg
  /-- A bad field of a form of the Prologue Unit: an opcode in a warp, a field in the unit (R51, R328). -/
  | prologue
  deriving DecidableEq, Repr

/-- Cause codes of class illegal (R342). -/
def Cause.code : Cause → Nat
  | .opcode => 1 | .type => 2 | .field => 3 | .register => 4 | .budget => 5 | .window => 6 | .sysreg => 7 | .prologue => 1

/-- What an operand field of a lane card names. -/
inductive Use where
  /-- Not used: must be zero (R40). -/
  | zero
  /-- n lane registers from an aligned start (R34). -/
  | v (n : Nat)
  /-- The even register of the lane offset pair, or 0xFF (R41). -/
  | off
  /-- Must be 0xFF: a memory operand with no offset. -/
  | none255
  | p | m | s | a
  /-- An even scalar register of at most 62, with the one after it (R242, R245). -/
  | spair
  /-- A dither phase (R276). -/
  | phase
  /-- Any value. -/
  | any
  deriving DecidableEq, Repr

/-- What a lane card accepts. -/
structure Card where
  types : List Nat
  d : Use := .zero
  a : Use := .zero
  b : Use := .zero
  c : Use := .zero
  /-- RND may hold any of the five roundings; otherwise it is zero. -/
  rnd : Bool := false
  sat : Bool := false
  /-- MOD bits the card defines. -/
  md : Nat := 0
  /-- The card's own test of EXT; a memory operand tests SCL. -/
  ext : Bool := false
  la : Bool := false
  /-- Further field rules of the card. -/
  field : Bool := true
  deriving DecidableEq, Repr

namespace Card

def int4 : List Nat := [3, 7, 4, 8]
def b2 : List Nat := [9, 10]
def flt : List Nat := [12, 13, 14, 15, 16, 17]
def mem7 : List Nat := [1, 5, 2, 6, 9, 10, 11]
def arith : List Nat := [3, 7, 4, 8, 16]
def all7 : List Nat := [3, 7, 4, 8, 16, 9, 10]

end Card

/-- Registers a value of a type takes in a lane (R36). -/
def typeRegs (t : Nat) : Nat := if t = 4 ∨ t = 8 ∨ t = 10 ∨ t = 17 then 2 else if t = 11 then 4 else 1

/-- Bytes of a memory access of a type (R61, R62, R140). -/
def typeBytes (t : Nat) : Nat :=
  if t = 1 ∨ t = 5 then 1 else if t = 2 ∨ t = 6 then 2 else 4 * typeRegs t

def isSigned (t : Nat) : Bool := 1 ≤ t && t ≤ 4
def isUnsigned (t : Nat) : Bool := 5 ≤ t && t ≤ 8
def isInt (t : Nat) : Bool := 1 ≤ t && t ≤ 8
/-- Unpacked float types (R237). -/
def isFloat (t : Nat) : Bool := t = 12 || t = 14 || t = 16 || t = 17
def isPacked (t : Nat) : Bool := t = 13 || t = 15

namespace LaneWord

def tyN (f : LaneWord) : Nat := f.ty.toNat
/-- MOD bits hi to lo, counted from MOD's own bit 0. -/
def mdN (f : LaneWord) (hi lo : Nat) : Nat := bitsN f.md hi lo
/-- The immediate bit I (R226). -/
def imm (f : LaneWord) : Bool := bitB f.md 0
def extN (f : LaneWord) (hi lo : Nat) : Nat := bitsN f.ext hi lo
/-- The lane registers of one operand of the word's type. -/
def w (f : LaneWord) : Use := .v (typeRegs f.tyN)

end LaneWord

/-- EXT where it may hold an immediate second operand: free when I is 1, zero when not (R226). -/
def immExt (f : LaneWord) : Bool := f.imm || f.ext == 0
/-- B under the immediate bit: zero when I is 1 (R226). -/
def immB (f : LaneWord) (u : Use) : Use := if f.imm then .zero else u
/-- SCL is one of 0 to 7 (R41). -/
def sclOk (f : LaneWord) : Bool := decide (f.extN 27 24 ≤ 7)
def ext0 (f : LaneWord) : Bool := f.ext == 0

/-- Types a reduction or an atomic takes by its operation (R62, R241): add, min, max, then the bitwise three,
then exchange and cas. -/
def opTypes (op : Nat) : List Nat := if op < 3 then Card.arith else if op < 6 then Card.b2 else Card.all7

/-- Rounding belongs to a float add, saturation to an integer add. -/
def fltAdd (f : LaneWord) (op : Nat) : Bool := op == 0 && (isFloat f.tyN || isPacked f.tyN)
def intAdd (f : LaneWord) (op : Nat) : Bool := op == 0 && isInt f.tyN

/-! ## Conversion (R237) -/

/-- The source or destination may stand in a CVT, and the pair is one of its rows. -/
def cvtTypes (dst src : Nat) : Bool :=
  if isPacked dst then src == 16
  else (isInt dst || isFloat dst) && (isInt src || isFloat src) && !(isInt dst && dst == src)

/-- A float type every value of which another float type holds. -/
def widerFloat (dst src : Nat) : Bool :=
  (dst == 17 && src != 17) || (dst == 16 && (src == 12 || src == 14))

def cvtRnd (dst src : Nat) : Bool :=
  if isPacked dst then true
  else if isInt dst && isInt src then false
  else if isFloat dst && isFloat src then !widerFloat dst src
  else true

def cvtSat (dst src : Nat) : Bool :=
  if isPacked dst then true
  else if isInt dst then isInt src
  else isFloat src && dst != src

/-! ## The cards -/

/-- Integer forms with a second operand (R229). -/
def cardInt (f : LaneWord) (sat : Bool) (c : Use) : Card :=
  { types := Card.int4, d := f.w, a := f.w, b := immB f f.w, c := c, sat := sat, md := 1, ext := immExt f }

/-- Bit forms with a second operand (R230). -/
def cardBit (f : LaneWord) : Card :=
  { types := Card.b2, d := f.w, a := f.w, b := immB f f.w, md := 1, ext := immExt f }

/-- Float forms (R234). -/
def cardFlt (f : LaneWord) (useB useC : Bool) (rs : Bool) (ftz : Bool) : Card :=
  { types := Card.flt, d := f.w, a := f.w, b := if useB then f.w else .zero, c := if useC then f.w else .zero,
    rnd := rs, sat := rs, md := if ftz then 16 else 0, ext := ext0 f }

/-- Division and square root (R234). -/
def cardDiv (f : LaneWord) (useB : Bool) : Card :=
  { types := [16, 17], d := f.w, a := f.w, b := if useB then f.w else .zero, rnd := true, md := 16, ext := ext0 f,
    la := true }

/-- Transcendentals (R236). -/
def cardTrans (f : LaneWord) : Card :=
  { types := [16], d := .v 1, a := .v 1, md := 16, ext := ext0 f, la := true }

/-- Predicate forms (R238). -/
def cardPred (f : LaneWord) (useB : Bool) (md : Nat) : Card :=
  { types := [0], d := .p, a := .p, b := if useB then .p else .zero, md := md, ext := ext0 f }

/-- Reductions and scans (R241, R243). -/
def cardRed (f : LaneWord) (d : Use) (md : Nat) : Card :=
  let op := f.mdN 4 2
  { types := if op < 6 then opTypes op else Card.all7, d := d, a := f.w, rnd := fltAdd f op, sat := intAdd f op,
    md := md, ext := true, field := decide (op < 6) }

/-- Atomics (R62, R142). -/
def cardAmo (f : LaneWord) : Card :=
  let op := f.mdN 4 2
  { types := opTypes op, d := f.w, a := if op = 7 then f.w else .zero, b := .off, c := f.w, rnd := fltAdd f op,
    sat := intAdd f op, md := 31, ext := sclOk f, la := true }

/-- CUPD (R63): W registers from C, and from A for saxpy. -/
def cardCupd (f : LaneWord) : Card :=
  let op := f.mdN 4 3
  let wv := Use.v (2 ^ f.mdN 2 1)
  { types := if op = 3 then [16, 13, 15] else [3, 7, 16, 13, 15], a := if op = 3 then wv else .zero, b := .off,
    c := wv, rnd := (op == 0 || op == 3) && !isInt f.tyN, sat := intAdd f op, md := 30, ext := sclOk f, la := true,
    field := decide (f.mdN 2 1 ≠ 3) }

/-- Ring forms (R60). -/
def cardRing (f : LaneWord) (ud ua : Use) : Card := { types := [0], d := ud, a := ua, b := .none255, ext := sclOk f }

/-- Matrix forms take no guard and no scale (R276). -/
def mxField (f : LaneWord) : Bool := f.g == 0 && f.gn == 0

/-- RND and SAT of a drain (R277). -/
def drainRnd (f : LaneWord) : Bool :=
  if f.tyN = 16 then f.rnd == 0 && f.sat == 0
  else if f.tyN = 12 ∨ f.tyN = 14 then true
  else f.sat == 0 && (f.rnd == 0 || (f.rnd == 1 && !bitB f.md 0))

/-- A drain's dither belongs to the DX types. -/
def drainDith (f : LaneWord) : Bool := !bitB f.md 0 || f.tyN == 18 || f.tyN == 19

def cardMxdrain (f : LaneWord) : Card :=
  { types := [16, 12, 14, 18, 19], d := if bitB f.md 0 then .phase else .zero, a := .m, b := .none255,
    c := if bitB f.md 1 then .a else .zero, rnd := true, sat := true, md := 3, ext := f.extN 27 24 == 0, la := true,
    field := mxField f && drainRnd f && drainDith f }

def cardCvt (f : LaneWord) : Card :=
  let dst := f.tyN
  let src := f.md.toNat
  { types := if cvtTypes dst src then [dst] else [], d := .v (typeRegs dst), a := .v (typeRegs src),
    b := if isPacked dst then .v 1 else .zero, rnd := cvtRnd dst src, sat := cvtSat dst src, md := 31,
    ext := f.extN 31 1 == 0 }

def cardVshuf (f : LaneWord) : Card :=
  { types := Card.b2, d := f.w, a := f.w, b := immB f (.v 1), c := f.w, md := 7,
    ext := f.extN 31 16 == 0 && (if f.imm then decide (f.extN 15 8 ≤ 127) else f.extN 15 8 == 0)
      && decide (1 ≤ f.extN 7 4 ∧ f.extN 7 4 ≤ 7) && (bitB f.ext 3 || f.extN 2 0 == 0) }

def cardVcmp (f : LaneWord) : Card :=
  { types := Card.int4 ++ [12, 14, 16, 17], d := .p, a := f.w, b := immB f f.w, md := 15, ext := immExt f,
    field := if isInt f.tyN then decide (f.mdN 3 1 < 6) else !f.imm }

def cardVmovs (f : LaneWord) : Card :=
  { types := if f.imm then [10, 11] else Card.b2, d := f.w, a := if f.imm then .a else .s, md := 1, ext := ext0 f }

/-- VBFX and VBFI: the control operand is one register, or an immediate of two bytes (R230). -/
def cardBfield (f : LaneWord) (ts : List Nat) (c : Use) : Card :=
  { types := ts, d := f.w, a := f.w, b := immB f (.v 1), c := c, md := 1,
    ext := if f.imm then f.extN 31 16 == 0 else f.ext == 0 }

/-- The card of each lane form. -/
def laneCard : Instr → Option (LaneWord × Card)
  | .vadd f => some (f, cardInt f true .zero)
  | .vsub f => some (f, cardInt f true .zero)
  | .vmul f => some (f, cardInt f true .zero)
  | .vmulh f => some (f, cardInt f false .zero)
  | .vmad f => some (f, cardInt f true f.w)
  | .vmin f => some (f, cardInt f false .zero)
  | .vmax f => some (f, cardInt f false .zero)
  | .vabs f => some (f, { types := [3, 4], d := f.w, a := f.w, sat := true, ext := ext0 f })
  | .vneg f => some (f, { types := [3, 4], d := f.w, a := f.w, sat := true, ext := ext0 f })
  | .vdot4 f => some (f, { types := [1, 5], d := .v 1, a := .v 1, b := .v 1, c := .v 1, sat := true, ext := ext0 f })
  | .vshl f => some (f, cardBit f)
  | .vshr f => some (f, cardBit f)
  | .vsar f => some (f, cardBit f)
  | .vand f => some (f, cardBit f)
  | .vor f => some (f, cardBit f)
  | .vxor f => some (f, cardBit f)
  | .vnot f => some (f, { types := Card.b2, d := f.w, a := f.w, ext := ext0 f })
  | .vlop3 f => some (f, { types := Card.b2, d := f.w, a := f.w, b := f.w, c := f.w, ext := f.extN 31 8 == 0 })
  | .vpopc f => some (f, { types := Card.b2, d := .v 1, a := f.w, ext := ext0 f })
  | .vclz f => some (f, { types := Card.b2, d := .v 1, a := f.w, ext := ext0 f })
  | .vbrev f => some (f, { types := Card.b2, d := f.w, a := f.w, ext := ext0 f })
  | .vbfx f => some (f, cardBfield f Card.int4 .zero)
  | .vbfi f => some (f, cardBfield f Card.b2 f.w)
  | .vmov f => some (f, { types := [9, 10, 11], d := f.w, a := f.w, ext := ext0 f })
  | .vmovi f => some (f, { types := [9, 4, 8], d := f.w, ext := true })
  | .vmovs f => some (f, cardVmovs f)
  | .vsel f => some (f, { types := Card.b2, d := f.w, a := f.w, b := f.w, c := .p, ext := ext0 f })
  | .vcmp f => some (f, cardVcmp f)
  | .vlane f => some (f, { types := [7], d := .v 1, ext := ext0 f })
  | .fadd f => some (f, cardFlt f true false true true)
  | .fsub f => some (f, cardFlt f true false true true)
  | .fmul f => some (f, cardFlt f true false true true)
  | .ffma f => some (f, cardFlt f true true true true)
  | .fmin f => some (f, cardFlt f true false false true)
  | .fmax f => some (f, cardFlt f true false false true)
  | .fabs f => some (f, cardFlt f false false false false)
  | .fneg f => some (f, cardFlt f false false false false)
  | .fcpys f => some (f, cardFlt f true false false false)
  | .fclass f => some (f, { cardFlt f false false false false with d := .v 1 })
  | .fdiv f => some (f, cardDiv f true)
  | .fsqrt f => some (f, cardDiv f false)
  | .frcp f => some (f, cardDiv f false)
  | .frsq f => some (f, cardTrans f)
  | .fexp2 f => some (f, cardTrans f)
  | .flog2 f => some (f, cardTrans f)
  | .fsin f => some (f, cardTrans f)
  | .fcos f => some (f, cardTrans f)
  | .cvt f => some (f, cardCvt f)
  | .vshuf f => some (f, cardVshuf f)
  | .vvote f => some (f, { types := [0], d := if f.mdN 2 1 = 2 then .spair else .s, a := .p, md := 6, ext := ext0 f, field := decide (f.mdN 2 1 ≠ 3) })
  | .vred f => some (f, cardRed f .s 28)
  | .vredix f => some (f, { types := [3, 7, 16], d := .spair, a := .v 1, md := 1, ext := true })
  | .vscan f => some (f, cardRed f f.w 30)
  | .vget f => some (f, { types := Card.b2, d := .s, a := f.w, ext := f.extN 31 8 == 0 })
  | .vsync f => some (f, { types := [0], a := .v 4, ext := ext0 f })
  | .pand f => some (f, cardPred f true 6)
  | .por f => some (f, cardPred f true 6)
  | .pxor f => some (f, cardPred f true 6)
  | .pnot f => some (f, cardPred f false 0)
  | .pmov f => some (f, cardPred f false 1)
  | .pget f => some (f, { types := [0], d := .spair, a := .p, md := 1, ext := ext0 f, field := mxField f })
  | .vld f => some (f, { types := Card.mem7, d := f.w, b := .off, ext := sclOk f, la := true })
  | .vst f => some (f, { types := Card.mem7, b := .off, c := f.w, ext := sclOk f, la := true })
  | .vpf f => some (f, { types := [0], b := .off, md := 1, ext := sclOk f })
  | .vamo _ f => some (f, cardAmo f)
  | .vfence f => some (f, { types := [0], md := 27, ext := ext0 f })
  | .cld f => some (f, { types := Card.mem7, d := f.w, b := .off, ext := sclOk f, la := true })
  | .cst f => some (f, { types := Card.mem7, b := .off, c := f.w, ext := sclOk f, la := true })
  | .camo f => some (f, cardAmo f)
  | .cupd f => some (f, cardCupd f)
  | .cred f => some (f, { types := [3, 7, 16], d := .v 1, b := .off, rnd := fltAdd f (f.mdN 4 3), sat := intAdd f (f.mdN 4 3), md := 31, ext := sclOk f, la := true, field := decide (f.mdN 4 3 ≠ 3) && decide (f.mdN 2 0 ≤ 4) })
  | .rinit f => some (f, cardRing f .zero (.v 1))
  | .rwaitFill f => some (f, cardRing f (.v 1) .zero)
  | .rwaitFree f => some (f, { cardRing f (.v 1) .zero with md := 1, field := f.imm })
  | .rfree f => some (f, cardRing f .zero (.v 1))
  | .rpost f => some (f, cardRing f .zero (.v 1))
  | .mxacc f => some (f, { types := [18, 19, 12, 14], d := .m, a := .any, b := .none255, ext := f.extN 27 24 == 0, la := true, field := mxField f })
  | .mxzero f => some (f, { types := [0], d := .m, ext := ext0 f, la := true, field := mxField f })
  | .mxloadc f => some (f, { types := [16, 12, 14, 18, 19], d := .m, b := .none255, ext := f.extN 27 24 == 0, la := true, field := mxField f })
  | .mxdrain f => some (f, cardMxdrain f)
  | .vrkey f => some (f, { types := [3, 7, 16], d := .v 1, a := .v 1, ext := ext0 f })
  | .vraise f => some (f, { types := [0], a := .v 1, b := .v 1, c := .s, md := 1, ext := ext0 f })
  | _ => none

/-! ## The checks -/

/-- The bits of an operand field its use leaves out are zero (R40). -/
def Use.fieldOk (u : Use) (x : BitVec 8) : Bool :=
  match u with
  | .zero => x == 0
  | .none255 => x == 255
  | .p | .m => decide (x.toNat < 8)
  | .s | .spair => decide (x.toNat < 64)
  | .a => decide (x.toNat < 16)
  | .phase => decide (x.toNat < 32)
  | .v _ | .off | .any => true

/-- Pairs are even and quads multiples of four (R34, R41, R242). -/
def Use.regOk (u : Use) (x : BitVec 8) : Bool :=
  match u with
  | .v n => x.toNat % n == 0
  | .off => x == 255 || x.toNat % 2 == 0
  | .spair => x.toNat % 2 == 0
  | _ => true

/-- One past the highest lane register the operand names, or 0. -/
def Use.top (u : Use) (x : BitVec 8) : Nat :=
  match u with
  | .v n => x.toNat + n
  | .off => if x = 255 then 0 else x.toNat + 2
  | _ => 0

def Card.typeOk (k : Card) (f : LaneWord) : Bool := k.types.contains f.tyN

/-- R51 rows 5 to 7. -/
def Card.fieldOk (k : Card) (f : LaneWord) : Bool :=
  k.field && k.ext && k.d.fieldOk f.d && k.a.fieldOk f.a && k.b.fieldOk f.b && k.c.fieldOk f.c
    && (if k.rnd then decide (f.rnd.toNat ≤ 4) else f.rnd == 0) && (k.sat || f.sat == 0)
    && (f.md &&& ~~~(BitVec.ofNat 5 k.md) == 0) && !(f.g == 0 && f.gn == 1) && (k.la || f.la == 0)

/-- R51 row 8. -/
def Card.regOk (k : Card) (f : LaneWord) : Bool :=
  k.d.regOk f.d && k.a.regOk f.a && k.b.regOk f.b && k.c.regOk f.c

/-- One past the highest lane register the word names (R34). -/
def Card.top (k : Card) (f : LaneWord) : Nat :=
  max (max (k.d.top f.d) (k.a.top f.a)) (max (k.b.top f.b) (k.c.top f.c))

/-- The first of R51 rows 4 to 8 that a lane word meets. -/
def Card.illegal (k : Card) (f : LaneWord) : Option Cause :=
  if !k.typeOk f then some .type else if !k.fieldOk f then some .field else if !k.regOk f then some .register
  else none

/-- A rule of a scalar card, with the cause its breach has. -/
def need (b : Bool) (c : Cause) : Option Cause := if b then none else some c

/-- The first of R51 rows 2 and 4 to 8 that an instruction meets by its operands alone. Rows 3 and 9 to 11 need
the machine. -/
def Instr.illegal (i : Instr) : Option Cause :=
  match laneCard i with
  | some (f, k) => k.illegal f
  | none =>
    match i with
    | .sld _ _ z _ _ => need (decide (z.toNat ≤ 6)) .type
    | .sst _ _ z _ _ => need (decide (z.toNat ≤ 6)) .type
    | .slda _ _ z _ _ => need (z == 3 || z == 8) .type
    | .acmp _ _ _ c => need (decide (c.toNat < 2 ∨ c.toNat = 4 ∨ c.toNat = 5)) .field
    | .brd _ _ _ j => need (decide (0 < j.toInt)) .field
    | .samo _ _ _ o r s => if o.toNat ≥ 10 then some .opcode else need (r != 0 || s == 0) .field
    | .qfence m => need (m != 0) .field
    | .qwait m _ => need (m != 0) .field
    | _ => none

/-- One past the highest lane register an instruction names (R34). -/
def Instr.top (i : Instr) : Nat :=
  match laneCard i with
  | some (f, k) => k.top f
  | none => 0

end Sys2Proof
end

