-- ==== Sys2Proof/WellFormed.lean ====
section
/-! DEFINITION. Which instructions are well formed: those no row of R51 turns away by their operands alone. -/

namespace Sys2Proof

/-- An instruction none of R51 rows 2 and 4 to 8 turns away. -/
def Instr.wf (i : Instr) : Bool := i.illegal.isNone

end Sys2Proof
end

