-- ==== Sys2Proof/Decode.lean ====
section
/-! DEFINITION. The decoder, total on any bytes and rejecting by the cause of R51, and the encoder, both from
the encoding tables of the spec: lane words from R39 and R49, scalar words from R43 and R50. -/

namespace Sys2Proof

/-! ## Lane words -/

/-- The fields of a lane word (R39). -/
def laneFields (w : BitVec 96) : LaneWord :=
  { g := w.extractLsb' 83 3, gn := w.extractLsb' 82 1, la := w.extractLsb' 78 4, ty := w.extractLsb' 73 5,
    d := w.extractLsb' 65 8, a := w.extractLsb' 57 8, b := w.extractLsb' 49 8, c := w.extractLsb' 41 8,
    rnd := w.extractLsb' 38 3, sat := w.extractLsb' 37 1, md := w.extractLsb' 32 5, ext := w.extractLsb' 0 32 }

/-- Integer and bit forms by opcode (R49). -/
def laneInt (o : Nat) (f : LaneWord) : Option Instr :=
  match o with
  | 0x001 => some (.vadd f)
  | 0x002 => some (.vsub f)
  | 0x003 => some (.vmul f)
  | 0x004 => some (.vmulh f)
  | 0x005 => some (.vmad f)
  | 0x006 => some (.vmin f)
  | 0x007 => some (.vmax f)
  | 0x008 => some (.vabs f)
  | 0x009 => some (.vneg f)
  | 0x010 => some (.vshl f)
  | 0x011 => some (.vshr f)
  | 0x012 => some (.vsar f)
  | 0x018 => some (.vand f)
  | 0x019 => some (.vor f)
  | 0x01A => some (.vxor f)
  | 0x01B => some (.vnot f)
  | 0x01C => some (.vlop3 f)
  | 0x020 => some (.vpopc f)
  | 0x021 => some (.vclz f)
  | 0x022 => some (.vbrev f)
  | 0x023 => some (.vbfx f)
  | 0x024 => some (.vbfi f)
  | 0x030 => some (.vmov f)
  | 0x031 => some (.vmovi f)
  | 0x032 => some (.vmovs f)
  | 0x033 => some (.vsel f)
  | 0x038 => some (.vcmp f)
  | 0x040 => some (.vdot4 f)
  | 0x048 => some (.vlane f)
  | _ => none

/-- Floating point and conversion forms by opcode (R49). -/
def laneFlt (o : Nat) (f : LaneWord) : Option Instr :=
  match o with
  | 0x100 => some (.fadd f)
  | 0x101 => some (.fsub f)
  | 0x102 => some (.fmul f)
  | 0x103 => some (.ffma f)
  | 0x104 => some (.fmin f)
  | 0x105 => some (.fmax f)
  | 0x108 => some (.fabs f)
  | 0x109 => some (.fneg f)
  | 0x10A => some (.fcpys f)
  | 0x10B => some (.fclass f)
  | 0x110 => some (.fdiv f)
  | 0x111 => some (.fsqrt f)
  | 0x112 => some (.frcp f)
  | 0x113 => some (.frsq f)
  | 0x118 => some (.fexp2 f)
  | 0x119 => some (.flog2 f)
  | 0x11A => some (.fsin f)
  | 0x11B => some (.fcos f)
  | 0x1C0 => some (.cvt f)
  | _ => none

/-- Cross-lane and predicate forms by opcode (R49). -/
def laneCross (o : Nat) (f : LaneWord) : Option Instr :=
  match o with
  | 0x200 => some (.vshuf f)
  | 0x208 => some (.vvote f)
  | 0x210 => some (.vred f)
  | 0x211 => some (.vredix f)
  | 0x218 => some (.vscan f)
  | 0x220 => some (.vget f)
  | 0x228 => some (.vsync f)
  | 0x230 => some (.pand f)
  | 0x231 => some (.por f)
  | 0x232 => some (.pxor f)
  | 0x233 => some (.pnot f)
  | 0x234 => some (.pmov f)
  | 0x238 => some (.pget f)
  | _ => none

/-- Memory, canvas, matrix and standing forms by opcode (R49). -/
def laneMem (o : Nat) (f : LaneWord) : Option Instr :=
  match o with
  | 0x280 => some (.vld f)
  | 0x281 => some (.vst f)
  | 0x282 => some (.vpf f)
  | 0x300 => some (.cld f)
  | 0x301 => some (.cst f)
  | 0x308 => some (.camo f)
  | 0x310 => some (.cupd f)
  | 0x318 => some (.cred f)
  | 0x320 => some (.rinit f)
  | 0x321 => some (if bitB f.md 0 then .rwaitFree f else .rwaitFill f)
  | 0x322 => some (.rfree f)
  | 0x323 => some (.rpost f)
  | 0x340 => some (.vamo 0 f)
  | 0x341 => some (.vamo 1 f)
  | 0x342 => some (.vamo 2 f)
  | 0x343 => some (.vamo 3 f)
  | 0x348 => some (.vfence f)
  | 0x380 => some (.mxacc f)
  | 0x381 => some (.mxzero f)
  | 0x382 => some (.mxloadc f)
  | 0x383 => some (.mxdrain f)
  | 0x3C0 => some (.vrkey f)
  | 0x3C8 => some (.vraise f)
  | _ => none

/-- The lane form of an opcode (R49). -/
def laneForm? (o : Nat) (f : LaneWord) : Option Instr :=
  if o < 0x100 then laneInt o f else if o < 0x200 then laneFlt o f else if o < 0x280 then laneCross o f
  else laneMem o f

/-- Reads a lane word (R39). Every field is kept, so what R51 rows 4 to 8 turn away is left to Instr.illegal. -/
def decodeLane (w : BitVec 96) : Except Cause Instr :=
  match laneForm? (w.extractLsb' 86 10).toNat (laneFields w) with
  | some i => .ok i
  | none => .error .opcode

/-! ## Scalar words -/

/-- Bits 25-20: d, or x of format SX (R43). -/
def xF (w : Word) : BitVec 6 := w.extractLsb' 20 6
/-- Bits 19-14: a, or y. -/
def yF (w : Word) : BitVec 6 := w.extractLsb' 14 6
/-- Bits 13-8: b, or z. -/
def zF (w : Word) : BitVec 6 := w.extractLsb' 8 6
/-- Bits 7-0: func, or the sub-opcode. -/
def fF (w : Word) : BitVec 8 := w.extractLsb' 0 8
/-- Bits 13-0 (SI). -/
def immF (w : Word) : BitVec 14 := w.extractLsb' 0 14
/-- Bits 7-4 of a sub-opcode that carries lookahead (R43). -/
def opF (w : Word) : Nat := (w.extractLsb' 4 4).toNat
/-- Bits 3-0 of it: the lookahead. -/
def laF (w : Word) : BitVec 4 := w.extractLsb' 0 4
/-- y:z, a system register number or a tag (R43). -/
def yzF (w : Word) : BitVec 12 := w.extractLsb' 8 12

/-- An unused field must be zero (R40, R43). -/
def zero {n : Nat} (x : BitVec n) (i : Instr) : Except Cause Instr := if x = 0 then .ok i else .error .field
/-- A field that names an address register uses bits 3-0. -/
def aReg (x : BitVec 6) (k : BitVec 4 → Except Cause Instr) : Except Cause Instr :=
  if x.extractLsb' 4 2 = 0 then k (x.extractLsb' 0 4) else .error .field
/-- A field that names a q register uses bits 2-0. -/
def qReg (x : BitVec 6) (k : BitVec 3 → Except Cause Instr) : Except Cause Instr :=
  if x.extractLsb' 3 3 = 0 then k (x.extractLsb' 0 3) else .error .field

/-- Integer forms (R203). -/
def scalar01 (w : Word) : Except Cause Instr :=
  match (fF w).toNat with
  | 0x00 => .ok (.sadd (xF w) (yF w) (zF w))
  | 0x01 => .ok (.ssub (xF w) (yF w) (zF w))
  | 0x02 => .ok (.smul (xF w) (yF w) (zF w))
  | 0x06 => .ok (.sand (xF w) (yF w) (zF w))
  | 0x07 => .ok (.sor (xF w) (yF w) (zF w))
  | 0x08 => .ok (.sxor (xF w) (yF w) (zF w))
  | 0x09 => .ok (.sshl (xF w) (yF w) (zF w))
  | 0x0A => .ok (.sshr (xF w) (yF w) (zF w))
  | 0x0B => .ok (.ssar (xF w) (yF w) (zF w))
  | 0x03 => .ok (.smulh (xF w) (yF w) (zF w) 0)
  | 0x83 => .ok (.smulh (xF w) (yF w) (zF w) 1)
  | 0x04 => .ok (.sdiv (xF w) (yF w) (zF w) 0)
  | 0x84 => .ok (.sdiv (xF w) (yF w) (zF w) 1)
  | 0x05 => .ok (.srem (xF w) (yF w) (zF w) 0)
  | 0x85 => .ok (.srem (xF w) (yF w) (zF w) 1)
  | 0x0C => .ok (.smin (xF w) (yF w) (zF w) 0)
  | 0x8C => .ok (.smin (xF w) (yF w) (zF w) 1)
  | 0x0D => .ok (.smax (xF w) (yF w) (zF w) 0)
  | 0x8D => .ok (.smax (xF w) (yF w) (zF w) 1)
  | 0x0E => zero (zF w) (.spopc (xF w) (yF w))
  | 0x0F => zero (zF w) (.sclz (xF w) (yF w))
  | 0x10 => zero (zF w) (.smov (xF w) (yF w))
  | 0x20 => .ok (.ssel (xF w) (yF w) (zF w) 0)
  | 0x21 => .ok (.ssel (xF w) (yF w) (zF w) 1)
  | 0x22 => .ok (.ssel (xF w) (yF w) (zF w) 2)
  | 0x23 => .ok (.ssel (xF w) (yF w) (zF w) 3)
  | 0x24 => .ok (.ssel (xF w) (yF w) (zF w) 4)
  | 0x25 => .ok (.ssel (xF w) (yF w) (zF w) 5)
  | 0x26 => .ok (.ssel (xF w) (yF w) (zF w) 6)
  | 0x27 => .ok (.ssel (xF w) (yF w) (zF w) 7)
  | 0x30 => qReg (xF w) (fun d => .ok (.scmp d (yF w) (zF w) 0))
  | 0x31 => qReg (xF w) (fun d => .ok (.scmp d (yF w) (zF w) 1))
  | 0x32 => qReg (xF w) (fun d => .ok (.scmp d (yF w) (zF w) 2))
  | 0x33 => qReg (xF w) (fun d => .ok (.scmp d (yF w) (zF w) 3))
  | 0x34 => qReg (xF w) (fun d => .ok (.scmp d (yF w) (zF w) 4))
  | 0x35 => qReg (xF w) (fun d => .ok (.scmp d (yF w) (zF w) 5))
  | 0x36 => qReg (xF w) (fun d => .ok (.scmp d (yF w) (zF w) 6))
  | 0x37 => qReg (xF w) (fun d => .ok (.scmp d (yF w) (zF w) 7))
  | _ => .error .opcode

/-- Address forms (R207). -/
def scalar02 (w : Word) : Except Cause Instr :=
  match (fF w).toNat with
  | 0x00 => aReg (xF w) (fun d => aReg (yF w) (fun a => .ok (.aadd d a (zF w))))
  | 0x01 => aReg (yF w) (fun a => aReg (zF w) (fun b => .ok (.asub (xF w) a b)))
  | 0x02 => aReg (xF w) (fun d => zero (zF w) (.aset d (yF w)))
  | 0x03 => aReg (xF w) (fun d => .ok (.asetW d (yF w) (zF w)))
  | 0x04 => aReg (yF w) (fun a => zero (zF w) (.aget (xF w) a))
  | 0x05 => aReg (yF w) (fun a => zero (zF w) (.agetHi (xF w) a))
  | 0x30 => qReg (xF w) (fun d => aReg (yF w) (fun a => aReg (zF w) (fun b => .ok (.acmp d a b 0))))
  | 0x31 => qReg (xF w) (fun d => aReg (yF w) (fun a => aReg (zF w) (fun b => .ok (.acmp d a b 1))))
  | 0x32 => qReg (xF w) (fun d => aReg (yF w) (fun a => aReg (zF w) (fun b => .ok (.acmp d a b 2))))
  | 0x33 => qReg (xF w) (fun d => aReg (yF w) (fun a => aReg (zF w) (fun b => .ok (.acmp d a b 3))))
  | 0x34 => qReg (xF w) (fun d => aReg (yF w) (fun a => aReg (zF w) (fun b => .ok (.acmp d a b 4))))
  | 0x35 => qReg (xF w) (fun d => aReg (yF w) (fun a => aReg (zF w) (fun b => .ok (.acmp d a b 5))))
  | 0x36 => qReg (xF w) (fun d => aReg (yF w) (fun a => aReg (zF w) (fun b => .ok (.acmp d a b 6))))
  | 0x37 => qReg (xF w) (fun d => aReg (yF w) (fun a => aReg (zF w) (fun b => .ok (.acmp d a b 7))))
  | _ => .error .opcode

/-- Immediate shifts: imm14 bits 13-6 are zero (R205). -/
def shiftImm (w : Word) (mk : BitVec 6 → Instr) : Except Cause Instr :=
  zero (w.extractLsb' 6 8) (mk (w.extractLsb' 0 6))

/-- Immediate forms (R205, R206, R207). -/
def scalarImm (m : Nat) (w : Word) : Except Cause Instr :=
  match m with
  | 0x03 => .ok (.saddi (xF w) (yF w) (immF w))
  | 0x04 => .ok (.sandi (xF w) (yF w) (immF w))
  | 0x05 => .ok (.sori (xF w) (yF w) (immF w))
  | 0x06 => .ok (.sxori (xF w) (yF w) (immF w))
  | 0x07 => shiftImm w (.sshli (xF w) (yF w))
  | 0x08 => shiftImm w (.sshri (xF w) (yF w))
  | 0x09 => shiftImm w (.ssari (xF w) (yF w))
  | 0x0A => qReg (xF w) (fun d => .ok (.scmpi d (yF w) (w.extractLsb' 11 3) (w.extractLsb' 0 11)))
  | 0x0B => aReg (xF w) (fun d => aReg (yF w) (fun a => .ok (.aaddi d a (immF w))))
  | 0x0C => .ok (.slui (xF w) (w.extractLsb' 0 20))
  | _ => .error .opcode

/-- Forms without offsets (R209). -/
def scalar14 (w : Word) : Except Cause Instr :=
  match (fF w).toNat with
  | 0x00 => zero (w.extractLsb' 8 18) .join
  | 0x01 => zero (xF w) (.calli (yF w)) >>= zero (zF w)
  | 0x02 => zero (w.extractLsb' 8 18) .ret
  | 0x03 => zero (w.extractLsb' 8 18) .exit
  | 0x04 => zero (xF w) (.nap (yF w)) >>= zero (zF w)
  | 0x05 => zero (w.extractLsb' 8 18) .yield
  | _ => .error .opcode

/-- Control transfers (R208, R210, R212). -/
def scalarCtl (m : Nat) (w : Word) : Except Cause Instr :=
  match m with
  | 0x10 => zero (w.extractLsb' 22 4) (.br (w.extractLsb' 0 22))
  | 0x11 => .ok (.bq (w.extractLsb' 23 3) (w.extractLsb' 22 1) (w.extractLsb' 0 22))
  | 0x12 => .ok (.brd (w.extractLsb' 23 3) (w.extractLsb' 22 1) (w.extractLsb' 11 11) (w.extractLsb' 0 11))
  | 0x13 => zero (w.extractLsb' 22 4) (.call (w.extractLsb' 0 22))
  | 0x14 => scalar14 w
  | 0x15 => zero (yF w) (.loop (xF w) (immF w))
  | _ => .error .opcode

/-- Size, lookahead and displacement of format SM. -/
def szF (w : Word) : BitVec 4 := w.extractLsb' 12 4
def smLa (w : Word) : BitVec 4 := w.extractLsb' 8 4
def dispF (w : Word) : BitVec 8 := w.extractLsb' 0 8
def baseF (w : Word) : BitVec 4 := w.extractLsb' 16 4

/-- Scalar memory forms (R145, R146). The size or operation code is tested before the register fields. -/
def scalarMem (m : Nat) (w : Word) : Except Cause Instr :=
  match m with
  | 0x18 => .ok (.sld (xF w) (baseF w) (szF w) (smLa w) (dispF w))
  | 0x19 => .ok (.sst (xF w) (baseF w) (szF w) (smLa w) (dispF w))
  | 0x1A =>
    if (xF w).extractLsb' 4 2 ≠ 0 ∧ szF w ≠ 3 ∧ szF w ≠ 8 then .error .type
    else aReg (xF w) (fun d => .ok (.slda d (baseF w) (szF w) (smLa w) (dispF w)))
  | 0x1B =>
    if szF w = 8 then aReg (xF w) (fun d => .ok (.ssta d (baseF w) (smLa w) (dispF w))) else .error .type
  | 0x1C =>
    if (yF w).extractLsb' 4 2 ≠ 0 ∧ (w.extractLsb' 4 4).toNat ≥ 10 then .error .opcode
    else aReg (yF w) (fun a => .ok (.samo (xF w) a (zF w) (w.extractLsb' 4 4) (w.extractLsb' 2 2) (w.extractLsb' 0 2)))
  | _ => .error .opcode

/-- Team forms (R215). -/
def scalar24 (w : Word) : Except Cause Instr :=
  match (fF w).toNat with
  | 0x00 => aReg (xF w) (fun b => zero (w.extractLsb' 8 12) (.bara b))
  | 0x01 => aReg (xF w) (fun b => zero (w.extractLsb' 8 12) (.barw b))
  | 0x02 => aReg (xF w) (fun b => zero (w.extractLsb' 8 12) (.baraw b))
  | 0x10 => zero (xF w) (.gangset (yF w)) >>= zero (zF w)
  | _ => .error .opcode

/-- Engine forms (R167, R265). -/
def scalar28 (w : Word) : Except Cause Instr :=
  let q : BitVec 2 := w.extractLsb' 24 2
  let r : BitVec 4 := w.extractLsb' 20 4
  match opF w with
  | 0x0 => aReg (yF w) (fun g => .ok (.txld q r g (zF w) (laF w)))
  | 0x1 => aReg (yF w) (fun g => .ok (.txst q r g (zF w) (laF w)))
  | 0x2 => aReg (yF w) (fun g => zero (zF w) (.txpf q r g)) >>= zero (laF w)
  | 0x3 => zero r (.wbload q (yF w) (zF w) (laF w))
  | 0x4 =>
    zero (w.extractLsb' 25 1) (if w.extractLsb' 24 1 = 1 then .recfenceAll else .recfence r)
      >>= zero (if w.extractLsb' 24 1 = 1 then r else 0) >>= zero (w.extractLsb' 8 12) >>= zero (laF w)
  | 0x8 => aReg (xF w) (fun m => zero (w.extractLsb' 8 12) (.qfence m)) >>= zero (laF w)
  | 0x9 => aReg (xF w) (fun m => zero (w.extractLsb' 8 12) (.qwait m (laF w)))
  | _ => .error .opcode

/-- Change-tree forms (R108). -/
def scalar2C (w : Word) : Except Cause Instr :=
  match opF w with
  | 0x0 => zero (zF w) (.cnode (xF w) (yF w) (laF w))
  | 0x1 => aReg (yF w) (fun a => zero (laF w) (.cenrol (xF w) a (zF w)))
  | 0x2 => aReg (yF w) (fun a => zero (laF w) (.cunrol a (zF w))) >>= zero (xF w)
  | 0x3 => zero (zF w) (.cread (xF w) (yF w) (laF w))
  | 0x4 => zero (zF w) (.csettle (xF w) (yF w) (laF w))
  | 0x5 => zero (laF w) (.cwatch (xF w) (yF w) (zF w))
  | 0x6 => zero (laF w) (.crepar (xF w) (yF w)) >>= zero (zF w)
  | 0x7 => zero (laF w) (.cfree (xF w)) >>= zero (w.extractLsb' 8 12)
  | 0x8 => aReg (yF w) (fun a => zero (zF w) (.creadG (xF w) a (laF w)))
  | _ => .error .opcode

/-- Standing forms (R301). -/
def scalar2E (w : Word) : Except Cause Instr :=
  match opF w with
  | 0x0 => zero (laF w) (.raise (xF w) (yF w) (zF w))
  | 0x1 => zero (laF w) (.raiseSum (xF w) (yF w) (zF w))
  | 0x2 => zero (laF w) (.plotend (xF w)) >>= zero (w.extractLsb' 8 12)
  | 0x3 => aReg (yF w) (fun a => zero (zF w) (.reap (xF w) a (laF w)))
  | _ => .error .opcode

/-- System forms (R147, R218). -/
def scalar30 (w : Word) : Except Cause Instr :=
  match (fF w).toNat with
  | 0x00 => .ok (.sysr (xF w) (yzF w))
  | 0x01 => .ok (.sysw (xF w) (yzF w))
  | 0x02 => zero (xF w) (.trap (w.extractLsb' 8 8)) >>= zero (w.extractLsb' 16 4)
  | 0x03 => zero (w.extractLsb' 8 18) .tret
  | 0x04 => zero (xF w) (.brkpt (yzF w))
  | 0x10 =>
    zero (w.extractLsb' 25 1) (.fence (w.extractLsb' 24 1) (w.extractLsb' 22 2) (w.extractLsb' 20 2))
      >>= zero (w.extractLsb' 8 12)
  | _ => .error .opcode

/-- Prologue forms (R222). A nonzero unused field is row 3's "opcode" in a warp and row 5's "field" in the unit (R51). -/
def scalar34 (w : Word) : Except Cause Instr :=
  match (fF w).toNat with
  | 0x00 => .ok (.pset (xF w) (yzF w))
  | 0x01 => if w.extractLsb' 8 18 = 0 then .ok .pcancel else .error .prologue
  | 0x02 => if w.extractLsb' 8 18 = 0 then .ok .prepeat else .error .prologue
  | _ => .error .opcode

/-- Reads a scalar word, by major opcode (R43, R50). What R51 turns away by an operand the constructor keeps is
left to Instr.illegal. -/
def decodeScalar (w : Word) : Except Cause Instr :=
  let m := (w.extractLsb' 26 6).toNat
  if m < 0x10 then (if m = 1 then scalar01 w else if m = 2 then scalar02 w else scalarImm m w)
  else if m < 0x18 then scalarCtl m w
  else if m < 0x20 then scalarMem m w
  else match m with
    | 0x20 => .ok (.lrun (xF w) (w.extractLsb' 0 20))
    | 0x21 => zero (w.extractLsb' 0 26) .lsync
    | 0x24 => scalar24 w
    | 0x28 => scalar28 w
    | 0x2C => scalar2C w
    | 0x2E => scalar2E w
    | 0x30 => scalar30 w
    | 0x34 => scalar34 w
    | _ => .error .opcode

/-! ## Bytes -/

/-- Why bytes are not an instruction: too few of them, or an illegal encoding (R51). -/
inductive DecodeError where
  | short
  | illegal (c : Cause)
  deriving DecidableEq, Repr

/-- Reads one instruction of a stream from the lowest address up, with the bytes left over (R30). -/
def decode (lane : Bool) (bs : List Byte) : Except DecodeError (Instr × List Byte) :=
  let n := if lane then 12 else 4
  if bs.length < n then .error .short
  else
    let x := ofBytes (bs.take n)
    match if lane then decodeLane (BitVec.ofNat 96 x) else decodeScalar (BitVec.ofNat 32 x) with
    | .ok i => .ok (i, bs.drop n)
    | .error c => .error (.illegal c)

/-- The decoder on a word of the opcode table: 32 bits are a scalar word, 96 a lane word. -/
def decodeTableWord (nbits w : Nat) : Option Instr :=
  match decode (decide (nbits ≥ 96)) (bytesOf (if nbits ≥ 96 then 12 else 4) w) with
  | .ok (i, _) => some i
  | .error _ => none

/-! ## The encoder -/

/-- Format S3, and SX with its fields in the same places (R43). -/
def encS3 (m d a b : BitVec 6) (func : BitVec 8) : Word := m ++ d ++ a ++ b ++ func
/-- Format SI. -/
def encSI (m d a : BitVec 6) (i : BitVec 14) : Word := m ++ d ++ a ++ i
/-- Format SM. -/
def encSM (m d : BitVec 6) (r z l : BitVec 4) (i : BitVec 8) : Word := m ++ d ++ r ++ z ++ l ++ i
/-- Format SX of majors 0x28, 0x2C and 0x2E. -/
def encSX (m x y z : BitVec 6) (op l : BitVec 4) : Word := m ++ x ++ y ++ z ++ op ++ l
/-- A narrowed address or q register field. -/
def aF (r : BitVec 4) : BitVec 6 := (0 : BitVec 2) ++ r
def qF (r : BitVec 3) : BitVec 6 := (0 : BitVec 3) ++ r

/-- The word of a scalar form. -/
def encodeScalar : Instr → Option Word
  | .sadd d a b => some (encS3 0x01 d a b 0x00)
  | .ssub d a b => some (encS3 0x01 d a b 0x01)
  | .smul d a b => some (encS3 0x01 d a b 0x02)
  | .sand d a b => some (encS3 0x01 d a b 0x06)
  | .sor d a b => some (encS3 0x01 d a b 0x07)
  | .sxor d a b => some (encS3 0x01 d a b 0x08)
  | .sshl d a b => some (encS3 0x01 d a b 0x09)
  | .sshr d a b => some (encS3 0x01 d a b 0x0A)
  | .ssar d a b => some (encS3 0x01 d a b 0x0B)
  | .smulh d a b u => some (encS3 0x01 d a b (u ++ (0x03 : BitVec 7)))
  | .sdiv d a b u => some (encS3 0x01 d a b (u ++ (0x04 : BitVec 7)))
  | .srem d a b u => some (encS3 0x01 d a b (u ++ (0x05 : BitVec 7)))
  | .smin d a b u => some (encS3 0x01 d a b (u ++ (0x0C : BitVec 7)))
  | .smax d a b u => some (encS3 0x01 d a b (u ++ (0x0D : BitVec 7)))
  | .spopc d a => some (encS3 0x01 d a 0 0x0E)
  | .sclz d a => some (encS3 0x01 d a 0 0x0F)
  | .smov d a => some (encS3 0x01 d a 0 0x10)
  | .ssel d a b n => some (encS3 0x01 d a b ((0x04 : BitVec 5) ++ n))
  | .scmp d a b c => some (encS3 0x01 (qF d) a b ((0x06 : BitVec 5) ++ c))
  | .aadd d a b => some (encS3 0x02 (aF d) (aF a) b 0x00)
  | .asub d a b => some (encS3 0x02 d (aF a) (aF b) 0x01)
  | .aset d a => some (encS3 0x02 (aF d) a 0 0x02)
  | .asetW d a b => some (encS3 0x02 (aF d) a b 0x03)
  | .aget d a => some (encS3 0x02 d (aF a) 0 0x04)
  | .agetHi d a => some (encS3 0x02 d (aF a) 0 0x05)
  | .acmp d a b c => some (encS3 0x02 (qF d) (aF a) (aF b) ((0x06 : BitVec 5) ++ c))
  | .saddi d a i => some (encSI 0x03 d a i)
  | .sandi d a i => some (encSI 0x04 d a i)
  | .sori d a i => some (encSI 0x05 d a i)
  | .sxori d a i => some (encSI 0x06 d a i)
  | .sshli d a i => some (encSI 0x07 d a ((0 : BitVec 8) ++ i))
  | .sshri d a i => some (encSI 0x08 d a ((0 : BitVec 8) ++ i))
  | .ssari d a i => some (encSI 0x09 d a ((0 : BitVec 8) ++ i))
  | .scmpi d a c i => some (encSI 0x0A (qF d) a (c ++ i))
  | .aaddi d a i => some (encSI 0x0B (aF d) (aF a) i)
  | .slui d i => some ((0x0C : BitVec 6) ++ d ++ i)
  | .br o => some ((0x10 : BitVec 6) ++ (0 : BitVec 4) ++ o)
  | .bq q s o => some ((0x11 : BitVec 6) ++ q ++ s ++ o)
  | .brd p s t j => some ((0x12 : BitVec 6) ++ p ++ s ++ t ++ j)
  | .call o => some ((0x13 : BitVec 6) ++ (0 : BitVec 4) ++ o)
  | .join => some (encS3 0x14 0 0 0 0x00)
  | .calli a => some (encS3 0x14 0 a 0 0x01)
  | .ret => some (encS3 0x14 0 0 0 0x02)
  | .exit => some (encS3 0x14 0 0 0 0x03)
  | .nap a => some (encS3 0x14 0 a 0 0x04)
  | .yield => some (encS3 0x14 0 0 0 0x05)
  | .loop d i => some (encSI 0x15 d 0 i)
  | .sld d r z l i => some (encSM 0x18 d r z l i)
  | .sst d r z l i => some (encSM 0x19 d r z l i)
  | .slda d r z l i => some (encSM 0x1A (aF d) r z l i)
  | .ssta d r l i => some (encSM 0x1B (aF d) r 8 l i)
  | .samo d a b o r s => some (encS3 0x1C d (aF a) b (o ++ r ++ s))
  | .lrun c o => some ((0x20 : BitVec 6) ++ c ++ o)
  | .lsync => some ((0x21 : BitVec 6) ++ (0 : BitVec 26))
  | .bara b => some (encS3 0x24 (aF b) 0 0 0x00)
  | .barw b => some (encS3 0x24 (aF b) 0 0 0x01)
  | .baraw b => some (encS3 0x24 (aF b) 0 0 0x02)
  | .gangset s => some (encS3 0x24 0 s 0 0x10)
  | .txld q r g c l => some (encSX 0x28 (q ++ r) (aF g) c 0x0 l)
  | .txst q r g c l => some (encSX 0x28 (q ++ r) (aF g) c 0x1 l)
  | .txpf q r g => some (encSX 0x28 (q ++ r) (aF g) 0 0x2 0)
  | .wbload q s c l => some (encSX 0x28 (q ++ (0 : BitVec 4)) s c 0x3 l)
  | .recfence r => some (encSX 0x28 (aF r) 0 0 0x4 0)
  | .recfenceAll => some (encSX 0x28 0x10 0 0 0x4 0)
  | .qfence m => some (encSX 0x28 (aF m) 0 0 0x8 0)
  | .qwait m l => some (encSX 0x28 (aF m) 0 0 0x9 l)
  | .cnode d p l => some (encSX 0x2C d p 0 0x0 l)
  | .cenrol n a c => some (encSX 0x2C n (aF a) c 0x1 0)
  | .cunrol a c => some (encSX 0x2C 0 (aF a) c 0x2 0)
  | .cread d n l => some (encSX 0x2C d n 0 0x3 l)
  | .csettle d n l => some (encSX 0x2C d n 0 0x4 l)
  | .cwatch n y z => some (encSX 0x2C n y z 0x5 0)
  | .crepar n p => some (encSX 0x2C n p 0 0x6 0)
  | .cfree n => some (encSX 0x2C n 0 0 0x7 0)
  | .creadG d a l => some (encSX 0x2C d (aF a) 0 0x8 l)
  | .raise x y z => some (encSX 0x2E x y z 0x0 0)
  | .raiseSum x y z => some (encSX 0x2E x y z 0x1 0)
  | .plotend x => some (encSX 0x2E x 0 0 0x2 0)
  | .reap d a l => some (encSX 0x2E d (aF a) 0 0x3 l)
  | .sysr d n => some ((0x30 : BitVec 6) ++ d ++ n ++ (0x00 : BitVec 8))
  | .sysw s n => some ((0x30 : BitVec 6) ++ s ++ n ++ (0x01 : BitVec 8))
  | .trap c => some ((0x30 : BitVec 6) ++ (0 : BitVec 10) ++ c ++ (0x02 : BitVec 8))
  | .tret => some (encS3 0x30 0 0 0 0x03)
  | .brkpt t => some ((0x30 : BitVec 6) ++ (0 : BitVec 6) ++ t ++ (0x04 : BitVec 8))
  | .fence l s o => some (encS3 0x30 ((0 : BitVec 1) ++ l ++ s ++ o) 0 0 0x10)
  | .pset s n => some ((0x34 : BitVec 6) ++ s ++ n ++ (0x00 : BitVec 8))
  | .pcancel => some (encS3 0x34 0 0 0 0x01)
  | .prepeat => some (encS3 0x34 0 0 0 0x02)
  | _ => none

/-- The opcode and fields of a lane form. -/
def laneParts : Instr → Option (BitVec 10 × LaneWord)
  | .vadd f => some (0x001, f)
  | .vsub f => some (0x002, f)
  | .vmul f => some (0x003, f)
  | .vmulh f => some (0x004, f)
  | .vmad f => some (0x005, f)
  | .vmin f => some (0x006, f)
  | .vmax f => some (0x007, f)
  | .vabs f => some (0x008, f)
  | .vneg f => some (0x009, f)
  | .vshl f => some (0x010, f)
  | .vshr f => some (0x011, f)
  | .vsar f => some (0x012, f)
  | .vand f => some (0x018, f)
  | .vor f => some (0x019, f)
  | .vxor f => some (0x01A, f)
  | .vnot f => some (0x01B, f)
  | .vlop3 f => some (0x01C, f)
  | .vpopc f => some (0x020, f)
  | .vclz f => some (0x021, f)
  | .vbrev f => some (0x022, f)
  | .vbfx f => some (0x023, f)
  | .vbfi f => some (0x024, f)
  | .vmov f => some (0x030, f)
  | .vmovi f => some (0x031, f)
  | .vmovs f => some (0x032, f)
  | .vsel f => some (0x033, f)
  | .vcmp f => some (0x038, f)
  | .vdot4 f => some (0x040, f)
  | .vlane f => some (0x048, f)
  | .fadd f => some (0x100, f)
  | .fsub f => some (0x101, f)
  | .fmul f => some (0x102, f)
  | .ffma f => some (0x103, f)
  | .fmin f => some (0x104, f)
  | .fmax f => some (0x105, f)
  | .fabs f => some (0x108, f)
  | .fneg f => some (0x109, f)
  | .fcpys f => some (0x10A, f)
  | .fclass f => some (0x10B, f)
  | .fdiv f => some (0x110, f)
  | .fsqrt f => some (0x111, f)
  | .frcp f => some (0x112, f)
  | .frsq f => some (0x113, f)
  | .fexp2 f => some (0x118, f)
  | .flog2 f => some (0x119, f)
  | .fsin f => some (0x11A, f)
  | .fcos f => some (0x11B, f)
  | .cvt f => some (0x1C0, f)
  | .vshuf f => some (0x200, f)
  | .vvote f => some (0x208, f)
  | .vred f => some (0x210, f)
  | .vredix f => some (0x211, f)
  | .vscan f => some (0x218, f)
  | .vget f => some (0x220, f)
  | .vsync f => some (0x228, f)
  | .pand f => some (0x230, f)
  | .por f => some (0x231, f)
  | .pxor f => some (0x232, f)
  | .pnot f => some (0x233, f)
  | .pmov f => some (0x234, f)
  | .pget f => some (0x238, f)
  | .vld f => some (0x280, f)
  | .vst f => some (0x281, f)
  | .vpf f => some (0x282, f)
  | .cld f => some (0x300, f)
  | .cst f => some (0x301, f)
  | .camo f => some (0x308, f)
  | .cupd f => some (0x310, f)
  | .cred f => some (0x318, f)
  | .rinit f => some (0x320, f)
  | .rwaitFill f => some (0x321, f)
  | .rwaitFree f => some (0x321, f)
  | .rfree f => some (0x322, f)
  | .rpost f => some (0x323, f)
  | .vamo s f => some (0x340 + s.zeroExtend 10, f)
  | .vfence f => some (0x348, f)
  | .mxacc f => some (0x380, f)
  | .mxzero f => some (0x381, f)
  | .mxloadc f => some (0x382, f)
  | .mxdrain f => some (0x383, f)
  | .vrkey f => some (0x3C0, f)
  | .vraise f => some (0x3C8, f)
  | _ => none

/-- The lane word of an opcode and its fields (R39). -/
def encLane (o : BitVec 10) (f : LaneWord) : BitVec 96 :=
  o ++ f.g ++ f.gn ++ f.la ++ f.ty ++ f.d ++ f.a ++ f.b ++ f.c ++ f.rnd ++ f.sat ++ f.md ++ f.ext

/-- The bytes of an instruction from the lowest address up; none for a hub command or an event. -/
def encode (i : Instr) : Option (List Byte) :=
  match encodeScalar i with
  | some w => some (bytesOf 4 w.toNat)
  | none =>
    match laneParts i with
    | some (o, f) => some (bytesOf 12 (encLane o f).toNat)
    | none => none

end Sys2Proof
end

