-- ==== Sys2Proof/Machine/State.lean ====
section
/-! DEFINITION. The state of the LX8 as plain data: every register, memory, table, queue and mark the spec
names (INVENTORY.md, State), the machine right after reset, and the reasons a step can stop. -/

namespace Sys2Proof.Machine

/-- Why the machine stops. Faults of the LX8 itself (R342) are next states, not values of this type. -/
inductive Fault where
  /-- Raised by step and by every meaning when a fatal device error has stopped the module (R364) and the row
  is not a reset. Safe: the spec lets nothing but a reset follow. -/
  | halted
  /-- Raised by the meaning of an instruction word when State names no path that could issue it (cur names an
  empty slot). No run raises it: step only issues for a path. Safe: nothing is claimed of such a state. -/
  | noPath
  deriving DecidableEq, Repr

/-- Why a step has no meaning. -/
inductive Refusal where
  /-- Raised by an arm of exec whose instruction has no meaning yet. Safe: no claim can be proved of it. -/
  | notModelled (mnemonic : String)
  deriving DecidableEq, Repr

/-! ## Pieces of a warp -/

/-- A register an instruction writes, as the window rule names it (R47). -/
inductive Dest where
  | s (n : Nat) | a (n : Nat) | q (n : Nat) | v (n : Nat) | p (n : Nat) | m (n : Nat) | g0
  deriving DecidableEq, Repr

/-- A result that becomes visible at the end of its window (R45). -/
inductive RegWrite where
  | s (n : Nat) (x : DWord)
  | a (n : Nat) (x : VAddr)
  | v (n lane : Nat) (x : Word) (poison : Bool)
  deriving DecidableEq, Repr

/-- What a warp's release saves for the detector (R152): its acquired-from table, team vector, floor and new
interval. -/
structure RelRec where
  table : List (Nat × Word) := []
  teamvec : Cells 32 := []
  floor : Word := 0
  interval : Word := 0
  deriving DecidableEq, Repr

/-- One lane's part of an access that failed the race check: where, and the bytes a store holds (R136). -/
structure HeldLane where
  lane : Nat
  ea : VAddr
  pa : Nat
  data : List Byte
  deriving DecidableEq, Repr

/-- An access kept back by the race check, with the conflicting stamp's WR and IV (R136). -/
structure RaceHold where
  scalar : Bool
  canvas : Bool
  store : Bool
  width : Nat
  ty : Nat
  dest : Nat
  lanes : List HeldLane
  wr : BitVec 17
  iv : Word
  deriving DecidableEq, Repr

/-- The engine forms an entry can hold (R262). -/
inductive EngForm where
  | txld | txst | txpf | wbload | fence
  deriving DecidableEq, Repr

/-- An engine queue entry (R262): the record copy, the register values read at issue, and its progress. -/
structure EngEntry where
  id : Nat
  form : EngForm
  wid : Nat
  team : Nat
  ctx : Nat
  rcd : List DWord := []
  base : VAddr := 0
  /-- Canvas offset, or that of the ring header. -/
  coff : Nat := 0
  slot : Nat := 0
  head0 : DWord := 0
  head1 : DWord := 0
  /-- The head words were read with data the memory could not correct. -/
  headBad : Bool := false
  started : Bool := false
  /-- Completed 256-byte segments of the output (R263). -/
  segs : Nat := 0
  /-- Ring stage claimed (R68). -/
  stage : Option Nat := none
  /-- Granules of virtual addresses whose drawer reads have been sent, the reads that have not returned, by link and
  number, and the 256-byte blocks that have, by physical block number, with poison (R81, R82). -/
  asked : List Nat := []
  waits : List (Nat × Nat) := []
  got : List (Nat × List Byte × Bool) := []
  /-- Its requests that wait outside a full drawer queue (R82). -/
  outside : List Nat := []
  /-- The number that was next when a WBLOAD was first found at its queue's head (R269). -/
  reached : Nat := 0
  /-- Name and queues of a QFENCE (R168). -/
  fence : Nat := 0
  fenceMask : Nat := 0
  /-- The issuing warp's interval before the issue raised it (R161). -/
  iv : Word := 0
  deriving DecidableEq, Repr

/-- What a form with lookahead still has to do before it completes (R45): an engine entry its full queue has not taken,
the entries a QWAIT waits for with the number that was next when it issued, a reap with the register of its result, or a
settle of a node with the register of its result and the runs it must follow (R103, R113, R169). -/
inductive Pend where
  | engine (q : Nat) (e : EngEntry)
  | qwait (ids : List Nat) (since : Nat)
  | reap (id dest : Nat)
  | settle (node dest : Nat) (runs : List Nat)
  deriving DecidableEq, Repr

/-- An open lookahead window (R45, R46): the stream, the instructions that may still issue in it, the
registers its instruction writes, the results to become visible, the drawer reads still on their way (link,
request, lanes), a matrix operation not yet performed, an access the race check kept back, and what its form still has
to do. -/
structure Window where
  lane : Bool
  left : Nat
  dests : List Dest := []
  writes : List RegWrite := []
  waits : List (Nat × Nat × Mask) := []
  mxop : Option Nat := none
  /-- The matrix operation whose accumulator is the destination. -/
  made : Option Nat := none
  race : Option RaceHold := none
  pend : Option Pend := none
  /-- Results that the shadow warp's copy of the form gives otherwise (R361). -/
  twin : List RegWrite := []
  deriving DecidableEq, Repr

/-- A memory access of a path that is not accepted yet, for requests of it wait outside a full drawer queue (R82): its
instruction with stream, lookahead and destinations, the lanes whose part is still to be performed, with the addresses
and the operands of its issue, its requests outside, and what the parts performed have left: results, reads on their
way, lanes the race check keeps back, and the stamps its atomics found. -/
structure Access where
  i : Instr
  lane : Bool
  k : Nat
  dests : List Dest
  /-- Its plain accesses are not checked (R138); the scope with which its atomic writes stamp a release (R130). -/
  off : Bool := false
  rel : Option Nat := none
  xs : List HeldLane
  outside : List Nat := []
  writes : List RegWrite := []
  waits : List (Nat × Nat × Mask) := []
  race : Option RaceHold := none
  stamps : List (Option (BitVec 128)) := []
  /-- Its scalar data could not be corrected, which kills the warp (R359). -/
  kill : Bool := false
  deriving DecidableEq, Repr

/-- A run in a lane queue (R29, R174): offset in 12-byte units from the lane base, count, position, the scalar
and address registers as they stood at its LRUN (R32), and the trap enables and racectl bits of then (R219). -/
structure Run where
  off : Nat
  count : Nat
  pos : Nat := 0
  s : Cells 64 := []
  a : Cells 72 := []
  traps : BitVec 5 := 0
  racectl : BitVec 2 := 0
  id : Nat := 0
  /-- Where the images of the shadow warp's run differ: s registers by number, a registers by 64 + number (R361). -/
  twin : List (Nat × VAddr) := []
  deriving DecidableEq, Repr

/-- The record of a fault (R342, R345). -/
structure FaultRec where
  cls : BitVec 8 := 0
  cause : BitVec 8 := 0
  lane : Bool := false
  dev : Bool := false
  async : Bool := false
  addr : VAddr := 0
  mask : Mask := 0
  flpc : BitVec 20 := 0
  fdata : DWord := 0
  /-- Resumption continues after the instruction (R94, R136, R220). -/
  after : Bool := false
  race : Option RaceHold := none
  deriving DecidableEq, Repr

/-- What trap entry saves (R344): s56-s63, q0-q7, the resume point, the fault record and the runs held aside. -/
structure Handler where
  s : Cells 64
  q : BitVec 8
  pc : VAddr
  queue : List Run
  windows : List Window
  rcd : FaultRec
  /-- What the shadow saved otherwise (R361): by register number, and 64 for the condition registers. -/
  twin : List (Nat × VAddr) := []
  deriving DecidableEq, Repr

/-- A VSYNC arrival (R248): the mask carried, the lanes arrived, and whether the form has completed. -/
structure VSync where
  mask : Mask
  lanes : Mask
  done : Bool
  deriving DecidableEq, Repr

/-- A path (R172). Keys 32-63 of s hold s32-s63. -/
structure Path where
  pc : VAddr := 0
  mask : Mask := 0
  s : Cells 64 := []
  q : BitVec 8 := 0
  queue : List Run := []
  jrec : Option Nat := none
  sideT : Bool := false
  windows : List Window := []
  /-- The fragment table entry of a path that is a fragment (R186). -/
  frag : Option Nat := none
  handler : Option Handler := none
  fdisp : BitVec 2 := 0
  /-- One more than the time of its die, in fifths of a cycle, at which its NAP ends; 0 for none. -/
  nap : Nat := 0
  /-- Stall codes of R376, of the scalar and of the lane stream. -/
  stall : Nat := 0
  lstall : Nat := 0
  stopped : Bool := false
  /-- The breakpoint test is skipped for the next instruction (R371). -/
  skipBp : Bool := false
  /-- A debugger step: 0 none, 1 scalar, 2 lane (R372). -/
  stepping : BitVec 2 := 0
  /-- The first part of a two-part form (a barrier arrival, a matrix arrival) is done. -/
  begun : Bool := false
  /-- A lane form it waits in holds back both its streams (R273). -/
  both : Bool := false
  /-- The access it has issued and that is not accepted yet: neither stream issues till it is (R82). -/
  access : Option Access := none
  /-- The path's arrival waiting at the rendezvous latch (R196). -/
  mx : Option Nat := none
  /-- The barrier it last waited at (R375). -/
  bar : Option Nat := none
  vsync : Option VSync := none
  /-- Scope of a release fence that no atomic write, acquire or release has followed (R130, R143). -/
  relFence : Option Nat := none
  /-- Release stamps the path's atomic reads have found since its last acquire or release; none where there was
  no covering one (R130, R134). -/
  acqReads : List (Option (BitVec 128)) := []
  /-- Runs a waiting SYSR or SYSW of sys.fpctl or sys.racectl found enqueued (R219), or the page that a load of the
  Prologue Unit waits for (R328). -/
  awaits : Option (List Nat) := none
  /-- Raises the path has sent that may not have arrived (R303). -/
  sent : List Nat := []
  /-- Where the shadow warp's copies of s32-s63 differ, by number; of q0-q7, at 64; and of the PC, at 65 (R361). -/
  twin : List (Nat × VAddr) := []
  deriving DecidableEq, Repr

/-- An open join record (R175, R178, R179). -/
structure JoinRec where
  addr : VAddr
  mask : Mask
  arrived : Mask := 0
  prev : Option Nat := none
  prevSideT : Bool := false
  /-- The fragment table entry of the path that opened the record, which the merged path has again. -/
  frag : Option Nat := none
  /-- Rank and copy of s32-s63 and q0-q7 held in the reserved entry. -/
  copy : Option (Nat × Cells 64 × BitVec 8) := none
  /-- Raises sent by the paths that have arrived. -/
  sent : List Nat := []
  deriving DecidableEq, Repr

/-- An entry of the path stack: a spilled or a yielded path (R176). -/
structure StackEntry where
  yielded : Bool
  path : Path
  deriving DecidableEq, Repr

/-- The path parked in a warp's overflow slot, whole, with its fault as it was raised (R188): the faulting lanes, the
drawer reads it still waits for, and the page a migrate fault waits for. -/
structure Overflow where
  path : Path
  rcd : FaultRec
  mask : Mask
  waits : List (Nat × Nat × Mask) := []
  page : Option (Nat × Nat) := none
  deriving DecidableEq, Repr

/-- A warp (R33, R173). Keys of v are 128 × register + lane; p and pds hold one 128-lane mask per predicate. -/
structure Warp where
  team : Nat := 0
  ctx : Nat := 0
  budget : Nat := 256
  priv : Bool := false
  /-- Team-relative index. -/
  tindex : Nat := 0
  /-- sys.role (R194). -/
  role : DWord := 0
  /-- sys.lvl.0 to sys.lvl.7 (R199). -/
  lvl : Cells 64 := []
  s : Cells 64 := []
  a : Cells 72 := []
  v : Cells 32 := []
  vpoison : Cells 1 := []
  p : Cells 128 := []
  pds : Cells 128 := []
  g0 : DWord := 0
  fpctl : DWord := 0
  racectl : DWord := 0
  dead : Mask := 0
  exited : Mask := 0
  interval : Word := 1
  table : List (Nat × Word) := []
  teamvec : Cells 32 := []
  floor : Word := 0
  rel : Option RelRec := none
  slot0 : Option Path := none
  slot1 : Option Path := none
  /-- PC of the EXIT of the last path of each slot that nothing has filled since (R369). -/
  exit0 : Option VAddr := none
  exit1 : Option VAddr := none
  stack : List StackEntry := []
  jrecs : Tab JoinRec := []
  /-- The overflow slot (R188). -/
  overflow : Option Overflow := none
  serial : BitVec 16 := 0
  /-- Pending asynchronous events: fragment table full, pre-emption notice (R349). -/
  evFull : Bool := false
  evNotice : Bool := false
  /-- The warp has a shadow warp in its slice (R360). -/
  shadow : Bool := false
  /-- Where the shadow warp's copies of s0-s31, a, v, p and g0 differ, by register and lane (R361). Every register not
  listed holds the same in both warps. -/
  twin : List (Dest × Nat × VAddr) := []
  ended : Bool := false
  deriving DecidableEq, Repr

/-! ## Teams and cores -/

/-- A team barrier (R190). -/
structure Barrier where
  phase : Word := 0
  /-- Arrived lanes by warp, and each warp's interval after its arrival (R134). -/
  arrived : Cells 128 := []
  ivs : Cells 32 := []
  deriving DecidableEq, Repr

/-- A path waiting on a ring (R71). -/
structure RingWait where
  header : Nat
  wid : Nat
  slot : Nat
  free : Bool
  lpc : Nat
  word : LaneWord
  deriving DecidableEq, Repr

/-- What a team works for: a debugger or host launch with no owner, a queue's launch, or a plot task. -/
inductive TeamOwner where
  | none
  | launch (ctx q : Nat)
  | plot (sys plot : Nat)
  deriving DecidableEq, Repr

/-- A resident team (R194, R57). -/
structure Team where
  ctx : Nat := 0
  core : Nat := 0
  teamid : DWord := 0
  owner : TeamOwner := .none
  cls : BitVec 4 := 0
  warps : List Nat := []
  canvasBase : Nat := 0
  canvasSize : Nat := 65536
  extents : List (BitVec 128) := []
  /-- SPACE the extents are tagged with (R17). -/
  space : Nat := 0
  barriers : Tab Barrier := []
  rings : List Nat := []
  ringWaits : List RingWait := []
  /-- The latest release of a stage, by header × 64 + stage: warp, interval and epoch (R73). -/
  stageRel : Tab (Nat × Word × Word) := []
  matrix : Bool := false
  gang : Bool := false
  stated : Option (BitVec 16) := none
  progress : DWord := 0
  progressSeen : DWord := 0
  deriving DecidableEq, Repr

/-- A fragment table entry with its save record (R183, R184). state: 0 PARKED, 1 READY, 2 LIVE; made counts the
fragments of the module in the order they were created (R185). -/
structure Frag where
  warp : Nat
  serial : BitVec 16
  made : Nat := 0
  state : Nat
  ovf : Bool := false
  /-- The join record at which its lanes wait for their merge (R186). -/
  joined : Option Nat := none
  dev : Bool := false
  pfr : Bool := false
  parent : Nat := 0
  path : Path
  rcd : FaultRec
  /-- Disposition given by the debugger for a watch hit (R372), or by a device repair (replay). -/
  disp : Option (BitVec 2) := none
  /-- Drawer reads the fragment still waits for (R94). -/
  waits : List (Nat × Nat × Mask) := []
  /-- The physical page a migrate fault waits for: context and 64 KiB page number (R23). -/
  page : Option (Nat × Nat) := none
  deriving DecidableEq, Repr

/-- Why an engine queue is parked (R264). -/
inductive Park where
  | migrate (ctx vpn : Nat)
  | moving (ctx vpn : Nat)
  | link (n : Nat)
  deriving DecidableEq, Repr

structure EngQueue where
  entries : List EngEntry := []
  park : Option Park := none
  deriving DecidableEq, Repr

/-- A cached shape record (R261). -/
structure RecEntry where
  space : Nat
  addr : VAddr
  words : List DWord
  deriving DecidableEq, Repr

/-- A weight slot (R272). state: 0 EMPTY, 1 READY, 2 LOADING. -/
structure WSlot where
  scale : Word := 0
  bitmap : Word := 0
  live : BitVec 8 := 0
  fmt : BitVec 4 := 0
  state : BitVec 2 := 0
  planes : Cells 8 := []
  poison : Bool := false
  deriving DecidableEq, Repr

/-- An arrival at the rendezvous latch (R196): its name, the warp, the opcode, the word, g0 and the operands read. -/
structure Arrival where
  id : Nat
  wid : Nat
  opc : Nat
  word : LaneWord
  g0 : DWord
  coff : Nat
  /-- The word a drain merges its maximum into: its virtual address, and the physical one it was last translated to. -/
  amaxVa : VAddr := 0
  amax : Nat
  /-- The operation in whose window a drain of its accumulator issued: it reads the tile as that found it (R45). -/
  before : Option Nat := none
  deriving DecidableEq, Repr

/-- A released matrix operation (R274). -/
structure MxOp where
  id : Nat
  parts : List Arrival
  deriving DecidableEq, Repr

/-- A tile as an operation found it, for drains that issue in the operation's window (R45). -/
structure TileCopy where
  op : Nat
  tile : Nat
  cells : Cells 32
  bad : Bool
  deriving DecidableEq, Repr

/-- A cached translation (R17). -/
structure TlbEntry where
  space : Nat
  vpn : Nat
  big : Bool
  leaf : DWord
  deriving DecidableEq, Repr

/-- A 64-byte drawer line held in a core's L1 data cache, by line number, with the poison its read returned with
(R81, R82, R149). -/
structure Line where
  n : Nat
  data : BitVec 512
  bad : Bool := false
  deriving DecidableEq, Repr

/-- What a core holds besides its warps (R5). -/
structure Core where
  frags : Tab Frag := []
  queues : Tab EngQueue := []
  records : List RecEntry := []
  tlb : List TlbEntry := []
  /-- Drawer lines in the L1 data cache. -/
  l1 : List Line := []
  grant : Option Nat := none
  tiles : Cells 32 := []
  /-- Tiles made from data the memory could not correct. -/
  tilePoison : BitVec 8 := 0
  earlier : List TileCopy := []
  wslots : Tab WSlot := []
  latch : List Arrival := []
  ops : List MxOp := []
  gated : Bool := false
  /-- Warp at which the next sample of a context's profile begins (R374). -/
  sampleRot : Tab Nat := []
  /-- Path slots that have issued, by 2 × (2 × warp + slot) and 1 more where the lane stream issued last, the one that issued
  longest ago first (R200). -/
  rotation : List Nat := []
  deriving DecidableEq, Repr

/-! ## Change tree, standing systems -/

/-- A node record (R97). -/
structure Node where
  count : DWord := 0
  pend : Bool := false
  depth : BitVec 5 := 0
  first : BitVec 20 := 0
  parent : BitVec 20 := 0
  next : BitVec 20 := 0
  enrol : Word := 0
  wref : DWord := 0
  deriving DecidableEq, Repr

/-- The states of a plot (R290). -/
inductive PlotState where
  | idle | pending | service | held | moving
  deriving DecidableEq, Repr

/-- A plot as its RD holds it (R282, R289). -/
structure Plot where
  home : Nat := 0
  st : PlotState := .idle
  key : BitVec 16 := 0
  svckey : BitVec 16 := 0
  stamp : DWord := 0
  rseq : DWord := 0
  ttype : List DWord := []
  record : Nat := 0
  ireg : Nat := 0
  ilen : Nat := 0
  /-- State to return to when a re-home or a reap's copy is done (R290, R296). -/
  wasPending : Bool := false
  /-- Register set that moves it. -/
  mover : Option Nat := none
  /-- The team in service has ended, with the key its PLOTENDs stated if there was one (R287). -/
  ended : Option (Option (BitVec 16)) := none
  deriving DecidableEq, Repr

/-- A quiet round between its questions and its confirms (R292): the counts of its first settle, the dies whose mark is still
armed, and the largest key they answered. -/
structure Round where
  counts : List DWord
  armed : BitVec 8
  key : BitVec 16
  deriving DecidableEq, Repr

/-- A standing system (R278-R283). -/
structure Sys where
  ctx : Nat := 0
  queue : Nat := 0
  sscb : Nat := 0
  lead : Nat := 0
  eps : BitVec 16 := 0
  starve : Nat := 64
  keep : Nat := 0
  report : Nat := 0
  sem : Nat := 0
  nwatch : Nat := 0
  status : DWord := 0
  seq : DWord := 0
  ndisp : DWord := 0
  nwev : DWord := 0
  /-- Watch slot to node, first plot, count of plots (R281). -/
  watch : Tab (Nat × Nat × Nat) := []
  plots : Tab Plot := []
  disp : Cells 64 := []
  /-- Dies that have told the lead of a quiet moment since the last round ended (R292). -/
  told : BitVec 8 := 0
  /-- The lead begins a round: a die's telling has completed the eight, or a failed round is followed by another (R292). -/
  due : Bool := false
  round : Option Round := none
  reserve : Cells 8 := []
  /-- A DETACH waits for the system's tasks (R297). -/
  leaving : Bool := false
  /-- Forwarding entries: die, plot, new die (R296). -/
  forward : List (Nat × Nat × Nat) := []
  deriving DecidableEq, Repr

/-- A raise in flight (R285): its name, sender, system, plot, key and form. -/
structure Raise where
  id : Nat
  sender : Nat
  sys : Nat
  plot : Nat
  key : BitVec 16
  sum : Bool
  deriving DecidableEq, Repr

/-- A REAP or REAPQ past its start point (R305): the agent it reads and writes as, its descriptor, the plots copied
so far, the bound of its window, and what it read at the start. -/
structure Reap where
  /-- The issuing warp, or none for a queue's. -/
  wid : Option Nat
  ctx : Nat
  /-- Drawer class of a queue's. -/
  cls : Nat := 0
  sys : Nat
  first : Nat
  count : Nat
  dst : Nat
  stride : Nat
  rpt : Nat
  pos : Nat := 0
  /-- When it reached the plot it stands at, among the others; it holds that plot, and has copied this many bytes of it. -/
  reached : Nat := 0
  holding : Bool := false
  off : Nat := 0
  bound : BitVec 16 := 0
  seq : DWord := 0
  counts : List DWord := []
  /-- The issuing warp's interval and team. -/
  iv : Word := 0
  team : Nat := 0
  deriving DecidableEq, Repr

/-! ## Front end -/

/-- A launch in progress (R316, R322-R327): the job card's address and words, its task type and launch record. -/
structure Launch where
  place : Nat := 0
  card : List DWord
  ttype : List DWord
  lrec : List DWord := []
  count : Nat := 0
  args : VAddr := 0
  chmin : Nat := 1
  dealt : Nat := 0
  chunk : Nat := 0
  live : Nat := 0
  repeats : Nat := 0
  user : DWord := 0
  /-- Prologue runs made (R338). -/
  runs : Nat := 0
  /-- The chunk may go to any die; and its home die, or that it has none, once it has been found (R324). -/
  anyDie : Bool := false
  home : Option (Option Nat) := none
  /-- Prologue: 1 waiting for the unit, 2 running, 3 done or none. -/
  prologue : Nat := 0
  /-- When the prologue became ready, among the others. -/
  ready : Nat := 0
  again : Bool := false
  cancelled : Bool := false
  deriving DecidableEq, Repr

/-- A graph in progress (R329, R330). -/
structure Graph where
  nodes : List (List DWord)
  pos : Nat
  counts : Cells 32 := []
  steps : Nat := 0
  user : DWord := 0
  deriving DecidableEq, Repr

/-- The entry in progress of a queue (R315). status is set when the entry has ended. -/
structure Entry where
  index : DWord
  words : List DWord
  launch : Option Launch := none
  graph : Option Graph := none
  /-- The reap a REAPQ has begun. -/
  reap : Option Nat := none
  started : Bool := false
  status : Option (BitVec 8) := none
  detail : BitVec 24 := 0
  deriving DecidableEq, Repr

/-- A queue's registers (R311) and its entry in progress. -/
structure Queue where
  qbase : DWord := 0
  qcfg : DWord := 0
  qhwb : DWord := 0
  qtail : DWord := 0
  qhead : DWord := 0
  waitpub : Bool := false
  block : Bool := false
  err : Bool := false
  scrub : Bool := false
  entry : Option Entry := none
  /-- Candidate served last: 0 the launch, n + 1 system n (R320). -/
  lastCand : Nat := 64
  deriving DecidableEq, Repr

/-- States of a context (R351). -/
inductive CtxState where
  | running | draining | drained | freezing | frozen | restoring | tornDown
  deriving DecidableEq, Repr

/-- A context block (R310, R343, R351, R360, R370, R374). -/
structure Ctx where
  cfg : DWord := 0
  xdesc : DWord := 0
  ttab : DWord := 0
  seed : DWord := 1
  textbase : DWord := 0
  lanebase : DWord := 0
  trap : DWord := 0
  /-- OP and DEADLINE of CTXPRE, and the cycle a drain began. -/
  preOp : BitVec 3 := 0
  deadline : Word := 0
  drainAt : DWord := 0
  st : CtxState := .running
  /-- RUN has been set since the slot was set up (R96). -/
  started : Bool := false
  preErr : Bool := false
  cfcause : BitVec 8 := 0
  ecause : BitVec 8 := 0
  dfaults : BitVec 16 := 0
  save : DWord := 0
  ras : Bool := false
  covlost : DWord := 0
  ssize : Nat := 0
  /-- Name of the image a restore in progress works on. -/
  image : Nat := 0
  dbgctl : DWord := 0
  dbgcmd : DWord := 0
  dbgbp : Cells 64 := []
  dbgwa : Cells 64 := []
  trbase : DWord := 0
  trctl : DWord := 0
  queues : Tab Queue := []
  /-- The wait-for graph of the last deadlock reading, each node with its edges, and the head and entry each queue then had
  (R375). -/
  graphSeen : List (Nat × List Nat) := []
  queuesSeen : Tab (DWord × Option Entry) := []
  deriving DecidableEq, Repr

/-- A run of the Prologue Unit (R328). -/
structure PuRun where
  ctx : Nat
  q : Nat
  count : Nat := 0
  /-- Values given by PSET in this run (R223). -/
  pset : Tab DWord := []
  deriving DecidableEq, Repr

/-- What firmware, the driver or a fault of the hardware does to the machine from outside its instructions. -/
inductive Outside where
  /-- The page allocator gives a 64 KiB frame to a context, which zeroes it (R100, R357). -/
  | giveFrame (frame ctx : Nat)
  /-- The driver unmaps a page and frees its frame, which has no owner from then on (R100). -/
  | freeFrame (frame : Nat)
  /-- The driver unmaps a page of a context, whose frame stays its own (R100). -/
  | unmapPage (ctx vpn : Nat)
  /-- The driver begins to move a page of a context (R264). -/
  | beginMove (ctx vpn : Nat)
  /-- A bit error that no check finds leaves the shadow warp another value in a register of a lane, or in a register of
  the path in a slot (R361). -/
  | shadowUpset (wid slot : Nat) (d : Dest) (lane : Nat) (x : VAddr)
  deriving DecidableEq, Repr

/-- Which party moves next. -/
inductive Turn where
  | scalar (wid slot : Nat)
  | lane (wid slot : Nat)
  | event (e : Instr)
  | outside (o : Outside)
  /-- A step of a path's reap, taken while its window runs (R305). -/
  | reap (id : Nat)
  deriving DecidableEq, Repr

/-! ## Links -/

/-- The command an atomic carries in its payload (R85). -/
structure AmoCmd where
  op : BitVec 8
  size : BitVec 8
  /-- Byte offset within the 256-byte block. -/
  off : BitVec 8
  ty : BitVec 8
  mods : BitVec 8
  operand : DWord
  compare : DWord
  deriving DecidableEq, Repr

/-- What the entry of a request into its queue does to memory besides what its party does (R89): nothing, the store of its
enabled bytes, their store with no count (R374), or the atomic of a drain's maximum or of the ME (R162, R336). -/
inductive OnEntry where
  | none | store | quiet | atomic
  deriving DecidableEq, Repr

/-- A drawer request (R81, R85). kind: 0 read, 1 write of 256 bytes, 2 masked write, 3 atomic. -/
structure Req where
  id : Nat
  kind : Nat
  addr : Nat
  rlen : Nat := 0
  /-- Class 0-15, or 16 for the unclassed position (R83). -/
  cls : Nat := 16
  /-- Data of a write; of a read, the bytes it returns, which are those of its entry into the queue (R82). -/
  data : List Byte := []
  /-- Byte enables of a masked write. -/
  be : Mask := 0
  amo : Option AmoCmd := none
  /-- The core whose L1 the block returned fills, or that a write comes from, and the lines still to be filled (R81). -/
  core : Option Nat := none
  lines : List Nat := []
  eff : OnEntry := .none
  deriving DecidableEq, Repr

/-- A read or atomic that has departed, with its reserved upstream slots, counted from reset (R88), and the flits of
it that have come poisoned, by index. -/
structure Inflight where
  req : Req
  slots : List Nat
  bad : List Nat := []
  deriving DecidableEq, Repr

/-- A downstream flit (R85): its slot, its sequence number, the read or atomic with whether the pool chose it, and the
write. -/
structure Flit where
  slot : Nat
  seq : BitVec 16
  rd : Option (Req × Bool) := none
  wr : Option Req := none
  deriving DecidableEq, Repr

/-- A request that waits outside a full queue (R82), for whom: no one, a step of the hub that takes place once it has all
its requests in, the lanes of a path's access, or the entry at the head of an engine queue with the bytes it writes. -/
inductive Waiter where
  | posted (r : Req)
  | hub (t : Turn) (r : Req)
  | access (wid slot : Nat) (r : Req) (m : Mask)
  | engine (core q : Nat) (r : Req) (xs : List (Nat × Byte × Bool))
  deriving DecidableEq, Repr

/-- Link states (R90). -/
inductive LinkState where
  | run | parking | retune | locking | switch | retrain | down
  deriving DecidableEq, Repr

/-- A drawer link and its controller (R82-R91). Slot numbers count on from reset. -/
structure Link where
  lock : Bool := true
  st : LinkState := .run
  wcur : BitVec 2 := 0
  wtgt : BitVec 2 := 0
  wwake : BitVec 2 := 0
  autow : Bool := false
  wthr : BitVec 8 := 0
  flits : Word := 0
  err : Bool := false
  retrains : BitVec 16 := 0
  wakes : BitVec 16 := 0
  relocks : BitVec 16 := 0
  /-- The width being woken (R91). -/
  waking : BitVec 2 := 0
  queue : List Req := []
  /-- What waits outside the full queue, in the order it came (R82). -/
  waiting : List Waiter := []
  /-- Live slot table: slots owned by a class, as class + 1; an unlisted slot is the pool's (R87). -/
  table : Cells 5 := []
  /-- DLSLOT0-DLSLOT15; an unlisted register holds eight pool entries. -/
  shadow : Tab DWord := []
  pend : Bool := false
  /-- Rotation position the pool served last; 16 is the unclassed one (R86). -/
  poolLast : Nat := 16
  slot : Nat := 0
  /-- No read or atomic departs before this slot (R93). -/
  pauseUntil : Nat := 0
  inflight : List Inflight := []
  /-- Sequence number of the next downstream flit, and of the last good upstream one (R85). -/
  seq : BitVec 16 := 0
  ack : BitVec 16 := 0
  /-- Flits sent since the last ACK received, oldest first, and those a replay is to send again, each in its slot
  (R93). -/
  kept : List Flit := []
  resend : List Flit := []
  /-- FLITS at the last policy sample (R384). -/
  sampled : Word := 0
  deriving DecidableEq, Repr

/-! ## Hub -/

/-- One set of the shoot-down, tree and re-home registers (R24, R117, R295). The fields named for work hold the
command in progress as its GO found it (log 109); rhat is when a re-home's GO came, among the others. -/
structure RegSet where
  xsaddr : DWord := 0
  xscmd : DWord := 0
  xsbusy : Bool := false
  xserr : Bool := false
  xswork : DWord := 0
  xswhere : DWord := 0
  xsseq : Word := 0
  /-- The number that was next at its GO: requests named before it may hold a translation it drops (R27). -/
  xsfrom : Nat := 0
  ctcmd : DWord := 0
  ctaddr : DWord := 0
  ctbusy : Bool := false
  cterr : Bool := false
  ctres : Cells 64 := []
  ctwork : DWord := 0
  ctwhere : DWord := 0
  rhcmd : DWord := 0
  rhbusy : Bool := false
  rherr : Bool := false
  rhseq : Word := 0
  rhwork : DWord := 0
  rhat : Nat := 0
  deriving DecidableEq, Repr

/-- A mailbox (R335). -/
structure Mailbox where
  cmd : DWord := 0
  addr : DWord := 0
  data : DWord := 0
  cmp : DWord := 0
  res : DWord := 0
  /-- Result to be written to MBRES at completion. -/
  pendingRes : DWord := 0
  pendingStatus : BitVec 8 := 0
  status : BitVec 8 := 0
  busy : Bool := false
  /-- The command as its GO found it, and while it has not been performed when the GO came, among the others. -/
  work : DWord := 0
  todo : Option Nat := none
  deriving DecidableEq, Repr

/-- The certificate of an attestation key (R381, R383): its generation, and the identity key's signature with the
one-time index it used. -/
structure Certificate where
  generation : Nat
  index : Nat
  signature : BitVec 256
  deriving DecidableEq, Repr

/-- An attestation response (R381, R382): SHA-256 measurements of the boot ROM, the firmware image, the configuration record
and the running firmware, VERSION, MODSTAT bits 63-59 and the nonce, the signature of the attestation key, and that
key's certificate with the one that anchors it. -/
structure Attestation where
  measurements : List (BitVec 256)
  nonce : BitVec 256
  version : Word
  modstat : BitVec 5
  generation : Nat
  signature : BitVec 256
  certificate : Option Certificate
  /-- Fenfel's certificate of the identity key. -/
  anchor : BitVec 256
  deriving DecidableEq, Repr

/-- Start-up, security and power (R377-R388). -/
structure Platform where
  /-- STAGE of MODSTAT: 0 stage 1 in progress, 1 stage 2 in progress, 2 full function, 3 halted; live says
  that stage 0 has completed. -/
  live : Bool := false
  /-- The module is held in reset. -/
  inReset : Bool := false
  stage : BitVec 2 := 0
  fail : Bool := false
  erased : Bool := false
  alarm : Bool := false
  fcode : BitVec 8 := 0
  dieup : BitVec 8 := 0
  /-- Stage 2 has ended since the last reset, so context blocks are live (R377). -/
  ready : Bool := false
  linkup : BitVec 32 := 0
  /-- The configuration record has been accepted since the last reset (R379, R380). -/
  accepted : Bool := false
  /-- Words 0-7 of the configuration record in flash (R380). -/
  record0 : DWord := 0x4C58434600000001
  record1 : DWord := 0xFF000D4800000000
  record2 : DWord := 0x0000000000004000
  record3 : DWord := 0x0000004000000000
  record4 : DWord := 0
  record5 : DWord := 0
  record6 : DWord := 0
  record7 : DWord := 0
  /-- Near-tier carve-outs firmware has reserved, as 64 KiB page and count (R9, R98). -/
  carved : List (Nat × Nat) := []
  version : Word := 0
  generation : Nat := 0
  genIndex : Nat := 0
  idIndex : Nat := 0
  keyStore : Bool := true
  /-- Certificate of the current generation's key (R383). -/
  certificate : Option Certificate := none
  /-- Operating point of each die, and the point a change in progress goes to (R386). -/
  points : Cells 2 := []
  changing : Tab (BitVec 2) := []
  /-- Fifths of a die cycle by which each die's clock has fallen behind sys.cycle, which counts at the clock of P0 (R386). -/
  lag : Cells 64 := []
  watts : Cells 16 := []
  responses : List Attestation := []
  unsigned : Nat := 0
  deriving DecidableEq, Repr

/-- Registers and logs of the hub die. -/
structure Hub where
  sets : Tab RegSet := []
  mailboxes : Tab Mailbox := []
  meClass : BitVec 4 := 0
  ssown : Cells 64 := []
  deverr : List DWord := []
  /-- A fatal event is logged and the module has stopped (R363, R364). -/
  fatal : Bool := false
  prfsel : DWord := 0
  /-- Histogram bins 1 to 30: 31 × (4 × core + slice) + bin; and the cycle of each slice's last clear, from
  which bin 0 follows (R376). -/
  bins : Cells 64 := []
  binBase : Cells 64 := []
  rdSeq : Cells 64 := []
  /-- Context served last by each die's dealer, plus 1 (R319). -/
  lastCtx : Cells 9 := []
  /-- Outputs: MSI-X vectors (function, vector) and AER messages (severity), newest first. -/
  msix : List (Nat × Nat) := []
  aer : List Nat := []
  /-- The physical function's Uncorrectable Internal Error status, and its severity bit (R363). -/
  uie : Bool := false
  uieSev : Bool := false
  deriving DecidableEq, Repr

/-- Memory and everything kept per byte, sector, granule or frame of it. -/
structure Mem where
  /-- Bytes by physical address (R9). -/
  bytes : Cells 8 := []
  /-- Poison marks by 32-byte sector (R358). -/
  poison : Cells 1 := []
  /-- Canvas bytes by 2^27 × die + die canvas address (R55). -/
  canvas : Cells 8 := []
  canvasPoison : Cells 1 := []
  /-- Race stamps by sector, near and canvas (R132, R133). -/
  stamps : Cells 128 := []
  canvasStamps : Cells 128 := []
  /-- Granule counts, pending marks, enrolment by 4 KiB granule (R98-R100). -/
  counts : Cells 32 := []
  pend : Cells 1 := []
  enrol : Cells 20 := []
  /-- Owner of a 64 KiB frame, as context + 1: 257 is a frozen context whose slot has been returned, and 511 none now, where
  there has been one (R98, R100). -/
  owner : Cells 9 := []
  deriving DecidableEq, Repr

/-- What an image keeps of one core (R353). -/
structure CoreSave where
  frags : Tab Frag
  queues : Tab EngQueue
  grant : Option Nat
  tiles : Cells 32
  tilePoison : BitVec 8
  earlier : List TileCopy
  wslots : Tab WSlot
  latch : List Arrival
  ops : List MxOp
  deriving DecidableEq, Repr

/-- The image of a frozen context (R353): its context, queues, teams, warps and what their cores held, canvas by
2^27 × team + offset, standing and change-tree state, drawer requests not yet answered, stamps left behind, and the
name and size of the bytes the freeze wrote to the save area, by which a restore checks it. A restore in progress works on a
copy, which names its source. -/
structure Image where
  source : Option Nat := none
  ctx : Nat
  queues : Tab Queue
  teams : Tab Team
  warps : Tab Warp
  cores : Tab CoreSave
  canvas : Cells 8
  canvasPoison : Cells 1
  canvasStamps : Cells 128
  systems : Tab Sys
  raises : List Raise
  watchEvents : List (Nat × Nat)
  reaps : Tab Reap
  nodes : Tab Node
  frames : List Nat
  counts : Cells 32
  pend : Cells 1
  enrol : Cells 20
  reqs : List (Nat × Req)
  lost : Nat
  draw : Nat
  size : Nat
  deriving DecidableEq, Repr

/-- The machine. -/
structure State where
  plat : Platform := {}
  cycle : DWord := 0
  mem : Mem := {}
  hub : Hub := {}
  ctxs : Tab Ctx := []
  nodes : Tab Node := []
  systems : Tab Sys := []
  /-- Systems of frozen contexts, which are live though at rest (R278, R297). -/
  frozen : Tab Sys := []
  raises : List Raise := []
  reaps : Tab Reap := []
  /-- Watch events on their way: system, slot (R105). -/
  watchEvents : List (Nat × Nat) := []
  teams : Tab Team := []
  cores : Tab Core := []
  /-- Warps by 64 × (200 × die + core) + warp; 102400 is the Prologue Unit. -/
  warps : Tab Warp := []
  pu : Option PuRun := none
  links : Tab Link := []
  l2 : Tab (List TlbEntry) := []
  hubTlb : List TlbEntry := []
  /-- Walkers' caches of pointer entries, one for each die and, at 8, the hub's: space, level, index bits, entry
  (R17, R21). -/
  pointers : Tab (List (Nat × Nat × Nat × DWord)) := []
  /-- Page moves firmware has begun (R264): context, page, and of a move the driver asked for the old leaf, with where it
  stands; 0 for a migrate move. -/
  moves : List (Nat × Nat × DWord × Nat) := []
  images : Tab Image := []
  /-- Next team key, next request and operation number: names, not hardware. -/
  names : Nat := 1
  /-- The issuing path: warp and slot. -/
  cur : Nat × Nat := (0, 0)
  agenda : List Turn := []
  /-- Requests of steps of the hub that have entered their queues, while others of the step wait outside (R82). -/
  paid : List (Turn × Req) := []
  /-- In the step that is taken now: those of its requests that had entered before, those that have entered now, and the
  first that its queue does not take, for which the step waits (R82, R94). -/
  credit : List Req := []
  sent : List Req := []
  held : Option Req := none
  freeCtr : Nat := 0
  tick : Nat := 0
  rot : Nat := 0
  deriving DecidableEq, Repr

/-- The module right after reset release: stage 0, no context set up, no team resident, every link's slot
table the pool's (R87, R356, R377). Registers the spec gives no reset value read zero (log 5). -/
def State.reset : State := {}

end Sys2Proof.Machine
end

