-- ==== Sys2Proof/Machine/Regs.lean ====
section
/-! DEFINITION. The registers of the issuing path and its warp (R33), lane masks (R42), and open lookahead
windows (R45). Every read or write of a register goes through the operations here. -/

namespace Sys2Proof.Machine

abbrev Out := Host.Outcome State Fault Refusal

/-- The warp key of the Prologue Unit. -/
def puWid : Nat := 102400

/-- Core of a warp, as 200 × die + core. -/
def coreOf (wid : Nat) : Nat := wid / 64
def dieOf (wid : Nat) : Nat := wid / 12800
/-- A warp as race stamps name it (R133): die, core and warp. -/
def wrOf (wid : Nat) : BitVec 17 := BitVec.ofNat 17 (dieOf wid * 16384 + coreOf wid % 200 * 64 + wid % 64)

/-! ## Paths and warps -/

/-- The path in place k: slots 0 and 1, then the entries of the path stack. -/
def Warp.slot (w : Warp) (k : Nat) : Option Path :=
  if k = 0 then w.slot0 else if k = 1 then w.slot1 else (w.stack[k - 2]?).map (·.path)

/-- Puts a path into place k, or takes it away. -/
def Warp.setSlot (w : Warp) (k : Nat) (p : Option Path) : Warp :=
  if k = 0 then { w with slot0 := p }
  else if k = 1 then { w with slot1 := p }
  else match p with
    | some x => { w with stack := w.stack.modify (k - 2) (fun e => { e with path := x }) }
    | none => { w with stack := w.stack.eraseIdx (k - 2) }

/-- Places of a warp that hold paths. -/
def Warp.places (w : Warp) : List Nat := (List.range (w.stack.length + 2)).filter (fun k => (w.slot k).isSome)

def State.putWarp (s : State) (wid : Nat) (w : Warp) : State := { s with warps := s.warps.put wid w }

def State.modWarp (s : State) (wid : Nat) (f : Warp → Warp) : State :=
  match s.warps.find wid with
  | some w => s.putWarp wid (f w)
  | none => s

def State.pathAt (s : State) (wid k : Nat) : Option Path := (s.warps.find wid).bind (fun w => w.slot k)

def State.modPathAt (s : State) (wid k : Nat) (f : Path → Path) : State :=
  s.modWarp wid (fun w => w.setSlot k ((w.slot k).map f))

/-- The issuing path, if State names one. -/
def State.path? (s : State) : Option Path := s.pathAt s.cur.1 s.cur.2
/-- The issuing path and its warp. -/
def State.cp (s : State) : Path := s.path?.getD {}
def State.cw (s : State) : Warp := (s.warps.find s.cur.1).getD {}
def State.modP (s : State) (f : Path → Path) : State := s.modPathAt s.cur.1 s.cur.2 f
def State.modW (s : State) (f : Warp → Warp) : State := s.modWarp s.cur.1 f
def State.inPu (s : State) : Bool := s.cur.1 == puWid

def State.modTeam (s : State) (t : Nat) (f : Team → Team) : State :=
  match s.teams.find t with
  | some x => { s with teams := s.teams.put t (f x) }
  | none => s

def State.core (s : State) (c : Nat) : Core := s.cores.getD c {}
def State.modCore (s : State) (c : Nat) (f : Core → Core) : State := { s with cores := s.cores.put c (f (s.core c)) }

/-- Fifths of a cycle that a die's clock has counted (R386). -/
def State.dieTime (s : State) (die : Nat) : DWord := 5 * s.cycle - s.plat.lag.get die

def State.ctx (s : State) (c : Nat) : Ctx := s.ctxs.getD c {}
def State.modCtx (s : State) (c : Nat) (f : Ctx → Ctx) : State := { s with ctxs := s.ctxs.put c (f (s.ctx c)) }

/-- The context and the team of the issuing path. -/
def State.cctx (s : State) : Ctx := s.ctx s.cw.ctx
def State.cteam (s : State) : Team := s.teams.getD s.cw.team {}

/-- A fresh draw for a free value. -/
def State.draw (s : State) : Nat × State := (s.freeCtr, { s with freeCtr := s.freeCtr + 1 })

/-! ## Scalar, address and condition registers -/

/-- s0-s31 are the warp's, s32-s63 the path's (R33). -/
def sOf (w : Warp) (p : Path) (n : Nat) : DWord := if n < 32 then w.s.get n else p.s.get n

def State.sN (s : State) (n : Nat) : DWord := sOf s.cw s.cp n
def State.sReg (s : State) (n : BitVec 6) : DWord := s.sN n.toNat

def State.setSN (s : State) (n : Nat) (x : DWord) : State :=
  if n < 32 then s.modW (fun w => { w with s := w.s.set n x }) else s.modP (fun p => { p with s := p.s.set n x })

def State.setS (s : State) (n : BitVec 6) (x : DWord) : State := s.setSN n.toNat x

def State.aReg (s : State) (n : BitVec 4) : VAddr := s.cw.a.get n.toNat
def State.setA (s : State) (n : BitVec 4) (x : VAddr) : State :=
  s.modW (fun w => { w with a := w.a.set n.toNat x })

/-- q0 reads 1 (R33). -/
def Path.qBit (p : Path) (n : Nat) : Bool := n = 0 || bitB p.q n
def State.qReg (s : State) (n : BitVec 3) : Bool := s.cp.qBit n.toNat

/-- A write of q0 is discarded (R35). -/
def State.setQ (s : State) (n : BitVec 3) (b : Bool) : State :=
  if n = 0 then s else s.modP (fun p => { p with q := putBit p.q n.toNat b })

/-! ## Lane registers and predicates -/

def Warp.vReg (w : Warp) (n l : Nat) : Word := w.v.get (128 * n + l)

/-- k consecutive registers of a lane as one number, the first lowest (R34). -/
def Warp.vWide (w : Warp) (n l : Nat) : Nat → Nat
  | 0 => 0
  | k + 1 => (w.vReg n l).toNat + 2 ^ 32 * w.vWide (n + 1) l k

/-- Writes a register of a lane with its poison mark (R358). -/
def Warp.setV (w : Warp) (n l : Nat) (x : Word) (poison : Bool) : Warp :=
  { w with
    v := w.v.set (128 * n + l) x
    vpoison := w.vpoison.set (128 * n + l) (if poison then 1 else 0) }

/-- Writes k consecutive registers of a lane from a number. -/
def Warp.setVWide (w : Warp) (n l : Nat) (poison : Bool) : Nat → Nat → Warp
  | 0, _ => w
  | k + 1, x => (w.setV n l (BitVec.ofNat 32 x) poison).setVWide (n + 1) l poison k (x / 2 ^ 32)

def fullMask : Mask := BitVec.allOnes 128

/-- Value bits of a predicate; p0 reads 1 in every lane (R33). -/
def Warp.pred (w : Warp) (n : Nat) : Mask := if n = 0 then fullMask else w.p.get n
/-- Dead-source bits; p0 has none. -/
def Warp.predDs (w : Warp) (n : Nat) : Mask := if n = 0 then 0 else w.pds.get n

/-- Writes value and dead-source bits of the lanes of m; writes of p0 are discarded (R35, R225). -/
def Warp.setPred (w : Warp) (n : Nat) (m value ds : Mask) : Warp :=
  if n = 0 then w
  else
    { w with
      p := w.p.set n ((w.p.get n &&& ~~~m) ||| (value &&& m))
      pds := w.pds.set n ((w.pds.get n &&& ~~~m) ||| (ds &&& m)) }

/-- Lanes of a path that have neither died nor exited. -/
def Path.liveMask (p : Path) (w : Warp) : Mask := p.mask &&& ~~~w.dead &&& ~~~w.exited

/-- Lanes active in a lane word (R42). -/
def activeMask (w : Warp) (p : Path) (f : LaneWord) : Mask :=
  let g := w.pred f.g.toNat
  p.liveMask w &&& (if f.gn = 1 then ~~~g else g)

/-! ## Lookahead windows (R45-R47) -/

/-- A result made visible. -/
def Warp.apply (w : Warp) (k : Nat) : RegWrite → Warp
  | .s n x => if n < 32 then { w with s := w.s.set n x } else w.setSlot k ((w.slot k).map (fun p => { p with s := p.s.set n x }))
  | .a n x => { w with a := w.a.set n x }
  | .v n l x b => w.setV n l x b

def Warp.applyAll (w : Warp) (k : Nat) (rs : List RegWrite) : Warp := rs.foldl (fun w r => w.apply k r) w

/-- Register and lane a result is written to. -/
def RegWrite.place (r : RegWrite) : Dest × Nat :=
  match r with
  | .s n _ => (.s n, 0)
  | .a n _ => (.a n, 0)
  | .v n l _ _ => (.v n, l)

def RegWrite.value (r : RegWrite) : VAddr :=
  match r with
  | .s _ x => x.setWidth 72
  | .a _ x => x
  | .v _ _ x _ => x.setWidth 72

/-- Both warps of a pair hold the same in the places named (R361). -/
def Warp.agreeOn (w : Warp) (k : Nat) (ds : List (Dest × Nat)) : Warp :=
  if w.twin.isEmpty && ((w.slot k).map (·.twin.isEmpty)).getD true then w
  else
    ({ w with twin := w.twin.filter (fun x => !ds.contains (x.1, x.2.1)) } : Warp).setSlot k ((w.slot k).map (fun p =>
      { p with twin := p.twin.filter (fun x => !ds.contains (.s x.1, 0)) }))

/-- The shadow warp's results where they differ. -/
def Warp.differOn (w : Warp) (k : Nat) (rs : List RegWrite) : Warp :=
  rs.foldl (fun w r =>
    match r with
    | .s n x => if n < 32 then { w with twin := (.s n, 0, x.setWidth 72) :: w.twin }
      else w.setSlot k ((w.slot k).map (fun p => { p with twin := (n, x.setWidth 72) :: p.twin }))
    | r => { w with twin := (r.place.1, r.place.2, r.value) :: w.twin }) w

/-- Nothing is still on its way for the window. -/
def Window.complete (d : Window) : Bool := d.waits.isEmpty && d.mxop.isNone && d.pend.isNone

/-- One more instruction of the stream has issued in every open window of it. -/
def tickWindows (lane : Bool) (ds : List Window) : List Window :=
  ds.map (fun d => if d.lane = lane then { d with left := d.left - 1 } else d)

/-- The windows of a stream end here (R46). -/
def endWindows (lane : Bool) (ds : List Window) : List Window :=
  ds.map (fun d => if d.lane = lane then { d with left := 0 } else d)

/-- A window of the stream has ended and not completed, so the next instruction of the stream waits. -/
def windowsBlock (lane : Bool) (ds : List Window) : Bool :=
  ds.any (fun d => d.lane = lane && d.left = 0 && !d.complete)

/-- Every window of the stream has completed. -/
def windowsDone (lane : Bool) (ds : List Window) : Bool := ds.all (fun d => d.lane ≠ lane || d.complete)

/-- A destination of an open window of the stream is among those written (R47). -/
def windowConflict (lane : Bool) (ds : List Window) (xs : List Dest) : Bool :=
  ds.any (fun d => d.lane = lane && d.dests.any (fun x => xs.contains x))

/-- The part of an open window that a path of these lanes keeps (R48). A window of the scalar stream acts for the whole
path and stays whole. -/
def Window.restrict (d : Window) (m : Mask) : Window :=
  if !d.lane then d
  else
    { d with
      writes := d.writes.filter (fun r => match r with | .v _ l _ _ => bitB m l | _ => true)
      waits := (d.waits.map (fun x => (x.1, x.2.1, x.2.2 &&& m))).filter (fun x => x.2.2 ≠ 0)
      race := d.race.map (fun r => { r with lanes := r.lanes.filter (fun h => bitB m h.lane) }) }

/-- A pending form whose result is a register of the path's own. -/
def Pend.own (x : Pend) : Bool :=
  match x with
  | .reap _ d => decide (32 ≤ d)
  | .settle _ d _ => decide (32 ≤ d)
  | _ => false

/-- What a fragment carries of a window of its path (R48, R182): its lanes' part, and of the scalar stream only the
copies of s32-s63, for the path it leaves goes on to write the registers they share. -/
def Window.carry (d : Window) (m : Mask) : Window :=
  if d.lane then d.restrict m
  else
    { d with
      writes := d.writes.filter (fun r => match r with | .s n _ => decide (32 ≤ n) | _ => false)
      race := none, pend := d.pend.filter Pend.own }

end Sys2Proof.Machine
end

