-- ==== Sys2Proof/Machine/Space.lean ====
section
/-! DEFINITION. Address spaces: the physical map (R9), page table entries and walks (R10-R14), extents and
translation caches (R17-R21), the tests of R22, and the withdrawal of translations (R25). -/

namespace Sys2Proof.Machine

/-! ## The physical map (R9) -/

def nearEnd : Nat := 0x3000000000
def drawerBase : Nat := 0x1000000000000
def drawerEnd : Nat := 0x1100000000000
def hostBase : Nat := 0x8000000000000
def physEnd : Nat := 0x10000000000000

def isNear (pa : Nat) : Bool := decide (pa < nearEnd)
def isDrawer (pa : Nat) : Bool := decide (drawerBase ≤ pa ∧ pa < drawerEnd)
def isHost (pa : Nat) : Bool := decide (hostBase ≤ pa ∧ pa < physEnd)

/-- Home die of a near page (R75). -/
def homeDie (pa : Nat) : Nat :=
  natBits pa 18 16 ^^^ natBits pa 21 19 ^^^ natBits pa 24 22 ^^^ natBits pa 27 25 ^^^ natBits pa 30 28
    ^^^ natBits pa 33 31 ^^^ natBits pa 36 34 ^^^ natBits pa 37 37

/-- Link of a drawer granule (R81). -/
def linkOf (pa : Nat) : Nat :=
  natBits pa 16 12 ^^^ natBits pa 21 17 ^^^ natBits pa 26 22 ^^^ natBits pa 31 27 ^^^ natBits pa 36 32
    ^^^ natBits pa 41 37 ^^^ natBits pa 43 42

/-- The module's drawer region (R380), as drawer offsets. -/
def regionBase (s : State) : Nat := bitsN s.plat.record2 63 32 * 2 ^ 30
def regionSize (s : State) : Nat := bitsN s.plat.record2 31 0 * 2 ^ 30

/-- n bytes from pa lie in one range of R9 and outside every carve-out: those firmware reserves in the near tier, and the
top of the drawer region, which holds its granule counts (R9, R98). -/
def mappable (s : State) (pa n : Nat) : Bool :=
  if isNear pa then
    decide (pa + n ≤ nearEnd)
      && s.plat.carved.all (fun c => decide (pa + n ≤ c.1 * 65536 ∨ (c.1 + c.2) * 65536 ≤ pa))
  else if isDrawer pa then
    decide (drawerBase + regionBase s ≤ pa)
      && decide (pa + n ≤ drawerBase + regionBase s + (regionSize s - regionSize s / 1024))
  else decide (hostBase ≤ pa ∧ pa + n ≤ physEnd)

/-! ## Page table entries (R11, R12) -/

def pteV (e : DWord) : Bool := bitB e 63
def pteL (e : DWord) : Bool := bitB e 62
def ptePl (e : DWord) : Nat := bitsN e 61 60
def pteCmp (e : DWord) : Bool := bitB e 59
def pteRp (e : DWord) : Bool := bitB e 57
def pteWp (e : DWord) : Bool := bitB e 56
def pteXp (e : DWord) : Bool := bitB e 55
def ptePriv (e : DWord) : Bool := bitB e 54
/-- The physical address the entry's PFN names. -/
def pteBase (e : DWord) : Nat := bitsN e 51 16 * 65536

def pteReserved (e : DWord) : Bool := bitB e 58 || bitB e 52 || bitsN e 15 4 ≠ 0

/-- A valid pointer entry that R12 does not call malformed. -/
def pointerOk (e : DWord) : Bool := !pteReserved e && bitsN e 61 54 == 0 && isNear (pteBase e)

/-- A valid leaf of a level that R12 does not call malformed. -/
def leafOk (s : State) (lvl : Nat) (e : DWord) : Bool :=
  let n := if lvl = 3 then 2 ^ 29 else 65536
  !pteReserved e && decide (pteBase e % n = 0) && mappable s (pteBase e) n
    && (match ptePl e with
        | 0 => isNear (pteBase e)
        | 1 => isDrawer (pteBase e)
        | 2 => isDrawer (pteBase e) && decide (lvl = 4)
        | _ => isHost (pteBase e))
    && (!pteCmp e || ptePl e == 0 || ptePl e == 2)

/-- Lowest index bit of a level (R10). -/
def levelShift (lvl : Nat) : Nat := 68 - 13 * lvl

/-- Address of the entry a level reads in its table. -/
def entryAddr (va lvl table : Nat) : Nat :=
  table + 8 * (if lvl = 0 then va / 2 ^ 68 else va / 2 ^ levelShift lvl % 8192)

/-- What a walk found. -/
inductive Walk where
  | leaf (lvl : Nat) (e : DWord) (at_ : Nat)
  | malformed
  | notPresent
  deriving DecidableEq, Repr

/-- A pointer entry a walker keeps: space, level, index bits down to the level's, entry (R17). -/
abbrev Pointer := Nat × Nat × Nat × DWord

/-- Walks from a level down (R10-R13), reading each entry once, or from the walker's cache of pointers; answers
the pointers it read too. -/
def walkFrom (s : State) (cache : List Pointer) (space va : Nat) : Nat → Nat → Walk × List Pointer
  | 0, _ => (.malformed, [])
  | n + 1, table =>
    let lvl := 4 - n
    let key := va / 2 ^ levelShift lvl
    let at_ := entryAddr va lvl table
    let hit := cache.find? (fun p => p.1 == space && p.2.1 == lvl && p.2.2.1 == key)
    let e := match hit with
      | some p => p.2.2.2
      | none => BitVec.ofNat 64 (s.mem.bytes.readNat at_ 8)
    if !pteV e then (.notPresent, [])
    else if pteL e then
      if lvl < 3 || !leafOk s lvl e then (.malformed, []) else (.leaf lvl e at_, [])
    else if lvl = 4 || !pointerOk e then (.malformed, [])
    else
      let r := walkFrom s cache space va n (pteBase e)
      (r.1, (space, lvl, key, e) :: r.2)

/-! ## Contexts' spaces (R14) -/

def xdSpace (x : DWord) : Nat := bitsN x 63 54
def xdRoot (x : DWord) : Nat := bitsN x 51 7 * 128
def xdAset (x : DWord) : Bool := bitB x 1
/-- Live and well formed (R14): the reserved bits are 0. DESIGN CHOICE (log 110): a ROOT outside the near tier does not
make a descriptor malformed, which the spec leaves open; every walk from such a root ends malformed (R10). -/
def xdescOk (x : DWord) : Bool := bitB x 0 && bitsN x 53 52 == 0 && bitsN x 6 2 == 0

/-! ## Translation -/

/-- What an access needs of a page. Those of the device's own memory may not reach a host page: copies with compressed
or block formats (R28). -/
inductive Want where
  | read | write | atomic | fetch | devRead | devWrite
  /-- No data moves (R109). -/
  | noData
  deriving DecidableEq, Repr

/-- Who translates: through a core or, with none, the hub; with a team's extents or without; for a context. -/
structure Agent where
  core : Option Nat
  team : Option Nat
  ctx : Nat
  priv : Bool
  deriving DecidableEq, Repr

/-- A translated address. -/
structure Hit where
  pa : Nat
  pl : Nat
  cmp : Bool
  deriving DecidableEq, Repr

/-- Class and cause (R342). -/
abbrev XFault := Nat × Nat

/-- The tests of R22 and R28 on a leaf, in their order. -/
def leafFault (want : Want) (priv : Bool) (e : DWord) : Option XFault :=
  let perm := match want with
    | .read => pteRp e
    | .write => pteWp e
    | .atomic => pteRp e && pteWp e && ptePl e != 3
    | .fetch => pteXp e && ptePl e != 3
    | .devRead => pteRp e && ptePl e != 3
    | .devWrite => pteWp e && ptePl e != 3
    | .noData => ptePl e != 3
  if !perm then some (2, 3) else if ptePriv e && !priv then some (2, 4)
  else if ptePl e = 2 && want ≠ .noData then some (1, 3) else none

def leafHit (big : Bool) (e : DWord) (va : Nat) : Hit :=
  { pa := pteBase e + va % (if big then 2 ^ 29 else 65536), pl := ptePl e, cmp := pteCmp e }

/-! ### Extents (R18, R19) -/

def extV (x : BitVec 128) : Bool := bitB x 0
def extBase (x : BitVec 128) : Nat := bitsN x 127 72 * 65536
def extLen (x : BitVec 128) : Nat := (bitsN x 35 8 + 1) * 65536
def extHolds (x : BitVec 128) (va : Nat) : Bool := extV x && decide (extBase x ≤ va ∧ va < extBase x + extLen x)

def extFault (want : Want) (x : BitVec 128) : Option XFault :=
  let ok := match want with
    | .read | .devRead => bitB x 4
    | .write | .devWrite => bitB x 3
    | .atomic => bitB x 4 && bitB x 3
    | .fetch => false
    | .noData => true
  if ok then none else some (2, 3)

def extHit (x : BitVec 128) (va : Nat) : Hit :=
  { pa := bitsN x 71 36 * 65536 + (va - extBase x), pl := bitsN x 7 6, cmp := bitB x 5 }

/-! ### Caches (R17, R20) -/

def TlbEntry.holds (t : TlbEntry) (space va : Nat) : Bool :=
  t.space == space && t.vpn == (if t.big then va / 2 ^ 29 else va / 65536)

/-- Puts an entry into a store of n entries; when it is full one entry, a free value, goes (log 7). -/
def capped {α : Type} (n draw : Nat) (l : List α) (x : α) : List α :=
  if l.length < n then x :: l else x :: l.eraseIdx (Config.victim draw % n)

def home64 (va : Nat) : Nat :=
  let v := va / 65536
  (natBits v 15 0 ^^^ natBits v 31 16 ^^^ natBits v 47 32 ^^^ natBits v 55 48) % 200

def home512 (va : Nat) : Nat :=
  let v := va / 2 ^ 29
  ((natBits v 15 0 ^^^ natBits v 31 16 ^^^ natBits v 42 32) + 100) % 200

/-- The first powered core of a die from index h up, modulo 200 (R20). -/
def poweredFrom (s : State) (die : Nat) : Nat → Nat → Nat
  | 0, h => die * 200 + h
  | n + 1, h => if (s.core (die * 200 + h)).gated then poweredFrom s die n ((h + 1) % 200) else die * 200 + h

def l2Slice (s : State) (die va : Nat) (big : Bool) : Nat :=
  poweredFrom s die 200 (if big then home512 va else home64 va)

/-- Installs a translation in a core's L1 TLB, and in the L2 slice that owns its size after a walk; or in the
hub's unit. -/
def install (s : State) (core : Option Nat) (t : TlbEntry) (va : Nat) (walked : Bool) : State :=
  let (d, s) := s.draw
  match core with
  | none => { s with hubTlb := capped 1024 d s.hubTlb t }
  | some c =>
    let s := s.modCore c (fun x => { x with tlb := capped 128 d x.tlb t })
    if walked then
      let k := l2Slice s (c / 200) va t.big
      { s with l2 := s.l2.put k (capped 1024 d (s.l2.getD k []) t) }
    else s

/-- Sets the A bit of a leaf (R11); no store by a program, so no count moves. -/
def setA1 (s : State) (at_ : Nat) (e : DWord) : State :=
  { s with mem := { s.mem with bytes := s.mem.bytes.writeN at_ (bytesOf 8 (putBit e 53 true).toNat) } }

/-- The cached translation of an address, and whether it stood in L1 or the hub's own unit. -/
def cached (s : State) (core : Option Nat) (space va : Nat) : Option (TlbEntry × Bool) :=
  match core with
  | none => (s.hubTlb.find? (·.holds space va)).map (fun t => (t, true))
  | some c =>
    match (s.core c).tlb.find? (·.holds space va) with
    | some t => some (t, true)
    | none =>
      let l := s.l2.getD (l2Slice s (c / 200) va false) [] ++ s.l2.getD (l2Slice s (c / 200) va true) []
      (l.find? (·.holds space va)).map (fun t => (t, false))

/-- Extents that serve an agent: its team's, if they carry its context's SPACE (R17). -/
def teamExtents (s : State) (a : Agent) (want : Want) : List (BitVec 128) :=
  if want = .fetch then [] else match a.team with
    | some t =>
      let x := s.teams.getD t {}
      if x.space = xdSpace (s.ctx a.ctx).xdesc then x.extents else []
    | none => []

/-- The walker that serves a core, by die, or the hub's, and its cache of pointers (R17, R21). -/
def walkerOf (core : Option Nat) : Nat := match core with | some c => c / 200 | none => 8
def State.pointersOf (s : State) (core : Option Nat) : List Pointer := s.pointers.getD (walkerOf core) []

/-- A walker keeps the pointers a walk read, 512 at most (R17). -/
def State.keepPointers (s : State) (core : Option Nat) (ps : List Pointer) : State :=
  let old := s.pointersOf core
  let new : List Pointer := (ps.filter (fun p => !old.contains p)).foldl (fun l p => capped 512 s.freeCtr l p) old
  { s with pointers := s.pointers.put (walkerOf core) new }

/-- A walk from a root table, which like every table lies in the near tier (R10). -/
def walkRoot (s : State) (cache : List Pointer) (space va root : Nat) : Walk × List Pointer :=
  if isNear root then walkFrom s cache space va 5 root else (.malformed, [])

/-- Translates and tests an address (R17, R19, R22); on success the translation is installed where R17 keeps it
and the A bit set (R11). An address of the system window has no translation (R8, R10). -/
def translate (s : State) (a : Agent) (va : Nat) (want : Want) : State × Except XFault Hit :=
  if 15 ≤ va / 2 ^ 68 then (s, .error (2, 2))
  else match (teamExtents s a want).find? (fun x => extHolds x va) with
  | some x =>
    match extFault want x with
    | some f => (s, .error f)
    | none => (s, .ok (extHit x va))
  | none =>
    let xd := (s.ctx a.ctx).xdesc
    let space := xdSpace xd
    match cached s a.core space va with
    | some (t, near) =>
      match leafFault want a.priv t.leaf with
      | some f => (s, .error f)
      | none => (if near then s else install s a.core t va false, .ok (leafHit t.big t.leaf va))
    | none =>
      let r := walkRoot s (s.pointersOf a.core) space va (xdRoot xd)
      let s := s.keepPointers a.core r.2
      match r.1 with
      | .malformed => (s, .error (1, 1))
      | .notPresent => (s, .error (1, 2))
      | .leaf lvl e at_ =>
        match leafFault want a.priv e with
        | some f => (s, .error f)
        | none =>
          let big := decide (lvl = 3)
          let s := install s a.core { space := space, vpn := if big then va / 2 ^ 29 else va / 65536, big := big, leaf := e } va true
          (if xdAset xd && !bitB e 53 then setA1 s at_ e else s, .ok (leafHit big e va))

/-- The leaf of an address and where it stands, read afresh from memory; nothing is installed. The system window has
none (R10). -/
def peekLeaf (s : State) (ctx va : Nat) : Walk :=
  let xd := (s.ctx ctx).xdesc
  if 15 ≤ va / 2 ^ 68 then .notPresent else (walkRoot s [] (xdSpace xd) va (xdRoot xd)).1

/-- A frame of 64 KiB firmware can place a page in: near, and outside every carve-out (R9, R23). -/
def State.placeable (s : State) (frame : Nat) : Bool := isNear (frame * 65536) && mappable s (frame * 65536) 65536

/-! ## Shoot-downs (R25) -/

/-- Drops every translation a predicate on (space, first address, length) names. -/
def dropWhere (s : State) (hit : Nat → Nat → Nat → Bool) : State :=
  let keep (t : TlbEntry) : Bool :=
    let n := if t.big then 2 ^ 29 else 65536
    !hit t.space (t.vpn * n) n
  { s with
    hubTlb := s.hubTlb.filter keep
    l2 := s.l2.map (fun x => (x.1, x.2.filter keep))
    cores := s.cores.map (fun x => (x.1, { x.2 with tlb := x.2.tlb.filter keep }))
    pointers := s.pointers.map (fun w => (w.1, w.2.filter (fun p => !hit p.1 (p.2.2.1 * 2 ^ levelShift p.2.1) (2 ^ levelShift p.2.1))))
    teams := s.teams.map (fun x =>
      (x.1, { x.2 with extents := x.2.extents.map (fun e =>
        if hit x.2.space (extBase e) (extLen e) then putBit e 0 false else e) })) }

def dropPages (s : State) (space va n size : Nat) : State :=
  dropWhere s (fun sp lo len => sp == space && decide (lo < va + n * size ∧ va < lo + len))

def dropSpace (s : State) (space : Nat) : State := dropWhere s (fun sp _ _ => sp == space)

def dropAll (s : State) : State := dropWhere s (fun _ _ _ => true)

end Sys2Proof.Machine
end

