-- ==== Sys2Proof/Machine/Phys.lean ====
section
/-! DEFINITION. Memory and canvas bytes with what stands beside them: granule counts and pending marks (R98,
R99), poison marks (R358), race stamps and the race check (R132-R138). -/

namespace Sys2Proof.Machine

/-! ## Granule counts (R98, R99) -/

/-- Near and drawer granules have counts (R98). -/
def counted (pa : Nat) : Bool := isNear pa || isDrawer pa

/-- One store's bump of a granule: the count and the pending mark (R99). -/
def Mem.bump (m : Mem) (pa : Nat) : Mem :=
  if counted pa then
    { m with counts := m.counts.set (pa / 4096) (m.counts.get (pa / 4096) + 1), pend := m.pend.set (pa / 4096) 1 }
  else m

/-- Bumps every granule of n bytes from pa, once. -/
def Mem.bumpSpan (m : Mem) (pa n : Nat) : Mem :=
  (List.range ((pa + n - 1) / 4096 - pa / 4096 + 1)).foldl (fun m i => m.bump ((pa / 4096 + i) * 4096)) m

/-! ## Poison (R358) -/

/-- Sectors that n bytes from a touch. -/
def sectors (a n : Nat) : List Nat := (List.range ((a + n - 1) / 32 - a / 32 + 1)).map (fun i => a / 32 + i)

def poisoned (m : Cells 1) (a n : Nat) : Bool := !m.isEmpty && (sectors a n).any (fun k => m.get k != 0)

/-- A sector written whole loses its mark. -/
def unpoison (m : Cells 1) (a n : Nat) : Cells 1 :=
  if m.isEmpty then m else m.filter (fun e => !(decide (a ≤ e.1 * 32 ∧ e.1 * 32 + 32 ≤ a + n)))

/-! ## Bytes -/

/-- One access's store to memory (R99): the bytes, the count and the mark are one event. DESIGN CHOICE (log 111): the two
halves of a 16-byte access, either of which may be seen alone (R122), are stored by one step here. -/
def Mem.store (m : Mem) (pa : Nat) (bs : List Byte) : Mem :=
  let m := if bs.isEmpty then m else m.bumpSpan pa bs.length
  { m with bytes := m.bytes.writeN pa bs, poison := unpoison m.poison pa bs.length }

/-- Bytes moved by firmware or a trace write: nothing is bumped (R23, R374). -/
def Mem.quiet (m : Mem) (pa : Nat) (bs : List Byte) : Mem := { m with bytes := m.bytes.writeN pa bs }

def Mem.storeCanvas (m : Mem) (k : Nat) (bs : List Byte) : Mem :=
  { m with canvas := m.canvas.writeN k bs, canvasPoison := unpoison m.canvasPoison k bs.length }

def State.modMem (s : State) (f : Mem → Mem) : State := { s with mem := f s.mem }

/-- Key of a team's canvas offset: die and die canvas address (R55, R57). -/
def canvasKey (t : Team) (c : Nat) : Nat := t.core / 200 * 2 ^ 27 + t.canvasBase + c

/-! ## Race stamps (R133) -/

def stV (x : BitVec 128) : Bool := bitB x 127
def stK (x : BitVec 128) : Nat := bitsN x 126 125
def stS (x : BitVec 128) : Nat := bitsN x 124 123
def stWr (x : BitVec 128) : BitVec 17 := BitVec.ofNat 17 (bitsN x 122 106)
def stIv (x : BitVec 128) : Word := BitVec.ofNat 32 (bitsN x 95 64)
def stEp (x : BitVec 128) : Word := BitVec.ofNat 32 (bitsN x 63 32)
def stBm (x : BitVec 128) : Nat := bitsN x 31 0

def mkStamp (k sc : Nat) (wr : BitVec 17) (iv ep : Word) (bm : Nat) : BitVec 128 :=
  BitVec.ofNat 128 (2 ^ 127 + k % 4 * 2 ^ 125 + sc % 4 * 2 ^ 123 + wr.toNat * 2 ^ 106 + iv.toNat * 2 ^ 64
    + ep.toNat * 2 ^ 32 + bm % 2 ^ 32)

/-- The epoch: bits 41-10 of sys.cycle (R133). -/
def epochOf (cycle : DWord) : Word := BitVec.ofNat 32 (bitsN cycle 41 10)

/-- Serial-number order modulo 2^32 (R134). -/
def serLt (a b : Word) : Bool := a != b && decide ((b - a).toNat < 2 ^ 31)
def serMax (a b : Word) : Word := if serLt a b then b else a

/-- Mask of the bytes of a sector that n bytes from a touch. -/
def sectorBytes (k a n : Nat) : Nat :=
  let lo := max a (k * 32) - k * 32
  let hi := min (a + n) (k * 32 + 32) - k * 32
  2 ^ hi - 2 ^ lo

/-- What the check of R135 finds for one sector: it passes or not, and what it adds to sys.covlost. -/
structure RaceRes where
  ok : Bool
  lost : Nat
  deriving DecidableEq, Repr

/-- Team vector entries name warps of the team only (R134, R135). -/
def raceCheck (w : Warp) (team : Team) (wid : Nat) (now : Word) (st : BitVec 128) (bm : Nat) : RaceRes :=
  let wr := stWr st
  let ok1 := !stV st || Nat.land (stBm st) bm == 0 || wr == wrOf wid
    || (team.warps.any (fun x => wrOf x == wr) && serLt (stIv st) (w.teamvec.get wr.toNat))
    || w.table.any (fun e => e.1 == wr.toNat && serLt (stIv st) e.2)
  let old := decide ((now - stEp st).toNat > 2 ^ 31)
  let ok := ok1 || !serLt w.floor (stEp st) || old
  { ok := ok, lost := if ok && !ok1 && (stEp st == w.floor || old) then 1 else 0 }

/-- The stamp after a plain write, and what is added to sys.covlost (R135). -/
def restamp (w : Warp) (wid : Nat) (now : Word) (st : BitVec 128) (bm : Nat) : BitVec 128 × Nat :=
  let mine := stWr st == wrOf wid
  let lost := if stV st && !mine && Nat.land (stBm st) (2 ^ 32 - 1 - bm) != 0 then 1 else 0
  let bm' := if stV st && mine && stIv st == w.interval then Nat.lor (stBm st) bm else bm
  (mkStamp 0 0 (wrOf wid) w.interval now bm', lost)

/-- Stamps stand beside canvas sectors and near sectors (R132). -/
def State.stampAt (s : State) (canvas : Bool) (k : Nat) : BitVec 128 :=
  if canvas then s.mem.canvasStamps.get k else s.mem.stamps.get k

def State.setStamp (s : State) (canvas : Bool) (k : Nat) (x : BitVec 128) : State :=
  s.modMem (fun m => if canvas then { m with canvasStamps := m.canvasStamps.set k x }
    else { m with stamps := m.stamps.set k x })

def State.addCovlost (s : State) (ctx n : Nat) : State :=
  if n = 0 then s else s.modCtx ctx (fun c => { c with covlost := c.covlost + BitVec.ofNat 64 n })

def State.now (s : State) : Word := epochOf s.cycle

/-- Whether accesses to the address are stamped and checked (R132). -/
def stamped (canvas : Bool) (pa : Nat) : Bool := canvas || isNear pa

/-- A valid stamp of a near sector may have left L2 with its line, which a free value decides; each one lost adds
one to sys.covlost (R137, log 3). -/
def State.ageStamps (s : State) (ctx : Nat) (canvas : Bool) (a n : Nat) : State :=
  (sectors a n).foldl (fun s k =>
    if canvas || !stV (s.stampAt canvas k) then s
    else
      let (d, s) := s.draw
      if Config.stampLost d then (s.setStamp canvas k 0).addCovlost ctx 1 else s) s

/-- The race check of n bytes from a by a warp (R135); off exempts it (R138). -/
def State.raceOk (s : State) (wid : Nat) (off canvas : Bool) (a n : Nat) : Option (BitVec 128) × State :=
  if off || !stamped canvas a then (none, s)
  else
    let s := s.ageStamps ((s.warps.find wid).getD {}).ctx canvas a n
    let w := (s.warps.find wid).getD {}
    let t := s.teams.getD w.team {}
    let rs := (sectors a n).map (fun k => (k, raceCheck w t wid s.now (s.stampAt canvas k) (sectorBytes k a n)))
    match rs.find? (fun r => !r.2.ok) with
    | some r => (some (s.stampAt canvas r.1), s)
    | none => (none, s.addCovlost w.ctx ((rs.map (fun r => r.2.lost)).sum))

/-- Stamps n bytes from a as a plain write of a warp (R135). -/
def State.stampPlain (s : State) (wid : Nat) (canvas : Bool) (a n : Nat) : State :=
  if !stamped canvas a then s
  else
    (sectors a n).foldl (fun s k =>
      let w := (s.warps.find wid).getD {}
      let r := restamp w wid s.now (s.stampAt canvas k) (sectorBytes k a n)
      (s.setStamp canvas k r.1).addCovlost w.ctx r.2) s

/-- Stamps an atomic write: K atomic, or K release with its scope (R135). -/
def State.stampAtomic (s : State) (wid : Nat) (canvas : Bool) (a n : Nat) (release : Option Nat) : State :=
  if !stamped canvas a then s
  else
    (sectors a n).foldl (fun s k =>
      let w := (s.warps.find wid).getD {}
      let r := restamp w wid s.now (s.stampAt canvas k) (sectorBytes k a n)
      let kk := match release with | some _ => 2 | none => 1
      let st := mkStamp kk (release.getD 0) (wrOf wid) w.interval s.now (stBm r.1)
      (s.setStamp canvas k st).addCovlost w.ctx r.2) s

/-- A write of the ME, a COPY or a zeroing clears the stamps of the sectors it writes; each valid one is a lost
stamp (R155, R137). -/
def State.clearStamps (s : State) (ctx : Nat) (canvas : Bool) (a n : Nat) : State :=
  (sectors a n).foldl (fun s k =>
    if stV (s.stampAt canvas k) then (s.setStamp canvas k 0).addCovlost ctx 1 else s) s

end Sys2Proof.Machine
end

