-- ==== Sys2Proof/Machine/Sync.lean ====
section
/-! DEFINITION. Releases, acquires and barrier completions as the race detector follows them (R130, R134, R137,
R151, R152). -/

namespace Sys2Proof.Machine

/-- A release: the interval rises and the release record is saved (R134, R152). -/
def Warp.release (w : Warp) : Warp :=
  { w with
    interval := w.interval + 1
    rel := some { table := w.table, teamvec := w.teamvec, floor := w.floor, interval := w.interval + 1 } }

/-- Puts (warp, interval) into the acquired-from table; a full table is cleared and the floor set (R134). Answers
the coverage lost. -/
def Warp.record (w : Warp) (now : Word) (wr : Nat) (iv : Word) : Warp × Nat :=
  if w.table.any (fun e => e.1 == wr) then
    ({ w with table := w.table.map (fun e => if e.1 = wr then (wr, serMax e.2 iv) else e) }, 0)
  else if w.table.length < 8 then ({ w with table := (wr, iv) :: w.table }, 0)
  else ({ w with table := [], floor := now }, 1)

def Warp.recordAll (w : Warp) (now : Word) (es : List (Nat × Word)) : Warp × Nat :=
  es.foldl (fun r e => let x := r.1.record now e.1 e.2; (x.1, r.2 + x.2)) (w, 0)

/-- Moves the floor to a later epoch; an advance is counted (R152). -/
def Warp.raiseFloor (w : Warp) (ep : Word) : Warp × Nat :=
  if serLt w.floor ep then ({ w with floor := ep }, 1) else (w, 0)

/-- Takes the later of two interval vectors. -/
def mergeVec (a b : Cells 32) : Cells 32 := b.foldl (fun v e => v.set e.1 (serMax (v.get e.1) e.2)) a

/-- Merges a release record into a warp of the same team (R152). -/
def Warp.mergeRel (w : Warp) (now : Word) (r : RelRec) : Warp × Nat :=
  let x := w.recordAll now r.table
  let y := ({ x.1 with teamvec := mergeVec x.1.teamvec r.teamvec }).raiseFloor r.floor
  (y.1, x.2 + y.2)

/-- The warp a stamp names, if it is resident. -/
def State.warpOfWr (s : State) (wr : BitVec 17) : Option Nat := (s.warps.find? (fun x => wrOf x.1 == wr)).map (·.1)

def State.teamOf (s : State) (wid : Nat) : Nat := ((s.warps.find wid).getD {}).team

/-- Warp b lies in the scope instance of warp a (R120). -/
def State.inScope (s : State) (scope a b : Nat) : Bool :=
  match scope with
  | 0 => s.teamOf a == s.teamOf b
  | 1 => dieOf a == dieOf b
  | _ => true

/-- Applies a change to a warp and adds the coverage it loses. -/
def State.tally (s : State) (wid : Nat) (f : Warp → Warp × Nat) : State :=
  match s.warps.find wid with
  | some w => let r := f w; (s.putWarp wid r.1).addCovlost w.ctx r.2
  | none => s

/-- A synchronising acquire of a release by warp h with interval iv and epoch ep (R134, R152). -/
def State.acquireRelease (s : State) (wid h : Nat) (iv ep : Word) : State :=
  let rel := (s.warps.find h).bind (·.rel)
  let same := s.teamOf wid == s.teamOf h
  s.tally wid (fun w =>
    let x := w.record s.now (wrOf h).toNat iv
    let y :=
      if same then
        match rel with
        | some r => if r.interval = iv then x.1.mergeRel s.now r else x.1.raiseFloor ep
        | none => x.1.raiseFloor ep
      else x.1.raiseFloor ep
    (y.1, x.2 + y.2))

def State.bumpInterval (s : State) (wid : Nat) : State :=
  s.modWarp wid (fun w => { w with interval := w.interval + 1 })

/-- An acquire that finds no release: the floor is now, and coverage is lost (R134, R137). -/
def State.acquireNothing (s : State) (wid : Nat) : State :=
  s.tally wid (fun w => ({ w with floor := s.now }, 1))

/-- The valid release stamp that covers n bytes from a, if there is one (R134). -/
def State.releaseStamp (s : State) (canvas : Bool) (a n : Nat) : Option (BitVec 128) :=
  let st := s.stampAt canvas (a / 32)
  let bm := sectorBytes (a / 32) a n
  if stamped canvas a && stV st && stK st = 2 && Nat.land (stBm st) bm = bm then some st else none

/-- What an acquire at a scope records of a stamp it read (R134, R151, R152). -/
def State.acquireStamp (s : State) (wid scope : Nat) (st : Option (BitVec 128)) : State :=
  match st with
  | none => s.acquireNothing wid
  | some st =>
    match s.warpOfWr (stWr st) with
    | some h =>
      if s.inScope scope wid h && s.inScope (stS st) h wid then s.acquireRelease wid h (stIv st) (stEp st) else s
    | none =>
      let near := bitsN (stWr st) 16 14 == dieOf wid
      if scope = 0 || stS st = 0 || (!near && (scope = 1 || stS st = 1)) then s
      else s.tally wid (fun w =>
        let x := w.record s.now (stWr st).toNat (stIv st)
        let y := x.1.raiseFloor (stEp st)
        (y.1, x.2 + y.2))

/-- A request no longer fills lines of a core's L1 that a test names (R149). -/
def Req.spoil (core : Nat) (hit : Nat → Bool) (r : Req) : Req :=
  if r.core = some core then { r with lines := r.lines.filter (fun n => !hit n) } else r

/-- Drops the drawer lines of a core that a test names, and those its reads on their way would still fill: data asked
for before is not kept after (R149, R154). -/
def State.dropHit (s : State) (core : Nat) (hit : Nat → Bool) : State :=
  { s.modCore core (fun c => { c with l1 := c.l1.filter (fun x => !hit x.n) }) with
    links := s.links.map (fun l => (l.1, { l.2 with
      queue := l.2.queue.map (Req.spoil core hit)
      inflight := l.2.inflight.map (fun x => { x with req := x.req.spoil core hit }) })) }

/-- Every drawer line of a core leaves its L1: what an acquire of die scope or wider does, and the module-scope acquire
that a team's start is (R154, R164, R315). -/
def State.dropCore (s : State) (core : Nat) : State := s.dropHit core (fun _ => true)

def State.dropL1 (s : State) (wid scope : Nat) : State :=
  if scope = 0 || wid = puWid then s else s.dropCore (coreOf wid)

/-- The path has acquired or released, which ends what its earlier fences and atomic reads stand for (R130). -/
def Path.synced (p : Path) : Path := { p with relFence := none, acqReads := [] }

/-- An acquire of the issuing path that read the given stamps; the interval rises after it records (R134). -/
def State.acquireP (s : State) (scope : Nat) (sts : List (Option (BitVec 128))) : State :=
  let wid := s.cur.1
  (((sts.foldl (fun s st => s.acquireStamp wid scope st) s).bumpInterval wid).dropL1 wid scope).modP Path.synced

def State.releaseW (s : State) (wid : Nat) : State := s.modWarp wid Warp.release

/-- A release of the issuing path. -/
def State.releaseP (s : State) : State := (s.releaseW s.cur.1).modP Path.synced

/-- A barrier completion acquires every counted arrival: team vector entries, then tables and floors, for every
participant (R134, R152). -/
def State.barrierSync (s : State) (parts : List Nat) (ivs : Cells 32) : State :=
  let ws := parts.filterMap (fun p => s.warps.find p)
  parts.foldl (fun s p =>
    (s.tally p (fun w =>
      let w := { w with teamvec := ivs.foldl (fun v e => v.set e.1 e.2) w.teamvec }
      ws.foldl (fun r o =>
        let x := r.1.recordAll s.now o.table
        let y := x.1.raiseFloor o.floor
        (y.1, r.2 + x.2 + y.2)) (w, 0))).bumpInterval p) s

end Sys2Proof.Machine
end

