-- ==== Sys2Proof/Machine/LinkOps.lean ====
section
/-! DEFINITION. Drawer link controllers: the request queue (R81, R82), threshold crossings and the width state
table (R90, R91). -/

namespace Sys2Proof.Machine

def State.link (s : State) (n : Nat) : Link := s.links.getD n {}
def State.modLink (s : State) (n : Nat) (f : Link → Link) : State := { s with links := s.links.put n (f (s.link n)) }

/-- Acts on WTGT as RUN and PARKING do (R91); width codes rise as widths narrow (R90). -/
def Link.act (l : Link) : Link :=
  match l.st with
  | .run =>
    if l.wcur < l.wtgt then { l with st := .parking }
    else if l.wtgt < l.wcur then { l with st := .retune, waking := l.wtgt }
    else l
  | .parking =>
    if l.wtgt = l.wcur then { l with st := .run }
    else if l.wtgt < l.wcur then { l with st := .retune, waking := l.wtgt }
    else l
  | _ => l

/-- WTHR as it acts: 193 to 255 act as 192 (R90). -/
def Link.threshold (l : Link) : Nat := min l.wthr.toNat 192

/-- A threshold crossing widens WTGT to WWAKE (R91). -/
def Link.crossing (l : Link) (before : Nat) : Link :=
  if l.autow && l.threshold ≠ 0 && decide (before < l.threshold ∧ l.threshold ≤ l.queue.length)
      && decide (l.wwake < l.wtgt) then
    { l with wtgt := l.wwake }.act
  else l

/-- A request enters the queue (R82, R91). -/
def Link.push (l : Link) (r : Req) : Link := ({ l with queue := l.queue ++ [r] }).crossing l.queue.length

/-- A request that comes now finds room: the queue has an entry, and none waits outside (R82). -/
def Link.takes (l : Link) : Bool := l.waiting.isEmpty && decide (l.queue.length < 192)

/-- The request of what waits outside a queue. -/
def Waiter.req : Waiter → Req
  | .posted r | .hub _ r | .access _ _ r _ | .engine _ _ r _ => r

/-- Code of a link's state (R90). -/
def LinkState.code : LinkState → Nat
  | .run => 0 | .parking => 1 | .retune => 2 | .locking => 3 | .switch => 4 | .retrain => 5 | .down => 6

/-- The control register of a link, every field at one moment (R90, R368). -/
def Link.dlctl (l : Link) : DWord :=
  BitVec.ofNat 64 (boolNat l.lock * 2 ^ 63 + l.st.code * 2 ^ 60 + l.wcur.toNat * 2 ^ 58 + l.wtgt.toNat * 2 ^ 56
    + l.wwake.toNat * 2 ^ 54 + boolNat l.autow * 2 ^ 53 + l.wthr.toNat * 2 ^ 40 + l.queue.length % 256 * 2 ^ 32 + l.flits.toNat)

/-- The queue stands at or above an armed threshold. -/
def Link.armed (l : Link) : Bool := l.autow && l.threshold != 0 && decide (l.threshold ≤ l.queue.length)

/-- A write of the control register: discarded whole on a reserved code or in DOWN, else every RW field is replaced,
and the write may itself count as a crossing (R90, R367). -/
def Link.writeDlctl (l : Link) (v : DWord) : Link :=
  if bitsN v 57 56 = 3 || bitsN v 55 54 = 3 || l.st = .down then { l with err := true }
  else
    let m := { l with
      wtgt := BitVec.ofNat 2 (bitsN v 57 56), wwake := BitVec.ofNat 2 (bitsN v 55 54), autow := bitB v 53
      wthr := BitVec.ofNat 8 (bitsN v 47 40) }
    let m := if m.armed && !l.armed && decide (m.wwake < m.wtgt) then { m with wtgt := m.wwake } else m
    m.act

/-! ## Entry into a queue (R81, R82, R89) -/

/-- Physical bytes as requests hold them. -/
def State.drawerBytes (s : State) (pa n : Nat) : List Byte := s.mem.bytes.readN pa n

/-- A read of blocks of 256 bytes (R81); the data it returns is put in as it enters its queue (R82). -/
def readReq (cls pa rlen : Nat) (core : Option Nat) : Req :=
  { id := 0, kind := 0, addr := pa / 256 * 256, rlen := rlen, cls := cls
    core := core, lines := if core.isSome then (List.range 4).map (fun i => pa / 256 * 4 + i) else [] }

/-- Byte enables of n bytes at a place in a half of 128 bytes. -/
def enables (at_ n : Nat) : Mask := BitVec.ofNat 128 ((2 ^ n - 1) * 2 ^ at_)

/-- Masked writes of the 128-byte halves that bytes from pa touch, each with the part of them it carries. -/
def maskedReqs (cls pa : Nat) (bs : List Byte) (eff : OnEntry) (core : Option Nat) : List Req :=
  (List.range ((pa + bs.length - 1) / 128 - pa / 128 + 1)).map (fun i =>
    let h := (pa / 128 + i) * 128
    let lo := max pa h
    let part := (bs.drop (lo - pa)).take (h + 128 - lo)
    { id := 0, kind := 2, addr := h, cls := cls, data := List.replicate (lo - h) 0 ++ part
      be := enables (lo - h) part.length, eff := eff, core := core })

/-- First enabled byte of a masked write, and the bytes from there. -/
def Req.first (r : Req) : Nat := lowestLane r.be
def Req.part (r : Req) : List Byte := (r.data.drop r.first).take (popcount r.be)

/-- A drawer write from the core itself drops the lines it writes, and what is on its way to them. -/
def State.dropLines (s : State) (core pa n : Nat) : State :=
  if isDrawer pa then s.dropHit core (fun k => decide (pa / 64 ≤ k ∧ k ≤ (pa + n - 1) / 64)) else s

/-- The new value of an atomic of the ME or of a drain: add, maximum or compare-and-swap of its size (R85, R162, R336). -/
def AmoCmd.new (c : AmoCmd) (old : Nat) : Nat :=
  let x := c.operand.toNat
  match c.op.toNat with
  | 0 => (old + x) % 2 ^ (8 * c.size.toNat)
  | 2 => max old x
  | _ => if old = c.compare.toNat then x else old

/-- What the entry of a request does to memory (R89, R99): the write is performed, and drops the copies of the core it comes
from (R149). -/
def State.effect (s : State) (r : Req) : State :=
  let drop (s : State) : State := match r.core with | some c => s.dropLines c (r.addr + r.first) r.part.length | none => s
  match r.eff with
  | .none => s
  | .store => drop (s.modMem (·.store (r.addr + r.first) r.part))
  | .quiet => s.modMem (·.quiet (r.addr + r.first) r.part)
  | .atomic =>
    match r.amo with
    | none => s
    | some c =>
      let n := c.size.toNat
      let s := s.modMem (fun m => m.store r.addr (bytesOf n (c.new (m.bytes.readNat r.addr n))))
      match r.core with | some k => s.dropLines k r.addr n | none => s

/-- A request as it enters: a read returns the bytes as they stand, and a write carries its block or half as they stand,
its own bytes written (R82). -/
def State.withData (s : State) (r : Req) : Req :=
  if r.kind = 0 then { r with data := s.drawerBytes r.addr (256 * (r.rlen + 1)) }
  else if r.kind = 1 then { r with data := s.drawerBytes r.addr 256 }
  else if r.kind = 2 then { r with data := s.drawerBytes r.addr 128 }
  else r

/-- A request as it stands once it has entered: an atomic holds the bytes it found. -/
def State.entered (s : State) (r : Req) : Req :=
  if r.eff = .atomic then { r with data := s.drawerBytes r.addr 8 } else (s.effect r).withData r

/-- Reads of a link on their way no longer fill some lines of a core's L1. -/
def Link.spoil (l : Link) (core : Nat) (lines : List Nat) : Link :=
  { l with
    queue := l.queue.map (Req.spoil core lines.contains)
    inflight := l.inflight.map (fun x => { x with req := x.req.spoil core lines.contains }) }

/-- A request enters its queue, and acts on memory. Of the reads of one line that are on their way to a core's L1 the last
to enter fills it, for it returns the newest bytes (R122, R149). -/
def State.enter (s : State) (r : Req) : State :=
  (s.effect r).modLink (linkOf r.addr) (fun l =>
    (match r.core with | some c => if r.lines.isEmpty then l else l.spoil c r.lines | none => l).push (s.entered r))

/-- A request gets its number. -/
def State.name (s : State) (r : Req) : State × Req := ({ s with names := s.names + 1 }, { r with id := s.names })

/-- A request that finds no room waits outside its queue (R82). -/
def State.waitOutside (s : State) (w : Waiter) : State :=
  s.modLink (linkOf w.req.addr) (fun l => { l with waiting := l.waiting ++ [w] })

/-- A request that no one waits for: it enters its queue, or waits outside. -/
def State.postReq (s : State) (r : Req) : State :=
  let x := s.name r
  if (s.link (linkOf r.addr)).takes then x.1.enter x.2 else x.1.waitOutside (.posted x.2)

/-- No request named before a number waits outside a queue: every one of them has reached its ordering point (R27). -/
def State.reached (s : State) (n : Nat) : Bool := s.links.all (fun l => l.2.waiting.all (fun w => decide (n ≤ w.req.id)))

/-! ## Steps of the hub (R82, R94, R279, R398) -/

/-- A step is taken for a party: what of its requests had entered before counts (R82). -/
def State.attempt (s : State) (t : Turn) : State :=
  { s with
    credit := (s.paid.filter (fun x => x.1 = t)).map (·.2), paid := s.paid.filter (fun x => x.1 ≠ t), sent := [], held := none }

/-- The same request, asked again. -/
def Req.again (r x : Req) : Bool :=
  x.kind == r.kind && x.addr == r.addr && x.rlen == r.rlen && x.be == r.be && x.cls == r.cls && x.eff == r.eff

/-- A read or an atomic, which returns something. -/
def Req.isRead (r : Req) : Bool := r.kind == 0 || r.kind == 3

/-- What a request returns waits for its link, which retrains (R94). -/
def State.stalls (s : State) (r : Req) : Bool := r.isRead && (s.link (linkOf r.addr)).st == .retrain

/-- The step waits for a request, and asks the links for nothing more. -/
def State.hold (s : State) (r : Req) : State := if s.held.isSome then s else { s with held := some r }

/-- A request of a step of the hub: it has entered before, or enters now, or the step waits for it; so it does for what a read
of a link in RETRAIN returns (R82, R94). The answer is the request as it entered. -/
def State.ask (s : State) (r : Req) : State × Req :=
  match s.credit.find? (Req.again r) with
  | some x => (if s.stalls r then s.hold r else { s with credit := s.credit.erase x }, x)
  | none =>
    if s.held.isSome then (s, s.withData r)
    else if (s.link (linkOf r.addr)).takes then
      let x := s.name r
      let y := x.1.entered x.2
      let t : State := { x.1.enter x.2 with sent := s.sent ++ [y] }
      (if s.stalls r then t.hold r else t, y)
    else (s.hold r, s.withData r)

/-- What has entered in an attempt of a step that is taken again enters. -/
def State.payFor (s : State) (turn : Turn) (rs : List Req) : State :=
  rs.foldl (fun s (r : Req) =>
    let x := s.name r
    { x.1.enter x.2 with paid := s.paid ++ [(turn, x.1.entered x.2)] }) s

/-- The request of a step waits outside its queue, or has entered it. -/
def State.awaited (s : State) (turn : Turn) (r : Req) : Bool :=
  s.paid.any (fun x => x.1 = turn && Req.again r x.2)
    || (s.link (linkOf r.addr)).waiting.any (fun w => match w with | .hub u x => u = turn && Req.again r x | _ => false)

/-- A step of the hub that could not ask for all it needs has not taken place: what has entered stays entered, the request that
found no place waits outside, and the party takes the step again (R82, R94). -/
def State.orWait (t s : State) (turn : Turn) : State :=
  match t.held with
  | none => t
  | some r =>
    if s.held.isSome then t
    else
      let s := ({ s with paid := s.paid ++ s.credit.map (fun r => (turn, r)), credit := [] } : State).payFor turn t.sent
      if s.awaited turn r then s
      else
        let x := s.name r
        x.1.waitOutside (.hub turn x.2)

end Sys2Proof.Machine
end

