-- ==== Sys2Proof/Machine/Ops.lean ====
section
/-! DEFINITION. The shared operations over paths, fragments and contexts: taking an exception and returning from
one (R181-R188, R342-R348), lanes that exit or die (R178-R180, R190), memory through the hub (R21, R23), trace
records (R369, R374), and context faults with teardown (R355, R356). -/

namespace Sys2Proof.Machine

/-! ## Path stack and join records (R176) -/

/-- Entries of the path stack neither held nor reserved for a survivor copy. -/
def Warp.stackFree (w : Warp) : Nat := 12 - (w.stack.length + w.jrecs.length)

def freeSlot (w : Warp) : Option Nat := if w.slot0.isNone then some 0 else if w.slot1.isNone then some 1 else none

/-- A path takes a slot. -/
def Warp.occupy (w : Warp) (k : Nat) (p : Path) : Warp :=
  let w := w.setSlot k (some p)
  if k = 0 then { w with exit0 := none } else { w with exit1 := none }

/-- Every path of a warp: in slots, on the stack, in the overflow slot and in fragments. -/
def State.pathsOf (s : State) (wid : Nat) : List Path :=
  let w := (s.warps.find wid).getD {}
  w.places.filterMap w.slot ++ (match w.overflow with | some o => [o.path] | none => [])
    ++ ((s.core (coreOf wid)).frags.filter (fun f => f.2.warp = wid)).map (·.2.path)

/-! ## Memory through the hub's unit (R21, R23, R398) -/

def pageVa (vpn : Nat) : Nat := vpn * 65536

/-- Firmware copies a page's bytes and poison to another frame, and its counts, marks, enrolment and owner go with it
(R23, R99, R100). -/
def Mem.movePage (m : Mem) (src dst : Nat) : Mem :=
  { m with
    bytes := m.bytes.copyTo src dst 65536
    poison := m.poison.copyTo (src / 32) (dst / 32) 2048
    stamps := (m.stamps.clear (dst / 32) 2048).clear (src / 32) 2048
    counts := m.counts.moveTo (src / 4096) (dst / 4096) 16
    pend := m.pend.moveTo (src / 4096) (dst / 4096) 16
    enrol := m.enrol.moveTo (src / 4096) (dst / 4096) 16
    owner := m.owner.moveTo (src / 65536) (dst / 65536) 1 }

/-- The leaf firmware writes for a moved page: PL near, CMP, RP, WP, XP and PRIV kept (R23). -/
def movedLeaf (e : DWord) (dst : Nat) : DWord :=
  BitVec.ofNat 64 (3 * 2 ^ 62 + boolNat (pteCmp e) * 2 ^ 59 + bitsN e 57 54 * 2 ^ 54 + dst / 65536 % 2 ^ 36 * 2 ^ 16
    + bitsN e 3 0)

/-- The whole of a migrate move (R23): the page is copied near, its leaf rewritten and its old translation shot
down. Its reads of the drawer are unclassed (R83). A leaf that is no longer migrate-on-touch is left as it is. -/
def State.migrate (s : State) (ctx vpn frame : Nat) : State :=
  match peekLeaf s ctx (pageVa vpn) with
  | .leaf _ e at_ =>
    if ptePl e = 2 then
      let dst := frame * 65536
      let s := (List.range 16).foldl (fun s i => s.postReq (readReq 16 (pteBase e + 4096 * i) 15 none)) s
      let s := s.modMem (fun m => (m.movePage (pteBase e) dst).quiet at_ (bytesOf 8 (movedLeaf e dst).toNat))
      dropPages s (xdSpace (s.ctx ctx).xdesc) (pageVa vpn) 1 65536
    else s
  | _ => s

/-- An access after a migrate fault, once firmware has moved the page to the frame its allocator has free; a page it
cannot place is not present (R23, R398). -/
def State.afterMove (s : State) (a : Agent) (va : Nat) (want : Want) : State × Except XFault Hit :=
  let (d, s) := s.draw
  if s.placeable (Config.freeFrame d) then translate (s.migrate a.ctx (va / 65536) (Config.freeFrame d)) a va want
  else (s, .error (1, 2))

def hubAgent (ctx : Nat) : Agent := { core := none, team := none, ctx := ctx, priv := true }

/-- Translates through the hub; a migrate fault is repaired first (R21, R398). -/
def State.hub? (s : State) (ctx va : Nat) (want : Want) : State × Except XFault Hit :=
  let r := translate s (hubAgent ctx) va want
  match r.2 with
  | .error (1, 3) => r.1.afterMove (hubAgent ctx) va want
  | _ => r

/-- A step of the hub asks for requests, one after another; answers them as they have entered. -/
def State.asks (s : State) (rs : List Req) : State × List Req :=
  rs.foldl (fun (r : State × List Req) q => let x := r.1.ask q; (x.1, r.2 ++ [x.2])) (s, [])

/-- Requests of the hub's read of n bytes, one for each block of 256 bytes, and of its write, one masked write for each
half of 128 bytes. DESIGN CHOICE (log 112): the spec gives the split of lane, scalar and engine accesses only. -/
def hubReadReqs (cls pa n : Nat) : List Req :=
  (List.range ((pa + n - 1) / 256 - pa / 256 + 1)).map (fun i => readReq cls (256 * (pa / 256 + i)) 0 none)

def hubWriteReqs (cls pa : Nat) (bs : List Byte) : List Req := maskedReqs cls pa bs .store none

/-- Bytes the hub reads at a physical address: of the drawer, those its requests return (R82). -/
def State.hubLoad (s : State) (cls pa n : Nat) : State × List Byte :=
  if isDrawer pa then
    let r := s.asks (hubReadReqs cls pa n)
    (r.1, (((r.2.map (·.data)).flatten).drop (pa % 256)).take n)
  else (s, s.mem.bytes.readN pa n)

/-- Stores bytes at a physical address for the hub, with the count. A write of the drawer is performed as its requests enter
their queues (R89): the step waits for that, or, posted, nothing does. -/
def State.hubStore (s : State) (cls pa : Nat) (bs : List Byte) (posted : Bool := false) : State :=
  if isDrawer pa then
    if posted then (hubWriteReqs cls pa bs).foldl State.postReq s else (s.asks (hubWriteReqs cls pa bs)).1
  else s.modMem (·.store pa bs)

/-- Reads n bytes through the hub; fails too on data the memory cannot correct. -/
def State.hubRead (s : State) (cls ctx va n : Nat) : State × Option Nat :=
  match s.hub? ctx va .read with
  | (s, .ok h) =>
    let r := s.hubLoad cls h.pa n
    if poisoned s.mem.poison h.pa n then (r.1, none) else (r.1, some (ofBytes r.2))
  | (s, .error _) => (s, none)

/-- Reads n bytes through the hub, block by block of 256; fuel bounds the blocks. -/
def State.hubBytes (s : State) (cls ctx : Nat) : Nat → Nat → Nat → State × Option (List Byte)
  | 0, _, _ => (s, some [])
  | fuel + 1, va, n =>
    if n = 0 then (s, some [])
    else
      let k := min n (256 - va % 256)
      match s.hubRead cls ctx va k with
      | (s, none) => (s, none)
      | (s, some x) =>
        match State.hubBytes s cls ctx fuel (va + k) (n - k) with
        | (s, some bs) => (s, some (bytesOf k x ++ bs))
        | (s, none) => (s, none)

/-- Bytes as 64-bit words. -/
def wordsOf (bs : List Byte) : List DWord := (List.range (bs.length / 8)).map (fun i => BitVec.ofNat 64 (ofBytes ((bs.drop (8 * i)).take 8)))

/-- Reads consecutive 64-bit words through the hub. -/
def State.hubWords (s : State) (cls ctx va n : Nat) : State × Option (List DWord) :=
  match s.hubBytes cls ctx (n / 32 + 2) va (8 * n) with
  | (s, some bs) => (s, some (wordsOf bs))
  | (s, none) => (s, none)

/-- Stores n bytes through the hub, as a store that bumps its granule (R99). -/
def State.hubWrite (s : State) (cls ctx va n x : Nat) (posted : Bool := false) : State × Bool :=
  match s.hub? ctx va .write with
  | (s, .ok h) => ((s.hubStore cls h.pa (bytesOf n x) posted).clearStamps ctx false h.pa n, true)
  | (s, .error _) => (s, false)

/-! ## Path records and trace records (R369, R374) -/

def textbaseN (c : Ctx) : Nat := bitsN c.textbase 63 16 * 65536
def lanebaseN (c : Ctx) : Nat := bitsN c.lanebase 63 16 * 65536

/-- Word offset of a scalar PC from the text base. -/
def Ctx.wordOff (c : Ctx) (pc : VAddr) : Nat := (pc.toNat + 2 ^ 72 - textbaseN c) % 2 ^ 72 / 4 % 2 ^ 32

/-- Lane PC of the run at a queue's head, or all ones (R369). -/
def Path.lpc (p : Path) : Nat :=
  match p.queue with
  | r :: _ => (r.off + r.pos) % 2 ^ 20
  | [] => 2 ^ 20 - 1

/-- The lane stream has a word to issue. -/
def Path.hasLane (p : Path) : Bool := match p.queue with | r :: _ => decide (r.pos < r.count) | [] => false

/-- Stall code of a path (R376): none while either stream could issue, else what its scalar stream waits for, or the lane
form that holds back both. A path held by the debugger has code 12. -/
def Path.code (p : Path) : Nat :=
  if p.stopped then 12
  else if p.nap ≠ 0 then 13
  else if p.access.isSome then 5
  else if p.mx.isSome || p.vsync.isSome || p.both then p.lstall
  else if p.stall = 0 || (p.hasLane && p.lstall == 0) then 0
  else p.stall

/-- The record of a path (R369): lanes that have exited or died belong to none (R172). AWAIT is set for a path that
could issue. -/
def pathRecord (s : State) (wid kind idx : Nat) (p : Path) (exited : Bool) (event : Nat) (detail : DWord) : List Nat :=
  let w := (s.warps.find wid).getD {}
  let t := s.teams.getD w.team {}
  let c := s.ctx w.ctx
  let core := coreOf wid
  [ bitsN t.teamid 31 0 * 2 ^ 32 + w.tindex % 16 * 2 ^ 28 + wid % 64 * 2 ^ 22 + core / 200 % 8 * 2 ^ 19 + core % 200 * 2 ^ 11,
    boolNat (p.code = 0 && !p.begun && !exited) * 2 ^ 63 + boolNat exited * 2 ^ 62 + boolNat p.stopped * 2 ^ 61
      + boolNat p.handler.isSome * 2 ^ 60 + p.lpc * 2 ^ 36 + kind % 4 * 2 ^ 16 + idx % 2 ^ 16,
    c.wordOff p.pc * 2 ^ 32 + p.code % 256 * 2 ^ 24,
    s.cycle.toNat,
    bitsN (p.liveMask w) 63 0, bitsN (p.liveMask w) 127 64, event % 256, detail.toNat ]

/-- Writes a trace record of a context when its trace takes the event (R374). No count, no stamp. -/
def State.traceIn (s : State) (ctx wid kind idx : Nat) (p : Path) (exited : Bool) (event : Nat) (detail : DWord) : State :=
  let c := s.ctx ctx
  if bitB c.dbgctl 60 && bitB c.trctl (16 + event) then
    let n := bitsN c.trctl 63 40
    let va := bitsN c.trbase 63 6 * 64 + 64 * (n % 2 ^ bitsN c.trctl 7 0)
    match s.hub? ctx va .write with
    | (s, .ok h) =>
      let bs := ((pathRecord s wid kind idx p exited event detail).map (bytesOf 8)).flatten
      let s := if isDrawer h.pa then (maskedReqs 16 h.pa bs .quiet none).foldl State.postReq s else s.modMem (·.quiet h.pa bs)
      s.modCtx ctx (fun c => { c with trctl := putBits c.trctl 63 40 (n + 1) })
    | (s, .error _) => s.modCtx ctx (fun c => { c with dbgctl := putBit c.dbgctl 58 true })
  else s

/-- A trace record of a warp's path, for its context. -/
def State.trace (s : State) (wid kind idx : Nat) (p : Path) (event : Nat) (detail : DWord) : State :=
  s.traceIn ((s.warps.find wid).getD {}).ctx wid kind idx p false event detail

/-! ## Logging and the host (R363) -/

def devKey (e : DWord) : Nat := bitsN e 62 41 * 256 + bitsN e 39 32

/-- An entry of the error log (R363). -/
def devEntry (sev kind die core ctx : Nat) (hub : Bool) : DWord :=
  BitVec.ofNat 64 (2 ^ 63 + sev % 4 * 2 ^ 61 + kind % 32 * 2 ^ 56 + die % 8 * 2 ^ 53 + boolNat hub * 2 ^ 52
    + core % 256 * 2 ^ 44 + ctx % 256 * 2 ^ 32 + 1)

def devSev (e : DWord) : Nat := bitsN e 62 61
/-- COUNT advances, stopping at 2^32 - 1. -/
def devMore (e : DWord) : DWord := if bitsN e 31 0 = 2 ^ 32 - 1 then e else e + 1

/-- Changes the last entry that meets a test, if any. -/
def updateLast (test : DWord → Bool) (f : DWord → Option DWord) (l : List DWord) : List DWord :=
  match l.reverse.findIdx? test with
  | some i =>
    let k := l.length - 1 - i
    match l[k]? with
    | some e => (match f e with | some e' => l.set k e' | none => l.eraseIdx k)
    | none => l
  | none => l

def devOverflow (e : DWord) : DWord := putBit (devMore e) 40 true

/-- Logs an event: merged, appended, or kept as R363 says of a full log. -/
def logInto (l : List DWord) (e : DWord) : List DWord :=
  if l.any (fun x => devSev x = 2) then l
  else if l.any (fun x => devKey x = devKey e) then l.map (fun x => if devKey x = devKey e then devMore x else x)
  else if l.length < 64 then l ++ [e]
  else if devSev e = 0 then updateLast (fun _ => true) (fun x => some (devOverflow x)) l
  else if l.any (fun x => devSev x = 0) then updateLast (fun x => devSev x = 0) (fun _ => none) l ++ [e]
  else if devSev e = 2 then updateLast (fun x => devSev x = 1) (fun _ => none) l ++ [e]
  else updateLast (fun x => devSev x = 1) (fun x => some (devOverflow x)) l

/-- Logs a device error and sends its AER message; non-fatal and fatal ones set the Uncorrectable Internal Error status
(R363). -/
def State.devError (s : State) (sev kind die core ctx : Nat) (hub : Bool) : State :=
  { s with hub := { s.hub with
      deverr := logInto s.hub.deverr (devEntry sev kind die core ctx hub)
      aer := sev :: s.hub.aer
      uie := s.hub.uie || sev != 0 } }

def State.msi (s : State) (ctx vec : Nat) : State :=
  { s with hub := { s.hub with msix := (bitsN (s.ctx ctx).cfg 55 48, vec) :: s.hub.msix } }

/-! ## Teams and teardown -/

/-- A team ends: its canvas reads zero, its grant, tiles, slots and records are given up (R262, R271, R357). -/
def State.releaseTeam (s : State) (t : Nat) : State :=
  match s.teams.find t with
  | none => s
  | some x =>
    let k := canvasKey x 0
    let s := s.modMem (fun m => { m with
      canvas := m.canvas.clear k x.canvasSize
      canvasPoison := m.canvasPoison.clear (k / 32) (x.canvasSize / 32)
      canvasStamps := m.canvasStamps.clear (k / 32) (x.canvasSize / 32) })
    let mine := fun wid => x.warps.contains wid
    let s := s.modCore x.core (fun c => { c with
      frags := c.frags.filter (fun e => !mine e.2.warp)
      latch := c.latch.filter (fun a => !mine a.wid)
      ops := c.ops.filter (fun o => !o.parts.any (fun a => mine a.wid))
      grant := if c.grant = some t then none else c.grant
      tiles := if c.grant = some t then [] else c.tiles
      tilePoison := if c.grant = some t then 0 else c.tilePoison
      earlier := if c.grant = some t then [] else c.earlier
      wslots := if c.grant = some t then [] else c.wslots })
    { s with warps := s.warps.filter (fun e => !mine e.1), teams := s.teams.erase t }

def queueKeys (s : State) (ctx : Nat) : List Nat := (s.ctx ctx).queues.map (·.1)

def State.queue (s : State) (ctx q : Nat) : Queue := (s.ctx ctx).queues.getD q {}
def State.modQueue (s : State) (ctx q : Nat) (f : Queue → Queue) : State :=
  s.modCtx ctx (fun c => { c with queues := c.queues.put q (f (c.queues.getD q {})) })

/-- The drawer class of a queue (R83, R311). -/
def State.queueClass (s : State) (ctx q : Nat) : Nat := bitsN (s.queue ctx q).qcfg 31 28

/-- The completion word of an entry (R317): marker, detail, status. -/
def doneWord (index : DWord) (status : BitVec 8) (detail : BitVec 24) : Nat :=
  (index.toNat + 1) % 2 ^ 32 * 2 ^ 32 + detail.toNat * 2 ^ 8 + status.toNat

/-- Writes an entry's completion word, if it names one (R313, R317); answers whether the write was made. -/
def State.writeDone (s : State) (ctx q : Nat) (e : Entry) (status : BitVec 8) (detail : BitVec 24) : State × Bool :=
  let a := bitsN (e.words.getD 7 0) 63 3 * 8
  if a = 0 then (s, true) else s.hubWrite (s.queueClass ctx q) ctx a 8 (doneWord e.index status detail)

/-- The completion word of an entry that a teardown ends; one that cannot be written is lost (R356, R398). Nothing waits for
it, so its request waits outside a full queue. -/
def State.postDone (s : State) (ctx q : Nat) (e : Entry) (status : BitVec 8) : State :=
  let a := bitsN (e.words.getD 7 0) 63 3 * 8
  if a = 0 then s
  else
    match s.hub? ctx a .write with
    | (s, .ok h) => (s.hubStore (s.queueClass ctx q) h.pa (bytesOf 8 (doneWord e.index status 0)) true).clearStamps ctx false h.pa 8
    | (s, .error _) => s

def ctxTeams (s : State) (ctx : Nat) : List Nat := (s.teams.filter (fun t => t.2.ctx = ctx)).map (·.1)

/-- Takes a context's work off every core: teams, warps, engine entries (R356, R353). -/
def State.dropTeams (s : State) (ctx : Nat) : State :=
  let s := (ctxTeams s ctx).foldl State.releaseTeam s
  { s with cores := s.cores.map (fun c => (c.1, { c.2 with
      queues := c.2.queues.map (fun q => (q.1,
        if q.2.entries.any (fun e => e.ctx = ctx) then
          { entries := q.2.entries.filter (fun e => e.ctx ≠ ctx), park := none }
        else q.2)) })) }

/-- Discards the context's standing state: systems, raises, watch events, node table, enrolments (R119, R356). -/
def State.dropStanding (s : State) (ctx : Nat) : State :=
  let mine := fun n => match s.systems.find n with | some y => y.ctx = ctx | none => false
  { s with
    systems := s.systems.filter (fun y => y.2.ctx ≠ ctx)
    frozen := s.frozen.filter (fun y => y.2.ctx ≠ ctx)
    raises := s.raises.filter (fun r => !mine r.sys)
    watchEvents := s.watchEvents.filter (fun w => !mine w.1)
    reaps := s.reaps.filter (fun r => r.2.ctx ≠ ctx)
    nodes := s.nodes.filter (fun n => n.1 / 2 ^ 20 ≠ ctx)
    mem := { s.mem with enrol := s.mem.enrol.filter (fun e => s.mem.owner.get (e.1 / 16) ≠ BitVec.ofNat 9 (ctx + 1)) } }

/-- A run of the Prologue Unit for the context ends. -/
def State.dropPu (s : State) (ctx : Nat) : State :=
  match s.pu with
  | some r => if r.ctx = ctx then { s with pu := none, warps := s.warps.erase puWid } else s
  | none => s

/-- Teardown (R356), as one step; the completion words are left out when a fatal error stops the module (R364). -/
def State.teardown (s : State) (ctx : Nat) (words : Bool) : State :=
  let s := dropSpace s (xdSpace (s.ctx ctx).xdesc)
  let s := (s.dropTeams ctx).dropStanding ctx
  let s := if words then
      (queueKeys s ctx).foldl (fun s q =>
        match (s.queue ctx q).entry with
        | some e => (s.postDone ctx q e 0x0C).modQueue ctx q (fun x => { x with entry := none })
        | none => s) s
    else s.modCtx ctx (fun c => { c with queues := c.queues.map (fun q => (q.1, { q.2 with entry := none })) })
  let s : State := { s with images := s.images.filter (fun i => i.1 ≠ (s.ctx ctx).image || i.2.source.isNone) }
  let s := s.modCtx ctx (fun c => { c with cfg := putBit c.cfg 62 false, st := .tornDown })
  (s.dropPu ctx).msi ctx 0

/-- A context fault: its cause, then teardown (R355). -/
def State.contextFault (s : State) (ctx : Nat) (cause : BitVec 8) (ecause : BitVec 8) : State :=
  if (s.ctx ctx).st = .tornDown then s
  else (s.modCtx ctx (fun c => { c with cfcause := cause, ecause := ecause })).teardown ctx true

/-- A fatal device error (R364): every live context is torn down and the module stops. -/
def State.fatal (s : State) (kind die core ctx : Nat) (hub : Bool) : State :=
  let s := s.devError 2 kind die core ctx hub
  let s := (s.ctxs.filter (fun c => bitB c.2.cfg 63 && c.2.st ≠ .tornDown)).foldl (fun s c => s.teardown c.1 false) s
  { s with hub := { s.hub with fatal := true }, plat := { s.plat with stage := 3 } }

/-! ## Trap entry (R344) -/

def trapEn (c : Ctx) : Bool := bitB c.trap 63
def trapEntry (c : Ctx) : VAddr := BitVec.ofNat 72 (textbaseN c + 4 * bitsN c.trap 31 0)

/-- Trap entry as one step: the handler's registers, the resume point and the record are saved, the runs held
aside, DISP cleared, and the PC put at the vector's entry (R344). -/
def enterHandler (c : Ctx) (p : Path) (r : FaultRec) : Path :=
  { p with
    handler := some { s := p.s.slice 56 8, q := p.q, pc := p.pc, queue := p.queue, windows := p.windows, rcd := r,
                      twin := p.twin.filter (fun x => 56 ≤ x.1 && x.1 ≤ 64) }
    queue := [], windows := [], pc := trapEntry c, fdisp := 0, stall := 0, lstall := 0, both := false, begun := false, vsync := none
    skipBp := p.skipBp && r.cls == 0x20 }

/-- A fault that its context's handler repairs: neither the device's nor a watch hit (R343). -/
def FaultRec.needsHandler (r : FaultRec) : Bool := !r.dev && r.cls != 6

/-- The copied runs resume under the enables and control of now (R346). -/
def refreshRuns (w : Warp) (rs : List Run) : List Run :=
  rs.map (fun r => { r with traps := BitVec.ofNat 5 (bitsN w.fpctl 36 32), racectl := BitVec.ofNat 2 (bitsN w.racectl 1 0) })

/-- Passes over the instruction a fault stopped at, a lane word or a scalar word (R346); the open windows of its stream
count it as issued (R45, R46). -/
def Path.skipFault (p : Path) (r : FaultRec) : Path :=
  if r.flpc = BitVec.allOnes 20 then { p with pc := p.pc + 4, windows := tickWindows false p.windows }
  else
    match p.queue with
    | h :: t =>
      let h := { h with pos := h.pos + 1 }
      let ds := tickWindows true p.windows
      { p with queue := h :: t, windows := if h.pos ≥ h.count then endWindows true ds else ds }
    | [] => p

/-- Resumes a path at its saved point under a disposition: 0 replays, 1 skips (R346). What resumes after its
instruction, and a software trap, does so under either. A breakpoint is not tested for the replay of a faulting
instruction (R371). -/
def Path.resume (p : Path) (r : FaultRec) (skip : Bool) : Path :=
  if r.after then { p with stall := 0, lstall := 0 }
  else if r.cls = 0x13 || (skip && r.cls ≠ 0x20) then { (p.skipFault r) with stall := 0, lstall := 0 }
  else { p with stall := 0, lstall := 0, skipBp := r.cls != 0x20 }

/-! ## Fragments (R181-R188) -/

/-- The next serial: after the last issued, skipping 0 and serials still held (R185). -/
def nextSerial (held : List (BitVec 16)) : Nat → BitVec 16 → BitVec 16
  | 0, x => x
  | n + 1, x =>
    let y := if x + 1 = 0 then 1 else x + 1
    if held.contains y then nextSerial held n y else y

/-- The oldest READY fragment of a warp, by creation order (R185). -/
def oldestReady (c : Core) (wid : Nat) : Option (Nat × Frag) :=
  c.frags.foldl (fun best e =>
    if e.2.warp = wid ∧ e.2.state = 1 then
      match best with
      | some b => if e.2.made < b.2.made then some e else best
      | none => some e
    else best) none

/-- The path a READY fragment is when it takes a slot: in its handler, or resumed where no handler runs (R186). -/
def fragPath (c : Ctx) (f : Frag) : Path :=
  match f.disp with
  | some d => f.path.resume f.rcd (d = 1)
  | none => if f.rcd.needsHandler then enterHandler c f.path f.rcd else f.path.resume f.rcd false

/-- A READY fragment becomes live in a slot. -/
def State.takeFrag (s : State) (wid k e : Nat) : State :=
  let core := coreOf wid
  match (s.core core).frags.find e with
  | none => s
  | some f =>
    let c := s.ctx ((s.warps.find wid).getD {}).ctx
    let s := s.modCore core (fun x => { x with frags := x.frags.put e { f with state := 2, waits := [], page := none } })
    s.modWarp wid (fun w => w.occupy k (fragPath c f))

/-- A free slot takes the newest stack entry, else the oldest READY fragment (R177). -/
def State.fillSlot (s : State) (wid k : Nat) : State :=
  match s.warps.find wid with
  | none => s
  | some w =>
    if (w.slot k).isSome then s
    else
      match w.stack with
      | e :: r => s.putWarp wid ({ w with stack := r }.occupy k e.path)
      | [] =>
        match oldestReady (s.core (coreOf wid)) wid with
        | some (e, _) => s.takeFrag wid k e
        | none => s

def State.fillSlots (s : State) (wid : Nat) : State := (s.fillSlot wid 0).fillSlot wid 1

/-! ## Lanes that exit or die -/

def goneMask (w : Warp) : Mask := w.dead ||| w.exited

/-- Rank of an arriving copy (R179). -/
def joinRank (p : Path) : Nat := (if p.sideT then 2 else 0) + (if p.frag.isSome then 1 else 0)

/-- Completes one join record if its lanes have arrived, exited or died (R178, R179). DESIGN CHOICE (log 113): the merged
path carries no record of release fences or atomic reads from before the BRD or from its parts (R130). -/
def State.checkJoin (s : State) (wid k : Nat) : State :=
  match s.warps.find wid with
  | none => s
  | some w =>
    match w.jrecs.find k with
    | none => s
    | some j =>
      let live := j.mask &&& ~~~goneMask w
      if live &&& ~~~j.arrived ≠ 0 then s
      else
        let w1 := { w with jrecs := w.jrecs.erase k }
        let s1 := s.modCore (coreOf wid) (fun c => { c with frags := c.frags.filter (fun e => !(e.2.warp = wid && e.2.joined = some k)) })
        if live = 0 then s1.putWarp wid w1
        else
          let c := j.copy.getD (0, [], 0)
          let p : Path := { pc := j.addr + 4, mask := live, s := c.2.1, q := c.2.2, jrec := j.prev, sideT := j.prevSideT, frag := j.frag, sent := j.sent }
          match freeSlot w1 with
          | some n => (s1.putWarp wid (w1.occupy n p)).trace wid 0 n p 2 (BitVec.ofNat 64 k)
          | none =>
            (s1.putWarp wid { w1 with stack := { yielded := false, path := p } :: w1.stack }).trace wid 1 w1.stack.length p 2 (BitVec.ofNat 64 k)

def State.checkJoins (s : State) (wid : Nat) : State :=
  (((s.warps.find wid).getD {}).jrecs.map (·.1)).foldl (fun s k => s.checkJoin wid k) s

/-- Lanes of a warp that a barrier waits for (R190). -/
def Warp.waitedLanes (w : Warp) : Mask := ~~~goneMask w

/-- The place of the path that a team's event is recorded of: the issuing path if it is the team's, else the team's first
live one, else the first slot whose path has exited (R369, R374). -/
def State.teamPath (s : State) (x : Team) : Option (Nat × Nat × Path × Bool) :=
  let live (wid k : Nat) : Option (Nat × Nat × Path × Bool) := (s.pathAt wid k).map (fun p => (wid, k, p, false))
  let own := if x.warps.contains s.cur.1 && decide (s.cur.2 < 2) then live s.cur.1 s.cur.2 else none
  let gone (wid k : Nat) : Option (Nat × Nat × Path × Bool) :=
    (s.warps.find wid).bind (fun w => (if k = 0 then w.exit0 else w.exit1).map (fun pc => (wid, k, { pc := pc }, true)))
  (own.or (x.warps.findSome? (fun wid => (live wid 0).or (live wid 1)))).or (x.warps.findSome? (fun wid => (gone wid 0).or (gone wid 1)))

/-- A barrier's completion is an acquire: it ends what release fences and atomic reads of the paths that have arrived
stand for (R130). -/
def Warp.syncArrived (w : Warp) (m : Mask) : Warp :=
  let f (p : Path) : Path := if p.mask &&& m = 0 then p else p.synced
  { w with
    slot0 := w.slot0.map f, slot1 := w.slot1.map f
    stack := w.stack.map (fun e => { e with path := f e.path })
    overflow := w.overflow.map (fun o => { o with path := f o.path }) }

/-- Completes a team's barrier when every live lane has arrived (R190): masks cleared, phase advanced. -/
def State.checkBarrier (s : State) (t b : Nat) : State :=
  match s.teams.find t with
  | none => s
  | some x =>
    let k := x.barriers.getD b {}
    let all := x.warps.all (fun wid =>
      match s.warps.find wid with
      | some w => w.waitedLanes &&& ~~~(k.arrived.get wid) = 0
      | none => true)
    if k.arrived.isEmpty || !all then s
    else
      let parts := k.arrived.map (·.1)
      let s := s.modTeam t (fun x => { x with barriers := x.barriers.put b { phase := k.phase + 1 } })
      let s := (s.barrierSync parts k.ivs)
      let s := k.arrived.foldl (fun s a => s.modWarp a.1 (·.syncArrived a.2)) s
      match s.teamPath x with
      | some (wid, i, p, gone) => s.traceIn x.ctx wid 0 i p gone 6 (BitVec.ofNat 64 (b * 2 ^ 32 + (k.phase + 1).toNat))
      | none => s

def State.checkBarriers (s : State) (t : Nat) : State :=
  ((s.teams.getD t {}).barriers.map (·.1)).foldl (fun s b => s.checkBarrier t b) s

/-- Paths and fragments none of whose lanes is left are gone (R180, R184). -/
def State.sweep (s : State) (wid : Nat) : State :=
  match s.warps.find wid with
  | none => s
  | some w =>
    let keep (p : Path) : Bool := p.mask &&& ~~~goneMask w != 0
    let w := { w with
      slot0 := w.slot0.filter keep, slot1 := w.slot1.filter keep
      stack := w.stack.filter (fun e => keep e.path)
      overflow := w.overflow.filter (fun o => keep o.path) }
    (s.putWarp wid w).modCore (coreOf wid) (fun c =>
      { c with frags := c.frags.filter (fun e => e.2.warp ≠ wid || keep e.2.path) })

/-- A warp with no lane left ends (R180). -/
def State.checkEnd (s : State) (wid : Nat) : State :=
  s.modWarp wid (fun w =>
    if goneMask w = fullMask then
      { w with ended := true, slot0 := none, slot1 := none, stack := [], jrecs := [], overflow := none }
    else w)

/-- What follows from lanes having gone: sweeps, joins, barriers, slots, the warp's end (R178-R180, R191). -/
def State.afterGone (s : State) (wid : Nat) : State :=
  let t := s.teamOf wid
  ((((s.sweep wid).checkJoins wid).checkBarriers t).fillSlots wid).checkEnd wid

def State.exitLanes (s : State) (wid : Nat) (m : Mask) : State :=
  (s.modWarp wid (fun w => { w with exited := w.exited ||| m })).afterGone wid

/-- Lanes die, each reported (R358). -/
def State.killLanes (s : State) (wid : Nat) (m : Mask) : State :=
  let w := (s.warps.find wid).getD {}
  let m := m &&& ~~~goneMask w
  if m = 0 then s
  else
    let s := (s.modWarp wid (fun w => { w with dead := w.dead ||| m })).afterGone wid
    (lanesOf m).foldl (fun s _ => s.devError 1 0x08 (dieOf wid) (coreOf wid % 200) w.ctx false) s

/-- A warp dies: every lane dead, every path and fragment ended (R359). -/
def State.killWarp (s : State) (wid : Nat) : State :=
  let ctx := ((s.warps.find wid).getD {}).ctx
  let s := (s.modWarp wid (fun w => { w with dead := fullMask })).afterGone wid
  s.devError 1 0x09 (dieOf wid) (coreOf wid % 200) ctx false

/-! ## Taking a fault -/

/-- Makes the fragment of lanes L of a path under a table entry (R181, R182); the path keeps the rest. A whole path keeps
its windows as they stand. -/
def makeFrag (wid : Nat) (sn : BitVec 16) (made e : Nat) (ovf whole : Bool) (p : Path) (m : Mask) (r : FaultRec)
    (waits : List (Nat × Nat × Mask)) (page : Option (Nat × Nat)) : Frag :=
  { warp := wid, serial := sn, made := made, state := if r.needsHandler then 1 else 0, ovf := ovf,
    dev := r.dev, pfr := p.frag.isSome, parent := p.frag.getD 0, rcd := r, waits := waits, page := page
    path := { p with
      mask := m, frag := some e, windows := if whole then p.windows else p.windows.map (·.carry m), stall := 9, lstall := 9, both := false, access := none
      stepping := if p.stopped then p.stepping else 0 } }

/-- The path without lanes that left it. -/
def Path.without (p : Path) (m : Mask) : Path :=
  { p with mask := p.mask &&& ~~~m, windows := p.windows.map (·.restrict (~~~m)) }

/-- The mask of a live fragment's entry loses the lanes that split from it. -/
def leaveFrag (fs : Tab Frag) (e : Option Nat) (m : Mask) : Tab Frag :=
  match e.bind (fun e => (fs.find e).map (fun f => (e, f))) with
  | some (e, f) => fs.put e { f with path := { f.path with mask := f.path.mask &&& ~~~m } }
  | none => fs

/-- The stop of a step whose path parks whole is recorded (R371, R374). -/
def State.traceHalt (s : State) (wid kind idx : Nat) (was now : Path) : State :=
  if now.stopped && !was.stopped then s.trace wid kind idx now 5 9 else s

/-- A path that parks whole takes a debugger's step with it as a stop (R372). -/
def Path.parkWhole (p : Path) : Path := { p with stopped := p.stopped || p.stepping != 0, stepping := 0, awaits := none }

/-- Trace records of a fragment: its creation, and that it is READY (R374). -/
def State.traceFrag (s : State) (g : Frag) (created : Bool) : State :=
  let s := if created then s.trace g.warp 2 g.serial.toNat g.path 3 (BitVec.ofNat 64 (g.rcd.cls.toNat * 256 + g.rcd.cause.toNat)) else s
  if g.state = 1 then s.trace g.warp 2 g.serial.toNat g.path 4 (BitVec.ofNat 64 g.serial.toNat) else s

/-- Splits lanes m of the path in a slot into a fragment parked with a fault (R181, R188): the whole path gives up
its slot, a strict part leaves it running. A live fragment that faults whole keeps its entry. -/
def State.park (s : State) (wid k : Nat) (m : Mask) (r : FaultRec) (waits : List (Nat × Nat × Mask))
    (page : Option (Nat × Nat)) : State :=
  match s.warps.find wid, s.pathAt wid k with
  | some w, some p =>
    let core := coreOf wid
    let c := s.core core
    let live := p.liveMask w
    let whole := decide (live &&& ~~~m = 0)
    let was := p
    let p := if whole then p.parkWhole else p
    let vacate (w : Warp) : Warp := w.setSlot k none
    match whole, p.frag.bind (fun e => (c.frags.find e).map (fun f => (e, f))) with
    | true, some (e, f) =>
      let g : Frag := { makeFrag wid f.serial f.made e f.ovf true p m r waits page with pfr := f.pfr, parent := f.parent }
      let s := s.modCore core (fun c => { c with frags := c.frags.put e g })
      (((s.modWarp wid vacate).traceFrag g false).traceHalt wid 2 g.serial.toNat was g.path).fillSlots wid
    | _, _ =>
      match c.frags.freeKey 0 256 with
      | some e =>
        let sn := nextSerial ((c.frags.filter (fun f => f.2.warp = wid)).map (·.2.serial)) 300 w.serial
        let g := makeFrag wid sn s.names e false whole p m r waits page
        let s := { s with names := s.names + 1 }
        let s := s.modCore core (fun c => { c with frags := (leaveFrag c.frags p.frag m).put e g })
        let s := s.modWarp wid (fun w =>
          let w := { w with serial := sn }
          if whole then vacate w else w.setSlot k (some (p.without m)))
        let s := s.traceFrag g true
        if whole then (s.traceHalt wid 2 g.serial.toNat was g.path).fillSlots wid else s
      | none =>
        if w.overflow.isSome then s.contextFault w.ctx 1 0
        else
          let o : Overflow := { path := p, rcd := r, mask := m, waits := waits, page := page }
          let s := s.modWarp wid (fun w => vacate { w with overflow := some o, evFull := true })
          (s.traceHalt wid 3 0 was p).fillSlots wid
  | _, _ => s

/-- Raises a fault on lanes m of the path in a slot (R342-R348): a double fault exits them, a fault with no
handler is the context's, and anything else parks them. -/
def State.raiseOn (s : State) (wid k : Nat) (m : Mask) (r : FaultRec) (waits : List (Nat × Nat × Mask))
    (page : Option (Nat × Nat)) : State :=
  match s.warps.find wid, s.pathAt wid k with
  | some w, some p =>
    let live := p.liveMask w
    let m := m &&& live
    if m = 0 then s
    else if p.handler.isSome && !r.dev then
      (s.modCtx w.ctx (fun c => { c with dfaults := c.dfaults + 1 })).exitLanes wid (if r.lane then m else live)
    else if r.needsHandler && !trapEn (s.ctx w.ctx) then s.contextFault w.ctx 2 0
    else s.park wid k m r waits page
  | _, _ => s

/-- Listed warps of a gang register value, as team-relative indices (R195). -/
def gangList (g : DWord) : List Nat := (List.range (bitsN g 34 32)).map (fun i => bitsN g (4 * i + 3) (4 * i))

/-- A listed warp has exited entirely (R196). -/
def gangExited (s : State) (t : Nat) (g : DWord) : Bool :=
  (gangList g).any (fun i =>
    match (s.teams.getD t {}).warps[i]? with
    | some wid => match s.warps.find wid with | some w => w.ended | none => true
    | none => false)

/-- Place of the path of an arrival. -/
def State.placeOf (s : State) (a : Arrival) : Option Nat :=
  (s.warps.find a.wid).bind (fun w => w.places.find? (fun k => ((w.slot k).bind (·.mx)) == some a.id))

/-- Every path waiting at the latch takes "gang broken" with a cause (R196). -/
def State.breakLatch (s : State) (core : Nat) (cause : BitVec 8) : State :=
  let as := (s.core core).latch
  let s := s.modCore core (fun c => { c with latch := [] })
  as.foldl (fun s a =>
    match s.placeOf a with
    | none => s
    | some k =>
      let s := s.modPathAt a.wid k (fun p => { p with mx := none })
      let lp := match s.pathAt a.wid k with | some p => p.lpc | none => 0
      let m := match s.pathAt a.wid k with | some p => p.liveMask ((s.warps.find a.wid).getD {}) | none => 0
      s.raiseOn a.wid k fullMask { cls := 0x12, cause := cause, mask := m, flpc := BitVec.ofNat 20 lp } [] none) s

/-- Arrivals whose path is gone leave the latch; a listed warp that has exited breaks the gang (R196). -/
def State.checkLatch (s : State) (core : Nat) : State :=
  let as := (s.core core).latch
  if as.isEmpty then s
  else
    let s := s.modCore core (fun c => { c with latch := as.filter (fun a => (s.placeOf a).isSome) })
    if (s.core core).latch.any (fun a => gangExited s (s.teamOf a.wid) a.g0) then s.breakLatch core 1 else s

/-- Raises a fault and lets the latch see the lanes it exits. -/
def State.raiseAt (s : State) (wid k : Nat) (m : Mask) (r : FaultRec) : State :=
  (s.raiseOn wid k m r [] none).checkLatch (coreOf wid)

/-- A path fault of the issuing path's scalar stream (R342). -/
def State.scalarFault (s : State) (cls cause : Nat) (addr : Nat) (fdata : DWord) : State :=
  s.raiseAt s.cur.1 s.cur.2 fullMask
    { cls := BitVec.ofNat 8 cls, cause := BitVec.ofNat 8 cause, addr := BitVec.ofNat 72 addr,
      mask := s.cp.liveMask s.cw, flpc := BitVec.allOnes 20, fdata := fdata }

/-- A path fault at the lane word the issuing path stands at. -/
def State.lanePathFault (s : State) (cls cause : Nat) : State :=
  s.raiseAt s.cur.1 s.cur.2 fullMask
    { cls := BitVec.ofNat 8 cls, cause := BitVec.ofNat 8 cause, mask := s.cp.liveMask s.cw,
      flpc := BitVec.ofNat 20 s.cp.lpc }

/-! ## The overflow slot (R188) -/

/-- The rest of a path in an overflow slot can go on: there is none, or a slot or a stack entry is free for it. -/
def Warp.takesRest (w : Warp) (o : Overflow) : Bool :=
  decide (o.path.liveMask w &&& ~~~o.mask = 0) || (freeSlot w).isSome || decide (0 < w.stackFree)

/-- The slot it takes: a READY fragment takes slot 0 where both are free (R252). -/
def Warp.restSlot (w : Warp) (g : Frag) : Option Nat := if g.state = 1 && w.slot0.isNone && w.slot1.isNone then some 1 else freeSlot w

/-- When an entry is free, the fault of an overflow slot of the core is processed as it would have been at once (R181,
R188); the rest of the path takes a free slot or the stack. A watch hit whose debugger has detached is replayed (R372). -/
def State.drainOverflow (s : State) (core : Nat) : State :=
  match s.warps.find? (fun x => coreOf x.1 = core && (match x.2.overflow with | some o => x.2.takesRest o | none => false)),
      (s.core core).frags.freeKey 0 256 with
  | some (wid, w), some e =>
    match w.overflow with
    | some o =>
      let sn := nextSerial (((s.core core).frags.filter (fun f => f.2.warp = wid)).map (·.2.serial)) 300 w.serial
      let whole := decide (o.path.liveMask w &&& ~~~o.mask = 0)
      let g := makeFrag wid sn s.names e true whole (if whole then o.path.parkWhole else o.path) o.mask o.rcd o.waits o.page
      let g := if o.rcd.cls = 6 && !bitB (s.ctx w.ctx).dbgctl 63 then { g with state := 1, disp := some 0 } else g
      let w := { w with overflow := none, serial := sn }
      let w := if whole then w
        else match w.restSlot g with
          | some n => w.occupy n (o.path.without o.mask)
          | none => { w with stack := { yielded := false, path := o.path.without o.mask } :: w.stack }
      let s := { s with names := s.names + 1 }
      let s := (s.putWarp wid w).modCore core (fun c => { c with frags := (leaveFrag c.frags o.path.frag o.mask).put e g })
      ((s.traceFrag g true).traceHalt wid 2 g.serial.toNat o.path g.path).fillSlots wid
    | none => s
  | _, _ => s

/-! ## Advancing, waiting, and windows that end -/

/-- A dead lane's registers keep what they held (R35). -/
def Warp.takes (w : Warp) (r : RegWrite) : Bool := match r with | .v _ l _ _ => !bitB w.dead l | _ => true

/-- Removes the first window that has ended and completed, with what it makes visible (R45, R136). -/
def State.settleOne (s : State) (wid k : Nat) : State × Bool :=
  match s.pathAt wid k with
  | none => (s, false)
  | some p =>
    match p.windows.find? (fun d => d.left = 0 && d.complete) with
    | none => (s, false)
    | some d =>
      let s := s.modPathAt wid k (fun p => { p with windows := p.windows.erase d })
      let s := s.modWarp wid (fun w => ((w.applyAll k (d.writes.filter w.takes)).agreeOn k (d.writes.map (·.place))).differOn k d.twin)
      match d.race with
      | none => (s, true)
      | some h =>
        let m := if h.scalar then fullMask else maskOf (h.lanes.map (·.lane))
        let a := match h.lanes with | x :: _ => x.ea | [] => 0
        let live := p.liveMask ((s.warps.find wid).getD {})
        let r : FaultRec := {
          cls := 4, cause := 1, lane := !h.scalar, addr := a, mask := m &&& live,
          flpc := if h.scalar then BitVec.allOnes 20 else BitVec.ofNat 20 p.lpc,
          fdata := BitVec.ofNat 64 (h.iv.toNat * 2 ^ 32 + h.wr.toNat), after := true, race := some h }
        (if h.lanes.isEmpty then s else s.raiseAt wid k m r, true)

/-- Makes every ended window of a path visible, in order, and drops a run that has ended with all its windows. -/
def State.settle (s : State) (wid k : Nat) : Nat → State
  | 0 => s
  | n + 1 =>
    let r := s.settleOne wid k
    if r.2 then r.1.settle wid k n else s

/-- A finished run leaves the queue when no window of the lane stream is open (R46). -/
def popRun (p : Path) : Path :=
  match p.queue with
  | r :: t => if r.pos ≥ r.count && !p.windows.any (·.lane) then { p with queue := t } else p
  | [] => p

def State.settleAll (s : State) (wid k : Nat) : State := (s.settle wid k 40).modPathAt wid k popRun

/-- The team of the issuing path has made progress (R375); the Prologue Unit belongs to no team. -/
def State.progress (s : State) : State :=
  if s.inPu then s else s.modTeam s.cw.team (fun t => { t with progress := t.progress + 1 })

/-- A debugger's step of the stream has issued its instruction, whose window closes; the path stops once that has
completed (R372). -/
def Path.stepped (lane : Bool) (p : Path) : Path :=
  if p.stepping = (if lane then 2 else 1) then { p with stepping := 3, windows := endWindows lane p.windows } else p

/-- Instructions the Prologue Unit has executed (R224). -/
def State.puTick (s : State) : State := if s.inPu then { s with pu := s.pu.map (fun r => { r with count := r.count + 1 }) } else s

/-- The scalar instruction is done: the PC moves to a target, and every open scalar window counts it (R45). -/
def State.goto (s : State) (pc : VAddr) : State :=
  let s := s.modP (fun p => Path.stepped false { p with
    pc := pc, stall := 0, begun := false, skipBp := false, awaits := none, windows := tickWindows false p.windows })
  (s.settleAll s.cur.1 s.cur.2).progress.puTick

def State.advance (s : State) : State := s.goto (s.cp.pc + 4)

/-- Lanes that wait at the end of a window for a link in RETRAIN split there, their results still pending (R94). -/
def State.splitStalled (s : State) (wid k : Nat) : State :=
  match s.pathAt wid k with
  | none => s
  | some p =>
    let ends := p.windows.filter (fun d => d.lane && d.left == 0)
    let ws := (ends.map (·.waits)).flatten.filter (fun x => (s.link x.1).st = .retrain)
    let m := ws.foldl (fun m x => m ||| x.2.2) 0
    if m = 0 || p.access.isSome then s
    else
      (s.raiseOn wid k m
        { cls := 7, cause := 1, lane := true, dev := true, mask := m, flpc := BitVec.ofNat 20 p.lpc, after := true }
        ws none).checkLatch (coreOf wid)

/-- The lane instruction is done: the run moves on, and its end ends every lane window (R45, R46). -/
def State.advanceLane (s : State) : State :=
  let s := s.modP (fun p =>
    match p.queue with
    | r :: t =>
      let r := { r with pos := r.pos + 1 }
      let ws := tickWindows true p.windows
      Path.stepped true { p with
        queue := r :: t, lstall := 0, both := false, begun := false, skipBp := false, vsync := none
        windows := if r.pos ≥ r.count then endWindows true ws else ws }
    | [] => p)
  ((s.settleAll s.cur.1 s.cur.2).progress).splitStalled s.cur.1 s.cur.2

/-- The scalar instruction waits: nothing but its stream's stall code changes, and it issues again later (R376). -/
def State.wait (s : State) (code : Nat) : State := s.modP (fun p => { p with stall := code })

/-- The lane instruction waits. -/
def State.waitLane (s : State) (code : Nat) : State := s.modP (fun p => { p with lstall := code })

def State.waitIn (s : State) (lane : Bool) (code : Nat) : State := if lane then s.waitLane code else s.wait code

/-- A path whose step has completed stops, and its stop is recorded (R371, R372). -/
def State.stopStep (s : State) (wid k : Nat) : State :=
  match s.pathAt wid k with
  | none => s
  | some p =>
    if p.stepping = 3 && p.windows.all (fun d => decide (d.left ≠ 0) || d.complete) then
      let s := s.settleAll wid k
      let s := s.modPathAt wid k (fun p => if p.stepping = 3 then { p with stepping := 0, stopped := true } else p)
      match s.pathAt wid k with
      | some p => if p.stopped then s.trace wid 0 k p 5 9 else s
      | none => s
    else s

end Sys2Proof.Machine
end

