-- ==== Sys2Proof/Machine/Shadow.lean ====
section
/-! DEFINITION. Shadow warps (R360, R361): which registers forms read and write, what the shadow's copy of an instruction
gives, and the comparison of the two copies before what a program can see is performed. The shadow trails its leader
by nothing that can be told here, so the two copies of an instruction act in one step (log 105). -/

namespace Sys2Proof.Machine

/-! ## Registers that forms write -/

/-- Registers a scalar form writes, as R47 compares them. -/
def scalarDests : Instr → List Dest
  | .sadd d .. | .ssub d .. | .smul d .. | .smulh d .. | .sdiv d .. | .srem d .. | .sand d .. | .sor d .. | .sxor d ..
  | .sshl d .. | .sshr d .. | .ssar d .. | .smin d .. | .smax d .. | .spopc d .. | .sclz d .. | .smov d .. | .ssel d ..
  | .asub d .. | .aget d .. | .agetHi d .. | .saddi d .. | .sandi d .. | .sori d .. | .sxori d .. | .sshli d ..
  | .sshri d .. | .ssari d .. | .slui d .. | .sld d .. | .samo d .. | .cnode d .. | .cread d .. | .csettle d ..
  | .creadG d .. | .reap d .. | .sysr d .. => [.s d.toNat]
  | .aadd d .. | .aset d .. | .asetW d .. | .aaddi d .. | .slda d .. => [.a d.toNat]
  | .scmp d .. | .acmp d .. | .scmpi d .. => [.q d.toNat]
  | .gangset .. => [.g0]
  | _ => []

/-- Registers a lane form writes, as R47 compares them. -/
def laneDests (i : Instr) : List Dest :=
  match laneCard i with
  | none => []
  | some (f, k) =>
    let q := if bitB f.ext 3 then [Dest.p (bitsN f.ext 2 0)] else []
    (match k.d with
     | .v n => (List.range n).map (fun j => Dest.v (f.d.toNat + j))
     | .p => [.p f.d.toNat]
     | .m => [.m f.d.toNat]
     | .s => [.s f.d.toNat]
     | .spair => [.s f.d.toNat, .s (f.d.toNat + 1)]
     | _ => []) ++ (match i with | .vshuf _ => q | _ => [])

/-! ## The shadow's registers -/

/-- The shadow has saved nothing otherwise in its handler. -/
def Handler.agrees (h : Handler) : Bool := h.twin.isEmpty && h.queue.all (·.twin.isEmpty) && h.windows.all (·.twin.isEmpty)

/-- The two warps of the issuing path's pair hold the same registers. -/
def State.agrees (s : State) : Bool := s.cw.twin.isEmpty && s.cp.twin.isEmpty && s.cp.queue.all (·.twin.isEmpty)
  && s.cp.windows.all (·.twin.isEmpty) && s.cp.handler.all Handler.agrees

/-- A lane's bit of a mask, given a value. -/
def setLane (m : Mask) (l : Nat) (x : VAddr) : Mask := if bitB x 0 then m ||| (1#128 <<< l) else m &&& ~~~(1#128 <<< l)

/-- A warp's register as the shadow holds it. -/
def Warp.putTwin (w : Warp) (x : Dest × Nat × VAddr) : Warp :=
  match x.1 with
  | .s n => { w with s := w.s.set n (x.2.2.setWidth 64) }
  | .a n => { w with a := w.a.set n x.2.2 }
  | .v n => { w with v := w.v.set (128 * n + x.2.1) (x.2.2.setWidth 32) }
  | .p n => { w with p := w.p.set n (setLane (w.p.get n) x.2.1 x.2.2) }
  | .g0 => { w with g0 := x.2.2.setWidth 64 }
  | _ => w

def Run.asShadow (r : Run) : Run :=
  r.twin.foldl (fun r x => if x.1 < 64 then { r with s := r.s.set x.1 (x.2.setWidth 64) } else { r with a := r.a.set (x.1 - 64) x.2 }) r

def Window.asShadow (d : Window) : Window :=
  { d with writes := d.writes.filter (fun x => !(d.twin.map (·.place)).contains x.place) ++ d.twin }

def Handler.asShadow (h : Handler) : Handler :=
  let h := h.twin.foldl (fun (h : Handler) x =>
    if x.1 < 64 then { h with s := h.s.set x.1 (x.2.setWidth 64) } else { h with q := x.2.setWidth 8 }) h
  { h with queue := h.queue.map Run.asShadow, windows := h.windows.map Window.asShadow }

def Path.asShadow (p : Path) : Path :=
  let p := p.twin.foldl (fun (p : Path) x =>
    if x.1 < 64 then { p with s := p.s.set x.1 (x.2.setWidth 64) } else if x.1 = 64 then { p with q := x.2.setWidth 8 } else p) p
  { p with queue := p.queue.map Run.asShadow, windows := p.windows.map Window.asShadow, handler := p.handler.map Handler.asShadow }

/-- The state as the shadow's copy of the issuing path's instruction finds it. -/
def State.asShadow (s : State) : State :=
  s.modW (fun w => (w.twin.foldl Warp.putTwin w).setSlot s.cur.2 ((w.slot s.cur.2).map Path.asShadow))

/-- Keys at which two stores differ. -/
def differing {w : Nat} (a b : Cells w) : List Nat := ((a.map (·.1) ++ b.map (·.1)).eraseDups).filter (fun k => a.get k != b.get k)

/-- What the registers of a second warp hold where they differ from the first's. -/
def Warp.differences (a b : Warp) : List (Dest × Nat × VAddr) :=
  (differing a.v b.v).map (fun k => (.v (k / 128), k % 128, (b.v.get k).setWidth 72))
    ++ ((differing a.p b.p).map (fun n => ((lanesOf (a.p.get n ^^^ b.p.get n)).map (fun l =>
      (Dest.p n, l, BitVec.ofNat 72 (boolNat (bitB (b.p.get n) l))))))).flatten
    ++ (differing a.s b.s).map (fun n => (.s n, 0, (b.s.get n).setWidth 72))
    ++ (differing a.a b.a).map (fun n => (.a n, 0, b.a.get n))
    ++ (if a.g0 = b.g0 then [] else [(.g0, 0, b.g0.setWidth 72)])

def Run.differences (a b : Run) : List (Nat × VAddr) :=
  (differing a.s b.s).map (fun n => (n, (b.s.get n).setWidth 72)) ++ (differing a.a b.a).map (fun n => (64 + n, b.a.get n))

/-- The same of a path, its condition registers at 64 and its PC or lanes at 65. -/
def Path.differences (a b : Path) : List (Nat × VAddr) :=
  (differing a.s b.s).map (fun n => (n, (b.s.get n).setWidth 72))
    ++ (if a.q = b.q then [] else [(64, b.q.setWidth 72)])
    ++ (if a.pc = b.pc && a.mask == b.mask then [] else [(65, b.pc)])

/-- The shadow runs instructions of its own no more: its PC or its lanes are not its leader's. -/
def Path.apart (p : Path) : Bool := p.twin.any (fun x => x.1 = 65)

def withTwins (a b : List Run) : List Run :=
  (a.zipIdx).map (fun r => match b[r.2]? with | some x => { r.1 with twin := r.1.differences x } | none => r.1)

def keepWindows (a b : List Window) : List Window :=
  (a.zipIdx).map (fun d => match b[d.2]? with
    | some x => { d.1 with twin := x.writes.filter (fun r => !d.1.writes.contains r) }
    | none => d.1)

/-- What a handler's shadow has saved otherwise. -/
def Handler.withTwin (a b : Handler) : Handler :=
  { a with
    twin := (differing a.s b.s).map (fun n => (n, (b.s.get n).setWidth 72)) ++ (if a.q = b.q then [] else [(64, b.q.setWidth 72)])
    queue := withTwins a.queue b.queue
    windows := keepWindows a.windows b.windows }

/-- A path with what the shadow's copy of it holds otherwise: its registers, its runs, the results of its windows, and what
its handler has saved. -/
def Path.withTwin (a b : Path) : Path :=
  { a with
    twin := a.differences b
    queue := withTwins a.queue b.queue
    windows := keepWindows a.windows b.windows
    handler := match a.handler, b.handler with | some h, some k => some (h.withTwin k) | h, _ => h }

/-- The leader's instruction has led to t and the shadow's copy to u; what the shadow holds otherwise is kept. -/
def State.keepTwin (t u : State) : State :=
  t.modW (fun w => ({ w with twin := w.differences u.cw } : Warp).setSlot t.cur.2 ((w.slot t.cur.2).map (fun (p : Path) => p.withTwin u.cp)))

/-! ## What is compared (R361) -/

/-- Lane forms that store, act atomically or raise. -/
def checkedLane : Instr → Bool
  | .vst _ | .vamo .. | .cst _ | .camo _ | .cupd _ | .rinit _ | .rfree _ | .rpost _ | .mxdrain _ | .vraise _ => true
  | _ => false

/-- Forms that act once for their path and are compared (R69, R269). -/
def actsOnce : Instr → Bool
  | .rinit _ | .rfree _ | .rpost _ | .mxdrain _ => true
  | _ => false

/-- Operands of a lane word in a lane: its active bit, and where that is set address base and offset, data, scalar operands
and g0. -/
def laneOperands (w : Warp) (p : Path) (k : Card) (f : LaneWord) (l : Nat) : List Nat :=
  let r : Run := p.queue.headD { off := 0, count := 0 }
  let v (u : Use) (x : BitVec 8) : List Nat := match u with
    | .v n => (List.range n).map (fun j => (w.vReg (x.toNat + j) l).toNat)
    | .off => if x = 255 then [] else [(w.vReg x.toNat l).toNat, (w.vReg (x.toNat + 1) l).toNat]
    | .p => [boolNat (bitB (w.pred x.toNat) l)]
    | .s => [(r.s.get (x.toNat % 64)).toNat]
    | .spair => [(r.s.get (x.toNat % 64)).toNat, (r.s.get (x.toNat % 64 + 1)).toNat]
    | .a => [(r.a.get (x.toNat % 16)).toNat]
    | _ => []
  let base := if k.b = .off || k.b = .none255 then [(r.a.get (f.ext.toNat / 2 ^ 28)).toNat] else []
  if bitB (activeMask w p f) l then 1 :: w.g0.toNat :: (base ++ v k.a f.a ++ v k.b f.b ++ v k.c f.c) else [0]

/-- Live lanes in which the two copies of the word at the head of the path's queue differ. -/
def State.differingLanes (s : State) (k : Card) (f : LaneWord) : Mask :=
  let u := s.asShadow
  maskOf ((lanesOf (s.cp.liveMask s.cw)).filter (fun l =>
    s.cp.apart || laneOperands s.cw s.cp k f l != laneOperands u.cw u.cp k f l))

/-- The two copies of a form that acts once differ: their active lanes do, or the operands of the lowest. -/
def State.onceDiffers (s : State) (k : Card) (f : LaneWord) : Bool :=
  let u := s.asShadow
  let act := activeMask s.cw s.cp f
  s.cp.apart || act != activeMask u.cw u.cp f
    || (act != 0 && laneOperands s.cw s.cp k f (lowestLane act) != laneOperands u.cw u.cp k f (lowestLane act))

/-- Operands of the scalar forms that store, act atomically, command an engine, raise or end a plot; none for others. -/
def scalarOperands (i : Instr) (s : State) : Option (List Nat) :=
  let x (n : BitVec 6) : Nat := (s.sReg n).toNat
  let y (n : BitVec 4) : Nat := (s.aReg n).toNat
  match i with
  | .sst d r _ _ _ => some [x d, y r]
  | .ssta d r _ _ => some [y d, y r]
  | .samo d a b _ _ _ => some [x d, y a, x b]
  | .txld _ r g c _ => some [y r, y g, x c]
  | .txst _ r g c _ => some [y r, y g, x c]
  | .txpf _ r g => some [y r, y g]
  | .wbload _ sl c _ => some [x sl, x c]
  | .qfence _ | .recfenceAll => some []
  | .recfence r => some [y r]
  | .raise a b c | .raiseSum a b c => some [x a, x b, x c]
  | .plotend a => some [x a]
  | .reap _ a _ => some [y a]
  | _ => none

/-- The two copies of a scalar form that R361 compares differ. -/
def State.copiesDiffer (s : State) (i : Instr) : Bool :=
  match scalarOperands i s with
  | some xs => s.cp.apart || scalarOperands i s.asShadow != some xs
  | none => false

/-- Forms whose results come from the leader alone: loads, the old values of atomics, and what the machine's own registers
and tables answer (R360). -/
def leaderOnly : Instr → Bool
  | .sld .. | .slda .. | .samo .. | .sysr .. | .cnode .. | .cread .. | .creadG .. | .csettle .. | .reap .. | .vld _ | .vamo ..
  | .cld _ | .camo _ | .cred _ | .mxdrain _ | .mxacc _ | .mxloadc _ | .mxzero _ => true
  | _ => false

/-- Places a form writes in the lanes of a mask. -/
def placesOf (ds : List Dest) (m : Mask) : List (Dest × Nat) :=
  (ds.map (fun d => match d with
    | .v _ | .p _ => (lanesOf m).map (fun l => (d, l))
    | d => [(d, 0)])).flatten

/-- The effect of a form on a pair whose two warps hold other values somewhere: the shadow's copy of it is worked out too,
or takes the leader's results. -/
def State.pair (s : State) (i : Instr) (ds : List Dest) (m : Mask) (body : State → State) : State :=
  let t := body s
  if leaderOnly i || s.cp.apart then t.modW (fun w => w.agreeOn s.cur.2 (placesOf ds m))
  else if t.path?.isSome then t.keepTwin (body s.asShadow)
  else t

/-- The record of a mismatch: of lanes, or of the path. -/
def mismatchRec (s : State) (lane : Bool) (m : Mask) : FaultRec := { cls := 8, cause := 1, lane := lane, mask := m, flpc := BitVec.ofNat 20 s.cp.lpc }

/-- The path fault of a form that acts once (R361). -/
def State.pathMismatch (s : State) (scalar : Bool) : State :=
  let r := mismatchRec s false (s.cp.liveMask s.cw)
  s.raiseAt s.cur.1 s.cur.2 fullMask (if scalar then { r with flpc := BitVec.allOnes 20 } else r)

/-- A scalar form's effect on a pair (R361). -/
def State.pairScalar (s : State) (i : Instr) (body : State → State) : State :=
  if s.agrees then body s
  else if s.copiesDiffer i then s.pathMismatch true
  else s.pair i (scalarDests i) fullMask body

/-- The fault of lanes of the mask `m` whose copies differ (R361); with none, nothing. -/
def State.mismatched (s : State) (m : Mask) : State := if m = 0 then s else s.raiseAt s.cur.1 s.cur.2 m (mismatchRec s true m)

/-- A lane word's effect on a pair: the lanes whose copies differ split away, and the rest go on; a form that acts once takes
the whole path (R361). -/
def State.pairLane (s : State) (i : Instr) (body : State → State) : State :=
  if s.agrees then body s
  else
    match laneCard i with
    | none => body s
    | some (f, k) =>
      if actsOnce i && s.onceDiffers k f then s.pathMismatch false
      else
        let m := if checkedLane i && !actsOnce i then s.differingLanes k f else 0
        let live := s.cp.liveMask s.cw
        let t := s.mismatched m
        if m ≠ 0 && (t.path?.isNone || t.cp.mask &&& ~~~live ≠ 0) then t
        else t.pair i (laneDests i) (activeMask t.cw t.cp f) body

/-- A bit error that no check finds leaves the shadow another value in a register of a lane, or of the path in a slot. -/
def State.upset (s : State) (wid k : Nat) (d : Dest) (lane : Nat) (x : VAddr) : State :=
  s.modWarp wid (fun w =>
    if !w.shadow then w
    else match d with
      | .s n => if n < 32 then { w.agreeOn k [(d, 0)] with twin := (d, 0, x) :: (w.agreeOn k [(d, 0)]).twin }
        else w.setSlot k ((w.slot k).map (fun p => { p with twin := (n, x) :: p.twin.filter (fun e => e.1 ≠ n) }))
      | .q _ => w.setSlot k ((w.slot k).map (fun p => { p with twin := (64, x) :: p.twin.filter (fun e => e.1 ≠ 64) }))
      | .v _ | .p _ => { w with twin := (d, lane, x) :: w.twin.filter (fun e => !(e.1 = d && e.2.1 = lane)) }
      | _ => { w with twin := (d, 0, x) :: w.twin.filter (fun e => e.1 ≠ d) })

end Sys2Proof.Machine
end

