-- ==== Sys2Proof/Machine/Gate.lean ====
section
/-! DEFINITION. What every instruction word meets before its own effect: R51's checks, the Prologue Unit's rules
(R328), the handler's forbidden forms (R344), lookahead windows (R45-R47) and the waits of R32. -/

namespace Sys2Proof.Machine

/-! ## Classes of instructions -/

/-- Control transfers, which close the path's windows before they issue (R46). -/
def isControl : Instr → Bool
  | .br .. | .bq .. | .brd .. | .join | .call .. | .calli .. | .ret | .loop .. | .exit | .nap .. | .yield
  | .trap .. | .tret | .brkpt .. => true
  | _ => false

/-- Forms of the Prologue Unit alone (R51 row 3). -/
def isPrologue : Instr → Bool
  | .pset .. | .pcancel | .prepeat => true
  | _ => false

/-- Forms the Prologue Unit executes ("Prologue forms"). -/
def puForm : Instr → Bool
  | .sadd .. | .ssub .. | .smul .. | .smulh .. | .sdiv .. | .srem .. | .sand .. | .sor .. | .sxor .. | .sshl ..
  | .sshr .. | .ssar .. | .smin .. | .smax .. | .spopc .. | .sclz .. | .smov .. | .ssel .. | .scmp ..
  | .aadd .. | .asub .. | .aset .. | .asetW .. | .aget .. | .agetHi .. | .acmp ..
  | .saddi .. | .sandi .. | .sori .. | .sxori .. | .sshli .. | .sshri .. | .ssari .. | .scmpi .. | .aaddi ..
  | .slui .. | .br .. | .bq .. | .call .. | .calli .. | .ret | .exit | .loop .. | .sld .. | .slda .. | .sysr ..
  | .pset .. | .pcancel | .prepeat => true
  | _ => false

/-- Forms a handler may not issue (R344). -/
def handlerBars : Instr → Bool
  | .brd .. | .join | .exit | .plotend .. | .yield | .bara .. | .barw .. | .baraw .. | .mxacc .. | .mxzero ..
  | .mxloadc .. | .mxdrain .. | .vsync .. => true
  | _ => false

/-- Lane-to-scalar transfers (R32, R244). -/
def isTransfer : Instr → Bool
  | .vget .. | .vred .. | .vvote .. | .vredix .. | .pget .. => true
  | _ => false

/-! ## Fetch without effect -/

/-- n bytes at a virtual address as a fetch would read them; nothing is installed and no A bit set. -/
def peekFetch (s : State) (a : Agent) (va n : Nat) : Option Nat :=
  match (translate s a va .fetch).2 with
  | .ok h => some (s.mem.bytes.readNat h.pa n)
  | .error _ => none

/-- The agent of a warp's core: extents of its team, and its privilege. -/
def State.agentOf (s : State) (wid : Nat) : Agent :=
  let w := (s.warps.find wid).getD {}
  if wid = puWid then { core := none, team := none, ctx := w.ctx, priv := w.priv }
  else { core := some (coreOf wid), team := some w.team, ctx := w.ctx, priv := w.priv }

def State.agent (s : State) : Agent := s.agentOf s.cur.1

/-- Virtual address of a lane word by its offset (R31). -/
def laneVa (c : Ctx) (off : Nat) : Nat := lanebaseN c + 12 * off

/-- The three words of a lane word, each on the page it lies on (R30). -/
def peekLane (s : State) (wid off : Nat) : Option (BitVec 96) :=
  let a := s.agentOf wid
  let va := laneVa (s.ctx a.ctx) off
  match peekFetch s a va 4, peekFetch s a (va + 4) 4, peekFetch s a (va + 8) 4 with
  | some x, some y, some z => some (BitVec.ofNat 96 (x + 2 ^ 32 * y + 2 ^ 64 * z))
  | _, _, _ => none

/-- A lane word as it lies in memory, executable now or still to be moved near (R22). -/
def knownLane (s : State) (wid off : Nat) : Option (BitVec 96) :=
  let ctx := (s.agentOf wid).ctx
  let va := laneVa (s.ctx ctx) off
  let word (va : Nat) : Option Nat :=
    match (translate s (s.agentOf wid) va .fetch).2 with
    | .ok h => some (s.mem.bytes.readNat h.pa 4)
    | .error (1, 3) => (match peekLeaf s ctx va with | .leaf _ e _ => some (s.mem.bytes.readNat (pteBase e + va % 65536) 4) | _ => none)
    | .error _ => none
  match word va, word (va + 4), word (va + 8) with
  | some x, some y, some z => some (BitVec.ofNat 96 (x + 2 ^ 32 * y + 2 ^ 64 * z))
  | _, _, _ => none

/-- The run holds a transfer that has not yet written its destination (R32). A word that cannot be read now may be one
(DESIGN CHOICE, log 114). -/
def transferAhead (s : State) (wid : Nat) (r : Run) : Bool :=
  (List.range (r.count - r.pos)).any (fun j =>
    match knownLane s wid (r.off + r.pos + j) with
    | some w => (match decodeLane w with | .ok i => isTransfer i | .error _ => false)
    | none => true)

/-- The scalar stream waits for the transfers of the runs it has queued (R32). -/
def State.transferStall (s : State) : Bool := s.cp.queue.any (fun r => transferAhead s s.cur.1 r)

/-! ## The Prologue Unit (R328) -/

/-- A prologue fault (R223, R328): the run ends and the entry has status 0x06 with the cause as its detail. -/
def State.puFault (s : State) (cause : Nat) : State :=
  match s.pu with
  | none => s
  | some r =>
    let s := { s with pu := none, warps := s.warps.erase puWid }
    s.modQueue r.ctx r.q (fun q => { q with entry := q.entry.map (fun e =>
      { e with status := some 6, detail := BitVec.ofNat 24 cause, launch := e.launch.map (fun l => { l with prologue := 3 }) }) })

/-- PSET values of a run take effect in the pending launch (R223). -/
def Launch.applyPset (l : Launch) (ps : Tab DWord) : Launch :=
  ps.foldl (fun l e =>
    if e.1 = 0 then { l with count := e.2.toNat }
    else if e.1 = 1 then { l with args := (l.args >>> 64 <<< 64) ||| e.2.setWidth 72 }
    else if e.1 = 2 then { l with chmin := e.2.toNat }
    else { l with lrec := l.lrec.modify (e.1 - 0x10) (fun w => putBits w 31 0 (e.2.toNat - 1)) }) l

/-- The prologue run ends (R222, R224): its launch is made, again on repeat, or cancelled. -/
def State.puEnd (s : State) (again cancelled : Bool) : State :=
  match s.pu with
  | none => s
  | some r =>
    let s := { s with pu := none, warps := s.warps.erase puWid }
    s.modQueue r.ctx r.q (fun q => { q with entry := q.entry.map (fun e => { e with launch := e.launch.map (fun l =>
      { l.applyPset r.pset with prologue := 3, again := again, cancelled := cancelled }) }) })

/-- A path fault of a scalar form; within the unit, a prologue fault of the given cause (R328). -/
def State.pathFaultOr (s : State) (puCause cls cause addr : Nat) : State :=
  if s.inPu then s.puFault puCause else s.scalarFault cls cause addr 0

/-! ## Scalar words -/

/-- An illegal-instruction path fault at the scalar word (R51). -/
def State.illegalScalar (s : State) (c : Cause) : State :=
  if s.inPu then s.puFault (if c = .opcode then 1 else 2) else s.scalarFault 0x11 c.code 0 0

/-- Results of the scalar stream's windows are made visible now (R46). -/
def State.closeScalar (s : State) : State :=
  (s.modP (fun p => { p with windows := endWindows false p.windows })).settleAll s.cur.1 s.cur.2

/-- A window of the stream holds an access the race check kept back, so closing it raises a fault (R136). -/
def windowsRace (lane : Bool) (ds : List Window) : Bool := ds.any (fun d => d.lane = lane && d.race.isSome)

/-- The unit runs at most 4,096 instructions (R224). -/
def State.puCount (s : State) : Nat := match s.pu with | some r => r.count | none => 0

/-! ## What a window waits for -/

/-- Stall reason of an engine queue: what its oldest entry waits for (R169). -/
def State.queueStall (s : State) (core q : Nat) : Nat :=
  let x := (s.core core).queues.getD q {}
  match x.park, x.entries.head? with
  | some (.link _), _ => 5
  | some _, _ => 11
  | none, some e =>
    if !e.waits.isEmpty then 5
    else if e.form == .txld && bitB (e.rcd.getD 0 0) 41 && !e.started then 3 else 4
  | none, none => 4

/-- Stall reason of the oldest of some entries that have not retired (R169). -/
def State.entryStall (s : State) (core : Nat) (ids : List Nat) : Nat :=
  let held := (s.core core).queues.filter (fun q => q.2.entries.any (fun e => ids.contains e.id))
  let age (q : EngQueue) : Nat := ((q.entries.filter (fun e => ids.contains e.id)).map (·.id)).foldl min (2 ^ 64)
  match held.foldl (fun (b : Option (Nat × Nat)) q =>
      match b with
      | some x => if age q.2 < x.2 then some (q.1, age q.2) else b
      | none => some (q.1, age q.2)) none with
  | some x => s.queueStall core x.1
  | none => 4

/-- Stall reason of an open window (R113, R169, R274, R305). -/
def State.windowStall (s : State) (d : Window) : Nat :=
  if d.mxop.isSome then 8
  else
    match d.pend with
    | some (.engine q _) => s.queueStall (coreOf s.cur.1) q
    | some (.qwait ids _) => s.entryStall (coreOf s.cur.1) ids
    | some _ => 4
    | none => 2

/-- Stall reason of a stream that waits for its windows: of those that have ended, or of all. -/
def State.blockStall (s : State) (lane all : Bool) : Nat :=
  match s.cp.windows.find? (fun d => d.lane == lane && (all || d.left == 0) && !d.complete) with
  | some d => s.windowStall d
  | none => 2

/-- Scalar forms whose accesses wait for a QWAIT whose window they issue in (R128, R169). -/
def scalarAccess : Instr → Bool
  | .sld .. | .slda .. | .sst .. | .ssta .. | .samo .. | .txld .. | .txst .. | .txpf .. | .wbload .. | .csettle .. | .fence ..
  | .raise .. | .raiseSum .. | .reap .. => true
  | _ => false

/-- Lane forms that access memory or canvas. -/
def laneAccess : Instr → Bool
  | .vld _ | .vst _ | .vpf _ | .vamo .. | .vfence .. | .cld _ | .cst _ | .camo _ | .cupd _ | .cred _ | .rinit _ | .rwaitFill _ | .rwaitFree _
  | .rfree _ | .rpost _ | .mxacc _ | .mxdrain _ | .mxloadc _ | .mxzero _ | .vraise _ => true
  | _ => false

/-- Stall code of an access that must wait: a QWAIT whose window it issues in, or that came before its run, has not completed
(R128, R169). -/
def State.accessWait (s : State) (before : Nat) : Option Nat :=
  s.cp.windows.findSome? (fun d =>
    match d.pend with
    | some (.qwait ids since) => if since ≤ before then some (s.entryStall (coreOf s.cur.1) ids) else none
    | _ => none)

/-- What happens to a scalar instruction before its effect: it goes on from a state, or the step is over. -/
inductive Gate where
  | go (s : State)
  | done (s : State)

/-- The tests before a scalar form acts. -/
def scalarGate (i : Instr) (s : State) : Gate :=
  if s.inPu && decide (4096 ≤ s.puCount) then .done (s.puFault 5)
  else if windowsBlock false s.cp.windows then .done (s.wait (s.blockStall false false))
  else if s.transferStall then .done (s.wait 14)
  else if isPrologue i && !s.inPu then .done (s.illegalScalar .opcode)
  else
    match i.illegal with
    | some c => .done (s.illegalScalar c)
    | none =>
      if s.inPu && !puForm i then .done (s.puFault 1)
      else if handlerBars i && s.cp.handler.isSome then .done (s.scalarFault 0x10 0x0F 0 0)
      else if isControl i then
        if !windowsDone false s.cp.windows then .done (s.wait (s.blockStall false true))
        else if windowsRace false s.cp.windows then .done s.closeScalar
        else .go s.closeScalar
      else if windowConflict false s.cp.windows (scalarDests i) then .done (s.illegalScalar .window)
      else
        match (if scalarAccess i then s.accessWait s.names else none) with
        | some c => .done (s.wait c)
        | none => .go s

/-- A scalar form: the tests, then its effect, which moves the PC itself. -/
def scalarForm (i : Instr) (s : State) (body : State → State) : Out :=
  if s.hub.fatal then .fault .halted
  else if s.path?.isNone then .fault .noPath
  else match scalarGate i s with
    | .go s => .next (s.pairScalar i body)
    | .done s => .next s

/-- A scalar form whose effect is on registers alone: the PC then moves on. -/
def scalarOp (i : Instr) (s : State) (f : State → State) : Out := scalarForm i s (fun s => (f s).advance)

/-! ## Opening windows -/

/-- A form's result under its lookahead k (R45): with no window and nothing on its way it is visible at once. -/
def State.result (s : State) (lane : Bool) (k : Nat) (dests : List Dest) (writes : List RegWrite)
    (waits : List (Nat × Nat × Mask)) (race : Option RaceHold) : State :=
  if k = 0 && waits.isEmpty && race.isNone then s.modW (fun w => w.applyAll s.cur.2 writes)
  else s.modP (fun p => { p with windows :=
    p.windows ++ [{ lane := lane, left := k + 1, dests := dests, writes := writes, waits := waits, race := race }] })

/-! ## Lane words -/

/-- The lane word's own lanes that read a poisoned register die before it acts (R358). -/
def poisonDeaths (w : Warp) (k : Card) (f : LaneWord) (act : Mask) (reads : List (Nat × Nat)) : Mask :=
  if w.vpoison.isEmpty then 0
  else
    let regs (u : Use) (x : BitVec 8) : List Nat := match u with
      | .v n => (List.range n).map (fun j => x.toNat + j)
      | .off => if x = 255 then [] else [x.toNat, x.toNat + 1]
      | _ => []
    let rs := regs k.a f.a ++ regs k.b f.b ++ regs k.c f.c ++ (reads.map (·.1))
    maskOf ((lanesOf act).filter (fun l => rs.any (fun r => w.vpoison.get (128 * r + l) != 0)))

/-- Kills the lanes of the path that read poison; the word goes on if the path has lanes left (R42, R358). -/
def State.poisonGate (s : State) (k : Card) (f : LaneWord) : Gate :=
  let m := poisonDeaths s.cw k f (activeMask s.cw s.cp f) []
  if m = 0 then .go s
  else
    let t := s.killLanes s.cur.1 m
    if t.path?.isSome && t.cp.mask == s.cp.mask then .go t else .done t

/-- The word at the head run, as the form's fields and its card. -/
def laneGate (i : Instr) (s : State) : Gate :=
  match laneCard i with
  | none => .done s
  | some (f, k) =>
    if windowsBlock true s.cp.windows then .done (s.waitLane (s.blockStall true false))
    else
      match i.illegal with
      | some c => .done (s.lanePathFault 0x11 c.code)
      | none =>
        if s.cw.budget < k.top f then .done (s.lanePathFault 0x11 Cause.budget.code)
        else if handlerBars i && s.cp.handler.isSome then .done (s.lanePathFault 0x10 0x0F)
        else
          match i with
          | .vsync _ =>
            let s := s.modP (fun p => { p with windows := endWindows true p.windows })
            if !windowsDone true s.cp.windows then .done ((s.waitLane (s.blockStall true false)).splitStalled s.cur.1 s.cur.2)
            else if windowsRace true s.cp.windows then .done (s.settleAll s.cur.1 s.cur.2)
            else (s.settleAll s.cur.1 s.cur.2).poisonGate k f
          | _ =>
            if windowConflict true s.cp.windows (laneDests i) then .done (s.lanePathFault 0x11 Cause.window.code)
            else
              match (if laneAccess i then s.accessWait ((s.cp.queue.map (·.id)).headD 0) else none) with
              | some c => .done (s.waitLane c)
              | none => s.poisonGate k f

/-- The path stands at a lane word. -/
def State.hasRun (s : State) : Bool :=
  match s.path? with
  | some p => (match p.queue with | r :: _ => decide (r.pos < r.count) | [] => false)
  | none => false

/-- A lane form: the tests, then its effect, which moves the run itself. -/
def laneForm (i : Instr) (s : State) (body : State → State) : Out :=
  if s.hub.fatal then .fault .halted
  else if !s.hasRun then .fault .noPath
  else match laneGate i s with
    | .go s => .next (s.pairLane i body)
    | .done s => .next s

/-- A lane form whose effect is on registers alone: the run then moves on. -/
def laneOp (i : Instr) (s : State) (f : State → State) : Out := laneForm i s (fun s => (f s).advanceLane)

/-- The head run, whose scalar and address values the word reads (R32). -/
def State.run (s : State) : Run := match s.cp.queue with | r :: _ => r | [] => { off := 0, count := 0 }

end Sys2Proof.Machine
end

