-- ==== Sys2Proof/Machine/Flags.lean ====
section
/-! DEFINITION. Conditions (R204, R232), wrapping and saturation (R203, R207, R229), and the floating-point flags
and traps (R38, R228). -/

namespace Sys2Proof.Machine

/-! ## Conditions -/

/-- A condition code of R204 on two 64-bit values. -/
def condS (c : Nat) (a b : DWord) : Bool :=
  match c with
  | 0 => a == b
  | 1 => a != b
  | 2 => decide (a.toInt < b.toInt)
  | 3 => decide (b.toInt ≤ a.toInt)
  | 4 => decide (a.toNat < b.toNat)
  | 5 => decide (b.toNat ≤ a.toNat)
  | 6 => decide (a.toInt ≤ b.toInt)
  | _ => decide (b.toInt < a.toInt)

/-- The codes ACMP accepts, on 72-bit unsigned values (R207). -/
def condA (c : Nat) (a b : VAddr) : Bool :=
  match c with
  | 0 => a == b
  | 1 => a != b
  | 4 => decide (a.toNat < b.toNat)
  | _ => decide (b.toNat ≤ a.toNat)

/-- A condition code of R232 on two exact integers. -/
def condV (c : Nat) (a b : Int) : Bool :=
  match c with
  | 0 => a == b
  | 1 => a != b
  | 2 => decide (a < b)
  | 3 => decide (b ≤ a)
  | 4 => decide (a ≤ b)
  | _ => decide (b < a)

/-! ## Narrowing -/

/-- wrap_n of an exact integer. -/
def wrapN (n : Nat) (x : Int) : Nat := (x % (2 ^ n : Nat)).toNat

/-- sat_n of an exact integer, within signed or unsigned bounds. -/
def satN (signed : Bool) (n : Nat) (x : Int) : Nat :=
  let lo : Int := if signed then -(2 ^ (n - 1) : Nat) else 0
  let hi : Int := if signed then (2 ^ (n - 1) : Nat) - 1 else (2 ^ n : Nat) - 1
  wrapN n (if x < lo then lo else if hi < x then hi else x)

/-- The integer n bits stand for. -/
def intN (signed : Bool) (n x : Nat) : Int := if signed then signedNat n x else ((x % 2 ^ n : Nat) : Int)

/-! ## Flags of sys.fpctl -/

/-- The arithmetic cause of a lane's exceptions, in the priority of the codes (R342). -/
def arithCause (f : Float.Flags) : Nat :=
  if bitB f 4 then 1 else if bitB f 3 then 2 else if bitB f 2 then 3 else if bitB f 1 then 4 else 5

/-- Sets sticky flags (R38). -/
def State.raiseFlags (s : State) (f : Float.Flags) : State :=
  if f = 0 then s else s.modW (fun w => { w with fpctl := w.fpctl ||| f.setWidth 64 })

end Sys2Proof.Machine
end

