-- ==== Sys2Proof/Machine/Operands.lean ====
section
/-! DEFINITION. The operands of lane words: register and immediate operands (R34, R36, R226), memory operands
(R15, R41), the values a run reads (R32), results in lanes (R225), and the split of faulting lanes from those that
run on (R181, R228). -/

namespace Sys2Proof.Machine

/-! ## Registers and immediates -/

/-- Bits of an operand of the word's type. -/
def opBits (f : LaneWord) : Nat := 32 * typeRegs f.tyN

/-- A register operand of the word's type in a lane. -/
def Warp.rd (w : Warp) (f : LaneWord) (r : BitVec 8) (l : Nat) : Nat := w.vWide r.toNat l (typeRegs f.tyN)

/-- EXT extended to the operand width: by sign for .i types, by zero for every other (R226). -/
def extImm (f : LaneWord) : Nat :=
  if isSigned f.tyN then wrapN (opBits f) f.ext.toInt else f.ext.toNat

/-- The second operand, a register or the immediate (R226). -/
def Warp.rdB (w : Warp) (f : LaneWord) (l : Nat) : Nat := if f.imm then extImm f else w.rd f f.b l

/-- The low bits of a register as a narrow integer type reads them, extended (R36). -/
def narrow (t x : Nat) : Nat :=
  match t with
  | 1 => wrapN 32 (signedNat 8 x)
  | 2 => wrapN 32 (signedNat 16 x)
  | 5 => x % 2 ^ 8
  | 6 => x % 2 ^ 16
  | _ => x

/-- A scalar register as the run reads it (R32). -/
def Run.sVal (r : Run) (n : Nat) : DWord := r.s.get n
def Run.aVal (r : Run) (n : Nat) : VAddr := r.a.get n

/-! ## Memory operands (R15, R41) -/

/-- The lane offset of a memory operand: zero when B is 0xFF. -/
def laneOff (w : Warp) (f : LaneWord) (l : Nat) : Int :=
  if f.b = 255 then 0 else signedNat 64 (w.vWide f.b.toNat l 2)

/-- The exact address of a lane (R15). -/
def laneEa (w : Warp) (r : Run) (f : LaneWord) (l : Nat) : Int :=
  ((r.aVal (f.extN 31 28)).toNat : Int) + laneOff w f l * (2 ^ f.extN 27 24 : Nat) + signedNat 24 f.ext.toNat

/-! ## Results in lanes (R225) -/

/-- One value for each lane, as results of n registers from D. -/
def laneWrites (d : BitVec 8) (n : Nat) (poison : Nat → Bool) (vs : List (Nat × Nat)) : List RegWrite :=
  (vs.map (fun x => (List.range n).map (fun j =>
    RegWrite.v (d.toNat + j) x.1 (BitVec.ofNat 32 (x.2 >>> (32 * j))) (poison x.1)))).flatten

/-- Destination registers of a result. -/
def vDests (d : BitVec 8) (n : Nat) : List Dest := (List.range n).map (fun j => Dest.v (d.toNat + j))

/-- The active lanes of the word, ascending. -/
def State.actLanes (s : State) (f : LaneWord) : List Nat := lanesOf (activeMask s.cw s.cp f)

/-- A form that gives one value of n registers in each active lane, from the warp as it stood before. -/
def perLane (i : Instr) (f : LaneWord) (n : Nat) (g : Warp → Run → Nat → Nat) (s : State) : Out :=
  laneOp i s (fun s =>
    let vs := (s.actLanes f).map (fun l => (l, g s.cw s.run l))
    s.modW (fun w => w.applyAll s.cur.2 (laneWrites f.d n (fun _ => false) vs)))

/-- A form that gives one bit of a predicate in each active lane; the dead-source bits are cleared (R225). -/
def perLanePred (i : Instr) (f : LaneWord) (g : Warp → Nat → Bool) (s : State) : Out :=
  laneOp i s (fun s =>
    let m := activeMask s.cw s.cp f
    let v := maskOf ((lanesOf m).filter (fun l => g s.cw l))
    s.modW (fun w => w.setPred f.d.toNat m v 0))

/-! ## Lanes that fault and lanes that run on -/

/-- Lanes that leave with a fault: the lanes, the record, the data they wait for and the page. -/
structure Split where
  lanes : Mask
  rcd : FaultRec
  waits : List (Nat × Nat × Mask) := []
  page : Option (Nat × Nat) := none
  deriving DecidableEq, Repr

/-- The issuing slot still holds the path that issued the word, or what is left of it. -/
def State.stillOurs (s : State) (before : Mask) : Bool :=
  match s.path? with
  | some p => p.mask &&& ~~~before == 0
  | none => false

/-- Raises each group in turn, while the path that issued the word holds its slot. -/
def State.raiseGroups (s : State) (before : Mask) : List Split → State
  | [] => s
  | g :: r =>
    if s.stillOurs before then
      ((s.raiseOn s.cur.1 s.cur.2 g.lanes g.rcd g.waits g.page).checkLatch (coreOf s.cur.1)).raiseGroups before r
    else s

def splitLanes (gs : List Split) : Mask := gs.foldl (fun m g => m ||| g.lanes) 0

/-- Splits faulting lanes away; the rest of the path, if any, then goes on. -/
def State.splitGo (s : State) (gs : List Split) (rest : State → State) : State :=
  let gs := gs.filter (fun g => g.lanes ≠ 0)
  if gs.isEmpty then rest s
  else
    let before := s.cp.mask
    let live := s.cp.liveMask s.cw
    let s' := s.raiseGroups before gs
    if live &&& ~~~splitLanes gs = 0 then s'
    else if s'.stillOurs before then rest s'
    else s'

/-- Splits faulting lanes away; the rest of the path, if any, then completes the word and moves on. -/
def State.splitThen (s : State) (gs : List Split) (rest : State → State) : State := s.splitGo gs (fun s => (rest s).advanceLane)

/-! ## Floating-point results (R228) -/

/-- One lane's result with the exceptions it raises. -/
abbrev FRes := Nat × (Nat × Float.Flags)

/-- The record of the arithmetic fault of some lanes: the highest-priority exception among them (R342). -/
def arithSplit (s : State) (bad : List FRes) : Split :=
  let traps := s.run.traps
  let causes := bad.map (fun x => arithCause (x.2.2 &&& traps))
  let c := causes.foldl min 5
  { lanes := maskOf (bad.map (·.1))
    rcd := {
      cls := 9, cause := BitVec.ofNat 8 c, lane := true, flpc := BitVec.ofNat 20 s.cp.lpc
      mask := maskOf ((bad.filter (fun x => arithCause (x.2.2 &&& traps) = c)).map (·.1)) } }

/-- Completes a floating-point form: lanes whose exception is trapped fault and write nothing, the flags of the
others are raised when it completes, and their results are visible after its lookahead (R45, R228). -/
def State.finishFloat (s : State) (f : LaneWord) (n : Nat) (rs : List FRes) : State :=
  let bad := rs.filter (fun x => x.2.2 &&& s.run.traps ≠ 0)
  let good := rs.filter (fun x => x.2.2 &&& s.run.traps = 0)
  s.splitThen [arithSplit s bad] (fun s =>
    let s := s.raiseFlags (good.foldl (fun a x => a ||| x.2.2) 0)
    s.result true f.la.toNat (vDests f.d n) (laneWrites f.d n (fun _ => false) (good.map (fun x => (x.1, x.2.1)))) [] none)

/-- A floating-point form by its result in a lane. -/
def floatForm (i : Instr) (f : LaneWord) (n : Nat) (g : Warp → Nat → Nat × Float.Flags) (s : State) : Out :=
  laneForm i s (fun s => s.finishFloat f n ((s.actLanes f).map (fun l => (l, g s.cw l))))

/-- Applies an element operation to both elements of a packed type, or to the one of a plain type (R233). -/
def elements (t : Nat) (g : Nat → Nat × Float.Flags) : Nat × Float.Flags :=
  if isPacked t then
    let x := g 0
    let y := g 1
    (x.1 + 2 ^ 16 * y.1, x.2 ||| y.2)
  else g 0

/-- Element j of an operand of a float type. -/
def element (t j x : Nat) : Nat := x >>> (16 * j) % 2 ^ (Float.ofType t).width

end Sys2Proof.Machine
end

