-- ==== Sys2Proof/Machine/Alu.lean ====
section
/-! DEFINITION. The arithmetic that atomics, bank updates, reductions and scans share (R62-R64, R142, R146,
R241-R243): no flags, no traps, canonical NaNs, subnormals kept. -/

namespace Sys2Proof.Machine

/-- Bits of a value of a type in an atomic or a reduction. -/
def aluBits (t : Nat) : Nat := 32 * typeRegs t

/-- Minimum or maximum of two patterns by type. -/
def aluMinMax (t : Nat) (isMax : Bool) (x y : Nat) : Nat :=
  if isFloat t then (Float.minMax (Float.ofType t) false isMax x y).1
  else
    let n := aluBits t
    let a := intN (isSigned t) n x
    let b := intN (isSigned t) n y
    if (if isMax then decide (a < b) else decide (b < a)) then y else x

/-- Sum of two patterns by type. -/
def aluAdd (t : Nat) (sat : Bool) (rm : Nat) (x y : Nat) : Nat :=
  if isFloat t then (Float.add (Float.ofType t) rm false x y).1
  else
    let n := aluBits t
    let v := intN (isSigned t) n x + intN (isSigned t) n y
    if sat then satN (isSigned t) n v else wrapN n v

/-- The new value of an atomic by operation code (R62): old, operand and compare. -/
def aluNew (op t : Nat) (sat : Bool) (rm : Nat) (old c cmp : Nat) : Nat :=
  match op with
  | 0 => aluAdd t sat rm old c
  | 1 => aluMinMax t false old c
  | 2 => aluMinMax t true old c
  | 3 => Nat.land old c
  | 4 => Nat.lor old c
  | 5 => Nat.xor old c
  | 6 => c
  | _ => if old = cmp then c else old

/-! ## Reductions -/

/-- One level of a fixed tree over neighbours. -/
def pairUp {α : Type} (op : α → α → α) : List α → List α
  | a :: b :: r => op a b :: pairUp op r
  | l => l

/-- A fixed tree of n levels. -/
def treeFold {α : Type} (op : α → α → α) : Nat → List α → List α
  | 0, l => l
  | n + 1, l => treeFold op n (pairUp op l)

/-- Reduces values in order by a fixed tree (R64, R241): integer add is exact and narrowed once. -/
def aluTree (op t : Nat) (sat : Bool) (rm levels : Nat) (xs : List Nat) : Nat :=
  if op = 0 && !isFloat t then
    let v := (xs.map (fun x => intN (isSigned t) (aluBits t) x)).sum
    if sat then satN (isSigned t) (aluBits t) v else wrapN (aluBits t) v
  else (treeFold (fun x y => aluNew op t false rm x y 0) levels xs).headD 0

/-- A reduced value as a scalar register holds it: .i32 sign-extended, others zero-extended (R241). -/
def toScalar (t x : Nat) : DWord := BitVec.ofNat 64 (if t = 3 then wrapN 64 (signedNat 32 x) else x)

end Sys2Proof.Machine
end

