-- ==== Sys2Proof/Machine/Access.lean ====
section
/-! DEFINITION. Accesses to memory by lanes and scalar streams: the tests of R22 lane by lane, watch ranges (R350,
R373), the L1 cache of drawer lines (R81, R149), drawer requests and link stalls (R82, R94), and the accesses the
race check keeps back (R136). -/

namespace Sys2Proof.Machine

/-! ## Causes -/

/-- Priority of a cause among failing lanes (R22, R140): lower goes first. DEDUCED (log 147): among the causes that R22 gives
one priority the first its row lists goes first, "align" with "wrap". -/
def xPriority (x : XFault) : Nat :=
  match x with
  | (1, 1) => 0
  | (2, 1) => 1
  | (2, 5) => 2
  | (2, 2) => 3
  | (2, 3) => 4
  | (2, 4) => 5
  | (1, 2) => 6
  | _ => 7

/-- A lane's access that has passed its tests. -/
structure LaneAcc where
  lane : Nat
  ea : VAddr
  pa : Nat
  deriving DecidableEq, Repr

/-- A lane whose address failed. -/
structure LaneBad where
  lane : Nat
  ea : VAddr
  why : XFault
  deriving DecidableEq, Repr

/-- Wrap, alignment and the system window, which need no lookup (R8, R15, R140). -/
def earlyFault (w : Nat) (ea : Int) : Option XFault :=
  if ea < 0 ∨ (2 ^ 72 : Nat) ≤ ea then some (2, 1)
  else if ea % w ≠ 0 then some (2, 5)
  else if ea.toNat / 2 ^ 68 = 15 then some (2, 2)
  else none

/-- Tests the addresses of lanes in turn (R16, R22). -/
def State.xlateLanes (s : State) (a : Agent) (w : Nat) (want : Want) :
    List (Nat × Int) → State × List LaneAcc × List LaneBad
  | [] => (s, [], [])
  | (l, ea) :: r =>
    let va := BitVec.ofInt 72 ea
    match earlyFault w ea with
    | some x =>
      let t := s.xlateLanes a w want r
      (t.1, t.2.1, { lane := l, ea := va, why := x } :: t.2.2)
    | none =>
      match translate s a va.toNat want with
      | (s, .error x) =>
        let t := State.xlateLanes s a w want r
        (t.1, t.2.1, { lane := l, ea := va, why := x } :: t.2.2)
      | (s, .ok h) =>
        let t := State.xlateLanes s a w want r
        (t.1, { lane := l, ea := va, pa := h.pa } :: t.2.1, t.2.2)

/-- The fault the failing lanes share: the highest-priority cause, the lanes that have it, the lowest one's address,
and for a migrate fault the page firmware is to move (R22, R23, R184). -/
def badSplit (s : State) (bad : List LaneBad) : Split :=
  let best := bad.foldl (fun m b => min m (xPriority b.why)) 8
  let have_ := bad.filter (fun b => xPriority b.why = best)
  let why := match have_ with | b :: _ => b.why | [] => (0, 0)
  let ea := match have_ with | b :: _ => b.ea | [] => 0
  let mig := why == (1, 3)
  { lanes := maskOf (bad.map (·.lane))
    rcd := {
      cls := BitVec.ofNat 8 why.1, cause := BitVec.ofNat 8 why.2, lane := true, dev := mig, addr := ea
      mask := maskOf (have_.map (·.lane)), flpc := BitVec.ofNat 20 s.cp.lpc }
    page := if mig then some (s.cw.ctx, ea.toNat / 65536) else none }

/-! ## Watch ranges (R350, R373) -/

/-- Watch range i of a context is armed and takes accesses of this kind. -/
def watchOn (c : Ctx) (i : Nat) (canvas wr : Bool) : Bool :=
  let w1 := c.dbgwa.get (2 * i + 1)
  bitB c.dbgctl 63 && bitB c.dbgctl 61 && bitB w1 63 && bitB w1 (if wr then 61 else 62) && (bitB w1 60 == canvas)

/-- An access of n bytes touches an armed range. -/
def watchHit (c : Ctx) (t : Team) (canvas wr : Bool) (a n : Nat) : Bool :=
  (List.range 4).any (fun i =>
    watchOn c i canvas wr &&
      (let w1 := c.dbgwa.get (2 * i + 1)
       let lo := (c.dbgwa.get (2 * i)).toNat + (if canvas then 0 else bitsN w1 39 32 * 2 ^ 64)
       (!canvas || bitsN w1 55 40 == bitsN t.teamid 15 0) && decide (a < lo + bitsN w1 31 0 + 1 ∧ lo < a + n)))

/-- An access that reads or writes (or both) touches an armed range; the code of the direction that hits. -/
def watchCode (c : Ctx) (t : Team) (canvas rd wr : Bool) (a n : Nat) : Option Nat :=
  if rd && watchHit c t canvas false a n then some 1 else if wr && watchHit c t canvas true a n then some 2 else none

/-- The split of lanes that hit watch ranges. -/
def watchSplit (s : State) (hits : List (Nat × VAddr × Nat)) : Split :=
  let code := match hits with | h :: _ => h.2.2 | [] => 0
  let ea := match hits with | h :: _ => h.2.1 | [] => 0
  { lanes := maskOf (hits.map (·.1))
    rcd := {
      cls := 6, cause := BitVec.ofNat 8 code, lane := true, addr := ea
      mask := maskOf ((hits.filter (fun h => h.2.2 = code)).map (·.1)), flpc := BitVec.ofNat 20 s.cp.lpc } }

/-- A watch hit of a form that acts once: a path fault of the whole path (R342, R350). -/
def watchPath (s : State) (ea : VAddr) (code : Nat) : Split :=
  let g := watchSplit s ((lanesOf (s.cp.liveMask s.cw)).map (fun l => (l, ea, code)))
  { g with rcd := { g.rcd with lane := false } }

/-! ## Drawer lines in L1 (R81, R149) -/

def State.l1Line (s : State) (core pa : Nat) : Option Line := (s.core core).l1.find? (fun e => e.n == pa / 64)

/-- The block a read returns fills the lines of its core's L1 that nothing has dropped since it was asked for (R81,
R149). -/
def State.fillLines (s : State) (r : Req) (bad : Bool) : State :=
  match r.core with
  | none => s
  | some core =>
    r.lines.foldl (fun s n =>
      let (d, s) := s.draw
      let x : Line := { n := n, data := BitVec.ofNat 512 (ofBytes ((r.data.drop (64 * n - r.addr)).take 64)), bad := bad || poisoned s.mem.poison (64 * n) 64 }
      s.modCore core (fun c => { c with l1 := capped 4096 d (c.l1.filter (fun e => e.n ≠ n)) x })) s

/-- Reads n bytes of one access at a physical address, from L1 where a drawer line is held. -/
def State.readPa (s : State) (core : Option Nat) (pa n : Nat) : Nat :=
  match core with
  | some c =>
    if isDrawer pa then
      match s.l1Line c pa with
      | some x => bitsN x.data (8 * (pa % 64) + 8 * n - 1) (8 * (pa % 64))
      | none => s.mem.bytes.readNat pa n
    else s.mem.bytes.readNat pa n
  | none => s.mem.bytes.readNat pa n

/-- The same bytes are data the memory could not correct. -/
def State.readBad (s : State) (core : Option Nat) (pa n : Nat) : Bool :=
  match core.bind (fun c => if isDrawer pa then s.l1Line c pa else none) with
  | some x => x.bad
  | none => poisoned s.mem.poison pa n

/-! ## Drawer requests -/

/-- Reservation class of a team's requests (R83). -/
def State.teamClass (s : State) : Nat := s.cteam.cls.toNat

/-- Physical addresses rounded down to blocks, in rising order, each once. -/
def blocksOf (size : Nat) (pas : List Nat) : List Nat :=
  pas.foldl (fun bs pa =>
    let b := pa / size
    if bs.contains b then bs else (bs.filter (fun x => x < b)) ++ b :: bs.filter (fun x => b < x)) []

/-- Drawer accesses among those of lanes that miss in the core's L1. -/
def State.misses (s : State) (core : Option Nat) (xs : List HeldLane) : List (Nat × Nat) :=
  (xs.filter (fun x => isDrawer x.pa && (match core with | some c => (s.l1Line c x.pa).isNone | none => true))).map (fun x => (x.lane, x.pa))

/-- Reads of the drawer blocks that lanes miss, each with the lanes that wait for it. -/
def loadReqs (cls : Nat) (core : Option Nat) (xs : List (Nat × Nat)) : List (Req × Mask) :=
  (blocksOf 256 (xs.map (·.2))).map (fun b =>
    (readReq cls (b * 256) 0 core, maskOf ((xs.filter (fun x => x.2 / 256 = b)).map (·.1))))

/-- Masked writes of the drawer halves that lanes store to; their enables are the bytes the lanes write. -/
def storeReqs (cls : Nat) (xs : List HeldLane) : List (Req × Mask) :=
  let xs := xs.filter (fun x => isDrawer x.pa)
  (blocksOf 128 (xs.map (·.pa))).map (fun b =>
    let ys := xs.filter (fun x => x.pa / 128 = b)
    ({ id := 0, kind := 2, addr := b * 128, cls := cls
       be := ys.foldl (fun m y => m ||| enables (y.pa % 128) y.data.length) 0 },
     maskOf (ys.map (·.lane))))

/-- One atomic command for each lane, in ascending address order (R81, R85). -/
def atomicReqs (cls : Nat) (cmd : HeldLane → AmoCmd) (xs : List HeldLane) : List (Req × Mask) :=
  let xs := xs.filter (fun x => isDrawer x.pa)
  ((blocksOf 4 (xs.map (·.pa))).map (fun b =>
    (xs.filter (fun x => x.pa / 4 = b)).map (fun x =>
      ({ id := 0, kind := 3, addr := x.pa, cls := cls, amo := some (cmd x) }, 1#128 <<< x.lane)))).flatten

/-- The next request of an access finds room behind those of its requests that come before it (R81, R82). -/
def State.findsRoom (s : State) (before : List (Req × Mask)) (r : Req) : Bool :=
  let l := s.link (linkOf r.addr)
  l.waiting.isEmpty && decide (l.queue.length + (before.filter (fun x => linkOf x.1.addr = linkOf r.addr)).length < 192)

/-- Lanes whose requests find no room on links that retrain: they split at the instruction itself (R94). -/
def State.stalledMask (s : State) (rs : List (Req × Mask)) : Mask :=
  (rs.zipIdx).foldl (fun m x =>
    if (s.link (linkOf x.1.1.addr)).st = .retrain && !s.findsRoom (rs.take x.2) x.1.1 then m ||| x.1.2 else m) 0

/-- The split of stalled lanes, with the links they wait for. -/
def stallSplit (s : State) (m : Mask) (rs : List (Req × Mask)) : Split :=
  { lanes := m
    waits := (rs.filter (fun r => r.2 &&& m ≠ 0)).map (fun r => (linkOf r.1.addr, 0, r.2 &&& m))
    rcd := { cls := 7, cause := 1, lane := true, dev := true, mask := m, flpc := BitVec.ofNat 20 s.cp.lpc } }

/-- Every access of the path that precedes is performed: nothing is still on its way (R121, R142). -/
def State.performed (s : State) : Bool := s.cp.windows.all Window.complete

/-! ## The race check of an access (R135-R138) -/

/-- ONCE is used up by the warp's next plain access (R138). -/
def Warp.useOnce (w : Warp) : Warp :=
  let clearRun (r : Run) : Run := { r with racectl := r.racectl &&& 1 }
  let clearPath (p : Path) : Path := { p with queue := p.queue.map clearRun }
  { w with
    racectl := putBit w.racectl 1 false
    slot0 := w.slot0.map clearPath
    slot1 := w.slot1.map clearPath
    stack := w.stack.map (fun e => { e with path := clearPath e.path }) }

/-- Checks lanes one by one: those that pass, those that fail, and the stamp the first failure met. -/
def State.raceLanes (s : State) (off canvas : Bool) (n : Nat) :
    List LaneAcc → State × List LaneAcc × List LaneAcc × Option (BitVec 128)
  | [] => (s, [], [], none)
  | x :: r =>
    match s.raceOk s.cur.1 off canvas x.pa n with
    | (none, s) =>
      let t := State.raceLanes s off canvas n r
      (t.1, x :: t.2.1, t.2.2.1, t.2.2.2)
    | (some st, s) =>
      let t := State.raceLanes s off canvas n r
      (t.1, t.2.1, x :: t.2.2.1, some st)

/-- What is kept of the lanes that failed. -/
def holdOf (scalar canvas store : Bool) (n ty dest : Nat) (data : Nat → List Byte) (bad : List LaneAcc)
    (st : Option (BitVec 128)) : Option RaceHold :=
  match st with
  | none => none
  | some st => some {
      scalar := scalar, canvas := canvas, store := store, width := n, ty := ty, dest := dest
      lanes := bad.map (fun x => { lane := x.lane, ea := x.ea, pa := x.pa, data := data x.lane })
      wr := stWr st, iv := stIv st }

/-- Performs a store of one lane's bytes: counts, stamps, L1 (R99, R135, R149). -/
def State.storePa (s : State) (canvas : Bool) (pa : Nat) (bs : List Byte) : State :=
  if canvas then (s.modMem (·.storeCanvas pa bs)).stampPlain s.cur.1 true pa bs.length
  else ((s.modMem (·.store pa bs)).stampPlain s.cur.1 false pa bs.length).dropLines (coreOf s.cur.1) pa bs.length

/-- Register values of a load of a type (R36). -/
def loadWrites (d ty : Nat) (l x : Nat) (bad : Bool) : List RegWrite :=
  laneWrites (BitVec.ofNat 8 d) (typeRegs ty) (fun _ => bad) [(l, narrow ty x)]

/-- A scalar load's value by its size code (R44). -/
def sizeBytes (z : Nat) : Nat :=
  match z with
  | 0 | 4 => 1
  | 1 | 5 => 2
  | 2 | 6 => 4
  | 8 => 16
  | _ => 8

def scalarValue (z x : Nat) : DWord :=
  BitVec.ofNat 64 (match z with
    | 4 => wrapN 64 (signedNat 8 x)
    | 5 => wrapN 64 (signedNat 16 x)
    | 6 => wrapN 64 (signedNat 32 x)
    | _ => x)

end Sys2Proof.Machine
end

