-- ==== Sys2Proof/Machine/Control.lean ====
section
/-! DEFINITION. Meanings of control transfers (R208-R212), divergence (R175-R180), and lane issue (R213, R214). -/

namespace Sys2Proof.Machine

/-! ## Branches (R208, R209, R212) -/

/-- The PC by a signed word offset. -/
def State.target {n : Nat} (s : State) (o : BitVec n) : VAddr := s.cp.pc + (o.signExtend 72 <<< 2)

def execBr (o : BitVec 22) (s : State) : Out := scalarForm (.br o) s (fun s => s.goto (s.target o))

def execBq (q : BitVec 3) (sn : BitVec 1) (o : BitVec 22) (s : State) : Out :=
  scalarForm (.bq q sn o) s (fun s => if s.qReg q = (sn == 1) then s.goto (s.target o) else s.advance)

/-- The return word offset (R208). -/
def State.returnOff (s : State) : DWord :=
  BitVec.ofInt 64 (((s.cp.pc.toNat : Int) + 4 - textbaseN s.cctx) / 4)

/-- The address of an unsigned word offset from the text base (R209). -/
def State.textAddr (s : State) (off : DWord) : VAddr := BitVec.ofNat 72 (textbaseN s.cctx + 4 * off.toNat)

def execCall (o : BitVec 22) (s : State) : Out :=
  scalarForm (.call o) s (fun s => (s.setS 63 s.returnOff).goto (s.target o))

def execCalli (a : BitVec 6) (s : State) : Out :=
  scalarForm (.calli a) s (fun s => (s.setS 63 s.returnOff).goto (s.textAddr (s.sReg a)))

def execRet (s : State) : Out := scalarForm .ret s (fun s => s.goto (s.textAddr (s.sReg 63)))

def execLoop (d : BitVec 6) (i : BitVec 14) (s : State) : Out :=
  scalarForm (.loop d i) s (fun s =>
    let x := s.sReg d - 1
    let t := s.target i
    let s := s.setS d x
    if x = 0 then s.advance else s.goto t)

/-- The path is not eligible for a count of cycles, then goes on (R209). -/
def execNap (a : BitVec 6) (s : State) : Out :=
  scalarForm (.nap a) s (fun s =>
    let n := min (s.sReg a).toNat 16777215
    let s := s.advance
    if n = 0 then s
    else s.modP (fun p => { p with nap := (s.dieTime (dieOf s.cur.1) + BitVec.ofNat 64 (5 * n)).toNat + 1, stall := 13 }))

/-! ## Divergence -/

/-- Every run of the path has completed. -/
def State.runsDone (s : State) : Bool := s.cp.queue.isEmpty

/-- A body that waits until every run of the path has completed (R376, code 14). -/
def afterRuns (body : State → State) (s : State) : State := if s.runsDone then body s else s.wait 14

/-- Lanes of the live mask whose value bit of a predicate equals a sense (R175). -/
def takenLanes (w : Warp) (p : Path) (n : Nat) (sense : Bool) : Mask :=
  p.liveMask w &&& (if sense then w.pred n else ~~~w.pred n)

/-- The effect of BRD (R175, R176, R210). -/
def State.diverge (s : State) (n : Nat) (sense : Bool) (taken join : VAddr) : State :=
  let w := s.cw
  let p := s.cp
  let live := p.liveMask w
  let t := takenLanes w p n sense
  let f := live &&& ~~~t
  let other := 1 - s.cur.2
  let split := t ≠ 0 && f ≠ 0
  let push := split && (w.slot other).isSome
  match w.jrecs.freeKey 0 12 with
  | none => s.scalarFault 0x10 1 0 0
  | some k =>
    if w.stackFree < (if push then 2 else 1) then s.scalarFault 0x10 1 0 0
    else
      let j : JoinRec := { addr := join, mask := live, prev := p.jrec, prevSideT := p.sideT, frag := p.frag }
      let s := s.modW (fun w => { w with jrecs := w.jrecs.put k j })
      if t = 0 then (s.modP (fun p => { p with jrec := some k, sideT := false })).advance
      else if f = 0 then (s.modP (fun p => { p with jrec := some k, sideT := true })).goto taken
      else
        let side : Path := { pc := taken, mask := t, s := p.s, q := p.q, jrec := some k, sideT := true, sent := p.sent, twin := p.twin }
        let idx := if push then w.stack.length else other
        let s := (s.modP (fun p => { p with mask := f, jrec := some k, sideT := false })).advance
        let s := s.modW (fun w =>
          if push then { w with stack := { yielded := false, path := side } :: w.stack } else w.occupy other side)
        s.trace s.cur.1 0 s.cur.2 s.cp 1 (BitVec.ofNat 64 idx)

def execBrd (p : BitVec 3) (sn : BitVec 1) (t j : BitVec 11) (s : State) : Out :=
  scalarForm (.brd p sn t j) s (afterRuns (fun s => s.diverge p.toNat (sn == 1) (s.target t) (s.target j)))

/-- A fragment whose lanes have reached its join keeps its entry until their merge (R186). -/
def waitAt (fs : Tab Frag) (p : Path) (k : Nat) : Tab Frag :=
  match p.frag.bind (fun e => (fs.find e).map (fun f => (e, f))) with
  | some (e, f) => fs.put e { f with joined := some k, path := p }
  | none => fs

/-- The path's lanes arrive at its innermost record, if it stands at that record's join (R178, R179). -/
def State.arriveJoin (s : State) : State :=
  let p := s.cp
  match p.jrec.bind (fun k => (s.cw.jrecs.find k).map (fun j => (k, j))) with
  | none => s.advance
  | some (k, j) =>
    if p.pc ≠ j.addr then s.advance
    else
      let better := match j.copy with
        | none => true
        | some c => decide (joinRank p < c.1)
      let j := { j with
        arrived := j.arrived ||| p.liveMask s.cw
        copy := if better then some (joinRank p, p.s, p.q) else j.copy
        sent := j.sent ++ p.sent.filter (fun r => !j.sent.contains r) }
      let s := s.progress.modW (fun w => { w.setSlot s.cur.2 none with jrecs := w.jrecs.put k j })
      let s := if p.frag = j.frag then s else s.modCore (coreOf s.cur.1) (fun c => { c with frags := waitAt c.frags p k })
      (s.checkJoin s.cur.1 k).fillSlots s.cur.1

def execJoin (s : State) : Out := scalarForm .join s (afterRuns State.arriveJoin)

/-- The path's lanes exit and it gives up its slot (R180, R369). -/
def State.exitPath (s : State) : State :=
  let p := s.cp
  let s := s.progress.modW (fun w => if s.cur.2 = 0 then { w with exit0 := some p.pc } else { w with exit1 := some p.pc })
  (s.exitLanes s.cur.1 p.mask).checkLatch (coreOf s.cur.1)

/-- EXIT; in the Prologue Unit it ends the run and makes the launch once (R180, R222). -/
def execExit (s : State) : Out :=
  scalarForm .exit s (fun s => if s.inPu then s.puEnd false false else afterRuns State.exitPath s)

/-- A path gives its slot to the newest spilled path, or to the oldest READY fragment when an entry is free (R193,
R211). -/
def State.yieldSlot (s : State) (wid k : Nat) : State :=
  match s.warps.find wid, s.pathAt wid k with
  | some w, some p =>
    let me : StackEntry := { yielded := true, path := p }
    match w.stack.find? (fun e => !e.yielded) with
    | some e => s.putWarp wid ({ w with stack := me :: w.stack.erase e }.occupy k e.path)
    | none =>
      match oldestReady (s.core (coreOf wid)) wid with
      | some (e, _) =>
        if 0 < w.stackFree then (s.putWarp wid ({ w with stack := me :: w.stack }.setSlot k none)).takeFrag wid k e else s
      | none => s
  | _, _ => s

def execYield (s : State) : Out :=
  scalarForm .yield s (afterRuns (fun s =>
    let s := s.advance
    if 0 < s.cw.stackFree then s.yieldSlot s.cur.1 s.cur.2 else s))

/-! ## Lane issue (R213, R214) -/

/-- The run an LRUN places, with the values it reads (R32, R219). -/
def State.newRun (s : State) (c : BitVec 6) (o : BitVec 20) : Run :=
  let w := s.cw
  { off := o.toNat
    count := if c = 0 then 64 else c.toNat
    s := w.s.slice 0 32 ++ s.cp.s.slice 32 32
    a := w.a
    traps := BitVec.ofNat 5 (bitsN w.fpctl 36 32)
    racectl := BitVec.ofNat 2 (bitsN w.racectl 1 0)
    id := s.names }

def execLrun (c : BitVec 6) (o : BitVec 20) (s : State) : Out :=
  scalarForm (.lrun c o) s (fun s =>
    if 8 ≤ s.cp.queue.length then s.wait 14
    else
      let r := s.newRun c o
      (({ s with names := s.names + 1 }).modP (fun p => { p with queue := p.queue ++ [r] })).advance)

def execLsync (s : State) : Out := scalarForm .lsync s (afterRuns State.advance)

end Sys2Proof.Machine
end

