-- ==== Sys2Proof/Machine/Memory.lean ====
section
/-! DEFINITION. Meanings of the global and scalar memory forms and the fences (R139-R147). -/

namespace Sys2Proof.Machine

/-- Lanes and exact addresses of a memory word. -/
def State.laneEas (s : State) (f : LaneWord) : List (Nat × Int) :=
  (s.actLanes f).map (fun l => (l, laneEa s.cw s.run f l))

/-- Lanes that pass the tests of a global access, with the splits of those that do not (R22, R350). -/
def State.globalLanes (s : State) (f : LaneWord) (w : Nat) (want : Want) (rd : Bool) : State × List LaneAcc × List Split :=
  let r := s.xlateLanes s.agent w want (s.laneEas f)
  let s := r.1
  let hits := r.2.1.filterMap (fun x => (watchCode s.cctx s.cteam false rd (!rd) x.ea.toNat w).map (fun c => (x.lane, x.ea, c)))
  (s, r.2.1.filter (fun x => !hits.any (fun h => h.1 = x.lane)), [badSplit s r.2.2, watchSplit s hits])

/-- Exemption of the run's plain accesses from the check, and the use of ONCE (R138, R219). -/
def State.laneOff (s : State) : Bool := bitB s.run.racectl 0 || bitB s.run.racectl 1
def State.spendOnce (s : State) (some_ : Bool) : State :=
  if !some_ || !bitB s.run.racectl 1 then s else s.modW Warp.useOnce

/-- A scalar access is exempt; the Prologue Unit is no warp and is not checked (R132, R138). -/
def State.scalarOff (s : State) : Bool := s.inPu || bitB s.cw.racectl 0 || bitB s.cw.racectl 1

/-- The class of a scalar request: the team's, or the queue's for the Prologue Unit (R83). -/
def State.scalarClass (s : State) : Nat :=
  match s.pu with
  | some r => if s.inPu then s.queueClass r.ctx r.q else s.teamClass
  | none => s.teamClass

/-! ## The parts of an access (R82, R121) -/

def HeldLane.acc (x : HeldLane) : LaneAcc := { lane := x.lane, ea := x.ea, pa := x.pa }

/-- Bytes that a lane's access carries. -/
def dataOf (xs : List HeldLane) (l : Nat) : List Byte := match xs.find? (fun x => x.lane = l) with | some x => x.data | none => []

/-- What the race check keeps back of two parts of one access. -/
def joinHold (a b : Option RaceHold) : Option RaceHold :=
  match a, b with
  | some x, some y => some { x with lanes := x.lanes ++ y.lanes }
  | some x, none => some x
  | none, y => y

/-- Lanes of a load are performed: their values, and those the race check keeps back (R135, R140). -/
def State.actLoad (s : State) (a : Access) (f : LaneWord) (ys : List HeldLane) : State × Access :=
  let core := some (coreOf s.cur.1)
  let w := typeBytes f.tyN
  let r := s.raceLanes a.off false w (ys.map HeldLane.acc)
  let vals := r.2.1.map (fun x => (x.lane, narrow f.tyN (r.1.readPa core x.pa w)))
  let pz (l : Nat) : Bool := match r.2.1.find? (fun x => x.lane = l) with | some x => r.1.readBad core x.pa w | none => false
  (r.1, { a with
    writes := a.writes ++ laneWrites f.d (typeRegs f.tyN) pz vals
    race := joinHold a.race (holdOf false false false w f.tyN f.d.toNat (fun _ => []) r.2.2.1 r.2.2.2) })

/-- The bytes a lane stores. -/
def storeBytes (w : Warp) (f : LaneWord) (n l : Nat) : List Byte := bytesOf n (w.rd f f.c l)

/-- Lanes of a store are performed that pass the race check, in ascending order (R126, R140). -/
def State.actStore (s : State) (a : Access) (f : LaneWord) (ys : List HeldLane) : State × Access :=
  let n := typeBytes f.tyN
  let r := s.raceLanes a.off false n (ys.map HeldLane.acc)
  (r.2.1.foldl (fun s x => s.storePa false x.pa (dataOf ys x.lane)) r.1,
   { a with race := joinHold a.race (holdOf false false true n f.tyN 0 (dataOf ys) r.2.2.1 r.2.2.2) })

/-- Whether an atomic write of this ordering and scope stamps a release, and with which scope (R130, R143). -/
def State.releaseScope (s : State) (ord scope : Nat) : Option Nat :=
  if 2 ≤ ord then some scope else s.cp.relFence

/-- What an atomic's being a release does before its accesses: the interval rises (R130, R134). -/
def State.beforeAtomic (s : State) (ord : Nat) : State :=
  if 2 ≤ ord || s.cp.relFence.isSome then s.releaseW s.cur.1 else s

/-- And after them: what an acquire records, or what the path keeps for a later acquire fence (R130, R134). -/
def State.afterAtomic (s : State) (ord scope : Nat) (sts : List (Option (BitVec 128))) : State :=
  let acq := ord % 2 = 1
  let rel := decide (2 ≤ ord) || s.cp.relFence.isSome
  if acq then s.acquireP scope sts
  else if rel then s.modP (fun p => { p with relFence := none, acqReads := sts })
  else s.modP (fun p => { p with acqReads := p.acqReads ++ sts })

/-- One lane's atomic on memory: the old value, the write with its count and stamp (R99, R135). -/
def State.atomicPa (s : State) (canvas : Bool) (pa n new : Nat) (rel : Option Nat) : State :=
  if canvas then (s.modMem (·.storeCanvas pa (bytesOf n new))).stampAtomic s.cur.1 true pa n rel
  else ((s.modMem (·.store pa (bytesOf n new))).stampAtomic s.cur.1 false pa n rel).dropLines (coreOf s.cur.1) pa n

/-- The bytes of canvas or memory, and their poison marks. -/
def Mem.side (m : Mem) (canvas : Bool) : Cells 8 := if canvas then m.canvas else m.bytes
def Mem.sidePoison (m : Mem) (canvas : Bool) : Cells 1 := if canvas then m.canvasPoison else m.poison

/-- Operand and compare value of a lane's atomic, as bytes. -/
def amoData (w : Warp) (f : LaneWord) (n l : Nat) : List Byte := bytesOf n (w.rd f f.c l) ++ bytesOf n (w.rd f f.a l)
def HeldLane.operand (x : HeldLane) (n : Nat) : Nat := ofBytes (x.data.take n)
def HeldLane.compare (x : HeldLane) (n : Nat) : Nat := ofBytes (x.data.drop n)

/-- Atomics of lanes, in ascending order (R62, R126, R142): old values, the stamps found, and what is written. -/
def State.amoLanes (s : State) (canvas : Bool) (rel : Option Nat) (f : LaneWord) (ys : List HeldLane) :
    State × List (Nat × Nat) × List (Option (BitVec 128)) × List Nat :=
  let n := typeBytes f.tyN
  ys.foldl (fun (r : State × List (Nat × Nat) × List (Option (BitVec 128)) × List Nat) x =>
      let s := r.1
      let old := (s.mem.side canvas).readNat x.pa n
      let st := s.releaseStamp canvas x.pa n
      let pz := if poisoned (s.mem.sidePoison canvas) x.pa n then [x.lane] else []
      let new := aluNew (f.mdN 4 2) f.tyN (f.sat == 1) f.rnd.toNat old (x.operand n) (x.compare n)
      (s.atomicPa canvas x.pa n new rel, r.2.1 ++ [(x.lane, old)], r.2.2.1 ++ [st], r.2.2.2 ++ pz)) (s, [], [], [])

/-- Lanes of an atomic are performed. -/
def State.actAmo (s : State) (a : Access) (f : LaneWord) (ys : List HeldLane) : State × Access :=
  let r := s.amoLanes false a.rel f ys
  (r.1, { a with
    writes := a.writes ++ laneWrites f.d (typeRegs f.tyN) (fun l => r.2.2.2.contains l) r.2.1
    stamps := a.stamps ++ r.2.2.1 })

/-- A canvas atomic: before its accesses, its lanes, and after them. -/
def State.canvasAmo (s : State) (scope : Nat) (f : LaneWord) (xs : List HeldLane) : State × List RegWrite :=
  let ord := f.mdN 1 0
  let rel := s.releaseScope ord scope
  let s := if xs.isEmpty then s else s.beforeAtomic ord
  let r := s.amoLanes true rel f xs
  (if xs.isEmpty then r.1 else r.1.afterAtomic ord scope r.2.2.1,
   laneWrites f.d (typeRegs f.tyN) (fun l => r.2.2.2.contains l) r.2.1)

/-- A scalar load of n bytes is performed; data the memory could not correct kills the warp (R359). -/
def State.actScalarLoad (s : State) (a : Access) (n ty dest : Nat) (x : HeldLane) (wr : Nat → RegWrite) : State × Access :=
  let core := if s.inPu then none else some (coreOf s.cur.1)
  if s.readBad core x.pa n && !s.inPu then (s.killWarp s.cur.1, { a with kill := true })
  else
    let r := s.raceOk s.cur.1 a.off false x.pa n
    match r.1 with
    | some st => (r.2, { a with race := holdOf true false false n ty dest (fun _ => []) [x.acc] (some st) })
    | none => (r.2, { a with writes := [wr (r.2.readPa core x.pa n)] })

/-- A scalar store of bytes is performed. -/
def State.actScalarStore (s : State) (a : Access) (x : HeldLane) : State × Access :=
  let r := s.raceOk s.cur.1 a.off false x.pa x.data.length
  match r.1 with
  | some st => (r.2, { a with race := holdOf true false true x.data.length 0 0 (fun _ => x.data) [x.acc] (some st) })
  | none => (r.2.storePa false x.pa x.data, a)

/-- The new value of a scalar atomic (R146). -/
def samoNew (o : Nat) (old b d : DWord) : DWord :=
  match o with
  | 0 => old + b
  | 1 => if decide (b.toNat < old.toNat) then b else old
  | 2 => if decide (b.toInt < old.toInt) then b else old
  | 3 => if decide (old.toNat < b.toNat) then b else old
  | 4 => if decide (old.toInt < b.toInt) then b else old
  | 5 => old &&& b
  | 6 => old ||| b
  | 7 => old ^^^ b
  | 8 => b
  | _ => if old = d then b else old

/-- A scalar atomic is performed, whose operands are s[b] and s[d]. -/
def State.actSamo (s : State) (a : Access) (d : BitVec 6) (o : Nat) (x : HeldLane) : State × Access :=
  if poisoned s.mem.poison x.pa 8 then (s.killWarp s.cur.1, { a with kill := true })
  else
    let old : DWord := BitVec.ofNat 64 (s.mem.bytes.readNat x.pa 8)
    let new := samoNew o old (BitVec.ofNat 64 (x.operand 8)) (BitVec.ofNat 64 (x.compare 8))
    (s.atomicPa false x.pa 8 new.toNat a.rel,
     { a with writes := [.s d.toNat old], stamps := [s.releaseStamp false x.pa 8] })

/-- The command of a lane atomic, and that of a SAMO (R85). -/
def laneCmd (f : LaneWord) (x : HeldLane) : AmoCmd :=
  let n := typeBytes f.tyN
  { op := BitVec.ofNat 8 (f.mdN 4 2), size := BitVec.ofNat 8 n, off := BitVec.ofNat 8 x.pa, ty := BitVec.ofNat 8 f.tyN
    mods := BitVec.ofNat 8 (f.sat.toNat + 2 * f.rnd.toNat), operand := BitVec.ofNat 64 (x.operand n)
    compare := if f.mdN 4 2 = 7 then BitVec.ofNat 64 (x.compare n) else 0 }

def samoCmd (o : Nat) (x : HeldLane) : AmoCmd :=
  let code := match o with | 0 => 0 | 1 | 2 => 1 | 3 | 4 => 2 | 5 => 3 | 6 => 4 | 7 => 5 | 8 => 6 | _ => 7
  let ty := match o with | 0 | 1 | 3 => 0x08 | 2 | 4 => 0x04 | _ => 0x0A
  { op := BitVec.ofNat 8 code, size := 8, off := BitVec.ofNat 8 x.pa, ty := BitVec.ofNat 8 ty, mods := 0
    operand := BitVec.ofNat 64 (x.operand 8), compare := if o = 9 then BitVec.ofNat 64 (x.compare 8) else 0 }

/-- Requests of an access, each with the lanes that wait for what it returns (R81). -/
def State.accessReqs (s : State) (i : Instr) (xs : List HeldLane) : List (Req × Mask) :=
  let core := if s.inPu then none else some (coreOf s.cur.1)
  match i with
  | .vld _ => loadReqs s.teamClass core (s.misses core xs)
  | .vst _ => storeReqs s.teamClass xs
  | .vamo _ f => atomicReqs s.teamClass (laneCmd f) xs
  | .sld .. | .slda .. => loadReqs s.scalarClass core (s.misses core xs)
  | .sst .. | .ssta .. => storeReqs s.scalarClass xs
  | .samo _ _ _ o _ _ => atomicReqs s.scalarClass (samoCmd o.toNat) xs
  | _ => []

/-- Ordering and scope of an access that is an atomic. -/
def atomicOrder : Instr → Option (Nat × Nat)
  | .vamo sc f => some (f.mdN 1 0, sc.toNat)
  | .samo _ _ _ _ r sc => some (r.toNat, sc.toNat)
  | _ => none

/-- An access begins: a plain one uses up ONCE, and an atomic release raises the interval (R130, R134, R138). -/
def State.beginAccess (s : State) (lane : Bool) (k : Nat) (dests : List Dest) (i : Instr) (xs : List HeldLane) : State × Access :=
  let a : Access := { i := i, lane := lane, k := k, dests := dests, xs := xs, off := if lane then s.laneOff else s.scalarOff }
  match atomicOrder i with
  | some (ord, scope) => (if xs.isEmpty then s else s.beforeAtomic ord, { a with rel := s.releaseScope ord scope })
  | none => (if lane then s.spendOnce (!xs.isEmpty) else if s.inPu then s else s.modW Warp.useOnce, a)

/-- Lanes of an access are performed. -/
def State.act (s : State) (a : Access) (ys : List HeldLane) : State × Access :=
  let a := { a with xs := a.xs.filter (fun x => !ys.contains x) }
  match a.i, ys with
  | .vld f, _ => s.actLoad a f ys
  | .vst f, _ => s.actStore a f ys
  | .vamo _ f, _ => s.actAmo a f ys
  | .sld d _ z _ _, y :: _ =>
    s.actScalarLoad a (sizeBytes z.toNat) z.toNat d.toNat y (fun x => .s d.toNat (scalarValue z.toNat x))
  | .slda d _ z _ _, y :: _ =>
    s.actScalarLoad a (sizeBytes z.toNat) (16 + z.toNat) d.toNat y (fun x => .a d.toNat (BitVec.ofNat 72 x))
  | .sst .., y :: _ | .ssta .., y :: _ => s.actScalarStore a y
  | .samo d _ _ o _ _, y :: _ => s.actSamo a d o.toNat y
  | _, _ => (s, a)

def isStore : Instr → Bool
  | .vst _ | .sst .. | .ssta .. => true
  | _ => false

/-- A request of an access enters its queue: its lanes are performed with it, and the window will wait for what a load or an
atomic returns (R82, R89, R121). -/
def State.enterPart (s : State) (a : Access) (r : Req) (m : Mask) : State × Access :=
  let x := s.act a (a.xs.filter (fun x => bitB m x.lane))
  if x.2.kill then x
  else
    (x.1.enter r, { x.2 with
      outside := x.2.outside.filter (· ≠ r.id)
      waits := if isStore a.i then x.2.waits else x.2.waits ++ [(linkOf r.addr, r.id, m)] })

/-- A request of an access comes to its link: it enters the queue, or waits outside (R82). -/
def State.offer (s : State) (a : Access) (r : Req) (m : Mask) : State × Access :=
  let x := s.name r
  if a.kill then (s, a)
  else if (s.link (linkOf r.addr)).takes then x.1.enterPart a x.2 m
  else (x.1.waitOutside (.access s.cur.1 s.cur.2 x.2 m), { a with outside := a.outside ++ [x.2.id] })

/-- The instruction of an access is done. -/
def State.advanceIn (s : State) (lane : Bool) : State := if lane then s.advanceLane else s.advance

/-- What an access leaves once its last part is performed: an acquire records, and the window of its results opens (R45,
R134). -/
def State.endAccess (s : State) (a : Access) : State :=
  let s := match atomicOrder a.i with
    | some (ord, scope) => if a.stamps.isEmpty then s else s.afterAtomic ord scope a.stamps
    | none => s
  (s.result a.lane a.k a.dests a.writes a.waits a.race).advanceIn a.lane

/-- An access whose requests have all entered is accepted, and its instruction done; one that has some outside keeps its path at
the instruction (R82). -/
def State.keepAccess (s : State) (a : Access) : State :=
  if a.kill then s
  else if a.outside.isEmpty then (s.modP (fun p => { p with access := none })).endAccess a
  else s.modP (fun p => { p with access := some a })

/-- An access: its requests come to their links in ascending address order, and each lane is performed as the request that
carries it enters, or at once if none does (R81, R82, R121). DESIGN CHOICE (log 122): R45 lets the k instructions of its
window issue before it is accepted, and the model has them issue after. -/
def State.take (s : State) (lane : Bool) (k : Nat) (dests : List Dest) (i : Instr) (xs : List HeldLane) : State :=
  let rs := s.accessReqs i xs
  let m := rs.foldl (fun m r => m ||| r.2) 0
  let x := s.beginAccess lane k dests i xs
  let x := x.1.act x.2 (xs.filter (fun x => !bitB m x.lane))
  let x := rs.foldl (fun (x : State × Access) r => x.1.offer x.2 r.1 r.2) x
  x.1.keepAccess x.2

/-! ## VLD, VST, VAMO (R140, R142) -/

/-- An access of the path is to the word that the maximum of a released drain goes to (R126, R162). -/
def State.amaxClash (s : State) (xs : List HeldLane) (n : Nat) : Bool :=
  (s.core (coreOf s.cur.1)).ops.any (fun o => o.parts.any (fun a =>
    a.wid == s.cur.1 && a.opc == 0x383 && bitB a.word.md 1 && xs.any (fun x => decide (x.pa < a.amax + 4 ∧ a.amax < x.pa + n))))

/-- A global form of a lane word: the tests, then its access on the lanes that pass (R22, R82, R94). -/
def State.laneMemory (s : State) (i : Instr) (f : LaneWord) (want : Want) (dests : List Dest) (data : Warp → Nat → List Byte) :
    State :=
  let w := typeBytes f.tyN
  let r := s.globalLanes f w want (want == .read)
  let s := r.1
  let all : List HeldLane := r.2.1.map (fun x => { lane := x.lane, ea := x.ea, pa := x.pa, data := data s.cw x.lane })
  if s.amaxClash all w then s.waitLane 8
  else
    let rs := s.accessReqs i all
    let m := s.stalledMask rs
    s.splitGo (r.2.2 ++ [stallSplit s m rs]) (fun s => s.take true f.la.toNat dests i (all.filter (fun x => !bitB m x.lane)))

def execVld (f : LaneWord) (s : State) : Out :=
  laneForm (.vld f) s (fun s => s.laneMemory (.vld f) f .read (vDests f.d (typeRegs f.tyN)) (fun _ _ => []))

def execVst (f : LaneWord) (s : State) : Out :=
  laneForm (.vst f) s (fun s => s.laneMemory (.vst f) f .write [] (fun w l => storeBytes w f (typeBytes f.tyN) l))

/-- A prefetch changes nothing a program can see; it never faults (R141). -/
def execVpf (f : LaneWord) (s : State) : Out :=
  laneOp (.vpf f) s (fun s => (s.xlateLanes s.agent 1 .read (s.laneEas f)).1)

def execVamo (scope : BitVec 2) (f : LaneWord) (s : State) : Out :=
  laneForm (.vamo scope f) s (fun s =>
    if 2 ≤ f.mdN 1 0 && !s.performed then s.waitLane 5
    else s.laneMemory (.vamo scope f) f .atomic (vDests f.d (typeRegs f.tyN)) (fun w l => amoData w f (typeBytes f.tyN) l))

/-! ## Fences (R143, R144, R147) -/

/-- The effect of a fence on the detector: its acquire part, then its release part. DESIGN CHOICE (log 115): the record
of release fences and atomic reads is the path's, for both its streams, so that a FENCE without .lanes takes the lane
stream's atomic reads into its acquire part, and a lane atomic may become its release (R147). -/
def State.fence (s : State) (ord scope : Nat) : State :=
  let s := if ord = 2 then s else s.acquireP scope s.cp.acqReads
  if ord = 1 then s else (s.releaseW s.cur.1).modP (fun p => { p with relFence := some scope })

def execVfence (f : LaneWord) (s : State) : Out :=
  laneForm (.vfence f) s (fun s =>
    if activeMask s.cw s.cp f = 0 then s.advanceLane
    else if !s.performed then s.waitLane 5
    else (s.fence (f.mdN 1 0) (f.mdN 4 3)).advanceLane)

def execFence (l : BitVec 1) (sc o : BitVec 2) (s : State) : Out :=
  scalarForm (.fence l sc o) s (fun s =>
    if l = 1 && !s.runsDone then s.wait 14
    else if !s.performed then s.wait 5
    else (s.fence o.toNat sc.toNat).advance)

/-! ## Scalar loads and stores (R145) -/

/-- A page whose move firmware has begun and not finished (R264). -/
def State.moving (s : State) (ctx vpn : Nat) : Bool := s.moves.any (fun x => x.1 == ctx && x.2.1 == vpn)

/-- Firmware begins the move of a page it is told of (R23, R264). -/
def State.askMove (s : State) (ctx vpn : Nat) : State :=
  if s.moving ctx vpn then s else { s with moves := s.moves ++ [(ctx, vpn, 0, 0)] }

/-- A path fault of a scalar access by its cause; a migrate fault is the device's to repair (R23, R145, R328). -/
def State.scalarXfault (s : State) (x : XFault) (ea : VAddr) : State :=
  if s.inPu then (if x = (1, 3) then ((s.askMove s.cw.ctx (ea.toNat / 65536)).wait 11).modP (fun p => { p with awaits := some [ea.toNat / 65536] }) else s.puFault 3)
  else
    let mig := x == (1, 3)
    (s.raiseOn s.cur.1 s.cur.2 fullMask
      { cls := BitVec.ofNat 8 x.1, cause := BitVec.ofNat 8 x.2, dev := mig, addr := ea
        mask := s.cp.liveMask s.cw, flpc := BitVec.allOnes 20 } []
      (if mig then some (s.cw.ctx, ea.toNat / 65536) else none)).checkLatch (coreOf s.cur.1)

/-- The exact address of a scalar memory form (R15). -/
def State.scalarEa (s : State) (r : BitVec 4) (n : Nat) (i : BitVec 8) : Int := ((s.aReg r).toNat : Int) + i.toInt * n

/-- Tests a scalar address, then goes on at the physical address (R22, R350). -/
def State.atScalar (s : State) (ea : Int) (n : Nat) (want : Want) (rd wr : Bool) (body : State → VAddr → Nat → State) :
    State :=
  let va := BitVec.ofInt 72 ea
  match earlyFault n ea with
  | some x => s.scalarXfault x va
  | none =>
    match translate s s.agent va.toNat want with
    | (s, .error x) => s.scalarXfault x va
    | (s, .ok h) =>
      match (if s.inPu then none else watchCode s.cctx s.cteam false rd wr va.toNat n) with
      | some c => s.scalarFault 6 c va.toNat 0
      | none => body s va h.pa

/-- A scalar access at its address (R145). -/
def State.scalarMemory (s : State) (i : Instr) (k : Nat) (dests : List Dest) (va : VAddr) (pa : Nat) (data : List Byte) : State :=
  s.take false k dests i [{ lane := 0, ea := va, pa := pa, data := data }]

def execSld (d : BitVec 6) (r z l : BitVec 4) (i : BitVec 8) (s : State) : Out :=
  scalarForm (.sld d r z l i) s (fun s =>
    let n := sizeBytes z.toNat
    s.atScalar (s.scalarEa r n i) n .read true false (fun s va pa =>
      s.scalarMemory (.sld d r z l i) l.toNat [.s d.toNat] va pa []))

def execSlda (d r z l : BitVec 4) (i : BitVec 8) (s : State) : Out :=
  scalarForm (.slda d r z l i) s (fun s =>
    let n := sizeBytes z.toNat
    s.atScalar (s.scalarEa r n i) n .read true false (fun s va pa =>
      s.scalarMemory (.slda d r z l i) l.toNat [.a d.toNat] va pa []))

def execSst (d : BitVec 6) (r z l : BitVec 4) (i : BitVec 8) (s : State) : Out :=
  scalarForm (.sst d r z l i) s (fun s =>
    let n := sizeBytes z.toNat
    s.atScalar (s.scalarEa r n i) n .write false true (fun s va pa =>
      s.scalarMemory (.sst d r z l i) l.toNat [] va pa (bytesOf n (s.sReg d).toNat)))

def execSsta (d r l : BitVec 4) (i : BitVec 8) (s : State) : Out :=
  scalarForm (.ssta d r l i) s (fun s =>
    s.atScalar (s.scalarEa r 16 i) 16 .write false true (fun s va pa =>
      s.scalarMemory (.ssta d r l i) l.toNat [] va pa (bytesOf 16 (s.aReg d).toNat)))

/-! ## SAMO (R146) -/

def execSamo (d : BitVec 6) (a : BitVec 4) (b : BitVec 6) (o : BitVec 4) (r sc : BitVec 2) (s : State) : Out :=
  scalarForm (.samo d a b o r sc) s (fun s =>
    if 2 ≤ r.toNat && !s.performed then s.wait 5
    else
      s.atScalar (s.aReg a).toNat 8 .atomic false true (fun s va pa =>
        s.scalarMemory (.samo d a b o r sc) 0 [.s d.toNat] va pa (bytesOf 8 (s.sReg b).toNat ++ bytesOf 8 (s.sReg d).toNat)))

/-! ## Accesses the race check kept back (R136, R346) -/

/-- One lane of a held access, performed (R136): its store, or its load's write of the register; a poisoned scalar load
kills the warp (R359). -/
def State.heldLane (s : State) (h : RaceHold) (x : LaneAcc) : State :=
  if h.store then
    if !h.canvas && isDrawer x.pa then
      (maskedReqs s.teamClass x.pa (dataOf h.lanes x.lane) .store (some (coreOf s.cur.1))).foldl State.postReq
        ((s.stampPlain s.cur.1 false x.pa h.width).dropLines (coreOf s.cur.1) x.pa h.width)
    else s.storePa h.canvas x.pa (dataOf h.lanes x.lane)
  else
    let bad := if h.canvas then poisoned s.mem.canvasPoison x.pa h.width else s.readBad (some (coreOf s.cur.1)) x.pa h.width
    let v := if h.canvas then s.mem.canvas.readNat x.pa h.width else s.readPa (some (coreOf s.cur.1)) x.pa h.width
    if !h.scalar then s.modW (fun w => w.applyAll s.cur.2 (loadWrites h.dest h.ty x.lane v bad))
    else if bad then s.killWarp s.cur.1
    else if h.ty ≥ 16 then s.modW (fun w => { w with a := w.a.set h.dest (BitVec.ofNat 72 v) })
    else s.setSN h.dest (scalarValue h.ty v)

/-- Performs the accesses a race fault kept, from their saved values, their addresses translated anew; answers those that
fail the check again, and those whose address now fails (R27, R136, R346). -/
def State.performHeld (s : State) (h : RaceHold) : State × Option RaceHold × List LaneBad :=
  let off := bitB s.cw.racectl 0 || bitB s.cw.racectl 1
  let x :=
    if h.canvas then
      (s, h.lanes.map (fun x => ({ lane := x.lane, ea := x.ea, pa := canvasKey s.cteam x.ea.toNat } : LaneAcc)), [])
    else s.xlateLanes s.agent h.width (if h.store then .write else .read) (h.lanes.map (fun x => (x.lane, (x.ea.toNat : Int))))
  let s := x.1.modW Warp.useOnce
  let r := s.raceLanes off h.canvas h.width x.2.1
  let s := r.2.1.foldl (·.heldLane h) r.1
  (s, holdOf h.scalar h.canvas h.store h.width h.ty h.dest (dataOf h.lanes) r.2.2.1 r.2.2.2, x.2.2)

end Sys2Proof.Machine
end

