-- ==== Sys2Proof/Machine/Ring.lean ====
section
/-! DEFINITION. Canvas rings: the header the bank ALU keeps (R65), stage states (R67), and the synchronisation of
fills, grants and frees (R73). -/

namespace Sys2Proof.Machine

/-- A ring header as read from its canvas bytes (R65). -/
structure Ring where
  cfg : Nat
  ready : Nat
  free : Nat
  ridx : Nat
  cidx : Nat
  pidx : Nat
  held : DWord
  poison : DWord
  done : DWord
  deriving DecidableEq, Repr

namespace Ring

def ssz (r : Ring) : Nat := r.cfg % 256
def nst (r : Ring) : Nat := r.cfg / 256 % 256
def mode (r : Ring) : Nat := r.cfg / 2 ^ 16 % 4
def eq (r : Ring) : Nat := r.cfg / 2 ^ 18 % 4

/-- Bytes the whole ring takes. -/
def size (r : Ring) : Nat := 256 + r.nst * r.ssz * 256

/-- A fresh ring of a configuration (R70). -/
def fresh (cfg : Nat) : Ring :=
  { cfg := cfg, ready := 0, free := cfg / 256 % 256, ridx := 0, cidx := 0, pidx := 0, held := 0, poison := 0, done := 0 }

/-- Words 0 to 7 of the header. -/
def words (r : Ring) : List Nat :=
  [r.cfg, r.ready % 128 * 2 ^ 32 + r.free % 128 * 2 ^ 24 + r.ridx % 64 * 2 ^ 16 + r.cidx % 64 * 2 ^ 8 + r.pidx % 64,
   r.held.toNat, r.poison.toNat, r.done.toNat, 0, 0, 0]

end Ring

/-- States of a stage (R67). -/
inductive Stage where
  | free | claimed | filled | poisoned | granted | released
  deriving DecidableEq, Repr

/-! ## Reading and writing a header -/

def State.ring (s : State) (t : Team) (h : Nat) : Ring :=
  let k := canvasKey t h
  let w (i : Nat) : Nat := s.mem.canvas.readNat (k + 8 * i) 8
  let pos := w 1
  { cfg := w 0, ready := natBits pos 38 32, free := natBits pos 30 24, ridx := natBits pos 21 16
    cidx := natBits pos 13 8, pidx := natBits pos 5 0, held := BitVec.ofNat 64 (w 2), poison := BitVec.ofNat 64 (w 3)
    done := BitVec.ofNat 64 (w 4) }

def State.setRing (s : State) (t : Team) (h : Nat) (r : Ring) : State :=
  s.modMem (fun m => { m with canvas := m.canvas.writeN (canvasKey t h) ((r.words.map (bytesOf 8)).flatten) })

/-- SEG of a stage. -/
def State.seg (s : State) (t : Team) (h i : Nat) : Nat := (s.mem.canvas.get (canvasKey t h + 64 + i)).toNat

def State.setSeg (s : State) (t : Team) (h i n : Nat) : State :=
  s.modMem (fun m => { m with canvas := m.canvas.set (canvasKey t h + 64 + i) (BitVec.ofNat 8 n) })

/-- Team-relative offset of a stage. -/
def Ring.stageOff (r : Ring) (h i : Nat) : Nat := h + 256 + i * r.ssz * 256

/-- State of stage i, from the header alone. -/
def State.stage (s : State) (t : Team) (h : Nat) (r : Ring) (i : Nat) : Stage :=
  if r.nst - r.free ≤ (i + r.nst - r.ridx) % r.nst then .free
  else if bitB r.held i then .granted
  else if bitB r.done i then .released
  else if bitB r.poison i then .poisoned
  else if s.seg t h i = r.ssz then .filled
  else .claimed

def Ring.next (r : Ring) (i : Nat) : Nat := (i + 1) % r.nst

/-- A claim of the stage at PIDX. -/
def Ring.claim (r : Ring) : Ring := { r with free := r.free - 1, pidx := r.next r.pidx }

/-- A grant of the stage at CIDX. -/
def Ring.grant (r : Ring) : Ring :=
  { r with ready := r.ready - 1, held := putBit r.held r.cidx true, cidx := r.next r.cidx }

/-- A release of a GRANTED stage, or of a POISONED one at CIDX. -/
def Ring.release (r : Ring) (i : Nat) : Ring :=
  if bitB r.held i then { r with held := putBit r.held i false, done := putBit r.done i true }
  else { r with ready := r.ready - 1, cidx := r.next r.cidx, done := putBit r.done i true }

/-- Released stages at RIDX become free, one after another. -/
def State.freeStages (s : State) (t : Team) (h : Nat) : Nat → Ring → State × Ring
  | 0, r => (s, r)
  | n + 1, r =>
    if s.stage t h r r.ridx = .released then
      (s.setSeg t h r.ridx 0).freeStages t h n
        { r with done := putBit r.done r.ridx false, poison := putBit r.poison r.ridx false, free := r.free + 1, ridx := r.next r.ridx }
    else (s, r)

/-! ## Synchronisation (R73) -/

/-- Keeps a release of a stage for the operation that next takes it. -/
def State.noteStage (s : State) (team h i : Nat) (wid : Nat) (iv ep : Word) : State :=
  s.modTeam team (fun t => { t with stageRel := t.stageRel.put (h * 64 + i) (wid, iv, ep) })

/-- A release of a stage by the issuing path. -/
def State.releaseStage (s : State) (h i : Nat) : State :=
  let s := s.releaseP
  s.noteStage s.cw.team h i s.cur.1 s.cw.interval s.now

/-- A grant acquires what was released into the stage (R73, R161). -/
def State.takeStage (s : State) (h i : Nat) : State :=
  let wid := s.cur.1
  let s := match (s.cteam.stageRel.find (h * 64 + i)) with
    | some (w, iv, ep) => s.acquireRelease wid w iv ep
    | none => s
  (s.bumpInterval wid).modP Path.synced

/-- Header operations are atomic accesses (R121): their words are stamped, as a release's where they are one (R130). -/
def State.stampHeader (s : State) (t : Team) (h : Nat) (rel : Option Nat) : State :=
  s.stampAtomic s.cur.1 true (canvasKey t h + 8) 32 rel

/-! ## Waiting (R71) -/

/-- The path a wait is of still stands at its word. -/
def State.waitStands (s : State) (w : RingWait) : Bool :=
  match s.pathAt w.wid w.slot with
  | some p => p.lpc == w.lpc && !p.queue.isEmpty
  | none => false

/-- Waits on a ring of one kind, oldest first. -/
def State.ringQueue (s : State) (team h : Nat) (free : Bool) : List RingWait :=
  ((s.teams.getD team {}).ringWaits.filter (fun w => w.header = h && w.free = free)).filter s.waitStands

/-- A waiting path may be served now: it is not held by the debugger, and its context issues (R353, R371). -/
def State.ringRuns (s : State) (w : RingWait) : Bool :=
  match s.pathAt w.wid w.slot with
  | some p =>
    let st := (s.ctx ((s.warps.find w.wid).getD {}).ctx).st
    !p.stopped && decide (st = .running ∨ st = .draining ∨ st = .drained)
  | none => false

/-- The wait served next of one kind. DESIGN CHOICE (log 141): fills and frees have an order each, and a wait that may not be
served now is passed over. -/
def State.ringFirst (s : State) (team h : Nat) (free : Bool) : Option RingWait := ((s.ringQueue team h free).filter s.ringRuns).head?

/-- A load has still to claim a stage of a ring. -/
def EngEntry.claims (e : EngEntry) (team h : Nat) : Bool :=
  e.team == team && e.form == .txld && e.coff == h && bitB (e.rcd.getD 0 0) 41 && !e.started

/-- DEDUCED (log 120): an engine queue waits on a ring as long as a load that has still to claim a stage of it is in the queue, or waits in a
window to enter it (R69). -/
def State.engineWaits (s : State) (team h : Nat) : Bool :=
  (s.core (s.teams.getD team {}).core).queues.any (fun q => q.2.entries.any (·.claims team h))
    || s.warps.any (fun w => w.2.team == team && (w.2.places.filterMap w.2.slot).any (fun p => p.windows.any (fun d =>
      match d.pend with | some (.engine _ e) => e.claims team h | _ => false)))

def ringOverlap (s : State) (t : Team) (h size : Nat) : Bool :=
  t.rings.any (fun g => g != h && decide (g < h + size ∧ h < g + (s.ring t g).size))

/-- A ring has a stage claimed or granted, or a path or queue waiting on it (R69). -/
def State.ringBusy (s : State) (team h : Nat) : Bool :=
  let t := s.teams.getD team {}
  let r := s.ring t h
  (List.range r.nst).any (fun i => s.stage t h r i == .claimed || s.stage t h r i == .granted)
    || !(s.ringQueue team h true).isEmpty || !(s.ringQueue team h false).isEmpty || s.engineWaits team h

end Sys2Proof.Machine
end

