-- ==== Sys2Proof/Machine/Canvas.lean ====
section
/-! DEFINITION. Meanings of the canvas forms (R58-R64) and the ring forms (R69-R72). -/

namespace Sys2Proof.Machine

/-! ## The checks (R58) -/

/-- Bytes of the headers of the team's live rings touched by n bytes from c. -/
def touchesHeader (t : Team) (c n : Nat) : Bool := t.rings.any (fun h => decide (c < h + 256 ∧ h < c + n))

/-- Canvas cause of an offset: 1 bounds, 2 align, 3 ring header, 0 none. -/
def canvasCause (t : Team) (writing : Bool) (w : Nat) (c : Int) : Nat :=
  if c < 0 ∨ (t.canvasSize : Int) < c + w then 1
  else if c % w ≠ 0 then 2
  else if writing && touchesHeader t c.toNat w then 3
  else 0

/-- A fault of canvas lanes. -/
def canvasRec (cause : Nat) (addr : Int) (m : Mask) (lpc : Nat) : FaultRec :=
  { cls := 3, cause := BitVec.ofNat 8 cause, lane := true, addr := BitVec.ofInt 72 addr, mask := m, flpc := BitVec.ofNat 20 lpc }

/-- The split of the lanes that fail R58's checks: the highest-priority cause names its lanes. -/
def canvasSplit (s : State) (bad : List (Nat × Int × Nat)) : Split :=
  let best := bad.foldl (fun m b => min m b.2.2) 4
  let have_ := bad.filter (fun b => b.2.2 = best)
  let a := match have_ with | b :: _ => b.2.1 | [] => 0
  { lanes := maskOf (bad.map (·.1)), rcd := canvasRec best a (maskOf (have_.map (·.1))) s.cp.lpc }

/-- Lanes that pass, with the splits of those that do not or that hit watch ranges (R58, R350, R373). -/
def State.canvasLanes (s : State) (f : LaneWord) (w : Nat) (rd wr : Bool) : List LaneAcc × List Split :=
  let t := s.cteam
  let xs := (s.laneEas f).map (fun x => (x.1, x.2, canvasCause t wr w x.2))
  let good := xs.filter (fun x => x.2.2 = 0)
  let hits := good.filterMap (fun x => (watchCode s.cctx t true rd wr x.2.1.toNat w).map (fun c => (x.1, BitVec.ofInt 72 x.2.1, c)))
  let ok := good.filter (fun x => !hits.any (fun h => h.1 = x.1))
  (ok.map (fun x => { lane := x.1, ea := BitVec.ofInt 72 x.2.1, pa := canvasKey t x.2.1.toNat }),
   [canvasSplit s (xs.filter (fun x => x.2.2 ≠ 0)), watchSplit s hits])

/-- A released matrix operation of the warp with canvas accesses is not yet performed (R277). -/
def State.matrixPending (s : State) : Bool :=
  (s.core (coreOf s.cur.1)).ops.any (fun o => o.parts.any (fun a => a.wid == s.cur.1 && a.opc != 0x381))

/-- A canvas form: the checks, then its effect on the lanes that pass. -/
def canvasForm (i : Instr) (f : LaneWord) (w : Nat) (rd wr : Bool) (s : State) (body : State → List LaneAcc → State) : Out :=
  laneForm i s (fun s =>
    if s.matrixPending then s.waitLane 8
    else
      let r := s.canvasLanes f w rd wr
      s.splitThen r.2 (fun s => body s r.1))

/-! ## CLD, CST (R61) -/

def State.finishCld (s : State) (f : LaneWord) (w : Nat) (ls : List LaneAcc) : State :=
  let r := s.raceLanes s.laneOff true w ls
  let s := r.1.spendOnce (!ls.isEmpty)
  let n := typeRegs f.tyN
  let pz (l : Nat) : Bool := r.2.1.any (fun x => x.lane = l && poisoned s.mem.canvasPoison x.pa w)
  let vals := r.2.1.map (fun x => (x.lane, narrow f.tyN (s.mem.canvas.readNat x.pa w)))
  s.result true f.la.toNat (vDests f.d n) (laneWrites f.d n pz vals) []
    (holdOf false true false w f.tyN f.d.toNat (fun _ => []) r.2.2.1 r.2.2.2)

def execCld (f : LaneWord) (s : State) : Out :=
  canvasForm (.cld f) f (typeBytes f.tyN) true false s (fun s ls => s.finishCld f (typeBytes f.tyN) ls)

def State.finishCst (s : State) (f : LaneWord) (n : Nat) (ls : List LaneAcc) : State :=
  let w := s.cw
  let r := s.raceLanes s.laneOff true n ls
  let s := r.1.spendOnce (!ls.isEmpty)
  let s := r.2.1.foldl (fun s x => s.storePa true x.pa (storeBytes w f n x.lane)) s
  s.result true f.la.toNat [] [] []
    (holdOf false true true n f.tyN 0 (fun l => storeBytes w f n l) r.2.2.1 r.2.2.2)

def execCst (f : LaneWord) (s : State) : Out :=
  canvasForm (.cst f) f (typeBytes f.tyN) false true s (fun s ls => s.finishCst f (typeBytes f.tyN) ls)

/-! ## CAMO, CUPD, CRED (R62-R64, R131) -/

/-- A bank atomic's effect on the lanes that pass. -/
def State.finishCamo (s : State) (f : LaneWord) (ls : List LaneAcc) : State :=
  let r := s.canvasAmo 0 f (ls.map (fun x => { lane := x.lane, ea := x.ea, pa := x.pa, data := amoData s.cw f (typeBytes f.tyN) x.lane }))
  r.1.result true f.la.toNat (vDests f.d (typeRegs f.tyN)) r.2 [] none

def execCamo (f : LaneWord) (s : State) : Out :=
  laneForm (.camo f) s (fun s =>
    if s.matrixPending then s.waitLane 8
    else if 2 ≤ f.mdN 1 0 && !s.performed then s.waitLane 3
    else
      let r := s.canvasLanes f (typeBytes f.tyN) false true
      s.splitThen r.2 (fun s => s.finishCamo f r.1))

/-- The new value of a CUPD element: value x, operand v, scale c (R63). -/
def cupdNew (op t : Nat) (sat : Bool) (rm x v c : Nat) : Nat :=
  if isInt t then aluNew op t sat rm x v 0
  else
    let fm := Float.ofType t
    (elements t (fun j =>
      let a := element t j x
      let b := element t j v
      match op with
      | 0 => Float.add fm rm false a b
      | 1 => Float.minMax fm false false a b
      | 2 => Float.minMax fm false true a b
      | _ => Float.fma fm rm false (element t j c) b a)).1

/-- A lane's elements, each updated atomically, and the release stamps its reads found. -/
def State.updateLane (s : State) (f : LaneWord) (w : Warp) (rel : Option Nat) (x : LaneAcc) : State × List (Option (BitVec 128)) :=
  (List.range (2 ^ f.mdN 2 1)).foldl (fun (r : State × List (Option (BitVec 128))) e =>
    let s := r.1
    let pa := x.pa + 4 * e
    let st := s.releaseStamp true pa 4
    let new := cupdNew (f.mdN 4 3) f.tyN (f.sat == 1) f.rnd.toNat (s.mem.canvas.readNat pa 4)
      (w.vReg (f.c.toNat + e) x.lane).toNat (w.vReg (f.a.toNat + e) x.lane).toNat
    (s.atomicPa true pa 4 new rel, r.2 ++ [st])) (s, [])

/-- Bank updates are relaxed atomics, whose reads an acquire fence may follow (R63, R130, log 45). -/
def State.finishCupd (s : State) (f : LaneWord) (ls : List LaneAcc) : State :=
  let w := s.cw
  let rel := s.releaseScope 0 0
  let s := if ls.isEmpty then s else s.beforeAtomic 0
  let r := ls.foldl (fun (r : State × List (Option (BitVec 128))) x =>
    let y := r.1.updateLane f w rel x
    (y.1, r.2 ++ y.2)) (s, [])
  let s := if ls.isEmpty then r.1 else r.1.afterAtomic 0 0 r.2
  s.result true f.la.toNat [] [] [] none

def execCupd (f : LaneWord) (s : State) : Out :=
  canvasForm (.cupd f) f (4 * 2 ^ f.mdN 2 1) false true s (fun s ls => s.finishCupd f ls)

/-- Release stamps of the sectors of a run. -/
def State.runStamps (s : State) (a n : Nat) : List (Option (BitVec 128)) :=
  (sectors a n).map (fun k => s.releaseStamp true (max a (32 * k)) (min (a + n) (32 * k + 32) - max a (32 * k)))

def State.finishCred (s : State) (f : LaneWord) (ls : List LaneAcc) : State :=
  let n := 2 ^ f.mdN 2 0
  let vals := ls.map (fun x =>
    (x.lane, aluTree (f.mdN 4 3) f.tyN (f.sat == 1) f.rnd.toNat (f.mdN 2 0)
      ((List.range n).map (fun i => s.mem.canvas.readNat (x.pa + 4 * i) 4))))
  let pz (l : Nat) : Bool := ls.any (fun x => x.lane = l && poisoned s.mem.canvasPoison x.pa (4 * n))
  let sts := (ls.map (fun x => s.runStamps x.pa (4 * n))).flatten
  let s := s.modP (fun p => { p with acqReads := p.acqReads ++ sts })
  s.result true f.la.toNat (vDests f.d 1) (laneWrites f.d 1 pz vals) [] none

def execCred (f : LaneWord) (s : State) : Out :=
  canvasForm (.cred f) f (4 * 2 ^ f.mdN 2 0) true false s (fun s ls => s.finishCred f ls)

/-! ## Ring forms (R69-R72) -/

/-- A ring form at its offset: nothing with no active lane; the checks of R58; then its effect, which answers a
cause where it faults. The width of R58 is that of a header word; a watch range takes the operation as an atomic on the
header's bytes (R373). -/
def ringForm (i : Instr) (f : LaneWord) (s : State) (body : State → Nat → Mask → State × Option Nat) : Out :=
  laneForm i s (fun s =>
    let act := activeMask s.cw s.cp f
    if act = 0 then s.advanceLane
    else if s.matrixPending then s.waitLane 8
    else
      let c := laneEa s.cw s.run f 0
      let fault (s : State) (cause : Nat) : State := s.splitThen [{ lanes := act, rcd := canvasRec cause c act s.cp.lpc }] id
      match canvasCause s.cteam false 8 c with
      | 0 =>
        match watchCode s.cctx s.cteam true false true c.toNat 256 with
        | some w => s.splitThen [watchPath s (BitVec.ofInt 72 c) w] id
        | none =>
          match body s c.toNat act with
          | (s, none) => s
          | (s, some k) => fault s k
      | k => fault s k)

/-- The ring operand, from the lowest active lane. -/
def ringOperand (s : State) (f : LaneWord) (act : Mask) : Nat := (s.cw.vReg f.a.toNat (lowestLane act)).toNat

/-- A configuration RINIT takes at an offset (R69, R70). -/
def ringConfigOk (s : State) (t : Team) (h cfg : Nat) : Bool :=
  let r := Ring.fresh cfg
  decide (cfg < 2 ^ 20) && decide (r.mode < 2) && decide (1 ≤ r.ssz ∧ r.ssz ≤ 128) && decide (2 ≤ r.nst ∧ r.nst ≤ 64)
    && h % 256 == 0 && decide (h + r.size ≤ t.canvasSize) && !ringOverlap s t h r.size
    && (t.rings.contains h || decide (t.rings.length < 16))

/-- What a header operation does as an atomic write that a release fence has made a release (R130, R134): the interval
rises, and it answers the scope to stamp. -/
def State.headerRelease (s : State) : State × Option Nat := (s.beforeAtomic 0, s.releaseScope 0 0)

/-- RINIT's effect (R70). DESIGN CHOICE (log 116): A = 0 at an offset where no ring is does nothing, 256-aligned or not. -/
def State.rinit (s : State) (f : LaneWord) (h : Nat) (act : Mask) : State × Option Nat :=
  let t := s.cteam
  let team := s.cw.team
  let cfg := ringOperand s f act
  let live := t.rings.contains h
  if cfg ≠ 0 && !ringConfigOk s t h cfg then (s, some 4)
  else if live && s.ringBusy team h then (s, some 5)
  else if cfg = 0 then
    (if live then (s.modTeam team (fun t => { t with rings := t.rings.erase h })).advanceLane else s.advanceLane, none)
  else
    let s := s.modMem (fun m => { m with canvas := m.canvas.clear (canvasKey t h) 256 })
    let r := s.headerRelease
    let s := ((r.1.setRing t h (Ring.fresh cfg)).stampAtomic s.cur.1 true (canvasKey t h) 256 r.2).afterAtomic 0 0 []
    let s := s.modTeam team (fun t => { t with
      rings := if live then t.rings else t.rings ++ [h]
      stageRel := t.stageRel.filter (fun e => e.1 / 64 ≠ h) })
    (s.advanceLane, none)

def execRinit (f : LaneWord) (s : State) : Out := ringForm (.rinit f) f s (fun s h act => s.rinit f h act)

/-- The path leaves the ring's waiting order. -/
def State.unwait (s : State) (h : Nat) : State :=
  s.modTeam s.cw.team (fun t => { t with ringWaits := t.ringWaits.filter (fun w => !(w.header = h && w.wid = s.cur.1 && w.slot = s.cur.2)) })

/-- Writes a ring form's destination in every active lane, and in the shadow warp's as well (R360). -/
def ringDest (s : State) (f : LaneWord) (act : Mask) (x : Nat) : State :=
  s.modW (fun w => (w.applyAll s.cur.2 (laneWrites f.d 1 (fun _ => false) ((lanesOf act).map (fun l => (l, x))))).agreeOn s.cur.2
    (placesOf [.v f.d.toNat] act))

/-- The path waits in RWAIT, which holds back both its streams (R71). -/
def State.ringStall (s : State) : State := (s.modP (fun p => { p with both := true })).waitLane 6

/-- RWAIT's effect (R71): the path joins the waiting order, and the first of it is granted or claims its stage. -/
def State.rwait (s : State) (free : Bool) (f : LaneWord) (h : Nat) (act : Mask) : State × Option Nat :=
  let t := s.cteam
  let team := s.cw.team
  let r := s.ring t h
  let me : RingWait := { header := h, wid := s.cur.1, slot := s.cur.2, free := free, lpc := s.cp.lpc, word := f }
  if !t.rings.contains h || (free && r.mode = 1) then (s, some 6)
  else
    let s := if (s.ringQueue team h free).contains me then s
      else (s.unwait h).modTeam team (fun t => { t with ringWaits := t.ringWaits ++ [me] })
    let first := s.ringFirst team h free = some me
    let st := s.stage t h r r.cidx
    if free then
      if first && r.free ≠ 0 then
        let i := r.pidx
        let x := (s.unwait h).headerRelease
        let s := (x.1.setRing t h r.claim).stampHeader t h x.2
        ((ringDest (s.takeStage h i) f act (r.stageOff h i)).advanceLane, none)
      else (s.ringStall, none)
    else if first && st = .poisoned then (s.unwait h, some 7)
    else if first && st = .filled then
      let i := r.cidx
      let x := (s.unwait h).headerRelease
      let s := (x.1.setRing t h r.grant).stampHeader t h x.2
      ((ringDest (s.takeStage h i) f act (r.stageOff h i)).advanceLane, none)
    else (s.ringStall, none)

def execRwaitFill (f : LaneWord) (s : State) : Out := ringForm (.rwaitFill f) f s (fun s h act => s.rwait false f h act)
def execRwaitFree (f : LaneWord) (s : State) : Out := ringForm (.rwaitFree f) f s (fun s h act => s.rwait true f h act)

/-- The stage at a team-relative offset. -/
def Ring.stageAt (r : Ring) (h a : Nat) : Option Nat := (List.range r.nst).find? (fun i => r.stageOff h i = a)

/-- RFREE's effect (R72). -/
def State.rfree (s : State) (f : LaneWord) (h : Nat) (act : Mask) : State × Option Nat :=
  let t := s.cteam
  let r := s.ring t h
  if !t.rings.contains h then (s, some 6)
  else
    match r.stageAt h (ringOperand s f act) with
    | none => (s, some 6)
    | some i =>
      let st := s.stage t h r i
      if st = .granted || (st = .poisoned && r.cidx = i) then
        if !s.performed then (s.waitLane 3, none)
        else
          let s := s.releaseStage h i
          let x := s.freeStages t h r.nst (r.release i)
          (((x.1.setRing t h x.2).stampHeader t h (some 0)).advanceLane, none)
      else (s, some 6)

def execRfree (f : LaneWord) (s : State) : Out := ringForm (.rfree f) f s (fun s h act => s.rfree f h act)

/-- RPOST's effect (R72). -/
def State.rpost (s : State) (f : LaneWord) (h : Nat) (act : Mask) : State × Option Nat :=
  let t := s.cteam
  let r := s.ring t h
  if !t.rings.contains h || r.mode ≠ 0 then (s, some 6)
  else
    match r.stageAt h (ringOperand s f act) with
    | none => (s, some 6)
    | some i =>
      if s.stage t h r i = .claimed then
        if !s.performed then (s.waitLane 3, none)
        else
          let s := s.releaseStage h i
          let s := (s.setRing t h { r with ready := r.ready + 1 }).setSeg t h i r.ssz
          ((s.stampHeader t h (some 0)).advanceLane, none)
      else (s, some 6)

def execRpost (f : LaneWord) (s : State) : Out := ringForm (.rpost f) f s (fun s h act => s.rpost f h act)

/-- The oldest waiting request of a ring that can be served has its effect (R71). -/
def execRingGrant (team offset : Nat) (s : State) : Out :=
  if s.hub.fatal then .fault .halted
  else
    let t := s.teams.getD team {}
    let r := s.ring t offset
    let ready := (s.ringFirst team offset false).filter (fun _ => let st := s.stage t offset r r.cidx; st == .filled || st == .poisoned)
    let room := (s.ringFirst team offset true).filter (fun _ => r.free != 0)
    match ready.or room with
    | none => .next s
    | some w =>
      let s := { s with cur := (w.wid, w.slot) }
      .next (match s.rwait w.free w.word offset (activeMask s.cw s.cp w.word) with
        | (s, none) => s
        | (s, some k) => s.splitThen [{ lanes := activeMask s.cw s.cp w.word, rcd := canvasRec k offset (activeMask s.cw s.cp w.word) s.cp.lpc }] id)

end Sys2Proof.Machine
end

