-- ==== Sys2Proof/Machine/Formats.lean ====
section
/-! DEFINITION. Number formats and layouts of tensors: DX8 and DX4 blocks (R254), conversion into them (R255), and CX
tiles with their heads (R256-R258). -/

namespace Sys2Proof.Tensor

/-! ## DX blocks (R254) -/

/-- Bits of a magnitude, without its selector and sign: 6 for DX8, 2 for DX4. -/
def magBits (d8 : Bool) : Nat := if d8 then 6 else 2
def magMax (d8 : Bool) : Nat := if d8 then 63 else 3
/-- log2 of the unit u. -/
def unitBits (d8 : Bool) : Nat := if d8 then 5 else 1

/-- An element: selector, sign and magnitude. -/
structure Elem where
  sel : Bool
  neg : Bool
  mag : Nat
  deriving DecidableEq, Repr

def Elem.code (d8 : Bool) (x : Elem) : Nat := (2 * boolNat x.sel + boolNat x.neg) * 2 ^ magBits d8 + x.mag

def elemOf (d8 : Bool) (c : Nat) : Elem :=
  { sel := c / 2 ^ (magBits d8 + 1) % 2 = 1, neg := c / 2 ^ magBits d8 % 2 = 1, mag := c % 2 ^ magBits d8 }

/-- Element i among packed elements: a byte, or a nibble with even elements low. -/
def elemAt (d8 : Bool) (bs : List Byte) (i : Nat) : Elem :=
  if d8 then elemOf true (bs.getD i 0).toNat
  else elemOf false ((bs.getD (i / 2) 0).toNat / 16 ^ (i % 2) % 16)

/-- Packs 32 elements. -/
def packElems (d8 : Bool) (xs : List Elem) : List Byte :=
  if d8 then xs.map (fun x => BitVec.ofNat 8 (x.code true))
  else (List.range 16).map (fun j =>
    let c (i : Nat) : Nat := match xs[i]? with | some x => x.code false | none => 0
    BitVec.ofNat 8 (c (2 * j) + 16 * c (2 * j + 1)))

/-- The value of an element under a block's exponents. -/
def Elem.value (d8 : Bool) (e0 e1 : Nat) (x : Elem) : Float.Val :=
  let e := if x.sel then e1 else e0
  if e = 0 then .num false 0 0
  else if e = 255 then .nan false
  else .num x.neg x.mag ((e : Int) - 127 - unitBits d8)

/-! ## Conversion into DX (R255) -/

/-- A finite exact real: sign, numerator and denominator. -/
structure Ratio where
  neg : Bool
  num : Nat
  den : Nat
  deriving DecidableEq, Repr

/-- A value divided by a finite nonzero one; none for NaN and infinity. -/
def ratioOf (x d : Float.Val) : Option Ratio :=
  match x, d with
  | .num s m e, .num t n f => some {
      neg := s != t
      num := if 0 ≤ e - f then m <<< (e - f).toNat else m
      den := if 0 ≤ e - f then n else n <<< (f - e).toNat }
  | _, _ => none

/-- D of the palette: the 5-bit reversal. -/
def palette (j : Nat) : Nat := (bitrev (BitVec.ofNat 5 j)).toNat

/-- Rounds a quotient to an integer: 0 nearest-even, 1 toward zero, 2 dithered by D ÷ 32. -/
def roundRatio (mode d n den : Nat) : Nat :=
  match mode with
  | 0 =>
    let q := n / den
    let r := n % den
    if den < 2 * r || (den = 2 * r && q % 2 = 1) then q + 1 else q
  | 1 => n / den
  | _ => (32 * n + d * den) / (32 * den)

/-- |x| ≤ (mmax ÷ u) × 2^(E − 127). -/
def fits (d8 : Bool) (e : Nat) (x : Ratio) : Bool :=
  decide (x.num * 2 ^ (unitBits d8 + 127) ≤ magMax d8 * 2 ^ e * x.den)

/-- Magnitude under an exponent, with the error scaled by den × u × 2^127. DEDUCED (log 146): under E = 0 the rule's note
"0 when E_sel = 0 and q = 0" is of the product q ÷ u × 2^(E−127), so that the error is the value itself. -/
def quantize (d8 : Bool) (mode d e : Nat) (x : Ratio) : Nat × Nat :=
  let n := x.num * 2 ^ (unitBits d8 + 127)
  let q := if e = 0 then 0 else min (magMax d8) (roundRatio mode d n (x.den * 2 ^ e))
  let v := q * 2 ^ e * x.den
  (q, if n ≤ v then v - n else n - v)

/-- One block from 32 values: exponents and elements. -/
def convertDx (d8 : Bool) (mode phase : Nat) (xs : List (Option Ratio)) : Nat × Nat × List Elem :=
  let zero : List Elem := xs.map (fun _ => { sel := false, neg := false, mag := 0 })
  if xs.any (·.isNone) then (255, 255, zero)
  else
    let rs := xs.filterMap id
    if rs.all (fun x => x.num = 0) then (0, 0, zero)
    else
      let e0 := (((List.range 254).map (· + 1)).find? (fun e => rs.all (fits d8 e))).getD 254
      let e1 := e0 - (if d8 then 4 else 2)
      (e0, e1, (rs.zipIdx).map (fun p =>
        let d := palette ((p.2 + phase) % 32)
        let a := quantize d8 mode d e0 p.1
        let b := quantize d8 mode d e1 p.1
        let sel := decide (b.2 < a.2)
        let q := if sel then b.1 else a.1
        { sel := sel, neg := p.1.neg && decide (0 < q), mag := q }))

/-! ## Values -/

/-- Exact product; an infinity times zero is NaN. -/
def mulVal (a b : Float.Val) : Float.Val :=
  match a, b with
  | .num s m e, .num t n f => .num (s != t) (m * n) (e + f)
  | .nan x, _ => .nan x
  | _, .nan x => .nan x
  | x, y => if x.isZero || y.isZero then .nan false else .inf (x.neg != y.neg)

/-- Rounds a value once to a format; NaN is canonical. -/
def roundVal (f : Float.Fmt) (rm : Nat) (x : Float.Val) : Nat :=
  match x with
  | .nan _ => f.nan
  | .inf s => f.inf s
  | .num s m e => (Float.round f rm false s m e false).1

/-- Exact sum of values as a pair of a common exponent; none where the sum is NaN or an infinity is met. -/
def sumVals (xs : List Float.Val) : Float.Val :=
  if xs.any Float.Val.isNan then .nan false
  else
    let infs := xs.filter (fun x => match x with | .inf _ => true | _ => false)
    match infs with
    | i :: r => if r.all (fun x => x.neg == i.neg) then i else .nan false
    | [] =>
      let ts := xs.filterMap (fun x => match x with | .num s m e => if m = 0 then none else some (s, m, e) | _ => none)
      let q := ts.foldl (fun q t => min q t.2.2) (match ts with | t :: _ => t.2.2 | [] => 0)
      let n : Int := (ts.map (fun t => Float.toInt t.1 t.2.1 t.2.2 q)).sum
      .num (decide (n < 0)) n.natAbs q

/-! ## CX tiles (R256-R258) -/

/-- CFMT codes: DX formats, and the float format of a plain one. -/
def isDx (c : Nat) : Bool := c == 1 || c == 2 || c == 5 || c == 6
def isDx8 (c : Nat) : Bool := c == 1 || c == 5
def isSparse (c : Nat) : Bool := c == 5 || c == 6
def plainFmt (c : Nat) : Float.Fmt := if c = 3 then Float.h16 else if c = 4 then Float.w16 else Float.f32
/-- Bytes of an element of a plain format. -/
def plainSize (c : Nat) : Nat := if c = 7 then 4 else 2

def pad64 (n : Nat) : Nat := (n + 63) / 64 * 64

/-- Blocks of a tile: 64 rows of an A tile, 32 columns of a B tile. -/
def tileBlocks (b : Bool) : Nat := if b then 32 else 64

/-- Bytes a block takes in the element plane, dense. -/
def blockBytes (c : Nat) : Nat := if c = 1 then 32 else if c = 2 then 16 else 32 * plainSize c

/-- Bytes of a sparse tile with L live vectors. -/
def sparseSize (c l : Nat) : Nat := 64 + pad64 ((if c = 5 then 16 else 8) * l) + pad64 (4 * l) + pad64 (2 * l)

/-- Largest size of a tile. -/
def tileSize (b : Bool) (c : Nat) : Nat :=
  if c = 5 then 768 else if c = 6 then 512
  else 64 + pad64 (tileBlocks b * blockBytes c) + (if isDx c then pad64 (tileBlocks b * 2) else 0)

/-- Offset of the exponent plane of a dense DX tile. -/
def expPlane (b : Bool) (c : Nat) : Nat := 64 + pad64 (tileBlocks b * blockBytes c)

/-- Words 0 and 1 of a head the engine or a drain writes. -/
def headWord0 (b : Bool) (c : Nat) (scale : Nat) : Nat := scale % 2 ^ 32 * 2 ^ 32 + tileBlocks b * 2 ^ 8 + c

/-- A head of eight words is valid for a tile kind (R257). -/
def headOk (b : Bool) (ws : List Nat) : Bool :=
  let w0 := ws.getD 0 0
  let w1 := ws.getD 1 0
  let c := w0 % 16
  natBits w0 31 16 == 0 && natBits w0 7 4 == 0 && natBits w1 63 40 == 0 && (ws.drop 2).all (· == 0)
    && decide (1 ≤ c ∧ c ≤ 7) && natBits w0 15 8 == tileBlocks b
    && (!isSparse c || natBits w1 39 32 == popcount (BitVec.ofNat 32 w1))

/-- Values of one block of 32 elements as a CX tile of a dense format holds it: exponents, then packed elements. -/
def blockValues (c : Nat) (e0 e1 : Nat) (bs : List Byte) : List Float.Val :=
  (List.range 32).map (fun i =>
    if isDx c then (elemAt (isDx8 c) bs i).value (isDx8 c) e0 e1
    else Float.read (plainFmt c) (ofBytes ((bs.drop (plainSize c * i)).take (plainSize c))))

/-- Index word of a sparse vector: the rows of group g's kept elements (R258). -/
def keptRows (idx g : Nat) : Nat × Nat := (4 * g + idx / 2 ^ (4 * g) % 4, 4 * g + idx / 2 ^ (4 * g + 2) % 4)

/-- Every group of an index word is valid. -/
def indexOk (idx : Nat) : Bool := (List.range 8).all (fun g => decide ((keptRows idx g).1 < (keptRows idx g).2))

/-- The 32 elements of a sparse vector, its dropped ones none. -/
def sparseVector (d8 : Bool) (idx : Nat) (kept : List Byte) : List (Option Elem) :=
  (List.range 32).map (fun k =>
    let g := k / 4
    let r := keptRows idx g
    if k = r.1 then some (elemAt d8 kept (2 * g))
    else if k = r.2 then some (elemAt d8 kept (2 * g + 1))
    else none)

end Sys2Proof.Tensor
end

