-- ==== Sys2Proof/Machine/System.lean ====
section
/-! DEFINITION. Meanings of the system registers (R37, R38, R218, R219), traps and their return (R220, R344-R348),
BRKPT (R221), barriers (R190-R193, R215, R216) and GANGSET (R195, R217). -/

namespace Sys2Proof.Machine

/-! ## Reading (R37, R345) -/

/-- The record of the fault whose handler the path runs. -/
def Path.rcd (p : Path) : FaultRec := match p.handler with | some h => h.rcd | none => { }

def fclass (r : FaultRec) : Nat :=
  r.cause.toNat + r.cls.toNat * 2 ^ 8 + boolNat r.lane * 2 ^ 16 + boolNat r.dev * 2 ^ 17 + boolNat r.async * 2 ^ 18

/-- Registers 0x031 to 0x038; outside a handler they read 0. -/
def faultReg (c : Ctx) (p : Path) (n : Nat) : Nat :=
  match p.handler with
  | none => 0
  | some h =>
    match n with
    | 0x31 => fclass h.rcd
    | 0x32 => bitsN h.rcd.addr 63 0
    | 0x33 => bitsN h.rcd.addr 71 64
    | 0x34 => bitsN h.rcd.mask 63 0
    | 0x35 => bitsN h.rcd.mask 127 64
    | 0x36 => c.wordOff h.pc
    | 0x37 => h.rcd.flpc.toNat
    | _ => h.rcd.fdata.toNat

/-- Bit 16 and the serial of a path that is a fragment. -/
def fragSerial (s : State) : Nat :=
  match s.cp.frag.bind (fun e => (s.core (coreOf s.cur.1)).frags.find e) with
  | some f => 2 ^ 16 + f.serial.toNat
  | none => 0

/-- The value of a system register, for every listed number but those of the Prologue Unit alone. -/
def sysValue (s : State) (n : Nat) : Option DWord :=
  let w := s.cw
  let p := s.cp
  let wid := s.cur.1
  let m := p.mask &&& ~~~w.exited
  let v (x : Nat) : Option DWord := some (BitVec.ofNat 64 x)
  if n = 0x00 then v (lowestLane m)
  else if n = 0x01 then v (wid % 64)
  else if n = 0x02 then some s.cteam.teamid
  else if n = 0x03 then v (dieOf wid * 256 + coreOf wid % 200)
  else if n = 0x04 then v (bitsN m 63 0)
  else if n = 0x05 then v (bitsN m 127 64)
  else if n = 0x06 then v (bitsN w.dead 63 0)
  else if n = 0x07 then v (bitsN w.dead 127 64)
  else if n = 0x08 then v (fragSerial s)
  else if n = 0x09 then v w.budget
  else if n = 0x0A then some w.role
  else if n = 0x10 then some s.cctx.covlost
  else if n = 0x11 then some s.cycle
  else if n = 0x12 then some w.fpctl
  else if n = 0x13 then some w.racectl
  else if n = 0x20 then v (textbaseN s.cctx)
  else if n = 0x21 then v (lanebaseN s.cctx)
  else if n = 0x30 then some s.cctx.trap
  else if 0x31 ≤ n ∧ n ≤ 0x38 then v (faultReg s.cctx p n)
  else if n = 0x39 then v p.fdisp.toNat
  else if 0x40 ≤ n ∧ n ≤ 0x47 then some (w.lvl.get (n - 0x40))
  else if 0x100 ≤ n ∧ n ≤ 0x11F then some (s.link (n - 0x100)).dlctl
  else none

/-- Registers of access P (R37). -/
def sysPriv (n : Nat) : Bool := n == 0x30 || decide (0x100 ≤ n ∧ n ≤ 0x11F)
/-- Registers SYSW may write. -/
def sysWritable (n : Nat) : Bool := n == 0x12 || n == 0x13 || n == 0x39 || sysPriv n

/-! ## The waits of R219 -/

/-- Runs enqueued by the warp's paths in slots or on the stack. -/
def Warp.runIds (w : Warp) : List Nat := ((w.places.map (fun k => match w.slot k with | some p => p.queue.map (·.id) | none => [])).flatten)

/-- SYSR and SYSW of sys.fpctl and sys.racectl act when every run that was enqueued before them has completed. -/
def afterWarpRuns (n : Nat) (body : State → State) (s : State) : State :=
  if n ≠ 0x12 ∧ n ≠ 0x13 then body s
  else
    let ids := s.cp.awaits.getD s.cw.runIds
    let left := ids.filter (fun i => s.cw.runIds.contains i)
    if left.isEmpty then body s else (s.modP (fun p => { p with awaits := some left })).wait 14

def execSysr (d : BitVec 6) (n : BitVec 12) (s : State) : Out :=
  scalarForm (.sysr d n) s (fun s =>
    if s.inPu then
      (if n = 0x11 then (s.setS d s.cycle).advance
       else if n = 0x0C then
         let l := (s.pu.bind (fun r => (s.queue r.ctx r.q).entry)).bind (·.launch)
         (s.setS d (BitVec.ofNat 64 ((l.map (·.repeats)).getD 0))).advance
       else s.puFault 2)
    else
      match sysValue s n.toNat with
      | none => s.illegalScalar .sysreg
      | some _ =>
        if sysPriv n.toNat && !s.cw.priv then s.scalarFault 2 4 0 0
        else afterWarpRuns n.toNat (fun s => (s.setS d ((sysValue s n.toNat).getD 0)).advance) s)

/-- Writes a system register: bits marked RO are ignored (R38, R138, R343, R345, R90). -/
def State.sysWrite (s : State) (n : Nat) (x : DWord) : State :=
  if n = 0x12 then s.modW (fun w => { w with fpctl := x &&& 0x1F0000001F#64 })
  else if n = 0x13 then s.modW (fun w => { w with racectl := x &&& 3#64 })
  else if n = 0x39 then (if bitsN x 1 0 = 3 then s else s.modP (fun p => { p with fdisp := BitVec.ofNat 2 (bitsN x 1 0) }))
  else if n = 0x30 then s.modCtx s.cw.ctx (fun c => { c with trap := x &&& 0x80000000FFFFFFFF#64 })
  else s.modLink (n - 0x100) (·.writeDlctl x)

def execSysw (sn : BitVec 6) (n : BitVec 12) (s : State) : Out :=
  scalarForm (.sysw sn n) s (fun s =>
    if !sysWritable n.toNat then s.illegalScalar .sysreg
    else if sysPriv n.toNat && !s.cw.priv then s.scalarFault 2 4 0 0
    else afterWarpRuns n.toNat (fun s => (s.sysWrite n.toNat (s.sReg sn)).advance) s)

/-! ## TRAP, TRET, BRKPT -/

/-- A software trap: the whole path, which resumes after the TRAP (R220). -/
def State.trapNow (s : State) (code : BitVec 8) : State :=
  let s := s.advance
  if s.path?.isNone then s
  else
    s.raiseAt s.cur.1 s.cur.2 fullMask
      { cls := 0x13, cause := code, mask := s.cp.liveMask s.cw, flpc := BitVec.allOnes 20
        fdata := code.setWidth 64, after := true }

def execTrap (code : BitVec 8) (s : State) : Out := scalarForm (.trap code) s (fun s => s.trapNow code)

/-- The handler's path as it stood at its saved point (R344, R346). -/
def Path.leaveHandler (p : Path) (w : Warp) (h : Handler) : Path :=
  { p with
    handler := none, s := h.s.foldl (fun c e => c.set e.1 e.2) (p.s.clear 56 8), q := h.q, pc := h.pc
    queue := refreshRuns w h.queue, windows := h.windows, stall := 0, lstall := 0, both := false, begun := false, skipBp := false }

/-- A replay whose access the race check kept back performs it from its saved values; lanes that fail again, in the
check or now in their translation, are raised anew with what is left of it (R136, R346). -/
def State.replayHeld (s : State) (h : RaceHold) : State :=
  let live := s.cp.liveMask s.cw
  let h := { h with lanes := h.lanes.filter (fun x => h.scalar || bitB live x.lane) }
  let r := s.performHeld h
  let s := r.1
  let keep (g : RaceHold) (rcd : FaultRec) : FaultRec :=
    { rcd with lane := !h.scalar, flpc := if h.scalar then BitVec.allOnes 20 else BitVec.ofNat 20 s.cp.lpc, after := true, race := some g }
  let bad := badSplit s r.2.2
  let left : RaceHold := { h with lanes := h.lanes.filter (fun x => r.2.2.any (fun b => b.lane = x.lane)) }
  let lanes (m : Mask) : Mask := if h.scalar && m ≠ 0 then fullMask else m
  let again : List Split := match r.2.1 with
    | none => []
    | some g =>
      let m := lanes (maskOf (g.lanes.map (·.lane)))
      [{ lanes := m
         rcd := keep g { cls := 4, cause := 1, addr := (match g.lanes with | x :: _ => x.ea | [] => 0), mask := m &&& live
                         fdata := BitVec.ofNat 64 (g.iv.toNat * 2 ^ 32 + g.wr.toNat) } }]
  s.raiseGroups s.cp.mask (({ bad with lanes := lanes bad.lanes, rcd := keep left { bad.rcd with mask := lanes bad.rcd.mask &&& live } } :: again).filter
    (fun g => g.lanes ≠ 0))

/-- The return from an exception (R346). -/
def State.tret (s : State) : State :=
  let p := s.cp
  match p.handler with
  | none => s.scalarFault 0x10 3 0 0
  | some h =>
    if !s.runsDone then s.wait 14
    else if !s.performed then s.wait 5
    else
      let disp := p.fdisp.toNat
      let s := (s.modP (fun p => p.leaveHandler s.cw h)).progress
      if disp = 2 then (s.exitLanes s.cur.1 p.mask).checkLatch (coreOf s.cur.1)
      else
        let s := s.modP (fun p => Path.stepped false (p.resume h.rcd (disp = 1)))
        match h.rcd.race with
        | some r => if disp = 0 then s.replayHeld r else s
        | none => s

def execTret (s : State) : Out := scalarForm .tret s State.tret

/-- BRKPT stops the path after its own issue, while a debugger is attached with breakpoints on (R221, R371). -/
def execBrkpt (t : BitVec 12) (s : State) : Out :=
  scalarForm (.brkpt t) s (fun s =>
    let s := s.advance
    if bitB s.cctx.dbgctl 63 && bitB s.cctx.dbgctl 62 then
      let s := s.modP (fun p => { p with stopped := true, stepping := 0 })
      s.trace s.cur.1 0 s.cur.2 s.cp 5 (BitVec.ofNat 64 (t.toNat * 2 ^ 16 + 8))
    else s)

/-! ## Barriers -/

/-- The path's lanes arrive at a barrier (R190, R216), unless one of them has arrived in the current phase. -/
def State.arrive (s : State) (b : Nat) : Option State :=
  let wid := s.cur.1
  let t := s.cw.team
  let live := s.cp.liveMask s.cw
  if (s.cteam.barriers.getD b {}).arrived.get wid &&& live ≠ 0 then none
  else
    let s := s.releaseP
    let s := s.modTeam t (fun x =>
      let k := x.barriers.getD b {}
      { x with barriers := x.barriers.put b { k with
        arrived := k.arrived.set wid (k.arrived.get wid ||| live), ivs := k.ivs.set (wrOf wid).toNat s.cw.interval } })
    some (s.checkBarrier t b)

/-- None of the path's lanes is counted in a phase still open (R192). -/
def State.phaseOver (s : State) (b : Nat) : Bool :=
  (s.cteam.barriers.getD b {}).arrived.get s.cur.1 &&& s.cp.liveMask s.cw == 0

/-- The path is blocked at a barrier and may yield its slot (R193, R216). -/
def State.barrierWait (s : State) (b : Nat) : State :=
  ((s.modP (fun p => { p with bar := some b })).wait 7).yieldSlot s.cur.1 s.cur.2

/-- Waits for the phase its lanes last arrived in (R192). -/
def State.waitPhase (s : State) (b : Nat) : State := if s.phaseOver b then s.advance else s.barrierWait b

/-- The arrival of BARA and BARAW, then what follows it (R216). -/
def arrival (b : Nat) (after : State → State) (s : State) : State :=
  if !s.runsDone then s.wait 14
  else if !s.performed then s.wait 5
  else match s.arrive b with
    | none => s.barrierWait b
    | some s => after s

def execBara (b : BitVec 4) (s : State) : Out := scalarForm (.bara b) s (arrival b.toNat State.advance)

def execBarw (b : BitVec 4) (s : State) : Out := scalarForm (.barw b) s (fun s => s.waitPhase b.toNat)

def execBaraw (b : BitVec 4) (s : State) : Out :=
  scalarForm (.baraw b) s (fun s =>
    if s.cp.begun then s.waitPhase b.toNat
    else arrival b.toNat (fun s => (s.modP (fun p => { p with begun := true })).waitPhase b.toNat) s)

/-! ## GANGSET -/

/-- The check of R217. -/
def gangOk (warps : Nat) (v : DWord) : Bool :=
  let n := bitsN v 34 32
  let ws := gangList v
  bitsN v 63 44 == 0 && bitsN v 37 35 == 0 && bitsN v 31 24 == 0 && decide (2 ≤ n ∧ n ≤ 6)
    && ws.all (fun i => decide (i < warps)) && decide (ws.Nodup)
    && (List.range 6).all (fun i => decide (i < n) || bitsN v (4 * i + 3) (4 * i) == 0)
    && decide (bitsN v 43 41 + bitsN v 40 38 ≤ 7)

def execGangset (sn : BitVec 6) (s : State) : Out :=
  scalarForm (.gangset sn) s (fun s =>
    let v := s.sReg sn
    if v = 0 || gangOk s.cteam.warps.length v then (s.modW (fun w => { w with g0 := v })).advance
    else s.scalarFault 0x10 2 0 0)

end Sys2Proof.Machine
end

