-- ==== Sys2Proof/Machine/Tree.lean ====
section
/-! DEFINITION. The change tree: node records, roll-up steps, settles and watches (R96-R107), and the meanings of the
change-tree forms (R108-R116) and of the roll-up events. -/

namespace Sys2Proof.Machine

/-! ## Records -/

def nodeKey (ctx n : Nat) : Nat := ctx * 2 ^ 20 + n

/-- A node's record. -/
def State.node (s : State) (ctx n : Nat) : Node := s.nodes.getD (nodeKey ctx n) {}

def State.modNode (s : State) (ctx n : Nat) (f : Node → Node) : State :=
  { s with nodes := s.nodes.put (nodeKey ctx n) (f (s.node ctx n)) }

/-- The context has a tree: from its start on (R96), and not while its image holds the tree (R119). DEDUCED (log
138): the nodes of a frozen context are not live. -/
def State.treeRuns (s : State) (ctx : Nat) : Bool :=
  let c := s.ctx ctx
  c.started && decide (ctx < 256 ∧ c.st ≠ .frozen ∧ c.st ≠ .restoring)

/-- A node is live: the root as long as the context has a tree. -/
def State.nodeLive (s : State) (ctx n : Nat) : Bool := if n = 0 then s.treeRuns ctx else (s.nodes.find (nodeKey ctx n)).isSome

/-- Valid watch references of a node: system and slot. -/
def Node.watches (x : Node) : List (Nat × Nat) :=
  ((List.range 4).map (fun i => bitsN x.wref (16 * i + 15) (16 * i))).filter (fun r => r ≥ 2 ^ 15) |>.map (fun r => (r / 64 % 64, r % 64))

/-- A tree bump, or a change carried to a node: COUNT, PEND, and one event for each watch (R100, R105). -/
def State.bumpNode (s : State) (ctx n : Nat) : State :=
  let s := s.modNode ctx n (fun x => { x with count := x.count + 1, pend := true })
  { s with watchEvents := s.watchEvents ++ (s.node ctx n).watches }

/-- The record's four words (R97). -/
def State.nodeWords (s : State) (ctx n : Nat) : List DWord :=
  let x := s.node ctx n
  [ x.count,
    BitVec.ofNat 64 (boolNat (s.nodeLive ctx n) * 2 ^ 63 + boolNat x.pend * 2 ^ 62 + x.depth.toNat * 2 ^ 57
      + x.first.toNat * 2 ^ 20 + x.parent.toNat),
    BitVec.ofNat 64 (x.next.toNat * 2 ^ 44 + x.enrol.toNat), x.wref ]

/-! ## Steps (R101) -/

/-- Owner of a granule's frame, as context + 1; 0 for none. -/
def Mem.ownerOf (m : Mem) (g : Nat) : Nat := if m.owner.get (g / 16) = 511 then 0 else (m.owner.get (g / 16)).toNat

/-- The mark of a granule whose owner has no tree yet, or none now, stays for the tree to carry later (R96, R119). -/
def State.granuleStep (s : State) (g : Nat) : State :=
  if s.mem.pend.get g = 0 then s
  else
    let o := s.mem.ownerOf g
    if o ≠ 0 && !s.treeRuns (o - 1) then s
    else
      let s' := s.modMem (fun m => { m with pend := m.pend.set g 0 })
      if o = 0 || (s.ctx (o - 1)).st = .tornDown then s' else s'.bumpNode (o - 1) (s.mem.enrol.get g).toNat

def State.nodeStep (s : State) (ctx n : Nat) : State :=
  let x := s.node ctx n
  if !x.pend || !s.treeRuns ctx then s
  else
    let s := s.modNode ctx n (fun x => { x with pend := false })
    if n = 0 then s else s.bumpNode ctx x.parent.toNat

/-! ## Subtrees and settles (R103) -/

/-- n is m or lies above it. -/
def State.above (s : State) (ctx n : Nat) : Nat → Nat → Bool
  | 0, m => m == n
  | k + 1, m => m == n || (m != 0 && s.above ctx n k (s.node ctx m).parent.toNat)

/-- Nodes of the subtree of n, n included. -/
def State.subtree (s : State) (ctx n : Nat) : List Nat :=
  n :: ((s.nodes.filter (fun e => e.1 / 2 ^ 20 = ctx)).map (fun e => e.1 % 2 ^ 20)).filter (fun m => m != n && s.above ctx n 32 m)

/-- Pending granules beneath the nodes of a list. -/
def State.pendingUnder (s : State) (ctx : Nat) (ns : List Nat) : List Nat :=
  (s.mem.pend.map (·.1)).filter (fun g => s.mem.ownerOf g == ctx + 1 && ns.contains (s.mem.enrol.get g).toNat)

/-- Carries every mark beneath n and in its subtree to n: granules, then nodes from the deepest up. -/
def State.settleNode (s : State) (ctx n : Nat) : State :=
  let ns := s.subtree ctx n
  let s := (s.pendingUnder ctx ns).foldl State.granuleStep s
  (List.range 32).foldl (fun s i =>
    (ns.filter (fun m => m != n && (s.node ctx m).depth.toNat == 31 - i)).foldl (fun s m => s.nodeStep ctx m) s) s

/-! ## The forms' operands and faults (R109) -/

/-- A node operand: a live node's index. -/
def State.nodeOperand (s : State) (r : BitVec 6) (rootOk : Bool) : Option Nat :=
  let x := (s.sReg r).toNat
  if x < 2 ^ 20 && s.nodeLive s.cw.ctx x && (rootOk || x != 0) then some x else none

def State.treeFault (s : State) (cause : Nat) : State := s.scalarFault 0x10 cause 0 0

/-- A form that acts on a node operand. -/
def State.atNode (s : State) (r : BitVec 6) (rootOk : Bool) (body : State → Nat → State) : State :=
  match s.nodeOperand r rootOk with
  | some n => body s n
  | none => s.treeFault 4

/-- Waits until every store of the path's streams is performed (R103). -/
def afterStores (body : State → State) (s : State) : State :=
  if !s.runsDone then s.wait 14 else if !s.performed then s.wait 4 else body s

/-- Translates granules from an address up as accesses that move no data; answers their numbers. -/
def State.granules (s : State) (va : Nat) : Nat → State × Except (XFault × Nat) (List Nat)
  | 0 => (s, .ok [])
  | n + 1 =>
    match earlyFault 1 (va : Int) with
    | some x => (s, .error (x, va))
    | none =>
      match translate s s.agent va .noData with
      | (s, .error x) => (s, .error (x, va))
      | (s, .ok h) =>
        match State.granules s (va + 4096) n with
        | (s, .ok gs) => (s, .ok (h.pa / 4096 :: gs))
        | (s, .error x) => (s, .error x)

/-- Base and count of an enrolment range, translated whole before anything is changed. -/
def State.atRange (s : State) (a : BitVec 4) (c : BitVec 6) (body : State → List Nat → State) : State :=
  let va := (s.aReg a).toNat
  let n := (s.sReg c).toNat
  if va % 4096 ≠ 0 ∨ n < 1 ∨ 1048576 < n then s.treeFault 9
  else
    match s.granules va n with
    | (s, .ok gs) => body s gs
    | (s, .error x) => s.scalarXfault x.1 (BitVec.ofNat 72 x.2)

/-! ## Enrolment (R111) -/

/-- Moves one granule of the context under node n; answers the node that lost it. -/
def State.enrol1 (s : State) (ctx n g : Nat) : State × List Nat :=
  let old := (s.mem.enrol.get g).toNat
  if s.mem.ownerOf g ≠ ctx + 1 ∨ old = n then (s, [])
  else
    let s := s.granuleStep g
    let s := s.modMem (fun m => { m with enrol := m.enrol.set g (BitVec.ofNat 20 n) })
    let s := if n = 0 then s else s.modNode ctx n (fun x => { x with enrol := x.enrol + 1 })
    let s := if old = 0 then s else s.modNode ctx old (fun x => { x with enrol := x.enrol - 1 })
    (s, [old])

/-- Moves granules under node n; it and each node that loses granules take one tree bump. -/
def State.enrolAll (s : State) (ctx n : Nat) (gs : List Nat) : State :=
  let r := gs.foldl (fun (r : State × List Nat) g => let x := r.1.enrol1 ctx n g; (x.1, r.2 ++ x.2)) (s, [])
  if r.2.isEmpty then r.1 else (r.2.eraseDups.foldl (fun s m => s.bumpNode ctx m) r.1).bumpNode ctx n

/-! ## Links between nodes -/

/-- Takes a node out of its parent's child list. -/
def State.unlink (s : State) (ctx n : Nat) : State :=
  let x := s.node ctx n
  let p := x.parent.toNat
  if (s.node ctx p).first.toNat = n then s.modNode ctx p (fun y => { y with first := x.next })
  else
    match s.nodes.find? (fun e => e.1 / 2 ^ 20 = ctx && e.2.parent = x.parent && e.2.next.toNat = n) with
    | some e => s.modNode ctx (e.1 % 2 ^ 20) (fun y => { y with next := x.next })
    | none => s

/-! ## Meanings -/

/-- A result of a tree form under its lookahead (R45). -/
def State.treeResult (s : State) (d : BitVec 6) (l : BitVec 4) (x : DWord) : State :=
  (s.result false l.toNat [.s d.toNat] [.s d.toNat x] [] none).advance

def execCnode (d p : BitVec 6) (l : BitVec 4) (s : State) : Out :=
  scalarForm (.cnode d p l) s (fun s => s.atNode p true (fun s a =>
    let ctx := s.cw.ctx
    match s.nodes.freeKey (nodeKey ctx 1) (2 ^ 20 - 1) with
    | none => s.treeFault 5
    | some k =>
      if (s.node ctx a).depth = 31 then s.treeFault 6
      else
        let n := k - nodeKey ctx 0
        let x : Node := { depth := (s.node ctx a).depth + 1, parent := BitVec.ofNat 20 a, next := (s.node ctx a).first }
        let s := (s.modNode ctx n (fun _ => x)).modNode ctx a (fun y => { y with first := BitVec.ofNat 20 n })
        (s.bumpNode ctx a).treeResult d l (BitVec.ofNat 64 n)))

def execCenrol (n : BitVec 6) (a : BitVec 4) (c : BitVec 6) (s : State) : Out :=
  scalarForm (.cenrol n a c) s (fun s => s.atNode n true (fun s x =>
    afterStores (fun s => s.atRange a c (fun s gs => (s.enrolAll s.cw.ctx x gs).advance)) s))

def execCunrol (a : BitVec 4) (c : BitVec 6) (s : State) : Out :=
  scalarForm (.cunrol a c) s (afterStores (fun s => s.atRange a c (fun s gs => (s.enrolAll s.cw.ctx 0 gs).advance)))

def execCread (d n : BitVec 6) (l : BitVec 4) (s : State) : Out :=
  scalarForm (.cread d n l) s (fun s => s.atNode n true (fun s x => s.treeResult d l (s.node s.cw.ctx x).count))

/-- The settle of a node by the issuing path, which acquires what the count includes; answers the count. The spec states
none for a node that has been freed while the settle waited: a free value (log 10). -/
def State.settleCount (s : State) (n : Nat) : State × DWord :=
  let s := (s.settleNode s.cw.ctx n).acquireP 2 [none]
  if s.nodeLive s.cw.ctx n then (s, (s.node s.cw.ctx n).count)
  else
    let (d, s) := s.draw
    (s, Config.freeDWord d)

/-- CSETTLE settles the node once the stores before it are performed; till then its window runs (R103, R104, R113). -/
def execCsettle (d n : BitVec 6) (l : BitVec 4) (s : State) : Out :=
  scalarForm (.csettle d n l) s (fun s => s.atNode n true (fun s x =>
    if s.runsDone && s.performed then
      let r := s.settleCount x
      r.1.treeResult d l r.2
    else
      (s.modP (fun p => { p with windows := p.windows ++
        [{ lane := false, left := l.toNat + 1, dests := [.s d.toNat], pend := some (.settle x d.toNat (p.queue.map (·.id))) }] })).advance))

/-- A watch reference as WREF holds it. -/
def wrefOf (sys slot : Nat) : Nat := 2 ^ 15 + sys * 64 + slot

/-- The context owns the system number (R397). -/
def State.ownsSys (s : State) (ctx n : Nat) : Bool :=
  let r := s.hub.ssown.get n
  decide (n < 64) && bitB r 63 && bitsN r 7 0 == ctx

/-- Lowest WREF of a node with the given value. -/
def Node.wrefAt (x : Node) (test : Nat → Bool) : Option Nat := (List.range 4).find? (fun i => test (bitsN x.wref (16 * i + 15) (16 * i)))

/-- CWATCH. DESIGN CHOICE (log 117): V and NODE of the watch slot are those that ATTACH read; the spec does not say
whether a program's later write of the table counts (R109, R281). -/
def execCwatch (n y z : BitVec 6) (s : State) : Out :=
  scalarForm (.cwatch n y z) s (fun s => s.atNode n true (fun s x =>
    let ctx := s.cw.ctx
    let sys := (s.sReg y).toNat
    let w := (s.sReg z).toNat
    let slot := w % 64
    let node := s.node ctx x
    if w ≥ 128 then s.treeFault 9
    else
      match s.systems.find sys with
      | none => s.treeFault 10
      | some q =>
        if !s.ownsSys ctx sys || q.ctx ≠ ctx || !((q.watch.find slot).any (fun e => e.1 == x)) then s.treeFault 10
        else
          let place := if w ≥ 64 then node.wrefAt (fun r => r == wrefOf sys slot) else node.wrefAt (fun r => decide (r < 2 ^ 15))
          match place with
          | none => s.treeFault 10
          | some i =>
            let v := if w ≥ 64 then 0 else wrefOf sys slot
            (s.modNode ctx x (fun y => { y with wref := putBits y.wref (16 * i + 15) (16 * i) v })).advance))

/-- The move of a subtree under a new parent (R106). -/
def State.reparent (s : State) (ctx n q : Nat) : State :=
  let old := (s.node ctx n).parent.toNat
  let s := (s.settleNode ctx n).nodeStep ctx n
  let up := (s.node ctx q).depth.toNat + 1
  let was := (s.node ctx n).depth.toNat
  let ns := s.subtree ctx n
  let s := (s.unlink ctx n).bumpNode ctx old
  let s := ns.foldl (fun s m => s.modNode ctx m (fun x => { x with depth := BitVec.ofNat 5 (x.depth.toNat + up - was) })) s
  let s := s.modNode ctx n (fun x => { x with parent := BitVec.ofNat 20 q, next := (s.node ctx q).first })
  (s.modNode ctx q (fun x => { x with first := BitVec.ofNat 20 n })).bumpNode ctx q

def execCrepar (n p : BitVec 6) (s : State) : Out :=
  scalarForm (.crepar n p) s (fun s => s.atNode n false (fun s x => s.atNode p true (fun s q =>
    let ctx := s.cw.ctx
    let ns := s.subtree ctx x
    let was := (s.node ctx x).depth.toNat
    let deepest := ns.foldl (fun m k => max m (s.node ctx k).depth.toNat) was
    if 31 < (s.node ctx q).depth.toNat + 1 + (deepest - was) then s.treeFault 6
    else if ns.contains q then s.treeFault 7
    else if (s.node ctx x).parent.toNat = q then s.advance
    else (s.reparent ctx x q).advance)))

def execCfree (n : BitVec 6) (s : State) : Out :=
  scalarForm (.cfree n) s (fun s => s.atNode n false (fun s x =>
    let ctx := s.cw.ctx
    let y := s.node ctx x
    if y.first ≠ 0 || y.enrol ≠ 0 || !y.watches.isEmpty then s.treeFault 8
    else
      let s := s.unlink ctx x
      let s := { s with nodes := s.nodes.erase (nodeKey ctx x) }
      (s.bumpNode ctx y.parent.toNat).advance))

def execCreadG (d : BitVec 6) (a l : BitVec 4) (s : State) : Out :=
  scalarForm (.creadG d a l) s (fun s =>
    match s.granules (s.aReg a).toNat 1 with
    | (s, .ok gs) => s.treeResult d l (BitVec.ofNat 64 (s.mem.counts.get (gs.headD 0)).toNat)
    | (s, .error x) => s.scalarXfault x.1 (BitVec.ofNat 72 x.2))

/-! ## Roll-up events (R101) -/

/-- An event of the module's own agents: nothing happens once a fatal error has stopped it (R364), and one whose access
finds its drawer link stalled or its queue full waits for it (R82, R94). -/
def eventForm (i : Instr) (s : State) (body : State → State) : Out :=
  if s.hub.fatal then .fault .halted else .next ((body s).orWait s (.event i))

/-- An event that makes no access of memory that could wait. -/
def plainForm (s : State) (body : State → State) : Out := if s.hub.fatal then .fault .halted else .next (body s)

def execRollupGranuleStep (granule : Nat) (s : State) : Out := eventForm (.rollupGranuleStep granule) s (fun s => s.granuleStep granule)
def execRollupNodeStep (ctx node : Nat) (s : State) : Out := eventForm (.rollupNodeStep ctx node) s (fun s => s.nodeStep ctx node)

/-! ## Frames that change owner (R98, R100, R357) -/

/-- The hardware zeroes a frame: each of its granules is bumped, and its race stamps and poison are cleared (R99, R357). -/
def Mem.zeroFrame (m : Mem) (frame : Nat) : Mem :=
  let m := m.bumpSpan (frame * 65536) 65536
  { m with
    bytes := m.bytes.clear (frame * 65536) 65536
    poison := m.poison.clear (frame * 2048) 2048
    stamps := m.stamps.clear (frame * 2048) 2048 }

/-- The page allocator gives a frame without an owner to a context. Counts are 0 when a frame first has one (R98). -/
def State.giveFrame (s : State) (frame ctx : Nat) : State :=
  let o := s.mem.owner.get frame
  if !mappable s (frame * 65536) 65536 || isHost (frame * 65536) || !(o == 0 || o == 511) || 256 ≤ ctx then s
  else s.modMem (fun m =>
    let m := m.zeroFrame frame
    let m := if o = 511 then m else { m with counts := m.counts.clear (frame * 16) 16, pend := m.pend.clear (frame * 16) 16 }
    { m with owner := m.owner.set frame (BitVec.ofNat 9 (ctx + 1)), enrol := m.enrol.clear (frame * 16) 16 })

/-- A page's granules leave their nodes, each of which takes a tree bump, and changes not yet carried are carried first
(R100); the root takes one too where granules of a page unmapped stay the context's (log 139). -/
def State.leaveNodes (s : State) (ctx : Nat) (gs : List Nat) (root : Bool) : State :=
  let s := gs.foldl State.granuleStep s
  let left := gs.map (fun g => (s.mem.enrol.get g).toNat)
  let s := left.foldl (fun (s : State) n => if n = 0 then s else s.modNode ctx n (fun x => { x with enrol := x.enrol - 1 })) s
  let s := ((if root then [0] else []) ++ left).eraseDups.foldl (fun (s : State) n => s.bumpNode ctx n) s
  s.modMem (fun m => { m with enrol := gs.foldl (fun t g => t.set g 0) m.enrol })

def Image.node (i : Image) (n : Nat) : Node := i.nodes.getD n {}

def Image.bumpNode (i : Image) (n : Nat) : Image :=
  let x := i.node n
  { i with nodes := i.nodes.put n { x with count := x.count + 1, pend := true }, watchEvents := i.watchEvents ++ x.watches }

/-- What an image's tree takes when granules leave their nodes while it holds the tree (R100, R119). -/
def Image.leaveNodes (i : Image) (marks : Cells 1) (gs : List Nat) (root : Bool) : Image :=
  let nodeOf (g : Nat) : Nat := (i.enrol.get g).toNat
  let marked := gs.filter (fun g => i.pend.get g ≠ 0 || marks.get g ≠ 0)
  let left := gs.map nodeOf
  let i := (marked.map nodeOf).foldl Image.bumpNode i
  let unrol (i : Image) (n : Nat) : Image :=
    if n = 0 then i else { i with nodes := i.nodes.put n { i.node n with enrol := (i.node n).enrol - 1 } }
  let i := left.foldl unrol i
  let i := ((if root then [0] else []) ++ left).eraseDups.foldl Image.bumpNode i
  { i with pend := gs.foldl (fun t g => t.set g 0) i.pend, enrol := gs.foldl (fun t g => t.set g 0) i.enrol }

/-- An image that holds a frame of the owner: its own context's, or that of the context it is being restored into. -/
def State.imageHolds (s : State) (k : Nat) (i : Image) (owner frame : Nat) : Bool :=
  i.frames.contains frame
    && (i.ctx + 1 == owner || ((s.ctx (owner - 1)).st == .restoring && (s.ctx (owner - 1)).image == k))

/-- The granules of an owned frame leave their nodes, in the tree or in the image that holds it. A frame freed leaves the
image too. -/
def State.leaveFrame (s : State) (frame : Nat) (freed : Bool) : State :=
  let o := (s.mem.owner.get frame).toNat
  let gs := (List.range 16).map (fun i => frame * 16 + i)
  let s := if s.treeRuns (o - 1) && (s.ctx (o - 1)).st != .tornDown then s.leaveNodes (o - 1) gs (!freed) else s
  let held (k : Nat) (i : Image) : Image :=
    if s.imageHolds k i o frame then
      let i := i.leaveNodes s.mem.pend gs (!freed)
      { i with frames := if freed then i.frames.filter (· != frame) else i.frames }
    else i
  let inImage := s.images.any (fun i => s.imageHolds i.1 i.2 o frame)
  let s : State := { s with images := s.images.map (fun i => (i.1, held i.1 i.2)) }
  s.modMem (fun m => { m with
    pend := if freed || inImage then gs.foldl (fun t g => t.set g 0) m.pend else m.pend
    enrol := gs.foldl (fun t g => t.set g 0) m.enrol })

/-- The driver unmaps a page and frees its frame, which has no owner from then on (R100). -/
def State.freeFrame (s : State) (frame : Nat) : State :=
  let o := s.mem.owner.get frame
  if o = 0 ∨ o = 511 then s
  else (s.leaveFrame frame true).modMem (fun m => { m with owner := m.owner.set frame 511 })

/-- The driver unmaps a page: its leaf is written with V = 0, its translations are dropped, and the granules of its frame
leave their nodes where the context owns it, the root with a bump too. DEDUCED (log 139): R100 has a page that leaves its
context do so, and the frame stays the context's until it is freed. -/
def State.unmapPage (s : State) (ctx vpn : Nat) : State :=
  match peekLeaf s ctx (pageVa vpn) with
  | .leaf 4 e at_ =>
    let frame := pteBase e / 65536
    let s := s.modMem (·.quiet at_ (bytesOf 8 (putBit e 63 false).toNat))
    let s := dropPages s (xdSpace (s.ctx ctx).xdesc) (pageVa vpn) 1 65536
    if (s.mem.owner.get frame).toNat = ctx + 1 then s.leaveFrame frame false else s
  | _ => s

/-- The driver begins the move of a page: firmware writes its leaf with V = 0 and shoots its translations down (R264). -/
def State.beginMove (s : State) (ctx vpn : Nat) : State :=
  match peekLeaf s ctx (pageVa vpn) with
  | .leaf 4 e at_ =>
    if s.moving ctx vpn || ptePl e = 3 then s
    else
      let s := s.modMem (·.quiet at_ (bytesOf 8 (putBit e 63 false).toNat))
      let s := dropPages s (xdSpace (s.ctx ctx).xdesc) (pageVa vpn) 1 65536
      { s with moves := s.moves ++ [(ctx, vpn, e, at_)] }
  | _ => s

end Sys2Proof.Machine
end

