-- ==== Sys2Proof/Machine/Engine.lean ====
section
/-! DEFINITION. The tensor copy engine: shape records (R259-R261), entries and their progress (R262-R264), what each
entry moves (R267-R269), and the engine's stamps and requests (R81, R161, R366). -/

namespace Sys2Proof.Machine

open Tensor (isDx isDx8 isSparse plainFmt plainSize tileBlocks blockBytes tileSize expPlane)

/-! ## Shape records (R259, R260) -/

namespace Shape

def word (r : List DWord) (i : Nat) : DWord := r.getD i 0
def sfmt (r : List DWord) : Nat := bitsN (word r 0) 63 60
def kind (r : List DWord) : Nat := bitsN (word r 0) 59 58
def cfmt (r : List DWord) : Nat := bitsN (word r 0) 57 54
def rmode (r : List DWord) : Nat := bitsN (word r 0) 53 52
def phase0 (r : List DWord) : Nat := bitsN (word r 0) 51 47
def step (r : List DWord) : Nat := let x := bitsN (word r 0) 46 42; if x = 0 then 7 else x
def ring (r : List DWord) : Bool := bitB (word r 0) 41
def gstride (r : List DWord) : Nat := (word r 1).toNat
/-- Tiles down, or raw rows; tiles across, or bytes of a raw row. -/
def tm (r : List DWord) : Nat := bitsN (word r 2) 63 32
def tk (r : List DWord) : Nat := bitsN (word r 2) 31 0
def scale (r : List DWord) : Nat := bitsN (word r 3) 31 0
def cstride (r : List DWord) : Nat := bitsN (word r 8) 31 0
def grows (r : List DWord) : Nat := bitsN (word r 16) 63 32
def gcols (r : List DWord) : Nat := bitsN (word r 16) 31 0

def isRaw (r : List DWord) : Bool := sfmt r == 0
def isB (r : List DWord) : Bool := kind r == 1
/-- Bytes of a stored element, or of a stored block. -/
def elemSize (r : List DWord) : Nat := if sfmt r = 1 then 4 else 2
def blockSize (r : List DWord) : Nat := if sfmt r = 4 then 34 else 18
def plainSrc (r : List DWord) : Float.Fmt := if sfmt r = 1 then Float.f32 else if sfmt r = 2 then Float.h16 else Float.w16
def isPlain (r : List DWord) : Bool := decide (1 ≤ sfmt r ∧ sfmt r ≤ 3)
def isBlocks (r : List DWord) : Bool := sfmt r == 4 || sfmt r == 5

def size (r : List DWord) : Nat := tileSize (isB r) (cfmt r)
def tiles (r : List DWord) : Nat := tm r * tk r
/-- Canvas bytes from tile to tile. -/
def pitch (r : List DWord) : Nat := if cstride r = 0 then size r else cstride r

/-- Bytes of the canvas output, and of the canvas span (R266). -/
def output (r : List DWord) : Nat := if isRaw r then tm r * tk r else tiles r * size r
def span (r : List DWord) : Nat := if isRaw r then tm r * tk r else (tiles r - 1) * pitch r + size r

/-- The three generations agree. -/
def whole (r : List DWord) : Bool :=
  bitsN (word r 7) 63 48 == bitsN (word r 15) 63 48 && bitsN (word r 7) 63 48 == bitsN (word r 23) 63 48

def reservedOk (r : List DWord) : Bool :=
  bitsN (word r 0) 40 0 == 0 && bitsN (word r 3) 63 32 == 0 && bitsN (word r 7) 47 0 == 0
    && bitsN (word r 8) 63 32 == 0 && bitsN (word r 15) 47 0 == 0 && bitsN (word r 23) 47 0 == 0
    && [4, 5, 6, 9, 10, 11, 12, 13, 14, 17, 18, 19, 20, 21, 22].all (fun i => word r i == 0)

/-- SFMT, KIND and CFMT pair for a load, or for a store (R267). -/
def pairOk (load : Bool) (sf k cf : Nat) : Bool :=
  if sf = 0 then k == 2 && cf == 0
  else if k ≥ 2 then false
  else match sf with
    | 6 => if k = 0 then [1, 2, 3, 4, 7].contains cf else decide (1 ≤ cf ∧ cf ≤ 6)
    | 4 => cf == 1
    | 5 => cf == 2
    | 1 => [1, 2, 3, 4].contains cf || (load && cf == 7 && k == 0)
    | 2 => [1, 2, 3].contains cf || (!load && cf == 7 && k == 0)
    | 3 => [1, 2, 4].contains cf || (!load && cf == 7 && k == 0)
    | _ => false

/-- Global lines an entry reaches. -/
def lines (r : List DWord) : Nat :=
  let n := if isRaw r then tm r else if isBlocks r && isB r then tm r else tileBlocks (isB r) * tm r
  if grows r = 0 then n else min n (grows r)

def finiteNonzero (x : Nat) : Bool := match Float.read Float.f32 x with | .num _ m _ => m != 0 | _ => false

/-- GSTRIDE's multiple, which the tensor address keeps too (R260, R266). -/
def gAlign (r : List DWord) : Nat := if sfmt r = 6 then 64 else if isBlocks r then 2 else 4

/-- An accepted record is valid (R260). -/
def ok (load : Bool) (r : List DWord) : Bool :=
  reservedOk r && decide (rmode r ≠ 3) && pairOk load (sfmt r) (kind r) (cfmt r)
    && (if isRaw r then decide (1 ≤ tm r ∧ tm r ≤ 65536 ∧ 4 ≤ tk r ∧ tk r ≤ 2 ^ 20) && tk r % 4 == 0 && cstride r == 0
        else decide (1 ≤ tm r ∧ 1 ≤ tk r ∧ tiles r ≤ 64)
          && (cstride r == 0 || (cstride r % 64 == 0 && decide (size r ≤ cstride r))))
    && gstride r % gAlign r == 0 && (sfmt r != 6 || decide (size r ≤ gstride r))
    && (decide (lines r ≤ 1) || gstride r != 0)
    && (rmode r == 0 || ((cfmt r == 1 || cfmt r == 2) && isPlain r))
    && (!isDx (cfmt r) || finiteNonzero (scale r))
    && (!isBlocks r || gcols r % 32 == 0)

end Shape

/-! ## Where an entry's bytes lie in memory (R267) -/

/-- A run of memory bytes of an entry: copied from or to canvas bytes, 32 elements of a line of a tile, or a block. -/
inductive SpanSrc where
  | copy (coff : Nat)
  | line (tile b : Nat)
  | block (tile b : Nat)
  deriving DecidableEq, Repr

structure Span where
  va : Nat
  len : Nat
  src : SpanSrc
  deriving DecidableEq, Repr

namespace Shape

/-- Elements or bytes that exist from element c of line l, of n wanted. -/
def clip (r : List DWord) (l c n : Nat) : Nat :=
  if grows r ≠ 0 && decide (grows r ≤ l) then 0 else if gcols r = 0 then n else min n (gcols r - c)

/-- The runs of one tile; the second number of a line is its row in the tile, for either kind. -/
def tileSpans (r : List DWord) (g t : Nat) : List Span :=
  let i := t / tk r
  let j := t % tk r
  if sfmt r = 6 then [{ va := g + t * gstride r, len := size r, src := .copy (t * pitch r) }]
  else if isPlain r then
    let n := if isB r then 32 else 64
    (List.range n).map (fun k =>
      let l := n * i + k
      { va := g + l * gstride r + 32 * j * elemSize r, len := clip r l (32 * j) 32 * elemSize r, src := .line t k })
  else if isB r then
    (List.range 32).map (fun c =>
      { va := g + i * gstride r + (32 * j + c) * blockSize r
        len := if clip r i (32 * (32 * j + c)) 1 = 0 then 0 else blockSize r, src := .block t c })
  else
    (List.range 64).map (fun k =>
      { va := g + (64 * i + k) * gstride r + j * blockSize r
        len := if clip r (64 * i + k) (32 * j) 1 = 0 then 0 else blockSize r, src := .block t k })

/-- Every run of an entry that exists. -/
def spans (r : List DWord) (g : Nat) : List Span :=
  let all := if isRaw r then
      (List.range (tm r)).map (fun k => { va := g + k * gstride r, len := clip r k 0 (tk r), src := .copy (k * tk r) })
    else ((List.range (tiles r)).map (tileSpans r g)).flatten
  all.filter (fun p => p.len ≠ 0)

end Shape

/-- 2^k-byte units of address that runs touch, rising, each once. -/
def unitsOf (k : Nat) (ps : List Span) : List Nat :=
  let us := (ps.map (fun p => (List.range ((p.va + p.len - 1) / 2 ^ k - p.va / 2 ^ k + 1)).map (fun i => p.va / 2 ^ k + i))).flatten
  (us.foldl (fun (l : List Nat) u => if l.contains u then l else l.filter (· < u) ++ u :: l.filter (fun x => u < x)) [])

/-! ## Access to memory (R264) -/

/-- Why a segment cannot be made now. -/
inductive EngStop where
  | fatal (cause : Nat)
  | migrate (vpn : Nat)
  | absent (vpn : Nat)
  | link (n : Nat)
  /-- Data or a place in a link's queue is not there yet. -/
  | wait
  deriving DecidableEq, Repr

/-- The engine translates through its core's L1 TLB and below, not through extents (R21, R264). -/
def State.engAgent (s : State) (e : EngEntry) : Agent :=
  { core := some (coreOf e.wid), team := none, ctx := e.ctx, priv := ((s.warps.find e.wid).getD {}).priv }

def State.engClass (s : State) (e : EngEntry) : Nat := (s.teams.getD e.team {}).cls.toNat

/-- Block and CX copies may not reach a host page (R28). -/
def EngEntry.want (e : EngEntry) (writing : Bool) : Want :=
  let dev := Shape.isBlocks e.rcd || Shape.sfmt e.rcd == 6
  if writing then (if dev then .devWrite else .write) else if dev then .devRead else .read

/-- Translates an address of an entry. -/
def State.engHit (s : State) (e : EngEntry) (va : Nat) (writing : Bool) : State × Except EngStop Hit :=
  if 2 ^ 72 ≤ va ∨ va / 2 ^ 68 = 15 then (s, .error (.fatal 6))
  else
    match translate s (s.engAgent e) va (e.want writing) with
    | (s, .ok h) => (s, .ok h)
    | (s, .error (1, 3)) => (s, .error (.migrate (va / 65536)))
    | (s, .error (1, 2)) => (s, .error (.absent (va / 65536)))
    | (s, .error _) => (s, .error (.fatal 6))

/-- The physical address. -/
def State.engAt (s : State) (e : EngEntry) (va : Nat) (writing : Bool) : State × Except EngStop Nat :=
  match s.engHit e va writing with
  | (s, .ok h) => (s, .ok h.pa)
  | (s, .error x) => (s, .error x)

/-- Why an entry cannot go on that waits for a link: a queue parks while its link retrains (R94). -/
def State.linkStop (s : State) (n : Nat) : EngStop := if (s.link n).st = .retrain then .link n else .wait

/-- A request of an entry that enters its queue: the data of a read is then on its way. -/
def State.engSend (s : State) (e : EngEntry) (r : Req) : State × EngEntry :=
  (s.enter r, if r.kind = 0 then { e with waits := e.waits ++ [(linkOf r.addr, r.id)] } else e)

/-- Reads n bytes for an entry: of a drawer page, once the read of what the entry needs of their granule, which is sent
once, has returned (R81, R82). -/
def State.engData (s : State) (q : Nat) (e : EngEntry) (va pa n : Nat) : (State × EngEntry) × Except EngStop (Nat × Bool) :=
  if !isDrawer pa then ((s, e), .ok (s.mem.bytes.readNat pa n, poisoned s.mem.poison pa n))
  else
    let l := linkOf pa
    match e.got.find? (fun g => g.1 == pa / 256) with
    | some g => ((s, e), .ok (ofBytes ((g.2.1.drop (pa % 256)).take n), g.2.2))
    | none =>
      if e.asked.contains (va / 4096) then ((s, e), .error (s.linkStop l))
      else
        let us := (unitsOf 8 (Shape.spans e.rcd e.base.toNat)).filter (fun u => u / 16 = va / 4096)
        let lo := us.headD (va / 256)
        let hi := us.getLastD (va / 256)
        let x := s.name (readReq (s.engClass e) (pa / 4096 * 4096 + lo % 16 * 256) (hi - lo) none)
        let e := { e with asked := va / 4096 :: e.asked }
        if (s.link l).takes then (x.1.engSend e x.2, .error (s.linkStop l))
        else ((x.1.waitOutside (.engine (coreOf e.wid) q x.2 []), { e with outside := e.outside ++ [x.2.id] }), .error (s.linkStop l))

/-- Reads pieces of memory, none reading zero; answers values with their poison. -/
def State.engRead (s : State) (q : Nat) (e : EngEntry) :
    List (Option (Nat × Nat)) → (State × EngEntry) × Except EngStop (List (Nat × Bool))
  | [] => ((s, e), .ok [])
  | none :: r =>
    match State.engRead s q e r with
    | (x, .ok vs) => (x, .ok ((0, false) :: vs))
    | (x, .error y) => (x, .error y)
  | some (va, n) :: r =>
    match s.engAt e va false with
    | (s, .error y) => ((s, e), .error y)
    | (s, .ok pa) =>
      match s.engData q e va pa n with
      | (x, .error y) => (x, .error y)
      | ((s, e), .ok v) =>
        match State.engRead s q e r with
        | (x, .ok vs) => (x, .ok (v :: vs))
        | (x, .error y) => (x, .error y)

/-! ## Stamps and stores (R99, R161, R264) -/

/-- Stamps bytes of a sector as the engine writes them for a warp. -/
def State.stampEngine (s : State) (e : EngEntry) (canvas : Bool) (k bm : Nat) : State :=
  let st := s.stampAt canvas k
  let wr := wrOf e.wid
  let lost := if stV st && stWr st != wr && Nat.land (stBm st) (2 ^ 32 - 1 - bm) != 0 then 1 else 0
  let bm' := if stV st && stWr st == wr && stIv st == e.iv then Nat.lor (stBm st) bm else bm
  (s.setStamp canvas k (mkStamp 0 0 wr e.iv s.now bm')).addCovlost e.ctx lost

/-- Mask of the bytes of sector k among addresses. -/
def byteMask (k : Nat) (as : List Nat) : Nat := as.foldl (fun m a => if a / 32 = k then Nat.lor m (2 ^ (a % 32)) else m) 0

/-- Writes single bytes with their poison: sectors written whole lose their mark, sectors given poisoned bytes get it. -/
def writeBytes (m : Cells 8) (pz : Cells 1) (xs : List (Nat × Byte × Bool)) : Cells 8 × Cells 1 :=
  let ks := (xs.map (fun x => x.1 / 32)).eraseDups
  let as := xs.map (·.1)
  (xs.foldl (fun m x => m.set x.1 x.2.1) m,
   ks.foldl (fun p k =>
     if xs.any (fun x => x.1 / 32 = k && x.2.2) then p.set k 1
     else if byteMask k as = 2 ^ 32 - 1 then p.set k 0 else p) pz)

/-- The engine's write of canvas or memory bytes of one segment: bytes, poison, count and stamps. Its core's copies of the
drawer lines it writes are dropped (R149). -/
def State.engWrite (s : State) (e : EngEntry) (canvas : Bool) (xs : List (Nat × Byte × Bool)) : State :=
  let s := s.modMem (fun m =>
    let r := writeBytes (m.side canvas) (m.sidePoison canvas) xs
    if canvas then { m with canvas := r.1, canvasPoison := r.2 }
    else
      let m := { m with bytes := r.1, poison := r.2 }
      match xs with | x :: _ => m.bump x.1 | [] => m)
  let as := xs.map (·.1)
  let s := match xs with
    | x :: _ => if !canvas && isDrawer x.1 then s.dropHit (coreOf e.wid) (fun n => as.any (fun a => a / 64 = n)) else s
    | [] => s
  let s := ((as.map (· / 32)).eraseDups).foldl (fun s k =>
    if stamped canvas (k * 32) then s.stampEngine e canvas k (byteMask k as) else s) s
  if xs.any (·.2.2) then s.devError 1 0x0A (dieOf e.wid) (coreOf e.wid % 200) e.ctx false else s

/-! ## Blocks of a load -/

/-- Element bytes, exponents and poison of block b of tile t as the canvas is to hold them (R255, R267). -/
def State.loadBlock (s : State) (q : Nat) (e : EngEntry) (t b : Nat) :
    (State × EngEntry) × Except EngStop (List Byte × List Byte × Bool) :=
  let r := e.rcd
  let ps := Shape.tileSpans r e.base.toNat t
  if Shape.isBlocks r then
    let p := (ps[b]?).getD { va := 0, len := 0, src := .copy 0 }
    let n := Shape.blockSize r
    match s.engRead q e ((List.range n).map (fun i => if p.len = 0 then none else some (p.va + i, 1))) with
    | (x, .ok vs) =>
      let bs := vs.map (fun v => BitVec.ofNat 8 v.1)
      (x, .ok (bs.drop 2, bs.take 2, vs.any (·.2)))
    | (x, .error y) => (x, .error y)
  else
    let sz := Shape.elemSize r
    let at_ (k : Nat) : Option (Nat × Nat) :=
      let line := if Shape.isB r then k else b
      let col := if Shape.isB r then b else k
      match ps[line]? with
      | some p => if col * sz < p.len then some (p.va + col * sz, sz) else none
      | none => none
    match s.engRead q e ((List.range 32).map at_) with
    | (x, .error y) => (x, .error y)
    | (x, .ok vs) =>
      let xs := vs.map (fun v => Float.read (Shape.plainSrc r) v.1)
      let pz := vs.any (·.2)
      if isDx (Shape.cfmt r) then
        let d8 := isDx8 (Shape.cfmt r)
        let sc := Float.read Float.f32 (Shape.scale r)
        let z := Tensor.convertDx d8 (Shape.rmode r) ((Shape.phase0 r + t * Shape.step r) % 32) (xs.map (fun x => Tensor.ratioOf x sc))
        (x, .ok (Tensor.packElems d8 z.2.2, [BitVec.ofNat 8 z.1, BitVec.ofNat 8 z.2.1], pz))
      else
        let c := Shape.cfmt r
        (x, .ok ((xs.map (fun v => bytesOf (plainSize c) (Tensor.roundVal (plainFmt c) 0 v))).flatten, [], pz))

/-- Blocks needed by the plane bytes at offsets of tiles. -/
def blocksNeeded (r : List DWord) (ps : List Nat) : List (Nat × Nat) :=
  let eb := blockBytes (Shape.cfmt r)
  let nb := tileBlocks (Shape.isB r)
  let ep := expPlane (Shape.isB r) (Shape.cfmt r)
  (ps.filterMap (fun p =>
    let t := p / Shape.size r
    let o := p % Shape.size r
    if o < 64 then none
    else if o < 64 + nb * eb then some (t, (o - 64) / eb)
    else if isDx (Shape.cfmt r) && decide (ep ≤ o ∧ o < ep + 2 * nb) then some (t, (o - ep) / 2)
    else none)).eraseDups

def State.loadBlocks (s : State) (q : Nat) (e : EngEntry) :
    List (Nat × Nat) → (State × EngEntry) × Except EngStop (List ((Nat × Nat) × List Byte × List Byte × Bool))
  | [] => ((s, e), .ok [])
  | (t, b) :: r =>
    match s.loadBlock q e t b with
    | (x, .error y) => (x, .error y)
    | (x, .ok v) =>
      match State.loadBlocks x.1 q x.2 r with
      | (z, .ok vs) => (z, .ok (((t, b), v) :: vs))
      | (z, .error y) => (z, .error y)

/-- Byte of a tile at an offset, from its blocks; the head's SCALE is the record's for DX and 1.0 otherwise. -/
def tileByte (r : List DWord) (bs : List ((Nat × Nat) × List Byte × List Byte × Bool)) (t o : Nat) : Byte × Bool :=
  let eb := blockBytes (Shape.cfmt r)
  let nb := tileBlocks (Shape.isB r)
  let ep := expPlane (Shape.isB r) (Shape.cfmt r)
  let sc := if isDx (Shape.cfmt r) then Shape.scale r else 0x3F800000
  let find (b : Nat) : List Byte × List Byte × Bool := match bs.find? (fun x => x.1 == (t, b)) with | some x => x.2 | none => ([], [], false)
  if o < 64 then ((bytesOf 8 (Tensor.headWord0 (Shape.isB r) (Shape.cfmt r) sc)).getD o 0, false)
  else if o < 64 + nb * eb then
    let x := find ((o - 64) / eb)
    (x.1.getD ((o - 64) % eb) 0, x.2.2)
  else if isDx (Shape.cfmt r) && decide (ep ≤ o ∧ o < ep + 2 * nb) then
    let x := find ((o - ep) / 2)
    (x.2.1.getD ((o - ep) % 2) 0, x.2.2)
  else (0, false)

/-! ## Segments (R263) -/

/-- Canvas offset at which an entry's output or input begins. -/
def State.engCanvas (s : State) (e : EngEntry) : Nat :=
  match e.stage with
  | some i => (s.ring (s.teams.getD e.team {}) e.coff).stageOff e.coff i
  | none => e.coff

/-- Canvas offset of a byte of a load's output, from its start. -/
def outOffset (r : List DWord) (p : Nat) : Nat :=
  if Shape.isRaw r then p else p / Shape.size r * Shape.pitch r + p % Shape.size r

/-- Source address of a byte of a raw or CX load; none where it is clipped. -/
def copyVa (r : List DWord) (g p : Nat) : Option (Nat × Nat) :=
  if Shape.isRaw r then
    let k := p / Shape.tk r
    let c := p % Shape.tk r
    if c < Shape.clip r k 0 (Shape.tk r) then some (g + k * Shape.gstride r + c, 1) else none
  else some (g + p / Shape.size r * Shape.gstride r + p % Shape.size r, 1)

/-- Bytes of segment k of a load; the canvas takes those within the team's allocation (R57). -/
def State.loadSegment (s : State) (q : Nat) (e : EngEntry) (k : Nat) : (State × EngEntry) × Except EngStop (List (Nat × Byte × Bool)) :=
  let r := e.rcd
  let ps := (List.range (min 256 (Shape.output r - 256 * k))).map (fun i => 256 * k + i)
  let t := s.teams.getD e.team {}
  let fits (p : Nat) : Bool := decide (s.engCanvas e + outOffset r p < t.canvasSize)
  let key (p : Nat) : Nat := canvasKey t (s.engCanvas e + outOffset r p)
  if Shape.isRaw r || Shape.sfmt r == 6 then
    match s.engRead q e (ps.map (copyVa r e.base.toNat)) with
    | (x, .ok vs) => (x, .ok (((ps.zip vs).filter (fun v => fits v.1)).map (fun v => (key v.1, BitVec.ofNat 8 v.2.1, v.2.2))))
    | (x, .error y) => (x, .error y)
  else
    match s.loadBlocks q e (blocksNeeded r ps) with
    | (x, .ok bs) => (x, .ok ((ps.filter fits).map (fun p => let v := tileByte r bs (p / Shape.size r) (p % Shape.size r); (key p, v.1, v.2))))
    | (x, .error y) => (x, .error y)

/-- Canvas bytes of a team. -/
def State.canvasBytes (s : State) (team c n : Nat) : List Byte := s.mem.canvas.readN (canvasKey (s.teams.getD team {}) c) n
def State.canvasBad (s : State) (team c n : Nat) : Bool := poisoned s.mem.canvasPoison (canvasKey (s.teams.getD team {}) c) n

/-- Scale, exponents and elements of a block of a dense canvas tile, as values before scaling. -/
def State.tileValues (s : State) (team c : Nat) (b : Bool) (cf k : Nat) : List Float.Val :=
  let eb := blockBytes cf
  let es := s.canvasBytes team (c + expPlane b cf + 2 * k) 2
  Tensor.blockValues cf (es.getD 0 0).toNat (es.getD 1 0).toNat (s.canvasBytes team (c + 64 + k * eb) eb)

/-- Bytes a store gives a run of memory (R267). -/
def State.spanBytes (s : State) (e : EngEntry) (p : Span) : List (Byte × Bool) :=
  let r := e.rcd
  let cf := Shape.cfmt r
  let base (t : Nat) : Nat := e.coff + t * Shape.pitch r
  match p.src with
  | .copy o =>
    (List.range p.len).map (fun i =>
      ((s.canvasBytes e.team (e.coff + o + i) 1).headD 0, s.canvasBad e.team (e.coff + o + i) 1))
  | .line t k =>
    let sc := if isDx cf then Float.read Float.f32 (ofBytes (s.canvasBytes e.team (base t + 4) 4)) else .num false 1 0
    let vals := (List.range 32).map (fun j =>
      let b := if Shape.isB r then j else k
      let i := if Shape.isB r then k else j
      ((s.tileValues e.team (base t) (Shape.isB r) cf b).getD i (.num false 0 0),
        s.canvasBad e.team (base t + 64 + b * blockBytes cf) (blockBytes cf)
          || (isDx cf && (s.canvasBad e.team (base t + expPlane (Shape.isB r) cf + 2 * b) 2 || s.canvasBad e.team (base t + 4) 4))))
    ((vals.map (fun v =>
      (bytesOf (Shape.elemSize r) (Tensor.roundVal (Shape.plainSrc r) 0 (Tensor.mulVal v.1 sc))).map (fun x => (x, v.2)))).flatten).take p.len
  | .block t b =>
    let eb := blockBytes cf
    let at_ := base t + expPlane (Shape.isB r) cf + 2 * b
    let bad := s.canvasBad e.team (base t + 64 + b * eb) eb || s.canvasBad e.team at_ 2
    (s.canvasBytes e.team at_ 2 ++ s.canvasBytes e.team (base t + 64 + b * eb) eb).map (fun x => (x, bad))

/-- Bytes of segment k of a store: what the entry writes in the k-th 256-byte block of memory it touches. -/
def State.storeSegment (s : State) (e : EngEntry) (u : Nat) : List (Nat × Byte × Bool) :=
  let ps := (Shape.spans e.rcd e.base.toNat).filter (fun p => p.va / 256 ≤ u && u ≤ (p.va + p.len - 1) / 256)
  let xs := (ps.map (fun p => ((s.spanBytes e p).zipIdx).map (fun x => (p.va + x.2, x.1.1, x.1.2)))).flatten
  xs.filter (fun x => x.1 / 256 = u)

/-- Requests of a write of bytes of one 256-byte drawer block, each with the bytes it carries (R366). -/
def State.engPut (s : State) (e : EngEntry) (pa : Nat) (xs : List (Nat × Byte × Bool)) : List (Req × List (Nat × Byte × Bool)) :=
  let blk := pa / 256 * 256
  if (xs.map (·.1)).eraseDups.length = 256 then [({ id := 0, kind := 1, addr := blk, cls := s.engClass e }, xs)]
  else
    ([0, 1].map (fun h => (h, xs.filter (fun x => x.1 % 256 / 128 = h)))).filterMap (fun y =>
      if y.2.isEmpty then none
      else some ({ id := 0, kind := 2, addr := blk + 128 * y.1, cls := s.engClass e
                   be := y.2.foldl (fun m x => m ||| (1#128 <<< (x.1 % 128))) 0 }, y.2))

/-! ## Entries -/

/-- Blocks of memory a store writes, in address order. -/
def storeUnits (e : EngEntry) : List Nat := unitsOf 8 (Shape.spans e.rcd e.base.toNat)

/-- Bytes of the planes a WBLOAD copies. -/
def EngEntry.planeBytes (e : EngEntry) : Nat :=
  let c := bitsN e.head0 3 0
  (if isSparse c then Tensor.sparseSize c (bitsN e.head1 39 32) else tileSize true c) - 64

/-- Segments of an entry's output. -/
def EngEntry.total (e : EngEntry) : Nat :=
  match e.form with
  | .txld => (Shape.output e.rcd + 255) / 256
  | .txst => (storeUnits e).length
  | .wbload => (e.planeBytes + 255) / 256
  | _ => 0

def State.engHead (s : State) (core q : Nat) : Option EngEntry := ((s.core core).queues.getD q {}).entries.head?

def State.modQ (s : State) (core q : Nat) (f : EngQueue → EngQueue) : State :=
  s.modCore core (fun c => { c with queues := c.queues.put q (f (c.queues.getD q {})) })

def State.setHead (s : State) (core q : Nat) (e : EngEntry) : State :=
  s.modQ core q (fun x => { x with entries := e :: x.entries.drop 1 })

/-- A fatal fault of an entry: its ring stage is poisoned, and the context faults (R68, R264). -/
def State.engFatal (s : State) (e : EngEntry) (cause : Nat) : State :=
  let t := s.teams.getD e.team {}
  let s := match e.stage with
    | some i => let r := s.ring t e.coff; s.setRing t e.coff { r with ready := r.ready + 1, poison := putBit r.poison i true }
    | none => s
  s.contextFault e.ctx 3 (BitVec.ofNat 8 cause)

/-- What a stop does to the queue (R264). -/
def State.engStop (s : State) (core q : Nat) (e : EngEntry) (x : EngStop) : State :=
  match x with
  | .fatal c => s.engFatal e c
  | .migrate v => s.modQ core q (fun y => { y with park := some (.migrate e.ctx v) })
  | .absent v =>
    if s.moving e.ctx v then s.modQ core q (fun y => { y with park := some (.moving e.ctx v) })
    else s.engFatal e 6
  | .link n => s.modQ core q (fun y => { y with park := some (.link n) })
  | .wait => s

/-- The check of every page of a raw entry before its first write: the first that stops it; a compressed page is fatal, and
one that is away is waited for (R80, R264). -/
def State.rawStop (s : State) (e : EngEntry) (writing : Bool) : List Nat → State × Option EngStop
  | [] => (s, none)
  | v :: r =>
    match s.engHit e (v * 65536) writing with
    | (s, .error x) => (s, some x)
    | (s, .ok h) => if h.cmp then (s, some (.fatal 5)) else State.rawStop s e writing r

/-- Head words of the canvas tile at an offset. -/
def State.headWords (s : State) (team c : Nat) : List Nat :=
  (List.range 8).map (fun i => ofBytes (s.canvasBytes team (c + 8 * i) 8))

/-- Every tile head a store reads has the record's CFMT. -/
def storeHeadsOk (s : State) (e : EngEntry) : Bool :=
  Shape.isRaw e.rcd || (List.range (Shape.tiles e.rcd)).all (fun t =>
    (s.headWords e.team (e.coff + t * Shape.pitch e.rcd)).headD 0 % 16 == Shape.cfmt e.rcd)

/-- A matrix operation released before a moment still names a slot (R269). -/
def State.slotInUse (s : State) (core slot before : Nat) : Bool :=
  (s.core core).ops.any (fun o => decide (o.id < before) && o.parts.any (fun a => a.opc == 0x380 && a.word.a.toNat == slot))

/-- Index words of a sparse tile at a canvas offset. -/
def State.indexWords (s : State) (team c cf l : Nat) : List Nat :=
  let at_ := c + 64 + Tensor.pad64 ((if cf = 5 then 16 else 8) * l)
  (List.range l).map (fun i => ofBytes (s.canvasBytes team (at_ + 4 * i) 4))

/-- The start of the entry at a queue's head: a TXLD for a ring claims a stage by the header's bytes as they now stand
(R68). -/
def State.engStart (s : State) (core q : Nat) (e : EngEntry) : State :=
  let go (s : State) (e : EngEntry) : State := s.setHead core q { e with started := true }
  match e.form with
  | .fence => s
  | .txpf =>
    let s := (unitsOf 16 (Shape.spans e.rcd e.base.toNat)).foldl (fun s v =>
      match s.engAt e (v * 65536) false with
      | (s, .error (.migrate v)) => s.askMove e.ctx v
      | (s, _) => s) s
    go s e
  | .wbload =>
    let e := if e.reached = 0 then { e with reached := s.names } else e
    if s.slotInUse core e.slot e.reached then s.setHead core q e
    else
      let c := bitsN e.head0 3 0
      let l := bitsN e.head1 39 32
      if isSparse c && !(s.indexWords e.team e.coff c l).all Tensor.indexOk then s.engFatal e 7
      else
        let w : WSlot := {
          scale := BitVec.ofNat 32 (bitsN e.head0 63 32), bitmap := BitVec.ofNat 32 (bitsN e.head1 31 0)
          live := BitVec.ofNat 8 l, fmt := BitVec.ofNat 4 c, state := 2, poison := e.headBad }
        go (s.modCore core (fun k => { k with wslots := k.wslots.put e.slot w })) e
  | f =>
    match (if Shape.isRaw e.rcd then s.rawStop e (f = .txst) (unitsOf 16 (Shape.spans e.rcd e.base.toNat)) else (s, none)) with
    | (s, some x) => s.engStop core q e x
    | (s, none) =>
      if f = .txst then (if storeHeadsOk s e then go s e else s.engFatal e 7)
      else if Shape.ring e.rcd then
        let t := s.teams.getD e.team {}
        let r := s.ring t e.coff
        if r.free = 0 then s else go (s.setRing t e.coff r.claim) { e with stage := some r.pidx }
      else go s e

/-- Changes a weight slot. -/
def State.modSlot (s : State) (core n : Nat) (f : WSlot → WSlot) : State :=
  s.modCore core (fun k => { k with wslots := k.wslots.put n (f (k.wslots.getD n {})) })

/-- A segment that has been written is counted; a stage with every segment counted is FILLED, a release (R68, R161). -/
def State.engCount (s : State) (core q : Nat) (e : EngEntry) : State :=
  let s := s.setHead core q { e with segs := e.segs + 1 }
  match e.form, e.stage with
  | .txld, some i =>
    let t := s.teams.getD e.team {}
    let r := s.ring t e.coff
    let n := s.seg t e.coff i + 1
    let s := s.setSeg t e.coff i n
    if n = r.ssz then (s.setRing t e.coff { r with ready := r.ready + 1 }).noteStage e.team e.coff i e.wid (e.iv + 1) s.now
    else s
  | _, _ => s

/-- A request of an entry enters its queue, and what it writes is performed with it (R89, R366). -/
def State.engEnter (s : State) (e : EngEntry) (r : Req) (xs : List (Nat × Byte × Bool)) : State × EngEntry :=
  (if xs.isEmpty then s else s.engWrite e false xs).engSend e r

/-- The writes of a segment, request by request in address order: each enters its queue, or waits outside (R82, R366). -/
def State.engOffer (s : State) (core q : Nat) (e : EngEntry) (r : Req) (xs : List (Nat × Byte × Bool)) : State × EngEntry :=
  let x := s.name r
  if (s.link (linkOf r.addr)).takes then x.1.engEnter e x.2 xs
  else (x.1.waitOutside (.engine core q x.2 xs), { e with outside := e.outside ++ [x.2.id] })

/-- A store's segment is written once none of its requests is outside. -/
def State.engPutDone (s : State) (core q : Nat) (e : EngEntry) : State :=
  if e.form = .txst && e.outside.isEmpty then s.engCount core q e else s.setHead core q e

/-- A link in RETRAIN that an entry waits for: it has a read of it under way, or a request of it waits outside its queue
(R94). -/
def State.stalledLink (s : State) (e : EngEntry) : Option Nat :=
  (s.links.find? (fun l => l.2.st == .retrain
    && (e.waits.any (fun x => x.1 == l.1) || l.2.waiting.any (fun w => e.outside.contains w.req.id)))).map (·.1)

/-- The next segment of the entry at a queue's head. -/
def State.engSegment (s : State) (core q : Nat) (e : EngEntry) : State :=
  if !e.outside.isEmpty then (match s.stalledLink e with | some n => s.engStop core q e (.link n) | none => s)
  else match e.form with
  | .txld =>
    match s.loadSegment q e e.segs with
    | ((s, e), .error x) => (s.setHead core q e).engStop core q e x
    | ((s, e), .ok xs) => (s.engWrite e true xs).engCount core q e
  | .txst =>
    let u := (storeUnits e).getD e.segs 0
    match s.engAt e (u * 256) true with
    | (s, .error x) => s.engStop core q e x
    | (s, .ok pa) =>
      let xs := (s.storeSegment e u).map (fun x => (pa + x.1 % 256, x.2))
      if isDrawer pa then
        let r := (s.engPut e pa xs).foldl (fun (x : State × EngEntry) r => x.1.engOffer core q x.2 r.1 r.2) (s, e)
        r.1.engPutDone core q r.2
      else (s.engWrite e false xs).engCount core q e
  | .wbload =>
    let n := min 256 (e.planeBytes - 256 * e.segs)
    let bs := s.canvasBytes e.team (e.coff + 64 + 256 * e.segs) n
    let bad := s.canvasBad e.team (e.coff + 64 + 256 * e.segs) n
    let s := s.modSlot core e.slot (fun w =>
      { w with planes := w.planes.writeN (256 * e.segs) bs, poison := w.poison || bad })
    s.engCount core q e
  | _ => s

/-- An entry whose writes are all performed leaves its queue; a slot it filled is READY. -/
def State.engRetire (s : State) (core q : Nat) (e : EngEntry) : State :=
  let s := s.modQ core q (fun x => { x with entries := x.entries.drop 1 })
  if e.form = .wbload then
    s.modSlot core e.slot (fun w => { w with state := 1 })
  else s

/-- What parked a queue has been repaired. -/
def State.parkOver (s : State) (p : Park) : Bool :=
  match p with
  | .migrate c v => !(match peekLeaf s c (v * 65536) with | .leaf _ l _ => ptePl l == 2 | _ => false)
  | .moving c v => !s.moving c v
  | .link n => decide ((s.link n).st ≠ .retrain)

/-- Fence entries of one QFENCE that all stand at their heads. -/
def State.fenceReady (s : State) (core : Nat) (e : EngEntry) : Bool :=
  ((List.range 4).filter (fun i => e.fenceMask.testBit i)).all (fun i =>
    match s.engHead core i with
    | some x => x.form == .fence && x.fence == e.fence
    | none => false)

/-! ## Events -/

/-- An engine event on the entry at a queue's head, if the queue is not parked and the context still issues (R353). -/
def engineEvent (i : Instr) (s : State) (core q : Nat) (body : EngEntry → State) : Out :=
  eventForm i s (fun s =>
    match s.engHead core q with
    | some e =>
      let st := (s.ctx e.ctx).st
      if ((s.core core).queues.getD q {}).park.isSome || st = .freezing || st = .frozen || st = .restoring then s else body e
    | none => s)

def execEngineEntryStart (core q : Nat) (s : State) : Out :=
  engineEvent (.engineEntryStart core q) s core q (fun e => if e.started then s else s.engStart core q e)

def execEngineSegmentComplete (core q : Nat) (s : State) : Out :=
  engineEvent (.engineSegmentComplete core q) s core q (fun e => if e.started && decide (e.segs < e.total) then s.engSegment core q e else s)

def execEngineEntryRetire (core q : Nat) (s : State) : Out :=
  engineEvent (.engineEntryRetire core q) s core q (fun e => if e.started && decide (e.total ≤ e.segs) then s.engRetire core q e else s)

def execEngineQueueResume (core q : Nat) (s : State) : Out :=
  eventForm (.engineQueueResume core q) s (fun s =>
    match ((s.core core).queues.getD q {}).park with
    | some p => if s.parkOver p then s.modQ core q (fun x => { x with park := none }) else s
    | none => s)

def execQfenceRetire (core q : Nat) (s : State) : Out :=
  engineEvent (.qfenceRetire core q) s core q (fun e =>
    if e.form = .fence && s.fenceReady core e then
      ((List.range 4).filter (fun i => e.fenceMask.testBit i)).foldl (fun s i =>
        s.modQ core i (fun x => { x with entries := x.entries.drop 1 })) s
    else s)

/-! ## Issue (R261, R266) -/

/-- Why a record has not been read: a fault at an address, data still to come, or data the memory could not correct. -/
inductive RecStop where
  | fault (x : XFault) (va : Nat)
  | wait
  | bad
  deriving DecidableEq, Repr

/-- A read of the line is on its way to the core. -/
def State.lineComes (s : State) (core pa : Nat) : Bool :=
  let l := s.link (linkOf pa)
  (l.queue ++ l.inflight.map (·.req) ++ l.waiting.map (·.req)).any (fun r => r.core == some core && r.lines.contains (pa / 64))

/-- One third of a record: 64 bytes read through the path's translation and its core's L1. -/
def State.recordThird (s : State) (va : Nat) : State × Except RecStop Nat :=
  let core := coreOf s.cur.1
  match earlyFault 64 (va : Int) with
  | some x => (s, .error (.fault x va))
  | none =>
    match translate s s.agent va .read with
    | (s, .error x) => (s, .error (.fault x va))
    | (s, .ok h) =>
      if isDrawer h.pa && (s.l1Line core h.pa).isNone then
        if s.lineComes core h.pa then (s, .error .wait)
        else (s.postReq (readReq s.teamClass h.pa 0 (some core)), .error .wait)
      else if s.readBad (some core) h.pa 64 then (s, .error .bad)
      else (s, .ok (s.readPa (some core) h.pa 64))

/-- Words of a record: from the core's cache, or by three reads of a third each; and whether it was cached (R261). -/
def State.fetchRecord (s : State) (va : Nat) : State × Except RecStop (List DWord × Bool) :=
  let core := coreOf s.cur.1
  let space := xdSpace s.cctx.xdesc
  match (s.core core).records.find? (fun r => r.space == space && r.addr.toNat == va) with
  | some r => (s.modCore core (fun c => { c with records := r :: c.records.erase r }), .ok (r.words, true))
  | none =>
    let r := (List.range 3).foldl (fun (r : State × Except RecStop (List DWord)) i =>
      match r with
      | (s, .error x) => (s, .error x)
      | (s, .ok ws) =>
        match s.recordThird (va + 64 * i) with
        | (s, .error x) => (s, .error x)
        | (s, .ok x) => (s, .ok (ws ++ (List.range 8).map (fun j => BitVec.ofNat 64 (x >>> (64 * j)))))) (s, .ok [])
    match r with
    | (s, .ok ws) => (s, .ok (ws, false))
    | (s, .error x) => (s, .error x)

/-- Keeps an accepted record, the least recently used leaving a full cache (R261). -/
def State.keepRecord (s : State) (va : Nat) (ws : List DWord) : State :=
  let space := xdSpace s.cctx.xdesc
  s.modCore (coreOf s.cur.1) (fun c =>
    { c with records := ({ space := space, addr := BitVec.ofNat 72 va, words := ws } :: c.records).take 32 })

/-- An engine queue has no place for an entry (R262). -/
def State.queueFull (s : State) (core q : Nat) : Bool := decide (16 ≤ ((s.core core).queues.getD q {}).entries.length)

/-- Places an entry at a queue's tail; issuing it is a release (R159). With lookahead on a full queue it waits to be taken
while its window runs (R45, R266). -/
def State.enqueue (s : State) (q : Nat) (l : BitVec 4) (e : EngEntry) : State :=
  let core := coreOf s.cur.1
  let e := { e with id := s.names, wid := s.cur.1, team := s.cw.team, ctx := s.cw.ctx, iv := s.cw.interval }
  let s := { s with names := s.names + 1 }
  if s.queueFull core q then
    (s.releaseP.modP (fun p => { p with windows := p.windows ++ [{ lane := false, left := l.toNat + 1, pend := some (.engine q e) }] })).advance
  else
    let s := s.modQ core q (fun x => { x with entries := x.entries ++ [e] })
    (s.releaseP.result false l.toNat [] [] [] none).advance

/-- R58 on a canvas span: cause and offset. -/
def spanCause (t : Team) (writing : Bool) (n : Nat) (c : Int) : Nat :=
  if c < 0 ∨ (t.canvasSize : Int) < c + n then 1 else if c % 64 ≠ 0 then 2
  else if writing && touchesHeader t c.toNat n then 3 else 0

/-- The ring test of R266 for an entry whose record says RING. DEDUCED (log 119): a span that leaves the stage fails it. -/
def ringEntryOk (s : State) (load : Bool) (q : Nat) (c : Int) (r : List DWord) : Bool :=
  let t := s.cteam
  load && decide (0 ≤ c) && t.rings.contains c.toNat &&
    (let g := s.ring t c.toNat
     g.mode == 1 && g.eq == q && (Shape.output r + 255) / 256 == g.ssz && decide (Shape.span r ≤ 256 * g.ssz))

/-- TXLD, TXST and TXPF at issue (R266). DEDUCED (log 121): a record that the memory could not correct kills the warp, as
a scalar load of it would (R359). -/
def State.engineForm (s : State) (form : EngForm) (q : Nat) (ra ga : BitVec 4) (c : Option (BitVec 6)) (l : BitVec 4) : State :=
  let core := coreOf s.cur.1
  if s.queueFull core q && l == 0 then s.wait (s.queueStall core q)
  else
    let va := (s.aReg ra).toNat
    let g := s.aReg ga
    let off : Int := match c with | some r => (s.sReg r).toInt | none => 0
    match s.fetchRecord va with
    | (s, .error (.fault x at_)) => s.scalarXfault x (BitVec.ofNat 72 at_)
    | (s, .error .wait) => s.wait 5
    | (s, .error .bad) => s.killWarp s.cur.1
    | (s, .ok (r, hit)) =>
      let load := decide (form ≠ .txst)
      if !Shape.whole r then s.scalarFault 0x0B 1 0 0
      else if !Shape.ok load r then s.scalarFault 0x0B 2 0 0
      else
        let s := if hit then s else s.keepRecord va r
        if g.toNat % Shape.gAlign r ≠ 0 then s.scalarFault 2 5 g.toNat 0
        else
          let canvas := c.isSome
          let ring := canvas && Shape.ring r
          let cause := if canvas then spanCause s.cteam (load && !ring) (Shape.span r) off else 0
          if cause ≠ 0 then s.scalarFault 3 cause (BitVec.ofInt 72 off).toNat 0
          else if ring && !ringEntryOk s load q off r then s.scalarFault 3 6 (BitVec.ofInt 72 off).toNat 0
          else s.enqueue q l { id := 0, form := form, wid := 0, team := 0, ctx := 0, rcd := r, base := g, coff := off.toNat }

def execTxld (q : BitVec 2) (r g : BitVec 4) (c : BitVec 6) (l : BitVec 4) (s : State) : Out :=
  scalarForm (.txld q r g c l) s (fun s => s.engineForm .txld q.toNat r g (some c) l)

def execTxst (q : BitVec 2) (r g : BitVec 4) (c : BitVec 6) (l : BitVec 4) (s : State) : Out :=
  scalarForm (.txst q r g c l) s (fun s => s.engineForm .txst q.toNat r g (some c) l)

def execTxpf (q : BitVec 2) (r g : BitVec 4) (s : State) : Out :=
  scalarForm (.txpf q r g) s (fun s => s.engineForm .txpf q.toNat r g none 0)

/-- WBLOAD at issue: the slot, the head read now, and the whole tile span (R266, R269). -/
def State.wbload (s : State) (q : Nat) (sl c : BitVec 6) (l : BitVec 4) : State :=
  let core := coreOf s.cur.1
  if s.queueFull core q && l == 0 then s.wait (s.queueStall core q)
  else
    let off := (s.sReg c).toInt
    let t := s.cteam
    let fault (s : State) (k : Nat) : State := s.scalarFault 3 k (BitVec.ofInt 72 off).toNat 0
    let head := spanCause t false 64 off
    if head ≠ 0 then fault s head
    else
      let ws := s.headWords s.cw.team off.toNat
      let cf := ws.headD 0 % 16
      let n := if isSparse cf then Tensor.sparseSize cf (natBits (ws.getD 1 0) 39 32) else tileSize true cf
      let ok := Tensor.headOk true ws && decide (cf ≠ 7)
      if ok && decide (spanCause t false n off ≠ 0) then fault s (spanCause t false n off)
      else if 255 < (s.sReg sl).toNat then s.scalarFault 0x0B 3 0 0
      else if !ok then s.scalarFault 0x0B 4 0 0
      else
        s.enqueue q l { id := 0, form := .wbload, wid := 0, team := 0, ctx := 0, coff := off.toNat, slot := (s.sReg sl).toNat
                        head0 := BitVec.ofNat 64 (ws.getD 0 0), head1 := BitVec.ofNat 64 (ws.getD 1 0)
                        headBad := s.canvasBad s.cw.team off.toNat 64 }

def execWbload (q : BitVec 2) (sl c : BitVec 6) (l : BitVec 4) (s : State) : Out :=
  scalarForm (.wbload q sl c l) s (fun s => s.wbload q.toNat sl c l)

/-! ## RECFENCE, QFENCE, QWAIT (R168, R169, R270) -/

def execRecfence (r : BitVec 4) (s : State) : Out :=
  scalarForm (.recfence r) s (afterStores (fun s =>
    let va := s.aReg r
    let space := xdSpace s.cctx.xdesc
    (s.modCore (coreOf s.cur.1) (fun c =>
      { c with records := c.records.filter (fun x => !(x.space == space && x.addr == va)) })).advance))

def execRecfenceAll (s : State) : Out :=
  scalarForm .recfenceAll s (afterStores (fun s =>
    (s.modCore (coreOf s.cur.1) (fun c => { c with records := [] })).advance))

/-- Queues a mask names. -/
def namedQueues (m : BitVec 4) : List Nat := (List.range 4).filter (fun i => bitB m i)

def execQfence (m : BitVec 4) (s : State) : Out :=
  scalarForm (.qfence m) s (fun s =>
    let core := coreOf s.cur.1
    match (namedQueues m).find? (s.queueFull core) with
    | some i => s.wait (s.queueStall core i)
    | none =>
      let n := s.names
      let s := { s with names := n + 1 }
      ((namedQueues m).foldl (fun s i =>
        let e : EngEntry := { id := s.names, form := .fence, wid := s.cur.1, team := s.cw.team, ctx := s.cw.ctx, fence := n, fenceMask := m.toNat }
        ({ s with names := s.names + 1 }).modQ core i (fun x => { x with entries := x.entries ++ [e] })) s).advance)

/-- Entries of the warp in named queues, with those of its paths that a full one has still to take. -/
def State.warpEntries (s : State) (m : BitVec 4) : List Nat :=
  ((namedQueues m).map (fun i =>
    ((((s.core (coreOf s.cur.1)).queues.getD i {}).entries).filter (fun e => e.wid = s.cur.1)).map (·.id))).flatten
    ++ ((s.cw.places.map (fun k => match s.cw.slot k with
      | some p => p.windows.filterMap (fun d => match d.pend with
        | some (.engine q e) => if (namedQueues m).contains q then some e.id else none
        | _ => none)
      | none => [])).flatten)

/-- Those of some entries of the issuing warp that have not retired. -/
def State.unretired (s : State) (ids : List Nat) : List Nat := ids.filter (fun i => (s.warpEntries 15).contains i)

/-- A QWAIT completes: an acquire at team scope, which adds 1 to the interval (R169). -/
def State.qwaitDone (s : State) : State := (s.bumpInterval s.cur.1).modP Path.synced

/-- QWAIT: complete at once, or once the entries it found have retired, its window running till then (R169). -/
def execQwait (m l : BitVec 4) (s : State) : Out :=
  scalarForm (.qwait m l) s (fun s =>
    let ids := s.warpEntries m
    if ids.isEmpty then s.qwaitDone.advance
    else (s.modP (fun p => { p with windows := p.windows ++ [{ lane := false, left := l.toNat + 1, pend := some (.qwait ids s.names) }] })).advance)

end Sys2Proof.Machine
end

