-- ==== Sys2Proof/Machine/Matrix.lean ====
section
/-! DEFINITION. The rendezvous latch (R196) and the matrix array: arrivals, releases, and the operations it performs
(R271-R277). -/

namespace Sys2Proof.Machine

/-! ## Fields of a matrix form -/

/-- CFMT of the type a form names (R256, R276). -/
def mxFmt (t : Nat) : Nat :=
  match t with
  | 18 => 1
  | 19 => 2
  | 12 => 3
  | 14 => 4
  | _ => 7

/-- The m register a form names. -/
def mxReg (opc : Nat) (f : LaneWord) : Nat := (if opc = 0x383 then f.a.toNat else f.d.toNat) % 8

def gangN (g : DWord) : Nat := bitsN g 34 32
def gangMbase (g : DWord) : Nat := bitsN g 43 41
def gangMcnt (g : DWord) : Nat := bitsN g 40 38

/-- Core tile of the warp at a position (R273). -/
def Arrival.tile (a : Arrival) (pos : Nat) : Nat := gangMbase a.g0 + mxReg a.opc a.word + pos

/-- The fields of arrivals that must agree: all but EXT and LA (R273). -/
def mxFields (f : LaneWord) : LaneWord := { f with la := 0, ext := 0 }

/-! ## The latch (R196, R273, R275) -/

/-- Warp of a team by its index. -/
def State.teamWarp (s : State) (t i : Nat) : Option Nat := (s.teams.getD t {}).warps[i]?

/-- Arrivals of the listed warps in g0 order, where all have arrived. -/
def State.listed (s : State) (as : List Arrival) (g : DWord) (t : Nat) : Option (List Arrival) :=
  (gangList g).foldr (fun i r =>
    match r, (s.teamWarp t i).bind (fun wid => as.find? (fun a => a.wid = wid)) with
    | some l, some a => some (a :: l)
    | _, _ => none) (some [])

/-- A listed warp is parked, or has a path in a fragment that is not live or in the overflow slot. -/
def State.gangParked (s : State) (core t : Nat) (g : DWord) : Bool :=
  (gangList g).any (fun i =>
    match s.teamWarp t i with
    | some wid =>
      (s.core core).frags.any (fun f => f.2.warp == wid && f.2.state != 2)
        || ((s.warps.find wid).getD {}).overflow.isSome
    | none => false)

/-- Head words of a CX tile in a team's canvas. -/
def State.headAt (s : State) (team c : Nat) : List Nat :=
  (List.range 8).map (fun i => ofBytes (s.canvasBytes team (c + 8 * i) 8))

/-- FMT of a slot pairs with TY (R275). -/
def slotPairs (ty fmt : Nat) : Bool :=
  match ty with
  | 18 => fmt == 1 || fmt == 5
  | 19 => fmt == 2 || fmt == 6
  | 12 => fmt == 3
  | 14 => fmt == 4
  | _ => false

/-- The formats an arrival names are right (R275, R277). -/
def State.formatOk (s : State) (core : Nat) (a : Arrival) : Bool :=
  let h := s.headAt (s.teamOf a.wid) a.coff
  let c := mxFmt a.word.tyN
  match a.opc with
  | 0x380 =>
    slotPairs a.word.tyN ((s.core core).wslots.getD a.word.a.toNat {}).fmt.toNat
      && Tensor.headOk false h && (h.getD 0 0) % 16 == c
  | 0x382 => (h.getD 0 0) % 16 == c && natBits (h.getD 0 0) 15 8 == 64
  | _ => true

/-- Acts for a path, then returns to the issuing one. -/
def State.asPath (s : State) (wid k : Nat) (f : State → State) : State := { f { s with cur := (wid, k) } with cur := s.cur }

/-- The latch releases a path: its window opens and the word is passed (R273). -/
def State.releasePath (s : State) (op : Nat) (a : Arrival) : State :=
  match s.placeOf a with
  | none => s
  | some k =>
    let ds := if a.opc = 0x383 then [] else [Dest.m (mxReg a.opc a.word)]
    let w : Window := { lane := true, left := a.word.la.toNat + 1, dests := ds, mxop := some op, made := if ds.isEmpty then none else some op }
    s.asPath a.wid k (fun s =>
      (s.modP (fun p => { p with
        mx := none
        windows := p.windows ++ [w] })).advanceLane)

def State.releaseLatch (s : State) (core : Nat) (as : List Arrival) : State :=
  let op := s.names
  let o : MxOp := { id := op, parts := as }
  let s := ({ s with names := op + 1 }).modCore core (fun c => { c with
    latch := c.latch.filter (fun a => !as.any (fun b => b.id == a.id)), ops := c.ops ++ [o] })
  as.foldl (fun s a => s.releasePath op a) s

/-- An arrival merges an amax. -/
def Arrival.merges (a : Arrival) : Bool := a.opc == 0x383 && bitB a.word.md 1

/-- Translates the amax word of an arrival at its release, its path's lanes taking what fails (R22, R27). DEDUCED
(log 122): the translation made at issue is not kept while the latch waits, which may be without limit. -/
def State.amaxAgain (s : State) (a : Arrival) : State × Except Split Arrival :=
  match s.placeOf a with
  | none => (s, .ok a)
  | some k =>
    let cur := s.cur
    let s := { s with cur := (a.wid, k) }
    let live := s.cp.liveMask s.cw
    match s.xlateLanes s.agent 4 .atomic [(lowestLane live, (a.amaxVa.toNat : Int))] with
    | (t, x :: _, _) => ({ t with cur := cur }, .ok { a with amax := x.pa })
    | (t, [], bad) => let g := badSplit s bad; ({ t with cur := cur }, .error { g with lanes := live, rcd := { g.rcd with mask := live, lane := false } })

/-- Releases an operation whose arrivals' amax words all translate; an arrival whose word does not leaves the latch, which
goes on waiting for its warp. -/
def State.releaseAll (s : State) (core : Nat) : List Arrival → List Arrival → State
  | done, [] => s.releaseLatch core done
  | done, a :: r =>
    if !a.merges then s.releaseAll core (done ++ [a]) r
    else
      match s.amaxAgain a with
      | (s, .ok b) => s.releaseAll core (done ++ [b]) r
      | (s, .error g) =>
        let s := s.modCore core (fun c => { c with latch := c.latch.filter (fun b => b.id ≠ a.id) })
        match s.placeOf a with
        | some k => s.asPath a.wid k (fun s => (s.modP (fun p => { p with mx := none })).splitThen [g] id)
        | none => s

/-- The latch looks at its arrivals: it breaks the gang, releases the operation or waits (R196). -/
def State.tryLatch (s : State) (core : Nat) : State :=
  let as := (s.core core).latch
  match as with
  | [] => s
  | a :: _ =>
    let t := s.teamOf a.wid
    if as.any (fun b => gangExited s t b.g0) then s.breakLatch core 1
    else if as.any (fun b => b.opc != a.opc || b.g0 != a.g0) then s.breakLatch core 2
    else if as.any (fun b => decide (gangMcnt b.g0 < mxReg b.opc b.word + gangN b.g0 - 1)) then s.breakLatch core 4
    else
      match s.listed as a.g0 t with
      | none => s
      | some l =>
        if l.any (fun b => mxFields b.word != mxFields a.word) then s.breakLatch core 6
        else if s.gangParked core t a.g0 then s
        else if !l.all (s.formatOk core) then s.breakLatch core 7
        else s.releaseAll core [] l

/-! ## Issue (R271, R273) -/

/-- The checks of the canvas operand: bounds over the tile, 64-byte alignment, ring headers (R58, R273). -/
def tileCause (t : Team) (writing : Bool) (w : Nat) (c : Int) : Nat :=
  if c < 0 ∨ (t.canvasSize : Int) < c + w then 1
  else if c % 64 ≠ 0 then 2
  else if writing && touchesHeader t c.toNat w then 3
  else 0

/-- What is wrong with a warp's own operands, on every lane of its path; else the offset and the amax word. -/
def State.mxOperands (s : State) (opc : Nat) (f : LaneWord) : State × Except Split (Nat × VAddr × Nat) :=
  if opc = 0x381 then (s, .ok (0, 0, 0))
  else
    let w := Tensor.tileSize false (mxFmt f.tyN)
    let live := s.cp.liveMask s.cw
    let c := laneEa s.cw s.run f 0
    let writing := opc == 0x383
    let cause := tileCause s.cteam writing w c
    if cause ≠ 0 then (s, .error { lanes := live, rcd := canvasRec cause c live s.cp.lpc })
    else
      match watchCode s.cctx s.cteam true (!writing) writing c.toNat w with
      | some k => (s, .error (watchPath s (BitVec.ofInt 72 c) k))
      | none =>
        if writing && bitB f.md 1 then
          let ea : Int := (s.run.aVal (f.c.toNat % 16)).toNat
          match s.xlateLanes s.agent 4 .atomic [(lowestLane live, ea)] with
          | (s, x :: _, _) =>
            (match watchCode s.cctx s.cteam false false true x.ea.toNat 4 with
             | some k => (s, .error (watchPath s x.ea k))
             | none => (s, .ok (c.toNat, x.ea, x.pa)))
          | (s, [], bad) =>
            let g := badSplit s bad
            (s, .error { g with lanes := live, rcd := { g.rcd with mask := live, lane := false } })
        else (s, .ok (c.toNat, 0, 0))

/-- The path waits at the latch and issues nothing, be it arrived or second to another path of its warp (R193, R273,
R274). -/
def State.latchWait (s : State) : State :=
  ((s.modP (fun p => { p with both := true })).waitLane 8).yieldSlot s.cur.1 s.cur.2

/-- The operation in whose window the path issues a drain of its accumulator (R45). -/
def State.drainBefore (s : State) (opc : Nat) (f : LaneWord) : Option Nat :=
  if opc ≠ 0x383 then none
  else (s.cp.windows.find? (fun d => d.lane && d.dests.contains (.m (mxReg opc f)))).bind (·.made)

/-- The path arrives at the latch. -/
def State.arriveAt (s : State) (opc : Nat) (f : LaneWord) (c : Nat) (va : VAddr) (am : Nat) : State :=
  let core := coreOf s.cur.1
  let a : Arrival := {
    id := s.names, wid := s.cur.1, opc := opc, word := f, g0 := s.cw.g0, coff := c, amaxVa := va, amax := am
    before := s.drainBefore opc f }
  let s := ({ s with names := s.names + 1 }).modCore core (fun k => { k with latch := k.latch ++ [a] })
  let s := (s.modP (fun p => { p with mx := some a.id, lstall := 8 })).tryLatch core
  match s.path? with
  | some p => if p.mx = some a.id then s.latchWait else s
  | none => s

/-- What a matrix form does when its path issues it. -/
def State.mxIssue (s : State) (opc : Nat) (f : LaneWord) : State :=
  let core := coreOf s.cur.1
  let me := s.cw.tindex
  if s.cp.mx.isSome then
    let s := s.tryLatch core
    match s.path? with
    | some p => if p.mx.isSome then s.latchWait else s
    | none => s
  else if (s.core core).grant ≠ some s.cw.team then s.lanePathFault 0x12 5
  else if s.cw.g0 = 0 ∨ !(gangList s.cw.g0).contains me then (s.breakLatch core 3).lanePathFault 0x12 3
  else
    match s.mxOperands opc f with
    | (s, .error g) => s.splitThen [g] id
    | (s, .ok x) =>
      if (s.core core).latch.any (fun a => a.wid = s.cur.1) then s.latchWait else s.arriveAt opc f x.1 x.2.1 x.2.2

def execMxacc (f : LaneWord) (s : State) : Out := laneForm (.mxacc f) s (fun s => s.mxIssue 0x380 f)
def execMxzero (f : LaneWord) (s : State) : Out := laneForm (.mxzero f) s (fun s => s.mxIssue 0x381 f)
def execMxloadc (f : LaneWord) (s : State) : Out := laneForm (.mxloadc f) s (fun s => s.mxIssue 0x382 f)
def execMxdrain (f : LaneWord) (s : State) : Out := laneForm (.mxdrain f) s (fun s => s.mxIssue 0x383 f)

/-! ## Performing an operation (R274, R275, R277) -/

/-- Block b of a dense tile whose bytes from its head on are at key k of some cells (R256). -/
def denseBlock (m : Cells 8) (k c b : Nat) (tileB : Bool) : List Float.Val :=
  let e := k + Tensor.expPlane tileB c + 2 * b
  let n := Tensor.blockBytes c
  Tensor.blockValues c (m.get e).toNat (m.get (e + 1)).toNat (m.readN (k + 64 + b * n) n)

/-- Column c of a weight slot: 32 values, zeros where the column is dead or an element is dropped (R258). -/
def WSlot.column (w : WSlot) (c : Nat) : List Float.Val :=
  let fmt := w.fmt.toNat
  if !Tensor.isSparse fmt then denseBlock (w.planes.map (fun e => (e.1 + 64, e.2))) 0 fmt c true
  else if !bitB w.bitmap c then List.replicate 32 (.num false 0 0)
  else
    let l := w.live.toNat
    let j := popcount (w.bitmap &&& BitVec.ofNat 32 (2 ^ c - 1))
    let n := if fmt = 5 then 16 else 8
    let idx := Tensor.pad64 (n * l)
    let exp := idx + Tensor.pad64 (4 * l)
    let e0 := (w.planes.get (exp + 2 * j)).toNat
    let e1 := (w.planes.get (exp + 2 * j + 1)).toNat
    (Tensor.sparseVector (Tensor.isDx8 fmt) (w.planes.readNat (idx + 4 * j) 4) (w.planes.readN (n * j) n)).map (fun x =>
      match x with
      | some e => e.value (Tensor.isDx8 fmt) e0 e1
      | none => .num false 0 0)

/-- s of R275: the exact sum of products, an exact zero being +0. -/
def dotVal (a b : List Float.Val) : Float.Val :=
  match Tensor.sumVals (List.zipWith Tensor.mulVal a b) with
  | .num s m e => if m = 0 then .num false 0 0 else .num s m e
  | x => x

/-- s × σ of R275, an exact zero s being +0 whatever the sign of σ. -/
def scaled (s sigma : Float.Val) : Float.Val :=
  match s, Tensor.mulVal s sigma with
  | .num _ 0 _, .num _ m e => .num false m e
  | _, x => x

/-- One element of an accumulation: T + s × σ, rounded once (R275). -/
def accum (t : Nat) (a b : List Float.Val) (sigma : Float.Val) : Nat :=
  (Float.addVal Float.f32 0 false (Float.read Float.f32 t) (scaled (dotVal a b) sigma)).1

def tileKey (tile r c : Nat) : Nat := tile * 2048 + r * 32 + c
def Core.tileAt (k : Core) (tile r c : Nat) : Nat := (k.tiles.get (tileKey tile r c)).toNat

/-- Writes every element of a tile, with its poison. -/
def Core.setTile (k : Core) (tile : Nat) (rows : List (List Nat)) (bad : Bool) : Core :=
  { k with
    tiles := (rows.zipIdx).foldl (fun m r => (r.1.zipIdx).foldl (fun m c => m.set (tileKey tile r.2 c.2) (BitVec.ofNat 32 c.1)) m) k.tiles
    tilePoison := putBit k.tilePoison tile bad }

/-- A tile's rows. -/
def Core.tileRows (k : Core) (tile : Nat) : List (List Nat) :=
  (List.range 64).map (fun r => (List.range 32).map (fun c => k.tileAt tile r c))

def scaleVal (h : List Nat) : Float.Val := Float.read Float.f32 (natBits (h.getD 0 0) 63 32)

/-- MXACC of one warp. -/
def State.mxaccPart (s : State) (core tile : Nat) (a : Arrival) : State :=
  let team := s.teamOf a.wid
  let k := s.core core
  let w := k.wslots.getD a.word.a.toNat {}
  let key := canvasKey (s.teams.getD team {}) a.coff
  let sigma := Tensor.mulVal (scaleVal (s.headAt team a.coff)) (Float.read Float.f32 w.scale.toNat)
  let fmt := mxFmt a.word.tyN
  let cols := (List.range 32).map w.column
  let rows := (List.range 64).map (fun r =>
    let x := denseBlock s.mem.canvas key fmt r false
    (cols.zipIdx).map (fun c => accum (k.tileAt tile r c.2) x c.1 sigma))
  let bad := s.canvasBad team a.coff (Tensor.tileSize false fmt) || w.poison || bitB k.tilePoison tile
  s.modCore core (fun k => k.setTile tile rows bad)

/-- MXLOADC of one warp. -/
def State.mxloadPart (s : State) (core tile : Nat) (a : Arrival) : State :=
  let team := s.teamOf a.wid
  let key := canvasKey (s.teams.getD team {}) a.coff
  let sc := scaleVal (s.headAt team a.coff)
  let fmt := mxFmt a.word.tyN
  let rows := (List.range 64).map (fun r =>
    (denseBlock s.mem.canvas key fmt r false).map (fun v => Tensor.roundVal Float.f32 0 (Tensor.mulVal v sc)))
  s.modCore core (fun k => k.setTile tile rows (s.canvasBad team a.coff (Tensor.tileSize false fmt)))

/-- An element drained to a plain format (R277). -/
def drainElem (f : LaneWord) (x : Nat) : Nat :=
  let fm := Float.ofType f.tyN
  if f.tyN = 16 then x
  else
    let v := (Float.toFmt Float.f32 fm f.rnd.toNat false x).1
    match Float.read Float.f32 x with
    | .num s _ _ => if f.sat == 1 && (v = fm.inf false || v = fm.inf true) then fm.maxFinite s else v
    | _ => v

/-- Bytes of the CX tile a drain writes for the warp at a position. -/
def drainBytes (f : LaneWord) (pos : Nat) (rows : List (List Nat)) : List Byte :=
  let fmt := mxFmt f.tyN
  let head := bytesOf 8 (Tensor.headWord0 false fmt 0x3F800000) ++ List.replicate 56 0
  if Tensor.isDx fmt then
    let d8 := Tensor.isDx8 fmt
    let dith := bitB f.md 0
    let bs := rows.map (fun r => Tensor.convertDx d8 (if dith then 2 else f.rnd.toNat) ((f.d.toNat + 7 * pos) % 32)
      (r.map (fun x => Tensor.ratioOf (Float.read Float.f32 x) (.num false 1 0))))
    head ++ (bs.map (fun b => Tensor.packElems d8 b.2.2)).flatten
      ++ (bs.map (fun b => [BitVec.ofNat 8 b.1, BitVec.ofNat 8 b.2.1])).flatten
  else head ++ ((rows.flatten).map (fun x => bytesOf (Tensor.plainSize fmt) (drainElem f x))).flatten

/-- The largest magnitude of a tile as a pattern, or the canonical NaN (R277). -/
def amaxOf (xs : List Nat) : Nat :=
  if xs.any (fun x => (Float.read Float.f32 x).isNan) then Float.f32.nan else xs.foldl (fun m x => max m (x % 2 ^ 31)) 0

/-- Merges an amax into its word: a relaxed atomic maximum (R162, R277). -/
def State.mergeAmax (s : State) (a : Arrival) (x : Nat) : State :=
  s.asPath a.wid 0 (fun s =>
    let cmd : AmoCmd := { op := 2, size := 4, off := BitVec.ofNat 8 a.amax, ty := 7, mods := 0, operand := BitVec.ofNat 64 x, compare := 0 }
    if isDrawer a.amax then
      (s.dropLines (coreOf a.wid) a.amax 4).postReq
        { id := 0, kind := 3, addr := a.amax, cls := s.teamClass, amo := some cmd, eff := .atomic, core := some (coreOf a.wid) }
    else s.atomicPa false a.amax 4 (max (s.mem.bytes.readNat a.amax 4) x) none)

/-- The cells of one tile. -/
def Core.tileCells (k : Core) (tile : Nat) : Cells 32 := k.tiles.slice (tile * 2048) 2048

/-- An operation keeps its tiles as it finds them where its form has lookahead, for a drain in the window (R45). -/
def State.keepTiles (s : State) (core : Nat) (o : MxOp) : State :=
  let k := s.core core
  let copies : List TileCopy := ((o.parts.zipIdx).filter (fun a => a.1.opc ≠ 0x383 && a.1.word.la ≠ 0)).map (fun a =>
    { op := o.id, tile := a.1.tile a.2, cells := k.tileCells (a.1.tile a.2), bad := bitB k.tilePoison (a.1.tile a.2) })
  s.modCore core (fun k => { k with earlier := k.earlier ++ copies })

/-- A copy of a tile is still of use: a window of its operation is open, or a drain names it. -/
def State.copyUsed (s : State) (core : Nat) (c : TileCopy) : Bool :=
  ((s.core core).latch ++ ((s.core core).ops.map (·.parts)).flatten).any (fun a => a.before == some c.op)
    || s.warps.any (fun w => coreOf w.1 == core && (s.pathsOf w.1).any (fun p => p.windows.any (fun d => d.made == some c.op)))

/-- The core whose tiles a drain reads: with the tile as an earlier operation found it, where the drain issued in that one's
window (R45). -/
def Core.asBefore (k : Core) (tile : Nat) (a : Arrival) : Core :=
  match a.before.bind (fun op => k.earlier.find? (fun c => c.op = op && c.tile = tile)) with
  | some c =>
    { k with
      tiles := c.cells.foldl (fun (m : Cells 32) e => m.set e.1 e.2) (k.tiles.clear (tile * 2048) 2048)
      tilePoison := putBit k.tilePoison tile c.bad }
  | none => k

/-- MXDRAIN of one warp. -/
def State.mxdrainPart (s : State) (core tile pos : Nat) (a : Arrival) : State :=
  let k := (s.core core).asBefore tile a
  let rows := k.tileRows tile
  let key := canvasKey (s.teams.getD (s.teamOf a.wid) {}) a.coff
  let bad := bitB k.tilePoison tile
  let xs := ((drainBytes a.word pos rows).zipIdx).map (fun b => (key + b.2, b.1, bad))
  let s := s.modMem (fun m =>
    let r := writeBytes m.canvas m.canvasPoison xs
    { m with canvas := r.1, canvasPoison := r.2 })
  let s := s.stampPlain a.wid true key xs.length
  if a.merges then s.mergeAmax a (amaxOf rows.flatten) else s

/-- One warp's part of an operation. -/
def State.mxPart (s : State) (core pos : Nat) (a : Arrival) : State :=
  let tile := a.tile pos
  match a.opc with
  | 0x380 => s.mxaccPart core tile a
  | 0x381 => s.modCore core (fun k => k.setTile tile (List.replicate 64 (List.replicate 32 0)) false)
  | 0x382 => s.mxloadPart core tile a
  | _ => s.mxdrainPart core tile pos a

/-- The windows of a path no longer wait for an operation. -/
def Path.opDone (op : Nat) (p : Path) : Path :=
  let done (d : Window) : Window := if d.mxop = some op then { d with mxop := none } else d
  { p with
    windows := p.windows.map done
    handler := p.handler.map (fun h => { h with windows := h.windows.map done }) }

/-- Applies a change to every path of a warp that holds registers: slots, stack, overflow slot and fragments. -/
def State.everyPath (s : State) (wid : Nat) (g : Path → Path) : State :=
  (s.modWarp wid (fun w => { w with
    slot0 := w.slot0.map g
    slot1 := w.slot1.map g
    stack := w.stack.map (fun e => { e with path := g e.path })
    overflow := w.overflow.map (fun o => { o with path := g o.path }) })).modCore (coreOf wid) (fun c => { c with
      frags := c.frags.map (fun f => (f.1, if f.2.warp = wid then { f.2 with path := g f.2.path } else f.2)) })

/-- Results of every path of a warp that are now due become visible. -/
def State.settleWarp (s : State) (wid : Nat) : State :=
  (((s.warps.find wid).getD {}).places).foldl (fun s k => s.settleAll wid k) s

/-- The oldest operation names a slot that is loading (R274). -/
def MxOp.waits (o : MxOp) (c : Core) : Bool :=
  o.parts.any (fun a => a.opc == 0x380 && (c.wslots.getD a.word.a.toNat {}).state == 2)

/-- The array performs its oldest operation, warp by warp in g0 order. -/
def State.matrixStep (s : State) (core : Nat) : State :=
  match (s.core core).ops with
  | [] => s
  | o :: r =>
    if o.waits (s.core core) then s
    else
      let s := (o.parts.zipIdx).foldl (fun s a => s.mxPart core a.2 a.1) (s.keepTiles core o)
      let s := s.modCore core (fun c => { c with ops := r })
      let s := s.modCore core (fun c => { c with earlier := c.earlier.filter (s.copyUsed core) })
      o.parts.foldl (fun s a => (s.everyPath a.wid (Path.opDone o.id)).settleWarp a.wid) s

def execMatrixOperation (core : Nat) (s : State) : Out := eventForm (.matrixOperation core) s (fun s => s.matrixStep core)

end Sys2Proof.Machine
end

