-- ==== Sys2Proof/Machine/Teams.lean ====
section
/-! DEFINITION. Task types and role blocks (R194, R323), launch records (R197, R198), where a team fits (R170, R318),
its extents (R18), and a team's start and end (R35, R57, R194, R262, R286, R326). -/

namespace Sys2Proof.Machine

/-! ## Task types (R323) and role entries (R194) -/

/-- A role of a team: KIND, budget in registers, warps, entry word offset. -/
structure Role where
  kind : Nat
  budget : Nat
  warps : Nat
  entry : Nat
  deriving DecidableEq, Repr

namespace TType

def word (t : List DWord) (i : Nat) : DWord := t.getD i 0
def gang (t : List DWord) : Bool := bitB (word t 0) 0
def strict (t : List DWord) : Bool := bitB (word t 0) 1
def hasHome (t : List DWord) : Bool := bitB (word t 0) 2
def priv (t : List DWord) : Bool := bitB (word t 0) 3
def nrole (t : List DWord) : Nat := bitsN (word t 0) 7 6 + 1
def canvas (t : List DWord) : Nat := (bitsN (word t 0) 15 8 + 1) * 65536
def homeOff (t : List DWord) : Nat := bitsN (word t 5) 15 0
def nrange (t : List DWord) : Nat := bitsN (word t 5) 21 16
def ranges (t : List DWord) : Nat := (word t 6).toNat

def roleOf (x : DWord) : Role :=
  { kind := bitsN x 63 62, budget := 8 * (bitsN x 61 57 + 1), warps := bitsN x 56 52, entry := bitsN x 31 0 }

/-- Roles of a task type: its block, or the one implied role. -/
def roles (t : List DWord) : List Role :=
  if gang t then (List.range (nrole t)).map (fun i => roleOf (word t (1 + i)))
  else [{ kind := 0, budget := 8 * (bitsN (word t 0) 28 24 + 1), warps := bitsN (word t 0) 23 19, entry := bitsN (word t 0) 63 32 }]

/-- Every warp in team order, with its role, the role's index and its index within the role. -/
def warpList (t : List DWord) : List (Role × Nat × Nat) :=
  (((roles t).zipIdx).map (fun r => (List.range r.1.warps).map (fun j => (r.1, r.2, j)))).flatten

def matrixRole (t : List DWord) : Bool := (roles t).any (fun r => r.kind == 1)

/-- Reserved bits, and fields that take one value with or without GANG. -/
def fieldsOk (t : List DWord) : Bool :=
  bitsN (word t 0) 31 29 == 0 && bitsN (word t 0) 18 16 == 0 && bitsN (word t 0) 5 4 == 0 && bitsN (word t 5) 63 22 == 0
    && word t 7 == 0 && decide (nrange t ≤ 32) && ranges t % 16 == 0
    && (if gang t then bitsN (word t 0) 63 32 == 0 && bitsN (word t 0) 28 19 == 0
        else decide (1 ≤ bitsN (word t 0) 23 19 ∧ bitsN (word t 0) 23 19 ≤ 16))
    && (List.range 4).all (fun i => (gang t && decide (i < nrole t)) || word t (1 + i) == 0)

/-- A role block that R194 allows. -/
def rolesOk (t : List DWord) : Bool :=
  !gang t ||
    ((List.range (nrole t)).all (fun i =>
      let x := word t (1 + i)
      bitsN x 63 62 != 3 && decide (1 ≤ bitsN x 56 52 ∧ bitsN x 56 52 ≤ 16) && bitsN x 51 32 == 0)
     && decide ((warpList t).length ≤ 16))

end TType

/-! ## Slices (R170, R360) -/

/-- Warps and registers in use in one slice. -/
abbrev Load := Nat × Nat

def Warp.weight (w : Warp) : Nat := if w.shadow then 2 else 1

def State.sliceLoad (s : State) (core slice : Nat) : Load :=
  (s.warps.filter (fun w => w.1 / 16 = 4 * core + slice)).foldl (fun l w => (l.1 + w.2.weight, l.2 + w.2.weight * w.2.budget)) (0, 0)

/-- Ways to add one warp to ways of placing the ones before it, each set of loads once. -/
def placeOne (k b : Nat) (ways : List (List Nat × List Load)) : List (List Nat × List Load) :=
  ((ways.map (fun w => (List.range 4).filterMap (fun i =>
      let l := w.2.getD i (0, 0)
      if l.1 + k ≤ 16 && decide (l.2 + k * b ≤ 512) then some (w.1 ++ [i], w.2.set i (l.1 + k, l.2 + k * b)) else none))).flatten).foldl
    (fun acc w => if acc.any (fun v => v.2 == w.2) then acc else acc ++ [w]) []

/-- A slice for each warp of given budgets, if they fit; each takes k places. -/
def placeWarps (k : Nat) (loads : List Load) (budgets : List Nat) : Option (List Nat) :=
  ((budgets.foldl (fun ways b => placeOne k b ways) [([], loads)]).head?).map (·.1)

def budgetsOf (t : List DWord) : List Nat := (TType.warpList t).map (fun w => w.1.budget)

/-- The team's warps fit an empty core. -/
def fitsEmpty (k : Nat) (t : List DWord) : Bool := (placeWarps k [(0, 0), (0, 0), (0, 0), (0, 0)] (budgetsOf t)).isSome

def State.slicesFor (s : State) (k core : Nat) (t : List DWord) : Option (List Nat) :=
  placeWarps k ((List.range 4).map (s.sliceLoad core)) (budgetsOf t)

/-- Status of a task type at launch: 0, task type (4), launch record (5) (R323, R194). DESIGN CHOICE (log 124): a HOMEOFF
that is not 8-aligned is refused like a reserved bit, where HOME says it is valid. -/
def ttypeStatus (c : Ctx) (t : List DWord) (rsize : Option Nat) : Nat :=
  if !TType.fieldsOk t || (TType.priv t && !bitB c.cfg 60)
      || (match rsize with | some n => decide (n ≤ TType.homeOff t) || (TType.hasHome t && TType.homeOff t % 8 != 0) | none => false) then 4
  else if !TType.rolesOk t then 5
  else if !fitsEmpty (if c.ras then 2 else 1) t then 4
  else 0

/-! ## Canvas (R57, R286) -/

/-- Canvas bytes kept in reserve on a die, in whole granules. -/
def State.dieReserve (s : State) (die : Nat) : Nat :=
  let n := (s.systems ++ s.frozen : Tab Sys).foldl (fun n y => n + 256 * y.2.keep * (y.2.plots.filter (fun p => p.2.home = die)).length) 0
  (n + 65535) / 65536 * 65536

/-- Canvas bytes of a die that teams may have. -/
def State.canvasLimit (s : State) (die : Nat) : Nat := 0x6000000 - s.dieReserve die

def State.dieTeams (s : State) (die : Nat) : List (Nat × Team) := s.teams.filter (fun t => t.2.core / 200 = die)

/-- Lowest base of a free run of a size. -/
def State.canvasRun (s : State) (die size : Nat) : Option Nat :=
  let ts := s.dieTeams die
  let free (b : Nat) : Bool :=
    decide (b + size ≤ s.canvasLimit die) && ts.all (fun t => decide (b + size ≤ t.2.canvasBase ∨ t.2.canvasBase + t.2.canvasSize ≤ b))
  ((0 :: ts.map (fun t => t.2.canvasBase + t.2.canvasSize)).filter free).foldl
    (fun m b => match m with | some x => some (min x b) | none => some b) none

/-! ## Fit (R318) -/

def State.coreTeams (s : State) (core : Nat) : Nat := (s.teams.filter (fun t => t.2.core = core)).length

/-- The context may have one more team on the die. -/
def State.underCap (s : State) (ctx die : Nat) : Bool :=
  let cap := bitsN (s.ctx ctx).cfg 31 0
  cap == 0 || decide (((s.dieTeams die).filter (fun t => t.2.ctx = ctx)).length < cap)

def State.dieUp (s : State) (die : Nat) : Bool := bitB s.plat.dieup die

def State.fitsCore (s : State) (ctx : Nat) (t : List DWord) (core : Nat) : Bool :=
  s.dieUp (core / 200) && decide (s.coreTeams core < 16)
    && (s.slicesFor (if (s.ctx ctx).ras then 2 else 1) core t).isSome
    && (s.canvasRun (core / 200) (TType.canvas t)).isSome
    && (!TType.matrixRole t || (s.core core).grant.isNone)

def dieCores (die : Nat) : List Nat := (List.range 200).map (fun i => 200 * die + i)

/-- Of some cores, the fitting one with the most free team slots, the lowest among equals (R319). -/
def State.bestCore (s : State) (ctx : Nat) (t : List DWord) (cores : List Nat) : Option Nat :=
  (cores.filter (s.fitsCore ctx t)).foldl (fun b c =>
    match b with
    | some x => if s.coreTeams c < s.coreTeams x then some c else some x
    | none => some c) none

/-! ## Extents (R18) -/

/-- Page ranges merged where they overlap or meet, rising. -/
def mergeRanges (rs : List (Nat × Nat)) : List (Nat × Nat) :=
  rs.foldl (fun l r =>
    let meets := l.filter (fun x => decide (x.1 ≤ r.2 ∧ r.1 ≤ x.2))
    let lo := meets.foldl (fun m x => min m x.1) r.1
    let hi := meets.foldl (fun m x => max m x.2) r.2
    let rest := l.filter (fun x => !decide (x.1 ≤ r.2 ∧ r.1 ≤ x.2))
    rest.filter (fun x => x.1 < lo) ++ (lo, hi) :: rest.filter (fun x => lo < x.1)) []

/-- One extent: first page, physical address, pages, the leaf's attributes, and whether it is a large page. -/
def extentOf (vpn pa n : Nat) (e : DWord) (big : Bool) : BitVec 128 :=
  BitVec.ofNat 128 (vpn % 2 ^ 56 * 2 ^ 72 + pa / 65536 % 2 ^ 36 * 2 ^ 36 + (n - 1) % 2 ^ 28 * 2 ^ 8 + ptePl e % 4 * 2 ^ 6
    + boolNat (pteCmp e) * 2 ^ 5 + boolNat (pteRp e) * 2 ^ 4 + boolNat (pteWp e) * 2 ^ 3 + boolNat big * 2 ^ 2 + 1)

/-- A page the dealer may put in an extent: its physical address, leaf and size. -/
def State.extentPage (s : State) (ctx : Nat) (priv : Bool) (vpn : Nat) : Option (Nat × DWord × Bool) :=
  match peekLeaf s ctx (vpn * 65536) with
  | .leaf lvl e _ =>
    if 2 ≤ ptePl e || (ptePriv e && !priv) then none
    else some ((leafHit (decide (lvl = 3)) e (vpn * 65536)).pa, e, decide (lvl = 3))
  | _ => none

def sameAttrs (a b : DWord) : Bool := ptePl a == ptePl b && pteCmp a == pteCmp b && pteRp a == pteRp b && pteWp a == pteWp b

/-- Extents of the pages from vpn below a limit, at most 32 together with those before; cur is the run being grown:
first page, physical address, pages, leaf. -/
def State.walkExtents (s : State) (ctx : Nat) (priv : Bool) (hi : Nat) :
    Nat → Nat → Option (Nat × Nat × Nat × DWord) → List (BitVec 128) → List (BitVec 128)
  | 0, _, _, acc => acc
  | fuel + 1, vpn, cur, acc =>
    let close (acc : List (BitVec 128)) : List (BitVec 128) := match cur with
      | some c => acc ++ [extentOf c.1 c.2.1 c.2.2.1 c.2.2.2 false]
      | none => acc
    if hi ≤ vpn ∨ 32 ≤ acc.length then (close acc).take 32
    else
      match s.extentPage ctx priv vpn with
      | none => s.walkExtents ctx priv hi fuel (vpn + 1) none (close acc)
      | some (pa, e, true) =>
        let n := min hi ((vpn / 8192 + 1) * 8192) - vpn
        s.walkExtents ctx priv hi fuel (vpn + n) none (close acc ++ [extentOf vpn pa n e true])
      | some (pa, e, false) =>
        match cur with
        | some c =>
          if c.2.1 + 65536 * c.2.2.1 = pa && sameAttrs c.2.2.2 e then
            s.walkExtents ctx priv hi fuel (vpn + 1) (some (c.1, c.2.1, c.2.2.1 + 1, c.2.2.2)) acc
          else s.walkExtents ctx priv hi fuel (vpn + 1) (some (vpn, pa, 1, e)) (close acc)
        | none => s.walkExtents ctx priv hi fuel (vpn + 1) (some (vpn, pa, 1, e)) acc

/-- Extents of the declared ranges of a task type. -/
def State.extentsFor (s : State) (ctx cls : Nat) (t : List DWord) : State × List (BitVec 128) :=
  match s.hubWords cls ctx (TType.ranges t) (2 * TType.nrange t) with
  | (s, none) => (s, [])
  | (s, some ws) =>
    let rs := (List.range (TType.nrange t)).map (fun i => ((ws.getD (2 * i) 0).toNat, (ws.getD (2 * i + 1) 0).toNat))
    let ps := (rs.filter (fun r => decide (1 ≤ r.2 ∧ r.2 ≤ 2 ^ 48))).map (fun r => (r.1 / 65536, (r.1 + r.2 + 65535) / 65536))
    (s, (mergeRanges ps).foldl (fun acc r => s.walkExtents ctx (TType.priv t) r.2 (r.2 - r.1 + 1) r.1 none acc) [])

/-! ## Start (R35, R57, R194, R326) -/

/-- What a team starts with. -/
structure TeamSpec where
  ctx : Nat
  ttype : List DWord
  owner : TeamOwner
  cls : Nat
  teamid : DWord
  a : Cells 72
  s : Cells 64
  /-- Lanes that start exited. -/
  gone : Mask := 0

/-- A level register (R199). -/
def lvlReg (digit domain scope : Nat) : DWord := BitVec.ofNat 64 (2 ^ 63 + scope % 8 * 2 ^ 35 + domain % 8 * 2 ^ 32 + digit % 2 ^ 32)

/-- The implied levels of a chunk or a plot task (R286, R326). -/
def impliedLvl (digit warp : Nat) : Cells 64 := [(0, lvlReg 0 0 0), (1, lvlReg warp 1 1), (2, lvlReg digit 5 1)]

/-- Lowest free warp of a slice. -/
def freeWarp (s : State) (core slice : Nat) : Nat :=
  (((List.range 16).map (fun j => 64 * core + 16 * slice + j)).find? (fun w => (s.warps.find w).isNone)).getD (64 * core + 16 * slice)

/-- Starts one warp of a team. -/
def State.startWarp (s : State) (x : TeamSpec) (team core i slice : Nat) (r : Role × Nat × Nat) (lvl : Cells 64) : State :=
  let c := s.ctx x.ctx
  let wid := freeWarp s core slice
  let p : Path := { pc := BitVec.ofNat 72 (textbaseN c + 4 * r.1.entry), mask := fullMask &&& ~~~x.gone }
  let w : Warp := {
    team := team, ctx := x.ctx, budget := r.1.budget, priv := TType.priv x.ttype, tindex := i
    role := BitVec.ofNat 64 (r.2.1 % 4 * 2 ^ 8 + r.2.2 % 16 * 2 ^ 4 + r.1.kind)
    lvl := lvl, s := x.s, a := x.a, exited := x.gone, floor := s.now, slot0 := some p, shadow := c.ras }
  (s.putWarp wid w).modTeam team (fun t => { t with warps := t.warps ++ [wid] })

/-- Starts a team on a core, all its warps at once; none where it does not fit. lvl gives a warp's level registers. Its
start acquires at module scope, so the core keeps no older drawer line (R154, R164, R315). -/
def State.startTeam (s : State) (x : TeamSpec) (core : Nat) (lvl : Nat → Cells 64) : Option (Nat × State) :=
  match s.slicesFor (if (s.ctx x.ctx).ras then 2 else 1) core x.ttype, s.canvasRun (core / 200) (TType.canvas x.ttype) with
  | some sl, some base =>
    let (s, es) := s.extentsFor x.ctx x.cls x.ttype
    let key := s.names
    let t : Team := {
      ctx := x.ctx, core := core, space := xdSpace (s.ctx x.ctx).xdesc, teamid := x.teamid, owner := x.owner, cls := BitVec.ofNat 4 x.cls
      canvasBase := base, canvasSize := TType.canvas x.ttype, extents := es
      matrix := TType.matrixRole x.ttype, gang := TType.gang x.ttype }
    let s := ({ s with names := key + 1, teams := s.teams.put key t }).dropCore core
    let k := canvasKey t 0
    let s := s.modMem (fun m => { m with
      canvas := m.canvas.clear k t.canvasSize
      canvasPoison := m.canvasPoison.clear (k / 32) (t.canvasSize / 32)
      canvasStamps := m.canvasStamps.clear (k / 32) (t.canvasSize / 32) })
    let s := if t.matrix then s.modCore core (fun c => { c with grant := some key, tiles := [], tilePoison := 0, wslots := [] }) else s
    some (key, ((sl.zip (TType.warpList x.ttype)).zipIdx).foldl (fun s w => s.startWarp x key core w.2 w.1.1 w.1.2 (lvl w.2)) s)
  | _, _ => none

/-! ## Launch records (R197, R198) -/

/-- A level: domain, scope, extent. -/
structure Level where
  domain : Nat
  scope : Nat
  extent : Nat
  deriving DecidableEq, Repr

/-- Valid levels of a record, from level 0. -/
def levelsOf (r : List DWord) : List Level :=
  ((r.take 8).takeWhile (fun x => bitB x 63)).map (fun x => { domain := bitsN x 62 60, scope := bitsN x 59 57, extent := bitsN x 31 0 + 1 })

/-- Product of the extents of the levels of a domain. -/
def domainSize (ls : List Level) (d : Nat) : Nat := (ls.filter (fun l => l.domain = d)).foldl (fun n l => n * l.extent) 1

/-- Least scope of a domain. -/
def minScope (d : Nat) : Nat :=
  match d with
  | 0 => 0
  | 1 => 1
  | 2 => 2
  | 3 => 2
  | 4 => 3
  | _ => 1

def domainLimit (d : Nat) : Nat :=
  match d with
  | 0 => 128
  | 2 => 16
  | 3 => 200
  | 4 => 8
  | _ => 2 ^ 32

/-- Domains do not decrease from level 0 up. -/
def risingDomains : List Level → Bool
  | a :: b :: r => decide (a.domain ≤ b.domain) && risingDomains (b :: r)
  | _ => true

/-- Extents within the limits of R198 for a team of n warps. -/
def limitsOk (n : Nat) (ls : List Level) : Bool :=
  domainSize ls 1 == n && [0, 2, 3, 4, 5].all (fun d => decide (domainSize ls d ≤ domainLimit d))

/-- A record the front end takes (R197, R198). -/
def recordOk (n : Nat) (r : List DWord) : Bool :=
  let ls := levelsOf r
  !ls.isEmpty && ((r.take 8).drop ls.length).all (fun x => !bitB x 63)
    && (r.take 8).all (fun x => bitsN x 56 32 == 0) && ls.all (fun l => decide (l.domain ≤ 5 ∧ l.scope ≤ 4 ∧ minScope l.domain ≤ l.scope))
    && risingDomains ls && limitsOk n ls

/-- Teams of a launch: the product over team, core, die and module levels (R325). -/
def teamCount (ls : List Level) : Nat := domainSize ls 2 * domainSize ls 3 * domainSize ls 4 * domainSize ls 5

/-- Level registers of warp i of team t (R199, R325). -/
def recordLvl (ls : List Level) (t i : Nat) : Cells 64 :=
  ((ls.zipIdx).foldl (fun (r : Cells 64 × Nat × Nat) l =>
    let q := l.1
    let digit := if q.domain = 0 then 0 else if q.domain = 1 then r.2.1 % q.extent else r.2.2 % q.extent
    (r.1 ++ [(l.2, lvlReg digit q.domain q.scope)],
     (if q.domain = 1 then r.2.1 / q.extent else r.2.1), (if 2 ≤ q.domain then r.2.2 / q.extent else r.2.2))) ([], i, t)).1

/-! ## End (R262, R286) -/

/-- A team has ended: every warp has, and every entry its warps placed has retired. -/
def State.teamOver (s : State) (t : Nat) : Bool :=
  match s.teams.find t with
  | none => false
  | some x =>
    x.warps.all (fun w => match s.warps.find w with | some w => w.ended | none => true)
      && (s.core x.core).queues.all (fun q => q.2.entries.all (fun e => e.team != t))

end Sys2Proof.Machine
end

