-- ==== Sys2Proof/Machine/Standing.lean ====
section
/-! DEFINITION. Standing systems: records of the Residual Dispatcher, raises, dispatch decisions, settling, moves of
plots (R278-R297, R397), and the meanings of the forms of R298-R305 and of the RD's events. -/

namespace Sys2Proof.Machine

/-! ## The RD's tables -/

def State.modSys (s : State) (n : Nat) (f : Sys → Sys) : State :=
  match s.systems.find n with
  | some y => { s with systems := s.systems.put n (f y) }
  | none => s

def State.plot? (s : State) (n i : Nat) : Option Plot := (s.systems.find n).bind (fun y => y.plots.find i)

def State.modPlot (s : State) (n i : Nat) (f : Plot → Plot) : State :=
  s.modSys n (fun y => match y.plots.find i with | some p => { y with plots := y.plots.put i (f p) } | none => y)

/-- The number is that of a live system, be its context frozen or not (R278). -/
def State.sysLive (s : State) (n : Nat) : Bool := (s.systems.find n).isSome || (s.frozen.find n).isSome

/-- A live system the context owns. -/
def State.sysOf (s : State) (ctx n : Nat) : Option Sys :=
  if s.ownsSys ctx n then (s.systems.find n).filter (fun y => y.ctx = ctx) else none

/-- The larger of two keys. -/
def kmax (a b : BitVec 16) : BitVec 16 := if a < b then b else a

def Sys.above (y : Sys) (k : BitVec 16) : Bool := decide (y.eps < k)

/-! ## Writes of the RD (R279) -/

/-- Stores bytes at a 64-aligned address in lines of 64 bytes through the hub. -/
def State.hubLines (s : State) (cls ctx va : Nat) : List (List Byte) → State × Bool
  | [] => (s, true)
  | b :: r =>
    match s.hubWrite cls ctx va 64 (ofBytes b) with
    | (s, true) => State.hubLines s cls ctx (va + 64) r
    | (s, false) => (s, false)

/-- A dispatcher's write of 8 bytes for a system, which is a context fault where it fails (R279). -/
def State.rdWriteOf (s : State) (y : Sys) (va x : Nat) (posted : Bool := false) : State :=
  let r := s.hubWrite (s.queueClass y.ctx y.queue) y.ctx va 8 x posted
  if r.2 then r.1 else r.1.contextFault y.ctx 0x0A 0

def State.rdWrite (s : State) (n va x : Nat) (posted : Bool := false) : State :=
  match s.systems.find n with
  | none => s
  | some y => s.rdWriteOf y va x posted

/-- Writes word i of the SSCB. -/
def State.sscbWrite (s : State) (n i : Nat) (x : DWord) (posted : Bool := false) : State :=
  match s.systems.find n with
  | some y => s.rdWrite n (y.sscb + 8 * i) x.toNat posted
  | none => s

/-- The status word changes (R280). -/
def State.setStatus (s : State) (n : Nat) (f : DWord → DWord) (posted : Bool := false) : State :=
  match s.systems.find n with
  | none => s
  | some y => if f y.status = y.status then s else (s.modSys n (fun y => { y with status := f y.status })).sscbWrite n 6 (f y.status) posted

/-! ## Quiet dies (R291, R292) and windows of reaps (R305) -/

def Sys.quiet (y : Sys) (die : Nat) : Bool :=
  y.plots.all (fun p => p.2.home != die || (p.2.st != .service && !y.above p.2.key))

def Sys.quietMask (y : Sys) : BitVec 8 := (List.range 8).foldl (fun m d => putBit m d (y.quiet d)) 0

/-- A die that becomes quiet, of those that were not in the mask, tells the lead, which begins a round once every die has told
it, where no settled record stands. -/
def State.noteQuiet (s : State) (n : Nat) (was : BitVec 8) : State :=
  s.modSys n (fun y =>
    let q := y.quietMask
    { y with
      told := y.told ||| q
      due := y.due || (!bitB y.status 62 && y.told ||| q == BitVec.allOnes 8 && q &&& ~~~was != 0) })

/-- The largest pending key or key in service. -/
def Sys.top (y : Sys) : BitVec 16 :=
  y.plots.foldl (fun m p => kmax m (if p.2.st = .service then kmax p.2.key p.2.svckey else p.2.key)) 0

def State.noteBound (s : State) (n : Nat) : State :=
  match s.systems.find n with
  | some y => { s with reaps := s.reaps.map (fun r => (r.1, if r.2.sys = n then { r.2 with bound := kmax r.2.bound y.top } else r.2)) }
  | none => s

/-! ## Plots (R285, R289, R290) -/

/-- A plot becomes PENDING: stamp, raise sequence, and SET cleared. -/
def State.becomePending (s : State) (n i : Nat) (posted : Bool := false) : State :=
  match s.systems.find n, s.plot? n i with
  | some y, some p =>
    let q := s.hub.rdSeq.get p.home + 1
    let s := { s with hub := { s.hub with rdSeq := s.hub.rdSeq.set p.home q } }
    let s := s.modPlot n i (fun p => { p with st := .pending, stamp := y.disp.get p.home, rseq := q })
    s.setStatus n (fun v => putBit v 62 false) posted
  | _, _ => s

/-- A raise that arrives at a die or a dispatch on it disarms its mark in a round in progress (R292). -/
def State.disarm (s : State) (n die : Nat) : State :=
  s.modSys n (fun y => { y with round := y.round.map (fun r => { r with armed := putBit r.armed die false }) })

/-- Key after a raise (R285). -/
def raisedKey (key k : BitVec 16) (sum : Bool) : BitVec 16 :=
  if sum then BitVec.ofNat 16 (min 0xFFFF (key.toNat + k.toNat)) else kmax key k

/-- A raise arrives at the RD that homes the plot and is applied (R285, R290). -/
def State.applyRaise (s : State) (n i : Nat) (k : BitVec 16) (sum : Bool) : State :=
  match s.systems.find n, s.plot? n i with
  | some y, some p =>
    let key := raisedKey p.key k sum
    let s := (s.modPlot n i (fun p => { p with key := key })).disarm n p.home
    let s := if p.st = .idle && y.above key then s.becomePending n i else s
    s.noteBound n
  | _, _ => s

/-- The plot that decide would choose on a die (R289). -/
def Sys.decide (y : Sys) (die : Nat) : Option Nat :=
  let ps := y.plots.filter (fun p => p.2.home = die && p.2.st = .pending)
  let starved := ps.filter (fun p => Decidable.decide (y.starve ≤ (y.disp.get die - p.2.stamp).toNat))
  let pick (better : Plot → Plot → Bool) (l : Tab Plot) : Option Nat :=
    (l.foldl (fun b p => match b with | some x => if better p.2 x.2 then some p else some x | none => some p) none).map (·.1)
  if y.leaving then none
  else if starved.isEmpty then pick (fun a b => Decidable.decide (b.key < a.key)) ps
  else pick (fun a b => Decidable.decide (a.rseq < b.rseq)) starved

/-- A dispatch decision takes its plot into service (R289). -/
def State.takePlot (s : State) (n i : Nat) : State :=
  match s.systems.find n, s.plot? n i with
  | some y, some p =>
    let s := s.modSys n (fun y => { y with disp := y.disp.set p.home (y.disp.get p.home + 1), ndisp := y.ndisp + 1 })
    let s := s.modPlot n i (fun p => { p with svckey := p.key, key := 0, st := .service, ended := none })
    ((s.disarm n p.home).noteBound n).sscbWrite n 8 (y.ndisp + 1)
  | _, _ => s

/-! ## Reaps (R293, R305) -/

/-- The 72 words of a settled record or reap report (R293). -/
def recordWords (n : Nat) (report : Bool) (key : BitVec 16) (seq : DWord) (nwatch : Nat) (time : DWord) (counts : List DWord) : List DWord :=
  [BitVec.ofNat 64 (n % 64 * 2 ^ 58 + boolNat report * 2 ^ 16 + key.toNat), seq, BitVec.ofNat 64 nwatch, time, 0, 0, 0, 0]
    ++ (List.range 64).map (fun i => counts.getD i 0)

/-- Words as lines of 64 bytes. -/
def linesOf (ws : List DWord) : List (List Byte) :=
  (List.range (ws.length / 8)).map (fun i => (((ws.drop (8 * i)).take 8).map (fun w => bytesOf 8 w.toNat)).flatten)

/-- Settles the node of every valid watch slot whose node is live; answers the counts (R292, R305). -/
def State.settleWatches (s : State) (n : Nat) : State × List DWord :=
  match s.systems.find n with
  | none => (s, [])
  | some y =>
    (List.range 64).foldl (fun (r : State × List DWord) i =>
      match y.watch.find i with
      | some w =>
        if r.1.nodeLive y.ctx w.1 then
          let s := r.1.settleNode y.ctx w.1
          (s, r.2 ++ [(s.node y.ctx w.1).count])
        else (r.1, r.2 ++ [0])
      | none => (r.1, r.2 ++ [0])) (s, [])

def Reap.agent (s : State) (r : Reap) : Agent :=
  match r.wid with
  | some wid => s.agentOf wid
  | none => hubAgent r.ctx

/-- Translates for a reap; a migrate fault is repaired first (R305). -/
def State.reapAt (s : State) (r : Reap) (va : Nat) (want : Want) : State × Except XFault Hit :=
  match translate s (r.agent s) va want with
  | (s, .error (1, 3)) => s.afterMove (r.agent s) va want
  | x => x

def Reap.drawerClass (s : State) (r : Reap) : Nat :=
  match r.wid with
  | some _ => (s.teams.getD r.team {}).cls.toNat
  | none => r.cls

/-- Reads n bytes of an iterate region, within one aligned block of 256 bytes; none on a failure. -/
def State.reapRead (s : State) (r : Reap) (va n : Nat) : State × Option (List Byte) :=
  match s.reapAt r va .read with
  | (s, .error _) => (s, none)
  | (s, .ok h) =>
    let x := s.hubLoad (r.drawerClass s) h.pa n
    (x.1, if poisoned s.mem.poison h.pa n then none else some x.2)

/-- Stores bytes as the reap's agent, within one aligned block of 256 bytes. -/
def State.reapStore (s : State) (r : Reap) (va : Nat) (bs : List Byte) : State × Bool :=
  match s.reapAt r va .write with
  | (s, .error _) => (s, false)
  | (s, .ok h) =>
    if isDrawer h.pa then
      ((s.asks (maskedReqs (r.drawerClass s) h.pa bs .store (r.wid.map coreOf))).1, true)
    else
      match r.wid with
      | some wid =>
        let e : EngEntry := { id := 0, form := .txst, wid := wid, team := r.team, ctx := r.ctx, iv := r.iv }
        (s.engWrite e false ((bs.zipIdx).map (fun (b : Byte × Nat) => (h.pa + b.2, b.1, false))), true)
      | none => ((s.modMem (·.store h.pa bs)).clearStamps r.ctx false h.pa bs.length, true)

/-- Stores bytes at any address, block by block. -/
def State.reapStores (s : State) (r : Reap) : Nat → Nat → List Byte → State × Bool
  | 0, _, _ => (s, true)
  | fuel + 1, va, bs =>
    if bs.isEmpty then (s, true)
    else
      let n := 256 - va % 256
      match s.reapStore r va (bs.take n) with
      | (s, true) => State.reapStores s r fuel (va + n) (bs.drop n)
      | (s, false) => (s, false)

/-- A reap failed past its checks (R305). DEDUCED (log 143): a write of its destination or report that fails then is the same
context fault as a read of an iterate region. -/
def State.iterateFault (s : State) (r : Reap) : State := s.contextFault r.ctx 5 0

def State.modReap (s : State) (id : Nat) (f : Reap → Reap) : State :=
  match s.reaps.find id with
  | some r => { s with reaps := s.reaps.put id (f r) }
  | none => s

/-- Forms with lookahead of a path that have not completed, those its handler has set aside among them. -/
def Path.pends (p : Path) : List Pend :=
  p.windows.filterMap (·.pend) ++ (match p.handler with | some h => h.windows.filterMap (·.pend) | none => [])

/-- Those of every path of a warp: in slots, on the stack, in the overflow slot and in fragments. -/
def State.pendsOf (s : State) (wid : Nat) : List Pend :=
  let w := (s.warps.find wid).getD {}
  ((w.places.filterMap w.slot).map Path.pends).flatten
    ++ (match w.overflow with | some o => o.path.pends | none => [])
    ++ (((s.core (coreOf wid)).frags.filter (fun f => f.2.warp = wid)).map (fun f => f.2.path.pends)).flatten

/-- The path or queue entry that issued a reap still waits for it. -/
def State.reapLive (s : State) (id : Nat) (r : Reap) : Bool :=
  match r.wid with
  | some wid => (s.pendsOf wid).any (fun x => match x with | .reap i _ => i == id | _ => false)
  | none => (s.ctx r.ctx).queues.any (fun q => (q.2.entry.bind (·.reap)) == some id)

/-- Reaps that stand at a plot and do not hold it, with when they reached it. -/
def State.reapsAt (s : State) (n i : Nat) : List (Nat × Nat) :=
  (s.reaps.filter (fun r => r.2.sys = n && r.2.first + r.2.pos = i && decide (r.2.pos < r.2.count) && !r.2.holding
    && s.reapLive r.1 r.2)).map (fun r => (r.1, r.2.reached))

/-! ### Who has a plot next (R290, R296, R305) -/

def State.modSet (s : State) (k : Nat) (f : RegSet → RegSet) : State :=
  { s with hub := { s.hub with sets := s.hub.sets.put k (f (s.hub.sets.getD k {})) } }

def State.regSet (s : State) (k : Nat) : RegSet := s.hub.sets.getD k {}

def rhSys (v : DWord) : Nat := bitsN v 55 50
def rhPlot (v : DWord) : Nat := bitsN v 19 0
def rhNew (v : DWord) : Nat := bitsN v 58 56

/-- Re-homes that wait for a plot: register set, and when their GO came (R24). -/
def State.movesAt (s : State) (n i : Nat) : List (Nat × Nat) :=
  (s.hub.sets.filter (fun r => r.2.rhbusy && rhSys r.2.rhwork == n && rhPlot r.2.rhwork == i)).map (fun r => (r.1, r.2.rhat))

/-- No other waits for the plot that came before a moment. -/
def first (ws : List (Nat × Nat)) (at_ : Nat) : Bool := ws.all (fun x => decide (at_ ≤ x.2))

/-- A reap may begin its copy of the plot it stands at: no re-home that came before it waits there (R290, R305). -/
def State.reapReady (s : State) (r : Reap) : Bool :=
  match s.plot? r.sys (r.first + r.pos) with
  | some p => (p.st == .idle || p.st == .pending) && first (s.movesAt r.sys (r.first + r.pos)) r.reached
  | none => false

/-- A plot that is IDLE or PENDING is held for a reap, or moved. -/
def State.holdPlot (s : State) (n i : Nat) (st : PlotState) (mover : Option Nat) : State :=
  s.modPlot n i (fun p => { p with st := st, wasPending := decide (p.st = .pending), mover := mover })

/-- Begins the copy of a plot, which is held out of dispatch for it (R290). -/
def State.beginCopy (s : State) (id : Nat) (r : Reap) : State :=
  (s.holdPlot r.sys (r.first + r.pos) .held none).modReap id (fun r => { r with holding := true, off := 0 })

/-- A plot that has become IDLE or PENDING goes to whatever has waited for it longest: a re-home or a reap. -/
def State.nextHolder (s : State) (n i : Nat) : State :=
  let ms := s.movesAt n i
  let rs := s.reapsAt n i
  match ms.find? (fun x => first ms x.2 && first rs x.2), rs.find? (fun x => first ms x.2 && first rs x.2) with
  | some m, _ => s.holdPlot n i .moving (some m.1)
  | none, some r => (match s.reaps.find r.1 with | some x => s.beginCopy r.1 x | none => s)
  | none, none => s

/-- A copy is done: the plot is PENDING if its key lies above the threshold, with the stamp it had if it was, else IDLE
(R290). -/
def State.endHold (s : State) (n i : Nat) (posted : Bool := false) : State :=
  match s.systems.find n, s.plot? n i with
  | some y, some p =>
    let s := s.modPlot n i (fun p => { p with st := if y.above p.key && p.wasPending then .pending else .idle, wasPending := false })
    let s := if y.above p.key && !p.wasPending then s.becomePending n i posted else s
    s.nextHolder n i
  | _, _ => s

/-- One step of a reap at the plot it stands at: it takes the plot, copies bytes of it within one block of each side, or
leaves it for the next, having acquired its last PLOTEND (R165, R290, R305). -/
def State.reapCopy (s : State) (id : Nat) : State :=
  match s.reaps.find id with
  | none => s
  | some r =>
    match s.plot? r.sys (r.first + r.pos) with
    | none => s
    | some p =>
      if !r.holding then (if s.reapReady r then s.beginCopy id r else s)
      else if p.ilen ≤ r.off then
        let s := ({ s with names := s.names + 1 }).modReap id (fun r => { r with pos := r.pos + 1, reached := s.names, holding := false, off := 0 })
        s.endHold r.sys (r.first + r.pos)
      else
        let src := p.ireg + r.off
        let dst := r.dst + r.pos * r.stride + r.off
        let n := min (p.ilen - r.off) (min (256 - src % 256) (256 - dst % 256))
        match s.reapRead r src n with
        | (s, none) => s.iterateFault r
        | (s, some bs) =>
          match s.reapStore r dst bs with
          | (s, false) => s.iterateFault r
          | (s, true) => s.modReap id (fun r => { r with off := r.off + n })

/-- A reap that nothing waits for any more gives up the plot it holds; the status word that this may write is posted, and waits
for its link outside any step (R82, R279). -/
def State.dropReap (s : State) (id : Nat) (r : Reap) : State :=
  let s := { s with reaps := s.reaps.erase id }
  if r.holding then s.endHold r.sys (r.first + r.pos) true else s

/-- A plot's task completes (R287); what waited for the plot has it before it can be dispatched (R290). -/
def State.completePlot (s : State) (n i : Nat) : State :=
  match s.systems.find n, s.plot? n i with
  | some y, some p =>
    match p.ended with
    | none => s
    | some k =>
      let key := kmax p.key (k.getD 0xFFFF)
      let s := s.modPlot n i (fun p => { p with key := key, st := .idle, ended := none })
      let s := if k.isNone then s.setStatus n (fun v => putBit v 60 true) else s
      let s := if y.above key then s.becomePending n i else s
      ((s.nextHolder n i).noteBound n).noteQuiet n y.quietMask
  | _, _ => s

/-- What a descriptor says (R304). -/
def reapOf (ws : List DWord) : Reap :=
  let w (i : Nat) : DWord := ws.getD i 0
  { wid := none, ctx := 0, sys := bitsN (w 0) 5 0, first := bitsN (w 0) 63 44, count := bitsN (w 0) 43 24 + 1, dst := (w 1).toNat
    stride := bitsN (w 2) 31 0, rpt := (w 3).toNat }

def reapReserved (ws : List DWord) : Bool :=
  let w (i : Nat) : DWord := ws.getD i 0
  bitsN (w 0) 23 6 == 0 && bitsN (w 2) 63 32 == 0 && (List.range 4).all (fun i => w (4 + i) == 0)

/-- The range lies in the system and STRIDE is no smaller than any ILEN copied. DEDUCED (log 143): a STRIDE that is not a
multiple of 8 has cause descriptor too. -/
def reapShape (y : Sys) (r : Reap) : Bool :=
  decide (r.first + r.count ≤ y.plots.length) && r.stride % 8 == 0
    && (List.range r.count).all (fun j => decide ((y.plots.getD (r.first + j) {}).ilen ≤ r.stride))

/-- Bytes of the whole destination span. -/
def reapSpan (y : Sys) (r : Reap) : Nat :=
  (r.count - 1) * r.stride + (y.plots.getD (r.first + r.count - 1) {}).ilen

/-- First address of each 64 KiB page that n bytes from va touch. -/
def pagesOf (va n : Nat) : List Nat :=
  if n = 0 then [] else (List.range ((va + n - 1) / 65536 - va / 65536 + 1)).map (fun i => max va ((va / 65536 + i) * 65536))

/-- Checks write permission of addresses in turn; answers the first failure. -/
def State.checkPages (s : State) (a : Agent) (want : Want) : List Nat → State × Option (XFault × Nat)
  | [] => (s, none)
  | va :: r =>
    match earlyFault 1 (va : Int) with
    | some x => (s, some (x, va))
    | none =>
      match translate s a va want with
      | (s, .ok _) => State.checkPages s a want r
      | (s, .error x) => (s, some (x, va))

/-- A reap past its checks: its start point (R305 step 2). Answers its name. -/
def State.startReap (s : State) (r : Reap) : State × Nat :=
  let id := s.names
  let s := { s with names := id + 1 }
  let c := s.settleWatches r.sys
  let y := (c.1.systems.find r.sys).getD {}
  let r := { r with counts := c.2, seq := y.seq, bound := y.top, reached := id }
  ({ c.1 with reaps := c.1.reaps.put id r }, id)

/-- The end point: the report is written (R293, R305 step 4). -/
def State.endReap (s : State) (id : Nat) (r : Reap) : State :=
  let y := (s.systems.find r.sys).getD {}
  let bs := ((recordWords r.sys true r.bound r.seq y.nwatch s.cycle r.counts).map (fun w => bytesOf 8 w.toNat)).flatten
  let x := s.reapStores r 4 r.rpt bs
  let s := if x.2 then x.1 else x.1.iterateFault r
  { s with reaps := s.reaps.erase id }

/-! ## The forms (R298-R305) -/

/-- The key of a value (R299). -/
def residualKey (t : Nat) (x : Nat) : Nat :=
  match t with
  | 7 => min x 0xFFFF
  | 3 => if 2 ^ 31 ≤ x then 0 else min x 0xFFFF
  | _ => if (Float.read Float.f32 x).isNan then 0xFFFF else x % 2 ^ 31 / 2 ^ 15

def execVrkey (f : LaneWord) (s : State) : Out :=
  perLane (.vrkey f) f 1 (fun w _ l => residualKey f.tyN (w.vReg f.a.toNat l).toNat) s

/-- Sends a raise of the issuing path (R285, R303). -/
def State.sendRaise (s : State) (n i : Nat) (k : BitVec 16) (sum : Bool) : State :=
  let r : Raise := { id := s.names, sender := s.cur.1, sys := n, plot := i, key := k, sum := sum }
  ({ s with names := s.names + 1, raises := s.raises ++ [r] }).modP (fun p => { p with sent := p.sent ++ [r.id] })

/-- The scalar raise (R302): DESIGN CHOICE (log 142): its faults are tested in the order system,
plot, key, and before the wait for earlier accesses. -/
def State.raiseForm (s : State) (x y z : BitVec 6) (sum : Bool) : State :=
  let n := (s.sReg x).toNat
  let i := (s.sReg y).toNat
  let k := s.sReg z
  match s.sysOf s.cw.ctx n with
  | none => s.scalarFault 0x10 0x0B 0 0
  | some q =>
    if q.plots.length ≤ i then s.scalarFault 0x10 0x0C 0 0
    else if bitsN k 63 16 ≠ 0 then s.scalarFault 0x10 0x0D 0 0
    else if !s.performed then s.wait 4
    else (s.releaseP.sendRaise n i (BitVec.ofNat 16 k.toNat) sum).advance

def execRaise (x y z : BitVec 6) (s : State) : Out := scalarForm (.raise x y z) s (fun s => s.raiseForm x y z false)
def execRaiseSum (x y z : BitVec 6) (s : State) : Out := scalarForm (.raiseSum x y z) s (fun s => s.raiseForm x y z true)

/-- Cause of a lane of VRAISE: 0 none, 1 system, 2 plot, 3 key (R300). -/
def raiseCause (y : Option Sys) (i k : Nat) : Nat :=
  match y with
  | none => 1
  | some y => if y.plots.length ≤ i then 2 else if 2 ^ 16 ≤ k then 3 else 0

def State.vraise (s : State) (f : LaneWord) : State :=
  let n := (s.run.sVal (f.c.toNat % 64)).toNat
  let y := s.sysOf s.cw.ctx n
  let w := s.cw
  let ls := (s.actLanes f).map (fun l => (l, (w.vReg f.b.toNat l).toNat, (w.vReg f.a.toNat l).toNat))
  let bad := ls.filter (fun x => raiseCause y x.2.1 x.2.2 ≠ 0)
  let best := bad.foldl (fun m x => min m (raiseCause y x.2.1 x.2.2)) 4
  let rcd : FaultRec := {
    cls := 0x0A, cause := BitVec.ofNat 8 best, lane := true, flpc := BitVec.ofNat 20 s.cp.lpc
    mask := maskOf ((bad.filter (fun x => raiseCause y x.2.1 x.2.2 = best)).map (·.1)) }
  let good := ls.filter (fun x => raiseCause y x.2.1 x.2.2 = 0)
  s.splitThen [{ lanes := maskOf (bad.map (·.1)), rcd := rcd }] (fun s =>
    if good.isEmpty then s
    else good.foldl (fun s x => s.sendRaise n x.2.1 (BitVec.ofNat 16 x.2.2) (f.mdN 0 0 == 1)) s.releaseP)

def execVraise (f : LaneWord) (s : State) : Out :=
  laneForm (.vraise f) s (fun s => if !s.performed then s.waitLane 4 else s.vraise f)

/-- Every raise the path sent has arrived. -/
def State.raisesArrived (s : State) : Bool := s.raises.all (fun r => !s.cp.sent.contains r.id)

/-- A stated key of the team's task: the largest given (R287). -/
def State.stateKey (s : State) (k : BitVec 16) : State :=
  s.modTeam s.cw.team (fun t => { t with stated := some (match t.stated with | some x => kmax x k | none => k) })

/-- PLOTEND (R303): the wait for the runs comes first. DESIGN CHOICE (log 142): then the faults, and then the wait for the
accesses and the raises. -/
def execPlotend (x : BitVec 6) (s : State) : Out :=
  scalarForm (.plotend x) s (afterRuns (fun s =>
    match s.cteam.owner with
    | .plot _ _ =>
      let k := s.sReg x
      if bitsN k 63 16 ≠ 0 then s.scalarFault 0x10 0x0D 0 0
      else if !s.performed || !s.raisesArrived then s.wait 4
      else (s.releaseP.stateKey (BitVec.ofNat 16 k.toNat)).exitPath
    | _ => s.scalarFault 0x10 0x0C 0 0))

/-- Steps 1 and 2 of a path's reap: the checks, then its start point, from which on its window runs (R45). DESIGN CHOICE
(log 143): the checks' order. -/
def State.beginReap (s : State) (d : BitVec 6) (l : BitVec 4) (va : Nat) (ws : List DWord) : State :=
  let r := { reapOf ws with wid := some s.cur.1, ctx := s.cw.ctx, iv := s.cw.interval, team := s.cw.team }
  if !reapReserved ws then s.scalarFault 0x10 0x0E va 0
  else
    match s.sysOf s.cw.ctx r.sys with
    | none => s.scalarFault 0x10 0x0B 0 0
    | some y =>
      if !reapShape y r then s.scalarFault 0x10 0x0E va 0
      else if r.dst % 8 ≠ 0 then s.scalarFault 2 5 r.dst 0
      else if r.rpt % 64 ≠ 0 then s.scalarFault 2 5 r.rpt 0
      else
        match s.checkPages s.agent .write (pagesOf r.dst (reapSpan y r) ++ pagesOf r.rpt 576) with
        | (s, some x) => s.scalarXfault x.1 (BitVec.ofNat 72 x.2)
        | (s, none) =>
          let x := s.startReap r
          (x.1.modP (fun p => { p with windows := p.windows ++
            [{ lane := false, left := l.toNat + 1, dests := [.s d.toNat], pend := some (.reap x.2 d.toNat) }] })).advance

/-- Reads the descriptor of a path's reap as the path would load it: one that the memory could not correct kills the warp
(log 121). -/
def State.reapDescriptor (s : State) (va : Nat) : State × Except RecStop (List DWord) :=
  if va / 2 ^ 68 = 15 then (s, .error (.fault (2, 2) va))
  else
    match translate s s.agent va .read with
    | (s, .error x) => (s, .error (.fault x va))
    | (s, .ok h) =>
      if poisoned s.mem.poison h.pa 64 then (s, .error .bad)
      else
        let r := s.hubLoad s.teamClass h.pa 64
        (r.1, .ok (wordsOf r.2))

/-- REAP at issue. -/
def State.reapForm (s : State) (d : BitVec 6) (a l : BitVec 4) : State :=
  let va := (s.aReg a).toNat
  if va % 64 ≠ 0 then s.scalarFault 2 5 va 0
  else
    match s.reapDescriptor va with
    | (s, .error (.fault x at_)) => s.scalarXfault x (BitVec.ofNat 72 at_)
    | (s, .error .bad) => s.killWarp s.cur.1
    | (s, .error .wait) => s.wait 5
    | (s, .ok ws) => s.beginReap d l va ws

/-- A path's step that finds its drawer link stalled or its queue full has not taken place: the path waits (R82, R94). -/
def State.orStall (t s : State) : State :=
  if t.held.isSome && s.held.isNone then (t.orWait s (.scalar s.cur.1 s.cur.2)).wait 5 else t

def execReap (d : BitVec 6) (a l : BitVec 4) (s : State) : Out :=
  scalarForm (.reap d a l) s (fun s => (s.reapForm d a l).orStall s)

/-! ## Arrivals and completions -/

/-- Raise k of those in flight is the oldest of its sender to its plot (R285). -/
def State.raiseFirst (s : State) (k : Nat) : Bool :=
  match s.raises[k]? with
  | none => false
  | some r => (s.raises.take k).all (fun x => !(x.sender == r.sender && x.sys == r.sys && x.plot == r.plot))

/-- Older forwarding entries of a plot that has been re-homed again are freed once every sender has routed through the new
home. DEDUCED (log 125): which is when no raise for the plot is on its way. -/
def State.freeForwards (s : State) (n i : Nat) : State :=
  if s.raises.any (fun r => r.sys == n && r.plot == i) then s
  else s.modSys n (fun y =>
    match y.forward.find? (fun e => e.2.1 = i) with
    | some e => { y with forward := e :: y.forward.filter (fun e => e.2.1 ≠ i) }
    | none => y)

def State.raiseArrives (s : State) (k : Nat) : State :=
  match s.raises[k]? with
  | none => s
  | some r => if s.raiseFirst k then (({ s with raises := s.raises.eraseIdx k }).applyRaise r.sys r.plot r.key r.sum).freeForwards r.sys r.plot else s

def execRaiseArrival (k : Nat) (s : State) : Out := eventForm (.raiseArrival k) s (fun s => s.raiseArrives k)

/-- The context and node a watch event is of. -/
def State.watchNode (s : State) (e : Nat × Nat) : Option (Nat × Nat) :=
  (s.systems.find e.1).bind (fun y => (y.watch.find e.2).map (fun w => (y.ctx, w.1)))

/-- No event of the same node was sent before it: those of one node arrive in order (R105). -/
def State.watchFirst (s : State) (e : Nat × Nat) : Bool :=
  (s.watchEvents.takeWhile (· != e)).all (fun x => (s.watchNode x).isNone || s.watchNode x != s.watchNode e)

/-- A watch event: each plot of the slot's range is raised to 0xFFFF (R105, R280). -/
def State.watchArrives (s : State) (n slot : Nat) : State :=
  if !s.watchEvents.contains (n, slot) || !s.watchFirst (n, slot) then s
  else
    let s := { s with watchEvents := s.watchEvents.erase (n, slot) }
    match s.systems.find n with
    | none => s
    | some y =>
      match y.watch.find slot with
      | none => s
      | some w =>
        let s := (s.modSys n (fun y => { y with nwev := y.nwev + 1 })).sscbWrite n 9 (y.nwev + 1)
        let s := s.setStatus n (fun v => putBit v 61 true)
        (List.range w.2.2).foldl (fun s i => s.applyRaise n (w.2.1 + i) 0xFFFF false) s

def execWatchEvent (sys slot : Nat) (s : State) : Out := eventForm (.watchEvent sys slot) s (fun s => s.watchArrives sys slot)

def execPlotTaskComplete (sys plot : Nat) (s : State) : Out := eventForm (.plotTaskComplete sys plot) s (fun s => s.completePlot sys plot)

/-- A draining context with no team left is drained (R352). -/
def State.noteDrained (s : State) (ctx : Nat) : State :=
  if (s.ctx ctx).st = .draining && (ctxTeams s ctx).isEmpty then s.modCtx ctx (fun c => { c with st := .drained }) else s

/-- A team ends (R262, R286, R327): its kept canvas goes back, its launch or plot learns of it, and what it held is
released. -/
def State.endTeam (s : State) (t : Nat) : State :=
  if !s.teamOver t then s
  else
    match s.teams.find t with
    | none => s
    | some x =>
      let s : State := match x.owner with
        | .plot n i =>
          let keep := 256 * ((s.systems.find n).getD {}).keep
          let bs : List (Nat × Byte) := s.mem.canvas.slice (canvasKey x 0) keep
          let s := s.modSys n (fun y =>
            { y with reserve := bs.foldl (fun m b => m.set (b.1 - canvasKey x 0 + i * 65536) b.2) (y.reserve.clear (i * 65536) 65536) })
          s.modPlot n i (fun p => { p with ended := some x.stated })
        | .launch ctx q => s.modQueue ctx q (fun q => { q with entry := q.entry.map (fun e =>
            { e with launch := e.launch.map (fun l => { l with live := l.live - 1 }) }) })
        | .none => s
      (s.releaseTeam t).noteDrained x.ctx

def execTeamEnd (team : Nat) (s : State) : Out := eventForm (.teamEnd team) s (fun s => s.endTeam team)

/-! ## Settling (R292, R293) -/

/-- Writes a settled record: the record, SEQ, STATUS, the semaphore (R293). -/
def State.settled (s : State) (n : Nat) (key : BitVec 16) (counts : List DWord) : State :=
  match s.systems.find n with
  | none => s
  | some y =>
    let seq := y.seq + 1
    let r := s.hubLines (s.queueClass y.ctx y.queue) y.ctx y.report (linesOf (recordWords n false key seq y.nwatch s.cycle counts))
    if !r.2 then r.1.contextFault y.ctx 0x0A 0
    else
      let s := (r.1.modSys n (fun y => { y with seq := seq })).sscbWrite n 7 seq
      let s := s.setStatus n (fun v => putBit (putBit v 62 true) 61 false)
      s.rdWrite n y.sem seq.toNat

/-- A quiet round may begin: the lead begins one, and no settled record stands. -/
def Sys.roundDue (y : Sys) : Bool := y.round.isNone && y.due && !bitB y.status 62 && !y.leaving

/-- A round has ended: the dies quiet now count as having told, and a failed round is followed by another while all are. -/
def State.endRound (s : State) (n : Nat) : State :=
  s.modSys n (fun y => { y with
    round := none, told := y.quietMask, due := y.quietMask == BitVec.allOnes 8 && !bitB y.status 62 })

/-- A quiet round in two steps (R292): ROUNDS, the first settles and every die's answer; then the second settles, the confirms,
and the record where every mark is still armed and the counts agree. DEDUCED (log 68). -/
def State.quietRound (s : State) (n : Nat) : State :=
  match s.systems.find n with
  | none => s
  | some y =>
    match y.round with
    | some r =>
      let c := s.settleWatches n
      (if r.armed = BitVec.allOnes 8 && c.2 == r.counts then c.1.settled n r.key c.2 else c.1).endRound n
    | none =>
      if !y.roundDue then s
      else
        let c := (s.setStatus n (fun v => putBits v 31 0 (bitsN v 31 0 + 1))).settleWatches n
        let y := (c.1.systems.find n).getD {}
        if y.quietMask = BitVec.allOnes 8 then
          c.1.modSys n (fun y => { y with
            due := false
            round := some { counts := c.2, armed := BitVec.allOnes 8, key := y.plots.foldl (fun m p => kmax m p.2.key) 0 } })
        else c.1.endRound n

def execQuietRound (sys : Nat) (s : State) : Out := eventForm (.quietRound sys) s (fun s => s.quietRound sys)

/-! ## Moving a plot (R295, R296) -/

/-- Every live system, those of frozen contexts too (R278). -/
def State.liveSystems (s : State) : Tab Sys := s.systems ++ s.frozen

/-- Plots homed on a die. -/
def State.diePlots (s : State) (die : Nat) : Nat :=
  s.liveSystems.foldl (fun n y => n + (y.2.plots.filter (fun p => p.2.home = die)).length) 0

/-- No team of the die stands in its reserve. -/
def State.reserveFits (s : State) (die : Nat) : Bool :=
  decide (s.dieReserve die ≤ 0x6000000) && (s.dieTeams die).all (fun t => decide (t.2.canvasBase + t.2.canvasSize ≤ s.canvasLimit die))

/-- Forwarding entries of a die in use (R296). -/
def State.forwards (s : State) (die : Nat) : Nat :=
  s.liveSystems.foldl (fun n y => n + (y.2.forward.filter (fun e => e.1 = die)).length) 0

/-- The machine with a plot's home another, for the reserves that would then be. -/
def State.homedAt (s : State) (n i die : Nat) : State :=
  let move (t : Tab Sys) : Tab Sys := t.map (fun y =>
    (y.1, if y.1 = n then { y.2 with plots := y.2.plots.map (fun p => (p.1, if p.1 = i then { p.2 with home := die } else p.2)) } else y.2))
  { s with systems := move s.systems, frozen := move s.frozen }

/-- Why a re-home is refused: 1 a rule of R295, 2 no forwarding entry; 0 none. -/
def State.rhRefused (s : State) (v : DWord) : Nat :=
  match (s.liveSystems.find (rhSys v)).bind (fun y => y.plots.find (rhPlot v)) with
  | none => 1
  | some p =>
    if bitsN v 62 59 ≠ 0 || bitsN v 49 20 ≠ 0 || rhNew v = p.home || decide (131072 ≤ s.diePlots (rhNew v))
      || !(s.homedAt (rhSys v) (rhPlot v) (rhNew v)).reserveFits (rhNew v) then 1
    else if 4096 ≤ s.forwards p.home then 2
    else 0

/-- FWDX of a system is set (R280): of one at rest, in its image and in its block too. -/
def State.markFwdx (s : State) (n : Nat) : State :=
  match s.frozen.find n with
  | none => s.setStatus n (fun x => putBit x 59 true)
  | some y =>
    let set (y : Sys) : Sys := { y with status := putBit y.status 59 true }
    let held (i : Image) : Image := if i.ctx = y.ctx then { i with systems := i.systems.map (fun z => (z.1, if z.1 = n then set z.2 else z.2)) } else i
    let s : State := { s with frozen := s.frozen.put n (set y), images := s.images.map (fun i => (i.1, held i.2)) }
    if y.ctx < 256 then s.rdWriteOf y (y.sscb + 48) (set y).status.toNat else s

/-- A write of RHCMD with GO (R295); the re-home acts on the command as it then is. -/
def State.rehomeGo (s : State) (set : Nat) (v : DWord) : State :=
  let r := s.regSet set
  let why := if r.rhbusy then 1 else s.rhRefused v
  if why = 0 then
    ({ s with names := s.names + 1 }).modSet set (fun r => { r with rhcmd := putBit v 63 false, rhwork := putBit v 63 false, rhat := s.names, rhbusy := true })
  else
    let s := s.modSet set (fun r => { r with rherr := true, rhcmd := if r.rhbusy then r.rhcmd else putBit v 63 false })
    if why = 2 then s.markFwdx (rhSys v) else s

def execRehome (set : Nat) (v : DWord) (s : State) : Out := eventForm (.rehome set v) s (fun s => s.rehomeGo set v)

/-- HOME in the plot record is rewritten (R282, R296). -/
def State.writeHome (s : State) (n : Nat) (p : Plot) (die : Nat) : State :=
  match s.systems.find n with
  | none => s
  | some y =>
    match s.hubRead (s.queueClass y.ctx y.queue) y.ctx p.record 8 with
    | (s, some x) => s.rdWrite n p.record (putBits (BitVec.ofNat 64 x) 43 41 die).toNat
    | (s, none) => s.contextFault y.ctx 0x0A 0

/-- The switch: the plot with its state, key and stamp distance passes to the new die (R296). -/
def State.switchHome (s : State) (n i new : Nat) : State :=
  match s.systems.find n, s.plot? n i with
  | some y, some p =>
    let dist := y.disp.get p.home - p.stamp
    let q := s.hub.rdSeq.get new + 1
    let s := if p.wasPending then { s with hub := { s.hub with rdSeq := s.hub.rdSeq.set new q } } else s
    let s := s.modPlot n i (fun p => { p with
      home := new, st := if p.wasPending then .pending else .idle, stamp := y.disp.get new - dist
      rseq := if p.wasPending then q else p.rseq, wasPending := false, mover := none })
    let s := (s.modSys n (fun y => { y with forward := (p.home, i, new) :: y.forward })).freeForwards n i
    (s.writeHome n p new).noteQuiet n y.quietMask
  | _, _ => s

def State.rehomeDone (s : State) (set : Nat) : State := s.modSet set (fun r => { r with rhbusy := false, rhseq := r.rhseq + 1 })

/-- A re-home in progress: the plot enters MOVING when it is IDLE or PENDING and no re-home or reap that came before has yet
to have it, and then the switch takes place. It waits for a system whose context is frozen; one whose plot is gone ends without
having been done. -/
def State.rehomeStep (s : State) (set : Nat) : State :=
  let r := s.regSet set
  if !r.rhbusy then s
  else
    let n := rhSys r.rhwork
    let i := rhPlot r.rhwork
    let mine := first (s.movesAt n i) r.rhat && first (s.reapsAt n i) r.rhat
    match s.plot? n i with
    | none => if s.sysLive n then s else s.modSet set (fun r => { r with rhbusy := false })
    | some p =>
      match p.st with
      | .idle | .pending => if mine then s.holdPlot n i .moving (some set) else s
      | .moving => if p.mover = some set then ((s.switchHome n i (rhNew r.rhwork)).rehomeDone set).nextHolder n i else s
      | _ => s

def execRehomeSwitch (set : Nat) (s : State) : Out := eventForm (.rehomeSwitch set) s (fun s => s.rehomeStep set)

end Sys2Proof.Machine
end

