-- ==== Sys2Proof/Machine/Queues.lean ====
section
/-! DEFINITION. Queue rings and their entries (R311-R317, R398), semaphores (R321), queue fences (R333), graphs (R329,
R330), copies and reaps of queues (R331, R332). -/

namespace Sys2Proof.Machine

/-! ## Queue registers (R311, R312) -/

namespace Queue

def en (q : Queue) : Bool := bitB q.qcfg 63
def tickets (q : Queue) : Nat := bitsN q.qcfg 47 32
def size (q : Queue) : Nat := 2 ^ bitsN q.qcfg 20 16
def base (q : Queue) : Nat := bitsN q.qbase 63 6 * 64
/-- Address of the slot of an index. -/
def slotVa (q : Queue) (i : Nat) : Nat := q.base + 64 * (i % q.size)

end Queue

/-- Context blocks and queues are live once stage 2 has ended (R377). -/
def State.blocksLive (s : State) : Bool := s.plat.ready

def queueFault (s : State) (ctx : Nat) : State := s.contextFault ctx 0x0B 0

/-- The context's queues run: entries in progress advance while it runs or drains (R352). -/
def State.advances (s : State) (ctx : Nat) : Bool := let st := (s.ctx ctx).st; st == .running || st == .draining

/-- Reads n bytes through the hub as one read, for a queue. -/
def State.queueRead (s : State) (ctx q va n : Nat) : State × Option Nat := s.hubRead (s.queueClass ctx q) ctx va n

/-- Words of an aligned 64-byte line. -/
def lineWords (x : Nat) : List DWord := (List.range 8).map (fun i => BitVec.ofNat 64 (x >>> (64 * i)))

/-! ### Consumption (R314) -/

/-- Bits of words a command does not use are zero, and its codes are assigned (R316, R321). -/
def entryOk (ws : List DWord) : Bool :=
  let w (i : Nat) : DWord := ws.getD i 0
  let z (i : Nat) : Bool := w i == 0
  bitsN (w 0) 23 0 == 0 && bitsN (w 7) 2 0 == 0 && z 5 && z 6 &&
    (match bitsN (w 0) 31 24 with
     | 1 => z 3 && z 4
     | 2 => bitsN (w 4) 63 4 == 0 && decide (bitsN (w 4) 3 0 ≤ 4) && (bitsN (w 4) 3 0 == 4 || z 3)
     | 3 => z 3 && bitsN (w 4) 63 2 == 0 && decide (bitsN (w 4) 1 0 ≤ 2)
     | 4 => bitsN (w 1) 63 16 == 0 && bitsN (w 2) 63 32 == 0 && z 3 && z 4
     | 5 => bitsN (w 2) 63 28 == 0 && bitsN (w 2) 15 12 == 0 && z 4
     | 6 => bitsN (w 2) 63 6 == 0 && z 3 && z 4
     | 7 => z 1 && bitsN (w 2) 63 6 == 0 && z 3 && z 4
     | 8 => z 2 && z 3 && z 4
     | 9 => z 4 && bitsN (w 3) 2 0 == 0 && decide (8 ≤ (w 3).toNat ∧ (w 3).toNat ≤ 2 ^ 32)
     | _ => false)

/-- Takes entry i: QHEAD, the head word, and the entry with its status if its command is bad (R314, R317). -/
def State.takeEntry (s : State) (ctx q i : Nat) (ws : List DWord) : State :=
  let e : Entry := { index := BitVec.ofNat 64 i, words := ws, status := if entryOk ws then none else some 1 }
  let s := s.modQueue ctx q (fun x => { x with qhead := BitVec.ofNat 64 (i + 1), waitpub := false, block := false, entry := some e })
  let hwb := bitsN (s.queue ctx q).qhwb 63 3 * 8
  if hwb = 0 then s
  else
    match s.hubWrite (s.queueClass ctx q) ctx hwb 8 (i + 1) with
    | (s, true) => s
    | (s, false) => queueFault s ctx

/-- Reads the slot at QHEAD: the entry is taken if its marker matches, else WAITPUB is set (R314). -/
def State.readSlot (s : State) (ctx q : Nat) : State :=
  let x := s.queue ctx q
  let i := x.qhead.toNat
  match s.queueRead ctx q (x.slotVa i) 64 with
  | (s, none) => queueFault s ctx
  | (s, some v) =>
    let ws := lineWords v
    if bitsN (ws.getD 0 0) 63 32 = (i + 1) % 2 ^ 32 then s.takeEntry ctx q i ws
    else s.modQueue ctx q (fun x => { x with waitpub := true })

/-- The queue may consume its next entry (R311, R314, R352). -/
def State.mayConsume (s : State) (ctx q : Nat) : Bool :=
  let c := s.ctx ctx
  let x := s.queue ctx q
  s.blocksLive && c.st == .running && bitB c.cfg 62 && x.en && !x.scrub && x.entry.isNone && decide (x.qhead < x.qtail)

def execEntryConsume (ctx q : Nat) (s : State) : Out :=
  eventForm (.entryConsume ctx q) s (fun s => if s.mayConsume ctx q then s.readSlot ctx q else s)

/-- An unpublished slot is read again (R312, R314). -/
def State.rereadSlot (s : State) (ctx q : Nat) : State :=
  if s.mayConsume ctx q && (s.queue ctx q).waitpub then s.readSlot ctx q else s

def execSlotReread (ctx q : Nat) (s : State) : Out := eventForm (.slotReread ctx q) s (fun s => s.rereadSlot ctx q)

/-- QTAIL := max; a value too far ahead is discarded (R312). -/
def State.writeQtail (s : State) (ctx q : Nat) (v : DWord) : State :=
  let x := s.queue ctx q
  if !s.blocksLive then s
  else if x.qhead.toNat + 2 ^ 32 < v.toNat then s.modQueue ctx q (fun x => { x with err := true })
  else
    s.modQueue ctx q (fun x => { x with qtail := if x.qtail < v then v else x.qtail })

/-- And the slot is read again, at once or when its drawer link takes the read. -/
def State.qtailStep (s : State) (ctx q : Nat) (v : DWord) : State :=
  let t := s.writeQtail ctx q v
  if !s.blocksLive || decide ((s.queue ctx q).qhead.toNat + 2 ^ 32 < v.toNat) || s.hub.fatal then t
  else (t.rereadSlot ctx q).orWait t (.event (.slotReread ctx q))

def execQtailWrite (ctx q : Nat) (v : DWord) (s : State) : Out := .next (s.qtailStep ctx q v)

/-- A QCFG write is discarded with a bad field, or with another LOGSZ while the queue is enabled (R311). -/
def qcfgOk (x : Queue) (v : DWord) : Bool :=
  let lg := bitsN v 20 16
  bitsN v 62 48 == 0 && bitsN v 27 21 == 0 && bitsN v 15 0 == 0 && bitsN v 47 32 != 0 && decide (1 ≤ lg ∧ lg ≤ 16)
    && (!x.en || lg == bitsN x.qcfg 20 16)

def State.writeQcfg (s : State) (ctx q : Nat) (v : DWord) : State :=
  let x := s.queue ctx q
  if !s.blocksLive then s
  else if !qcfgOk x v then s.modQueue ctx q (fun x => { x with err := true })
  else if !x.en && bitB v 63 then
    s.modQueue ctx q (fun x => { x with qcfg := v, qhead := 0, qtail := 0, waitpub := false, scrub := true })
  else s.modQueue ctx q (fun x => { x with qcfg := v, waitpub := x.waitpub && bitB v 63 })

def execQcfgWrite (ctx q : Nat) (v : DWord) (s : State) : Out := .next (s.writeQcfg ctx q v)

/-- Zeroes word 0 of slots in order; answers false at the first write that fails. -/
def State.scrubSlots (s : State) (ctx q : Nat) : List Nat → State × Bool
  | [] => (s, true)
  | i :: r =>
    match s.hubWrite (s.queueClass ctx q) ctx ((s.queue ctx q).slotVa i) 8 0 with
    | (s, true) => State.scrubSlots s ctx q r
    | (s, false) => (s, false)

/-- The scrub's writes, to the last of them (R311). -/
def State.scrub (s : State) (ctx q : Nat) : State :=
  let x := s.queue ctx q
  if !x.scrub then s
  else
    match s.scrubSlots ctx q (List.range x.size) with
    | (s, true) => s.modQueue ctx q (fun x => { x with scrub := false })
    | (s, false) => queueFault s ctx

def execScrubComplete (ctx q : Nat) (s : State) : Out := eventForm (.scrubComplete ctx q) s (fun s => s.scrub ctx q)

/-! ### Entries -/

/-- Changes the entry in progress. -/
def State.modEntry (s : State) (ctx q : Nat) (f : Entry → Entry) : State :=
  s.modQueue ctx q (fun x => { x with entry := x.entry.map f })

/-- The entry ends with a status. -/
def State.finish (s : State) (ctx q : Nat) (status : BitVec 8) : State :=
  (s.modEntry ctx q (fun e => { e with status := some status, launch := none })).modQueue ctx q (fun x => { x with block := false })

/-- The entry in progress, while it may advance and has not ended. -/
def State.entryOf (s : State) (ctx q : Nat) : Option Entry :=
  if s.advances ctx then ((s.queue ctx q).entry).filter (fun e => e.status.isNone) else none

def Entry.cmd (e : Entry) : Nat := bitsN (e.words.getD 0 0) 31 24
def Entry.word (e : Entry) (i : Nat) : DWord := e.words.getD i 0

/-- An event of a queue's command: it acts on an entry of that command that is in progress. -/
def queueForm (i : Instr) (ctx q cmd : Nat) (s : State) (body : State → Entry → State) : Out :=
  eventForm i s (fun s =>
    match s.entryOf ctx q with
    | some e => if e.cmd = cmd then body s e else s
    | none => s)

/-- Completion: the completion word, then the queue is free for its next entry (R315, R317). -/
def State.completeEntry (s : State) (ctx q : Nat) : State :=
  match (s.queue ctx q).entry with
  | none => s
  | some e =>
    match e.status with
    | none => s
    | some st =>
      if !s.advances ctx then s
      else
        match s.writeDone ctx q e st e.detail with
        | (s, true) => s.modQueue ctx q (fun x => { x with entry := none, block := false })
        | (s, false) => queueFault s ctx

def execEntryComplete (ctx q : Nat) (s : State) : Out := eventForm (.entryComplete ctx q) s (fun s => s.completeEntry ctx q)

/-! ## Semaphores (R321) -/

def semHolds (cmp : Nat) (x v m : DWord) : Bool :=
  match cmp with
  | 0 => decide (v ≤ x)
  | 1 => decide (v < x)
  | 2 => x == v
  | 3 => x != v
  | _ => (x &&& m) == (v &&& m)

def semApply (op : Nat) (x v : DWord) : DWord :=
  match op with
  | 0 => v
  | 1 => x + v
  | _ => if x < v then v else x

/-- The wait an entry or a graph node stands at: address, value, mask, comparison. -/
structure SemRef where
  va : Nat
  value : DWord
  mask : DWord
  code : Nat
  deriving DecidableEq, Repr

/-- A graph's current node. -/
def Graph.node (g : Graph) : List DWord := g.nodes.getD g.pos []

def nodeKind (ws : List DWord) : Nat := bitsN (ws.getD 0 0) 63 60
def nodeNext (ws : List DWord) : Nat := bitsN (ws.getD 0 0) 59 48
def nodeAlt (ws : List DWord) : Nat := bitsN (ws.getD 0 0) 47 36
def nodeCode (ws : List DWord) : Nat := bitsN (ws.getD 0 0) 35 32
def nodeMax (ws : List DWord) : Nat := bitsN (ws.getD 0 0) 31 0

def nodeSem (ws : List DWord) : SemRef :=
  { va := (ws.getD 1 0).toNat, value := ws.getD 2 0, mask := ws.getD 3 0, code := nodeCode ws }

/-- A node is well formed for its kind (R329). DEDUCED (log 145): VALUE and MASK of a kind that does not use them may hold
anything. -/
def nodeOk (ws : List DWord) : Bool :=
  let code := nodeCode ws
  let compares := nodeKind ws == 2 || nodeKind ws == 3 || nodeKind ws == 4
  decide (nodeKind ws ≤ 5)
    && (if compares then decide (code ≤ 4) && (code == 4 || ws.getD 3 0 == 0) else if nodeKind ws = 5 then decide (code ≤ 2) else code == 0)
    && (nodeKind ws == 2 || nodeKind ws == 3 || nodeAlt ws == 0)
    && (if nodeKind ws = 3 then nodeMax ws != 0 else nodeMax ws == 0)

/-- A graph run may go on at its node: it exists, is well formed, and the run is within its limit (R330). -/
def Graph.ok (g : Graph) : Bool := decide (g.pos < g.nodes.length) && nodeOk g.node && decide (g.steps ≤ 2 ^ 24)

/-- The graph goes to a node. -/
def State.graphGo (s : State) (ctx q : Nat) (n : Nat) : State :=
  (s.modEntry ctx q (fun e => { e with launch := none, graph := e.graph.map (fun g => { g with pos := n, steps := g.steps + 1 }) })).modQueue
    ctx q (fun x => { x with block := false })

/-- Runs a body at a graph's node of a kind; a bad node ends the graph with status 0x09. -/
def State.atNode? (s : State) (ctx q : Nat) (e : Entry) (kind : Nat) (body : State → Graph → State) : State :=
  match e.graph with
  | none => s
  | some g => if !g.ok then s.finish ctx q 9 else if nodeKind g.node = kind then body s g else s

/-- Where a semaphore step leaves its queue: the command ends, or the graph goes on. -/
def State.semDone (s : State) (ctx q : Nat) (e : Entry) : State :=
  match e.graph with
  | some g => s.graphGo ctx q (nodeNext g.node)
  | none => s.finish ctx q 0

/-- The semaphore an entry stands at, as a wait (or a signal). -/
def Entry.sem (e : Entry) (signal : Bool) : Option SemRef :=
  match e.cmd with
  | 2 => if signal then none else some { va := (e.word 1).toNat, value := e.word 2, mask := e.word 3, code := bitsN (e.word 4) 3 0 }
  | 3 => if signal then some { va := (e.word 1).toNat, value := e.word 2, mask := 0, code := bitsN (e.word 4) 1 0 } else none
  | 5 => match e.graph with
    | some g => if g.ok && nodeKind g.node == (if signal then 5 else 4) then some (nodeSem g.node) else none
    | none => none
  | _ => none

/-- Reads a word an entry names: its status is address where it is misaligned or the read fails (R317, R330). -/
def State.readNamed (s : State) (ctx q va : Nat) : State × Option DWord :=
  if va % 8 ≠ 0 then (s, none)
  else
    match s.queueRead ctx q va 8 with
    | (s, some x) => (s, some (BitVec.ofNat 64 x))
    | (s, none) => (s, none)

/-- Evaluates the wait of the entry in progress. -/
def State.semWait (s : State) (ctx q : Nat) (e : Entry) (m : SemRef) : State :=
  match s.readNamed ctx q m.va with
  | (s, none) => s.finish ctx q 2
  | (s, some x) =>
    if semHolds m.code x m.value m.mask then s.semDone ctx q e
    else s.modQueue ctx q (fun x => { x with block := true })

/-- A semaphore event: a bad graph node ends the graph; a wait or a signal that stands there is done. -/
def State.semEvent (s : State) (ctx q : Nat) (signal first : Bool) (body : State → Entry → SemRef → State) : State :=
  match s.entryOf ctx q with
  | none => s
  | some e =>
    match e.sem signal with
    | none => s
    | some m => if (s.queue ctx q).block = first then s else body s e m

def execWaitsem (ctx q : Nat) (s : State) : Out := eventForm (.waitsem ctx q) s (fun s => s.semEvent ctx q false true (fun s e m => s.semWait ctx q e m))
def execSemaphoreReread (ctx q : Nat) (s : State) : Out :=
  eventForm (.semaphoreReread ctx q) s (fun s => s.semEvent ctx q false false (fun s e m => s.semWait ctx q e m))

/-- The update of a signal: an atomic release at system scope (R321). -/
def State.semSignal (s : State) (ctx q : Nat) (e : Entry) (m : SemRef) : State :=
  match s.readNamed ctx q m.va with
  | (s, none) => s.finish ctx q 2
  | (s, some x) =>
    match s.hubWrite (s.queueClass ctx q) ctx m.va 8 (semApply m.code x m.value).toNat with
    | (s, true) => s.semDone ctx q e
    | (s, false) => s.finish ctx q 2

def execSigsem (ctx q : Nat) (s : State) : Out := eventForm (.sigsem ctx q) s (fun s => s.semEvent ctx q true true (fun s e m => s.semSignal ctx q e m))

/-! ## Queue fences (R333) -/

/-- The fence of a queue: MASK and TAG. -/
def State.fenceOf (s : State) (ctx q : Nat) : Option (Nat × Nat) :=
  (s.entryOf ctx q).bind (fun e => if e.cmd = 4 then some ((e.word 1).toNat, (e.word 2).toNat) else none)

def maskQueues (m : Nat) : List Nat := (List.range 16).filter (fun q => m.testBit q)

/-- A fence meets any other of its tag and another mask where either names the other's queue (R333). DESIGN CHOICE (log 144):
EN of the queues it names is tested at every turn, so a queue disabled while the fence waits ends it. -/
def State.fenceStep (s : State) (ctx q : Nat) (e : Entry) : State :=
  let m := (e.word 1).toNat
  let tag := (e.word 2).toNat
  let qs := maskQueues m
  let clash := (List.range 16).filter (fun k => match s.fenceOf ctx k with
    | some f => f.2 == tag && f.1 != m && (f.1.testBit q || qs.contains k)
    | none => false)
  if !qs.contains q || !qs.all (fun k => (s.queue ctx k).en) then s.finish ctx q 0x0A
  else if !clash.isEmpty then (q :: clash).foldl (fun s k => s.finish ctx k 0x0A) s
  else if qs.all (fun k => s.fenceOf ctx k == some (m, tag)) then qs.foldl (fun s k => s.finish ctx k 0) s
  else s.modQueue ctx q (fun x => { x with block := true })

def execQfenceEntry (ctx q : Nat) (s : State) : Out := queueForm (.qfenceEntry ctx q) ctx q 4 s (fun s e => s.fenceStep ctx q e)

/-! ## Graphs (R330) -/

/-- Words in nodes of four. -/
def nodesOf (ws : List DWord) : List (List DWord) := (List.range (ws.length / 4)).map (fun i => (ws.drop (4 * i)).take 4)

/-- A GRAPH entry reads all its nodes when it starts. -/
def State.graphStart (s : State) (ctx q : Nat) (e : Entry) : State :=
  if e.graph.isSome then s
  else if (e.word 1).toNat % 32 ≠ 0 then s.finish ctx q 2
  else
    match s.hubWords (s.queueClass ctx q) ctx (e.word 1).toNat (4 * (bitsN (e.word 2) 27 16 + 1)) with
    | (s, none) => s.finish ctx q 2
    | (s, some ws) =>
      let g : Graph := { nodes := nodesOf ws, pos := bitsN (e.word 2) 11 0, steps := 1, user := e.word 3 }
      let s := s.modEntry ctx q (fun e => { e with graph := some g })
      if g.ok then s else s.finish ctx q 9

def execGraph (ctx q : Nat) (s : State) : Out := queueForm (.graph ctx q) ctx q 5 s (fun s e => s.graphStart ctx q e)

/-- A node that reads its word and branches; then, from the word, the node to go to and a new count. -/
def State.condStep (s : State) (ctx q : Nat) (g : Graph) : State :=
  let w := g.node
  match s.readNamed ctx q (ws w) with
  | (s, none) => s.finish ctx q 2
  | (s, some x) =>
    let m := nodeSem w
    s.graphGo ctx q (if semHolds m.code x m.value m.mask then nodeNext w else nodeAlt w)
where
  ws (w : List DWord) : Nat := (w.getD 1 0).toNat

def execCondNode (ctx q : Nat) (s : State) : Out :=
  queueForm (.condNode ctx q) ctx q 5 s (fun s e => s.atNode? ctx q e 2 (fun s g => s.condStep ctx q g))

def State.loopStep (s : State) (ctx q : Nat) (g : Graph) : State :=
  let w := g.node
  let m := nodeSem w
  match s.readNamed ctx q m.va with
  | (s, none) => s.finish ctx q 2
  | (s, some x) =>
    let n := g.counts.get g.pos
    let again := decide (n.toNat < nodeMax w) && semHolds m.code x m.value m.mask
    let s := s.modEntry ctx q (fun e => { e with graph := e.graph.map (fun g => { g with counts := g.counts.set g.pos (if again then n + 1 else 0) }) })
    s.graphGo ctx q (if again then nodeAlt w else nodeNext w)

def execLoopNode (ctx q : Nat) (s : State) : Out :=
  queueForm (.loopNode ctx q) ctx q 5 s (fun s e => s.atNode? ctx q e 3 (fun s g => s.loopStep ctx q g))

def execEndNode (ctx q : Nat) (s : State) : Out :=
  queueForm (.endNode ctx q) ctx q 5 s (fun s e => s.atNode? ctx q e 0 (fun s _ => s.finish ctx q 0))

/-! ## COPY (R332) -/

/-- Translates an address for a queue, with a migrate fault repaired and no data moved. -/
def State.queueProbe (s : State) (ctx : Nat) (want : Want) : List Nat → State × Bool
  | [] => (s, true)
  | va :: r =>
    if 2 ^ 64 ≤ va then (s, false)
    else
      match s.hub? ctx va want with
      | (s, .ok _) => State.queueProbe s ctx want r
      | (s, .error _) => (s, false)

/-- Bytes of a part of a copy, with the poison of each unit of 8; fuel bounds the parts, each within a block of 256 (R81). -/
def State.copyRead (s : State) (ctx q : Nat) : Nat → Nat → Nat → State × List (Nat × Bool)
  | 0, _, _ => (s, [])
  | fuel + 1, va, n =>
    if n = 0 then (s, [])
    else
      match s.hub? ctx va .read with
      | (s, .error _) => (s, [])
      | (s, .ok h) =>
        let k := min n (256 - va % 256)
        let x := s.hubLoad (s.queueClass ctx q) h.pa k
        let r := State.copyRead x.1 ctx q fuel (va + k) (n - k)
        (r.1, (List.range (k / 8)).map (fun i => (ofBytes ((x.2.drop (8 * i)).take 8), poisoned s.mem.poison (h.pa + 8 * i) 8)) ++ r.2)

/-- Marks units of 8 bytes whose source the memory could not correct (R358). -/
def State.copyPoison (s : State) (pa : Nat) (ys : List (Nat × Bool)) : State :=
  s.modMem (fun m => { m with poison := (ys.zipIdx).foldl (fun (p : Cells 1) (y : (Nat × Bool) × Nat) =>
    if y.1.2 then p.set ((pa + 8 * y.2) / 32) 1 else p) m.poison })

/-- Writes one unit near: its count, its stamps cleared. -/
def State.copyUnit (s : State) (ctx pa : Nat) (x : Nat × Bool) : State :=
  (s.modMem (·.store pa (bytesOf 8 x.1))).clearStamps ctx false pa 8

/-- Writes units one after another; one masked write of the drawer carries those of a half block (R81). -/
def State.copyWrite (s : State) (ctx q va : Nat) : Nat → List (Nat × Bool) → State
  | 0, _ => s
  | fuel + 1, xs =>
    if xs.isEmpty then s
    else
      match s.hub? ctx va .write with
      | (s, .error _) => s
      | (s, .ok h) =>
        let n := (128 - va % 128) / 8
        let ys := xs.take n
        let s :=
          if isDrawer h.pa then (s.asks (hubWriteReqs (s.queueClass ctx q) h.pa ((ys.map (fun y => bytesOf 8 y.1)).flatten))).1
          else (ys.zipIdx).foldl (fun s (y : (Nat × Bool) × Nat) => s.copyUnit ctx (h.pa + 8 * y.2) y.1) s
        State.copyWrite (s.copyPoison h.pa ys) ctx q (va + 8 * n) fuel (xs.drop n)

/-- Checks both ranges, then copies as if the source were read whole first. -/
def State.copyStep (s : State) (ctx q : Nat) (e : Entry) : State :=
  let src := (e.word 1).toNat
  let dst := (e.word 2).toNat
  let n := (e.word 3).toNat
  if src % 8 ≠ 0 ∨ dst % 8 ≠ 0 then s.finish ctx q 2
  else
    match s.queueProbe ctx .read (pagesOf src n) with
    | (s, false) => s.finish ctx q 2
    | (s, true) =>
      match s.queueProbe ctx .write (pagesOf dst n) with
      | (s, false) => s.finish ctx q 2
      | (s, true) =>
        let r := s.copyRead ctx q (n / 256 + 2) src (n / 8 * 8)
        (r.1.copyWrite ctx q dst (n / 128 + 2) r.2).finish ctx q 0

def execCopy (ctx q : Nat) (s : State) : Out := queueForm (.copy ctx q) ctx q 9 s (fun s e => s.copyStep ctx q e)

/-! ## REAPQ (R331) -/

/-- The checks and start of a queue's reap; its faults are statuses. -/
def State.reapqStart (s : State) (ctx q : Nat) (e : Entry) : State :=
  let va := (e.word 1).toNat
  if va % 64 ≠ 0 then s.finish ctx q 2
  else
    match s.queueRead ctx q va 64 with
    | (s, none) => s.finish ctx q 2
    | (s, some v) =>
      let ws := lineWords v
      let r := { reapOf ws with ctx := ctx, cls := s.queueClass ctx q }
      if !reapReserved ws then s.finish ctx q 0x0B
      else
        match s.sysOf ctx r.sys with
        | none => s.finish ctx q 7
        | some y =>
          if !reapShape y r then s.finish ctx q 0x0B
          else if r.dst % 8 ≠ 0 ∨ r.rpt % 64 ≠ 0 then s.finish ctx q 2
          else
            match s.queueProbe ctx .write (pagesOf r.dst (reapSpan y r) ++ pagesOf r.rpt 576) with
            | (s, false) => s.finish ctx q 2
            | (s, true) =>
              let x := s.startReap r
              x.1.modEntry ctx q (fun e => { e with reap := some x.2 })

/-- One step of a queue's reap: its start, a part of a plot, or its end. -/
def State.reapqStep (s : State) (ctx q : Nat) (e : Entry) : State :=
  match e.reap with
  | none => s.reapqStart ctx q e
  | some id =>
    match s.reaps.find id with
    | none => s.finish ctx q 7
    | some r =>
      if r.pos < r.count then s.reapCopy id else (s.endReap id r).finish ctx q 0

def execReapq (ctx q : Nat) (s : State) : Out := queueForm (.reapq ctx q) ctx q 8 s (fun s e => s.reapqStep ctx q e)

end Sys2Proof.Machine
end

