-- ==== Sys2Proof/Machine/Launches.lean ====
section
/-! DEFINITION. Launches: job cards (R322), task types of a context (R323), prologues and their forms (R222-R224, R328),
repeats and completion (R327), kernel nodes (R330), and the attaching and detaching of standing systems (R283, R297,
R331). -/

namespace Sys2Proof.Machine

/-! ## Task types of a context -/

/-- The task-type index is assigned (R323). -/
def ttypeIndexOk (c : Ctx) (t : Nat) : Bool := decide (t < bitsN c.cfg 47 32) && t != 0xFFFF

/-- Reads a task-type entry. -/
def State.readTType (s : State) (ctx q t : Nat) : State × Option (List DWord) :=
  match s.queueRead ctx q (bitsN (s.ctx ctx).ttab 63 6 * 64 + 64 * t) 64 with
  | (s, some x) => (s, some (lineWords x))
  | (s, none) => (s, none)

/-! ## Job cards (R322) -/

namespace Card

def word (c : List DWord) (i : Nat) : DWord := c.getD i 0
def ttype (c : List DWord) : Nat := bitsN (word c 0) 63 48
def rsize (c : List DWord) : Nat := bitsN (word c 0) 47 32
def chmin (c : List DWord) : Nat := bitsN (word c 0) 31 16
def args (c : List DWord) : VAddr := BitVec.ofNat 72 (bitsN (word c 2) 7 0 * 2 ^ 64 + (word c 1).toNat)
def count (c : List DWord) : Nat := bitsN (word c 2) 63 32
def lrec (c : List DWord) : Nat := (word c 3).toNat
def prologue (c : List DWord) : Nat := (word c 4).toNat

def ok (c : List DWord) : Bool :=
  bitsN (word c 0) 15 0 == 0 && bitsN (word c 2) 31 8 == 0 && word c 5 == 0 && word c 6 == 0 && word c 7 == 0
    && rsize c % 8 == 0 && decide (8 ≤ rsize c) && decide (1 ≤ chmin c) && bitsN (word c 1) 2 0 == 0

end Card

/-- Warps of a team of a task type. -/
def teamWarps (t : List DWord) : Nat := (TType.warpList t).length

/-- The launch record a card names, if it is good: status 2 or 5 else. -/
def State.readRecord (s : State) (ctx q : Nat) (card ttype : List DWord) : State × Except Nat (List DWord) :=
  if Card.lrec card = 0 then (s, .ok [])
  else if Card.lrec card % 64 ≠ 0 then (s, .error 2)
  else
    match s.queueRead ctx q (Card.lrec card) 64 with
    | (s, none) => (s, .error 2)
    | (s, some x) => if recordOk (teamWarps ttype) (lineWords x) then (s, .ok (lineWords x)) else (s, .error 5)

/-- A launch from a job card at an address, checked (R322, R323, R194, R198). -/
def State.readLaunch (s : State) (ctx q va : Nat) (user : DWord) : State × Except Nat Launch :=
  if va % 64 ≠ 0 then (s, .error 2)
  else
    match s.queueRead ctx q va 64 with
    | (s, none) => (s, .error 2)
    | (s, some x) =>
      let card := lineWords x
      if !Card.ok card then (s, .error 3)
      else if Card.prologue card % 4 ≠ 0 then (s, .error 2)
      else if !ttypeIndexOk (s.ctx ctx) (Card.ttype card) then (s, .error 4)
      else
        match s.readTType ctx q (Card.ttype card) with
        | (s, none) => (s, .error 2)
        | (s, some t) =>
          let st := ttypeStatus (s.ctx ctx) t (some (Card.rsize card))
          if st ≠ 0 then (s, .error st)
          else
            match s.readRecord ctx q card t with
            | (s, .error k) => (s, .error k)
            | (s, .ok r) =>
              ({ s with names := s.names + 1 }, .ok {
                place := va, card := card, ttype := t, lrec := r, count := Card.count card, args := Card.args card
                chmin := Card.chmin card, user := user, prologue := if Card.prologue card = 0 then 3 else 1, ready := s.names })

/-- Begins a launch for an entry; a refusal is its status. -/
def State.beginLaunch (s : State) (ctx q va : Nat) (user : DWord) : State :=
  match s.readLaunch ctx q va user with
  | (s, .error k) => s.finish ctx q (BitVec.ofNat 8 k)
  | (s, .ok l) => s.modEntry ctx q (fun e => { e with launch := some l })

def execLaunch (ctx q : Nat) (s : State) : Out :=
  queueForm (.launch ctx q) ctx q 1 s (fun s e => if e.launch.isSome then s else s.beginLaunch ctx q (e.word 1).toNat (e.word 2))

def execKernelNode (ctx q : Nat) (s : State) : Out :=
  queueForm (.kernelNode ctx q) ctx q 5 s (fun s e => s.atNode? ctx q e 1 (fun s g =>
    if e.launch.isSome then s else s.beginLaunch ctx q (g.node.getD 1 0).toNat g.user))

/-! ## Prologues (R328) -/

def State.launchOf (s : State) (ctx q : Nat) : Option Launch := (s.entryOf ctx q).bind (·.launch)

/-- Launches that wait for the unit, with the moment each became ready. -/
def State.puQueue (s : State) : List (Nat × Nat × Nat) :=
  (s.ctxs.map (fun c => c.2.queues.filterMap (fun q =>
    match q.2.entry with
    | some e => if e.status.isNone then (match e.launch with | some l => if l.prologue = 1 then some (l.ready, c.1, q.1) else none | none => none) else none
    | none => none))).flatten

/-- Registers at the start of a run. -/
def puWarp (ctx : Nat) (l : Launch) : Warp :=
  let p : Path := { pc := BitVec.ofNat 72 (Card.prologue l.card), mask := fullMask }
  { ctx := ctx, priv := TType.priv l.ttype
    s := (Cells.set [] 0 (BitVec.ofNat 64 l.count)).set 3 l.user
    a := (Cells.set [] 0 (BitVec.ofNat 72 l.place)).set 1 l.args
    slot0 := some p }

/-- The unit takes the launch that became ready first. -/
def State.prologueStart (s : State) (ctx q : Nat) : State :=
  match s.launchOf ctx q with
  | none => s
  | some l =>
    if s.pu.isSome || l.prologue ≠ 1 || s.puQueue.any (fun x => decide (x.1 < l.ready)) then s
    else
      let s := s.modEntry ctx q (fun e => { e with launch := e.launch.map (fun l => { l with prologue := 2, runs := l.runs + 1, again := false, cancelled := false }) })
      { s with pu := some { ctx := ctx, q := q }, warps := s.warps.put puWid (puWarp ctx l) }

def execPrologueRun (ctx q : Nat) (s : State) : Out := eventForm (.prologueRun ctx q) s (fun s => s.prologueStart ctx q)

/-! ### Prologue forms (R222-R224) -/

/-- The pending launch of the unit's run, with what PSET has set so far. -/
def State.puLaunch (s : State) : Option Launch :=
  s.pu.bind (fun r => ((s.queue r.ctx r.q).entry.bind (·.launch)).map (fun l => l.applyPset r.pset))

/-- A parameter takes a value (R223). -/
def psetOk (l : Launch) (n : Nat) (v : DWord) : Bool :=
  match n with
  | 0 => decide (v.toNat < 2 ^ 32)
  | 1 => v.toNat % 8 == 0
  | 2 => decide (1 ≤ v.toNat ∧ v.toNat ≤ 65535)
  | _ =>
    decide (0x10 ≤ n ∧ n ≤ 0x17) && !l.lrec.isEmpty && bitB (l.lrec.getD (n - 0x10) 0) 63 && decide (1 ≤ v.toNat ∧ v.toNat ≤ 2 ^ 32)
      && limitsOk (teamWarps l.ttype) (levelsOf (l.lrec.modify (n - 0x10) (fun w => putBits w 31 0 (v.toNat - 1))))

def execPset (a : BitVec 6) (n : BitVec 12) (s : State) : Out :=
  scalarForm (.pset a n) s (fun s =>
    match s.puLaunch with
    | none => s.puFault 4
    | some l =>
      if psetOk l n.toNat (s.sReg a) then
        let put (r : PuRun) : PuRun := { r with pset := r.pset.put n.toNat (s.sReg a) }
        ({ s with pu := s.pu.map put }).advance
      else s.puFault 4)

def execPcancel (s : State) : Out := scalarForm .pcancel s (fun s => s.puEnd false true)

/-- PREPEAT at a counter of 255 acts as EXIT (R224). -/
def execPrepeat (s : State) : Out :=
  scalarForm .prepeat s (fun s => s.puEnd (match s.puLaunch with | some l => decide (l.repeats < 255) | none => false) false)

/-! ## Completion (R224, R325, R327) -/

/-- A record launch's COUNT is not its team count (R325). DEDUCED (log 74): this is tested before a COUNT of 0 ends a launch
(R223, R327). -/
def Launch.misfit (l : Launch) : Bool := !l.lrec.isEmpty && decide (l.count ≠ teamCount (levelsOf l.lrec))

/-- Every team of the launch has been dealt and has ended. -/
def Launch.over (l : Launch) : Bool := l.prologue == 3 && l.live == 0 && (l.cancelled || decide (l.count ≤ l.dealt))

/-- The launch of the entry in progress completes, repeats, or is refused. -/
def State.launchDone (s : State) (ctx q : Nat) : State :=
  match s.entryOf ctx q with
  | none => s
  | some e =>
    match e.launch with
    | none => s
    | some l =>
      if l.prologue = 3 && !l.cancelled && l.misfit then s.finish ctx q 5
      else if !l.over then s
      else if l.again && !l.cancelled then
        let l' : Launch := { l with
          dealt := 0, chunk := 0, anyDie := false, home := none, repeats := l.repeats + 1, prologue := 1, ready := s.names, again := false }
        ({ s with names := s.names + 1 }).modEntry ctx q (fun e => { e with launch := some l' })
      else
        match e.graph with
        | some g => s.graphGo ctx q (nodeNext g.node)
        | none => s.finish ctx q 0

def execLaunchComplete (ctx q : Nat) (s : State) : Out := eventForm (.launchComplete ctx q) s (fun s => s.launchDone ctx q)

/-! ## ATTACH (R279, R283) -/

/-- Words of a record read through the hub, 64 bytes at a time. -/
def State.readLines (s : State) (ctx q va : Nat) : Nat → State × Option (List DWord)
  | 0 => (s, some [])
  | n + 1 =>
    match s.queueRead ctx q va 64 with
    | (s, none) => (s, none)
    | (s, some x) =>
      match State.readLines s ctx q (va + 64) n with
      | (s, some ws) => (s, some (lineWords x ++ ws))
      | (s, none) => (s, none)

/-- Watch slots read from the table; none where a read fails or a valid slot is bad. -/
def State.readWatch (s : State) (ctx q wtab nplot : Nat) : List Nat → State × Option (Tab (Nat × Nat × Nat))
  | [] => (s, some [])
  | i :: r =>
    match s.queueRead ctx q (wtab + 16 * i) 16 with
    | (s, none) => (s, none)
    | (s, some x) =>
      let w0 : DWord := BitVec.ofNat 64 x
      let w1 : DWord := BitVec.ofNat 64 (x >>> 64)
      let first := bitsN w1 19 0
      let cnt := bitsN w1 39 20 + 1
      if bitsN w0 62 20 ≠ 0 || bitsN w1 63 40 ≠ 0 || (bitB w0 63 && decide (nplot < first + cnt)) then (s, none)
      else
        match State.readWatch s ctx q wtab nplot r with
        | (s, none) => (s, none)
        | (s, some t) => (s, some (if bitB w0 63 then (i, bitsN w0 19 0, first, cnt) :: t else t))

/-- The plot a record describes, its task type still unread: plot and task-type index (R282). -/
def plotOf (i rec_ : Nat) (dflt : Nat) (ws : List DWord) : Option (Plot × Nat) :=
  let w (k : Nat) : DWord := ws.getD k 0
  let len := bitsN (w 3) 31 0
  let tt := bitsN (w 0) 31 16
  if bitsN (w 0) 63 44 ≠ i || bitsN (w 0) 40 32 ≠ 0 || bitsN (w 3) 63 32 ≠ 0 || bitsN (w 5) 63 32 ≠ 0 || w 7 ≠ 0
      || (w 2).toNat % 8 ≠ 0 || len % 8 ≠ 0 || decide (2 ^ 24 < len) then none
  else some ({ home := bitsN (w 0) 43 41, key := BitVec.ofNat 16 (bitsN (w 0) 15 0), record := rec_, ireg := (w 2).toNat, ilen := len },
    if tt = 0xFFFF then dflt else tt)

/-- A plot's task type read and checked (R283, R323). -/
def State.plotType (s : State) (ctx q keep t : Nat) : State × Option (List DWord) :=
  if !ttypeIndexOk (s.ctx ctx) t then (s, none)
  else
    match s.readTType ctx q t with
    | (s, none) => (s, none)
    | (s, some w) => if ttypeStatus (s.ctx ctx) w none = 0 && decide (keep * 256 ≤ TType.canvas w) then (s, some w) else (s, none)

/-- Plot records read in index order. -/
def State.readPlots (s : State) (ctx q ptab dflt keep : Nat) : List Nat → State × Option (Tab Plot)
  | [] => (s, some [])
  | i :: r =>
    match s.queueRead ctx q (ptab + 64 * i) 64 with
    | (s, none) => (s, none)
    | (s, some x) =>
      match plotOf i (ptab + 64 * i) dflt (lineWords x) with
      | none => (s, none)
      | some (p, t) =>
        match s.plotType ctx q keep t with
        | (s, none) => (s, none)
        | (s, some w) =>
          match s.queueProbe ctx .read (pagesOf p.ireg p.ilen) with
          | (s, false) => (s, none)
          | (s, true) =>
            match State.readPlots s ctx q ptab dflt keep r with
            | (s, some ps) => (s, some ((i, { p with ttype := w }) :: ps))
            | (s, none) => (s, none)

/-- Reserved bits and alignment of an SSCB (R279). -/
def sscbOk (ws : List DWord) : Bool :=
  let w (k : Nat) : DWord := ws.getD k 0
  bitsN (w 0) 43 35 == 0 && bitsN (w 2) 63 48 == 0 && bitsN (w 2) 23 8 == 0 && decide (bitsN (w 2) 7 0 ≤ 64)
    && (List.range 22).all (fun i => w (10 + i) == 0) && (w 1).toNat % 64 == 0 && (w 3).toNat % 16 == 0 && (w 4).toNat % 64 == 0
    && (w 5).toNat % 8 == 0

/-- The system an SSCB describes, with its watch table and plots; none where R283 refuses it. -/
def State.readSystem (s : State) (ctx q va : Nat) (ws : List DWord) : State × Option Sys :=
  let w (k : Nat) : DWord := ws.getD k 0
  let nplot := bitsN (w 0) 63 44 + 1
  let nwatch := bitsN (w 2) 7 0
  let keep := bitsN (w 2) 31 24
  if !sscbOk ws then (s, none)
  else
    match s.queueProbe ctx .write (pagesOf (w 4).toNat 576 ++ [(w 5).toNat, va]) with
    | (s, false) => (s, none)
    | (s, true) =>
      match s.readWatch ctx q (w 3).toNat nplot (List.range nwatch) with
      | (s, none) => (s, none)
      | (s, some t) =>
        match s.readPlots ctx q (w 1).toNat (bitsN (w 2) 47 32) keep (List.range nplot) with
        | (s, none) => (s, none)
        | (s, some ps) =>
          (s, some {
            ctx := ctx, queue := q, sscb := va, lead := bitsN (w 0) 34 32, eps := BitVec.ofNat 16 (bitsN (w 0) 31 16)
            starve := if bitsN (w 0) 15 0 = 0 then 64 else bitsN (w 0) 15 0, keep := keep, report := (w 4).toNat, sem := (w 5).toNat
            nwatch := nwatch, seq := w 7, ndisp := w 8, nwev := w 9, watch := t, plots := ps })

/-- The limits of R278, with the system counted in. -/
def State.withinLimits (s : State) : Bool :=
  (List.range 8).all (fun d => decide (s.diePlots d ≤ 131072) && s.reserveFits d)

/-- The system goes live: plots above the threshold become PENDING in index order, and the status word is written. -/
def State.goLive (s : State) (n : Nat) : State :=
  match s.systems.find n with
  | none => s
  | some y =>
    let s := y.plots.foldl (fun s p => if y.above p.2.key then s.becomePending n p.1 else s) s
    (s.noteQuiet n 0).setStatus n (fun v => putBit v 63 true)

def State.attach (s : State) (ctx q : Nat) (e : Entry) : State :=
  let va := (e.word 1).toNat
  let n := (e.word 2).toNat
  if !s.ownsSys ctx n || s.sysLive n then s.finish ctx q 7
  else if va % 64 ≠ 0 then s.finish ctx q 2
  else
    match s.readLines ctx q va 4 with
    | (s, none) => s.finish ctx q 2
    | (s, some ws) =>
      match s.readSystem ctx q va ws with
      | (s, none) => s.finish ctx q 8
      | (s, some y) =>
        let s' := { s with systems := s.systems.put n y }
        if s'.withinLimits then (s'.goLive n).finish ctx q 0 else s.finish ctx q 8

def execAttach (ctx q : Nat) (s : State) : Out := queueForm (.attach ctx q) ctx q 6 s (fun s e => s.attach ctx q e)

/-! ## DETACH (R297) -/

/-- Writes the keys of plots back into their records; the first failure ends it. -/
def State.writeKeys (s : State) (n : Nat) (ps : Tab Plot) : State :=
  ps.foldl (fun s p =>
    match s.systems.find n with
    | none => s
    | some y =>
      match s.hubRead (s.queueClass y.ctx y.queue) y.ctx p.2.record 8 with
      | (s, some x) => s.rdWrite n p.2.record (putBits (BitVec.ofNat 64 x) 15 0 p.2.key.toNat).toNat
      | (s, none) => s.contextFault y.ctx 0x0A 0) s

/-- No task of the system is in service, no plot is on its way and no reap copies. -/
def State.sysIdle (s : State) (n : Nat) (y : Sys) : Bool :=
  y.plots.all (fun p => p.2.st == .idle || p.2.st == .pending)
    && s.reaps.all (fun r => r.2.sys != n || !s.reapLive r.1 r.2)

def State.detach (s : State) (ctx q : Nat) (e : Entry) : State :=
  let n := (e.word 2).toNat
  match s.sysOf ctx n with
  | none => s.finish ctx q 7
  | some y =>
    if !s.sysIdle n y then s.modSys n (fun y => { y with leaving := true })
    else
      let s := (s.writeKeys n y.plots).setStatus n (fun v => putBit v 63 false)
      ({ s with
        systems := s.systems.erase n
        raises := s.raises.filter (fun r => r.sys ≠ n)
        watchEvents := s.watchEvents.filter (fun w => w.1 ≠ n) }).finish ctx q 0

def execDetach (ctx q : Nat) (s : State) : Out := queueForm (.detach ctx q) ctx q 7 s (fun s e => s.detach ctx q e)

end Sys2Proof.Machine
end

