-- ==== Sys2Proof/Machine/Dealer.lean ====
section
/-! DEFINITION. The dealer of a die: candidates (R318), chunks and their homes (R324), groups of launch records (R198,
R325), plot tasks (R286, R288), the lottery and its rotations (R319, R320). -/

namespace Sys2Proof.Machine

/-! ## Chunks (R324, R326) -/

/-- Physical address that a read of a context address through the hub would go to, with no effect on any table; none
where it would fault, a page that must first be moved near among them. -/
def State.peekPa (s : State) (ctx va : Nat) : Option Nat :=
  match peekLeaf s ctx va with
  | .leaf lvl e _ => if (leafFault .read true e).isSome then none else some (leafHit (decide (lvl = 3)) e va).pa
  | _ => none

/-- Home die of a physical address: that of a near page, or of a drawer page's link (R75, R324). -/
def homeOf (pa : Nat) : Option Nat := if isNear pa then some (homeDie pa) else if isDrawer pa then some (linkOf pa % 8) else none

/-- Home die of a launch's next chunk: the word at HOMEOFF of its first record is read, and its address translated, through the
hub's unit (R21, R324). -/
def State.chunkHome (s : State) (ctx q : Nat) (l : Launch) : State × Option Nat :=
  if !TType.hasHome l.ttype then (s, none)
  else
    match s.hubRead (s.queueClass ctx q) ctx (l.args.toNat + Card.rsize l.card * l.dealt + TType.homeOff l.ttype) 8 with
    | (s, none) => (s, none)
    | (s, some va) =>
      match s.hub? ctx va .read with
      | (s, .ok h) => (s, homeOf h.pa)
      | (s, .error _) => (s, none)

/-- Finds the home die of the chunk a queue's launch is to deal next, if that has not been done. -/
def State.findHome (s : State) (ctx q : Nat) : State :=
  match s.launchOf ctx q with
  | none => s
  | some l =>
    if l.prologue ≠ 3 || !l.lrec.isEmpty || l.count ≤ l.dealt || l.home.isSome then s
    else
      let r := s.chunkHome ctx q l
      r.1.modEntry ctx q (fun e => { e with launch := e.launch.map (fun l => { l with home := some r.2 }) })

/-- Cores of the module that have room for a team of a type. -/
def State.freeCores (s : State) (ctx : Nat) (t : List DWord) : Nat :=
  (((List.range 8).map dieCores).flatten.filter (s.fitsCore ctx t)).length

/-- Records of the next chunk: n not yet dealt, f free cores. -/
def chunkSize (n chmin f : Nat) : Nat := min n (max chmin (n / (2 * f)))

/-- Registers of a launched team of count records from a first one (R326). -/
def launchSpec (ctx q cls : Nat) (l : Launch) (first count : Nat) (teamid : DWord) (gone : Mask) : TeamSpec :=
  { ctx := ctx, ttype := l.ttype, owner := .launch ctx q, cls := cls, teamid := teamid, gone := gone
    a := (Cells.set [] 0 (BitVec.ofNat 72 (l.args.toNat + Card.rsize l.card * first))).set 1 l.args
    s := (((Cells.set [] 0 (BitVec.ofNat 64 count)).set 1 (BitVec.ofNat 64 first)).set 2 (BitVec.ofNat 64 l.repeats)).set 3 l.user }

/-- The launch has dealt n more records in k more teams. -/
def State.dealtMore (s : State) (ctx q n k : Nat) : State :=
  s.modEntry ctx q (fun e => { e with launch := e.launch.map (fun l =>
    { l with dealt := l.dealt + n, chunk := l.chunk + k, live := l.live + k, anyDie := false, home := none }) })

/-- A chunk may go to the die (R324). -/
def Launch.chunkOffers (l : Launch) (die : Nat) : Bool :=
  match l.home with
  | none => false
  | some none => true
  | some (some h) => h == die || (!TType.strict l.ttype && l.anyDie)

def State.dealChunk (s : State) (ctx q : Nat) (l : Launch) (die : Nat) : Option State :=
  if !l.chunkOffers die then none
  else
    match s.bestCore ctx l.ttype (dieCores die) with
    | none => none
    | some core =>
      let n := chunkSize (l.count - l.dealt) l.chmin (s.freeCores ctx l.ttype)
      let x := launchSpec ctx q (s.queueClass ctx q) l l.dealt n (BitVec.ofNat 64 l.chunk) 0
      (s.startTeam x core (fun i => impliedLvl l.chunk i)).map (fun r => r.2.dealtMore ctx q n 1)

/-! ## Groups of a launch record (R198, R325) -/

/-- Product of the extents of the levels of team domain and above, up to and including a level. -/
def groupSize (ls : List Level) (k : Nat) : Nat :=
  (((ls.take (k + 1)).filter (fun l => 2 ≤ l.domain))).foldl (fun n l => n * l.extent) 1

/-- Sizes of the groups that one die must hold. -/
def dieGroups (ls : List Level) : List Nat :=
  ((ls.zipIdx).filter (fun l => (l.1.domain == 2 || l.1.domain == 3) && l.1.scope == 2)).map (fun l => groupSize ls l.2)

/-- Two teams of a group must be, and must not be, on one core or die. -/
structure Apart where
  sameCore : Bool
  otherCore : Bool
  sameDie : Bool
  otherDie : Bool
  deriving DecidableEq, Repr

def apart (ls : List Level) (t u : Nat) : Apart :=
  let d2 := domainSize ls 2
  let d3 := d2 * domainSize ls 3
  let hasCore := ls.any (fun l => l.domain == 3)
  let hasDie := ls.any (fun l => l.domain == 4)
  { sameCore := hasCore && t / d2 == u / d2
    otherCore := hasCore && t / d2 != u / d2
    sameDie := (hasDie && t / d3 == u / d3) || (dieGroups ls).any (fun n => t / n == u / n)
    otherDie := hasDie && t / d3 != u / d3 }

/-- A core a team may take beside those placed. -/
def coreAllowed (ls : List Level) (t core : Nat) (placed : List (Nat × Nat)) : Bool :=
  placed.all (fun p =>
    let a := apart ls t p.1
    (!a.sameCore || core == p.2) && (!a.otherCore || core != p.2)
      && (!a.sameDie || core / 200 == p.2 / 200) && (!a.otherDie || core / 200 != p.2 / 200))

/-- Lanes at or above the product of the lane levels. -/
def goneLanes (ls : List Level) : Mask := maskOf ((List.range 128).filter (fun l => domainSize ls 0 ≤ l))

/-- n more teams like this one fit on the core. -/
def State.roomFor (s : State) (x : TeamSpec) (core : Nat) : Nat → Bool
  | 0 => true
  | n + 1 =>
    s.fitsCore x.ctx x.ttype core &&
      (match s.startTeam x core (fun _ => []) with
       | some r => State.roomFor r.2 x core n
       | none => false)

/-- Places teams in turn, the first on a given die if it can be and every later one on the first die that leaves
room for the rest; none where they do not all fit at once. -/
def State.placeTeams (s : State) (ctx q : Nat) (l : Launch) (ls : List Level) (die : Nat) (placed : List (Nat × Nat)) :
    List Nat → Option State
  | [] => some s
  | t :: r =>
    let x := launchSpec ctx q (s.queueClass ctx q) l t 1 (BitVec.ofNat 64 t) (goneLanes ls)
    let dies := if placed.isEmpty then [die] else die :: (List.range 8).filter (· != die)
    let fresh := !placed.any (fun p => (apart ls t p.1).sameCore)
    let need := if ls.any (fun l => l.domain == 3) && fresh then domainSize ls 2 else 1
    dies.findSome? (fun d =>
      if !s.underCap ctx d then none
      else
        match s.bestCore ctx l.ttype ((dieCores d).filter (fun c => coreAllowed ls t c placed && s.roomFor x c need)) with
        | none => none
        | some core =>
          match s.startTeam x core (recordLvl ls t) with
          | none => none
          | some p => State.placeTeams p.2 ctx q l ls die ((t, core) :: placed) r)

/-- The next group of a launch record, all its teams at once. -/
def State.dealGroup (s : State) (ctx q : Nat) (l : Launch) (die : Nat) : Option State :=
  let ls := levelsOf l.lrec
  let b := domainSize ls 2 * domainSize ls 3 * domainSize ls 4
  (s.placeTeams ctx q l ls die [] ((List.range b).map (fun i => l.dealt + i))).map (fun s => s.dealtMore ctx q b b)

/-- The launch candidate of a queue, with what dealing it comes to. -/
def State.dealLaunch (s : State) (ctx q die : Nat) : Option State :=
  match s.launchOf ctx q with
  | none => none
  | some l =>
    if l.prologue ≠ 3 || l.cancelled || l.misfit || decide (l.count ≤ l.dealt) then none
    else if l.lrec.isEmpty then s.dealChunk ctx q l die
    else s.dealGroup ctx q l die

/-! ## Plot tasks (R286, R288, R289) -/

/-- The kept canvas of a plot goes into its team's canvas before any warp starts. -/
def State.fetchKept (s : State) (n i team : Nat) : State :=
  let y := (s.systems.find n).getD {}
  let t := s.teams.getD team {}
  let bs : List (Nat × Byte) := y.reserve.slice (i * 65536) (256 * y.keep)
  s.modMem (fun m => { m with canvas := bs.foldl (fun c b => c.set (canvasKey t (b.1 - i * 65536)) b.2) m.canvas })

def plotSpec (n i : Nat) (y : Sys) (p : Plot) (cls : Nat) (teamid : DWord) : TeamSpec :=
  { ctx := y.ctx, ttype := p.ttype, owner := .plot n i, cls := cls, teamid := teamid
    a := (Cells.set [] 0 (BitVec.ofNat 72 p.record)).set 1 (BitVec.ofNat 72 y.sscb)
    s := ((Cells.set [] 0 (BitVec.ofNat 64 i)).set 1 (p.key.setWidth 64)).set 2 (BitVec.ofNat 64 n) }

def State.dealPlot (s : State) (n die : Nat) : Option State :=
  match s.systems.find n with
  | none => none
  | some y =>
    match y.decide die with
    | none => none
    | some i =>
      let p := y.plots.getD i {}
      match s.bestCore y.ctx p.ttype (dieCores die) with
      | none => none
      | some core =>
        let (d, s) := s.draw
        match s.startTeam (plotSpec n i y p (s.queueClass y.ctx y.queue) (Config.freeDWord d)) core (fun w => impliedLvl i w) with
        | none => none
        | some (team, s) =>
          let s := (s.fetchKept n i team).takePlot n i
          let wid := ((s.teams.getD team {}).warps.head?).getD 0
          some (s.trace wid 0 0 ((s.pathAt wid 0).getD {}) 7 (BitVec.ofNat 64 (n % 64 * 2 ^ 58 + i % 2 ^ 20)))

/-! ## The draw (R319, R320) -/

/-- Candidates of a queue for a die, by number: 0 the launch, n + 1 system n. -/
def State.candidates (s : State) (ctx q die : Nat) : List (Nat × State) :=
  let ys := (s.systems.filter (fun y => y.2.ctx = ctx && y.2.queue = q)).map (·.1)
  (match s.dealLaunch ctx q die with | some s' => [(0, s')] | none => [])
    ++ ys.filterMap (fun n => (s.dealPlot n die).map (fun s' => (n + 1, s')))

/-- The candidate after the one served last. -/
def nextCandidate (last : Nat) (cs : List (Nat × State)) : Option (Nat × State) :=
  match cs.find? (fun c => last < c.1) with
  | some c => some c
  | none => cs.head?

/-- A die may be offered teams of a context. -/
def State.mayOffer (s : State) (ctx die : Nat) : Bool :=
  s.blocksLive && bitB (s.ctx ctx).cfg 62 && (s.ctx ctx).st == .running && s.underCap ctx die

/-- Home dies are found of the chunks that contexts may offer to a die. -/
def State.findHomes (s : State) (die : Nat) : State :=
  ((s.ctxs.map (·.1)).filter (fun c => s.mayOffer c die)).foldl (fun s c => (queueKeys s c).foldl (fun s q => s.findHome c q) s) s

/-- Queues of a context that offer a die a candidate, with the one each would serve. -/
def State.offers (s : State) (ctx die : Nat) : List (Nat × Nat × State) :=
  if !s.mayOffer ctx die then []
  else (queueKeys s ctx).filterMap (fun q =>
    (nextCandidate (s.queue ctx q).lastCand (s.candidates ctx q die)).map (fun x => (q, x)))

/-- One step of the lottery generator. -/
def lotteryNext (x : DWord) : DWord :=
  let x := x ^^^ (x <<< 13)
  let x := x ^^^ (x >>> 7)
  x ^^^ (x <<< 17)

/-- The first queue whose cumulative tickets exceed r. -/
def lotteryWinner (r : Nat) : List (Nat × Nat × State) → (Nat × Nat × State → Nat) → Option (Nat × Nat × State)
  | [], _ => none
  | x :: l, tickets => if r < tickets x then some x else lotteryWinner (r - tickets x) l tickets

/-- Contexts in slot order after the one the die served last. -/
def State.dealOrder (s : State) (die : Nat) : List Nat :=
  let last := (s.hub.lastCtx.get die).toNat
  let cs := s.ctxs.map (·.1)
  cs.filter (fun c => last ≤ c) ++ cs.filter (fun c => c < last)

/-- One deal of a die. -/
def State.dealDie (s : State) (die : Nat) : State :=
  match (s.dealOrder die).findSome? (fun c => match s.offers c die with | [] => none | l => some (c, l)) with
  | none => s
  | some (c, os) =>
    let x := lotteryNext (s.ctx c).seed
    let tickets (o : Nat × Nat × State) : Nat := (s.queue c o.1).tickets
    let total := os.foldl (fun n o => n + tickets o) 0
    match lotteryWinner (x.toNat % total) os tickets with
    | none => s
    | some (q, cand, s') =>
      let s' := s'.modCtx c (fun b => { b with seed := x })
      let s' := s'.modQueue c q (fun b => { b with lastCand := cand })
      { s' with hub := { s'.hub with lastCtx := s'.hub.lastCtx.set die (BitVec.ofNat 9 (c + 1)) } }

def execDeal (die : Nat) (s : State) : Out := eventForm (.deal die) s (fun s => if die < 8 then (s.findHomes die).dealDie die else s)

/-! ## Two microseconds without room (R324) -/

/-- A chunk that is not strict, whose home die has no room for it, is offered to every die. -/
def State.homeTimeout (s : State) (ctx q : Nat) : State :=
  match s.launchOf ctx q with
  | none => s
  | some l =>
    match l.home.bind id with
    | none => s
    | some h =>
      if TType.strict l.ttype || l.prologue ≠ 3 || !l.lrec.isEmpty || (s.bestCore ctx l.ttype (dieCores h)).isSome then s
      else s.modEntry ctx q (fun e => { e with launch := e.launch.map (fun l => { l with anyDie := true }) })

def execHomeDieTimeout (ctx q : Nat) (s : State) : Out := eventForm (.homeDieTimeout ctx q) s (fun s => s.homeTimeout ctx q)

end Sys2Proof.Machine
end

