-- ==== Sys2Proof/Machine/Fetch.lean ====
section
/-! DEFINITION. Fetching: which path may issue (R173, R371), breakpoints (R371), and reading the next instruction
word of a stream (R30, R31, R213). -/

namespace Sys2Proof.Machine

/-- The path waits in a ring form, whose stream then holds both (R71). -/
def State.ringBlocked (s : State) (w : Warp) (wid k : Nat) : Bool :=
  (s.teams.getD w.team {}).ringWaits.any (fun x => x.wid == wid && x.slot == k && s.waitStands x)

/-- The path in a slot may issue an instruction of a stream: it is not stopped, napping, blocked in a lane form or of
a context that issues nothing, and a debugger's step names this stream (R71, R209, R248, R273, R353, R356, R371,
R372). -/
def State.mayIssue (s : State) (lane : Bool) (wid k : Nat) : Bool :=
  match s.warps.find wid, s.pathAt wid k with
  | some w, some p =>
    let st := (s.ctx w.ctx).st
    !s.hub.fatal && !p.stopped && p.nap == 0 && !w.ended
      && decide (st = .running ∨ st = .draining ∨ st = .drained)
      && p.access.isNone && (p.stepping == 0 || p.stepping == (if lane then 2 else 1))
      && (wid == puWid || !(s.core (coreOf wid)).gated)
      && (lane || (p.mx.isNone && p.vsync.isNone && !p.both && !s.ringBlocked w wid k))
      && (!lane || (match p.queue with | r :: _ => decide (r.pos < r.count) | [] => false))
  | _, _ => false

/-- Some path of the warp is in a handler: a live one, a fragment that is not, or the one in the overflow slot (R349). -/
def State.anyHandler (s : State) (wid : Nat) (w : Warp) : Bool :=
  w.places.any (fun k => ((w.slot k).bind (·.handler)).isSome)
    || (s.core (coreOf wid)).frags.any (fun f => f.2.warp == wid && f.2.state != 2 && f.2.path.handler.isSome)
    || (match w.overflow with | some o => o.path.handler.isSome | none => false)

/-- The slot whose path takes a pending asynchronous event of the warp now (R349). -/
def State.deliverable (s : State) (wid : Nat) : Option Nat :=
  match s.warps.find wid with
  | none => none
  | some w =>
    if !(w.evFull || w.evNotice) || !trapEn (s.ctx w.ctx) || s.anyHandler wid w then none
    else
      let k := if w.slot0.isSome then 0 else 1
      match w.slot k with
      | some p => if !p.begun && s.mayIssue false wid k then some k else none
      | none => none

/-- The same, where the path's next scalar instruction does not wait for an asynchronous event's delivery (R349). -/
def State.canIssue (s : State) (lane : Bool) (wid k : Nat) : Bool :=
  s.mayIssue lane wid k && (lane || s.deliverable wid != some k)

/-- A valid breakpoint of the context that covers the warp matches a PC (R370, R371). -/
def breakAt (c : Ctx) (lane : Bool) (wid off : Nat) : Option Nat :=
  (List.range 8).find? (fun i =>
    let b := c.dbgbp.get i
    bitB b 63 && bitB b 62 == lane && bitsN b 31 0 == off
      && (bitB b 61 || (bitsN b 57 55 == dieOf wid && bitsN b 54 47 == coreOf wid % 200 && bitsN b 46 41 == wid % 64)))

/-- The path stops before this instruction. -/
def State.breaks (s : State) (lane : Bool) (wid : Nat) (p : Path) : Bool :=
  let c := s.ctx ((s.warps.find wid).getD {}).ctx
  bitB c.dbgctl 63 && bitB c.dbgctl 62 && !p.skipBp && wid != puWid
    && (breakAt c lane wid (if lane then p.lpc else c.wordOff p.pc)).isSome

/-- Reads 4 bytes of an instruction stream. -/
def State.fetch4 (s : State) (va : Nat) : State × Except XFault Nat :=
  if va / 2 ^ 68 = 15 then (s, .error (2, 2))
  else
    match translate s s.agent va .fetch with
    | (s, .error x) => (s, .error x)
    | (s, .ok h) => (s, .ok (s.mem.bytes.readNat h.pa 4))

/-- The next scalar instruction of the issuing path; none when the fetch or the decoding has already had its
effect (R30, R51). -/
def State.nextScalar (s : State) : State × Option Instr :=
  let va := s.cp.pc.toNat
  match s.fetch4 va with
  | (s, .error x) => (s.scalarXfault x (BitVec.ofNat 72 va), none)
  | (s, .ok w) =>
    match decodeScalar (BitVec.ofNat 32 w) with
    | .ok i => (s, some i)
    | .error c =>
      if s.inPu && decide (4096 ≤ s.puCount) then (s.puFault 5, none)
      else if windowsBlock false s.cp.windows then (s.wait (s.blockStall false false), none)
      else if s.transferStall then (s.wait 14, none)
      else (s.illegalScalar c, none)

/-- A path fault at a lane word whose fetch fails (R30, R213). -/
def State.laneFetchFault (s : State) (x : XFault) (va : Nat) : State :=
  let mig := x == (1, 3)
  (s.raiseOn s.cur.1 s.cur.2 fullMask
    { cls := BitVec.ofNat 8 x.1, cause := BitVec.ofNat 8 x.2, dev := mig, addr := BitVec.ofNat 72 va
      mask := s.cp.liveMask s.cw, flpc := BitVec.ofNat 20 s.cp.lpc } []
    (if mig then some (s.cw.ctx, va / 65536) else none)).checkLatch (coreOf s.cur.1)

/-- The three words of a lane word, lowest address first (R30). -/
def State.fetchLane (s : State) (va : Nat) : Nat → Nat → State × Except (XFault × Nat) Nat
  | 0, acc => (s, .ok acc)
  | n + 1, acc =>
    match s.fetch4 (va + 4 * (2 - n)) with
    | (s, .error x) => (s, .error (x, va + 4 * (2 - n)))
    | (s, .ok w) => State.fetchLane s va n (acc + 2 ^ (32 * (2 - n)) * w)

/-- The next lane instruction of the issuing path. -/
def State.nextLane (s : State) : State × Option Instr :=
  if windowsBlock true s.cp.windows then ((s.waitLane (s.blockStall true false)).splitStalled s.cur.1 s.cur.2, none)
  else
    let va := laneVa s.cctx (s.run.off + s.run.pos)
    match s.fetchLane va 3 0 with
    | (s, .error x) => (s.laneFetchFault x.1 x.2, none)
    | (s, .ok w) =>
      match decodeLane (BitVec.ofNat 96 w) with
      | .ok i => (s, some i)
      | .error c => (s.lanePathFault 0x11 c.code, none)

end Sys2Proof.Machine
end

