-- ==== Sys2Proof/Machine/Repair.lean ====
section
/-! DEFINITION. Fragments that become READY and live (R177, R186, R344), repairs made by the device (R23, R94, R264),
asynchronous events (R349), and the end of a nap (R209). -/

namespace Sys2Proof.Machine

/-! ## READY fragments (R177, R344) -/

/-- A free slot with no stack entry to take it. -/
def Warp.openSlot (w : Warp) : Option Nat := if w.stack.isEmpty then freeSlot w else none

/-- A READY fragment becomes live on the path stack, to be popped like a spilled path (R186). -/
def State.pushFrag (s : State) (wid e : Nat) : State :=
  let core := coreOf wid
  match (s.core core).frags.find e with
  | none => s
  | some f =>
    let c := s.ctx ((s.warps.find wid).getD {}).ctx
    let s := s.modCore core (fun x => { x with frags := x.frags.put e { f with state := 2, waits := [], page := none } })
    s.modWarp wid (fun w => { w with stack := { yielded := false, path := fragPath c f } :: w.stack })

/-- The oldest READY fragment of its warp takes a free slot; where there is none, a free unreserved entry of the stack. -/
def State.enterFrag (s : State) (core e : Nat) : State :=
  match (s.core core).frags.find e with
  | none => s
  | some f =>
    match s.warps.find f.warp with
    | none => s
    | some w =>
      match w.openSlot, oldestReady (s.core core) f.warp with
      | some k, some (i, _) => if i = e then s.takeFrag f.warp k e else s
      | none, some (i, _) => if i = e && (freeSlot w).isNone && decide (0 < w.stackFree) then s.pushFrag f.warp e else s
      | _, none => s

def execFragmentHandlerEntry (core entry : Nat) (s : State) : Out := eventForm (.fragmentHandlerEntry core entry) s (fun s => s.enterFrag core entry)

/-- A repaired fragment is READY (R186); where both slots of its warp are free it takes slot 0 at once (R252). -/
def State.readyFrag (s : State) (core e : Nat) : State :=
  match (s.core core).frags.find e with
  | none => s
  | some f =>
    let s := s.modCore core (fun c => { c with frags := c.frags.put e { f with state := 1, page := none } })
    let s := s.trace f.warp 2 f.serial.toNat f.path 4 (BitVec.ofNat 64 f.serial.toNat)
    match s.warps.find f.warp with
    | some w => if w.slot0.isNone && w.slot1.isNone then s.takeFrag f.warp 0 e else s
    | none => s

/-! ## Migrate moves (R23, R264) -/

/-- Fragments of the module that wait for a page: core and entry. -/
def State.pageWaiters (s : State) (ctx vpn : Nat) : List (Nat × Nat) :=
  (s.cores.map (fun c => (c.2.frags.filter (fun f => f.2.state == 0 && f.2.page == some (ctx, vpn))).map (fun f => (c.1, f.1)))).flatten

/-- A fragment whose page firmware cannot place has the fault "not present", for the context's handler; in its handler it is
a double fault, and its lanes exit (R23, R348). -/
def State.refuseFrag (s : State) (core e : Nat) : State :=
  match (s.core core).frags.find e with
  | none => s
  | some f =>
    let ctx := ((s.warps.find f.warp).getD {}).ctx
    let g : Frag := { f with dev := false, rcd := { f.rcd with cause := 2, dev := false } }
    let s := s.modCore core (fun c => { c with frags := c.frags.put e g })
    if f.path.handler.isSome then
      ((s.modCtx ctx (fun c => { c with dfaults := c.dfaults + 1 })).exitLanes f.warp f.path.mask).checkLatch core
    else if trapEn (s.ctx ctx) then s.readyFrag core e
    else s.contextFault ctx 2 0

/-- Engine queues parked on a page: core and queue. -/
def State.parkedOn (s : State) (ctx vpn : Nat) : List (Nat × Nat) :=
  (s.cores.map (fun c => (c.2.queues.filter (fun q => q.2.park == some (.migrate ctx vpn))).map (fun q => (c.1, q.1)))).flatten

/-- The maximum of a released drain goes to a word of the page: a move waits for it, as a shoot-down does (R27). -/
def State.amaxOn (s : State) (hit : Nat → Nat → Bool) : Bool :=
  s.cores.any (fun c => c.2.ops.any (fun o => o.parts.any (fun a =>
    a.merges && hit (xdSpace (s.ctx ((s.warps.find a.wid).getD {}).ctx).xdesc) a.amaxVa.toNat)))

/-- A request to a page waits outside a full drawer queue: it was translated before the page's move began, which waits for it
(R27). -/
def State.pageAwaited (s : State) (base : Nat) : Bool :=
  s.links.any (fun l => l.2.waiting.any (fun w => w.req.addr / 65536 == base / 65536))

/-- Where a page that moves lies: by the leaf its driver's move began with, or by the leaf of a migrate move. -/
def State.oldPlace (s : State) (ctx vpn : Nat) (e : DWord) : Nat :=
  if e ≠ 0 then pteBase e else match peekLeaf s ctx (pageVa vpn) with | .leaf _ l _ => pteBase l | _ => 0

/-- Firmware's record of a page no longer holds it. -/
def State.endMove (s : State) (ctx vpn : Nat) : State := { s with moves := s.moves.filter (fun x => !(x.1 == ctx && x.2.1 == vpn)) }

/-- A page is moved to a frame: one that migrates, or one whose move the driver asked for, whose new leaf takes the place of
the one written with V = 0 (R23, R264). -/
def State.placePage (s : State) (ctx vpn frame : Nat) (e : DWord) (at_ : Nat) : State :=
  if e = 0 then s.migrate ctx vpn frame
  else
    let s := s.modMem (fun m => (m.movePage (pteBase e) (frame * 65536)).quiet at_ (bytesOf 8 (movedLeaf e (frame * 65536)).toNat))
    dropPages s (xdSpace (s.ctx ctx).xdesc) (pageVa vpn) 1 65536

/-- A move that finds no frame. PRESUMED (log 118): of one the driver asked for, the old leaf is put back. -/
def State.moveFailed (s : State) (ctx vpn : Nat) (e : DWord) (at_ : Nat) : State :=
  let s := s.endMove ctx vpn
  if e ≠ 0 then s.modMem (·.quiet at_ (bytesOf 8 e.toNat))
  else
    let s := (s.pageWaiters ctx vpn).foldl (fun s x => s.refuseFrag x.1 x.2) s
    let s := match s.pu, (s.warps.find puWid).bind (·.slot0) with
      | some r, some p => if r.ctx = ctx && p.awaits == some [vpn] then s.puFault 3 else s
      | _, _ => s
    (s.parkedOn ctx vpn).foldl (fun s x =>
      match s.engHead x.1 x.2 with
      | some e => if e.ctx = ctx then s.engFatal e 6 else s
      | none => s) s

/-- The end of a move: the page stands in a near frame and what waited for it is repaired, or no frame can be had, for one
that lies outside the near tier or in a carve-out is none (R9, R23). -/
def State.moveDone (s : State) (ctx vpn : Nat) (frame : Option Nat) : State :=
  let old := match s.moves.find? (fun x => x.1 == ctx && x.2.1 == vpn) with | some x => x.2.2 | none => (0, 0)
  match frame.filter s.placeable with
  | some f =>
    if s.amaxOn (fun sp va => sp == xdSpace (s.ctx ctx).xdesc && va / 65536 == vpn) || s.pageAwaited (s.oldPlace ctx vpn old.1) then s
    else
      let s := (s.placePage ctx vpn f old.1 old.2).endMove ctx vpn
      (s.pageWaiters ctx vpn).foldl (fun s x => s.readyFrag x.1 x.2) s
  | none => s.moveFailed ctx vpn old.1 old.2

def execMigrateMove (ctx vpn : Nat) (frame : Option Nat) (s : State) : Out :=
  eventForm (.migrateMove ctx vpn frame) s (fun s => s.moveDone ctx vpn frame)

/-! ## Link stalls (R94) -/

/-- What a link-stalled fragment waits for has come: its data; and for what it is still to ask for, its links. -/
def State.stallOver (s : State) (f : Frag) : Bool :=
  let runs (n : Nat) : Bool := (s.link n).st != .retrain && (s.link n).st != .down
  f.waits.all (fun x => (!f.rcd.after || x.2.1 == 0) && runs x.1)

def State.dataArrives (s : State) (core e : Nat) : State :=
  match (s.core core).frags.find e with
  | none => s
  | some f => if f.state = 0 && f.rcd.cls == 7 && s.stallOver f then s.readyFrag core e else s

def execPendingDataArrival (core entry : Nat) (s : State) : Out := eventForm (.pendingDataArrival core entry) s (fun s => s.dataArrives core entry)

/-! ## Asynchronous events (R349) -/

/-- The record of an event: 1 fragment table full, 2 pre-emption notice. -/
def asyncRec (cause : BitVec 8) (m : Mask) : FaultRec :=
  { cls := 0x20, cause := cause, async := true, mask := m, flpc := BitVec.allOnes 20 }

/-- Delivers a pending event to the live path in the lowest slot, before its next scalar instruction; where the vector is
off events are discarded. -/
def State.deliver (s : State) (wid : Nat) : State :=
  match s.warps.find wid with
  | none => s
  | some w =>
    if !trapEn (s.ctx w.ctx) then s.putWarp wid { w with evFull := false, evNotice := false }
    else
      match s.deliverable wid with
      | none => s
      | some k =>
        match w.slot k with
        | none => s
        | some p =>
          let q := enterHandler (s.ctx w.ctx) p (asyncRec (if w.evFull then 1 else 2) (p.liveMask w))
          let w := if w.evFull then { w with evFull := false } else { w with evNotice := false }
          s.putWarp wid (w.setSlot k (some q))

def execAsyncEventDelivery (wid : Nat) (s : State) : Out := eventForm (.asyncEventDelivery wid) s (fun s => s.deliver wid)

/-! ## NAP (R209) -/

/-- The die cycle at which a nap of a warp's path ends has come (R386). -/
def State.napOver (s : State) (wid : Nat) (p : Path) : Bool :=
  decide (p.nap ≠ 0) && decide ((s.dieTime (dieOf wid) - BitVec.ofNat 64 (p.nap - 1)).toNat < 2 ^ 63)

def State.wake (s : State) (wid k : Nat) : State :=
  match s.pathAt wid k with
  | none => s
  | some p => if s.napOver wid p then s.modPathAt wid k (fun p => { p with nap := 0, stall := 0 }) else s

def execNapExpiry (wid slot : Nat) (s : State) : Out := eventForm (.napExpiry wid slot) s (fun s => s.wake wid slot)

end Sys2Proof.Machine
end

