-- ==== Sys2Proof/Machine/Links.lean ====
section
/-! DEFINITION. Events of the drawer links: the queue (R82), slots, slot tables and return slots (R85-R88), the width
states (R90-R92), retraining (R93, R94), and the firmware's width policy (R384). -/

namespace Sys2Proof.Machine

/-! ## Slot tables (R86, R87) -/

/-- Owner of a slot: a class, or 16 for the pool. -/
def Link.owner (l : Link) (slot : Nat) : Nat :=
  let x := (l.table.get (slot % 128)).toNat
  if x = 0 then 16 else x - 1

/-- A shadow register of a pool table. -/
def poolSlots : DWord := 0x1010101010101010

/-- Shadow entry of a slot. -/
def Link.shadowOf (l : Link) (slot : Nat) : Nat := bitsN (l.shadow.getD (slot / 8) poolSlots) (8 * (slot % 8) + 7) (8 * (slot % 8))

/-- The shadow table as the live one. -/
def Link.shadowTable (l : Link) : Cells 5 :=
  (List.range 128).foldl (fun t i =>
    let o := l.shadowOf i
    t.set i (if o = 16 then 0 else BitVec.ofNat 5 (o + 1))) []

/-- A write of DLCOMMIT (R87). DESIGN CHOICE (log 127): the table that goes live is the shadow table as it stands at the
boundary, so that a DLSLOT write made since GO goes live with it, unchecked, which the spec leaves open. -/
def Link.commit (l : Link) (v : DWord) : Link :=
  if !bitB v 63 then l
  else if l.pend || (List.range 128).any (fun i => decide (16 < l.shadowOf i)) then { l with err := true }
  else { l with pend := true }

def execDlcommit (link : Nat) (v : DWord) (s : State) : Out := .next (s.modLink link (·.commit v))

def execDlctlWrite (link : Nat) (v : DWord) (s : State) : Out := .next (s.modLink link (·.writeDlctl v))

/-! ## Boundaries and marks (R87, R91, R92) -/

/-- Slots between frame marks at a width. -/
def markEvery (w : BitVec 2) : Nat := if w = 0 then 128 else if w = 1 then 64 else 32

def Link.running (l : Link) : Bool := l.st != .retrain && l.st != .down

/-- The next slot opens a frame. -/
def Link.atBoundary (l : Link) : Bool := l.running && l.slot % 128 == 0
/-- A frame mark falls at the next slot. DESIGN CHOICE (log 128): marks stand at slot numbers that the width's spacing
divides, so that after a wake that switches off the new width's spacing the next mark is less than 288 ns away; the spec
does not say how marks realign (R84, R91). -/
def Link.atMark (l : Link) : Bool := l.running && l.slot % markEvery l.wcur == 0

/-- A frame boundary: an armed table goes live, and a park takes effect. -/
def Link.boundary (l : Link) : Link :=
  if !l.atBoundary then l
  else
    let l := if l.pend then { l with table := l.shadowTable, pend := false } else l
    if l.st = .parking then { l with wcur := l.wtgt, st := .run }.act else l

/-- A frame mark: a wake is complete. -/
def Link.mark (l : Link) : Link :=
  if l.atMark && l.st == .switch then { l with wcur := l.waking, wakes := l.wakes + 1, st := .run }.act else l

def execFrameBoundary (link : Nat) (s : State) : Out := eventForm (.frameBoundary link) s (fun s => s.modLink link Link.boundary)
def execFrameMark (link : Nat) (s : State) : Out := eventForm (.frameMark link) s (fun s => s.modLink link Link.mark)

/-- 1.2 µs of retune have passed. -/
def Link.retuned (l : Link) : Link := if l.st = .retune then { l with st := .locking } else l
/-- Lock has held for 0.4 µs. -/
def Link.locked (l : Link) : Link := if l.st = .locking then { l with st := .switch } else l
/-- A waking wavelength has lost lock. -/
def Link.relock (l : Link) : Link := if l.st = .locking then { l with relocks := l.relocks + 1 } else l

def execRetuneElapsed (link : Nat) (s : State) : Out := eventForm (.retuneElapsed link) s (fun s => s.modLink link Link.retuned)
def execLockHeld (link : Nat) (s : State) : Out := eventForm (.lockHeld link) s (fun s => s.modLink link Link.locked)
def execWakingLockLoss (link : Nat) (s : State) : Out := eventForm (.wakingLockLoss link) s (fun s => s.modLink link Link.relock)

/-! ## Slots (R85, R86, R88) -/

/-- Upstream slots a read that departs in slot n would hold: the first two frames later, and the next ones of the
same owner (R88). -/
def Link.returnSlots (l : Link) (r : Req) : List Nat :=
  let n := l.slot
  let more := if r.kind = 3 then 0 else r.rlen
  (n + 256) :: (((List.range (128 * (more + 1))).map (fun i => n + 257 + i)).filter (fun k => l.owner k == l.owner n)).take more

/-- No earlier request of the queue is to the same granule (R82). -/
def granuleFirst (before : List Req) (r : Req) : Bool := before.all (fun x => x.addr / 4096 != r.addr / 4096)

/-- A request may depart in the next slot (R86, R88, R93). -/
def Link.eligible (l : Link) (before : List Req) (r : Req) : Bool :=
  granuleFirst before r &&
    (!r.isRead || (decide (l.pauseUntil ≤ l.slot)
      && (l.returnSlots r).all (fun k => l.inflight.all (fun x => !x.slots.contains k))))

/-- Eligible requests of a kind, oldest first. -/
def Link.eligibles (l : Link) (read : Bool) : List Req :=
  ((l.queue.zipIdx).filter (fun r => r.1.isRead == read && l.eligible (l.queue.take r.2) r.1)).map (·.1)

/-- Positions of the pool's rotation after the one served last. -/
def rotation (last : Nat) : List Nat := (List.range 17).map (fun i => (last + 1 + i) % 17)

/-- What fills a part of the next slot, and whether the pool served it. -/
def Link.fill (l : Link) (read : Bool) : Option (Req × Bool) :=
  let es := l.eligibles read
  let o := l.owner l.slot
  match (if o < 16 then es.find? (fun r => r.cls == o) else none) with
  | some r => some (r, false)
  | none => ((rotation l.poolLast).findSome? (fun c => es.find? (fun r => r.cls == c))).map (fun r => (r, true))

/-- Takes a request that fills a part out of the queue. -/
def Link.depart (l : Link) (x : Req × Bool) : Link :=
  let l := { l with queue := l.queue.erase x.1, poolLast := if x.2 then x.1.cls else l.poolLast }
  if x.1.isRead then { l with inflight := l.inflight ++ [{ req := x.1, slots := l.returnSlots x.1 }] } else l

/-- The flit a slot sends anew: the read part, then the write part, which an atomic leaves empty. -/
def Link.newFlit (l : Link) : Option (Req × Bool) × Option (Req × Bool) :=
  let rd := l.fill true
  let l' := match rd with
    | some x => { l with poolLast := if x.2 then x.1.cls else l.poolLast }
    | none => l
  (rd, match rd with
    | some x => if x.1.kind = 3 then none else l'.fill false
    | none => l'.fill false)

/-- A downstream slot sends a new flit, which is kept until the drawer acknowledges it, one that carries nothing too (R93);
FLITS counts one that carries something (R90). -/
def Link.sendNew (l : Link) : Link :=
  let x := l.newFlit
  let m := match x.1 with | some r => l.depart r | none => l
  let m := match x.2 with | some w => m.depart w | none => m
  { m with
    flits := if x.1.isNone && x.2.isNone then m.flits else m.flits + 1
    kept := m.kept ++ [{ slot := l.slot, seq := l.seq, rd := x.1, wr := x.2.map (·.1) }] }

/-- A downstream slot: a boundary, then a mark, if they fall here (R91); then the flit to be sent again in it, which FLITS has
counted (R366), or a new one. -/
def Link.slotStep (l : Link) : Link :=
  let l := l.boundary.mark
  let m := match l.resend.find? (fun f => f.slot = l.slot) with
    | some f => { l with resend := l.resend.erase f }
    | none => { l.sendNew with seq := l.seq + 1 }
  { m with slot := l.slot + 1 }

/-! ### The flit's form (R85) -/

/-- Drawer offset of a physical address. -/
def drawerOff (pa : Nat) : Nat := pa % 2 ^ 44

/-- Header of a downstream flit. -/
def Flit.header (f : Flit) (ack : BitVec 16) : BitVec 128 :=
  let rd := match f.rd with
    | some (r, pool) =>
      (if r.kind = 3 then 2 else 1) * 2 ^ 126 + (if r.kind = 3 then 0 else r.rlen % 16) * 2 ^ 122 + r.cls % 16 * 2 ^ 118
        + boolNat pool * 2 ^ 117 + drawerOff r.addr / 256 * 2 ^ 81
    | none => 0
  let wr := match f.wr with
    | some w => (if w.kind = 1 then 1 else 2) * 2 ^ 79 + drawerOff w.addr / 128 * 2 ^ 42
    | none => 0
  BitVec.ofNat 128 (rd + wr + f.seq.toNat * 2 ^ 16 + ack.toNat)

/-- Payload of an atomic. -/
def AmoCmd.bytes (c : AmoCmd) : List Byte :=
  [c.op, c.size, c.off, c.ty, c.mods, 0, 0, 0] ++ bytesOf 8 c.operand.toNat ++ bytesOf 8 c.compare.toNat

def padTo (n : Nat) (bs : List Byte) : List Byte := bs ++ List.replicate (n - bs.length) 0

/-- Payload of a downstream flit: a write's data, a masked write's data and enables, or an atomic's command. -/
def Flit.payload (f : Flit) : List Byte :=
  padTo 256 (match f.wr, f.rd.bind (·.1.amo) with
    | some w, _ => if w.kind = 1 then w.data else padTo 128 w.data ++ bytesOf 16 w.be.toNat
    | none, some c => c.bytes
    | none, none => [])

/-- The 288 bytes of a downstream flit. -/
def Flit.bytes (f : Flit) (ack : BitVec 16) : List Byte :=
  let bs := bytesOf 16 (f.header ack).toNat ++ f.payload
  bs ++ bytesOf 16 (Config.flitCheck bs).toNat

/-- The upstream slot that is due: the first held by a read in flight, once its time has come. -/
def Link.due (l : Link) : Option (Nat × Inflight) :=
  l.inflight.foldl (fun b x =>
    match x.slots with
    | [] => b
    | k :: _ =>
      if l.slot ≤ k then b
      else match b with
        | some y => if k < y.1 then some (k, x) else b
        | none => some (k, x)) none

/-- Slots pass while the link runs and no upstream flit is due. -/
def Link.mayStep (l : Link) : Bool := l.running && l.due.isNone

/-- Granules of the module's drawer region, and where the controllers' carve-out at its top holds the count of one (R98). -/
def regionGranules (s : State) : Nat := regionSize s / 4096
def countAddr (s : State) (g : Nat) : Nat := drawerBase + regionBase s + (regionSize s - regionSize s / 1024) + 4 * g

/-- A link controller writes back counts it caches, 32 of them in one half block, without a class (R83, R98). -/
def State.writeBack (s : State) (g : Nat) : State :=
  if regionGranules s ≤ g then s
  else
    let first := (drawerBase + regionBase s) / 4096 + g / 32 * 32
    s.postReq { id := 0, kind := 2, addr := countAddr s (g / 32 * 32), cls := 16, be := BitVec.allOnes 128
                data := ((List.range 32).map (fun i => bytesOf 4 (s.mem.counts.get (first + i)).toNat)).flatten }

/-- A slot of a link, with the write-back of counts its controller may make. -/
def State.linkStep (s : State) (n : Nat) : State :=
  let (d, s) := s.draw
  let s := match Config.countWriteBack d with | some g => s.writeBack g | none => s
  s.modLink n Link.slotStep

def execLinkSlot (link : Nat) (s : State) : Out :=
  eventForm (.linkSlot link) s (fun s => if (s.link link).mayStep then s.linkStep link else s)

/-! ## Upstream flits (R85) -/

def upK (h : BitVec 128) : Nat := bitsN h 127 126
def upIdx (h : BitVec 128) : Nat := bitsN h 125 122
def upSeq (h : BitVec 128) : BitVec 16 := BitVec.ofNat 16 (bitsN h 31 16)
def upAck (h : BitVec 128) : BitVec 16 := BitVec.ofNat 16 (bitsN h 15 0)
def upSt (h : BitVec 128) : Nat := bitsN h 121 120

/-- A window's results for the lanes of a request carry the drawer's poison (R82, R358). -/
def RegWrite.taint (m : Mask) (w : RegWrite) : RegWrite :=
  match w with
  | .v n l x p => .v n l x (p || bitB m l)
  | w => w

/-- The data of a request has come to a window. -/
def Window.arrive (n id : Nat) (bad : Bool) (d : Window) : Window :=
  let mine := d.waits.filter (fun x => x.1 = n && x.2.1 = id)
  let m := mine.foldl (fun m x => m ||| x.2.2) 0
  { d with
    waits := d.waits.filter (fun x => !(x.1 = n && x.2.1 = id))
    writes := if bad then d.writes.map (RegWrite.taint m) else d.writes }

def Path.arrive (n id : Nat) (bad : Bool) (p : Path) : Path :=
  { p with
    windows := p.windows.map (Window.arrive n id bad)
    handler := p.handler.map (fun h => { h with windows := h.windows.map (Window.arrive n id bad) }) }

def Frag.arrive (n id : Nat) (bad : Bool) (f : Frag) : Frag :=
  { f with
    waits := if f.rcd.after then f.waits.filter (fun x => !(x.1 = n && x.2.1 = id)) else f.waits
    path := f.path.arrive n id bad }

/-- A path waits for a request of its scalar stream, in its handler too. -/
def Path.scalarWaits (n id : Nat) (p : Path) : Bool :=
  let waits (ds : List Window) : Bool := ds.any (fun d => !d.lane && d.waits.any (fun x => x.1 = n && x.2.1 = id))
  waits p.windows || (match p.handler with | some h => waits h.windows | none => false)

/-- Blocks of a read that has returned, by number, with the flits that came poisoned. -/
def Req.blocks (r : Req) (bads : List Nat) : List (Nat × List Byte × Bool) :=
  (List.range (r.rlen + 1)).map (fun i => (r.addr / 256 + i, (r.data.drop (256 * i)).take 256, bads.contains i))

/-- The data has come to an engine entry that waits for it. -/
def EngEntry.arrive (n : Nat) (r : Req) (bads : List Nat) (e : EngEntry) : EngEntry :=
  if e.waits.contains (n, r.id) then { e with waits := e.waits.filter (· != (n, r.id)), got := e.got ++ r.blocks bads } else e

/-- The data of a request reaches every path, fragment and engine entry that waits for it, and the L1 it fills; scalar data
the drawer could not correct kills its warp (R81, R82, R359). -/
def State.dataCome (s : State) (n : Nat) (r : Req) (bads : List Nat) : State :=
  let bad := !bads.isEmpty
  let lost := if bad then (s.warps.filter (fun w => (s.pathsOf w.1).any (Path.scalarWaits n r.id))).map (·.1) else []
  let s : State := { s with
    warps := s.warps.map (fun w => (w.1, { w.2 with
      slot0 := w.2.slot0.map (Path.arrive n r.id bad)
      slot1 := w.2.slot1.map (Path.arrive n r.id bad)
      stack := w.2.stack.map (fun e => { e with path := e.path.arrive n r.id bad })
      overflow := w.2.overflow.map (fun o => { o with
        path := o.path.arrive n r.id bad, waits := o.waits.filter (fun x => !(x.1 = n && x.2.1 = r.id)) }) }))
    cores := s.cores.map (fun c => (c.1, { c.2 with
      frags := c.2.frags.map (fun f => (f.1, f.2.arrive n r.id bad))
      queues := c.2.queues.map (fun q => (q.1, { q.2 with entries := q.2.entries.map (EngEntry.arrive n r bads) })) })) }
  lost.foldl State.killWarp (s.fillLines r bad)

/-- The link takes the flit due: one slot of its read is done, poisoned or not; the read is, with its last. -/
def Link.takeFlit (l : Link) (x : Inflight) (bad : Option Nat) : Link :=
  let y : Inflight := { x with slots := x.slots.drop 1, bad := x.bad ++ bad.toList }
  { l with flits := l.flits + 1, inflight := if y.slots.isEmpty then l.inflight.erase x else l.inflight.map (fun z => if z = x then y else z) }

/-- An upstream flit acknowledges: those sent up to its ACK are kept no longer, and its own number is the next ACK
(R85, R93). -/
def Link.acked (l : Link) (h : BitVec 128) : Link :=
  let open_ (f : Flit) : Bool := decide (0 < (f.seq - upAck h).toInt)
  { l with ack := upSeq h, kept := l.kept.filter open_, resend := l.resend.filter open_ }

/-- An upstream flit: idle, data or a result; an address error is fatal (R364). -/
def State.flit (s : State) (n : Nat) (h : BitVec 128) : State :=
  let s := s.modLink n (·.acked h)
  match (s.link n).due with
  | none => s
  | some (_, x) =>
    if upK h ≠ (if x.req.kind = 3 then 2 else 1) then s
    else
      let bad := if upSt h = 1 then some (upIdx h) else none
      let s := s.modLink n (·.takeFlit x bad)
      if upSt h = 2 then s.fatal 0x14 0 n 0xFF true
      else if x.slots.length ≤ 1 then s.dataCome n x.req (x.bad ++ bad.toList)
      else s

def execUpstreamFlit (link : Nat) (header : BitVec 128) (s : State) : Out := eventForm (.upstreamFlit link header) s (fun s => s.flit link header)

/-! ## Retraining (R93, R94) -/

/-- Slot in which a flit is sent again: its own slot number, in the next frame to come in which no other is. DESIGN CHOICE (log
137): where kept flits share a slot number, each takes the next frame free in it, oldest first, which the rule does not
say. -/
def replaySlot (now n : Nat) (taken : List Nat) : Nat :=
  let k := n + 128 * max 1 ((now - n + 127) / 128)
  (((List.range (taken.length + 1)).map (fun i => k + 128 * i)).find? (fun k => !taken.contains k)).getD k

/-- A side begins its replay: what reads in flight hold moves one frame on, and no read departs until frame h + 2 (R93). -/
def Link.moveReads (l : Link) : Link :=
  { l with
    inflight := l.inflight.map (fun x => { x with slots := x.slots.map (· + 128) })
    pauseUntil := (l.slot / 128 + 2) * 128 }

/-- The module replays: every flit kept is sent again in its slot number (R93). -/
def Link.replay (l : Link) : Link :=
  let again := l.kept.foldl (fun (fs : List Flit) f => fs ++ [{ f with slot := replaySlot l.slot f.slot (fs.map (·.slot)) }]) []
  { l.moveReads with kept := again, resend := again }

/-- Paths that wait at the end of a window for a link split there (R94). -/
def State.splitAll (s : State) : State :=
  (s.warps.map (·.1)).foldl (fun s wid => (s.splitStalled wid 0).splitStalled wid 1) s

/-- Lanes of an access of the path in a slot whose requests wait outside a link that retrains, with those requests' numbers. -/
def State.outsideLanes (s : State) (n wid k : Nat) (a : Access) : List (Nat × Mask) :=
  (s.link n).waiting.filterMap (fun w =>
    match w with
    | .access u j r m => if u = wid && j = k && a.outside.contains r.id then some (r.id, m) else none
    | _ => none)

/-- Lanes of the path in a slot whose requests have found a link's queue full split at the instruction itself while the link
retrains, and replay it when the link returns; the rest of the access goes on. A scalar access waits (R94). DESIGN CHOICE
(log 122): with no fragment entry free they wait outside for the link or for an entry. -/
def State.splitOutside (s : State) (n wid k : Nat) : State :=
  match (s.pathAt wid k).bind (fun p => p.access.map (fun a => (p, a))) with
  | none => s
  | some (p, a) =>
    let xs := s.outsideLanes n wid k a
    let m := xs.foldl (fun m x => m ||| x.2) 0
    if !a.lane || m = 0 || ((s.core (coreOf wid)).frags.freeKey 0 256).isNone then s
    else
      let gone (i : Nat) : Bool := xs.any (fun x => x.1 == i)
      let a := { a with outside := a.outside.filter (fun i => !gone i), xs := a.xs.filter (fun x => !bitB m x.lane) }
      let s := s.modLink n (fun l => { l with waiting := l.waiting.filter (fun w => !gone w.req.id) })
      let s := s.modPathAt wid k (fun p => { p with access := some a })
      let s := (s.raiseOn wid k m
        { cls := 7, cause := 1, lane := true, dev := true, mask := m, flpc := BitVec.ofNat 20 p.lpc }
        (xs.map (fun x => (n, 0, x.2))) none).checkLatch (coreOf wid)
      if (s.pathAt wid k).bind (·.access) = some a && a.outside.isEmpty then s.asPath wid k (·.keepAccess a) else s

/-- Every access with a request outside a link that retrains. -/
def State.splitWaiting (s : State) (n : Nat) : State :=
  if (s.link n).st ≠ .retrain then s
  else
    (((s.link n).waiting.filterMap (fun w => match w with | .access u j _ _ => some (u, j) | _ => none)).eraseDups).foldl
      (fun s x => s.splitOutside n x.1 x.2) s

def State.loseLock (s : State) (n : Nat) : State :=
  if (s.link n).running then ((s.modLink n (fun l => { l with st := .retrain, lock := false })).splitAll).splitWaiting n else s

def execLossOfLock (link : Nat) (s : State) : Out := eventForm (.lossOfLock link) s (fun s => s.loseLock link)

/-- A correctable event of a link (R363). -/
def State.linkEvent (s : State) (kind n : Nat) : State := s.devError 0 kind 0 n 0xFF true

def State.regainLock (s : State) (n : Nat) : State :=
  if (s.link n).st ≠ .retrain then s
  else
    let s := s.modLink n (fun l => Link.act { l.replay with st := .run, lock := true, retrains := l.retrains + 1 })
    (s.linkEvent 3 n).linkEvent 2 n

def execLockRegained (link : Nat) (s : State) : Out := eventForm (.lockRegained link) s (fun s => s.regainLock link)

/-- A flit's check fails: the side that sent it replays, the module where it is a downstream flit (R93). -/
def State.crcFail (s : State) (n : Nat) : State :=
  if !(s.link n).running then s
  else
    let (d, s) := s.draw
    (s.modLink n (fun l => if Config.failedDown d then l.replay else l.moveReads)).linkEvent 2 n

def execFlitCrcFail (link : Nat) (s : State) : Out := eventForm (.flitCrcFail link) s (fun s => s.crcFail link)

/-- Some leaf of the tables from a level down maps a granule of the link; entry 15 of a root is never read (R10, R81). -/
def State.tablesReach (s : State) (n : Nat) : Nat → Nat → Bool
  | 0, _ => false
  | k + 1, table =>
    let lvl := 4 - k
    (List.range (if lvl = 0 then 15 else 8192)).any (fun i =>
      let e : DWord := BitVec.ofNat 64 (s.mem.bytes.readNat (table + 8 * i) 8)
      if !pteV e then false
      else if pteL e then
        decide (3 ≤ lvl) && leafOk s lvl e && isDrawer (pteBase e)
          && (lvl == 3 || (List.range 16).any (fun g => linkOf (pteBase e + 4096 * g) == n))
      else decide (lvl < 4) && pointerOk e && State.tablesReach s n k (pteBase e))

/-- 100 µs without lock: the link is down, which is fatal, and each context with a page on it has its cause (R94,
R355, R364). -/
def State.linkDown (s : State) (n : Nat) : State :=
  if (s.link n).st ≠ .retrain then s
  else
    let s := s.modLink n (fun l => { l with st := .down })
    let hit := (s.ctxs.filter (fun c => bitB c.2.cfg 63 && c.2.st != .tornDown && xdescOk c.2.xdesc
      && isNear (xdRoot c.2.xdesc) && s.tablesReach n 5 (xdRoot c.2.xdesc))).map (·.1)
    (hit.foldl (fun s c => s.modCtx c (fun c => { c with cfcause := 4, ecause := 0 })) s).fatal 0x13 0 n 0xFF true

def execRetrainTimeout (link : Nat) (s : State) : Out := eventForm (.retrainTimeout link) s (fun s => s.linkDown link)

/-! ## The firmware's width policy (R384) -/

/-- The control value firmware writes to an idle link. -/
def idleDlctl (record3 : DWord) : DWord :=
  BitVec.ofNat 64 (bitsN record3 47 46 * 2 ^ 56 + 2 ^ 53 + bitsN record3 45 38 * 2 ^ 40)

/-- One sample of a link that firmware keeps. -/
def State.sampleLink (s : State) (n : Nat) : State :=
  if bitB s.plat.record1 n then s
  else
    let l := s.link n
    let idle := (l.flits - l.sampled).toNat < bitsN s.plat.record3 55 48
    let l := { l with sampled := l.flits }
    let parks := idle && bitsN s.plat.record3 47 46 != 0
    s.modLink n (fun _ => if parks then l.writeDlctl (idleDlctl s.plat.record3) else l)

def execLinkPolicySample (s : State) : Out :=
  eventForm .linkPolicySample s (fun s => if s.blocksLive then (List.range 32).foldl State.sampleLink s else s)

end Sys2Proof.Machine
end

