-- ==== Sys2Proof/Machine/Hub.lean ====
section
/-! DEFINITION. Requests the hub takes from the host: shoot-downs (R24-R26), tree commands (R117), and the Mailbox
Engine with the peer writes it performs (R155, R158, R335, R336, R339). -/

namespace Sys2Proof.Machine

/-! ## Shoot-downs (R24, R25) -/

/-- The pages a command names one by one: the first address and the bytes, none where it names a whole space. -/
def shootPages (addr cmd : DWord) : Option (Nat × Nat) :=
  if bitsN cmd 62 61 = 0 && decide (bitsN cmd 31 0 ≤ 256) then
    some (bitsN addr 63 8 * 65536, bitsN cmd 31 0 * (if bitB cmd 60 then 2 ^ 29 else 65536))
  else none

/-- The translations a command names are dropped by every agent. -/
def State.shootDrop (s : State) (addr cmd : DWord) : State :=
  match shootPages addr cmd with
  | some (va, n) => dropPages s (bitsN cmd 59 50) va 1 n
  | none => if bitsN cmd 62 61 = 2 then dropAll s else dropSpace s (bitsN cmd 59 50)

/-- An address of a space lies in a command's range. -/
def shootHits (addr cmd : DWord) (space va : Nat) : Bool :=
  bitsN cmd 62 61 == 2 || (space == bitsN cmd 59 50 && (match shootPages addr cmd with
    | some (lo, n) => decide (lo ≤ va ∧ va < lo + n)
    | none => true))

/-- A write of XSCMD with GO. -/
def State.shootGo (s : State) (set : Nat) (v : DWord) : State :=
  let r := s.regSet set
  if r.xsbusy || bitsN v 62 61 = 3 || (bitsN v 62 61 = 0 && bitsN v 31 0 = 0) then s.modSet set (fun r => { r with xserr := true })
  else (s.modSet set (fun r => { r with
      xscmd := putBit v 63 false, xsbusy := true, xswork := putBit v 63 false, xswhere := r.xsaddr, xsfrom := s.names })).shootDrop r.xsaddr v

/-- A register write has its effect unless a fatal error has stopped the module (R364). -/
def hostForm (s : State) (body : State → State) : Out := if s.hub.fatal then .fault .halted else .next (body s)

def execShootdownPages (set : Nat) (v : DWord) (s : State) : Out := hostForm s (fun s => s.shootGo set (putBits v 62 61 0))
def execShootdownSpace (set : Nat) (v : DWord) (s : State) : Out := hostForm s (fun s => s.shootGo set (putBits v 62 61 1))
def execShootdownEverySpace (set : Nat) (v : DWord) (s : State) : Out := hostForm s (fun s => s.shootGo set (putBits v 62 61 2))

/-- Every agent has acknowledged: what had been translated when the shoot-down started has reached its ordering point, requests
that waited outside a full drawer queue, and the maximum of a released drain whose word lies in the range (R27). -/
def State.shootDone (s : State) (set : Nat) : State :=
  let r := s.regSet set
  if r.xsbusy && s.reached r.xsfrom && !s.amaxOn (shootHits r.xswhere r.xswork) then
    s.modSet set (fun r => { r with xsbusy := false, xsseq := r.xsseq + 1 })
  else s

def execShootdownComplete (set : Nat) (s : State) : Out := eventForm (.shootdownComplete set) s (fun s => s.shootDone set)

/-! ## Tree commands (R117) -/

/-- The context of a live space. -/
def State.ctxOfSpace (s : State) (space : Nat) : Option Nat :=
  (s.ctxs.find? (fun c => bitB c.2.cfg 63 && xdescOk c.2.xdesc && xdSpace c.2.xdesc == space && c.2.st != .tornDown)).map (·.1)

/-- The granule a command names, if it has a count. -/
def State.ctGranule (s : State) (ctx : Nat) (addr : DWord) : State × Option Nat :=
  match translate s (hubAgent ctx) (bitsN addr 59 0 * 4096) .noData with
  | (s, .ok h) => (s, if isHost h.pa then none else some (h.pa / 4096))
  | (s, .error _) => (s, none)

/-- What a tree command comes to: its results, or none where it is refused. -/
def State.ctResult (s : State) (cmd addr : DWord) : State × Option (List DWord) :=
  match s.ctxOfSpace (bitsN cmd 59 50) with
  | none => (s, none)
  | some c =>
    let n := bitsN cmd 19 0
    match bitsN cmd 62 61 with
    | 0 => if s.nodeLive c n then let s := s.settleNode c n; (s, some (s.nodeWords c n)) else (s, none)
    | 1 => if s.nodeLive c n then (s, some (s.nodeWords c n)) else (s, none)
    | 2 =>
      match s.ctGranule c addr with
      | (s, some g) => (s, some [(s.mem.counts.get g).setWidth 64])
      | (s, none) => (s, none)
    | _ => (s, none)

/-- A write of CTCMD with GO. -/
def State.ctGo (s : State) (set : Nat) (v : DWord) : State :=
  let r := s.regSet set
  if r.ctbusy || (s.ctResult v r.ctaddr).2.isNone then s.modSet set (fun r => { r with cterr := true })
  else s.modSet set (fun r => { r with
    ctcmd := putBit v 63 false, ctbusy := true, ctwork := putBit v 63 false, ctwhere := r.ctaddr })

def execCtSettleNode (set : Nat) (v : DWord) (s : State) : Out := hostForm s (fun s => s.ctGo set (putBits v 62 61 0))
def execCtReadRecord (set : Nat) (v : DWord) (s : State) : Out := hostForm s (fun s => s.ctGo set (putBits v 62 61 1))
def execCtReadGranule (set : Nat) (v : DWord) (s : State) : Out := hostForm s (fun s => s.ctGo set (putBits v 62 61 2))

/-- A tree command is performed and completes, as its GO found it; one whose object has gone since sets ERR. DEDUCED
(log 140): a granule command leaves CTRES1 to CTRES3 with the last node command's words. -/
def State.ctDone (s : State) (set : Nat) : State :=
  let r := s.regSet set
  if !r.ctbusy then s
  else
    match s.ctResult r.ctwork r.ctwhere with
    | (s, some ws) => s.modSet set (fun r => { r with
        ctbusy := false, ctres := (ws.zipIdx).foldl (fun m w => m.set w.2 w.1) (if ws.length = 1 then r.ctres.set 0 0 else r.ctres) })
    | (s, none) => s.modSet set (fun r => { r with ctbusy := false, cterr := true })

def execCtCommandComplete (set : Nat) (s : State) : Out := eventForm (.ctCommandComplete set) s (fun s => s.ctDone set)

/-! ## The Mailbox Engine (R335, R336) -/

/-- Mailbox 8f + m is mailbox m of function f. -/
def State.mailbox (s : State) (mb : Nat) : Mailbox := s.hub.mailboxes.getD mb {}
def State.modBox (s : State) (mb : Nat) (f : Mailbox → Mailbox) : State :=
  { s with hub := { s.hub with mailboxes := s.hub.mailboxes.put mb (f (s.mailbox mb)) } }

namespace MbCmd

def op (v : DWord) : Nat := bitsN v 62 60
def size (v : DWord) : Nat := 2 ^ bitsN v 59 58
def ctx (v : DWord) : Nat := bitsN v 55 48
def addr (v lo : DWord) : Nat := bitsN v 7 0 * 2 ^ 64 + lo.toNat
def atomic (v : DWord) : Bool := decide (2 ≤ op v)
def reserved (v : DWord) : Bool := decide (5 ≤ op v) || bitsN v 57 56 != 0 || bitsN v 47 8 != 0

end MbCmd

/-- Base of the system window (R8). -/
def sysWindow : Nat := 15 * 2 ^ 68
def inWindow (va : Nat) : Bool := va / 2 ^ 68 == 15

/-- Canvas key of an aperture address, where it lies in one (R59, R336). -/
def apertureKey (va : Nat) : Option Nat :=
  let x := va - sysWindow
  if x / 2 ^ 32 ≤ 7 && decide (x % 2 ^ 32 < 0x6000000) then some (x / 2 ^ 32 * 2 ^ 27 + x % 2 ^ 32) else none

/-- The team that owns a canvas key. -/
def State.canvasOwner (s : State) (k : Nat) : Option (Nat × Team) :=
  s.teams.find? (fun t => decide (canvasKey t.2 0 ≤ k ∧ k < canvasKey t.2 0 + t.2.canvasSize))

/-- The new value of an atomic of the ME: old, operand, compare. -/
def meNew (op size old x cmp : Nat) : Nat :=
  match op with
  | 2 => (old + x) % 2 ^ (8 * size)
  | 3 => max old x
  | _ => if old = cmp then x else old

/-- A write of the ME's at a physical address (R155, R156, R99). -/
def State.meStore (s : State) (ctx pa : Nat) (bs : List Byte) : State :=
  (s.modMem (·.store pa bs)).clearStamps ctx false pa bs.length

/-! ### The kept canvas of standing systems (R286) -/

/-- Areas of a die's reserve, from its base up: system, plot and bytes. DESIGN CHOICE (log 129): systems in rising number,
and of each the plots homed on the die in rising number; the spec gives no order. -/
def State.reserveAreas (s : State) (die : Nat) : List (Nat × Nat × Nat) :=
  ((List.range 64).map (fun n =>
    match (s.systems.find n).or (s.frozen.find n) with
    | some y => (y.plots.filter (fun p => p.2.home = die)).map (fun p => (n, p.1, 256 * y.keep))
    | none => [])).flatten

/-- The area that holds an offset of a reserve, and the offset in it. -/
def areaAt : List (Nat × Nat × Nat) → Nat → Option (Nat × Nat × Nat)
  | [], _ => none
  | a :: r, x => if x < a.2.2 then some (a.1, a.2.1, x) else areaAt r (x - a.2.2)

/-- The kept canvas at a canvas key that lies in its die's reserve: system, plot and offset. -/
def State.reserveAt (s : State) (k : Nat) : Option (Nat × Nat × Nat) :=
  let x := k % 2 ^ 27
  let base := s.canvasLimit (k / 2 ^ 27)
  if x < base then none else areaAt (s.reserveAreas (k / 2 ^ 27)) (x - base)

/-- Key of kept canvas in its system's reserve. -/
def keptKey (plot off : Nat) : Nat := plot * 65536 + off

/-- Writes 8 bytes of canvas that belongs to no team: kept canvas takes them, and nothing written elsewhere is left for its
next owner (R286, R357). -/
def State.storeLoose (s : State) (k : Nat) (bs : List Byte) : State :=
  match s.reserveAt k with
  | some (n, i, x) => s.modSys n (fun y => { y with reserve := y.reserve.writeN (keptKey i x) bs })
  | none => s

/-- Reads 8 bytes of canvas that belongs to no team. DEDUCED (log 79): kept canvas, which no team owns, reads as it is kept,
and the rest zero (R286, R357). -/
def State.readLoose (s : State) (k : Nat) : Nat :=
  match s.reserveAt k with
  | some (n, i, x) => (match s.systems.find n with | some y => y.reserve.readNat (keptKey i x) 8 | none => 0)
  | none => 0

/-! ### Transactions -/

/-- A transaction on the canvas aperture: status and result. -/
def State.meCanvas (s : State) (v : DWord) (b : Mailbox) (va : Nat) : State × Nat × DWord :=
  match apertureKey va with
  | none => (s, 1, b.res)
  | some k =>
    let write := MbCmd.op v == 0
    let bs := bytesOf 8 b.data.toNat
    if MbCmd.atomic v then (s, 2, b.res)
    else
      match s.canvasOwner k with
      | none => if write then (s.storeLoose k bs, 0, b.res) else (s, 0, BitVec.ofNat 64 (s.readLoose k))
      | some t =>
        if write then
          if touchesHeader t.2 (k - canvasKey t.2 0) 8 then (s, 4, b.res)
          else ((s.modMem (·.storeCanvas k bs)).clearStamps (MbCmd.ctx v) true k 8, 0, b.res)
        else if poisoned s.mem.canvasPoison k 8 then (s, 7, 0)
        else (s, 0, BitVec.ofNat 64 (s.mem.canvas.readNat k 8))

/-- What a transaction asks of a page; a host page serves none of it (R336). -/
def meWant (op : Nat) : Want := if op = 0 then .devWrite else if op = 1 then .devRead else .atomic

/-- The command of an atomic (R85). -/
def meCmd (op n pa : Nat) (x cmp : Nat) : AmoCmd :=
  { op := if op = 2 then 0 else if op = 3 then 2 else 7, size := BitVec.ofNat 8 n, off := BitVec.ofNat 8 pa
    ty := if op = 4 then (if n = 4 then 0x09 else 0x0A) else if n = 4 then 0x07 else 0x08, mods := 0
    operand := BitVec.ofNat 64 x, compare := if op = 4 then BitVec.ofNat 64 cmp else 0 }

/-- An atomic of the ME on memory: the old value, and the new one stored with its count. One of the drawer is performed as its
request enters its queue (R89, R99). -/
def State.meAtomic (s : State) (c op n pa x cmp : Nat) : State × Nat :=
  if isDrawer pa then
    let r := s.ask { id := 0, kind := 3, addr := pa, cls := s.hub.meClass.toNat, amo := some (meCmd op n pa x cmp), eff := .atomic }
    (r.1, ofBytes (r.2.data.take n))
  else
    let old := s.mem.bytes.readNat pa n
    (s.meStore c pa (bytesOf n (meNew op n old x cmp)), old)

/-- A transaction on memory: status and result. A context with no live space has no translation (R14, log 77). -/
def State.meMemory (s : State) (v : DWord) (b : Mailbox) (va : Nat) : State × Nat × DWord :=
  let n := MbCmd.size v
  let c := MbCmd.ctx v
  let op := MbCmd.op v
  if !xdescOk (s.ctx c).xdesc then (s, 1, b.res)
  else match s.hub? c va (meWant op) with
  | (s, .error x) => (s, if x.1 = 1 then 1 else 2, b.res)
  | (s, .ok h) =>
    let x := b.data.toNat % 2 ^ (8 * n)
    if op = 0 then ((s.hubStore s.hub.meClass.toNat h.pa (bytesOf n x)).clearStamps c false h.pa n, 0, b.res)
    else if poisoned s.mem.poison h.pa n then (s, 7, 0)
    else if op = 1 then
      let r := s.hubLoad s.hub.meClass.toNat h.pa n
      (r.1, 0, BitVec.ofNat 64 (ofBytes r.2))
    else
      let r := s.meAtomic c op n h.pa x (b.cmp.toNat % 2 ^ (8 * n))
      (r.1, 0, BitVec.ofNat 64 r.2)

/-- A transaction at its address: status and result. -/
def State.mePerform (s : State) (v : DWord) (b : Mailbox) : State × Nat × DWord :=
  let va := MbCmd.addr v b.addr
  if va % MbCmd.size v ≠ 0 then (s, 3, b.res) else if inWindow va then s.meCanvas v b va else s.meMemory v b va

/-- Performs a mailbox's transaction, whose result shows at completion. -/
def State.meTry (s : State) (mb : Nat) : State :=
  let b := s.mailbox mb
  let r := s.mePerform b.work b
  r.1.modBox mb (fun b => { b with todo := none, pendingStatus := BitVec.ofNat 8 r.2.1, pendingRes := r.2.2 })

/-- Every transaction whose GO came before a moment has been performed (R155). -/
def State.meFirst (s : State) (at_ : Nat) : Bool :=
  s.hub.mailboxes.all (fun b => match b.2.todo with | some k => decide (at_ ≤ k) | none => true)

/-- A GO is taken: its transaction is performed at once, unless an earlier one has yet to be or a drawer link does not take
its requests now. -/
def State.meTake (s : State) (mb : Nat) (v : DWord) : State :=
  let v := putBit v 63 false
  let t := ({ s with names := s.names + 1 }).modBox mb (fun b => { b with cmd := v, busy := true, work := v, todo := some s.names })
  (if t.meFirst s.names then t.meTry mb else t).orWait t (.event (.meTransactionComplete mb))

/-- A GO of a mailbox (R336): the tests of STATUS 5, 6 and 8 in their order, then the transaction. FUNC assigns a slot,
in use or not (R310). -/
def State.meGo (s : State) (mb : Nat) (v : DWord) : State :=
  let b := s.mailbox mb
  let n := MbCmd.size v
  let refuse (k : BitVec 8) : State := s.modBox mb (fun b => { b with cmd := putBit v 63 false, status := k })
  if b.busy then s.modBox mb (fun b => { b with status := 5 })
  else if !s.blocksLive || bitsN (s.ctx (MbCmd.ctx v)).cfg 55 48 ≠ mb / 8 then refuse 6
  else if MbCmd.reserved v || (MbCmd.atomic v && decide (n < 4))
      || (!MbCmd.atomic v && inWindow (MbCmd.addr v b.addr) && decide (n < 8)) then refuse 8
  else s.meTake mb v

/-- A GO with a given OP. -/
def meForm (mb op : Nat) (v : DWord) (s : State) : Out := hostForm s (fun s => s.meGo mb (putBits v 62 60 op))

def execMeWrite (mb : Nat) (v : DWord) (s : State) : Out := meForm mb 0 v s
def execMeRead (mb : Nat) (v : DWord) (s : State) : Out := meForm mb 1 v s
def execMeAdd (mb : Nat) (v : DWord) (s : State) : Out := meForm mb 2 v s
def execMeMax (mb : Nat) (v : DWord) (s : State) : Out := meForm mb 3 v s
def execMeCas (mb : Nat) (v : DWord) (s : State) : Out := meForm mb 4 v s

/-- A transaction still to be performed is performed in its turn; of one that has been, MBRES and STATUS are written and BUSY
clears. -/
def State.meDone (s : State) (mb : Nat) : State :=
  let b := s.mailbox mb
  if !b.busy then s
  else
    match b.todo with
    | some k => if s.meFirst k then s.meTry mb else s
    | none => s.modBox mb (fun b => { b with res := b.pendingRes, status := b.pendingStatus, busy := false })

def execMeTransactionComplete (mb : Nat) (s : State) : Out := eventForm (.meTransactionComplete mb) s (fun s => s.meDone mb)

/-- A write of MBADDR (1), MBDATA (2) or MBCMP (3), discarded while BUSY (R339). -/
def State.boxWrite (s : State) (mb reg : Nat) (v : DWord) : State :=
  if (s.mailbox mb).busy then s
  else s.modBox mb (fun b =>
    match reg with
    | 1 => { b with addr := v }
    | 2 => { b with data := v }
    | 3 => { b with cmp := v }
    | _ => b)

def execMailboxDataWrite (mb reg : Nat) (v : DWord) (s : State) : Out := .next (s.boxWrite mb reg v)

/-- A peer's write to the memory window, performed by the ME in its order (R155, R158). One that an earlier transaction or a
drawer link holds up stays at the endpoint, to come again. -/
def State.peerStore (s : State) (pa size : Nat) (v : DWord) : State :=
  if s.blocksLive && decide (size ≤ 8) && !isHost pa && mappable s pa size && s.hub.mailboxes.all (·.2.todo.isNone) then
    let t := (s.hubStore s.hub.meClass.toNat pa (bytesOf size v.toNat)).clearStamps (s.mem.ownerOf (pa / 4096) - 1) false pa size
    if t.held.isSome && s.held.isNone then s else t
  else s

def execPeerWrite (pa size : Nat) (v : DWord) (s : State) : Out := plainForm s (fun s => s.peerStore pa size v)

end Sys2Proof.Machine
end

