-- ==== Sys2Proof/Machine/Contexts.lean ====
section
/-! DEFINITION. Context slots: CTXCFG (R310, R356), system ownership (R397), pre-emption (R351, R352), freeze and restore
(R353, R354, R119, R297, R334). -/

namespace Sys2Proof.Machine

/-! ## CTXCFG (R310, R356, R14) -/

/-- The slot may be returned fresh (R356). -/
def State.mayFree (s : State) (ctx : Nat) : Bool :=
  let c := s.ctx ctx
  !bitB c.cfg 62 &&
    (match c.st with
     | .tornDown | .frozen => true
     | .running | .drained =>
       (ctxTeams s ctx).isEmpty && s.systems.all (fun y => y.2.ctx != ctx) && c.queues.all (fun q => q.2.entry.isNone)
     | _ => false)

def Queue.fresh (q : Queue) : Queue :=
  { q with qcfg := putBit q.qcfg 63 false, qhead := 0, qtail := 0, waitpub := false, block := false, scrub := false, entry := none }

/-- A slot returned fresh; every other register keeps its value (R356). -/
def Ctx.fresh (c : Ctx) (cfg : DWord) : Ctx :=
  { c with
    cfg := cfg, st := .running, started := false, cfcause := 0, ecause := 0, dfaults := 0, seed := 1
    queues := c.queues.map (fun q => (q.1, q.2.fresh)) }

/-- The frames a context owns. -/
def State.framesOf (s : State) (ctx : Nat) : List Nat := (s.mem.owner.filter (fun o => o.2.toNat = ctx + 1)).map (·.1)

/-- What a slot returned fresh leaves: its node records are gone, and its frames are a frozen context's, or have no owner
until the allocator gives them again (R96, R100; log 131). -/
def State.leaveSlot (s : State) (ctx : Nat) : State :=
  let froze := (s.ctx ctx).st == .frozen
  let fs := s.framesOf ctx
  { s with
    images := s.images.map (fun i => (i.1, if froze && i.2.ctx == ctx then { i.2 with ctx := 256 } else i.2))
    nodes := s.nodes.filter (fun n => n.1 / 2 ^ 20 ≠ ctx)
    frozen := s.frozen.map (fun y => (y.1, if y.2.ctx = ctx then { y.2 with ctx := 256 } else y.2))
    mem := { s.mem with
      owner := fs.foldl (fun o f => o.set f (if froze then 257 else 511)) s.mem.owner
      enrol := if froze then s.mem.enrol else s.mem.enrol.filter (fun e => !fs.contains (e.1 / 16)) } }

/-- The value a CTXCFG write leaves, where RUN is 0: PF-only fields change by the physical function alone. -/
def cfgWritten (fn : Nat) (old v : DWord) : DWord :=
  let v := putBits v 59 56 0
  if fn = 0 then v else putBits (putBits v 60 60 (bitsN old 60 60)) 55 48 (bitsN old 55 48)

/-- RUN goes to 1: a context whose XDESC does not serve faults (R14). DESIGN CHOICE (log 130): one whose SPACE another live
context has starts too, and the two share translations, which the spec says never comes about. -/
def State.startCtx (s : State) (ctx : Nat) : State :=
  if xdescOk (s.ctx ctx).xdesc then s.modCtx ctx (fun c => { c with started := true }) else s.contextFault ctx 6 0

/-- The function may write the block. -/
def State.ownsCtx (s : State) (fn ctx : Nat) : Bool :=
  s.blocksLive && decide (ctx < 256) && (fn == 0 || bitsN (s.ctx ctx).cfg 55 48 == fn)

/-- A write of CTXCFG. A torn-down slot keeps RUN 0, as R356 says it does. -/
def State.writeCtxcfg (s : State) (fn ctx : Nat) (v : DWord) : State :=
  let old := (s.ctx ctx).cfg
  if !s.ownsCtx fn ctx then s
  else if bitB old 63 && !bitB v 63 then
    if s.mayFree ctx then (s.leaveSlot ctx).modCtx ctx (fun c => c.fresh (cfgWritten fn old v)) else s
  else if bitB old 62 then
    let func := if fn = 0 then bitsN v 55 48 else bitsN old 55 48
    s.modCtx ctx (fun c => { c with cfg := putBits (putBit old 62 (bitB v 62)) 55 48 func })
  else
    let down := (s.ctx ctx).st == .tornDown
    let v := putBit v 62 (bitB v 62 && !down)
    let s := s.modCtx ctx (fun c => { c with cfg := cfgWritten fn old v })
    if bitB v 62 && bitB v 63 then s.startCtx ctx else s

def execCtxcfgWrite (fn ctx : Nat) (v : DWord) (s : State) : Out := .next (s.writeCtxcfg fn ctx v)

/-! ## SSOWN (R397) -/

/-- A write for a system that is live, be its context frozen or not, is ignored (R278, R397). -/
def State.writeSsown (s : State) (fn n : Nat) (v : DWord) : State :=
  if fn ≠ 0 || 64 ≤ n || s.sysLive n || bitsN v 62 8 ≠ 0 then s
  else { s with hub := { s.hub with ssown := s.hub.ssown.set n v } }

def execSsownWrite (fn n : Nat) (v : DWord) (s : State) : Out := .next (s.writeSsown fn n v)

/-! ## CTXPRE (R351, R352) -/

/-- An OP is in progress. -/
def Ctx.preBusy (c : Ctx) : Bool := c.st == .draining || c.st == .freezing || c.st == .restoring

/-- OP of a CTXPRE value. -/
def preOpOf (v : DWord) : Nat := bitsN v 62 60

/-- A GO that does nothing. -/
def State.preRefuse (s : State) (ctx : Nat) : State := s.modCtx ctx (fun c => { c with preErr := true })

/-- The RW fields of a GO that is taken. -/
def State.preTake (s : State) (ctx : Nat) (v : DWord) : State :=
  s.modCtx ctx (fun c => { c with preOp := BitVec.ofNat 3 (preOpOf v), deadline := BitVec.ofNat 32 (bitsN v 31 0) })

/-- Bytes a freeze of the context would need now, in whole 64 KiB; while it drains the size never falls (R351). -/
def State.sizeNow (s : State) (ctx : Nat) : Nat :=
  let now := (Config.imageSize ctx s.tick / 65536 + 1) * 65536
  let c := s.ctx ctx
  if c.st = .draining ∨ c.st = .freezing then max c.ssize now else now

/-- The deadline passes: the context freezes, or is reset (R352). -/
def State.expire (s : State) (ctx : Nat) : State :=
  if bitB (s.ctx ctx).cfg 61 then s.modCtx ctx (fun c => { c with st := .freezing }) else s.contextFault ctx 9 0

def State.drain (s : State) (ctx : Nat) : State :=
  let s := s.modCtx ctx (fun c => { c with st := .draining, drainAt := s.cycle, ssize := s.sizeNow ctx })
  let notice (w : Nat × Warp) : Nat × Warp := (w.1, if w.2.ctx = ctx && w.1 ≠ puWid then { w.2 with evNotice := true } else w.2)
  let s : State := { s with warps := s.warps.map notice }
  let s := s.noteDrained ctx
  if (s.ctx ctx).st = .draining && (s.ctx ctx).deadline = 0 then s.expire ctx else s

/-- Microseconds of a drain have passed; sys.cycle counts 2,500 in each (R386). -/
def State.deadlinePassed (s : State) (c : Ctx) : Bool := decide (c.deadline.toNat * 2500 ≤ (s.cycle - c.drainAt).toNat)

def execDrainDeadline (ctx : Nat) (s : State) : Out :=
  eventForm (.drainDeadline ctx) s (fun s =>
    let c := s.ctx ctx
    if c.st = .draining && s.deadlinePassed c then s.expire ctx else s)

/-! ## Freeze (R353) -/

/-- Requests that windows wait for, by link and number. -/
def windowIds (ds : List Window) : List (Nat × Nat) := (ds.map (fun d => d.waits.map (fun x => (x.1, x.2.1)))).flatten

/-- Those a path waits for, in its handler too. -/
def Path.ids (p : Path) : List (Nat × Nat) :=
  windowIds p.windows ++ (match p.handler with | some h => windowIds h.windows | none => [])

/-- Those a warp waits for: its paths, the one in its overflow slot with its fault, and its fragments with theirs. -/
def State.warpIds (s : State) (wid : Nat) : List (Nat × Nat) :=
  ((s.pathsOf wid).map Path.ids).flatten
    ++ ((match ((s.warps.find wid).getD {}).overflow with | some o => o.waits | none => [])
      ++ (((s.core (coreOf wid)).frags.filter (fun f => f.2.warp = wid)).map (·.2.waits)).flatten).map (fun x => (x.1, x.2.1))

/-- Requests that some warps still wait for, link by link in the order they are answered: those departed, then those in the
queue (R166). -/
def State.openReqs (s : State) (ws : List Nat) : List (Nat × Req) :=
  let ids := (ws.map s.warpIds).flatten
  (s.links.map (fun l => ((l.2.inflight.map (·.req) ++ l.2.queue).filter (fun r => ids.contains (l.1, r.id))).map (fun r => (l.1, r)))).flatten

/-- What an image keeps of a core for a context's teams. -/
def State.coreSave (s : State) (ctx : Nat) (ws : List Nat) (c : Core) : CoreSave :=
  let mine := match c.grant with | some t => (s.teams.getD t {}).ctx == ctx && (s.teams.find t).isSome | none => false
  { frags := c.frags.filter (fun f => ws.contains f.2.warp)
    queues := c.queues.map (fun q => (q.1, { entries := q.2.entries.filter (fun e => e.ctx = ctx), park := none }))
    grant := if mine then c.grant else none
    tiles := if mine then c.tiles else []
    tilePoison := if mine then c.tilePoison else 0
    earlier := if mine then c.earlier else []
    wslots := if mine then c.wslots else []
    latch := c.latch.filter (fun a => ws.contains a.wid)
    ops := c.ops.filter (fun o => o.parts.any (fun a => ws.contains a.wid)) }

/-- Canvas cells of teams, by 2^27 × team + offset. -/
def canvasOf {n : Nat} (m : Cells n) (unit : Nat) (ts : Tab Team) : Cells n :=
  (ts.map (fun t =>
    (Cells.slice m (canvasKey t.2 0 / unit) (t.2.canvasSize / unit)).map (fun b => (b.1 - canvasKey t.2 0 / unit + t.1 * (2 ^ 27 / unit), b.2)))).flatten

/-- Queue state as an image keeps it: a prologue run in progress is abandoned (R334). -/
def Queue.saved (q : Queue) : Queue :=
  { q with entry := q.entry.map (fun e => { e with launch := e.launch.map (fun l => if l.prologue = 2 then { l with prologue := 1 } else l) }) }

/-- A plot as an image keeps it: a move not yet made is to be made after the restore (R295, R297). -/
def Plot.saved (p : Plot) : Plot :=
  if p.st = .moving then { p with st := if p.wasPending then .pending else .idle, wasPending := false, mover := none } else p

def Sys.saved (y : Sys) : Sys := { y with round := none, plots := y.plots.map (fun p => (p.1, p.2.saved)) }

/-- The image of a context. -/
def State.image (s : State) (ctx draw size : Nat) : Image :=
  let ts := s.teams.filter (fun t => t.2.ctx = ctx)
  let ws := (ts.map (fun t => t.2.warps)).flatten
  let ys : Tab Sys := (s.systems.filter (fun y => y.2.ctx = ctx)).map (fun y => (y.1, y.2.saved))
  let fs := s.framesOf ctx
  let granule (g : Nat) : Bool := fs.contains (g / 16)
  { ctx := ctx
    queues := (s.ctx ctx).queues.map (fun q => (q.1, q.2.saved))
    teams := ts
    warps := s.warps.filter (fun w => ws.contains w.1)
    cores := s.cores.map (fun c => (c.1, s.coreSave ctx ws c.2))
    canvas := canvasOf s.mem.canvas 1 ts
    canvasPoison := canvasOf s.mem.canvasPoison 32 ts
    canvasStamps := canvasOf s.mem.canvasStamps 32 ts
    systems := ys
    raises := s.raises.filter (fun r => (ys.find r.sys).isSome)
    watchEvents := s.watchEvents.filter (fun w => (ys.find w.1).isSome)
    reaps := s.reaps.filter (fun r => r.2.ctx = ctx)
    nodes := (s.nodes.filter (fun n => n.1 / 2 ^ 20 = ctx)).map (fun n => (n.1 % 2 ^ 20, n.2))
    frames := fs
    counts := s.mem.counts.filter (fun c => granule c.1)
    pend := s.mem.pend.filter (fun c => granule c.1)
    enrol := s.mem.enrol.filter (fun c => granule c.1)
    reqs := s.openReqs ws
    lost := (s.mem.stamps.filter (fun x => fs.contains (x.1 / 2048) && stV x.2)).length
    draw := draw
    size := size }

/-- The save area of a context (R351). -/
def Ctx.saveArea (c : Ctx) : Nat := bitsN c.save 51 16 * 65536

/-- Opaque bytes of an image. -/
def imageBytes (draw size : Nat) : List Byte := (List.range size).map (Config.imageByte draw)

/-- What a freeze takes away from the module: teams, standing state, stamps. The frames stay the context's, with their marks and
enrolments, and its systems stay live (R119, R278). -/
def State.takeOff (s : State) (ctx : Nat) : State :=
  let fs := s.framesOf ctx
  let ys : Tab Sys := s.systems.filter (fun y => y.2.ctx = ctx)
  let enrol := s.mem.enrol
  let s := ((s.dropPu ctx).dropTeams ctx).dropStanding ctx
  let s : State := { s with frozen := ys.foldl (fun (t : Tab Sys) y => t.put y.1 y.2.saved) s.frozen }
  let s := s.modMem (fun m => { m with stamps := m.stamps.filter (fun x => !fs.contains (x.1 / 2048)), enrol := enrol })
  s.modCtx ctx (fun c => { c with st := .frozen, queues := c.queues.map (fun q => (q.1, { q.2 with entry := none })) })

/-- The freeze: keys go back to their records, the image to the save area, and the resources are released (R353). -/
def State.freeze (s : State) (ctx : Nat) : State :=
  let size := s.sizeNow ctx
  let area := (s.ctx ctx).saveArea
  let s := s.modCtx ctx (fun c => { c with ssize := size })
  if !isNear area || !mappable s area size then s.contextFault ctx 8 0
  else
    let s := (s.systems.filter (fun y => y.2.ctx = ctx)).foldl (fun s y => s.writeKeys y.1 y.2.plots) s
    if (s.ctx ctx).st = .tornDown then s
    else
      let (d, s) := s.draw
      let im := s.image ctx d size
      let others := s.images.map (fun i => (i.1, { i.2 with frames := i.2.frames.filter (fun f => !im.frames.contains f) }))
      let s := { s with images := Tab.put others s.names im, names := s.names + 1 }
      (s.takeOff ctx).modMem (·.quiet area (imageBytes d size))

/-- Every path of a context stands at an instruction boundary, and every engine entry of it at a segment boundary: none of
their requests waits outside a full queue (R353). -/
def State.atBoundaries (s : State) (ctx : Nat) : Bool :=
  s.warps.all (fun w => w.2.ctx != ctx || (s.pathsOf w.1).all (·.access.isNone))
    && s.cores.all (fun c => c.2.queues.all (fun q => q.2.entries.all (fun e => e.ctx != ctx || e.outside.isEmpty)))

def execFreezeComplete (ctx : Nat) (s : State) : Out :=
  eventForm (.freezeComplete ctx) s (fun s => if (s.ctx ctx).st = .freezing && s.atBoundaries ctx then s.freeze ctx else s)

/-! ## Restore (R354) -/

/-- The image whose bytes a save area holds: those of a freeze, wherever it wrote them, and of no restore in progress (R353,
R356). -/
def State.goodImage (s : State) (area : Nat) : Option (Nat × Image) :=
  s.images.find? (fun i => i.2.source.isNone && s.images.all (fun x => x.2.source != some i.1)
    && s.mem.bytes.readN area i.2.size == imageBytes i.2.draw i.2.size)

/-- A slot with nothing in it (R352). -/
def State.slotFresh (s : State) (ctx : Nat) : Bool :=
  let c := s.ctx ctx
  (ctxTeams s ctx).isEmpty && s.systems.all (fun y => y.2.ctx != ctx)
    && c.queues.all (fun q => q.2.entry.isNone && q.2.qhead == 0 && q.2.qtail == 0 && !q.2.en)

/-- New names of warps and of fragment table entries. -/
structure Renames where
  warps : List (Nat × Nat)
  frags : List (Nat × Nat)
  deriving DecidableEq, Repr

def renamed (l : List (Nat × Nat)) (x : Nat) : Nat := ((l.find? (fun e => e.1 = x)).map (·.2)).getD x

def Renames.wr (m : Renames) (x : Nat) : Nat :=
  ((m.warps.find? (fun e => (wrOf e.1).toNat = x)).map (fun e => (wrOf e.2).toNat)).getD x

/-- Warp numbers in a detector table follow the warps of the team. -/
def Renames.table (m : Renames) (t : List (Nat × Word)) : List (Nat × Word) := t.map (fun e => (m.wr e.1, e.2))
def Renames.vec (m : Renames) (v : Cells 32) : Cells 32 := v.foldl (fun c e => c.set (m.wr e.1) e.2) []
def Renames.masks (m : Renames) (v : Cells 128) : Cells 128 := v.foldl (fun c e => c.set (renamed m.warps e.1) e.2) []
def Renames.stamp (m : Renames) (x : BitVec 128) : BitVec 128 := putBits x 122 106 (m.wr (stWr x).toNat)

/-- An engine entry as restored: it reads anew what it had not yet used (R263, R264). -/
def Renames.entry (m : Renames) (ctx : Nat) (e : EngEntry) : EngEntry :=
  { e with wid := renamed m.warps e.wid, ctx := ctx, asked := [], waits := [], got := [] }

def Renames.window (m : Renames) (ctx : Nat) (d : Window) : Window :=
  { d with pend := d.pend.map (fun x => match x with | .engine q e => .engine q (m.entry ctx e) | x => x) }

/-- A path as restored: its fragment's entry, the warp and context of an entry it has yet to queue, and a stop only while a
debugger is attached (R372). -/
def Renames.path (m : Renames) (att : Bool) (ctx : Nat) (p : Path) : Path :=
  { p with
    windows := p.windows.map (m.window ctx), handler := p.handler.map (fun h => { h with windows := h.windows.map (m.window ctx) })
    frag := p.frag.map (renamed m.frags), stopped := p.stopped && att, stepping := if att then p.stepping else 0 }

def Renames.warp (m : Renames) (att : Bool) (ctx : Nat) (w : Warp) : Warp :=
  { w with
    ctx := ctx
    slot0 := w.slot0.map (m.path att ctx), slot1 := w.slot1.map (m.path att ctx)
    stack := w.stack.map (fun e => { e with path := m.path att ctx e.path })
    jrecs := w.jrecs.map (fun j => (j.1, { j.2 with frag := j.2.frag.map (renamed m.frags) }))
    overflow := w.overflow.map (fun o => { o with path := m.path att ctx o.path, page := o.page.map (fun p => (ctx, p.2)) })
    table := m.table w.table, teamvec := m.vec w.teamvec
    rel := w.rel.map (fun r => { r with table := m.table r.table, teamvec := m.vec r.teamvec }) }

def Renames.frag (m : Renames) (att : Bool) (ctx : Nat) (f : Frag) : Frag :=
  { f with
    warp := renamed m.warps f.warp, path := m.path att ctx f.path, parent := if f.pfr then renamed m.frags f.parent else 0
    page := f.page.map (fun p => (ctx, p.2)) }

def Renames.arrival (m : Renames) (a : Arrival) : Arrival := { a with wid := renamed m.warps a.wid }

def Renames.team (m : Renames) (ctx space core base : Nat) (t : Team) : Team :=
  { t with
    ctx := ctx, space := space, core := core, canvasBase := base, warps := t.warps.map (renamed m.warps)
    owner := match t.owner with | .launch _ q => .launch ctx q | o => o
    extents := []
    barriers := t.barriers.map (fun b => (b.1, { b.2 with arrived := m.masks b.2.arrived, ivs := m.vec b.2.ivs }))
    ringWaits := t.ringWaits.map (fun w => { w with wid := renamed m.warps w.wid })
    stageRel := t.stageRel.map (fun r => (r.1, (renamed m.warps r.2.1, r.2.2.1, r.2.2.2))) }

/-- Free entries of a fragment table for saved ones, in order. -/
def freeEntries (held : List Nat) : List Nat → List (Nat × Nat)
  | [] => []
  | e :: r =>
    match (List.range 256).find? (fun k => !held.contains k) with
    | some k => (e, k) :: freeEntries (k :: held) r
    | none => []

/-- Warps of a core for saved ones, by slice, in order. -/
def freeWarps (held : List Nat) (core : Nat) : List (Nat × Nat) → List (Nat × Nat)
  | [] => []
  | (w, sl) :: r =>
    match ((List.range 16).map (fun j => 64 * core + 16 * sl + j)).find? (fun k => !held.contains k) with
    | some k => (w, k) :: freeWarps (k :: held) core r
    | none => []

/-- Where a team of an image goes on a core: its canvas base and new names. -/
def State.teamPlace (s : State) (im : Image) (t : Team) (core : Nat) : Option (Nat × Renames) :=
  let ws := t.warps.map (fun w => im.warps.getD w {})
  let k := if ws.any (·.shadow) then 2 else 1
  if !s.dieUp (core / 200) || 16 ≤ s.coreTeams core || (t.matrix && (s.core core).grant.isSome) then none
  else
    match placeWarps k ((List.range 4).map (s.sliceLoad core)) (ws.map (·.budget)), s.canvasRun (core / 200) t.canvasSize with
    | some sl, some base =>
      let fs := ((im.cores.find t.core).map (·.frags)).getD []
      let mine := (fs.filter (fun f => t.warps.contains f.2.warp)).map (·.1)
      let m : Renames := {
        warps := freeWarps (s.warps.map (·.1)) core (t.warps.zip sl)
        frags := freeEntries ((s.core core).frags.map (·.1)) mine }
      if m.frags.length = mine.length && m.warps.length = t.warps.length then some (base, m) else none
    | _, _ => none

/-- Canvas cells of an image's team at its new place. -/
def canvasBack {n : Nat} (c m : Cells n) (unit team key size : Nat) (f : BitVec n → BitVec n) : Cells n :=
  (Cells.slice m (team * (2 ^ 27 / unit)) (size / unit)).foldl (fun c b => c.set (b.1 - team * (2 ^ 27 / unit) + key / unit) (f b.2)) c

/-- An entry returns to an engine queue before those of its context that were issued after it (R166). -/
def insertSaved (e : EngEntry) : List EngEntry → List EngEntry
  | [] => [e]
  | y :: r => if y.ctx = e.ctx && decide (e.id < y.id) then e :: y :: r else y :: insertSaved e r

/-- Puts a team of an image on a core, whose L1 may hold drawer lines older than what its paths have read or written elsewhere
(R122, R126). -/
def State.putTeam (s : State) (ctx : Nat) (im : Image) (key : Nat) (t : Team) (core base : Nat) (m : Renames) : State :=
  let att := bitB (s.ctx ctx).dbgctl 63
  let u := m.team ctx (xdSpace (s.ctx ctx).xdesc) core base t
  let k := canvasKey u 0
  let sv := (im.cores.find t.core).getD { frags := [], queues := [], grant := none, tiles := [], tilePoison := 0, earlier := [], wslots := [], latch := [], ops := [] }
  let mine (w : Nat) : Bool := t.warps.contains w
  let s := { s with teams := s.teams.put key u }
  let s := t.warps.foldl (fun s w => s.putWarp (renamed m.warps w) (m.warp att ctx (im.warps.getD w {}))) s
  let s := s.modMem (fun x => { x with
    canvas := canvasBack (x.canvas.clear k u.canvasSize) im.canvas 1 key k u.canvasSize id
    canvasPoison := canvasBack (x.canvasPoison.clear (k / 32) (u.canvasSize / 32)) im.canvasPoison 32 key k u.canvasSize id
    canvasStamps := canvasBack (x.canvasStamps.clear (k / 32) (u.canvasSize / 32)) im.canvasStamps 32 key k u.canvasSize m.stamp })
  let es (q : Nat) : List EngEntry := (((sv.queues.find q).map (·.entries)).getD []).filter (fun e => e.team = key)
  (s.dropCore core).modCore core (fun c => { c with
    frags := (sv.frags.filter (fun f => mine f.2.warp)).foldl (fun fs f => fs.put (renamed m.frags f.1) (m.frag att ctx f.2)) c.frags
    queues := (List.range 4).foldl (fun qs q =>
      if (es q).isEmpty then qs else qs.put q { (qs.getD q {}) with
        entries := ((es q).map (m.entry ctx)).foldl (fun l e => insertSaved e l) (qs.getD q {}).entries }) c.queues
    grant := if sv.grant = some key then some key else c.grant
    tiles := if sv.grant = some key then sv.tiles else c.tiles
    tilePoison := if sv.grant = some key then sv.tilePoison else c.tilePoison
    earlier := if sv.grant = some key then sv.earlier else c.earlier
    wslots := if sv.grant = some key then sv.wslots else c.wslots
    latch := c.latch ++ (sv.latch.filter (fun a => mine a.wid)).map m.arrival
    ops := c.ops ++ (sv.ops.filter (fun o => o.parts.any (fun a => mine a.wid))).map (fun o => { o with parts := o.parts.map m.arrival }) })

/-- Names of the module's warps in raises and reaps follow a team that has moved. -/
def Image.moved (im : Image) (m : Renames) (key : Nat) : Image :=
  { im with
    teams := im.teams.erase key
    raises := im.raises.map (fun r => { r with sender := renamed m.warps r.sender })
    reaps := im.reaps.map (fun r => (r.1, { r.2 with wid := r.2.wid.map (renamed m.warps) })) }

/-- Places the teams of an image that fit on a core of the die each left. -/
def State.placeImage (s : State) (ctx : Nat) (im : Image) : State × Image :=
  im.teams.foldl (fun r t =>
    match (dieCores (t.2.core / 200)).findSome? (fun c => (r.1.teamPlace im t.2 c).map (fun x => (c, x))) with
    | some (c, base, m) => (r.1.putTeam ctx r.2 t.1 t.2 c base m, r.2.moved m t.1)
    | none => r) (s, im)

/-- What a restore writes back of the frames that are still the context's, or are its again, and of no other: the counts and
enrolments as they were, with the marks set since (R119, R354; log 131). -/
def State.placeMem (s : State) (ctx : Nat) (im : Image) (m : Mem) : Mem :=
  let mine (o : Nat) : Bool := o == ctx + 1 || o == 257 || (o == im.ctx + 1 && (s.ctx im.ctx).st == .frozen)
  let fs := im.frames.filter (fun f => mine (m.owner.get f).toNat)
  let gs := (fs.map (fun f => (List.range 16).map (fun i => 16 * f + i))).flatten
  { m with
    owner := fs.foldl (fun o f => o.set f (BitVec.ofNat 9 (ctx + 1))) m.owner
    counts := gs.foldl (fun c g => c.set g (im.counts.get g)) m.counts
    pend := gs.foldl (fun c g => if im.pend.get g = 0 then c else c.set g 1) m.pend
    enrol := gs.foldl (fun c g => c.set g (im.enrol.get g)) m.enrol }

/-- A request of an image is made again, or has been answered, unless its link still has it. -/
def State.resumeReq (s : State) (n : Nat) (r : Req) : State :=
  let l := s.link n
  if (l.queue ++ l.inflight.map (·.req)).any (fun x => x.id == r.id) then s
  else if r.isRead then
    let r := { r with core := none, lines := [] }
    if l.takes then s.modLink n (·.push r) else s.waitOutside (.posted r)
  else s.dataCome n r []

/-- The rest of a restore once every team stands: queues, standing and change state, and the requests not answered. -/
def State.endRestore (s : State) (ctx : Nat) (im : Image) : State :=
  let area := (s.ctx ctx).saveArea
  let s := (s.modMem (s.placeMem ctx im)).addCovlost ctx im.lost
  let sys (y : Sys) : Sys := { y with
    ctx := ctx, told := y.quietMask, due := y.quietMask == BitVec.allOnes 8 && !bitB y.status 62, round := none }
  let reap (r : Reap) : Reap := { r with ctx := ctx }
  let s : State := { s with
    systems := im.systems.foldl (fun (t : Tab Sys) y => if (t.find y.1).isSome then t else t.put y.1 (sys y.2)) s.systems
    frozen := s.frozen.filter (fun y => (im.systems.find y.1).isNone)
    raises := s.raises ++ im.raises
    watchEvents := s.watchEvents ++ im.watchEvents
    reaps := im.reaps.foldl (fun (t : Tab Reap) r => t.put r.1 (reap r.2)) s.reaps
    nodes := im.nodes.foldl (fun (t : Tab Node) n => t.put (nodeKey ctx n.1) n.2) s.nodes
    images := s.images.filter (fun i => i.1 ≠ (s.ctx ctx).image && im.source ≠ some i.1) }
  let s := im.reqs.foldl (fun s r => s.resumeReq r.1 r.2) s
  let s := (s.modMem (·.store area (List.replicate im.size 0))).clearStamps ctx false area im.size
  s.modCtx ctx (fun c => { c with st := .running, started := true, queues := im.queues, image := 0 })

/-- One attempt of a restore in progress. -/
def State.restore (s : State) (ctx : Nat) : State :=
  let k := (s.ctx ctx).image
  match s.images.find k with
  | none => s.modCtx ctx (fun c => { c with st := .running })
  | some im =>
    let r := s.placeImage ctx im
    if r.2.teams.isEmpty then r.1.endRestore ctx r.2 else { r.1 with images := r.1.images.put k r.2 }

def execRestoreComplete (ctx : Nat) (s : State) : Out :=
  eventForm (.restoreComplete ctx) s (fun s => if (s.ctx ctx).st = .restoring then s.restore ctx else s)

/-! ## A GO of CTXPRE (R351, R352) -/

/-- The OP is allowed in the slot's state; a restore also needs an image whose check is right. -/
def State.preAllowed (s : State) (ctx op : Nat) : Bool :=
  let c := s.ctx ctx
  match op with
  | 0 => c.st == .running
  | 1 => c.st == .drained
  | 2 => (c.st == .frozen || (c.st == .running && !bitB c.cfg 62 && s.slotFresh ctx)) && (s.goodImage c.saveArea).isSome
  | 3 => c.st != .tornDown
  | _ => false

/-- A restore begins on a copy of the image, which a reset leaves behind as it was. -/
def State.beginRestore (s : State) (ctx : Nat) : State :=
  match s.goodImage (s.ctx ctx).saveArea with
  | none => s
  | some (k, im) =>
    ({ s with images := s.images.put s.names { im with source := some k }, names := s.names + 1 }).modCtx ctx
      (fun c => { c with st := .restoring, image := s.names })

def State.preEffect (s : State) (ctx op : Nat) : State :=
  match op with
  | 0 => s.drain ctx
  | 1 => s.modCtx ctx (fun c => { c with st := .running })
  | 2 => s.beginRestore ctx
  | _ => s.contextFault ctx 9 0

/-- A write of CTXPRE with GO: refused with a reserved bit, with another OP in progress, which only a reset may end, or
where the state does not allow the OP. -/
def State.preGo (s : State) (ctx : Nat) (v : DWord) : State :=
  let op := preOpOf v
  if !s.blocksLive then s
  else if bitsN v 59 32 ≠ 0 || ((s.ctx ctx).preBusy && op != 3) || !s.preAllowed ctx op then s.preRefuse ctx
  else (s.preTake ctx v).preEffect ctx op

def execCtxDrain (ctx : Nat) (v : DWord) (s : State) : Out := hostForm s (fun s => s.preGo ctx (putBits v 62 60 0))
def execCtxResume (ctx : Nat) (v : DWord) (s : State) : Out := hostForm s (fun s => s.preGo ctx (putBits v 62 60 1))
def execCtxRestore (ctx : Nat) (v : DWord) (s : State) : Out := hostForm s (fun s => s.preGo ctx (putBits v 62 60 2))
def execCtxReset (ctx : Nat) (v : DWord) (s : State) : Out := hostForm s (fun s => s.preGo ctx (putBits v 62 60 3))

end Sys2Proof.Machine
end

