-- ==== Sys2Proof/Machine/Debug.lean ====
section
/-! DEFINITION. Debug, trace and profiling: stops and steps (R371, R372), sampling (R374), the deadlock reading (R375), and
the clearing of the issue histogram (R376). -/

namespace Sys2Proof.Machine

/-! ## Naming a path (R369, R370) -/

/-- Where a path is. -/
inductive PathPlace where
  /-- Place of the warp: slots 0 and 1, then the stack, newest first. -/
  | place (k : Nat)
  | frag (entry : Nat)
  | overflow
  deriving DecidableEq, Repr

/-- Warp that a DBGCMD or a breakpoint names. -/
def dbgWarp (v : DWord) : Nat := 64 * (200 * bitsN v 57 55 + bitsN v 54 47) + bitsN v 46 41

/-- The fragment of a warp with a serial. -/
def State.fragOf (s : State) (wid serial : Nat) : Option (Nat × Frag) :=
  (s.core (coreOf wid)).frags.find? (fun f => f.2.warp == wid && f.2.serial.toNat == serial)

/-- The path of the context that a DBGCMD names, if it exists. A live fragment is where its path is. -/
def State.named (s : State) (ctx : Nat) (v : DWord) : Option (Nat × PathPlace) :=
  let wid := dbgWarp v
  let idx := bitsN v 15 0
  match (if bitsN v 54 47 < 200 then s.warps.find wid else none) with
  | none => none
  | some w =>
    if w.ctx ≠ ctx then none
    else
      match bitsN v 17 16 with
      | 0 => if idx < 2 && (w.slot idx).isSome then some (wid, .place idx) else none
      | 1 => if idx < w.stack.length then some (wid, .place (w.stack.length + 1 - idx)) else none
      | 2 =>
        match s.fragOf wid idx with
        | none => none
        | some (e, f) =>
          if f.state ≠ 2 then some (wid, .frag e)
          else (w.places.find? (fun k => ((w.slot k).bind (·.frag)) == some e)).map (fun k => (wid, .place k))
      | _ => if w.overflow.isSome && idx == 0 then some (wid, .overflow) else none

def State.pathIn (s : State) (wid : Nat) (x : PathPlace) : Option Path :=
  match x with
  | .place k => s.pathAt wid k
  | .frag e => ((s.core (coreOf wid)).frags.find e).map (·.path)
  | .overflow => ((s.warps.find wid).bind (·.overflow)).map (·.path)

def State.modPathIn (s : State) (wid : Nat) (x : PathPlace) (f : Path → Path) : State :=
  match x with
  | .place k => s.modPathAt wid k f
  | .frag e => s.modCore (coreOf wid) (fun c =>
      match c.frags.find e with
      | some g => { c with frags := c.frags.put e { g with path := f g.path } }
      | none => c)
  | .overflow => s.modWarp wid (fun w => { w with overflow := w.overflow.map (fun o => { o with path := f o.path }) })

/-- Kind and index of a place (R369). -/
def State.pathName (s : State) (wid : Nat) (x : PathPlace) : Nat × Nat :=
  match x with
  | .place k => if k < 2 then (0, k) else (1, (s.warps.find wid |>.map (fun w => w.stack.length + 1 - k)).getD 0)
  | .frag e => (2, (((s.core (coreOf wid)).frags.find e).map (fun f => f.serial.toNat)).getD 0)
  | .overflow => (3, 0)

/-- Every path of a context, slot 0 of a warp first. -/
def State.ctxPaths (s : State) (ctx : Nat) : List (Nat × PathPlace) :=
  ((s.warps.filter (fun w => w.2.ctx = ctx && w.1 ≠ puWid)).map (fun w =>
    w.2.places.map (fun k => (w.1, PathPlace.place k))
      ++ ((s.core (coreOf w.1)).frags.filter (fun f => f.2.warp = w.1 && f.2.state ≠ 2)).map (fun f => (w.1, PathPlace.frag f.1))
      ++ (if w.2.overflow.isSome then [(w.1, PathPlace.overflow)] else []))).flatten

/-! ## Stops (R371, R372) -/

/-- Stops a path, with its trace record. -/
def State.stopAt (s : State) (wid : Nat) (x : PathPlace) (detail : Nat) : State :=
  match s.pathIn wid x with
  | none => s
  | some p =>
    if p.stopped then s
    else
      let s := s.modPathIn wid x (fun p => { p with stopped := true, stepping := 0 })
      let n := s.pathName wid x
      s.trace wid n.1 n.2 ((s.pathIn wid x).getD p) 5 (BitVec.ofNat 64 detail)

/-- A stopped path runs on, or for one instruction of a stream. -/
def State.resumeAt (s : State) (wid : Nat) (x : PathPlace) (step : BitVec 2) : State :=
  s.modPathIn wid x (fun p => if p.stopped then { p with stopped := false, stepping := step, skipBp := true } else p)

/-- A path about to issue an instruction of a breakpoint stops before it. -/
def State.breakpoint (s : State) (wid k : Nat) (lane : Bool) : State :=
  match s.pathAt wid k with
  | none => s
  | some p =>
    let c := s.ctx ((s.warps.find wid).getD {}).ctx
    if s.breaks lane wid p then s.stopAt wid (.place k) ((breakAt c lane wid (if lane then p.lpc else c.wordOff p.pc)).getD 0) else s

def execBreakpointStop (wid slot : Nat) (lane : Bool) (s : State) : Out := eventForm (.breakpointStop wid slot lane) s (fun s => s.breakpoint wid slot lane)

/-! ## DBGCMD (R370, R372) -/

def State.dbgRefuse (s : State) (ctx : Nat) : State := s.modCtx ctx (fun c => { c with dbgctl := putBit c.dbgctl 58 true })

def State.resumeAll (s : State) (ctx : Nat) : State := (s.ctxPaths ctx).foldl (fun s x => s.resumeAt x.1 x.2 0) s

/-- A fragment parked on a watch hit gets a disposition and is READY (R186). -/
def State.release (s : State) (core e : Nat) (disp : BitVec 2) : State :=
  (s.modCore core (fun c =>
    match c.frags.find e with
    | some f => { c with frags := c.frags.put e { f with disp := some disp } }
    | none => c)).readyFrag core e

def Frag.onWatch (f : Frag) : Bool := f.state == 0 && f.rcd.cls == 6

/-- Replay or skip of a fragment parked on a watch hit. -/
def State.dbgRelease (s : State) (ctx wid : Nat) (x : PathPlace) (disp : BitVec 2) : State :=
  match x with
  | .frag e =>
    (match (s.core (coreOf wid)).frags.find e with
     | some f => if f.onWatch then s.release (coreOf wid) e disp else s.dbgRefuse ctx
     | none => s.dbgRefuse ctx)
  | _ => s.dbgRefuse ctx

/-- An OP on a named path, which must be stopped to run on or to step, a lane step with a lane word to issue. -/
def State.dbgPath (s : State) (ctx op wid : Nat) (x : PathPlace) (p : Path) : State :=
  match op with
  | 0 => s.stopAt wid x 9
  | 1 => if p.stopped then s.resumeAt wid x 0 else s.dbgRefuse ctx
  | 2 => if p.stopped then s.resumeAt wid x 1 else s.dbgRefuse ctx
  | 3 => if p.stopped && p.hasLane then s.resumeAt wid x 2 else s.dbgRefuse ctx
  | 6 => s.dbgRelease ctx wid x 0
  | _ => s.dbgRelease ctx wid x 1

/-- A write of DBGCMD with GO. -/
def State.dbgGo (s : State) (ctx : Nat) (v : DWord) : State :=
  if !s.blocksLive then s
  else
    let s := s.modCtx ctx (fun c => { c with dbgcmd := putBit v 63 false })
    match bitsN v 62 60 with
    | 4 => (s.ctxPaths ctx).foldl (fun s x => s.stopAt x.1 x.2 9) s
    | 5 => s.resumeAll ctx
    | op =>
      match s.named ctx v with
      | some (wid, x) => (match s.pathIn wid x with | some p => s.dbgPath ctx op wid x p | none => s.dbgRefuse ctx)
      | none => s.dbgRefuse ctx

def execDbgStop (ctx : Nat) (v : DWord) (s : State) : Out := hostForm s (fun s => s.dbgGo ctx (putBits v 62 60 0))
def execDbgResume (ctx : Nat) (v : DWord) (s : State) : Out := hostForm s (fun s => s.dbgGo ctx (putBits v 62 60 1))
def execDbgStepScalar (ctx : Nat) (v : DWord) (s : State) : Out := hostForm s (fun s => s.dbgGo ctx (putBits v 62 60 2))
def execDbgStepLane (ctx : Nat) (v : DWord) (s : State) : Out := hostForm s (fun s => s.dbgGo ctx (putBits v 62 60 3))
def execDbgStopAll (ctx : Nat) (v : DWord) (s : State) : Out := hostForm s (fun s => s.dbgGo ctx (putBits v 62 60 4))
def execDbgResumeAll (ctx : Nat) (v : DWord) (s : State) : Out := hostForm s (fun s => s.dbgGo ctx (putBits v 62 60 5))
def execDbgReplay (ctx : Nat) (v : DWord) (s : State) : Out := hostForm s (fun s => s.dbgGo ctx (putBits v 62 60 6))
def execDbgSkip (ctx : Nat) (v : DWord) (s : State) : Out := hostForm s (fun s => s.dbgGo ctx (putBits v 62 60 7))

/-! ## DBGCTL (R370, R372, R374) -/

/-- The register after a write: RW fields replaced, ERR cleared by a 1. -/
def dbgWritten (old v : DWord) : DWord :=
  putBits (putBits (putBit old 58 (bitB old 58 && !bitB v 58)) 63 59 (bitsN v 63 59)) 55 48 (bitsN v 55 48)

/-- A detaching debugger resumes every stopped path, ends every step, and replays every fragment parked on a watch hit. -/
def State.detachDbg (s : State) (ctx : Nat) : State :=
  let s := s.resumeAll ctx
  let s := (s.ctxPaths ctx).foldl (fun s x => s.modPathIn x.1 x.2 (fun p => { p with stepping := 0 })) s
  let fs := (s.cores.map (fun c => (c.2.frags.filter (fun f => f.2.onWatch && ((s.warps.find f.2.warp).getD {}).ctx == ctx)).map
    (fun f => (c.1, f.1)))).flatten
  fs.foldl (fun s f => s.release f.1 f.2 0) s

def State.writeDbgctl (s : State) (ctx : Nat) (v : DWord) : State :=
  let old := (s.ctx ctx).dbgctl
  if !s.blocksLive then s
  else
  let s := s.modCtx ctx (fun c => { c with
    dbgctl := dbgWritten old v
    trctl := if bitB v 60 && !bitB old 60 then putBits c.trctl 63 40 0 else c.trctl })
  if bitB old 63 && !bitB v 63 then s.detachDbg ctx else s

def execDbgctlWrite (ctx : Nat) (v : DWord) (s : State) : Out :=
  hostForm s (fun s => s.writeDbgctl ctx v)

/-! ## Sampling (R374) -/

/-- Warps of a context on a core after one served last, in rotation. -/
def State.nextSampled (s : State) (ctx core : Nat) : Option (Nat × Warp) :=
  let ws := s.warps.filter (fun w => w.1 ≠ puWid && coreOf w.1 = core && w.2.ctx = ctx)
  match ws.find? (fun w => (s.core core).sampleRot.getD ctx 0 ≤ w.1 % 64) with
  | some w => some w
  | none => ws.head?

/-- The oldest parked fragment of a warp, by creation order. -/
def State.oldestParked (s : State) (wid : Nat) : Option Frag :=
  ((s.core (coreOf wid)).frags.filter (fun f => f.2.warp = wid && f.2.state = 0)).foldl (fun b f =>
    match b with
    | some g => if f.2.made < g.made then some f.2 else some g
    | none => some f.2) none

/-- The record a sample takes of a warp: kind, index, path, and whether it is an exited slot's. -/
def State.sampleOf (s : State) (wid : Nat) (w : Warp) : Option (Nat × Nat × Path × Bool) :=
  match w.slot0, w.slot1, s.oldestParked wid with
  | some p, _, _ => some (0, 0, p, false)
  | none, some p, _ => some (0, 1, p, false)
  | none, none, some f => some (2, f.serial.toNat, f.path, false)
  | none, none, none =>
    match w.exit0, w.exit1 with
    | some pc, _ => some (0, 0, { pc := pc }, true)
    | none, some pc => some (0, 1, { pc := pc }, true)
    | none, none => none

def State.takeSample (s : State) (ctx core : Nat) : State :=
  if !bitB (s.ctx ctx).dbgctl 59 then s
  else
    match s.nextSampled ctx core with
    | none => s
    | some (wid, w) =>
      let s := s.modCore core (fun c => { c with sampleRot := c.sampleRot.put ctx (wid % 64 + 1) })
      match s.sampleOf wid w with
      | some (k, i, p, ex) => s.traceIn ctx wid k i p ex 9 0
      | none => s

def execSample (ctx core : Nat) (s : State) : Out := eventForm (.sample ctx core) s (fun s => s.takeSample ctx core)

/-! ## The deadlock reading (R375) -/

/-- Nodes of the graph: warps, front-end queues, and engine queues. DEDUCED (log 87): R375 lists nothing an engine queue
waits for. -/
def warpNode (w : Nat) : Nat := 3 * w
def queueNode (q : Nat) : Nat := 3 * q + 1
def engineNode (core q : Nat) : Nat := 3 * (4 * core + q) + 2

/-- The physical address a semaphore word has, read with no effect. -/
def State.peekWord (s : State) (ctx va : Nat) : DWord :=
  match s.peekPa ctx va with
  | some pa => BitVec.ofNat 64 (s.mem.bytes.readNat pa 8)
  | none => 0

/-- Semaphore words that a queue has a signal pending for: its entry's, and those of published entries not consumed. -/
def State.pendingSignals (s : State) (ctx q : Nat) : List Nat :=
  let x := s.queue ctx q
  let here := match x.entry with
    | some e => (match e.graph with
      | some g => (g.nodes.filter (fun n => nodeKind n = 5)).map (fun n => (n.getD 1 0).toNat)
      | none => match e.sem true with | some m => [m.va] | none => [])
    | none => []
  here ++ (((List.range (min x.size (x.qtail.toNat - x.qhead.toNat))).map (fun i => x.qhead.toNat + i)).filterMap (fun i =>
    let w0 := s.peekWord ctx (x.slotVa i)
    if bitsN w0 63 32 = (i + 1) % 2 ^ 32 && bitsN w0 31 24 = 3 then some (s.peekWord ctx (x.slotVa i + 8)).toNat else none))

/-- Warps of a team other than one. -/
def othersOf (t : Team) (wid : Nat) : List Nat := t.warps.filter (· ≠ wid)

/-- Warps a path of a warp waits for: at the barrier it waits at, in VSYNC, at the latch. -/
def State.pathWaits (s : State) (wid : Nat) (w : Warp) (p : Path) : List Nat :=
  let t := s.teams.getD w.team {}
  let late (b : Barrier) : List Nat := t.warps.filter (fun x =>
    match s.warps.find x with | some y => y.waitedLanes &&& ~~~(b.arrived.get x) ≠ 0 | none => false)
  let latch := match p.mx with
    | some id =>
      (match (s.core (coreOf wid)).latch.find? (fun a => a.id = id) with
       | some a => ((gangList a.g0).filterMap (fun i => t.warps[i]?)).filter (fun x => !(s.core (coreOf wid)).latch.any (fun b => b.wid = x))
       | none => [])
    | none => []
  (match p.bar with | some b => if p.stall = 7 then late (t.barriers.getD b {}) else [] | none => [])
    ++ (if p.vsync.isSome then [wid] else []) ++ latch

/-- What the ring waits of a warp point to, for data or for a free stage: the queue or the warps that feed the ring (R68). -/
def State.ringProducers (s : State) (wid : Nat) (t : Team) : List Nat :=
  ((t.ringWaits.filter (fun x => x.wid = wid)).map (fun x =>
    let g := s.ring t x.header
    if g.mode = 1 then [engineNode t.core g.eq] else (othersOf t wid).map warpNode)).flatten

def State.warpPaths (w : Warp) : List Path := w.places.filterMap w.slot

/-- The warp has a stopped path, a parked fragment or a path that waits on a retraining link. -/
def State.heldUp (s : State) (wid : Nat) : Bool :=
  let w := (s.warps.find wid).getD {}
  (State.warpPaths w).any (fun p => p.stopped || p.windows.any (fun d => d.waits.any (fun x => (s.link x.1).st == .retrain)))
    || w.overflow.isSome
    || (s.core (coreOf wid)).frags.any (fun f => f.2.warp == wid && (f.2.state == 0 || (f.2.state == 1 && f.2.path.stopped)))

/-- A warp or an engine queue that a node waits on is held up: the node then has no outgoing edge. -/
def State.nodeHeld (s : State) (n : Nat) : Bool :=
  if n % 3 = 0 then s.heldUp (n / 3)
  else
    match ((s.core (n / 3 / 4)).queues.getD (n / 3 % 4) {}).park with
    | some (.link _) => true
    | _ => false

/-- Edges of a warp of a team that made no progress. -/
def State.warpEdges (s : State) (ctx wid : Nat) (w : Warp) : List Nat :=
  let t := s.teams.getD w.team {}
  if w.ctx ≠ ctx || t.progress ≠ t.progressSeen then []
  else
    let xs := (((State.warpPaths w).map (s.pathWaits wid w)).flatten).map warpNode ++ s.ringProducers wid t
    if xs.any s.nodeHeld || s.heldUp wid then [] else xs

/-- A queue has made no progress since the last reading: its head and its entry in progress are what they were. -/
def State.queueStood (s : State) (ctx q : Nat) : Bool :=
  let x := s.queue ctx q
  (s.ctx ctx).queuesSeen.find q == some (x.qhead, x.entry)

/-- Edges of a queue that waits on a semaphore and has made no progress. -/
def State.queueEdges (s : State) (ctx q : Nat) : List Nat :=
  let x := s.queue ctx q
  match x.block && s.queueStood ctx q, x.entry.bind (fun e => e.sem false) with
  | true, some m => ((queueKeys s ctx).filter (fun k => (s.pendingSignals ctx k).contains m.va)).map queueNode
  | _, _ => []

def State.waitGraph (s : State) (ctx : Nat) : List (Nat × List Nat) :=
  (s.warps.filter (fun w => w.1 ≠ puWid && w.2.ctx = ctx)).map (fun w => (warpNode w.1, s.warpEdges ctx w.1 w.2))
    ++ (queueKeys s ctx).map (fun q => (queueNode q, s.queueEdges ctx q))

def edgesOf (g : List (Nat × List Nat)) (x : Nat) : List Nat := ((g.find? (fun e => e.1 = x)).map (·.2)).getD []

/-- A shortest way back to x from the ends of some paths, each newest node first, in at most n edges. -/
def wayBack (g : List (Nat × List Nat)) (x : Nat) : Nat → List (List Nat) → List Nat → List Nat
  | 0, _, _ => []
  | n + 1, ps, seen =>
    match ps.find? (fun p => (edgesOf g (p.headD x)).contains x) with
    | some p => p.reverse
    | none =>
      let r := ps.foldl (fun (r : List (List Nat) × List Nat) p =>
        (edgesOf g (p.headD x)).foldl (fun (r : List (List Nat) × List Nat) y =>
          if r.2.contains y then r else (r.1 ++ [y :: p], r.2 ++ [y])) r) ([], seen)
      wayBack g x n r.1 r.2

/-- A shortest cycle through a node, or nothing. -/
def cycleOf (g : List (Nat × List Nat)) (x : Nat) : List Nat := wayBack g x (g.length + 1) [[x]] [x]

/-- Cycles of a graph, such that each node of one is in one of them. -/
def cycles (g : List (Nat × List Nat)) : List (List Nat) :=
  g.foldl (fun cs e => if cs.any (fun c => c.contains e.1) then cs else match cycleOf g e.1 with | [] => cs | c => cs ++ [c]) []

/-- The edges of two readings running: a cycle of them has stood for both. -/
def standing (g h : List (Nat × List Nat)) : List (Nat × List Nat) := g.map (fun e => (e.1, e.2.filter (edgesOf h e.1).contains))

/-- One record of a node of a reported cycle. -/
def State.reportNode (s : State) (ctx number node : Nat) : State :=
  if node % 3 = 0 then
    let wid := node / 3
    match s.sampleOf wid ((s.warps.find wid).getD {}) with
    | some (k, i, p, ex) => s.traceIn ctx wid k i p ex 8 (BitVec.ofNat 64 number)
    | none => s
  else s.traceIn ctx puWid 0 (node / 3) {} false 8 (BitVec.ofNat 64 number)

/-- One reading: progress is noted, and a cycle that stands for two readings is reported. -/
def State.readProgress (s : State) (ctx : Nat) : State :=
  if !bitB (s.ctx ctx).dbgctl 63 then s
  else
    let g := s.waitGraph ctx
    let stand := (cycles (standing g (s.ctx ctx).graphSeen)).zipIdx
    let s := stand.foldl (fun s c => (c.1.take 8).foldl (fun s n => s.reportNode ctx c.2 n) s) s
    let s := if stand.isEmpty then s else s.msi ctx 1
    let note (t : Nat × Team) : Nat × Team := (t.1, if t.2.ctx = ctx then { t.2 with progressSeen := t.2.progress } else t.2)
    let s : State := { s with teams := s.teams.map note }
    s.modCtx ctx (fun c => { c with
      graphSeen := g, queuesSeen := c.queues.map (fun q => (q.1, q.2.qhead, q.2.entry)) })

def execDeadlockCheck (ctx : Nat) (s : State) : Out := eventForm (.deadlockCheck ctx) s (fun s => s.readProgress ctx)

/-! ## PRFSEL (R376) -/

/-- A write of PRFSEL; CLR clears the bins of the slice it selects. -/
def State.writePrfsel (s : State) (v : DWord) : State :=
  let core := bitsN v 7 0
  let slice := 4 * (200 * bitsN v 10 8 + core) + bitsN v 13 12
  let s := { s with hub := { s.hub with prfsel := putBits (putBits v 63 14 0) 11 11 0 } }
  if bitB v 63 && decide (core < 200) then
    { s with hub := { s.hub with bins := s.hub.bins.clear (31 * slice) 31, binBase := s.hub.binBase.set slice s.cycle } }
  else s

def execPrfselClear (v : DWord) (s : State) : Out := .next (s.writePrfsel (putBit v 63 true))

end Sys2Proof.Machine
end

