-- ==== Sys2Proof/Machine/LaneCross.lean ====
section
/-! DEFINITION. Meanings of the cross-lane forms (R239-R249). -/

namespace Sys2Proof.Machine

/-! ## VSHUF (R240) -/

/-- The source lane of a shuffle, when it lies in the segment. -/
def shufSrc (variant w l k : Nat) : Option Nat :=
  let base := l - l % w
  let src : Int := match variant with
    | 0 => base + k % w
    | 1 => base + Nat.xor l k % w
    | 2 => (l : Int) - k
    | _ => l + k
  if src < base ∨ base + w ≤ src then none else some src.toNat

/-- Value, predicate value and dead-source bit of a lane. -/
def shufLane (w : Warp) (f : LaneWord) (present : Mask) (l : Nat) : Nat × Bool × Bool :=
  let k := if f.imm then f.extN 15 8 else (w.vReg f.b.toNat l).toNat
  match shufSrc (f.mdN 2 1) (2 ^ f.extN 7 4) l k with
  | none => (w.rd f f.c l, false, false)
  | some r => if bitB present r then (w.rd f f.a r, true, false) else (w.rd f f.c l, false, bitB w.dead r)

def State.doShuf (s : State) (f : LaneWord) : State :=
  let w := s.cw
  let m := activeMask w s.cp f
  let rs := (lanesOf m).map (fun l => (l, shufLane w f m l))
  let s := s.modW (fun w => w.applyAll s.cur.2 (laneWrites f.d (typeRegs f.tyN) (fun _ => false) (rs.map (fun r => (r.1, r.2.1)))))
  if bitB f.ext 3 then
    s.modW (fun w => w.setPred (f.extN 2 0) m (maskOf ((rs.filter (fun r => r.2.2.1)).map (·.1)))
      (maskOf ((rs.filter (fun r => r.2.2.2)).map (·.1))))
  else s

def execVshuf (f : LaneWord) (s : State) : Out := laneOp (.vshuf f) s (fun s => s.doShuf f)

/-! ## Lanes to the scalar stream (R241-R247) -/

/-- Writes a 128-bit mask to a scalar pair. -/
def State.setMaskPair (s : State) (d : Nat) (m : Mask) : State :=
  (s.setSN d (m.setWidth 64)).setSN (d + 1) ((m >>> 64).setWidth 64)

def State.doVote (s : State) (f : LaneWord) : State :=
  let m := activeMask s.cw s.cp f
  let v := s.cw.pred f.a.toNat &&& m
  match f.mdN 2 1 with
  | 0 => s.setSN f.d.toNat (if v ≠ 0 then 1 else 0)
  | 1 => s.setSN f.d.toNat (if v = m then 1 else 0)
  | _ => s.setMaskPair f.d.toNat v

def execVvote (f : LaneWord) (s : State) : Out := laneOp (.vvote f) s (fun s => s.doVote f)

/-- IDENT of a reduction or scan. -/
def redIdent (f : LaneWord) : Nat := extImm f

def State.doRed (s : State) (f : LaneWord) : State :=
  let w := s.cw
  let m := activeMask w s.cp f
  let xs := (List.range 128).map (fun l => if bitB m l then w.rd f f.a l else redIdent f)
  s.setSN f.d.toNat (toScalar f.tyN (aluTree (f.mdN 4 2) f.tyN (f.sat == 1) f.rnd.toNat 7 xs))

def execVred (f : LaneWord) (s : State) : Out := laneOp (.vred f) s (fun s => s.doRed f)

/-- A pattern beats the best so far in a least or greatest search (R242): strictly, and a number beats a NaN. -/
def redixBetter (t : Nat) (isMax : Bool) (x best : Nat) : Bool :=
  if isFloat t then
    let a := Float.read (Float.ofType t) x
    let b := Float.read (Float.ofType t) best
    if a.isNan then false else if b.isNan then true else if isMax then Float.below b a else Float.below a b
  else
    let a := intN (isSigned t) 32 x
    let b := intN (isSigned t) 32 best
    if isMax then decide (b < a) else decide (a < b)

/-- The value and lane a search finds, or IDENT and 128 with no lane present. -/
def redix (t : Nat) (isMax : Bool) (ident : Nat) (xs : List (Nat × Nat)) : Nat × Nat :=
  match xs with
  | [] => (ident, 128)
  | (l, x) :: r =>
    let b := r.foldl (fun (best : Nat × Nat) y => if redixBetter t isMax y.2 best.1 then (y.2, y.1) else best) (x, l)
    if isFloat t && (Float.read (Float.ofType t) b.1).isNan then ((Float.ofType t).nan, b.2) else b

def State.doRedix (s : State) (f : LaneWord) : State :=
  let w := s.cw
  let r := redix f.tyN f.imm f.ext.toNat ((s.actLanes f).map (fun l => (l, w.rd f f.a l)))
  (s.setSN f.d.toNat (toScalar f.tyN r.1)).setSN (f.d.toNat + 1) (BitVec.ofNat 64 r.2)

def execVredix (f : LaneWord) (s : State) : Out := laneOp (.vredix f) s (fun s => s.doRedix f)

/-- The folds the present lanes receive, ascending (R243). -/
def scanFold (op : Nat → Nat → Nat) (excl : Bool) : Nat → List (Nat × Nat) → List (Nat × Nat)
  | _, [] => []
  | acc, (l, x) :: r =>
    let nxt := op acc x
    (l, if excl then acc else nxt) :: scanFold op excl nxt r

def State.doScan (s : State) (f : LaneWord) : State :=
  let w := s.cw
  let xs := (s.actLanes f).map (fun l => (l, w.rd f f.a l))
  let vs := scanFold (fun x y => aluNew (f.mdN 4 2) f.tyN (f.sat == 1) f.rnd.toNat x y 0) (bitB f.md 1) (redIdent f) xs
  s.modW (fun w => w.applyAll s.cur.2 (laneWrites f.d (typeRegs f.tyN) (fun _ => false) vs))

def execVscan (f : LaneWord) (s : State) : Out := laneOp (.vscan f) s (fun s => s.doScan f)

def State.doGet (s : State) (f : LaneWord) : State :=
  let w := s.cw
  let m := activeMask w s.cp f
  let l := if bitB f.ext 7 then lowestLane m else f.extN 6 0
  s.setSN f.d.toNat (if m ≠ 0 && bitB m l then BitVec.ofNat 64 (w.rd f f.a l) else 0)

def execVget (f : LaneWord) (s : State) : Out := laneOp (.vget f) s (fun s => s.doGet f)

def State.doPget (s : State) (f : LaneWord) : State :=
  let w := s.cw
  let v := if f.imm then w.predDs f.a.toNat else w.pred f.a.toNat
  s.setMaskPair f.d.toNat (v &&& s.cp.liveMask w)

def execPget (f : LaneWord) (s : State) : Out := laneOp (.pget f) s (fun s => s.doPget f)

/-! ## VSYNC (R248) -/

/-- Every path of a warp in a slot or on the stack. -/
def Warp.paths (w : Warp) : List Path := w.slot0.toList ++ w.slot1.toList ++ w.stack.map (·.path)

def Warp.mapPaths (w : Warp) (g : Path → Path) : Warp :=
  { w with slot0 := w.slot0.map g, slot1 := w.slot1.map g, stack := w.stack.map (fun e => { e with path := g e.path }) }

/-- A path waits at a VSYNC that carries a mask, as the lanes now live make it. -/
def waitsSync (w : Warp) (m : Mask) (p : Path) : Bool :=
  match p.vsync with
  | some v => !v.done && (v.mask &&& ~~~goneMask w) == m
  | none => false

/-- Every lane of the mask has arrived. -/
def syncMet (w : Warp) (m : Mask) : Bool :=
  let arrived := (w.paths.filter (waitsSync w m)).foldl (fun a p => a ||| (p.vsync.map (·.lanes)).getD 0) 0
  m &&& ~~~arrived == 0

/-- The waiting path goes on if its mask is met, which lets every other path of the mask go on; else it waits and
may yield (R193, R248). -/
def State.syncPoll (s : State) : State :=
  let w := s.cw
  match s.cp.vsync with
  | none => s
  | some v =>
    let m := v.mask &&& ~~~goneMask w
    if v.done then s.advanceLane
    else if syncMet w m then
      (s.modW (fun w => w.mapPaths (fun p =>
        if waitsSync w m p then { p with vsync := p.vsync.map (fun v => { v with done := true }) } else p))).advanceLane
    else (s.waitLane 7).yieldSlot s.cur.1 s.cur.2

/-- A lane of another path already waits under a different mask (R248). -/
def syncClash (w : Warp) (m : Mask) : Bool :=
  w.paths.any (fun p => match p.vsync with
    | some v => !v.done && (v.lanes &&& m &&& ~~~goneMask w != 0) && (v.mask &&& ~~~goneMask w) != m
    | none => false)

/-- An arrival: mismatching lanes take the lane fault, the others arrive. -/
def State.syncArrive (s : State) (f : LaneWord) : State :=
  let w := s.cw
  let p := s.cp
  let act := activeMask w p f
  let own (l : Nat) : Mask := BitVec.ofNat 128 (w.vWide f.a.toNat l 4) &&& ~~~goneMask w
  let m := own (lowestLane act)
  let all := syncClash w m || m &&& p.mask &&& ~~~act != 0
  let bad := if all then act else maskOf ((lanesOf act).filter (fun l => own l ≠ m || !bitB m l))
  let good := act &&& ~~~bad
  let rcd : FaultRec := { cls := 5, cause := 1, lane := true, mask := bad, flpc := BitVec.ofNat 20 p.lpc }
  if bad = 0 then (s.modP (fun p => { p with vsync := some { mask := m, lanes := good, done := false } })).syncPoll
  else
    let s' := (s.raiseOn s.cur.1 s.cur.2 bad rcd [] none).checkLatch (coreOf s.cur.1)
    if p.liveMask w &&& ~~~bad = 0 || !s'.stillOurs p.mask then s'
    else if good = 0 then s'.advanceLane
    else (s'.modP (fun p => { p with vsync := some { mask := m, lanes := good, done := false } })).syncPoll

def execVsync (f : LaneWord) (s : State) : Out :=
  laneForm (.vsync f) s (fun s =>
    if s.cp.vsync.isSome then s.syncPoll
    else if activeMask s.cw s.cp f = 0 then s.advanceLane
    else s.syncArrive f)

end Sys2Proof.Machine
end

