-- ==== Sys2Proof/Machine/LaneFloat.lean ====
section
/-! DEFINITION. Meanings of the floating-point forms and CVT (R233-R237). -/

namespace Sys2Proof.Machine

def LaneWord.ftz (f : LaneWord) : Bool := bitB f.md 4
def fmtOf (f : LaneWord) : Float.Fmt := Float.ofType f.tyN

/-- SAT on a rounded result (R233). -/
def saturated (f : LaneWord) (r : Nat × Float.Flags) : Nat × Float.Flags :=
  if f.sat = 1 then (Float.clamp (fmtOf f) r.1, r.2) else r

/-- A float form by its operation on one element of A, B and C. -/
def fltForm (i : Instr) (f : LaneWord) (op : Nat → Nat → Nat → Nat × Float.Flags) (s : State) : Out :=
  floatForm i f (typeRegs f.tyN) (fun w l =>
    elements f.tyN (fun j =>
      saturated f (op (element f.tyN j (w.rd f f.a l)) (element f.tyN j (w.rd f f.b l)) (element f.tyN j (w.rd f f.c l))))) s

def execFadd (f : LaneWord) (s : State) : Out :=
  fltForm (.fadd f) f (fun a b _ => Float.add (fmtOf f) f.rnd.toNat (LaneWord.ftz f) a b) s
def execFsub (f : LaneWord) (s : State) : Out :=
  fltForm (.fsub f) f (fun a b _ => Float.sub (fmtOf f) f.rnd.toNat (LaneWord.ftz f) a b) s
def execFmul (f : LaneWord) (s : State) : Out :=
  fltForm (.fmul f) f (fun a b _ => Float.mul (fmtOf f) f.rnd.toNat (LaneWord.ftz f) a b) s
def execFfma (f : LaneWord) (s : State) : Out :=
  fltForm (.ffma f) f (fun a b c => Float.fma (fmtOf f) f.rnd.toNat (LaneWord.ftz f) a b c) s
def execFmin (f : LaneWord) (s : State) : Out :=
  fltForm (.fmin f) f (fun a b _ => Float.minMax (fmtOf f) (LaneWord.ftz f) false a b) s
def execFmax (f : LaneWord) (s : State) : Out :=
  fltForm (.fmax f) f (fun a b _ => Float.minMax (fmtOf f) (LaneWord.ftz f) true a b) s

/-- The sign place of the word's elements. -/
def signPlace (f : LaneWord) : Nat := 2 ^ ((fmtOf f).ew + (fmtOf f).fw)

def execFabs (f : LaneWord) (s : State) : Out := fltForm (.fabs f) f (fun a _ _ => (a % signPlace f, 0)) s
def execFneg (f : LaneWord) (s : State) : Out := fltForm (.fneg f) f (fun a _ _ => (Nat.xor a (signPlace f), 0)) s
def execFcpys (f : LaneWord) (s : State) : Out :=
  fltForm (.fcpys f) f (fun a b _ => (a % signPlace f + b / signPlace f * signPlace f, 0)) s
/-- The class mask of each element; D is one register (R235). -/
def execFclass (f : LaneWord) (s : State) : Out :=
  floatForm (.fclass f) f 1 (fun w l =>
    elements f.tyN (fun j => (2 ^ Float.classBit (fmtOf f) (element f.tyN j (w.rd f f.a l)), 0))) s

def execFdiv (f : LaneWord) (s : State) : Out :=
  fltForm (.fdiv f) f (fun a b _ => Float.div (fmtOf f) f.rnd.toNat (LaneWord.ftz f) a b) s
def execFsqrt (f : LaneWord) (s : State) : Out :=
  fltForm (.fsqrt f) f (fun a _ _ => Float.sqrt (fmtOf f) f.rnd.toNat (LaneWord.ftz f) a) s
def execFrcp (f : LaneWord) (s : State) : Out :=
  fltForm (.frcp f) f (fun a _ _ => Float.div (fmtOf f) f.rnd.toNat (LaneWord.ftz f) (Float.one (fmtOf f)) a) s

/-! ## Approximate forms (R236) -/

def execFrsq (f : LaneWord) (s : State) : Out :=
  fltForm (.frsq f) f (fun a _ _ => Float.frsq (LaneWord.ftz f) a (Config.approxRsq (BitVec.ofNat 32 a) (LaneWord.ftz f)).toNat) s
def execFexp2 (f : LaneWord) (s : State) : Out :=
  fltForm (.fexp2 f) f (fun a _ _ => Float.fexp2 (LaneWord.ftz f) a (Config.approxExp2 (BitVec.ofNat 32 a) (LaneWord.ftz f)).toNat) s
def execFlog2 (f : LaneWord) (s : State) : Out :=
  fltForm (.flog2 f) f (fun a _ _ => Float.flog2 (LaneWord.ftz f) a (Config.approxLog2 (BitVec.ofNat 32 a) (LaneWord.ftz f)).toNat) s
def execFsin (f : LaneWord) (s : State) : Out :=
  fltForm (.fsin f) f (fun a _ _ => Float.trig false (LaneWord.ftz f) a (Config.approxSin (BitVec.ofNat 32 a) (LaneWord.ftz f)).toNat) s
def execFcos (f : LaneWord) (s : State) : Out :=
  fltForm (.fcos f) f (fun a _ _ => Float.trig true (LaneWord.ftz f) a (Config.approxCos (BitVec.ofNat 32 a) (LaneWord.ftz f)).toNat) s

/-! ## Conversion (R237) -/

/-- Bits an integer type's values have. -/
def intWidth (t : Nat) : Nat := if t = 1 ∨ t = 5 then 8 else if t = 2 ∨ t = 6 then 16 else if t = 3 ∨ t = 7 then 32 else 64

def intLo (t : Nat) : Int := if isSigned t then -(2 ^ (intWidth t - 1) : Nat) else 0
def intHi (t : Nat) : Int := if isSigned t then (2 ^ (intWidth t - 1) : Nat) - 1 else (2 ^ intWidth t : Nat) - 1

/-- Writes an integer of a type as registers, extended by R36. -/
def intBits (t : Nat) (x : Int) : Nat := wrapN (32 * typeRegs t) (intN (isSigned t) (intWidth t) (wrapN (intWidth t) x))

/-- Conversion of one element from a source type to a destination type (packed destinations by element). -/
def convert (dst src rm : Nat) (sat ftz : Bool) (x : Nat) : Nat × Float.Flags :=
  let df := Float.ofType dst
  let sf := Float.ofType src
  let clampF (r : Nat × Float.Flags) : Nat × Float.Flags := if sat then (Float.clamp df r.1, r.2) else r
  if isInt src then
    let v := intN (isSigned src) (intWidth src) x
    if isInt dst then
      (intBits dst (if sat then (if v < intLo dst then intLo dst else if intHi dst < v then intHi dst else v) else v), 0)
    else Float.ofIntInf df rm ftz v
  else if isInt dst then
    let r := Float.toIntRange sf rm ftz (intLo dst) (intHi dst) (x % 2 ^ sf.width)
    (intBits dst r.1, r.2)
  else if dst = src then Float.toIntegral sf rm ftz (x % 2 ^ sf.width)
  else clampF (Float.toFmt sf df rm ftz (x % 2 ^ sf.width))

def execCvt (f : LaneWord) (s : State) : Out :=
  let dst := f.tyN
  let src := f.md.toNat
  let one := convert dst src f.rnd.toNat (f.sat == 1) (bitB f.ext 0)
  floatForm (.cvt f) f (typeRegs dst) (fun w l =>
    if isPacked dst then elements dst (fun j => one (w.vReg (if j = 0 then f.a else f.b).toNat l).toNat)
    else one (w.vWide f.a.toNat l (typeRegs src))) s

end Sys2Proof.Machine
end

