-- ==== Sys2Proof/Machine/LaneInt.lean ====
section
/-! DEFINITION. Meanings of the lane integer, bit, move, select and predicate forms (R229-R232, R238). -/

namespace Sys2Proof.Machine

/-! ## Integer forms (R229) -/

/-- An integer form by its exact result on A, the second operand and C. -/
def intForm (i : Instr) (f : LaneWord) (x : Int → Int → Int → Int) (s : State) : Out :=
  let n := opBits f
  let sg := isSigned f.tyN
  perLane i f (typeRegs f.tyN) (fun w _ l =>
    let v := x (intN sg n (w.rd f f.a l)) (intN sg n (w.rdB f l)) (intN sg n (w.rd f f.c l))
    if f.sat = 1 then satN sg n v else wrapN n v) s

def execVadd (f : LaneWord) (s : State) : Out := intForm (.vadd f) f (fun a b _ => a + b) s
def execVsub (f : LaneWord) (s : State) : Out := intForm (.vsub f) f (fun a b _ => a - b) s
def execVmul (f : LaneWord) (s : State) : Out := intForm (.vmul f) f (fun a b _ => a * b) s
def execVmulh (f : LaneWord) (s : State) : Out := intForm (.vmulh f) f (fun a b _ => a * b / (2 ^ opBits f : Nat)) s
def execVmad (f : LaneWord) (s : State) : Out := intForm (.vmad f) f (fun a b c => a * b + c) s
def execVmin (f : LaneWord) (s : State) : Out := intForm (.vmin f) f (fun a b _ => min a b) s
def execVmax (f : LaneWord) (s : State) : Out := intForm (.vmax f) f (fun a b _ => max a b) s
def execVabs (f : LaneWord) (s : State) : Out := intForm (.vabs f) f (fun a _ _ => if a < 0 then -a else a) s
def execVneg (f : LaneWord) (s : State) : Out := intForm (.vneg f) f (fun a _ _ => -a) s

/-- Sum of the products of the four bytes of two words. -/
def dot4 (signed : Bool) (a b : Nat) : Int :=
  ((List.range 4).map (fun i => intN signed 8 (a >>> (8 * i)) * intN signed 8 (b >>> (8 * i)))).sum

def execVdot4 (f : LaneWord) (s : State) : Out :=
  let sg := isSigned f.tyN
  perLane (.vdot4 f) f 1 (fun w _ l =>
    let v := intN sg 32 (w.rd f f.c l) + dot4 sg (w.rd f f.a l) (w.rd f f.b l)
    if f.sat = 1 then satN sg 32 v else wrapN 32 v) s

/-! ## Bit forms (R230) -/

/-- A bit form on A and the second operand. -/
def bitForm (i : Instr) (f : LaneWord) (x : Nat → Nat → Nat) (s : State) : Out :=
  perLane i f (typeRegs f.tyN) (fun w _ l => x (w.rd f f.a l) (w.rdB f l) % 2 ^ opBits f) s

def execVshl (f : LaneWord) (s : State) : Out := bitForm (.vshl f) f (fun a b => a <<< (b % opBits f)) s
def execVshr (f : LaneWord) (s : State) : Out := bitForm (.vshr f) f (fun a b => a >>> (b % opBits f)) s
def execVsar (f : LaneWord) (s : State) : Out :=
  bitForm (.vsar f) f (fun a b => wrapN (opBits f) (signedNat (opBits f) a / (2 ^ (b % opBits f) : Nat))) s
def execVand (f : LaneWord) (s : State) : Out := bitForm (.vand f) f (fun a b => Nat.land a b) s
def execVor (f : LaneWord) (s : State) : Out := bitForm (.vor f) f (fun a b => Nat.lor a b) s
def execVxor (f : LaneWord) (s : State) : Out := bitForm (.vxor f) f (fun a b => Nat.xor a b) s
def execVnot (f : LaneWord) (s : State) : Out := bitForm (.vnot f) f (fun a _ => 2 ^ opBits f - 1 - a) s

/-- Bit i is the bit of the table that the three bits select. -/
def lop3 (table n a b c : Nat) : Nat :=
  (List.range n).foldl (fun r i =>
    r + (boolNat (table.testBit (4 * boolNat (a.testBit i) + 2 * boolNat (b.testBit i) + boolNat (c.testBit i)))) * 2 ^ i) 0

def execVlop3 (f : LaneWord) (s : State) : Out :=
  perLane (.vlop3 f) f (typeRegs f.tyN) (fun w _ l =>
    lop3 (f.extN 7 0) (opBits f) (w.rd f f.a l) (w.rd f f.b l) (w.rd f f.c l)) s

def execVpopc (f : LaneWord) (s : State) : Out :=
  perLane (.vpopc f) f 1 (fun w _ l => popcount (BitVec.ofNat (opBits f) (w.rd f f.a l))) s
def execVclz (f : LaneWord) (s : State) : Out :=
  perLane (.vclz f) f 1 (fun w _ l => clz (BitVec.ofNat (opBits f) (w.rd f f.a l))) s
def execVbrev (f : LaneWord) (s : State) : Out :=
  perLane (.vbrev f) f (typeRegs f.tyN) (fun w _ l => (bitrev (BitVec.ofNat (opBits f) (w.rd f f.a l))).toNat) s

/-- The control operand of the bit-field forms: one register, or EXT. -/
def bfCtl (w : Warp) (f : LaneWord) (l : Nat) : Nat := if f.imm then f.ext.toNat else (w.vReg f.b.toNat l).toNat

/-- Position and length of a bit field; none when it is empty. -/
def bfField (n ctl : Nat) : Option (Nat × Nat) :=
  let pos := ctl % 256
  let len := ctl / 256 % 256
  if n ≤ pos ∨ len = 0 then none else some (pos, min len (n - pos))

def execVbfx (f : LaneWord) (s : State) : Out :=
  perLane (.vbfx f) f (typeRegs f.tyN) (fun w _ l =>
    match bfField (opBits f) (bfCtl w f l) with
    | none => 0
    | some (pos, len) =>
      let x := w.rd f f.a l >>> pos % 2 ^ len
      if isSigned f.tyN then wrapN (opBits f) (signedNat len x) else x) s

def execVbfi (f : LaneWord) (s : State) : Out :=
  perLane (.vbfi f) f (typeRegs f.tyN) (fun w _ l =>
    let a := w.rd f f.a l
    match bfField (opBits f) (bfCtl w f l) with
    | none => a
    | some (pos, len) => a % 2 ^ pos + (w.rd f f.c l % 2 ^ len) * 2 ^ pos + a / 2 ^ (pos + len) * 2 ^ (pos + len)) s

/-! ## Moves and selection (R231) -/

def execVmov (f : LaneWord) (s : State) : Out := perLane (.vmov f) f (typeRegs f.tyN) (fun w _ l => w.rd f f.a l) s
def execVmovi (f : LaneWord) (s : State) : Out := perLane (.vmovi f) f (typeRegs f.tyN) (fun _ _ _ => extImm f) s
def execVmovs (f : LaneWord) (s : State) : Out :=
  perLane (.vmovs f) f (typeRegs f.tyN) (fun _ r _ =>
    (if f.imm then (r.aVal f.a.toNat).toNat else (r.sVal f.a.toNat).toNat) % 2 ^ opBits f) s
def execVsel (f : LaneWord) (s : State) : Out :=
  perLane (.vsel f) f (typeRegs f.tyN) (fun w _ l => if bitB (w.pred f.c.toNat) l then w.rd f f.a l else w.rd f f.b l) s
def execVlane (f : LaneWord) (s : State) : Out := perLane (.vlane f) f 1 (fun _ _ l => l) s

/-! ## Compare (R232) -/

def State.finishCmp (s : State) (f : LaneWord) : State :=
  if isInt f.tyN then
    let n := opBits f
    let sg := isSigned f.tyN
    let w := s.cw
    let m := activeMask w s.cp f
    let v := maskOf ((lanesOf m).filter (fun l => condV (f.mdN 3 1) (intN sg n (w.rd f f.a l)) (intN sg n (w.rdB f l))))
    (s.modW (fun w => w.setPred f.d.toNat m v 0)).advanceLane
  else
    let w := s.cw
    let rs : List FRes := (s.actLanes f).map (fun l =>
      let r := Float.cmp (Float.ofType f.tyN) (f.mdN 3 1) (element f.tyN 0 (w.rd f f.a l)) (element f.tyN 0 (w.rd f f.b l))
      (l, (boolNat r.1, r.2)))
    let bad := rs.filter (fun x => x.2.2 &&& s.run.traps ≠ 0)
    let good := rs.filter (fun x => x.2.2 &&& s.run.traps = 0)
    s.splitThen [arithSplit s bad] (fun s =>
      let s := s.raiseFlags (good.foldl (fun a x => a ||| x.2.2) 0)
      s.modW (fun w => w.setPred f.d.toNat (maskOf (good.map (·.1))) (maskOf ((good.filter (fun x => x.2.1 = 1)).map (·.1))) 0))

def execVcmp (f : LaneWord) (s : State) : Out := laneForm (.vcmp f) s (fun s => s.finishCmp f)

/-! ## Predicate forms (R238) -/

/-- A predicate operand, negated by a bit of MOD. -/
def predOp (w : Warp) (f : LaneWord) (r : BitVec 8) (neg : Nat) : Mask :=
  if bitB f.md neg then ~~~w.pred r.toNat else w.pred r.toNat

def predForm (i : Instr) (f : LaneWord) (g : Warp → Mask) (s : State) : Out :=
  perLanePred i f (fun w l => bitB (g w) l) s

def execPand (f : LaneWord) (s : State) : Out := predForm (.pand f) f (fun w => predOp w f f.a 1 &&& predOp w f f.b 2) s
def execPor (f : LaneWord) (s : State) : Out := predForm (.por f) f (fun w => predOp w f f.a 1 ||| predOp w f f.b 2) s
def execPxor (f : LaneWord) (s : State) : Out := predForm (.pxor f) f (fun w => predOp w f f.a 1 ^^^ predOp w f f.b 2) s
def execPnot (f : LaneWord) (s : State) : Out := predForm (.pnot f) f (fun w => ~~~w.pred f.a.toNat) s
def execPmov (f : LaneWord) (s : State) : Out :=
  predForm (.pmov f) f (fun w => if f.imm then w.predDs f.a.toNat else w.pred f.a.toNat) s

end Sys2Proof.Machine
end

