-- ==== Sys2Proof/Machine/Platform.lean ====
section
/-! DEFINITION. Errors (R358, R359, R362-R365), start-up and resets (R377-R381), attestation (R382, R383), and power (R386-
R388). -/

namespace Sys2Proof.Machine

/-! ## Uncorrectable and corrected errors (R358, R359, R362, R363) -/

/-- The context slot of an event that concerns none. -/
def noCtx : Nat := 0xFF

def State.uncorrectable (s : State) (x : ErrSite) : State :=
  match x with
  | .laneRegister wid r l =>
    if l < 128 then s.modWarp wid (fun w => { w with vpoison := w.vpoison.set (128 * r + l) 1 }) else s
  | .memory pa => s.modMem (fun m => { m with poison := m.poison.set (pa / 32) 1 })
  | .canvas die a => s.modMem (fun m => { m with canvasPoison := m.canvasPoison.set ((2 ^ 27 * die + a) / 32) 1 })
  | .scalarState wid => if (s.warps.find wid).isSome then (s.killWarp wid).checkLatch (coreOf wid) else s
  | .hubState => s.fatal 0x10 0 0 noCtx true
  | .contextState ctx => s.contextFault ctx 7 0

def execUncorrectableError (site : ErrSite) (s : State) : Out := plainForm s (fun s => s.uncorrectable site)

/-- A scheduler is rebuilt from its tables, or cannot be (R362). -/
def execSchedulerRebuild (core : Nat) (ok : Bool) (s : State) : Out :=
  plainForm s (fun s =>
    if ok then s.devError 0 4 (core / 200) (core % 200) noCtx false else s.fatal 0x11 (core / 200) (core % 200) noCtx false)

/-- An error that the hardware corrected; die 8 is the hub. -/
def execEccCorrected (die core : Nat) (s : State) : Out :=
  plainForm s (fun s => s.devError 0 1 (if die < 8 then die else 0) core noCtx (decide (8 ≤ die)))

/-- DEVPOP removes the oldest entry (R363). -/
def State.popLog (s : State) (v : DWord) : State :=
  if bitB v 63 then { s with hub := { s.hub with deverr := s.hub.deverr.drop 1 } } else s

def execDevpop (v : DWord) (s : State) : Out := .next (s.popLog v)

/-! ## The security alarm (R365, R380, R382) -/

/-- The policy erases the key store, as any alarm does before the record is accepted (R365, R380). -/
def State.erases (s : State) : Bool := !s.plat.accepted || bitB s.plat.record3 63

def State.alarm (s : State) : State :=
  let p := s.plat
  let s := { s with plat := { p with alarm := true, erased := p.erased || s.erases, keyStore := p.keyStore && !s.erases } }
  s.fatal 0x12 0 0 noCtx true

def execSecurityAlarm (s : State) : Out := eventForm .securityAlarm s State.alarm

def execMeasurementCheck (matches_ : Bool) (s : State) : Out := plainForm s (fun s => if matches_ then s else s.alarm)

/-! ## Attestation (R382, R383) -/

/-- MODSTAT bits 63 to 59 (R378). -/
def Platform.status (p : Platform) : BitVec 5 :=
  BitVec.ofNat 5 (p.stage.toNat * 8 + boolNat p.fail * 4 + boolNat p.erased * 2 + boolNat p.alarm)

/-- Signatures of one generation, and generations of the identity key. -/
def keyLimit : Nat := 2 ^ 30

/-- The record's body in flash (R380). -/
def Platform.body (p : Platform) : List DWord :=
  [p.record0, p.record1, p.record2, p.record3, p.record4, p.record5, p.record6, p.record7]

/-- What a response measures (R382). -/
def Platform.measurements (p : Platform) : List (BitVec 256) :=
  [Config.sha256 Config.bootRom, Config.sha256 Config.firmwareImage, Config.sha256 ((p.body.map (fun w => bytesOf 8 w.toNat)).flatten),
    Config.sha256 Config.runningFirmware]

/-- Digest of what a response says. -/
def responseDigest (ms : List (BitVec 256)) (nonce : BitVec 256) (version : Word) (status : BitVec 5) : BitVec 256 :=
  Config.sha256 ((ms.map (fun m => bytesOf 32 m.toNat)).flatten ++ bytesOf 32 nonce.toNat ++ bytesOf 4 version.toNat ++ bytesOf 1 status.toNat)

/-- The identity key certifies the key of a generation; its index has been advanced first (R381, R383). -/
def Platform.certify (p : Platform) (g : Nat) : Platform :=
  { p with
    generation := g, genIndex := 0, idIndex := p.idIndex + 1
    certificate := some { generation := g, index := p.idIndex, signature := Config.identitySignature p.idIndex (Config.attestationKey g) } }

/-- A response signed with the current attestation key, whose index has been advanced first (R381). -/
def Platform.sign (p : Platform) (nonce : BitVec 256) : Platform :=
  let ms := p.measurements
  let v := BitVec.ofNat 32 (bitsN p.record0 31 0)
  let r : Attestation := {
    measurements := ms, nonce := nonce, version := v, modstat := p.status, generation := p.generation
    signature := Config.signature p.generation p.genIndex (responseDigest ms nonce v p.status), certificate := p.certificate
    anchor := Config.identityCertificate }
  { p with genIndex := p.genIndex + 1, responses := r :: p.responses }

/-- A request: once the identity key is spent the answer carries no signature; else the current generation signs, or a new
one does that the identity key certifies (R383). -/
def Platform.attest (p : Platform) (nonce : BitVec 256) : Platform :=
  if keyLimit ≤ p.idIndex then { p with unsigned := p.unsigned + 1 }
  else if p.genIndex < keyLimit then p.sign nonce
  else (p.certify (p.generation + 1)).sign nonce

def execAttestationRequest (nonce : BitVec 256) (s : State) : Out :=
  plainForm s (fun s => if s.plat.live && 1 ≤ s.plat.stage.toNat then { s with plat := s.plat.attest nonce } else s)

/-! ## Reset (R377, R378, R381) -/

/-- What every reset keeps of the platform: the flash and the replay-protected counters. DEDUCED (log 133): ERASED is kept by
the reset that ends an alarm, after which it shows whether the key store was lost (R382), and cleared by any other. -/
def Platform.kept (p : Platform) : Platform :=
  { record0 := p.record0, record1 := p.record1, record2 := p.record2, record3 := p.record3, record4 := p.record4
    record5 := p.record5, record6 := p.record6, record7 := p.record7, certificate := p.certificate, version := p.version
    generation := p.generation, genIndex := p.genIndex, idIndex := p.idIndex, keyStore := p.keyStore, erased := p.erased && p.alarm
    responses := p.responses, unsigned := p.unsigned }

/-- The drawer, which is no part of the module, with its counts. -/
def Mem.drawerOnly (m : Mem) : Mem :=
  { bytes := m.bytes.filter (fun b => isDrawer b.1)
    poison := m.poison.filter (fun b => isDrawer (b.1 * 32))
    counts := m.counts.filter (fun b => isDrawer (b.1 * 4096)) }

/-- The module at the start of stage 0; the near tier keeps what it held until stage 1 zeroes it. -/
def State.resetAll (s : State) (nearLost held : Bool) : State :=
  { State.reset with
    plat := { s.plat.kept with inReset := held }
    mem := if nearLost then s.mem.drawerOnly else { s.mem.drawerOnly with bytes := s.mem.bytes, poison := s.mem.poison }
    agenda := s.agenda, freeCtr := s.freeCtr, tick := s.tick, names := s.names }

def execConventionalReset (s : State) : Out := .next (s.resetAll false true)
def execPowerLoss (s : State) : Out := .next (s.resetAll true true)

/-- Reset is released and stage 0 begins. -/
def execResetRelease (s : State) : Out :=
  .next (if s.plat.inReset then { s with plat := { s.plat with inReset := false } } else s)

/-- A write of 1 to bit 63 of MODRST. -/
def execModrst (v : DWord) (s : State) : Out := .next (if bitB v 63 then s.resetAll false false else s)

/-! ## Stages (R377-R380) -/

/-- A configuration record whose fields are in range and whose reserved bits are 0 (R380). -/
def Platform.recordOk (p : Platform) : Bool :=
  let base := bitsN p.record2 63 32
  let size := bitsN p.record2 31 0
  bitsN p.record0 63 32 == 0x4C584346 && bitsN p.record1 63 56 != 0 && bitsN p.record1 55 48 == 0
    && decide (1000 ≤ bitsN p.record1 47 32 ∧ bitsN p.record1 47 32 ≤ 3400) && decide (1 ≤ size ∧ base + size ≤ 16384)
    && bitsN p.record3 62 56 == 0 && bitsN p.record3 47 46 != 3 && decide (1 ≤ bitsN p.record3 45 38 ∧ bitsN p.record3 45 38 ≤ 192)
    && bitsN p.record3 37 0 == 0 && [p.record4, p.record5, p.record6, p.record7].all (· == 0)

/-- Why firmware or record is refused: a signature, which is checked outside the model's sight, the record's own faults, or
its VERSION (R379, R380). -/
def Platform.refusal (p : Platform) (fcode : BitVec 8) : BitVec 8 :=
  if fcode = 1 then 1
  else if fcode = 2 || !p.recordOk then 2
  else if bitsN p.record0 31 0 < p.version.toNat then 3
  else 0

/-- The record is accepted, and a higher VERSION raises the counter (R379). -/
def Platform.accept (p : Platform) : Platform := { p with accepted := true, version := BitVec.ofNat 32 (bitsN p.record0 31 0) }

/-- The stage in progress fails, and the module holds what is already live. -/
def Platform.failed (p : Platform) (fcode : BitVec 8) : Platform := { p with fail := true, fcode := fcode }

/-- Stage 1 succeeds: dies enabled, the near tier zeroed, carve-outs reserved, generation 0 certified once. -/
def State.stage1 (s : State) : State :=
  let p := s.plat
  let p := if p.certificate.isNone then p.certify 0 else p
  { s with
    plat := { p with
      stage := 1, dieup := BitVec.ofNat 8 (bitsN p.record1 63 56)
      carved := [(Config.carveOut 0, 3072), (Config.carveOut 1, Config.carveOut 2)] }
    mem := s.mem.drawerOnly }

/-- Stage 1 ends: a refusal, or with the record accepted a failure of the near tier's zeroing or of a die, or success. -/
def State.endStage1 (s : State) (fcode : BitVec 8) : State :=
  let k := s.plat.refusal fcode
  if k ≠ 0 then { s with plat := s.plat.failed k }
  else
    let s := { s with plat := s.plat.accept }
    if fcode = 4 ∨ fcode = 5 then { s with plat := s.plat.failed fcode } else s.stage1

/-- Every link after stage 2 (R90). -/
def trainedLinks : Tab Link := (List.range 32).map (fun n => (n, {}))

/-- Stage 2 ends: every link is in RUN at width 8, or training failed. -/
def State.stage2 (s : State) (fcode : BitVec 8) (up : BitVec 32) : State :=
  let p := { s.plat with linkup := up }
  if fcode ≠ 0 then { s with plat := p.failed fcode }
  else if up ≠ BitVec.allOnes 32 then { s with plat := p.failed 6 }
  else { s with plat := { p with stage := 2, ready := true }, links := trainedLinks }

/-- The stage in progress is complete, or has failed. -/
def State.stageDone (s : State) (fcode : BitVec 8) (up : BitVec 32) : State :=
  let p := s.plat
  if p.inReset || p.fail then s
  else if !p.live then { s with plat := { p with live := true } }
  else if p.stage = 0 then s.endStage1 fcode
  else if p.stage = 1 then s.stage2 fcode up
  else s

def execStageComplete (fcode : BitVec 8) (linkUp : BitVec 32) (s : State) : Out := eventForm (.stageComplete fcode linkUp) s (fun s => s.stageDone fcode linkUp)

/-! ## Power (R386-R388) -/

/-- A core that holds no team is power-gated, and its translations are gone, its slice of the L2 TLB with them (R20, R26,
R387). -/
def State.gate (s : State) (core : Nat) : State :=
  if core < 1600 && s.coreTeams core == 0 then
    ({ s with l2 := s.l2.erase core } : State).modCore core (fun c => { c with gated := true, tlb := [], l1 := [], records := [] })
  else s

def execCorePowerGate (core : Nat) (s : State) : Out := eventForm (.corePowerGate core) s (fun s => s.gate core)

/-- A gated core wakes for a deal (R387). -/
def State.wakeCore (s : State) (core : Nat) : State := s.modCore core (fun c => { c with gated := false })

def execCoreWake (core : Nat) (s : State) : Out :=
  eventForm (.coreWake core) s (fun s => if (s.core core).gated then s.wakeCore core else s)

/-- The module's power lies over its limit, by the readings of its dies and what else it draws (R3, R386, log 132). -/
def State.overPower (s : State) : Bool :=
  decide (bitsN s.plat.record1 47 32
    < ((List.range 8).map (fun d => (s.plat.watts.get d).toNat)).foldl (· + ·) 0 + Config.otherPower s.tick)

/-- The governor chooses a point for a die and the change begins; the power it measured shows in PWRDIE. While the module lies
over its limit, the governor lowers the die's point, to one step less at least, and raises none (R3, R386). -/
def State.govern (s : State) (die : Nat) (point : BitVec 2) (watts : BitVec 16) : State :=
  if 8 ≤ die then s
  else
    let s := { s with plat := { s.plat with watts := s.plat.watts.set die watts } }
    let p := s.plat
    let now := p.points.get die
    let lower := BitVec.ofNat 2 (min 3 (now.toNat + 1))
    let point := if s.overPower && decide (point < lower) then lower else point
    if point = now || (p.changing.find die).isSome then s else { s with plat := { p with changing := p.changing.put die point } }

def execPowerGovernorDecision (die : Nat) (point : BitVec 2) (watts : BitVec 16) (s : State) : Out :=
  plainForm s (fun s => s.govern die point watts)

/-- A change of point is complete. -/
def State.pointChanged (s : State) (die : Nat) : State :=
  match s.plat.changing.find die with
  | some x => { s with plat := { s.plat with points := s.plat.points.set die x, changing := s.plat.changing.erase die } }
  | none => s

def execOperatingPointChange (die : Nat) (s : State) : Out := eventForm (.operatingPointChange die) s (fun s => s.pointChanged die)

/-- A junction at 105 °C: a fatal error, and every compute die loses its power with all it held. -/
def State.trip (s : State) (die : Nat) : State :=
  let s := s.fatal 0x15 die 0 noCtx false
  { s with
    cores := [], warps := s.warps.filter (fun w => w.1 = puWid), teams := []
    mem := { s.mem with canvas := [], canvasPoison := [], canvasStamps := [] } }

def execThermalTrip (die : Nat) (s : State) : Out := plainForm s (fun s => s.trip die)

end Sys2Proof.Machine
end

