-- ==== Sys2Proof/Machine/Poll.lean ====
section
/-! DEFINITION. What completes later than its instruction issued: a request that waited outside a full drawer queue enters it
(R82), and forms with lookahead do what they still have to do while their windows run (R45): an engine entry its queue
had no place for, a QWAIT, a settle and a reap (R113, R169, R266, R305). -/

namespace Sys2Proof.Machine

/-! ## Requests from outside a queue (R82) -/

/-- The requests of a path's access outside a queue enter, one by one; its last accepts it. -/
def State.enterAccess (s : State) (wid k : Nat) (r : Req) (m : Mask) : State :=
  match (s.pathAt wid k).bind (·.access) with
  | none => s
  | some a =>
    if !a.outside.contains r.id then s
    else
      let x := ({ s with cur := (wid, k) }).enterPart a r m
      x.1.keepAccess x.2

/-- A request of the entry at the head of an engine queue enters: a read is on its way, and the bytes of a write are
performed; a write's segment is done with the last of its requests (R366). -/
def State.enterEngine (s : State) (core q : Nat) (r : Req) (xs : List (Nat × Byte × Bool)) : State :=
  match s.engHead core q with
  | none => s
  | some e =>
    if !e.outside.contains r.id then s
    else
      let x := s.engEnter { e with outside := e.outside.filter (· ≠ r.id) } r xs
      x.1.engPutDone core q x.2

/-- What has waited longest outside a queue enters it when an entry is free (R82). -/
def State.enqueueReq (s : State) (n : Nat) : State :=
  let l := s.link n
  match l.waiting with
  | [] => s
  | w :: ws =>
    if 192 ≤ l.queue.length then s
    else
      let s := s.modLink n (fun l => { l with waiting := ws })
      match w with
      | .posted r => s.enter r
      | .hub t r => { s.enter r with paid := s.paid ++ [(t, s.entered r)] }
      | .access wid k r m => s.enterAccess wid k r m
      | .engine core q r xs => s.enterEngine core q r xs

def execDrawerRequestEnqueue (link : Nat) (s : State) : Out := eventForm (.drawerRequestEnqueue link) s (fun s => s.enqueueReq link)

/-! ## Windows -/

/-- The first window of the issuing path equal to one becomes another. -/
def State.setWindow (s : State) (d e : Window) : State :=
  s.modP (fun p => { p with windows := match p.windows.findIdx? (fun x => decide (x = d)) with
    | some i => p.windows.set i e
    | none => p.windows })

/-- A pending engine entry enters its queue once there is a place (R266). -/
def State.pollEngine (s : State) (d : Window) (q : Nat) (e : EngEntry) : State :=
  let core := coreOf s.cur.1
  if s.queueFull core q then s
  else (s.modQ core q (fun x => { x with entries := x.entries ++ [e] })).setWindow d { d with pend := none }

/-- A QWAIT completes once every entry it found has retired (R169). -/
def State.pollQwait (s : State) (d : Window) (ids : List Nat) : State :=
  if (s.unretired ids).isEmpty then s.qwaitDone.setWindow d { d with pend := none } else s

/-- A settle acts once the runs enqueued before it are done and every access before it is performed (R103, R113). -/
def State.pollSettle (s : State) (d : Window) (n dest : Nat) (runs : List Nat) : State :=
  let before := s.cp.windows.takeWhile (fun x => decide (x ≠ d)) ++ s.cp.windows.filter (·.lane)
  if s.cp.queue.any (fun r => runs.contains r.id) || !before.all Window.complete then s
  else
    let r := s.settleCount n
    r.1.setWindow d { d with writes := [.s dest r.2], pend := none }

/-- A step of a path's reap: a part of a plot, or its end with the bound as its result (R305). -/
def State.pollReap (s : State) (d : Window) (id dest : Nat) : State :=
  match s.reaps.find id with
  | none => s.setWindow d { d with pend := none }
  | some r =>
    let t := s.attempt (.reap id)
    (if r.pos < r.count then t.reapCopy id
     else ((t.endReap id r).acquireP 2 [none]).setWindow d { d with writes := [.s dest (r.bound.setWidth 64)], pend := none }).orWait t (.reap id)

/-- What one window still has to do. -/
def State.pollWindow (s : State) (d : Window) : State :=
  match d.pend with
  | none => s
  | some (.engine q e) => s.pollEngine d q e
  | some (.qwait ids _) => s.pollQwait d ids
  | some (.settle n dest runs) => s.pollSettle d n dest runs
  | some (.reap id dest) => s.pollReap d id dest

/-- The windows of one path, in the order they opened; those that a faulting access has sent away are left. -/
def State.pollPath (s : State) (wid k : Nat) : State :=
  match s.pathAt wid k with
  | none => s
  | some p =>
    (p.windows.filter (·.pend.isSome)).foldl (fun s d => if s.cp.windows.contains d then ({ s with cur := (wid, k) }).pollWindow d else s)
      ({ s with cur := (wid, k) })

/-- The paths of a warp may act: its context issues, its core is not gated, and no fatal error has stopped the module. -/
def State.warpActs (s : State) (wid : Nat) (w : Warp) : Bool :=
  let st := (s.ctx w.ctx).st
  !s.hub.fatal && decide (st = .running ∨ st = .draining ∨ st = .drained) && (wid == puWid || !(s.core (coreOf wid)).gated)

/-- Places of a warp whose paths have something pending. -/
def Warp.pending (w : Warp) : List Nat :=
  w.places.filter (fun k => match w.slot k with | some p => p.windows.any (·.pend.isSome) | none => false)

/-- Every pending form does what it can, reaps that nothing waits for end, and accesses that links in RETRAIN do not take split
(R94). -/
def State.pollAll (s : State) : State :=
  let cur := s.cur
  let s := s.warps.foldl (fun s w =>
    if s.warpActs w.1 w.2 then w.2.pending.foldl (fun s k => s.pollPath w.1 k) s else s) s
  let s := s.reaps.foldl (fun s r => if s.reapLive r.1 r.2 then s else s.dropReap r.1 r.2) s
  let s := s.links.foldl (fun s l => s.splitWaiting l.1) s
  { s with cur := cur }

end Sys2Proof.Machine
end

