-- ==== Sys2Proof/Machine/Registers.lean ====
section
/-! DEFINITION. The hub control window (R309): where each register lies, who may write it, and what a write leaves. -/

namespace Sys2Proof.Machine

/-! ## Registers in two sets (R24, R117, R295) -/

/-- Number of the Policy Core among the functions that reach the window: it has the physical function's layout with its own
set of these registers, set 0; set 1 is the physical function's (R309). -/
def policyCore : Nat := 17

/-- The function whose layout a party reaches, and its set. -/
def layoutOf (fn : Nat) : Nat := if fn = policyCore then 0 else fn
def setOf (fn : Nat) : Nat := if fn = policyCore then 0 else 1

/-- A write of RHCMD with GO, at once or when a drawer link takes what it writes. -/
def State.rehomeWrite (s : State) (set : Nat) (v : DWord) : State := (s.rehomeGo set v).orWait s (.event (.rehome set v))

/-- Shoot-down, tree and re-home registers of a set. -/
def State.writeSets (s : State) (k r : Nat) (v : DWord) : State :=
  match r with
  | 0x100 => s.modSet k (fun x => { x with xsaddr := putBits v 7 0 0 })
  | 0x108 => if bitB v 63 then s.shootGo k v else s.modSet k (fun x => { x with xscmd := putBits v 49 32 0 })
  | 0x110 => if bitB v 62 then s.modSet k (fun x => { x with xserr := false }) else s
  | 0x200 => if bitB v 63 then s.ctGo k v else s.modSet k (fun x => { x with ctcmd := putBits (putBit v 60 false) 49 20 0 })
  | 0x208 => s.modSet k (fun x => { x with ctaddr := putBits v 63 60 0 })
  | 0x210 => if bitB v 62 then s.modSet k (fun x => { x with cterr := false }) else s
  | 0x300 => if bitB v 63 then s.rehomeWrite k v else s.modSet k (fun x => { x with rhcmd := putBits (putBits v 62 59 0) 49 20 0 })
  | 0x308 => if bitB v 62 then s.modSet k (fun x => { x with rherr := false }) else s
  | _ => s

/-! ## Link registers (R87, R90) -/

def Link.write (l : Link) (r : Nat) (v : DWord) : Link :=
  if r = 0 then l.writeDlctl v
  else if 0x10 ≤ r ∧ r < 0x90 then { l with shadow := l.shadow.put ((r - 0x10) / 8) v }
  else if r = 0x90 then l.commit v
  else if r = 0x98 then (if bitB v 63 then { l with err := false } else l)
  else l

/-! ## Mailboxes (R335) -/

def State.writeBox (s : State) (mb r : Nat) (v : DWord) : State :=
  if r = 0 then
    if bitB v 63 then s.meGo mb v
    else s.modBox mb (fun b => { b with cmd := v })
  else s.boxWrite mb (r / 8) v

/-! ## Context blocks (R310, R311, R343, R351, R360, R370, R374) -/

/-- Registers written only while RUN is 0. -/
def Ctx.writeStill (c : Ctx) (r : Nat) (v : DWord) : Ctx :=
  if bitB c.cfg 62 then c
  else
    match r with
    | 0x08 => { c with xdesc := v }
    | 0x10 => { c with ttab := putBits v 5 0 0 }
    | 0x18 => { c with seed := if v = 0 then 1 else v }
    | 0x20 => { c with textbase := putBits v 15 0 0 }
    | 0x28 => { c with lanebase := putBits v 15 0 0 }
    | 0x58 => { c with ras := bitB v 0 }
    | _ => c

/-- Registers of a block that take their value as written. -/
def Ctx.writePlain (c : Ctx) (r : Nat) (v : DWord) : Ctx :=
  match r with
  | 0x30 => { c with trap := putBits v 62 32 0 }
  | 0x38 => { c with preOp := BitVec.ofNat 3 (preOpOf v), deadline := BitVec.ofNat 32 (bitsN v 31 0) }
  | 0x40 => if bitB v 59 then { c with preErr := false } else c
  | 0x48 => { c with save := putBits (putBits v 63 52 0) 15 0 0 }
  | 0x68 => { c with dbgcmd := putBits (putBits v 59 58 0) 40 18 0 }
  | 0x70 => { c with trbase := putBits v 5 0 0 }
  | 0x78 => { c with trctl := putBits (putBits c.trctl 31 16 (bitsN v 31 16)) 7 0 (bitsN v 7 0) }
  | _ => c

/-- Breakpoints and watch ranges. -/
def Ctx.writeDebug (c : Ctx) (r : Nat) (v : DWord) : Ctx :=
  if 0x80 ≤ r ∧ r < 0xC0 then { c with dbgbp := c.dbgbp.set ((r - 0x80) / 8) v }
  else if 0xC0 ≤ r ∧ r < 0x100 then { c with dbgwa := c.dbgwa.set ((r - 0xC0) / 8) v }
  else c

/-- A queue register (R311, R312). -/
def State.writeQueue (s : State) (ctx q r : Nat) (v : DWord) : State :=
  let en := (s.queue ctx q).en
  match r with
  | 0x00 => s.modQueue ctx q (fun x => if en then { x with err := true } else { x with qbase := putBits v 5 0 0 })
  | 0x08 => s.writeQcfg ctx q v
  | 0x10 => s.modQueue ctx q (fun x => if en then { x with err := true } else { x with qhwb := putBits v 2 0 0 })
  | 0x18 => s.qtailStep ctx q v
  | 0x28 => if bitB v 60 then s.modQueue ctx q (fun x => { x with err := false }) else s
  | _ => s

/-- A register of a context block. -/
def State.writeBlock (s : State) (fn ctx r : Nat) (v : DWord) : State :=
  if !s.ownsCtx fn ctx then s
  else if 0x400 ≤ r ∧ r < 0x800 then s.writeQueue ctx ((r - 0x400) / 64) ((r - 0x400) % 64) v
  else if 0x80 ≤ r ∧ r < 0x100 then s.modCtx ctx (fun c => c.writeDebug r v)
  else if r = 0 then s.writeCtxcfg fn ctx v
  else if r < 0x30 ∨ r = 0x58 then s.modCtx ctx (fun c => c.writeStill r v)
  else if r = 0x38 && bitB v 63 then s.preGo ctx v
  else if r = 0x60 then s.writeDbgctl ctx v
  else if r = 0x68 && bitB v 63 then s.dbgGo ctx v
  else s.modCtx ctx (fun c => c.writePlain r v)

/-! ## The window (R309) -/

/-- Registers of the physical function alone, with a set of those that come in two. -/
def State.writePf (s : State) (set r : Nat) (v : DWord) : State :=
  if r < 0x400 then s.writeSets set r v
  else if r = 0x400 then { s with hub := { s.hub with meClass := BitVec.ofNat 4 (bitsN v 3 0) } }
  else if r = 0x508 then s.popLog v
  else if r = 0x600 then s.writePrfsel v
  else if r = 0x708 then (if bitB v 63 then s.resetAll false false else s)
  else if 0x800 ≤ r ∧ r < 0xA00 then s.writeSsown 0 ((r - 0x800) / 8) v
  else if 0x10000 ≤ r ∧ r < 0x12000 then s.modLink ((r - 0x10000) / 256) (·.write ((r - 0x10000) % 256) v)
  else s

/-- What a fatal error leaves of the window: the error log, the histogram and the reset (R363, R364). -/
def liveWhenFatal (r : Nat) : Bool := r == 0x508 || r == 0x600 || r == 0x708

/-- A write at an offset of a function's window; one that is not aligned, or to what the function does not have, is
ignored. -/
def State.writeReg (s : State) (fn r : Nat) (v : DWord) : State :=
  if r % 8 ≠ 0 || (s.hub.fatal && !liveWhenFatal r) then s
  else if 0x20000 ≤ r ∧ r < 0x20200 then s.writeBox (8 * layoutOf fn + (r - 0x20000) / 64) ((r - 0x20000) % 64) v
  else if 0x40000 ≤ r ∧ r < 0x140000 then s.writeBlock (layoutOf fn) ((r - 0x40000) / 4096) ((r - 0x40000) % 4096) v
  else if layoutOf fn = 0 then s.writePf (setOf fn) r v
  else s

/-- A write of a size in bytes: one of another size than 8 is ignored (R309). -/
def State.hostWrite (s : State) (fn r size : Nat) (v : DWord) : State := if size = 8 then s.writeReg fn r v else s

/-- The row is a write of 8 bytes. -/
def execRegisterWrite (fn offset : Nat) (v : DWord) (s : State) : Out := .next (s.hostWrite fn offset 8 v)

end Sys2Proof.Machine
end

