-- ==== Sys2Proof/Machine/ScalarInt.lean ====
section
/-! DEFINITION. Meanings of the scalar integer and address forms (R201-R207). -/

namespace Sys2Proof.Machine

/-- A form that writes one scalar register (R203). -/
def toS (i : Instr) (d : BitVec 6) (g : State → DWord) (s : State) : Out := scalarOp i s (fun s => s.setS d (g s))
/-- A form that writes one condition register. -/
def toQ (i : Instr) (d : BitVec 3) (g : State → Bool) (s : State) : Out := scalarOp i s (fun s => s.setQ d (g s))
/-- A form that writes one address register. -/
def toA (i : Instr) (d : BitVec 4) (g : State → VAddr) (s : State) : Out := scalarOp i s (fun s => s.setA d (g s))

def execSadd (d a b : BitVec 6) (s : State) : Out := toS (.sadd d a b) d (fun s => s.sReg a + s.sReg b) s
def execSsub (d a b : BitVec 6) (s : State) : Out := toS (.ssub d a b) d (fun s => s.sReg a - s.sReg b) s
def execSmul (d a b : BitVec 6) (s : State) : Out := toS (.smul d a b) d (fun s => s.sReg a * s.sReg b) s

/-- Bits 127-64 of the exact product. -/
def mulHigh (unsigned : Bool) (a b : DWord) : DWord :=
  if unsigned then BitVec.ofNat 64 (a.toNat * b.toNat / 2 ^ 64) else BitVec.ofInt 64 (a.toInt * b.toInt / 2 ^ 64)

/-- Quotient toward zero; all ones by zero (R203). -/
def quotient (unsigned : Bool) (a b : DWord) : DWord :=
  if b = 0 then BitVec.allOnes 64 else if unsigned then a / b else BitVec.sdiv a b

/-- A - B × quotient; A by zero (R203). -/
def remainder (unsigned : Bool) (a b : DWord) : DWord := if b = 0 then a else a - b * quotient unsigned a b

def lessS (unsigned : Bool) (a b : DWord) : Bool :=
  if unsigned then decide (a.toNat < b.toNat) else decide (a.toInt < b.toInt)

def execSmulh (d a b : BitVec 6) (u : BitVec 1) (s : State) : Out :=
  toS (.smulh d a b u) d (fun s => mulHigh (u == 1) (s.sReg a) (s.sReg b)) s
def execSdiv (d a b : BitVec 6) (u : BitVec 1) (s : State) : Out :=
  toS (.sdiv d a b u) d (fun s => quotient (u == 1) (s.sReg a) (s.sReg b)) s
def execSrem (d a b : BitVec 6) (u : BitVec 1) (s : State) : Out :=
  toS (.srem d a b u) d (fun s => remainder (u == 1) (s.sReg a) (s.sReg b)) s
def execSand (d a b : BitVec 6) (s : State) : Out := toS (.sand d a b) d (fun s => s.sReg a &&& s.sReg b) s
def execSor (d a b : BitVec 6) (s : State) : Out := toS (.sor d a b) d (fun s => s.sReg a ||| s.sReg b) s
def execSxor (d a b : BitVec 6) (s : State) : Out := toS (.sxor d a b) d (fun s => s.sReg a ^^^ s.sReg b) s
def execSshl (d a b : BitVec 6) (s : State) : Out :=
  toS (.sshl d a b) d (fun s => s.sReg a <<< ((s.sReg b).toNat % 64)) s
def execSshr (d a b : BitVec 6) (s : State) : Out :=
  toS (.sshr d a b) d (fun s => s.sReg a >>> ((s.sReg b).toNat % 64)) s
def execSsar (d a b : BitVec 6) (s : State) : Out :=
  toS (.ssar d a b) d (fun s => (s.sReg a).sshiftRight ((s.sReg b).toNat % 64)) s
def execSmin (d a b : BitVec 6) (u : BitVec 1) (s : State) : Out :=
  toS (.smin d a b u) d (fun s => if lessS (u == 1) (s.sReg b) (s.sReg a) then s.sReg b else s.sReg a) s
def execSmax (d a b : BitVec 6) (u : BitVec 1) (s : State) : Out :=
  toS (.smax d a b u) d (fun s => if lessS (u == 1) (s.sReg a) (s.sReg b) then s.sReg b else s.sReg a) s
def execSpopc (d a : BitVec 6) (s : State) : Out :=
  toS (.spopc d a) d (fun s => BitVec.ofNat 64 (popcount (s.sReg a))) s
def execSclz (d a : BitVec 6) (s : State) : Out := toS (.sclz d a) d (fun s => BitVec.ofNat 64 (clz (s.sReg a))) s
def execSmov (d a : BitVec 6) (s : State) : Out := toS (.smov d a) d (fun s => s.sReg a) s
def execSsel (d a b : BitVec 6) (n : BitVec 3) (s : State) : Out :=
  toS (.ssel d a b n) d (fun s => if s.qReg n then s.sReg a else s.sReg b) s
def execScmp (d : BitVec 3) (a b : BitVec 6) (c : BitVec 3) (s : State) : Out :=
  toQ (.scmp d a b c) d (fun s => condS c.toNat (s.sReg a) (s.sReg b)) s

/-! ## Immediate forms (R205, R206) -/

def execSaddi (d a : BitVec 6) (i : BitVec 14) (s : State) : Out :=
  toS (.saddi d a i) d (fun s => s.sReg a + i.signExtend 64) s
def execSandi (d a : BitVec 6) (i : BitVec 14) (s : State) : Out :=
  toS (.sandi d a i) d (fun s => s.sReg a &&& i.signExtend 64) s
def execSori (d a : BitVec 6) (i : BitVec 14) (s : State) : Out :=
  toS (.sori d a i) d (fun s => s.sReg a ||| i.signExtend 64) s
def execSxori (d a : BitVec 6) (i : BitVec 14) (s : State) : Out :=
  toS (.sxori d a i) d (fun s => s.sReg a ^^^ i.signExtend 64) s
def execSshli (d a : BitVec 6) (i : BitVec 6) (s : State) : Out :=
  toS (.sshli d a i) d (fun s => s.sReg a <<< i.toNat) s
def execSshri (d a : BitVec 6) (i : BitVec 6) (s : State) : Out :=
  toS (.sshri d a i) d (fun s => s.sReg a >>> i.toNat) s
def execSsari (d a : BitVec 6) (i : BitVec 6) (s : State) : Out :=
  toS (.ssari d a i) d (fun s => (s.sReg a).sshiftRight i.toNat) s
def execScmpi (d : BitVec 3) (a : BitVec 6) (c : BitVec 3) (i : BitVec 11) (s : State) : Out :=
  toQ (.scmpi d a c i) d (fun s => condS c.toNat (s.sReg a) (i.signExtend 64)) s
def execSlui (d : BitVec 6) (i : BitVec 20) (s : State) : Out :=
  toS (.slui d i) d (fun s => s.sReg d <<< 20 + i.setWidth 64) s

/-! ## Address forms (R207) -/

/-- An address sum: within 0 to 2^72 - 1 it is written, else a path fault "wrap" that leaves the register.
DEDUCED (log 17): no address applies to it, so sys.faddr reads 0 (R345). -/
def State.addA (s : State) (d a : BitVec 4) (x : Int) : State :=
  let v := ((s.aReg a).toNat : Int) + x
  if v < 0 ∨ (2 ^ 72 : Nat) ≤ v then s.pathFaultOr 6 2 1 0 else (s.setA d (BitVec.ofInt 72 v)).advance

def execAadd (d a : BitVec 4) (b : BitVec 6) (s : State) : Out :=
  scalarForm (.aadd d a b) s (fun s => s.addA d a (s.sReg b).toInt)
def execAaddi (d a : BitVec 4) (i : BitVec 14) (s : State) : Out :=
  scalarForm (.aaddi d a i) s (fun s => s.addA d a i.toInt)
def execAsub (d : BitVec 6) (a b : BitVec 4) (s : State) : Out :=
  toS (.asub d a b) d (fun s => BitVec.ofNat 64 (satN true 64 ((s.aReg a).toNat - (s.aReg b).toNat : Int))) s
def execAset (d : BitVec 4) (a : BitVec 6) (s : State) : Out := toA (.aset d a) d (fun s => (s.sReg a).setWidth 72) s
def execAsetW (d : BitVec 4) (a b : BitVec 6) (s : State) : Out :=
  toA (.asetW d a b) d (fun s => (s.sReg b).setWidth 8 ++ s.sReg a) s
def execAget (d : BitVec 6) (a : BitVec 4) (s : State) : Out := toS (.aget d a) d (fun s => (s.aReg a).setWidth 64) s
def execAgetHi (d : BitVec 6) (a : BitVec 4) (s : State) : Out :=
  toS (.agetHi d a) d (fun s => (s.aReg a >>> 64).setWidth 64) s
def execAcmp (d : BitVec 3) (a b : BitVec 4) (c : BitVec 3) (s : State) : Out :=
  toQ (.acmp d a b c) d (fun s => condA c.toNat (s.aReg a) (s.aReg b)) s

end Sys2Proof.Machine
end

