-- ==== Sys2Proof/Machine/Dispatch.lean ====
section
/-! DEFINITION. What each instruction does: one arm per constructor of Instr. -/

namespace Sys2Proof.Machine

def exec (i : Instr) (s : State) : Host.Outcome State Fault Refusal :=
  match i with
  | .sadd d a b => Sys2Proof.Machine.execSadd d a b s
  | .ssub d a b => Sys2Proof.Machine.execSsub d a b s
  | .smul d a b => Sys2Proof.Machine.execSmul d a b s
  | .smulh d a b u => Sys2Proof.Machine.execSmulh d a b u s
  | .sdiv d a b u => Sys2Proof.Machine.execSdiv d a b u s
  | .srem d a b u => Sys2Proof.Machine.execSrem d a b u s
  | .sand d a b => Sys2Proof.Machine.execSand d a b s
  | .sor d a b => Sys2Proof.Machine.execSor d a b s
  | .sxor d a b => Sys2Proof.Machine.execSxor d a b s
  | .sshl d a b => Sys2Proof.Machine.execSshl d a b s
  | .sshr d a b => Sys2Proof.Machine.execSshr d a b s
  | .ssar d a b => Sys2Proof.Machine.execSsar d a b s
  | .smin d a b u => Sys2Proof.Machine.execSmin d a b u s
  | .smax d a b u => Sys2Proof.Machine.execSmax d a b u s
  | .spopc d a => Sys2Proof.Machine.execSpopc d a s
  | .sclz d a => Sys2Proof.Machine.execSclz d a s
  | .smov d a => Sys2Proof.Machine.execSmov d a s
  | .ssel d a b n => Sys2Proof.Machine.execSsel d a b n s
  | .scmp d a b c => Sys2Proof.Machine.execScmp d a b c s
  | .aadd d a b => Sys2Proof.Machine.execAadd d a b s
  | .asub d a b => Sys2Proof.Machine.execAsub d a b s
  | .aset d a => Sys2Proof.Machine.execAset d a s
  | .asetW d a b => Sys2Proof.Machine.execAsetW d a b s
  | .aget d a => Sys2Proof.Machine.execAget d a s
  | .agetHi d a => Sys2Proof.Machine.execAgetHi d a s
  | .acmp d a b c => Sys2Proof.Machine.execAcmp d a b c s
  | .saddi d a imm => Sys2Proof.Machine.execSaddi d a imm s
  | .sandi d a imm => Sys2Proof.Machine.execSandi d a imm s
  | .sori d a imm => Sys2Proof.Machine.execSori d a imm s
  | .sxori d a imm => Sys2Proof.Machine.execSxori d a imm s
  | .sshli d a imm => Sys2Proof.Machine.execSshli d a imm s
  | .sshri d a imm => Sys2Proof.Machine.execSshri d a imm s
  | .ssari d a imm => Sys2Proof.Machine.execSsari d a imm s
  | .scmpi d a c imm => Sys2Proof.Machine.execScmpi d a c imm s
  | .aaddi d a imm => Sys2Proof.Machine.execAaddi d a imm s
  | .slui d imm => Sys2Proof.Machine.execSlui d imm s
  | .br o => Sys2Proof.Machine.execBr o s
  | .bq q sn o => Sys2Proof.Machine.execBq q sn o s
  | .brd p sn t j => Sys2Proof.Machine.execBrd p sn t j s
  | .call o => Sys2Proof.Machine.execCall o s
  | .join => Sys2Proof.Machine.execJoin s
  | .calli a => Sys2Proof.Machine.execCalli a s
  | .ret => Sys2Proof.Machine.execRet s
  | .exit => Sys2Proof.Machine.execExit s
  | .nap a => Sys2Proof.Machine.execNap a s
  | .yield => Sys2Proof.Machine.execYield s
  | .loop d imm => Sys2Proof.Machine.execLoop d imm s
  | .sld d r z l imm => Sys2Proof.Machine.execSld d r z l imm s
  | .sst d r z l imm => Sys2Proof.Machine.execSst d r z l imm s
  | .slda d r z l imm => Sys2Proof.Machine.execSlda d r z l imm s
  | .ssta d r l imm => Sys2Proof.Machine.execSsta d r l imm s
  | .samo d a b o r sn => Sys2Proof.Machine.execSamo d a b o r sn s
  | .lrun c o => Sys2Proof.Machine.execLrun c o s
  | .lsync => Sys2Proof.Machine.execLsync s
  | .bara b => Sys2Proof.Machine.execBara b s
  | .barw b => Sys2Proof.Machine.execBarw b s
  | .baraw b => Sys2Proof.Machine.execBaraw b s
  | .gangset sn => Sys2Proof.Machine.execGangset sn s
  | .txld q r g c l => Sys2Proof.Machine.execTxld q r g c l s
  | .txst q r g c l => Sys2Proof.Machine.execTxst q r g c l s
  | .txpf q r g => Sys2Proof.Machine.execTxpf q r g s
  | .wbload q sn c l => Sys2Proof.Machine.execWbload q sn c l s
  | .recfence r => Sys2Proof.Machine.execRecfence r s
  | .recfenceAll => Sys2Proof.Machine.execRecfenceAll s
  | .qfence m => Sys2Proof.Machine.execQfence m s
  | .qwait m l => Sys2Proof.Machine.execQwait m l s
  | .cnode d p l => Sys2Proof.Machine.execCnode d p l s
  | .cenrol n a c => Sys2Proof.Machine.execCenrol n a c s
  | .cunrol a c => Sys2Proof.Machine.execCunrol a c s
  | .cread d n l => Sys2Proof.Machine.execCread d n l s
  | .csettle d n l => Sys2Proof.Machine.execCsettle d n l s
  | .cwatch n y z => Sys2Proof.Machine.execCwatch n y z s
  | .crepar n p => Sys2Proof.Machine.execCrepar n p s
  | .cfree n => Sys2Proof.Machine.execCfree n s
  | .creadG d a l => Sys2Proof.Machine.execCreadG d a l s
  | .raise x y z => Sys2Proof.Machine.execRaise x y z s
  | .raiseSum x y z => Sys2Proof.Machine.execRaiseSum x y z s
  | .plotend x => Sys2Proof.Machine.execPlotend x s
  | .reap d a l => Sys2Proof.Machine.execReap d a l s
  | .sysr d n => Sys2Proof.Machine.execSysr d n s
  | .sysw sn n => Sys2Proof.Machine.execSysw sn n s
  | .trap c => Sys2Proof.Machine.execTrap c s
  | .tret => Sys2Proof.Machine.execTret s
  | .brkpt t => Sys2Proof.Machine.execBrkpt t s
  | .fence l sn o => Sys2Proof.Machine.execFence l sn o s
  | .pset sn n => Sys2Proof.Machine.execPset sn n s
  | .pcancel => Sys2Proof.Machine.execPcancel s
  | .prepeat => Sys2Proof.Machine.execPrepeat s
  | .vadd f => Sys2Proof.Machine.execVadd f s
  | .vsub f => Sys2Proof.Machine.execVsub f s
  | .vmul f => Sys2Proof.Machine.execVmul f s
  | .vmulh f => Sys2Proof.Machine.execVmulh f s
  | .vmad f => Sys2Proof.Machine.execVmad f s
  | .vmin f => Sys2Proof.Machine.execVmin f s
  | .vmax f => Sys2Proof.Machine.execVmax f s
  | .vabs f => Sys2Proof.Machine.execVabs f s
  | .vneg f => Sys2Proof.Machine.execVneg f s
  | .vdot4 f => Sys2Proof.Machine.execVdot4 f s
  | .vshl f => Sys2Proof.Machine.execVshl f s
  | .vshr f => Sys2Proof.Machine.execVshr f s
  | .vsar f => Sys2Proof.Machine.execVsar f s
  | .vand f => Sys2Proof.Machine.execVand f s
  | .vor f => Sys2Proof.Machine.execVor f s
  | .vxor f => Sys2Proof.Machine.execVxor f s
  | .vnot f => Sys2Proof.Machine.execVnot f s
  | .vlop3 f => Sys2Proof.Machine.execVlop3 f s
  | .vpopc f => Sys2Proof.Machine.execVpopc f s
  | .vclz f => Sys2Proof.Machine.execVclz f s
  | .vbrev f => Sys2Proof.Machine.execVbrev f s
  | .vbfx f => Sys2Proof.Machine.execVbfx f s
  | .vbfi f => Sys2Proof.Machine.execVbfi f s
  | .vmov f => Sys2Proof.Machine.execVmov f s
  | .vmovi f => Sys2Proof.Machine.execVmovi f s
  | .vmovs f => Sys2Proof.Machine.execVmovs f s
  | .vsel f => Sys2Proof.Machine.execVsel f s
  | .vcmp f => Sys2Proof.Machine.execVcmp f s
  | .vlane f => Sys2Proof.Machine.execVlane f s
  | .fadd f => Sys2Proof.Machine.execFadd f s
  | .fsub f => Sys2Proof.Machine.execFsub f s
  | .fmul f => Sys2Proof.Machine.execFmul f s
  | .ffma f => Sys2Proof.Machine.execFfma f s
  | .fmin f => Sys2Proof.Machine.execFmin f s
  | .fmax f => Sys2Proof.Machine.execFmax f s
  | .fabs f => Sys2Proof.Machine.execFabs f s
  | .fneg f => Sys2Proof.Machine.execFneg f s
  | .fcpys f => Sys2Proof.Machine.execFcpys f s
  | .fclass f => Sys2Proof.Machine.execFclass f s
  | .fdiv f => Sys2Proof.Machine.execFdiv f s
  | .fsqrt f => Sys2Proof.Machine.execFsqrt f s
  | .frcp f => Sys2Proof.Machine.execFrcp f s
  | .frsq f => Sys2Proof.Machine.execFrsq f s
  | .fexp2 f => Sys2Proof.Machine.execFexp2 f s
  | .flog2 f => Sys2Proof.Machine.execFlog2 f s
  | .fsin f => Sys2Proof.Machine.execFsin f s
  | .fcos f => Sys2Proof.Machine.execFcos f s
  | .cvt f => Sys2Proof.Machine.execCvt f s
  | .vshuf f => Sys2Proof.Machine.execVshuf f s
  | .vvote f => Sys2Proof.Machine.execVvote f s
  | .vred f => Sys2Proof.Machine.execVred f s
  | .vredix f => Sys2Proof.Machine.execVredix f s
  | .vscan f => Sys2Proof.Machine.execVscan f s
  | .vget f => Sys2Proof.Machine.execVget f s
  | .vsync f => Sys2Proof.Machine.execVsync f s
  | .pand f => Sys2Proof.Machine.execPand f s
  | .por f => Sys2Proof.Machine.execPor f s
  | .pxor f => Sys2Proof.Machine.execPxor f s
  | .pnot f => Sys2Proof.Machine.execPnot f s
  | .pmov f => Sys2Proof.Machine.execPmov f s
  | .pget f => Sys2Proof.Machine.execPget f s
  | .vld f => Sys2Proof.Machine.execVld f s
  | .vst f => Sys2Proof.Machine.execVst f s
  | .vpf f => Sys2Proof.Machine.execVpf f s
  | .vamo scope f => Sys2Proof.Machine.execVamo scope f s
  | .vfence f => Sys2Proof.Machine.execVfence f s
  | .cld f => Sys2Proof.Machine.execCld f s
  | .cst f => Sys2Proof.Machine.execCst f s
  | .camo f => Sys2Proof.Machine.execCamo f s
  | .cupd f => Sys2Proof.Machine.execCupd f s
  | .cred f => Sys2Proof.Machine.execCred f s
  | .rinit f => Sys2Proof.Machine.execRinit f s
  | .rwaitFill f => Sys2Proof.Machine.execRwaitFill f s
  | .rwaitFree f => Sys2Proof.Machine.execRwaitFree f s
  | .rfree f => Sys2Proof.Machine.execRfree f s
  | .rpost f => Sys2Proof.Machine.execRpost f s
  | .mxacc f => Sys2Proof.Machine.execMxacc f s
  | .mxzero f => Sys2Proof.Machine.execMxzero f s
  | .mxloadc f => Sys2Proof.Machine.execMxloadc f s
  | .mxdrain f => Sys2Proof.Machine.execMxdrain f s
  | .vrkey f => Sys2Proof.Machine.execVrkey f s
  | .vraise f => Sys2Proof.Machine.execVraise f s
  | .matrixOperation core => Sys2Proof.Machine.execMatrixOperation core s
  | .rollupGranuleStep granule => Sys2Proof.Machine.execRollupGranuleStep granule s
  | .rollupNodeStep ctx node => Sys2Proof.Machine.execRollupNodeStep ctx node s
  | .watchEvent sys slot => Sys2Proof.Machine.execWatchEvent sys slot s
  | .raiseArrival k => Sys2Proof.Machine.execRaiseArrival k s
  | .deal die => Sys2Proof.Machine.execDeal die s
  | .plotTaskComplete sys plot => Sys2Proof.Machine.execPlotTaskComplete sys plot s
  | .quietRound sys => Sys2Proof.Machine.execQuietRound sys s
  | .rehomeSwitch set => Sys2Proof.Machine.execRehomeSwitch set s
  | .teamEnd team => Sys2Proof.Machine.execTeamEnd team s
  | .fragmentHandlerEntry core entry => Sys2Proof.Machine.execFragmentHandlerEntry core entry s
  | .asyncEventDelivery wid => Sys2Proof.Machine.execAsyncEventDelivery wid s
  | .migrateMove ctx vpn frame => Sys2Proof.Machine.execMigrateMove ctx vpn frame s
  | .pendingDataArrival core entry => Sys2Proof.Machine.execPendingDataArrival core entry s
  | .napExpiry wid slot => Sys2Proof.Machine.execNapExpiry wid slot s
  | .engineEntryStart core q => Sys2Proof.Machine.execEngineEntryStart core q s
  | .engineSegmentComplete core q => Sys2Proof.Machine.execEngineSegmentComplete core q s
  | .engineEntryRetire core q => Sys2Proof.Machine.execEngineEntryRetire core q s
  | .engineQueueResume core q => Sys2Proof.Machine.execEngineQueueResume core q s
  | .qfenceRetire core q => Sys2Proof.Machine.execQfenceRetire core q s
  | .ringGrant team offset => Sys2Proof.Machine.execRingGrant team offset s
  | .drawerRequestEnqueue link => Sys2Proof.Machine.execDrawerRequestEnqueue link s
  | .linkSlot link => Sys2Proof.Machine.execLinkSlot link s
  | .upstreamFlit link header => Sys2Proof.Machine.execUpstreamFlit link header s
  | .frameBoundary link => Sys2Proof.Machine.execFrameBoundary link s
  | .frameMark link => Sys2Proof.Machine.execFrameMark link s
  | .retuneElapsed link => Sys2Proof.Machine.execRetuneElapsed link s
  | .lockHeld link => Sys2Proof.Machine.execLockHeld link s
  | .lockRegained link => Sys2Proof.Machine.execLockRegained link s
  | .retrainTimeout link => Sys2Proof.Machine.execRetrainTimeout link s
  | .shootdownComplete set => Sys2Proof.Machine.execShootdownComplete set s
  | .ctCommandComplete set => Sys2Proof.Machine.execCtCommandComplete set s
  | .scrubComplete ctx q => Sys2Proof.Machine.execScrubComplete ctx q s
  | .entryConsume ctx q => Sys2Proof.Machine.execEntryConsume ctx q s
  | .slotReread ctx q => Sys2Proof.Machine.execSlotReread ctx q s
  | .entryComplete ctx q => Sys2Proof.Machine.execEntryComplete ctx q s
  | .launch ctx q => Sys2Proof.Machine.execLaunch ctx q s
  | .waitsem ctx q => Sys2Proof.Machine.execWaitsem ctx q s
  | .semaphoreReread ctx q => Sys2Proof.Machine.execSemaphoreReread ctx q s
  | .sigsem ctx q => Sys2Proof.Machine.execSigsem ctx q s
  | .qfenceEntry ctx q => Sys2Proof.Machine.execQfenceEntry ctx q s
  | .graph ctx q => Sys2Proof.Machine.execGraph ctx q s
  | .kernelNode ctx q => Sys2Proof.Machine.execKernelNode ctx q s
  | .condNode ctx q => Sys2Proof.Machine.execCondNode ctx q s
  | .loopNode ctx q => Sys2Proof.Machine.execLoopNode ctx q s
  | .endNode ctx q => Sys2Proof.Machine.execEndNode ctx q s
  | .attach ctx q => Sys2Proof.Machine.execAttach ctx q s
  | .detach ctx q => Sys2Proof.Machine.execDetach ctx q s
  | .reapq ctx q => Sys2Proof.Machine.execReapq ctx q s
  | .copy ctx q => Sys2Proof.Machine.execCopy ctx q s
  | .prologueRun ctx q => Sys2Proof.Machine.execPrologueRun ctx q s
  | .launchComplete ctx q => Sys2Proof.Machine.execLaunchComplete ctx q s
  | .homeDieTimeout ctx q => Sys2Proof.Machine.execHomeDieTimeout ctx q s
  | .drainDeadline ctx => Sys2Proof.Machine.execDrainDeadline ctx s
  | .freezeComplete ctx => Sys2Proof.Machine.execFreezeComplete ctx s
  | .linkPolicySample => Sys2Proof.Machine.execLinkPolicySample s
  | .corePowerGate core => Sys2Proof.Machine.execCorePowerGate core s
  | .coreWake core => Sys2Proof.Machine.execCoreWake core s
  | .operatingPointChange die => Sys2Proof.Machine.execOperatingPointChange die s
  | .breakpointStop wid slot lane => Sys2Proof.Machine.execBreakpointStop wid slot lane s
  | .sample ctx core => Sys2Proof.Machine.execSample ctx core s
  | .deadlockCheck ctx => Sys2Proof.Machine.execDeadlockCheck ctx s
  | .meTransactionComplete mb => Sys2Proof.Machine.execMeTransactionComplete mb s
  | .restoreComplete ctx => Sys2Proof.Machine.execRestoreComplete ctx s
  | .stageComplete fcode linkUp => Sys2Proof.Machine.execStageComplete fcode linkUp s
  | .rehome set v => Sys2Proof.Machine.execRehome set v s
  | .lossOfLock link => Sys2Proof.Machine.execLossOfLock link s
  | .wakingLockLoss link => Sys2Proof.Machine.execWakingLockLoss link s
  | .flitCrcFail link => Sys2Proof.Machine.execFlitCrcFail link s
  | .dlctlWrite link v => Sys2Proof.Machine.execDlctlWrite link v s
  | .dlcommit link v => Sys2Proof.Machine.execDlcommit link v s
  | .shootdownPages set v => Sys2Proof.Machine.execShootdownPages set v s
  | .shootdownSpace set v => Sys2Proof.Machine.execShootdownSpace set v s
  | .shootdownEverySpace set v => Sys2Proof.Machine.execShootdownEverySpace set v s
  | .ctSettleNode set v => Sys2Proof.Machine.execCtSettleNode set v s
  | .ctReadRecord set v => Sys2Proof.Machine.execCtReadRecord set v s
  | .ctReadGranule set v => Sys2Proof.Machine.execCtReadGranule set v s
  | .qtailWrite ctx q v => Sys2Proof.Machine.execQtailWrite ctx q v s
  | .qcfgWrite ctx q v => Sys2Proof.Machine.execQcfgWrite ctx q v s
  | .meWrite mb v => Sys2Proof.Machine.execMeWrite mb v s
  | .meRead mb v => Sys2Proof.Machine.execMeRead mb v s
  | .meAdd mb v => Sys2Proof.Machine.execMeAdd mb v s
  | .meMax mb v => Sys2Proof.Machine.execMeMax mb v s
  | .meCas mb v => Sys2Proof.Machine.execMeCas mb v s
  | .mailboxDataWrite mb reg v => Sys2Proof.Machine.execMailboxDataWrite mb reg v s
  | .ctxcfgWrite fn ctx v => Sys2Proof.Machine.execCtxcfgWrite fn ctx v s
  | .ssownWrite fn n v => Sys2Proof.Machine.execSsownWrite fn n v s
  | .ctxDrain ctx v => Sys2Proof.Machine.execCtxDrain ctx v s
  | .ctxResume ctx v => Sys2Proof.Machine.execCtxResume ctx v s
  | .ctxRestore ctx v => Sys2Proof.Machine.execCtxRestore ctx v s
  | .ctxReset ctx v => Sys2Proof.Machine.execCtxReset ctx v s
  | .uncorrectableError site => Sys2Proof.Machine.execUncorrectableError site s
  | .schedulerRebuild core ok => Sys2Proof.Machine.execSchedulerRebuild core ok s
  | .devpop v => Sys2Proof.Machine.execDevpop v s
  | .securityAlarm => Sys2Proof.Machine.execSecurityAlarm s
  | .measurementCheck matches_ => Sys2Proof.Machine.execMeasurementCheck matches_ s
  | .attestationRequest nonce => Sys2Proof.Machine.execAttestationRequest nonce s
  | .thermalTrip die => Sys2Proof.Machine.execThermalTrip die s
  | .resetRelease => Sys2Proof.Machine.execResetRelease s
  | .modrst v => Sys2Proof.Machine.execModrst v s
  | .dbgStop ctx v => Sys2Proof.Machine.execDbgStop ctx v s
  | .dbgResume ctx v => Sys2Proof.Machine.execDbgResume ctx v s
  | .dbgStepScalar ctx v => Sys2Proof.Machine.execDbgStepScalar ctx v s
  | .dbgStepLane ctx v => Sys2Proof.Machine.execDbgStepLane ctx v s
  | .dbgStopAll ctx v => Sys2Proof.Machine.execDbgStopAll ctx v s
  | .dbgResumeAll ctx v => Sys2Proof.Machine.execDbgResumeAll ctx v s
  | .dbgReplay ctx v => Sys2Proof.Machine.execDbgReplay ctx v s
  | .dbgSkip ctx v => Sys2Proof.Machine.execDbgSkip ctx v s
  | .dbgctlWrite ctx v => Sys2Proof.Machine.execDbgctlWrite ctx v s
  | .prfselClear v => Sys2Proof.Machine.execPrfselClear v s
  | .registerWrite fn offset v => Sys2Proof.Machine.execRegisterWrite fn offset v s
  | .eccCorrected die core => Sys2Proof.Machine.execEccCorrected die core s
  | .peerWrite pa size v => Sys2Proof.Machine.execPeerWrite pa size v s
  | .powerGovernorDecision die point watts => Sys2Proof.Machine.execPowerGovernorDecision die point watts s
  | .conventionalReset => Sys2Proof.Machine.execConventionalReset s
  | .powerLoss => Sys2Proof.Machine.execPowerLoss s

end Sys2Proof.Machine
end

