-- ==== Sys2Proof/Machine/Place.lean ====
section
/-! DEFINITION. A machine set up from outside to run one instruction word next (log 2): what loading a context, its
page tables and a team comes to. -/

namespace Sys2Proof.Machine

/-- Frames of the five tables, of the text page and of the lane page. -/
def placeFrame (i : Nat) : Nat := 0x100000 + 0x10000 * i

/-- A pointer entry and a leaf with every permission, near (R11). -/
def placePointer (i : Nat) : Nat := 2 ^ 63 + placeFrame i
def placeLeaf (i : Nat) : Nat := 3 * 2 ^ 62 + 7 * 2 ^ 55 + placeFrame i

/-- Page tables that map page 1 as text and page 2 as lane words, and the word itself. -/
def placeBytes (b : Cells 8) (lane : Bool) (w : Nat) : Cells 8 :=
  let b := (List.range 4).foldl (fun b i => b.writeN (placeFrame i) (bytesOf 8 (placePointer (i + 1)))) b
  let b := b.writeN (placeFrame 4 + 8) (bytesOf 8 (placeLeaf 5) ++ bytesOf 8 (placeLeaf 6))
  if lane then b.writeN (placeFrame 6) (bytesOf 12 w) else b.writeN (placeFrame 5) (bytesOf 4 w)

/-- The context the word runs in: SPACE 1, text at page 1, lane words at page 2. -/
def placeCtx : Ctx :=
  { cfg := 0xC000000000000000#64, xdesc := BitVec.ofNat 64 (2 ^ 54 + placeFrame 0 + 1), textbase := 0x10000,
    lanebase := 0x20000, started := true }

def placePath (lane : Bool) : Path :=
  { pc := 0x10000, mask := fullMask, queue := if lane then [{ off := 0, count := 1 }] else [] }

/-- Context 0 with one team of one warp on CD0.C0, whose path stands before the word, and its turn next. -/
def State.placeWord (s : State) (nbits w : Nat) : State :=
  let lane := decide (32 < nbits)
  { s with
    plat := { s.plat with live := true, stage := 2, ready := true }
    mem := { s.mem with bytes := placeBytes s.mem.bytes lane w }
    hub := { s.hub with fatal := false }
    ctxs := s.ctxs.put 0 placeCtx
    teams := s.teams.put 0 { ctx := 0, core := 0, warps := [0] }
    warps := s.warps.put 0 { team := 0, ctx := 0, slot0 := some (placePath lane) }
    agenda := [if lane then .lane 0 0 else .scalar 0 0] }

end Sys2Proof.Machine
end

