-- ==== Sys2Proof/Machine/Reads.lean ====
section
/-! DEFINITION. What the host reads in the hub control window (R309): every register's value at one moment. A read
changes nothing, so no instruction stands for one. -/

namespace Sys2Proof.Machine

/-- Shoot-down, tree and re-home registers of a set; GO reads 0 (R24, R117, R295). -/
def RegSet.read (x : RegSet) (r : Nat) : DWord :=
  let busy (b e : Bool) (seq : Word) : DWord := BitVec.ofNat 64 (boolNat b * 2 ^ 63 + boolNat e * 2 ^ 62 + seq.toNat)
  match r with
  | 0x100 => x.xsaddr
  | 0x108 => x.xscmd
  | 0x110 => busy x.xsbusy x.xserr x.xsseq
  | 0x200 => x.ctcmd
  | 0x208 => x.ctaddr
  | 0x210 => busy x.ctbusy x.cterr 0
  | 0x218 => x.ctres.get 0
  | 0x220 => x.ctres.get 1
  | 0x228 => x.ctres.get 2
  | 0x230 => x.ctres.get 3
  | 0x300 => x.rhcmd
  | 0x308 => busy x.rhbusy x.rherr x.rhseq
  | _ => 0

/-- Link registers (R87, R90). -/
def Link.read (l : Link) (r : Nat) : DWord :=
  if r = 0 then l.dlctl
  else if 0x10 ≤ r ∧ r < 0x90 then l.shadow.getD ((r - 0x10) / 8) poolSlots
  else if r = 0x90 then BitVec.ofNat 64 (boolNat l.pend * 2 ^ 62)
  else if r = 0x98 then
    BitVec.ofNat 64 (boolNat l.err * 2 ^ 63 + l.retrains.toNat * 2 ^ 32 + l.wakes.toNat * 2 ^ 16 + l.relocks.toNat)
  else 0

/-- Mailbox registers (R335). -/
def Mailbox.read (b : Mailbox) (r : Nat) : DWord :=
  match r with
  | 0x00 => b.cmd
  | 0x08 => b.addr
  | 0x10 => b.data
  | 0x18 => b.cmp
  | 0x20 => b.res
  | 0x28 => BitVec.ofNat 64 (boolNat b.busy * 2 ^ 63 + b.status.toNat)
  | _ => 0

/-- Queue registers (R311). -/
def Queue.read (q : Queue) (r : Nat) : DWord :=
  match r with
  | 0x00 => q.qbase
  | 0x08 => q.qcfg
  | 0x10 => q.qhwb
  | 0x18 => q.qtail
  | 0x20 => q.qhead
  | 0x28 => BitVec.ofNat 64 (boolNat q.entry.isSome * 2 ^ 63 + boolNat q.waitpub * 2 ^ 62 + boolNat q.block * 2 ^ 61
      + boolNat q.err * 2 ^ 60 + boolNat q.scrub * 2 ^ 59)
  | _ => 0

/-- Code of a context's state (R351). -/
def CtxState.code : CtxState → Nat
  | .running => 0 | .draining => 1 | .drained => 2 | .freezing => 3 | .frozen => 4 | .restoring => 5 | .tornDown => 6

/-- An OP of CTXPRE is in progress. -/
def CtxState.busy : CtxState → Bool
  | .draining | .freezing | .restoring => true
  | _ => false

/-- Paths of a context that the debugger holds stopped (R370). -/
def State.stops (s : State) (ctx : Nat) : Nat :=
  let n (l : List Path) : Nat := (l.filter (·.stopped)).length
  (s.warps.filter (fun w => w.2.ctx = ctx)).foldl (fun k w =>
      k + n (w.2.places.filterMap w.2.slot) + n ((w.2.overflow.map (·.path)).toList)) 0
    + s.cores.foldl (fun k c => k + n ((c.2.frags.filter (fun f =>
      f.2.state != 2 && (match s.warps.find f.2.warp with | some w => w.ctx == ctx | none => false))).map (·.2.path))) 0

/-- Registers of a context block (R310, R311, R343, R351, R360, R370, R374). -/
def State.readBlock (s : State) (ctx r : Nat) : DWord :=
  let c := s.ctx ctx
  if 0x400 ≤ r ∧ r < 0x800 then (s.queue ctx ((r - 0x400) / 64)).read ((r - 0x400) % 64)
  else if 0x80 ≤ r ∧ r < 0xC0 then c.dbgbp.get ((r - 0x80) / 8)
  else if 0xC0 ≤ r ∧ r < 0x100 then c.dbgwa.get ((r - 0xC0) / 8)
  else
    match r with
    | 0x00 => c.cfg
    | 0x08 => c.xdesc
    | 0x10 => c.ttab
    | 0x18 => c.seed
    | 0x20 => c.textbase
    | 0x28 => c.lanebase
    | 0x30 => c.trap
    | 0x38 => BitVec.ofNat 64 (c.preOp.toNat * 2 ^ 60 + c.deadline.toNat)
    | 0x40 => BitVec.ofNat 64 (boolNat c.st.busy * 2 ^ 63 + c.st.code * 2 ^ 60 + boolNat c.preErr * 2 ^ 59 + c.cfcause.toNat * 2 ^ 40
        + c.ecause.toNat * 2 ^ 32 + c.dfaults.toNat * 2 ^ 16 + (ctxTeams s ctx).length % 2 ^ 16)
    | 0x48 => c.save
    | 0x50 => BitVec.ofNat 64 (s.sizeNow ctx)
    | 0x58 => BitVec.ofNat 64 (boolNat c.ras)
    | 0x60 => putBits c.dbgctl 47 32 (s.stops ctx)
    | 0x68 => c.dbgcmd
    | 0x70 => c.trbase
    | 0x78 => c.trctl
    | _ => 0

/-- The oldest entry of the error log (R363). -/
def State.readDeverr (s : State) : DWord := s.hub.deverr.headD 0

/-- A bin of the slice PRFSEL names; bin 0 is the cycles since its last clear that no other of bins 1 to 16 counts
(R376). -/
def State.readBin (s : State) (i : Nat) : DWord :=
  let v := s.hub.prfsel
  let core := bitsN v 7 0
  let slice := 4 * (200 * bitsN v 10 8 + core) + bitsN v 13 12
  if 200 ≤ core then 0
  else if i = 0 then
    (List.range 16).foldl (fun x e => x - s.hub.bins.get (31 * slice + e + 1)) (s.cycle - s.hub.binBase.get slice)
  else s.hub.bins.get (31 * slice + i)

/-- Links that have trained and are in RUN, bit n for link n (R378). -/
def State.linksUp (s : State) : BitVec 32 :=
  (List.range 32).foldl (fun x n => putBit x n (bitB s.plat.linkup n && (s.link n).st == .run)) 0

/-- MODSTAT (R378). -/
def State.modstat (s : State) : DWord :=
  let p := s.plat
  BitVec.ofNat 64 (p.stage.toNat * 2 ^ 62 + boolNat p.fail * 2 ^ 61 + boolNat p.erased * 2 ^ 60 + boolNat p.alarm * 2 ^ 59
    + p.fcode.toNat * 2 ^ 48 + p.dieup.toNat * 2 ^ 40 + s.linksUp.toNat)

/-- PWRDIE of a die (R386). -/
def Platform.pwrdie (p : Platform) (die : Nat) : DWord :=
  BitVec.ofNat 64 ((p.points.get die).toNat * 2 ^ 62 + (p.watts.get die).toNat)

/-- Registers of the physical function alone, with a set of those that come in two. -/
def State.readPf (s : State) (set r : Nat) : DWord :=
  if r < 0x400 then (s.regSet set).read r
  else if r = 0x400 then s.hub.meClass.setWidth 64
  else if r = 0x500 then s.readDeverr
  else if r = 0x600 then s.hub.prfsel
  else if 0x608 ≤ r ∧ r < 0x700 then s.readBin ((r - 0x608) / 8)
  else if r = 0x700 then s.modstat
  else if 0x720 ≤ r ∧ r < 0x760 then s.plat.pwrdie ((r - 0x720) / 8)
  else if 0x800 ≤ r ∧ r < 0xA00 then s.hub.ssown.get ((r - 0x800) / 8)
  else if 0x10000 ≤ r ∧ r < 0x12000 then (s.link ((r - 0x10000) / 256)).read ((r - 0x10000) % 256)
  else 0

/-- A read at an offset of a function's window: one that is not aligned reads all ones, and what the function does
not have reads zero (R309). -/
def State.readReg (s : State) (fn r : Nat) : DWord :=
  if r % 8 ≠ 0 then BitVec.allOnes 64
  else if 0x20000 ≤ r ∧ r < 0x20200 then (s.mailbox (8 * layoutOf fn + (r - 0x20000) / 64)).read ((r - 0x20000) % 64)
  else if 0x40000 ≤ r ∧ r < 0x140000 then
    (if s.ownsCtx (layoutOf fn) ((r - 0x40000) / 4096) then s.readBlock ((r - 0x40000) / 4096) ((r - 0x40000) % 4096) else 0)
  else if layoutOf fn = 0 then s.readPf (setOf fn) r
  else 0

/-- A read of a size in bytes: one of another size than 8 reads all ones (R309). -/
def State.hostRead (s : State) (fn r size : Nat) : DWord := if size = 8 then s.readReg fn r else BitVec.allOnes 64

end Sys2Proof.Machine
end

