-- ==== Sys2Proof/Machine/Schedule.lean ====
section
/-! DEFINITION. The passing of cycles (R37), the issue histogram (R376), and the draining of overflow slots (R188). -/

namespace Sys2Proof.Machine

/-! ## Time and the issue histogram (R376) -/

/-- Stall code of a warp: that of its live path in the lowest slot, 9 where a fragment is parked or the overflow slot
holds a path, else 1. -/
def warpCode (s : State) (wid : Nat) (w : Warp) : Nat :=
  match w.slot0, w.slot1 with
  | some p, _ => p.code
  | none, some p => p.code
  | none, none =>
    if w.overflow.isSome || (s.core (coreOf wid)).frags.any (fun f => f.2.warp == wid && f.2.state == 0) then 9 else 1

/-- A path of the warp could issue. -/
def warpEligible (s : State) (w : Warp) : Bool :=
  [w.slot0, w.slot1].any (fun p => match p with | some p => p.code == 0 && !s.hub.fatal | none => false)

/-- Slices with a resident warp, as 4 × core + slice. -/
def busySlices (s : State) : List Nat :=
  s.warps.foldl (fun l w => let k := w.1 / 16; if w.1 = puWid || l.contains k then l else l ++ [k]) []

/-- The warp dealt first; teams are numbered as they are dealt. -/
def oldestWarp (ws : List (Nat × Warp)) : Option (Nat × Warp) :=
  ws.foldl (fun o w =>
    match o with
    | some b => if w.2.team < b.2.team then some w else some b
    | none => some w) none

/-- Charges n cycles to the bins of every slice with a resident warp; bin 0 follows from the others. -/
def State.charge (s : State) (n : DWord) : State :=
  let bins := (busySlices s).foldl (fun b k =>
    let ws := s.warps.filter (fun w => w.1 / 16 = k)
    let e := (ws.filter (fun w => warpEligible s w.2)).length
    let bin := if e ≠ 0 then e else 16 + Nat.max 1 (match oldestWarp ws with | some w => warpCode s w.1 w.2 | none => 1)
    b.set (31 * k + bin) (b.get (31 * k + bin) + n)) s.hub.bins
  { s with hub := { s.hub with bins := bins } }

/-- Drawer lines leave a core's L1 (R81, R149, log 3). -/
def Core.age (c : Core) (tick core : Nat) : Core :=
  if c.l1.isEmpty then c else { c with l1 := c.l1.filter (fun e => Config.lineKept tick core e.n) }

/-- The dies' clocks fall behind over n cycles: a fifth of a cycle in each for every point below P0, at the lower of two
while the point changes (R386). -/
def Platform.slower (p : Platform) (n : DWord) : Platform :=
  { p with lag := (List.range 8).foldl (fun (t : Cells 64) d =>
      let x := max (p.points.get d).toNat ((p.changing.find d).map (·.toNat) |>.getD 0)
      if x = 0 then t else t.set d (t.get d + n * BitVec.ofNat 64 x)) p.lag }

/-- Cycles pass: one, and a free number more (log 6). -/
def State.pass (s : State) : State :=
  let n := 1 + Config.elapsed s.tick
  let s := s.charge n
  { s with plat := s.plat.slower n, cycle := s.cycle + n, tick := s.tick + 1, cores := s.cores.map (fun c => (c.1, c.2.age s.tick c.1)) }

/-- Faults that wait for a fragment table entry are processed where one has freed (R188), and paths whose step has
completed stop (R372). -/
def State.drainAll (s : State) : State :=
  let s := (s.warps.filter (fun w => w.2.overflow.isSome)).foldl (fun s w => s.drainOverflow (coreOf w.1)) s
  (s.warps.filter (fun w => [w.2.slot0, w.2.slot1].any (fun p => match p with | some p => p.stepping == 3 | none => false))).foldl
    (fun s w => (s.stopStep w.1 0).stopStep w.1 1) s

end Sys2Proof.Machine
end

