-- ==== Sys2Proof/Machine/Turns.lean ====
section
/-! DEFINITION. Which party moves next: the agenda, then a rotation over the paths and the module's own agents (R200,
log 1). The rotation offers events that have something to do; one that has not leaves the state as it is. -/

namespace Sys2Proof.Machine

/-! ## What the agents of the module have to do -/

/-- Events of the cores: array, copy engines, latches, fragments. -/
def State.coreEvents (s : State) : List Instr :=
  (s.cores.map (fun c =>
    (if c.2.ops.isEmpty then [] else [Instr.matrixOperation c.1])
      ++ (c.2.queues.map (fun q =>
        match q.2.park, q.2.entries with
        | some p, _ => if s.parkOver p then [Instr.engineQueueResume c.1 q.1] else []
        | none, e :: _ =>
          if e.form = .fence then [Instr.qfenceRetire c.1 q.1]
          else if !e.started then [Instr.engineEntryStart c.1 q.1]
          else if e.segs < e.total then
            if e.waits.isEmpty && e.outside.isEmpty || (s.stalledLink e).isSome then [Instr.engineSegmentComplete c.1 q.1] else []
          else [Instr.engineEntryRetire c.1 q.1]
        | none, [] => [])).flatten
      ++ (c.2.frags.map (fun f =>
        if f.2.state = 1 then
          match s.warps.find f.2.warp with
          | some w => if w.openSlot.isSome || ((freeSlot w).isNone && decide (0 < w.stackFree)) then [Instr.fragmentHandlerEntry c.1 f.1] else []
          | none => []
        else if f.2.state = 0 && f.2.rcd.cls == 7 && s.stallOver f.2 then [Instr.pendingDataArrival c.1 f.1]
        else [])).flatten
      ++ (if c.2.gated && s.coreTeams c.1 != 0 then [Instr.coreWake c.1] else []))).flatten

/-- Pages a move is wanted for: context and page. -/
def State.wantedPages (s : State) : List (Nat × Nat) :=
  s.moves.map (fun x => (x.1, x.2.1)) ++ (s.cores.map (fun c =>
    c.2.frags.filterMap (fun f => if f.2.state = 0 then f.2.page else none)
      ++ c.2.queues.filterMap (fun q => match q.2.park with | some (.migrate x v) => some (x, v) | _ => none))).flatten
    ++ s.warps.filterMap (fun w => w.2.overflow.bind (·.page))

/-- Events of warps and teams. -/
def State.warpEvents (s : State) : List Instr :=
  (s.warps.map (fun w =>
    (if w.2.evFull || w.2.evNotice then [Instr.asyncEventDelivery w.1] else [])
      ++ ((List.range 2).filter (fun k => match w.2.slot k with | some p => s.napOver w.1 p | none => false)).map (fun k => Instr.napExpiry w.1 k))).flatten
    ++ (s.teams.map (fun t =>
      t.2.ringWaits.map (fun x => Instr.ringGrant t.1 x.header) ++ (if s.teamOver t.1 then [Instr.teamEnd t.1] else []))).flatten
    ++ s.wantedPages.map (fun p => Instr.migrateMove p.1 p.2 (some (Config.freeFrame s.freeCtr)))

/-- Events of the change tree and of the Residual Dispatchers. -/
def State.treeEvents (s : State) : List Instr :=
  s.mem.pend.map (fun g => Instr.rollupGranuleStep g.1)
    ++ (s.nodes.filter (fun n => n.2.pend)).map (fun n => Instr.rollupNodeStep (n.1 / 2 ^ 20) (n.1 % 2 ^ 20))
    ++ ((List.range s.raises.length).filter s.raiseFirst).map Instr.raiseArrival
    ++ (s.watchEvents.filter s.watchFirst).eraseDups.map (fun w => Instr.watchEvent w.1 w.2)
    ++ (s.systems.map (fun y =>
      (y.2.plots.filter (fun p => p.2.ended.isSome)).map (fun p => Instr.plotTaskComplete y.1 p.1)
        ++ (if y.2.roundDue || y.2.round.isSome then [Instr.quietRound y.1] else []))).flatten
    ++ (s.hub.sets.filter (fun r => r.2.rhbusy)).map (fun r => Instr.rehomeSwitch r.1)

/-- A link's slots have something to carry or to change. -/
def Link.busy (l : Link) : Bool :=
  !l.queue.isEmpty || !l.inflight.isEmpty || !l.resend.isEmpty || l.pend || l.st == .parking || l.st == .switch

/-- The header of an upstream flit whose link has gone well: kind and index, the number after the last, and an
acknowledgement of all that has been sent (R85). -/
def Link.upHeader (l : Link) (kind idx : Nat) : BitVec 128 :=
  BitVec.ofNat 128 (kind * 2 ^ 126 + idx % 16 * 2 ^ 122 + (l.ack + 1).toNat * 2 ^ 16 + (l.seq - 1).toNat)

/-- The upstream flit that comes next, its data good: one that is due, or an idle one for flits not acknowledged. -/
def Link.comesUp (l : Link) : Option (BitVec 128) :=
  match l.due with
  | some (_, x) => some (l.upHeader (if x.req.kind = 3 then 2 else 1) (x.req.rlen + 1 - x.slots.length))
  | none => if l.kept.isEmpty then none else some (l.upHeader 0 0)

def State.linkEvents (s : State) : List Instr :=
  (s.links.map (fun l =>
    (if !l.2.waiting.isEmpty && decide (l.2.queue.length < 192) then [Instr.drawerRequestEnqueue l.1] else [])
      ++ (if l.2.running then (match l.2.comesUp with | some h => [Instr.upstreamFlit l.1 h] | none => []) else [])
      ++ (if l.2.busy && l.2.mayStep then [Instr.linkSlot l.1] else [])
      ++ (match l.2.st with
          | .retune => [Instr.retuneElapsed l.1]
          | .locking => [Instr.lockHeld l.1]
          | .retrain => [Instr.lockRegained l.1]
          | _ => []))).flatten

/-- Events of an entry in progress. -/
def entryEvents (ctx q : Nat) (x : Queue) (e : Entry) : List Instr :=
  if e.status.isSome then [Instr.entryComplete ctx q]
  else
    let sem := if x.block then Instr.semaphoreReread ctx q else Instr.waitsem ctx q
    match e.launch with
    | some l =>
      if l.prologue = 1 then [Instr.prologueRun ctx q]
      else if l.prologue = 3 then [Instr.launchComplete ctx q, Instr.homeDieTimeout ctx q] else []
    | none =>
      match e.cmd with
      | 1 => [Instr.launch ctx q]
      | 2 => [sem]
      | 3 => [Instr.sigsem ctx q]
      | 4 => [Instr.qfenceEntry ctx q]
      | 5 =>
        (match e.graph with
         | none => [Instr.graph ctx q]
         | some g =>
           if !g.ok then [Instr.endNode ctx q]
           else match nodeKind g.node with
             | 0 => [Instr.endNode ctx q]
             | 1 => [Instr.kernelNode ctx q]
             | 2 => [Instr.condNode ctx q]
             | 3 => [Instr.loopNode ctx q]
             | 4 => [sem]
             | _ => [Instr.sigsem ctx q])
      | 6 => [Instr.attach ctx q]
      | 7 => [Instr.detach ctx q]
      | 8 => [Instr.reapq ctx q]
      | _ => [Instr.copy ctx q]

/-- Events of the front end and of context slots. -/
def State.ctxEvents (s : State) : List Instr :=
  (s.ctxs.map (fun c =>
    (c.2.queues.map (fun q =>
      (if q.2.scrub then [Instr.scrubComplete c.1 q.1] else [])
        ++ (if s.mayConsume c.1 q.1 then [if q.2.waitpub then Instr.slotReread c.1 q.1 else Instr.entryConsume c.1 q.1] else [])
        ++ (match q.2.entry with | some e => if s.advances c.1 then entryEvents c.1 q.1 q.2 e else [] | none => []))).flatten
      ++ (match c.2.st with
          | .draining => if s.deadlinePassed c.2 then [Instr.drainDeadline c.1] else []
          | .freezing => if s.atBoundaries c.1 then [Instr.freezeComplete c.1] else []
          | .restoring => [Instr.restoreComplete c.1]
          | _ => []))).flatten

/-- A die may have something to deal. -/
def State.dealEvents (s : State) : List Instr :=
  if s.ctxs.any (fun c => c.2.queues.any (fun q => match q.2.entry.bind (·.launch) with | some l => l.prologue == 3 && decide (l.dealt < l.count) | none => false))
      || s.systems.any (fun y => y.2.plots.any (fun p => p.2.st == .pending))
  then (List.range 8).map Instr.deal else []

/-- Events of the hub and the platform; a start-up stage in progress completes. -/
def State.hubEvents (s : State) : List Instr :=
  (s.hub.sets.map (fun r =>
    (if r.2.xsbusy then [Instr.shootdownComplete r.1] else []) ++ (if r.2.ctbusy then [Instr.ctCommandComplete r.1] else []))).flatten
    ++ (s.hub.mailboxes.filter (fun b => b.2.busy)).map (fun b => Instr.meTransactionComplete b.1)
    ++ s.plat.changing.map (fun d => Instr.operatingPointChange d.1)
    ++ (if !s.plat.inReset && !s.plat.fail && s.plat.stage.toNat < 2 then [Instr.stageComplete 0 (BitVec.allOnes 32)] else [])

/-- Everything the module's own agents have to do. -/
def State.moduleEvents (s : State) : List Instr :=
  s.coreEvents ++ s.warpEvents ++ s.treeEvents ++ s.linkEvents ++ s.ctxEvents ++ s.dealEvents ++ s.hubEvents

/-! ## The rotation -/

/-- Path slots of a warp that have an instruction to issue. -/
def State.slotsOf (s : State) (wid : Nat) : List (Nat × Nat) :=
  ((List.range 2).filter (fun k => s.canIssue true wid k || s.canIssue false wid k)).map (fun k => (wid, k))

/-- A path slot as its core's rotation names it, and its entry there. -/
def slotName (x : Nat × Nat) : Nat := 2 * (x.1 % 64) + x.2
def Core.entryOf (c : Core) (x : Nat × Nat) : Option (Nat × Nat) := (c.rotation.zipIdx).find? (fun e => e.1 / 2 = slotName x)

/-- How far back in the rotation a path slot stands: 0 where it has not issued yet. -/
def Core.since (c : Core) (x : Nat × Nat) : Nat := match c.entryOf x with | some e => e.2 + 1 | none => 0

/-- The turn of a path slot: of its streams that could issue, the one that did not issue last. -/
def State.slotTurn (s : State) (x : Nat × Nat) : Turn :=
  let last := (((s.core (coreOf x.1)).entryOf x).map (fun e => e.1 % 2)).getD 0
  if s.canIssue true x.1 x.2 && (last == 0 || !s.canIssue false x.1 x.2) then .lane x.1 x.2 else .scalar x.1 x.2

/-- What one slice chooses: the path slot that issued longest ago among those that could (R200). -/
def State.sliceTurn (s : State) (slice : Nat) : Option Turn :=
  let c := s.core (slice / 4)
  (((s.warps.filter (fun w => w.1 / 16 = slice)).map (fun w => s.slotsOf w.1)).flatten.foldl (fun (b : Option (Nat × Nat)) x =>
    match b with
    | some y => if c.since x < c.since y then some x else b
    | none => some x) none).map s.slotTurn

/-- Turns of the slices, and of the Prologue Unit. -/
def State.pathTurns (s : State) : List Turn :=
  (busySlices s).filterMap s.sliceTurn ++ (s.slotsOf puWid).map s.slotTurn

/-- A slice has chosen: the path slot goes to the end of its rotation. -/
def State.chose (s : State) (t : Turn) : State :=
  let note (lane wid k : Nat) : State :=
    if wid = puWid then s
    else s.modCore (coreOf wid) (fun c => { c with
      rotation := c.rotation.filter (fun e => e / 2 ≠ slotName (wid, k)) ++ [2 * slotName (wid, k) + lane] })
  match t with
  | .lane wid k => note 1 wid k
  | .scalar wid k => note 0 wid k
  | _ => s

/-- Turns on offer: none once a fatal error has stopped the module (R364). -/
def State.turns (s : State) : List Turn :=
  if s.hub.fatal then [] else s.pathTurns ++ s.moduleEvents.map Turn.event

/-- The size that an image of a draining context needs never falls (R351). -/
def State.noteSizes (s : State) : State :=
  { s with ctxs := s.ctxs.map (fun c =>
      if c.2.st = .draining ∨ c.2.st = .freezing then (c.1, { c.2 with ssize := s.sizeNow c.1 }) else c) }

/-- A path slot's turn on the agenda, where its slice's rotation comes to another slot, is that slot's (R200). -/
def State.inTurn (s : State) (t : Turn) : Turn :=
  let due (wid k : Nat) : Turn :=
    if wid = puWid then t
    else match s.sliceTurn (wid / 16) with
      | some (.scalar w j) => if w = wid ∧ j = k then t else .scalar w j
      | some (.lane w j) => if w = wid ∧ j = k then t else .lane w j
      | _ => t
  match t with
  | .scalar wid k => due wid k
  | .lane wid k => due wid k
  | _ => t

/-- The turn that is next: the agenda's, else the next of those on offer; after a fatal error only time passes (R364). -/
def State.choose (s : State) : State × Option Turn :=
  let s := if s.hub.fatal then s.pass else s.pass.noteSizes.drainAll.pollAll
  match s.agenda with
  | t :: r =>
    let t := s.inTurn t
    ((({ s with agenda := r }).chose t).attempt t, some t)
  | [] =>
    let ts := s.turns
    let s' := { s with rot := s.rot + 1, freeCtr := s.freeCtr + 1 }
    match ts[s.rot % ts.length]? with
    | some t => ((s'.chose t).attempt t, some t)
    | none => (s', none)

/-! ## What a turn does -/

/-- What comes from outside the instructions. -/
def State.outside (s : State) (o : Outside) : State :=
  match o with
  | .giveFrame frame ctx => s.giveFrame frame ctx
  | .freeFrame frame => s.freeFrame frame
  | .unmapPage ctx vpn => s.unmapPage ctx vpn
  | .beginMove ctx vpn => s.beginMove ctx vpn
  | .shadowUpset wid k d lane x => s.upset wid k d lane x

/-- What a turn has a party do: an instruction to execute at a state, or a state already reached. -/
def State.pick (s : State) (t : Turn) : State × Option Instr :=
  match t with
  | .event e => (s, some e)
  | .outside o => (s.outside o, none)
  | .reap _ => (s, none)
  | .scalar wid k =>
    if !s.canIssue false wid k then (s, none)
    else
      let s := ({ s with cur := (wid, k) }).settleAll wid k
      if !s.canIssue false wid k then (s, none)
      else if s.breaks false wid s.cp then (s, some (.breakpointStop wid k false)) else s.nextScalar
  | .lane wid k =>
    if !s.canIssue true wid k then (s, none)
    else
      let s := ({ s with cur := (wid, k) }).settleAll wid k
      if !s.canIssue true wid k then (s, none)
      else if s.breaks true wid s.cp then (s, some (.breakpointStop wid k true)) else s.nextLane

end Sys2Proof.Machine
end

