-- ==== Sys2Proof/Machine/Step.lean ====
section
/-! DEFINITION. The step: one turn of one party. -/

namespace Sys2Proof.Machine

/-- One step: the party whose turn it is acts (R200, log 1). -/
def step (s : State) : Host.Outcome State Fault Refusal :=
  match s.choose with
  | (s, none) => .next s
  | (s, some t) =>
    match s.pick t with
    | (s, some i) => exec i s
    | (s, none) => .next s

/-- A state whose next step fetches and runs an instruction of a table word (log 2). -/
def State.withFetchWord (s : State) (nbits w : Nat) : State := s.placeWord nbits w

end Sys2Proof.Machine
end

