-- ==== Sys2Proof/Safety.lean ====
section
/-! DEFINITION. What a claim may ask of a state and say of the next one: memory in its canonical form, when nothing
keeps an instruction word from acting, and what a word that acts on registers alone leaves. -/

namespace Sys2Proof.Machine

/-! ## Memory -/

/-- Every sparse store of a memory is canonical: keys strictly rise and no entry equals what an unlisted key reads as. -/
def Mem.wf (m : Mem) : Bool :=
  m.bytes.wf && m.poison.wf && m.canvas.wf && m.canvasPoison.wf && m.stamps.wf && m.canvasStamps.wf && m.counts.wf
    && m.pend.wf && m.enrol.wf && m.owner.wf

/-- The invariant of the machine's memory. -/
def State.memOk (s : State) : Bool := s.mem.wf

/-! ## When an instruction word acts -/

/-- The issuing path has no lookahead window open (R45). -/
def State.quiet (s : State) : Bool := s.cp.windows.isEmpty

/-- Nothing keeps a scalar word of the issuing path from acting (R32, R51, R224, R328, R344), its windows apart; the copies
of a shadowed warp agree (R361). -/
def scalarReady (i : Instr) (s : State) : Bool :=
  !s.hub.fatal && s.path?.isSome && i.wf && !s.transferStall && s.agrees
    && (if s.inPu then puForm i && decide (s.puCount < 4096) else !isPrologue i)
    && !(handlerBars i && s.cp.handler.isSome)

/-- Nothing keeps the lane word at the issuing path's head run from acting in its active lanes (R51, R344, R358), the
windows apart; the copies of a shadowed warp agree (R361). -/
def laneReady (i : Instr) (s : State) : Bool :=
  !s.hub.fatal && s.hasRun && i.wf && s.agrees && !(handlerBars i && s.cp.handler.isSome)
    && (match laneCard i with
        | some (f, k) => decide (k.top f ≤ s.cw.budget) && poisonDeaths s.cw k f (activeMask s.cw s.cp f) [] == 0
        | none => false)

/-! ## What a word that acts on registers alone leaves -/

def State.aN (s : State) (n : Nat) : VAddr := s.cw.a.get n
def State.qN (s : State) (n : Nat) : Bool := s.cp.qBit n

/-- The same but for one place. -/
def setAt {α : Type} (f : Nat → α) (n : Nat) (x : α) : Nat → α := fun m => if m = n then x else f m

/-- The scalar stream has issued one instruction, which left the PC at a place and wrote no register but the scalar,
address and condition registers: memory, the lanes, the other paths and warps and every other register stand. -/
structure ScalarDone (s t : State) (pc : VAddr) : Prop where
  pc : t.cp.pc = pc
  path : t.cp = { s.cp with
    pc := t.cp.pc, s := t.cp.s, q := t.cp.q, queue := t.cp.queue, stall := 0, begun := false, skipBp := false
    awaits := none, stepping := (Path.stepped false s.cp).stepping }
  runs : (∀ r ∈ s.cp.queue, r.pos < r.count) → t.cp.queue = s.cp.queue
  warp : t.cw = { s.cw with s := t.cw.s, a := t.cw.a, slot0 := t.cw.slot0, slot1 := t.cw.slot1, stack := t.cw.stack }
  slots : ∀ k, k ≠ s.cur.2 → t.cw.slot k = s.cw.slot k
  warps : ∀ w, w ≠ s.cur.1 → t.warps.find w = s.warps.find w
  rest : t = { s with warps := t.warps, teams := s.progress.teams, pu := s.puTick.pu }

/-- The same, with the value every scalar, address and condition register then reads. -/
structure ScalarResult (s t : State) (pc : VAddr) (sv : Nat → DWord) (av : Nat → VAddr) (qv : Nat → Bool) : Prop where
  sRegs : ∀ n, t.sN n = sv n
  aRegs : ∀ n, t.aN n = av n
  qRegs : ∀ n, t.qN n = qv n
  done : ScalarDone s t pc

/-- A scalar form completes in every state that lets it act, with these registers and this PC. -/
def Gives (i : Instr) (pc : State → VAddr) (sv : State → Nat → DWord) (av : State → Nat → VAddr)
    (qv : State → Nat → Bool) : Prop :=
  ∀ s : State, s.quiet = true → scalarReady i s = true →
    ∃ t, exec i s = .next t ∧ ScalarResult s t (pc s) (sv s) (av s) (qv s)

/-- The form writes one scalar register and the PC moves to the next word. -/
def GivesS (i : Instr) (d : BitVec 6) (x : State → DWord) : Prop :=
  Gives i (fun s => s.cp.pc + 4) (fun s => setAt s.sN d.toNat (x s)) State.aN State.qN

/-- The form writes one address register. -/
def GivesA (i : Instr) (d : BitVec 4) (x : State → VAddr) : Prop :=
  Gives i (fun s => s.cp.pc + 4) State.sN (fun s => setAt s.aN d.toNat (x s)) State.qN

/-- The form writes one condition register; a write of q0 changes nothing and q0 reads 1 (R33, R35). -/
def GivesQ (i : Instr) (d : BitVec 3) (x : State → Bool) : Prop :=
  Gives i (fun s => s.cp.pc + 4) State.sN State.aN (fun s => if d = 0 then s.qN else setAt s.qN d.toNat (x s))

/-- The form writes no register and leaves the PC at a place. -/
def GivesPc (i : Instr) (pc : State → VAddr) : Prop := Gives i pc State.sN State.aN State.qN

/-- The table of R204 on two 64-bit values. -/
def condition (c : BitVec 3) (a b : DWord) : Bool :=
  match c.toNat with
  | 0 => a == b
  | 1 => a != b
  | 2 => a.slt b
  | 3 => b.sle a
  | 4 => a.ult b
  | 5 => b.ule a
  | 6 => a.sle b
  | _ => b.slt a

/-- The same as Gives in the states that meet a condition on the operands. -/
def GivesWhen (i : Instr) (ok : State → Prop) (pc : State → VAddr) (sv : State → Nat → DWord)
    (av : State → Nat → VAddr) (qv : State → Nat → Bool) : Prop :=
  ∀ s : State, s.quiet = true → scalarReady i s = true → ok s →
    ∃ t, exec i s = .next t ∧ ScalarResult s t (pc s) (sv s) (av s) (qv s)

/-- The word offset from the text base that CALL and CALLI save (R208, R209). -/
def returnWord (s : State) : DWord := BitVec.ofInt 64 (((s.cp.pc.toNat : Int) + 4 - textbaseN s.cctx) / 4)

/-! ## What a lane word leaves -/

/-- A lane word writes register r of lane l: the lane is active in it (R42), and r is one of the n registers from D. -/
def writesLane (s : State) (f : LaneWord) (n r l : Nat) : Bool :=
  bitB (activeMask s.cw s.cp f) l && decide (f.d.toNat ≤ r ∧ r < f.d.toNat + n)

/-- Lane registers after results of n registers from D in the active lanes; every other register and lane stands. -/
def laneRegs (s : State) (f : LaneWord) (n : Nat) (x : Nat → Nat) (r l : Nat) : Word :=
  if writesLane s f n r l then BitVec.ofNat 32 (x l >>> (32 * (r - f.d.toNat))) else s.cw.vReg r l

/-- A predicate after one bit for each active lane; a write of p0 is discarded and p0 reads 1 (R33, R35). -/
def predBits (s : State) (f : LaneWord) (d : Nat) (x : Nat → Bool) (n l : Nat) : Bool :=
  if n = d ∧ d ≠ 0 ∧ bitB (activeMask s.cw s.cp f) l then x l else bitB (s.cw.pred n) l

/-- Dead-source bits after the same; a lane that is written loses its bit (R225). -/
def deadBits (s : State) (f : LaneWord) (d : Nat) (x : Nat → Bool) (n l : Nat) : Bool :=
  if n = d ∧ d ≠ 0 ∧ bitB (activeMask s.cw s.cp f) l then x l else bitB (s.cw.predDs n) l

/-- The run at the head of the path's queue has moved on by one word, and leaves when it has ended (R174). -/
def movedRuns : List Run → List Run
  | r :: t => if r.pos + 1 < r.count then { r with pos := r.pos + 1 } :: t else t
  | [] => []

/-- The lane stream has issued one word, which wrote no register but the lane, predicate, scalar and flag registers: the
PC, memory, the other paths and warps and every other register stand. -/
structure LaneDone (s t : State) : Prop where
  path : t.cp = { s.cp with
    s := t.cp.s, queue := movedRuns s.cp.queue, lstall := 0, both := false, begun := false, skipBp := false, vsync := none
    stepping := (Path.stepped true s.cp).stepping }
  warp : t.cw = { s.cw with
    s := t.cw.s, v := t.cw.v, vpoison := t.cw.vpoison, p := t.cw.p, pds := t.cw.pds, fpctl := t.cw.fpctl
    slot0 := t.cw.slot0, slot1 := t.cw.slot1, stack := t.cw.stack }
  slots : ∀ k, k ≠ s.cur.2 → t.cw.slot k = s.cw.slot k
  warps : ∀ w, w ≠ s.cur.1 → t.warps.find w = s.warps.find w
  rest : t = { s with warps := t.warps, teams := s.progress.teams }

/-- The same, with what every lane register, predicate, scalar register and flag then reads. -/
structure LaneResult (s t : State) (vv : Nat → Nat → Word) (pv dv : Nat → Nat → Bool) (sv : Nat → DWord) (fp : DWord) :
    Prop where
  vRegs : ∀ r l, l < 128 → t.cw.vReg r l = vv r l
  preds : ∀ n l, l < 128 → bitB (t.cw.pred n) l = pv n l
  dead : ∀ n l, l < 128 → bitB (t.cw.predDs n) l = dv n l
  sRegs : ∀ n, t.sN n = sv n
  flags : t.cw.fpctl = fp
  done : LaneDone s t

def State.predN (s : State) (n l : Nat) : Bool := bitB (s.cw.pred n) l
def State.deadN (s : State) (n l : Nat) : Bool := bitB (s.cw.predDs n) l

/-- A lane form completes in every state that lets it act, with one value of n registers from D in each active lane. -/
def GivesV (i : Instr) (f : LaneWord) (n : Nat) (x : State → Nat → Nat) : Prop :=
  ∀ s : State, s.quiet = true → laneReady i s = true →
    ∃ t, exec i s = .next t ∧ LaneResult s t (laneRegs s f n (x s)) s.predN s.deadN s.sN s.cw.fpctl

/-- A lane form completes with one bit of predicate D in each active lane, its dead-source bits cleared (R225). -/
def GivesP (i : Instr) (f : LaneWord) (x : State → Nat → Bool) : Prop :=
  ∀ s : State, s.quiet = true → laneReady i s = true →
    ∃ t, exec i s = .next t ∧ LaneResult s t s.cw.vReg (predBits s f f.d.toNat (x s))
      (deadBits s f f.d.toNat (fun _ => false)) s.sN s.cw.fpctl

/-- Exceptions that the active lanes of a word raise, together (R228). -/
def raisedFlags (s : State) (f : LaneWord) (x : Nat → Nat × Float.Flags) : Float.Flags :=
  (s.actLanes f).foldl (fun a l => a ||| (x l).2) 0

/-- A float form completes where no exception its lanes raise is trapped: its values are rounded results and its flags
are added to sys.fpctl (R228). -/
def GivesF (i : Instr) (f : LaneWord) (n : Nat) (x : State → Nat → Nat × Float.Flags) : Prop :=
  ∀ s : State, s.quiet = true → laneReady i s = true → (∀ l ∈ s.actLanes f, (x s l).2 &&& s.run.traps = 0) → f.la = 0 →
    ∃ t, exec i s = .next t ∧ LaneResult s t (laneRegs s f n (fun l => (x s l).1)) s.predN s.deadN s.sN
      (s.cw.fpctl ||| (raisedFlags s f (x s)).setWidth 64)

/-- A lane-to-scalar form completes with the scalar registers it writes. -/
def GivesScalar (i : Instr) (sv : State → Nat → DWord) : Prop :=
  ∀ s : State, s.quiet = true → laneReady i s = true →
    ∃ t, exec i s = .next t ∧ LaneResult s t s.cw.vReg s.predN s.deadN (sv s) s.cw.fpctl

/-! ## Values of lane forms, as the cards state them -/

/-- An exact integer written to n bits: clamped to the type's bounds with SAT, else wrapped (R229). -/
def narrowed (sat signed : Bool) (n : Nat) (x : Int) : Nat :=
  let lo : Int := if signed then -2 ^ (n - 1) else 0
  let hi : Int := if signed then 2 ^ (n - 1) - 1 else 2 ^ n - 1
  ((if sat then max lo (min hi x) else x) % 2 ^ n).toNat

/-- The integers the first, second and third operands of a lane stand for by the word's type (R226, R229). -/
def intA (f : LaneWord) (s : State) (l : Nat) : Int := intN (isSigned f.tyN) (opBits f) (s.cw.rd f f.a l)
def intB (f : LaneWord) (s : State) (l : Nat) : Int := intN (isSigned f.tyN) (opBits f) (s.cw.rdB f l)
def intC (f : LaneWord) (s : State) (l : Nat) : Int := intN (isSigned f.tyN) (opBits f) (s.cw.rd f f.c l)

/-- An integer form whose exact result is x. -/
def GivesInt (i : Instr) (f : LaneWord) (x : State → Nat → Int) : Prop :=
  GivesV i f (typeRegs f.tyN) (fun s l => narrowed (f.sat == 1) (isSigned f.tyN) (opBits f) (x s l))

/-- A form on bit patterns, whose result of n registers has the bits given. -/
def GivesBits (i : Instr) (f : LaneWord) (n : Nat) (b : State → Nat → Nat → Bool) : Prop :=
  ∃ x : State → Nat → Nat, GivesV i f n x ∧ ∀ s l j, j < 32 * n → (x s l).testBit j = b s l j

/-- The table of R232 on the integers of the word's type. -/
def intCondition (c : Nat) (a b : Int) : Bool :=
  match c with
  | 0 => a == b
  | 1 => a != b
  | 2 => decide (a < b)
  | 3 => decide (a ≥ b)
  | 4 => decide (a ≤ b)
  | _ => decide (a > b)

/-- The step of R241's tree over lanes: x(i) := op(x(i), x(i + step)) for every multiple of 2 × step. -/
def treeStep (op : Nat → Nat → Nat) (step : Nat) (x : Nat → Nat) : Nat → Nat :=
  fun i => if i % (2 * step) = 0 then op (x i) (x (i + step)) else x i

/-- The fixed tree over 128 lanes in order (R241). -/
def laneTree (op : Nat → Nat → Nat) (x : Nat → Nat) : Nat :=
  ([1, 2, 4, 8, 16, 32, 64].foldl (fun x step => treeStep op step x) x) 0

/-- The values a reduction reads: A in a present lane, IDENT in an absent one (R239, R241). -/
def redValue (f : LaneWord) (s : State) (l : Nat) : Nat :=
  if bitB (activeMask s.cw s.cp f) l then s.cw.rd f f.a l else extImm f

/-- A float orders below another: by value, −0 below +0, a NaN neither below nor above (R62). -/
def floatBelow (t : Float.Fmt) (x y : Nat) : Prop :=
  match Float.read t x, Float.read t y with
  | .inf s, .inf r => s = true ∧ r = false
  | .inf s, .num _ _ _ => s = true
  | .num _ _ _, .inf r => r = false
  | .num s m e, .num r n f => Float.toInt s m e (min e f) < Float.toInt r n f (min e f) ∨ (m = 0 ∧ n = 0 ∧ s = true ∧ r = false)
  | _, _ => False

/-- A pattern is a NaN. -/
def isNaN (t : Float.Fmt) (x : Nat) : Prop := ∃ k, Float.read t x = .nan k

/-- min and max of R62 on two float patterns: a NaN gives way to the other operand, and two give the canonical NaN. -/
def FloatMinMax (t : Float.Fmt) (isMax : Bool) (x y r : Nat) : Prop :=
  (isNaN t x → isNaN t y → r = t.nan) ∧ (isNaN t x → ¬isNaN t y → r = y % 2 ^ t.width)
    ∧ (¬isNaN t x → isNaN t y → r = x % 2 ^ t.width)
    ∧ (¬isNaN t x → ¬isNaN t y → (r = x % 2 ^ t.width ∨ r = y % 2 ^ t.width)
        ∧ if isMax then ¬floatBelow t r x ∧ ¬floatBelow t r y else ¬floatBelow t x r ∧ ¬floatBelow t y r)

/-- The table of R62 on an old value o, an operand c and a compare value d of a type, with the result r. -/
def AtomicRow (op t : Nat) (sat : Bool) (rm o c d r : Nat) : Prop :=
  let n := 32 * typeRegs t
  let int := intN (isSigned t) n
  match op with
  | 0 => (isInt t = true → r = narrowed sat (isSigned t) n (int o + int c))
      ∧ (t = 16 → r = (Float.add Float.f32 rm false o c).1 ∧ (isNaN Float.f32 o ∨ isNaN Float.f32 c → r = 0x7FC00000))
  | 1 => (isInt t = true → (r = o ∨ r = c) ∧ int r = min (int o) (int c)) ∧ (t = 16 → FloatMinMax Float.f32 false o c r)
  | 2 => (isInt t = true → (r = o ∨ r = c) ∧ int r = max (int o) (int c)) ∧ (t = 16 → FloatMinMax Float.f32 true o c r)
  | 3 => ∀ j, r.testBit j = (o.testBit j && c.testBit j)
  | 4 => ∀ j, r.testBit j = (o.testBit j || c.testBit j)
  | 5 => ∀ j, r.testBit j = (o.testBit j ^^ c.testBit j)
  | 6 => r = c
  | _ => r = if o = d then c else o

/-- The tree of R64 over 2^k elements: e[i] := op(e[2i], e[2i+1]), k times. -/
def halvesTree (op : Nat → Nat → Nat) : Nat → (Nat → Nat) → Nat
  | 0, e => e 0
  | k + 1, e => halvesTree op k (fun i => op (e (2 * i)) (e (2 * i + 1)))

/-- One half of a packed element's update (R63): x by v, and for saxpy by s × v, rounded once. -/
def halfUpdate (t : Float.Fmt) (op rm x v s : Nat) : Nat :=
  match op with
  | 0 => (Float.add t rm false x v).1
  | 1 => (Float.minMax t false false x v).1
  | 2 => (Float.minMax t false true x v).1
  | _ => (Float.fma t rm false s v x).1

/-- A form with lookahead k where nothing it raises is trapped (R45): unless the word ends its run, its result waits in a
window of the lane stream that k more instructions may issue in, and no register changes yet. -/
def GivesLater (i : Instr) (f : LaneWord) (n : Nat) (x : State → Nat → Nat × Float.Flags) : Prop :=
  ∀ s : State, s.quiet = true → laneReady i s = true → (∀ l ∈ s.actLanes f, (x s l).2 &&& s.run.traps = 0) →
    f.la ≠ 0 → s.cp.stepping = 0 → s.run.pos + 1 < s.run.count →
    ∃ t d, exec i s = .next t ∧ t.cp.windows = [d] ∧ d.lane = true ∧ d.left = f.la.toNat ∧ d.complete = true
      ∧ (∀ r l, l < 128 → (s.cw.applyAll s.cur.2 d.writes).vReg r l = laneRegs s f n (fun l => (x s l).1) r l)
      ∧ (∀ r l, l < 128 → t.cw.vReg r l = s.cw.vReg r l) ∧ (∀ m, t.sN m = s.sN m) ∧ t.mem = s.mem

/-- The least code of the exceptions raised, which R342 has the record name. -/
def trapCode (e : Float.Flags) : Nat :=
  if e &&& Float.NV ≠ 0 then 1 else if e &&& Float.DZ ≠ 0 then 2 else if e &&& Float.OF ≠ 0 then 3
  else if e &&& Float.UF ≠ 0 then 4 else 5

/-- The fault of a lane word that takes every live lane of the path (R22, R228). -/
def State.wholeFault (s : State) (r : FaultRec) (page : Option (Nat × Nat)) : State :=
  (s.raiseOn s.cur.1 s.cur.2 (s.cp.liveMask s.cw) r [] page).checkLatch (coreOf s.cur.1)

/-- A float form all of whose lanes raise a trapped exception writes no register and sets no flag: the path takes the lane
fault "arithmetic" with the least code among its lanes and the mask of the lanes that have it (R228, R342). -/
def TrapsAll (i : Instr) (f : LaneWord) (x : State → Nat → Nat × Float.Flags) : Prop :=
  ∀ s : State, s.quiet = true → laneReady i s = true → s.actLanes f ≠ [] → activeMask s.cw s.cp f = s.cp.liveMask s.cw →
    (∀ l ∈ s.actLanes f, (x s l).2 &&& s.run.traps ≠ 0) →
    ∃ c : Nat, (∃ l ∈ s.actLanes f, trapCode ((x s l).2 &&& s.run.traps) = c)
      ∧ (∀ l ∈ s.actLanes f, c ≤ trapCode ((x s l).2 &&& s.run.traps))
      ∧ exec i s = .next (s.wholeFault {
          cls := 9, cause := BitVec.ofNat 8 c, lane := true, flpc := BitVec.ofNat 20 s.cp.lpc
          mask := maskOf ((s.actLanes f).filter (fun l => trapCode ((x s l).2 &&& s.run.traps) = c)) } none)

/-- The result of a float form by its operation on an element of A, B and C, with SAT (R233). -/
def floatOf (f : LaneWord) (op : Nat → Nat → Nat → Nat × Float.Flags) (s : State) (l : Nat) : Nat × Float.Flags :=
  elements f.tyN (fun j => saturated f
    (op (element f.tyN j (s.cw.rd f f.a l)) (element f.tyN j (s.cw.rd f f.b l)) (element f.tyN j (s.cw.rd f f.c l))))

/-! ## Effects beyond registers -/

/-- A scalar form completes with an effect that leaves a state u, and the PC at a place: after u nothing but the path's
place and the team's progress changes. -/
def Effect (i : Instr) (s u : State) (pc : VAddr) : Prop :=
  ∃ t, exec i s = .next t ∧ ScalarResult u t pc u.sN u.aN u.qN

/-- A lane form completes with an effect that leaves a state u, and the lane stream at the next word. -/
def LaneEffect (i : Instr) (s u : State) : Prop :=
  ∃ t, exec i s = .next t ∧ LaneResult u t u.cw.vReg u.predN u.deadN u.sN u.cw.fpctl

/-- A scalar form of a warp may act: nothing keeps it back and no window of the path is open. -/
def warpReady (i : Instr) (s : State) : Prop := s.quiet = true ∧ scalarReady i s = true ∧ s.inPu = false

/-- A lane form may act, with no window of the path open. -/
def lanesReady (i : Instr) (s : State) : Prop := s.quiet = true ∧ laneReady i s = true

/-- What an access to memory may leave changed beside memory and registers: translations (R17), drawer requests (R82), and
what the race detector keeps (R132-R138). Every other register, path, warp, table and queue stands. -/
structure Kept (s u : State) : Prop where
  warp : u.cw = { s.cw with
    s := u.cw.s, a := u.cw.a, v := u.cw.v, vpoison := u.cw.vpoison, racectl := u.cw.racectl, interval := u.cw.interval
    table := u.cw.table, teamvec := u.cw.teamvec, floor := u.cw.floor, rel := u.cw.rel, slot0 := u.cw.slot0
    slot1 := u.cw.slot1, stack := u.cw.stack }
  path : u.cp = { s.cp with
    s := u.cp.s, queue := u.cp.queue, relFence := u.cp.relFence, acqReads := u.cp.acqReads, access := u.cp.access }
  access : u.cp.access = s.cp.access ∨ u.cp.access = none
  runs : u.cp.queue.map (fun r => (r.off, r.count, r.pos, r.s, r.a)) = s.cp.queue.map (fun r => (r.off, r.count, r.pos, r.s, r.a))
  warps : ∀ w, w ≠ s.cur.1 → u.warps.find w = s.warps.find w
  cores : ∀ c, u.core c = { s.core c with tlb := (u.core c).tlb, l1 := (u.core c).l1 }
  ctxs : ∀ c, u.ctx c = { s.ctx c with covlost := (u.ctx c).covlost }
  rest : u = { s with
    mem := u.mem, ctxs := u.ctxs, cores := u.cores, warps := u.warps, links := u.links, l2 := u.l2, hubTlb := u.hubTlb
    pointers := u.pointers, names := u.names, freeCtr := u.freeCtr }

/-- The tests of R15, R140 and R8 on an exact address, before any lookup: its class and cause. -/
def earlyCause (n : Nat) (ea : Int) : Option (Nat × Nat) :=
  if ea < 0 ∨ 2 ^ 72 ≤ ea then some (2, 1) else if ea % n ≠ 0 then some (2, 5) else if 15 * 2 ^ 68 ≤ ea then some (2, 2) else none

/-- A scalar access whose address fails makes a path fault with the test's class and cause and the address modulo 2^72 (log 17),
and does nothing else: the tests of the address first, then its translation (R22, R145). -/
def AccessFaults (i : Instr) (n : Nat) (want : Want) (ea : State → Int) : Prop :=
  ∀ s : State, warpReady i s →
    (∀ x, earlyCause n (ea s) = some x → exec i s = .next (s.scalarXfault x (BitVec.ofInt 72 (ea s))))
    ∧ ∀ x s1, earlyCause n (ea s) = none → translate s s.agent (ea s).toNat want = (s1, .error x) →
        exec i s = .next (s1.scalarXfault x (BitVec.ofInt 72 (ea s)))

/-- Place of a cause in R22's order (log 147). -/
def causeRank (x : Nat × Nat) : Nat :=
  (([(1, 1), (2, 1), (2, 5), (2, 2), (2, 3), (2, 4), (1, 2), (1, 3)] : List (Nat × Nat)).idxOf x)

/-- A lane access all of whose lanes fail makes one fragment of them: its record names the first cause in order among the lanes,
the lowest lane that has it with its address, and the mask of those lanes; nothing is read or written (R22). -/
def LaneAccessFaults (i : Instr) (f : LaneWord) (want : Want) : Prop :=
  ∀ (s s1 : State) (bs : List LaneBad), lanesReady i s → s.actLanes f ≠ [] → activeMask s.cw s.cp f = s.cp.liveMask s.cw →
    s.xlateLanes s.agent (typeBytes f.tyN) want (s.laneEas f) = (s1, [], bs) →
    bs.map (·.lane) = s.actLanes f
      ∧ (∀ b ∈ bs, b.ea = BitVec.ofInt 72 (laneEa s.cw s.run f b.lane)
          ∧ ∀ x, earlyCause (typeBytes f.tyN) (laneEa s.cw s.run f b.lane) = some x → b.why = x)
      ∧ ∃ b ∈ bs, (∀ c ∈ bs, causeRank b.why ≤ causeRank c.why) ∧ (∀ c ∈ bs, c.why = b.why → b.lane ≤ c.lane)
          ∧ exec i s = .next (s1.wholeFault {
              cls := BitVec.ofNat 8 b.why.1, cause := BitVec.ofNat 8 b.why.2, lane := true, dev := b.why == (1, 3), addr := b.ea
              mask := maskOf ((bs.filter (fun c => c.why = b.why)).map (·.lane)), flpc := BitVec.ofNat 20 s.cp.lpc }
              (if b.why = (1, 3) then some (s.cw.ctx, b.ea.toNat / 65536) else none))

/-- Registers of the issuing path and its warp, but for those of the lanes. -/
def SameScalars (s u : State) : Prop := u.sN = s.sN ∧ u.aN = s.aN ∧ u.qN = s.qN

/-- An address of the scalar stream passes the tests of R22 and R350 and is translated to a place; s1 is the state the
translation leaves. -/
structure Reaches (s : State) (ea : Int) (n : Nat) (want : Want) (rd wr : Bool) (s1 : State) (pa : Nat) : Prop where
  early : earlyFault n ea = none
  tests : ∃ h, translate s s.agent (BitVec.ofInt 72 ea).toNat want = (s1, .ok h) ∧ h.pa = pa
  watch : watchCode s1.cctx s1.cteam false rd wr (BitVec.ofInt 72 ea).toNat n = none

/-- Every active lane of a memory word passes the tests of R22 and R350 at a place that is not in the drawer, and where no
maximum of a drain of the warp still goes (R126, R162); s1 is the state the translations leave. -/
structure LanesReach (s : State) (f : LaneWord) (n : Nat) (want : Want) (rd wr : Bool) (s1 : State) (xs : List LaneAcc) :
    Prop where
  tests : s.xlateLanes s.agent n want (s.laneEas f) = (s1, xs, [])
  watch : ∀ x ∈ xs, watchCode s1.cctx s1.cteam false rd wr x.ea.toNat n = none
  place : ∀ x ∈ xs, isDrawer x.pa = false
  drains : ∀ x ∈ xs, ∀ o ∈ (s1.core (coreOf s.cur.1)).ops, ∀ y ∈ o.parts, y.wid = s.cur.1 → y.opc = 0x383 → bitB y.word.md 1 = true →
    x.pa + n ≤ y.amax ∨ y.amax + 4 ≤ x.pa

/-- No drawer link retrains, and each has nothing waiting outside its queue and room for a request of each lane (R82, R94). -/
def State.linksRoom (s : State) : Prop :=
  ∀ n, (s.link n).st ≠ .retrain ∧ (s.link n).waiting = [] ∧ (s.link n).queue.length ≤ 64

/-- Every active lane of a memory word passes the tests at a place in the drawer, of which the core's L1 holds nothing; some
lane is active, and no maximum of a drain of the warp goes to a word of them. -/
structure DrawerReach (s : State) (f : LaneWord) (n : Nat) (want : Want) (rd wr : Bool) (s1 : State) (xs : List LaneAcc) :
    Prop where
  tests : s.xlateLanes s.agent n want (s.laneEas f) = (s1, xs, [])
  some_ : xs ≠ []
  watch : ∀ x ∈ xs, watchCode s1.cctx s1.cteam false rd wr x.ea.toNat n = none
  place : ∀ x ∈ xs, isDrawer x.pa = true
  lines : ∀ x ∈ xs, s1.l1Line (coreOf s.cur.1) x.pa = none
  drains : ∀ x ∈ xs, ∀ o ∈ (s1.core (coreOf s.cur.1)).ops, ∀ y ∈ o.parts, y.wid = s.cur.1 → y.opc = 0x383 → bitB y.word.md 1 = true →
    x.pa + n ≤ y.amax ∨ y.amax + 4 ≤ x.pa
  links : s1.linksRoom

/-- A lane word with lookahead, or one that waits for the drawer, has issued: its results stand in one open window of the lane
stream that k more instructions may issue in, and no register has changed. -/
structure Waits (s t : State) (d : Window) (k : Nat) (complete : Bool) : Prop where
  windows : t.cp.windows = [d]
  lane : d.lane = true
  left : d.left = k
  complete : d.complete = complete
  queue : t.cp.queue.map (fun r => (r.off, r.count, r.pos)) = (movedRuns s.cp.queue).map (fun r => (r.off, r.count, r.pos))
  regs : (∀ r l, l < 128 → t.cw.vReg r l = s.cw.vReg r l) ∧ SameScalars s t

/-- The same of the scalar stream. -/
structure ScalarWaits (s t : State) (d : Window) (k : Nat) (complete : Bool) : Prop where
  pc : t.cp.pc = s.cp.pc + 4
  windows : t.cp.windows = [d]
  lane : d.lane = false
  left : d.left = k
  complete : d.complete = complete
  regs : SameScalars s t ∧ t.cw.v = s.cw.v

/-- Byte a of memory. -/
def State.byte (s : State) (a : Nat) : Byte := s.mem.bytes.get a

/-- The bytes of a number at a place, lowest address first (R30), and every other byte as before. -/
def storedAt (old : Nat → Byte) (pa n x : Nat) (a : Nat) : Byte :=
  if pa ≤ a ∧ a < pa + n then BitVec.ofNat 8 (x / 256 ^ (a - pa)) else old a

/-- The number n bytes at a place hold, lowest address first (R30). -/
def numAt (b : Nat → Byte) (pa n : Nat) : Nat := ((List.range n).map (fun i => (b (pa + i)).toNat * 256 ^ i)).sum

/-- A store counts once in its granule and marks it pending, where the granule has a count (R98, R99). -/
def countedOnce (m m' : Mem) (pa : Nat) : Prop :=
  (∀ g, m'.counts.get g = if counted pa = true ∧ g = pa / 4096 then m.counts.get g + 1 else m.counts.get g)
    ∧ ∀ g, m'.pend.get g = if counted pa = true ∧ g = pa / 4096 then 1 else m.pend.get g

/-- No trace record is made for the issuing path's context (R374). -/
def State.untraced (s : State) : Bool := !bitB s.cctx.dbgctl 60

/-- The bytes an integer size code of R44 moves, and the 64 bits a scalar load of the code writes. -/
def loadedValue (z x : Nat) : DWord :=
  match z with
  | 0 => BitVec.ofNat 64 (x % 2 ^ 8)
  | 1 => BitVec.ofNat 64 (x % 2 ^ 16)
  | 2 => BitVec.ofNat 64 (x % 2 ^ 32)
  | 4 => (BitVec.ofNat 8 x).signExtend 64
  | 5 => (BitVec.ofNat 16 x).signExtend 64
  | 6 => (BitVec.ofNat 32 x).signExtend 64
  | _ => BitVec.ofNat 64 x

/-- The table of R146 on the old value, the operand and the compare value. -/
def samoTable (o : Nat) (old b d : DWord) : DWord :=
  match o with
  | 0 => old + b
  | 1 => BitVec.ofNat 64 (min old.toNat b.toNat)
  | 2 => BitVec.ofInt 64 (min old.toInt b.toInt)
  | 3 => BitVec.ofNat 64 (max old.toNat b.toNat)
  | 4 => BitVec.ofInt 64 (max old.toInt b.toInt)
  | 5 => old &&& b
  | 6 => old ||| b
  | 7 => old ^^^ b
  | 8 => b
  | _ => if old = d then b else old

/-- Lanes of accesses are the active lanes of the word, each at its exact address (R15, R42). -/
def lanesOfWord (s : State) (f : LaneWord) (xs : List LaneAcc) : Prop :=
  xs.map (·.lane) = s.actLanes f ∧ ∀ x ∈ xs, (x.ea.toNat : Int) = laneEa s.cw s.run f x.lane

/-- No other lane's access of n bytes overlaps this one's. -/
def alone (xs : List LaneAcc) (n : Nat) (x : LaneAcc) : Prop := ∀ y ∈ xs, y.lane ≠ x.lane → y.pa + n ≤ x.pa ∨ x.pa + n ≤ y.pa

/-- What a warp reads of a system register (R37, R38, R345), where it does not belong to the Prologue Unit. -/
def sysRead (s : State) (n : Nat) : Option DWord :=
  let live := s.cp.mask &&& ~~~s.cw.exited
  let rcd := (s.cp.handler.map (·.rcd)).getD {}
  match n with
  | 0x000 => some (BitVec.ofNat 64 (lowestLane live))
  | 0x001 => some (BitVec.ofNat 64 (s.cur.1 % 64))
  | 0x002 => some s.cteam.teamid
  | 0x003 => some (BitVec.ofNat 64 (s.cur.1 / 12800 * 256 + s.cur.1 / 64 % 200))
  | 0x004 => some (live.extractLsb' 0 64)
  | 0x005 => some (live.extractLsb' 64 64)
  | 0x006 => some (s.cw.dead.extractLsb' 0 64)
  | 0x007 => some (s.cw.dead.extractLsb' 64 64)
  | 0x008 => some (BitVec.ofNat 64 (fragSerial s))
  | 0x009 => some (BitVec.ofNat 64 s.cw.budget)
  | 0x00A => some s.cw.role
  | 0x010 => some s.cctx.covlost
  | 0x011 => some s.cycle
  | 0x012 => some s.cw.fpctl
  | 0x013 => some s.cw.racectl
  | 0x020 => some (s.cctx.textbase &&& ~~~0xFFFF)
  | 0x021 => some (s.cctx.lanebase &&& ~~~0xFFFF)
  | 0x030 => some s.cctx.trap
  | 0x031 => if s.cp.handler = none then some 0 else some (BitVec.ofNat 64
      (rcd.cause.toNat + 2 ^ 8 * rcd.cls.toNat + 2 ^ 16 * boolNat rcd.lane + 2 ^ 17 * boolNat rcd.dev + 2 ^ 18 * boolNat rcd.async))
  | 0x032 => if s.cp.handler = none then some 0 else some (rcd.addr.extractLsb' 0 64)
  | 0x033 => if s.cp.handler = none then some 0 else some ((rcd.addr.extractLsb' 64 8).setWidth 64)
  | 0x034 => if s.cp.handler = none then some 0 else some (rcd.mask.extractLsb' 0 64)
  | 0x035 => if s.cp.handler = none then some 0 else some (rcd.mask.extractLsb' 64 64)
  | 0x036 => match s.cp.handler with | none => some 0 | some h => some (BitVec.ofNat 64 (s.cctx.wordOff h.pc))
  | 0x037 => if s.cp.handler = none then some 0 else some (rcd.flpc.setWidth 64)
  | 0x038 => if s.cp.handler = none then some 0 else some rcd.fdata
  | 0x039 => some (s.cp.fdisp.setWidth 64)
  | n =>
    if 0x040 ≤ n ∧ n ≤ 0x047 then some (s.cw.lvl.get (n - 0x040))
    else if 0x100 ≤ n ∧ n ≤ 0x11F then some (s.link (n - 0x100)).dlctl else none

/-- Access to a system register need not wait for runs of the warp (R219). -/
def sysSettled (s : State) (n : Nat) : Prop := n = 0x012 ∨ n = 0x013 → s.cw.runIds = [] ∧ s.cp.awaits = none

/-- A slot the path gives up is taken by its own handler: nothing else waits for it (R177, R344). -/
def slotIsOurs (s : State) : Prop :=
  s.cur.2 = 0 ∧ s.cw.stack = [] ∧ oldestReady (s.core (coreOf s.cur.1)) s.cur.1 = none

/-- The barrier b of the issuing path's team. -/
def State.bar (s : State) (b : Nat) : Barrier := (s.teams.getD s.cw.team {}).barriers.getD b {}

/-- Arrivals of a phase: those before, and the issuing path's live lanes. -/
def arrivedWith (s : State) (b wid : Nat) : Mask :=
  if wid = s.cur.1 then (s.bar b).arrived.get wid ||| s.cp.liveMask s.cw else (s.bar b).arrived.get wid

/-- Every lane of the team that is neither dead nor exited has then arrived (R190). -/
def phaseFull (s : State) (b : Nat) : Prop :=
  ∀ wid ∈ (s.teams.getD s.cw.team {}).warps, ∀ w, s.warps.find wid = some w →
    ~~~(w.dead ||| w.exited) &&& ~~~arrivedWith s b wid = 0

/-- A node operand of the change-tree forms: a live node's index below 2^20 (R109). -/
def namesNode (s : State) (r : BitVec 6) (n : Nat) : Prop := (s.sReg r).toNat = n ∧ n < 2 ^ 20 ∧ s.nodeLive s.cw.ctx n = true

/-- The node n of the issuing path's context. -/
def State.nodeN (s : State) (n : Nat) : Node := s.node s.cw.ctx n

/-- A state that differs from s only in the change tree: node records, enrolment and marks. -/
def treeOnly (s u : State) : Prop :=
  u = { s with nodes := u.nodes, watchEvents := u.watchEvents, mem := { s.mem with pend := u.mem.pend, enrol := u.mem.enrol } }

/-- Entries of an engine queue of the issuing path's core. -/
def State.engine (s : State) (q : Nat) : List EngEntry := ((s.core (coreOf s.cur.1)).queues.getD q {}).entries

/-- An entry of the issuing warp with what the form read at issue (R262). -/
def entryOf (s : State) (e : EngEntry) (form : EngForm) (rcd : List DWord) (base : VAddr) (coff : Nat) : Prop :=
  e.form = form ∧ e.wid = s.cur.1 ∧ e.team = s.cw.team ∧ e.ctx = s.cw.ctx ∧ e.rcd = rcd ∧ e.base = base ∧ e.coff = coff
    ∧ e.started = false ∧ e.segs = 0

/-- The form is issued: one entry joins its queue, and the issue is a release (R159). -/
def Issued (s s1 u : State) (q : Nat) : Prop :=
  (∀ k, k ≠ q → u.engine k = s1.engine k) ∧ u.cw.interval = s.cw.interval + 1 ∧ SameScalars s u ∧ u.cw.v = s.cw.v
    ∧ u.mem = s1.mem

/-- The 576 bytes of a reap's report (R293, R305). -/
def reportBytes (s : State) (r : Reap) : List Byte :=
  ((recordWords r.sys true r.bound r.seq ((s.systems.find r.sys).getD {}).nwatch s.cycle r.counts).map (fun w => bytesOf 8 w.toNat)).flatten

/-- The key of a residual (R299): the value limited to 65,535, a negative integer 0, and of a float the top 16 bits of its
magnitude, a NaN the greatest. -/
def keyOf (ty x : Nat) : Nat :=
  if ty = 7 then min x 65535
  else if ty = 3 then (if (BitVec.ofNat 32 x).toInt < 0 then 0 else min x 65535)
  else if 0x7F800000 < x % 2 ^ 31 then 65535 else x % 2 ^ 31 / 32768

/-- Every active lane of a canvas word passes the checks of R58 and R350, and no matrix operation of the warp is pending. -/
structure CanvasReach (s : State) (f : LaneWord) (w : Nat) (rd wr : Bool) : Prop where
  idle : s.matrixPending = false
  inside : ∀ l ∈ s.actLanes f, 0 ≤ laneEa s.cw s.run f l ∧ laneEa s.cw s.run f l + w ≤ s.cteam.canvasSize
  aligned : ∀ l ∈ s.actLanes f, laneEa s.cw s.run f l % w = 0
  plain : wr = true → ∀ l ∈ s.actLanes f, touchesHeader s.cteam (laneEa s.cw s.run f l).toNat w = false
  watch : ∀ l ∈ s.actLanes f, watchCode s.cctx s.cteam true rd wr (laneEa s.cw s.run f l).toNat w = none

/-- Place of a lane's canvas operand among the canvas bytes (R55, R57). -/
def canvasAt (s : State) (f : LaneWord) (l : Nat) : Nat := canvasKey s.cteam (laneEa s.cw s.run f l).toNat

/-- The accesses of the active lanes of a canvas word. -/
def canvasAccs (s : State) (f : LaneWord) : List LaneAcc :=
  (s.actLanes f).map (fun l => { lane := l, ea := BitVec.ofInt 72 (laneEa s.cw s.run f l), pa := canvasAt s f l })

/-- Byte a of the canvases. -/
def State.cbyte (s : State) (a : Nat) : Byte := s.mem.canvas.get a

/-- A canvas access leaves everything but canvas, registers and what the race detector keeps. -/
def CanvasOnly (s u : State) : Prop := Kept s u ∧ SameScalars s u ∧ u.mem.bytes = s.mem.bytes ∧ u.mem.counts = s.mem.counts

/-- A ring form may act at an offset: some lane is active, no matrix operation is pending, R58 and R373 pass. -/
structure RingReach (s : State) (f : LaneWord) (h : Nat) : Prop where
  lanes : activeMask s.cw s.cp f ≠ 0
  idle : s.matrixPending = false
  place : laneEa s.cw s.run f 0 = h
  checks : canvasCause s.cteam false 8 (h : Int) = 0
  watch : watchCode s.cctx s.cteam true false true h 256 = none
  team : (s.teams.find s.cw.team).isSome = true

/-- The operand of a ring form: that of the lowest active lane. -/
def ringValue (s : State) (f : LaneWord) : Nat := (s.cw.vReg f.a.toNat (lowestLane (activeMask s.cw s.cp f))).toNat

/-- The ring at an offset of the issuing path's team. -/
def State.ringHere (s : State) (h : Nat) : Ring := s.ring s.cteam h

/-- The wait of the issuing path on a ring. -/
def State.ringWait (s : State) (f : LaneWord) (h : Nat) (free : Bool) : RingWait :=
  { header := h, wid := s.cur.1, slot := s.cur.2, free := free, lpc := s.cp.lpc, word := f }

/-- What a ring form leaves: it may change the ring's header and SEG bytes, its team's ring records, and the interval and
acquires of the warp; no other canvas byte, no memory, no scalar register and no other warp. -/
def RingOnly (s u : State) (h : Nat) : Prop :=
  SameScalars s u ∧ u.mem.bytes = s.mem.bytes ∧ u.mem.counts = s.mem.counts
    ∧ (∀ a, ¬(canvasKey s.cteam h ≤ a ∧ a < canvasKey s.cteam h + 256) → u.cbyte a = s.cbyte a)
    ∧ ∀ w, w ≠ s.cur.1 → u.warps.find w = s.warps.find w

/-- The arrival of the issuing path at the latch with a matrix word whose operands it has read (R196). -/
def State.arrivalOf (s : State) (opc : Nat) (f : LaneWord) (x : Nat × VAddr × Nat) : Arrival :=
  { id := s.names, wid := s.cur.1, opc := opc, word := f, g0 := s.cw.g0, coff := x.1, amaxVa := x.2.1, amax := x.2.2 }

/-- The path has arrived at the latch (R196, R273). -/
def matrixArrived (s : State) (opc : Nat) (f : LaneWord) (x : Nat × VAddr × Nat) : State :=
  (({ s with names := s.names + 1 }).modCore (coreOf s.cur.1) (fun k => { k with
    latch := k.latch ++ [s.arrivalOf opc f x] })).modP (fun p => { p with mx := some s.names, lstall := 8 })

/-- Arrivals at the latch that name one operation of a gang of team t: the same form and g0, MCNT large enough, no listed
warp exited or parked (R196). -/
structure GangAgrees (s : State) (as : List Arrival) (opc t : Nat) (g : DWord) : Prop where
  same : ∀ a ∈ as, a.opc = opc ∧ a.g0 = g ∧ s.teamOf a.wid = t
  alive : gangExited s t g = false
  room : ∀ a ∈ as, mxReg a.opc a.word + gangN g - 1 ≤ gangMcnt g
  live : s.gangParked (coreOf s.cur.1) t g = false

/-- The words that the drains among arrivals merge their maximum into translate at their release, one after another, to
those of the list l, and leave the state u (R22, R277). -/
def AmaxReach (s : State) : List Arrival → State → List Arrival → Prop
  | [], u, l => u = s ∧ l = []
  | a :: r, u, l => ∃ t b k, (if a.merges = true then s.amaxAgain a = (t, .ok b) else t = s ∧ b = a)
      ∧ AmaxReach t r u k ∧ l = b :: k

/-- A matrix form that is the last arrival of its gang is released with the others (R196, R273): the operation of the listed
warps, in the order of g0, joins the core's operations and the arrivals leave the latch. -/
def ReleasesMatrix (i : Instr) (opc : Nat) (f : LaneWord) : Prop :=
  ∀ s s1 x l u l', lanesReady i s → s.cp.mx = none → (s.core (coreOf s.cur.1)).grant = some s.cw.team → s.cw.g0 ≠ 0 →
    s.cw.tindex ∈ gangList s.cw.g0 → s.teamWarp s.cw.team s.cw.tindex = some s.cur.1 → s.mxOperands opc f = (s1, .ok x) →
    (∀ a ∈ (s.core (coreOf s.cur.1)).latch, a.wid ≠ s.cur.1 ∧ a.id < s.names) →
    (∀ k p, s.cw.slot k = some p → ∀ n, p.mx = some n → n < s.names) →
    let core := coreOf s.cur.1
    let s' := matrixArrived s1 opc f x
    let as := (s'.core core).latch
    GangAgrees s' as opc s.cw.team s.cw.g0 → s'.listed as s.cw.g0 s.cw.team = some l →
    (∀ a ∈ l, mxFields a.word = mxFields f) → l.all (s'.formatOk core) = true → AmaxReach s' l u l' →
    exec i s = .next (u.releaseLatch core l')
      ∧ ((u.releaseLatch core l').core core).ops = (s.core core).ops ++ [{ id := s1.names + 1, parts := l' }]

/-! ## Events of the module and writes of the host -/

/-- An event or a register write completes from every state that meets a condition, where no fatal error has stopped the
module (R364); what it leaves is said of the state before and the state after. -/
def Happens (i : Instr) (ok : State → Prop) (post : State → State → Prop) : Prop :=
  ∀ s : State, s.hub.fatal = false → ok s → ∃ t, exec i s = .next t ∧ post s t

/-- Every drawer link takes requests of the hub: none retrains, none has anything waiting outside its queue, and each queue
has room for 64 requests more; the step asks for the first of its own (R82, R94, R279, R398). -/
def State.linksTake (s : State) : Prop :=
  s.held = none ∧ s.credit = [] ∧ ∀ n, (s.link n).st ≠ .retrain ∧ (s.link n).waiting = [] ∧ (s.link n).queue.length ≤ 128

/-- The same of an event that accesses memory through the hub, where no link makes it wait. -/
def HappensVia (i : Instr) (ok : State → Prop) (post : State → State → Prop) : Prop :=
  Happens i (fun s => ok s ∧ s.linksTake) post

/-- The context has not been torn down (R356): no write of the module for it has failed. -/
def State.stands (t : State) (c : Nat) : Prop := (t.ctx c).st ≠ .tornDown

/-- A warp's path in a place. -/
def State.pathIs (s : State) (wid k : Nat) (p : Path) : Prop := s.pathAt wid k = some p

/-- The oldest operation of a core is of these parts, all of one form and on tiles of their own; it does not wait for its
weight slot, and no path of its warps holds an access that failed the race check (R136, R273, R274). -/
structure GangOp (s : State) (core opc : Nat) (ps : List Arrival) (r : List MxOp) : Prop where
  oldest : ∃ id, (s.core core).ops = { id := id, parts := ps } :: r
  form : ∀ a ∈ ps, a.opc = opc
  slots : opc = 0x380 → ∀ a ∈ ps, ((s.core core).wslots.getD a.word.a.toNat {}).state ≠ 2
  tiles : (ps.zipIdx.map (fun x => x.1.tile x.2)).Nodup
  calm : ∀ a ∈ ps, ∀ w, s.warps.find a.wid = some w → ∀ k p, w.slot k = some p → ∀ d ∈ p.windows, d.race = none

/-- A tile of a core reads as given. -/
def TileIs (t : State) (core tile : Nat) (x : Nat → Nat → Nat) : Prop :=
  ∀ r c, r < 64 → c < 32 → (t.core core).tileAt tile r c = x r c % 2 ^ 32

/-- Place of a part's canvas tile among the canvas bytes. -/
def State.partKey (s : State) (a : Arrival) : Nat := canvasKey (s.teams.getD (s.teamOf a.wid) {}) a.coff

/-- The tile bytes the part at a position drains (R277). -/
def State.drained (s : State) (core : Nat) (a : Arrival) (i : Nat) : List Byte :=
  drainBytes a.word i ((s.core core).tileRows (a.tile i))

/-- The entry at an engine queue's head may act: the queue is not parked, none of the entry's requests waits outside a link's
queue, and its context's state lets it (R82, R264, R353). -/
structure EngineGoes (s : State) (core q : Nat) (e : EngEntry) : Prop where
  head : s.engHead core q = some e
  open_ : ((s.core core).queues.getD q {}).park = none
  inside : e.outside = []
  ctx : (s.ctx e.ctx).st ≠ .freezing ∧ (s.ctx e.ctx).st ≠ .frozen ∧ (s.ctx e.ctx).st ≠ .restoring

/-- One link alone has changed. -/
def LinkOnly (s t : State) (n : Nat) : Prop := t = { s with links := t.links } ∧ ∀ m, m ≠ n → t.link m = s.link m

/-- The first wait of a ring for a kind, as R71 keeps it, among the paths that may act; the path has no window open. -/
structure RingFirst (s : State) (m h : Nat) (w : RingWait) : Prop where
  head : s.ringFirst m h w.free = some w
  warp : (s.warps.find w.wid).isSome = true ∧ s.teamOf w.wid = m
  live : (s.teams.find m).isSome = true ∧ h ∈ (s.teams.getD m {}).rings
  stages : 1 ≤ (s.ring (s.teams.getD m {}) h).nst ∧ (s.ring (s.teams.getD m {}) h).nst ≤ 64
  calm : ∀ p, s.pathAt w.wid w.slot = some p → p.windows = []

/-- A GO of a mailbox passes the tests of R336 that need no translation, and no earlier transaction waits (R155). -/
structure MeReady (s : State) (mb op : Nat) (v : DWord) : Prop where
  free : (s.mailbox mb).busy = false
  live : s.blocksLive = true
  owned : bitsN (s.ctx (MbCmd.ctx v)).cfg 55 48 = mb / 8
  tables : xdescOk (s.ctx (MbCmd.ctx v)).xdesc = true
  fields : bitsN v 57 56 = 0 ∧ bitsN v 47 8 = 0
  size : 2 ≤ op → 4 ≤ MbCmd.size v
  aligned : MbCmd.addr v (s.mailbox mb).addr % MbCmd.size v = 0
  memory : inWindow (MbCmd.addr v (s.mailbox mb).addr) = false
  turn : s.hub.mailboxes.all (fun b => b.2.todo.isNone) = true

/-- The mailbox has taken a command whose transaction is still to be performed. -/
def State.meTaken (s : State) (mb op : Nat) (v : DWord) : State :=
  let v := putBit (putBits v 62 60 op) 63 false
  ({ s with names := s.names + 1 }).modBox mb (fun b => { b with cmd := v, busy := true, work := v, todo := some s.names })

/-- The access of a GO is translated to a place that holds no poison, of the drawer only where the links take its requests;
s1 is the state the translation leaves. -/
def MeReaches (s : State) (mb op : Nat) (v : DWord) (s1 : State) (h : Hit) : Prop :=
  (s.meTaken mb op v).hub? (MbCmd.ctx v) (MbCmd.addr v (s.mailbox mb).addr) (meWant op) = (s1, .ok h)
    ∧ (isDrawer h.pa = true → s1.linksTake) ∧ poisoned s1.mem.poison h.pa (MbCmd.size v) = false

/-- The mailbox's transaction is on its way with a status of 0 and a result. -/
def MePending (t : State) (mb : Nat) (res : DWord) : Prop :=
  (t.mailbox mb).busy = true ∧ (t.mailbox mb).todo = none ∧ (t.mailbox mb).pendingStatus = 0 ∧ (t.mailbox mb).pendingRes = res

/-- The entry in progress of a queue, of a command and not ended, while its context runs or drains. -/
def InProgress (s : State) (ctx q cmd : Nat) (e : Entry) : Prop := s.entryOf ctx q = some e ∧ e.cmd = cmd

/-- The queue's entry has ended with a status. -/
def Ended (t : State) (ctx q : Nat) (status : BitVec 8) : Prop :=
  ∃ e, (t.queue ctx q).entry = some e ∧ e.status = some status

/-- No fence of the entry's tag with another mask names its queue (R333). -/
def Unopposed (s : State) (ctx q : Nat) (e : Entry) : Prop :=
  ∀ k f, k < 16 → s.fenceOf ctx k = some f → f.2 = (e.word 2).toNat → f.1 = (e.word 1).toNat ∨ f.1.testBit q = false

/-- A graph in progress stands at a good node of a kind. -/
def AtNode (s : State) (ctx q kind : Nat) (e : Entry) (g : Graph) : Prop :=
  InProgress s ctx q 5 e ∧ e.graph = some g ∧ g.ok = true ∧ nodeKind g.node = kind

/-- The graph of a queue's entry. -/
def State.graphAt (t : State) (ctx q : Nat) : Option Graph := (t.queue ctx q).entry.bind (·.graph)

/-- A DBGCMD names a path of the context. -/
def Names (s : State) (ctx op : Nat) (v : DWord) (wid : Nat) (x : PathPlace) (p : Path) : Prop :=
  s.blocksLive = true ∧ s.named ctx (putBits v 62 60 op) = some (wid, x) ∧ s.pathIn wid x = some p

/-- A freeze has taken a context off the module: no team, no system, and its image in the save area (R353). -/
def Frozen (s t : State) (c : Nat) : Prop :=
  (t.ctx c).st = .frozen ∧ ctxTeams t c = [] ∧ (∀ y ∈ t.systems, y.2.ctx ≠ c)
    ∧ ∃ k im, t.images.find k = some im ∧ im.ctx = c ∧ im.teams = s.teams.filter (fun x => x.2.ctx = c)
      ∧ ∀ j, j < im.size → t.byte ((s.ctx c).saveArea + j) = Config.imageByte im.draw j

/-- What any reset takes away: contexts, teams, warps, standing state, the hub's registers and the stage reached (R377). -/
def Fresh (t : State) (held : Bool) : Prop :=
  t.ctxs = [] ∧ t.teams = [] ∧ t.warps = [] ∧ t.cores = [] ∧ t.systems = [] ∧ t.hub = {} ∧ t.links = [] ∧ t.cycle = 0
    ∧ t.plat.stage = 0 ∧ t.plat.live = false ∧ t.plat.inReset = held

end Sys2Proof.Machine

namespace Sys2Proof.Float

/-! ## Floating point, as R233 to R236 state it -/

def formats : List Fmt := [h16, w16, f32, f64]

/-- Sums, products and fused sums of finite nonzero operands are the exact value, rounded once (R233, R234). -/
def ExactOnce (t : Fmt) (rm a b c : Nat) : Prop :=
  ∀ (s1 s2 s3 : Bool) (m1 m2 m3 : Nat) (e1 e2 e3 : Int),
    read t a = .num s1 m1 e1 → read t b = .num s2 m2 e2 → read t c = .num s3 m3 e3 → m1 ≠ 0 → m2 ≠ 0 → m3 ≠ 0 →
    (let q := min e1 e2
      let x := toInt s1 m1 e1 q + toInt s2 m2 e2 q
      x ≠ 0 → add t rm false a b = round t rm false (decide (x < 0)) x.natAbs q false)
    ∧ (let q := min e1 e2
      let x := toInt s1 m1 e1 q - toInt s2 m2 e2 q
      x ≠ 0 → sub t rm false a b = round t rm false (decide (x < 0)) x.natAbs q false)
    ∧ mul t rm false a b = round t rm false (s1 != s2) (m1 * m2) (e1 + e2) false
    ∧ (let q := min (e1 + e2) e3
      let x := toInt (s1 != s2) (m1 * m2) (e1 + e2) q + toInt s3 m3 e3 q
      x ≠ 0 → fma t rm false a b c = round t rm false (decide (x < 0)) x.natAbs q false)

/-- ±m × 2^e rounded to nearest is a value no other finite value of the format is nearer than, unless it overflows; inexact
says that it differs. -/
def Nearest (t : Fmt) (neg : Bool) (m : Nat) (e : Int) : Prop :=
  let r := round t 0 false neg m e false
  r.2 &&& OF = 0 → ∃ s1 m1 e1, read t r.1 = .num s1 m1 e1
    ∧ (r.2 &&& NX = 0 ↔ toInt neg m e (min e e1) = toInt s1 m1 e1 (min e e1))
    ∧ ∀ y s2 m2 e2, read t y = .num s2 m2 e2 →
        let q := min (min e e1) e2
        (toInt neg m e q - toInt s1 m1 e1 q).natAbs ≤ (toInt neg m e q - toInt s2 m2 e2 q).natAbs

/-- The special cases of R234 and R235. -/
def Specials (t : Fmt) (rm a b c : Nat) (ftz : Bool) : Prop :=
  (∀ k, read t a = .nan k →
    (add t rm ftz a b).1 = t.nan ∧ (add t rm ftz b a).1 = t.nan ∧ (mul t rm ftz a b).1 = t.nan
      ∧ (div t rm ftz a b).1 = t.nan ∧ (sqrt t rm ftz a).1 = t.nan
      ∧ (k = true → (add t rm ftz a b).2 = NV ∧ (mul t rm ftz a b).2 = NV))
  ∧ (∀ s1 s2 m e z, read t a = .num s1 m e → m ≠ 0 → read t b = .num s2 0 z →
      div t rm false a b = (t.inf (s1 != s2), DZ))
  ∧ (∀ s1 s2 z, read t a = .inf s1 → read t b = .num s2 0 z → (fma t rm ftz a b c).1 = t.nan
      ∧ ((∀ k, read t c ≠ .nan k) → (fma t rm ftz a b c).2 = NV) ∧ (read t c = .nan false → (fma t rm ftz a b c).2 = NV))
  ∧ (∀ k, read t a = .nan k → (read t b).isNan = false → ∀ mx,
      (minMax t false mx a b).1 = b % 2 ^ t.width ∧ (minMax t false mx b a).1 = b % 2 ^ t.width)
  ∧ (∀ k j, read t a = .nan k → read t b = .nan j → ∀ mx, (minMax t ftz mx a b).1 = t.nan)
  ∧ classBit t a < 10

/-- The listed special cases of R236, whatever the candidate result. -/
def ApproxSpecials (ftz : Bool) (c : Nat) : Prop :=
  frsq ftz 0 c = (0x7F800000, DZ) ∧ frsq ftz 0x80000000 c = (0xFF800000, DZ) ∧ frsq ftz 0x7F800000 c = (0, 0)
  ∧ frsq ftz 0xBF800000 c = (0x7FC00000, NV)
  ∧ fexp2 ftz 0xFF800000 c = (0, 0) ∧ fexp2 ftz 0x7F800000 c = (0x7F800000, 0) ∧ fexp2 ftz 0x40400000 c = (0x41000000, 0)
  ∧ fexp2 ftz 0x43000000 c = (0x7F800000, OF ||| NX)
  ∧ flog2 ftz 0 c = (0xFF800000, DZ) ∧ flog2 ftz 0x80000000 c = (0xFF800000, DZ) ∧ flog2 ftz 0xBF800000 c = (0x7FC00000, NV)
  ∧ flog2 ftz 0x3F800000 c = (0, 0) ∧ flog2 ftz 0x7F800000 c = (0x7F800000, 0) ∧ flog2 ftz 0x41000000 c = (0x40400000, 0)
  ∧ trig false ftz 0x7F800000 c = (0x7FC00000, NV) ∧ trig true ftz 0xFF800000 c = (0x7FC00000, NV)
  ∧ trig false ftz 0x80000000 c = (0x80000000, 0) ∧ trig true ftz 0 c = (0x3F800000, 0)

/-- A result of an approximate form: within b × 2^be of the enclosed exact value, or that value rounded to nearest; under FTZ a
subnormal result is flushed. It raises inexact (R236). -/
def Approx (ftz : Bool) (x : Encl) (b : Nat) (be : Int) (r : Nat × Flags) : Prop :=
  (∃ y, (y = x.nearest ftz ∨ x.within y b be = true) ∧ r.1 = if ftz then flushed f32 true y else y) ∧ r.2 &&& NX = NX

/-- What R236 gives each approximate form on a finite nonzero operand a, whose value is ±m × 2^e, whatever the candidate c. -/
def ApproxBounds (ftz : Bool) (a c : Nat) (s : Bool) (m : Nat) (e : Int) : Prop :=
  let lead : Int := e + bitLen m - 1
  let i := toInt s m e (min e 0)
  let sc : Nat := 2 ^ (-(min e 0)).toNat
  let n := i / sc
  (s = false → Approx ftz (frsqEncl m e) 1 (frsqEncl m e).ulp (frsq ftz a c)
    ∧ (frsqEncl m e).neg = false ∧ (frsqEncl m e).e = -((e - e % 2) / 2) - 160
    ∧ (frsqEncl m e).lo ^ 2 * (m * 2 ^ (e % 2).toNat) ≤ 2 ^ 640 ∧ 2 ^ 640 ≤ (frsqEncl m e).hi ^ 2 * (m * 2 ^ (e % 2).toNat))
  ∧ (i % sc ≠ 0 ∨ n < -149 → -151 ≤ n → n < 128 → Approx ftz (exp2Encl n (i % sc).toNat sc) 2 (exp2Encl n (i % sc).toNat sc).ulp (fexp2 ftz a c))
  ∧ (n < -151 → Approx ftz exp2Tiny 2 (-149) (fexp2 ftz a c))
  ∧ (i % sc = 0 → -126 ≤ n → n < 128 → fexp2 ftz a c = (((n + 127) * 2 ^ 23).toNat, 0))
  ∧ (i % sc = 0 → -149 ≤ n → n < -126 → ftz = false → fexp2 ftz a c = (2 ^ (n + 149).toNat, UF))
  ∧ (128 ≤ n → fexp2 ftz a c = (0x7F800000, OF ||| NX))
  ∧ (s = false → m ≠ 2 ^ (bitLen m - 1) →
      if lead = 0 ∨ lead = -1 then Approx ftz (log2Encl m e) 1 (-22) (flog2 ftz a c)
      else Approx ftz (log2Encl m e) 2 (log2Encl m e).ulp (flog2 ftz a c))
  ∧ (s = false → m = 2 ^ (bitLen m - 1) → (flog2 ftz a c).2 = 0 ∧ ∃ r k f, read f32 (flog2 ftz a c).1 = .num r k f
      ∧ toInt r k f (min f 0) = toInt (decide (lead < 0)) lead.natAbs 0 (min f 0))
  ∧ ∀ cos, Approx ftz (trigEncl cos s m e) 1 (-22) (trig cos ftz a c)

/-- m × 2^-k rounded to an integer by a rounding of R40. -/
def RoundedInt (rm : Nat) (neg : Bool) (m k x : Nat) : Prop :=
  let down := x * 2 ^ k ≤ m ∧ m < (x + 1) * 2 ^ k
  let up := m ≤ x * 2 ^ k ∧ x * 2 ^ k < m + 2 ^ k
  let off := 2 * ((x * 2 ^ k : Nat) - (m : Int)).natAbs
  match rm with
  | 0 => off ≤ 2 ^ k ∧ (off = 2 ^ k → x % 2 = 0)
  | 1 => down
  | 2 => if neg then down else up
  | 3 => if neg then up else down
  | _ => off ≤ 2 ^ k ∧ (off = 2 ^ k → m < x * 2 ^ k)

/-- A float rounded to an integral value of its own type (R237). -/
def Integral (t : Fmt) (rm x : Nat) : Prop :=
  let r := toIntegral t rm false x
  match read t x with
  | .nan true => r = (t.nan, NV)
  | .nan false | .inf _ | .num _ 0 _ => r = (x % 2 ^ t.width, 0)
  | .num s m e => r.2 = 0 ∧ (0 ≤ e → r.1 = x % 2 ^ t.width) ∧ (e < 0 → ∃ k n f, RoundedInt rm s m (-e).toNat k
      ∧ read t r.1 = .num s n f ∧ toInt s n f (min f 0) = toInt s k 0 (min f 0))

/-- SAT on a float result: clamped to [+0, 1], NaN to +0 (R233). -/
def Clamped (t : Fmt) (x : Nat) : Prop :=
  match read t x with
  | .nan _ | .inf true | .num true _ _ => clamp t x = 0
  | .inf false => clamp t x = one t
  | .num false m e => (toInt false 1 0 (min e 0) ≤ toInt false m e (min e 0) → clamp t x = one t)
      ∧ (toInt false m e (min e 0) ≤ toInt false 1 0 (min e 0) → clamp t x = x % 2 ^ t.width)

end Sys2Proof.Float

namespace Sys2Proof.Machine

/-! ## Tensors in memory and in the canvas, as R254 to R256 and R267 state them -/

/-- The value of a DX element's code under its block's exponents (R254). -/
def dxElem (d8 : Bool) (e0 e1 code : Nat) : Float.Val :=
  let e := if code / (if d8 then 128 else 8) % 2 = 1 then e1 else e0
  if e = 0 then .num false 0 0
  else if e = 255 then .nan false
  else .num (decide (code / (if d8 then 64 else 4) % 2 = 1)) (code % (if d8 then 64 else 4)) ((e : Int) - 127 - (if d8 then 5 else 1))

/-- Element i of block b of a dense CX tile of a format, whose head is at k among bytes (R254, R256). -/
def tileElem (m : Nat → Byte) (k cf : Nat) (tileB : Bool) (b i : Nat) : Float.Val :=
  let n := if tileB then 32 else 64
  match cf with
  | 1 => dxElem true (m (k + 64 + 32 * n + 2 * b)).toNat (m (k + 64 + 32 * n + 2 * b + 1)).toNat (m (k + 64 + 32 * b + i)).toNat
  | 2 => dxElem false (m (k + 64 + 16 * n + 2 * b)).toNat (m (k + 64 + 16 * n + 2 * b + 1)).toNat
      ((m (k + 64 + 16 * b + i / 2)).toNat / 16 ^ (i % 2) % 16)
  | 3 => Float.read Float.h16 (numAt m (k + 64 + 64 * b + 2 * i) 2)
  | 4 => Float.read Float.w16 (numAt m (k + 64 + 64 * b + 2 * i) 2)
  | _ => Float.read Float.f32 (numAt m (k + 64 + 128 * b + 4 * i) 4)

/-- rnd of R255 on the quotient n ÷ d, for value i under a dither phase. -/
def dxRound (mode phase i n d : Nat) : Nat :=
  let j := (i + phase) % 32
  match mode with
  | 0 => if d < 2 * (n % d) ∨ (2 * (n % d) = d ∧ n / d % 2 = 1) then n / d + 1 else n / d
  | 1 => n / d
  | _ => (32 * n + (16 * (j % 2) + 8 * (j / 2 % 2) + 4 * (j / 4 % 2) + 2 * (j / 8 % 2) + j / 16) * d) / (32 * d)

/-- Exponents and elements that R255 gives 32 exact values. -/
def DxBlock (d8 : Bool) (mode phase : Nat) (xs : List (Option Tensor.Ratio)) (e0 e1 : Nat) (els : List Tensor.Elem) : Prop :=
  let mmax := if d8 then 63 else 3
  let u := if d8 then 32 else 2
  let fits := fun e => ∀ x, some x ∈ xs → x.num * u * 2 ^ 127 ≤ mmax * 2 ^ e * x.den
  let q := fun e i (x : Tensor.Ratio) => if e = 0 then 0 else min mmax (dxRound mode phase i (x.num * u * 2 ^ 127) (x.den * 2 ^ e))
  let err := fun e i (x : Tensor.Ratio) => ((x.num * u * 2 ^ 127 : Nat) - (q e i x * 2 ^ e * x.den : Nat) : Int).natAbs
  if none ∈ xs then e0 = 255 ∧ e1 = 255 ∧ els = List.replicate xs.length { sel := false, neg := false, mag := 0 }
  else if xs.all (fun x => x.all (·.num == 0)) then e0 = 0 ∧ e1 = 0 ∧ els = List.replicate xs.length { sel := false, neg := false, mag := 0 }
  else 1 ≤ e0 ∧ e0 ≤ 254 ∧ (e0 = 254 ∨ fits e0) ∧ (∀ e, 1 ≤ e → e < e0 → ¬fits e) ∧ e1 = e0 - (if d8 then 4 else 2)
    ∧ els.length = xs.length ∧ ∀ i x, xs[i]? = some (some x) → ∃ y, els[i]? = some y
      ∧ y.sel = decide (err e1 i x < err e0 i x) ∧ y.mag = q (if y.sel then e1 else e0) i x ∧ y.neg = (x.neg && decide (0 < y.mag))

/-- A ratio is a value ÷ a finite nonzero one. -/
def IsRatio (x d : Float.Val) (r : Option Tensor.Ratio) : Prop :=
  match x, d with
  | .num s m e, .num t n f => ∃ y, r = some y ∧ y.neg = (s != t) ∧ (n ≠ 0 → y.den ≠ 0)
      ∧ y.num * (n * 2 ^ (f - min e f).toNat) = y.den * (m * 2 ^ (e - min e f).toNat)
  | _, _ => r = none

/-- Where the element at a place of tile t's line lies, and its size; none where it is clipped (R267). -/
def plainPlace (r : List DWord) (g t line pos : Nat) : Option (Nat × Nat) :=
  let row := (if Shape.isB r then 32 else 64) * (t / Shape.tk r) + line
  let col := 32 * (t % Shape.tk r) + pos
  if (Shape.grows r ≠ 0 ∧ Shape.grows r ≤ row) ∨ (Shape.gcols r ≠ 0 ∧ Shape.gcols r ≤ col) then none
  else some (g + row * Shape.gstride r + col * Shape.elemSize r, Shape.elemSize r)

/-- Where byte j of block b of tile t lies in block storage; none where the block is clipped (R267). -/
def blockPlace (r : List DWord) (g t b j : Nat) : Option (Nat × Nat) :=
  let row := if Shape.isB r then t / Shape.tk r else 64 * (t / Shape.tk r) + b
  let col := if Shape.isB r then 32 * (t % Shape.tk r) + b else t % Shape.tk r
  if (Shape.grows r ≠ 0 ∧ Shape.grows r ≤ row) ∨ (Shape.gcols r ≠ 0 ∧ Shape.gcols r ≤ 32 * col) then none
  else some (g + row * Shape.gstride r + col * (if Shape.sfmt r = 4 then 34 else 18) + j, 1)

end Sys2Proof.Machine
end

