-- ==== Sys2Proof/Certificates/Slice0/Obligations.lean ====
section
/-! DEFINITION. The statements of this model, each from a numbered rule of the spec or derived from its sections. -/

open Sys2Proof Sys2Proof.Machine

/-! ## Scalar forms (R203 to R213) -/

/-- R203: the arithmetic forms, every operand at every value; the quotient is rounded toward zero, division by zero
gives all ones and a remainder of A, and no division faults. -/
def Obligations.ScalarArithmetic : Prop :=
  (∀ d a b, GivesS (.sadd d a b) d (fun s => s.sReg a + s.sReg b))
    ∧ (∀ d a b, GivesS (.ssub d a b) d (fun s => s.sReg a - s.sReg b))
    ∧ (∀ d a b, GivesS (.smul d a b) d (fun s => s.sReg a * s.sReg b))
    ∧ (∀ d a b, GivesS (.smulh d a b 0) d (fun s =>
        (((s.sReg a).signExtend 128 * (s.sReg b).signExtend 128) >>> 64).setWidth 64))
    ∧ (∀ d a b, GivesS (.smulh d a b 1) d (fun s =>
        (((s.sReg a).setWidth 128 * (s.sReg b).setWidth 128) >>> 64).setWidth 64))
    ∧ (∀ d a b, GivesS (.sdiv d a b 0) d (fun s =>
        if s.sReg b = 0 then BitVec.allOnes 64 else BitVec.ofInt 64 ((s.sReg a).toInt.tdiv (s.sReg b).toInt)))
    ∧ (∀ d a b, GivesS (.sdiv d a b 1) d (fun s =>
        if s.sReg b = 0 then BitVec.allOnes 64 else BitVec.ofNat 64 ((s.sReg a).toNat / (s.sReg b).toNat)))
    ∧ (∀ d a b, GivesS (.srem d a b 0) d (fun s =>
        if s.sReg b = 0 then s.sReg a else BitVec.ofInt 64 ((s.sReg a).toInt.tmod (s.sReg b).toInt)))
    ∧ (∀ d a b, GivesS (.srem d a b 1) d (fun s =>
        if s.sReg b = 0 then s.sReg a else BitVec.ofNat 64 ((s.sReg a).toNat % (s.sReg b).toNat)))

/-- R203: the bitwise, shift, least and greatest, count, move and select forms. R205 and R206: the immediate forms act
as the register forms with B := sext64(imm14), the shifts by imm14 bits 5-0, and SLUI reads its own destination;
SLUI's word. -/
def Obligations.ScalarBitsAndImmediates : Prop :=
  ((∀ d a b, GivesS (.sand d a b) d (fun s => s.sReg a &&& s.sReg b))
    ∧ (∀ d a b, GivesS (.sor d a b) d (fun s => s.sReg a ||| s.sReg b))
    ∧ (∀ d a b, GivesS (.sxor d a b) d (fun s => s.sReg a ^^^ s.sReg b))
    ∧ (∀ d a b, GivesS (.sshl d a b) d (fun s => BitVec.ofNat 64 ((s.sReg a).toNat * 2 ^ ((s.sReg b).toNat % 64))))
    ∧ (∀ d a b, GivesS (.sshr d a b) d (fun s => BitVec.ofNat 64 ((s.sReg a).toNat / 2 ^ ((s.sReg b).toNat % 64))))
    ∧ (∀ d a b, GivesS (.ssar d a b) d (fun s => BitVec.ofInt 64 ((s.sReg a).toInt / 2 ^ ((s.sReg b).toNat % 64))))
    ∧ (∀ d a b, GivesS (.smin d a b 0) d (fun s => BitVec.ofInt 64 (min (s.sReg a).toInt (s.sReg b).toInt)))
    ∧ (∀ d a b, GivesS (.smin d a b 1) d (fun s => BitVec.ofNat 64 (min (s.sReg a).toNat (s.sReg b).toNat)))
    ∧ (∀ d a b, GivesS (.smax d a b 0) d (fun s => BitVec.ofInt 64 (max (s.sReg a).toInt (s.sReg b).toInt)))
    ∧ (∀ d a b, GivesS (.smax d a b 1) d (fun s => BitVec.ofNat 64 (max (s.sReg a).toNat (s.sReg b).toNat)))
    ∧ (∀ d a, GivesS (.spopc d a) d (fun s =>
        BitVec.ofNat 64 (((List.range 64).map (fun i => (s.sReg a).toNat / 2 ^ i % 2)).sum)))
    ∧ (∀ d a, GivesS (.sclz d a) d (fun s =>
        BitVec.ofNat 64 (if s.sReg a = 0 then 64 else 63 - (s.sReg a).toNat.log2)))
    ∧ (∀ d a, GivesS (.smov d a) d (fun s => s.sReg a))
    ∧ (∀ d a b n, GivesS (.ssel d a b n) d (fun s => if s.qReg n = true then s.sReg a else s.sReg b)))
  ∧ ((∀ d a i, GivesS (.saddi d a i) d (fun s => s.sReg a + BitVec.ofInt 64 i.toInt))
    ∧ (∀ d a i, GivesS (.sandi d a i) d (fun s => s.sReg a &&& BitVec.ofInt 64 i.toInt))
    ∧ (∀ d a i, GivesS (.sori d a i) d (fun s => s.sReg a ||| BitVec.ofInt 64 i.toInt))
    ∧ (∀ d a i, GivesS (.sxori d a i) d (fun s => s.sReg a ^^^ BitVec.ofInt 64 i.toInt))
    ∧ (∀ d a i, GivesS (.sshli d a i) d (fun s => BitVec.ofNat 64 ((s.sReg a).toNat * 2 ^ i.toNat)))
    ∧ (∀ d a i, GivesS (.sshri d a i) d (fun s => BitVec.ofNat 64 ((s.sReg a).toNat / 2 ^ i.toNat)))
    ∧ (∀ d a i, GivesS (.ssari d a i) d (fun s => BitVec.ofInt 64 ((s.sReg a).toInt / 2 ^ i.toNat)))
    ∧ (∀ d i, GivesS (.slui d i) d (fun s => BitVec.ofNat 64 ((s.sReg d).toNat * 2 ^ 20 + i.toNat)))
    ∧ (∀ d i, encodeScalar (.slui d i) = some (BitVec.ofNat 32 (0x0C * 2 ^ 26 + d.toNat * 2 ^ 20 + i.toNat))))

/-- R204: SCMP, SCMPI and ACMP share the condition codes; ACMP takes .eq, .ne, .ult and .uge on 72-bit unsigned
values. A write of q0 is discarded. -/
def Obligations.ScalarCompares : Prop :=
  (∀ d a b c, GivesQ (.scmp d a b c) d (fun s => condition c (s.sReg a) (s.sReg b)))
    ∧ (∀ d a c i, GivesQ (.scmpi d a c i) d (fun s => condition c (s.sReg a) (BitVec.ofInt 64 i.toInt)))
    ∧ (∀ d a b, GivesQ (.acmp d a b 0) d (fun s => s.aReg a == s.aReg b))
    ∧ (∀ d a b, GivesQ (.acmp d a b 1) d (fun s => s.aReg a != s.aReg b))
    ∧ (∀ d a b, GivesQ (.acmp d a b 4) d (fun s => (s.aReg a).ult (s.aReg b)))
    ∧ (∀ d a b, GivesQ (.acmp d a b 5) d (fun s => (s.aReg b).ule (s.aReg a)))

/-- R207: the address forms; a sum within 0 to 2^72 - 1 is written. -/
def Obligations.AddressForms : Prop :=
  (∀ d a b, GivesS (.asub d a b) d (fun s =>
      BitVec.ofInt 64 (max (-(2 ^ 63)) (min (2 ^ 63 - 1) (((s.aReg a).toNat : Int) - (s.aReg b).toNat)))))
    ∧ (∀ d a, GivesA (.aset d a) d (fun s => BitVec.ofNat 72 (s.sReg a).toNat))
    ∧ (∀ d a b, GivesA (.asetW d a b) d (fun s =>
        BitVec.ofNat 72 ((s.sReg b).toNat % 256 * 2 ^ 64 + (s.sReg a).toNat)))
    ∧ (∀ d a, GivesS (.aget d a) d (fun s => BitVec.ofNat 64 ((s.aReg a).toNat % 2 ^ 64)))
    ∧ (∀ d a, GivesS (.agetHi d a) d (fun s => BitVec.ofNat 64 ((s.aReg a).toNat / 2 ^ 64)))
    ∧ (∀ d a b, GivesWhen (.aadd d a b)
        (fun s => 0 ≤ ((s.aReg a).toNat : Int) + (s.sReg b).toInt ∧ ((s.aReg a).toNat : Int) + (s.sReg b).toInt < 2 ^ 72)
        (fun s => s.cp.pc + 4) State.sN
        (fun s => setAt s.aN d.toNat (BitVec.ofInt 72 (((s.aReg a).toNat : Int) + (s.sReg b).toInt))) State.qN)
    ∧ (∀ d a i, GivesWhen (.aaddi d a i)
        (fun s => 0 ≤ ((s.aReg a).toNat : Int) + i.toInt ∧ ((s.aReg a).toNat : Int) + i.toInt < 2 ^ 72)
        (fun s => s.cp.pc + 4) State.sN
        (fun s => setAt s.aN d.toNat (BitVec.ofInt 72 (((s.aReg a).toNat : Int) + i.toInt))) State.qN)

/-- R208, R209 and R212: the PC after each control transfer, the return offset in s63, and the count and the word of
LOOP. That RET and CALLI take their target modulo 2^72 is the model's reading (log 14). -/
def Obligations.ControlTransfers : Prop :=
  (∀ o, GivesPc (.br o) (fun s => s.cp.pc + BitVec.ofInt 72 (4 * o.toInt)))
    ∧ (∀ q sn o, GivesPc (.bq q sn o) (fun s =>
        if s.qReg q = (sn == 1) then s.cp.pc + BitVec.ofInt 72 (4 * o.toInt) else s.cp.pc + 4))
    ∧ (∀ o, Gives (.call o) (fun s => s.cp.pc + BitVec.ofInt 72 (4 * o.toInt))
        (fun s => setAt s.sN 63 (returnWord s)) State.aN State.qN)
    ∧ (∀ a, Gives (.calli a) (fun s => BitVec.ofNat 72 (textbaseN s.cctx + 4 * (s.sReg a).toNat))
        (fun s => setAt s.sN 63 (returnWord s)) State.aN State.qN)
    ∧ GivesPc .ret (fun s => BitVec.ofNat 72 (textbaseN s.cctx + 4 * (s.sReg 63).toNat))
    ∧ (∀ d i, Gives (.loop d i)
        (fun s => if s.sReg d = 1 then s.cp.pc + 4 else s.cp.pc + BitVec.ofInt 72 (4 * i.toInt))
        (fun s => setAt s.sN d.toNat (s.sReg d - 1)) State.aN State.qN)
    ∧ (∀ d i, encodeScalar (.loop d i) = some (BitVec.ofNat 32 (0x15 * 2 ^ 26 + d.toNat * 2 ^ 20 + i.toNat)))

/-! ## Lane forms (R214 to R247) -/

/-- R229: the integer forms write the exact result, wrapped or clamped, in each active lane. -/
def Obligations.LaneIntegers : Prop :=
  ∀ f : LaneWord,
    GivesInt (.vadd f) f (fun s l => intA f s l + intB f s l)
    ∧ GivesInt (.vsub f) f (fun s l => intA f s l - intB f s l)
    ∧ GivesInt (.vmul f) f (fun s l => intA f s l * intB f s l)
    ∧ GivesInt (.vmulh f) f (fun s l => intA f s l * intB f s l / 2 ^ opBits f)
    ∧ GivesInt (.vmad f) f (fun s l => intA f s l * intB f s l + intC f s l)
    ∧ GivesInt (.vmin f) f (fun s l => min (intA f s l) (intB f s l))
    ∧ GivesInt (.vmax f) f (fun s l => max (intA f s l) (intB f s l))
    ∧ GivesInt (.vabs f) f (fun s l => ((intA f s l).natAbs : Int))
    ∧ GivesInt (.vneg f) f (fun s l => -intA f s l)
    ∧ GivesV (.vdot4 f) f 1 (fun s l => narrowed (f.sat == 1) (isSigned f.tyN) 32
        (intN (isSigned f.tyN) 32 (s.cw.rd f f.c l)
          + ((List.range 4).map (fun i => intN (isSigned f.tyN) 8 (s.cw.rd f f.a l / 256 ^ i)
              * intN (isSigned f.tyN) 8 (s.cw.rd f f.b l / 256 ^ i))).sum))

/-- R230: the bit forms, by the bits of their results; shift distances are taken modulo the width. R230: VBFX gives
the field of len bits at pos, extended by the type; VBFI replaces it by the low bits of C. A field past the top is
cut, and an empty one gives 0 and a. -/
def Obligations.LaneBitForms : Prop :=
  (∀ f : LaneWord,
    GivesBits (.vshl f) f (typeRegs f.tyN) (fun s l j =>
      decide (s.cw.rdB f l % opBits f ≤ j) && (s.cw.rd f f.a l).testBit (j - s.cw.rdB f l % opBits f))
    ∧ GivesBits (.vshr f) f (typeRegs f.tyN) (fun s l j => (s.cw.rd f f.a l).testBit (j + s.cw.rdB f l % opBits f))
    ∧ GivesBits (.vsar f) f (typeRegs f.tyN) (fun s l j =>
        (s.cw.rd f f.a l).testBit (min (j + s.cw.rdB f l % opBits f) (opBits f - 1)))
    ∧ GivesBits (.vand f) f (typeRegs f.tyN) (fun s l j => (s.cw.rd f f.a l).testBit j && (s.cw.rdB f l).testBit j)
    ∧ GivesBits (.vor f) f (typeRegs f.tyN) (fun s l j => (s.cw.rd f f.a l).testBit j || (s.cw.rdB f l).testBit j)
    ∧ GivesBits (.vxor f) f (typeRegs f.tyN) (fun s l j => (s.cw.rd f f.a l).testBit j ^^ (s.cw.rdB f l).testBit j)
    ∧ GivesBits (.vnot f) f (typeRegs f.tyN) (fun s l j => !(s.cw.rd f f.a l).testBit j)
    ∧ GivesBits (.vlop3 f) f (typeRegs f.tyN) (fun s l j =>
        f.ext.getLsbD (4 * boolNat ((s.cw.rd f f.a l).testBit j) + 2 * boolNat ((s.cw.rd f f.b l).testBit j)
          + boolNat ((s.cw.rd f f.c l).testBit j)))
    ∧ GivesBits (.vbrev f) f (typeRegs f.tyN) (fun s l j => (s.cw.rd f f.a l).testBit (opBits f - 1 - j))
    ∧ GivesV (.vpopc f) f 1 (fun s l => ((List.range (opBits f)).map (fun j => s.cw.rd f f.a l / 2 ^ j % 2)).sum)
    ∧ GivesV (.vclz f) f 1 (fun s l =>
        if s.cw.rd f f.a l = 0 then opBits f else opBits f - 1 - (s.cw.rd f f.a l).log2))
  ∧ (∀ f : LaneWord,
    GivesBits (.vbfx f) f (typeRegs f.tyN) (fun s l j =>
      let pos := bfCtl s.cw f l % 256
      let len := min (bfCtl s.cw f l / 256 % 256) (opBits f - pos)
      decide (0 < len) && (if j < len then (s.cw.rd f f.a l).testBit (pos + j)
        else isSigned f.tyN && (s.cw.rd f f.a l).testBit (pos + len - 1)))
    ∧ GivesBits (.vbfi f) f (typeRegs f.tyN) (fun s l j =>
      let pos := bfCtl s.cw f l % 256
      let len := min (bfCtl s.cw f l / 256 % 256) (opBits f - pos)
      if pos ≤ j ∧ j < pos + len then (s.cw.rd f f.c l).testBit (j - pos) else (s.cw.rd f f.a l).testBit j))

/-- R231: moves, the select and the lane index; VMOVS reads the registers as they stood at the run's LRUN. R232: an
integer compare writes the condition of its type; a float compare the condition of R232 on the exact values, raising
nothing but invalid. -/
def Obligations.LaneMovesAndCompares : Prop :=
  (∀ f : LaneWord,
    GivesV (.vmov f) f (typeRegs f.tyN) (fun s l => s.cw.rd f f.a l)
    ∧ GivesV (.vmovi f) f (typeRegs f.tyN) (fun _ _ =>
        if f.tyN = 4 then (f.ext.toInt % 2 ^ 64).toNat else f.ext.toNat)
    ∧ (f.imm = false → GivesV (.vmovs f) f (typeRegs f.tyN) (fun s _ => (s.run.s.get f.a.toNat).toNat % 2 ^ opBits f))
    ∧ (f.imm = true → GivesV (.vmovs f) f (typeRegs f.tyN) (fun s _ => (s.run.a.get f.a.toNat).toNat % 2 ^ opBits f))
    ∧ GivesV (.vsel f) f (typeRegs f.tyN) (fun s l =>
        if bitB (s.cw.pred f.c.toNat) l = true then s.cw.rd f f.a l else s.cw.rd f f.b l)
    ∧ GivesV (.vlane f) f 1 (fun _ l => l))
  ∧ (∀ f : LaneWord,
    (isInt f.tyN = true → GivesP (.vcmp f) f (fun s l => intCondition (f.mdN 3 1) (intA f s l) (intB f s l)))
    ∧ (isInt f.tyN = false → ∀ s : State, s.quiet = true → laneReady (.vcmp f) s = true → s.run.traps = 0 →
        ∃ t, exec (.vcmp f) s = .next t
          ∧ LaneResult s t s.cw.vReg
              (predBits s f f.d.toNat (fun l => (Sys2Proof.Float.cmp (Sys2Proof.Float.ofType f.tyN) (f.mdN 3 1)
                (element f.tyN 0 (s.cw.rd f f.a l)) (element f.tyN 0 (s.cw.rd f f.b l))).1))
              (deadBits s f f.d.toNat (fun _ => false)) s.sN
              (s.cw.fpctl ||| (raisedFlags s f (fun l => (0, (Sys2Proof.Float.cmp (Sys2Proof.Float.ofType f.tyN) (f.mdN 3 1)
                (element f.tyN 0 (s.cw.rd f f.a l)) (element f.tyN 0 (s.cw.rd f f.b l))).2))).setWidth 64)))

/-- R238: the predicate forms; a write of a predicate clears the lane's dead-source bit. -/
def Obligations.LanePredicates : Prop :=
  ∀ f : LaneWord,
    GivesP (.pand f) f (fun s l => (s.predN f.a.toNat l ^^ f.md.getLsbD 1) && (s.predN f.b.toNat l ^^ f.md.getLsbD 2))
    ∧ GivesP (.por f) f (fun s l => (s.predN f.a.toNat l ^^ f.md.getLsbD 1) || (s.predN f.b.toNat l ^^ f.md.getLsbD 2))
    ∧ GivesP (.pxor f) f (fun s l => (s.predN f.a.toNat l ^^ f.md.getLsbD 1) ^^ (s.predN f.b.toNat l ^^ f.md.getLsbD 2))
    ∧ GivesP (.pnot f) f (fun s l => !s.predN f.a.toNat l)
    ∧ (f.imm = false → GivesP (.pmov f) f (fun s l => s.predN f.a.toNat l))
    ∧ (f.imm = true → GivesP (.pmov f) f (fun s l => s.deadN f.a.toNat l))

/-- R245, R246 and R247: votes and ballots, a predicate over the path's live lanes, and one lane's value. R241 and
R242: a reduction follows the fixed tree over lanes by the operations of R62, an integer sum is exact and narrowed
once, and VREDIX names the least or greatest value present and the lowest lane that holds it; a float NaN wins over no
number, and NaNs alone give the canonical NaN and the lowest lane present. -/
def Obligations.LanesToScalarForms : Prop :=
  (∀ f : LaneWord,
    (f.mdN 2 1 = 0 → GivesScalar (.vvote f) (fun s => setAt s.sN f.d.toNat
      (if (s.actLanes f).any (fun l => s.predN f.a.toNat l) then 1 else 0)))
    ∧ (f.mdN 2 1 = 1 → GivesScalar (.vvote f) (fun s => setAt s.sN f.d.toNat
        (if (s.actLanes f).all (fun l => s.predN f.a.toNat l) then 1 else 0)))
    ∧ (f.mdN 2 1 = 2 → GivesScalar (.vvote f) (fun s =>
        let b := maskOf ((s.actLanes f).filter (fun l => s.predN f.a.toNat l))
        setAt (setAt s.sN f.d.toNat (b.extractLsb' 0 64)) (f.d.toNat + 1) (b.extractLsb' 64 64)))
    ∧ GivesScalar (.pget f) (fun s =>
        let b := maskOf ((lanesOf (s.cp.liveMask s.cw)).filter (fun l =>
          if f.imm then s.deadN f.a.toNat l else s.predN f.a.toNat l))
        setAt (setAt s.sN f.d.toNat (b.extractLsb' 0 64)) (f.d.toNat + 1) (b.extractLsb' 64 64))
    ∧ (f.ext.getLsbD 7 = false → GivesScalar (.vget f) (fun s => setAt s.sN f.d.toNat
        (if f.ext.toNat % 128 ∈ s.actLanes f then BitVec.ofNat 64 (s.cw.rd f f.a (f.ext.toNat % 128)) else 0)))
    ∧ (f.ext.getLsbD 7 = true → GivesScalar (.vget f) (fun s => setAt s.sN f.d.toNat
        (match s.actLanes f with | l :: _ => BitVec.ofNat 64 (s.cw.rd f f.a l) | [] => 0))))
  ∧ (∀ f : LaneWord,
    (f.mdN 4 2 ≠ 0 ∨ isFloat f.tyN = true → GivesScalar (.vred f) (fun s => setAt s.sN f.d.toNat
      (toScalar f.tyN (laneTree (fun x y => aluNew (f.mdN 4 2) f.tyN false f.rnd.toNat x y 0) (redValue f s)))))
    ∧ (f.mdN 4 2 = 0 → isInt f.tyN = true → GivesScalar (.vred f) (fun s => setAt s.sN f.d.toNat
        (toScalar f.tyN (narrowed (f.sat == 1) (isSigned f.tyN) (opBits f)
          (((List.range 128).map (fun l => intN (isSigned f.tyN) (opBits f) (redValue f s l))).sum)))))
    ∧ (∀ s : State, s.quiet = true → laneReady (.vredix f) s = true → s.actLanes f = [] →
        ∃ t, exec (.vredix f) s = .next t
          ∧ t.sN f.d.toNat = toScalar f.tyN f.ext.toNat ∧ t.sN (f.d.toNat + 1) = 128)
    ∧ (∀ s : State, s.quiet = true → laneReady (.vredix f) s = true → isInt f.tyN = true → s.actLanes f ≠ [] →
        ∃ t l, exec (.vredix f) s = .next t ∧ l ∈ s.actLanes f
          ∧ t.sN f.d.toNat = toScalar f.tyN (s.cw.rd f f.a l) ∧ t.sN (f.d.toNat + 1) = BitVec.ofNat 64 l
          ∧ ∀ j ∈ s.actLanes f,
              (if f.imm then intA f s j ≤ intA f s l else intA f s l ≤ intA f s j)
                ∧ (intA f s j = intA f s l → l ≤ j))
    ∧ (∀ s : State, s.quiet = true → laneReady (.vredix f) s = true → f.tyN = 16 → s.actLanes f ≠ [] →
        ∃ t l, exec (.vredix f) s = .next t ∧ l ∈ s.actLanes f ∧ t.sN (f.d.toNat + 1) = BitVec.ofNat 64 l
          ∧ ((∀ j ∈ s.actLanes f, isNaN Sys2Proof.Float.f32 (s.cw.rd f f.a j)) →
              t.sN f.d.toNat = 0x7FC00000 ∧ ∀ j ∈ s.actLanes f, l ≤ j)
          ∧ ((∃ j ∈ s.actLanes f, ¬isNaN Sys2Proof.Float.f32 (s.cw.rd f f.a j)) →
              t.sN f.d.toNat = BitVec.ofNat 64 (s.cw.rd f f.a l) ∧ ¬isNaN Sys2Proof.Float.f32 (s.cw.rd f f.a l)
              ∧ ∀ j ∈ s.actLanes f, (if f.imm then ¬floatBelow Sys2Proof.Float.f32 (s.cw.rd f f.a l) (s.cw.rd f f.a j)
                  else ¬floatBelow Sys2Proof.Float.f32 (s.cw.rd f f.a j) (s.cw.rd f f.a l))
                ∧ (s.cw.rd f f.a j = s.cw.rd f f.a l → l ≤ j))))

/-- R240 and R243: a shuffle takes its source lane's value where that lane is in the segment and present, else C; a
scan folds the present lanes in ascending order from IDENT. -/
def Obligations.LaneShufflesAndScans : Prop :=
  ∀ f : LaneWord,
    (∀ s : State, s.quiet = true → laneReady (.vshuf f) s = true →
      let w := 2 ^ f.extN 7 4
      let k := fun l => if f.imm then f.ext.toNat / 256 % 256 else (s.cw.vReg f.b.toNat l).toNat
      let src : Nat → Int := fun l =>
        if f.mdN 2 1 = 0 then ((l - l % w : Nat) : Int) + (k l % w : Nat)
        else if f.mdN 2 1 = 1 then ((l - l % w : Nat) : Int) + (Nat.xor l (k l) % w : Nat)
        else if f.mdN 2 1 = 2 then (l : Int) - k l else (l : Int) + k l
      let inSeg := fun l => decide (((l - l % w : Nat) : Int) ≤ src l ∧ src l < ((l - l % w : Nat) : Int) + w)
      let hit := fun l => inSeg l && decide ((src l).toNat ∈ s.actLanes f)
      let q := fun (x : Nat → Bool) (old : Nat → Nat → Bool) n l =>
        if f.ext.getLsbD 3 = true ∧ n = f.ext.toNat % 8 ∧ n ≠ 0 ∧ bitB (activeMask s.cw s.cp f) l = true then x l else old n l
      ∃ t, exec (.vshuf f) s = .next t
        ∧ LaneResult s t (laneRegs s f (typeRegs f.tyN) (fun l => if hit l then s.cw.rd f f.a (src l).toNat else s.cw.rd f f.c l))
            (q hit s.predN) (q (fun l => inSeg l && !hit l && bitB s.cw.dead (src l).toNat) s.deadN) s.sN s.cw.fpctl)
    ∧ GivesV (.vscan f) f (typeRegs f.tyN) (fun s l =>
        ((s.actLanes f).filter (fun j => if bitB f.md 1 then decide (j < l) else decide (j ≤ l))).foldl
          (fun acc j => aluNew (f.mdN 4 2) f.tyN (f.sat == 1) f.rnd.toNat acc (s.cw.rd f f.a j) 0) (extImm f))

/-! ## Floating point and conversions (R47 to R57, R220) -/

/-- R228 and R234: the float forms write the rounded result of each element in each active lane and add its exceptions
to sys.fpctl, where none is trapped. That FCLASS writes one register for every type, .f64 too, is the model's reading
(log 36). R45 and R234: the forms that take lookahead; without it their results are visible at once, with it they wait
in a window of the lane stream. -/
def Obligations.FloatForms : Prop :=
  (∀ f : LaneWord,
    GivesF (.fadd f) f (typeRegs f.tyN) (floatOf f (fun a b _ => Sys2Proof.Float.add (fmtOf f) f.rnd.toNat (LaneWord.ftz f) a b))
    ∧ GivesF (.fsub f) f (typeRegs f.tyN) (floatOf f (fun a b _ => Sys2Proof.Float.sub (fmtOf f) f.rnd.toNat (LaneWord.ftz f) a b))
    ∧ GivesF (.fmul f) f (typeRegs f.tyN) (floatOf f (fun a b _ => Sys2Proof.Float.mul (fmtOf f) f.rnd.toNat (LaneWord.ftz f) a b))
    ∧ GivesF (.ffma f) f (typeRegs f.tyN) (floatOf f (fun a b c => Sys2Proof.Float.fma (fmtOf f) f.rnd.toNat (LaneWord.ftz f) a b c))
    ∧ GivesF (.fmin f) f (typeRegs f.tyN) (floatOf f (fun a b _ => Sys2Proof.Float.minMax (fmtOf f) (LaneWord.ftz f) false a b))
    ∧ GivesF (.fmax f) f (typeRegs f.tyN) (floatOf f (fun a b _ => Sys2Proof.Float.minMax (fmtOf f) (LaneWord.ftz f) true a b))
    ∧ GivesF (.fabs f) f (typeRegs f.tyN) (floatOf f (fun a _ _ => (a % 2 ^ ((fmtOf f).width - 1), 0)))
    ∧ GivesF (.fneg f) f (typeRegs f.tyN) (floatOf f (fun a _ _ =>
        (if a < 2 ^ ((fmtOf f).width - 1) then a + 2 ^ ((fmtOf f).width - 1) else a - 2 ^ ((fmtOf f).width - 1), 0)))
    ∧ GivesF (.fcpys f) f (typeRegs f.tyN) (floatOf f (fun a b _ =>
        (a % 2 ^ ((fmtOf f).width - 1) + (if b < 2 ^ ((fmtOf f).width - 1) then 0 else 2 ^ ((fmtOf f).width - 1)), 0)))
    ∧ GivesF (.fclass f) f 1 (fun s l => elements f.tyN (fun j =>
        (2 ^ Sys2Proof.Float.classBit (fmtOf f) (element f.tyN j (s.cw.rd f f.a l)), 0))))
  ∧ (∀ f : LaneWord,
    let rn := f.rnd.toNat
    let both := fun (i : Instr) (op : Nat → Nat → Nat → Nat × Sys2Proof.Float.Flags) =>
      GivesF i f (typeRegs f.tyN) (floatOf f op) ∧ GivesLater i f (typeRegs f.tyN) (floatOf f op)
    both (.fdiv f) (fun a b _ => Sys2Proof.Float.div (fmtOf f) rn (LaneWord.ftz f) a b)
    ∧ both (.fsqrt f) (fun a _ _ => Sys2Proof.Float.sqrt (fmtOf f) rn (LaneWord.ftz f) a)
    ∧ both (.frcp f) (fun a _ _ => Sys2Proof.Float.div (fmtOf f) rn (LaneWord.ftz f) (Sys2Proof.Float.one (fmtOf f)) a)
    ∧ both (.frsq f) (fun a _ _ => Sys2Proof.Float.frsq (LaneWord.ftz f) a (Config.approxRsq (BitVec.ofNat 32 a) (LaneWord.ftz f)).toNat)
    ∧ both (.fexp2 f) (fun a _ _ => Sys2Proof.Float.fexp2 (LaneWord.ftz f) a (Config.approxExp2 (BitVec.ofNat 32 a) (LaneWord.ftz f)).toNat)
    ∧ both (.flog2 f) (fun a _ _ => Sys2Proof.Float.flog2 (LaneWord.ftz f) a (Config.approxLog2 (BitVec.ofNat 32 a) (LaneWord.ftz f)).toNat)
    ∧ both (.fsin f) (fun a _ _ => Sys2Proof.Float.trig false (LaneWord.ftz f) a (Config.approxSin (BitVec.ofNat 32 a) (LaneWord.ftz f)).toNat)
    ∧ both (.fcos f) (fun a _ _ => Sys2Proof.Float.trig true (LaneWord.ftz f) a (Config.approxCos (BitVec.ofNat 32 a) (LaneWord.ftz f)).toNat))

/-- R233 and R234: sums, products and fused sums of finite nonzero operands are the exact value rounded once. R40 and
R233: rounding to nearest gives a value of the format that no other finite value of it is nearer than, unless it
overflows, and raises inexact exactly when it differs from the exact value. R234 and R235: the special cases of the
float forms. A NaN operand gives the canonical NaN, a nonzero finite value over zero gives an infinity and raises
division by zero, infinity times zero is invalid whatever the addend, FMIN and FMAX give the other operand for one
NaN, and FCLASS sets one bit below 2^10. -/
def Obligations.FloatRounding : Prop :=
  (∀ (t : Sys2Proof.Float.Fmt) (rm a b c : Nat), Sys2Proof.Float.ExactOnce t rm a b c)
  ∧ (∀ t ∈ Sys2Proof.Float.formats, ∀ (neg : Bool) (m : Nat) (e : Int), Sys2Proof.Float.Nearest t neg m e)
  ∧ (∀ t ∈ Sys2Proof.Float.formats, ∀ (rm a b c : Nat) (ftz : Bool), Sys2Proof.Float.Specials t rm a b c ftz)

/-- R236: the listed special cases of the approximate forms, whatever the candidate result; on a finite nonzero
operand FRSQ lies within 1 ulp of the exact value, which the squares of the enclosure's ends bound, FEXP2 within 2
ulp, or is exact at an integer, overflows or underflows, FLOG2 within 2 ulp outside [0.5, 2] and 2^-22 inside, or is
exact at a power of two, and FSIN and FCOS within 2^-22, or is the enclosed value rounded to nearest, and each raises
inexact. The candidate is a free value, so the bound is all a program may rest on (log 8). R237: CVT writes the
converted value: an integer wrapped or clamped; an integer as a float rounded once, an infinity where it overflows; a
float as an integer, clamped with invalid out of range; a float of another type rounded once, and of its own type
rounded to an integral value, quiet NaNs and infinities as they are; two .f32 to a packed type, each rounded once;
with SAT clamped to [+0, 1] with NaN to +0 (R233). -/
def Obligations.ApproximateFormsAndConversions : Prop :=
  ((∀ (ftz : Bool) (c : Nat), Sys2Proof.Float.ApproxSpecials ftz c)
    ∧ (∀ (x : Sys2Proof.Float.Encl) (c b : Nat) (be : Int),
        (Sys2Proof.Float.settleApprox false x c b be).1 = x.nearest false
          ∨ x.within (Sys2Proof.Float.settleApprox false x c b be).1 b be = true)
    ∧ ∀ (ftz : Bool) (a c : Nat) (s : Bool) (m : Nat) (e : Int),
        Sys2Proof.Float.readFtz Sys2Proof.Float.f32 ftz a = .num s m e → m ≠ 0 → Sys2Proof.Float.ApproxBounds ftz a c s m e)
  ∧ (∀ f : LaneWord,
    (isInt f.tyN = true → isInt f.md.toNat = true → GivesF (.cvt f) f (typeRegs f.tyN) (fun s l =>
      let v := intN (isSigned f.md.toNat) (intWidth f.md.toNat) (s.cw.vWide f.a.toNat l (typeRegs f.md.toNat))
      (intBits f.tyN (if f.sat == 1 then max (intLo f.tyN) (min (intHi f.tyN) v) else v), 0)))
    ∧ (isInt f.tyN = true → isFloat f.md.toNat = true → GivesF (.cvt f) f (typeRegs f.tyN) (fun s l =>
        let r := Sys2Proof.Float.toIntRange (Sys2Proof.Float.ofType f.md.toNat) f.rnd.toNat (bitB f.ext 0) (intLo f.tyN) (intHi f.tyN)
          (s.cw.vWide f.a.toNat l (typeRegs f.md.toNat) % 2 ^ (Sys2Proof.Float.ofType f.md.toNat).width)
        (intBits f.tyN r.1, r.2)))
    ∧ (isFloat f.tyN = true → isInt f.md.toNat = true → GivesF (.cvt f) f (typeRegs f.tyN)
        (fun s l =>
          let v := intN (isSigned f.md.toNat) (intWidth f.md.toNat) (s.cw.vWide f.a.toNat l (typeRegs f.md.toNat))
          let r := Sys2Proof.Float.round (Sys2Proof.Float.ofType f.tyN) f.rnd.toNat (bitB f.ext 0) (decide (v < 0)) v.natAbs 0 false
          (if r.2 &&& Sys2Proof.Float.OF = 0 then r.1 else (Sys2Proof.Float.ofType f.tyN).inf (decide (v < 0)), r.2)))
    ∧ (isFloat f.tyN = true → isFloat f.md.toNat = true → f.tyN ≠ f.md.toNat → f.sat = 0 →
        GivesF (.cvt f) f (typeRegs f.tyN) (fun s l =>
          Sys2Proof.Float.toFmt (Sys2Proof.Float.ofType f.md.toNat) (Sys2Proof.Float.ofType f.tyN) f.rnd.toNat (bitB f.ext 0)
            (s.cw.vWide f.a.toNat l (typeRegs f.md.toNat) % 2 ^ (Sys2Proof.Float.ofType f.md.toNat).width)))
    ∧ (isFloat f.tyN = true → isFloat f.md.toNat = true → f.tyN ≠ f.md.toNat → f.sat = 1 →
        GivesF (.cvt f) f (typeRegs f.tyN) (fun s l =>
          let r := Sys2Proof.Float.toFmt (Sys2Proof.Float.ofType f.md.toNat) (Sys2Proof.Float.ofType f.tyN) f.rnd.toNat (bitB f.ext 0)
            (s.cw.vWide f.a.toNat l (typeRegs f.md.toNat) % 2 ^ (Sys2Proof.Float.ofType f.md.toNat).width)
          (Sys2Proof.Float.clamp (Sys2Proof.Float.ofType f.tyN) r.1, r.2)))
    ∧ (isFloat f.tyN = true → f.md.toNat = f.tyN →
        GivesF (.cvt f) f (typeRegs f.tyN) (fun s l =>
          Sys2Proof.Float.toIntegral (Sys2Proof.Float.ofType f.tyN) f.rnd.toNat (bitB f.ext 0)
            (s.cw.vWide f.a.toNat l (typeRegs f.tyN) % 2 ^ (Sys2Proof.Float.ofType f.tyN).width)))
    ∧ (isPacked f.tyN = true → f.md.toNat = 16 →
        GivesF (.cvt f) f 1 (fun s l =>
          let half := fun (r : BitVec 8) =>
            let y := Sys2Proof.Float.toFmt Sys2Proof.Float.f32 (Sys2Proof.Float.ofType f.tyN) f.rnd.toNat (bitB f.ext 0) (s.cw.vReg r.toNat l).toNat
            (if f.sat = 1 then Sys2Proof.Float.clamp (Sys2Proof.Float.ofType f.tyN) y.1 else y.1, y.2)
          ((half f.a).1 + 2 ^ 16 * (half f.b).1, (half f.a).2 ||| (half f.b).2)))
    ∧ (∀ t ∈ Sys2Proof.Float.formats, ∀ rm x : Nat, Sys2Proof.Float.Integral t rm x)
    ∧ (∀ t ∈ Sys2Proof.Float.formats, ∀ x : Nat, x < 2 ^ t.width → Sys2Proof.Float.Clamped t x)
    ∧ (∀ (sf : Sys2Proof.Float.Fmt) (rm x : Nat) (lo hi : Int), lo ≤ 0 → 0 ≤ hi →
        lo ≤ (Sys2Proof.Float.toIntRange sf rm false lo hi x).1 ∧ (Sys2Proof.Float.toIntRange sf rm false lo hi x).1 ≤ hi
        ∧ (∀ k, Sys2Proof.Float.read sf x = .nan k → Sys2Proof.Float.toIntRange sf rm false lo hi x = (0, Sys2Proof.Float.NV))))

/-! ## Paths -/

/-- R209, R211, R214 and R386: NAP takes the path out of issue for the least of s[a] and 16,777,215 cycles of its
die's clock, in fifths of a cycle as the die counts them; YIELD does nothing where no path waits for the slot, and
gives it to the newest spilled path where one does and an entry is free; LSYNC completes where every run has. R213:
LRUN places one run of 1 to 64 words with the scalar and address registers of now, and waits while the queue holds 8
runs. -/
def Obligations.LaneRunsAndPauses : Prop :=
  ((∀ a s, warpReady (.nap a) s →
      ∃ t, ScalarResult s t (s.cp.pc + 4) s.sN s.aN s.qN
        ∧ exec (.nap a) s = .next (if s.sReg a = 0 then t else t.modP (fun p => { p with
            nap := (s.dieTime (dieOf s.cur.1) + BitVec.ofNat 64 (5 * min (s.sReg a).toNat 16777215)).toNat + 1, stall := 13 })))
    ∧ (∀ s, warpReady .yield s → s.cp.queue = [] →
        s.cw.stackFree = 0 ∨ (s.cw.stack.all (·.yielded) = true ∧ oldestReady (s.core (coreOf s.cur.1)) s.cur.1 = none) →
        Effect .yield s s (s.cp.pc + 4))
    ∧ (∀ s e, warpReady .yield s → s.cp.queue = [] → 0 < s.cw.stackFree → s.cur.2 < 2 →
        s.cw.stack.find? (fun e => !e.yielded) = some e →
        ∃ t p, exec .yield s = .next t ∧ t.path? = some e.path
          ∧ t.cw.stack = { yielded := true, path := p } :: s.cw.stack.erase e
          ∧ p.pc = s.cp.pc + 4 ∧ p.mask = s.cp.mask ∧ p.s = s.cp.s ∧ p.q = s.cp.q ∧ t.mem = s.mem)
    ∧ (∀ s, warpReady .lsync s → s.cp.queue = [] → Effect .lsync s s (s.cp.pc + 4))
    ∧ ∀ s, warpReady .lsync s → s.cp.queue ≠ [] → exec .lsync s = .next (s.wait 14))
  ∧ ((∀ c o s, warpReady (.lrun c o) s → s.cp.queue.length < 8 →
      ∃ r : Run, r.off = o.toNat ∧ r.count = (if c = 0 then 64 else c.toNat) ∧ r.pos = 0
        ∧ (∀ n, n < 64 → r.s.get n = s.sN n) ∧ (∀ n, r.a.get n = s.aN n)
        ∧ r.traps = s.cw.fpctl.extractLsb' 32 5 ∧ r.racectl = s.cw.racectl.extractLsb' 0 2
        ∧ Effect (.lrun c o) s (({ s with names := s.names + 1 }).modP (fun p => { p with queue := p.queue ++ [r] }))
            (s.cp.pc + 4))
    ∧ ∀ c o s, warpReady (.lrun c o) s → 8 ≤ s.cp.queue.length → exec (.lrun c o) s = .next (s.wait 14))

/-- R175, R176 and R210: BRD opens a record over the path's live lanes; the taken lanes T leave as a new path with a
copy of s32-s63 and q0-q7 at the taken address, the others go on at the next instruction; with one side empty no path
is made. -/
def Obligations.DivergentBranch : Prop :=
  ∀ p sn tf jo s k, warpReady (.brd p sn tf jo) s → s.cp.queue = [] → s.untraced = true → s.cur.2 < 2 →
    s.cw.jrecs.freeKey 0 12 = some k →
    let live := s.cp.liveMask s.cw
    let tk := live &&& (if sn = 1 then s.cw.pred p.toNat else ~~~s.cw.pred p.toNat)
    let other := 1 - s.cur.2
    let taken := s.cp.pc + BitVec.ofInt 72 (4 * tf.toInt)
    let opened := fun (t : State) => ∃ j, t.cw.jrecs.find k = some j ∧ j.addr = s.cp.pc + BitVec.ofInt 72 (4 * jo.toInt)
      ∧ j.mask = live ∧ j.arrived = 0 ∧ j.prev = s.cp.jrec ∧ j.prevSideT = s.cp.sideT
    (tk = 0 → 1 ≤ s.cw.stackFree → ∃ t, exec (.brd p sn tf jo) s = .next t ∧ opened t
        ∧ t.cp.pc = s.cp.pc + 4 ∧ t.cp.jrec = some k ∧ t.cp.sideT = false ∧ t.cp.mask = s.cp.mask ∧ t.sN = s.sN
        ∧ t.qN = s.qN ∧ t.mem = s.mem ∧ t.cw.slot other = s.cw.slot other)
    ∧ (tk = live → tk ≠ 0 → 1 ≤ s.cw.stackFree → ∃ t, exec (.brd p sn tf jo) s = .next t ∧ opened t
        ∧ t.cp.pc = taken ∧ t.cp.jrec = some k ∧ t.cp.sideT = true ∧ t.cp.mask = s.cp.mask ∧ t.sN = s.sN
        ∧ t.qN = s.qN ∧ t.mem = s.mem ∧ t.cw.slot other = s.cw.slot other)
    ∧ (tk ≠ 0 → tk ≠ live → 1 ≤ s.cw.stackFree → s.cw.slot other = none → ∃ t b, exec (.brd p sn tf jo) s = .next t
        ∧ opened t ∧ t.cp.pc = s.cp.pc + 4 ∧ t.cp.jrec = some k ∧ t.cp.sideT = false ∧ t.cp.mask = live &&& ~~~tk
        ∧ t.sN = s.sN ∧ t.qN = s.qN ∧ t.mem = s.mem
        ∧ t.cw.slot other = some b ∧ b.pc = taken ∧ b.mask = tk ∧ b.jrec = some k ∧ b.sideT = true ∧ b.s = s.cp.s
        ∧ b.q = s.cp.q ∧ b.queue = [])
    ∧ (tk ≠ 0 → tk ≠ live → 2 ≤ s.cw.stackFree → (s.cw.slot other).isSome = true → ∃ t b,
        exec (.brd p sn tf jo) s = .next t ∧ opened t ∧ t.cp.pc = s.cp.pc + 4 ∧ t.cp.mask = live &&& ~~~tk
        ∧ t.sN = s.sN ∧ t.qN = s.qN ∧ t.mem = s.mem ∧ t.cw.slot other = s.cw.slot other
        ∧ t.cw.stack = { yielded := false, path := b } :: s.cw.stack ∧ b.pc = taken ∧ b.mask = tk ∧ b.jrec = some k
        ∧ b.sideT = true ∧ b.s = s.cp.s ∧ b.q = s.cp.q)

/-- R178 and R179: a JOIN elsewhere does nothing; at its record's join the last arrival closes the record, and the
merged path goes on after the join in the lower free slot, with the lanes that still live and the copy of the lowest
rank; an arrival before the last is marked in the record and gives up the slot. R180: at EXIT the path's lanes have
exited; a warp with no lane left has ended, and none of its paths stays. -/
def Obligations.JoinsAndExits : Prop :=
  ((∀ s, warpReady .join s → s.cp.queue = [] → s.cp.jrec = none → Effect .join s s (s.cp.pc + 4))
    ∧ (∀ s k j, warpReady .join s → s.cp.queue = [] → s.cp.jrec = some k → s.cw.jrecs.find k = some j →
        s.cp.pc ≠ j.addr → Effect .join s s (s.cp.pc + 4))
    ∧ ∀ s k j, warpReady .join s → s.cp.queue = [] → s.cp.jrec = some k → s.cw.jrecs.find k = some j →
        s.cp.pc = j.addr → s.cur.2 < 2 →
        let mine := s.cp.liveMask s.cw
        let live := j.mask &&& ~~~goneMask s.cw
        (live &&& ~~~(j.arrived ||| mine) = 0 → live ≠ 0 → ∃ t w n b, exec .join s = .next t
          ∧ t.warps.find s.cur.1 = some w ∧ w.jrecs.find k = none
          ∧ n = (if s.cur.2 = 0 ∨ s.cw.slot0 = none then 0 else 1) ∧ w.slot n = some b
          ∧ b.pc = j.addr + 4 ∧ b.mask = live ∧ b.jrec = j.prev ∧ b.sideT = j.prevSideT
          ∧ (match j.copy with
              | some c => if joinRank s.cp < c.1 then b.s = s.cp.s ∧ b.q = s.cp.q else b.s = c.2.1 ∧ b.q = c.2.2
              | none => b.s = s.cp.s ∧ b.q = s.cp.q)
          ∧ w.s = s.cw.s ∧ w.a = s.cw.a ∧ w.v = s.cw.v ∧ w.p = s.cw.p)
        ∧ (live &&& ~~~(j.arrived ||| mine) ≠ 0 → ∃ t w j', exec .join s = .next t
          ∧ t.warps.find s.cur.1 = some w ∧ w.jrecs.find k = some j' ∧ j'.arrived = j.arrived ||| mine
          ∧ j'.mask = j.mask ∧ j'.addr = j.addr ∧ w.s = s.cw.s ∧ w.a = s.cw.a ∧ w.v = s.cw.v ∧ t.mem = s.mem))
  ∧ (∀ s, warpReady .exit s → s.cp.queue = [] → (s.core (coreOf s.cur.1)).latch = [] →
    ∃ t w, exec .exit s = .next t ∧ t.warps.find s.cur.1 = some w ∧ w.exited = s.cw.exited ||| s.cp.mask
      ∧ w.dead = s.cw.dead ∧ w.s = s.cw.s ∧ w.v = s.cw.v
      ∧ (s.cw.dead ||| s.cw.exited ||| s.cp.mask = BitVec.allOnes 128 →
          w.ended = true ∧ w.slot0 = none ∧ w.slot1 = none ∧ w.stack = [] ∧ w.jrecs = []))

/-- R207: a sum of AADD or AADDI outside 0 to 2^72 - 1 is a path fault of class protection and cause "wrap" that
writes nothing. R176: a BRD that lacks a free record or the stack entries it needs takes the path fault "path stack"
before any effect. R22, R140, R145 and R146: an address that fails a test makes a path fault of a scalar access, and a
lane fault of a lane access's lanes, with the test's class and cause, the order of R22 among lanes (log 147), and the
address, which after a wrap is saved modulo 2^72 (log 17); the form writes nothing: alignment before the system
window, both before any lookup, and then what translation fails with. R37: an unlisted number, and a write of a
register that is read only, are illegal with cause "sysreg"; a warp that is not privileged takes class protection,
cause "privilege", at a P register. Neither reads or writes a register. R228 and R342: where every live lane raises a
trapped exception, the form writes no register and sets no flag: the path takes the lane fault "arithmetic" with the
cause of the highest-priority exception among its lanes and the mask of those that have it; so for the sum, the
difference, the product, the fused sum, the quotient and the square root. -/
def Obligations.PathFaults : Prop :=
  ((∀ d a b s, warpReady (.aadd d a b) s →
      ((s.aReg a).toNat : Int) + (s.sReg b).toInt < 0 ∨ 2 ^ 72 ≤ ((s.aReg a).toNat : Int) + (s.sReg b).toInt →
      exec (.aadd d a b) s = .next (s.scalarFault 2 1 0 0))
    ∧ ∀ d a i s, warpReady (.aaddi d a i) s →
      ((s.aReg a).toNat : Int) + i.toInt < 0 ∨ 2 ^ 72 ≤ ((s.aReg a).toNat : Int) + i.toInt →
      exec (.aaddi d a i) s = .next (s.scalarFault 2 1 0 0))
  ∧ (∀ p sn tf jo s, warpReady (.brd p sn tf jo) s → s.cp.queue = [] →
    s.cw.jrecs.freeKey 0 12 = none ∨ s.cw.stackFree = 0 → exec (.brd p sn tf jo) s = .next (s.scalarFault 0x10 1 0 0))
  ∧ ((∀ d r z l i, AccessFaults (.sld d r z l i) (sizeBytes z.toNat) .read (fun s => ((s.aReg r).toNat : Int) + i.toInt * sizeBytes z.toNat))
    ∧ (∀ d r z l i, AccessFaults (.slda d r z l i) (sizeBytes z.toNat) .read
        (fun s => ((s.aReg r).toNat : Int) + i.toInt * sizeBytes z.toNat))
    ∧ (∀ d r z l i, AccessFaults (.sst d r z l i) (sizeBytes z.toNat) .write
        (fun s => ((s.aReg r).toNat : Int) + i.toInt * sizeBytes z.toNat))
    ∧ (∀ d r l i, AccessFaults (.ssta d r l i) 16 .write (fun s => ((s.aReg r).toNat : Int) + i.toInt * 16))
    ∧ (∀ d a b o r sc, AccessFaults (.samo d a b o r sc) 8 .atomic (fun s => ((s.aReg a).toNat : Int)))
    ∧ ∀ f : LaneWord, LaneAccessFaults (.vld f) f .read ∧ LaneAccessFaults (.vst f) f .write
        ∧ ∀ sc, LaneAccessFaults (.vamo sc f) f .atomic)
  ∧ ((∀ d n s, warpReady (.sysr d n) s → sysRead s n.toNat = none →
      exec (.sysr d n) s = .next (s.scalarFault 0x11 7 0 0))
    ∧ (∀ r n s, warpReady (.sysw r n) s → n.toNat ∉ [0x012, 0x013, 0x030, 0x039] → n.toNat < 0x100 ∨ 0x11F < n.toNat →
        exec (.sysw r n) s = .next (s.scalarFault 0x11 7 0 0))
    ∧ (∀ d n s, warpReady (.sysr d n) s → s.cw.priv = false → n = 0x030 ∨ (0x100 ≤ n.toNat ∧ n.toNat ≤ 0x11F) →
        exec (.sysr d n) s = .next (s.scalarFault 2 4 0 0))
    ∧ ∀ r n s, warpReady (.sysw r n) s → s.cw.priv = false → n = 0x030 ∨ (0x100 ≤ n.toNat ∧ n.toNat ≤ 0x11F) →
        exec (.sysw r n) s = .next (s.scalarFault 2 4 0 0))
  ∧ (∀ f : LaneWord,
    TrapsAll (.fadd f) f (floatOf f (fun a b _ => Sys2Proof.Float.add (fmtOf f) f.rnd.toNat (LaneWord.ftz f) a b))
    ∧ TrapsAll (.fsub f) f (floatOf f (fun a b _ => Sys2Proof.Float.sub (fmtOf f) f.rnd.toNat (LaneWord.ftz f) a b))
    ∧ TrapsAll (.fmul f) f (floatOf f (fun a b _ => Sys2Proof.Float.mul (fmtOf f) f.rnd.toNat (LaneWord.ftz f) a b))
    ∧ TrapsAll (.ffma f) f (floatOf f (fun a b c => Sys2Proof.Float.fma (fmtOf f) f.rnd.toNat (LaneWord.ftz f) a b c))
    ∧ TrapsAll (.fdiv f) f (floatOf f (fun a b _ => Sys2Proof.Float.div (fmtOf f) f.rnd.toNat (LaneWord.ftz f) a b))
    ∧ TrapsAll (.fsqrt f) f (floatOf f (fun a _ _ => Sys2Proof.Float.sqrt (fmtOf f) f.rnd.toNat (LaneWord.ftz f) a)))

/-! ## Memory accesses -/

/-- R45, R81 and R145: SLD and SLDA write the extended value of the bytes at the exact address a + sext(imm8) × size,
without lookahead at once; with lookahead k, or from the drawer with any, the value waits in a window that k more
scalar instructions may issue in. No byte of memory changes beyond what the translation does. -/
def Obligations.ScalarLoads : Prop :=
  (∀ d r z i s s1 pa, warpReady (.sld d r z 0 i) s →
      Reaches s (((s.aReg r).toNat : Int) + i.toInt * sizeBytes z.toNat) (sizeBytes z.toNat) .read true false s1 pa →
      isDrawer pa = false → poisoned s1.mem.poison pa (sizeBytes z.toNat) = false →
      (s1.raceOk s.cur.1 s1.scalarOff false pa (sizeBytes z.toNat)).1 = none →
      ∃ u, Effect (.sld d r z 0 i) s u (s.cp.pc + 4) ∧ Kept s u ∧ u.aN = s.aN ∧ u.qN = s.qN ∧ u.cw.v = s.cw.v
        ∧ u.sN = setAt s.sN d.toNat (loadedValue z.toNat (numAt s1.byte pa (sizeBytes z.toNat)))
        ∧ u.mem.bytes = s1.mem.bytes)
    ∧ (∀ d r z l i s s1 pa, warpReady (.sld d r z l i) s → l ≠ 0 → s.cp.stepping = 0 →
        Reaches s (((s.aReg r).toNat : Int) + i.toInt * sizeBytes z.toNat) (sizeBytes z.toNat) .read true false s1 pa →
        isDrawer pa = false → poisoned s1.mem.poison pa (sizeBytes z.toNat) = false →
        (s1.raceOk s.cur.1 s1.scalarOff false pa (sizeBytes z.toNat)).1 = none →
        ∃ t w, exec (.sld d r z l i) s = .next t ∧ t.cp.pc = s.cp.pc + 4 ∧ SameScalars s t ∧ t.cp.windows = [w]
          ∧ w.lane = false ∧ w.left = l.toNat ∧ w.complete = true
          ∧ w.writes = [.s d.toNat (loadedValue z.toNat (numAt s1.byte pa (sizeBytes z.toNat)))]
          ∧ t.mem.bytes = s1.mem.bytes)
    ∧ (∀ d r z l i s s1 pa, warpReady (.sld d r z l i) s → s.cp.stepping = 0 →
        Reaches s (((s.aReg r).toNat : Int) + i.toInt * sizeBytes z.toNat) (sizeBytes z.toNat) .read true false s1 pa →
        isDrawer pa = true → poisoned s1.mem.poison pa (sizeBytes z.toNat) = false →
        s1.l1Line (coreOf s.cur.1) pa = none → (s1.link (linkOf pa)).takes = true →
        ∃ t w, exec (.sld d r z l i) s = .next t ∧ ScalarWaits s t w l.toNat false
          ∧ w.writes = [.s d.toNat (loadedValue z.toNat (numAt s1.byte pa (sizeBytes z.toNat)))]
          ∧ t.mem.bytes = s1.mem.bytes)
    ∧ (∀ d r z l i s s1 pa, warpReady (.slda d r z l i) s → s.cp.stepping = 0 →
        Reaches s (((s.aReg r).toNat : Int) + i.toInt * sizeBytes z.toNat) (sizeBytes z.toNat) .read true false s1 pa →
        poisoned s1.mem.poison pa (sizeBytes z.toNat) = false →
        (isDrawer pa = false ∧ l ≠ 0 ∧ (s1.raceOk s.cur.1 s1.scalarOff false pa (sizeBytes z.toNat)).1 = none)
          ∨ (isDrawer pa = true ∧ s1.l1Line (coreOf s.cur.1) pa = none ∧ (s1.link (linkOf pa)).takes = true) →
        ∃ t w, exec (.slda d r z l i) s = .next t ∧ ScalarWaits s t w l.toNat (!isDrawer pa)
          ∧ w.writes = [.a d.toNat (BitVec.ofNat 72 (numAt s1.byte pa (sizeBytes z.toNat)))] ∧ t.mem.bytes = s1.mem.bytes)
    ∧ ∀ d r z i s s1 pa, warpReady (.slda d r z 0 i) s →
        Reaches s (((s.aReg r).toNat : Int) + i.toInt * sizeBytes z.toNat) (sizeBytes z.toNat) .read true false s1 pa →
        isDrawer pa = false → poisoned s1.mem.poison pa (sizeBytes z.toNat) = false →
        (s1.raceOk s.cur.1 s1.scalarOff false pa (sizeBytes z.toNat)).1 = none →
        ∃ u, Effect (.slda d r z 0 i) s u (s.cp.pc + 4) ∧ Kept s u ∧ u.sN = s.sN ∧ u.qN = s.qN ∧ u.cw.v = s.cw.v
          ∧ u.aN = setAt s.aN d.toNat (BitVec.ofNat 72 (numAt s1.byte pa (sizeBytes z.toNat)))
          ∧ u.mem.bytes = s1.mem.bytes

/-- R45, R99 and R145: SST stores the low bytes of s[d] and SSTA all 72 bits of a[d] in 16 bytes, lowest address
first; the granule's count rises by one and its mark is set, with lookahead too, whose window writes nothing; no other
byte changes and no register does. R146: SAMO writes the old value to s[d] and the table's new value to memory, as one
event that counts once; from the drawer the old value waits in a window (R81). -/
def Obligations.ScalarStoresAndAtomics : Prop :=
  ((∀ d r z i s s1 pa, warpReady (.sst d r z 0 i) s →
      Reaches s (((s.aReg r).toNat : Int) + i.toInt * sizeBytes z.toNat) (sizeBytes z.toNat) .write false true s1 pa →
      isDrawer pa = false ∨ (s1.link (linkOf pa)).takes = true →
      (s1.raceOk s.cur.1 s1.scalarOff false pa (sizeBytes z.toNat)).1 = none →
      ∃ u, Effect (.sst d r z 0 i) s u (s.cp.pc + 4) ∧ Kept s u ∧ SameScalars s u ∧ u.cw.v = s.cw.v
        ∧ u.byte = storedAt s1.byte pa (sizeBytes z.toNat) (s.sReg d).toNat ∧ countedOnce s1.mem u.mem pa)
    ∧ (∀ d r i s s1 pa, warpReady (.ssta d r 0 i) s →
      Reaches s (((s.aReg r).toNat : Int) + i.toInt * 16) 16 .write false true s1 pa →
      isDrawer pa = false ∨ (s1.link (linkOf pa)).takes = true →
      (s1.raceOk s.cur.1 s1.scalarOff false pa 16).1 = none →
      ∃ u, Effect (.ssta d r 0 i) s u (s.cp.pc + 4) ∧ Kept s u ∧ SameScalars s u ∧ u.cw.v = s.cw.v
        ∧ u.byte = storedAt s1.byte pa 16 (s.aReg d).toNat ∧ countedOnce s1.mem u.mem pa)
    ∧ (∀ d r z l i s s1 pa, warpReady (.sst d r z l i) s → l ≠ 0 → s.cp.stepping = 0 →
      Reaches s (((s.aReg r).toNat : Int) + i.toInt * sizeBytes z.toNat) (sizeBytes z.toNat) .write false true s1 pa →
      isDrawer pa = false ∨ (s1.link (linkOf pa)).takes = true →
      (s1.raceOk s.cur.1 s1.scalarOff false pa (sizeBytes z.toNat)).1 = none →
      ∃ t w, exec (.sst d r z l i) s = .next t ∧ ScalarWaits s t w l.toNat true ∧ w.writes = []
        ∧ t.byte = storedAt s1.byte pa (sizeBytes z.toNat) (s.sReg d).toNat ∧ countedOnce s1.mem t.mem pa)
    ∧ ∀ d r l i s s1 pa, warpReady (.ssta d r l i) s → l ≠ 0 → s.cp.stepping = 0 →
      Reaches s (((s.aReg r).toNat : Int) + i.toInt * 16) 16 .write false true s1 pa →
      isDrawer pa = false ∨ (s1.link (linkOf pa)).takes = true →
      (s1.raceOk s.cur.1 s1.scalarOff false pa 16).1 = none →
      ∃ t w, exec (.ssta d r l i) s = .next t ∧ ScalarWaits s t w l.toNat true ∧ w.writes = []
        ∧ t.byte = storedAt s1.byte pa 16 (s.aReg d).toNat ∧ countedOnce s1.mem t.mem pa)
  ∧ ((∀ d a b o r sc s s1 pa, warpReady (.samo d a b o r sc) s →
    Reaches s (s.aReg a).toNat 8 .atomic false true s1 pa → isDrawer pa = false → poisoned s1.mem.poison pa 8 = false →
    let old := BitVec.ofNat 64 (numAt s1.byte pa 8)
    ∃ u, Effect (.samo d a b o r sc) s u (s.cp.pc + 4) ∧ Kept s u ∧ u.aN = s.aN ∧ u.qN = s.qN ∧ u.cw.v = s.cw.v
      ∧ u.sN = setAt s.sN d.toNat old
      ∧ u.byte = storedAt s1.byte pa 8 (samoTable o.toNat old (s.sReg b) (s.sReg d)).toNat ∧ countedOnce s1.mem u.mem pa)
  ∧ ∀ d a b o r sc s s1 pa, warpReady (.samo d a b o r sc) s → s.cp.stepping = 0 →
    Reaches s (s.aReg a).toNat 8 .atomic false true s1 pa → isDrawer pa = true → poisoned s1.mem.poison pa 8 = false →
    (s1.link (linkOf pa)).takes = true →
    let old := BitVec.ofNat 64 (numAt s1.byte pa 8)
    ∃ t w, exec (.samo d a b o r sc) s = .next t ∧ ScalarWaits s t w 0 false ∧ w.writes = [.s d.toNat old]
      ∧ t.byte = storedAt s1.byte pa 8 (samoTable o.toNat old (s.sReg b) (s.sReg d)).toNat ∧ countedOnce s1.mem t.mem pa)

/-- R45, R81, R140 and R141: VLD writes the value at each active lane's exact address, narrow types extended, at once,
or after a window of k more lane instructions with lookahead k, or of the drawer's reads; VPF changes no register and
no byte but what translation does. -/
def Obligations.LaneLoads : Prop :=
  (∀ f s s1 xs, lanesReady (.vld f) s → f.la = 0 → LanesReach s f (typeBytes f.tyN) .read true false s1 xs →
      (s1.raceLanes s1.laneOff false (typeBytes f.tyN) xs).2.2.1 = [] →
      ∃ u, LaneEffect (.vld f) s u ∧ Kept s u ∧ SameScalars s u ∧ lanesOfWord s f xs
        ∧ (∀ x ∈ xs, ∀ j, j < typeRegs f.tyN → u.cw.vReg (f.d.toNat + j) x.lane
            = BitVec.ofNat 32 (narrow f.tyN (numAt s1.byte x.pa (typeBytes f.tyN)) >>> (32 * j)))
        ∧ (∀ r l, l < 128 → writesLane s f (typeRegs f.tyN) r l = false → u.cw.vReg r l = s.cw.vReg r l)
        ∧ u.mem.bytes = s1.mem.bytes)
    ∧ (∀ f s s1 xs, lanesReady (.vld f) s → s.cp.stepping = 0 → s.run.pos + 1 < s.run.count →
      (f.la ≠ 0 ∧ LanesReach s f (typeBytes f.tyN) .read true false s1 xs) ∨ DrawerReach s f (typeBytes f.tyN) .read true false s1 xs →
      (s1.raceLanes s1.laneOff false (typeBytes f.tyN) xs).2.2.1 = [] →
      ∃ t d, exec (.vld f) s = .next t ∧ Waits s t d f.la.toNat (xs.all (fun x => !isDrawer x.pa)) ∧ lanesOfWord s f xs
        ∧ (∀ x ∈ xs, ∀ j, j < typeRegs f.tyN → (s.cw.applyAll s.cur.2 d.writes).vReg (f.d.toNat + j) x.lane
            = BitVec.ofNat 32 (narrow f.tyN (numAt s1.byte x.pa (typeBytes f.tyN)) >>> (32 * j)))
        ∧ (∀ r l, l < 128 → writesLane s f (typeRegs f.tyN) r l = false →
            (s.cw.applyAll s.cur.2 d.writes).vReg r l = s.cw.vReg r l)
        ∧ t.mem.bytes = s1.mem.bytes)
    ∧ ∀ f s, lanesReady (.vpf f) s → ∃ u, LaneEffect (.vpf f) s u ∧ Kept s u ∧ SameScalars s u ∧ u.cw = s.cw
        ∧ u.mem = { s.mem with bytes := u.mem.bytes } ∧ u.mem.bytes = (s.xlateLanes s.agent 1 .read (s.laneEas f)).1.mem.bytes

/-- R45, R89, R126 and R140: VST stores each active lane's C at the lane's exact address, near or in the drawer, the
highest-numbered lane that writes a byte supplying it; no byte outside those changes, and a window of its lookahead
writes nothing. R45, R62, R81 and R142: VAMO gives each active lane the old value at its address, at once or in a
window, and stores the new one by the operation's table; no byte outside those changes. R62, R146, R241 and R243: the
new values of atomics, and the operations of reductions and scans, by the table of R62. -/
def Obligations.LaneStoresAndAtomics : Prop :=
  (∀ f s s1 xs, lanesReady (.vst f) s →
    LanesReach s f (typeBytes f.tyN) .write false true s1 xs ∨ DrawerReach s f (typeBytes f.tyN) .write false true s1 xs →
    (s1.raceLanes s1.laneOff false (typeBytes f.tyN) xs).2.2.1 = [] →
    let stored := fun (u : State) =>
      (∀ a, (∀ x ∈ xs, ¬(x.pa ≤ a ∧ a < x.pa + typeBytes f.tyN)) → u.byte a = s1.byte a)
      ∧ ∀ x ∈ xs, ∀ i, i < typeBytes f.tyN →
          (∀ y ∈ xs, x.lane < y.lane → ¬(y.pa ≤ x.pa + i ∧ x.pa + i < y.pa + typeBytes f.tyN)) →
          u.byte (x.pa + i) = BitVec.ofNat 8 (s.cw.rd f f.c x.lane / 256 ^ i)
    (f.la = 0 → ∃ u, LaneEffect (.vst f) s u ∧ Kept s u ∧ SameScalars s u ∧ u.cw.v = s.cw.v ∧ lanesOfWord s f xs ∧ stored u)
    ∧ (f.la ≠ 0 → s.cp.stepping = 0 → s.run.pos + 1 < s.run.count →
        ∃ t d, exec (.vst f) s = .next t ∧ Waits s t d f.la.toNat true ∧ d.writes = [] ∧ lanesOfWord s f xs ∧ stored t))
  ∧ (∀ sc f s s1 xs, lanesReady (.vamo sc f) s →
    let stored := fun (u : State) =>
      (∀ a, (∀ x ∈ xs, ¬(x.pa ≤ a ∧ a < x.pa + typeBytes f.tyN)) → u.byte a = s1.byte a)
      ∧ ∀ x ∈ xs, alone xs (typeBytes f.tyN) x → AtomicRow (f.mdN 4 2) f.tyN (f.sat == 1) f.rnd.toNat
          (numAt s1.byte x.pa (typeBytes f.tyN)) (s.cw.rd f f.c x.lane) (s.cw.rd f f.a x.lane)
          (numAt u.byte x.pa (typeBytes f.tyN))
          ∧ numAt u.byte x.pa (typeBytes f.tyN) = aluNew (f.mdN 4 2) f.tyN (f.sat == 1) f.rnd.toNat
              (numAt s1.byte x.pa (typeBytes f.tyN)) (s.cw.rd f f.c x.lane) (s.cw.rd f f.a x.lane) % 256 ^ typeBytes f.tyN
    let results := fun (w : Warp) =>
      (∀ x ∈ xs, alone xs (typeBytes f.tyN) x → ∀ j, j < typeRegs f.tyN →
          w.vReg (f.d.toNat + j) x.lane = BitVec.ofNat 32 (numAt s1.byte x.pa (typeBytes f.tyN) >>> (32 * j)))
      ∧ ∀ r l, l < 128 → writesLane s f (typeRegs f.tyN) r l = false → w.vReg r l = s.cw.vReg r l
    (f.la = 0 → LanesReach s f (typeBytes f.tyN) .atomic false true s1 xs →
      ∃ u, LaneEffect (.vamo sc f) s u ∧ Kept s u ∧ SameScalars s u ∧ lanesOfWord s f xs ∧ stored u ∧ results u.cw)
    ∧ (s.cp.stepping = 0 → s.run.pos + 1 < s.run.count →
        (f.la ≠ 0 ∧ LanesReach s f (typeBytes f.tyN) .atomic false true s1 xs) ∨ DrawerReach s f (typeBytes f.tyN) .atomic false true s1 xs →
        ∃ t d, exec (.vamo sc f) s = .next t ∧ Waits s t d f.la.toNat (xs.all (fun x => !isDrawer x.pa)) ∧ lanesOfWord s f xs ∧ stored t
          ∧ results (s.cw.applyAll s.cur.2 d.writes)))
  ∧ (∀ (op t : Nat) (sat : Bool) (rm o c d : Nat), AtomicRow op t sat rm o c d (aluNew op t sat rm o c d))

/-- R143, R144 and R147: a fence changes no register and no byte; its release part raises the warp's interval and is
kept for the atomic write that follows it, its acquire part raises the interval too (R130, R134). What the path keeps
is the model's reading (log 35). -/
def Obligations.Fences : Prop :=
  (∀ l sc o s, warpReady (.fence l sc o) s → (l = 1 → s.cp.queue = []) →
      ∃ u, Effect (.fence l sc o) s u (s.cp.pc + 4) ∧ Kept s u ∧ SameScalars s u ∧ u.cw.v = s.cw.v ∧ u.mem = s.mem
        ∧ u.cw.interval = s.cw.interval + (if o = 1 ∨ o = 2 then 1 else 2)
        ∧ (o ≠ 1 → u.cp.relFence = some sc.toNat))
    ∧ (∀ sc o s, warpReady (.fence 1 sc o) s → s.cp.queue ≠ [] → exec (.fence 1 sc o) s = .next (s.wait 14))
    ∧ (∀ f s, lanesReady (.vfence f) s → s.actLanes f = [] → LaneEffect (.vfence f) s s)
    ∧ ∀ f s, lanesReady (.vfence f) s → s.actLanes f ≠ [] →
      ∃ u, LaneEffect (.vfence f) s u ∧ Kept s u ∧ SameScalars s u ∧ u.cw.v = s.cw.v ∧ u.mem = s.mem
        ∧ u.cw.interval = s.cw.interval + (if f.mdN 1 0 = 1 ∨ f.mdN 1 0 = 2 then 1 else 2)
        ∧ (f.mdN 1 0 ≠ 1 → u.cp.relFence = some (f.mdN 4 3))

/-- R11 and R17: a translation leaves every byte of memory but those of the leaf its walk read, whose A bit it may
set, and changes nothing else but translations held and the draw of the entry a full store drops (log 7). -/
def Obligations.TranslationFrame : Prop :=
  ∀ (s : State) (a : Agent) (va : Nat) (want : Want),
    let t := (translate s a va want).1
    let xd := (s.ctx a.ctx).xdesc
    (t.mem.bytes = s.mem.bytes
      ∨ ∃ lvl e at_, (walkRoot s (s.pointersOf a.core) (xdSpace xd) va (xdRoot xd)).1 = .leaf lvl e at_ ∧ bitB e 53 = false
          ∧ t.byte = storedAt s.byte at_ 8 (e.toNat + 2 ^ 53))
    ∧ (∀ c, t.core c = { s.core c with tlb := (t.core c).tlb })
    ∧ t = { s with mem := { s.mem with bytes := t.mem.bytes }, cores := t.cores, l2 := t.l2, hubTlb := t.hubTlb
                   pointers := t.pointers, freeCtr := t.freeCtr }

/-! ## The system forms -/

/-- R37, R218, R219 and R345: SYSR writes the register's value of now, once the runs it waits for have completed. That
sys.mask and sys.laneid leave out exited lanes is the model's reading (log 55). R37, R38, R138, R343 and R345: SYSW
replaces the writable bits of its register and nothing else. -/
def Obligations.SystemRegisters : Prop :=
  (∀ d n s x, warpReady (.sysr d n) s → sysRead s n.toNat = some x → (sysPriv n.toNat = true → s.cw.priv = true) → sysSettled s n.toNat →
    ∃ t, exec (.sysr d n) s = .next t ∧ ScalarResult s t (s.cp.pc + 4) (setAt s.sN d.toNat x) s.aN s.qN)
  ∧ ((∀ r s, warpReady (.sysw r 0x012) s → sysSettled s 0x012 → Effect (.sysw r 0x012) s
      (s.modW (fun w => { w with fpctl := s.sReg r &&& 0x1F0000001F })) (s.cp.pc + 4))
    ∧ (∀ r s, warpReady (.sysw r 0x013) s → sysSettled s 0x013 → Effect (.sysw r 0x013) s
        (s.modW (fun w => { w with racectl := s.sReg r &&& 3 })) (s.cp.pc + 4))
    ∧ (∀ r s, warpReady (.sysw r 0x039) s → Effect (.sysw r 0x039) s
        (if (s.sReg r).extractLsb' 0 2 = 3 then s else s.modP (fun p => { p with fdisp := (s.sReg r).extractLsb' 0 2 }))
        (s.cp.pc + 4))
    ∧ (∀ r s, warpReady (.sysw r 0x030) s → s.cw.priv = true → Effect (.sysw r 0x030) s
        (s.modCtx s.cw.ctx (fun c => { c with trap := s.sReg r &&& 0x80000000FFFFFFFF })) (s.cp.pc + 4))
    ∧ ∀ r n s, warpReady (.sysw r n) s → s.cw.priv = true → 0x100 ≤ n.toNat → n.toNat ≤ 0x11F → Effect (.sysw r n) s
        (s.modLink (n.toNat - 0x100) (·.writeDlctl (s.sReg r))) (s.cp.pc + 4))

/-- R220, R344 and R345: TRAP takes the exception. The path runs at the trap vector's entry with an empty lane queue
and DISP 0; s56-s63, q0-q7, the resume point after the TRAP and the record with class software and the code are saved,
and no other register and no byte of memory changes. -/
def Obligations.TrapEntry : Prop :=
  ∀ code s e, warpReady (.trap code) s → slotIsOurs s → s.cp.handler = none → s.cp.frag = none → s.untraced = true →
    bitB s.cctx.trap 63 = true → s.cp.liveMask s.cw ≠ 0 → (s.core (coreOf s.cur.1)).frags.freeKey 0 256 = some e →
    (s.core (coreOf s.cur.1)).latch = [] →
    ∃ t h, exec (.trap code) s = .next t ∧ t.cp.handler = some h
      ∧ t.cp.pc = BitVec.ofNat 72 (textbaseN s.cctx + 4 * bitsN s.cctx.trap 31 0) ∧ t.cp.fdisp = 0 ∧ t.cp.queue = []
      ∧ t.cp.mask = s.cp.liveMask s.cw
      ∧ h.pc = s.cp.pc + 4 ∧ (∀ n, 56 ≤ n → n < 64 → h.s.get n = s.sN n) ∧ h.q = s.cp.q
      ∧ h.rcd.cls = 0x13 ∧ h.rcd.cause = code ∧ h.rcd.fdata = code.setWidth 64 ∧ h.rcd.lane = false
      ∧ t.sN = s.sN ∧ t.aN = s.aN ∧ t.cw.v = s.cw.v ∧ t.cw.p = s.cw.p ∧ t.cw.fpctl = s.cw.fpctl ∧ t.mem = s.mem

/-- R346: TRET restores s56-s63 and q0-q7 and leaves the handler. DISP 0 resumes at the saved point, DISP 1 after the
instruction of a path fault, a software trap after the TRAP under either. Outside a handler it is a path fault of
class scalar and cause "tret". -/
def Obligations.ReturnFromTrap : Prop :=
  (∀ s h, warpReady .tret s → s.cp.handler = some h → s.cp.queue = [] → h.windows = [] → h.queue = [] →
      h.s.wf = true → (∀ e ∈ h.s, 56 ≤ e.1 ∧ e.1 < 64) → (h.rcd.race = none ∨ s.cp.fdisp = 1) → s.cp.fdisp ≠ 2 →
      ∃ t, exec .tret s = .next t ∧ t.cp.handler = none
        ∧ t.cp.pc = (if h.rcd.after = false ∧ h.rcd.flpc = BitVec.allOnes 20 ∧
              (h.rcd.cls = 0x13 ∨ (s.cp.fdisp = 1 ∧ h.rcd.cls ≠ 0x20)) then h.pc + 4 else h.pc)
        ∧ (∀ n, t.sN n = if 56 ≤ n ∧ n < 64 then h.s.get n else s.sN n)
        ∧ t.cp.q = h.q ∧ t.cp.mask = s.cp.mask ∧ t.aN = s.aN ∧ t.cw.v = s.cw.v ∧ t.mem = s.mem)
    ∧ (∀ s h, warpReady .tret s → s.cp.handler = some h → s.cp.queue = [] → s.cp.fdisp = 2 →
        (s.core (coreOf s.cur.1)).latch = [] →
        ∃ t w, exec .tret s = .next t ∧ t.warps.find s.cur.1 = some w ∧ w.exited = s.cw.exited ||| s.cp.mask)
    ∧ ∀ s, warpReady .tret s → s.cp.handler = none → exec .tret s = .next (s.scalarFault 0x10 3 0 0)

/-- R51: a scalar word of a warp that breaks its card's rules takes class illegal with its cause, before any effect.
That the word's own rules come before the handler's bar and before a window's wait is the model's reading (log 101).
R344: a handler that issues a form R344 names takes class scalar, cause "handler", before any effect. -/
def Obligations.HandlerAndIllegalWords : Prop :=
  (∀ (w : BitVec 32) i c s, decodeScalar w = .ok i → i.illegal = some c → isPrologue i = false → s.hub.fatal = false →
    s.path?.isSome = true → s.inPu = false → s.quiet = true → s.transferStall = false →
    exec i s = .next (s.scalarFault 0x11 c.code 0 0))
  ∧ (∀ (w : BitVec 32) i s, decodeScalar w = .ok i → i.illegal = none → handlerBars i = true → s.hub.fatal = false →
    s.path?.isSome = true → s.inPu = false → s.quiet = true → s.transferStall = false → s.cp.handler.isSome = true →
    exec i s = .next (s.scalarFault 0x10 0x0F 0 0))

/-- R190, R192, R193 and R216: BARA adds the path's live lanes to the phase, and the arrival that fills it clears the
masks and advances the phase by one; BARW goes on where none of its lanes is counted in an open phase, and holds the
path otherwise; BARAW arrives once and then waits. R217: GANGSET writes g0 where the value passes its check or is 0,
and else takes class scalar, cause "gang", with g0 as it was. -/
def Obligations.BarriersAndGangs : Prop :=
  ((∀ b s, warpReady (.bara b) s → s.cp.queue = [] → (s.teams.find s.cw.team).isSome = true → s.untraced = true →
      (s.bar b.toNat).arrived.get s.cur.1 &&& s.cp.liveMask s.cw = 0 → s.cp.liveMask s.cw ≠ 0 →
      ∃ t, exec (.bara b) s = .next t ∧ t.cp.pc = s.cp.pc + 4 ∧ SameScalars s t ∧ t.cw.v = s.cw.v ∧ t.mem = s.mem
        ∧ (phaseFull s b.toNat → (t.bar b.toNat).phase = (s.bar b.toNat).phase + 1 ∧ (t.bar b.toNat).arrived = [])
        ∧ (¬phaseFull s b.toNat → (t.bar b.toNat).phase = (s.bar b.toNat).phase
            ∧ ∀ wid, (t.bar b.toNat).arrived.get wid = arrivedWith s b.toNat wid))
    ∧ (∀ b s, warpReady (.barw b) s → (s.bar b.toNat).arrived.get s.cur.1 &&& s.cp.liveMask s.cw = 0 →
        ∃ t, exec (.barw b) s = .next t ∧ ScalarResult s t (s.cp.pc + 4) s.sN s.aN s.qN)
    ∧ (∀ b s, warpReady (.barw b) s → (s.bar b.toNat).arrived.get s.cur.1 &&& s.cp.liveMask s.cw ≠ 0 →
        s.cw.stack = [] → oldestReady (s.core (coreOf s.cur.1)) s.cur.1 = none → exec (.barw b) s = .next ((s.modP (fun p => { p with bar := some b.toNat })).wait 7))
    ∧ ∀ b s, warpReady (.baraw b) s → s.cp.queue = [] → s.cp.begun = false → (s.teams.find s.cw.team).isSome = true →
        s.untraced = true → (s.bar b.toNat).arrived.get s.cur.1 &&& s.cp.liveMask s.cw = 0 → s.cp.liveMask s.cw ≠ 0 →
        phaseFull s b.toNat →
        ∃ t, exec (.baraw b) s = .next t ∧ t.cp.pc = s.cp.pc + 4 ∧ SameScalars s t ∧ t.cw.v = s.cw.v ∧ t.mem = s.mem
          ∧ (t.bar b.toNat).phase = (s.bar b.toNat).phase + 1 ∧ (t.bar b.toNat).arrived = [])
  ∧ (∀ r s, warpReady (.gangset r) s →
    (s.sReg r = 0 ∨ gangOk s.cteam.warps.length (s.sReg r) = true →
      Effect (.gangset r) s (s.modW (fun w => { w with g0 := s.sReg r })) (s.cp.pc + 4))
    ∧ (s.sReg r ≠ 0 → gangOk s.cteam.warps.length (s.sReg r) = false →
        exec (.gangset r) s = .next (s.scalarFault 0x10 2 0 0)))

/-- R222, R223 and R224: within the Prologue Unit PSET keeps a legal value for the end of the run, and PCANCEL,
PREPEAT and EXIT end the run with no launch, with a launch and a repeat, and with a launch; a warp that issues PSET,
PCANCEL or PREPEAT takes class illegal, cause "opcode". R221: BRKPT does nothing without a debugger's breakpoints, and
with them stops the path after its own issue. -/
def Obligations.PrologueAndBreakpoints : Prop :=
  ((∀ r n s l, s.quiet = true → scalarReady (.pset r n) s = true → s.inPu = true → s.puLaunch = some l →
      psetOk l n.toNat (s.sReg r) = true →
      Effect (.pset r n) s { s with pu := s.pu.map (fun x => { x with pset := x.pset.put n.toNat (s.sReg r) }) } (s.cp.pc + 4))
    ∧ (∀ i s r e l, i ∈ [Instr.pcancel, .prepeat, .exit] → s.quiet = true → scalarReady i s = true → s.inPu = true →
        s.pu = some r → (s.queue r.ctx r.q).entry = some e → e.launch = some l →
        ∃ t e' l', exec i s = .next t ∧ t.pu = none ∧ t.warps.find puWid = none
          ∧ (t.queue r.ctx r.q).entry = some e' ∧ e'.launch = some l'
          ∧ l' = { l.applyPset r.pset with
              prologue := 3, again := decide (i = .prepeat ∧ l.repeats < 255), cancelled := decide (i = .pcancel) })
    ∧ ∀ i s, i ∈ [Instr.pcancel, .prepeat] ∨ (∃ r n, i = Instr.pset r n) → s.hub.fatal = false → s.path?.isSome = true → s.inPu = false →
        s.quiet = true → s.transferStall = false → exec i s = .next (s.scalarFault 0x11 1 0 0))
  ∧ ((∀ tag s, warpReady (.brkpt tag) s → bitB s.cctx.dbgctl 63 = false ∨ bitB s.cctx.dbgctl 62 = false →
      ∃ t, exec (.brkpt tag) s = .next t ∧ ScalarResult s t (s.cp.pc + 4) s.sN s.aN s.qN)
    ∧ ∀ tag s, warpReady (.brkpt tag) s → s.untraced = true → bitB s.cctx.dbgctl 63 = true →
        bitB s.cctx.dbgctl 62 = true →
        ∃ t, exec (.brkpt tag) s = .next t ∧ t.cp.pc = s.cp.pc + 4 ∧ t.cp.stopped = true ∧ SameScalars s t
          ∧ t.cw.v = s.cw.v ∧ t.mem = s.mem)

/-! ## Engines, the tree and raises -/

/-- R266: TXLD, TXST and TXPF that pass the tests of R266 place one entry, with the record and the register values
read at issue, at their queue's tail, and the issue is a release (R159). R266 and R269: WBLOAD reads the tile's head
at issue, and where the head and the span are legal and the slot exists it places one entry; a full queue makes it
wait with nothing done, where it has no lookahead; with lookahead an entry waits in the form's window for its place
(R45). R270, R168 and R169: RECFENCE drops one record of the context from the core's cache and RECFENCE.ALL all of
them, once the path's stores are performed; QFENCE joins every named queue; QWAIT goes on when no entry of the warp is
left in the named queues, which is an acquire, and waits in its window for those it found otherwise. -/
def Obligations.EngineForms : Prop :=
  ((∀ q r g c s s1 rcd hit, warpReady (.txld q r g c 0) s → (s.engine q.toNat).length < 16 →
      s.fetchRecord (s.aReg r).toNat = (s1, .ok (rcd, hit)) → Shape.whole rcd = true → Shape.ok true rcd = true →
      (s.aReg g).toNat % Shape.gAlign rcd = 0 →
      (Shape.ring rcd = false → spanCause s1.cteam true (Shape.span rcd) (s.sReg c).toInt = 0) →
      (Shape.ring rcd = true → spanCause s1.cteam false (Shape.span rcd) (s.sReg c).toInt = 0
        ∧ ringEntryOk s1 true q.toNat (s.sReg c).toInt rcd = true) →
      ∃ u e, Effect (.txld q r g c 0) s u (s.cp.pc + 4) ∧ u.engine q.toNat = s.engine q.toNat ++ [e]
        ∧ entryOf s e .txld rcd (s.aReg g) (s.sReg c).toInt.toNat ∧ Issued s s1 u q.toNat)
    ∧ (∀ q r g c s s1 rcd hit, warpReady (.txst q r g c 0) s → (s.engine q.toNat).length < 16 →
        s.fetchRecord (s.aReg r).toNat = (s1, .ok (rcd, hit)) → Shape.whole rcd = true → Shape.ok false rcd = true →
        (s.aReg g).toNat % Shape.gAlign rcd = 0 → Shape.ring rcd = false →
        spanCause s1.cteam false (Shape.span rcd) (s.sReg c).toInt = 0 →
        ∃ u e, Effect (.txst q r g c 0) s u (s.cp.pc + 4) ∧ u.engine q.toNat = s.engine q.toNat ++ [e]
          ∧ entryOf s e .txst rcd (s.aReg g) (s.sReg c).toInt.toNat ∧ Issued s s1 u q.toNat)
    ∧ ∀ q r g s s1 rcd hit, warpReady (.txpf q r g) s → (s.engine q.toNat).length < 16 →
        s.fetchRecord (s.aReg r).toNat = (s1, .ok (rcd, hit)) → Shape.whole rcd = true → Shape.ok true rcd = true →
        (s.aReg g).toNat % Shape.gAlign rcd = 0 →
        ∃ u e, Effect (.txpf q r g) s u (s.cp.pc + 4) ∧ u.engine q.toNat = s.engine q.toNat ++ [e]
          ∧ entryOf s e .txpf rcd (s.aReg g) 0 ∧ Issued s s1 u q.toNat)
  ∧ ((∀ q sl c s, warpReady (.wbload q sl c 0) s → (s.engine q.toNat).length < 16 →
      let off := (s.sReg c).toInt
      let ws := s.headWords s.cw.team off.toNat
      let cf := ws.headD 0 % 16
      spanCause s.cteam false 64 off = 0 → Tensor.headOk true ws = true → cf ≠ 7 →
      spanCause s.cteam false
        (if Tensor.isSparse cf then Tensor.sparseSize cf (natBits (ws.getD 1 0) 39 32) else Tensor.tileSize true cf) off = 0 →
      (s.sReg sl).toNat < 256 →
      ∃ u e, Effect (.wbload q sl c 0) s u (s.cp.pc + 4) ∧ u.engine q.toNat = s.engine q.toNat ++ [e]
        ∧ entryOf s e .wbload [] 0 off.toNat ∧ e.slot = (s.sReg sl).toNat
        ∧ e.head0 = BitVec.ofNat 64 (ws.getD 0 0) ∧ e.head1 = BitVec.ofNat 64 (ws.getD 1 0) ∧ Issued s s u q.toNat)
    ∧ (∀ q sl c s, warpReady (.wbload q sl c 0) s → 16 ≤ (s.engine q.toNat).length →
        exec (.wbload q sl c 0) s = .next (s.wait (s.queueStall (coreOf s.cur.1) q.toNat)))
    ∧ ∀ q r g c l s s1 rcd hit, warpReady (.txst q r g c l) s → l ≠ 0 → s.cp.stepping = 0 → 16 ≤ (s.engine q.toNat).length →
        s.fetchRecord (s.aReg r).toNat = (s1, .ok (rcd, hit)) → Shape.whole rcd = true → Shape.ok false rcd = true →
        (s.aReg g).toNat % Shape.gAlign rcd = 0 → Shape.ring rcd = false →
        spanCause s1.cteam false (Shape.span rcd) (s.sReg c).toInt = 0 →
        ∃ t w e, exec (.txst q r g c l) s = .next t ∧ t.cp.pc = s.cp.pc + 4 ∧ t.cp.windows = [w] ∧ w.left = l.toNat
          ∧ w.pend = some (.engine q.toNat e) ∧ entryOf s e .txst rcd (s.aReg g) (s.sReg c).toInt.toNat ∧ Issued s s1 t q.toNat
          ∧ t.engine q.toNat = s1.engine q.toNat)
  ∧ ((∀ r s, warpReady (.recfence r) s → s.cp.queue = [] → Effect (.recfence r) s
      (s.modCore (coreOf s.cur.1) (fun c => { c with records := c.records.filter (fun x =>
        !(x.space == xdSpace s.cctx.xdesc && x.addr == s.aReg r)) })) (s.cp.pc + 4))
    ∧ (∀ s, warpReady .recfenceAll s → s.cp.queue = [] → Effect .recfenceAll s
        (s.modCore (coreOf s.cur.1) (fun c => { c with records := [] })) (s.cp.pc + 4))
    ∧ (∀ m s, warpReady (.qfence m) s → (∀ i, i < 4 → m.getLsbD i = true → (s.engine i).length < 16) →
        ∃ u, Effect (.qfence m) s u (s.cp.pc + 4) ∧ SameScalars s u ∧ u.mem = s.mem
          ∧ ∀ i, i < 4 → if m.getLsbD i = true
              then ∃ e, u.engine i = s.engine i ++ [e] ∧ e.form = .fence ∧ e.fenceMask = m.toNat ∧ e.wid = s.cur.1
              else u.engine i = s.engine i)
    ∧ (∀ m l s, warpReady (.qwait m l) s → (∀ i, i < 4 → m.getLsbD i = true → ∀ e ∈ s.engine i, e.wid ≠ s.cur.1) →
        ∃ u, Effect (.qwait m l) s u (s.cp.pc + 4) ∧ SameScalars s u ∧ u.cw.interval = s.cw.interval + 1 ∧ u.mem = s.mem)
    ∧ ∀ m l s i e, warpReady (.qwait m l) s → s.cp.stepping = 0 → i < 4 → m.getLsbD i = true → e ∈ s.engine i →
        e.wid = s.cur.1 →
        ∃ t w ids n, exec (.qwait m l) s = .next t ∧ t.cp.pc = s.cp.pc + 4 ∧ t.cp.windows = [w] ∧ w.left = l.toNat
          ∧ w.pend = some (.qwait ids n) ∧ e.id ∈ ids ∧ SameScalars s t ∧ t.mem = s.mem)

/-- R112: CREAD writes a node's COUNT as it stands, CREAD.g the granule's count zero-extended. R110: CNODE makes a
node of the lowest free index from 1 up, first child of its parent and one deeper, writes the index, and its parent
takes one tree bump. R105, R114, R106, R115 and R116: CWATCH writes the lowest free watch reference of a node the slot
names; CREPAR puts a node under its new parent as its first child and does nothing where it is there already; CFREE
takes the node out and its parent takes one bump. That CWATCH tests the slot in the table that ATTACH read is the
model's choice (log 117). -/
def Obligations.TreeForms : Prop :=
  ((∀ d n s x, warpReady (.cread d n 0) s → namesNode s n x →
      ∃ t, exec (.cread d n 0) s = .next t ∧ ScalarResult s t (s.cp.pc + 4) (setAt s.sN d.toNat (s.nodeN x).count) s.aN s.qN)
    ∧ ∀ d a s s1 h, warpReady (.creadG d a 0) s → earlyFault 1 ((s.aReg a).toNat : Int) = none →
      translate s s.agent (s.aReg a).toNat .noData = (s1, .ok h) →
      ∃ u, Effect (.creadG d a 0) s u (s.cp.pc + 4) ∧ Kept s u ∧ u.mem.bytes = s1.mem.bytes ∧ u.aN = s.aN
        ∧ u.sN = setAt s.sN d.toNat ((s1.mem.counts.get (h.pa / 4096)).setWidth 64))
  ∧ (∀ d p s a n, warpReady (.cnode d p 0) s → namesNode s p a → 1 ≤ n → n < 2 ^ 20 → s.nodeLive s.cw.ctx n = false →
    (∀ m, 1 ≤ m → m < n → s.nodeLive s.cw.ctx m = true) → (s.nodeN a).depth ≠ 31 →
    ∃ u, Effect (.cnode d p 0) s u (s.cp.pc + 4) ∧ u.aN = s.aN ∧ u.qN = s.qN
      ∧ u.sN = setAt s.sN d.toNat (BitVec.ofNat 64 n) ∧ u.mem = s.mem
      ∧ u.nodeN n = { depth := (s.nodeN a).depth + 1, parent := BitVec.ofNat 20 a, next := (s.nodeN a).first }
      ∧ u.nodeN a = { s.nodeN a with count := (s.nodeN a).count + 1, pend := true, first := BitVec.ofNat 20 n }
      ∧ ∀ m, m < 2 ^ 20 → m ≠ a → m ≠ n → u.nodeN m = s.nodeN m)
  ∧ ((∀ n y z s x q i, warpReady (.cwatch n y z) s → namesNode s n x → (s.sReg z).toNat < 64 →
      s.systems.find (s.sReg y).toNat = some q → q.ctx = s.cw.ctx → s.ownsSys s.cw.ctx (s.sReg y).toNat = true →
      (∃ w, q.watch.find (s.sReg z).toNat = some w ∧ w.1 = x) →
      i < 4 → bitsN (s.nodeN x).wref (16 * i + 15) (16 * i) < 2 ^ 15 →
      (∀ j, j < i → 2 ^ 15 ≤ bitsN (s.nodeN x).wref (16 * j + 15) (16 * j)) →
      Effect (.cwatch n y z) s (s.modNode s.cw.ctx x (fun r => { r with
        wref := putBits r.wref (16 * i + 15) (16 * i) (2 ^ 15 + (s.sReg y).toNat * 64 + (s.sReg z).toNat) })) (s.cp.pc + 4))
    ∧ (∀ n p s x q, warpReady (.crepar n p) s → namesNode s n x → x ≠ 0 → namesNode s p q → (s.nodeN x).parent.toNat = q →
        q ∉ s.subtree s.cw.ctx x →
        (∀ m ∈ s.subtree s.cw.ctx x, (s.nodeN q).depth.toNat + 1 + ((s.nodeN m).depth.toNat - (s.nodeN x).depth.toNat) ≤ 31) →
        Effect (.crepar n p) s s (s.cp.pc + 4))
    ∧ (∀ n p s x q, warpReady (.crepar n p) s → namesNode s n x → x ≠ 0 → namesNode s p q → (s.nodeN x).parent.toNat ≠ q →
        q ∉ s.subtree s.cw.ctx x →
        (∀ m ∈ s.subtree s.cw.ctx x, (s.nodeN q).depth.toNat + 1 + ((s.nodeN m).depth.toNat - (s.nodeN x).depth.toNat) ≤ 31) →
        ∃ u, Effect (.crepar n p) s u (s.cp.pc + 4) ∧ SameScalars s u ∧ (u.nodeN x).parent.toNat = q
          ∧ (u.nodeN q).first.toNat = x ∧ (u.nodeN q).pend = true ∧ u.mem.bytes = s.mem.bytes)
    ∧ ∀ n s x, warpReady (.cfree n) s → namesNode s n x → x ≠ 0 → (s.nodeN x).first = 0 → (s.nodeN x).enrol = 0 →
        (s.nodeN x).watches = [] → (s.nodeN x).parent.toNat ≠ x →
        ∃ u, Effect (.cfree n) s u (s.cp.pc + 4) ∧ SameScalars s u ∧ u.nodes.find (s.cw.ctx * 2 ^ 20 + x) = none
          ∧ (u.nodeN (s.nodeN x).parent.toNat).count = (s.nodeN (s.nodeN x).parent.toNat).count + 1
          ∧ (u.nodeN (s.nodeN x).parent.toNat).pend = true ∧ u.mem = s.mem)

/-- R109 and R111: CENROL puts every granule of the range that the context owns under its node, and CUNROL under the
root; no other granule's enrolment and no byte of memory changes beyond what translation does. That granules the
context does not own are passed over is the model's reading (log 48). R103 and R113: CSETTLE leaves no granule mark
beneath its node and writes the node's COUNT as it then stands; it is an acquire. -/
def Obligations.EnrolmentAndSettling : Prop :=
  ((∀ n a c s s1 x gs, warpReady (.cenrol n a c) s → s.cp.queue = [] → namesNode s n x → (s.aReg a).toNat % 4096 = 0 →
      1 ≤ (s.sReg c).toNat → (s.sReg c).toNat ≤ 1048576 →
      s.granules (s.aReg a).toNat (s.sReg c).toNat = (s1, .ok gs) →
      ∃ u, Effect (.cenrol n a c) s u (s.cp.pc + 4) ∧ SameScalars s u ∧ u.mem.bytes = s1.mem.bytes
        ∧ ∀ g, u.mem.enrol.get g = if g ∈ gs ∧ s.mem.ownerOf g = s.cw.ctx + 1 then BitVec.ofNat 20 x else s.mem.enrol.get g)
    ∧ ∀ a c s s1 gs, warpReady (.cunrol a c) s → s.cp.queue = [] → (s.aReg a).toNat % 4096 = 0 →
      1 ≤ (s.sReg c).toNat → (s.sReg c).toNat ≤ 1048576 →
      s.granules (s.aReg a).toNat (s.sReg c).toNat = (s1, .ok gs) →
      ∃ u, Effect (.cunrol a c) s u (s.cp.pc + 4) ∧ SameScalars s u ∧ u.mem.bytes = s1.mem.bytes
        ∧ ∀ g, u.mem.enrol.get g = if g ∈ gs ∧ s.mem.ownerOf g = s.cw.ctx + 1 then 0 else s.mem.enrol.get g)
  ∧ (∀ d n s x, warpReady (.csettle d n 0) s → s.cp.queue = [] → namesNode s n x → s.treeRuns s.cw.ctx = true →
    ∃ u, Effect (.csettle d n 0) s u (s.cp.pc + 4) ∧ u.aN = s.aN ∧ u.qN = s.qN
      ∧ u.sN = setAt s.sN d.toNat (u.nodeN x).count ∧ u.cw.interval = s.cw.interval + 1 ∧ u.mem.bytes = s.mem.bytes
      ∧ (∀ g, s.mem.ownerOf g = s.cw.ctx + 1 → (s.mem.enrol.get g).toNat ∈ s.subtree s.cw.ctx x → u.mem.pend.get g = 0)
      ∧ ∀ g, s.mem.pend.get g = 0 → u.mem.pend.get g = 0)

/-- R299 to R302: VRKEY writes each active lane's key; RAISE and RAISE.sum send one raise as a release; VRAISE sends
one for each active lane in ascending order. R287 and R303: PLOTEND states the larger of the keys given for its task,
is a release and ends the path's lanes; a warp that works for no plot takes a path fault. -/
def Obligations.RaisesAndPlots : Prop :=
  ((∀ f : LaneWord, GivesV (.vrkey f) f 1 (fun s l => keyOf f.tyN (s.cw.vReg f.a.toNat l).toNat))
    ∧ (∀ sum x y z s q, warpReady (if sum then .raiseSum x y z else .raise x y z) s →
        s.sysOf s.cw.ctx (s.sReg x).toNat = some q → (s.sReg y).toNat < q.plots.length → (s.sReg z).toNat < 2 ^ 16 →
        ∃ u r, Effect (if sum then .raiseSum x y z else .raise x y z) s u (s.cp.pc + 4) ∧ SameScalars s u ∧ u.mem = s.mem
          ∧ u.raises = s.raises ++ [r] ∧ r.sys = (s.sReg x).toNat ∧ r.plot = (s.sReg y).toNat
          ∧ r.key.toNat = (s.sReg z).toNat ∧ r.sum = sum ∧ u.cw.interval = s.cw.interval + 1)
    ∧ ∀ f s q, lanesReady (.vraise f) s →
        s.sysOf s.cw.ctx (s.run.s.get (f.c.toNat % 64)).toNat = some q →
        (∀ l ∈ s.actLanes f, (s.cw.vReg f.b.toNat l).toNat < q.plots.length ∧ (s.cw.vReg f.a.toNat l).toNat < 2 ^ 16) →
        ∃ u rs, LaneEffect (.vraise f) s u ∧ SameScalars s u ∧ u.cw.v = s.cw.v ∧ u.mem = s.mem ∧ u.raises = s.raises ++ rs
          ∧ rs.map (fun r => (r.plot, r.key.toNat)) =
              (s.actLanes f).map (fun l => ((s.cw.vReg f.b.toNat l).toNat, (s.cw.vReg f.a.toNat l).toNat))
          ∧ ∀ r ∈ rs, r.sys = (s.run.s.get (f.c.toNat % 64)).toNat ∧ r.sum = (f.mdN 0 0 == 1))
  ∧ ((∀ x s n i, warpReady (.plotend x) s → s.cteam.owner = .plot n i → (s.teams.find s.cw.team).isSome = true →
      (s.sReg x).toNat < 2 ^ 16 → s.cp.queue = [] → s.raisesArrived = true →
      (s.core (coreOf s.cur.1)).latch = [] →
      ∃ t w, exec (.plotend x) s = .next t ∧ t.warps.find s.cur.1 = some w ∧ w.exited = s.cw.exited ||| s.cp.mask
        ∧ ∃ k, (t.teams.getD s.cw.team {}).stated = some k
            ∧ k.toNat = max (s.sReg x).toNat (match s.cteam.stated with | some j => j.toNat | none => 0))
    ∧ ∀ x s, warpReady (.plotend x) s → s.cp.queue = [] → (∀ n i, s.cteam.owner ≠ .plot n i) →
        exec (.plotend x) s = .next (s.scalarFault 0x10 0x0C 0 0))

/-- R109: a node operand that names no live node, or the root where the card forbids it, is a path fault of class
scalar with cause "node"; a base off its granule or a count out of range has cause "range"; the tree and every
register stand. R300 and R302: the causes of class scalar and of class standing where a raise names no system of the
context, no plot of it, or a key above 16 bits; nothing is sent. VRAISE takes class standing in the lanes it fails in,
here all of its path's: the record holds the least code of its lanes (1 system, 2 plot, 3 key) and the mask of the
lanes that have it. -/
def Obligations.TreeAndRaiseFaults : Prop :=
  ((∀ d n l s, warpReady (.cread d n l) s → 2 ^ 20 ≤ (s.sReg n).toNat ∨ s.nodeLive s.cw.ctx (s.sReg n).toNat = false →
      exec (.cread d n l) s = .next (s.scalarFault 0x10 4 0 0))
    ∧ (∀ n s, warpReady (.cfree n) s → s.sReg n = 0 → exec (.cfree n) s = .next (s.scalarFault 0x10 4 0 0))
    ∧ (∀ n p s, warpReady (.crepar n p) s → s.sReg n = 0 → exec (.crepar n p) s = .next (s.scalarFault 0x10 4 0 0))
    ∧ ∀ a c s, warpReady (.cunrol a c) s → s.cp.queue = [] →
        (s.aReg a).toNat % 4096 ≠ 0 ∨ s.sReg c = 0 ∨ 1048576 < (s.sReg c).toNat →
        exec (.cunrol a c) s = .next (s.scalarFault 0x10 9 0 0))
  ∧ ((∀ x y z s, warpReady (.raise x y z) s →
    (s.sysOf s.cw.ctx (s.sReg x).toNat = none → exec (.raise x y z) s = .next (s.scalarFault 0x10 0x0B 0 0))
    ∧ ∀ q, s.sysOf s.cw.ctx (s.sReg x).toNat = some q →
        (q.plots.length ≤ (s.sReg y).toNat → exec (.raise x y z) s = .next (s.scalarFault 0x10 0x0C 0 0))
        ∧ ((s.sReg y).toNat < q.plots.length → 2 ^ 16 ≤ (s.sReg z).toNat →
            exec (.raise x y z) s = .next (s.scalarFault 0x10 0x0D 0 0)))
    ∧ ∀ f s, lanesReady (.vraise f) s → s.actLanes f ≠ [] → activeMask s.cw s.cp f = s.cp.liveMask s.cw →
        let code (l : Nat) : Nat :=
          match s.sysOf s.cw.ctx (s.run.s.get (f.c.toNat % 64)).toNat with
          | none => 1
          | some q => if q.plots.length ≤ (s.cw.vReg f.b.toNat l).toNat then 2
              else if 2 ^ 16 ≤ (s.cw.vReg f.a.toNat l).toNat then 3 else 0
        (∀ l ∈ s.actLanes f, code l ≠ 0) →
        ∃ c, (∃ l ∈ s.actLanes f, code l = c) ∧ (∀ l ∈ s.actLanes f, c ≤ code l)
          ∧ exec (.vraise f) s = .next (s.wholeFault {
              cls := 0x0A, cause := BitVec.ofNat 8 c, lane := true, flpc := BitVec.ofNat 20 s.cp.lpc
              mask := maskOf ((s.actLanes f).filter (fun l => code l = c)) } none))

/-- R305: a REAP whose descriptor is aligned, legal and of a system of the context, with pages it may write, begins at
its issue: its window runs, and the reap takes the bound of the keys as it stands then. Once its plots are all copied
and its report is written it completes: its window's result is that bound, and the reap is over. A descriptor off its
alignment is a path fault before anything is read. -/
def Obligations.Reaping : Prop :=
  (∀ d a l s s1 s2 ws y, warpReady (.reap d a l) s → s.cp.stepping = 0 → (s.aReg a).toNat % 64 = 0 →
      s.reapDescriptor (s.aReg a).toNat = (s1, .ok ws) → s1.held = none → reapReserved ws = true →
      s1.sysOf s.cw.ctx (reapOf ws).sys = some y → reapShape y (reapOf ws) = true → (reapOf ws).dst % 8 = 0 →
      (reapOf ws).rpt % 64 = 0 →
      s1.checkPages s.agent .write (pagesOf (reapOf ws).dst (reapSpan y (reapOf ws)) ++ pagesOf (reapOf ws).rpt 576) = (s2, none) →
      ∃ t w id x, exec (.reap d a l) s = .next t ∧ t.cp.pc = s.cp.pc + 4 ∧ SameScalars s t ∧ t.cw.v = s.cw.v
        ∧ t.cp.windows = [w] ∧ w.left = l.toNat ∧ w.dests = [.s d.toNat] ∧ w.pend = some (.reap id d.toNat)
        ∧ t.reaps.find id = some x ∧ x.sys = (reapOf ws).sys ∧ x.first = (reapOf ws).first ∧ x.count = (reapOf ws).count
        ∧ x.pos = 0 ∧ x.bound = y.top ∧ t.mem.bytes = s2.mem.bytes)
    ∧ (∀ (s : State) (d : Window) (id dest : Nat) (r : Reap), s.path?.isSome = true → s.cp.windows = [d] →
        d.pend = some (.reap id dest) → s.reaps.find id = some r → r.count ≤ r.pos → s.held = none →
        (s.reapStores r 4 r.rpt (reportBytes s r)).2 = true → (s.reapStores r 4 r.rpt (reportBytes s r)).1.held = none →
        let t := s.pollWindow d
        t.cp.windows = [{ d with writes := [.s dest (r.bound.setWidth 64)], pend := none }] ∧ t.reaps.find id = none
          ∧ SameScalars s t ∧ t.cw.v = s.cw.v)
    ∧ ∀ d a l s, warpReady (.reap d a l) s → (s.aReg a).toNat % 64 ≠ 0 →
        exec (.reap d a l) s = .next (s.scalarFault 2 5 (s.aReg a).toNat 0)

/-! ## Canvases, rings and the matrix engine -/

/-- R61 and R62: CLD, CST and CAMO act on the team's canvas at each active lane's exact offset and change no other
canvas byte and no byte of memory. -/
def Obligations.CanvasAccess : Prop :=
  (∀ f s, lanesReady (.cld f) s → f.la = 0 → CanvasReach s f (typeBytes f.tyN) true false →
      (s.raceLanes s.laneOff true (typeBytes f.tyN) (canvasAccs s f)).2.2.1 = [] →
      ∃ u, LaneEffect (.cld f) s u ∧ CanvasOnly s u ∧ u.mem.canvas = s.mem.canvas
        ∧ (∀ l ∈ s.actLanes f, ∀ j, j < typeRegs f.tyN → u.cw.vReg (f.d.toNat + j) l
            = BitVec.ofNat 32 (narrow f.tyN (numAt s.cbyte (canvasAt s f l) (typeBytes f.tyN)) >>> (32 * j)))
        ∧ (∀ r l, l < 128 → writesLane s f (typeRegs f.tyN) r l = false → u.cw.vReg r l = s.cw.vReg r l))
    ∧ (∀ f s, lanesReady (.cst f) s → f.la = 0 → CanvasReach s f (typeBytes f.tyN) false true →
      (s.raceLanes s.laneOff true (typeBytes f.tyN) (canvasAccs s f)).2.2.1 = [] →
      ∃ u, LaneEffect (.cst f) s u ∧ CanvasOnly s u ∧ u.cw.v = s.cw.v
        ∧ (∀ a, (∀ x ∈ canvasAccs s f, ¬(x.pa ≤ a ∧ a < x.pa + typeBytes f.tyN)) → u.cbyte a = s.cbyte a)
        ∧ (∀ x ∈ canvasAccs s f, alone (canvasAccs s f) (typeBytes f.tyN) x → ∀ i, i < typeBytes f.tyN →
            u.cbyte (x.pa + i) = BitVec.ofNat 8 (s.cw.rd f f.c x.lane / 256 ^ i)))
    ∧ ∀ f s, lanesReady (.camo f) s → f.la = 0 → CanvasReach s f (typeBytes f.tyN) false true →
      ∃ u, LaneEffect (.camo f) s u ∧ CanvasOnly s u
        ∧ (∀ a, (∀ x ∈ canvasAccs s f, ¬(x.pa ≤ a ∧ a < x.pa + typeBytes f.tyN)) → u.cbyte a = s.cbyte a)
        ∧ (∀ x ∈ canvasAccs s f, alone (canvasAccs s f) (typeBytes f.tyN) x →
            let old := numAt s.cbyte x.pa (typeBytes f.tyN)
            (∀ j, j < typeRegs f.tyN → u.cw.vReg (f.d.toNat + j) x.lane = BitVec.ofNat 32 (old >>> (32 * j)))
              ∧ numAt u.cbyte x.pa (typeBytes f.tyN) = aluNew (f.mdN 4 2) f.tyN (f.sat == 1) f.rnd.toNat old
                  (s.cw.rd f f.c x.lane) (s.cw.rd f f.a x.lane) % 256 ^ typeBytes f.tyN)
        ∧ (∀ r l, l < 128 → writesLane s f (typeRegs f.tyN) r l = false → u.cw.vReg r l = s.cw.vReg r l)

/-- R63 and R64: CUPD updates the elements from each active lane's offset, element e with C + e and A + e; CRED writes
the tree of the elements from each active lane's offset to D and changes no canvas byte, its integer sum being the
sum. The values of R63 and R64: an integer element is updated by the table of R62, a float element by its operation
rounded once, each half of a packed element alone; a reduction of integers by add is the exact sum narrowed once, and
any other is the fixed tree of R64 over the table's operation. -/
def Obligations.CanvasTensor : Prop :=
  ((∀ f s, lanesReady (.cupd f) s → f.la = 0 →
      let n := 2 ^ f.mdN 2 1
      CanvasReach s f (4 * n) false true →
      ∃ u, LaneEffect (.cupd f) s u ∧ CanvasOnly s u ∧ u.cw.v = s.cw.v
        ∧ (∀ a, (∀ x ∈ canvasAccs s f, ¬(x.pa ≤ a ∧ a < x.pa + 4 * n)) → u.cbyte a = s.cbyte a)
        ∧ ∀ x ∈ canvasAccs s f, alone (canvasAccs s f) (4 * n) x → ∀ e, e < n →
            numAt u.cbyte (x.pa + 4 * e) 4 = cupdNew (f.mdN 4 3) f.tyN (f.sat == 1) f.rnd.toNat
              (numAt s.cbyte (x.pa + 4 * e) 4) (s.cw.vReg (f.c.toNat + e) x.lane).toNat
              (s.cw.vReg (f.a.toNat + e) x.lane).toNat % 2 ^ 32)
    ∧ ∀ f s, lanesReady (.cred f) s → f.la = 0 →
      let n := 2 ^ f.mdN 2 0
      CanvasReach s f (4 * n) true false →
      ∃ u, LaneEffect (.cred f) s u ∧ CanvasOnly s u ∧ u.mem.canvas = s.mem.canvas
        ∧ (∀ l ∈ s.actLanes f, let xs := (List.range n).map (fun i => numAt s.cbyte (canvasAt s f l + 4 * i) 4)
            u.cw.vReg f.d.toNat l = BitVec.ofNat 32 (aluTree (f.mdN 4 3) f.tyN (f.sat == 1) f.rnd.toNat (f.mdN 2 0) xs)
              ∧ (isInt f.tyN = true → f.mdN 4 3 = 0 → f.sat = 0 → u.cw.vReg f.d.toNat l = BitVec.ofNat 32 xs.sum))
        ∧ (∀ r l, l < 128 → writesLane s f 1 r l = false → u.cw.vReg r l = s.cw.vReg r l))
  ∧ ((∀ (op t : Nat) (sat : Bool) (rm x v c : Nat), isInt t = true → AtomicRow op t sat rm x v 0 (cupdNew op t sat rm x v c))
    ∧ (∀ (op : Nat) (sat : Bool) (rm x v c : Nat), op < 4 → x < 2 ^ 32 → v < 2 ^ 32 → c < 2 ^ 32 →
        cupdNew op 16 sat rm x v c = halfUpdate Sys2Proof.Float.f32 op rm x v c)
    ∧ (∀ (op t : Nat) (sat : Bool) (rm x v c : Nat), op < 4 → isPacked t = true → x < 2 ^ 32 → v < 2 ^ 32 → c < 2 ^ 32 →
        let half (j : Nat) : Nat := halfUpdate (if t = 13 then Sys2Proof.Float.h16 else Sys2Proof.Float.w16) op rm
          (x / 65536 ^ j % 65536) (v / 65536 ^ j % 65536) (c / 65536 ^ j % 65536)
        cupdNew op t sat rm x v c = half 0 + 65536 * half 1)
    ∧ (∀ (t : Nat) (sat : Bool) (rm k : Nat) (xs : List Nat), isInt t = true →
        aluTree 0 t sat rm k xs = narrowed sat (isSigned t) (32 * typeRegs t)
          (xs.map (intN (isSigned t) (32 * typeRegs t))).sum)
    ∧ ∀ (op t : Nat) (sat : Bool) (rm k : Nat) (xs : List Nat), op ≠ 0 ∨ t = 16 → xs.length = 2 ^ k →
        aluTree op t sat rm k xs = halvesTree (fun a b => aluNew op t false rm a b 0) k (fun i => xs.getD i 0))

/-- R70: RINIT of a configuration makes the header at its offset fresh, its SEG bytes 0, and the offset a live ring of
the team; RINIT of 0 takes a ring away that nothing uses. RINIT of 0 where no ring is does nothing, aligned or not:
the model's choice (log 116). R72: RPOST of a claimed stage makes READY one more and the stage's SEG equal SSZ; RFREE
of a granted stage that is not the oldest marks it released, and of the oldest, where the next is not released, frees
it: FREE is one more and RIDX moves on. -/
def Obligations.RingForms : Prop :=
  ((∀ f s h, lanesReady (.rinit f) s → RingReach s f h → ringValue s f ≠ 0 →
      ringConfigOk s s.cteam h (ringValue s f) = true → (h ∈ s.cteam.rings → s.ringBusy s.cw.team h = false) →
      ∃ u, LaneEffect (.rinit f) s u ∧ RingOnly s u h ∧ u.cw.v = s.cw.v ∧ u.ringHere h = Ring.fresh (ringValue s f)
        ∧ (∀ i, i < 64 → u.seg u.cteam h i = 0)
        ∧ u.cteam.rings = if h ∈ s.cteam.rings then s.cteam.rings else s.cteam.rings ++ [h])
    ∧ (∀ f s h, lanesReady (.rinit f) s → RingReach s f h → ringValue s f = 0 → h ∈ s.cteam.rings →
      s.ringBusy s.cw.team h = false →
      ∃ u, LaneEffect (.rinit f) s u ∧ RingOnly s u h ∧ u.cw.v = s.cw.v ∧ u.mem = s.mem
        ∧ u.cteam.rings = s.cteam.rings.erase h)
    ∧ ∀ f s h, lanesReady (.rinit f) s → RingReach s f h → ringValue s f = 0 → h ∉ s.cteam.rings →
      LaneEffect (.rinit f) s s)
  ∧ ((∀ f s h i, lanesReady (.rpost f) s → RingReach s f h → h ∈ s.cteam.rings →
      let r := s.ringHere h
      r.mode = 0 → i < r.nst → r.nst ≤ 64 → 1 ≤ r.ssz → ringValue s f = r.stageOff h i → s.stage s.cteam h r i = .claimed →
      ∃ u, LaneEffect (.rpost f) s u ∧ RingOnly s u h ∧ u.cw.v = s.cw.v ∧ u.cw.interval = s.cw.interval + 1
        ∧ u.ringHere h = { r with ready := (r.ready + 1) % 128 } ∧ u.seg u.cteam h i = r.ssz
        ∧ ∀ j, j < 64 → j ≠ i → u.seg u.cteam h j = s.seg s.cteam h j)
    ∧ ∀ f s h i, lanesReady (.rfree f) s → RingReach s f h → h ∈ s.cteam.rings →
      let r := s.ringHere h
      i < r.nst → r.nst ≤ 64 → 2 ≤ r.nst → r.ridx < r.nst → 1 ≤ r.ssz → ringValue s f = r.stageOff h i →
      s.stage s.cteam h r i = .granted →
      (i ≠ r.ridx → bitB r.done r.ridx = false →
        ∃ u, LaneEffect (.rfree f) s u ∧ RingOnly s u h ∧ u.cw.v = s.cw.v
          ∧ u.ringHere h = { r with held := putBit r.held i false, done := putBit r.done i true })
      ∧ (i = r.ridx → bitB r.done (r.next r.ridx) = false →
        ∃ u, LaneEffect (.rfree f) s u ∧ RingOnly s u h ∧ u.cw.v = s.cw.v ∧ u.seg u.cteam h i = 0
          ∧ u.ringHere h = { r with held := putBit r.held i false, done := putBit r.done i false
                                    poison := putBit r.poison i false, free := r.free + 1, ridx := r.next r.ridx }))

/-- R71: RWAIT.FILL of a ring whose stage at CIDX is FILLED, where no other path waits, holds that stage, moves CIDX
on and writes the stage's offset to D; RWAIT.FREE of a ring with a free stage claims the one at PIDX; either waits
else. -/
def Obligations.RingWaits : Prop :=
  (∀ f s h, lanesReady (.rwaitFill f) s → RingReach s f h → h ∈ s.cteam.rings →
      let r := s.ringHere h
      r.nst ≤ 64 → s.ringRuns (s.ringWait f h false) = true → (∀ w ∈ s.ringQueue s.cw.team h false, w = s.ringWait f h false) →
      (s.stage s.cteam h r r.cidx = .filled →
        ∃ u, LaneEffect (.rwaitFill f) s u ∧ RingOnly s u h
          ∧ (∀ n l, l < 128 → u.cw.vReg n l = laneRegs s f 1 (fun _ => r.stageOff h r.cidx) n l)
          ∧ u.ringHere h = { r with ready := r.ready - 1, held := r.held ||| BitVec.ofNat 64 (2 ^ r.cidx)
                                    cidx := (r.cidx + 1) % r.nst })
      ∧ (s.stage s.cteam h r r.cidx ≠ .filled → s.stage s.cteam h r r.cidx ≠ .poisoned →
        ∃ t, exec (.rwaitFill f) s = .next t ∧ SameScalars s t ∧ t.cw.v = s.cw.v ∧ t.mem = s.mem
          ∧ s.ringWait f h false ∈ t.cteam.ringWaits))
    ∧ ∀ f s h, lanesReady (.rwaitFree f) s → RingReach s f h → h ∈ s.cteam.rings →
      let r := s.ringHere h
      r.nst ≤ 64 → 1 ≤ r.nst → r.mode ≠ 1 → s.ringRuns (s.ringWait f h true) = true →
      (∀ w ∈ s.ringQueue s.cw.team h true, w = s.ringWait f h true) →
      (r.free ≠ 0 →
        ∃ u, LaneEffect (.rwaitFree f) s u ∧ RingOnly s u h
          ∧ (∀ n l, l < 128 → u.cw.vReg n l = laneRegs s f 1 (fun _ => r.stageOff h r.pidx) n l)
          ∧ u.ringHere h = { r with free := r.free - 1, pidx := (r.pidx + 1) % r.nst })
      ∧ (r.free = 0 →
        ∃ t, exec (.rwaitFree f) s = .next t ∧ SameScalars s t ∧ t.cw.v = s.cw.v ∧ t.mem = s.mem
          ∧ s.ringWait f h true ∈ t.cteam.ringWaits)

/-- R196 and R273: MXACC, MXZERO, MXLOADC and MXDRAIN, where every listed warp of the gang has arrived with words that
agree, are released together as one operation of the core. R248: VSYNC passes where no other path waits at one and the
mask of every active lane, its dead and exited lanes apart, is the active lanes; and where no lane is active. -/
def Obligations.MatrixForms : Prop :=
  ((∀ f, ReleasesMatrix (.mxacc f) 0x380 f) ∧ (∀ f, ReleasesMatrix (.mxzero f) 0x381 f)
    ∧ (∀ f, ReleasesMatrix (.mxloadc f) 0x382 f) ∧ ∀ f, ReleasesMatrix (.mxdrain f) 0x383 f)
  ∧ ((∀ f s, lanesReady (.vsync f) s → s.cp.vsync = none → s.actLanes f = [] → LaneEffect (.vsync f) s s)
    ∧ ∀ f s, lanesReady (.vsync f) s → (∀ p ∈ s.cw.paths, p.vsync = none) → s.actLanes f ≠ [] →
      (∀ l ∈ s.actLanes f, BitVec.ofNat 128 (s.cw.vWide f.a.toNat l 4) &&& ~~~goneMask s.cw = activeMask s.cw s.cp f) →
      LaneEffect (.vsync f) s s)

/-! ## Encodings, the step and reset -/

/-- R30, R200 and R213: the path whose turn it is, where it may issue and no breakpoint matches, executes the
instruction its bytes decode to: four bytes at the place its PC translates to, or twelve at the place of its head
run's word. Whose turn it is is the model's choice (log 1). -/
def Obligations.StepRunsDecoded : Prop :=
  (∀ s s1 s2 wid k h i, s.choose = (s1, some (.scalar wid k)) → s1.canIssue false wid k = true →
      let s' := ({ s1 with cur := (wid, k) }).settleAll wid k
      s'.canIssue false wid k = true → s'.breaks false wid s'.cp = false → s'.cp.pc.toNat / 2 ^ 68 ≠ 15 →
      translate s' s'.agent s'.cp.pc.toNat .fetch = (s2, .ok h) →
      decode false ((List.range 4).map (fun j => s2.byte (h.pa + j))) = .ok (i, []) → step s = exec i s2)
    ∧ (∀ s s1 a b c wid k h g f i, s.choose = (s1, some (.lane wid k)) → s1.canIssue true wid k = true →
      let s' := ({ s1 with cur := (wid, k) }).settleAll wid k
      let va := lanebaseN s'.cctx + 12 * (s'.run.off + s'.run.pos)
      s'.canIssue true wid k = true → s'.breaks true wid s'.cp = false → s'.cp.windows = [] → va + 12 ≤ 15 * 2 ^ 68 →
      translate s' s'.agent va .fetch = (a, .ok h) → translate a a.agent (va + 4) .fetch = (b, .ok g) →
      translate b b.agent (va + 8) .fetch = (c, .ok f) →
      decode true ((List.range 4).map (fun j => a.byte (h.pa + j)) ++ (List.range 4).map (fun j => b.byte (g.pa + j))
        ++ (List.range 4).map (fun j => c.byte (f.pa + j))) = .ok (i, []) → step s = exec i c)
    ∧ (∀ s s1 e, s.choose = (s1, some (.event e)) → step s = exec e s1) ∧ (∀ s s1 o, s.choose = (s1, some (.outside o)) → step s = .next (s1.outside o))
    ∧ ∀ s s1, s.choose = (s1, none) → step s = .next s1

/-- Words of the spec's own examples and the instructions they stand for (R39, R43, R203 to R213, R217, R219, R222).
-/
def Obligations.DecodeWords : Prop :=
  decodeTableWord 32 0x04310500 = some (.sadd 3 4 5) ∧ decodeTableWord 32 0x0C30FFFF = some (.saddi 3 3 0x3FFF)
    ∧ decodeTableWord 32 0x403FFFFA = some (.br 0x3FFFFA) ∧ decodeTableWord 32 0x60353203 = some (.sld 3 5 3 2 3)
    ∧ decodeTableWord 32 0xC0002102 = some (.trap 0x21) ∧ decodeTableWord 32 0xD0400000 = some (.pset 4 0)
    ∧ decodeTableWord 96 0xC000921000080000 = none
    ∧ decodeTableWord 96 0xC00092100008000032000040 = some (.cld
      { g := 0, gn := 0, la := 2, ty := 9, d := 8, a := 0, b := 4, c := 0, rnd := 0, sat := 0, md := 0, ext := 0x32000040 })
    ∧ decodeTableWord 96 0x7000060A0800005000000000 = some (.cvt
      { g := 0, gn := 0, la := 0, ty := 3, d := 5, a := 4, b := 0, c := 0, rnd := 1, sat := 0, md := 0x10, ext := 0 })

/-- R39 and R43: the bytes of a well-formed instruction decode to it, with every operand at every value, and nothing
is left over. -/
def Obligations.EncodeDecodes : Prop :=
  ∀ i bs, i.wf = true → encode i = some bs → decode (decide (bs.length = 12)) bs = .ok (i, [])

/-- R30, R39 and R43: bytes that decode to an instruction are the bytes of that instruction, then what is left over:
no two words decode to one instruction, and decoding reads 4 or 12 bytes. -/
def Obligations.DecodedIsEncoded : Prop :=
  ∀ lane bs i rest, decode lane bs = .ok (i, rest) → ∃ xs, encode i = some xs ∧ bs = xs ++ rest
    ∧ xs.length = if lane then 12 else 4

/-- R87, R310, R356, R377 and R397: right after reset no stage is complete, no context is set up and each lottery
generator reads 1, no system is owned or live, every link's slots are the pool's at width 8, no team is resident and
nothing fatal has happened. The width and the state of the links before stage 2 are the model's choice (log 5). The
memory of the state after reset is in its canonical form, with nothing listed; that an unlisted byte reads 0 is the
model's choice (log 4). -/
def Obligations.Reset : Prop :=
  (State.reset.plat.stage = 0 ∧ State.reset.plat.live = false ∧ (∀ c, bitB (State.reset.ctx c).cfg 63 = false
      ∧ (State.reset.ctx c).seed = 1 ∧ (State.reset.ctx c).st = .running)
    ∧ (∀ n, bitB (State.reset.hub.ssown.get n) 63 = false ∧ State.reset.systems.find n = none)
    ∧ (∀ n i, (State.reset.link n).owner i = 16 ∧ (State.reset.link n).wcur = 0 ∧ (State.reset.link n).st = .run)
    ∧ State.reset.teams = [] ∧ State.reset.warps = [] ∧ State.reset.hub.fatal = false ∧ State.reset.hub.deverr = [])
  ∧ (State.reset.memOk = true ∧ ∀ a, State.reset.byte a = 0)

/-- Every step keeps the memory in its canonical form: keys rise and no entry holds what an unlisted key reads as. The
form is the model's own invariant (log 4). -/
def Obligations.StepKeepsMemoryCanonical : Prop := ∀ s t : State, s.memOk = true → step s = .next t → t.memOk = true

/-- R364: a fatal device error stops the module: no instruction word acts, no turn is offered, and a step with no
event on the agenda only lets time pass. That a step is a turn of the model's choosing or a passing of time is log 1
and log 6. -/
def Obligations.FatalStops : Prop :=
  (∀ (i : Instr) bs (s : State), s.hub.fatal = true → encode i = some bs → exec i s = .fault .halted)
    ∧ (∀ s : State, s.hub.fatal = true → s.turns = [])
    ∧ ∀ s : State, s.hub.fatal = true → s.agenda = [] → ∃ t, step s = .next t ∧ t.tick = s.tick + 1
      ∧ ∀ w x, t.warps.find w = some x → ∃ y, s.warps.find w = some y ∧ x.s = y.s ∧ x.a = y.a ∧ x.v = y.v

/-! ## What the machine does of itself -/

/-- R101 and R103: a step of a granule clears its mark and raises its node's count by one, and a step of a node clears
its mark and raises its parent's, each setting the mark of the node it raises and sending its watches; a step of the
root carries no further. R105, R285, R287, R292 and R296: a watch event raises its plots to 0xFFFF and counts; a raise
gives its plot the larger key or the limited sum, and an idle plot above epsilon becomes pending; a plot's task leaves
its stated key; a quiet round counts in the status word, and ends with the next sequence number and SET where every
mark is still armed and the counts agree, or fails with both as they were; a re-home moves the plot with its state.
R319, R320, R323 and R324: once the homes of the chunks next in turn have been read, where one queue of the first
context in turn offers a die a candidate, that candidate is dealt, the lottery generator moves on and the die
remembers the context; R262 and R357: a team's end takes its warps and leaves its canvas zero. -/
def Obligations.TreeAndDealerEvents : Prop :=
  ((∀ g c, Happens (.rollupGranuleStep g)
      (fun s => s.mem.pend.get g = 1 ∧ s.mem.ownerOf g = c + 1 ∧ s.treeRuns c = true ∧ s.stands c)
      (fun s t => let n := (s.mem.enrol.get g).toNat
        treeOnly s t ∧ (∀ k, t.mem.pend.get k = if k = g then 0 else s.mem.pend.get k)
          ∧ t.node c n = { s.node c n with count := (s.node c n).count + 1, pend := true }
          ∧ (∀ m, m ≠ n → t.node c m = s.node c m) ∧ t.watchEvents = s.watchEvents ++ (s.node c n).watches))
    ∧ (∀ c n, Happens (.rollupNodeStep c n)
      (fun s => (s.node c n).pend = true ∧ s.treeRuns c = true ∧ n ≠ 0 ∧ (s.node c n).parent.toNat ≠ n)
      (fun s t => let m := (s.node c n).parent.toNat
        treeOnly s t ∧ t.mem = s.mem ∧ t.node c n = { s.node c n with pend := false }
          ∧ t.node c m = { s.node c m with count := (s.node c m).count + 1, pend := true }
          ∧ (∀ k, k ≠ n → k ≠ m → t.node c k = s.node c k) ∧ t.watchEvents = s.watchEvents ++ (s.node c m).watches))
    ∧ ∀ c, Happens (.rollupNodeStep c 0) (fun s => (s.node c 0).pend = true ∧ s.treeRuns c = true)
      (fun s t => treeOnly s t ∧ t.mem = s.mem ∧ t.watchEvents = s.watchEvents ∧ t.node c 0 = { s.node c 0 with pend := false }))
  ∧ ((∀ n k y w, HappensVia (.watchEvent n k)
      (fun s => (n, k) ∈ s.watchEvents ∧ s.watchFirst (n, k) = true ∧ s.systems.find n = some y ∧ y.watch.find k = some w)
      (fun _ t => t.stands y.ctx → ∃ z, t.systems.find n = some z ∧ z.nwev = y.nwev + 1
        ∧ ∀ i p, i < w.2.2 → z.plots.find (w.2.1 + i) = some p → p.key = 0xFFFF))
    ∧ (∀ n k y w, Happens (.watchEvent n k)
      (fun s => (n, k) ∈ s.watchEvents ∧ s.watchFirst (n, k) = true ∧ s.systems.find n = some y ∧ y.watch.find k = some w
        ∧ (s.watchArrives n k).held = none ∧ (s.watchArrives n k).stands y.ctx)
      (fun s t => t = s.watchArrives n k ∧ t.watchEvents = s.watchEvents.erase (n, k) ∧ ∃ z, t.systems.find n = some z
        ∧ z.nwev = y.nwev + 1 ∧ ∀ i p, i < w.2.2 → z.plots.find (w.2.1 + i) = some p → p.key = 0xFFFF))
    ∧ (∀ k r y p, HappensVia (.raiseArrival k)
      (fun s => s.raises[k]? = some r ∧ s.raiseFirst k = true ∧ s.systems.find r.sys = some y ∧ y.plots.find r.plot = some p)
      (fun s t => t.stands y.ctx → t.raises = s.raises.eraseIdx k ∧ ∃ q, t.plot? r.sys r.plot = some q
        ∧ q.key.toNat = (if r.sum then min 65535 (p.key.toNat + r.key.toNat) else max p.key.toNat r.key.toNat)
        ∧ q.st = if p.st = .idle ∧ y.eps < q.key then .pending else p.st))
    ∧ (∀ k r y p, Happens (.raiseArrival k)
      (fun s => s.raises[k]? = some r ∧ s.raiseFirst k = true ∧ s.systems.find r.sys = some y ∧ y.plots.find r.plot = some p
        ∧ (s.raiseArrives k).held = none ∧ (s.raiseArrives k).stands y.ctx)
      (fun s t => t = s.raiseArrives k ∧ t.raises = s.raises.eraseIdx k ∧ ∃ q, t.plot? r.sys r.plot = some q
        ∧ q.key.toNat = (if r.sum then min 65535 (p.key.toNat + r.key.toNat) else max p.key.toNat r.key.toNat)
        ∧ q.st = if p.st = .idle ∧ y.eps < q.key then .pending else p.st))
    ∧ (∀ n i y p k, HappensVia (.plotTaskComplete n i)
      (fun s => s.systems.find n = some y ∧ y.plots.find i = some p ∧ p.ended = some k ∧ s.reapsAt n i = []
        ∧ s.movesAt n i = [])
      (fun _ t => t.stands y.ctx → ∃ q, t.plot? n i = some q ∧ q.key.toNat = max p.key.toNat (k.getD 0xFFFF).toNat
        ∧ q.ended = none ∧ q.st = if y.eps < q.key then .pending else .idle))
    ∧ (∀ n i y p k, Happens (.plotTaskComplete n i)
      (fun s => s.systems.find n = some y ∧ y.plots.find i = some p ∧ p.ended = some k ∧ s.reapsAt n i = []
        ∧ s.movesAt n i = [] ∧ (s.completePlot n i).held = none ∧ (s.completePlot n i).stands y.ctx)
      (fun s t => t = s.completePlot n i ∧ ∃ q, t.plot? n i = some q ∧ q.key.toNat = max p.key.toNat (k.getD 0xFFFF).toNat
        ∧ q.ended = none ∧ q.st = if y.eps < q.key then .pending else .idle))
    ∧ (∀ n y, HappensVia (.quietRound n) (fun s => s.systems.find n = some y ∧ y.roundDue = true)
      (fun _ t => t.stands y.ctx → ∃ z, t.systems.find n = some z
        ∧ bitsN z.status 31 0 = (bitsN y.status 31 0 + 1) % 2 ^ 32))
    ∧ (∀ n y r s1, HappensVia (.quietRound n)
      (fun s => s.systems.find n = some y ∧ y.round = some r ∧ r.armed = BitVec.allOnes 8 ∧ s.settleWatches n = (s1, r.counts))
      (fun _ t => t.stands y.ctx → ∃ z, t.systems.find n = some z ∧ z.round = none ∧ z.seq = y.seq + 1 ∧ bitB z.status 62 = true))
    ∧ (∀ n y r, Happens (.quietRound n)
      (fun s => s.systems.find n = some y ∧ y.round = some r ∧ r.armed ≠ BitVec.allOnes 8)
      (fun _ t => ∃ z, t.systems.find n = some z ∧ z.round = none ∧ z.seq = y.seq ∧ z.status = y.status))
    ∧ ∀ k p, let n := fun s : State => rhSys (s.regSet k).rhwork
      let i := fun s : State => rhPlot (s.regSet k).rhwork
      Happens (.rehomeSwitch k)
        (fun s => (s.regSet k).rhbusy = true ∧ s.plot? (n s) (i s) = some p ∧ (p.st = .idle ∨ p.st = .pending)
          ∧ first (s.movesAt (n s) (i s)) (s.regSet k).rhat = true ∧ first (s.reapsAt (n s) (i s)) (s.regSet k).rhat = true)
        (fun s t => t.plot? (n s) (i s) = some { p with st := .moving, wasPending := decide (p.st = .pending), mover := some k })
      ∧ HappensVia (.rehomeSwitch k)
        (fun s => (s.regSet k).rhbusy = true ∧ s.plot? (n s) (i s) = some p ∧ p.st = .moving ∧ p.mover = some k
          ∧ (∀ x ∈ s.movesAt (n s) (i s), x.1 = k) ∧ s.reapsAt (n s) (i s) = [])
        (fun s t => (t.regSet k).rhbusy = false ∧ (t.regSet k).rhseq = (s.regSet k).rhseq + 1
          ∧ ∀ y, s.systems.find (n s) = some y → t.stands y.ctx → ∃ q, t.plot? (n s) (i s) = some q
            ∧ q.home = rhNew (s.regSet k).rhwork ∧ q.key = p.key ∧ q.st = if p.wasPending then .pending else .idle))
  ∧ ((∀ die c q k u, Happens (.deal die)
      (fun s => let r := s.findHomes die
        die < 8 ∧ c < 256 ∧ c ∈ r.dealOrder die ∧ (∀ d ∈ (r.dealOrder die).takeWhile (· != c), r.offers d die = [])
        ∧ r.offers c die = [(q, k, u)] ∧ 0 < (r.queue c q).tickets ∧ u.held = none)
      (fun s t => t.teams = u.teams ∧ t.warps = u.warps ∧ t.systems = u.systems ∧ t.mem = u.mem
        ∧ (t.ctx c).seed = lotteryNext ((s.findHomes die).ctx c).seed ∧ (t.queue c q).lastCand = k ∧ t.hub.lastCtx.get die = BitVec.ofNat 9 (c + 1)))
    ∧ ∀ m x, Happens (.teamEnd m) (fun s => s.teamOver m = true ∧ s.teams.find m = some x)
      (fun _ t => t.teams.find m = none ∧ (∀ w ∈ x.warps, t.warps.find w = none)
        ∧ ∀ a, a < x.canvasSize → t.cbyte (canvasKey x 0 + a) = 0))

/-- R23, R94, R177, R186, R209, R252, R344 and R349: the oldest READY fragment of a warp takes its free slot, or with
none free an entry of the path stack, and is LIVE; data that came makes a stalled fragment READY, or LIVE in slot 0 at
once where its warp's slots are both free; a migrate move copies the page, rewrites its leaf and ends the move; an
event enters the handler with its record; a nap ends. That an event of a context with no handler is dropped and the
boundary an event takes (log 21), and that a moved leaf's A bit is clear (log 30), are the model's readings. -/
def Obligations.PathEvents : Prop :=
  (∀ core e f w k, Happens (.fragmentHandlerEntry core e)
      (fun s => (s.core core).frags.find e = some f ∧ s.warps.find f.warp = some w ∧ coreOf f.warp = core ∧ w.stack = []
        ∧ freeSlot w = some k ∧ oldestReady (s.core core) f.warp = some (e, f))
      (fun s t => t.pathIs f.warp k (fragPath (s.ctx w.ctx) f)
        ∧ (t.core core).frags.find e = some { f with state := 2, waits := [], page := none }))
    ∧ (∀ core e f w, Happens (.fragmentHandlerEntry core e)
      (fun s => (s.core core).frags.find e = some f ∧ s.warps.find f.warp = some w ∧ coreOf f.warp = core
        ∧ w.slot0.isSome = true ∧ w.slot1.isSome = true ∧ w.stack.length + w.jrecs.length < 12
        ∧ oldestReady (s.core core) f.warp = some (e, f))
      (fun s t => t.warps.find f.warp = some { w with stack := { yielded := false, path := fragPath (s.ctx w.ctx) f } :: w.stack }
        ∧ (t.core core).frags.find e = some { f with state := 2, waits := [], page := none }))
    ∧ (∀ core e f, Happens (.pendingDataArrival core e)
      (fun s => (s.core core).frags.find e = some f ∧ f.state = 0 ∧ f.rcd.cls = 7 ∧ s.stallOver f = true
        ∧ ∀ w, s.warps.find f.warp = some w → w.slot0.isSome = true ∨ w.slot1.isSome = true)
      (fun _ t => (t.core core).frags.find e = some { f with state := 1, page := none }))
    ∧ (∀ core e f w, Happens (.pendingDataArrival core e)
      (fun s => (s.core core).frags.find e = some f ∧ f.state = 0 ∧ f.rcd.cls = 7 ∧ s.stallOver f = true
        ∧ s.warps.find f.warp = some w ∧ coreOf f.warp = core ∧ w.slot0 = none ∧ w.slot1 = none)
      (fun s t => t.pathIs f.warp 0 (fragPath (s.ctx w.ctx) { f with state := 1, page := none })
        ∧ (t.core core).frags.find e = some { f with state := 2, waits := [], page := none }))
    ∧ (∀ c v f, Happens (.migrateMove c v (some f)) (fun s => s.placeable f = true ∧ s.pageWaiters c v = []
        ∧ s.pageAwaited (s.oldPlace c v 0) = false
        ∧ s.amaxOn (fun sp va => sp == xdSpace (s.ctx c).xdesc && va / 65536 == v) = false
        ∧ ∀ x ∈ s.moves, x.1 = c → x.2.1 = v → x.2.2.1 = 0)
      (fun s t => (∀ x ∈ t.moves, x.1 ≠ c ∨ x.2.1 ≠ v) ∧ ∀ lvl e at_, peekLeaf s c (v * 65536) = .leaf lvl e at_ → ptePl e = 2 →
        isDrawer (pteBase e) = true → pteBase e % 65536 = 0 → at_ + 8 ≤ f * 65536 ∨ f * 65536 + 65536 ≤ at_ →
        (∀ j, j < 65536 → t.byte (f * 65536 + j) = s.byte (pteBase e + j))
          ∧ numAt t.byte at_ 8 = (movedLeaf e (f * 65536)).toNat))
    ∧ (∀ c v, Happens (.migrateMove c v none) (fun s => s.pageWaiters c v = [] ∧ s.parkedOn c v = [] ∧ s.pu = none
        ∧ ∀ x ∈ s.moves, x.1 = c → x.2.1 = v → x.2.2.1 = 0)
      (fun s t => t = { s with moves := s.moves.filter (fun x => !(x.1 == c && x.2.1 == v)) }))
    ∧ (∀ wid w p, Happens (.asyncEventDelivery wid)
      (fun s => s.warps.find wid = some w ∧ (w.evFull = true ∨ w.evNotice = true) ∧ bitB (s.ctx w.ctx).trap 63 = true
        ∧ s.anyHandler wid w = false ∧ w.slot0 = some p ∧ p.begun = false ∧ s.mayIssue false wid 0 = true)
      (fun s t => ∃ q h, t.pathAt wid 0 = some q ∧ q.handler = some h ∧ q.pc = trapEntry (s.ctx w.ctx) ∧ q.queue = []
        ∧ h.pc = p.pc ∧ h.q = p.q ∧ h.queue = p.queue ∧ h.rcd.cls = 0x20 ∧ h.rcd.async = true
        ∧ h.rcd.cause = if w.evFull then 1 else 2))
    ∧ (∀ wid w, Happens (.asyncEventDelivery wid)
      (fun s => s.warps.find wid = some w ∧ (w.evFull = true ∨ w.evNotice = true) ∧ bitB (s.ctx w.ctx).trap 63 = false)
      (fun _ t => t.warps.find wid = some { w with evFull := false, evNotice := false }))
    ∧ ∀ wid k p, Happens (.napExpiry wid k) (fun s => s.pathAt wid k = some p ∧ s.napOver wid p = true)
      (fun _ t => t.pathIs wid k { p with nap := 0, stall := 0 })

/-- R274, R275 and R277: the array performs its oldest operation for every part of it: MXZERO leaves a tile of zeros,
MXACC adds each scaled sum of products, rounded once, MXLOADC rounds each scaled element, and MXDRAIN writes the
tile's bytes to the canvas and, where its word asks for it, merges the tile's largest magnitude into memory. R254 to
R258 and R277: an element's value, the tiles' layout, the conversion into DX blocks and the bytes MXDRAIN writes, in
terms of bits and exact values alone. That the error of R255 is the value itself where E is 0 is the model's reading
(log 146). -/
def Obligations.MatrixOperations : Prop :=
  (∀ (core : Nat) (ps : List Arrival) (r : List MxOp),
    Happens (.matrixOperation core) (fun s => GangOp s core 0x381 ps r)
      (fun _ t => (t.core core).ops = r ∧ ∀ (i : Nat) (a : Arrival), ps[i]? = some a → TileIs t core (a.tile i) (fun _ _ => 0))
    ∧ Happens (.matrixOperation core) (fun s => GangOp s core 0x380 ps r)
      (fun s t => (t.core core).ops = r ∧ ∀ (i : Nat) (a : Arrival), ps[i]? = some a →
        let w := (s.core core).wslots.getD a.word.a.toNat {}
        let σ := Tensor.mulVal (scaleVal (s.headAt (s.teamOf a.wid) a.coff)) (Sys2Proof.Float.read Sys2Proof.Float.f32 w.scale.toNat)
        TileIs t core (a.tile i) (fun x y => accum ((s.core core).tileAt (a.tile i) x y)
          (denseBlock s.mem.canvas (s.partKey a) (mxFmt a.word.tyN) x false) (w.column y) σ))
    ∧ Happens (.matrixOperation core) (fun s => GangOp s core 0x382 ps r)
      (fun s t => (t.core core).ops = r ∧ ∀ (i : Nat) (a : Arrival), ps[i]? = some a → ∀ x y v, x < 64 → y < 32 →
        (denseBlock s.mem.canvas (s.partKey a) (mxFmt a.word.tyN) x false)[y]? = some v →
        (t.core core).tileAt (a.tile i) x y
          = Tensor.roundVal Sys2Proof.Float.f32 0 (Tensor.mulVal v (scaleVal (s.headAt (s.teamOf a.wid) a.coff))) % 2 ^ 32)
    ∧ Happens (.matrixOperation core) (fun s => GangOp s core 0x383 ps r)
      (fun s t => (t.core core).ops = r ∧ ∀ (i : Nat) (a : Arrival), ps[i]? = some a →
        (∀ j b, (s.drained core a i)[j]? = some b →
          (∀ (k : Nat) (c : Arrival), ps[k]? = some c → k ≠ i → s.partKey a + j < s.partKey c ∨ s.partKey c + (s.drained core c k).length ≤ s.partKey a + j) →
          t.cbyte (s.partKey a + j) = b)
        ∧ (bitB a.word.md 1 = true → (∀ (k : Nat) (c : Arrival), ps[k]? = some c → k ≠ i → bitB c.word.md 1 = true →
              c.amax + 4 ≤ a.amax ∨ a.amax + 4 ≤ c.amax) →
            numAt t.byte a.amax 4 = max (numAt s.byte a.amax 4) (amaxOf ((s.core core).tileRows (a.tile i)).flatten))))
  ∧ ((∀ (d8 : Bool) (e0 e1 c : Nat), (Tensor.elemOf d8 c).value d8 e0 e1 = dxElem d8 e0 e1 c)
    ∧ (∀ x d, IsRatio x d (Tensor.ratioOf x d))
    ∧ (∀ (d8 : Bool) (mode phase : Nat) (xs : List (Option Tensor.Ratio)), let z := Tensor.convertDx d8 mode phase xs
        DxBlock d8 mode phase xs z.1 z.2.1 z.2.2)
    ∧ (∀ (d8 : Bool) (xs : List Tensor.Elem), (∀ x ∈ xs, x.mag ≤ if d8 then 63 else 3) → ∀ i x, i < 32 → xs[i]? = some x →
        Tensor.elemAt d8 (Tensor.packElems d8 xs) i = x)
    ∧ (∀ (m : Cells 8) (k c b : Nat) (tileB : Bool) (i : Nat), c ∈ [1, 2, 3, 4, 7] → i < 32 →
        (denseBlock m k c b tileB)[i]? = some (tileElem m.get k c tileB b i))
    ∧ (∀ (w : WSlot) (y i : Nat), w.fmt.toNat ∈ [1, 2, 3, 4] → i < 32 →
        (w.column y)[i]? = some (tileElem (fun a => w.planes.get (a - 64)) 0 w.fmt.toNat true y i))
    ∧ (∀ (w : WSlot) (y i : Nat), w.fmt.toNat ∈ [5, 6] → y < 32 → i < 32 →
        let d8 := decide (w.fmt.toNat = 5)
        let n := if d8 then 16 else 8
        let j := (List.range y).countP (fun c => w.bitmap.getLsbD c)
        let pad := fun x : Nat => (x + 63) / 64 * 64
        let idx := pad (n * w.live.toNat)
        let exp := idx + pad (4 * w.live.toNat)
        let g := i / 4
        let sel := fun k => numAt w.planes.get (idx + 4 * j) 4 / 4 ^ (2 * g + k) % 4
        let kept := fun k => dxElem d8 (w.planes.get (exp + 2 * j)).toNat (w.planes.get (exp + 2 * j + 1)).toNat
          (if d8 then (w.planes.get (n * j + 2 * g + k)).toNat else (w.planes.get (n * j + g)).toNat / 16 ^ k % 16)
        (w.bitmap.getLsbD y = false → (w.column y)[i]? = some (.num false 0 0))
          ∧ (w.bitmap.getLsbD y = true → sel 0 < sel 1 → (w.column y)[i]? = some
              (if i % 4 = sel 0 then kept 0 else if i % 4 = sel 1 then kept 1 else .num false 0 0)))
    ∧ ∀ (f : LaneWord) (pos : Nat) (rows : List (List Nat)), f.tyN ∈ [12, 14, 16, 18, 19] → rows.length = 64 →
        (∀ x ∈ rows, x.length = 32 ∧ ∀ y ∈ x, y < 2 ^ 32) →
        let m := fun a => (drainBytes f pos rows).getD a 0
        let fmt := if f.tyN = 18 then 1 else if f.tyN = 19 then 2 else if f.tyN = 12 then 3 else if f.tyN = 14 then 4 else 7
        let t := if f.tyN = 12 then Sys2Proof.Float.h16 else Sys2Proof.Float.w16
        mxFmt f.tyN = fmt ∧ numAt m 0 8 = 0x3F800000 * 2 ^ 32 + 64 * 2 ^ 8 + fmt ∧ (∀ j, 8 ≤ j → j < 64 → m j = 0)
          ∧ ∀ r row, rows[r]? = some row →
            (f.tyN = 16 → ∀ i x, row[i]? = some x → numAt m (64 + 128 * r + 4 * i) 4 = x)
            ∧ (f.tyN = 12 ∨ f.tyN = 14 → ∀ i x, row[i]? = some x →
                let y := (Sys2Proof.Float.toFmt Sys2Proof.Float.f32 t f.rnd.toNat false x).1
                numAt m (64 + 64 * r + 2 * i) 2 = match Sys2Proof.Float.read Sys2Proof.Float.f32 x, Sys2Proof.Float.read t y with
                  | .num s _ _, .inf _ => if f.sat = 1 then t.inf s - 1 else y
                  | _, _ => y)
            ∧ (18 ≤ f.tyN → ∃ (xs : List (Option Tensor.Ratio)) (e0 e1 : Nat) (els : List Tensor.Elem), (∀ (i : Nat) x, row[i]? = some x → ∃ y, xs[i]? = some y
                  ∧ IsRatio (Sys2Proof.Float.read Sys2Proof.Float.f32 x) (.num false 1 0) y)
                ∧ xs.length = 32 ∧ DxBlock (decide (f.tyN = 18)) (if f.md.getLsbD 0 then 2 else f.rnd.toNat)
                  ((f.d.toNat + 7 * pos) % 32) xs e0 e1 els
                ∧ let eb := if f.tyN = 18 then 32 else 16
                  (∀ (i : Nat) y, els[i]? = some y → Tensor.elemOf (decide (f.tyN = 18)) (if f.tyN = 18 then (m (64 + eb * r + i)).toNat
                      else (m (64 + eb * r + i / 2)).toNat / 16 ^ (i % 2) % 16) = y)
                  ∧ m (64 + 64 * eb + 2 * r) = BitVec.ofNat 8 e0 ∧ m (64 + 64 * eb + 2 * r + 1) = BitVec.ofNat 8 e1))

/-- R68, R71, R168, R262, R263 and R269: the entry at a queue's head starts, its next segment is written and counted,
and it retires; a fence retires when all its parts stand at their heads; a parked queue resumes; the first wait on a
ring is served. That a store's segment is an aligned unit of 256 bytes and a load's the next 256 bytes of its output
is the model's choice (log 53). R267: what a load reads of a plain tensor's line and of a block, the tile's bytes they
give, the segment's places in the canvas, and the bytes a store makes of a line and of a block. -/
def Obligations.EngineEvents : Prop :=
  ((∀ core q e, Happens (.engineEntryStart core q)
      (fun s => EngineGoes s core q e ∧ e.started = false ∧ e.form = .txld ∧ Shape.isRaw e.rcd = false ∧ Shape.ring e.rcd = false)
      (fun s t => t.engHead core q = some { e with started := true } ∧ t.mem = s.mem ∧ t.teams = s.teams))
    ∧ (∀ core q e, Happens (.engineEntryStart core q)
      (fun s => EngineGoes s core q e ∧ e.started = false ∧ e.form = .wbload
        ∧ s.slotInUse core e.slot (if e.reached = 0 then s.names else e.reached) = false
        ∧ Tensor.isSparse (bitsN e.head0 3 0) = false)
      (fun s t => t.engHead core q = some { e with started := true, reached := if e.reached = 0 then s.names else e.reached }
        ∧ ((t.core core).wslots.getD e.slot {}).state = 2 ∧ ((t.core core).wslots.getD e.slot {}).fmt.toNat = bitsN e.head0 3 0))
    ∧ (∀ core q e, Happens (.engineSegmentComplete core q)
      (fun s => EngineGoes s core q e ∧ e.started = true ∧ e.segs < e.total ∧ e.form = .wbload)
      (fun s t => t.engHead core q = some { e with segs := e.segs + 1 } ∧ t.mem = s.mem
        ∧ ∀ i, i < 256 → 256 * e.segs + i < e.planeBytes → ((t.core core).wslots.getD e.slot {}).planes.get (256 * e.segs + i)
            = s.cbyte (canvasKey (s.teams.getD e.team {}) (e.coff + 64 + 256 * e.segs) + i)))
    ∧ (∀ core q e s1 e1 xs, Happens (.engineSegmentComplete core q)
      (fun s => EngineGoes s core q e ∧ e.started = true ∧ e.segs < e.total ∧ e.form = .txld ∧ e.stage = none
        ∧ s.loadSegment q e e.segs = ((s1, e1), .ok xs) ∧ (xs.map (·.1)).Nodup)
      (fun _ t => t.engHead core q = some { e1 with segs := e1.segs + 1 } ∧ t.mem.bytes = s1.mem.bytes
        ∧ (∀ x ∈ xs, t.cbyte x.1 = x.2.1) ∧ ∀ a, a ∉ xs.map (·.1) → t.cbyte a = s1.cbyte a))
    ∧ (∀ core q e s1 pa, Happens (.engineSegmentComplete core q)
      (fun s => EngineGoes s core q e ∧ e.started = true ∧ e.segs < e.total ∧ e.form = .txst
        ∧ s.engAt e ((storeUnits e).getD e.segs 0 * 256) true = (s1, .ok pa) ∧ isDrawer pa = false)
      (fun _ t => t.engHead core q = some { e with segs := e.segs + 1 } ∧ t.mem.canvas = s1.mem.canvas
        ∧ ∀ a, ¬(pa ≤ a ∧ a < pa + 256) → t.byte a = s1.byte a))
    ∧ (∀ core q e, Happens (.engineEntryRetire core q)
      (fun s => EngineGoes s core q e ∧ e.started = true ∧ e.total ≤ e.segs)
      (fun s t => ((t.core core).queues.getD q {}).entries = ((s.core core).queues.getD q {}).entries.drop 1 ∧ t.mem = s.mem
        ∧ (e.form = .wbload → ((t.core core).wslots.getD e.slot {}).state = 1)))
    ∧ (∀ core q p, Happens (.engineQueueResume core q)
      (fun s => ((s.core core).queues.getD q {}).park = some p ∧ s.parkOver p = true)
      (fun s t => (t.core core).queues.getD q {} = { (s.core core).queues.getD q {} with park := none } ∧ t.mem = s.mem))
    ∧ (∀ core q e, Happens (.qfenceRetire core q)
      (fun s => EngineGoes s core q e ∧ e.form = .fence ∧ s.fenceReady core e = true)
      (fun s t => ∀ i, i < 4 → ((t.core core).queues.getD i {}).entries
        = if e.fenceMask.testBit i then ((s.core core).queues.getD i {}).entries.drop 1 else ((s.core core).queues.getD i {}).entries))
    ∧ (∀ m h w, Happens (.ringGrant m h)
      (fun s => RingFirst s m h w ∧ w.free = false ∧
        s.stage (s.teams.getD m {}) h (s.ring (s.teams.getD m {}) h) (s.ring (s.teams.getD m {}) h).cidx = .filled)
      (fun s t => let r := s.ring (s.teams.getD m {}) h
        t.ring (t.teams.getD m {}) h = { r with
          ready := r.ready - 1, held := r.held ||| BitVec.ofNat 64 (2 ^ r.cidx), cidx := (r.cidx + 1) % r.nst }))
    ∧ ∀ m h w, Happens (.ringGrant m h)
      (fun s => RingFirst s m h w ∧ w.free = true ∧ s.ringFirst m h false = none ∧ (s.ring (s.teams.getD m {}) h).free ≠ 0
        ∧ (s.ring (s.teams.getD m {}) h).mode ≠ 1)
      (fun s t => let r := s.ring (s.teams.getD m {}) h
        t.ring (t.teams.getD m {}) h = { r with free := r.free - 1, pidx := (r.pidx + 1) % r.nst }))
  ∧ ((∀ (s : State) (q : Nat) (e : EngEntry) (t b : Nat) x vs, Shape.isPlain e.rcd = true → b < Tensor.tileBlocks (Shape.isB e.rcd) →
      s.engRead q e ((List.range 32).map (fun k => if Shape.isB e.rcd then plainPlace e.rcd e.base.toNat t k b
        else plainPlace e.rcd e.base.toNat t b k)) = (x, .ok vs) →
      let v := fun (y : Nat × Bool) => Sys2Proof.Float.read (Shape.plainSrc e.rcd) y.1
      let cf := Shape.cfmt e.rcd
      (cf = 1 ∨ cf = 2 → ∃ (bs : List Byte) (ys : List (Option Tensor.Ratio)) (e0 e1 : Nat) (els : List Tensor.Elem),
        s.loadBlock q e t b = (x, .ok (bs, [BitVec.ofNat 8 e0, BitVec.ofNat 8 e1], vs.any (·.2)))
          ∧ (∀ (i : Nat) y, vs[i]? = some y → ∃ z, ys[i]? = some z
              ∧ IsRatio (v y) (Sys2Proof.Float.read Sys2Proof.Float.f32 (Shape.scale e.rcd)) z)
          ∧ ys.length = vs.length ∧ DxBlock (decide (cf = 1)) (Shape.rmode e.rcd)
              ((Shape.phase0 e.rcd + t * Shape.step e.rcd) % 32) ys e0 e1 els
          ∧ ∀ (i : Nat) y, i < 32 → els[i]? = some y → Tensor.elemAt (decide (cf = 1)) bs i = y)
        ∧ (cf = 3 ∨ cf = 4 ∨ cf = 7 → ∃ bs, s.loadBlock q e t b = (x, .ok (bs, [], vs.any (·.2)))
          ∧ ∀ i y, vs[i]? = some y → numAt (fun a => bs.getD a 0) (Tensor.plainSize cf * i) (Tensor.plainSize cf)
              = Tensor.roundVal (Tensor.plainFmt cf) 0 (v y)))
    ∧ (∀ (s : State) (q : Nat) (e : EngEntry) (t b : Nat) x vs, Shape.isBlocks e.rcd = true → b < Tensor.tileBlocks (Shape.isB e.rcd) →
      s.engRead q e ((List.range (Shape.blockSize e.rcd)).map (blockPlace e.rcd e.base.toNat t b)) = (x, .ok vs) →
      let bs := vs.map (fun y => BitVec.ofNat 8 y.1)
      s.loadBlock q e t b = (x, .ok (bs.drop 2, bs.take 2, vs.any (·.2))))
    ∧ (∀ (r : List DWord) bs (t o : Nat), Shape.cfmt r ∈ [1, 2, 3, 4, 7] →
      let cf := Shape.cfmt r
      let nb := if Shape.isB r then 32 else 64
      let eb := Tensor.blockBytes cf
      (o < 8 → tileByte r bs t o = (BitVec.ofNat 8 (((if cf ≤ 2 then Shape.scale r else 0x3F800000) * 2 ^ 32 + nb * 2 ^ 8 + cf) / 256 ^ o), false))
        ∧ (8 ≤ o → o < 64 → tileByte r bs t o = (0, false))
        ∧ ∀ b v, b < nb → bs.find? (fun x => x.1 == (t, b)) = some ((t, b), v) →
          (∀ j, j < eb → o = 64 + b * eb + j → tileByte r bs t o = (v.1.getD j 0, v.2.2))
          ∧ ∀ j, j < 2 → cf ≤ 2 → o = 64 + nb * eb + 2 * b + j → tileByte r bs t o = (v.2.1.getD j 0, v.2.2))
    ∧ (∀ (s : State) (q : Nat) (e : EngEntry) (k : Nat) x ys, Shape.isRaw e.rcd = false → Shape.sfmt e.rcd ≠ 6 →
      s.loadSegment q e k = (x, .ok ys) →
      let m := s.teams.getD e.team {}
      let place := fun p => s.engCanvas e + p / Shape.size e.rcd * Shape.pitch e.rcd + p % Shape.size e.rcd
      ∃ bs, (∀ z ∈ bs, ∃ u e1 y, EngEntry.rcd e1 = e.rcd ∧ EngEntry.base e1 = e.base
            ∧ State.loadBlock u q e1 z.1.1 z.1.2 = (y, .ok z.2))
        ∧ ∀ z, z ∈ ys ↔ ∃ p, 256 * k ≤ p ∧ p < 256 * k + 256 ∧ p < Shape.output e.rcd ∧ place p < m.canvasSize
          ∧ z = (canvasKey m (place p), tileByte e.rcd bs (p / Shape.size e.rcd) (p % Shape.size e.rcd)))
    ∧ (∀ (s : State) (e : EngEntry) (va len t k : Nat), Shape.cfmt e.rcd ∈ [1, 2, 3, 4, 7] → k < Tensor.tileBlocks (Shape.isB e.rcd) →
      let cf := Shape.cfmt e.rcd
      let sz := Shape.elemSize e.rcd
      let key := canvasKey (s.teams.getD e.team {}) (e.coff + t * Shape.pitch e.rcd)
      let scale := if cf ≤ 2 then Sys2Proof.Float.read Sys2Proof.Float.f32 (numAt s.cbyte (key + 4) 4) else .num false 1 0
      ∀ j i, j < 32 → i < sz → sz * j + i < len →
        ((s.spanBytes e { va := va, len := len, src := .line t k })[sz * j + i]?).map (·.1) = some (BitVec.ofNat 8
          (Tensor.roundVal (Shape.plainSrc e.rcd) 0 (Tensor.mulVal (if Shape.isB e.rcd then tileElem s.cbyte key cf true j k
            else tileElem s.cbyte key cf false k j) scale) / 256 ^ i)))
    ∧ ∀ (s : State) (e : EngEntry) (va len t b : Nat), Shape.cfmt e.rcd ∈ [1, 2] → b < Tensor.tileBlocks (Shape.isB e.rcd) →
      let eb := Tensor.blockBytes (Shape.cfmt e.rcd)
      let nb := if Shape.isB e.rcd then 32 else 64
      let key := canvasKey (s.teams.getD e.team {}) (e.coff + t * Shape.pitch e.rcd)
      (s.spanBytes e { va := va, len := len, src := .block t b }).map (·.1)
        = (List.range 2).map (fun j => s.cbyte (key + 64 + nb * eb + 2 * b + j))
          ++ (List.range eb).map (fun j => s.cbyte (key + 64 + b * eb + j)))

/-- R82, R85, R87 and R89: the first request outside a queue enters it where it has room and is performed as it
enters, be it one that no one waits for, one of a step of the hub, which counts it as entered, or one of a store whose
instruction it ends; with no room nothing enters; a slot passes; a flit that is due is taken; a boundary makes an
armed slot table live. R87 and R90: DLCOMMIT arms a legal shadow table; a legal write of DLCTL without AUTOW sets the
link's targets, one with a reserved code changes nothing but ERR. That a boundary makes live the shadow table as it
stands then is the model's choice (log 127). R90 to R94 and R384: the width states of a link pass from retune to
locking to switch, and a mark at the new width ends the wake; a loss of lock retrains the link, lock regained replays
what was in flight one frame on, and 100 µs without lock is fatal; a firmware sample remembers the flits of every link
it keeps and leaves a handed link alone. -/
def Obligations.Links : Prop :=
  ((∀ n r w, Happens (.drawerRequestEnqueue n)
      (fun s => (s.link n).waiting = .posted r :: w ∧ (s.link n).queue.length < 192 ∧ linkOf r.addr = n ∧ r.core = none)
      (fun s t => (∃ x, (t.link n).queue = (s.link n).queue ++ [x] ∧ x.id = r.id ∧ x.kind = r.kind ∧ x.addr = r.addr)
        ∧ (t.link n).waiting = w ∧ (∀ m, m ≠ n → t.link m = s.link m) ∧ (r.eff = .none → LinkOnly s t n)
        ∧ (r.eff = .store → t.byte = storedAt s.byte (r.addr + r.first) r.part.length (ofBytes r.part)
          ∧ countedOnce s.mem t.mem (r.addr + r.first))))
    ∧ (∀ n u r w, Happens (.drawerRequestEnqueue n)
      (fun s => (s.link n).waiting = .hub u r :: w ∧ (s.link n).queue.length < 192 ∧ linkOf r.addr = n ∧ r.core = none)
      (fun s t => ∃ x, t.paid = s.paid ++ [(u, x)] ∧ x.id = r.id ∧ x.kind = r.kind ∧ x.addr = r.addr
        ∧ (t.link n).queue = (s.link n).queue ++ [x] ∧ (t.link n).waiting = w))
    ∧ (∀ n wid k r m w p a x d b z l i, Happens (.drawerRequestEnqueue n)
      (fun s => (s.link n).waiting = .access wid k r m :: w ∧ (s.link n).queue.length < 192 ∧ linkOf r.addr = n
        ∧ r.eff = .none ∧ s.pathAt wid k = some p ∧ k < 2 ∧ p.windows = [] ∧ p.access = some a ∧ a.i = .sst d b z l i ∧ a.lane = false ∧ a.k = 0
        ∧ a.dests = [] ∧ a.off = true ∧ a.race = none ∧ a.kill = false ∧ a.xs = [x] ∧ bitB m x.lane = true ∧ a.outside = [r.id])
      (fun s t => t.byte = storedAt s.byte x.pa x.data.length (ofBytes x.data) ∧ (t.link n).waiting = w
        ∧ ∃ q, t.pathAt wid k = some q ∧ q.access = none ∧ q.pc = p.pc + 4))
    ∧ (∀ n, Happens (.drawerRequestEnqueue n) (fun s => (s.link n).waiting = [] ∨ 192 ≤ (s.link n).queue.length)
      (fun s t => t = s))
    ∧ (∀ n, Happens (.linkSlot n) (fun s => (s.link n).mayStep = true)
      (fun s t => t = { s with links := t.links, names := t.names, freeCtr := t.freeCtr }
        ∧ (t.link n).slot = (s.link n).slot + 1 ∧ ∀ m, m ≠ n → (t.link m).slot = (s.link m).slot))
    ∧ (∀ n, Happens (.linkSlot n)
      (fun s => (s.link n).mayStep = true ∧ (∀ g, Config.countWriteBack s.freeCtr = some g → regionGranules s ≤ g) ∧ (s.link n).queue = [] ∧ (s.link n).resend = [])
      (fun s t => (t.link n).flits = (s.link n).flits ∧ (t.link n).queue = [] ∧ (t.link n).waiting = (s.link n).waiting
        ∧ (t.link n).seq = (s.link n).seq + 1 ∧ ∀ m, m ≠ n → t.link m = s.link m))
    ∧ (∀ n h k x, Happens (.upstreamFlit n h)
      (fun s => (s.link n).due = some (k, x) ∧ upK h = (if x.req.kind = 3 then 2 else 1) ∧ upSt h = 0)
      (fun s t => (t.link n).flits = (s.link n).flits + 1 ∧ (t.link n).slot = (s.link n).slot ∧ (t.link n).ack = upSeq h
        ∧ (x.slots.length = 1 → (t.link n).inflight = (s.link n).inflight.erase x) ∧ (x.bad = [] → t.mem = s.mem)))
    ∧ (∀ n, Happens (.frameBoundary n)
      (fun s => (s.link n).atBoundary = true ∧ (s.link n).pend = true ∧ ∀ i, i < 128 → (s.link n).shadowOf i ≤ 16)
      (fun s t => LinkOnly s t n ∧ (t.link n).pend = false ∧ ∀ i, i < 128 → (t.link n).owner i = (s.link n).shadowOf i))
    ∧ (∀ n, Happens (.frameBoundary n) (fun s => (s.link n).atBoundary = true ∧ (s.link n).st = .parking)
      (fun s t => LinkOnly s t n ∧ (t.link n).wcur = (s.link n).wtgt ∧ (t.link n).st = .run))
    ∧ (∀ n v, Happens (.dlcommit n v)
      (fun s => bitB v 63 = true ∧ (s.link n).pend = false ∧ ∀ i, i < 128 → (s.link n).shadowOf i ≤ 16)
      (fun s t => LinkOnly s t n ∧ t.link n = { s.link n with pend := true }))
    ∧ (∀ n v, Happens (.dlcommit n v) (fun s => bitB v 63 = true ∧ (s.link n).pend = true)
      (fun s t => LinkOnly s t n ∧ t.link n = { s.link n with err := true }))
    ∧ (∀ n v, Happens (.dlctlWrite n v)
      (fun s => bitsN v 57 56 ≠ 3 ∧ bitsN v 55 54 ≠ 3 ∧ (s.link n).st ≠ .down ∧ bitB v 53 = false)
      (fun s t => LinkOnly s t n ∧ (t.link n).wtgt.toNat = bitsN v 57 56 ∧ (t.link n).wwake.toNat = bitsN v 55 54
        ∧ (t.link n).autow = false ∧ (t.link n).wthr.toNat = bitsN v 47 40 ∧ (t.link n).wcur = (s.link n).wcur))
    ∧ ∀ n v, Happens (.dlctlWrite n v) (fun s => bitsN v 57 56 = 3 ∨ bitsN v 55 54 = 3 ∨ (s.link n).st = .down)
      (fun s t => LinkOnly s t n ∧ t.link n = { s.link n with err := true }))
  ∧ ((∀ n, Happens (.retuneElapsed n) (fun s => (s.link n).st = .retune)
      (fun s t => LinkOnly s t n ∧ t.link n = { s.link n with st := .locking }))
    ∧ (∀ n, Happens (.lockHeld n) (fun s => (s.link n).st = .locking)
      (fun s t => LinkOnly s t n ∧ t.link n = { s.link n with st := .switch }))
    ∧ (∀ n, Happens (.wakingLockLoss n) (fun s => (s.link n).st = .locking)
      (fun s t => LinkOnly s t n ∧ t.link n = { s.link n with relocks := (s.link n).relocks + 1 }))
    ∧ (∀ n, Happens (.frameMark n) (fun s => (s.link n).st = .switch ∧ (s.link n).atMark = true)
      (fun s t => LinkOnly s t n ∧ (t.link n).wcur = (s.link n).waking ∧ (t.link n).wakes = (s.link n).wakes + 1
        ∧ (t.link n).st ≠ .switch))
    ∧ (∀ n, Happens (.lossOfLock n) (fun s => (s.link n).running = true)
      (fun _ t => (t.link n).st = .retrain ∧ (t.link n).lock = false))
    ∧ (∀ n, Happens (.lockRegained n) (fun s => (s.link n).st = .retrain)
      (fun s t => (t.link n).lock = true ∧ (t.link n).st ≠ .retrain ∧ (t.link n).retrains = (s.link n).retrains + 1
        ∧ (t.link n).inflight = (s.link n).inflight.map (fun x => { x with slots := x.slots.map (· + 128) })))
    ∧ (∀ n, Happens (.flitCrcFail n) (fun s => (s.link n).running = true)
      (fun s t => (t.link n).inflight = (s.link n).inflight.map (fun x => { x with slots := x.slots.map (· + 128) })
        ∧ (t.link n).st = (s.link n).st ∧ t.mem = s.mem))
    ∧ (∀ n, Happens (.retrainTimeout n) (fun s => (s.link n).st = .retrain)
      (fun _ t => t.hub.fatal = true ∧ t.plat.stage = 3 ∧ (t.link n).st = .down))
    ∧ Happens .linkPolicySample (fun s => s.blocksLive = true)
      (fun s t => ∀ n, n < 32 → if bitB s.plat.record1 n then t.link n = s.link n else (t.link n).sampled = (s.link n).flits))

/-- R24, R25, R27, R117 and R295: a command of a free register set is taken and is busy until it completes; a shoot-
down of a space leaves no translation of it, and of every space leaves none; a completion counts in SEQ or gives the
record's words; a command of a busy set leaves nothing but ERR. That a command acts on the copies taken at GO is the
model's choice (log 109). R309, R310, R343, R376 and R397: a write at an offset that is not a multiple of 8 is
ignored; TRAP and TTAB of a context the function owns take their writable bits, the latter while RUN is 0; CLR of
PRFSEL clears the bins of its slice; SSOWN takes the physical function's value for a system that is not live. -/
def Obligations.HubAndRegisters : Prop :=
  ((∀ k v, Happens (.shootdownPages k v) (fun s => (s.regSet k).xsbusy = false ∧ bitsN v 31 0 ≠ 0)
      (fun s t => (t.regSet k).xsbusy = true ∧ t.mem = s.mem ∧ t.ctxs = s.ctxs ∧ (256 < bitsN v 31 0 →
        (∀ e ∈ t.hubTlb, e.space ≠ bitsN v 59 50) ∧ ∀ c, ∀ e ∈ (t.core c).tlb, e.space ≠ bitsN v 59 50)))
    ∧ (∀ k v, Happens (.shootdownSpace k v) (fun s => (s.regSet k).xsbusy = false)
      (fun s t => (t.regSet k).xsbusy = true ∧ t.mem = s.mem ∧ t.ctxs = s.ctxs
        ∧ (∀ e ∈ t.hubTlb, e.space ≠ bitsN v 59 50) ∧ ∀ c, ∀ e ∈ (t.core c).tlb, e.space ≠ bitsN v 59 50))
    ∧ (∀ k v, Happens (.shootdownEverySpace k v) (fun s => (s.regSet k).xsbusy = false)
      (fun s t => (t.regSet k).xsbusy = true ∧ t.mem = s.mem ∧ t.ctxs = s.ctxs ∧ t.hubTlb = [] ∧ ∀ c, (t.core c).tlb = []))
    ∧ (∀ k v, Happens (.shootdownSpace k v) (fun s => (s.regSet k).xsbusy = true)
      (fun s t => t = { s with hub := t.hub } ∧ t.regSet k = { s.regSet k with xserr := true }))
    ∧ (∀ k, Happens (.shootdownComplete k)
      (fun s => (s.regSet k).xsbusy = true ∧ s.reached (s.regSet k).xsfrom = true ∧ s.amaxOn (shootHits (s.regSet k).xswhere (s.regSet k).xswork) = false)
      (fun s t => t = { s with hub := t.hub } ∧ t.regSet k = { s.regSet k with xsbusy := false, xsseq := (s.regSet k).xsseq + 1 }))
    ∧ (∀ k v c, Happens (.ctSettleNode k v)
      (fun s => (s.regSet k).ctbusy = false ∧ s.ctxOfSpace (bitsN v 59 50) = some c ∧ s.nodeLive c (bitsN v 19 0) = true)
      (fun s t => t = { s with hub := t.hub } ∧ (t.regSet k).ctbusy = true ∧ bitsN (t.regSet k).ctwork 62 61 = 0
        ∧ (t.regSet k).ctwhere = (s.regSet k).ctaddr))
    ∧ (∀ k v c, Happens (.ctReadRecord k v)
      (fun s => (s.regSet k).ctbusy = false ∧ s.ctxOfSpace (bitsN v 59 50) = some c ∧ s.nodeLive c (bitsN v 19 0) = true)
      (fun s t => t = { s with hub := t.hub } ∧ (t.regSet k).ctbusy = true ∧ bitsN (t.regSet k).ctwork 62 61 = 1
        ∧ (t.regSet k).ctwhere = (s.regSet k).ctaddr))
    ∧ (∀ k v c g, Happens (.ctReadGranule k v)
      (fun s => (s.regSet k).ctbusy = false ∧ s.ctxOfSpace (bitsN v 59 50) = some c ∧ (s.ctGranule c (s.regSet k).ctaddr).2 = some g)
      (fun s t => t = { s with hub := t.hub } ∧ (t.regSet k).ctbusy = true ∧ bitsN (t.regSet k).ctwork 62 61 = 2
        ∧ (t.regSet k).ctwhere = (s.regSet k).ctaddr))
    ∧ (∀ k c, Happens (.ctCommandComplete k)
      (fun s => (s.regSet k).ctbusy = true ∧ bitsN (s.regSet k).ctwork 62 61 = 1
        ∧ s.ctxOfSpace (bitsN (s.regSet k).ctwork 59 50) = some c ∧ s.nodeLive c (bitsN (s.regSet k).ctwork 19 0) = true)
      (fun s t => t = { s with hub := t.hub } ∧ (t.regSet k).ctbusy = false ∧ ∀ i x,
        (s.nodeWords c (bitsN (s.regSet k).ctwork 19 0))[i]? = some x → (t.regSet k).ctres.get i = x))
    ∧ (∀ k v, Happens (.rehome k v) (fun s => (s.regSet k).rhbusy = false ∧ s.rhRefused v = 0)
      (fun s t => t = { s with hub := t.hub, names := s.names + 1 } ∧ t.regSet k = { s.regSet k with
        rhcmd := putBit v 63 false, rhwork := putBit v 63 false, rhat := s.names, rhbusy := true }))
    ∧ ∀ k v, Happens (.rehome k v) (fun s => (s.regSet k).rhbusy = true)
      (fun s t => t = { s with hub := t.hub } ∧ t.regSet k = { s.regSet k with rherr := true }))
  ∧ ((∀ fn r v, Happens (.registerWrite fn r v) (fun _ => r % 8 ≠ 0) (fun s t => t = s))
    ∧ (∀ fn c v, Happens (.registerWrite fn (0x40030 + 4096 * c) v) (fun s => s.ownsCtx (layoutOf fn) c = true)
      (fun s t => t = { s with ctxs := t.ctxs } ∧ t.ctx c = { s.ctx c with trap := putBits v 62 32 0 }))
    ∧ (∀ fn c v, Happens (.registerWrite fn (0x40010 + 4096 * c) v)
      (fun s => s.ownsCtx (layoutOf fn) c = true ∧ bitB (s.ctx c).cfg 62 = false)
      (fun s t => t = { s with ctxs := t.ctxs } ∧ t.ctx c = { s.ctx c with ttab := putBits v 5 0 0 }))
    ∧ (∀ fn c v, Happens (.registerWrite fn (0x40010 + 4096 * c) v) (fun s => bitB (s.ctx c).cfg 62 = true)
      (fun s t => t = { s with ctxs := t.ctxs } ∧ t.ctx c = s.ctx c))
    ∧ (∀ v, Happens (.prfselClear v) (fun _ => bitsN v 7 0 < 200)
      (fun s t => t = { s with hub := t.hub } ∧ ∀ i, i < 31 →
        t.hub.bins.get (31 * (4 * (200 * bitsN v 10 8 + bitsN v 7 0) + bitsN v 13 12) + i) = 0))
    ∧ (∀ n v, Happens (.ssownWrite 0 n v) (fun s => n < 64 ∧ s.sysLive n = false ∧ bitsN v 62 8 = 0)
      (fun s t => t = { s with hub := t.hub } ∧ t.hub.ssown.get n = v ∧ ∀ m, m ≠ n → t.hub.ssown.get m = s.hub.ssown.get m))
    ∧ ∀ fn n v, Happens (.ssownWrite fn n v) (fun s => fn ≠ 0 ∨ s.sysLive n = true ∨ bitsN v 62 8 ≠ 0)
      (fun s t => t = s))

/-- R335, R336, R339, R155 and R158: a mailbox GO that passes its tests performs its transaction on memory (a write
stores the data, a read gives the bytes, an atomic gives the old value and stores the sum, the larger, or on equality
the data), shows it at completion, and while busy takes no other; a peer's write stores its bytes. That the
transaction is performed at GO and shown at completion (log 77), and that a peer's write holds at most 8 bytes (log
78), are the model's readings. -/
def Obligations.MailboxEngine : Prop :=
  (∀ mb v s1 h, Happens (.meWrite mb v) (fun s => MeReady s mb 0 v ∧ MeReaches s mb 0 v s1 h)
      (fun s t => (t.mailbox mb).busy = true ∧ (t.mailbox mb).todo = none ∧ (t.mailbox mb).pendingStatus = 0
        ∧ t.byte = storedAt s1.byte h.pa (MbCmd.size v) (s.mailbox mb).data.toNat ∧ countedOnce s1.mem t.mem h.pa))
    ∧ (∀ mb v s1 h, Happens (.meRead mb v) (fun s => MeReady s mb 1 v ∧ MeReaches s mb 1 v s1 h)
      (fun _ t => MePending t mb (BitVec.ofNat 64 (numAt s1.byte h.pa (MbCmd.size v))) ∧ t.mem = s1.mem))
    ∧ (∀ mb v s1 h, Happens (.meAdd mb v) (fun s => MeReady s mb 2 v ∧ MeReaches s mb 2 v s1 h)
      (fun s t => let old := numAt s1.byte h.pa (MbCmd.size v)
        MePending t mb (BitVec.ofNat 64 old)
          ∧ t.byte = storedAt s1.byte h.pa (MbCmd.size v) (old + (s.mailbox mb).data.toNat) ∧ countedOnce s1.mem t.mem h.pa))
    ∧ (∀ mb v s1 h, Happens (.meMax mb v) (fun s => MeReady s mb 3 v ∧ MeReaches s mb 3 v s1 h)
      (fun s t => let old := numAt s1.byte h.pa (MbCmd.size v)
        MePending t mb (BitVec.ofNat 64 old) ∧ t.byte = storedAt s1.byte h.pa (MbCmd.size v)
          (max old ((s.mailbox mb).data.toNat % 2 ^ (8 * MbCmd.size v)))))
    ∧ (∀ mb v s1 h, Happens (.meCas mb v) (fun s => MeReady s mb 4 v ∧ MeReaches s mb 4 v s1 h)
      (fun s t => let old := numAt s1.byte h.pa (MbCmd.size v)
        MePending t mb (BitVec.ofNat 64 old) ∧ t.byte = storedAt s1.byte h.pa (MbCmd.size v)
          (if old = (s.mailbox mb).cmp.toNat % 2 ^ (8 * MbCmd.size v) then (s.mailbox mb).data.toNat else old)))
    ∧ (∀ mb v, Happens (.meWrite mb v) (fun s => (s.mailbox mb).busy = true)
      (fun s t => t = { s with hub := t.hub } ∧ t.mailbox mb = { s.mailbox mb with status := 5 }))
    ∧ (∀ mb, Happens (.meTransactionComplete mb) (fun s => (s.mailbox mb).busy = true ∧ (s.mailbox mb).todo = none)
      (fun s t => t = { s with hub := t.hub } ∧ t.mailbox mb = { s.mailbox mb with
        res := (s.mailbox mb).pendingRes, status := (s.mailbox mb).pendingStatus, busy := false }))
    ∧ (∀ mb r v, Happens (.mailboxDataWrite mb r v) (fun s => (s.mailbox mb).busy = false)
      (fun s t => t = { s with hub := t.hub } ∧ t.mailbox mb = { s.mailbox mb with
        addr := if r = 1 then v else (s.mailbox mb).addr, data := if r = 2 then v else (s.mailbox mb).data
        cmp := if r = 3 then v else (s.mailbox mb).cmp }))
    ∧ (∀ mb r v, Happens (.mailboxDataWrite mb r v) (fun s => (s.mailbox mb).busy = true) (fun s t => t = s))
    ∧ ∀ pa n v, Happens (.peerWrite pa n v)
      (fun s => s.blocksLive = true ∧ n ≤ 8 ∧ isHost pa = false ∧ mappable s pa n = true ∧ (isDrawer pa = true → s.linksTake)
        ∧ s.hub.mailboxes.all (fun b => b.2.todo.isNone) = true)
      (fun s t => t.byte = storedAt s.byte pa n v.toNat ∧ t.teams = s.teams ∧ t.warps = s.warps)

/-- R311, R312, R314, R315 and R317: QTAIL takes the larger value and refuses one too far ahead; enabling a queue
resets its indices and begins a scrub; a published slot is taken as the entry in progress, an unpublished one waits; a
completion writes DONE and frees the queue. R224, R316, R321, R322, R324, R327, R328 and R333: LAUNCH begins a checked
launch or ends with its status; a prologue starts with its registers, a launch that is over ends or repeats, and a
chunk its home cannot take may go to any die; a wait on a semaphore ends or blocks, a signal writes; fences of one
mask and tag end together, and fences of one tag whose masks differ where either names the other's queue end with
0x0A. -/
def Obligations.Queues : Prop :=
  ((∀ c q v, Happens (.qtailWrite c q v)
      (fun s => s.blocksLive = true ∧ v.toNat ≤ (s.queue c q).qhead.toNat + 2 ^ 32 ∧ (s.queue c q).waitpub = false)
      (fun s t => t = { s with ctxs := t.ctxs } ∧ t.queue c q = { s.queue c q with
        qtail := BitVec.ofNat 64 (max (s.queue c q).qtail.toNat v.toNat) }))
    ∧ (∀ c q v, Happens (.qtailWrite c q v) (fun s => s.blocksLive = true ∧ (s.queue c q).qhead.toNat + 2 ^ 32 < v.toNat)
      (fun s t => t = { s with ctxs := t.ctxs } ∧ t.queue c q = { s.queue c q with err := true }))
    ∧ (∀ c q v, Happens (.qcfgWrite c q v)
      (fun s => s.blocksLive = true ∧ qcfgOk (s.queue c q) v = true ∧ (s.queue c q).en = false ∧ bitB v 63 = true)
      (fun s t => t = { s with ctxs := t.ctxs } ∧ t.queue c q = { s.queue c q with
        qcfg := v, qhead := 0, qtail := 0, waitpub := false, scrub := true }))
    ∧ (∀ c q, HappensVia (.scrubComplete c q) (fun s => (s.queue c q).scrub = true)
      (fun _ t => t.stands c → (t.queue c q).scrub = false))
    ∧ (∀ c q, Happens (.scrubComplete c q)
      (fun s => (s.queue c q).scrub = true ∧ (s.scrubSlots c q (List.range (s.queue c q).size)).1.held = none
        ∧ (s.scrubSlots c q (List.range (s.queue c q).size)).2 = false)
      (fun _ t => (t.ctx c).st = .tornDown))
    ∧ (∀ c q s1, Happens (.scrubComplete c q)
      (fun s => (s.queue c q).scrub = true ∧ s.scrubSlots c q (List.range (s.queue c q).size) = (s1, true) ∧ s1.held = none)
      (fun s t => t.queue c q = { s.queue c q with scrub := false } ∧ t.mem = s1.mem))
    ∧ (∀ c q s1 v, HappensVia (.entryConsume c q)
      (fun s => s.mayConsume c q = true
        ∧ s.queueRead c q ((s.queue c q).slotVa (s.queue c q).qhead.toNat) 64 = (s1, some v)
        ∧ bitsN ((lineWords v).getD 0 0) 63 32 = ((s.queue c q).qhead.toNat + 1) % 2 ^ 32)
      (fun s t => t.stands c → (t.queue c q).qhead = (s.queue c q).qhead + 1 ∧ (t.queue c q).entry = some {
        index := (s.queue c q).qhead, words := lineWords v, status := if entryOk (lineWords v) then none else some 1 }))
    ∧ (∀ c q s1 v, Happens (.entryConsume c q)
      (fun s => s.mayConsume c q = true
        ∧ s.queueRead c q ((s.queue c q).slotVa (s.queue c q).qhead.toNat) 64 = (s1, some v)
        ∧ bitsN ((lineWords v).getD 0 0) 63 32 = ((s.queue c q).qhead.toNat + 1) % 2 ^ 32
        ∧ (s.readSlot c q).held = none ∧ (s.readSlot c q).stands c)
      (fun s t => t = s.readSlot c q ∧ (t.queue c q).qhead = (s.queue c q).qhead + 1 ∧ (t.queue c q).entry = some {
        index := (s.queue c q).qhead, words := lineWords v, status := if entryOk (lineWords v) then none else some 1 }))
    ∧ (∀ c q s1 v, HappensVia (.slotReread c q)
      (fun s => s.mayConsume c q = true ∧ (s.queue c q).waitpub = true
        ∧ s.queueRead c q ((s.queue c q).slotVa (s.queue c q).qhead.toNat) 64 = (s1, some v)
        ∧ bitsN ((lineWords v).getD 0 0) 63 32 ≠ ((s.queue c q).qhead.toNat + 1) % 2 ^ 32)
      (fun s t => (t.queue c q).waitpub = true ∧ (t.queue c q).qhead = (s.queue c q).qhead ∧ t.mem = s1.mem))
    ∧ (∀ c q s1 v, HappensVia (.slotReread c q)
      (fun s => s.mayConsume c q = true ∧ (s.queue c q).waitpub = true
        ∧ s.queueRead c q ((s.queue c q).slotVa (s.queue c q).qhead.toNat) 64 = (s1, some v)
        ∧ bitsN ((lineWords v).getD 0 0) 63 32 = ((s.queue c q).qhead.toNat + 1) % 2 ^ 32)
      (fun s t => t.stands c → (t.queue c q).qhead = (s.queue c q).qhead + 1 ∧ (t.queue c q).waitpub = false))
    ∧ (∀ c q e k, Happens (.entryComplete c q)
      (fun s => s.advances c = true ∧ (s.queue c q).entry = some e ∧ e.status = some k ∧ bitsN (e.words.getD 7 0) 63 3 = 0)
      (fun s t => t = { s with ctxs := t.ctxs } ∧ (t.queue c q).entry = none))
    ∧ ∀ c q e k s1 h, Happens (.entryComplete c q)
      (fun s => s.advances c = true ∧ (s.queue c q).entry = some e ∧ e.status = some k ∧ bitsN (e.words.getD 7 0) 63 3 ≠ 0
        ∧ s.hub? c (bitsN (e.words.getD 7 0) 63 3 * 8) .write = (s1, .ok h) ∧ s1.linksTake)
      (fun _ t => (t.queue c q).entry = none ∧ t.byte = storedAt s1.byte h.pa 8
        ((e.index.toNat + 1) % 2 ^ 32 * 2 ^ 32 + e.detail.toNat * 2 ^ 8 + k.toNat)))
  ∧ ((∀ c q e s1 l, Happens (.launch c q)
      (fun s => InProgress s c q 1 e ∧ e.launch = none ∧ s.readLaunch c q (e.word 1).toNat (e.word 2) = (s1, .ok l)
        ∧ s1.held = none)
      (fun _ t => (t.queue c q).entry.bind (·.launch) = some l ∧ t.mem = s1.mem))
    ∧ (∀ c q e s1 k, Happens (.launch c q)
      (fun s => InProgress s c q 1 e ∧ e.launch = none ∧ s.readLaunch c q (e.word 1).toNat (e.word 2) = (s1, .error k)
        ∧ s1.held = none)
      (fun _ t => Ended t c q (BitVec.ofNat 8 k)))
    ∧ (∀ c q l, Happens (.prologueRun c q)
      (fun s => s.launchOf c q = some l ∧ s.pu = none ∧ l.prologue = 1 ∧ ∀ x ∈ s.puQueue, l.ready ≤ x.1)
      (fun s t => t.pu = some { ctx := c, q := q } ∧ t.mem = s.mem ∧ ∃ w p, t.warps.find puWid = some w ∧ w.slot0 = some p
        ∧ p.pc = BitVec.ofNat 72 (Card.prologue l.card) ∧ w.s.get 0 = BitVec.ofNat 64 l.count ∧ w.s.get 3 = l.user
        ∧ w.a.get 0 = BitVec.ofNat 72 l.place ∧ w.a.get 1 = l.args))
    ∧ (∀ c q e l, Happens (.launchComplete c q)
      (fun s => s.entryOf c q = some e ∧ e.launch = some l ∧ e.graph = none ∧ l.over = true ∧ l.again = false ∧ l.misfit = false)
      (fun s t => Ended t c q 0 ∧ t.mem = s.mem))
    ∧ (∀ c q e l, Happens (.launchComplete c q)
      (fun s => s.entryOf c q = some e ∧ e.launch = some l ∧ l.over = true ∧ l.again = true ∧ l.cancelled = false ∧ l.misfit = false)
      (fun s t => ∃ m, t.launchOf c q = some m ∧ m.prologue = 1 ∧ m.dealt = 0 ∧ m.repeats = l.repeats + 1 ∧ t.mem = s.mem))
    ∧ (∀ c q l h, Happens (.homeDieTimeout c q)
      (fun s => s.launchOf c q = some l ∧ l.home = some (some h) ∧ TType.strict l.ttype = false ∧ l.prologue = 3 ∧ l.lrec = []
        ∧ s.bestCore c l.ttype (dieCores h) = none)
      (fun s t => t = { s with ctxs := t.ctxs } ∧ t.launchOf c q = some { l with anyDie := true }))
    ∧ (∀ c q e s1 x, (∀ i, i = .waitsem c q ∨ i = .semaphoreReread c q → Happens i
      (fun s => InProgress s c q 2 e ∧ e.graph = none ∧ (s.queue c q).block = decide (i = .semaphoreReread c q)
        ∧ s.readNamed c q (e.word 1).toNat = (s1, some x) ∧ s1.held = none)
      (fun _ t => t.mem = s1.mem ∧ if semHolds (bitsN (e.word 4) 3 0) x (e.word 2) (e.word 3) then Ended t c q 0
        else (t.queue c q).block = true ∧ (t.queue c q).entry = some e)))
    ∧ (∀ c q e s1 s2 x, Happens (.sigsem c q)
      (fun s => InProgress s c q 3 e ∧ e.graph = none ∧ (s.queue c q).block = false ∧ s.readNamed c q (e.word 1).toNat = (s1, some x)
        ∧ s1.hubWrite (s1.queueClass c q) c (e.word 1).toNat 8 (semApply (bitsN (e.word 4) 1 0) x (e.word 2)).toNat = (s2, true)
        ∧ s2.held = none)
      (fun _ t => t.mem = s2.mem ∧ Ended t c q 0))
    ∧ (∀ c q e, Happens (.qfenceEntry c q)
      (fun s => InProgress s c q 4 e ∧ q ∈ maskQueues (e.word 1).toNat ∧ (∀ k ∈ maskQueues (e.word 1).toNat,
        (s.queue c k).en = true ∧ s.fenceOf c k = some ((e.word 1).toNat, (e.word 2).toNat)) ∧ Unopposed s c q e)
      (fun s t => t = { s with ctxs := t.ctxs } ∧ ∀ k ∈ maskQueues (e.word 1).toNat, Ended t c k 0))
    ∧ (∀ c q k e f, Happens (.qfenceEntry c q)
      (fun s => InProgress s c q 4 e ∧ q ∈ maskQueues (e.word 1).toNat ∧ (∀ j ∈ maskQueues (e.word 1).toNat, (s.queue c j).en = true)
        ∧ k < 16 ∧ s.fenceOf c k = some f ∧ f.2 = (e.word 2).toNat ∧ f.1 ≠ (e.word 1).toNat
        ∧ (f.1.testBit q = true ∨ k ∈ maskQueues (e.word 1).toNat))
      (fun s t => t = { s with ctxs := t.ctxs } ∧ Ended t c q 0x0A ∧ Ended t c k 0x0A))
    ∧ ∀ c q e, Happens (.qfenceEntry c q)
      (fun s => InProgress s c q 4 e ∧ q ∈ maskQueues (e.word 1).toNat ∧ (∀ k ∈ maskQueues (e.word 1).toNat, (s.queue c k).en = true)
        ∧ (∀ k ∈ maskQueues (e.word 1).toNat, s.fenceOf c k = none ∨ s.fenceOf c k = some ((e.word 1).toNat, (e.word 2).toNat))
        ∧ (∃ k ∈ maskQueues (e.word 1).toNat, s.fenceOf c k = none) ∧ Unopposed s c q e)
      (fun s t => t = { s with ctxs := t.ctxs } ∧ t.queue c q = { s.queue c q with block := true }))

/-- R283, R297 and R329 to R332: a GRAPH entry whose nodes can be read starts at its first node; a kernel node begins
its checked launch; a condition node goes on at NEXT where its comparison holds and at ALT where not; a loop node goes
back to ALT and counts, or goes on at NEXT with its count 0; an end node ends the entry. An ATTACH of a good system
within the limits makes it live with every plot above its threshold PENDING; a DETACH takes an idle system away, and
waits at one that is not idle; a REAPQ starts its reap, and a reap that has copied all its plots writes its report and
ends; a COPY whose ranges pass their checks ends with its bytes copied. An event whose access a drawer link does not
take waits (R82, R398). -/
def Obligations.GraphsAndSystems : Prop :=
  (∀ c q e s1 ws, Happens (.graph c q)
      (fun s => InProgress s c q 5 e ∧ e.graph = none ∧ (e.word 1).toNat % 32 = 0
        ∧ s.hubWords (s.queueClass c q) c (e.word 1).toNat (4 * (bitsN (e.word 2) 27 16 + 1)) = (s1, some ws)
        ∧ s1.held = none ∧ (s1.queue c q).entry = some e)
      (fun _ t => t.mem = s1.mem ∧ ∃ g, t.graphAt c q = some g ∧ g.nodes = nodesOf ws ∧ g.pos = bitsN (e.word 2) 11 0 ∧ g.steps = 1
        ∧ g.user = e.word 3 ∧ (∀ n, g.counts.get n = 0) ∧ if g.ok then (t.queue c q).entry = some { e with graph := some g } else Ended t c q 9))
    ∧ (∀ c q e g s1 l, Happens (.kernelNode c q)
      (fun s => AtNode s c q 1 e g ∧ e.launch = none ∧ s.readLaunch c q (g.node.getD 1 0).toNat g.user = (s1, .ok l) ∧ s1.held = none)
      (fun _ t => t.mem = s1.mem ∧ (t.queue c q).entry = some { e with launch := some l }))
    ∧ (∀ c q e g s1 k, Happens (.kernelNode c q)
      (fun s => AtNode s c q 1 e g ∧ e.launch = none ∧ s.readLaunch c q (g.node.getD 1 0).toNat g.user = (s1, .error k) ∧ s1.held = none)
      (fun _ t => t.mem = s1.mem ∧ Ended t c q (BitVec.ofNat 8 k)))
    ∧ (∀ c q e g s1 x, Happens (.condNode c q)
      (fun s => AtNode s c q 2 e g ∧ s.readNamed c q (g.node.getD 1 0).toNat = (s1, some x) ∧ s1.held = none)
      (fun _ t =>
        let n := if semHolds (nodeCode g.node) x (g.node.getD 2 0) (g.node.getD 3 0) then nodeNext g.node else nodeAlt g.node
        t.mem = s1.mem ∧ t.graphAt c q = some { g with steps := g.steps + 1, pos := n }))
    ∧ (∀ c q e g s1 x, Happens (.loopNode c q)
      (fun s => AtNode s c q 3 e g ∧ s.readNamed c q (g.node.getD 1 0).toNat = (s1, some x) ∧ s1.held = none)
      (fun _ t => let n := g.counts.get g.pos
        let again := (n.toNat < nodeMax g.node) ∧ semHolds (nodeCode g.node) x (g.node.getD 2 0) (g.node.getD 3 0) = true
        t.mem = s1.mem ∧ ∃ h, t.graphAt c q = some h ∧ h.nodes = g.nodes ∧ h.steps = g.steps + 1
          ∧ (again → h.pos = nodeAlt g.node ∧ h.counts.get g.pos = n + 1) ∧ (¬again → h.pos = nodeNext g.node ∧ h.counts.get g.pos = 0)
          ∧ ∀ k, k ≠ g.pos → h.counts.get k = g.counts.get k))
    ∧ (∀ c q e g, Happens (.endNode c q) (fun s => AtNode s c q 0 e g) (fun s t => t = { s with ctxs := t.ctxs } ∧ Ended t c q 0))
    ∧ (∀ c q e s1 s2 ws y, HappensVia (.attach c q)
      (fun s => InProgress s c q 6 e ∧ s.ownsSys c (e.word 2).toNat = true ∧ s.sysLive (e.word 2).toNat = false
        ∧ (e.word 1).toNat % 64 = 0 ∧ s.readLines c q (e.word 1).toNat 4 = (s1, some ws)
        ∧ s1.readSystem c q (e.word 1).toNat ws = (s2, some y)
        ∧ { s2 with systems := s2.systems.put (e.word 2).toNat y }.withinLimits = true)
      (fun _ t => t.stands c → Ended t c q 0 ∧ ∃ z, t.systems.find (e.word 2).toNat = some z ∧ z.ctx = c
        ∧ z.sscb = (e.word 1).toNat ∧ bitB z.status 63 = true))
    ∧ (∀ c q e s1 s2 ws y u, Happens (.attach c q)
      (fun s => InProgress s c q 6 e ∧ s.ownsSys c (e.word 2).toNat = true ∧ s.sysLive (e.word 2).toNat = false
        ∧ (e.word 1).toNat % 64 = 0 ∧ s.readLines c q (e.word 1).toNat 4 = (s1, some ws)
        ∧ s1.readSystem c q (e.word 1).toNat ws = (s2, some y)
        ∧ { s2 with systems := s2.systems.put (e.word 2).toNat y }.withinLimits = true
        ∧ u = { s2 with systems := s2.systems.put (e.word 2).toNat y }.goLive (e.word 2).toNat ∧ u.held = none ∧ u.stands c)
      (fun _ t => t.mem = u.mem ∧ t.systems = u.systems ∧ t.hub = u.hub ∧ Ended t c q 0))
    ∧ (∀ c q e s1 s2 ws, Happens (.attach c q)
      (fun s => InProgress s c q 6 e ∧ s.ownsSys c (e.word 2).toNat = true ∧ s.sysLive (e.word 2).toNat = false
        ∧ (e.word 1).toNat % 64 = 0 ∧ s.readLines c q (e.word 1).toNat 4 = (s1, some ws)
        ∧ s1.readSystem c q (e.word 1).toNat ws = (s2, none) ∧ s2.held = none)
      (fun s t => t.systems = s.systems ∧ Ended t c q 8))
    ∧ (∀ c q e, Happens (.attach c q)
      (fun s => InProgress s c q 6 e ∧ (s.ownsSys c (e.word 2).toNat = false ∨ s.sysLive (e.word 2).toNat = true))
      (fun s t => t = { s with ctxs := t.ctxs } ∧ Ended t c q 7))
    ∧ (∀ c q e y, HappensVia (.detach c q)
      (fun s => InProgress s c q 7 e ∧ s.sysOf c (e.word 2).toNat = some y ∧ s.sysIdle (e.word 2).toNat y = true)
      (fun _ t => t.systems.find (e.word 2).toNat = none ∧ (t.stands c → Ended t c q 0)))
    ∧ (∀ c q e y, Happens (.detach c q)
      (fun s => InProgress s c q 7 e ∧ s.sysOf c (e.word 2).toNat = some y ∧ s.sysIdle (e.word 2).toNat y = false)
      (fun s t => t = { s with systems := t.systems } ∧ t.systems.find (e.word 2).toNat = some { y with leaving := true }))
    ∧ (∀ c q e, Happens (.detach c q) (fun s => InProgress s c q 7 e ∧ s.sysOf c (e.word 2).toNat = none)
      (fun s t => t = { s with ctxs := t.ctxs } ∧ Ended t c q 7))
    ∧ (∀ c q e s1 s2 v y, Happens (.reapq c q)
      (fun s => let r := reapOf (lineWords v)
        InProgress s c q 8 e ∧ e.reap = none ∧ (e.word 1).toNat % 64 = 0 ∧ s.queueRead c q (e.word 1).toNat 64 = (s1, some v)
        ∧ reapReserved (lineWords v) = true ∧ s1.sysOf c r.sys = some y ∧ reapShape y r = true ∧ r.dst % 8 = 0 ∧ r.rpt % 64 = 0
        ∧ s1.queueProbe c .write (pagesOf r.dst (reapSpan y r) ++ pagesOf r.rpt 576) = (s2, true) ∧ s2.held = none)
      (fun _ t => let r := reapOf (lineWords v)
        ∃ k x, (t.queue c q).entry = some { e with reap := some k } ∧ t.reaps.find k = some x ∧ x.ctx = c ∧ x.sys = r.sys
          ∧ x.first = r.first ∧ x.count = r.count ∧ x.pos = 0 ∧ x.dst = r.dst ∧ x.rpt = r.rpt ∧ x.bound = y.top
          ∧ t.mem.bytes = s2.mem.bytes))
    ∧ (∀ c q e k r, HappensVia (.reapq c q)
      (fun s => InProgress s c q 8 e ∧ e.reap = some k ∧ s.reaps.find k = some r ∧ r.ctx = c ∧ r.count ≤ r.pos)
      (fun _ t => t.reaps.find k = none ∧ (t.stands c → Ended t c q 0)))
    ∧ (∀ c q e k r u, Happens (.reapq c q)
      (fun s => InProgress s c q 8 e ∧ e.reap = some k ∧ s.reaps.find k = some r ∧ r.count ≤ r.pos
        ∧ s.reapStores r 4 r.rpt (reportBytes s r) = (u, true) ∧ u.held = none)
      (fun _ t => t.mem = u.mem ∧ t.reaps.find k = none ∧ Ended t c q 0))
    ∧ (∀ c q e s1 s2, Happens (.copy c q)
      (fun s => let n := (e.word 3).toNat
        let r := s2.copyRead c q (n / 256 + 2) (e.word 1).toNat (n / 8 * 8)
        InProgress s c q 9 e ∧ (e.word 1).toNat % 8 = 0 ∧ (e.word 2).toNat % 8 = 0
          ∧ s.queueProbe c .read (pagesOf (e.word 1).toNat n) = (s1, true)
          ∧ s1.queueProbe c .write (pagesOf (e.word 2).toNat n) = (s2, true)
          ∧ (r.1.copyWrite c q (e.word 2).toNat (n / 128 + 2) r.2).held = none)
      (fun _ t => let n := (e.word 3).toNat
        let r := s2.copyRead c q (n / 256 + 2) (e.word 1).toNat (n / 8 * 8)
        t.mem = (r.1.copyWrite c q (e.word 2).toNat (n / 128 + 2) r.2).mem ∧ Ended t c q 0))
    ∧ ∀ c q e s1 s2 s3 s4 h g, HappensVia (.copy c q)
      (fun s => InProgress s c q 9 e ∧ (e.word 1).toNat % 8 = 0 ∧ (e.word 2).toNat % 8 = 0 ∧ (e.word 3).toNat = 8
        ∧ s.queueProbe c .read (pagesOf (e.word 1).toNat 8) = (s1, true)
        ∧ s1.queueProbe c .write (pagesOf (e.word 2).toNat 8) = (s2, true) ∧ s2.hub? c (e.word 1).toNat .read = (s3, .ok h)
        ∧ isDrawer h.pa = false ∧ s3.hub? c (e.word 2).toNat .write = (s4, .ok g) ∧ poisoned s3.mem.poison h.pa 8 = false)
      (fun _ t => t.byte = storedAt s4.byte g.pa 8 (numAt s3.byte h.pa 8) ∧ Ended t c q 0)

/-- R310, R351 to R356: starting a context makes it run, or faults where its XDESC does not serve; returning an idle
slot makes it fresh; a drain notifies every warp and waits for its teams, a resume runs again, a deadline freezes or
resets, a freeze leaves no team and an image in the save area, a restore runs from the image, and a reset tears down.
The image's form is the model's choice (log 9). That a drain with no team is drained at once, whatever its deadline
(log 83), and that a returned slot's frames have no owner (log 131) are the model's too. R356: teardown of a context
ends its teams and warps and discards its standing systems, nodes and queue entries. -/
def Obligations.Contexts : Prop :=
  ((∀ c v, Happens (.ctxcfgWrite 0 c v)
      (fun s => s.ownsCtx 0 c = true ∧ bitB (s.ctx c).cfg 63 = false ∧ bitB (s.ctx c).cfg 62 = false ∧ (s.ctx c).st ≠ .tornDown
        ∧ bitB v 63 = true ∧ bitB v 62 = true ∧ xdescOk (s.ctx c).xdesc = true)
      (fun s t => t = { s with ctxs := t.ctxs } ∧ t.ctx c = { s.ctx c with cfg := putBits v 59 56 0, started := true }))
    ∧ (∀ c v, Happens (.ctxcfgWrite 0 c v)
      (fun s => s.ownsCtx 0 c = true ∧ bitB (s.ctx c).cfg 63 = false ∧ bitB (s.ctx c).cfg 62 = false ∧ (s.ctx c).st ≠ .tornDown
        ∧ bitB v 63 = true ∧ bitB v 62 = true ∧ xdescOk (s.ctx c).xdesc = false)
      (fun _ t => (t.ctx c).st = .tornDown ∧ (t.ctx c).cfcause = 6 ∧ bitB (t.ctx c).cfg 62 = false))
    ∧ (∀ c v, Happens (.ctxcfgWrite 0 c v)
      (fun s => s.ownsCtx 0 c = true ∧ bitB (s.ctx c).cfg 63 = true ∧ bitB v 63 = false ∧ s.mayFree c = true)
      (fun s t => t = { s with
          ctxs := t.ctxs, images := t.images, nodes := t.nodes, frozen := t.frozen
          mem := { s.mem with owner := t.mem.owner, enrol := t.mem.enrol } }
        ∧ (∀ n ∈ t.nodes, n.1 / 2 ^ 20 ≠ c) ∧ (∀ f, t.mem.ownerOf f ≠ c + 1)
        ∧ (t.ctx c).st = .running ∧ (t.ctx c).cfg = putBits v 59 56 0 ∧ (t.ctx c).cfcause = 0 ∧ (t.ctx c).dfaults = 0 ∧ (t.ctx c).seed = 1 ∧ ∀ q, (t.queue c q).en = false))
    ∧ (∀ c v, Happens (.ctxDrain c v)
      (fun s => s.blocksLive = true ∧ bitsN v 59 32 = 0 ∧ (s.ctx c).st = .running ∧ bitsN v 31 0 ≠ 0 ∧ ctxTeams s c ≠ [])
      (fun _ t => (t.ctx c).st = .draining ∧ ∀ w x, w ≠ puWid → t.warps.find w = some x → x.ctx = c → x.evNotice = true))
    ∧ (∀ c v, Happens (.ctxDrain c v)
      (fun s => s.blocksLive = true ∧ bitsN v 59 32 = 0 ∧ (s.ctx c).st = .running ∧ ctxTeams s c = [])
      (fun _ t => (t.ctx c).st = .drained))
    ∧ (∀ c v, Happens (.ctxResume c v) (fun s => s.blocksLive = true ∧ bitsN v 59 32 = 0 ∧ (s.ctx c).st = .drained)
      (fun s t => t = { s with ctxs := t.ctxs } ∧ (t.ctx c).st = .running))
    ∧ (∀ c v, Happens (.ctxRestore c v)
      (fun s => s.blocksLive = true ∧ bitsN v 59 32 = 0 ∧ (s.ctx c).st = .frozen ∧ (s.goodImage (s.ctx c).saveArea).isSome = true)
      (fun s t => t = { s with ctxs := t.ctxs, images := t.images, names := s.names + 1 } ∧ (t.ctx c).st = .restoring))
    ∧ (∀ c v, Happens (.ctxReset c v) (fun s => s.blocksLive = true ∧ bitsN v 59 32 = 0 ∧ (s.ctx c).st ≠ .tornDown)
      (fun _ t => (t.ctx c).st = .tornDown ∧ (t.ctx c).cfcause = 9 ∧ ctxTeams t c = []))
    ∧ (∀ c v, Happens (.ctxResume c v) (fun s => s.blocksLive = true ∧ (bitsN v 59 32 ≠ 0 ∨ (s.ctx c).st ≠ .drained))
      (fun s t => t = { s with ctxs := t.ctxs } ∧ t.ctx c = { s.ctx c with preErr := true }))
    ∧ (∀ c, Happens (.drainDeadline c)
      (fun s => (s.ctx c).st = .draining ∧ s.deadlinePassed (s.ctx c) = true ∧ bitB (s.ctx c).cfg 61 = true)
      (fun s t => t = { s with ctxs := t.ctxs } ∧ (t.ctx c).st = .freezing))
    ∧ (∀ c, Happens (.drainDeadline c)
      (fun s => (s.ctx c).st = .draining ∧ s.deadlinePassed (s.ctx c) = true ∧ bitB (s.ctx c).cfg 61 = false)
      (fun _ t => (t.ctx c).st = .tornDown ∧ (t.ctx c).cfcause = 9))
    ∧ (∀ c, Happens (.freezeComplete c)
      (fun s => (s.ctx c).st = .freezing ∧ s.atBoundaries c = true ∧ (s.freeze c).held = none)
      (fun s t => Frozen s t c ∨ (t.ctx c).st = .tornDown))
    ∧ (∀ c, Happens (.freezeComplete c)
      (fun s => (s.ctx c).st = .freezing ∧ s.atBoundaries c = true ∧ isNear (s.ctx c).saveArea = true ∧ ∀ y ∈ s.systems, y.2.ctx ≠ c)
      (fun s t => if mappable s (s.ctx c).saveArea (s.sizeNow c) then Frozen s t c else (t.ctx c).st = .tornDown ∧ (t.ctx c).cfcause = 8))
    ∧ ∀ c im, Happens (.restoreComplete c)
      (fun s => (s.ctx c).st = .restoring ∧ s.images.find (s.ctx c).image = some im ∧ im.teams = [])
      (fun s t => (t.ctx c).st = .running ∧ (t.ctx c).queues = im.queues ∧ t.images.find (s.ctx c).image = none))
  ∧ (∀ (s : State) (c : Nat) (words : Bool), let t := s.teardown c words
    (t.ctx c).st = .tornDown ∧ bitB (t.ctx c).cfg 62 = false ∧ ctxTeams t c = [] ∧ (∀ y ∈ t.systems, y.2.ctx ≠ c)
      ∧ (∀ n ∈ t.nodes, n.1 / 2 ^ 20 ≠ c) ∧ (∀ q, (t.queue c q).entry = none) ∧ t.hub.fatal = s.hub.fatal)

/-- R358, R359, R362 to R365: an uncorrectable error poisons what it hit, ends the context whose tables it hit, or is
fatal; a corrected one and a rebuilt scheduler are logged; DEVPOP removes the oldest entry; a security alarm is fatal.
R377 to R383 and R386 to R388: the stages in turn, their failures, and every reset; attestation signs with the current
generation, with a new one that the identity key certifies, or not at all; power points change on a governor's
decision, which lowers a die while the module lies over its limit (log 132); an idle core is gated and wakes; a
thermal trip is fatal. What a reset and a loss of power keep of memory is the model's reading (log 89), and that a
core is gated at once its choice (log 11). -/
def Obligations.ErrorsAndPlatform : Prop :=
  ((∀ pa, Happens (.uncorrectableError (.memory pa)) (fun _ => True)
      (fun s t => t.mem.bytes = s.mem.bytes ∧ ∀ k, t.mem.poison.get k = if k = pa / 32 then 1 else s.mem.poison.get k))
    ∧ (∀ die a, Happens (.uncorrectableError (.canvas die a)) (fun _ => True)
      (fun s t => t.mem.canvas = s.mem.canvas ∧ t.mem.canvasPoison.get ((2 ^ 27 * die + a) / 32) = 1))
    ∧ (∀ wid w r l, l < 128 → Happens (.uncorrectableError (.laneRegister wid r l)) (fun s => s.warps.find wid = some w)
      (fun s t => t.warps.find wid = some { w with vpoison := w.vpoison.set (128 * r + l) 1 } ∧ t.mem = s.mem))
    ∧ (∀ wid w, Happens (.uncorrectableError (.scalarState wid)) (fun s => s.warps.find wid = some w)
      (fun s t => t.hub.aer.head? = some 1 ∧ s.hub.aer.length < t.hub.aer.length
        ∧ ∀ x, t.warps.find wid = some x → x.dead = fullMask))
    ∧ (∀ c, Happens (.uncorrectableError (.contextState c)) (fun _ => True) (fun _ t => (t.ctx c).st = .tornDown))
    ∧ Happens (.uncorrectableError .hubState) (fun _ => True) (fun _ t => t.hub.fatal = true ∧ t.plat.stage = 3)
    ∧ (∀ c, Happens (.schedulerRebuild c true) (fun _ => True) (fun s t => t = { s with hub := t.hub } ∧ t.hub.fatal = false
      ∧ t.hub.deverr = logInto s.hub.deverr (devEntry 0 4 (c / 200) (c % 200) 0xFF false) ∧ t.hub.aer = 0 :: s.hub.aer))
    ∧ (∀ c, Happens (.schedulerRebuild c false) (fun _ => True) (fun _ t => t.hub.fatal = true ∧ t.plat.stage = 3))
    ∧ (∀ die c, die < 8 → Happens (.eccCorrected die c) (fun _ => True) (fun s t => t = { s with hub := t.hub }
      ∧ t.hub.deverr = logInto s.hub.deverr (devEntry 0 1 die c 0xFF false) ∧ t.hub.aer = 0 :: s.hub.aer))
    ∧ (∀ v, Happens (.devpop v) (fun _ => bitB v 63 = true)
      (fun s t => t = { s with hub := { s.hub with deverr := s.hub.deverr.drop 1 } }))
    ∧ Happens .securityAlarm (fun _ => True) (fun s t => t.hub.fatal = true ∧ t.plat.alarm = true ∧ t.plat.stage = 3
      ∧ (s.erases = true → t.plat.erased = true ∧ t.plat.keyStore = false))
    ∧ Happens (.measurementCheck true) (fun _ => True) (fun s t => t = s)
    ∧ Happens (.measurementCheck false) (fun _ => True) (fun _ t => t.hub.fatal = true ∧ t.plat.alarm = true))
  ∧ ((∀ up, Happens (.stageComplete 0 up) (fun s => s.plat.inReset = false ∧ s.plat.fail = false ∧ s.plat.live = true
      ∧ s.plat.stage = 0 ∧ s.plat.recordOk = true ∧ s.plat.version.toNat ≤ bitsN s.plat.record0 31 0)
      (fun s t => t.plat.stage = 1 ∧ t.plat.fail = false ∧ t.plat.version.toNat = bitsN s.plat.record0 31 0
        ∧ t.plat.dieup.toNat = bitsN s.plat.record1 63 56 ∧ ∀ a, t.byte a = if isDrawer a then s.byte a else 0))
    ∧ (∀ k up, Happens (.stageComplete k up) (fun s => s.plat.inReset = false ∧ s.plat.fail = false ∧ s.plat.live = false)
      (fun s t => t = { s with plat := { s.plat with live := true } }))
    ∧ Happens (.stageComplete 0 (BitVec.allOnes 32)) (fun s => s.plat.inReset = false ∧ s.plat.fail = false ∧ s.plat.live = true
      ∧ s.plat.stage = 1) (fun s t => t.plat.stage = 2 ∧ t.plat.ready = true ∧ t.mem = s.mem ∧ ∀ n, n < 32 → t.link n = {})
    ∧ (∀ k up, k = 1 ∨ k = 2 → Happens (.stageComplete k up) (fun s => s.plat.inReset = false ∧ s.plat.fail = false
      ∧ s.plat.live = true ∧ s.plat.stage = 0) (fun s t => t = { s with plat := { s.plat with fail := true, fcode := k } }))
    ∧ (∀ k up, k ≠ 1 → Happens (.stageComplete k up) (fun s => s.plat.inReset = false ∧ s.plat.fail = false ∧ s.plat.live = true
      ∧ s.plat.stage = 0 ∧ s.plat.recordOk = false) (fun s t => t = { s with plat := { s.plat with fail := true, fcode := 2 } }))
    ∧ (∀ k up, k ≠ 1 → k ≠ 2 → Happens (.stageComplete k up) (fun s => s.plat.inReset = false ∧ s.plat.fail = false
      ∧ s.plat.live = true ∧ s.plat.stage = 0 ∧ s.plat.recordOk = true ∧ bitsN s.plat.record0 31 0 < s.plat.version.toNat)
      (fun s t => t = { s with plat := { s.plat with fail := true, fcode := 3 } }))
    ∧ (∀ k up, k = 4 ∨ k = 5 → Happens (.stageComplete k up) (fun s => s.plat.inReset = false ∧ s.plat.fail = false
      ∧ s.plat.live = true ∧ s.plat.stage = 0 ∧ s.plat.recordOk = true ∧ s.plat.version.toNat ≤ bitsN s.plat.record0 31 0)
      (fun s t => t = { s with plat := t.plat } ∧ t.plat.fail = true ∧ t.plat.fcode = k ∧ t.plat.stage = 0
        ∧ t.plat.version.toNat = bitsN s.plat.record0 31 0))
    ∧ (∀ k up, k ≠ 0 ∨ up ≠ BitVec.allOnes 32 → Happens (.stageComplete k up) (fun s => s.plat.inReset = false
      ∧ s.plat.fail = false ∧ s.plat.live = true ∧ s.plat.stage = 1)
      (fun s t => t = { s with plat := { s.plat with fail := true, fcode := if k = 0 then 6 else k, linkup := up } }))
    ∧ (∀ s, ∃ t, exec .conventionalReset s = .next t ∧ Fresh t true ∧ t.mem.bytes = s.mem.bytes)
    ∧ (∀ s, ∃ t, exec .powerLoss s = .next t ∧ Fresh t true ∧ ∀ a, t.byte a = if isDrawer a then s.byte a else 0)
    ∧ (∀ v s, bitB v 63 = true → ∃ t, exec (.modrst v) s = .next t ∧ Fresh t false ∧ t.mem.bytes = s.mem.bytes)
    ∧ (∀ s, exec .resetRelease s = .next { s with plat := { s.plat with inReset := false } })
    ∧ (∀ x, Happens (.attestationRequest x) (fun s => s.plat.live = true ∧ 1 ≤ s.plat.stage.toNat ∧ s.plat.idIndex < 2 ^ 30
        ∧ s.plat.genIndex < 2 ^ 30)
      (fun s t => t = { s with plat := t.plat } ∧ t.plat.genIndex = s.plat.genIndex + 1 ∧ t.plat.idIndex = s.plat.idIndex
        ∧ ∃ r, t.plat.responses = r :: s.plat.responses ∧ r.nonce = x ∧ r.generation = s.plat.generation
        ∧ r.measurements = s.plat.measurements ∧ r.version.toNat = bitsN s.plat.record0 31 0 ∧ r.certificate = s.plat.certificate))
    ∧ (∀ x, Happens (.attestationRequest x) (fun s => s.plat.live = true ∧ 1 ≤ s.plat.stage.toNat ∧ s.plat.idIndex < 2 ^ 30
        ∧ 2 ^ 30 ≤ s.plat.genIndex)
      (fun s t => t = { s with plat := t.plat } ∧ t.plat.generation = s.plat.generation + 1 ∧ t.plat.genIndex = 1
        ∧ t.plat.idIndex = s.plat.idIndex + 1 ∧ ∃ r z, t.plat.responses = r :: s.plat.responses ∧ r.nonce = x
        ∧ r.generation = s.plat.generation + 1 ∧ r.certificate = some z ∧ z.generation = s.plat.generation + 1
        ∧ z.index = s.plat.idIndex))
    ∧ (∀ x, Happens (.attestationRequest x) (fun s => s.plat.live = true ∧ 1 ≤ s.plat.stage.toNat ∧ 2 ^ 30 ≤ s.plat.idIndex)
      (fun s t => t = { s with plat := { s.plat with unsigned := s.plat.unsigned + 1 } }))
    ∧ (∀ die x y w, die < 8 → Happens (.powerGovernorDecision die x w)
      (fun s => s.plat.points.get die = y ∧ s.plat.changing.find die = none ∧ x ≠ y)
      (fun s t => t = { s with plat := t.plat } ∧ t.plat.watts.get die = w ∧ t.plat.points.get die = y
        ∧ ({ s with plat := { s.plat with watts := s.plat.watts.set die w } }.overPower = false → t.plat.changing.find die = some x)))
    ∧ (∀ die x w, die < 8 → Happens (.powerGovernorDecision die x w)
      (fun s => (s.plat.points.get die).toNat < 3 ∧ s.plat.changing.find die = none
        ∧ { s with plat := { s.plat with watts := s.plat.watts.set die w } }.overPower = true)
      (fun s t => t = { s with plat := t.plat } ∧ t.plat.points = s.plat.points ∧ ∃ z, t.plat.changing.find die = some z
        ∧ (s.plat.points.get die).toNat < z.toNat))
    ∧ (∀ die x, Happens (.operatingPointChange die) (fun s => s.plat.changing.find die = some x)
      (fun s t => t = { s with plat := t.plat } ∧ t.plat.points.get die = x ∧ t.plat.changing.find die = none))
    ∧ (∀ c, Happens (.corePowerGate c) (fun s => c < 1600 ∧ s.coreTeams c = 0)
      (fun s t => t.core c = { s.core c with gated := true, tlb := [], l1 := [], records := [] } ∧ t.l2.find c = none ∧ t.mem = s.mem))
    ∧ (∀ c, Happens (.coreWake c) (fun s => (s.core c).gated = true)
      (fun s t => t.core c = { s.core c with gated := false } ∧ t.mem = s.mem))
    ∧ ∀ die, Happens (.thermalTrip die) (fun _ => True)
      (fun _ t => t.hub.fatal = true ∧ t.plat.stage = 3 ∧ t.teams = [] ∧ ∀ a, t.cbyte a = 0))

/-- R369 to R376: a breakpoint stops its path; DBGCMD stops, resumes, steps and releases the path it names, or all of
the context's, and sets ERR for one that does not exist; DBGCTL takes its writable bits; a sample or deadlock reading
that the control does not enable does nothing. That the commands act whatever ATT reads is the model's reading (log
88). -/
def Obligations.DebugCommands : Prop :=
  (∀ wid k l p, Happens (.breakpointStop wid k l)
      (fun s => s.pathAt wid k = some p ∧ p.stopped = false ∧ s.breaks l wid p = true)
      (fun _ t => t.pathIs wid k { p with stopped := true, stepping := 0 }))
    ∧ (∀ c v wid x p, Happens (.dbgStop c v) (fun s => Names s c 0 v wid x p)
      (fun _ t => ∃ q, t.pathIn wid x = some q ∧ q.stopped = true ∧ q.pc = p.pc ∧ q.queue = p.queue))
    ∧ (∀ c v wid x p, Happens (.dbgResume c v) (fun s => Names s c 1 v wid x p ∧ p.stopped = true)
      (fun _ t => t.pathIn wid x = some { p with stopped := false, stepping := 0, skipBp := true }))
    ∧ (∀ c v wid x p, Happens (.dbgStepScalar c v) (fun s => Names s c 2 v wid x p ∧ p.stopped = true)
      (fun _ t => t.pathIn wid x = some { p with stopped := false, stepping := 1, skipBp := true }))
    ∧ (∀ c v wid x p, Happens (.dbgStepLane c v) (fun s => Names s c 3 v wid x p ∧ p.stopped = true ∧ p.hasLane = true)
      (fun _ t => t.pathIn wid x = some { p with stopped := false, stepping := 2, skipBp := true }))
    ∧ (∀ c v wid x p, Happens (.dbgResume c v) (fun s => Names s c 1 v wid x p ∧ p.stopped = false)
      (fun s t => t = { s with ctxs := t.ctxs } ∧ bitB (t.ctx c).dbgctl 58 = true))
    ∧ (∀ c v, Happens (.dbgStopAll c v) (fun s => s.blocksLive = true)
      (fun s t => ∀ x ∈ s.ctxPaths c, ∀ p, t.pathIn x.1 x.2 = some p → p.stopped = true))
    ∧ (∀ c v, Happens (.dbgResumeAll c v) (fun s => s.blocksLive = true)
      (fun s t => ∀ x ∈ s.ctxPaths c, ∀ p, t.pathIn x.1 x.2 = some p → p.stopped = false))
    ∧ (∀ c v wid e f, (∀ d i, (i = .dbgReplay c v ∧ d = (0 : BitVec 2)) ∨ (i = .dbgSkip c v ∧ d = 1) → Happens i
      (fun s => Names s c (6 + d.toNat) v wid (.frag e) f.path ∧ (s.core (coreOf wid)).frags.find e = some f ∧ f.onWatch = true
        ∧ ∀ w, s.warps.find f.warp = some w → w.slot0.isSome = true ∨ w.slot1.isSome = true)
      (fun _ t => (t.core (coreOf wid)).frags.find e = some { f with state := 1, page := none, disp := some d })))
    ∧ (∀ c v wid e f w, (∀ d i, (i = .dbgReplay c v ∧ d = (0 : BitVec 2)) ∨ (i = .dbgSkip c v ∧ d = 1) → Happens i
      (fun s => Names s c (6 + d.toNat) v wid (.frag e) f.path ∧ (s.core (coreOf wid)).frags.find e = some f ∧ f.onWatch = true
        ∧ f.warp = wid ∧ s.warps.find wid = some w ∧ w.slot0 = none ∧ w.slot1 = none)
      (fun _ t => (t.core (coreOf wid)).frags.find e = some { f with state := 2, waits := [], page := none, disp := some d }
        ∧ t.pathIs wid 0 (f.path.resume f.rcd (d = 1)))))
    ∧ (∀ c v, Happens (.dbgctlWrite c v) (fun s => s.blocksLive = true ∧ (bitB (s.ctx c).dbgctl 63 = true → bitB v 63 = true))
      (fun s t => t = { s with ctxs := t.ctxs } ∧ bitsN (t.ctx c).dbgctl 63 59 = bitsN v 63 59
        ∧ bitsN (t.ctx c).dbgctl 55 48 = bitsN v 55 48))
    ∧ (∀ c k, Happens (.sample c k) (fun s => bitB (s.ctx c).dbgctl 59 = false) (fun s t => t = s))
    ∧ (∀ c k w x, Happens (.sample c k) (fun s => bitB (s.ctx c).dbgctl 59 = true ∧ s.nextSampled c k = some (w, x))
      (fun s t => (t.core k).sampleRot.find c = some (w % 64 + 1) ∧ t.warps = s.warps))
    ∧ (∀ c, Happens (.deadlockCheck c) (fun s => bitB (s.ctx c).dbgctl 63 = false) (fun s t => t = s))
    ∧ ∀ c, Happens (.deadlockCheck c) (fun s => bitB (s.ctx c).dbgctl 63 = true ∧ cycles (standing (s.waitGraph c) (s.ctx c).graphSeen) = [])
      (fun s t => t.mem = s.mem ∧ t.warps = s.warps ∧ (t.ctx c).graphSeen = s.waitGraph c ∧ ∀ m ∈ t.teams, m.2.ctx = c →
        m.2.progressSeen = m.2.progress)
end

