-- ==== Sys2Proof/Laws/Encode.lean ====
section
/-! SUPPORT. Laws of the instruction formats: each field of a word built from fields is that field, and the bytes of a
number read back as the number. -/

namespace Sys2Proof

variable {m n : Nat}

/-- A field within the low part of two joined words. -/
theorem field_low (x : BitVec m) (y : BitVec n) (s k : Nat) (h : s + k ≤ n) :
    (x ++ y).extractLsb' s k = y.extractLsb' s k := by
  apply BitVec.eq_of_getLsbD_eq
  intro i hi
  have : s + i < n := by omega
  simp [BitVec.getLsbD_append, hi, this]

/-- A field within the high part. -/
theorem field_high (x : BitVec m) (y : BitVec n) (s k : Nat) (h : n ≤ s) :
    (x ++ y).extractLsb' s k = x.extractLsb' (s - n) k := by
  apply BitVec.eq_of_getLsbD_eq
  intro i hi
  have h1 : ¬(s + i < n) := by omega
  have h2 : s + i - n = s - n + i := by omega
  simp [BitVec.getLsbD_append, hi, h1, h2]

theorem field_all (x : BitVec n) : x.extractLsb' 0 n = x := by
  apply BitVec.eq_of_getLsbD_eq
  intro i hi
  simp [hi]

/-- A field of a field. -/
theorem field_field (x : BitVec n) (s k u v : Nat) (h : u + v ≤ k) :
    (x.extractLsb' s k).extractLsb' u v = x.extractLsb' (s + u) v := by
  apply BitVec.eq_of_getLsbD_eq
  intro i hi
  have : u + i < k := by omega
  simp [hi, this, Nat.add_assoc]

/-! ## Format S3 -/

section
variable (o d a b : BitVec 6) (f : BitVec 8)

@[simp] theorem encS3_major : (encS3 o d a b f).extractLsb' 26 6 = o := by
  unfold encS3
  rw [field_high _ f _ 6 (by decide), field_high _ b _ 6 (by decide), field_high _ a _ 6 (by decide), field_high _ d _ 6 (by decide)]
  exact field_all o

@[simp] theorem encS3_x : xF (encS3 o d a b f) = d := by
  unfold encS3 xF
  rw [field_high _ f _ 6 (by decide), field_high _ b _ 6 (by decide), field_high _ a _ 6 (by decide), field_low _ d _ 6 (by decide)]
  exact field_all d

@[simp] theorem encS3_y : yF (encS3 o d a b f) = a := by
  unfold encS3 yF
  rw [field_high _ f _ 6 (by decide), field_high _ b _ 6 (by decide), field_low _ a _ 6 (by decide)]
  exact field_all a

@[simp] theorem encS3_z : zF (encS3 o d a b f) = b := by
  unfold encS3 zF
  rw [field_high _ f _ 6 (by decide), field_low _ b _ 6 (by decide)]
  exact field_all b

@[simp] theorem encS3_f : fF (encS3 o d a b f) = f := by
  unfold encS3 fF
  rw [field_low _ f _ 8 (by decide)]
  exact field_all f

end

/-! ## Format SI -/

section
variable (o d a : BitVec 6) (i : BitVec 14)

@[simp] theorem encSI_major : (encSI o d a i).extractLsb' 26 6 = o := by
  unfold encSI
  rw [field_high _ i _ 6 (by decide), field_high _ a _ 6 (by decide), field_high _ d _ 6 (by decide)]
  exact field_all o

@[simp] theorem encSI_x : xF (encSI o d a i) = d := by
  unfold encSI xF
  rw [field_high _ i _ 6 (by decide), field_high _ a _ 6 (by decide), field_low _ d _ 6 (by decide)]
  exact field_all d

@[simp] theorem encSI_y : yF (encSI o d a i) = a := by
  unfold encSI yF
  rw [field_high _ i _ 6 (by decide), field_low _ a _ 6 (by decide)]
  exact field_all a

@[simp] theorem encSI_imm : immF (encSI o d a i) = i := by
  unfold encSI immF
  rw [field_low _ i _ 14 (by decide)]
  exact field_all i

end

/-! ## Format SM -/

section
variable (o d : BitVec 6) (r z l : BitVec 4) (i : BitVec 8)

@[simp] theorem encSM_major : (encSM o d r z l i).extractLsb' 26 6 = o := by
  unfold encSM
  rw [field_high _ i _ 6 (by decide), field_high _ l _ 6 (by decide), field_high _ z _ 6 (by decide), field_high _ r _ 6 (by decide), field_high _ d _ 6 (by decide)]
  exact field_all o

@[simp] theorem encSM_x : xF (encSM o d r z l i) = d := by
  unfold encSM xF
  rw [field_high _ i _ 6 (by decide), field_high _ l _ 6 (by decide), field_high _ z _ 6 (by decide), field_high _ r _ 6 (by decide), field_low _ d _ 6 (by decide)]
  exact field_all d

@[simp] theorem encSM_base : baseF (encSM o d r z l i) = r := by
  unfold encSM baseF
  rw [field_high _ i _ 4 (by decide), field_high _ l _ 4 (by decide), field_high _ z _ 4 (by decide), field_low _ r _ 4 (by decide)]
  exact field_all r

@[simp] theorem encSM_size : szF (encSM o d r z l i) = z := by
  unfold encSM szF
  rw [field_high _ i _ 4 (by decide), field_high _ l _ 4 (by decide), field_low _ z _ 4 (by decide)]
  exact field_all z

@[simp] theorem encSM_la : smLa (encSM o d r z l i) = l := by
  unfold encSM smLa
  rw [field_high _ i _ 4 (by decide), field_low _ l _ 4 (by decide)]
  exact field_all l

@[simp] theorem encSM_disp : dispF (encSM o d r z l i) = i := by
  unfold encSM dispF
  rw [field_low _ i _ 8 (by decide)]
  exact field_all i

end

/-! ## Format SX -/

section
variable (o x y z : BitVec 6) (p l : BitVec 4)

@[simp] theorem encSX_major : (encSX o x y z p l).extractLsb' 26 6 = o := by
  unfold encSX
  rw [field_high _ l _ 6 (by decide), field_high _ p _ 6 (by decide), field_high _ z _ 6 (by decide), field_high _ y _ 6 (by decide), field_high _ x _ 6 (by decide)]
  exact field_all o

@[simp] theorem encSX_x : xF (encSX o x y z p l) = x := by
  unfold encSX xF
  rw [field_high _ l _ 6 (by decide), field_high _ p _ 6 (by decide), field_high _ z _ 6 (by decide), field_high _ y _ 6 (by decide), field_low _ x _ 6 (by decide)]
  exact field_all x

@[simp] theorem encSX_y : yF (encSX o x y z p l) = y := by
  unfold encSX yF
  rw [field_high _ l _ 6 (by decide), field_high _ p _ 6 (by decide), field_high _ z _ 6 (by decide), field_low _ y _ 6 (by decide)]
  exact field_all y

@[simp] theorem encSX_z : zF (encSX o x y z p l) = z := by
  unfold encSX zF
  rw [field_high _ l _ 6 (by decide), field_high _ p _ 6 (by decide), field_low _ z _ 6 (by decide)]
  exact field_all z

@[simp] theorem encSX_la : laF (encSX o x y z p l) = l := by
  unfold encSX laF
  rw [field_low _ l _ 4 (by decide)]
  exact field_all l

@[simp] theorem encSX_op : (encSX o x y z p l).extractLsb' 4 4 = p := by
  unfold encSX
  rw [field_high _ l _ 4 (by decide), field_low _ p _ 4 (by decide)]
  exact field_all p

end

/-! ## Register fields and checks -/

theorem aReg_aF (r : BitVec 4) (k : BitVec 4 → Except Cause Instr) : aReg (aF r) k = k r := by
  unfold aReg aF
  rw [field_high _ _ _ _ (by decide), field_low _ _ _ _ (by decide)]
  simp

theorem qReg_qF (r : BitVec 3) (k : BitVec 3 → Except Cause Instr) : qReg (qF r) k = k r := by
  unfold qReg qF
  rw [field_high _ _ _ _ (by decide), field_low _ _ _ _ (by decide)]
  simp

@[simp] theorem zero_zero {k : Nat} (i : Instr) : zero (0 : BitVec k) i = .ok i := by simp [zero]

/-! ## Bytes -/

theorem length_bytesOf (k x : Nat) : (bytesOf k x).length = k := by
  induction k generalizing x with
  | zero => rfl
  | succ k ih => simp [bytesOf, ih]

theorem ofBytes_bytesOf (k : Nat) : ∀ x : Nat, x < 256 ^ k → ofBytes (bytesOf k x) = x := by
  induction k with
  | zero => intro x h; simp at h; simp [bytesOf, ofBytes, h]
  | succ k ih =>
    intro x h
    have h1 : x / 256 < 256 ^ k := by
      rw [Nat.div_lt_iff_lt_mul (by decide)]; rw [pow_succ] at h; exact h
    simp only [bytesOf, ofBytes, BitVec.toNat_ofNat, ih _ h1]
    omega

end Sys2Proof
end

