-- ==== Sys2Proof/Laws/State.lean ====
section
/-! SUPPORT. What each update of State leaves: one law for each field it does not write. -/

namespace Sys2Proof.Machine

/-! ## putWarp -/

@[simp] theorem State.putWarp_plat (s : State) (wid : Nat) (w : Warp) : (s.putWarp wid w).plat = s.plat := rfl
@[simp] theorem State.putWarp_cycle (s : State) (wid : Nat) (w : Warp) : (s.putWarp wid w).cycle = s.cycle := rfl
@[simp] theorem State.putWarp_mem (s : State) (wid : Nat) (w : Warp) : (s.putWarp wid w).mem = s.mem := rfl
@[simp] theorem State.putWarp_hub (s : State) (wid : Nat) (w : Warp) : (s.putWarp wid w).hub = s.hub := rfl
@[simp] theorem State.putWarp_ctxs (s : State) (wid : Nat) (w : Warp) : (s.putWarp wid w).ctxs = s.ctxs := rfl
@[simp] theorem State.putWarp_nodes (s : State) (wid : Nat) (w : Warp) : (s.putWarp wid w).nodes = s.nodes := rfl
@[simp] theorem State.putWarp_systems (s : State) (wid : Nat) (w : Warp) : (s.putWarp wid w).systems = s.systems := rfl
@[simp] theorem State.putWarp_frozen (s : State) (wid : Nat) (w : Warp) : (s.putWarp wid w).frozen = s.frozen := rfl
@[simp] theorem State.putWarp_raises (s : State) (wid : Nat) (w : Warp) : (s.putWarp wid w).raises = s.raises := rfl
@[simp] theorem State.putWarp_reaps (s : State) (wid : Nat) (w : Warp) : (s.putWarp wid w).reaps = s.reaps := rfl
@[simp] theorem State.putWarp_watchEvents (s : State) (wid : Nat) (w : Warp) : (s.putWarp wid w).watchEvents = s.watchEvents := rfl
@[simp] theorem State.putWarp_teams (s : State) (wid : Nat) (w : Warp) : (s.putWarp wid w).teams = s.teams := rfl
@[simp] theorem State.putWarp_cores (s : State) (wid : Nat) (w : Warp) : (s.putWarp wid w).cores = s.cores := rfl
@[simp] theorem State.putWarp_pu (s : State) (wid : Nat) (w : Warp) : (s.putWarp wid w).pu = s.pu := rfl
@[simp] theorem State.putWarp_links (s : State) (wid : Nat) (w : Warp) : (s.putWarp wid w).links = s.links := rfl
@[simp] theorem State.putWarp_l2 (s : State) (wid : Nat) (w : Warp) : (s.putWarp wid w).l2 = s.l2 := rfl
@[simp] theorem State.putWarp_hubTlb (s : State) (wid : Nat) (w : Warp) : (s.putWarp wid w).hubTlb = s.hubTlb := rfl
@[simp] theorem State.putWarp_pointers (s : State) (wid : Nat) (w : Warp) : (s.putWarp wid w).pointers = s.pointers := rfl
@[simp] theorem State.putWarp_moves (s : State) (wid : Nat) (w : Warp) : (s.putWarp wid w).moves = s.moves := rfl
@[simp] theorem State.putWarp_images (s : State) (wid : Nat) (w : Warp) : (s.putWarp wid w).images = s.images := rfl
@[simp] theorem State.putWarp_names (s : State) (wid : Nat) (w : Warp) : (s.putWarp wid w).names = s.names := rfl
@[simp] theorem State.putWarp_cur (s : State) (wid : Nat) (w : Warp) : (s.putWarp wid w).cur = s.cur := rfl
@[simp] theorem State.putWarp_agenda (s : State) (wid : Nat) (w : Warp) : (s.putWarp wid w).agenda = s.agenda := rfl
@[simp] theorem State.putWarp_paid (s : State) (wid : Nat) (w : Warp) : (s.putWarp wid w).paid = s.paid := rfl
@[simp] theorem State.putWarp_credit (s : State) (wid : Nat) (w : Warp) : (s.putWarp wid w).credit = s.credit := rfl
@[simp] theorem State.putWarp_sent (s : State) (wid : Nat) (w : Warp) : (s.putWarp wid w).sent = s.sent := rfl
@[simp] theorem State.putWarp_held (s : State) (wid : Nat) (w : Warp) : (s.putWarp wid w).held = s.held := rfl
@[simp] theorem State.putWarp_freeCtr (s : State) (wid : Nat) (w : Warp) : (s.putWarp wid w).freeCtr = s.freeCtr := rfl
@[simp] theorem State.putWarp_tick (s : State) (wid : Nat) (w : Warp) : (s.putWarp wid w).tick = s.tick := rfl
@[simp] theorem State.putWarp_rot (s : State) (wid : Nat) (w : Warp) : (s.putWarp wid w).rot = s.rot := rfl

/-! ## modWarp -/

@[simp] theorem State.modWarp_plat (s : State) (wid : Nat) (f : Warp → Warp) : (s.modWarp wid f).plat = s.plat := by unfold State.modWarp; split <;> rfl
@[simp] theorem State.modWarp_cycle (s : State) (wid : Nat) (f : Warp → Warp) : (s.modWarp wid f).cycle = s.cycle := by unfold State.modWarp; split <;> rfl
@[simp] theorem State.modWarp_mem (s : State) (wid : Nat) (f : Warp → Warp) : (s.modWarp wid f).mem = s.mem := by unfold State.modWarp; split <;> rfl
@[simp] theorem State.modWarp_hub (s : State) (wid : Nat) (f : Warp → Warp) : (s.modWarp wid f).hub = s.hub := by unfold State.modWarp; split <;> rfl
@[simp] theorem State.modWarp_ctxs (s : State) (wid : Nat) (f : Warp → Warp) : (s.modWarp wid f).ctxs = s.ctxs := by unfold State.modWarp; split <;> rfl
@[simp] theorem State.modWarp_nodes (s : State) (wid : Nat) (f : Warp → Warp) : (s.modWarp wid f).nodes = s.nodes := by unfold State.modWarp; split <;> rfl
@[simp] theorem State.modWarp_systems (s : State) (wid : Nat) (f : Warp → Warp) : (s.modWarp wid f).systems = s.systems := by unfold State.modWarp; split <;> rfl
@[simp] theorem State.modWarp_frozen (s : State) (wid : Nat) (f : Warp → Warp) : (s.modWarp wid f).frozen = s.frozen := by unfold State.modWarp; split <;> rfl
@[simp] theorem State.modWarp_raises (s : State) (wid : Nat) (f : Warp → Warp) : (s.modWarp wid f).raises = s.raises := by unfold State.modWarp; split <;> rfl
@[simp] theorem State.modWarp_reaps (s : State) (wid : Nat) (f : Warp → Warp) : (s.modWarp wid f).reaps = s.reaps := by unfold State.modWarp; split <;> rfl
@[simp] theorem State.modWarp_watchEvents (s : State) (wid : Nat) (f : Warp → Warp) : (s.modWarp wid f).watchEvents = s.watchEvents := by unfold State.modWarp; split <;> rfl
@[simp] theorem State.modWarp_teams (s : State) (wid : Nat) (f : Warp → Warp) : (s.modWarp wid f).teams = s.teams := by unfold State.modWarp; split <;> rfl
@[simp] theorem State.modWarp_cores (s : State) (wid : Nat) (f : Warp → Warp) : (s.modWarp wid f).cores = s.cores := by unfold State.modWarp; split <;> rfl
@[simp] theorem State.modWarp_pu (s : State) (wid : Nat) (f : Warp → Warp) : (s.modWarp wid f).pu = s.pu := by unfold State.modWarp; split <;> rfl
@[simp] theorem State.modWarp_links (s : State) (wid : Nat) (f : Warp → Warp) : (s.modWarp wid f).links = s.links := by unfold State.modWarp; split <;> rfl
@[simp] theorem State.modWarp_l2 (s : State) (wid : Nat) (f : Warp → Warp) : (s.modWarp wid f).l2 = s.l2 := by unfold State.modWarp; split <;> rfl
@[simp] theorem State.modWarp_hubTlb (s : State) (wid : Nat) (f : Warp → Warp) : (s.modWarp wid f).hubTlb = s.hubTlb := by unfold State.modWarp; split <;> rfl
@[simp] theorem State.modWarp_pointers (s : State) (wid : Nat) (f : Warp → Warp) : (s.modWarp wid f).pointers = s.pointers := by unfold State.modWarp; split <;> rfl
@[simp] theorem State.modWarp_moves (s : State) (wid : Nat) (f : Warp → Warp) : (s.modWarp wid f).moves = s.moves := by unfold State.modWarp; split <;> rfl
@[simp] theorem State.modWarp_images (s : State) (wid : Nat) (f : Warp → Warp) : (s.modWarp wid f).images = s.images := by unfold State.modWarp; split <;> rfl
@[simp] theorem State.modWarp_names (s : State) (wid : Nat) (f : Warp → Warp) : (s.modWarp wid f).names = s.names := by unfold State.modWarp; split <;> rfl
@[simp] theorem State.modWarp_cur (s : State) (wid : Nat) (f : Warp → Warp) : (s.modWarp wid f).cur = s.cur := by unfold State.modWarp; split <;> rfl
@[simp] theorem State.modWarp_agenda (s : State) (wid : Nat) (f : Warp → Warp) : (s.modWarp wid f).agenda = s.agenda := by unfold State.modWarp; split <;> rfl
@[simp] theorem State.modWarp_paid (s : State) (wid : Nat) (f : Warp → Warp) : (s.modWarp wid f).paid = s.paid := by unfold State.modWarp; split <;> rfl
@[simp] theorem State.modWarp_credit (s : State) (wid : Nat) (f : Warp → Warp) : (s.modWarp wid f).credit = s.credit := by unfold State.modWarp; split <;> rfl
@[simp] theorem State.modWarp_sent (s : State) (wid : Nat) (f : Warp → Warp) : (s.modWarp wid f).sent = s.sent := by unfold State.modWarp; split <;> rfl
@[simp] theorem State.modWarp_held (s : State) (wid : Nat) (f : Warp → Warp) : (s.modWarp wid f).held = s.held := by unfold State.modWarp; split <;> rfl
@[simp] theorem State.modWarp_freeCtr (s : State) (wid : Nat) (f : Warp → Warp) : (s.modWarp wid f).freeCtr = s.freeCtr := by unfold State.modWarp; split <;> rfl
@[simp] theorem State.modWarp_tick (s : State) (wid : Nat) (f : Warp → Warp) : (s.modWarp wid f).tick = s.tick := by unfold State.modWarp; split <;> rfl
@[simp] theorem State.modWarp_rot (s : State) (wid : Nat) (f : Warp → Warp) : (s.modWarp wid f).rot = s.rot := by unfold State.modWarp; split <;> rfl

/-! ## modPathAt -/

@[simp] theorem State.modPathAt_plat (s : State) (wid k : Nat) (f : Path → Path) : (s.modPathAt wid k f).plat = s.plat := State.modWarp_plat s wid _
@[simp] theorem State.modPathAt_cycle (s : State) (wid k : Nat) (f : Path → Path) : (s.modPathAt wid k f).cycle = s.cycle := State.modWarp_cycle s wid _
@[simp] theorem State.modPathAt_mem (s : State) (wid k : Nat) (f : Path → Path) : (s.modPathAt wid k f).mem = s.mem := State.modWarp_mem s wid _
@[simp] theorem State.modPathAt_hub (s : State) (wid k : Nat) (f : Path → Path) : (s.modPathAt wid k f).hub = s.hub := State.modWarp_hub s wid _
@[simp] theorem State.modPathAt_ctxs (s : State) (wid k : Nat) (f : Path → Path) : (s.modPathAt wid k f).ctxs = s.ctxs := State.modWarp_ctxs s wid _
@[simp] theorem State.modPathAt_nodes (s : State) (wid k : Nat) (f : Path → Path) : (s.modPathAt wid k f).nodes = s.nodes := State.modWarp_nodes s wid _
@[simp] theorem State.modPathAt_systems (s : State) (wid k : Nat) (f : Path → Path) : (s.modPathAt wid k f).systems = s.systems := State.modWarp_systems s wid _
@[simp] theorem State.modPathAt_frozen (s : State) (wid k : Nat) (f : Path → Path) : (s.modPathAt wid k f).frozen = s.frozen := State.modWarp_frozen s wid _
@[simp] theorem State.modPathAt_raises (s : State) (wid k : Nat) (f : Path → Path) : (s.modPathAt wid k f).raises = s.raises := State.modWarp_raises s wid _
@[simp] theorem State.modPathAt_reaps (s : State) (wid k : Nat) (f : Path → Path) : (s.modPathAt wid k f).reaps = s.reaps := State.modWarp_reaps s wid _
@[simp] theorem State.modPathAt_watchEvents (s : State) (wid k : Nat) (f : Path → Path) : (s.modPathAt wid k f).watchEvents = s.watchEvents := State.modWarp_watchEvents s wid _
@[simp] theorem State.modPathAt_teams (s : State) (wid k : Nat) (f : Path → Path) : (s.modPathAt wid k f).teams = s.teams := State.modWarp_teams s wid _
@[simp] theorem State.modPathAt_cores (s : State) (wid k : Nat) (f : Path → Path) : (s.modPathAt wid k f).cores = s.cores := State.modWarp_cores s wid _
@[simp] theorem State.modPathAt_pu (s : State) (wid k : Nat) (f : Path → Path) : (s.modPathAt wid k f).pu = s.pu := State.modWarp_pu s wid _
@[simp] theorem State.modPathAt_links (s : State) (wid k : Nat) (f : Path → Path) : (s.modPathAt wid k f).links = s.links := State.modWarp_links s wid _
@[simp] theorem State.modPathAt_l2 (s : State) (wid k : Nat) (f : Path → Path) : (s.modPathAt wid k f).l2 = s.l2 := State.modWarp_l2 s wid _
@[simp] theorem State.modPathAt_hubTlb (s : State) (wid k : Nat) (f : Path → Path) : (s.modPathAt wid k f).hubTlb = s.hubTlb := State.modWarp_hubTlb s wid _
@[simp] theorem State.modPathAt_pointers (s : State) (wid k : Nat) (f : Path → Path) : (s.modPathAt wid k f).pointers = s.pointers := State.modWarp_pointers s wid _
@[simp] theorem State.modPathAt_moves (s : State) (wid k : Nat) (f : Path → Path) : (s.modPathAt wid k f).moves = s.moves := State.modWarp_moves s wid _
@[simp] theorem State.modPathAt_images (s : State) (wid k : Nat) (f : Path → Path) : (s.modPathAt wid k f).images = s.images := State.modWarp_images s wid _
@[simp] theorem State.modPathAt_names (s : State) (wid k : Nat) (f : Path → Path) : (s.modPathAt wid k f).names = s.names := State.modWarp_names s wid _
@[simp] theorem State.modPathAt_cur (s : State) (wid k : Nat) (f : Path → Path) : (s.modPathAt wid k f).cur = s.cur := State.modWarp_cur s wid _
@[simp] theorem State.modPathAt_agenda (s : State) (wid k : Nat) (f : Path → Path) : (s.modPathAt wid k f).agenda = s.agenda := State.modWarp_agenda s wid _
@[simp] theorem State.modPathAt_paid (s : State) (wid k : Nat) (f : Path → Path) : (s.modPathAt wid k f).paid = s.paid := State.modWarp_paid s wid _
@[simp] theorem State.modPathAt_credit (s : State) (wid k : Nat) (f : Path → Path) : (s.modPathAt wid k f).credit = s.credit := State.modWarp_credit s wid _
@[simp] theorem State.modPathAt_sent (s : State) (wid k : Nat) (f : Path → Path) : (s.modPathAt wid k f).sent = s.sent := State.modWarp_sent s wid _
@[simp] theorem State.modPathAt_held (s : State) (wid k : Nat) (f : Path → Path) : (s.modPathAt wid k f).held = s.held := State.modWarp_held s wid _
@[simp] theorem State.modPathAt_freeCtr (s : State) (wid k : Nat) (f : Path → Path) : (s.modPathAt wid k f).freeCtr = s.freeCtr := State.modWarp_freeCtr s wid _
@[simp] theorem State.modPathAt_tick (s : State) (wid k : Nat) (f : Path → Path) : (s.modPathAt wid k f).tick = s.tick := State.modWarp_tick s wid _
@[simp] theorem State.modPathAt_rot (s : State) (wid k : Nat) (f : Path → Path) : (s.modPathAt wid k f).rot = s.rot := State.modWarp_rot s wid _

/-! ## modP -/

@[simp] theorem State.modP_plat (s : State) (f : Path → Path) : (s.modP f).plat = s.plat := State.modPathAt_plat s _ _ f
@[simp] theorem State.modP_cycle (s : State) (f : Path → Path) : (s.modP f).cycle = s.cycle := State.modPathAt_cycle s _ _ f
@[simp] theorem State.modP_mem (s : State) (f : Path → Path) : (s.modP f).mem = s.mem := State.modPathAt_mem s _ _ f
@[simp] theorem State.modP_hub (s : State) (f : Path → Path) : (s.modP f).hub = s.hub := State.modPathAt_hub s _ _ f
@[simp] theorem State.modP_ctxs (s : State) (f : Path → Path) : (s.modP f).ctxs = s.ctxs := State.modPathAt_ctxs s _ _ f
@[simp] theorem State.modP_nodes (s : State) (f : Path → Path) : (s.modP f).nodes = s.nodes := State.modPathAt_nodes s _ _ f
@[simp] theorem State.modP_systems (s : State) (f : Path → Path) : (s.modP f).systems = s.systems := State.modPathAt_systems s _ _ f
@[simp] theorem State.modP_frozen (s : State) (f : Path → Path) : (s.modP f).frozen = s.frozen := State.modPathAt_frozen s _ _ f
@[simp] theorem State.modP_raises (s : State) (f : Path → Path) : (s.modP f).raises = s.raises := State.modPathAt_raises s _ _ f
@[simp] theorem State.modP_reaps (s : State) (f : Path → Path) : (s.modP f).reaps = s.reaps := State.modPathAt_reaps s _ _ f
@[simp] theorem State.modP_watchEvents (s : State) (f : Path → Path) : (s.modP f).watchEvents = s.watchEvents := State.modPathAt_watchEvents s _ _ f
@[simp] theorem State.modP_teams (s : State) (f : Path → Path) : (s.modP f).teams = s.teams := State.modPathAt_teams s _ _ f
@[simp] theorem State.modP_cores (s : State) (f : Path → Path) : (s.modP f).cores = s.cores := State.modPathAt_cores s _ _ f
@[simp] theorem State.modP_pu (s : State) (f : Path → Path) : (s.modP f).pu = s.pu := State.modPathAt_pu s _ _ f
@[simp] theorem State.modP_links (s : State) (f : Path → Path) : (s.modP f).links = s.links := State.modPathAt_links s _ _ f
@[simp] theorem State.modP_l2 (s : State) (f : Path → Path) : (s.modP f).l2 = s.l2 := State.modPathAt_l2 s _ _ f
@[simp] theorem State.modP_hubTlb (s : State) (f : Path → Path) : (s.modP f).hubTlb = s.hubTlb := State.modPathAt_hubTlb s _ _ f
@[simp] theorem State.modP_pointers (s : State) (f : Path → Path) : (s.modP f).pointers = s.pointers := State.modPathAt_pointers s _ _ f
@[simp] theorem State.modP_moves (s : State) (f : Path → Path) : (s.modP f).moves = s.moves := State.modPathAt_moves s _ _ f
@[simp] theorem State.modP_images (s : State) (f : Path → Path) : (s.modP f).images = s.images := State.modPathAt_images s _ _ f
@[simp] theorem State.modP_names (s : State) (f : Path → Path) : (s.modP f).names = s.names := State.modPathAt_names s _ _ f
@[simp] theorem State.modP_cur (s : State) (f : Path → Path) : (s.modP f).cur = s.cur := State.modPathAt_cur s _ _ f
@[simp] theorem State.modP_agenda (s : State) (f : Path → Path) : (s.modP f).agenda = s.agenda := State.modPathAt_agenda s _ _ f
@[simp] theorem State.modP_paid (s : State) (f : Path → Path) : (s.modP f).paid = s.paid := State.modPathAt_paid s _ _ f
@[simp] theorem State.modP_credit (s : State) (f : Path → Path) : (s.modP f).credit = s.credit := State.modPathAt_credit s _ _ f
@[simp] theorem State.modP_sent (s : State) (f : Path → Path) : (s.modP f).sent = s.sent := State.modPathAt_sent s _ _ f
@[simp] theorem State.modP_held (s : State) (f : Path → Path) : (s.modP f).held = s.held := State.modPathAt_held s _ _ f
@[simp] theorem State.modP_freeCtr (s : State) (f : Path → Path) : (s.modP f).freeCtr = s.freeCtr := State.modPathAt_freeCtr s _ _ f
@[simp] theorem State.modP_tick (s : State) (f : Path → Path) : (s.modP f).tick = s.tick := State.modPathAt_tick s _ _ f
@[simp] theorem State.modP_rot (s : State) (f : Path → Path) : (s.modP f).rot = s.rot := State.modPathAt_rot s _ _ f

/-! ## modW -/

@[simp] theorem State.modW_plat (s : State) (f : Warp → Warp) : (s.modW f).plat = s.plat := State.modWarp_plat s _ f
@[simp] theorem State.modW_cycle (s : State) (f : Warp → Warp) : (s.modW f).cycle = s.cycle := State.modWarp_cycle s _ f
@[simp] theorem State.modW_mem (s : State) (f : Warp → Warp) : (s.modW f).mem = s.mem := State.modWarp_mem s _ f
@[simp] theorem State.modW_hub (s : State) (f : Warp → Warp) : (s.modW f).hub = s.hub := State.modWarp_hub s _ f
@[simp] theorem State.modW_ctxs (s : State) (f : Warp → Warp) : (s.modW f).ctxs = s.ctxs := State.modWarp_ctxs s _ f
@[simp] theorem State.modW_nodes (s : State) (f : Warp → Warp) : (s.modW f).nodes = s.nodes := State.modWarp_nodes s _ f
@[simp] theorem State.modW_systems (s : State) (f : Warp → Warp) : (s.modW f).systems = s.systems := State.modWarp_systems s _ f
@[simp] theorem State.modW_frozen (s : State) (f : Warp → Warp) : (s.modW f).frozen = s.frozen := State.modWarp_frozen s _ f
@[simp] theorem State.modW_raises (s : State) (f : Warp → Warp) : (s.modW f).raises = s.raises := State.modWarp_raises s _ f
@[simp] theorem State.modW_reaps (s : State) (f : Warp → Warp) : (s.modW f).reaps = s.reaps := State.modWarp_reaps s _ f
@[simp] theorem State.modW_watchEvents (s : State) (f : Warp → Warp) : (s.modW f).watchEvents = s.watchEvents := State.modWarp_watchEvents s _ f
@[simp] theorem State.modW_teams (s : State) (f : Warp → Warp) : (s.modW f).teams = s.teams := State.modWarp_teams s _ f
@[simp] theorem State.modW_cores (s : State) (f : Warp → Warp) : (s.modW f).cores = s.cores := State.modWarp_cores s _ f
@[simp] theorem State.modW_pu (s : State) (f : Warp → Warp) : (s.modW f).pu = s.pu := State.modWarp_pu s _ f
@[simp] theorem State.modW_links (s : State) (f : Warp → Warp) : (s.modW f).links = s.links := State.modWarp_links s _ f
@[simp] theorem State.modW_l2 (s : State) (f : Warp → Warp) : (s.modW f).l2 = s.l2 := State.modWarp_l2 s _ f
@[simp] theorem State.modW_hubTlb (s : State) (f : Warp → Warp) : (s.modW f).hubTlb = s.hubTlb := State.modWarp_hubTlb s _ f
@[simp] theorem State.modW_pointers (s : State) (f : Warp → Warp) : (s.modW f).pointers = s.pointers := State.modWarp_pointers s _ f
@[simp] theorem State.modW_moves (s : State) (f : Warp → Warp) : (s.modW f).moves = s.moves := State.modWarp_moves s _ f
@[simp] theorem State.modW_images (s : State) (f : Warp → Warp) : (s.modW f).images = s.images := State.modWarp_images s _ f
@[simp] theorem State.modW_names (s : State) (f : Warp → Warp) : (s.modW f).names = s.names := State.modWarp_names s _ f
@[simp] theorem State.modW_cur (s : State) (f : Warp → Warp) : (s.modW f).cur = s.cur := State.modWarp_cur s _ f
@[simp] theorem State.modW_agenda (s : State) (f : Warp → Warp) : (s.modW f).agenda = s.agenda := State.modWarp_agenda s _ f
@[simp] theorem State.modW_paid (s : State) (f : Warp → Warp) : (s.modW f).paid = s.paid := State.modWarp_paid s _ f
@[simp] theorem State.modW_credit (s : State) (f : Warp → Warp) : (s.modW f).credit = s.credit := State.modWarp_credit s _ f
@[simp] theorem State.modW_sent (s : State) (f : Warp → Warp) : (s.modW f).sent = s.sent := State.modWarp_sent s _ f
@[simp] theorem State.modW_held (s : State) (f : Warp → Warp) : (s.modW f).held = s.held := State.modWarp_held s _ f
@[simp] theorem State.modW_freeCtr (s : State) (f : Warp → Warp) : (s.modW f).freeCtr = s.freeCtr := State.modWarp_freeCtr s _ f
@[simp] theorem State.modW_tick (s : State) (f : Warp → Warp) : (s.modW f).tick = s.tick := State.modWarp_tick s _ f
@[simp] theorem State.modW_rot (s : State) (f : Warp → Warp) : (s.modW f).rot = s.rot := State.modWarp_rot s _ f

/-! ## setSN -/

@[simp] theorem State.setSN_plat (s : State) (n : Nat) (x : DWord) : (s.setSN n x).plat = s.plat := by unfold State.setSN; split <;> simp
@[simp] theorem State.setSN_cycle (s : State) (n : Nat) (x : DWord) : (s.setSN n x).cycle = s.cycle := by unfold State.setSN; split <;> simp
@[simp] theorem State.setSN_mem (s : State) (n : Nat) (x : DWord) : (s.setSN n x).mem = s.mem := by unfold State.setSN; split <;> simp
@[simp] theorem State.setSN_hub (s : State) (n : Nat) (x : DWord) : (s.setSN n x).hub = s.hub := by unfold State.setSN; split <;> simp
@[simp] theorem State.setSN_ctxs (s : State) (n : Nat) (x : DWord) : (s.setSN n x).ctxs = s.ctxs := by unfold State.setSN; split <;> simp
@[simp] theorem State.setSN_nodes (s : State) (n : Nat) (x : DWord) : (s.setSN n x).nodes = s.nodes := by unfold State.setSN; split <;> simp
@[simp] theorem State.setSN_systems (s : State) (n : Nat) (x : DWord) : (s.setSN n x).systems = s.systems := by unfold State.setSN; split <;> simp
@[simp] theorem State.setSN_frozen (s : State) (n : Nat) (x : DWord) : (s.setSN n x).frozen = s.frozen := by unfold State.setSN; split <;> simp
@[simp] theorem State.setSN_raises (s : State) (n : Nat) (x : DWord) : (s.setSN n x).raises = s.raises := by unfold State.setSN; split <;> simp
@[simp] theorem State.setSN_reaps (s : State) (n : Nat) (x : DWord) : (s.setSN n x).reaps = s.reaps := by unfold State.setSN; split <;> simp
@[simp] theorem State.setSN_watchEvents (s : State) (n : Nat) (x : DWord) : (s.setSN n x).watchEvents = s.watchEvents := by unfold State.setSN; split <;> simp
@[simp] theorem State.setSN_teams (s : State) (n : Nat) (x : DWord) : (s.setSN n x).teams = s.teams := by unfold State.setSN; split <;> simp
@[simp] theorem State.setSN_cores (s : State) (n : Nat) (x : DWord) : (s.setSN n x).cores = s.cores := by unfold State.setSN; split <;> simp
@[simp] theorem State.setSN_pu (s : State) (n : Nat) (x : DWord) : (s.setSN n x).pu = s.pu := by unfold State.setSN; split <;> simp
@[simp] theorem State.setSN_links (s : State) (n : Nat) (x : DWord) : (s.setSN n x).links = s.links := by unfold State.setSN; split <;> simp
@[simp] theorem State.setSN_l2 (s : State) (n : Nat) (x : DWord) : (s.setSN n x).l2 = s.l2 := by unfold State.setSN; split <;> simp
@[simp] theorem State.setSN_hubTlb (s : State) (n : Nat) (x : DWord) : (s.setSN n x).hubTlb = s.hubTlb := by unfold State.setSN; split <;> simp
@[simp] theorem State.setSN_pointers (s : State) (n : Nat) (x : DWord) : (s.setSN n x).pointers = s.pointers := by unfold State.setSN; split <;> simp
@[simp] theorem State.setSN_moves (s : State) (n : Nat) (x : DWord) : (s.setSN n x).moves = s.moves := by unfold State.setSN; split <;> simp
@[simp] theorem State.setSN_images (s : State) (n : Nat) (x : DWord) : (s.setSN n x).images = s.images := by unfold State.setSN; split <;> simp
@[simp] theorem State.setSN_names (s : State) (n : Nat) (x : DWord) : (s.setSN n x).names = s.names := by unfold State.setSN; split <;> simp
@[simp] theorem State.setSN_cur (s : State) (n : Nat) (x : DWord) : (s.setSN n x).cur = s.cur := by unfold State.setSN; split <;> simp
@[simp] theorem State.setSN_agenda (s : State) (n : Nat) (x : DWord) : (s.setSN n x).agenda = s.agenda := by unfold State.setSN; split <;> simp
@[simp] theorem State.setSN_paid (s : State) (n : Nat) (x : DWord) : (s.setSN n x).paid = s.paid := by unfold State.setSN; split <;> simp
@[simp] theorem State.setSN_credit (s : State) (n : Nat) (x : DWord) : (s.setSN n x).credit = s.credit := by unfold State.setSN; split <;> simp
@[simp] theorem State.setSN_sent (s : State) (n : Nat) (x : DWord) : (s.setSN n x).sent = s.sent := by unfold State.setSN; split <;> simp
@[simp] theorem State.setSN_held (s : State) (n : Nat) (x : DWord) : (s.setSN n x).held = s.held := by unfold State.setSN; split <;> simp
@[simp] theorem State.setSN_freeCtr (s : State) (n : Nat) (x : DWord) : (s.setSN n x).freeCtr = s.freeCtr := by unfold State.setSN; split <;> simp
@[simp] theorem State.setSN_tick (s : State) (n : Nat) (x : DWord) : (s.setSN n x).tick = s.tick := by unfold State.setSN; split <;> simp
@[simp] theorem State.setSN_rot (s : State) (n : Nat) (x : DWord) : (s.setSN n x).rot = s.rot := by unfold State.setSN; split <;> simp

/-! ## setS -/

@[simp] theorem State.setS_plat (s : State) (n : BitVec 6) (x : DWord) : (s.setS n x).plat = s.plat := State.setSN_plat s _ x
@[simp] theorem State.setS_cycle (s : State) (n : BitVec 6) (x : DWord) : (s.setS n x).cycle = s.cycle := State.setSN_cycle s _ x
@[simp] theorem State.setS_mem (s : State) (n : BitVec 6) (x : DWord) : (s.setS n x).mem = s.mem := State.setSN_mem s _ x
@[simp] theorem State.setS_hub (s : State) (n : BitVec 6) (x : DWord) : (s.setS n x).hub = s.hub := State.setSN_hub s _ x
@[simp] theorem State.setS_ctxs (s : State) (n : BitVec 6) (x : DWord) : (s.setS n x).ctxs = s.ctxs := State.setSN_ctxs s _ x
@[simp] theorem State.setS_nodes (s : State) (n : BitVec 6) (x : DWord) : (s.setS n x).nodes = s.nodes := State.setSN_nodes s _ x
@[simp] theorem State.setS_systems (s : State) (n : BitVec 6) (x : DWord) : (s.setS n x).systems = s.systems := State.setSN_systems s _ x
@[simp] theorem State.setS_frozen (s : State) (n : BitVec 6) (x : DWord) : (s.setS n x).frozen = s.frozen := State.setSN_frozen s _ x
@[simp] theorem State.setS_raises (s : State) (n : BitVec 6) (x : DWord) : (s.setS n x).raises = s.raises := State.setSN_raises s _ x
@[simp] theorem State.setS_reaps (s : State) (n : BitVec 6) (x : DWord) : (s.setS n x).reaps = s.reaps := State.setSN_reaps s _ x
@[simp] theorem State.setS_watchEvents (s : State) (n : BitVec 6) (x : DWord) : (s.setS n x).watchEvents = s.watchEvents := State.setSN_watchEvents s _ x
@[simp] theorem State.setS_teams (s : State) (n : BitVec 6) (x : DWord) : (s.setS n x).teams = s.teams := State.setSN_teams s _ x
@[simp] theorem State.setS_cores (s : State) (n : BitVec 6) (x : DWord) : (s.setS n x).cores = s.cores := State.setSN_cores s _ x
@[simp] theorem State.setS_pu (s : State) (n : BitVec 6) (x : DWord) : (s.setS n x).pu = s.pu := State.setSN_pu s _ x
@[simp] theorem State.setS_links (s : State) (n : BitVec 6) (x : DWord) : (s.setS n x).links = s.links := State.setSN_links s _ x
@[simp] theorem State.setS_l2 (s : State) (n : BitVec 6) (x : DWord) : (s.setS n x).l2 = s.l2 := State.setSN_l2 s _ x
@[simp] theorem State.setS_hubTlb (s : State) (n : BitVec 6) (x : DWord) : (s.setS n x).hubTlb = s.hubTlb := State.setSN_hubTlb s _ x
@[simp] theorem State.setS_pointers (s : State) (n : BitVec 6) (x : DWord) : (s.setS n x).pointers = s.pointers := State.setSN_pointers s _ x
@[simp] theorem State.setS_moves (s : State) (n : BitVec 6) (x : DWord) : (s.setS n x).moves = s.moves := State.setSN_moves s _ x
@[simp] theorem State.setS_images (s : State) (n : BitVec 6) (x : DWord) : (s.setS n x).images = s.images := State.setSN_images s _ x
@[simp] theorem State.setS_names (s : State) (n : BitVec 6) (x : DWord) : (s.setS n x).names = s.names := State.setSN_names s _ x
@[simp] theorem State.setS_cur (s : State) (n : BitVec 6) (x : DWord) : (s.setS n x).cur = s.cur := State.setSN_cur s _ x
@[simp] theorem State.setS_agenda (s : State) (n : BitVec 6) (x : DWord) : (s.setS n x).agenda = s.agenda := State.setSN_agenda s _ x
@[simp] theorem State.setS_paid (s : State) (n : BitVec 6) (x : DWord) : (s.setS n x).paid = s.paid := State.setSN_paid s _ x
@[simp] theorem State.setS_credit (s : State) (n : BitVec 6) (x : DWord) : (s.setS n x).credit = s.credit := State.setSN_credit s _ x
@[simp] theorem State.setS_sent (s : State) (n : BitVec 6) (x : DWord) : (s.setS n x).sent = s.sent := State.setSN_sent s _ x
@[simp] theorem State.setS_held (s : State) (n : BitVec 6) (x : DWord) : (s.setS n x).held = s.held := State.setSN_held s _ x
@[simp] theorem State.setS_freeCtr (s : State) (n : BitVec 6) (x : DWord) : (s.setS n x).freeCtr = s.freeCtr := State.setSN_freeCtr s _ x
@[simp] theorem State.setS_tick (s : State) (n : BitVec 6) (x : DWord) : (s.setS n x).tick = s.tick := State.setSN_tick s _ x
@[simp] theorem State.setS_rot (s : State) (n : BitVec 6) (x : DWord) : (s.setS n x).rot = s.rot := State.setSN_rot s _ x

/-! ## setA -/

@[simp] theorem State.setA_plat (s : State) (n : BitVec 4) (x : VAddr) : (s.setA n x).plat = s.plat := State.modW_plat s _
@[simp] theorem State.setA_cycle (s : State) (n : BitVec 4) (x : VAddr) : (s.setA n x).cycle = s.cycle := State.modW_cycle s _
@[simp] theorem State.setA_mem (s : State) (n : BitVec 4) (x : VAddr) : (s.setA n x).mem = s.mem := State.modW_mem s _
@[simp] theorem State.setA_hub (s : State) (n : BitVec 4) (x : VAddr) : (s.setA n x).hub = s.hub := State.modW_hub s _
@[simp] theorem State.setA_ctxs (s : State) (n : BitVec 4) (x : VAddr) : (s.setA n x).ctxs = s.ctxs := State.modW_ctxs s _
@[simp] theorem State.setA_nodes (s : State) (n : BitVec 4) (x : VAddr) : (s.setA n x).nodes = s.nodes := State.modW_nodes s _
@[simp] theorem State.setA_systems (s : State) (n : BitVec 4) (x : VAddr) : (s.setA n x).systems = s.systems := State.modW_systems s _
@[simp] theorem State.setA_frozen (s : State) (n : BitVec 4) (x : VAddr) : (s.setA n x).frozen = s.frozen := State.modW_frozen s _
@[simp] theorem State.setA_raises (s : State) (n : BitVec 4) (x : VAddr) : (s.setA n x).raises = s.raises := State.modW_raises s _
@[simp] theorem State.setA_reaps (s : State) (n : BitVec 4) (x : VAddr) : (s.setA n x).reaps = s.reaps := State.modW_reaps s _
@[simp] theorem State.setA_watchEvents (s : State) (n : BitVec 4) (x : VAddr) : (s.setA n x).watchEvents = s.watchEvents := State.modW_watchEvents s _
@[simp] theorem State.setA_teams (s : State) (n : BitVec 4) (x : VAddr) : (s.setA n x).teams = s.teams := State.modW_teams s _
@[simp] theorem State.setA_cores (s : State) (n : BitVec 4) (x : VAddr) : (s.setA n x).cores = s.cores := State.modW_cores s _
@[simp] theorem State.setA_pu (s : State) (n : BitVec 4) (x : VAddr) : (s.setA n x).pu = s.pu := State.modW_pu s _
@[simp] theorem State.setA_links (s : State) (n : BitVec 4) (x : VAddr) : (s.setA n x).links = s.links := State.modW_links s _
@[simp] theorem State.setA_l2 (s : State) (n : BitVec 4) (x : VAddr) : (s.setA n x).l2 = s.l2 := State.modW_l2 s _
@[simp] theorem State.setA_hubTlb (s : State) (n : BitVec 4) (x : VAddr) : (s.setA n x).hubTlb = s.hubTlb := State.modW_hubTlb s _
@[simp] theorem State.setA_pointers (s : State) (n : BitVec 4) (x : VAddr) : (s.setA n x).pointers = s.pointers := State.modW_pointers s _
@[simp] theorem State.setA_moves (s : State) (n : BitVec 4) (x : VAddr) : (s.setA n x).moves = s.moves := State.modW_moves s _
@[simp] theorem State.setA_images (s : State) (n : BitVec 4) (x : VAddr) : (s.setA n x).images = s.images := State.modW_images s _
@[simp] theorem State.setA_names (s : State) (n : BitVec 4) (x : VAddr) : (s.setA n x).names = s.names := State.modW_names s _
@[simp] theorem State.setA_cur (s : State) (n : BitVec 4) (x : VAddr) : (s.setA n x).cur = s.cur := State.modW_cur s _
@[simp] theorem State.setA_agenda (s : State) (n : BitVec 4) (x : VAddr) : (s.setA n x).agenda = s.agenda := State.modW_agenda s _
@[simp] theorem State.setA_paid (s : State) (n : BitVec 4) (x : VAddr) : (s.setA n x).paid = s.paid := State.modW_paid s _
@[simp] theorem State.setA_credit (s : State) (n : BitVec 4) (x : VAddr) : (s.setA n x).credit = s.credit := State.modW_credit s _
@[simp] theorem State.setA_sent (s : State) (n : BitVec 4) (x : VAddr) : (s.setA n x).sent = s.sent := State.modW_sent s _
@[simp] theorem State.setA_held (s : State) (n : BitVec 4) (x : VAddr) : (s.setA n x).held = s.held := State.modW_held s _
@[simp] theorem State.setA_freeCtr (s : State) (n : BitVec 4) (x : VAddr) : (s.setA n x).freeCtr = s.freeCtr := State.modW_freeCtr s _
@[simp] theorem State.setA_tick (s : State) (n : BitVec 4) (x : VAddr) : (s.setA n x).tick = s.tick := State.modW_tick s _
@[simp] theorem State.setA_rot (s : State) (n : BitVec 4) (x : VAddr) : (s.setA n x).rot = s.rot := State.modW_rot s _

/-! ## setQ -/

@[simp] theorem State.setQ_plat (s : State) (n : BitVec 3) (b : Bool) : (s.setQ n b).plat = s.plat := by unfold State.setQ; split <;> simp
@[simp] theorem State.setQ_cycle (s : State) (n : BitVec 3) (b : Bool) : (s.setQ n b).cycle = s.cycle := by unfold State.setQ; split <;> simp
@[simp] theorem State.setQ_mem (s : State) (n : BitVec 3) (b : Bool) : (s.setQ n b).mem = s.mem := by unfold State.setQ; split <;> simp
@[simp] theorem State.setQ_hub (s : State) (n : BitVec 3) (b : Bool) : (s.setQ n b).hub = s.hub := by unfold State.setQ; split <;> simp
@[simp] theorem State.setQ_ctxs (s : State) (n : BitVec 3) (b : Bool) : (s.setQ n b).ctxs = s.ctxs := by unfold State.setQ; split <;> simp
@[simp] theorem State.setQ_nodes (s : State) (n : BitVec 3) (b : Bool) : (s.setQ n b).nodes = s.nodes := by unfold State.setQ; split <;> simp
@[simp] theorem State.setQ_systems (s : State) (n : BitVec 3) (b : Bool) : (s.setQ n b).systems = s.systems := by unfold State.setQ; split <;> simp
@[simp] theorem State.setQ_frozen (s : State) (n : BitVec 3) (b : Bool) : (s.setQ n b).frozen = s.frozen := by unfold State.setQ; split <;> simp
@[simp] theorem State.setQ_raises (s : State) (n : BitVec 3) (b : Bool) : (s.setQ n b).raises = s.raises := by unfold State.setQ; split <;> simp
@[simp] theorem State.setQ_reaps (s : State) (n : BitVec 3) (b : Bool) : (s.setQ n b).reaps = s.reaps := by unfold State.setQ; split <;> simp
@[simp] theorem State.setQ_watchEvents (s : State) (n : BitVec 3) (b : Bool) : (s.setQ n b).watchEvents = s.watchEvents := by unfold State.setQ; split <;> simp
@[simp] theorem State.setQ_teams (s : State) (n : BitVec 3) (b : Bool) : (s.setQ n b).teams = s.teams := by unfold State.setQ; split <;> simp
@[simp] theorem State.setQ_cores (s : State) (n : BitVec 3) (b : Bool) : (s.setQ n b).cores = s.cores := by unfold State.setQ; split <;> simp
@[simp] theorem State.setQ_pu (s : State) (n : BitVec 3) (b : Bool) : (s.setQ n b).pu = s.pu := by unfold State.setQ; split <;> simp
@[simp] theorem State.setQ_links (s : State) (n : BitVec 3) (b : Bool) : (s.setQ n b).links = s.links := by unfold State.setQ; split <;> simp
@[simp] theorem State.setQ_l2 (s : State) (n : BitVec 3) (b : Bool) : (s.setQ n b).l2 = s.l2 := by unfold State.setQ; split <;> simp
@[simp] theorem State.setQ_hubTlb (s : State) (n : BitVec 3) (b : Bool) : (s.setQ n b).hubTlb = s.hubTlb := by unfold State.setQ; split <;> simp
@[simp] theorem State.setQ_pointers (s : State) (n : BitVec 3) (b : Bool) : (s.setQ n b).pointers = s.pointers := by unfold State.setQ; split <;> simp
@[simp] theorem State.setQ_moves (s : State) (n : BitVec 3) (b : Bool) : (s.setQ n b).moves = s.moves := by unfold State.setQ; split <;> simp
@[simp] theorem State.setQ_images (s : State) (n : BitVec 3) (b : Bool) : (s.setQ n b).images = s.images := by unfold State.setQ; split <;> simp
@[simp] theorem State.setQ_names (s : State) (n : BitVec 3) (b : Bool) : (s.setQ n b).names = s.names := by unfold State.setQ; split <;> simp
@[simp] theorem State.setQ_cur (s : State) (n : BitVec 3) (b : Bool) : (s.setQ n b).cur = s.cur := by unfold State.setQ; split <;> simp
@[simp] theorem State.setQ_agenda (s : State) (n : BitVec 3) (b : Bool) : (s.setQ n b).agenda = s.agenda := by unfold State.setQ; split <;> simp
@[simp] theorem State.setQ_paid (s : State) (n : BitVec 3) (b : Bool) : (s.setQ n b).paid = s.paid := by unfold State.setQ; split <;> simp
@[simp] theorem State.setQ_credit (s : State) (n : BitVec 3) (b : Bool) : (s.setQ n b).credit = s.credit := by unfold State.setQ; split <;> simp
@[simp] theorem State.setQ_sent (s : State) (n : BitVec 3) (b : Bool) : (s.setQ n b).sent = s.sent := by unfold State.setQ; split <;> simp
@[simp] theorem State.setQ_held (s : State) (n : BitVec 3) (b : Bool) : (s.setQ n b).held = s.held := by unfold State.setQ; split <;> simp
@[simp] theorem State.setQ_freeCtr (s : State) (n : BitVec 3) (b : Bool) : (s.setQ n b).freeCtr = s.freeCtr := by unfold State.setQ; split <;> simp
@[simp] theorem State.setQ_tick (s : State) (n : BitVec 3) (b : Bool) : (s.setQ n b).tick = s.tick := by unfold State.setQ; split <;> simp
@[simp] theorem State.setQ_rot (s : State) (n : BitVec 3) (b : Bool) : (s.setQ n b).rot = s.rot := by unfold State.setQ; split <;> simp

/-! ## wait -/

@[simp] theorem State.wait_plat (s : State) (c : Nat) : (s.wait c).plat = s.plat := State.modP_plat s _
@[simp] theorem State.wait_cycle (s : State) (c : Nat) : (s.wait c).cycle = s.cycle := State.modP_cycle s _
@[simp] theorem State.wait_mem (s : State) (c : Nat) : (s.wait c).mem = s.mem := State.modP_mem s _
@[simp] theorem State.wait_hub (s : State) (c : Nat) : (s.wait c).hub = s.hub := State.modP_hub s _
@[simp] theorem State.wait_ctxs (s : State) (c : Nat) : (s.wait c).ctxs = s.ctxs := State.modP_ctxs s _
@[simp] theorem State.wait_nodes (s : State) (c : Nat) : (s.wait c).nodes = s.nodes := State.modP_nodes s _
@[simp] theorem State.wait_systems (s : State) (c : Nat) : (s.wait c).systems = s.systems := State.modP_systems s _
@[simp] theorem State.wait_frozen (s : State) (c : Nat) : (s.wait c).frozen = s.frozen := State.modP_frozen s _
@[simp] theorem State.wait_raises (s : State) (c : Nat) : (s.wait c).raises = s.raises := State.modP_raises s _
@[simp] theorem State.wait_reaps (s : State) (c : Nat) : (s.wait c).reaps = s.reaps := State.modP_reaps s _
@[simp] theorem State.wait_watchEvents (s : State) (c : Nat) : (s.wait c).watchEvents = s.watchEvents := State.modP_watchEvents s _
@[simp] theorem State.wait_teams (s : State) (c : Nat) : (s.wait c).teams = s.teams := State.modP_teams s _
@[simp] theorem State.wait_cores (s : State) (c : Nat) : (s.wait c).cores = s.cores := State.modP_cores s _
@[simp] theorem State.wait_pu (s : State) (c : Nat) : (s.wait c).pu = s.pu := State.modP_pu s _
@[simp] theorem State.wait_links (s : State) (c : Nat) : (s.wait c).links = s.links := State.modP_links s _
@[simp] theorem State.wait_l2 (s : State) (c : Nat) : (s.wait c).l2 = s.l2 := State.modP_l2 s _
@[simp] theorem State.wait_hubTlb (s : State) (c : Nat) : (s.wait c).hubTlb = s.hubTlb := State.modP_hubTlb s _
@[simp] theorem State.wait_pointers (s : State) (c : Nat) : (s.wait c).pointers = s.pointers := State.modP_pointers s _
@[simp] theorem State.wait_moves (s : State) (c : Nat) : (s.wait c).moves = s.moves := State.modP_moves s _
@[simp] theorem State.wait_images (s : State) (c : Nat) : (s.wait c).images = s.images := State.modP_images s _
@[simp] theorem State.wait_names (s : State) (c : Nat) : (s.wait c).names = s.names := State.modP_names s _
@[simp] theorem State.wait_cur (s : State) (c : Nat) : (s.wait c).cur = s.cur := State.modP_cur s _
@[simp] theorem State.wait_agenda (s : State) (c : Nat) : (s.wait c).agenda = s.agenda := State.modP_agenda s _
@[simp] theorem State.wait_paid (s : State) (c : Nat) : (s.wait c).paid = s.paid := State.modP_paid s _
@[simp] theorem State.wait_credit (s : State) (c : Nat) : (s.wait c).credit = s.credit := State.modP_credit s _
@[simp] theorem State.wait_sent (s : State) (c : Nat) : (s.wait c).sent = s.sent := State.modP_sent s _
@[simp] theorem State.wait_held (s : State) (c : Nat) : (s.wait c).held = s.held := State.modP_held s _
@[simp] theorem State.wait_freeCtr (s : State) (c : Nat) : (s.wait c).freeCtr = s.freeCtr := State.modP_freeCtr s _
@[simp] theorem State.wait_tick (s : State) (c : Nat) : (s.wait c).tick = s.tick := State.modP_tick s _
@[simp] theorem State.wait_rot (s : State) (c : Nat) : (s.wait c).rot = s.rot := State.modP_rot s _

/-! ## waitLane -/

@[simp] theorem State.waitLane_plat (s : State) (c : Nat) : (s.waitLane c).plat = s.plat := State.modP_plat s _
@[simp] theorem State.waitLane_cycle (s : State) (c : Nat) : (s.waitLane c).cycle = s.cycle := State.modP_cycle s _
@[simp] theorem State.waitLane_mem (s : State) (c : Nat) : (s.waitLane c).mem = s.mem := State.modP_mem s _
@[simp] theorem State.waitLane_hub (s : State) (c : Nat) : (s.waitLane c).hub = s.hub := State.modP_hub s _
@[simp] theorem State.waitLane_ctxs (s : State) (c : Nat) : (s.waitLane c).ctxs = s.ctxs := State.modP_ctxs s _
@[simp] theorem State.waitLane_nodes (s : State) (c : Nat) : (s.waitLane c).nodes = s.nodes := State.modP_nodes s _
@[simp] theorem State.waitLane_systems (s : State) (c : Nat) : (s.waitLane c).systems = s.systems := State.modP_systems s _
@[simp] theorem State.waitLane_frozen (s : State) (c : Nat) : (s.waitLane c).frozen = s.frozen := State.modP_frozen s _
@[simp] theorem State.waitLane_raises (s : State) (c : Nat) : (s.waitLane c).raises = s.raises := State.modP_raises s _
@[simp] theorem State.waitLane_reaps (s : State) (c : Nat) : (s.waitLane c).reaps = s.reaps := State.modP_reaps s _
@[simp] theorem State.waitLane_watchEvents (s : State) (c : Nat) : (s.waitLane c).watchEvents = s.watchEvents := State.modP_watchEvents s _
@[simp] theorem State.waitLane_teams (s : State) (c : Nat) : (s.waitLane c).teams = s.teams := State.modP_teams s _
@[simp] theorem State.waitLane_cores (s : State) (c : Nat) : (s.waitLane c).cores = s.cores := State.modP_cores s _
@[simp] theorem State.waitLane_pu (s : State) (c : Nat) : (s.waitLane c).pu = s.pu := State.modP_pu s _
@[simp] theorem State.waitLane_links (s : State) (c : Nat) : (s.waitLane c).links = s.links := State.modP_links s _
@[simp] theorem State.waitLane_l2 (s : State) (c : Nat) : (s.waitLane c).l2 = s.l2 := State.modP_l2 s _
@[simp] theorem State.waitLane_hubTlb (s : State) (c : Nat) : (s.waitLane c).hubTlb = s.hubTlb := State.modP_hubTlb s _
@[simp] theorem State.waitLane_pointers (s : State) (c : Nat) : (s.waitLane c).pointers = s.pointers := State.modP_pointers s _
@[simp] theorem State.waitLane_moves (s : State) (c : Nat) : (s.waitLane c).moves = s.moves := State.modP_moves s _
@[simp] theorem State.waitLane_images (s : State) (c : Nat) : (s.waitLane c).images = s.images := State.modP_images s _
@[simp] theorem State.waitLane_names (s : State) (c : Nat) : (s.waitLane c).names = s.names := State.modP_names s _
@[simp] theorem State.waitLane_cur (s : State) (c : Nat) : (s.waitLane c).cur = s.cur := State.modP_cur s _
@[simp] theorem State.waitLane_agenda (s : State) (c : Nat) : (s.waitLane c).agenda = s.agenda := State.modP_agenda s _
@[simp] theorem State.waitLane_paid (s : State) (c : Nat) : (s.waitLane c).paid = s.paid := State.modP_paid s _
@[simp] theorem State.waitLane_credit (s : State) (c : Nat) : (s.waitLane c).credit = s.credit := State.modP_credit s _
@[simp] theorem State.waitLane_sent (s : State) (c : Nat) : (s.waitLane c).sent = s.sent := State.modP_sent s _
@[simp] theorem State.waitLane_held (s : State) (c : Nat) : (s.waitLane c).held = s.held := State.modP_held s _
@[simp] theorem State.waitLane_freeCtr (s : State) (c : Nat) : (s.waitLane c).freeCtr = s.freeCtr := State.modP_freeCtr s _
@[simp] theorem State.waitLane_tick (s : State) (c : Nat) : (s.waitLane c).tick = s.tick := State.modP_tick s _
@[simp] theorem State.waitLane_rot (s : State) (c : Nat) : (s.waitLane c).rot = s.rot := State.modP_rot s _

/-! ## setWindow -/

@[simp] theorem State.setWindow_plat (s : State) (d e : Window) : (s.setWindow d e).plat = s.plat := State.modP_plat s _
@[simp] theorem State.setWindow_cycle (s : State) (d e : Window) : (s.setWindow d e).cycle = s.cycle := State.modP_cycle s _
@[simp] theorem State.setWindow_mem (s : State) (d e : Window) : (s.setWindow d e).mem = s.mem := State.modP_mem s _
@[simp] theorem State.setWindow_hub (s : State) (d e : Window) : (s.setWindow d e).hub = s.hub := State.modP_hub s _
@[simp] theorem State.setWindow_ctxs (s : State) (d e : Window) : (s.setWindow d e).ctxs = s.ctxs := State.modP_ctxs s _
@[simp] theorem State.setWindow_nodes (s : State) (d e : Window) : (s.setWindow d e).nodes = s.nodes := State.modP_nodes s _
@[simp] theorem State.setWindow_systems (s : State) (d e : Window) : (s.setWindow d e).systems = s.systems := State.modP_systems s _
@[simp] theorem State.setWindow_frozen (s : State) (d e : Window) : (s.setWindow d e).frozen = s.frozen := State.modP_frozen s _
@[simp] theorem State.setWindow_raises (s : State) (d e : Window) : (s.setWindow d e).raises = s.raises := State.modP_raises s _
@[simp] theorem State.setWindow_reaps (s : State) (d e : Window) : (s.setWindow d e).reaps = s.reaps := State.modP_reaps s _
@[simp] theorem State.setWindow_watchEvents (s : State) (d e : Window) : (s.setWindow d e).watchEvents = s.watchEvents := State.modP_watchEvents s _
@[simp] theorem State.setWindow_teams (s : State) (d e : Window) : (s.setWindow d e).teams = s.teams := State.modP_teams s _
@[simp] theorem State.setWindow_cores (s : State) (d e : Window) : (s.setWindow d e).cores = s.cores := State.modP_cores s _
@[simp] theorem State.setWindow_pu (s : State) (d e : Window) : (s.setWindow d e).pu = s.pu := State.modP_pu s _
@[simp] theorem State.setWindow_links (s : State) (d e : Window) : (s.setWindow d e).links = s.links := State.modP_links s _
@[simp] theorem State.setWindow_l2 (s : State) (d e : Window) : (s.setWindow d e).l2 = s.l2 := State.modP_l2 s _
@[simp] theorem State.setWindow_hubTlb (s : State) (d e : Window) : (s.setWindow d e).hubTlb = s.hubTlb := State.modP_hubTlb s _
@[simp] theorem State.setWindow_pointers (s : State) (d e : Window) : (s.setWindow d e).pointers = s.pointers := State.modP_pointers s _
@[simp] theorem State.setWindow_moves (s : State) (d e : Window) : (s.setWindow d e).moves = s.moves := State.modP_moves s _
@[simp] theorem State.setWindow_images (s : State) (d e : Window) : (s.setWindow d e).images = s.images := State.modP_images s _
@[simp] theorem State.setWindow_names (s : State) (d e : Window) : (s.setWindow d e).names = s.names := State.modP_names s _
@[simp] theorem State.setWindow_cur (s : State) (d e : Window) : (s.setWindow d e).cur = s.cur := State.modP_cur s _
@[simp] theorem State.setWindow_agenda (s : State) (d e : Window) : (s.setWindow d e).agenda = s.agenda := State.modP_agenda s _
@[simp] theorem State.setWindow_paid (s : State) (d e : Window) : (s.setWindow d e).paid = s.paid := State.modP_paid s _
@[simp] theorem State.setWindow_credit (s : State) (d e : Window) : (s.setWindow d e).credit = s.credit := State.modP_credit s _
@[simp] theorem State.setWindow_sent (s : State) (d e : Window) : (s.setWindow d e).sent = s.sent := State.modP_sent s _
@[simp] theorem State.setWindow_held (s : State) (d e : Window) : (s.setWindow d e).held = s.held := State.modP_held s _
@[simp] theorem State.setWindow_freeCtr (s : State) (d e : Window) : (s.setWindow d e).freeCtr = s.freeCtr := State.modP_freeCtr s _
@[simp] theorem State.setWindow_tick (s : State) (d e : Window) : (s.setWindow d e).tick = s.tick := State.modP_tick s _
@[simp] theorem State.setWindow_rot (s : State) (d e : Window) : (s.setWindow d e).rot = s.rot := State.modP_rot s _

/-! ## modTeam -/

@[simp] theorem State.modTeam_plat (s : State) (t : Nat) (f : Team → Team) : (s.modTeam t f).plat = s.plat := by unfold State.modTeam; split <;> rfl
@[simp] theorem State.modTeam_cycle (s : State) (t : Nat) (f : Team → Team) : (s.modTeam t f).cycle = s.cycle := by unfold State.modTeam; split <;> rfl
@[simp] theorem State.modTeam_mem (s : State) (t : Nat) (f : Team → Team) : (s.modTeam t f).mem = s.mem := by unfold State.modTeam; split <;> rfl
@[simp] theorem State.modTeam_hub (s : State) (t : Nat) (f : Team → Team) : (s.modTeam t f).hub = s.hub := by unfold State.modTeam; split <;> rfl
@[simp] theorem State.modTeam_ctxs (s : State) (t : Nat) (f : Team → Team) : (s.modTeam t f).ctxs = s.ctxs := by unfold State.modTeam; split <;> rfl
@[simp] theorem State.modTeam_nodes (s : State) (t : Nat) (f : Team → Team) : (s.modTeam t f).nodes = s.nodes := by unfold State.modTeam; split <;> rfl
@[simp] theorem State.modTeam_systems (s : State) (t : Nat) (f : Team → Team) : (s.modTeam t f).systems = s.systems := by unfold State.modTeam; split <;> rfl
@[simp] theorem State.modTeam_frozen (s : State) (t : Nat) (f : Team → Team) : (s.modTeam t f).frozen = s.frozen := by unfold State.modTeam; split <;> rfl
@[simp] theorem State.modTeam_raises (s : State) (t : Nat) (f : Team → Team) : (s.modTeam t f).raises = s.raises := by unfold State.modTeam; split <;> rfl
@[simp] theorem State.modTeam_reaps (s : State) (t : Nat) (f : Team → Team) : (s.modTeam t f).reaps = s.reaps := by unfold State.modTeam; split <;> rfl
@[simp] theorem State.modTeam_watchEvents (s : State) (t : Nat) (f : Team → Team) : (s.modTeam t f).watchEvents = s.watchEvents := by unfold State.modTeam; split <;> rfl
@[simp] theorem State.modTeam_cores (s : State) (t : Nat) (f : Team → Team) : (s.modTeam t f).cores = s.cores := by unfold State.modTeam; split <;> rfl
@[simp] theorem State.modTeam_warps (s : State) (t : Nat) (f : Team → Team) : (s.modTeam t f).warps = s.warps := by unfold State.modTeam; split <;> rfl
@[simp] theorem State.modTeam_pu (s : State) (t : Nat) (f : Team → Team) : (s.modTeam t f).pu = s.pu := by unfold State.modTeam; split <;> rfl
@[simp] theorem State.modTeam_links (s : State) (t : Nat) (f : Team → Team) : (s.modTeam t f).links = s.links := by unfold State.modTeam; split <;> rfl
@[simp] theorem State.modTeam_l2 (s : State) (t : Nat) (f : Team → Team) : (s.modTeam t f).l2 = s.l2 := by unfold State.modTeam; split <;> rfl
@[simp] theorem State.modTeam_hubTlb (s : State) (t : Nat) (f : Team → Team) : (s.modTeam t f).hubTlb = s.hubTlb := by unfold State.modTeam; split <;> rfl
@[simp] theorem State.modTeam_pointers (s : State) (t : Nat) (f : Team → Team) : (s.modTeam t f).pointers = s.pointers := by unfold State.modTeam; split <;> rfl
@[simp] theorem State.modTeam_moves (s : State) (t : Nat) (f : Team → Team) : (s.modTeam t f).moves = s.moves := by unfold State.modTeam; split <;> rfl
@[simp] theorem State.modTeam_images (s : State) (t : Nat) (f : Team → Team) : (s.modTeam t f).images = s.images := by unfold State.modTeam; split <;> rfl
@[simp] theorem State.modTeam_names (s : State) (t : Nat) (f : Team → Team) : (s.modTeam t f).names = s.names := by unfold State.modTeam; split <;> rfl
@[simp] theorem State.modTeam_cur (s : State) (t : Nat) (f : Team → Team) : (s.modTeam t f).cur = s.cur := by unfold State.modTeam; split <;> rfl
@[simp] theorem State.modTeam_agenda (s : State) (t : Nat) (f : Team → Team) : (s.modTeam t f).agenda = s.agenda := by unfold State.modTeam; split <;> rfl
@[simp] theorem State.modTeam_paid (s : State) (t : Nat) (f : Team → Team) : (s.modTeam t f).paid = s.paid := by unfold State.modTeam; split <;> rfl
@[simp] theorem State.modTeam_credit (s : State) (t : Nat) (f : Team → Team) : (s.modTeam t f).credit = s.credit := by unfold State.modTeam; split <;> rfl
@[simp] theorem State.modTeam_sent (s : State) (t : Nat) (f : Team → Team) : (s.modTeam t f).sent = s.sent := by unfold State.modTeam; split <;> rfl
@[simp] theorem State.modTeam_held (s : State) (t : Nat) (f : Team → Team) : (s.modTeam t f).held = s.held := by unfold State.modTeam; split <;> rfl
@[simp] theorem State.modTeam_freeCtr (s : State) (t : Nat) (f : Team → Team) : (s.modTeam t f).freeCtr = s.freeCtr := by unfold State.modTeam; split <;> rfl
@[simp] theorem State.modTeam_tick (s : State) (t : Nat) (f : Team → Team) : (s.modTeam t f).tick = s.tick := by unfold State.modTeam; split <;> rfl
@[simp] theorem State.modTeam_rot (s : State) (t : Nat) (f : Team → Team) : (s.modTeam t f).rot = s.rot := by unfold State.modTeam; split <;> rfl

/-! ## progress -/

@[simp] theorem State.progress_plat (s : State) : (s.progress).plat = s.plat := by unfold State.progress; split <;> first | rfl | exact State.modTeam_plat s _ _
@[simp] theorem State.progress_cycle (s : State) : (s.progress).cycle = s.cycle := by unfold State.progress; split <;> first | rfl | exact State.modTeam_cycle s _ _
@[simp] theorem State.progress_mem (s : State) : (s.progress).mem = s.mem := by unfold State.progress; split <;> first | rfl | exact State.modTeam_mem s _ _
@[simp] theorem State.progress_hub (s : State) : (s.progress).hub = s.hub := by unfold State.progress; split <;> first | rfl | exact State.modTeam_hub s _ _
@[simp] theorem State.progress_ctxs (s : State) : (s.progress).ctxs = s.ctxs := by unfold State.progress; split <;> first | rfl | exact State.modTeam_ctxs s _ _
@[simp] theorem State.progress_nodes (s : State) : (s.progress).nodes = s.nodes := by unfold State.progress; split <;> first | rfl | exact State.modTeam_nodes s _ _
@[simp] theorem State.progress_systems (s : State) : (s.progress).systems = s.systems := by unfold State.progress; split <;> first | rfl | exact State.modTeam_systems s _ _
@[simp] theorem State.progress_frozen (s : State) : (s.progress).frozen = s.frozen := by unfold State.progress; split <;> first | rfl | exact State.modTeam_frozen s _ _
@[simp] theorem State.progress_raises (s : State) : (s.progress).raises = s.raises := by unfold State.progress; split <;> first | rfl | exact State.modTeam_raises s _ _
@[simp] theorem State.progress_reaps (s : State) : (s.progress).reaps = s.reaps := by unfold State.progress; split <;> first | rfl | exact State.modTeam_reaps s _ _
@[simp] theorem State.progress_watchEvents (s : State) : (s.progress).watchEvents = s.watchEvents := by unfold State.progress; split <;> first | rfl | exact State.modTeam_watchEvents s _ _
@[simp] theorem State.progress_cores (s : State) : (s.progress).cores = s.cores := by unfold State.progress; split <;> first | rfl | exact State.modTeam_cores s _ _
@[simp] theorem State.progress_warps (s : State) : (s.progress).warps = s.warps := by unfold State.progress; split <;> first | rfl | exact State.modTeam_warps s _ _
@[simp] theorem State.progress_pu (s : State) : (s.progress).pu = s.pu := by unfold State.progress; split <;> first | rfl | exact State.modTeam_pu s _ _
@[simp] theorem State.progress_links (s : State) : (s.progress).links = s.links := by unfold State.progress; split <;> first | rfl | exact State.modTeam_links s _ _
@[simp] theorem State.progress_l2 (s : State) : (s.progress).l2 = s.l2 := by unfold State.progress; split <;> first | rfl | exact State.modTeam_l2 s _ _
@[simp] theorem State.progress_hubTlb (s : State) : (s.progress).hubTlb = s.hubTlb := by unfold State.progress; split <;> first | rfl | exact State.modTeam_hubTlb s _ _
@[simp] theorem State.progress_pointers (s : State) : (s.progress).pointers = s.pointers := by unfold State.progress; split <;> first | rfl | exact State.modTeam_pointers s _ _
@[simp] theorem State.progress_moves (s : State) : (s.progress).moves = s.moves := by unfold State.progress; split <;> first | rfl | exact State.modTeam_moves s _ _
@[simp] theorem State.progress_images (s : State) : (s.progress).images = s.images := by unfold State.progress; split <;> first | rfl | exact State.modTeam_images s _ _
@[simp] theorem State.progress_names (s : State) : (s.progress).names = s.names := by unfold State.progress; split <;> first | rfl | exact State.modTeam_names s _ _
@[simp] theorem State.progress_cur (s : State) : (s.progress).cur = s.cur := by unfold State.progress; split <;> first | rfl | exact State.modTeam_cur s _ _
@[simp] theorem State.progress_agenda (s : State) : (s.progress).agenda = s.agenda := by unfold State.progress; split <;> first | rfl | exact State.modTeam_agenda s _ _
@[simp] theorem State.progress_paid (s : State) : (s.progress).paid = s.paid := by unfold State.progress; split <;> first | rfl | exact State.modTeam_paid s _ _
@[simp] theorem State.progress_credit (s : State) : (s.progress).credit = s.credit := by unfold State.progress; split <;> first | rfl | exact State.modTeam_credit s _ _
@[simp] theorem State.progress_sent (s : State) : (s.progress).sent = s.sent := by unfold State.progress; split <;> first | rfl | exact State.modTeam_sent s _ _
@[simp] theorem State.progress_held (s : State) : (s.progress).held = s.held := by unfold State.progress; split <;> first | rfl | exact State.modTeam_held s _ _
@[simp] theorem State.progress_freeCtr (s : State) : (s.progress).freeCtr = s.freeCtr := by unfold State.progress; split <;> first | rfl | exact State.modTeam_freeCtr s _ _
@[simp] theorem State.progress_tick (s : State) : (s.progress).tick = s.tick := by unfold State.progress; split <;> first | rfl | exact State.modTeam_tick s _ _
@[simp] theorem State.progress_rot (s : State) : (s.progress).rot = s.rot := by unfold State.progress; split <;> first | rfl | exact State.modTeam_rot s _ _

/-! ## puTick -/

@[simp] theorem State.puTick_plat (s : State) : (s.puTick).plat = s.plat := by unfold State.puTick; split <;> rfl
@[simp] theorem State.puTick_cycle (s : State) : (s.puTick).cycle = s.cycle := by unfold State.puTick; split <;> rfl
@[simp] theorem State.puTick_mem (s : State) : (s.puTick).mem = s.mem := by unfold State.puTick; split <;> rfl
@[simp] theorem State.puTick_hub (s : State) : (s.puTick).hub = s.hub := by unfold State.puTick; split <;> rfl
@[simp] theorem State.puTick_ctxs (s : State) : (s.puTick).ctxs = s.ctxs := by unfold State.puTick; split <;> rfl
@[simp] theorem State.puTick_nodes (s : State) : (s.puTick).nodes = s.nodes := by unfold State.puTick; split <;> rfl
@[simp] theorem State.puTick_systems (s : State) : (s.puTick).systems = s.systems := by unfold State.puTick; split <;> rfl
@[simp] theorem State.puTick_frozen (s : State) : (s.puTick).frozen = s.frozen := by unfold State.puTick; split <;> rfl
@[simp] theorem State.puTick_raises (s : State) : (s.puTick).raises = s.raises := by unfold State.puTick; split <;> rfl
@[simp] theorem State.puTick_reaps (s : State) : (s.puTick).reaps = s.reaps := by unfold State.puTick; split <;> rfl
@[simp] theorem State.puTick_watchEvents (s : State) : (s.puTick).watchEvents = s.watchEvents := by unfold State.puTick; split <;> rfl
@[simp] theorem State.puTick_teams (s : State) : (s.puTick).teams = s.teams := by unfold State.puTick; split <;> rfl
@[simp] theorem State.puTick_cores (s : State) : (s.puTick).cores = s.cores := by unfold State.puTick; split <;> rfl
@[simp] theorem State.puTick_warps (s : State) : (s.puTick).warps = s.warps := by unfold State.puTick; split <;> rfl
@[simp] theorem State.puTick_links (s : State) : (s.puTick).links = s.links := by unfold State.puTick; split <;> rfl
@[simp] theorem State.puTick_l2 (s : State) : (s.puTick).l2 = s.l2 := by unfold State.puTick; split <;> rfl
@[simp] theorem State.puTick_hubTlb (s : State) : (s.puTick).hubTlb = s.hubTlb := by unfold State.puTick; split <;> rfl
@[simp] theorem State.puTick_pointers (s : State) : (s.puTick).pointers = s.pointers := by unfold State.puTick; split <;> rfl
@[simp] theorem State.puTick_moves (s : State) : (s.puTick).moves = s.moves := by unfold State.puTick; split <;> rfl
@[simp] theorem State.puTick_images (s : State) : (s.puTick).images = s.images := by unfold State.puTick; split <;> rfl
@[simp] theorem State.puTick_names (s : State) : (s.puTick).names = s.names := by unfold State.puTick; split <;> rfl
@[simp] theorem State.puTick_cur (s : State) : (s.puTick).cur = s.cur := by unfold State.puTick; split <;> rfl
@[simp] theorem State.puTick_agenda (s : State) : (s.puTick).agenda = s.agenda := by unfold State.puTick; split <;> rfl
@[simp] theorem State.puTick_paid (s : State) : (s.puTick).paid = s.paid := by unfold State.puTick; split <;> rfl
@[simp] theorem State.puTick_credit (s : State) : (s.puTick).credit = s.credit := by unfold State.puTick; split <;> rfl
@[simp] theorem State.puTick_sent (s : State) : (s.puTick).sent = s.sent := by unfold State.puTick; split <;> rfl
@[simp] theorem State.puTick_held (s : State) : (s.puTick).held = s.held := by unfold State.puTick; split <;> rfl
@[simp] theorem State.puTick_freeCtr (s : State) : (s.puTick).freeCtr = s.freeCtr := by unfold State.puTick; split <;> rfl
@[simp] theorem State.puTick_tick (s : State) : (s.puTick).tick = s.tick := by unfold State.puTick; split <;> rfl
@[simp] theorem State.puTick_rot (s : State) : (s.puTick).rot = s.rot := by unfold State.puTick; split <;> rfl

/-! ## modCore -/

@[simp] theorem State.modCore_plat (s : State) (c : Nat) (f : Core → Core) : (s.modCore c f).plat = s.plat := rfl
@[simp] theorem State.modCore_cycle (s : State) (c : Nat) (f : Core → Core) : (s.modCore c f).cycle = s.cycle := rfl
@[simp] theorem State.modCore_mem (s : State) (c : Nat) (f : Core → Core) : (s.modCore c f).mem = s.mem := rfl
@[simp] theorem State.modCore_hub (s : State) (c : Nat) (f : Core → Core) : (s.modCore c f).hub = s.hub := rfl
@[simp] theorem State.modCore_ctxs (s : State) (c : Nat) (f : Core → Core) : (s.modCore c f).ctxs = s.ctxs := rfl
@[simp] theorem State.modCore_nodes (s : State) (c : Nat) (f : Core → Core) : (s.modCore c f).nodes = s.nodes := rfl
@[simp] theorem State.modCore_systems (s : State) (c : Nat) (f : Core → Core) : (s.modCore c f).systems = s.systems := rfl
@[simp] theorem State.modCore_frozen (s : State) (c : Nat) (f : Core → Core) : (s.modCore c f).frozen = s.frozen := rfl
@[simp] theorem State.modCore_raises (s : State) (c : Nat) (f : Core → Core) : (s.modCore c f).raises = s.raises := rfl
@[simp] theorem State.modCore_reaps (s : State) (c : Nat) (f : Core → Core) : (s.modCore c f).reaps = s.reaps := rfl
@[simp] theorem State.modCore_watchEvents (s : State) (c : Nat) (f : Core → Core) : (s.modCore c f).watchEvents = s.watchEvents := rfl
@[simp] theorem State.modCore_teams (s : State) (c : Nat) (f : Core → Core) : (s.modCore c f).teams = s.teams := rfl
@[simp] theorem State.modCore_warps (s : State) (c : Nat) (f : Core → Core) : (s.modCore c f).warps = s.warps := rfl
@[simp] theorem State.modCore_pu (s : State) (c : Nat) (f : Core → Core) : (s.modCore c f).pu = s.pu := rfl
@[simp] theorem State.modCore_links (s : State) (c : Nat) (f : Core → Core) : (s.modCore c f).links = s.links := rfl
@[simp] theorem State.modCore_l2 (s : State) (c : Nat) (f : Core → Core) : (s.modCore c f).l2 = s.l2 := rfl
@[simp] theorem State.modCore_hubTlb (s : State) (c : Nat) (f : Core → Core) : (s.modCore c f).hubTlb = s.hubTlb := rfl
@[simp] theorem State.modCore_pointers (s : State) (c : Nat) (f : Core → Core) : (s.modCore c f).pointers = s.pointers := rfl
@[simp] theorem State.modCore_moves (s : State) (c : Nat) (f : Core → Core) : (s.modCore c f).moves = s.moves := rfl
@[simp] theorem State.modCore_images (s : State) (c : Nat) (f : Core → Core) : (s.modCore c f).images = s.images := rfl
@[simp] theorem State.modCore_names (s : State) (c : Nat) (f : Core → Core) : (s.modCore c f).names = s.names := rfl
@[simp] theorem State.modCore_cur (s : State) (c : Nat) (f : Core → Core) : (s.modCore c f).cur = s.cur := rfl
@[simp] theorem State.modCore_agenda (s : State) (c : Nat) (f : Core → Core) : (s.modCore c f).agenda = s.agenda := rfl
@[simp] theorem State.modCore_paid (s : State) (c : Nat) (f : Core → Core) : (s.modCore c f).paid = s.paid := rfl
@[simp] theorem State.modCore_credit (s : State) (c : Nat) (f : Core → Core) : (s.modCore c f).credit = s.credit := rfl
@[simp] theorem State.modCore_sent (s : State) (c : Nat) (f : Core → Core) : (s.modCore c f).sent = s.sent := rfl
@[simp] theorem State.modCore_held (s : State) (c : Nat) (f : Core → Core) : (s.modCore c f).held = s.held := rfl
@[simp] theorem State.modCore_freeCtr (s : State) (c : Nat) (f : Core → Core) : (s.modCore c f).freeCtr = s.freeCtr := rfl
@[simp] theorem State.modCore_tick (s : State) (c : Nat) (f : Core → Core) : (s.modCore c f).tick = s.tick := rfl
@[simp] theorem State.modCore_rot (s : State) (c : Nat) (f : Core → Core) : (s.modCore c f).rot = s.rot := rfl

/-! ## modCtx -/

@[simp] theorem State.modCtx_plat (s : State) (c : Nat) (f : Ctx → Ctx) : (s.modCtx c f).plat = s.plat := rfl
@[simp] theorem State.modCtx_cycle (s : State) (c : Nat) (f : Ctx → Ctx) : (s.modCtx c f).cycle = s.cycle := rfl
@[simp] theorem State.modCtx_mem (s : State) (c : Nat) (f : Ctx → Ctx) : (s.modCtx c f).mem = s.mem := rfl
@[simp] theorem State.modCtx_hub (s : State) (c : Nat) (f : Ctx → Ctx) : (s.modCtx c f).hub = s.hub := rfl
@[simp] theorem State.modCtx_nodes (s : State) (c : Nat) (f : Ctx → Ctx) : (s.modCtx c f).nodes = s.nodes := rfl
@[simp] theorem State.modCtx_systems (s : State) (c : Nat) (f : Ctx → Ctx) : (s.modCtx c f).systems = s.systems := rfl
@[simp] theorem State.modCtx_frozen (s : State) (c : Nat) (f : Ctx → Ctx) : (s.modCtx c f).frozen = s.frozen := rfl
@[simp] theorem State.modCtx_raises (s : State) (c : Nat) (f : Ctx → Ctx) : (s.modCtx c f).raises = s.raises := rfl
@[simp] theorem State.modCtx_reaps (s : State) (c : Nat) (f : Ctx → Ctx) : (s.modCtx c f).reaps = s.reaps := rfl
@[simp] theorem State.modCtx_watchEvents (s : State) (c : Nat) (f : Ctx → Ctx) : (s.modCtx c f).watchEvents = s.watchEvents := rfl
@[simp] theorem State.modCtx_teams (s : State) (c : Nat) (f : Ctx → Ctx) : (s.modCtx c f).teams = s.teams := rfl
@[simp] theorem State.modCtx_cores (s : State) (c : Nat) (f : Ctx → Ctx) : (s.modCtx c f).cores = s.cores := rfl
@[simp] theorem State.modCtx_warps (s : State) (c : Nat) (f : Ctx → Ctx) : (s.modCtx c f).warps = s.warps := rfl
@[simp] theorem State.modCtx_pu (s : State) (c : Nat) (f : Ctx → Ctx) : (s.modCtx c f).pu = s.pu := rfl
@[simp] theorem State.modCtx_links (s : State) (c : Nat) (f : Ctx → Ctx) : (s.modCtx c f).links = s.links := rfl
@[simp] theorem State.modCtx_l2 (s : State) (c : Nat) (f : Ctx → Ctx) : (s.modCtx c f).l2 = s.l2 := rfl
@[simp] theorem State.modCtx_hubTlb (s : State) (c : Nat) (f : Ctx → Ctx) : (s.modCtx c f).hubTlb = s.hubTlb := rfl
@[simp] theorem State.modCtx_pointers (s : State) (c : Nat) (f : Ctx → Ctx) : (s.modCtx c f).pointers = s.pointers := rfl
@[simp] theorem State.modCtx_moves (s : State) (c : Nat) (f : Ctx → Ctx) : (s.modCtx c f).moves = s.moves := rfl
@[simp] theorem State.modCtx_images (s : State) (c : Nat) (f : Ctx → Ctx) : (s.modCtx c f).images = s.images := rfl
@[simp] theorem State.modCtx_names (s : State) (c : Nat) (f : Ctx → Ctx) : (s.modCtx c f).names = s.names := rfl
@[simp] theorem State.modCtx_cur (s : State) (c : Nat) (f : Ctx → Ctx) : (s.modCtx c f).cur = s.cur := rfl
@[simp] theorem State.modCtx_agenda (s : State) (c : Nat) (f : Ctx → Ctx) : (s.modCtx c f).agenda = s.agenda := rfl
@[simp] theorem State.modCtx_paid (s : State) (c : Nat) (f : Ctx → Ctx) : (s.modCtx c f).paid = s.paid := rfl
@[simp] theorem State.modCtx_credit (s : State) (c : Nat) (f : Ctx → Ctx) : (s.modCtx c f).credit = s.credit := rfl
@[simp] theorem State.modCtx_sent (s : State) (c : Nat) (f : Ctx → Ctx) : (s.modCtx c f).sent = s.sent := rfl
@[simp] theorem State.modCtx_held (s : State) (c : Nat) (f : Ctx → Ctx) : (s.modCtx c f).held = s.held := rfl
@[simp] theorem State.modCtx_freeCtr (s : State) (c : Nat) (f : Ctx → Ctx) : (s.modCtx c f).freeCtr = s.freeCtr := rfl
@[simp] theorem State.modCtx_tick (s : State) (c : Nat) (f : Ctx → Ctx) : (s.modCtx c f).tick = s.tick := rfl
@[simp] theorem State.modCtx_rot (s : State) (c : Nat) (f : Ctx → Ctx) : (s.modCtx c f).rot = s.rot := rfl

/-! ## modQueue -/

@[simp] theorem State.modQueue_plat (s : State) (c q : Nat) (f : Queue → Queue) : (s.modQueue c q f).plat = s.plat := rfl
@[simp] theorem State.modQueue_cycle (s : State) (c q : Nat) (f : Queue → Queue) : (s.modQueue c q f).cycle = s.cycle := rfl
@[simp] theorem State.modQueue_mem (s : State) (c q : Nat) (f : Queue → Queue) : (s.modQueue c q f).mem = s.mem := rfl
@[simp] theorem State.modQueue_hub (s : State) (c q : Nat) (f : Queue → Queue) : (s.modQueue c q f).hub = s.hub := rfl
@[simp] theorem State.modQueue_nodes (s : State) (c q : Nat) (f : Queue → Queue) : (s.modQueue c q f).nodes = s.nodes := rfl
@[simp] theorem State.modQueue_systems (s : State) (c q : Nat) (f : Queue → Queue) : (s.modQueue c q f).systems = s.systems := rfl
@[simp] theorem State.modQueue_frozen (s : State) (c q : Nat) (f : Queue → Queue) : (s.modQueue c q f).frozen = s.frozen := rfl
@[simp] theorem State.modQueue_raises (s : State) (c q : Nat) (f : Queue → Queue) : (s.modQueue c q f).raises = s.raises := rfl
@[simp] theorem State.modQueue_reaps (s : State) (c q : Nat) (f : Queue → Queue) : (s.modQueue c q f).reaps = s.reaps := rfl
@[simp] theorem State.modQueue_watchEvents (s : State) (c q : Nat) (f : Queue → Queue) : (s.modQueue c q f).watchEvents = s.watchEvents := rfl
@[simp] theorem State.modQueue_teams (s : State) (c q : Nat) (f : Queue → Queue) : (s.modQueue c q f).teams = s.teams := rfl
@[simp] theorem State.modQueue_cores (s : State) (c q : Nat) (f : Queue → Queue) : (s.modQueue c q f).cores = s.cores := rfl
@[simp] theorem State.modQueue_warps (s : State) (c q : Nat) (f : Queue → Queue) : (s.modQueue c q f).warps = s.warps := rfl
@[simp] theorem State.modQueue_pu (s : State) (c q : Nat) (f : Queue → Queue) : (s.modQueue c q f).pu = s.pu := rfl
@[simp] theorem State.modQueue_links (s : State) (c q : Nat) (f : Queue → Queue) : (s.modQueue c q f).links = s.links := rfl
@[simp] theorem State.modQueue_l2 (s : State) (c q : Nat) (f : Queue → Queue) : (s.modQueue c q f).l2 = s.l2 := rfl
@[simp] theorem State.modQueue_hubTlb (s : State) (c q : Nat) (f : Queue → Queue) : (s.modQueue c q f).hubTlb = s.hubTlb := rfl
@[simp] theorem State.modQueue_pointers (s : State) (c q : Nat) (f : Queue → Queue) : (s.modQueue c q f).pointers = s.pointers := rfl
@[simp] theorem State.modQueue_moves (s : State) (c q : Nat) (f : Queue → Queue) : (s.modQueue c q f).moves = s.moves := rfl
@[simp] theorem State.modQueue_images (s : State) (c q : Nat) (f : Queue → Queue) : (s.modQueue c q f).images = s.images := rfl
@[simp] theorem State.modQueue_names (s : State) (c q : Nat) (f : Queue → Queue) : (s.modQueue c q f).names = s.names := rfl
@[simp] theorem State.modQueue_cur (s : State) (c q : Nat) (f : Queue → Queue) : (s.modQueue c q f).cur = s.cur := rfl
@[simp] theorem State.modQueue_agenda (s : State) (c q : Nat) (f : Queue → Queue) : (s.modQueue c q f).agenda = s.agenda := rfl
@[simp] theorem State.modQueue_paid (s : State) (c q : Nat) (f : Queue → Queue) : (s.modQueue c q f).paid = s.paid := rfl
@[simp] theorem State.modQueue_credit (s : State) (c q : Nat) (f : Queue → Queue) : (s.modQueue c q f).credit = s.credit := rfl
@[simp] theorem State.modQueue_sent (s : State) (c q : Nat) (f : Queue → Queue) : (s.modQueue c q f).sent = s.sent := rfl
@[simp] theorem State.modQueue_held (s : State) (c q : Nat) (f : Queue → Queue) : (s.modQueue c q f).held = s.held := rfl
@[simp] theorem State.modQueue_freeCtr (s : State) (c q : Nat) (f : Queue → Queue) : (s.modQueue c q f).freeCtr = s.freeCtr := rfl
@[simp] theorem State.modQueue_tick (s : State) (c q : Nat) (f : Queue → Queue) : (s.modQueue c q f).tick = s.tick := rfl
@[simp] theorem State.modQueue_rot (s : State) (c q : Nat) (f : Queue → Queue) : (s.modQueue c q f).rot = s.rot := rfl

/-! ## modMem -/

@[simp] theorem State.modMem_plat (s : State) (f : Mem → Mem) : (s.modMem f).plat = s.plat := rfl
@[simp] theorem State.modMem_cycle (s : State) (f : Mem → Mem) : (s.modMem f).cycle = s.cycle := rfl
@[simp] theorem State.modMem_hub (s : State) (f : Mem → Mem) : (s.modMem f).hub = s.hub := rfl
@[simp] theorem State.modMem_ctxs (s : State) (f : Mem → Mem) : (s.modMem f).ctxs = s.ctxs := rfl
@[simp] theorem State.modMem_nodes (s : State) (f : Mem → Mem) : (s.modMem f).nodes = s.nodes := rfl
@[simp] theorem State.modMem_systems (s : State) (f : Mem → Mem) : (s.modMem f).systems = s.systems := rfl
@[simp] theorem State.modMem_frozen (s : State) (f : Mem → Mem) : (s.modMem f).frozen = s.frozen := rfl
@[simp] theorem State.modMem_raises (s : State) (f : Mem → Mem) : (s.modMem f).raises = s.raises := rfl
@[simp] theorem State.modMem_reaps (s : State) (f : Mem → Mem) : (s.modMem f).reaps = s.reaps := rfl
@[simp] theorem State.modMem_watchEvents (s : State) (f : Mem → Mem) : (s.modMem f).watchEvents = s.watchEvents := rfl
@[simp] theorem State.modMem_teams (s : State) (f : Mem → Mem) : (s.modMem f).teams = s.teams := rfl
@[simp] theorem State.modMem_cores (s : State) (f : Mem → Mem) : (s.modMem f).cores = s.cores := rfl
@[simp] theorem State.modMem_warps (s : State) (f : Mem → Mem) : (s.modMem f).warps = s.warps := rfl
@[simp] theorem State.modMem_pu (s : State) (f : Mem → Mem) : (s.modMem f).pu = s.pu := rfl
@[simp] theorem State.modMem_links (s : State) (f : Mem → Mem) : (s.modMem f).links = s.links := rfl
@[simp] theorem State.modMem_l2 (s : State) (f : Mem → Mem) : (s.modMem f).l2 = s.l2 := rfl
@[simp] theorem State.modMem_hubTlb (s : State) (f : Mem → Mem) : (s.modMem f).hubTlb = s.hubTlb := rfl
@[simp] theorem State.modMem_pointers (s : State) (f : Mem → Mem) : (s.modMem f).pointers = s.pointers := rfl
@[simp] theorem State.modMem_moves (s : State) (f : Mem → Mem) : (s.modMem f).moves = s.moves := rfl
@[simp] theorem State.modMem_images (s : State) (f : Mem → Mem) : (s.modMem f).images = s.images := rfl
@[simp] theorem State.modMem_names (s : State) (f : Mem → Mem) : (s.modMem f).names = s.names := rfl
@[simp] theorem State.modMem_cur (s : State) (f : Mem → Mem) : (s.modMem f).cur = s.cur := rfl
@[simp] theorem State.modMem_agenda (s : State) (f : Mem → Mem) : (s.modMem f).agenda = s.agenda := rfl
@[simp] theorem State.modMem_paid (s : State) (f : Mem → Mem) : (s.modMem f).paid = s.paid := rfl
@[simp] theorem State.modMem_credit (s : State) (f : Mem → Mem) : (s.modMem f).credit = s.credit := rfl
@[simp] theorem State.modMem_sent (s : State) (f : Mem → Mem) : (s.modMem f).sent = s.sent := rfl
@[simp] theorem State.modMem_held (s : State) (f : Mem → Mem) : (s.modMem f).held = s.held := rfl
@[simp] theorem State.modMem_freeCtr (s : State) (f : Mem → Mem) : (s.modMem f).freeCtr = s.freeCtr := rfl
@[simp] theorem State.modMem_tick (s : State) (f : Mem → Mem) : (s.modMem f).tick = s.tick := rfl
@[simp] theorem State.modMem_rot (s : State) (f : Mem → Mem) : (s.modMem f).rot = s.rot := rfl

/-! ## modNode -/

@[simp] theorem State.modNode_plat (s : State) (c n : Nat) (f : Node → Node) : (s.modNode c n f).plat = s.plat := rfl
@[simp] theorem State.modNode_cycle (s : State) (c n : Nat) (f : Node → Node) : (s.modNode c n f).cycle = s.cycle := rfl
@[simp] theorem State.modNode_mem (s : State) (c n : Nat) (f : Node → Node) : (s.modNode c n f).mem = s.mem := rfl
@[simp] theorem State.modNode_hub (s : State) (c n : Nat) (f : Node → Node) : (s.modNode c n f).hub = s.hub := rfl
@[simp] theorem State.modNode_ctxs (s : State) (c n : Nat) (f : Node → Node) : (s.modNode c n f).ctxs = s.ctxs := rfl
@[simp] theorem State.modNode_systems (s : State) (c n : Nat) (f : Node → Node) : (s.modNode c n f).systems = s.systems := rfl
@[simp] theorem State.modNode_frozen (s : State) (c n : Nat) (f : Node → Node) : (s.modNode c n f).frozen = s.frozen := rfl
@[simp] theorem State.modNode_raises (s : State) (c n : Nat) (f : Node → Node) : (s.modNode c n f).raises = s.raises := rfl
@[simp] theorem State.modNode_reaps (s : State) (c n : Nat) (f : Node → Node) : (s.modNode c n f).reaps = s.reaps := rfl
@[simp] theorem State.modNode_watchEvents (s : State) (c n : Nat) (f : Node → Node) : (s.modNode c n f).watchEvents = s.watchEvents := rfl
@[simp] theorem State.modNode_teams (s : State) (c n : Nat) (f : Node → Node) : (s.modNode c n f).teams = s.teams := rfl
@[simp] theorem State.modNode_cores (s : State) (c n : Nat) (f : Node → Node) : (s.modNode c n f).cores = s.cores := rfl
@[simp] theorem State.modNode_warps (s : State) (c n : Nat) (f : Node → Node) : (s.modNode c n f).warps = s.warps := rfl
@[simp] theorem State.modNode_pu (s : State) (c n : Nat) (f : Node → Node) : (s.modNode c n f).pu = s.pu := rfl
@[simp] theorem State.modNode_links (s : State) (c n : Nat) (f : Node → Node) : (s.modNode c n f).links = s.links := rfl
@[simp] theorem State.modNode_l2 (s : State) (c n : Nat) (f : Node → Node) : (s.modNode c n f).l2 = s.l2 := rfl
@[simp] theorem State.modNode_hubTlb (s : State) (c n : Nat) (f : Node → Node) : (s.modNode c n f).hubTlb = s.hubTlb := rfl
@[simp] theorem State.modNode_pointers (s : State) (c n : Nat) (f : Node → Node) : (s.modNode c n f).pointers = s.pointers := rfl
@[simp] theorem State.modNode_moves (s : State) (c n : Nat) (f : Node → Node) : (s.modNode c n f).moves = s.moves := rfl
@[simp] theorem State.modNode_images (s : State) (c n : Nat) (f : Node → Node) : (s.modNode c n f).images = s.images := rfl
@[simp] theorem State.modNode_names (s : State) (c n : Nat) (f : Node → Node) : (s.modNode c n f).names = s.names := rfl
@[simp] theorem State.modNode_cur (s : State) (c n : Nat) (f : Node → Node) : (s.modNode c n f).cur = s.cur := rfl
@[simp] theorem State.modNode_agenda (s : State) (c n : Nat) (f : Node → Node) : (s.modNode c n f).agenda = s.agenda := rfl
@[simp] theorem State.modNode_paid (s : State) (c n : Nat) (f : Node → Node) : (s.modNode c n f).paid = s.paid := rfl
@[simp] theorem State.modNode_credit (s : State) (c n : Nat) (f : Node → Node) : (s.modNode c n f).credit = s.credit := rfl
@[simp] theorem State.modNode_sent (s : State) (c n : Nat) (f : Node → Node) : (s.modNode c n f).sent = s.sent := rfl
@[simp] theorem State.modNode_held (s : State) (c n : Nat) (f : Node → Node) : (s.modNode c n f).held = s.held := rfl
@[simp] theorem State.modNode_freeCtr (s : State) (c n : Nat) (f : Node → Node) : (s.modNode c n f).freeCtr = s.freeCtr := rfl
@[simp] theorem State.modNode_tick (s : State) (c n : Nat) (f : Node → Node) : (s.modNode c n f).tick = s.tick := rfl
@[simp] theorem State.modNode_rot (s : State) (c n : Nat) (f : Node → Node) : (s.modNode c n f).rot = s.rot := rfl

/-! ## modSys -/

@[simp] theorem State.modSys_plat (s : State) (n : Nat) (f : Sys → Sys) : (s.modSys n f).plat = s.plat := by unfold State.modSys; split <;> rfl
@[simp] theorem State.modSys_cycle (s : State) (n : Nat) (f : Sys → Sys) : (s.modSys n f).cycle = s.cycle := by unfold State.modSys; split <;> rfl
@[simp] theorem State.modSys_mem (s : State) (n : Nat) (f : Sys → Sys) : (s.modSys n f).mem = s.mem := by unfold State.modSys; split <;> rfl
@[simp] theorem State.modSys_hub (s : State) (n : Nat) (f : Sys → Sys) : (s.modSys n f).hub = s.hub := by unfold State.modSys; split <;> rfl
@[simp] theorem State.modSys_ctxs (s : State) (n : Nat) (f : Sys → Sys) : (s.modSys n f).ctxs = s.ctxs := by unfold State.modSys; split <;> rfl
@[simp] theorem State.modSys_nodes (s : State) (n : Nat) (f : Sys → Sys) : (s.modSys n f).nodes = s.nodes := by unfold State.modSys; split <;> rfl
@[simp] theorem State.modSys_frozen (s : State) (n : Nat) (f : Sys → Sys) : (s.modSys n f).frozen = s.frozen := by unfold State.modSys; split <;> rfl
@[simp] theorem State.modSys_raises (s : State) (n : Nat) (f : Sys → Sys) : (s.modSys n f).raises = s.raises := by unfold State.modSys; split <;> rfl
@[simp] theorem State.modSys_reaps (s : State) (n : Nat) (f : Sys → Sys) : (s.modSys n f).reaps = s.reaps := by unfold State.modSys; split <;> rfl
@[simp] theorem State.modSys_watchEvents (s : State) (n : Nat) (f : Sys → Sys) : (s.modSys n f).watchEvents = s.watchEvents := by unfold State.modSys; split <;> rfl
@[simp] theorem State.modSys_teams (s : State) (n : Nat) (f : Sys → Sys) : (s.modSys n f).teams = s.teams := by unfold State.modSys; split <;> rfl
@[simp] theorem State.modSys_cores (s : State) (n : Nat) (f : Sys → Sys) : (s.modSys n f).cores = s.cores := by unfold State.modSys; split <;> rfl
@[simp] theorem State.modSys_warps (s : State) (n : Nat) (f : Sys → Sys) : (s.modSys n f).warps = s.warps := by unfold State.modSys; split <;> rfl
@[simp] theorem State.modSys_pu (s : State) (n : Nat) (f : Sys → Sys) : (s.modSys n f).pu = s.pu := by unfold State.modSys; split <;> rfl
@[simp] theorem State.modSys_links (s : State) (n : Nat) (f : Sys → Sys) : (s.modSys n f).links = s.links := by unfold State.modSys; split <;> rfl
@[simp] theorem State.modSys_l2 (s : State) (n : Nat) (f : Sys → Sys) : (s.modSys n f).l2 = s.l2 := by unfold State.modSys; split <;> rfl
@[simp] theorem State.modSys_hubTlb (s : State) (n : Nat) (f : Sys → Sys) : (s.modSys n f).hubTlb = s.hubTlb := by unfold State.modSys; split <;> rfl
@[simp] theorem State.modSys_pointers (s : State) (n : Nat) (f : Sys → Sys) : (s.modSys n f).pointers = s.pointers := by unfold State.modSys; split <;> rfl
@[simp] theorem State.modSys_moves (s : State) (n : Nat) (f : Sys → Sys) : (s.modSys n f).moves = s.moves := by unfold State.modSys; split <;> rfl
@[simp] theorem State.modSys_images (s : State) (n : Nat) (f : Sys → Sys) : (s.modSys n f).images = s.images := by unfold State.modSys; split <;> rfl
@[simp] theorem State.modSys_names (s : State) (n : Nat) (f : Sys → Sys) : (s.modSys n f).names = s.names := by unfold State.modSys; split <;> rfl
@[simp] theorem State.modSys_cur (s : State) (n : Nat) (f : Sys → Sys) : (s.modSys n f).cur = s.cur := by unfold State.modSys; split <;> rfl
@[simp] theorem State.modSys_agenda (s : State) (n : Nat) (f : Sys → Sys) : (s.modSys n f).agenda = s.agenda := by unfold State.modSys; split <;> rfl
@[simp] theorem State.modSys_paid (s : State) (n : Nat) (f : Sys → Sys) : (s.modSys n f).paid = s.paid := by unfold State.modSys; split <;> rfl
@[simp] theorem State.modSys_credit (s : State) (n : Nat) (f : Sys → Sys) : (s.modSys n f).credit = s.credit := by unfold State.modSys; split <;> rfl
@[simp] theorem State.modSys_sent (s : State) (n : Nat) (f : Sys → Sys) : (s.modSys n f).sent = s.sent := by unfold State.modSys; split <;> rfl
@[simp] theorem State.modSys_held (s : State) (n : Nat) (f : Sys → Sys) : (s.modSys n f).held = s.held := by unfold State.modSys; split <;> rfl
@[simp] theorem State.modSys_freeCtr (s : State) (n : Nat) (f : Sys → Sys) : (s.modSys n f).freeCtr = s.freeCtr := by unfold State.modSys; split <;> rfl
@[simp] theorem State.modSys_tick (s : State) (n : Nat) (f : Sys → Sys) : (s.modSys n f).tick = s.tick := by unfold State.modSys; split <;> rfl
@[simp] theorem State.modSys_rot (s : State) (n : Nat) (f : Sys → Sys) : (s.modSys n f).rot = s.rot := by unfold State.modSys; split <;> rfl

/-! ## modPlot -/

@[simp] theorem State.modPlot_plat (s : State) (n i : Nat) (f : Plot → Plot) : (s.modPlot n i f).plat = s.plat := State.modSys_plat s n _
@[simp] theorem State.modPlot_cycle (s : State) (n i : Nat) (f : Plot → Plot) : (s.modPlot n i f).cycle = s.cycle := State.modSys_cycle s n _
@[simp] theorem State.modPlot_mem (s : State) (n i : Nat) (f : Plot → Plot) : (s.modPlot n i f).mem = s.mem := State.modSys_mem s n _
@[simp] theorem State.modPlot_hub (s : State) (n i : Nat) (f : Plot → Plot) : (s.modPlot n i f).hub = s.hub := State.modSys_hub s n _
@[simp] theorem State.modPlot_ctxs (s : State) (n i : Nat) (f : Plot → Plot) : (s.modPlot n i f).ctxs = s.ctxs := State.modSys_ctxs s n _
@[simp] theorem State.modPlot_nodes (s : State) (n i : Nat) (f : Plot → Plot) : (s.modPlot n i f).nodes = s.nodes := State.modSys_nodes s n _
@[simp] theorem State.modPlot_frozen (s : State) (n i : Nat) (f : Plot → Plot) : (s.modPlot n i f).frozen = s.frozen := State.modSys_frozen s n _
@[simp] theorem State.modPlot_raises (s : State) (n i : Nat) (f : Plot → Plot) : (s.modPlot n i f).raises = s.raises := State.modSys_raises s n _
@[simp] theorem State.modPlot_reaps (s : State) (n i : Nat) (f : Plot → Plot) : (s.modPlot n i f).reaps = s.reaps := State.modSys_reaps s n _
@[simp] theorem State.modPlot_watchEvents (s : State) (n i : Nat) (f : Plot → Plot) : (s.modPlot n i f).watchEvents = s.watchEvents := State.modSys_watchEvents s n _
@[simp] theorem State.modPlot_teams (s : State) (n i : Nat) (f : Plot → Plot) : (s.modPlot n i f).teams = s.teams := State.modSys_teams s n _
@[simp] theorem State.modPlot_cores (s : State) (n i : Nat) (f : Plot → Plot) : (s.modPlot n i f).cores = s.cores := State.modSys_cores s n _
@[simp] theorem State.modPlot_warps (s : State) (n i : Nat) (f : Plot → Plot) : (s.modPlot n i f).warps = s.warps := State.modSys_warps s n _
@[simp] theorem State.modPlot_pu (s : State) (n i : Nat) (f : Plot → Plot) : (s.modPlot n i f).pu = s.pu := State.modSys_pu s n _
@[simp] theorem State.modPlot_links (s : State) (n i : Nat) (f : Plot → Plot) : (s.modPlot n i f).links = s.links := State.modSys_links s n _
@[simp] theorem State.modPlot_l2 (s : State) (n i : Nat) (f : Plot → Plot) : (s.modPlot n i f).l2 = s.l2 := State.modSys_l2 s n _
@[simp] theorem State.modPlot_hubTlb (s : State) (n i : Nat) (f : Plot → Plot) : (s.modPlot n i f).hubTlb = s.hubTlb := State.modSys_hubTlb s n _
@[simp] theorem State.modPlot_pointers (s : State) (n i : Nat) (f : Plot → Plot) : (s.modPlot n i f).pointers = s.pointers := State.modSys_pointers s n _
@[simp] theorem State.modPlot_moves (s : State) (n i : Nat) (f : Plot → Plot) : (s.modPlot n i f).moves = s.moves := State.modSys_moves s n _
@[simp] theorem State.modPlot_images (s : State) (n i : Nat) (f : Plot → Plot) : (s.modPlot n i f).images = s.images := State.modSys_images s n _
@[simp] theorem State.modPlot_names (s : State) (n i : Nat) (f : Plot → Plot) : (s.modPlot n i f).names = s.names := State.modSys_names s n _
@[simp] theorem State.modPlot_cur (s : State) (n i : Nat) (f : Plot → Plot) : (s.modPlot n i f).cur = s.cur := State.modSys_cur s n _
@[simp] theorem State.modPlot_agenda (s : State) (n i : Nat) (f : Plot → Plot) : (s.modPlot n i f).agenda = s.agenda := State.modSys_agenda s n _
@[simp] theorem State.modPlot_paid (s : State) (n i : Nat) (f : Plot → Plot) : (s.modPlot n i f).paid = s.paid := State.modSys_paid s n _
@[simp] theorem State.modPlot_credit (s : State) (n i : Nat) (f : Plot → Plot) : (s.modPlot n i f).credit = s.credit := State.modSys_credit s n _
@[simp] theorem State.modPlot_sent (s : State) (n i : Nat) (f : Plot → Plot) : (s.modPlot n i f).sent = s.sent := State.modSys_sent s n _
@[simp] theorem State.modPlot_held (s : State) (n i : Nat) (f : Plot → Plot) : (s.modPlot n i f).held = s.held := State.modSys_held s n _
@[simp] theorem State.modPlot_freeCtr (s : State) (n i : Nat) (f : Plot → Plot) : (s.modPlot n i f).freeCtr = s.freeCtr := State.modSys_freeCtr s n _
@[simp] theorem State.modPlot_tick (s : State) (n i : Nat) (f : Plot → Plot) : (s.modPlot n i f).tick = s.tick := State.modSys_tick s n _
@[simp] theorem State.modPlot_rot (s : State) (n i : Nat) (f : Plot → Plot) : (s.modPlot n i f).rot = s.rot := State.modSys_rot s n _

/-! ## modLink -/

@[simp] theorem State.modLink_plat (s : State) (n : Nat) (f : Link → Link) : (s.modLink n f).plat = s.plat := rfl
@[simp] theorem State.modLink_cycle (s : State) (n : Nat) (f : Link → Link) : (s.modLink n f).cycle = s.cycle := rfl
@[simp] theorem State.modLink_mem (s : State) (n : Nat) (f : Link → Link) : (s.modLink n f).mem = s.mem := rfl
@[simp] theorem State.modLink_hub (s : State) (n : Nat) (f : Link → Link) : (s.modLink n f).hub = s.hub := rfl
@[simp] theorem State.modLink_ctxs (s : State) (n : Nat) (f : Link → Link) : (s.modLink n f).ctxs = s.ctxs := rfl
@[simp] theorem State.modLink_nodes (s : State) (n : Nat) (f : Link → Link) : (s.modLink n f).nodes = s.nodes := rfl
@[simp] theorem State.modLink_systems (s : State) (n : Nat) (f : Link → Link) : (s.modLink n f).systems = s.systems := rfl
@[simp] theorem State.modLink_frozen (s : State) (n : Nat) (f : Link → Link) : (s.modLink n f).frozen = s.frozen := rfl
@[simp] theorem State.modLink_raises (s : State) (n : Nat) (f : Link → Link) : (s.modLink n f).raises = s.raises := rfl
@[simp] theorem State.modLink_reaps (s : State) (n : Nat) (f : Link → Link) : (s.modLink n f).reaps = s.reaps := rfl
@[simp] theorem State.modLink_watchEvents (s : State) (n : Nat) (f : Link → Link) : (s.modLink n f).watchEvents = s.watchEvents := rfl
@[simp] theorem State.modLink_teams (s : State) (n : Nat) (f : Link → Link) : (s.modLink n f).teams = s.teams := rfl
@[simp] theorem State.modLink_cores (s : State) (n : Nat) (f : Link → Link) : (s.modLink n f).cores = s.cores := rfl
@[simp] theorem State.modLink_warps (s : State) (n : Nat) (f : Link → Link) : (s.modLink n f).warps = s.warps := rfl
@[simp] theorem State.modLink_pu (s : State) (n : Nat) (f : Link → Link) : (s.modLink n f).pu = s.pu := rfl
@[simp] theorem State.modLink_l2 (s : State) (n : Nat) (f : Link → Link) : (s.modLink n f).l2 = s.l2 := rfl
@[simp] theorem State.modLink_hubTlb (s : State) (n : Nat) (f : Link → Link) : (s.modLink n f).hubTlb = s.hubTlb := rfl
@[simp] theorem State.modLink_pointers (s : State) (n : Nat) (f : Link → Link) : (s.modLink n f).pointers = s.pointers := rfl
@[simp] theorem State.modLink_moves (s : State) (n : Nat) (f : Link → Link) : (s.modLink n f).moves = s.moves := rfl
@[simp] theorem State.modLink_images (s : State) (n : Nat) (f : Link → Link) : (s.modLink n f).images = s.images := rfl
@[simp] theorem State.modLink_names (s : State) (n : Nat) (f : Link → Link) : (s.modLink n f).names = s.names := rfl
@[simp] theorem State.modLink_cur (s : State) (n : Nat) (f : Link → Link) : (s.modLink n f).cur = s.cur := rfl
@[simp] theorem State.modLink_agenda (s : State) (n : Nat) (f : Link → Link) : (s.modLink n f).agenda = s.agenda := rfl
@[simp] theorem State.modLink_paid (s : State) (n : Nat) (f : Link → Link) : (s.modLink n f).paid = s.paid := rfl
@[simp] theorem State.modLink_credit (s : State) (n : Nat) (f : Link → Link) : (s.modLink n f).credit = s.credit := rfl
@[simp] theorem State.modLink_sent (s : State) (n : Nat) (f : Link → Link) : (s.modLink n f).sent = s.sent := rfl
@[simp] theorem State.modLink_held (s : State) (n : Nat) (f : Link → Link) : (s.modLink n f).held = s.held := rfl
@[simp] theorem State.modLink_freeCtr (s : State) (n : Nat) (f : Link → Link) : (s.modLink n f).freeCtr = s.freeCtr := rfl
@[simp] theorem State.modLink_tick (s : State) (n : Nat) (f : Link → Link) : (s.modLink n f).tick = s.tick := rfl
@[simp] theorem State.modLink_rot (s : State) (n : Nat) (f : Link → Link) : (s.modLink n f).rot = s.rot := rfl

/-! ## waitOutside -/

@[simp] theorem State.waitOutside_plat (s : State) (w : Waiter) : (s.waitOutside w).plat = s.plat := rfl
@[simp] theorem State.waitOutside_cycle (s : State) (w : Waiter) : (s.waitOutside w).cycle = s.cycle := rfl
@[simp] theorem State.waitOutside_mem (s : State) (w : Waiter) : (s.waitOutside w).mem = s.mem := rfl
@[simp] theorem State.waitOutside_hub (s : State) (w : Waiter) : (s.waitOutside w).hub = s.hub := rfl
@[simp] theorem State.waitOutside_ctxs (s : State) (w : Waiter) : (s.waitOutside w).ctxs = s.ctxs := rfl
@[simp] theorem State.waitOutside_nodes (s : State) (w : Waiter) : (s.waitOutside w).nodes = s.nodes := rfl
@[simp] theorem State.waitOutside_systems (s : State) (w : Waiter) : (s.waitOutside w).systems = s.systems := rfl
@[simp] theorem State.waitOutside_frozen (s : State) (w : Waiter) : (s.waitOutside w).frozen = s.frozen := rfl
@[simp] theorem State.waitOutside_raises (s : State) (w : Waiter) : (s.waitOutside w).raises = s.raises := rfl
@[simp] theorem State.waitOutside_reaps (s : State) (w : Waiter) : (s.waitOutside w).reaps = s.reaps := rfl
@[simp] theorem State.waitOutside_watchEvents (s : State) (w : Waiter) : (s.waitOutside w).watchEvents = s.watchEvents := rfl
@[simp] theorem State.waitOutside_teams (s : State) (w : Waiter) : (s.waitOutside w).teams = s.teams := rfl
@[simp] theorem State.waitOutside_cores (s : State) (w : Waiter) : (s.waitOutside w).cores = s.cores := rfl
@[simp] theorem State.waitOutside_warps (s : State) (w : Waiter) : (s.waitOutside w).warps = s.warps := rfl
@[simp] theorem State.waitOutside_pu (s : State) (w : Waiter) : (s.waitOutside w).pu = s.pu := rfl
@[simp] theorem State.waitOutside_l2 (s : State) (w : Waiter) : (s.waitOutside w).l2 = s.l2 := rfl
@[simp] theorem State.waitOutside_hubTlb (s : State) (w : Waiter) : (s.waitOutside w).hubTlb = s.hubTlb := rfl
@[simp] theorem State.waitOutside_pointers (s : State) (w : Waiter) : (s.waitOutside w).pointers = s.pointers := rfl
@[simp] theorem State.waitOutside_moves (s : State) (w : Waiter) : (s.waitOutside w).moves = s.moves := rfl
@[simp] theorem State.waitOutside_images (s : State) (w : Waiter) : (s.waitOutside w).images = s.images := rfl
@[simp] theorem State.waitOutside_names (s : State) (w : Waiter) : (s.waitOutside w).names = s.names := rfl
@[simp] theorem State.waitOutside_cur (s : State) (w : Waiter) : (s.waitOutside w).cur = s.cur := rfl
@[simp] theorem State.waitOutside_agenda (s : State) (w : Waiter) : (s.waitOutside w).agenda = s.agenda := rfl
@[simp] theorem State.waitOutside_paid (s : State) (w : Waiter) : (s.waitOutside w).paid = s.paid := rfl
@[simp] theorem State.waitOutside_credit (s : State) (w : Waiter) : (s.waitOutside w).credit = s.credit := rfl
@[simp] theorem State.waitOutside_sent (s : State) (w : Waiter) : (s.waitOutside w).sent = s.sent := rfl
@[simp] theorem State.waitOutside_held (s : State) (w : Waiter) : (s.waitOutside w).held = s.held := rfl
@[simp] theorem State.waitOutside_freeCtr (s : State) (w : Waiter) : (s.waitOutside w).freeCtr = s.freeCtr := rfl
@[simp] theorem State.waitOutside_tick (s : State) (w : Waiter) : (s.waitOutside w).tick = s.tick := rfl
@[simp] theorem State.waitOutside_rot (s : State) (w : Waiter) : (s.waitOutside w).rot = s.rot := rfl

/-! ## dropLines -/

@[simp] theorem State.dropLines_plat (s : State) (c pa n : Nat) : (s.dropLines c pa n).plat = s.plat := by unfold State.dropLines; split <;> rfl
@[simp] theorem State.dropLines_cycle (s : State) (c pa n : Nat) : (s.dropLines c pa n).cycle = s.cycle := by unfold State.dropLines; split <;> rfl
@[simp] theorem State.dropLines_mem (s : State) (c pa n : Nat) : (s.dropLines c pa n).mem = s.mem := by unfold State.dropLines; split <;> rfl
@[simp] theorem State.dropLines_hub (s : State) (c pa n : Nat) : (s.dropLines c pa n).hub = s.hub := by unfold State.dropLines; split <;> rfl
@[simp] theorem State.dropLines_ctxs (s : State) (c pa n : Nat) : (s.dropLines c pa n).ctxs = s.ctxs := by unfold State.dropLines; split <;> rfl
@[simp] theorem State.dropLines_nodes (s : State) (c pa n : Nat) : (s.dropLines c pa n).nodes = s.nodes := by unfold State.dropLines; split <;> rfl
@[simp] theorem State.dropLines_systems (s : State) (c pa n : Nat) : (s.dropLines c pa n).systems = s.systems := by unfold State.dropLines; split <;> rfl
@[simp] theorem State.dropLines_frozen (s : State) (c pa n : Nat) : (s.dropLines c pa n).frozen = s.frozen := by unfold State.dropLines; split <;> rfl
@[simp] theorem State.dropLines_raises (s : State) (c pa n : Nat) : (s.dropLines c pa n).raises = s.raises := by unfold State.dropLines; split <;> rfl
@[simp] theorem State.dropLines_reaps (s : State) (c pa n : Nat) : (s.dropLines c pa n).reaps = s.reaps := by unfold State.dropLines; split <;> rfl
@[simp] theorem State.dropLines_watchEvents (s : State) (c pa n : Nat) : (s.dropLines c pa n).watchEvents = s.watchEvents := by unfold State.dropLines; split <;> rfl
@[simp] theorem State.dropLines_teams (s : State) (c pa n : Nat) : (s.dropLines c pa n).teams = s.teams := by unfold State.dropLines; split <;> rfl
@[simp] theorem State.dropLines_warps (s : State) (c pa n : Nat) : (s.dropLines c pa n).warps = s.warps := by unfold State.dropLines; split <;> rfl
@[simp] theorem State.dropLines_pu (s : State) (c pa n : Nat) : (s.dropLines c pa n).pu = s.pu := by unfold State.dropLines; split <;> rfl
@[simp] theorem State.dropLines_l2 (s : State) (c pa n : Nat) : (s.dropLines c pa n).l2 = s.l2 := by unfold State.dropLines; split <;> rfl
@[simp] theorem State.dropLines_hubTlb (s : State) (c pa n : Nat) : (s.dropLines c pa n).hubTlb = s.hubTlb := by unfold State.dropLines; split <;> rfl
@[simp] theorem State.dropLines_pointers (s : State) (c pa n : Nat) : (s.dropLines c pa n).pointers = s.pointers := by unfold State.dropLines; split <;> rfl
@[simp] theorem State.dropLines_moves (s : State) (c pa n : Nat) : (s.dropLines c pa n).moves = s.moves := by unfold State.dropLines; split <;> rfl
@[simp] theorem State.dropLines_images (s : State) (c pa n : Nat) : (s.dropLines c pa n).images = s.images := by unfold State.dropLines; split <;> rfl
@[simp] theorem State.dropLines_names (s : State) (c pa n : Nat) : (s.dropLines c pa n).names = s.names := by unfold State.dropLines; split <;> rfl
@[simp] theorem State.dropLines_cur (s : State) (c pa n : Nat) : (s.dropLines c pa n).cur = s.cur := by unfold State.dropLines; split <;> rfl
@[simp] theorem State.dropLines_agenda (s : State) (c pa n : Nat) : (s.dropLines c pa n).agenda = s.agenda := by unfold State.dropLines; split <;> rfl
@[simp] theorem State.dropLines_paid (s : State) (c pa n : Nat) : (s.dropLines c pa n).paid = s.paid := by unfold State.dropLines; split <;> rfl
@[simp] theorem State.dropLines_credit (s : State) (c pa n : Nat) : (s.dropLines c pa n).credit = s.credit := by unfold State.dropLines; split <;> rfl
@[simp] theorem State.dropLines_sent (s : State) (c pa n : Nat) : (s.dropLines c pa n).sent = s.sent := by unfold State.dropLines; split <;> rfl
@[simp] theorem State.dropLines_held (s : State) (c pa n : Nat) : (s.dropLines c pa n).held = s.held := by unfold State.dropLines; split <;> rfl
@[simp] theorem State.dropLines_freeCtr (s : State) (c pa n : Nat) : (s.dropLines c pa n).freeCtr = s.freeCtr := by unfold State.dropLines; split <;> rfl
@[simp] theorem State.dropLines_tick (s : State) (c pa n : Nat) : (s.dropLines c pa n).tick = s.tick := by unfold State.dropLines; split <;> rfl
@[simp] theorem State.dropLines_rot (s : State) (c pa n : Nat) : (s.dropLines c pa n).rot = s.rot := by unfold State.dropLines; split <;> rfl

/-! ## effect -/

@[simp] theorem State.effect_plat (s : State) (r : Req) : (s.effect r).plat = s.plat := by unfold State.effect; split <;> dsimp only <;> split <;> (try rfl) <;> (try simp only [State.dropLines_plat, State.modMem_plat]) <;> split <;> simp only [State.dropLines_plat, State.modMem_plat]
@[simp] theorem State.effect_cycle (s : State) (r : Req) : (s.effect r).cycle = s.cycle := by unfold State.effect; split <;> dsimp only <;> split <;> (try rfl) <;> (try simp only [State.dropLines_cycle, State.modMem_cycle]) <;> split <;> simp only [State.dropLines_cycle, State.modMem_cycle]
@[simp] theorem State.effect_hub (s : State) (r : Req) : (s.effect r).hub = s.hub := by unfold State.effect; split <;> dsimp only <;> split <;> (try rfl) <;> (try simp only [State.dropLines_hub, State.modMem_hub]) <;> split <;> simp only [State.dropLines_hub, State.modMem_hub]
@[simp] theorem State.effect_ctxs (s : State) (r : Req) : (s.effect r).ctxs = s.ctxs := by unfold State.effect; split <;> dsimp only <;> split <;> (try rfl) <;> (try simp only [State.dropLines_ctxs, State.modMem_ctxs]) <;> split <;> simp only [State.dropLines_ctxs, State.modMem_ctxs]
@[simp] theorem State.effect_nodes (s : State) (r : Req) : (s.effect r).nodes = s.nodes := by unfold State.effect; split <;> dsimp only <;> split <;> (try rfl) <;> (try simp only [State.dropLines_nodes, State.modMem_nodes]) <;> split <;> simp only [State.dropLines_nodes, State.modMem_nodes]
@[simp] theorem State.effect_systems (s : State) (r : Req) : (s.effect r).systems = s.systems := by unfold State.effect; split <;> dsimp only <;> split <;> (try rfl) <;> (try simp only [State.dropLines_systems, State.modMem_systems]) <;> split <;> simp only [State.dropLines_systems, State.modMem_systems]
@[simp] theorem State.effect_frozen (s : State) (r : Req) : (s.effect r).frozen = s.frozen := by unfold State.effect; split <;> dsimp only <;> split <;> (try rfl) <;> (try simp only [State.dropLines_frozen, State.modMem_frozen]) <;> split <;> simp only [State.dropLines_frozen, State.modMem_frozen]
@[simp] theorem State.effect_raises (s : State) (r : Req) : (s.effect r).raises = s.raises := by unfold State.effect; split <;> dsimp only <;> split <;> (try rfl) <;> (try simp only [State.dropLines_raises, State.modMem_raises]) <;> split <;> simp only [State.dropLines_raises, State.modMem_raises]
@[simp] theorem State.effect_reaps (s : State) (r : Req) : (s.effect r).reaps = s.reaps := by unfold State.effect; split <;> dsimp only <;> split <;> (try rfl) <;> (try simp only [State.dropLines_reaps, State.modMem_reaps]) <;> split <;> simp only [State.dropLines_reaps, State.modMem_reaps]
@[simp] theorem State.effect_watchEvents (s : State) (r : Req) : (s.effect r).watchEvents = s.watchEvents := by unfold State.effect; split <;> dsimp only <;> split <;> (try rfl) <;> (try simp only [State.dropLines_watchEvents, State.modMem_watchEvents]) <;> split <;> simp only [State.dropLines_watchEvents, State.modMem_watchEvents]
@[simp] theorem State.effect_teams (s : State) (r : Req) : (s.effect r).teams = s.teams := by unfold State.effect; split <;> dsimp only <;> split <;> (try rfl) <;> (try simp only [State.dropLines_teams, State.modMem_teams]) <;> split <;> simp only [State.dropLines_teams, State.modMem_teams]
@[simp] theorem State.effect_warps (s : State) (r : Req) : (s.effect r).warps = s.warps := by unfold State.effect; split <;> dsimp only <;> split <;> (try rfl) <;> (try simp only [State.dropLines_warps, State.modMem_warps]) <;> split <;> simp only [State.dropLines_warps, State.modMem_warps]
@[simp] theorem State.effect_pu (s : State) (r : Req) : (s.effect r).pu = s.pu := by unfold State.effect; split <;> dsimp only <;> split <;> (try rfl) <;> (try simp only [State.dropLines_pu, State.modMem_pu]) <;> split <;> simp only [State.dropLines_pu, State.modMem_pu]
@[simp] theorem State.effect_l2 (s : State) (r : Req) : (s.effect r).l2 = s.l2 := by unfold State.effect; split <;> dsimp only <;> split <;> (try rfl) <;> (try simp only [State.dropLines_l2, State.modMem_l2]) <;> split <;> simp only [State.dropLines_l2, State.modMem_l2]
@[simp] theorem State.effect_hubTlb (s : State) (r : Req) : (s.effect r).hubTlb = s.hubTlb := by unfold State.effect; split <;> dsimp only <;> split <;> (try rfl) <;> (try simp only [State.dropLines_hubTlb, State.modMem_hubTlb]) <;> split <;> simp only [State.dropLines_hubTlb, State.modMem_hubTlb]
@[simp] theorem State.effect_pointers (s : State) (r : Req) : (s.effect r).pointers = s.pointers := by unfold State.effect; split <;> dsimp only <;> split <;> (try rfl) <;> (try simp only [State.dropLines_pointers, State.modMem_pointers]) <;> split <;> simp only [State.dropLines_pointers, State.modMem_pointers]
@[simp] theorem State.effect_moves (s : State) (r : Req) : (s.effect r).moves = s.moves := by unfold State.effect; split <;> dsimp only <;> split <;> (try rfl) <;> (try simp only [State.dropLines_moves, State.modMem_moves]) <;> split <;> simp only [State.dropLines_moves, State.modMem_moves]
@[simp] theorem State.effect_images (s : State) (r : Req) : (s.effect r).images = s.images := by unfold State.effect; split <;> dsimp only <;> split <;> (try rfl) <;> (try simp only [State.dropLines_images, State.modMem_images]) <;> split <;> simp only [State.dropLines_images, State.modMem_images]
@[simp] theorem State.effect_names (s : State) (r : Req) : (s.effect r).names = s.names := by unfold State.effect; split <;> dsimp only <;> split <;> (try rfl) <;> (try simp only [State.dropLines_names, State.modMem_names]) <;> split <;> simp only [State.dropLines_names, State.modMem_names]
@[simp] theorem State.effect_cur (s : State) (r : Req) : (s.effect r).cur = s.cur := by unfold State.effect; split <;> dsimp only <;> split <;> (try rfl) <;> (try simp only [State.dropLines_cur, State.modMem_cur]) <;> split <;> simp only [State.dropLines_cur, State.modMem_cur]
@[simp] theorem State.effect_agenda (s : State) (r : Req) : (s.effect r).agenda = s.agenda := by unfold State.effect; split <;> dsimp only <;> split <;> (try rfl) <;> (try simp only [State.dropLines_agenda, State.modMem_agenda]) <;> split <;> simp only [State.dropLines_agenda, State.modMem_agenda]
@[simp] theorem State.effect_paid (s : State) (r : Req) : (s.effect r).paid = s.paid := by unfold State.effect; split <;> dsimp only <;> split <;> (try rfl) <;> (try simp only [State.dropLines_paid, State.modMem_paid]) <;> split <;> simp only [State.dropLines_paid, State.modMem_paid]
@[simp] theorem State.effect_credit (s : State) (r : Req) : (s.effect r).credit = s.credit := by unfold State.effect; split <;> dsimp only <;> split <;> (try rfl) <;> (try simp only [State.dropLines_credit, State.modMem_credit]) <;> split <;> simp only [State.dropLines_credit, State.modMem_credit]
@[simp] theorem State.effect_sent (s : State) (r : Req) : (s.effect r).sent = s.sent := by unfold State.effect; split <;> dsimp only <;> split <;> (try rfl) <;> (try simp only [State.dropLines_sent, State.modMem_sent]) <;> split <;> simp only [State.dropLines_sent, State.modMem_sent]
@[simp] theorem State.effect_held (s : State) (r : Req) : (s.effect r).held = s.held := by unfold State.effect; split <;> dsimp only <;> split <;> (try rfl) <;> (try simp only [State.dropLines_held, State.modMem_held]) <;> split <;> simp only [State.dropLines_held, State.modMem_held]
@[simp] theorem State.effect_freeCtr (s : State) (r : Req) : (s.effect r).freeCtr = s.freeCtr := by unfold State.effect; split <;> dsimp only <;> split <;> (try rfl) <;> (try simp only [State.dropLines_freeCtr, State.modMem_freeCtr]) <;> split <;> simp only [State.dropLines_freeCtr, State.modMem_freeCtr]
@[simp] theorem State.effect_tick (s : State) (r : Req) : (s.effect r).tick = s.tick := by unfold State.effect; split <;> dsimp only <;> split <;> (try rfl) <;> (try simp only [State.dropLines_tick, State.modMem_tick]) <;> split <;> simp only [State.dropLines_tick, State.modMem_tick]
@[simp] theorem State.effect_rot (s : State) (r : Req) : (s.effect r).rot = s.rot := by unfold State.effect; split <;> dsimp only <;> split <;> (try rfl) <;> (try simp only [State.dropLines_rot, State.modMem_rot]) <;> split <;> simp only [State.dropLines_rot, State.modMem_rot]

/-! ## enter -/

@[simp] theorem State.enter_plat (s : State) (r : Req) : (s.enter r).plat = s.plat := State.effect_plat s r
@[simp] theorem State.enter_cycle (s : State) (r : Req) : (s.enter r).cycle = s.cycle := State.effect_cycle s r
@[simp] theorem State.enter_hub (s : State) (r : Req) : (s.enter r).hub = s.hub := State.effect_hub s r
@[simp] theorem State.enter_ctxs (s : State) (r : Req) : (s.enter r).ctxs = s.ctxs := State.effect_ctxs s r
@[simp] theorem State.enter_nodes (s : State) (r : Req) : (s.enter r).nodes = s.nodes := State.effect_nodes s r
@[simp] theorem State.enter_systems (s : State) (r : Req) : (s.enter r).systems = s.systems := State.effect_systems s r
@[simp] theorem State.enter_frozen (s : State) (r : Req) : (s.enter r).frozen = s.frozen := State.effect_frozen s r
@[simp] theorem State.enter_raises (s : State) (r : Req) : (s.enter r).raises = s.raises := State.effect_raises s r
@[simp] theorem State.enter_reaps (s : State) (r : Req) : (s.enter r).reaps = s.reaps := State.effect_reaps s r
@[simp] theorem State.enter_watchEvents (s : State) (r : Req) : (s.enter r).watchEvents = s.watchEvents := State.effect_watchEvents s r
@[simp] theorem State.enter_teams (s : State) (r : Req) : (s.enter r).teams = s.teams := State.effect_teams s r
@[simp] theorem State.enter_warps (s : State) (r : Req) : (s.enter r).warps = s.warps := State.effect_warps s r
@[simp] theorem State.enter_pu (s : State) (r : Req) : (s.enter r).pu = s.pu := State.effect_pu s r
@[simp] theorem State.enter_l2 (s : State) (r : Req) : (s.enter r).l2 = s.l2 := State.effect_l2 s r
@[simp] theorem State.enter_hubTlb (s : State) (r : Req) : (s.enter r).hubTlb = s.hubTlb := State.effect_hubTlb s r
@[simp] theorem State.enter_pointers (s : State) (r : Req) : (s.enter r).pointers = s.pointers := State.effect_pointers s r
@[simp] theorem State.enter_moves (s : State) (r : Req) : (s.enter r).moves = s.moves := State.effect_moves s r
@[simp] theorem State.enter_images (s : State) (r : Req) : (s.enter r).images = s.images := State.effect_images s r
@[simp] theorem State.enter_names (s : State) (r : Req) : (s.enter r).names = s.names := State.effect_names s r
@[simp] theorem State.enter_cur (s : State) (r : Req) : (s.enter r).cur = s.cur := State.effect_cur s r
@[simp] theorem State.enter_agenda (s : State) (r : Req) : (s.enter r).agenda = s.agenda := State.effect_agenda s r
@[simp] theorem State.enter_paid (s : State) (r : Req) : (s.enter r).paid = s.paid := State.effect_paid s r
@[simp] theorem State.enter_credit (s : State) (r : Req) : (s.enter r).credit = s.credit := State.effect_credit s r
@[simp] theorem State.enter_sent (s : State) (r : Req) : (s.enter r).sent = s.sent := State.effect_sent s r
@[simp] theorem State.enter_held (s : State) (r : Req) : (s.enter r).held = s.held := State.effect_held s r
@[simp] theorem State.enter_freeCtr (s : State) (r : Req) : (s.enter r).freeCtr = s.freeCtr := State.effect_freeCtr s r
@[simp] theorem State.enter_tick (s : State) (r : Req) : (s.enter r).tick = s.tick := State.effect_tick s r
@[simp] theorem State.enter_rot (s : State) (r : Req) : (s.enter r).rot = s.rot := State.effect_rot s r

/-! ## postReq -/

@[simp] theorem State.postReq_plat (s : State) (r : Req) : (s.postReq r).plat = s.plat := by unfold State.postReq; dsimp only; split <;> (try rfl); exact State.enter_plat _ _
@[simp] theorem State.postReq_cycle (s : State) (r : Req) : (s.postReq r).cycle = s.cycle := by unfold State.postReq; dsimp only; split <;> (try rfl); exact State.enter_cycle _ _
@[simp] theorem State.postReq_hub (s : State) (r : Req) : (s.postReq r).hub = s.hub := by unfold State.postReq; dsimp only; split <;> (try rfl); exact State.enter_hub _ _
@[simp] theorem State.postReq_ctxs (s : State) (r : Req) : (s.postReq r).ctxs = s.ctxs := by unfold State.postReq; dsimp only; split <;> (try rfl); exact State.enter_ctxs _ _
@[simp] theorem State.postReq_nodes (s : State) (r : Req) : (s.postReq r).nodes = s.nodes := by unfold State.postReq; dsimp only; split <;> (try rfl); exact State.enter_nodes _ _
@[simp] theorem State.postReq_systems (s : State) (r : Req) : (s.postReq r).systems = s.systems := by unfold State.postReq; dsimp only; split <;> (try rfl); exact State.enter_systems _ _
@[simp] theorem State.postReq_frozen (s : State) (r : Req) : (s.postReq r).frozen = s.frozen := by unfold State.postReq; dsimp only; split <;> (try rfl); exact State.enter_frozen _ _
@[simp] theorem State.postReq_raises (s : State) (r : Req) : (s.postReq r).raises = s.raises := by unfold State.postReq; dsimp only; split <;> (try rfl); exact State.enter_raises _ _
@[simp] theorem State.postReq_reaps (s : State) (r : Req) : (s.postReq r).reaps = s.reaps := by unfold State.postReq; dsimp only; split <;> (try rfl); exact State.enter_reaps _ _
@[simp] theorem State.postReq_watchEvents (s : State) (r : Req) : (s.postReq r).watchEvents = s.watchEvents := by unfold State.postReq; dsimp only; split <;> (try rfl); exact State.enter_watchEvents _ _
@[simp] theorem State.postReq_teams (s : State) (r : Req) : (s.postReq r).teams = s.teams := by unfold State.postReq; dsimp only; split <;> (try rfl); exact State.enter_teams _ _
@[simp] theorem State.postReq_warps (s : State) (r : Req) : (s.postReq r).warps = s.warps := by unfold State.postReq; dsimp only; split <;> (try rfl); exact State.enter_warps _ _
@[simp] theorem State.postReq_pu (s : State) (r : Req) : (s.postReq r).pu = s.pu := by unfold State.postReq; dsimp only; split <;> (try rfl); exact State.enter_pu _ _
@[simp] theorem State.postReq_l2 (s : State) (r : Req) : (s.postReq r).l2 = s.l2 := by unfold State.postReq; dsimp only; split <;> (try rfl); exact State.enter_l2 _ _
@[simp] theorem State.postReq_hubTlb (s : State) (r : Req) : (s.postReq r).hubTlb = s.hubTlb := by unfold State.postReq; dsimp only; split <;> (try rfl); exact State.enter_hubTlb _ _
@[simp] theorem State.postReq_pointers (s : State) (r : Req) : (s.postReq r).pointers = s.pointers := by unfold State.postReq; dsimp only; split <;> (try rfl); exact State.enter_pointers _ _
@[simp] theorem State.postReq_moves (s : State) (r : Req) : (s.postReq r).moves = s.moves := by unfold State.postReq; dsimp only; split <;> (try rfl); exact State.enter_moves _ _
@[simp] theorem State.postReq_images (s : State) (r : Req) : (s.postReq r).images = s.images := by unfold State.postReq; dsimp only; split <;> (try rfl); exact State.enter_images _ _
@[simp] theorem State.postReq_cur (s : State) (r : Req) : (s.postReq r).cur = s.cur := by unfold State.postReq; dsimp only; split <;> (try rfl); exact State.enter_cur _ _
@[simp] theorem State.postReq_agenda (s : State) (r : Req) : (s.postReq r).agenda = s.agenda := by unfold State.postReq; dsimp only; split <;> (try rfl); exact State.enter_agenda _ _
@[simp] theorem State.postReq_paid (s : State) (r : Req) : (s.postReq r).paid = s.paid := by unfold State.postReq; dsimp only; split <;> (try rfl); exact State.enter_paid _ _
@[simp] theorem State.postReq_credit (s : State) (r : Req) : (s.postReq r).credit = s.credit := by unfold State.postReq; dsimp only; split <;> (try rfl); exact State.enter_credit _ _
@[simp] theorem State.postReq_sent (s : State) (r : Req) : (s.postReq r).sent = s.sent := by unfold State.postReq; dsimp only; split <;> (try rfl); exact State.enter_sent _ _
@[simp] theorem State.postReq_held (s : State) (r : Req) : (s.postReq r).held = s.held := by unfold State.postReq; dsimp only; split <;> (try rfl); exact State.enter_held _ _
@[simp] theorem State.postReq_freeCtr (s : State) (r : Req) : (s.postReq r).freeCtr = s.freeCtr := by unfold State.postReq; dsimp only; split <;> (try rfl); exact State.enter_freeCtr _ _
@[simp] theorem State.postReq_tick (s : State) (r : Req) : (s.postReq r).tick = s.tick := by unfold State.postReq; dsimp only; split <;> (try rfl); exact State.enter_tick _ _
@[simp] theorem State.postReq_rot (s : State) (r : Req) : (s.postReq r).rot = s.rot := by unfold State.postReq; dsimp only; split <;> (try rfl); exact State.enter_rot _ _

/-! ## modReap -/

@[simp] theorem State.modReap_plat (s : State) (id : Nat) (f : Reap → Reap) : (s.modReap id f).plat = s.plat := by unfold State.modReap; split <;> rfl
@[simp] theorem State.modReap_cycle (s : State) (id : Nat) (f : Reap → Reap) : (s.modReap id f).cycle = s.cycle := by unfold State.modReap; split <;> rfl
@[simp] theorem State.modReap_mem (s : State) (id : Nat) (f : Reap → Reap) : (s.modReap id f).mem = s.mem := by unfold State.modReap; split <;> rfl
@[simp] theorem State.modReap_hub (s : State) (id : Nat) (f : Reap → Reap) : (s.modReap id f).hub = s.hub := by unfold State.modReap; split <;> rfl
@[simp] theorem State.modReap_ctxs (s : State) (id : Nat) (f : Reap → Reap) : (s.modReap id f).ctxs = s.ctxs := by unfold State.modReap; split <;> rfl
@[simp] theorem State.modReap_nodes (s : State) (id : Nat) (f : Reap → Reap) : (s.modReap id f).nodes = s.nodes := by unfold State.modReap; split <;> rfl
@[simp] theorem State.modReap_systems (s : State) (id : Nat) (f : Reap → Reap) : (s.modReap id f).systems = s.systems := by unfold State.modReap; split <;> rfl
@[simp] theorem State.modReap_frozen (s : State) (id : Nat) (f : Reap → Reap) : (s.modReap id f).frozen = s.frozen := by unfold State.modReap; split <;> rfl
@[simp] theorem State.modReap_raises (s : State) (id : Nat) (f : Reap → Reap) : (s.modReap id f).raises = s.raises := by unfold State.modReap; split <;> rfl
@[simp] theorem State.modReap_watchEvents (s : State) (id : Nat) (f : Reap → Reap) : (s.modReap id f).watchEvents = s.watchEvents := by unfold State.modReap; split <;> rfl
@[simp] theorem State.modReap_teams (s : State) (id : Nat) (f : Reap → Reap) : (s.modReap id f).teams = s.teams := by unfold State.modReap; split <;> rfl
@[simp] theorem State.modReap_cores (s : State) (id : Nat) (f : Reap → Reap) : (s.modReap id f).cores = s.cores := by unfold State.modReap; split <;> rfl
@[simp] theorem State.modReap_warps (s : State) (id : Nat) (f : Reap → Reap) : (s.modReap id f).warps = s.warps := by unfold State.modReap; split <;> rfl
@[simp] theorem State.modReap_pu (s : State) (id : Nat) (f : Reap → Reap) : (s.modReap id f).pu = s.pu := by unfold State.modReap; split <;> rfl
@[simp] theorem State.modReap_links (s : State) (id : Nat) (f : Reap → Reap) : (s.modReap id f).links = s.links := by unfold State.modReap; split <;> rfl
@[simp] theorem State.modReap_l2 (s : State) (id : Nat) (f : Reap → Reap) : (s.modReap id f).l2 = s.l2 := by unfold State.modReap; split <;> rfl
@[simp] theorem State.modReap_hubTlb (s : State) (id : Nat) (f : Reap → Reap) : (s.modReap id f).hubTlb = s.hubTlb := by unfold State.modReap; split <;> rfl
@[simp] theorem State.modReap_pointers (s : State) (id : Nat) (f : Reap → Reap) : (s.modReap id f).pointers = s.pointers := by unfold State.modReap; split <;> rfl
@[simp] theorem State.modReap_moves (s : State) (id : Nat) (f : Reap → Reap) : (s.modReap id f).moves = s.moves := by unfold State.modReap; split <;> rfl
@[simp] theorem State.modReap_images (s : State) (id : Nat) (f : Reap → Reap) : (s.modReap id f).images = s.images := by unfold State.modReap; split <;> rfl
@[simp] theorem State.modReap_names (s : State) (id : Nat) (f : Reap → Reap) : (s.modReap id f).names = s.names := by unfold State.modReap; split <;> rfl
@[simp] theorem State.modReap_cur (s : State) (id : Nat) (f : Reap → Reap) : (s.modReap id f).cur = s.cur := by unfold State.modReap; split <;> rfl
@[simp] theorem State.modReap_agenda (s : State) (id : Nat) (f : Reap → Reap) : (s.modReap id f).agenda = s.agenda := by unfold State.modReap; split <;> rfl
@[simp] theorem State.modReap_paid (s : State) (id : Nat) (f : Reap → Reap) : (s.modReap id f).paid = s.paid := by unfold State.modReap; split <;> rfl
@[simp] theorem State.modReap_credit (s : State) (id : Nat) (f : Reap → Reap) : (s.modReap id f).credit = s.credit := by unfold State.modReap; split <;> rfl
@[simp] theorem State.modReap_sent (s : State) (id : Nat) (f : Reap → Reap) : (s.modReap id f).sent = s.sent := by unfold State.modReap; split <;> rfl
@[simp] theorem State.modReap_held (s : State) (id : Nat) (f : Reap → Reap) : (s.modReap id f).held = s.held := by unfold State.modReap; split <;> rfl
@[simp] theorem State.modReap_freeCtr (s : State) (id : Nat) (f : Reap → Reap) : (s.modReap id f).freeCtr = s.freeCtr := by unfold State.modReap; split <;> rfl
@[simp] theorem State.modReap_tick (s : State) (id : Nat) (f : Reap → Reap) : (s.modReap id f).tick = s.tick := by unfold State.modReap; split <;> rfl
@[simp] theorem State.modReap_rot (s : State) (id : Nat) (f : Reap → Reap) : (s.modReap id f).rot = s.rot := by unfold State.modReap; split <;> rfl

/-! ## modSet -/

@[simp] theorem State.modSet_plat (s : State) (k : Nat) (f : RegSet → RegSet) : (s.modSet k f).plat = s.plat := rfl
@[simp] theorem State.modSet_cycle (s : State) (k : Nat) (f : RegSet → RegSet) : (s.modSet k f).cycle = s.cycle := rfl
@[simp] theorem State.modSet_mem (s : State) (k : Nat) (f : RegSet → RegSet) : (s.modSet k f).mem = s.mem := rfl
@[simp] theorem State.modSet_ctxs (s : State) (k : Nat) (f : RegSet → RegSet) : (s.modSet k f).ctxs = s.ctxs := rfl
@[simp] theorem State.modSet_nodes (s : State) (k : Nat) (f : RegSet → RegSet) : (s.modSet k f).nodes = s.nodes := rfl
@[simp] theorem State.modSet_systems (s : State) (k : Nat) (f : RegSet → RegSet) : (s.modSet k f).systems = s.systems := rfl
@[simp] theorem State.modSet_frozen (s : State) (k : Nat) (f : RegSet → RegSet) : (s.modSet k f).frozen = s.frozen := rfl
@[simp] theorem State.modSet_raises (s : State) (k : Nat) (f : RegSet → RegSet) : (s.modSet k f).raises = s.raises := rfl
@[simp] theorem State.modSet_reaps (s : State) (k : Nat) (f : RegSet → RegSet) : (s.modSet k f).reaps = s.reaps := rfl
@[simp] theorem State.modSet_watchEvents (s : State) (k : Nat) (f : RegSet → RegSet) : (s.modSet k f).watchEvents = s.watchEvents := rfl
@[simp] theorem State.modSet_teams (s : State) (k : Nat) (f : RegSet → RegSet) : (s.modSet k f).teams = s.teams := rfl
@[simp] theorem State.modSet_cores (s : State) (k : Nat) (f : RegSet → RegSet) : (s.modSet k f).cores = s.cores := rfl
@[simp] theorem State.modSet_warps (s : State) (k : Nat) (f : RegSet → RegSet) : (s.modSet k f).warps = s.warps := rfl
@[simp] theorem State.modSet_pu (s : State) (k : Nat) (f : RegSet → RegSet) : (s.modSet k f).pu = s.pu := rfl
@[simp] theorem State.modSet_links (s : State) (k : Nat) (f : RegSet → RegSet) : (s.modSet k f).links = s.links := rfl
@[simp] theorem State.modSet_l2 (s : State) (k : Nat) (f : RegSet → RegSet) : (s.modSet k f).l2 = s.l2 := rfl
@[simp] theorem State.modSet_hubTlb (s : State) (k : Nat) (f : RegSet → RegSet) : (s.modSet k f).hubTlb = s.hubTlb := rfl
@[simp] theorem State.modSet_pointers (s : State) (k : Nat) (f : RegSet → RegSet) : (s.modSet k f).pointers = s.pointers := rfl
@[simp] theorem State.modSet_moves (s : State) (k : Nat) (f : RegSet → RegSet) : (s.modSet k f).moves = s.moves := rfl
@[simp] theorem State.modSet_images (s : State) (k : Nat) (f : RegSet → RegSet) : (s.modSet k f).images = s.images := rfl
@[simp] theorem State.modSet_names (s : State) (k : Nat) (f : RegSet → RegSet) : (s.modSet k f).names = s.names := rfl
@[simp] theorem State.modSet_cur (s : State) (k : Nat) (f : RegSet → RegSet) : (s.modSet k f).cur = s.cur := rfl
@[simp] theorem State.modSet_agenda (s : State) (k : Nat) (f : RegSet → RegSet) : (s.modSet k f).agenda = s.agenda := rfl
@[simp] theorem State.modSet_paid (s : State) (k : Nat) (f : RegSet → RegSet) : (s.modSet k f).paid = s.paid := rfl
@[simp] theorem State.modSet_credit (s : State) (k : Nat) (f : RegSet → RegSet) : (s.modSet k f).credit = s.credit := rfl
@[simp] theorem State.modSet_sent (s : State) (k : Nat) (f : RegSet → RegSet) : (s.modSet k f).sent = s.sent := rfl
@[simp] theorem State.modSet_held (s : State) (k : Nat) (f : RegSet → RegSet) : (s.modSet k f).held = s.held := rfl
@[simp] theorem State.modSet_freeCtr (s : State) (k : Nat) (f : RegSet → RegSet) : (s.modSet k f).freeCtr = s.freeCtr := rfl
@[simp] theorem State.modSet_tick (s : State) (k : Nat) (f : RegSet → RegSet) : (s.modSet k f).tick = s.tick := rfl
@[simp] theorem State.modSet_rot (s : State) (k : Nat) (f : RegSet → RegSet) : (s.modSet k f).rot = s.rot := rfl

/-! ## modBox -/

@[simp] theorem State.modBox_plat (s : State) (k : Nat) (f : Mailbox → Mailbox) : (s.modBox k f).plat = s.plat := rfl
@[simp] theorem State.modBox_cycle (s : State) (k : Nat) (f : Mailbox → Mailbox) : (s.modBox k f).cycle = s.cycle := rfl
@[simp] theorem State.modBox_mem (s : State) (k : Nat) (f : Mailbox → Mailbox) : (s.modBox k f).mem = s.mem := rfl
@[simp] theorem State.modBox_ctxs (s : State) (k : Nat) (f : Mailbox → Mailbox) : (s.modBox k f).ctxs = s.ctxs := rfl
@[simp] theorem State.modBox_nodes (s : State) (k : Nat) (f : Mailbox → Mailbox) : (s.modBox k f).nodes = s.nodes := rfl
@[simp] theorem State.modBox_systems (s : State) (k : Nat) (f : Mailbox → Mailbox) : (s.modBox k f).systems = s.systems := rfl
@[simp] theorem State.modBox_frozen (s : State) (k : Nat) (f : Mailbox → Mailbox) : (s.modBox k f).frozen = s.frozen := rfl
@[simp] theorem State.modBox_raises (s : State) (k : Nat) (f : Mailbox → Mailbox) : (s.modBox k f).raises = s.raises := rfl
@[simp] theorem State.modBox_reaps (s : State) (k : Nat) (f : Mailbox → Mailbox) : (s.modBox k f).reaps = s.reaps := rfl
@[simp] theorem State.modBox_watchEvents (s : State) (k : Nat) (f : Mailbox → Mailbox) : (s.modBox k f).watchEvents = s.watchEvents := rfl
@[simp] theorem State.modBox_teams (s : State) (k : Nat) (f : Mailbox → Mailbox) : (s.modBox k f).teams = s.teams := rfl
@[simp] theorem State.modBox_cores (s : State) (k : Nat) (f : Mailbox → Mailbox) : (s.modBox k f).cores = s.cores := rfl
@[simp] theorem State.modBox_warps (s : State) (k : Nat) (f : Mailbox → Mailbox) : (s.modBox k f).warps = s.warps := rfl
@[simp] theorem State.modBox_pu (s : State) (k : Nat) (f : Mailbox → Mailbox) : (s.modBox k f).pu = s.pu := rfl
@[simp] theorem State.modBox_links (s : State) (k : Nat) (f : Mailbox → Mailbox) : (s.modBox k f).links = s.links := rfl
@[simp] theorem State.modBox_l2 (s : State) (k : Nat) (f : Mailbox → Mailbox) : (s.modBox k f).l2 = s.l2 := rfl
@[simp] theorem State.modBox_hubTlb (s : State) (k : Nat) (f : Mailbox → Mailbox) : (s.modBox k f).hubTlb = s.hubTlb := rfl
@[simp] theorem State.modBox_pointers (s : State) (k : Nat) (f : Mailbox → Mailbox) : (s.modBox k f).pointers = s.pointers := rfl
@[simp] theorem State.modBox_moves (s : State) (k : Nat) (f : Mailbox → Mailbox) : (s.modBox k f).moves = s.moves := rfl
@[simp] theorem State.modBox_images (s : State) (k : Nat) (f : Mailbox → Mailbox) : (s.modBox k f).images = s.images := rfl
@[simp] theorem State.modBox_names (s : State) (k : Nat) (f : Mailbox → Mailbox) : (s.modBox k f).names = s.names := rfl
@[simp] theorem State.modBox_cur (s : State) (k : Nat) (f : Mailbox → Mailbox) : (s.modBox k f).cur = s.cur := rfl
@[simp] theorem State.modBox_agenda (s : State) (k : Nat) (f : Mailbox → Mailbox) : (s.modBox k f).agenda = s.agenda := rfl
@[simp] theorem State.modBox_paid (s : State) (k : Nat) (f : Mailbox → Mailbox) : (s.modBox k f).paid = s.paid := rfl
@[simp] theorem State.modBox_credit (s : State) (k : Nat) (f : Mailbox → Mailbox) : (s.modBox k f).credit = s.credit := rfl
@[simp] theorem State.modBox_sent (s : State) (k : Nat) (f : Mailbox → Mailbox) : (s.modBox k f).sent = s.sent := rfl
@[simp] theorem State.modBox_held (s : State) (k : Nat) (f : Mailbox → Mailbox) : (s.modBox k f).held = s.held := rfl
@[simp] theorem State.modBox_freeCtr (s : State) (k : Nat) (f : Mailbox → Mailbox) : (s.modBox k f).freeCtr = s.freeCtr := rfl
@[simp] theorem State.modBox_tick (s : State) (k : Nat) (f : Mailbox → Mailbox) : (s.modBox k f).tick = s.tick := rfl
@[simp] theorem State.modBox_rot (s : State) (k : Nat) (f : Mailbox → Mailbox) : (s.modBox k f).rot = s.rot := rfl

end Sys2Proof.Machine
end

