-- ==== Sys2Proof/Laws/Store.lean ====
section
/-! SUPPORT. Laws of the two sparse stores: what a read finds after a write, and that writes keep the canonical
form. -/

namespace Sys2Proof

namespace Cells

variable {w : Nat}

@[simp] theorem get_nil (k : Nat) : get ([] : Cells w) k = 0 := rfl

theorem get_filter (m : Cells w) (p : Nat → Bool) (k : Nat) :
    get (m.filter (fun e => p e.1)) k = if p k then get m k else 0 := by
  induction m with
  | nil => simp [get]
  | cons e r ih =>
    obtain ⟨j, x⟩ := e
    by_cases hj : j = k
    · subst hj
      by_cases hp : p j = true
      · simp [hp, get]
      · simp only [Bool.not_eq_true] at hp
        rw [List.filter_cons_of_neg (by simp [hp]), ih]
        simp [hp]
    · by_cases hp : p j = true
      · rw [List.filter_cons_of_pos (by simpa using hp)]
        simp [get, hj, ih]
      · rw [List.filter_cons_of_neg (by simpa using hp), ih]
        simp [get, hj]

theorem get_drop (m : Cells w) (k j : Nat) : get (m.drop k) j = if j = k then 0 else get m j := by
  have h := get_filter m (fun e => e != k) j
  simp only [Cells.drop] at *
  rw [h]
  by_cases hj : j = k <;> simp [hj]

theorem get_ins_ne (m : Cells w) (k j : Nat) (x : BitVec w) (hj : j ≠ k) : get (ins m k x) j = get m j := by
  induction m with
  | nil => simp [ins, get, Ne.symm hj]
  | cons e r ih =>
    obtain ⟨i, y⟩ := e
    simp only [ins]
    split
    · simp [get, Ne.symm hj]
    · simp only [get, ih]

theorem get_ins_eq (m : Cells w) (k : Nat) (x : BitVec w) (h : ∀ e ∈ m, e.1 ≠ k) : get (ins m k x) k = x := by
  induction m with
  | nil => simp [ins, get]
  | cons e r ih =>
    obtain ⟨i, y⟩ := e
    have hi : i ≠ k := h (i, y) (by simp)
    simp only [ins]
    split
    · simp [get]
    · simp only [get, hi, if_false]
      exact ih (fun e he => h e (by simp [he]))

theorem drop_ne (m : Cells w) (k : Nat) : ∀ e ∈ m.drop k, e.1 ≠ k := by
  intro e he
  simpa using (List.mem_filter.mp he).2

/-- A read after a write of the same key gives the value, and a write leaves every other key. -/
@[simp] theorem get_set (m : Cells w) (k j : Nat) (x : BitVec w) :
    get (m.set k x) j = if j = k then x else get m j := by
  unfold Cells.set
  by_cases hx : x = 0
  · simp only [hx, if_true, get_drop]
  · simp only [hx, if_false]
    by_cases hj : j = k
    · subst hj; simp [get_ins_eq _ _ _ (drop_ne m j)]
    · simp [get_ins_ne _ _ _ _ hj, get_drop, hj]

theorem get_clear (m : Cells w) (lo n k : Nat) : get (m.clear lo n) k = if k < lo ∨ lo + n ≤ k then get m k else 0 := by
  have h := get_filter m (fun e => decide (e < lo) || decide (lo + n ≤ e)) k
  simp only [Cells.clear]
  rw [h]
  by_cases h1 : k < lo <;> by_cases h2 : lo + n ≤ k <;> simp [h1, h2]

theorem get_slice (m : Cells w) (lo n k : Nat) : get (m.slice lo n) k = if lo ≤ k ∧ k < lo + n then get m k else 0 := by
  have h := get_filter m (fun e => decide (lo ≤ e) && decide (e < lo + n)) k
  simp only [Cells.slice]
  rw [h]
  by_cases h1 : lo ≤ k <;> by_cases h2 : k < lo + n <;> simp [h1, h2]

/-! ## The canonical form -/

theorem wf_cons (j : Nat) (x : BitVec w) (r : Cells w) :
    wf ((j, x) :: r) = true ↔ x ≠ 0 ∧ (∀ e ∈ r, j < e.1) ∧ wf r = true := by
  simp [wf, and_assoc]

theorem wf_filter (m : Cells w) (p : Nat × BitVec w → Bool) (h : wf m = true) : wf (m.filter p) = true := by
  induction m with
  | nil => simp [wf]
  | cons e r ih =>
    obtain ⟨j, x⟩ := e
    rw [wf_cons] at h
    by_cases hp : p (j, x) = true
    · rw [List.filter_cons_of_pos hp, wf_cons]
      exact ⟨h.1, fun e he => h.2.1 e (List.mem_filter.mp he).1, ih h.2.2⟩
    · rw [List.filter_cons_of_neg hp]; exact ih h.2.2

theorem mem_ins (m : Cells w) (k : Nat) (x : BitVec w) (e : Nat × BitVec w) (h : e ∈ ins m k x) :
    e = (k, x) ∨ e ∈ m := by
  induction m with
  | nil => simpa [ins] using h
  | cons a r ih =>
    obtain ⟨j, y⟩ := a
    simp only [ins] at h
    split at h
    · simpa using h
    · rcases List.mem_cons.mp h with h | h
      · simp [h]
      · rcases ih h with h | h <;> simp [h]

theorem wf_ins (m : Cells w) (k : Nat) (x : BitVec w) (hx : x ≠ 0) (hk : ∀ e ∈ m, e.1 ≠ k) (h : wf m = true) :
    wf (ins m k x) = true := by
  induction m with
  | nil => simpa [ins, wf] using hx
  | cons a r ih =>
    obtain ⟨j, y⟩ := a
    have h' := (wf_cons j y r).mp h
    simp only [ins]
    split
    · rename_i hlt
      refine (wf_cons _ _ _).mpr ⟨hx, ?_, h⟩
      intro e he
      rcases List.mem_cons.mp he with he | he
      · simpa [he] using hlt
      · exact lt_trans hlt (h'.2.1 e he)
    · rename_i hlt
      refine (wf_cons _ _ _).mpr ⟨h'.1, ?_, ih (fun e he => hk e (by simp [he])) h'.2.2⟩
      intro e he
      have hj : j ≠ k := hk (j, y) (by simp)
      rcases mem_ins r k x e he with he | he
      · subst he; simp; omega
      · exact h'.2.1 e he

@[simp] theorem wf_nil : wf ([] : Cells w) = true := rfl

theorem wf_drop (m : Cells w) (k : Nat) (h : wf m = true) : wf (m.drop k) = true := wf_filter _ _ h

/-- A write keeps the canonical form. -/
theorem wf_set (m : Cells w) (k : Nat) (x : BitVec w) (h : wf m = true) : wf (m.set k x) = true := by
  unfold Cells.set
  split
  · exact wf_drop m k h
  · rename_i hx; exact wf_ins _ k x hx (drop_ne m k) (wf_drop m k h)

theorem wf_clear (m : Cells w) (lo n : Nat) (h : wf m = true) : wf (m.clear lo n) = true := wf_filter _ _ h
theorem wf_slice (m : Cells w) (lo n : Nat) (h : wf m = true) : wf (m.slice lo n) = true := wf_filter _ _ h

theorem wf_foldl_set {α : Type} (l : List α) (k : α → Nat) (x : α → BitVec w) :
    ∀ (m : Cells w), wf m = true → wf (l.foldl (fun r e => Cells.set r (k e) (x e)) m) = true := by
  induction l with
  | nil => intro m h; simpa using h
  | cons a r ih => intro m h; exact ih _ (wf_set m _ _ h)

theorem wf_copyTo (m : Cells w) (src dst n : Nat) (h : wf m = true) : wf (m.copyTo src dst n) = true :=
  wf_foldl_set _ _ _ _ (wf_clear m dst n h)

theorem wf_moveTo (m : Cells w) (src dst n : Nat) (h : wf m = true) : wf (m.moveTo src dst n) = true :=
  wf_foldl_set _ _ _ _ (wf_clear _ src n (wf_clear m dst n h))

theorem wf_writeN (bs : List Byte) : ∀ (m : Cells 8) (a : Nat), wf m = true → wf (m.writeN a bs) = true := by
  induction bs with
  | nil => intro m a h; simpa [Cells.writeN] using h
  | cons b r ih => intro m a h; exact ih _ _ (wf_set m a b h)

/-- What a byte reads after a run of bytes is written. -/
theorem get_writeN (bs : List Byte) : ∀ (m : Cells 8) (a k : Nat),
    get (m.writeN a bs) k = if a ≤ k ∧ k < a + bs.length then bs.getD (k - a) 0 else get m k := by
  induction bs with
  | nil => intro m a k; simp [Cells.writeN]
  | cons b r ih =>
    intro m a k
    rw [Cells.writeN, ih, get_set]
    simp only [List.length_cons]
    by_cases h1 : k = a
    · subst h1
      have h2 : ¬(k + 1 ≤ k ∧ k < k + 1 + r.length) := by omega
      simp
    · by_cases h2 : a ≤ k ∧ k < a + (r.length + 1)
      · have h3 : a + 1 ≤ k ∧ k < a + 1 + r.length := by omega
        have h4 : k - a = (k - (a + 1)) + 1 := by omega
        rw [if_pos h3, if_pos h2, h4]
        simp
      · have h3 : ¬(a + 1 ≤ k ∧ k < a + 1 + r.length) := by omega
        rw [if_neg h3, if_neg h2, if_neg h1]

end Cells

namespace Tab

variable {α : Type}

@[simp] theorem find_nil (k : Nat) : find ([] : Tab α) k = none := rfl

theorem find_erase (m : Tab α) (k j : Nat) : find (m.erase k) j = if j = k then none else find m j := by
  induction m with
  | nil => simp [Tab.erase, find]
  | cons e r ih =>
    obtain ⟨i, x⟩ := e
    simp only [Tab.erase] at ih ⊢
    by_cases hi : i = k
    · rw [List.filter_cons_of_neg (by simp [hi]), ih]
      by_cases hj : j = k
      · simp [hj]
      · simp [hj, find, hi, Ne.symm hj]
    · rw [List.filter_cons_of_pos (by simp [hi])]
      simp only [find, ih]
      by_cases hij : i = j
      · have : j ≠ k := by omega
        simp [hij, this]
      · simp [hij]

theorem find_ins (m : Tab α) (k j : Nat) (x : α) (h : find m k = none) :
    find (ins m k x) j = if j = k then some x else find m j := by
  induction m with
  | nil => simp only [ins, find, eq_comm]
  | cons e r ih =>
    obtain ⟨i, y⟩ := e
    have hi : i ≠ k := by intro hc; simp [find, hc] at h
    have hr : find r k = none := by simpa [find, hi] using h
    simp only [ins]
    split
    · simp only [find, eq_comm]
    · simp only [find, ih hr]
      by_cases hj : j = k
      · subst hj; simp [hi]
      · simp [hj]

/-- A look-up after a put of the same key finds the record, and a put leaves every other key. -/
@[simp] theorem find_put (m : Tab α) (k j : Nat) (x : α) : find (m.put k x) j = if j = k then some x else find m j := by
  unfold put
  rw [find_ins _ _ _ _ (by simp [find_erase]), find_erase]
  by_cases hj : j = k <;> simp [hj]

theorem getD_put (m : Tab α) (k j : Nat) (x d : α) : (m.put k x).getD j d = if j = k then x else m.getD j d := by
  unfold getD
  rw [find_put]
  by_cases hj : j = k <;> simp [hj]

end Tab

end Sys2Proof
end

