-- ==== Sys2Proof/Laws/Regs.lean ====
section
/-! SUPPORT. Laws of the issuing path and its registers: what a read finds after each update. -/

namespace Sys2Proof.Machine

/-! ## Slots of a warp -/

theorem Warp.slot_setSlot (w : Warp) (k : Nat) (p : Path) (h : (w.slot k).isSome) :
    (w.setSlot k (some p)).slot k = some p := by
  unfold Warp.setSlot
  by_cases h0 : k = 0
  · subst h0; simp [Warp.slot]
  · by_cases h1 : k = 1
    · subst h1; simp [Warp.slot]
    · simp only [h0, h1, if_false, Warp.slot] at *
      have hlt : k - 2 < w.stack.length := by
        by_contra hc
        simp [List.getElem?_eq_none (Nat.le_of_not_lt hc)] at h
      simp [hlt]

theorem Warp.slot_setSlot_ne (w : Warp) (k j : Nat) (p : Path) (h : j ≠ k) :
    (w.setSlot k (some p)).slot j = w.slot j := by
  unfold Warp.setSlot
  by_cases h0 : k = 0
  · subst h0; simp [Warp.slot, h]
  · by_cases h1 : k = 1
    · subst h1; simp [Warp.slot, h]
    · simp only [h0, h1, if_false, Warp.slot]
      by_cases hj0 : j = 0
      · simp [hj0]
      · by_cases hj1 : j = 1
        · simp [hj1]
        · simp only [hj0, hj1, if_false]
          have : k - 2 ≠ j - 2 := by omega
          simp [this]

/-- The fields of a warp that no path holds are not touched by an update of a path. -/
theorem Warp.setSlot_some_eq (w : Warp) (k : Nat) (p : Path) :
    w.setSlot k (some p) = { w with
      slot0 := (w.setSlot k (some p)).slot0, slot1 := (w.setSlot k (some p)).slot1,
      stack := (w.setSlot k (some p)).stack } := by
  unfold Warp.setSlot
  split
  · rfl
  · split <;> rfl

/-! ## The issuing path -/

theorem State.path?_some {s : State} {p : Path} (h : s.path? = some p) :
    ∃ w, s.warps.find s.cur.1 = some w ∧ w.slot s.cur.2 = some p := by
  unfold State.path? State.pathAt at h
  cases hw : s.warps.find s.cur.1 with
  | none => simp [hw] at h
  | some w => exact ⟨w, rfl, by simpa [hw] using h⟩

theorem State.cp_of {s : State} {p : Path} (h : s.path? = some p) : s.cp = p := by simp [State.cp, h]

theorem State.find_modWarp (s : State) (wid j : Nat) (f : Warp → Warp) :
    (s.modWarp wid f).warps.find j = if j = wid then (s.warps.find wid).map f else s.warps.find j := by
  unfold State.modWarp
  cases h : s.warps.find wid with
  | none =>
    by_cases hj : j = wid
    · subst hj; simp [h]
    · simp [hj]
  | some w =>
    simp only [State.putWarp, Tab.find_put]
    by_cases hj : j = wid <;> simp [hj]

/-- Other warps keep their records. -/
theorem State.find_modW_ne (s : State) (f : Warp → Warp) (j : Nat) (h : j ≠ s.cur.1) :
    (s.modW f).warps.find j = s.warps.find j := by
  simp [State.modW, State.find_modWarp, h]

theorem State.find_modP_ne (s : State) (f : Path → Path) (j : Nat) (h : j ≠ s.cur.1) :
    (s.modP f).warps.find j = s.warps.find j := by
  simp [State.modP, State.modPathAt, State.find_modWarp, h]

theorem State.cw_modW (s : State) (f : Warp → Warp) (h : s.path?.isSome) : (s.modW f).cw = f s.cw := by
  obtain ⟨p, hp⟩ := Option.isSome_iff_exists.mp h
  obtain ⟨w, hw, -⟩ := State.path?_some hp
  simp [State.cw, State.modW, State.find_modWarp, hw]

theorem State.path?_modW (s : State) (f : Warp → Warp) (hf : ∀ w k, (f w).slot k = w.slot k) :
    (s.modW f).path? = s.path? := by
  unfold State.path? State.pathAt
  simp only [State.modW, State.modWarp_cur, State.find_modWarp]
  cases s.warps.find s.cur.1 <;> simp [hf]

theorem State.cp_modW (s : State) (f : Warp → Warp) (hf : ∀ w k, (f w).slot k = w.slot k) : (s.modW f).cp = s.cp := by
  simp [State.cp, State.path?_modW s f hf]

theorem State.path?_modP (s : State) (f : Path → Path) : (s.modP f).path? = s.path?.map f := by
  unfold State.path? State.pathAt
  simp only [State.modP, State.modPathAt, State.modWarp_cur, State.find_modWarp]
  cases hw : s.warps.find s.cur.1 with
  | none => simp
  | some w =>
    simp only [Option.map_some, Option.bind_some]
    cases hp : w.slot s.cur.2 with
    | none =>
      simp only [Option.map_none]
      unfold Warp.setSlot
      by_cases h0 : s.cur.2 = 0
      · simp [h0, Warp.slot]
      · by_cases h1 : s.cur.2 = 1
        · simp [h1, Warp.slot]
        · simp only [h0, h1, if_false, Warp.slot] at *
          have hlen : w.stack.length ≤ s.cur.2 - 2 := by
            by_contra hc
            simp [List.getElem?_eq_getElem (Nat.lt_of_not_le hc)] at hp
          simp [List.eraseIdx_of_length_le hlen, hlen]
    | some p => simp [Warp.slot_setSlot _ _ _ (by simp [hp] : (w.slot s.cur.2).isSome)]

theorem State.cp_modP (s : State) (f : Path → Path) (h : s.path?.isSome) : (s.modP f).cp = f s.cp := by
  obtain ⟨p, hp⟩ := Option.isSome_iff_exists.mp h
  simp [State.cp, State.path?_modP, hp]

/-- An update of the issuing path leaves what its warp holds beside its paths. -/
theorem State.cw_modP (s : State) (f : Path → Path) (h : s.path?.isSome) :
    (s.modP f).cw = { s.cw with
      slot0 := (s.modP f).cw.slot0, slot1 := (s.modP f).cw.slot1, stack := (s.modP f).cw.stack } := by
  obtain ⟨p, hp⟩ := Option.isSome_iff_exists.mp h
  obtain ⟨w, hw, hs⟩ := State.path?_some hp
  simp only [State.cw, State.modP, State.modPathAt, State.find_modWarp, State.modWarp_cur, hw, if_true, hs, Option.map_some,
    Option.getD_some]
  exact Warp.setSlot_some_eq w _ _

/-- Other paths of the warp keep their places. -/
theorem State.slot_modP_ne (s : State) (f : Path → Path) (h : s.path?.isSome) (j : Nat) (hj : j ≠ s.cur.2) :
    (s.modP f).cw.slot j = s.cw.slot j := by
  obtain ⟨p, hp⟩ := Option.isSome_iff_exists.mp h
  obtain ⟨w, hw, hs⟩ := State.path?_some hp
  simp only [State.cw, State.modP, State.modPathAt, State.find_modWarp, State.modWarp_cur, hw, if_true, hs, Option.map_some,
    Option.getD_some]
  exact Warp.slot_setSlot_ne w _ _ _ hj

/-! ## Registers -/

theorem State.path?_setSN (s : State) (n : Nat) (x : DWord) :
    (s.setSN n x).path? = if n < 32 then s.path? else s.path?.map (fun p => { p with s := p.s.set n x }) := by
  unfold State.setSN
  split
  · rename_i h; rw [State.path?_modW]; intro w k; rfl
  · rw [State.path?_modP]

theorem State.sN_setSN (s : State) (n m : Nat) (x : DWord) (h : s.path?.isSome) :
    (s.setSN n x).sN m = if m = n then x else s.sN m := by
  unfold State.setSN
  split
  · rename_i hn
    have hp : (s.modW (fun w => { w with s := w.s.set n x })).path? = s.path? := State.path?_modW _ _ (fun _ _ => rfl)
    unfold State.sN sOf
    rw [State.cw_modW _ _ h, State.cp, hp]
    by_cases hm : m < 32
    · simp [hm]
    · have : m ≠ n := by omega
      simp [hm, this, State.cp]
  · rename_i hn
    unfold State.sN sOf
    rw [State.cp_modP _ _ h, State.cw_modP _ _ h]
    by_cases hm : m < 32
    · have : m ≠ n := by omega
      simp [hm, this]
    · simp [hm]

theorem State.sN_modP (s : State) (f : Path → Path) (h : s.path?.isSome) (n : Nat) (hf : ∀ p, (f p).s = p.s) :
    (s.modP f).sN n = s.sN n := by
  unfold State.sN sOf
  rw [State.cp_modP _ _ h, State.cw_modP _ _ h, hf]

theorem State.sN_modW (s : State) (f : Warp → Warp) (h : s.path?.isSome) (n : Nat) (hs : ∀ w k, (f w).slot k = w.slot k)
    (hf : ∀ w, (f w).s = w.s) : (s.modW f).sN n = s.sN n := by
  unfold State.sN sOf
  rw [State.cw_modW _ _ h, State.cp, State.path?_modW _ _ hs, hf]
  rfl

end Sys2Proof.Machine
end

