-- ==== Sys2Proof/Laws/Scalar.lean ====
section
/-! SUPPORT. Laws of the scalar stream: what the tests before a scalar form do, what an instruction that is done leaves,
and from both, what a form that writes registers alone does. -/

namespace Sys2Proof.Machine

/-! ## The tests before a form -/

theorem State.quiet_windows {s : State} (h : s.quiet = true) : s.cp.windows = [] := by
  simpa [State.quiet, List.isEmpty_iff] using h

theorem State.accessWait_quiet {s : State} (h : s.cp.windows = []) (n : Nat) : s.accessWait n = none := by
  simp [State.accessWait, h]

/-- What a scalar form acts on when nothing keeps it back. -/
def State.gated (s : State) (i : Instr) : State := if isControl i then s.closeScalar else s

theorem scalarGate_ready {i : Instr} {s : State} (hq : s.quiet = true) (hr : scalarReady i s = true) :
    scalarGate i s = .go (s.gated i) := by
  have hw := State.quiet_windows hq
  simp only [scalarReady, Bool.and_eq_true, Bool.not_eq_true', Bool.and_eq_false_imp] at hr
  obtain ⟨⟨⟨⟨⟨⟨-, -⟩, hwf⟩, ht⟩, -⟩, hpu⟩, hh⟩ := hr
  have hill : i.illegal = none := by simpa [Instr.wf, Option.isNone_iff_eq_none] using hwf
  have ha := State.accessWait_quiet hw
  unfold scalarGate State.gated
  simp only [hw, windowsBlock, windowsDone, windowsRace, windowConflict, List.any_nil, List.all_nil, ht, hill, ha, ite_self]
  by_cases hin : s.inPu = true
  · simp only [hin, if_true, Bool.and_eq_true, decide_eq_true_eq] at hpu
    have h1 : ¬(4096 ≤ s.puCount) := by omega
    have h2 : (handlerBars i && s.cp.handler.isSome) = false := by
      cases hb : handlerBars i <;> simp_all
    cases hc : isControl i <;> simp [hin, h1, hpu.1, h2]
  · have hin' : s.inPu = false := by simpa using hin
    simp only [hin', if_false, Bool.false_eq_true, Bool.not_eq_true'] at hpu
    have h2 : (handlerBars i && s.cp.handler.isSome) = false := by
      cases hb : handlerBars i <;> simp_all
    cases hc : isControl i <;> simp [hin', hpu, h2]

theorem scalarReady_path {i : Instr} {s : State} (hr : scalarReady i s = true) : s.path?.isSome = true := by
  simp only [scalarReady, Bool.and_eq_true] at hr
  exact hr.1.1.1.1.1.2

theorem scalarReady_agrees {i : Instr} {s : State} (hr : scalarReady i s = true) : s.agrees = true := by
  simp only [scalarReady, Bool.and_eq_true] at hr
  exact hr.1.1.2

/-- The copies of a pair still agree where no register of the shadow's has changed and no run has been added. -/
theorem State.agrees_of {s t : State} (h : s.agrees = true) (hw : t.cw.twin = s.cw.twin) (hp : t.cp.twin = s.cp.twin)
    (hq : ∀ r ∈ t.cp.queue, r ∈ s.cp.queue) (hd : t.cp.windows = []) (hh : t.cp.handler = s.cp.handler) : t.agrees = true := by
  simp only [State.agrees, Bool.and_eq_true, List.all_eq_true] at *
  exact ⟨⟨⟨⟨hw ▸ h.1.1.1.1, hp ▸ h.1.1.1.2⟩, fun r hr => h.1.1.2 r (hq r hr)⟩, by simp [hd]⟩, hh ▸ h.2⟩

/-! ## An instruction that is done -/

theorem State.settle_none {s : State} (n : Nat) (h : s.cp.windows = []) :
    s.settle s.cur.1 s.cur.2 n = s := by
  cases n with
  | zero => rfl
  | succ n =>
    have h1 : s.settleOne s.cur.1 s.cur.2 = (s, false) := by
      unfold State.settleOne
      cases hp : s.pathAt s.cur.1 s.cur.2 with
      | none => rfl
      | some p =>
        have : s.cp = p := State.cp_of (by simpa [State.path?] using hp)
        rw [this] at h
        simp [h]
    simp [State.settle, h1]

theorem State.settleAll_quiet {s : State} (h : s.cp.windows = []) :
    s.settleAll s.cur.1 s.cur.2 = s.modP popRun := by
  unfold State.settleAll
  rw [State.settle_none 40 h]
  rfl

theorem popRun_eq (p : Path) : popRun p = { p with queue := (popRun p).queue } := by
  unfold popRun
  split
  · split <;> rfl
  · rfl

theorem popRun_queue (p q : Path) (h1 : p.queue = q.queue) (h2 : p.windows = q.windows) :
    (popRun p).queue = (popRun q).queue := by
  unfold popRun
  rw [h1, h2]
  cases q.queue with
  | nil => simp [h1]
  | cons r t => dsimp only; split <;> simp [h1]

theorem State.path?_puTick (s : State) : s.puTick.path? = s.path? := by
  unfold State.path? State.pathAt; simp
@[simp] theorem State.cp_puTick (s : State) : s.puTick.cp = s.cp := by simp [State.cp, State.path?_puTick]
@[simp] theorem State.cw_puTick (s : State) : s.puTick.cw = s.cw := by simp [State.cw]
@[simp] theorem State.sN_puTick (s : State) (n : Nat) : s.puTick.sN n = s.sN n := by simp [State.sN]
@[simp] theorem State.sReg_puTick (s : State) (n : BitVec 6) : s.puTick.sReg n = s.sReg n := by simp [State.sReg]
@[simp] theorem State.aReg_puTick (s : State) (n : BitVec 4) : s.puTick.aReg n = s.aReg n := by simp [State.aReg]
@[simp] theorem State.qReg_puTick (s : State) (n : BitVec 3) : s.puTick.qReg n = s.qReg n := by simp [State.qReg]
theorem State.path?_progress (s : State) : s.progress.path? = s.path? := by
  unfold State.path? State.pathAt; simp
@[simp] theorem State.cp_progress (s : State) : s.progress.cp = s.cp := by simp [State.cp, State.path?_progress]
@[simp] theorem State.cw_progress (s : State) : s.progress.cw = s.cw := by simp [State.cw]

/-- The path as an instruction that is done leaves it, its windows closed. -/
def Path.moved (p : Path) (pc : VAddr) : Path :=
  Path.stepped false { p with
    pc := pc, stall := 0, begun := false, skipBp := false, awaits := none, windows := tickWindows false p.windows }

theorem Path.moved_windows (p : Path) (pc : VAddr) (h : p.windows = []) : (p.moved pc).windows = [] := by
  unfold Path.moved Path.stepped
  simp only [h, tickWindows, endWindows, List.map_nil, Bool.false_eq_true, if_false]
  split <;> rfl

theorem State.goto_quiet {s : State} (pc : VAddr) (hp : s.path?.isSome) (h : s.cp.windows = []) :
    s.goto pc = ((s.modP (fun p => p.moved pc)).modP popRun).progress.puTick := by
  have hw : (s.modP (fun p => p.moved pc)).cp.windows = [] := by
    rw [State.cp_modP _ _ hp]; exact Path.moved_windows _ _ h
  have h1 := State.settleAll_quiet hw
  simp only [State.modP_cur] at h1
  show ((s.modP (fun p => p.moved pc)).settleAll _ _).progress.puTick = _
  simp only [State.modP_cur]
  rw [h1]

theorem popRun_mem (p : Path) : ∀ r ∈ (popRun p).queue, r ∈ p.queue := by
  intro r hr
  unfold popRun at hr
  cases hq : p.queue with
  | nil => simp [hq] at hr
  | cons x t =>
    simp only [hq] at hr
    split at hr
    · exact List.mem_cons_of_mem _ hr
    · simpa [hq] using hr

/-- Nothing is on its way when a control form closes the windows of a quiet path: its finished run leaves. -/
theorem State.closeScalar_quiet {s : State} (hp : s.path?.isSome = true) (hw : s.cp.windows = []) :
    s.closeScalar = (s.modP (fun p => { p with windows := endWindows false p.windows })).modP popRun := by
  unfold State.closeScalar
  have h2 := State.settleAll_quiet (s := s.modP (fun p => { p with windows := endWindows false p.windows }))
    (by rw [State.cp_modP _ _ hp, hw]; rfl)
  simpa only [State.modP_cur] using h2

theorem State.gated_agrees {i : Instr} {s : State} (hq : s.quiet = true) (hr : scalarReady i s = true) :
    (s.gated i).agrees = true := by
  have hp := scalarReady_path hr
  have ha := scalarReady_agrees hr
  unfold State.gated
  split
  · rw [State.closeScalar_quiet hp (State.quiet_windows hq)]
    have hp1 : (s.modP (fun p => { p with windows := endWindows false p.windows })).path?.isSome = true := by
      rw [State.path?_modP]; simpa using hp
    refine State.agrees_of ha ?_ ?_ ?_ ?_ ?_
    · rw [State.cw_modP _ _ hp1, State.cw_modP _ _ hp]
    · rw [State.cp_modP _ _ hp1, popRun_eq, State.cp_modP _ _ hp]
    · rw [State.cp_modP _ _ hp1, State.cp_modP _ _ hp]
      exact popRun_mem _
    · rw [State.cp_modP _ _ hp1, popRun_eq, State.cp_modP _ _ hp]
      simp [State.quiet_windows hq, endWindows]
    · rw [State.cp_modP _ _ hp1, popRun_eq, State.cp_modP _ _ hp]
  · exact ha

/-- A scalar form that nothing keeps back does its body. -/
theorem scalarForm_ready {i : Instr} {s : State} (body : State → State) (hq : s.quiet = true)
    (hr : scalarReady i s = true) : scalarForm i s body = .next (body (s.gated i)) := by
  have hg := scalarGate_ready hq hr
  have ha := State.gated_agrees hq hr
  simp only [scalarReady, Bool.and_eq_true, Bool.not_eq_true'] at hr
  unfold scalarForm
  have h1 : s.hub.fatal = false := hr.1.1.1.1.1.1
  have h2 : s.path?.isNone = false := by
    have := hr.1.1.1.1.1.2
    cases h : s.path? <;> simp_all
  simp [h1, h2, hg, State.pairScalar, ha]

/-- A state that differs from another in the registers of the issuing path alone, and in what the unit counts. -/
structure RegsOnly (s t : State) : Prop where
  some : t.path?.isSome = true
  path : t.cp = { s.cp with s := t.cp.s, q := t.cp.q, queue := t.cp.queue }
  runs : (∀ r ∈ s.cp.queue, r.pos < r.count) → t.cp.queue = s.cp.queue
  warp : t.cw = { s.cw with s := t.cw.s, a := t.cw.a, slot0 := t.cw.slot0, slot1 := t.cw.slot1, stack := t.cw.stack }
  slots : ∀ k, k ≠ s.cur.2 → t.cw.slot k = s.cw.slot k
  warps : ∀ w, w ≠ s.cur.1 → t.warps.find w = s.warps.find w
  rest : t = { s with warps := t.warps, pu := t.pu }

theorem rest_trans {s t u : State} (h1 : t = { s with warps := t.warps, pu := t.pu })
    (h2 : u = { t with warps := u.warps, pu := u.pu }) : u = { s with warps := u.warps, pu := u.pu } := by
  refine h2.trans ?_
  rw [h1]

theorem RegsOnly.refl {s : State} (h : s.path?.isSome = true) : RegsOnly s s :=
  ⟨h, rfl, fun _ => rfl, rfl, fun _ _ => rfl, fun _ _ => rfl, rfl⟩

theorem RegsOnly.cur {s t : State} (h : RegsOnly s t) : t.cur = s.cur := by rw [h.rest]

theorem RegsOnly.windows {s t : State} (h : RegsOnly s t) : t.cp.windows = s.cp.windows := by rw [h.path]

theorem State.modW_rest (s : State) (f : Warp → Warp) :
    s.modW f = { s with warps := (s.modW f).warps, pu := (s.modW f).pu } := by
  unfold State.modW State.modWarp; split <;> rfl

theorem State.modP_rest (s : State) (f : Path → Path) :
    s.modP f = { s with warps := (s.modP f).warps, pu := (s.modP f).pu } := by
  unfold State.modP State.modPathAt State.modWarp; split <;> rfl

/-- An update of the registers a warp holds. -/
theorem RegsOnly.modW {s t : State} (h : RegsOnly s t) (f : Warp → Warp) (h1 : ∀ w k, (f w).slot k = w.slot k)
    (h2 : ∀ w, f w = { w with s := (f w).s, a := (f w).a, slot0 := (f w).slot0, slot1 := (f w).slot1, stack := (f w).stack }) :
    RegsOnly s (t.modW f) := by
  have hp := State.path?_modW t f h1
  have hc : (t.modW f).cp = t.cp := by simp [State.cp, hp]
  have hw := State.cw_modW t f h.some
  refine ⟨by rw [hp]; exact h.some, by rw [hc]; exact h.path, by rw [hc]; exact h.runs, ?_, ?_, ?_, ?_⟩
  · rw [hw, h2, h.warp]
  · intro k hk; rw [hw, h1]; exact h.slots k hk
  · intro w hk; rw [State.find_modW_ne _ _ _ (by rw [h.cur]; exact hk)]; exact h.warps w hk
  · exact rest_trans h.rest (State.modW_rest t f)

/-- An update of the registers a path holds, or the end of its finished run. -/
theorem RegsOnly.modP {s t : State} (h : RegsOnly s t) (f : Path → Path)
    (h1 : f t.cp = { t.cp with s := (f t.cp).s, q := (f t.cp).q, queue := (f t.cp).queue })
    (h2 : (∀ r ∈ t.cp.queue, r.pos < r.count) → (f t.cp).queue = t.cp.queue) : RegsOnly s (t.modP f) := by
  have hp := State.path?_modP t f
  have hc := State.cp_modP t f h.some
  have hw := State.cw_modP t f h.some
  refine ⟨by rw [hp]; simpa using h.some, ?_, ?_, ?_, ?_, ?_, ?_⟩
  · rw [hc, h1, h.path]
  · intro hr
    have he := h.runs hr
    rw [hc, h2 (by rw [he]; exact hr), he]
  · rw [hw, h.warp]
  · intro k hk
    rw [State.slot_modP_ne _ _ h.some _ (by rw [h.cur]; exact hk)]; exact h.slots k hk
  · intro w hk; rw [State.find_modP_ne _ _ _ (by rw [h.cur]; exact hk)]; exact h.warps w hk
  · exact rest_trans h.rest (State.modP_rest t f)

theorem RegsOnly.setSN {s t : State} (h : RegsOnly s t) (n : Nat) (x : DWord) : RegsOnly s (t.setSN n x) := by
  unfold State.setSN
  split
  · exact h.modW _ (fun _ _ => rfl) (fun _ => rfl)
  · exact h.modP _ rfl (fun _ => rfl)

theorem RegsOnly.setS {s t : State} (h : RegsOnly s t) (n : BitVec 6) (x : DWord) : RegsOnly s (t.setS n x) :=
  h.setSN n.toNat x

theorem RegsOnly.setA {s t : State} (h : RegsOnly s t) (n : BitVec 4) (x : VAddr) : RegsOnly s (t.setA n x) :=
  h.modW _ (fun _ _ => rfl) (fun _ => rfl)

theorem RegsOnly.setQ {s t : State} (h : RegsOnly s t) (n : BitVec 3) (b : Bool) : RegsOnly s (t.setQ n b) := by
  unfold State.setQ
  split
  · exact h
  · exact h.modP _ rfl (fun _ => rfl)

theorem RegsOnly.puTick {s t : State} (h : RegsOnly s t) : RegsOnly s t.puTick := by
  refine ⟨by rw [State.path?_puTick]; exact h.some, by rw [State.cp_puTick]; exact h.path, by rw [State.cp_puTick]; exact h.runs,
    by rw [State.cw_puTick]; exact h.warp, by rw [State.cw_puTick]; exact h.slots, by simpa using h.warps, ?_⟩
  have : t.puTick = { t with pu := t.puTick.pu } := by unfold State.puTick; split <;> rfl
  exact rest_trans h.rest (this.trans (by rw [State.puTick_warps]))

theorem popRun_runs (p : Path) (h : ∀ r ∈ p.queue, r.pos < r.count) : (popRun p).queue = p.queue := by
  unfold popRun
  cases hq : p.queue with
  | nil => simp [hq]
  | cons r t =>
    have : r.pos < r.count := h r (by simp [hq])
    simp only [ge_iff_le]
    rw [if_neg (by simp; omega)]
    exact hq

theorem RegsOnly.endRun {s t : State} (h : RegsOnly s t) : RegsOnly s (t.modP popRun) :=
  h.modP _ (by rw [popRun_eq]) (popRun_runs _)

theorem RegsOnly.closeScalar {s t : State} (h : RegsOnly s t) (hw : t.cp.windows = []) : RegsOnly s t.closeScalar := by
  rw [State.closeScalar_quiet h.some hw]
  have h1 : RegsOnly s (t.modP (fun p => { p with windows := endWindows false p.windows })) := by
    refine h.modP _ ?_ (fun _ => rfl)
    simp [hw, endWindows]
  exact h1.endRun

theorem RegsOnly.gated {s : State} (hp : s.path?.isSome = true) (hq : s.quiet = true) (i : Instr) :
    RegsOnly s (s.gated i) := by
  unfold State.gated
  split
  · exact (RegsOnly.refl hp).closeScalar (State.quiet_windows hq)
  · exact RegsOnly.refl hp

/-! Registers the tests before a form leave. -/

theorem State.sN_popRun (s : State) (h : s.path?.isSome = true) (n : Nat) : (s.modP popRun).sN n = s.sN n :=
  State.sN_modP _ _ h _ (fun p => by rw [popRun_eq])

structure SameRegs (s t : State) : Prop where
  sv : ∀ n, t.sN n = s.sN n
  av : ∀ n, t.aN n = s.aN n
  qv : ∀ n, t.qN n = s.qN n
  pc : t.cp.pc = s.cp.pc
  ctx : t.cctx = s.cctx
  text : t.cw.ctx = s.cw.ctx

theorem SameRegs.modP {s t : State} (h : SameRegs s t) (f : Path → Path) (hp : t.path?.isSome = true)
    (hs : (f t.cp).s = t.cp.s) (hq : (f t.cp).q = t.cp.q) (hpc : (f t.cp).pc = t.cp.pc) : SameRegs s (t.modP f) := by
  have hw := State.cw_modP t f hp
  refine ⟨?_, ?_, ?_, ?_, ?_, ?_⟩
  · intro n
    rw [← h.sv n]
    unfold State.sN sOf
    rw [State.cp_modP _ _ hp, hw, hs]
  · intro n; rw [← h.av n]; unfold State.aN; rw [hw]
  · intro n; rw [← h.qv n]; unfold State.qN Path.qBit; rw [State.cp_modP _ _ hp, hq]
  · rw [State.cp_modP _ _ hp, hpc, h.pc]
  · rw [← h.ctx]; unfold State.cctx State.ctx; rw [hw]; simp
  · rw [← h.text, hw]

theorem SameRegs.puTick {s t : State} (h : SameRegs s t) : SameRegs s t.puTick :=
  ⟨by simpa using h.sv, by simpa [State.aN] using h.av, by simpa [State.qN] using h.qv, by simpa using h.pc,
    by simpa [State.cctx, State.ctx] using h.ctx, by simpa using h.text⟩

theorem SameRegs.gated {s : State} (hp : s.path?.isSome = true) (hq : s.quiet = true) (i : Instr) :
    SameRegs s (s.gated i) := by
  have hrefl : SameRegs s s := ⟨fun _ => rfl, fun _ => rfl, fun _ => rfl, rfl, rfl, rfl⟩
  unfold State.gated
  split
  · rw [State.closeScalar_quiet hp (State.quiet_windows hq)]
    have h1 : SameRegs s (s.modP (fun p => { p with windows := endWindows false p.windows })) := hrefl.modP _ hp rfl rfl rfl
    have hp1 : (s.modP (fun p => { p with windows := endWindows false p.windows })).path?.isSome = true := by
      rw [State.path?_modP]; simpa using hp
    refine h1.modP _ hp1 ?_ ?_ ?_ <;> rw [popRun_eq]
  · exact hrefl

/-! ## A form that moves on -/

theorem Path.moved_eq (p : Path) (pc : VAddr) (h : p.windows = []) : p.moved pc = { p with
    pc := pc, stall := 0, begun := false, skipBp := false, awaits := none, windows := []
    stepping := (Path.stepped false p).stepping } := by
  unfold Path.moved Path.stepped
  simp only [h, tickWindows, endWindows, List.map_nil, Bool.false_eq_true, if_false]
  split <;> rfl

theorem Path.stepped_stepping (l : Bool) (p q : Path) (h1 : p.stepping = q.stepping) :
    (Path.stepped l p).stepping = (Path.stepped l q).stepping := by
  unfold Path.stepped
  generalize (if l = true then (2 : BitVec 2) else 1) = c
  by_cases h : q.stepping = c
  · rw [if_pos (h1.trans h), if_pos h]
  · rw [if_neg (by rw [h1]; exact h), if_neg h]; exact h1

theorem State.progress_teams_congr {s t : State} (h0 : t.cur = s.cur) (h1 : t.cw.team = s.cw.team)
    (h2 : t.teams = s.teams) : t.progress.teams = s.progress.teams := by
  unfold State.progress State.modTeam State.inPu
  rw [h0, h1, h2]
  cases h : s.teams.find s.cw.team <;> split <;> simp [h2]

theorem State.progress_eq (s : State) : s.progress = { s with teams := s.progress.teams } := by
  unfold State.progress State.modTeam
  split
  · rfl
  · split <;> rfl

theorem State.puTick_pu_congr {s t : State} (h0 : t.cur = s.cur) (h1 : t.pu = s.pu) : t.puTick.pu = s.puTick.pu := by
  unfold State.puTick State.inPu
  rw [h0, h1]
  split <;> simp [h1]

theorem State.puTick_eq (s : State) : s.puTick = { s with pu := s.puTick.pu } := by
  unfold State.puTick
  split <;> rfl

/-- The PC moves: everything else the instruction wrote stands. -/
theorem RegsOnly.goto {s t : State} (h : RegsOnly s t) (hq : s.quiet = true) (hu : t.pu = s.pu) (pc : VAddr) :
    ScalarDone s (t.goto pc) pc ∧ (∀ n, (t.goto pc).sN n = t.sN n) ∧ (∀ n, (t.goto pc).aN n = t.aN n)
      ∧ (∀ n, (t.goto pc).qN n = t.qN n) := by
  have hw : t.cp.windows = [] := by rw [h.windows]; exact State.quiet_windows hq
  rw [State.goto_quiet pc h.some hw]
  have hp1 : (t.modP (fun p => p.moved pc)).path?.isSome = true := by rw [State.path?_modP]; simpa using h.some
  have hc1 := State.cp_modP t (fun p => p.moved pc) h.some
  have hc2 := State.cp_modP _ popRun hp1
  have hm := Path.moved_eq t.cp pc hw
  have hst : (Path.stepped false t.cp).stepping = (Path.stepped false s.cp).stepping :=
    Path.stepped_stepping _ _ _ (by rw [h.path])
  have hcp : ((t.modP (fun p => p.moved pc)).modP popRun).cp = { s.cp with
      pc := pc, s := t.cp.s, q := t.cp.q, queue := (popRun (t.cp.moved pc)).queue, stall := 0, begun := false
      skipBp := false, awaits := none, windows := [], stepping := (Path.stepped false s.cp).stepping } := by
    rw [hc2, hc1, popRun_eq, hm, hst, h.path]
  have hw1 := State.cw_modP t (fun p => p.moved pc) h.some
  have hw2 := State.cw_modP _ popRun hp1
  refine ⟨⟨?_, ?_, ?_, ?_, ?_, ?_, ?_⟩, ?_, ?_, ?_⟩
  · simp [hcp]
  · rw [State.cp_puTick, State.cp_progress, hcp]
    simp [State.quiet_windows hq]
  · intro hr
    rw [State.cp_puTick, State.cp_progress, hcp]
    have h1 := h.runs hr
    show (popRun (t.cp.moved pc)).queue = _
    have h3 : (t.cp.moved pc).queue = t.cp.queue := by rw [hm]
    rw [popRun_runs _ (by rw [h3, h1]; exact hr), h3, h1]
  · rw [State.cw_puTick, State.cw_progress, hw2, hw1, h.warp]
  · intro k hk
    rw [State.cw_puTick, State.cw_progress, State.slot_modP_ne _ _ hp1 _ (by rw [State.modP_cur, h.cur]; exact hk),
      State.slot_modP_ne _ _ h.some _ (by rw [h.cur]; exact hk)]
    exact h.slots k hk
  · intro w hk
    rw [State.puTick_warps, State.progress_warps, State.find_modP_ne _ _ _ (by rw [State.modP_cur, h.cur]; exact hk),
      State.find_modP_ne _ _ _ (by rw [h.cur]; exact hk)]
    exact h.warps w hk
  · have hte : ((t.modP (fun p => p.moved pc)).modP popRun).progress.teams = s.progress.teams := by
      refine State.progress_teams_congr (by simp [h.cur]) ?_ (by rw [State.modP_teams, State.modP_teams, h.rest])
      rw [hw2, hw1, h.warp]
    have hpe : ((t.modP (fun p => p.moved pc)).modP popRun).progress.puTick.pu = s.puTick.pu :=
      State.puTick_pu_congr (by simp [h.cur]) (by simp [hu])
    rw [State.puTick_eq, hpe, State.progress_eq, hte]
    have h3 := rest_trans h.rest (State.modP_rest t (fun p => p.moved pc))
    have h4 := rest_trans h3 (State.modP_rest _ popRun)
    generalize (t.modP (fun p => p.moved pc)).modP popRun = u at h4 ⊢
    rw [h4]
  · intro n
    unfold State.sN sOf
    rw [State.cp_puTick, State.cp_progress, State.cw_puTick, State.cw_progress, hcp, hw2, hw1]
  · intro n
    unfold State.aN
    rw [State.cw_puTick, State.cw_progress, hw2, hw1]
  · intro n
    unfold State.qN Path.qBit
    rw [State.cp_puTick, State.cp_progress, hcp]

/-! ## A form that writes registers -/

theorem RegsOnly.gated_pu {s : State} (hq : s.quiet = true) (hp : s.path?.isSome = true) (i : Instr) :
    (s.gated i).pu = s.pu := by
  unfold State.gated
  split
  · rw [State.closeScalar_quiet hp (State.quiet_windows hq)]; simp
  · rfl

theorem RegsOnly.gated_cur {s : State} (hq : s.quiet = true) (hp : s.path?.isSome = true) (i : Instr) :
    (s.gated i).cur = s.cur := (RegsOnly.gated hp hq i).cur

/-- A form whose body writes registers and then moves the PC: the registers after it are those the body wrote. -/
theorem Gives.of_goto {i : Instr} {body : State → State} (pc : State → VAddr) (f : State → State)
    {sv : State → Nat → DWord} {av : State → Nat → VAddr} {qv : State → Nat → Bool}
    (he : ∀ s, exec i s = scalarForm i s body) (hb : ∀ s, SameRegs s (s.gated i) → s.quiet = true → scalarReady i s = true →
      RegsOnly s (f (s.gated i)) ∧ (f (s.gated i)).pu = s.pu ∧ body (s.gated i) = (f (s.gated i)).goto (pc s)
        ∧ (∀ n, (f (s.gated i)).sN n = sv s n) ∧ (∀ n, (f (s.gated i)).aN n = av s n)
        ∧ (∀ n, (f (s.gated i)).qN n = qv s n)) : Gives i pc sv av qv := by
  intro s hq hr
  have hp := scalarReady_path hr
  obtain ⟨h1, h2, h3, h4, h5, h6⟩ := hb s (SameRegs.gated hp hq i) hq hr
  have hg := h1.goto hq h2 (pc s)
  refine ⟨_, by rw [he, scalarForm_ready _ hq hr, h3], ?_, ?_, ?_, hg.1⟩
  · intro n; rw [hg.2.1, h4]
  · intro n; rw [hg.2.2.1, h5]
  · intro n; rw [hg.2.2.2, h6]

theorem State.aN_setSN (s : State) (h : s.path?.isSome = true) (n m : Nat) (x : DWord) : (s.setSN n x).aN m = s.aN m := by
  unfold State.setSN State.aN
  split
  · rw [State.cw_modW _ _ h]
  · rw [State.cw_modP _ _ h]

theorem State.qN_setSN (s : State) (h : s.path?.isSome = true) (n m : Nat) (x : DWord) : (s.setSN n x).qN m = s.qN m := by
  unfold State.qN
  have : (s.setSN n x).cp.q = s.cp.q := by
    unfold State.setSN
    split
    · rw [State.cp_modW s (fun w => { w with s := w.s.set n x }) (fun _ _ => rfl)]
    · rw [State.cp_modP _ _ h]
  unfold Path.qBit; rw [this]

theorem State.sN_setA (s : State) (h : s.path?.isSome = true) (n : BitVec 4) (m : Nat) (x : VAddr) :
    (s.setA n x).sN m = s.sN m := State.sN_modW _ _ h _ (fun _ _ => rfl) (fun _ => rfl)

theorem State.aN_setA (s : State) (h : s.path?.isSome = true) (n : BitVec 4) (m : Nat) (x : VAddr) :
    (s.setA n x).aN m = setAt s.aN n.toNat x m := by
  unfold State.setA State.aN setAt
  rw [State.cw_modW _ _ h]
  simp

theorem State.qN_setA (s : State) (n : BitVec 4) (m : Nat) (x : VAddr) : (s.setA n x).qN m = s.qN m := by
  unfold State.qN State.setA
  rw [State.cp_modW s (fun w => { w with a := w.a.set n.toNat x }) (fun _ _ => rfl)]

theorem State.sN_setQ (s : State) (h : s.path?.isSome = true) (n : BitVec 3) (m : Nat) (b : Bool) :
    (s.setQ n b).sN m = s.sN m := by
  unfold State.setQ
  split
  · rfl
  · exact State.sN_modP _ _ h _ (fun _ => rfl)

theorem State.aN_setQ (s : State) (h : s.path?.isSome = true) (n : BitVec 3) (m : Nat) (b : Bool) :
    (s.setQ n b).aN m = s.aN m := by
  unfold State.setQ
  split
  · rfl
  · unfold State.aN; rw [State.cw_modP _ _ h]

theorem bitB_putBit8 (x : BitVec 8) (n m : Nat) (b : Bool) (hn : n < 8) :
    bitB (putBit x n b) m = if m = n then b else bitB x m := by
  unfold bitB putBit putBits
  by_cases hm : m < 8
  · interval_cases n <;> interval_cases m <;> cases b <;> simp
  · have : m ≠ n := by omega
    simp [this, BitVec.getLsbD_of_ge _ _ (Nat.le_of_not_lt hm)]

theorem State.qN_setQ (s : State) (h : s.path?.isSome = true) (n : BitVec 3) (m : Nat) (b : Bool) :
    (s.setQ n b).qN m = if n = 0 then s.qN m else setAt s.qN n.toNat b m := by
  unfold State.setQ
  split
  · rfl
  · rename_i hn
    unfold State.qN Path.qBit setAt
    rw [State.cp_modP _ _ h]
    have h0 : n.toNat ≠ 0 := fun hc => hn (by apply BitVec.eq_of_toNat_eq; simpa using hc)
    have h8 : n.toNat < 8 := n.isLt
    simp only [bitB_putBit8 _ _ _ _ h8]
    by_cases hm : m = n.toNat
    · subst hm; simp [h0]
    · simp [hm]

theorem RegsOnly.pc {s t : State} (h : RegsOnly s t) : t.cp.pc = s.cp.pc := by rw [h.path]

/-- What a form that writes one scalar register does (R203). -/
theorem GivesS.of_toS {i : Instr} {d : BitVec 6} {g x : State → DWord} (he : ∀ s, exec i s = toS i d g s)
    (hg : ∀ s u, SameRegs s u → g u = x s) : GivesS i d x := by
  refine Gives.of_goto _ (fun u => u.setS d (g u)) (body := fun u => (u.setS d (g u)).advance) he ?_
  intro s hs hq hr
  have hp := scalarReady_path hr
  have h := RegsOnly.gated hp hq i
  refine ⟨h.setS _ _, ?_, ?_, ?_, ?_, ?_⟩
  · rw [State.setS_pu, RegsOnly.gated_pu hq hp]
  · show State.goto _ _ = _
    rw [(h.setS d _).pc]
  · intro n
    rw [hg s _ hs]
    show (State.setSN _ _ _).sN n = _
    rw [State.sN_setSN _ _ _ _ h.some, hs.sv]
    rfl
  · intro n; show (State.setSN _ _ _).aN n = _; rw [State.aN_setSN _ h.some, hs.av]
  · intro n; show (State.setSN _ _ _).qN n = _; rw [State.qN_setSN _ h.some, hs.qv]

/-- What a form that writes one condition register does. -/
theorem GivesQ.of_toQ {i : Instr} {d : BitVec 3} {g x : State → Bool} (he : ∀ s, exec i s = toQ i d g s)
    (hg : ∀ s u, SameRegs s u → g u = x s) : GivesQ i d x := by
  refine Gives.of_goto _ (fun u => u.setQ d (g u)) (body := fun u => (u.setQ d (g u)).advance) he ?_
  intro s hs hq hr
  have hp := scalarReady_path hr
  have h := RegsOnly.gated hp hq i
  refine ⟨h.setQ _ _, ?_, ?_, ?_, ?_, ?_⟩
  · rw [State.setQ_pu, RegsOnly.gated_pu hq hp]
  · show State.goto _ _ = _
    rw [(h.setQ d _).pc]
  · intro n; rw [State.sN_setQ _ h.some, hs.sv]
  · intro n; rw [State.aN_setQ _ h.some, hs.av]
  · intro n
    rw [hg s _ hs, State.qN_setQ _ h.some]
    split
    · exact hs.qv n
    · simp only [setAt, hs.qv]

/-- What a form that writes one address register does (R207). -/
theorem GivesA.of_toA {i : Instr} {d : BitVec 4} {g x : State → VAddr} (he : ∀ s, exec i s = toA i d g s)
    (hg : ∀ s u, SameRegs s u → g u = x s) : GivesA i d x := by
  refine Gives.of_goto _ (fun u => u.setA d (g u)) (body := fun u => (u.setA d (g u)).advance) he ?_
  intro s hs hq hr
  have hp := scalarReady_path hr
  have h := RegsOnly.gated hp hq i
  refine ⟨h.setA _ _, ?_, ?_, ?_, ?_, ?_⟩
  · rw [State.setA_pu, RegsOnly.gated_pu hq hp]
  · show State.goto _ _ = _
    rw [(h.setA d _).pc]
  · intro n; rw [State.sN_setA _ h.some, hs.sv]
  · intro n
    rw [hg s _ hs, State.aN_setA _ h.some]
    simp only [setAt, hs.av]
  · intro n; rw [State.qN_setA, hs.qv]

end Sys2Proof.Machine
end

