-- ==== Sys2Proof/Laws/Lane.lean ====
section
/-! SUPPORT. Laws of the lane stream: what the tests before a lane form do, what a word that is done leaves, and from
both, what a form that writes registers alone does. -/

namespace Sys2Proof.Machine

/-! ## The tests before a form -/

theorem laneReady_path {i : Instr} {s : State} (hr : laneReady i s = true) : s.path?.isSome = true := by
  simp only [laneReady, Bool.and_eq_true] at hr
  have h := hr.1.1.1.1.2
  unfold State.hasRun at h
  cases hp : s.path? with
  | none => simp [hp] at h
  | some p => rfl

theorem laneReady_run {i : Instr} {s : State} (hr : laneReady i s = true) :
    ∃ r q, s.cp.queue = r :: q ∧ r.pos < r.count := by
  simp only [laneReady, Bool.and_eq_true] at hr
  have h := hr.1.1.1.1.2
  unfold State.hasRun at h
  cases hp : s.path? with
  | none => simp [hp] at h
  | some p =>
    simp only [hp] at h
    rw [State.cp_of hp]
    cases hq : p.queue with
    | nil => simp [hq] at h
    | cons r q => exact ⟨r, q, rfl, by simpa [hq] using h⟩

theorem laneGate_ready {i : Instr} {s : State} (hv : ∀ f, i ≠ .vsync f) (hq : s.quiet = true)
    (hr : laneReady i s = true) : laneGate i s = .go s := by
  have hw := State.quiet_windows hq
  simp only [laneReady, Bool.and_eq_true, Bool.not_eq_true'] at hr
  obtain ⟨⟨⟨⟨⟨-, -⟩, hwf⟩, -⟩, hh⟩, hc⟩ := hr
  have hill : i.illegal = none := by simpa [Instr.wf, Option.isNone_iff_eq_none] using hwf
  unfold laneGate
  cases hk : laneCard i with
  | none => simp [hk] at hc
  | some fk =>
    obtain ⟨f, k⟩ := fk
    simp only [hk, Bool.and_eq_true, decide_eq_true_eq, beq_iff_eq] at hc
    have h1 : ¬(s.cw.budget < k.top f) := by omega
    have hp : s.poisonGate k f = .go s := by unfold State.poisonGate; simp only [hc.2, if_true]
    simp only [hw, windowsBlock, windowConflict, List.any_nil, hill, h1, if_false, Bool.false_eq_true, hh,
      State.accessWait_quiet hw, ite_self, hp]

/-- A lane form that nothing keeps back does its body. -/
theorem laneForm_ready {i : Instr} {s : State} (body : State → State) (hv : ∀ f, i ≠ .vsync f) (hq : s.quiet = true)
    (hr : laneReady i s = true) : laneForm i s body = .next (body s) := by
  have hg := laneGate_ready hv hq hr
  simp only [laneReady, Bool.and_eq_true, Bool.not_eq_true'] at hr
  unfold laneForm
  have h1 : s.hub.fatal = false := hr.1.1.1.1.1
  have h2 : s.hasRun = true := hr.1.1.1.1.2
  simp [h1, h2, hg, State.pairLane, hr.1.1.2]

/-! ## A word that is done -/

/-- A state that differs from another in lane, predicate, scalar and flag registers of the issuing path alone. -/
structure LanesOnly (s t : State) : Prop where
  some : t.path?.isSome = true
  path : t.cp = { s.cp with s := t.cp.s }
  warp : t.cw = { s.cw with
    s := t.cw.s, v := t.cw.v, vpoison := t.cw.vpoison, p := t.cw.p, pds := t.cw.pds, fpctl := t.cw.fpctl
    slot0 := t.cw.slot0, slot1 := t.cw.slot1, stack := t.cw.stack }
  slots : ∀ k, k ≠ s.cur.2 → t.cw.slot k = s.cw.slot k
  warps : ∀ w, w ≠ s.cur.1 → t.warps.find w = s.warps.find w
  rest : t = { s with warps := t.warps, pu := t.pu }
  pu : t.pu = s.pu

theorem LanesOnly.refl {s : State} (h : s.path?.isSome = true) : LanesOnly s s :=
  ⟨h, rfl, rfl, fun _ _ => rfl, fun _ _ => rfl, rfl, rfl⟩

theorem LanesOnly.cur {s t : State} (h : LanesOnly s t) : t.cur = s.cur := by rw [h.rest]

theorem LanesOnly.windows {s t : State} (h : LanesOnly s t) : t.cp.windows = s.cp.windows := by rw [h.path]

/-- An update of the registers a warp holds. -/
theorem LanesOnly.modW {s t : State} (h : LanesOnly s t) (f : Warp → Warp) (h1 : ∀ w k, (f w).slot k = w.slot k)
    (h2 : f t.cw = { t.cw with
      s := (f t.cw).s, v := (f t.cw).v, vpoison := (f t.cw).vpoison, p := (f t.cw).p, pds := (f t.cw).pds
      fpctl := (f t.cw).fpctl, slot0 := (f t.cw).slot0, slot1 := (f t.cw).slot1, stack := (f t.cw).stack }) :
    LanesOnly s (t.modW f) := by
  have hp := State.path?_modW t f h1
  have hc : (t.modW f).cp = t.cp := State.cp_modW t f h1
  have hw := State.cw_modW t f h.some
  refine ⟨by rw [hp]; exact h.some, by rw [hc]; exact h.path, ?_, ?_, ?_, ?_, ?_⟩
  · rw [hw, h2, h.warp]
  · intro k hk; rw [hw, h1]; exact h.slots k hk
  · intro w hk; rw [State.find_modW_ne _ _ _ (by rw [h.cur]; exact hk)]; exact h.warps w hk
  · exact rest_trans h.rest (State.modW_rest t f)
  · rw [State.modW_pu, h.pu]

theorem LanesOnly.setSN {s t : State} (h : LanesOnly s t) (n : Nat) (x : DWord) : LanesOnly s (t.setSN n x) := by
  unfold State.setSN
  split
  · exact h.modW _ (fun _ _ => rfl) rfl
  · have hp := State.path?_modP t (fun p => { p with s := p.s.set n x })
    have hc := State.cp_modP t (fun p => { p with s := p.s.set n x }) h.some
    have hw := State.cw_modP t (fun p => { p with s := p.s.set n x }) h.some
    refine ⟨by rw [hp]; simpa using h.some, by rw [hc, h.path], ?_, ?_, ?_, ?_, ?_⟩
    · rw [hw, h.warp]
    · intro k hk
      rw [State.slot_modP_ne _ _ h.some _ (by rw [h.cur]; exact hk)]; exact h.slots k hk
    · intro w hk; rw [State.find_modP_ne _ _ _ (by rw [h.cur]; exact hk)]; exact h.warps w hk
    · exact rest_trans h.rest (State.modP_rest t _)
    · rw [State.modP_pu, h.pu]

/-- The path as a word that is done leaves it. -/
def Path.movedLane (p : Path) : Path :=
  match p.queue with
  | r :: t =>
    let r := { r with pos := r.pos + 1 }
    let ws := tickWindows true p.windows
    Path.stepped true { p with
      queue := r :: t, lstall := 0, both := false, begun := false, skipBp := false, vsync := none
      windows := if r.pos ≥ r.count then endWindows true ws else ws }
  | [] => p

theorem Path.movedLane_eq (p : Path) (r : Run) (q : List Run) (hq : p.queue = r :: q) (h : p.windows = []) :
    p.movedLane = { p with
      queue := { r with pos := r.pos + 1 } :: q, lstall := 0, both := false, begun := false, skipBp := false, vsync := none, windows := []
      stepping := (Path.stepped true p).stepping } := by
  unfold Path.movedLane Path.stepped
  simp only [hq, h, tickWindows, endWindows, List.map_nil, if_true, ite_self]
  split <;> rfl

theorem Path.endRun_movedLane (p : Path) (r : Run) (q : List Run) (hq : p.queue = r :: q) (h : p.windows = []) :
    (popRun p.movedLane).queue = movedRuns p.queue := by
  rw [Path.movedLane_eq p r q hq h, hq]
  unfold popRun movedRuns
  simp only [ge_iff_le, List.any_nil, Bool.not_false, Bool.and_true, decide_eq_true_eq]
  by_cases hc : r.pos + 1 < r.count
  · rw [if_neg (by omega), if_pos hc]
  · rw [if_pos (by omega), if_neg hc]

theorem State.splitStalled_quiet {s : State} (hp : s.path?.isSome = true) (h : s.cp.windows = []) :
    s.splitStalled s.cur.1 s.cur.2 = s := by
  obtain ⟨p, hp'⟩ := Option.isSome_iff_exists.mp hp
  have hc := State.cp_of hp'
  unfold State.splitStalled
  have : s.pathAt s.cur.1 s.cur.2 = some p := by simpa [State.path?] using hp'
  rw [hc] at h
  simp [this, h]

theorem State.advanceLane_quiet {s : State} (hp : s.path?.isSome = true) (h : s.cp.windows = []) {r : Run} {q : List Run}
    (hq : s.cp.queue = r :: q) : s.advanceLane = ((s.modP Path.movedLane).modP popRun).progress := by
  have hm := Path.movedLane_eq s.cp r q hq h
  have hw : (s.modP Path.movedLane).cp.windows = [] := by rw [State.cp_modP _ _ hp, hm]
  have h1 := State.settleAll_quiet hw
  have hp1 : (s.modP Path.movedLane).path?.isSome = true := by rw [State.path?_modP]; simpa using hp
  have hp2 : ((s.modP Path.movedLane).modP popRun).path?.isSome = true := by rw [State.path?_modP]; simpa using hp1
  simp only [State.modP_cur] at h1
  show (((s.modP Path.movedLane).settleAll _ _).progress).splitStalled _ _ = _
  simp only [State.modP_cur]
  rw [h1]
  have h2 := State.splitStalled_quiet (s := ((s.modP Path.movedLane).modP popRun).progress)
    (by rw [State.path?_progress]; exact hp2)
    (by rw [State.cp_progress, State.cp_modP _ _ hp1, popRun_eq, hw])
  simpa using h2

/-- The lane stream moves on: everything else the word wrote stands. -/
theorem LanesOnly.advance {s t : State} (h : LanesOnly s t) (hq : s.quiet = true) {r : Run} {q : List Run}
    (hr : s.cp.queue = r :: q) :
    LaneDone s t.advanceLane ∧ (∀ n, t.advanceLane.sN n = t.sN n) ∧ t.advanceLane.cw.v = t.cw.v
      ∧ t.advanceLane.cw.p = t.cw.p ∧ t.advanceLane.cw.pds = t.cw.pds ∧ t.advanceLane.cw.fpctl = t.cw.fpctl := by
  have hw : t.cp.windows = [] := by rw [h.windows]; exact State.quiet_windows hq
  have hr' : t.cp.queue = r :: q := by rw [h.path]; exact hr
  rw [State.advanceLane_quiet h.some hw hr']
  have hp1 : (t.modP Path.movedLane).path?.isSome = true := by rw [State.path?_modP]; simpa using h.some
  have hc1 := State.cp_modP t Path.movedLane h.some
  have hc2 := State.cp_modP _ popRun hp1
  have hm := Path.movedLane_eq t.cp r q hr' hw
  have hst := Path.stepped_stepping true t.cp s.cp (by rw [h.path])
  have hcp : ((t.modP Path.movedLane).modP popRun).cp = { s.cp with
      s := t.cp.s, queue := movedRuns s.cp.queue, lstall := 0, both := false, begun := false, skipBp := false, vsync := none
      windows := [], stepping := (Path.stepped true s.cp).stepping } := by
    rw [hc2, hc1, popRun_eq, Path.endRun_movedLane t.cp r q hr' hw, hm, hst, hr', ← hr, h.path]
  have hw1 := State.cw_modP t Path.movedLane h.some
  have hw2 := State.cw_modP _ popRun hp1
  refine ⟨⟨?_, ?_, ?_, ?_, ?_⟩, ?_, ?_, ?_, ?_, ?_⟩
  · rw [State.cp_progress, hcp]
    simp [State.quiet_windows hq]
  · rw [State.cw_progress, hw2, hw1, h.warp]
  · intro k hk
    rw [State.cw_progress, State.slot_modP_ne _ _ hp1 _ (by rw [State.modP_cur, h.cur]; exact hk),
      State.slot_modP_ne _ _ h.some _ (by rw [h.cur]; exact hk)]
    exact h.slots k hk
  · intro w hk
    rw [State.progress_warps, State.find_modP_ne _ _ _ (by rw [State.modP_cur, h.cur]; exact hk),
      State.find_modP_ne _ _ _ (by rw [h.cur]; exact hk)]
    exact h.warps w hk
  · have ht := State.progress_eq
    have hte : ((t.modP Path.movedLane).modP popRun).progress.teams = s.progress.teams := by
      refine State.progress_teams_congr (by simp [h.cur]) ?_ (by rw [State.modP_teams, State.modP_teams, h.rest])
      rw [hw2, hw1, h.warp]
    rw [ht, hte]
    have h3 := rest_trans h.rest (State.modP_rest t Path.movedLane)
    have h4 := rest_trans h3 (State.modP_rest _ popRun)
    have h5 : ((t.modP Path.movedLane).modP popRun).pu = s.pu := by rw [State.modP_pu, State.modP_pu, h.pu]
    rw [h5] at h4
    generalize (t.modP Path.movedLane).modP popRun = u at h4 ⊢
    rw [h4]
  · intro n
    unfold State.sN sOf
    rw [State.cp_progress, State.cw_progress, hcp, hw2, hw1]
  · rw [State.cw_progress, hw2, hw1]
  · rw [State.cw_progress, hw2, hw1]
  · rw [State.cw_progress, hw2, hw1]
  · rw [State.cw_progress, hw2, hw1]

/-! ## Results in lanes -/

theorem Warp.vReg_setV (w : Warp) (n l m k : Nat) (x : Word) (b : Bool) (hl : l < 128) (hk : k < 128) :
    (w.setV n l x b).vReg m k = if m = n ∧ k = l then x else w.vReg m k := by
  unfold Warp.setV Warp.vReg
  simp only [Cells.get_set]
  by_cases h : m = n ∧ k = l
  · obtain ⟨rfl, rfl⟩ := h; simp
  · have : 128 * m + k ≠ 128 * n + l := by omega
    simp [this, h]

/-- Fields of a warp a lane result does not write. -/
def SameButLanes (w u : Warp) : Prop := u = { w with v := u.v, vpoison := u.vpoison }

theorem SameButLanes.refl (w : Warp) : SameButLanes w w := rfl

theorem SameButLanes.setV {w u : Warp} (h : SameButLanes w u) (n l : Nat) (x : Word) (b : Bool) :
    SameButLanes w (u.setV n l x b) := by
  unfold SameButLanes at *
  unfold Warp.setV
  rw [h]

theorem SameButLanes.slot {w u : Warp} (h : SameButLanes w u) (k : Nat) : u.slot k = w.slot k := by
  unfold SameButLanes at h
  rw [h]
  rfl

theorem Warp.applyAll_append (w : Warp) (k : Nat) (xs ys : List RegWrite) :
    w.applyAll k (xs ++ ys) = (w.applyAll k xs).applyAll k ys := by simp [Warp.applyAll]

theorem Warp.applyAll_regs (w : Warp) (k d l : Nat) (b : Bool) (x : Nat) (hl : l < 128) (n : Nat) :
    SameButLanes w (w.applyAll k ((List.range n).map (fun j => RegWrite.v (d + j) l (BitVec.ofNat 32 (x >>> (32 * j))) b)))
      ∧ ∀ r c, c < 128 → (w.applyAll k ((List.range n).map (fun j =>
          RegWrite.v (d + j) l (BitVec.ofNat 32 (x >>> (32 * j))) b))).vReg r c
        = if c = l ∧ d ≤ r ∧ r < d + n then BitVec.ofNat 32 (x >>> (32 * (r - d))) else w.vReg r c := by
  induction n with
  | zero => exact ⟨rfl, fun r c _ => by rw [if_neg (by omega)]; rfl⟩
  | succ n ih =>
    rw [List.range_succ, List.map_append, Warp.applyAll_append]
    generalize w.applyAll k ((List.range n).map _) = u at ih ⊢
    refine ⟨ih.1.setV _ _ _ _, fun r c hc => ?_⟩
    show (u.setV (d + n) l _ b).vReg r c = _
    rw [Warp.vReg_setV _ _ _ _ _ _ _ hl hc, ih.2 r c hc]
    by_cases h1 : r = d + n ∧ c = l
    · obtain ⟨rfl, rfl⟩ := h1
      rw [if_pos ⟨rfl, rfl⟩, if_pos (by omega)]
      simp
    · rw [if_neg h1]
      by_cases h2 : c = l ∧ d ≤ r ∧ r < d + n
      · rw [if_pos h2, if_pos (by omega)]
      · rw [if_neg h2, if_neg (by omega)]

/-- One value of n registers for each lane of a list: a register reads the value of its lane, or what it was. -/
theorem Warp.applyAll_laneWrites (k : Nat) (d : BitVec 8) (n : Nat) (b : Nat → Bool) (x : Nat → Nat) (ls : List Nat) :
    ∀ w : Warp, (∀ l ∈ ls, l < 128) →
      SameButLanes w (w.applyAll k (laneWrites d n b (ls.map (fun l => (l, x l)))))
        ∧ ∀ r c, c < 128 → (w.applyAll k (laneWrites d n b (ls.map (fun l => (l, x l))))).vReg r c
          = if c ∈ ls ∧ d.toNat ≤ r ∧ r < d.toNat + n then BitVec.ofNat 32 (x c >>> (32 * (r - d.toNat))) else w.vReg r c := by
  induction ls with
  | nil => intro w _; exact ⟨rfl, fun r c _ => by simp [laneWrites, Warp.applyAll]⟩
  | cons l ls ih =>
    intro w hl
    have hl0 : l < 128 := hl l (by simp)
    have hw : laneWrites d n b ((l :: ls).map (fun l => (l, x l)))
        = (List.range n).map (fun j => RegWrite.v (d.toNat + j) l (BitVec.ofNat 32 (x l >>> (32 * j))) (b l))
          ++ laneWrites d n b (ls.map (fun l => (l, x l))) := by simp [laneWrites]
    rw [hw, Warp.applyAll_append]
    obtain ⟨h1, h2⟩ := Warp.applyAll_regs w k d.toNat l (b l) (x l) hl0 n
    generalize w.applyAll k ((List.range n).map _) = u at h1 h2 ⊢
    obtain ⟨h3, h4⟩ := ih u (fun c hc => hl c (by simp [hc]))
    refine ⟨?_, fun r c hc => ?_⟩
    · unfold SameButLanes at *
      rw [h3, h1]
    · rw [h4 r c hc, h2 r c hc]
      by_cases hcl : c = l
      · subst hcl
        by_cases hr : d.toNat ≤ r ∧ r < d.toNat + n
        · simp [hr]
        · simp [hr]
      · simp [hcl]

theorem mem_lanesOf (m : Mask) (l : Nat) : l ∈ lanesOf m ↔ l < 128 ∧ bitB m l = true := by
  simp [lanesOf, bitB]

theorem mem_actLanes {s : State} {f : LaneWord} {l : Nat} :
    l ∈ s.actLanes f ↔ l < 128 ∧ bitB (activeMask s.cw s.cp f) l = true := mem_lanesOf _ _

/-- What a form that gives one value of n registers in each active lane does (R225, R229). -/
theorem GivesV.of_perLane {i : Instr} {f : LaneWord} {n : Nat} {g : Warp → Run → Nat → Nat} {x : State → Nat → Nat}
    (he : ∀ s, exec i s = perLane i f n g s) (hv : ∀ f, i ≠ .vsync f) (hg : ∀ s l, g s.cw s.run l = x s l) :
    GivesV i f n x := by
  intro s hq hr
  have hp := laneReady_path hr
  obtain ⟨r, q, hrun, -⟩ := laneReady_run hr
  have hl : ∀ l ∈ s.actLanes f, l < 128 := fun l h => (mem_actLanes.mp h).1
  obtain ⟨h1, h2⟩ := Warp.applyAll_laneWrites s.cur.2 f.d n (fun _ => false) (x s) (s.actLanes f) s.cw hl
  have hst : ∀ (w : Warp) k, (w.applyAll s.cur.2 (laneWrites f.d n (fun _ => false) ((s.actLanes f).map (fun l => (l, x s l))))).slot k
      = w.slot k := fun w k => (Warp.applyAll_laneWrites s.cur.2 f.d n (fun _ => false) (x s) (s.actLanes f) w hl).1.slot k
  have ho : LanesOnly s (s.modW (fun w => w.applyAll s.cur.2
      (laneWrites f.d n (fun _ => false) ((s.actLanes f).map (fun l => (l, x s l)))))) := by
    refine (LanesOnly.refl hp).modW _ hst ?_
    conv_lhs => rw [h1]
    rw [h1]
  have hcw := State.cw_modW s (fun w => w.applyAll s.cur.2
      (laneWrites f.d n (fun _ => false) ((s.actLanes f).map (fun l => (l, x s l))))) hp
  obtain ⟨hd, hs, hvv, hpp, hds, hfp⟩ := ho.advance hq hrun
  have hsN : ∀ m, (s.modW (fun w => w.applyAll s.cur.2
      (laneWrites f.d n (fun _ => false) ((s.actLanes f).map (fun l => (l, x s l)))))).sN m = s.sN m := by
    intro m
    refine State.sN_modW _ _ hp _ hst (fun w => ?_)
    have := (Warp.applyAll_laneWrites s.cur.2 f.d n (fun _ => false) (x s) (s.actLanes f) w hl).1
    unfold SameButLanes at this
    rw [this]
  refine ⟨_, ?_, ⟨?_, ?_, ?_, ?_, ?_, hd⟩⟩
  · rw [he]
    unfold perLane laneOp
    rw [laneForm_ready _ hv hq hr]
    simp only [hg]
  · intro r' c hc
    have : ∀ u : Warp, u.v = (s.modW (fun w => w.applyAll s.cur.2
      (laneWrites f.d n (fun _ => false) ((s.actLanes f).map (fun l => (l, x s l)))))).cw.v →
        u.vReg r' c = (s.modW (fun w => w.applyAll s.cur.2
      (laneWrites f.d n (fun _ => false) ((s.actLanes f).map (fun l => (l, x s l)))))).cw.vReg r' c := by
      intro u hu; unfold Warp.vReg; rw [hu]
    rw [this _ hvv, hcw, h2 r' c hc]
    unfold laneRegs writesLane
    by_cases ha : c ∈ s.actLanes f
    · have := (mem_actLanes.mp ha).2
      by_cases hb : f.d.toNat ≤ r' ∧ r' < f.d.toNat + n <;> simp [ha, this, hb]
    · have h5 : bitB (activeMask s.cw s.cp f) c = false := by
        by_contra hcon
        exact ha (mem_actLanes.mpr ⟨hc, by simpa using hcon⟩)
      simp [ha, h5]
  · intro m c hc
    unfold State.predN Warp.pred
    rw [hpp, hcw, h1]
  · intro m c hc
    unfold State.deadN Warp.predDs
    rw [hds, hcw, h1]
  · intro m; rw [hs, hsN]
  · rw [hfp, hcw, h1]

/-! ## Masks and predicates -/

theorem bitB_maskOf (ls : List Nat) (l : Nat) (hl : l < 128) : bitB (maskOf ls) l = decide (l ∈ ls) := by
  have h : ∀ (m : Mask), bitB (ls.foldl (fun m l => m ||| (1#128 <<< l)) m) l = (bitB m l || decide (l ∈ ls)) := by
    induction ls with
    | nil => intro m; simp
    | cons a r ih =>
      intro m
      rw [List.foldl_cons, ih]
      have h1 : bitB (m ||| 1#128 <<< a) l = (bitB m l || decide (l = a)) := by
        unfold bitB
        rw [BitVec.getLsbD_or, BitVec.getLsbD_shiftLeft]
        by_cases hla : l = a
        · subst hla; simp [hl]
        · by_cases hlt : l < a
          · simp [hla, hlt]
          · have : l - a ≠ 0 := by omega
            simp [hla, hlt, this]
      rw [h1]
      by_cases hla : l = a
      · simp [hla]
      · simp [hla]
  unfold maskOf
  rw [h]
  simp [bitB]

theorem bitB_merge (m v o : Mask) (l : Nat) (hl : l < 128) :
    bitB ((o &&& ~~~m) ||| (v &&& m)) l = if bitB m l then bitB v l else bitB o l := by
  unfold bitB
  rw [BitVec.getLsbD_or, BitVec.getLsbD_and, BitVec.getLsbD_and, BitVec.getLsbD_not]
  cases m.getLsbD l <;> simp [hl]

theorem Warp.pred_setPred (w : Warp) (d n l : Nat) (m v e : Mask) (hl : l < 128) :
    bitB ((w.setPred d m v e).pred n) l = if n = d ∧ d ≠ 0 ∧ bitB m l then bitB v l else bitB (w.pred n) l := by
  unfold Warp.setPred
  by_cases hd : d = 0
  · simp [hd]
  · simp only [hd, if_false]
    unfold Warp.pred
    by_cases hn : n = 0
    · have : n ≠ d := by omega
      simp [hn, Ne.symm hd]
    · simp only [hn, if_false, Cells.get_set]
      by_cases hnd : n = d
      · subst hnd
        simp only [if_true]
        rw [bitB_merge _ _ _ _ hl]
        simp [hd]
      · simp [hnd]

theorem Warp.predDs_setPred (w : Warp) (d n l : Nat) (m v e : Mask) (hl : l < 128) :
    bitB ((w.setPred d m v e).predDs n) l = if n = d ∧ d ≠ 0 ∧ bitB m l then bitB e l else bitB (w.predDs n) l := by
  unfold Warp.setPred
  by_cases hd : d = 0
  · simp [hd]
  · simp only [hd, if_false]
    unfold Warp.predDs
    by_cases hn : n = 0
    · have : n ≠ d := by omega
      simp [hn, Ne.symm hd]
    · simp only [hn, if_false, Cells.get_set]
      by_cases hnd : n = d
      · subst hnd
        simp only [if_true]
        rw [bitB_merge _ _ _ _ hl]
        simp [hd]
      · simp [hnd]

theorem Warp.setPred_eq (w : Warp) (d : Nat) (m v e : Mask) :
    w.setPred d m v e = { w with p := (w.setPred d m v e).p, pds := (w.setPred d m v e).pds } := by
  unfold Warp.setPred; split <;> rfl

theorem State.sN_setPred (s : State) (hp : s.path?.isSome = true) (d : Nat) (m v e : Mask) (n : Nat) :
    (s.modW (fun w => w.setPred d m v e)).sN n = s.sN n :=
  State.sN_modW _ _ hp _ (fun w k => by rw [Warp.setPred_eq]; rfl) (fun w => by rw [Warp.setPred_eq])

theorem LanesOnly.setPred {s t : State} (h : LanesOnly s t) (d : Nat) (m v e : Mask) :
    LanesOnly s (t.modW (fun w => w.setPred d m v e)) :=
  h.modW _ (fun w k => by rw [Warp.setPred_eq]; rfl) (by rw [Warp.setPred_eq])

theorem Warp.vReg_congr {w u : Warp} (h : w.v = u.v) (r l : Nat) : w.vReg r l = u.vReg r l := by unfold Warp.vReg; rw [h]
theorem Warp.pred_congr {w u : Warp} (h : w.p = u.p) (n : Nat) : w.pred n = u.pred n := by unfold Warp.pred; rw [h]
theorem Warp.predDs_congr {w u : Warp} (h : w.pds = u.pds) (n : Nat) : w.predDs n = u.predDs n := by
  unfold Warp.predDs; rw [h]

/-- What a form that gives one bit of a predicate in each active lane does (R225, R238). -/
theorem GivesP.of_perLanePred {i : Instr} {f : LaneWord} {g : Warp → Nat → Bool} {x : State → Nat → Bool}
    (he : ∀ s, exec i s = perLanePred i f g s) (hv : ∀ f, i ≠ .vsync f) (hg : ∀ s l, g s.cw l = x s l) :
    GivesP i f x := by
  intro s hq hr
  have hp := laneReady_path hr
  obtain ⟨r, q, hrun, -⟩ := laneReady_run hr
  have ho := (LanesOnly.refl hp).setPred f.d.toNat (activeMask s.cw s.cp f)
    (maskOf ((lanesOf (activeMask s.cw s.cp f)).filter (fun l => g s.cw l))) 0
  have hcw := State.cw_modW s (fun w => w.setPred f.d.toNat (activeMask s.cw s.cp f)
    (maskOf ((lanesOf (activeMask s.cw s.cp f)).filter (fun l => g s.cw l))) 0) hp
  obtain ⟨hd, hs, hvv, hpp, hds, hfp⟩ := ho.advance hq hrun
  refine ⟨_, ?_, ⟨?_, ?_, ?_, ?_, ?_, hd⟩⟩
  · rw [he]
    unfold perLanePred laneOp
    rw [laneForm_ready _ hv hq hr]
  · intro r' c hc
    rw [Warp.vReg_congr hvv, hcw, Warp.setPred_eq]
    rfl
  · intro n c hc
    rw [Warp.pred_congr hpp, hcw, Warp.pred_setPred _ _ _ _ _ _ _ hc]
    unfold predBits
    by_cases h1 : n = f.d.toNat ∧ f.d.toNat ≠ 0 ∧ bitB (activeMask s.cw s.cp f) c
    · rw [if_pos h1, if_pos h1, bitB_maskOf _ _ hc, ← hg]
      have : c ∈ lanesOf (activeMask s.cw s.cp f) := (mem_lanesOf _ _).mpr ⟨hc, h1.2.2⟩
      simp [this]
    · rw [if_neg h1, if_neg h1]
  · intro n c hc
    rw [Warp.predDs_congr hds, hcw, Warp.predDs_setPred _ _ _ _ _ _ _ hc]
    unfold deadBits
    by_cases h1 : n = f.d.toNat ∧ f.d.toNat ≠ 0 ∧ bitB (activeMask s.cw s.cp f) c
    · rw [if_pos h1, if_pos h1]; simp [bitB]
    · rw [if_neg h1, if_neg h1]
  · intro n; rw [hs, State.sN_setPred s hp]
  · rw [hfp, hcw, Warp.setPred_eq]

/-! ## Any register-only form -/

/-- A form whose effect is on registers alone completes, with the registers its effect leaves. -/
theorem laneOp_result {i : Instr} {f : State → State} {s : State} (he : exec i s = laneOp i s f)
    (hv : ∀ f, i ≠ .vsync f) (hq : s.quiet = true) (hr : laneReady i s = true) (ho : LanesOnly s (f s)) :
    ∃ t, exec i s = .next t
      ∧ LaneResult s t (f s).cw.vReg (f s).predN (f s).deadN (f s).sN (f s).cw.fpctl := by
  obtain ⟨r, q, hrun, -⟩ := laneReady_run hr
  obtain ⟨hd, hs, hvv, hpp, hds, hfp⟩ := ho.advance hq hrun
  refine ⟨_, ?_, ⟨?_, ?_, ?_, hs, hfp, hd⟩⟩
  · rw [he]; unfold laneOp; rw [laneForm_ready _ hv hq hr]
  · intro r' c _; exact Warp.vReg_congr hvv r' c
  · intro n c _; unfold State.predN; rw [Warp.pred_congr hpp]
  · intro n c _; unfold State.deadN; rw [Warp.predDs_congr hds]

/-- What a form that writes scalar registers alone does (R241-R247). -/
theorem GivesScalar.of_laneOp {i : Instr} {f : State → State} {sv : State → Nat → DWord}
    (he : ∀ s, exec i s = laneOp i s f) (hv : ∀ f, i ≠ .vsync f)
    (hf : ∀ s, s.path?.isSome = true → LanesOnly s (f s) ∧ (∀ n, (f s).sN n = sv s n)
      ∧ (f s).cw.v = s.cw.v ∧ (f s).cw.p = s.cw.p ∧ (f s).cw.pds = s.cw.pds ∧ (f s).cw.fpctl = s.cw.fpctl) :
    GivesScalar i sv := by
  intro s hq hr
  obtain ⟨ho, h1, h2, h3, h4, h5⟩ := hf s (laneReady_path hr)
  obtain ⟨t, ht, hres⟩ := laneOp_result (he s) hv hq hr ho
  refine ⟨t, ht, ⟨?_, ?_, ?_, ?_, ?_, hres.done⟩⟩
  · intro r l hl; rw [hres.vRegs r l hl, Warp.vReg_congr h2]
  · intro n l hl; rw [hres.preds n l hl]; unfold State.predN; rw [Warp.pred_congr h3]
  · intro n l hl; rw [hres.dead n l hl]; unfold State.deadN; rw [Warp.predDs_congr h4]
  · intro n; rw [hres.sRegs, h1]
  · rw [hres.flags, h5]

/-! ## Floating-point forms -/

theorem LanesOnly.raiseFlags {s t : State} (h : LanesOnly s t) (x : Float.Flags) : LanesOnly s (t.raiseFlags x) := by
  unfold State.raiseFlags
  split
  · exact h
  · exact h.modW _ (fun _ _ => rfl) rfl

theorem State.raiseFlags_cw (s : State) (x : Float.Flags) (h : s.path?.isSome = true) :
    (s.raiseFlags x).cw = { s.cw with fpctl := s.cw.fpctl ||| x.setWidth 64 } := by
  unfold State.raiseFlags
  split
  · rename_i hx
    subst hx
    simp
  · rw [State.cw_modW _ _ h]

theorem State.raiseFlags_sN (s : State) (x : Float.Flags) (h : s.path?.isSome = true) (n : Nat) :
    (s.raiseFlags x).sN n = s.sN n := by
  unfold State.raiseFlags
  split
  · rfl
  · exact State.sN_modW _ _ h _ (fun _ _ => rfl) (fun _ => rfl)

/-- No lane faults: the access goes on. -/
theorem State.splitGo_none (s : State) (gs : List Split) (rest : State → State) (h : ∀ g ∈ gs, g.lanes = 0) :
    s.splitGo gs rest = rest s := by
  unfold State.splitGo
  have : gs.filter (fun g => g.lanes ≠ 0) = [] := by
    rw [List.filter_eq_nil_iff]
    intro g hg
    simpa using h g hg
  simp only [this, List.isEmpty_nil, if_true]

/-- No lane faults: the word completes in every lane. -/
theorem State.splitThen_none (s : State) (gs : List Split) (rest : State → State) (h : ∀ g ∈ gs, g.lanes = 0) :
    s.splitThen gs rest = (rest s).advanceLane := State.splitGo_none s gs _ h

/-- What a float form does where no exception of its lanes is trapped (R228). -/
theorem GivesF.of_floatForm {i : Instr} {f : LaneWord} {n : Nat} {g : Warp → Nat → Nat × Float.Flags}
    {x : State → Nat → Nat × Float.Flags} (he : ∀ s, exec i s = floatForm i f n g s) (hv : ∀ f, i ≠ .vsync f)
    (hg : ∀ s l, g s.cw l = x s l) : GivesF i f n x := by
  intro s hq hr htr hla
  have hp := laneReady_path hr
  obtain ⟨r, q, hrun, -⟩ := laneReady_run hr
  have hl : ∀ l ∈ s.actLanes f, l < 128 := fun l h => (mem_actLanes.mp h).1
  have hgood : ((s.actLanes f).map (fun l => (l, g s.cw l))).filter (fun y => y.2.2 &&& s.run.traps = 0)
      = (s.actLanes f).map (fun l => (l, x s l)) := by
    simp only [hg]
    rw [List.filter_eq_self]
    intro y hy
    obtain ⟨l, hl', rfl⟩ := List.mem_map.mp hy
    simpa using htr l hl'
  have hbad : ((s.actLanes f).map (fun l => (l, g s.cw l))).filter (fun y => y.2.2 &&& s.run.traps ≠ 0) = [] := by
    rw [List.filter_eq_nil_iff]
    intro y hy
    obtain ⟨l, hl', rfl⟩ := List.mem_map.mp hy
    simpa [hg] using htr l hl'
  have hfl : ((s.actLanes f).map (fun l => (l, x s l))).foldl (fun a y => a ||| y.2.2) 0 = raisedFlags s f (x s) := by
    unfold raisedFlags
    rw [List.foldl_map]
  let u := s.raiseFlags (raisedFlags s f (x s))
  have hu : LanesOnly s u := (LanesOnly.refl hp).raiseFlags _
  let ws := laneWrites f.d n (fun _ => false) ((s.actLanes f).map (fun l => (l, (x s l).1)))
  have hlw := fun w : Warp => Warp.applyAll_laneWrites s.cur.2 f.d n (fun _ => false) (fun l => (x s l).1) (s.actLanes f) w hl
  have hst : ∀ (w : Warp) k, (w.applyAll s.cur.2 ws).slot k = w.slot k := fun w k => (hlw w).1.slot k
  have ho : LanesOnly s (u.modW (fun w => w.applyAll s.cur.2 ws)) := by
    refine hu.modW _ hst ?_
    have := (hlw u.cw).1
    unfold SameButLanes at this
    conv_lhs => rw [this]
    rw [this]
  have hcw := State.cw_modW u (fun w => w.applyAll s.cur.2 ws) hu.some
  have hucw := State.raiseFlags_cw s (raisedFlags s f (x s)) hp
  obtain ⟨hd, hs, hvv, hpp, hds, hfp⟩ := ho.advance hq hrun
  have hsb := (hlw u.cw).1
  unfold SameButLanes at hsb
  refine ⟨_, ?_, ⟨?_, ?_, ?_, ?_, ?_, hd⟩⟩
  · rw [he]
    unfold floatForm
    rw [laneForm_ready _ hv hq hr]
    unfold State.finishFloat
    rw [hgood, hbad, State.splitThen_none _ _ _ (by
      intro sp hsp
      simp only [List.mem_singleton] at hsp
      subst hsp
      unfold arithSplit
      simp [maskOf])]
    simp only [hfl, List.map_map]
    unfold State.result
    simp only [hla]
    have hcur : (s.raiseFlags (raisedFlags s f (x s))).cur = s.cur := hu.cur
    simp only [hcur]
    rfl
  · intro r' c hc
    rw [Warp.vReg_congr hvv, hcw, (hlw u.cw).2 r' c hc]
    unfold laneRegs writesLane
    have hold : u.cw.vReg r' c = s.cw.vReg r' c := Warp.vReg_congr (by show (State.raiseFlags _ _).cw.v = _; rw [hucw]) r' c
    by_cases ha : c ∈ s.actLanes f
    · have := (mem_actLanes.mp ha).2
      by_cases hb : f.d.toNat ≤ r' ∧ r' < f.d.toNat + n <;> simp [ha, this, hb, hold]
    · have h5 : bitB (activeMask s.cw s.cp f) c = false := by
        by_contra hcon
        exact ha (mem_actLanes.mpr ⟨hc, by simpa using hcon⟩)
      simp [ha, h5, hold]
  · intro m c hc
    unfold State.predN
    rw [Warp.pred_congr hpp, hcw, hsb]
    show bitB (Warp.pred (State.raiseFlags _ _).cw m) c = _
    rw [hucw]; rfl
  · intro m c hc
    unfold State.deadN
    rw [Warp.predDs_congr hds, hcw, hsb]
    show bitB (Warp.predDs (State.raiseFlags _ _).cw m) c = _
    rw [hucw]; rfl
  · intro m
    rw [hs, State.sN_modW _ _ hu.some _ hst (fun w => by have := (hlw w).1; unfold SameButLanes at this; rw [this])]
    exact State.raiseFlags_sN s _ hp m
  · rw [hfp, hcw, hsb]
    show (State.raiseFlags _ _).cw.fpctl = _
    rw [hucw]

end Sys2Proof.Machine
end

