-- ==== Sys2Proof/Laws/Memory.lean ====
section
/-! SUPPORT. Every operation on memory keeps its canonical form, and the memory after reset has it. -/

namespace Sys2Proof.Machine

namespace Mem

/-- The canonical form, store by store. -/
theorem wf_iff (m : Mem) : m.wf = true ↔ m.bytes.wf = true ∧ m.poison.wf = true ∧ m.canvas.wf = true
    ∧ m.canvasPoison.wf = true ∧ m.stamps.wf = true ∧ m.canvasStamps.wf = true ∧ m.counts.wf = true ∧ m.pend.wf = true
    ∧ m.enrol.wf = true ∧ m.owner.wf = true := by
  simp only [wf, Bool.and_eq_true, and_assoc]

end Mem

theorem State.reset_memOk : State.reset.memOk = true := by decide

theorem State.memOk_congr {s t : State} (h : t.mem = s.mem) (hs : s.memOk = true) : t.memOk = true := by
  unfold State.memOk at *
  rwa [h]

theorem State.memOk_modMem {s : State} {f : Mem → Mem} (hf : ∀ m, m.wf = true → (f m).wf = true) (hs : s.memOk = true) :
    (s.modMem f).memOk = true := hf _ hs

/-- A fold keeps what each of its steps keeps. -/
theorem foldl_keeps {α β : Type} (P : β → Prop) (f : β → α → β) (hf : ∀ b a, P b → P (f b a)) :
    ∀ (l : List α) (b : β), P b → P (l.foldl f b)
  | [], _, h => h
  | a :: l, b, h => foldl_keeps P f hf l (f b a) (hf b a h)

theorem unpoison_wf (m : Cells 1) (a n : Nat) (h : m.wf = true) : (unpoison m a n).wf = true := by
  unfold unpoison
  split
  · exact h
  · exact Cells.wf_filter _ _ h

namespace Mem

theorem bump_wf (m : Mem) (pa : Nat) (h : m.wf = true) : (m.bump pa).wf = true := by
  unfold bump
  split
  · simp only [wf_iff] at *
    simp only [h, Cells.wf_set, and_self]
  · exact h

theorem bumpSpan_wf (m : Mem) (pa n : Nat) (h : m.wf = true) : (m.bumpSpan pa n).wf = true :=
  foldl_keeps (fun m : Mem => m.wf = true) _ (fun m _ h => bump_wf m _ h) _ _ h

theorem store_wf (m : Mem) (pa : Nat) (bs : List Byte) (h : m.wf = true) : (m.store pa bs).wf = true := by
  have h1 : (if bs.isEmpty then m else m.bumpSpan pa bs.length).wf = true := by
    split
    · exact h
    · exact bumpSpan_wf m _ _ h
  simp only [store, wf_iff] at *
  simp only [h1, Cells.wf_writeN, unpoison_wf, and_self]

theorem quiet_wf (m : Mem) (pa : Nat) (bs : List Byte) (h : m.wf = true) : (m.quiet pa bs).wf = true := by
  simp only [quiet, wf_iff] at *
  simp only [h, Cells.wf_writeN, and_self]

theorem storeCanvas_wf (m : Mem) (k : Nat) (bs : List Byte) (h : m.wf = true) : (m.storeCanvas k bs).wf = true := by
  simp only [storeCanvas, wf_iff] at *
  simp only [h, Cells.wf_writeN, unpoison_wf, and_self]

theorem movePage_wf (m : Mem) (src dst : Nat) (h : m.wf = true) : (m.movePage src dst).wf = true := by
  simp only [movePage, wf_iff] at *
  simp only [h, Cells.wf_copyTo, Cells.wf_moveTo, Cells.wf_clear, and_self]

theorem drawerOnly_wf (m : Mem) (h : m.wf = true) : m.drawerOnly.wf = true := by
  simp only [drawerOnly, wf_iff] at *
  refine ⟨Cells.wf_filter _ _ h.1, Cells.wf_filter _ _ h.2.1, rfl, rfl, rfl, rfl, ?_, rfl, rfl, rfl⟩
  exact Cells.wf_filter _ _ h.2.2.2.2.2.2.1

theorem clearCanvas_wf (m : Mem) (k n : Nat) (h : m.wf = true) :
    ({ m with canvas := m.canvas.clear k n } : Mem).wf = true := by
  simp only [wf_iff] at *
  simp only [h, Cells.wf_clear, and_self]

/-- A team's canvas reads zero after its end and before its start. -/
theorem releaseCanvas_wf (m : Mem) (k n p q : Nat) (h : m.wf = true) :
    ({ m with
        canvas := m.canvas.clear k n, canvasPoison := m.canvasPoison.clear p q
        canvasStamps := m.canvasStamps.clear p q } : Mem).wf = true := by
  simp only [wf_iff] at *
  simp only [h, Cells.wf_clear, and_self]

end Mem

theorem writeBytes_wf (m : Cells 8) (pz : Cells 1) (xs : List (Nat × Byte × Bool)) (hm : m.wf = true) (hp : pz.wf = true) :
    (writeBytes m pz xs).1.wf = true ∧ (writeBytes m pz xs).2.wf = true := by
  refine ⟨foldl_keeps (fun c : Cells 8 => c.wf = true) _ (fun c _ h => Cells.wf_set c _ _ h) _ _ hm,
    foldl_keeps (fun c : Cells 1 => c.wf = true) _ (fun c k h => ?_) _ _ hp⟩
  split
  · exact Cells.wf_set c _ _ h
  · split
    · exact Cells.wf_set c _ _ h
    · exact h

theorem canvasBack_wf {w : Nat} (c m : Cells w) (unit team key size : Nat) (f : BitVec w → BitVec w) (h : c.wf = true) :
    (canvasBack c m unit team key size f).wf = true :=
  foldl_keeps (fun c : Cells w => c.wf = true) _ (fun c _ h => Cells.wf_set c _ _ h) _ _ h

theorem placeBytes_wf (b : Cells 8) (lane : Bool) (w : Nat) (h : b.wf = true) : (placeBytes b lane w).wf = true := by
  have h1 := foldl_keeps (fun c : Cells 8 => c.wf = true)
    (fun b i => b.writeN (placeFrame i) (bytesOf 8 (placePointer (i + 1)))) (fun c _ h => Cells.wf_writeN _ c _ h) (List.range 4) b h
  unfold placeBytes
  dsimp only
  split <;> exact Cells.wf_writeN _ _ _ (Cells.wf_writeN _ _ _ h1)

/-! ## Operations on a state -/

namespace State

theorem addCovlost_mem (s : State) (c n : Nat) : (s.addCovlost c n).mem = s.mem := by
  unfold addCovlost
  split <;> rfl

theorem draw_mem (s : State) : s.draw.2.mem = s.mem := rfl

theorem setStamp_memOk {s : State} (c : Bool) (k : Nat) (x : BitVec 128) (h : s.memOk = true) :
    (s.setStamp c k x).memOk = true := by
  refine memOk_modMem (fun m hm => ?_) h
  simp only [Mem.wf_iff] at *
  split <;> simp only [hm, Cells.wf_set, and_self]

theorem stampPlain_memOk {s : State} (wid : Nat) (c : Bool) (a n : Nat) (h : s.memOk = true) :
    (s.stampPlain wid c a n).memOk = true := by
  unfold stampPlain
  split
  · exact h
  · exact foldl_keeps (fun s : State => s.memOk = true) _
      (fun s k h => memOk_congr (addCovlost_mem _ _ _) (setStamp_memOk _ _ _ h)) _ _ h

theorem stampAtomic_memOk {s : State} (wid : Nat) (c : Bool) (a n : Nat) (r : Option Nat) (h : s.memOk = true) :
    (s.stampAtomic wid c a n r).memOk = true := by
  unfold stampAtomic
  split
  · exact h
  · exact foldl_keeps (fun s : State => s.memOk = true) _
      (fun s k h => memOk_congr (addCovlost_mem _ _ _) (setStamp_memOk _ _ _ h)) _ _ h

theorem clearStamps_memOk {s : State} (ctx : Nat) (c : Bool) (a n : Nat) (h : s.memOk = true) :
    (s.clearStamps ctx c a n).memOk = true := by
  refine foldl_keeps (fun s : State => s.memOk = true) _ (fun s k h => ?_) _ _ h
  split
  · exact memOk_congr (addCovlost_mem _ _ _) (setStamp_memOk _ _ _ h)
  · exact h

theorem ageStamps_memOk {s : State} (ctx : Nat) (c : Bool) (a n : Nat) (h : s.memOk = true) :
    (s.ageStamps ctx c a n).memOk = true := by
  refine foldl_keeps (fun s : State => s.memOk = true) _ (fun s k h => ?_) _ _ h
  dsimp only
  split
  · exact h
  · have h2 : s.draw.2.memOk = true := memOk_congr (draw_mem s) h
    split
    · exact memOk_congr (addCovlost_mem _ _ _) (setStamp_memOk _ _ _ h2)
    · exact h2

theorem raceOk_memOk {s : State} (wid : Nat) (off c : Bool) (a n : Nat) (h : s.memOk = true) :
    (s.raceOk wid off c a n).2.memOk = true := by
  unfold raceOk
  split
  · exact h
  · have h2 := ageStamps_memOk ((s.warps.find wid).getD {}).ctx c a n h
    dsimp only
    split
    · exact h2
    · exact memOk_congr (addCovlost_mem _ _ _) h2

end State

end Sys2Proof.Machine
end

