-- ==== Sys2Proof/Laws/MemoryOps.lean ====
section
/-! SUPPORT. The shared operations of the machine keep memory in its canonical form. -/

namespace Sys2Proof.Machine

/-! ## Operations that leave memory alone -/

namespace State

variable (s : State)

@[simp] theorem devError_mem (a b c d e : Nat) (h : Bool) : (s.devError a b c d e h).mem = s.mem := rfl
@[simp] theorem msi_mem (c v : Nat) : (s.msi c v).mem = s.mem := rfl

@[simp] theorem dropPu_mem (ctx : Nat) : (s.dropPu ctx).mem = s.mem := by
  unfold dropPu
  split
  · split <;> rfl
  · rfl

@[simp] theorem takeFrag_mem (w k e : Nat) : (s.takeFrag w k e).mem = s.mem := by
  unfold takeFrag
  dsimp only
  split <;> simp

@[simp] theorem fillSlot_mem (w k : Nat) : (s.fillSlot w k).mem = s.mem := by
  unfold fillSlot
  split
  · rfl
  · split
    · rfl
    · split
      · rfl
      · split <;> simp

@[simp] theorem fillSlots_mem (w : Nat) : (s.fillSlots w).mem = s.mem := by simp [fillSlots]

@[simp] theorem sweep_mem (w : Nat) : (s.sweep w).mem = s.mem := by
  unfold sweep
  split <;> rfl

@[simp] theorem dropHit_mem (c : Nat) (f : Nat → Bool) : (s.dropHit c f).mem = s.mem := rfl
@[simp] theorem dropCore_mem (c : Nat) : (s.dropCore c).mem = s.mem := rfl

@[simp] theorem dropL1_mem (w c : Nat) : (s.dropL1 w c).mem = s.mem := by
  unfold dropL1
  split <;> rfl

@[simp] theorem checkEnd_mem (w : Nat) : (s.checkEnd w).mem = s.mem := modWarp_mem _ _ _

end State

/-- A fold leaves memory alone when each of its steps does. -/
theorem foldl_mem {α : Type} (f : State → α → State) (hf : ∀ s a, (f s a).mem = s.mem) (l : List α) (s : State) :
    (l.foldl f s).mem = s.mem :=
  foldl_keeps (fun t : State => t.mem = s.mem) f (fun _ a h => (hf _ a).trans h) l s rfl

/-- A fold keeps the canonical form when each of its steps does. -/
theorem foldl_memOk {α : Type} (f : State → α → State) (hf : ∀ s a, s.memOk = true → (f s a).memOk = true) (l : List α)
    {s : State} (h : s.memOk = true) : (l.foldl f s).memOk = true :=
  foldl_keeps (fun t : State => t.memOk = true) f hf l s h

@[simp] theorem dropWhere_mem (s : State) (f : Nat → Nat → Nat → Bool) : (dropWhere s f).mem = s.mem := rfl
@[simp] theorem dropPages_mem (s : State) (a b c d : Nat) : (dropPages s a b c d).mem = s.mem := rfl
@[simp] theorem dropSpace_mem (s : State) (a : Nat) : (dropSpace s a).mem = s.mem := rfl
@[simp] theorem dropAll_mem (s : State) : (dropAll s).mem = s.mem := rfl

@[simp] theorem install_mem (s : State) (c : Option Nat) (t : TlbEntry) (va : Nat) (w : Bool) : (install s c t va w).mem = s.mem := by
  unfold install
  dsimp only
  split
  · rfl
  · split <;> rfl

namespace State

@[simp] theorem tally_mem (s : State) (k : Nat) (f : Warp → Warp × Nat) : (s.tally k f).mem = s.mem := by
  unfold tally
  split
  · rw [addCovlost_mem, putWarp_mem]
  · rfl

@[simp] theorem bumpInterval_mem (s : State) (k : Nat) : (s.bumpInterval k).mem = s.mem := modWarp_mem _ _ _

@[simp] theorem barrierSync_mem (s : State) (ps : List Nat) (iv : Cells 32) : (s.barrierSync ps iv).mem = s.mem :=
  foldl_mem _ (fun s p => by simp) _ _

@[simp] theorem fillLines_mem (s : State) (r : Req) (b : Bool) : (s.fillLines r b).mem = s.mem := by
  unfold fillLines
  split
  · rfl
  · exact foldl_mem _ (fun t _ => (modCore_mem _ _ _).trans (draw_mem t)) _ _

end State

/-! ## Requests of the drawer -/

namespace State

/-- What the entry of a request does to memory keeps its form. -/
theorem effect_memOk {s : State} (r : Req) (h : s.memOk = true) : (s.effect r).memOk = true := by
  have hs : ∀ pa bs, (s.modMem (·.store pa bs)).memOk = true := fun _ _ => memOk_modMem (fun m hm => Mem.store_wf _ _ _ hm) h
  unfold effect
  dsimp only
  split
  · exact h
  · split
    · exact memOk_congr (dropLines_mem _ _ _ _) (hs _ _)
    · exact hs _ _
  · exact memOk_modMem (fun m hm => Mem.quiet_wf _ _ _ hm) h
  · split
    · exact h
    · have h1 : ∀ f : Mem → List Byte, (s.modMem (fun m => m.store r.addr (f m))).memOk = true := fun _ =>
        memOk_modMem (fun m hm => Mem.store_wf _ _ _ hm) h
      split
      · exact memOk_congr (dropLines_mem _ _ _ _) (h1 _)
      · exact h1 _

theorem enter_memOk {s : State} (r : Req) (h : s.memOk = true) : (s.enter r).memOk = true :=
  memOk_congr (modLink_mem _ _ _) (effect_memOk r h)

theorem postReq_memOk {s : State} (r : Req) (h : s.memOk = true) : (s.postReq r).memOk = true := by
  unfold postReq
  dsimp only
  split
  · exact enter_memOk _ h
  · exact memOk_congr (waitOutside_mem _ _) h

theorem postAll_memOk {s : State} (rs : List Req) (h : s.memOk = true) : (rs.foldl State.postReq s).memOk = true :=
  foldl_memOk _ (fun _ _ h => postReq_memOk _ h) rs h

theorem hold_memOk {s : State} (r : Req) (h : s.memOk = true) : (s.hold r).memOk = true := by
  unfold hold
  split <;> exact h

theorem ask_memOk {s : State} (r : Req) (h : s.memOk = true) : (s.ask r).1.memOk = true := by
  unfold ask
  split
  · dsimp only
    split
    · exact hold_memOk _ h
    · exact h
  · split
    · exact h
    · split
      · have h1 : ({ s.enter r with sent := s.sent } : State).memOk = true := enter_memOk r h
        dsimp only
        split
        · exact hold_memOk _ (enter_memOk (s := (s.name r).1) (s.name r).2 h)
        · exact enter_memOk (s := (s.name r).1) (s.name r).2 h
      · exact hold_memOk _ h

theorem asks_memOk {s : State} (rs : List Req) (h : s.memOk = true) : (s.asks rs).1.memOk = true := by
  unfold asks
  refine foldl_keeps (fun r : State × List Req => r.1.memOk = true) _ (fun r q h => ?_) rs (s, []) h
  exact ask_memOk q h

theorem enterNamed_memOk {s : State} (r : Req) (h : s.memOk = true) : ((s.name r).1.enter (s.name r).2).memOk = true :=
  enter_memOk _ h

theorem payFor_memOk {s : State} (u : Turn) (rs : List Req) (h : s.memOk = true) : (s.payFor u rs).memOk = true := by
  unfold payFor
  refine foldl_memOk _ (fun s r h => ?_) rs h
  exact memOk_congr (s := (s.name r).1.enter (s.name r).2) rfl (enterNamed_memOk r h)

theorem orWait_memOk {t s : State} (u : Turn) (ht : t.memOk = true) (hs : s.memOk = true) : (t.orWait s u).memOk = true := by
  unfold orWait
  split
  · exact ht
  · split
    · exact ht
    · have h1 : ∀ s' : State, s'.mem = s.mem → (s'.payFor u t.sent).memOk = true := fun _ he => payFor_memOk _ _ (memOk_congr he hs)
      dsimp only
      split
      · exact h1 _ rfl
      · exact memOk_congr (waitOutside_mem _ _) (h1 _ rfl)

end State

/-! ## Translation and the hub -/

theorem setA1_memOk {s : State} (a : Nat) (e : DWord) (h : s.memOk = true) : (setA1 s a e).memOk = true :=
  Mem.quiet_wf _ _ _ h

theorem translate_memOk {s : State} (a : Agent) (va : Nat) (w : Want) (h : s.memOk = true) :
    (translate s a va w).1.memOk = true := by
  unfold translate
  split
  · exact h
  · split
    · split <;> exact h
    · dsimp only
      split
      · split
        · exact h
        · split
          · exact h
          · exact State.memOk_congr (install_mem _ _ _ _ _) h
      · have hk : ∀ ps, (s.keepPointers a.core ps).memOk = true := fun _ => State.memOk_congr rfl h
        split
        · exact hk _
        · exact hk _
        · split
          · exact hk _
          · split
            · exact setA1_memOk _ _ (State.memOk_congr (install_mem _ _ _ _ _) (hk _))
            · exact State.memOk_congr (install_mem _ _ _ _ _) (hk _)

namespace State

theorem migrate_memOk {s : State} (c v f : Nat) (h : s.memOk = true) : (s.migrate c v f).memOk = true := by
  unfold migrate
  split
  · split
    · refine memOk_congr (dropPages_mem _ _ _ _ _) (memOk_modMem (fun m hm => ?_) ?_)
      · exact Mem.quiet_wf _ _ _ (Mem.movePage_wf _ _ _ hm)
      · exact foldl_memOk _ (fun _ _ h => postReq_memOk _ h) _ h
    · exact h
  · exact h

theorem afterMove_memOk {s : State} (a : Agent) (va : Nat) (w : Want) (h : s.memOk = true) : (s.afterMove a va w).1.memOk = true := by
  unfold afterMove
  dsimp only
  split
  · exact translate_memOk _ _ _ (migrate_memOk _ _ _ (memOk_congr (draw_mem s) h))
  · exact memOk_congr (draw_mem s) h

theorem hub_memOk {s : State} (c va : Nat) (w : Want) (h : s.memOk = true) : (s.hub? c va w).1.memOk = true := by
  have h1 := translate_memOk (hubAgent c) va w h
  unfold hub?
  dsimp only
  split
  · exact afterMove_memOk _ _ _ h1
  · exact h1

theorem hubLoad_memOk {s : State} (k pa n : Nat) (h : s.memOk = true) : (s.hubLoad k pa n).1.memOk = true := by
  unfold hubLoad
  split
  · exact asks_memOk _ h
  · exact h

theorem hubStore_memOk {s : State} (k pa : Nat) (bs : List Byte) (b : Bool) (h : s.memOk = true) : (s.hubStore k pa bs b).memOk = true := by
  unfold hubStore
  split
  · split
    · exact postAll_memOk _ h
    · exact asks_memOk _ h
  · exact memOk_modMem (fun m hm => Mem.store_wf _ _ _ hm) h

theorem hubRead_memOk {s : State} (k c va n : Nat) (h : s.memOk = true) : (s.hubRead k c va n).1.memOk = true := by
  have h1 := hub_memOk c va .read h
  unfold hubRead
  split
  · rename_i he
    rw [he] at h1
    dsimp only
    split <;> exact hubLoad_memOk _ _ _ h1
  · rename_i he
    rwa [he] at h1

theorem hubBytes_memOk (k c : Nat) : ∀ (fuel va n : Nat) (s : State), s.memOk = true → (s.hubBytes k c fuel va n).1.memOk = true
  | 0, _, _, _, h => h
  | fuel + 1, va, n, s, h => by
    unfold hubBytes
    split
    · exact h
    · have h1 := hubRead_memOk k c va (min n (256 - va % 256)) h
      dsimp only
      split
      · rename_i he
        rwa [he] at h1
      · rename_i he
        rw [he] at h1
        have h2 := hubBytes_memOk k c fuel (va + min n (256 - va % 256)) (n - min n (256 - va % 256)) _ h1
        split
        · rename_i he2
          rwa [he2] at h2
        · rename_i he2
          rwa [he2] at h2

theorem hubWords_memOk {s : State} (k c va n : Nat) (h : s.memOk = true) : (s.hubWords k c va n).1.memOk = true := by
  have h1 := hubBytes_memOk k c (n / 32 + 2) va (8 * n) s h
  unfold hubWords
  split
  · rename_i he
    rwa [he] at h1
  · rename_i he
    rwa [he] at h1

theorem hubWrite_memOk {s : State} (k c va n x : Nat) (b : Bool) (h : s.memOk = true) : (s.hubWrite k c va n x b).1.memOk = true := by
  have h1 := hub_memOk c va .write h
  unfold hubWrite
  split
  · rename_i he
    rw [he] at h1
    exact clearStamps_memOk _ _ _ _ (hubStore_memOk _ _ _ _ h1)
  · rename_i he
    rwa [he] at h1

theorem traceIn_memOk {s : State} (c w k i : Nat) (p : Path) (e : Bool) (v : Nat) (d : DWord) (h : s.memOk = true) :
    (s.traceIn c w k i p e v d).memOk = true := by
  unfold traceIn
  dsimp only
  split
  · have h1 := hub_memOk c (bitsN (s.ctx c).trbase 63 6 * 64
      + 64 * (bitsN (s.ctx c).trctl 63 40 % 2 ^ bitsN (s.ctx c).trctl 7 0)) .write h
    split
    · rename_i he
      rw [he] at h1
      refine memOk_congr (modCtx_mem _ _ _) ?_
      split
      · exact postAll_memOk _ h1
      · exact memOk_modMem (fun m hm => Mem.quiet_wf _ _ _ hm) h1
    · rename_i he
      rw [he] at h1
      exact memOk_congr (modCtx_mem _ _ _) h1
  · exact h

theorem trace_memOk {s : State} (w k i : Nat) (p : Path) (v : Nat) (d : DWord) (h : s.memOk = true) :
    (s.trace w k i p v d).memOk = true := traceIn_memOk _ _ _ _ _ _ _ _ h

/-! ## Teams and teardown -/

theorem releaseTeam_memOk {s : State} (t : Nat) (h : s.memOk = true) : (s.releaseTeam t).memOk = true := by
  unfold releaseTeam
  split
  · exact h
  · simp only [memOk, modCore, modMem] at *
    exact Mem.releaseCanvas_wf _ _ _ _ _ h

theorem writeDone_memOk {s : State} (c q : Nat) (e : Entry) (a : BitVec 8) (d : BitVec 24) (h : s.memOk = true) :
    (s.writeDone c q e a d).1.memOk = true := by
  unfold writeDone
  dsimp only
  split
  · exact h
  · exact hubWrite_memOk _ _ _ _ _ _ h

theorem postDone_memOk {s : State} (c q : Nat) (e : Entry) (a : BitVec 8) (h : s.memOk = true) : (s.postDone c q e a).memOk = true := by
  unfold postDone
  dsimp only
  split
  · exact h
  · have h1 := hub_memOk c (bitsN (e.words.getD 7 0) 63 3 * 8) .write h
    split
    · rename_i he
      rw [he] at h1
      exact clearStamps_memOk _ _ _ _ (hubStore_memOk _ _ _ _ h1)
    · rename_i he
      rwa [he] at h1

theorem dropTeams_memOk {s : State} (c : Nat) (h : s.memOk = true) : (s.dropTeams c).memOk = true :=
  foldl_memOk _ (fun _ t h => releaseTeam_memOk t h) _ h

theorem dropStanding_memOk {s : State} (c : Nat) (h : s.memOk = true) : (s.dropStanding c).memOk = true := by
  unfold memOk dropStanding at *
  simp only [Mem.wf_iff] at *
  simp only [h, Cells.wf_filter, and_self]

theorem teardown_memOk {s : State} (c : Nat) (w : Bool) (h : s.memOk = true) : (s.teardown c w).memOk = true := by
  have h1 : ((dropSpace s (xdSpace (s.ctx c).xdesc)).dropTeams c).memOk = true := dropTeams_memOk c h
  unfold teardown
  refine memOk_congr (msi_mem _ _ _) (memOk_congr (dropPu_mem _ _) (memOk_congr (modCtx_mem _ _ _) ?_))
  dsimp only [memOk]
  split
  · refine foldl_memOk _ (fun s q h => ?_) _ (dropStanding_memOk c h1)
    split
    · exact memOk_congr (modQueue_mem _ _ _ _) (postDone_memOk _ _ _ _ h)
    · exact h
  · exact dropStanding_memOk c h1

theorem contextFault_memOk {s : State} (c : Nat) (a b : BitVec 8) (h : s.memOk = true) : (s.contextFault c a b).memOk = true := by
  unfold contextFault
  split
  · exact h
  · exact teardown_memOk _ _ (memOk_congr (modCtx_mem _ _ _) h)

theorem fatal_memOk {s : State} (k d c x : Nat) (b : Bool) (h : s.memOk = true) : (s.fatal k d c x b).memOk = true :=
  foldl_memOk _ (fun _ _ h => teardown_memOk _ _ h) _ (memOk_congr (devError_mem s 2 k d c x b) h)

/-! ## Lanes that go -/

theorem checkJoin_memOk {s : State} (w k : Nat) (h : s.memOk = true) : (s.checkJoin w k).memOk = true := by
  unfold checkJoin
  split
  · exact h
  · split
    · exact h
    · dsimp only
      split
      · exact h
      · split
        · exact h
        · split <;> exact trace_memOk _ _ _ _ _ _ h

theorem checkJoins_memOk {s : State} (w : Nat) (h : s.memOk = true) : (s.checkJoins w).memOk = true :=
  foldl_memOk _ (fun _ _ h => checkJoin_memOk _ _ h) _ h

theorem checkBarrier_memOk {s : State} (t b : Nat) (h : s.memOk = true) : (s.checkBarrier t b).memOk = true := by
  unfold checkBarrier
  split
  · exact h
  · rename_i x _
    dsimp only
    split
    · exact h
    · have h1 : ∀ (f : Team → Team) (ps : List Nat) (iv : Cells 32) (l : Cells 128),
          (l.foldl (fun s (a : Nat × Mask) => s.modWarp a.1 (·.syncArrived a.2)) ((s.modTeam t f).barrierSync ps iv)).memOk = true :=
        fun f ps iv l => memOk_congr (foldl_mem (fun s (a : Nat × Mask) => s.modWarp a.1 (·.syncArrived a.2))
          (fun _ _ => modWarp_mem _ _ _) l _) (memOk_congr (barrierSync_mem _ _ _) (memOk_congr (modTeam_mem _ _ _) h))
      split
      · exact traceIn_memOk _ _ _ _ _ _ _ _ (h1 _ _ _ _)
      · exact h1 _ _ _ _

theorem checkBarriers_memOk {s : State} (t : Nat) (h : s.memOk = true) : (s.checkBarriers t).memOk = true :=
  foldl_memOk _ (fun _ _ h => checkBarrier_memOk _ _ h) _ h

theorem afterGone_memOk {s : State} (w : Nat) (h : s.memOk = true) : (s.afterGone w).memOk = true :=
  memOk_congr (checkEnd_mem _ _) (memOk_congr (fillSlots_mem _ _)
    (checkBarriers_memOk _ (checkJoins_memOk w (memOk_congr (sweep_mem _ _) h))))

theorem exitLanes_memOk {s : State} (w : Nat) (m : Mask) (h : s.memOk = true) : (s.exitLanes w m).memOk = true :=
  afterGone_memOk w (memOk_congr (modWarp_mem _ _ _) h)

theorem killLanes_memOk {s : State} (w : Nat) (m : Mask) (h : s.memOk = true) : (s.killLanes w m).memOk = true := by
  unfold killLanes
  dsimp only
  split
  · exact h
  · exact foldl_memOk _ (fun s l h => memOk_congr (devError_mem _ _ _ _ _ _ _) h) _ (afterGone_memOk w (memOk_congr (modWarp_mem _ _ _) h))

theorem killWarp_memOk {s : State} (w : Nat) (h : s.memOk = true) : (s.killWarp w).memOk = true := by
  unfold killWarp
  refine memOk_congr (devError_mem _ _ _ _ _ _ _) ?_
  exact afterGone_memOk w (memOk_congr (modWarp_mem _ _ _) h)

/-! ## Taking a fault -/

theorem traceFrag_memOk {s : State} (g : Frag) (b : Bool) (h : s.memOk = true) : (s.traceFrag g b).memOk = true := by
  unfold traceFrag
  cases b
  · dsimp only
    split
    · exact trace_memOk _ _ _ _ _ _ h
    · exact h
  · dsimp only
    split
    · exact trace_memOk _ _ _ _ _ _ (trace_memOk _ _ _ _ _ _ h)
    · exact trace_memOk _ _ _ _ _ _ h

theorem traceHalt_memOk {s : State} (w k i : Nat) (p q : Path) (h : s.memOk = true) : (s.traceHalt w k i p q).memOk = true := by
  unfold traceHalt
  split
  · exact trace_memOk _ _ _ _ _ _ h
  · exact h

theorem park_memOk {s : State} (w k : Nat) (m : Mask) (r : FaultRec) (x : List (Nat × Nat × Mask)) (g : Option (Nat × Nat))
    (h : s.memOk = true) : (s.park w k m r x g).memOk = true := by
  unfold park
  split
  · dsimp only
    split
    · exact memOk_congr (fillSlots_mem _ _) (traceHalt_memOk _ _ _ _ _
        (traceFrag_memOk _ _ (memOk_congr (modWarp_mem _ _ _) (memOk_congr (modCore_mem _ _ _) h))))
    · split
      · have h1 : ∀ (f : Warp → Warp) (c : Core → Core) (n : Nat),
            (((({ s with names := n } : State).modCore (coreOf w) c).modWarp w f).memOk) = true := fun f c n =>
          memOk_congr (modWarp_mem _ _ _) (memOk_congr (modCore_mem _ _ _) h)
        split
        · exact memOk_congr (fillSlots_mem _ _) (traceHalt_memOk _ _ _ _ _ (traceFrag_memOk _ _ (h1 _ _ _)))
        · exact traceFrag_memOk _ _ (h1 _ _ _)
      · split
        · exact contextFault_memOk _ _ _ h
        · exact memOk_congr (fillSlots_mem _ _) (traceHalt_memOk _ _ _ _ _ (memOk_congr (modWarp_mem _ _ _) h))
  · exact h

theorem raiseOn_memOk {s : State} (w k : Nat) (m : Mask) (r : FaultRec) (x : List (Nat × Nat × Mask)) (g : Option (Nat × Nat))
    (h : s.memOk = true) : (s.raiseOn w k m r x g).memOk = true := by
  unfold raiseOn
  split
  · dsimp only
    split
    · exact h
    · split
      · exact exitLanes_memOk _ _ (memOk_congr (modCtx_mem _ _ _) h)
      · split
        · exact contextFault_memOk _ _ _ h
        · exact park_memOk _ _ _ _ _ _ h
  · exact h

theorem breakLatch_memOk {s : State} (c : Nat) (x : BitVec 8) (h : s.memOk = true) : (s.breakLatch c x).memOk = true := by
  refine foldl_memOk _ (fun s a h => ?_) _ (memOk_congr (modCore_mem _ _ _) h)
  dsimp only
  split
  · exact h
  · exact raiseOn_memOk _ _ _ _ _ _ (memOk_congr (modPathAt_mem _ _ _ _) h)

theorem checkLatch_memOk {s : State} (c : Nat) (h : s.memOk = true) : (s.checkLatch c).memOk = true := by
  unfold checkLatch
  dsimp only
  split
  · exact h
  · split
    · exact breakLatch_memOk _ _ (memOk_congr (modCore_mem _ _ _) h)
    · exact h

theorem raiseAt_memOk {s : State} (w k : Nat) (m : Mask) (r : FaultRec) (h : s.memOk = true) : (s.raiseAt w k m r).memOk = true :=
  checkLatch_memOk _ (raiseOn_memOk _ _ _ _ _ _ h)

theorem scalarFault_memOk {s : State} (c d a : Nat) (x : DWord) (h : s.memOk = true) : (s.scalarFault c d a x).memOk = true :=
  raiseAt_memOk _ _ _ _ h

theorem lanePathFault_memOk {s : State} (c d : Nat) (h : s.memOk = true) : (s.lanePathFault c d).memOk = true :=
  raiseAt_memOk _ _ _ _ h

/-! ## Advancing -/

theorem settleOne_memOk {s : State} (w k : Nat) (h : s.memOk = true) : (s.settleOne w k).1.memOk = true := by
  unfold settleOne
  split
  · exact h
  · split
    · exact h
    · have h1 : ∀ f g, ((s.modPathAt w k f).modWarp w g).memOk = true := fun f g =>
        memOk_congr (modWarp_mem _ _ _) (memOk_congr (modPathAt_mem _ _ _ _) h)
      dsimp only
      split
      · exact h1 _ _
      · split
        · exact h1 _ _
        · exact raiseAt_memOk _ _ _ _ (h1 _ _)

theorem settle_memOk (w k : Nat) : ∀ (n : Nat) (s : State), s.memOk = true → (s.settle w k n).memOk = true
  | 0, _, h => h
  | n + 1, s, h => by
    have h1 := settleOne_memOk w k h
    unfold settle
    dsimp only
    split
    · exact settle_memOk w k n _ h1
    · exact h

theorem settleAll_memOk {s : State} (w k : Nat) (h : s.memOk = true) : (s.settleAll w k).memOk = true :=
  memOk_congr (modPathAt_mem _ _ _ _) (settle_memOk w k 40 s h)

theorem goto_memOk {s : State} (pc : VAddr) (h : s.memOk = true) : (s.goto pc).memOk = true :=
  memOk_congr (puTick_mem _) (memOk_congr (progress_mem _) (settleAll_memOk _ _ (memOk_congr (modP_mem _ _) h)))

theorem advance_memOk {s : State} (h : s.memOk = true) : s.advance.memOk = true := goto_memOk _ h

theorem splitStalled_memOk {s : State} (w k : Nat) (h : s.memOk = true) : (s.splitStalled w k).memOk = true := by
  unfold splitStalled
  split
  · exact h
  · dsimp only
    split
    · exact h
    · exact checkLatch_memOk _ (raiseOn_memOk _ _ _ _ _ _ h)

theorem advanceLane_memOk {s : State} (h : s.memOk = true) : s.advanceLane.memOk = true :=
  splitStalled_memOk _ _ (memOk_congr (progress_mem _) (settleAll_memOk _ _ (memOk_congr (modP_mem _ _) h)))

/-! ## Accesses -/

theorem xlateLanes_memOk (a : Agent) (n : Nat) (w : Want) : ∀ (l : List (Nat × Int)) (s : State), s.memOk = true →
    (s.xlateLanes a n w l).1.memOk = true
  | [], _, h => h
  | (k, ea) :: r, s, h => by
    unfold xlateLanes
    dsimp only
    split
    · exact xlateLanes_memOk a n w r s h
    · have h1 := translate_memOk a (BitVec.ofInt 72 ea).toNat w h
      split
      · rename_i he
        rw [he] at h1
        exact xlateLanes_memOk a n w r _ h1
      · rename_i he
        rw [he] at h1
        exact xlateLanes_memOk a n w r _ h1

theorem raceLanes_memOk (off c : Bool) (n : Nat) : ∀ (l : List LaneAcc) (s : State), s.memOk = true →
    (s.raceLanes off c n l).1.memOk = true
  | [], _, h => h
  | x :: r, s, h => by
    have h1 := raceOk_memOk s.cur.1 off c x.pa n h
    unfold raceLanes
    split
    · rename_i he
      rw [he] at h1
      exact raceLanes_memOk off c n r _ h1
    · rename_i he
      rw [he] at h1
      exact raceLanes_memOk off c n r _ h1

theorem storePa_memOk {s : State} (c : Bool) (pa : Nat) (bs : List Byte) (h : s.memOk = true) : (s.storePa c pa bs).memOk = true := by
  unfold storePa
  split
  · exact stampPlain_memOk _ _ _ _ (memOk_modMem (fun m hm => Mem.storeCanvas_wf _ _ _ hm) h)
  · exact memOk_congr (dropLines_mem _ _ _ _) (stampPlain_memOk _ _ _ _ (memOk_modMem (fun m hm => Mem.store_wf _ _ _ hm) h))

theorem atomicPa_memOk {s : State} (c : Bool) (pa n x : Nat) (r : Option Nat) (h : s.memOk = true) :
    (s.atomicPa c pa n x r).memOk = true := by
  unfold atomicPa
  split
  · exact stampAtomic_memOk _ _ _ _ _ (memOk_modMem (fun m hm => Mem.storeCanvas_wf _ _ _ hm) h)
  · exact memOk_congr (dropLines_mem _ _ _ _) (stampAtomic_memOk _ _ _ _ _ (memOk_modMem (fun m hm => Mem.store_wf _ _ _ hm) h))

theorem heldLane_memOk {s : State} (x : RaceHold) (a : LaneAcc) (h : s.memOk = true) : (s.heldLane x a).memOk = true := by
  unfold heldLane
  split
  · split
    · exact postAll_memOk _ (memOk_congr (dropLines_mem _ _ _ _) (stampPlain_memOk _ _ _ _ h))
    · exact storePa_memOk _ _ _ h
  · dsimp only
    generalize (if x.canvas = true then poisoned _ _ _ else _) = bad
    split
    · exact memOk_congr (modW_mem _ _) h
    split
    · exact killWarp_memOk _ h
    split
    · exact memOk_congr (modW_mem _ _) h
    · exact memOk_congr (setSN_mem _ _ _) h

theorem performHeld_memOk {s : State} (x : RaceHold) (h : s.memOk = true) : (s.performHeld x).1.memOk = true := by
  unfold performHeld
  refine foldl_memOk (·.heldLane x) (fun s y h => heldLane_memOk x y h) _ (raceLanes_memOk _ _ _ _ _ (memOk_congr (modW_mem _ _) ?_))
  split
  · exact h
  · exact xlateLanes_memOk _ _ _ _ _ h

/-! ## Fetching and turns -/

@[simp] theorem result_mem (s : State) (l : Bool) (k : Nat) (ds : List Dest) (ws : List RegWrite) (x : List (Nat × Nat × Mask))
    (r : Option RaceHold) : (s.result l k ds ws x r).mem = s.mem := by
  unfold result
  split <;> simp

@[simp] theorem puFault_mem (s : State) (c : Nat) : (s.puFault c).mem = s.mem := by
  unfold puFault
  split <;> rfl

@[simp] theorem askMove_mem (s : State) (c v : Nat) : (s.askMove c v).mem = s.mem := by
  unfold askMove
  split <;> rfl

@[simp] theorem spendOnce_mem (s : State) (b : Bool) : (s.spendOnce b).mem = s.mem := by
  unfold spendOnce
  split <;> simp

theorem illegalScalar_memOk {s : State} (c : Cause) (h : s.memOk = true) : (s.illegalScalar c).memOk = true := by
  unfold illegalScalar
  split
  · exact memOk_congr (puFault_mem _ _) h
  · exact scalarFault_memOk _ _ _ _ h

theorem pathFaultOr_memOk {s : State} (a b c d : Nat) (h : s.memOk = true) : (s.pathFaultOr a b c d).memOk = true := by
  unfold pathFaultOr
  split
  · exact memOk_congr (puFault_mem _ _) h
  · exact scalarFault_memOk _ _ _ _ h

theorem closeScalar_memOk {s : State} (h : s.memOk = true) : s.closeScalar.memOk = true :=
  settleAll_memOk _ _ (memOk_congr (modP_mem _ _) h)

theorem scalarXfault_memOk {s : State} (x : XFault) (ea : VAddr) (h : s.memOk = true) : (s.scalarXfault x ea).memOk = true := by
  unfold scalarXfault
  split
  · split
    · exact memOk_congr (modP_mem _ _) (memOk_congr (wait_mem _ _) (memOk_congr (askMove_mem _ _ _) h))
    · exact memOk_congr (puFault_mem _ _) h
  · exact checkLatch_memOk _ (raiseOn_memOk _ _ _ _ _ _ h)

theorem atScalar_memOk {s : State} (ea : Int) (n : Nat) (w : Want) (rd wr : Bool) {body : State → VAddr → Nat → State}
    (hb : ∀ t va pa, t.memOk = true → (body t va pa).memOk = true) (h : s.memOk = true) :
    (s.atScalar ea n w rd wr body).memOk = true := by
  unfold atScalar
  dsimp only
  split
  · exact scalarXfault_memOk _ _ h
  · have h1 := translate_memOk s.agent (BitVec.ofInt 72 ea).toNat w h
    split
    · rename_i he
      rw [he] at h1
      exact scalarXfault_memOk _ _ h1
    · rename_i he
      rw [he] at h1
      split
      · exact scalarFault_memOk _ _ _ _ h1
      · exact hb _ _ _ h1

theorem raiseGroups_memOk (m : Mask) : ∀ (gs : List Split) (s : State), s.memOk = true → (s.raiseGroups m gs).memOk = true
  | [], _, h => h
  | g :: gs, s, h => by
    unfold raiseGroups
    split
    · exact raiseGroups_memOk m gs _ (checkLatch_memOk _ (raiseOn_memOk _ _ _ _ _ _ h))
    · exact h

theorem splitGo_memOk {s : State} (gs : List Split) {f : State → State} (hf : ∀ t : State, t.memOk = true → (f t).memOk = true)
    (h : s.memOk = true) : (s.splitGo gs f).memOk = true := by
  have h1 := fun m gs => raiseGroups_memOk m gs s h
  unfold splitGo
  dsimp only
  split
  · exact hf _ h
  · split
    · exact h1 _ _
    · split
      · exact hf _ (h1 _ _)
      · exact h1 _ _

theorem splitThen_memOk {s : State} (gs : List Split) {f : State → State} (hf : ∀ t : State, t.memOk = true → (f t).memOk = true)
    (h : s.memOk = true) : (s.splitThen gs f).memOk = true :=
  splitGo_memOk gs (fun _ ht => advanceLane_memOk (hf _ ht)) h

theorem fetch4_memOk {s : State} (va : Nat) (h : s.memOk = true) : (s.fetch4 va).1.memOk = true := by
  have h1 := translate_memOk s.agent va .fetch h
  unfold fetch4
  split
  · exact h
  · split
    · rename_i he
      rwa [he] at h1
    · rename_i he
      rwa [he] at h1

theorem nextScalar_memOk {s : State} (h : s.memOk = true) : s.nextScalar.1.memOk = true := by
  have h1 := fetch4_memOk s.cp.pc.toNat h
  unfold nextScalar
  dsimp only
  split
  · rename_i he
    rw [he] at h1
    exact scalarXfault_memOk _ _ h1
  · rename_i he
    rw [he] at h1
    split
    · exact h1
    split
    · exact memOk_congr (puFault_mem _ _) h1
    split
    · exact memOk_congr (wait_mem _ _) h1
    split
    · exact memOk_congr (wait_mem _ _) h1
    · exact illegalScalar_memOk _ h1

theorem laneFetchFault_memOk {s : State} (x : XFault) (va : Nat) (h : s.memOk = true) : (s.laneFetchFault x va).memOk = true :=
  checkLatch_memOk _ (raiseOn_memOk _ _ _ _ _ _ h)

theorem fetchLane_memOk (va : Nat) : ∀ (n acc : Nat) (s : State), s.memOk = true → (s.fetchLane va n acc).1.memOk = true
  | 0, _, _, h => h
  | n + 1, acc, s, h => by
    have h1 := fetch4_memOk (va + 4 * (2 - n)) h
    unfold fetchLane
    split
    · rename_i he
      rwa [he] at h1
    · rename_i he
      rw [he] at h1
      exact fetchLane_memOk va n _ _ h1

theorem nextLane_memOk {s : State} (h : s.memOk = true) : s.nextLane.1.memOk = true := by
  have h1 := fetchLane_memOk (laneVa s.cctx (s.run.off + s.run.pos)) 3 0 s h
  unfold nextLane
  split
  · exact splitStalled_memOk _ _ (memOk_congr (modP_mem _ _) h)
  · dsimp only
    split
    · rename_i he
      rw [he] at h1
      exact laneFetchFault_memOk _ _ h1
    · rename_i he
      rw [he] at h1
      split
      · exact h1
      · exact lanePathFault_memOk _ _ h1

end State

/-! ## The shared forms -/

/-- The state a gate hands on or ends with. -/
def Gate.state : Gate → State
  | .go s => s
  | .done s => s

theorem scalarGate_memOk {i : Instr} {s : State} (h : s.memOk = true) :
    (scalarGate i s).state.memOk = true := by
  unfold scalarGate
  split
  · exact State.memOk_congr (State.puFault_mem _ _) h
  split
  · exact State.memOk_congr (State.wait_mem _ _) h
  split
  · exact State.memOk_congr (State.wait_mem _ _) h
  split
  · exact State.illegalScalar_memOk _ h
  split
  · exact State.illegalScalar_memOk _ h
  split
  · exact State.memOk_congr (State.puFault_mem _ _) h
  split
  · exact State.scalarFault_memOk _ _ _ _ h
  split
  · split
    · exact State.memOk_congr (State.wait_mem _ _) h
    split
    · exact State.closeScalar_memOk h
    · exact State.closeScalar_memOk h
  split
  · exact State.illegalScalar_memOk _ h
  split
  · exact State.memOk_congr (State.wait_mem _ _) h
  · exact h

namespace State

theorem keepTwin_memOk {t u : State} (h : t.memOk = true) : (t.keepTwin u).memOk = true := memOk_congr (modW_mem _ _) h

theorem pair_memOk {s : State} (i : Instr) (ds : List Dest) (m : Mask) {body : State → State}
    (hb : ∀ u : State, u.memOk = true → (body u).memOk = true) (h : s.memOk = true) : (s.pair i ds m body).memOk = true := by
  unfold pair
  dsimp only
  split
  · exact memOk_congr (modW_mem _ _) (hb _ h)
  split
  · exact keepTwin_memOk (hb _ h)
  · exact hb _ h

theorem pairScalar_memOk {s : State} (i : Instr) {body : State → State} (hb : ∀ u : State, u.memOk = true → (body u).memOk = true)
    (h : s.memOk = true) : (s.pairScalar i body).memOk = true := by
  unfold pairScalar
  split
  · exact hb _ h
  split
  · exact raiseAt_memOk _ _ _ _ h
  · exact pair_memOk _ _ _ hb h

theorem mismatched_memOk {s : State} (m : Mask) (h : s.memOk = true) : (s.mismatched m).memOk = true := by
  unfold mismatched
  split
  · exact h
  · exact raiseAt_memOk _ _ _ _ h

theorem pathMismatch_memOk {s : State} (b : Bool) (h : s.memOk = true) : (s.pathMismatch b).memOk = true := raiseAt_memOk _ _ _ _ h

theorem pairLane_memOk {s : State} (i : Instr) {body : State → State} (hb : ∀ u : State, u.memOk = true → (body u).memOk = true)
    (h : s.memOk = true) : (s.pairLane i body).memOk = true := by
  unfold pairLane
  split
  · exact hb _ h
  split
  · exact hb _ h
  split
  · exact pathMismatch_memOk _ h
  · dsimp only
    generalize (if (checkedLane i && !actsOnce i) = true then _ else (0 : Mask)) = m
    split
    · exact mismatched_memOk _ h
    · exact pair_memOk _ _ _ hb (mismatched_memOk _ h)

theorem poisonGate_memOk {s : State} (k : Card) (f : LaneWord) (h : s.memOk = true) : (s.poisonGate k f).state.memOk = true := by
  unfold poisonGate
  dsimp only
  split
  · exact h
  split
  · exact killLanes_memOk _ _ h
  · exact killLanes_memOk _ _ h

end State

theorem scalarForm_memOk {i : Instr} {s t : State} {body : State → State} (hb : ∀ u : State, u.memOk = true → (body u).memOk = true)
    (h : s.memOk = true) (he : scalarForm i s body = .next t) : t.memOk = true := by
  unfold scalarForm at he
  split at he
  · cases he
  · split at he
    · cases he
    · split at he <;> cases he
      all_goals
        have h1 := scalarGate_memOk (i := i) h
        rename_i he
        rw [he] at h1
      · exact State.pairScalar_memOk _ hb h1
      · exact h1

theorem laneGate_memOk {i : Instr} {s : State} (h : s.memOk = true) :
    (laneGate i s).state.memOk = true := by
  unfold laneGate
  split
  · exact h
  split
  · exact State.memOk_congr (State.modP_mem _ _) h
  split
  · exact State.lanePathFault_memOk _ _ h
  split
  · exact State.lanePathFault_memOk _ _ h
  split
  · exact State.lanePathFault_memOk _ _ h
  split
  · dsimp only
    have h1 : (s.modP (fun p => { p with windows := endWindows true p.windows })).memOk = true :=
      State.memOk_congr (State.modP_mem _ _) h
    split
    · exact State.splitStalled_memOk _ _ (State.memOk_congr (State.modP_mem _ _) h1)
    split
    · exact State.settleAll_memOk _ _ h1
    · exact State.poisonGate_memOk _ _ (State.settleAll_memOk _ _ h1)
  · split
    · exact State.lanePathFault_memOk _ _ h
    split
    · exact State.memOk_congr (State.modP_mem _ _) h
    · exact State.poisonGate_memOk _ _ h

theorem laneForm_memOk {i : Instr} {s t : State} {body : State → State} (hb : ∀ u : State, u.memOk = true → (body u).memOk = true)
    (h : s.memOk = true) (he : laneForm i s body = .next t) : t.memOk = true := by
  unfold laneForm at he
  split at he
  · cases he
  · split at he
    · cases he
    · split at he <;> cases he
      all_goals
        have h1 := laneGate_memOk (i := i) h
        rename_i he
        rw [he] at h1
      · exact State.pairLane_memOk _ hb h1
      · exact h1

/-- An event runs, and waits for a full link's queue from its start, unless a fatal error has stopped the module. -/
theorem eventForm_next {i : Instr} {s t : State} {body : State → State} :
    eventForm i s body = .next t ↔ s.hub.fatal = false ∧ t = (body s).orWait s (.event i) := by
  unfold eventForm
  cases s.hub.fatal <;> simp [eq_comm]

/-- A host's act runs unless a fatal error has stopped the module. -/
theorem hostForm_next {s t : State} {body : State → State} :
    hostForm s body = .next t ↔ s.hub.fatal = false ∧ t = body s := by
  unfold hostForm
  cases s.hub.fatal <;> simp [eq_comm]

theorem eventForm_memOk {i : Instr} {s t : State} {body : State → State} (hb : (body s).memOk = true) (h : s.memOk = true)
    (he : eventForm i s body = .next t) : t.memOk = true := (eventForm_next.1 he).2 ▸ State.orWait_memOk _ hb h

theorem hostForm_memOk {s t : State} {body : State → State} (hb : (body s).memOk = true) (he : hostForm s body = .next t) :
    t.memOk = true := (hostForm_next.1 he).2 ▸ hb

end Sys2Proof.Machine
end

