-- ==== Sys2Proof/Laws/PerInstr.lean ====
section
/-! SUPPORT. Laws stated of every instruction, one lemma a constructor. -/

namespace Sys2Proof.Laws

/-- R39 and R43: a scalar form has a word of 4 bytes, a lane form one of 12. -/
def Length.Statement (i : Instr) : Prop :=
  ∀ bs, encode i = some bs → bs.length = if (encodeScalar i).isSome then 4 else 12

namespace Length

theorem every (i : Instr) : Statement i := by
  intro bs hb
  unfold encode at hb
  split at hb
  · rename_i h
    rw [← Option.some.inj hb, length_bytesOf, h]
    rfl
  · rename_i h
    split at hb
    · rw [← Option.some.inj hb, length_bytesOf, h]
      rfl
    · exact nomatch hb

theorem sadd (d : BitVec 6) (a : BitVec 6) (b : BitVec 6) : Statement (.sadd d a b) := every _
theorem ssub (d : BitVec 6) (a : BitVec 6) (b : BitVec 6) : Statement (.ssub d a b) := every _
theorem smul (d : BitVec 6) (a : BitVec 6) (b : BitVec 6) : Statement (.smul d a b) := every _
theorem smulh (d : BitVec 6) (a : BitVec 6) (b : BitVec 6) (u : BitVec 1) : Statement (.smulh d a b u) := every _
theorem sdiv (d : BitVec 6) (a : BitVec 6) (b : BitVec 6) (u : BitVec 1) : Statement (.sdiv d a b u) := every _
theorem srem (d : BitVec 6) (a : BitVec 6) (b : BitVec 6) (u : BitVec 1) : Statement (.srem d a b u) := every _
theorem sand (d : BitVec 6) (a : BitVec 6) (b : BitVec 6) : Statement (.sand d a b) := every _
theorem sor (d : BitVec 6) (a : BitVec 6) (b : BitVec 6) : Statement (.sor d a b) := every _
theorem sxor (d : BitVec 6) (a : BitVec 6) (b : BitVec 6) : Statement (.sxor d a b) := every _
theorem sshl (d : BitVec 6) (a : BitVec 6) (b : BitVec 6) : Statement (.sshl d a b) := every _
theorem sshr (d : BitVec 6) (a : BitVec 6) (b : BitVec 6) : Statement (.sshr d a b) := every _
theorem ssar (d : BitVec 6) (a : BitVec 6) (b : BitVec 6) : Statement (.ssar d a b) := every _
theorem smin (d : BitVec 6) (a : BitVec 6) (b : BitVec 6) (u : BitVec 1) : Statement (.smin d a b u) := every _
theorem smax (d : BitVec 6) (a : BitVec 6) (b : BitVec 6) (u : BitVec 1) : Statement (.smax d a b u) := every _
theorem spopc (d : BitVec 6) (a : BitVec 6) : Statement (.spopc d a) := every _
theorem sclz (d : BitVec 6) (a : BitVec 6) : Statement (.sclz d a) := every _
theorem smov (d : BitVec 6) (a : BitVec 6) : Statement (.smov d a) := every _
theorem ssel (d : BitVec 6) (a : BitVec 6) (b : BitVec 6) (n : BitVec 3) : Statement (.ssel d a b n) := every _
theorem scmp (d : BitVec 3) (a : BitVec 6) (b : BitVec 6) (c : BitVec 3) : Statement (.scmp d a b c) := every _
theorem aadd (d : BitVec 4) (a : BitVec 4) (b : BitVec 6) : Statement (.aadd d a b) := every _
theorem asub (d : BitVec 6) (a : BitVec 4) (b : BitVec 4) : Statement (.asub d a b) := every _
theorem aset (d : BitVec 4) (a : BitVec 6) : Statement (.aset d a) := every _
theorem asetW (d : BitVec 4) (a : BitVec 6) (b : BitVec 6) : Statement (.asetW d a b) := every _
theorem aget (d : BitVec 6) (a : BitVec 4) : Statement (.aget d a) := every _
theorem agetHi (d : BitVec 6) (a : BitVec 4) : Statement (.agetHi d a) := every _
theorem acmp (d : BitVec 3) (a : BitVec 4) (b : BitVec 4) (c : BitVec 3) : Statement (.acmp d a b c) := every _
theorem saddi (d : BitVec 6) (a : BitVec 6) (i : BitVec 14) : Statement (.saddi d a i) := every _
theorem sandi (d : BitVec 6) (a : BitVec 6) (i : BitVec 14) : Statement (.sandi d a i) := every _
theorem sori (d : BitVec 6) (a : BitVec 6) (i : BitVec 14) : Statement (.sori d a i) := every _
theorem sxori (d : BitVec 6) (a : BitVec 6) (i : BitVec 14) : Statement (.sxori d a i) := every _
theorem sshli (d : BitVec 6) (a : BitVec 6) (i : BitVec 6) : Statement (.sshli d a i) := every _
theorem sshri (d : BitVec 6) (a : BitVec 6) (i : BitVec 6) : Statement (.sshri d a i) := every _
theorem ssari (d : BitVec 6) (a : BitVec 6) (i : BitVec 6) : Statement (.ssari d a i) := every _
theorem scmpi (d : BitVec 3) (a : BitVec 6) (c : BitVec 3) (i : BitVec 11) : Statement (.scmpi d a c i) := every _
theorem aaddi (d : BitVec 4) (a : BitVec 4) (i : BitVec 14) : Statement (.aaddi d a i) := every _
theorem slui (d : BitVec 6) (i : BitVec 20) : Statement (.slui d i) := every _
theorem br (o : BitVec 22) : Statement (.br o) := every _
theorem bq (q : BitVec 3) (s : BitVec 1) (o : BitVec 22) : Statement (.bq q s o) := every _
theorem brd (p : BitVec 3) (s : BitVec 1) (t : BitVec 11) (j : BitVec 11) : Statement (.brd p s t j) := every _
theorem call (o : BitVec 22) : Statement (.call o) := every _
theorem join : Statement (.join) := every _
theorem calli (a : BitVec 6) : Statement (.calli a) := every _
theorem ret : Statement (.ret) := every _
theorem exit : Statement (.exit) := every _
theorem nap (a : BitVec 6) : Statement (.nap a) := every _
theorem yield : Statement (.yield) := every _
theorem loop (d : BitVec 6) (i : BitVec 14) : Statement (.loop d i) := every _
theorem sld (d : BitVec 6) (r : BitVec 4) (z : BitVec 4) (l : BitVec 4) (i : BitVec 8) : Statement (.sld d r z l i) := every _
theorem sst (d : BitVec 6) (r : BitVec 4) (z : BitVec 4) (l : BitVec 4) (i : BitVec 8) : Statement (.sst d r z l i) := every _
theorem slda (d : BitVec 4) (r : BitVec 4) (z : BitVec 4) (l : BitVec 4) (i : BitVec 8) : Statement (.slda d r z l i) := every _
theorem ssta (d : BitVec 4) (r : BitVec 4) (l : BitVec 4) (i : BitVec 8) : Statement (.ssta d r l i) := every _
theorem samo (d : BitVec 6) (a : BitVec 4) (b : BitVec 6) (o : BitVec 4) (r : BitVec 2) (s : BitVec 2) : Statement (.samo d a b o r s) := every _
theorem lrun (c : BitVec 6) (o : BitVec 20) : Statement (.lrun c o) := every _
theorem lsync : Statement (.lsync) := every _
theorem bara (b : BitVec 4) : Statement (.bara b) := every _
theorem barw (b : BitVec 4) : Statement (.barw b) := every _
theorem baraw (b : BitVec 4) : Statement (.baraw b) := every _
theorem gangset (s : BitVec 6) : Statement (.gangset s) := every _
theorem txld (q : BitVec 2) (r : BitVec 4) (g : BitVec 4) (c : BitVec 6) (l : BitVec 4) : Statement (.txld q r g c l) := every _
theorem txst (q : BitVec 2) (r : BitVec 4) (g : BitVec 4) (c : BitVec 6) (l : BitVec 4) : Statement (.txst q r g c l) := every _
theorem txpf (q : BitVec 2) (r : BitVec 4) (g : BitVec 4) : Statement (.txpf q r g) := every _
theorem wbload (q : BitVec 2) (s : BitVec 6) (c : BitVec 6) (l : BitVec 4) : Statement (.wbload q s c l) := every _
theorem recfence (r : BitVec 4) : Statement (.recfence r) := every _
theorem recfenceAll : Statement (.recfenceAll) := every _
theorem qfence (m : BitVec 4) : Statement (.qfence m) := every _
theorem qwait (m : BitVec 4) (l : BitVec 4) : Statement (.qwait m l) := every _
theorem cnode (d : BitVec 6) (p : BitVec 6) (l : BitVec 4) : Statement (.cnode d p l) := every _
theorem cenrol (n : BitVec 6) (a : BitVec 4) (c : BitVec 6) : Statement (.cenrol n a c) := every _
theorem cunrol (a : BitVec 4) (c : BitVec 6) : Statement (.cunrol a c) := every _
theorem cread (d : BitVec 6) (n : BitVec 6) (l : BitVec 4) : Statement (.cread d n l) := every _
theorem csettle (d : BitVec 6) (n : BitVec 6) (l : BitVec 4) : Statement (.csettle d n l) := every _
theorem cwatch (n : BitVec 6) (y : BitVec 6) (z : BitVec 6) : Statement (.cwatch n y z) := every _
theorem crepar (n : BitVec 6) (p : BitVec 6) : Statement (.crepar n p) := every _
theorem cfree (n : BitVec 6) : Statement (.cfree n) := every _
theorem creadG (d : BitVec 6) (a : BitVec 4) (l : BitVec 4) : Statement (.creadG d a l) := every _
theorem raise (x : BitVec 6) (y : BitVec 6) (z : BitVec 6) : Statement (.raise x y z) := every _
theorem raiseSum (x : BitVec 6) (y : BitVec 6) (z : BitVec 6) : Statement (.raiseSum x y z) := every _
theorem plotend (x : BitVec 6) : Statement (.plotend x) := every _
theorem reap (d : BitVec 6) (a : BitVec 4) (l : BitVec 4) : Statement (.reap d a l) := every _
theorem sysr (d : BitVec 6) (n : BitVec 12) : Statement (.sysr d n) := every _
theorem sysw (s : BitVec 6) (n : BitVec 12) : Statement (.sysw s n) := every _
theorem trap (c : BitVec 8) : Statement (.trap c) := every _
theorem tret : Statement (.tret) := every _
theorem brkpt (t : BitVec 12) : Statement (.brkpt t) := every _
theorem fence (l : BitVec 1) (s : BitVec 2) (o : BitVec 2) : Statement (.fence l s o) := every _
theorem pset (s : BitVec 6) (n : BitVec 12) : Statement (.pset s n) := every _
theorem pcancel : Statement (.pcancel) := every _
theorem prepeat : Statement (.prepeat) := every _
theorem vadd (f : LaneWord) : Statement (.vadd f) := every _
theorem vsub (f : LaneWord) : Statement (.vsub f) := every _
theorem vmul (f : LaneWord) : Statement (.vmul f) := every _
theorem vmulh (f : LaneWord) : Statement (.vmulh f) := every _
theorem vmad (f : LaneWord) : Statement (.vmad f) := every _
theorem vmin (f : LaneWord) : Statement (.vmin f) := every _
theorem vmax (f : LaneWord) : Statement (.vmax f) := every _
theorem vabs (f : LaneWord) : Statement (.vabs f) := every _
theorem vneg (f : LaneWord) : Statement (.vneg f) := every _
theorem vdot4 (f : LaneWord) : Statement (.vdot4 f) := every _
theorem vshl (f : LaneWord) : Statement (.vshl f) := every _
theorem vshr (f : LaneWord) : Statement (.vshr f) := every _
theorem vsar (f : LaneWord) : Statement (.vsar f) := every _
theorem vand (f : LaneWord) : Statement (.vand f) := every _
theorem vor (f : LaneWord) : Statement (.vor f) := every _
theorem vxor (f : LaneWord) : Statement (.vxor f) := every _
theorem vnot (f : LaneWord) : Statement (.vnot f) := every _
theorem vlop3 (f : LaneWord) : Statement (.vlop3 f) := every _
theorem vpopc (f : LaneWord) : Statement (.vpopc f) := every _
theorem vclz (f : LaneWord) : Statement (.vclz f) := every _
theorem vbrev (f : LaneWord) : Statement (.vbrev f) := every _
theorem vbfx (f : LaneWord) : Statement (.vbfx f) := every _
theorem vbfi (f : LaneWord) : Statement (.vbfi f) := every _
theorem vmov (f : LaneWord) : Statement (.vmov f) := every _
theorem vmovi (f : LaneWord) : Statement (.vmovi f) := every _
theorem vmovs (f : LaneWord) : Statement (.vmovs f) := every _
theorem vsel (f : LaneWord) : Statement (.vsel f) := every _
theorem vcmp (f : LaneWord) : Statement (.vcmp f) := every _
theorem vlane (f : LaneWord) : Statement (.vlane f) := every _
theorem fadd (f : LaneWord) : Statement (.fadd f) := every _
theorem fsub (f : LaneWord) : Statement (.fsub f) := every _
theorem fmul (f : LaneWord) : Statement (.fmul f) := every _
theorem ffma (f : LaneWord) : Statement (.ffma f) := every _
theorem fmin (f : LaneWord) : Statement (.fmin f) := every _
theorem fmax (f : LaneWord) : Statement (.fmax f) := every _
theorem fabs (f : LaneWord) : Statement (.fabs f) := every _
theorem fneg (f : LaneWord) : Statement (.fneg f) := every _
theorem fcpys (f : LaneWord) : Statement (.fcpys f) := every _
theorem fclass (f : LaneWord) : Statement (.fclass f) := every _
theorem fdiv (f : LaneWord) : Statement (.fdiv f) := every _
theorem fsqrt (f : LaneWord) : Statement (.fsqrt f) := every _
theorem frcp (f : LaneWord) : Statement (.frcp f) := every _
theorem frsq (f : LaneWord) : Statement (.frsq f) := every _
theorem fexp2 (f : LaneWord) : Statement (.fexp2 f) := every _
theorem flog2 (f : LaneWord) : Statement (.flog2 f) := every _
theorem fsin (f : LaneWord) : Statement (.fsin f) := every _
theorem fcos (f : LaneWord) : Statement (.fcos f) := every _
theorem cvt (f : LaneWord) : Statement (.cvt f) := every _
theorem vshuf (f : LaneWord) : Statement (.vshuf f) := every _
theorem vvote (f : LaneWord) : Statement (.vvote f) := every _
theorem vred (f : LaneWord) : Statement (.vred f) := every _
theorem vredix (f : LaneWord) : Statement (.vredix f) := every _
theorem vscan (f : LaneWord) : Statement (.vscan f) := every _
theorem vget (f : LaneWord) : Statement (.vget f) := every _
theorem vsync (f : LaneWord) : Statement (.vsync f) := every _
theorem pand (f : LaneWord) : Statement (.pand f) := every _
theorem por (f : LaneWord) : Statement (.por f) := every _
theorem pxor (f : LaneWord) : Statement (.pxor f) := every _
theorem pnot (f : LaneWord) : Statement (.pnot f) := every _
theorem pmov (f : LaneWord) : Statement (.pmov f) := every _
theorem pget (f : LaneWord) : Statement (.pget f) := every _
theorem vld (f : LaneWord) : Statement (.vld f) := every _
theorem vst (f : LaneWord) : Statement (.vst f) := every _
theorem vpf (f : LaneWord) : Statement (.vpf f) := every _
theorem vamo (scope : BitVec 2) (f : LaneWord) : Statement (.vamo scope f) := every _
theorem vfence (f : LaneWord) : Statement (.vfence f) := every _
theorem cld (f : LaneWord) : Statement (.cld f) := every _
theorem cst (f : LaneWord) : Statement (.cst f) := every _
theorem camo (f : LaneWord) : Statement (.camo f) := every _
theorem cupd (f : LaneWord) : Statement (.cupd f) := every _
theorem cred (f : LaneWord) : Statement (.cred f) := every _
theorem rinit (f : LaneWord) : Statement (.rinit f) := every _
theorem rwaitFill (f : LaneWord) : Statement (.rwaitFill f) := every _
theorem rwaitFree (f : LaneWord) : Statement (.rwaitFree f) := every _
theorem rfree (f : LaneWord) : Statement (.rfree f) := every _
theorem rpost (f : LaneWord) : Statement (.rpost f) := every _
theorem mxacc (f : LaneWord) : Statement (.mxacc f) := every _
theorem mxzero (f : LaneWord) : Statement (.mxzero f) := every _
theorem mxloadc (f : LaneWord) : Statement (.mxloadc f) := every _
theorem mxdrain (f : LaneWord) : Statement (.mxdrain f) := every _
theorem vrkey (f : LaneWord) : Statement (.vrkey f) := every _
theorem vraise (f : LaneWord) : Statement (.vraise f) := every _
theorem matrixOperation (core : Nat) : Statement (.matrixOperation core) := every _
theorem rollupGranuleStep (granule : Nat) : Statement (.rollupGranuleStep granule) := every _
theorem rollupNodeStep (ctx node : Nat) : Statement (.rollupNodeStep ctx node) := every _
theorem watchEvent (sys slot : Nat) : Statement (.watchEvent sys slot) := every _
theorem raiseArrival (k : Nat) : Statement (.raiseArrival k) := every _
theorem deal (die : Nat) : Statement (.deal die) := every _
theorem plotTaskComplete (sys plot : Nat) : Statement (.plotTaskComplete sys plot) := every _
theorem quietRound (sys : Nat) : Statement (.quietRound sys) := every _
theorem rehomeSwitch (set : Nat) : Statement (.rehomeSwitch set) := every _
theorem teamEnd (team : Nat) : Statement (.teamEnd team) := every _
theorem fragmentHandlerEntry (core entry : Nat) : Statement (.fragmentHandlerEntry core entry) := every _
theorem asyncEventDelivery (wid : Nat) : Statement (.asyncEventDelivery wid) := every _
theorem migrateMove (ctx vpn : Nat) (frame : Option Nat) : Statement (.migrateMove ctx vpn frame) := every _
theorem pendingDataArrival (core entry : Nat) : Statement (.pendingDataArrival core entry) := every _
theorem napExpiry (wid slot : Nat) : Statement (.napExpiry wid slot) := every _
theorem engineEntryStart (core q : Nat) : Statement (.engineEntryStart core q) := every _
theorem engineSegmentComplete (core q : Nat) : Statement (.engineSegmentComplete core q) := every _
theorem engineEntryRetire (core q : Nat) : Statement (.engineEntryRetire core q) := every _
theorem engineQueueResume (core q : Nat) : Statement (.engineQueueResume core q) := every _
theorem qfenceRetire (core q : Nat) : Statement (.qfenceRetire core q) := every _
theorem ringGrant (team offset : Nat) : Statement (.ringGrant team offset) := every _
theorem drawerRequestEnqueue (link : Nat) : Statement (.drawerRequestEnqueue link) := every _
theorem linkSlot (link : Nat) : Statement (.linkSlot link) := every _
theorem upstreamFlit (link : Nat) (header : BitVec 128) : Statement (.upstreamFlit link header) := every _
theorem frameBoundary (link : Nat) : Statement (.frameBoundary link) := every _
theorem frameMark (link : Nat) : Statement (.frameMark link) := every _
theorem retuneElapsed (link : Nat) : Statement (.retuneElapsed link) := every _
theorem lockHeld (link : Nat) : Statement (.lockHeld link) := every _
theorem lockRegained (link : Nat) : Statement (.lockRegained link) := every _
theorem retrainTimeout (link : Nat) : Statement (.retrainTimeout link) := every _
theorem shootdownComplete (set : Nat) : Statement (.shootdownComplete set) := every _
theorem ctCommandComplete (set : Nat) : Statement (.ctCommandComplete set) := every _
theorem scrubComplete (ctx q : Nat) : Statement (.scrubComplete ctx q) := every _
theorem entryConsume (ctx q : Nat) : Statement (.entryConsume ctx q) := every _
theorem slotReread (ctx q : Nat) : Statement (.slotReread ctx q) := every _
theorem entryComplete (ctx q : Nat) : Statement (.entryComplete ctx q) := every _
theorem launch (ctx q : Nat) : Statement (.launch ctx q) := every _
theorem waitsem (ctx q : Nat) : Statement (.waitsem ctx q) := every _
theorem semaphoreReread (ctx q : Nat) : Statement (.semaphoreReread ctx q) := every _
theorem sigsem (ctx q : Nat) : Statement (.sigsem ctx q) := every _
theorem qfenceEntry (ctx q : Nat) : Statement (.qfenceEntry ctx q) := every _
theorem graph (ctx q : Nat) : Statement (.graph ctx q) := every _
theorem kernelNode (ctx q : Nat) : Statement (.kernelNode ctx q) := every _
theorem condNode (ctx q : Nat) : Statement (.condNode ctx q) := every _
theorem loopNode (ctx q : Nat) : Statement (.loopNode ctx q) := every _
theorem endNode (ctx q : Nat) : Statement (.endNode ctx q) := every _
theorem attach (ctx q : Nat) : Statement (.attach ctx q) := every _
theorem detach (ctx q : Nat) : Statement (.detach ctx q) := every _
theorem reapq (ctx q : Nat) : Statement (.reapq ctx q) := every _
theorem copy (ctx q : Nat) : Statement (.copy ctx q) := every _
theorem prologueRun (ctx q : Nat) : Statement (.prologueRun ctx q) := every _
theorem launchComplete (ctx q : Nat) : Statement (.launchComplete ctx q) := every _
theorem homeDieTimeout (ctx q : Nat) : Statement (.homeDieTimeout ctx q) := every _
theorem drainDeadline (ctx : Nat) : Statement (.drainDeadline ctx) := every _
theorem freezeComplete (ctx : Nat) : Statement (.freezeComplete ctx) := every _
theorem linkPolicySample : Statement (.linkPolicySample) := every _
theorem corePowerGate (core : Nat) : Statement (.corePowerGate core) := every _
theorem coreWake (core : Nat) : Statement (.coreWake core) := every _
theorem operatingPointChange (die : Nat) : Statement (.operatingPointChange die) := every _
theorem breakpointStop (wid slot : Nat) (lane : Bool) : Statement (.breakpointStop wid slot lane) := every _
theorem sample (ctx core : Nat) : Statement (.sample ctx core) := every _
theorem deadlockCheck (ctx : Nat) : Statement (.deadlockCheck ctx) := every _
theorem meTransactionComplete (mb : Nat) : Statement (.meTransactionComplete mb) := every _
theorem restoreComplete (ctx : Nat) : Statement (.restoreComplete ctx) := every _
theorem stageComplete (fcode : BitVec 8) (linkUp : BitVec 32) : Statement (.stageComplete fcode linkUp) := every _
theorem rehome (set : Nat) (v : DWord) : Statement (.rehome set v) := every _
theorem lossOfLock (link : Nat) : Statement (.lossOfLock link) := every _
theorem wakingLockLoss (link : Nat) : Statement (.wakingLockLoss link) := every _
theorem flitCrcFail (link : Nat) : Statement (.flitCrcFail link) := every _
theorem dlctlWrite (link : Nat) (v : DWord) : Statement (.dlctlWrite link v) := every _
theorem dlcommit (link : Nat) (v : DWord) : Statement (.dlcommit link v) := every _
theorem shootdownPages (set : Nat) (v : DWord) : Statement (.shootdownPages set v) := every _
theorem shootdownSpace (set : Nat) (v : DWord) : Statement (.shootdownSpace set v) := every _
theorem shootdownEverySpace (set : Nat) (v : DWord) : Statement (.shootdownEverySpace set v) := every _
theorem ctSettleNode (set : Nat) (v : DWord) : Statement (.ctSettleNode set v) := every _
theorem ctReadRecord (set : Nat) (v : DWord) : Statement (.ctReadRecord set v) := every _
theorem ctReadGranule (set : Nat) (v : DWord) : Statement (.ctReadGranule set v) := every _
theorem qtailWrite (ctx q : Nat) (v : DWord) : Statement (.qtailWrite ctx q v) := every _
theorem qcfgWrite (ctx q : Nat) (v : DWord) : Statement (.qcfgWrite ctx q v) := every _
theorem meWrite (mb : Nat) (v : DWord) : Statement (.meWrite mb v) := every _
theorem meRead (mb : Nat) (v : DWord) : Statement (.meRead mb v) := every _
theorem meAdd (mb : Nat) (v : DWord) : Statement (.meAdd mb v) := every _
theorem meMax (mb : Nat) (v : DWord) : Statement (.meMax mb v) := every _
theorem meCas (mb : Nat) (v : DWord) : Statement (.meCas mb v) := every _
theorem mailboxDataWrite (mb reg : Nat) (v : DWord) : Statement (.mailboxDataWrite mb reg v) := every _
theorem ctxcfgWrite (fn ctx : Nat) (v : DWord) : Statement (.ctxcfgWrite fn ctx v) := every _
theorem ssownWrite (fn n : Nat) (v : DWord) : Statement (.ssownWrite fn n v) := every _
theorem ctxDrain (ctx : Nat) (v : DWord) : Statement (.ctxDrain ctx v) := every _
theorem ctxResume (ctx : Nat) (v : DWord) : Statement (.ctxResume ctx v) := every _
theorem ctxRestore (ctx : Nat) (v : DWord) : Statement (.ctxRestore ctx v) := every _
theorem ctxReset (ctx : Nat) (v : DWord) : Statement (.ctxReset ctx v) := every _
theorem uncorrectableError (site : ErrSite) : Statement (.uncorrectableError site) := every _
theorem schedulerRebuild (core : Nat) (ok : Bool) : Statement (.schedulerRebuild core ok) := every _
theorem devpop (v : DWord) : Statement (.devpop v) := every _
theorem securityAlarm : Statement (.securityAlarm) := every _
theorem measurementCheck (matches_ : Bool) : Statement (.measurementCheck matches_) := every _
theorem attestationRequest (nonce : BitVec 256) : Statement (.attestationRequest nonce) := every _
theorem thermalTrip (die : Nat) : Statement (.thermalTrip die) := every _
theorem resetRelease : Statement (.resetRelease) := every _
theorem modrst (v : DWord) : Statement (.modrst v) := every _
theorem dbgStop (ctx : Nat) (v : DWord) : Statement (.dbgStop ctx v) := every _
theorem dbgResume (ctx : Nat) (v : DWord) : Statement (.dbgResume ctx v) := every _
theorem dbgStepScalar (ctx : Nat) (v : DWord) : Statement (.dbgStepScalar ctx v) := every _
theorem dbgStepLane (ctx : Nat) (v : DWord) : Statement (.dbgStepLane ctx v) := every _
theorem dbgStopAll (ctx : Nat) (v : DWord) : Statement (.dbgStopAll ctx v) := every _
theorem dbgResumeAll (ctx : Nat) (v : DWord) : Statement (.dbgResumeAll ctx v) := every _
theorem dbgReplay (ctx : Nat) (v : DWord) : Statement (.dbgReplay ctx v) := every _
theorem dbgSkip (ctx : Nat) (v : DWord) : Statement (.dbgSkip ctx v) := every _
theorem dbgctlWrite (ctx : Nat) (v : DWord) : Statement (.dbgctlWrite ctx v) := every _
theorem prfselClear (v : DWord) : Statement (.prfselClear v) := every _
theorem registerWrite (fn offset : Nat) (v : DWord) : Statement (.registerWrite fn offset v) := every _
theorem eccCorrected (die core : Nat) : Statement (.eccCorrected die core) := every _
theorem peerWrite (pa size : Nat) (v : DWord) : Statement (.peerWrite pa size v) := every _
theorem powerGovernorDecision (die : Nat) (point : BitVec 2) (watts : BitVec 16) : Statement (.powerGovernorDecision die point watts) := every _
theorem conventionalReset : Statement (.conventionalReset) := every _
theorem powerLoss : Statement (.powerLoss) := every _

end Length

end Sys2Proof.Laws
end

