-- ==== Sys2Proof/Laws/Turns.lean ====
section
/-! SUPPORT. What a turn does before its instruction executes keeps memory in its canonical form: the passing of time, the
draining of overflow slots, a turn from outside, and the fetch of a path's next word. -/

namespace Sys2Proof.Machine

/-! ## Frames given and freed -/

theorem Mem.clearBytes_wf (m : Mem) (a n p q : Nat) (h : m.wf = true) :
    ({ m with bytes := m.bytes.clear a n, poison := m.poison.clear p q, stamps := m.stamps.clear p q } : Mem).wf = true := by
  simp only [Mem.wf_iff] at *
  simp only [h, Cells.wf_clear, and_self]

theorem Mem.giveOwner_wf (m : Mem) (f a n : Nat) (o : BitVec 9) (h : m.wf = true) :
    ({ m with owner := m.owner.set f o, enrol := m.enrol.clear a n } : Mem).wf = true := by
  simp only [Mem.wf_iff] at *
  simp only [h, Cells.wf_clear, Cells.wf_set, and_self]

theorem Mem.clearCounts_wf (m : Mem) (a n : Nat) (h : m.wf = true) :
    ({ m with counts := m.counts.clear a n, pend := m.pend.clear a n } : Mem).wf = true := by
  simp only [Mem.wf_iff] at *
  simp only [h, Cells.wf_clear, and_self]

theorem Mem.zeroFrame_wf (m : Mem) (f : Nat) (h : m.wf = true) : (m.zeroFrame f).wf = true :=
  Mem.clearBytes_wf _ _ _ _ _ (Mem.bumpSpan_wf m _ _ h)

namespace State

@[simp] theorem bumpNode_mem (s : State) (c n : Nat) : (s.bumpNode c n).mem = s.mem := rfl

theorem granuleStep_memOk {s : State} (g : Nat) (h : s.memOk = true) : (s.granuleStep g).memOk = true := by
  have h1 : (s.modMem (fun m => { m with pend := m.pend.set g 0 })).memOk = true :=
    memOk_modMem (fun m hm => by simp only [Mem.wf_iff] at *; simp only [hm, Cells.wf_set, and_self]) h
  unfold granuleStep
  split
  · exact h
  · dsimp only
    split
    · exact h
    · split
      · exact h1
      · exact memOk_congr (bumpNode_mem _ _ _) h1

theorem giveFrame_memOk {s : State} (f c : Nat) (h : s.memOk = true) : (s.giveFrame f c).memOk = true := by
  unfold giveFrame
  dsimp only
  split
  · exact h
  · refine memOk_modMem (fun m hm => ?_) h
    refine Mem.giveOwner_wf _ _ _ _ _ ?_
    split
    · exact Mem.zeroFrame_wf m f hm
    · exact Mem.clearCounts_wf _ _ _ (Mem.zeroFrame_wf m f hm)

theorem Mem.clearGranules_wf (m : Mem) (gs : List Nat) (b : Bool) (h : m.wf = true) :
    ({ m with
        pend := if b then gs.foldl (fun t g => t.set g 0) m.pend else m.pend
        enrol := gs.foldl (fun t g => t.set g 0) m.enrol } : Mem).wf = true := by
  simp only [Mem.wf_iff] at *
  cases b <;> simp only [h, Cells.wf_foldl_set gs (fun g => g) (fun _ => 0), if_true, if_false, Bool.false_eq_true, and_self]

theorem leaveNodes_memOk {s : State} (c : Nat) (gs : List Nat) (root : Bool) (h : s.memOk = true) :
    (s.leaveNodes c gs root).memOk = true := by
  have h1 : (gs.foldl State.granuleStep s).memOk = true := foldl_memOk State.granuleStep (fun _ g h => granuleStep_memOk g h) gs h
  unfold leaveNodes
  dsimp only
  refine memOk_modMem (fun m hm => ?_) ?_
  · exact Mem.clearGranules_wf m gs false hm
  · refine memOk_congr (foldl_mem _ (fun u n => bumpNode_mem u _ n) _ _) (memOk_congr (foldl_mem _ (fun u n => ?_) _ _) h1)
    split
    · rfl
    · exact modNode_mem _ _ _ _

theorem leaveFrame_memOk {s : State} (f : Nat) (b : Bool) (h : s.memOk = true) : (s.leaveFrame f b).memOk = true := by
  unfold leaveFrame
  dsimp only
  refine memOk_modMem (fun m hm => Mem.clearGranules_wf m _ _ hm) ?_
  have h1 : (if s.treeRuns ((s.mem.owner.get f).toNat - 1) && (s.ctx ((s.mem.owner.get f).toNat - 1)).st != .tornDown
      then s.leaveNodes ((s.mem.owner.get f).toNat - 1) ((List.range 16).map (fun i => f * 16 + i)) (!b) else s).memOk = true := by
    split
    · exact leaveNodes_memOk _ _ _ h
    · exact h
  exact memOk_congr rfl h1

theorem freeFrame_memOk {s : State} (f : Nat) (h : s.memOk = true) : (s.freeFrame f).memOk = true := by
  unfold freeFrame
  dsimp only
  split
  · exact h
  · exact memOk_modMem (fun m hm => by simp only [Mem.wf_iff] at *; simp only [hm, Cells.wf_set, and_self]) (leaveFrame_memOk f true h)

theorem beginMove_memOk {s : State} (c v : Nat) (h : s.memOk = true) : (s.beginMove c v).memOk = true := by
  unfold beginMove
  split
  · dsimp only
    split
    · exact h
    · next e a _ _ =>
      exact memOk_congr (s := s.modMem (·.quiet a (bytesOf 8 (putBit e 63 false).toNat))) rfl
        (memOk_modMem (fun m hm => Mem.quiet_wf m _ _ hm) h)
  · exact h

theorem unmapPage_memOk {s : State} (c v : Nat) (h : s.memOk = true) : (s.unmapPage c v).memOk = true := by
  unfold unmapPage
  split
  · next e a _ =>
    have h1 : (dropPages (s.modMem (·.quiet a (bytesOf 8 (putBit e 63 false).toNat))) (xdSpace (s.ctx c).xdesc) (pageVa v) 1
        65536).memOk = true :=
      memOk_congr (dropPages_mem _ _ _ _ _) (memOk_modMem (fun m hm => Mem.quiet_wf m _ _ hm) h)
    dsimp only
    split
    · exact leaveFrame_memOk _ _ h1
    · exact h1
  · exact h

theorem outside_memOk {s : State} (o : Outside) (h : s.memOk = true) : (s.outside o).memOk = true := by
  cases o with
  | giveFrame f c => exact giveFrame_memOk f c h
  | freeFrame f => exact freeFrame_memOk f h
  | beginMove c v => exact beginMove_memOk c v h
  | unmapPage c v => exact unmapPage_memOk c v h
  | shadowUpset w k d l x => exact memOk_congr (modWarp_mem _ _ _) h

/-! ## A turn's start -/

theorem drainOverflow_memOk {s : State} (c : Nat) (h : s.memOk = true) : (s.drainOverflow c).memOk = true := by
  unfold drainOverflow
  split
  · split
    · dsimp only
      refine memOk_congr (fillSlots_mem _ _) (traceHalt_memOk _ _ _ _ _ (traceFrag_memOk _ _ ?_))
      exact memOk_congr (s := s) rfl h
    · exact h
  · exact h

theorem stopStep_memOk {s : State} (w k : Nat) (h : s.memOk = true) : (s.stopStep w k).memOk = true := by
  have h1 : ∀ f, ((s.settleAll w k).modPathAt w k f).memOk = true := fun f =>
    memOk_congr (modPathAt_mem _ _ _ _) (settleAll_memOk w k h)
  unfold stopStep
  split
  · exact h
  · split
    · dsimp only
      split
      · split
        · exact trace_memOk _ _ _ _ _ _ (h1 _)
        · exact h1 _
      · exact h1 _
    · exact h

theorem pass_mem (s : State) : s.pass.mem = s.mem := rfl

theorem noteSizes_mem (s : State) : s.noteSizes.mem = s.mem := rfl

theorem drainAll_memOk {s : State} (h : s.memOk = true) : s.drainAll.memOk = true :=
  foldl_memOk _ (fun _ _ h => stopStep_memOk _ 1 (stopStep_memOk _ 0 h)) _ (foldl_memOk _ (fun _ _ h => drainOverflow_memOk _ h) _ h)

theorem chose_mem (s : State) (t : Turn) : (s.chose t).mem = s.mem := by
  unfold chose
  cases t <;> dsimp only <;> first | rfl | (split <;> rfl)

/-- What a turn has a party do starts from a canonical memory. -/
theorem pick_memOk {s : State} (t : Turn) (h : s.memOk = true) : (s.pick t).1.memOk = true := by
  have h1 : ∀ w k, (({ s with cur := (w, k) } : State).settleAll w k).memOk = true := fun w k => settleAll_memOk w k h
  unfold pick
  split
  · exact h
  · exact outside_memOk _ h
  · exact h
  · split
    · exact h
    · dsimp only
      split
      · exact h1 _ _
      · split
        · exact h1 _ _
        · exact nextScalar_memOk (h1 _ _)
  · split
    · exact h
    · dsimp only
      split
      · exact h1 _ _
      · split
        · exact h1 _ _
        · exact nextLane_memOk (h1 _ _)

theorem attempt_mem (s : State) (t : Turn) : (s.attempt t).mem = s.mem := rfl

/-- The choice of a turn keeps the form where the deferred parts of forms do. -/
theorem choose_memOk {s : State} (hp : ∀ u : State, u.memOk = true → u.pollAll.memOk = true) (h : s.memOk = true) :
    s.choose.1.memOk = true := by
  have h0 : s.pass.memOk = true := memOk_congr (pass_mem s) h
  have h1 : s.pass.noteSizes.drainAll.pollAll.memOk = true := hp _ (drainAll_memOk (memOk_congr (noteSizes_mem _) h0))
  have h2 : (if s.hub.fatal then s.pass else s.pass.noteSizes.drainAll.pollAll).memOk = true := by split <;> assumption
  have hc : ∀ (v : State) (t : Turn), v.memOk = true → ((v.chose t).attempt t).memOk = true := fun v t hv =>
    memOk_congr (attempt_mem _ _) (memOk_congr (chose_mem v t) hv)
  unfold choose
  dsimp only
  generalize (if s.hub.fatal then s.pass else s.pass.noteSizes.drainAll.pollAll) = u at h2 ⊢
  split
  · exact hc _ _ (memOk_congr (s := u) rfl h2)
  · split
    · exact hc _ _ (memOk_congr (s := u) rfl h2)
    · exact memOk_congr rfl h2

end State

end Sys2Proof.Machine
end

