-- ==== Sys2Proof/Machine/Views.lean ====
section
/-! DEFINITION. What the debugger reads beside the registers: fragment status words and save records (R183, R184), the path
stack (R176), weight slot descriptors (R272), stamps (R133) and graphs in progress (R338). A reading changes nothing, so no
instruction stands for one. -/

namespace Sys2Proof.Machine

/-! ## The fragment table (R183, R184) -/

/-- The path of a fragment: that of the place a live one runs in, else the one saved. -/
def State.fragNow (s : State) (e : Nat) (f : Frag) : Path :=
  if f.state = 2 then
    (((s.warps.find f.warp).bind (fun w => (w.places.filterMap w.slot).find? (fun p => p.frag == some e))).getD f.path)
  else f.path

/-- Status word of an entry of a core's table. -/
def State.fragStatus (s : State) (core e : Nat) : DWord :=
  match (s.core core).frags.find e with
  | none => 0
  | some f =>
    let p := s.fragNow e f
    BitVec.ofNat 64 (2 ^ 63 + f.state % 4 * 2 ^ 61 + boolNat f.ovf * 2 ^ 60 + f.warp % 64 * 2 ^ 54 + f.serial.toNat * 2 ^ 38
      + (p.jrec.getD 15) % 16 * 2 ^ 34 + boolNat p.sideT * 2 ^ 33 + boolNat f.dev * 2 ^ 32 + f.rcd.cls.toNat * 2 ^ 24
      + f.rcd.cause.toNat * 2 ^ 16 + boolNat f.pfr * 2 ^ 15 + (if f.pfr then f.parent % 256 else 0) * 2 ^ 7)

/-- Mask of an entry. -/
def State.fragMask (s : State) (core e : Nat) : Mask :=
  match (s.core core).frags.find e with
  | none => 0
  | some f => (s.fragNow e f).liveMask ((s.warps.find f.warp).getD {})

/-- Runs a record holds: those a handler in progress has set aside, or the path's own. -/
def Path.heldRuns (p : Path) : List Run := match p.handler with | some h => h.queue | none => p.queue

/-- Image of the registers a run reads: s0-s31 and a0-a15 of 9 bytes each. -/
def Run.image (r : Run) : List Byte :=
  ((List.range 32).map (fun i => bytesOf 8 (r.s.get i).toNat)).flatten ++ ((List.range 16).map (fun i => bytesOf 9 (r.a.get i).toNat)).flatten

/-- Descriptor of a run. DESIGN CHOICE (log 134): the lane offset in the low half, the count in the high one. -/
def Run.descriptor (r : Run) : Nat := r.off % 2 ^ 32 + r.count % 2 ^ 32 * 2 ^ 32

/-- The save record of an entry, 4 KiB, as R183 lays it out. How the header, and what follows s56-s63 of the handler's part,
are packed is free (log 134). -/
def State.saveRecord (s : State) (core e : Nat) : List Byte :=
  match (s.core core).frags.find e with
  | none => List.replicate 4096 0
  | some f =>
    let p := s.fragNow e f
    let rs := p.heldRuns.take 8
    let at_ := match rs with | r :: _ => r.pos | [] => 0
    let hd := Config.packRecord [p.pc.toNat, p.q.toNat, p.jrec.getD 15, boolNat p.sideT, at_, rs.length, boolNat p.handler.isSome, p.fdisp.toNat]
    let sv := match p.handler with | some h => ((List.range 8).map (fun i => bytesOf 8 (h.s.get (56 + i)).toNat)).flatten | none => []
    let q := match p.handler with | some h => h.q.toNat | none => 0
    let tl := Config.packRecord [q, f.rcd.cls.toNat, f.rcd.cause.toNat, f.rcd.addr.toNat, f.rcd.mask.toNat, f.rcd.flpc.toNat, f.rcd.fdata.toNat]
    bytesOf 64 hd.toNat
      ++ ((List.range 32).map (fun i => bytesOf 8 (p.s.get (32 + i)).toNat)).flatten
      ++ padTo 64 ((rs.map (fun r => bytesOf 8 r.descriptor)).flatten)
      ++ padTo 3200 ((rs.map Run.image).flatten)
      ++ padTo 64 sv ++ bytesOf 64 tl.toNat ++ List.replicate 384 0

/-! ## The path stack (R176) -/

/-- Kinds of an entry of the region. -/
inductive StackKind where
  | spilled | yielded | survivor
  deriving DecidableEq, Repr

/-- What an entry of the region holds. -/
structure StackView where
  kind : StackKind
  s : Cells 64
  mask : Mask
  pc : VAddr
  q : BitVec 8
  jrec : Option Nat
  sideT : Bool
  deriving DecidableEq, Repr

/-- Entries of a warp's region: its paths, newest first, then the survivor copies of its open join records. -/
def Warp.stackView (w : Warp) : List StackView :=
  w.stack.map (fun e => { kind := if e.yielded then .yielded else .spilled, s := e.path.s, mask := e.path.liveMask w, pc := e.path.pc
                          q := e.path.q, jrec := e.path.jrec, sideT := e.path.sideT })
    ++ w.jrecs.filterMap (fun j => j.2.copy.map (fun c =>
      { kind := .survivor, s := c.2.1, mask := j.2.mask, pc := j.2.addr + 4, q := c.2.2, jrec := j.2.prev, sideT := j.2.prevSideT }))

/-! ## Weight slots (R272) -/

def WSlot.descriptor (w : WSlot) : BitVec 128 :=
  BitVec.ofNat 128 (w.scale.toNat * 2 ^ 96 + w.bitmap.toNat * 2 ^ 64 + w.live.toNat * 2 ^ 56 + w.fmt.toNat * 2 ^ 52 + w.state.toNat * 2 ^ 50)

/-! ## Graphs (R338) -/

/-- What is read of a GRAPH entry in progress: the node it is at, the count of every LOOP node, and the prologue runs made for
the node. -/
structure GraphView where
  node : Nat
  loops : List (Nat × Word)
  runs : Nat
  deriving DecidableEq, Repr

def State.graphView (s : State) (ctx q : Nat) : Option GraphView :=
  (s.queue ctx q).entry.bind (fun e => e.graph.map (fun g =>
    { node := g.pos
      loops := ((g.nodes.zipIdx).filter (fun n => nodeKind n.1 = 3)).map (fun n => (n.2, g.counts.get n.2))
      runs := match e.launch with | some l => l.runs | none => 0 }))

end Sys2Proof.Machine
end

