-- ==== Sys2Proof/Tests/Slice0.lean ====
section
/-! SUPPORT. Tests: terms the checks refuse, words written out from the spec's encodings, single steps, and for every
statement a state and operands that meet its hypotheses. -/

namespace Sys2Proof.Tests

open Sys2Proof Sys2Proof.Machine

set_option Elab.async false

/-! ## States -/

/-- A module with context 0, one team of one warp on core 0, its path at a scalar word; pages 1 and 2 are mapped. -/
def sc : State := State.reset.placeWord 32 0

/-- The same before a lane word, with two lanes left, s4 = 7 and s5 = -3. -/
def ln : State :=
  let s := (State.reset.placeWord 96 0).modP (fun p => { p with mask := 3 })
  s.modW (fun w => { w with exited := ~~~(3 : Mask) })

def quietAt (s : State) (is : List Instr) : Bool := s.quiet && is.all (fun i => scalarReady i s)
def lanesAt (s : State) (is : List Instr) : Bool := s.quiet && is.all (fun i => laneReady i s)

/-- A lane word of a type with operands D, A, B, C and MOD. -/
def lw (ty d a b c md : Nat) : LaneWord :=
  { g := 0, gn := 0, la := 0, ty := BitVec.ofNat 5 ty, d := BitVec.ofNat 8 d, a := BitVec.ofNat 8 a, b := BitVec.ofNat 8 b
    c := BitVec.ofNat 8 c, rnd := 0, sat := 0, md := BitVec.ofNat 5 md, ext := 0 }

/-! ## Hypotheses of the forms on registers -/

theorem test_scalar_ready : quietAt sc [
    .sadd 1 2 3, .ssub 1 2 3, .smul 1 2 3, .smulh 1 2 3 0, .smulh 1 2 3 1, .sdiv 1 2 3 0, .sdiv 1 2 3 1, .srem 1 2 3 0,
    .srem 1 2 3 1, .sand 1 2 3, .sor 1 2 3, .sxor 1 2 3, .sshl 1 2 3, .sshr 1 2 3, .ssar 1 2 3, .smin 1 2 3 0,
    .smin 1 2 3 1, .smax 1 2 3 0, .smax 1 2 3 1, .spopc 1 2, .sclz 1 2, .smov 63 0, .ssel 1 2 3 7, .saddi 1 2 0x3FFF,
    .sandi 1 2 0, .sori 1 2 0, .sxori 1 2 0, .sshli 1 2 63, .sshri 1 2 63, .ssari 1 2 63, .slui 1 0xFFFFF,
    .scmp 0 1 2 7, .scmpi 7 1 0 0, .acmp 1 2 3 0, .acmp 1 2 3 1, .acmp 1 2 3 4, .acmp 1 2 3 5, .asub 1 2 3, .aset 15 1,
    .asetW 1 2 3, .aget 1 2, .agetHi 1 2, .aadd 1 2 3, .aaddi 1 2 0x1FFF, .br 1, .bq 1 0 1, .call 1, .calli 1, .ret,
    .loop 1 1] = true := by decide +kernel

theorem test_lane_ready : lanesAt ln [
    .vadd (lw 3 1 2 3 0 0), .vsub (lw 7 1 2 3 0 0), .vmul (lw 4 2 4 6 0 0), .vmulh (lw 3 1 2 3 0 0), .vmad (lw 3 1 2 3 4 0),
    .vmin (lw 3 1 2 3 0 0), .vmax (lw 3 1 2 0 0 1), .vabs (lw 3 1 2 0 0 0), .vneg (lw 3 1 2 0 0 0), .vdot4 (lw 1 1 2 3 4 0),
    .vshl (lw 9 1 2 3 0 0), .vshr (lw 9 1 2 3 0 0), .vsar (lw 9 1 2 3 0 0), .vand (lw 9 1 2 3 0 0), .vor (lw 10 2 4 6 0 0),
    .vxor (lw 9 1 2 3 0 0), .vnot (lw 9 1 2 0 0 0), .vlop3 (lw 9 1 2 3 4 0), .vpopc (lw 9 1 2 0 0 0), .vclz (lw 10 1 2 0 0 0),
    .vbrev (lw 9 1 2 0 0 0), .vbfx (lw 3 1 2 3 0 0), .vbfi (lw 9 1 2 3 4 0), .vmov (lw 11 4 8 0 0 0), .vmovi (lw 4 2 0 0 0 0),
    .vmovs (lw 9 1 63 0 0 0), .vmovs (lw 10 2 15 0 0 1), .vsel (lw 9 1 2 3 7 0), .vlane (lw 7 1 0 0 0 0),
    .vcmp (lw 3 1 2 3 0 10), .vcmp (lw 16 7 2 3 0 0), .pand (lw 0 1 2 3 0 6), .por (lw 0 1 2 3 0 0), .pxor (lw 0 1 2 3 0 0),
    .pnot (lw 0 1 2 0 0 0), .pmov (lw 0 1 2 0 0 0), .pmov (lw 0 1 2 0 0 1), .vvote (lw 0 1 2 0 0 0), .vvote (lw 0 1 2 0 0 2),
    .vvote (lw 0 62 2 0 0 4), .pget (lw 0 62 2 0 0 1), .vget (lw 9 1 2 0 0 0), .vget { lw 9 1 2 0 0 0 with ext := 128 },
    .vred (lw 3 1 2 0 0 0), .vred (lw 3 1 2 0 0 4), .vred (lw 16 1 2 0 0 0), .vredix (lw 3 62 2 0 0 1),
    .vredix (lw 16 62 2 0 0 0), .vshuf { lw 9 1 2 3 4 0 with ext := 0x7F }, .vscan (lw 3 1 2 0 0 2), .fadd (lw 16 1 2 3 0 16), .fsub (lw 17 2 4 6 0 0),
    .fmul (lw 13 1 2 3 0 0), .ffma (lw 15 1 2 3 4 0), .fmin (lw 12 1 2 3 0 0), .fmax (lw 14 1 2 3 0 0), .fabs (lw 16 1 2 0 0 0),
    .fneg (lw 16 1 2 0 0 0), .fcpys (lw 16 1 2 3 0 0), .fclass (lw 17 1 2 0 0 0), .fdiv (lw 16 1 2 3 0 0),
    .fsqrt (lw 16 1 2 0 0 0), .frcp (lw 16 1 2 0 0 0), .frsq (lw 16 1 2 0 0 0), .fexp2 (lw 16 1 2 0 0 0),
    .flog2 (lw 16 1 2 0 0 0), .fsin (lw 16 1 2 0 0 0), .fcos (lw 16 1 2 0 0 0), .cvt (lw 3 1 2 0 0 7), .cvt (lw 3 1 2 0 0 16),
    .cvt (lw 16 1 2 0 0 3), .cvt (lw 16 1 2 0 0 17),
    .cvt { lw 12 1 2 0 0 16 with sat := 1 }, .cvt (lw 17 2 4 0 0 17), .cvt { lw 13 1 2 3 0 16 with sat := 1 }, .cvt (lw 15 1 2 3 0 16), .vrkey (lw 3 1 2 0 0 0)] = true := by decide +kernel

/-! ## Hypotheses of floating point -/

/-- A lane state whose word is the first of two. -/
def ln2 : State := ln.modP (fun p => { p with queue := [{ off := 0, count := 2 }] })

theorem test_later_ready : ln2.quiet = true ∧ ln2.cp.stepping = 0 ∧ ln2.run.pos + 1 < ln2.run.count ∧ ln2.run.traps = 0
    ∧ ([Instr.fdiv { lw 16 1 2 3 0 0 with la := 15 }, .fsqrt { lw 16 1 2 0 0 0 with la := 1 }, .frcp { lw 17 2 4 0 0 0 with la := 1 },
      .frsq { lw 16 1 2 0 0 0 with la := 1 }, .fexp2 { lw 16 1 2 0 0 0 with la := 1 }, .flog2 { lw 16 1 2 0 0 0 with la := 1 },
      .fsin { lw 16 1 2 0 0 0 with la := 1 }, .fcos { lw 16 1 2 0 0 0 with la := 1 }]).all (fun i => laneReady i ln2) = true := by
  decide +kernel

theorem test_float_reads : (∃ m e, Float.read Float.f32 0x3F800000 = .num false m e ∧ m ≠ 0)
    ∧ (∃ e, Float.read Float.f32 0 = .num false 0 e) ∧ Float.read Float.f32 0x7F800000 = .inf false
    ∧ Float.read Float.f32 0x7F800001 = .nan true ∧ Float.read Float.h16 0x7E00 = .nan false
    ∧ (Float.round Float.w16 0 false true 3 (-1) false).2 &&& Float.OF = 0 :=
  ⟨⟨_, _, rfl, by decide⟩, ⟨_, rfl⟩, by decide, by decide, by decide, by decide⟩

/-- Sign, magnitude and exponent of a pattern of .f32. -/
def parts32 (a : Nat) : Option (Bool × Nat × Int) := match Float.read Float.f32 a with | .num s m e => some (s, m, e) | _ => none

/-- The integer part of a value, whether a fraction is left, and its leading exponent, as the bounds of R236 sort them. -/
def sorted32 (a : Nat) : Option (Bool × Int × Bool × Bool × Int) := (parts32 a).map (fun x =>
  let i := Float.toInt x.1 x.2.1 x.2.2 (min x.2.2 0)
  let sc : Nat := 2 ^ (-(min x.2.2 0)).toNat
  (x.1, i / sc, decide (i % sc ≠ 0), decide (x.2.1 = 2 ^ (Float.bitLen x.2.1 - 1)), x.2.2 + Float.bitLen x.2.1 - 1))

/-- Operands of each case of R236: 0.5, -160, 1, -130, 128, 3 and 1.5. -/
theorem test_approx_cases : [0x3F000000, 0xC3200000, 0x3F800000, 0xC3020000, 0x43000000, 0x40400000, 0x3FC00000].map sorted32
    = [some (false, 0, true, true, -1), some (true, -160, false, false, 7), some (false, 1, false, true, 0),
      some (true, -130, false, false, 7), some (false, 128, false, true, 7), some (false, 3, false, false, 1),
      some (false, 1, true, false, 0)] := by decide +kernel

theorem test_convert_types : isInt (lw 3 1 2 0 0 7).tyN = true ∧ isInt (lw 3 1 2 0 0 7).md.toNat = true
    ∧ isFloat (lw 16 1 2 0 0 17).tyN = true ∧ isFloat (lw 16 1 2 0 0 17).md.toNat = true ∧ isPacked (lw 13 1 2 3 0 16).tyN = true
    ∧ (∃ l ∈ ln.actLanes (lw 16 62 2 0 0 0), ¬isNaN Float.f32 (ln.cw.rd (lw 16 62 2 0 0 0) (lw 16 62 2 0 0 0).a l))
    ∧ (∃ s : State, ∀ l ∈ s.actLanes (lw 16 62 2 0 0 0), isNaN Float.f32 (s.cw.rd (lw 16 62 2 0 0 0) (lw 16 62 2 0 0 0).a l)) :=
  ⟨by decide, by decide, by decide, by decide, by decide, ⟨0, by decide +kernel, fun ⟨k, h⟩ => absurd h (by cases k <;> decide +kernel)⟩,
    ⟨State.reset, fun l h => absurd h (by rw [show State.reset.actLanes (lw 16 62 2 0 0 0) = [] by decide +kernel]; exact List.not_mem_nil)⟩⟩

/-! ## Hypotheses of the path forms -/

/-- The Bool that warpReady is. -/
def ready (i : Instr) (s : State) : Bool := s.quiet && scalarReady i s && !s.inPu

def aPath : Path := { pc := 0x10100, mask := 0xF }
def spilled : State := sc.modW (fun w => { w with stack := [{ yielded := false, path := aPath }] })
def queued (n : Nat) : State := sc.modP (fun p => { p with queue := List.replicate n { off := 0, count := 1 } })

theorem test_pauses : ready (.nap 1) sc = true ∧ ready .yield sc = true ∧ sc.cp.queue = []
    ∧ (sc.cw.stack.all (·.yielded) = true ∧ oldestReady (sc.core (coreOf sc.cur.1)) sc.cur.1 = none)
    ∧ ready .yield spilled = true ∧ 0 < spilled.cw.stackFree
    ∧ spilled.cw.stack.find? (fun e => !e.yielded) = some { yielded := false, path := aPath }
    ∧ ready .lsync sc = true ∧ ready .lsync (queued 1) = true ∧ (queued 1).cp.queue ≠ []
    ∧ ready (.lrun 0 0xFFFFF) (queued 7) = true ∧ (queued 7).cp.queue.length < 8
    ∧ ready (.lrun 1 0) (queued 8) = true ∧ 8 ≤ (queued 8).cp.queue.length := by decide +kernel

/-- Half the lanes hold p1; both slots are full in the second. -/
def half : State := sc.modW (fun w => { w with p := [(1, 0xFFFF)] })
def full : State := half.modW (fun w => { w with slot1 := some aPath })

theorem test_branches :
    ready (.brd 0 0 4 8) half = true ∧ half.cp.queue = [] ∧ half.untraced = true ∧ half.cw.jrecs.freeKey 0 12 = some 0
      ∧ half.cp.liveMask half.cw &&& ~~~half.cw.pred 0 = 0 ∧ 2 ≤ half.cw.stackFree
      ∧ half.cp.liveMask half.cw &&& half.cw.pred 0 = half.cp.liveMask half.cw ∧ half.cp.liveMask half.cw ≠ 0
      ∧ half.cp.liveMask half.cw &&& half.cw.pred 1 ≠ 0
      ∧ half.cp.liveMask half.cw &&& half.cw.pred 1 ≠ half.cp.liveMask half.cw ∧ half.cw.slot 1 = none
      ∧ ready (.brd 1 1 4 8) full = true ∧ 2 ≤ full.cw.stackFree ∧ (full.cw.slot 1).isSome = true
      ∧ full.cw.jrecs.freeKey 0 12 = some 0 ∧ full.untraced = true := by decide +kernel

/-- A path that stands at its record's join, alone or before another arrival. -/
def atJoin (m : Mask) : State :=
  (sc.modP (fun p => { p with jrec := some 11, mask := 0xF })).modW (fun w => { w with
    exited := ~~~m, jrecs := [(11, { addr := 0x10000, mask := m })] })

theorem test_joins : ready .join sc = true ∧ sc.cp.jrec = none
    ∧ ready .join (atJoin 0xF) = true ∧ (atJoin 0xF).cp.queue = [] ∧ (atJoin 0xF).cp.jrec = some 11
    ∧ (atJoin 0xF).cw.jrecs.find 11 = some { addr := 0x10000, mask := 0xF } ∧ (atJoin 0xF).cp.pc = 0x10000
    ∧ (atJoin 0xF).cur.2 < 2
    ∧ (0xF : Mask) &&& ~~~goneMask (atJoin 0xF).cw &&& ~~~(0 ||| (atJoin 0xF).cp.liveMask (atJoin 0xF).cw) = 0
    ∧ ready .join (atJoin 0xFF) = true
    ∧ (0xFF : Mask) &&& ~~~goneMask (atJoin 0xFF).cw &&& ~~~(0 ||| (atJoin 0xFF).cp.liveMask (atJoin 0xFF).cw) ≠ 0
    ∧ ready .join ((atJoin 0xF).modP (fun p => { p with pc := 0x10010 })) = true
    ∧ ready .exit sc = true ∧ (sc.core (coreOf sc.cur.1)).latch = []
    ∧ sc.cw.dead ||| sc.cw.exited ||| sc.cp.mask = BitVec.allOnes 128 := by decide +kernel

/-- Twelve join records; a 0 in a1 and -1 in s1; a warp without privilege in a handler with traps enabled. -/
def records12 : State := sc.modW (fun w => { w with
  jrecs := (List.range 12).map (fun k => (k, { addr := 0, mask := 0 })) })
def minus : State := sc.modW (fun w => { w with s := [(1, BitVec.allOnes 64)], a := [(2, BitVec.allOnes 72)] })
def trapping : State :=
  (ln.modP (fun p => { p with queue := [{ off := 0, count := 1, traps := 0x1F }] })).modW (fun w => { w with
    v := [(256, 0x7F800000), (257, 0x7F800000), (384, 0xFF800000), (385, 0xFF800000)] })

theorem test_path_faults :
    ready (.aadd 1 3 1) minus = true ∧ ((minus.aReg 3).toNat : Int) + (minus.sReg 1).toInt < 0
    ∧ ready (.aaddi 1 2 1) minus = true ∧ 2 ^ 72 ≤ ((minus.aReg 2).toNat : Int) + (1 : BitVec 14).toInt
    ∧ ready (.brd 0 1 4 8) records12 = true ∧ records12.cw.jrecs.freeKey 0 12 = none
    ∧ ready (.sst 1 2 0 0 1) minus = true ∧ 2 ^ 72 ≤ ((minus.aReg 2).toNat : Int) + (1 : BitVec 8).toInt * sizeBytes 0
    ∧ ready (.sst 1 2 3 0 0) minus = true ∧ ((minus.aReg 2).toNat : Int) % sizeBytes 3 ≠ 0
    ∧ ready (.sst 1 2 0 0 0) minus = true ∧ 15 * 2 ^ 68 ≤ ((minus.aReg 2).toNat : Int)
    ∧ ready (.sysr 1 0xFFF) sc = true ∧ sysRead sc 0xFFF = none ∧ ready (.sysw 1 0x038) sc = true ∧ ready (.sysw 1 0x120) sc = true ∧ ready (.sysr 1 0x11F) sc = true
    ∧ ready (.sysw 1 0x100) sc = true ∧ sc.cw.priv = false
    ∧ trapping.quiet = true ∧ laneReady (.fadd (lw 16 1 2 3 0 0)) trapping = true ∧ trapping.cp.handler = none
    ∧ trapping.actLanes (lw 16 1 2 3 0 0) = [0, 1]
    ∧ activeMask trapping.cw trapping.cp (lw 16 1 2 3 0 0) = trapping.cp.liveMask trapping.cw
    ∧ (trapping.actLanes (lw 16 1 2 3 0 0)).all (fun l => (floatOf (lw 16 1 2 3 0 0)
        (fun a b _ => Float.add Float.f32 0 false a b) trapping l).2 &&& trapping.run.traps != 0) = true := by decide +kernel

/-- ∞ − ∞, ∞ × 0, ∞ × 0 + 0, ∞ ÷ ∞ and the root of −∞ raise invalid in every live lane. -/
theorem test_trapped_forms : lanesAt trapping [.fsub (lw 16 1 2 2 0 0), .fmul (lw 16 1 2 5 0 0), .ffma (lw 16 1 2 5 5 0),
      .fdiv (lw 16 1 2 2 0 0), .fsqrt (lw 16 1 3 0 0 0)] = true
    ∧ ([((lw 16 1 2 2 0 0), fun a b (_ : Nat) => Float.sub Float.f32 0 false a b), (lw 16 1 2 5 0 0, fun a b _ => Float.mul Float.f32 0 false a b),
        (lw 16 1 2 5 5 0, fun a b c => Float.fma Float.f32 0 false a b c), (lw 16 1 2 2 0 0, fun a b _ => Float.div Float.f32 0 false a b),
        (lw 16 1 3 0 0 0, fun a _ _ => Float.sqrt Float.f32 0 false a)]).all (fun x => x.1.rnd.toNat == 0 && !LaneWord.ftz x.1 && fmtOf x.1 == Float.f32
      && trapping.actLanes x.1 == [0, 1] && activeMask trapping.cw trapping.cp x.1 == trapping.cp.liveMask trapping.cw
      && (trapping.actLanes x.1).all (fun l => (floatOf x.1 x.2 trapping l).2 &&& trapping.run.traps != 0)) = true := by decide +kernel

/-! ## Hypotheses of the memory forms -/

/-- Translations: page 1 is near, page 3 a drawer page. -/
def nearLeaf : DWord := BitVec.ofNat 64 (3 * 2 ^ 62 + 7 * 2 ^ 55 + 0x150000)
def drawerLeaf : DWord := BitVec.ofNat 64 (3 * 2 ^ 62 + 2 ^ 60 + 7 * 2 ^ 55 + 2 ^ 48)
def entries : List TlbEntry := [{ space := 1, vpn := 1, big := false, leaf := nearLeaf },
  { space := 1, vpn := 3, big := false, leaf := drawerLeaf }]
def mapped (s : State) : State := { s with cores := [(0, { tlb := entries })], hubTlb := entries }

/-- a1 points to the near page, a2 to the drawer page. -/
def mc : State := (mapped sc).modW (fun w => { w with a := [(1, 0x10008), (2, 0x30000)] })

def placed (x : Except XFault Hit) : Option Nat := match x with | .ok h => some h.pa | .error _ => none

theorem reaches_of {s : State} {ea : Int} {n : Nat} {w : Want} {rd wr : Bool} {pa : Nat} (h1 : earlyFault n ea = none)
    (h2 : placed (translate s s.agent (BitVec.ofInt 72 ea).toNat w).2 = some pa)
    (h3 : watchCode (translate s s.agent (BitVec.ofInt 72 ea).toNat w).1.cctx
      (translate s s.agent (BitVec.ofInt 72 ea).toNat w).1.cteam false rd wr (BitVec.ofInt 72 ea).toNat n = none) :
    Reaches s ea n w rd wr (translate s s.agent (BitVec.ofInt 72 ea).toNat w).1 pa := by
  refine ⟨h1, ?_, h3⟩
  revert h2
  generalize translate s s.agent (BitVec.ofInt 72 ea).toNat w = t
  obtain ⟨u, r⟩ := t
  cases r with
  | ok x => exact fun h => ⟨x, rfl, Option.some.inj h⟩
  | error e => exact fun h => nomatch h

/-- The state a scalar access at a register translates to. -/
def moved (r : BitVec 4) (w : Want) : State := (translate mc mc.agent (mc.aReg r).toNat w).1

theorem test_near_reached : (∀ wr : Bool, Reaches mc ((mc.aReg 1).toNat + (0 : BitVec 8).toInt * sizeBytes 3) (sizeBytes 3)
      (if wr then .write else .read) (!wr) wr (translate mc mc.agent (BitVec.ofInt 72 ((mc.aReg 1).toNat
        + (0 : BitVec 8).toInt * sizeBytes 3)).toNat (if wr then .write else .read)).1 0x150008)
    ∧ Reaches mc ((mc.aReg 2).toNat + (0 : BitVec 8).toInt * 16) 16 .write false true (translate mc mc.agent
        (BitVec.ofInt 72 ((mc.aReg 2).toNat + (0 : BitVec 8).toInt * 16)).toNat .write).1 (2 ^ 48)
    ∧ Reaches mc ((mc.aReg 2).toNat + (0 : BitVec 8).toInt * sizeBytes 3) (sizeBytes 3) .read true false (translate mc mc.agent
        (BitVec.ofInt 72 ((mc.aReg 2).toNat + (0 : BitVec 8).toInt * sizeBytes 3)).toNat .read).1 (2 ^ 48) :=
  ⟨fun wr => by cases wr <;> exact reaches_of (by decide +kernel) (by decide +kernel) (by decide +kernel),
    reaches_of (by decide +kernel) (by decide +kernel) (by decide +kernel),
    reaches_of (by decide +kernel) (by decide +kernel) (by decide +kernel)⟩

theorem test_scalar_memory : ready (.sld 1 1 3 0 0) mc = true ∧ ready (.sld 1 1 3 15 0) mc = true ∧ mc.cp.stepping = 0
    ∧ ready (.sld 1 2 3 0 0) mc = true ∧ ready (.slda 1 1 3 0 0) mc = true ∧ ready (.sst 1 1 3 0 0) mc = true
    ∧ ready (.ssta 1 2 0 0) mc = true ∧ ready (.samo 1 1 2 9 3 3) mc = true
    ∧ isDrawer 0x150008 = false ∧ isDrawer (2 ^ 48) = true ∧ ((moved 2 .write).link (linkOf (2 ^ 48))).takes = true
    ∧ ((moved 2 .read).link (linkOf (2 ^ 48))).takes = true ∧ ready (.slda 1 1 3 2 0) mc = true ∧ ready (.slda 1 2 3 0 0) mc = true
    ∧ ready (.sst 1 2 3 2 0) mc = true ∧ ready (.ssta 1 2 2 0) mc = true ∧ ready (.samo 1 2 2 9 3 3) mc = true
    ∧ placed (translate mc mc.agent (mc.aReg 2).toNat .atomic).2 = some (2 ^ 48)
    ∧ ((moved 2 .atomic).link (linkOf (2 ^ 48))).takes = true ∧ poisoned (moved 2 .atomic).mem.poison (2 ^ 48) 8 = false
    ∧ poisoned (moved 1 .read).mem.poison 0x150008 8 = false
    ∧ ((moved 1 .read).raceOk mc.cur.1 (moved 1 .read).scalarOff false 0x150008 8).1 = none
    ∧ ((moved 2 .write).raceOk mc.cur.1 (moved 2 .write).scalarOff false (2 ^ 48) 16).1 = none
    ∧ (moved 2 .read).l1Line (coreOf mc.cur.1) (2 ^ 48) = none
    ∧ placed (translate mc mc.agent (mc.aReg 1).toNat .atomic).2 = some 0x150008
    ∧ watchCode mc.cctx mc.cteam false true true 0x10008 8 = none ∧ earlyFault 8 0x10008 = none := by decide +kernel

/-- A state in which a2 is 2^72 − 1 and a1 a place of no page; every form of a scalar access fails a test of R22 there. -/
def astray : State := sc.modW (fun w => { w with a := [(1, 0x70000), (2, BitVec.allOnes 72)] })

theorem test_access_faults : ([(Instr.sld 1 2 3 0 0, 8, (0 : Int)), (.slda 1 2 3 15 0, 8, 0), (.sst 1 2 1 0 1, 2, 2), (.ssta 1 2 1 0, 16, 0), (.samo 1 2 2 9 3 3, 8, 0)]).all
      (fun x => ready x.1 astray && (earlyCause x.2.1 (((astray.aReg 2).toNat : Nat) + x.2.2)).isSome) = true
    ∧ ([Instr.sld 1 1 3 0 0, .slda 1 1 3 15 0, .sst 1 1 1 0 0, .ssta 1 1 1 0, .samo 1 1 2 9 3 3]).all (fun i => ready i astray) = true
    ∧ earlyCause 16 ((astray.aReg 1).toNat : Nat) = none
    ∧ ([Want.read, .write, .atomic]).all (fun w => match (translate astray astray.agent (astray.aReg 1).toNat w).2 with
        | .error x => x == (1, 2) | .ok _ => false) = true := by decide +kernel

/-- One lane, whose run holds a1 at the near page; its word names a1 with no offset. -/
def ml : State := (mapped ln).modP (fun p => { p with mask := 1, queue := [{ off := 0, count := 1, a := [(1, 0x10010)] }] })
/-- The same with two words in the run, and with a1 in the drawer; and with a1 in no page. -/
def ml2 : State := ml.modP (fun p => { p with queue := [{ off := 0, count := 2, a := [(1, 0x10010)] }] })
def md2 : State := ml.modP (fun p => { p with queue := [{ off := 0, count := 2, a := [(1, 0x30010)] }] })
def mlost : State := ml.modP (fun p => { p with queue := [{ off := 0, count := 1, a := [(1, 0x70000)] }] })
def mw (d a c md : Nat) : LaneWord := { lw 9 d a 255 c md with ext := 0x10000000 }

theorem lanesReach_of {s : State} {f : LaneWord} {n : Nat} {w : Want} {rd wr : Bool}
    (h1 : (s.xlateLanes s.agent n w (s.laneEas f)).2.2 = [])
    (h2 : ∀ x ∈ (s.xlateLanes s.agent n w (s.laneEas f)).2.1, watchCode (s.xlateLanes s.agent n w (s.laneEas f)).1.cctx
      (s.xlateLanes s.agent n w (s.laneEas f)).1.cteam false rd wr x.ea.toNat n = none ∧ isDrawer x.pa = false)
    (h3 : ((s.xlateLanes s.agent n w (s.laneEas f)).1.core (coreOf s.cur.1)).ops = []) :
    LanesReach s f n w rd wr (s.xlateLanes s.agent n w (s.laneEas f)).1 (s.xlateLanes s.agent n w (s.laneEas f)).2.1 :=
  ⟨by rw [← h1], fun x hx => (h2 x hx).1, fun x hx => (h2 x hx).2, fun _ _ o ho => nomatch h3 ▸ ho⟩

theorem test_lanes_reached : LanesReach ml (mw 1 0 0 0) 4 .read true false (ml.xlateLanes ml.agent 4 .read (ml.laneEas (mw 1 0 0 0))).1
      (ml.xlateLanes ml.agent 4 .read (ml.laneEas (mw 1 0 0 0))).2.1
    ∧ LanesReach ml (mw 0 0 3 0) 4 .write false true (ml.xlateLanes ml.agent 4 .write (ml.laneEas (mw 0 0 3 0))).1
      (ml.xlateLanes ml.agent 4 .write (ml.laneEas (mw 0 0 3 0))).2.1
    ∧ LanesReach ml (mw 1 2 3 31) 4 .atomic true true (ml.xlateLanes ml.agent 4 .atomic (ml.laneEas (mw 1 2 3 31))).1
      (ml.xlateLanes ml.agent 4 .atomic (ml.laneEas (mw 1 2 3 31))).2.1 :=
  ⟨lanesReach_of (by decide +kernel) (by decide +kernel) (by decide +kernel),
    lanesReach_of (by decide +kernel) (by decide +kernel) (by decide +kernel),
    lanesReach_of (by decide +kernel) (by decide +kernel) (by decide +kernel)⟩

/-- A link that has never held anything. -/
theorem link_new {s : State} (h : s.links = []) (n : Nat) : s.link n = {} := by simp [State.link, h, Tab.getD, Tab.find]

theorem drawerReach_of {s : State} {f : LaneWord} {n : Nat} {w : Want} {rd wr : Bool}
    (h1 : (s.xlateLanes s.agent n w (s.laneEas f)).2.2 = []) (h0 : (s.xlateLanes s.agent n w (s.laneEas f)).2.1 ≠ [])
    (h2 : ∀ x ∈ (s.xlateLanes s.agent n w (s.laneEas f)).2.1, watchCode (s.xlateLanes s.agent n w (s.laneEas f)).1.cctx
      (s.xlateLanes s.agent n w (s.laneEas f)).1.cteam false rd wr x.ea.toNat n = none ∧ isDrawer x.pa = true
      ∧ (s.xlateLanes s.agent n w (s.laneEas f)).1.l1Line (coreOf s.cur.1) x.pa = none)
    (h3 : ((s.xlateLanes s.agent n w (s.laneEas f)).1.core (coreOf s.cur.1)).ops = [])
    (h4 : (s.xlateLanes s.agent n w (s.laneEas f)).1.links = []) :
    DrawerReach s f n w rd wr (s.xlateLanes s.agent n w (s.laneEas f)).1 (s.xlateLanes s.agent n w (s.laneEas f)).2.1 :=
  ⟨by rw [← h1], h0, fun x hx => (h2 x hx).1, fun x hx => (h2 x hx).2.1, fun x hx => (h2 x hx).2.2, (fun _ _ o ho => nomatch h3 ▸ ho),
    fun n => by rw [link_new h4]; exact ⟨by decide, rfl, by decide⟩⟩

/-- Lane accesses with lookahead near and to the drawer. -/
theorem test_lane_waits : DrawerReach md2 (mw 1 0 0 0) 4 .read true false (md2.xlateLanes md2.agent 4 .read (md2.laneEas (mw 1 0 0 0))).1
      (md2.xlateLanes md2.agent 4 .read (md2.laneEas (mw 1 0 0 0))).2.1
    ∧ DrawerReach md2 (mw 0 0 3 0) 4 .write false true (md2.xlateLanes md2.agent 4 .write (md2.laneEas (mw 0 0 3 0))).1
      (md2.xlateLanes md2.agent 4 .write (md2.laneEas (mw 0 0 3 0))).2.1
    ∧ DrawerReach md2 (mw 1 2 3 31) 4 .atomic false true (md2.xlateLanes md2.agent 4 .atomic (md2.laneEas (mw 1 2 3 31))).1
      (md2.xlateLanes md2.agent 4 .atomic (md2.laneEas (mw 1 2 3 31))).2.1
    ∧ LanesReach ml2 (mw 1 0 0 0) 4 .read true false (ml2.xlateLanes ml2.agent 4 .read (ml2.laneEas (mw 1 0 0 0))).1
      (ml2.xlateLanes ml2.agent 4 .read (ml2.laneEas (mw 1 0 0 0))).2.1
    ∧ LanesReach ml2 (mw 0 0 3 0) 4 .write false true (ml2.xlateLanes ml2.agent 4 .write (ml2.laneEas (mw 0 0 3 0))).1
      (ml2.xlateLanes ml2.agent 4 .write (ml2.laneEas (mw 0 0 3 0))).2.1
    ∧ LanesReach ml2 (mw 1 2 3 31) 4 .atomic false true (ml2.xlateLanes ml2.agent 4 .atomic (ml2.laneEas (mw 1 2 3 31))).1
      (ml2.xlateLanes ml2.agent 4 .atomic (ml2.laneEas (mw 1 2 3 31))).2.1 :=
  ⟨drawerReach_of (by decide +kernel) (by decide +kernel) (by decide +kernel) (by decide +kernel) (by decide +kernel),
    drawerReach_of (by decide +kernel) (by decide +kernel) (by decide +kernel) (by decide +kernel) (by decide +kernel),
    drawerReach_of (by decide +kernel) (by decide +kernel) (by decide +kernel) (by decide +kernel) (by decide +kernel),
    lanesReach_of (by decide +kernel) (by decide +kernel) (by decide +kernel),
    lanesReach_of (by decide +kernel) (by decide +kernel) (by decide +kernel),
    lanesReach_of (by decide +kernel) (by decide +kernel) (by decide +kernel)⟩

theorem test_lane_wait_words : lanesAt md2 [.vld (mw 1 0 0 0), .vst (mw 0 0 3 0), .vst { mw 0 0 3 0 with la := 1 }, .vamo 3 (mw 1 2 3 31)] = true
    ∧ lanesAt ml2 [.vld { mw 1 0 0 0 with la := 1 }, .vst { mw 0 0 3 0 with la := 1 }, .vamo 3 { mw 1 2 3 31 with la := 1 }] = true
    ∧ ml2.cp.stepping = 0 ∧ md2.cp.stepping = 0 ∧ ml2.run.pos + 1 < ml2.run.count ∧ md2.run.pos + 1 < md2.run.count
    ∧ (md2.raceLanes md2.laneOff false 4 (md2.xlateLanes md2.agent 4 .read (md2.laneEas (mw 1 0 0 0))).2.1).2.2.1 = []
    ∧ (ml2.raceLanes ml2.laneOff false 4 (ml2.xlateLanes ml2.agent 4 .read (ml2.laneEas (mw 1 0 0 0))).2.1).2.2.1 = [] := by decide +kernel

theorem test_lane_faults : lanesAt mlost [.vld (mw 1 0 0 0), .vst (mw 0 0 3 0), .vamo 3 (mw 1 2 3 31)] = true
    ∧ ([((mw 1 0 0 0), Want.read), (mw 0 0 3 0, .write), (mw 1 2 3 31, .atomic)]).all (fun x => mlost.actLanes x.1 == [0]
      && activeMask mlost.cw mlost.cp x.1 == mlost.cp.liveMask mlost.cw
      && (mlost.xlateLanes mlost.agent (typeBytes x.1.tyN) x.2 (mlost.laneEas x.1)).2.1.isEmpty) = true := by decide +kernel

theorem test_lane_memory : lanesAt ml [.vld (mw 1 0 0 0), .vpf { mw 0 0 0 0 with ty := 0 }, .vst (mw 0 0 3 0), .vamo 3 (mw 1 2 3 31),
      .vfence (lw 0 0 0 0 0 27)] = true
    ∧ (ml.raceLanes ml.laneOff false 4 (ml.xlateLanes ml.agent 4 .read (ml.laneEas (mw 1 0 0 0))).2.1).2.2.1 = []
    ∧ (ml.xlateLanes ml.agent 4 .read (ml.laneEas (mw 1 0 0 0))).2.1 = [{ lane := 0, ea := 0x10010, pa := 0x150010 }]
    ∧ alone [{ lane := 0, ea := 0x10010, pa := 0x150010 }] 4 { lane := 0, ea := 0x10010, pa := 0x150010 }
    ∧ (ml.actLanes { lw 0 0 0 0 0 0 with g := 1 } = [] ∧ lanesAt ml [.vfence { lw 0 0 0 0 0 0 with g := 1 }] = true)
    ∧ ml.actLanes (lw 0 0 0 0 0 27) = [0]
    ∧ ready (.fence 0 3 3) sc = true ∧ ready (.fence 1 0 1) sc = true ∧ sc.cp.queue = [] ∧ ready (.fence 1 0 2) (queued 1) = true := by
  unfold alone; decide +kernel

/-! ## Hypotheses of the system forms -/

def privileged : State := sc.modW (fun w => { w with priv := true })

theorem test_system_registers : quietAt sc ((List.range 11).map (fun n => Instr.sysr 1 (BitVec.ofNat 12 n))) = true
    ∧ quietAt sc [.sysr 1 0x013, .sysr 1 0x021, .sysr 1 0x039, .sysr 1 0x047, .sysw 1 0x012, .sysw 1 0x013, .sysw 1 0x039] = true
    ∧ quietAt privileged [.sysr 1 0x030, .sysr 1 0x11F, .sysw 1 0x030, .sysw 1 0x100, .sysw 1 0x11F] = true
    ∧ ([0, 8, 0x13, 0x21, 0x31, 0x36, 0x39, 0x40, 0x47]).all (fun n => (sysRead sc n).isSome && !sysPriv n) = true
    ∧ (sysRead privileged 0x030).isSome = true ∧ (sysRead privileged 0x11F).isSome = true ∧ privileged.cw.priv = true
    ∧ sc.cw.runIds = [] ∧ sc.cp.awaits = none := by decide +kernel

/-- The context has a trap vector at word 16. -/
def vectored : State := sc.modCtx 0 (fun c => { c with trap := 0x8000000000000010 })

theorem test_trap_entry : ready (.trap 0xFF) vectored = true ∧ (vectored.cur.2 = 0 ∧ vectored.cw.stack = []
      ∧ oldestReady (vectored.core (coreOf vectored.cur.1)) vectored.cur.1 = none)
    ∧ vectored.cp.handler = none ∧ vectored.cp.frag = none ∧ vectored.untraced = true ∧ bitB vectored.cctx.trap 63 = true
    ∧ vectored.cp.liveMask vectored.cw ≠ 0 ∧ (vectored.core (coreOf vectored.cur.1)).frags.freeKey 0 256 = some 0
    ∧ (vectored.core (coreOf vectored.cur.1)).latch = [] := by decide +kernel

/-- A path in a handler that was entered with a class, with a disposition. -/
def handling (cls : BitVec 8) (d : BitVec 2) : State := sc.modP (fun p => { p with
  fdisp := d, handler := some { s := [(56, 1), (63, 2)], q := 6, pc := 0x10040, queue := [], windows := []
                                rcd := { cls := cls, flpc := BitVec.allOnes 20 } } })

theorem test_trap_return : ([handling 0x13 0, handling 2 0, handling 2 1]).all (fun s => ready .tret s && s.cp.queue.isEmpty
      && (match s.cp.handler with
          | some h => h.windows.isEmpty && h.queue.isEmpty && h.s.wf && h.s.all (fun e => decide (56 ≤ e.1 ∧ e.1 < 64)) && h.rcd.race.isNone
          | none => false) && s.cp.fdisp != 2) = true
    ∧ ready .tret (handling 2 2) = true ∧ (handling 2 2).cp.fdisp = 2 ∧ ready .tret sc = true ∧ sc.cp.handler = none := by
  decide +kernel

theorem test_illegal_word : decodeScalar 135299890 = .ok (.acmp 1 2 3 2) ∧ (Instr.acmp 1 2 3 2).illegal = some .field
    ∧ isPrologue (.acmp 1 2 3 2) = false ∧ decodeScalar 0x90500000 = .ok (.bara 5) ∧ (Instr.bara 5).illegal = none
    ∧ handlerBars (.bara 5) = true ∧ (handling 2 0).quiet = true ∧ (handling 2 0).transferStall = false
    ∧ (handling 2 0).cp.handler.isSome = true ∧ (handling 2 0).inPu = false ∧ (handling 2 0).path?.isSome = true :=
  ⟨rfl, by decide, by decide, rfl, by decide, by decide, by decide +kernel, by decide +kernel, by decide +kernel,
    by decide +kernel, by decide +kernel⟩

/-- A second warp of the team that has not arrived at barrier 7; one arrival of the issuing warp counted. -/
def pair : State := { sc with
  teams := [(0, { warps := [0, 1] })]
  warps := sc.warps.put 1 { tindex := 1, slot0 := some { pc := 0x10000, mask := 1 }, exited := ~~~(1 : Mask) } }
def arrived : State := sc.modTeam 0 (fun t => { t with barriers := [(7, { arrived := [(0, 1)] })] })

theorem test_barriers : ready (.bara 7) sc = true ∧ (sc.teams.find sc.cw.team).isSome = true ∧ sc.untraced = true
    ∧ (sc.bar 7).arrived.get sc.cur.1 &&& sc.cp.liveMask sc.cw = 0 ∧ sc.cp.liveMask sc.cw ≠ 0 ∧ sc.cp.begun = false
    ∧ ready (.bara 7) pair = true ∧ (pair.bar 7).arrived.get pair.cur.1 &&& pair.cp.liveMask pair.cw = 0
    ∧ ready (.barw 0) sc = true ∧ ready (.barw 7) arrived = true ∧ ready (.baraw 7) sc = true
    ∧ (arrived.bar 7).arrived.get arrived.cur.1 &&& arrived.cp.liveMask arrived.cw ≠ 0 ∧ arrived.cw.stack = []
    ∧ oldestReady (arrived.core (coreOf arrived.cur.1)) arrived.cur.1 = none := by decide +kernel

theorem test_phases : phaseFull sc 7 ∧ ¬phaseFull pair 7 := by
  refine ⟨?_, ?_⟩
  · intro wid hw w hf
    rw [show (sc.teams.getD sc.cw.team {}).warps = [0] by decide +kernel] at hw
    have h : wid = 0 := by simpa using hw
    subst h
    obtain rfl := Option.some.inj (hf.symm.trans (show sc.warps.find 0 = some sc.cw by decide +kernel))
    decide +kernel
  · intro h
    exact absurd (h 1 (by decide +kernel) { tindex := 1, slot0 := some { pc := 0x10000, mask := 1 }, exited := ~~~(1 : Mask) }
      (by decide +kernel)) (by decide +kernel)

def holding (x : DWord) (s : State) : State := s.modW (fun w => { w with s := [(1, x)] })

theorem test_gang_register : ready (.gangset 1) sc = true ∧ sc.sReg 1 = 0 ∧ ready (.gangset 1) (holding 0x200000010 pair) = true
    ∧ gangOk (holding 0x200000010 pair).cteam.warps.length ((holding 0x200000010 pair).sReg 1) = true
    ∧ (holding 1 sc).sReg 1 ≠ 0 ∧ gangOk (holding 1 sc).cteam.warps.length ((holding 1 sc).sReg 1) = false := by decide +kernel

/-- The Prologue Unit runs the prologue of queue 3 of context 0. -/
def inUnit : State := { sc with
  cur := (puWid, 0), pu := some { ctx := 0, q := 3 }, warps := [(puWid, { slot0 := some { pc := 0x10000, mask := 1 } })]
  ctxs := [(0, { placeCtx with queues := [(3, { entry := some { index := 0, words := [1], launch := some { card := [], ttype := [], prologue := 2 } } })] })] }
def breaking : State := sc.modCtx 0 (fun c => { c with dbgctl := 0xC000000000000000 })

theorem test_prologue : inUnit.quiet = true ∧ inUnit.inPu = true ∧ quietAt inUnit [.pset 1 0, .pcancel, .prepeat, .exit] = true
    ∧ inUnit.puLaunch = some { card := [], ttype := [], prologue := 2 }
    ∧ psetOk { card := [], ttype := [], prologue := 2 } 0 (inUnit.sReg 1) = true
    ∧ (inUnit.queue 0 3).entry.bind (·.launch) = some { card := [], ttype := [], prologue := 2 }
    ∧ sc.hub.fatal = false ∧ sc.inPu = false ∧ sc.path?.isSome = true ∧ sc.quiet = true ∧ sc.transferStall = false
    ∧ ready (.brkpt 7) sc = true ∧ bitB sc.cctx.dbgctl 63 = false
    ∧ ready (.brkpt 7) breaking = true ∧ breaking.untraced = true ∧ bitB breaking.cctx.dbgctl 63 = true
    ∧ bitB breaking.cctx.dbgctl 62 = true := by decide +kernel

/-! ## Hypotheses of the engine forms -/

/-- What an answer that is no error holds. -/
def okOf {ε α : Type} (x : Except ε α) : Option α := match x with | .ok a => some a | .error _ => none

theorem eq_ok {σ ε α : Type} {p : σ × Except ε α} {a : α} (h : okOf p.2 = some a) : p = (p.1, .ok a) := by
  obtain ⟨s, x⟩ := p
  cases x with
  | ok b => exact congrArg (fun y => (s, Except.ok y)) (Option.some.inj h)
  | error e => exact nomatch h

theorem eq_some {σ α : Type} {p : σ × Option α} {a : α} (h : p.2 = some a) : p = (p.1, some a) := by
  rw [← h]

/-- A raw record of one row of 4 bytes, and the same for a ring. -/
def rawRecord : List DWord := [BitVec.ofNat 64 (2 ^ 59), 0, 0x100000004] ++ List.replicate 21 0
def ringRecord : List DWord := [BitVec.ofNat 64 (2 ^ 59 + 2 ^ 41), 0, 0x100000004] ++ List.replicate 21 0

/-- The core holds both records; a ring of one stage for queue 1 stands at offset 256, and a dense CX head at 4096. -/
def headBytes : List Byte := bytesOf 8 (1 + 32 * 256)
def engineCanvas : Cells 8 := ((sc.mem.canvas.writeN (canvasKey sc.cteam 256) (((Ring.fresh (2 ^ 18 + 2 ^ 16 + 0x101)).words.map (bytesOf 8)).flatten))).writeN
  (canvasKey sc.cteam 4096) headBytes
def eng : State := { (sc.modW (fun w => { w with a := [(1, 0x30000), (2, 0x30100), (3, 0x40000)], s := [(1, 256), (2, 4096), (3, 255)] })) with
  cores := [(0, { records := [{ space := 1, addr := 0x30000, words := rawRecord }, { space := 1, addr := 0x30100, words := ringRecord }] })]
  mem := { sc.mem with canvas := engineCanvas }
  teams := sc.teams.put 0 { sc.cteam with rings := [256] } }


/-- Sixteen entries in queue 0; a second record of the context. -/
def fullQueue : State := eng.modCore 0 (fun c => { c with queues := [(0, { entries := List.replicate 16 {
  id := 9, form := .txpf, wid := 0, team := 0, ctx := 0 } })] })
def waiting9 : State := eng.modCore 0 (fun c => { c with queues := [(3, { entries := [{ id := 9, form := .txpf, wid := 0, team := 0, ctx := 0 }] })] })

theorem test_engine_forms : ready (.txld 0 1 1 3 0) eng = true ∧ ready (.txld 1 2 1 1 0) eng = true ∧ ready (.txst 2 1 1 3 0) eng = true
    ∧ ready (.txpf 3 1 1) eng = true ∧ (eng.engine 1).length < 16
    ∧ okOf (eng.fetchRecord (eng.aReg 1).toNat).2 = some (rawRecord, true)
    ∧ okOf (eng.fetchRecord (eng.aReg 2).toNat).2 = some (ringRecord, true)
    ∧ ([(true, rawRecord), (false, rawRecord), (true, ringRecord)]).all (fun x => Shape.whole x.2 && Shape.ok x.1 x.2) = true
    ∧ (eng.aReg 1).toNat % Shape.gAlign rawRecord = 0 ∧ Shape.ring rawRecord = false ∧ Shape.ring ringRecord = true
    ∧ spanCause eng.cteam true (Shape.span rawRecord) (eng.sReg 2).toInt = 0
    ∧ spanCause eng.cteam false (Shape.span rawRecord) (eng.sReg 2).toInt = 0
    ∧ ringEntryOk (eng.fetchRecord (eng.aReg 2).toNat).1 true 1 (eng.sReg 1).toInt ringRecord = true := by decide +kernel

theorem test_weight_load : ready (.wbload 0 3 2 0) eng = true ∧ spanCause eng.cteam false 64 (eng.sReg 2).toInt = 0
    ∧ Tensor.headOk true (eng.headWords eng.cw.team 4096) = true ∧ (eng.headWords eng.cw.team 4096).headD 0 % 16 = 1
    ∧ Tensor.isSparse 1 = false ∧ spanCause eng.cteam false (Tensor.tileSize true 1) (eng.sReg 2).toInt = 0
    ∧ (eng.sReg 3).toNat < 256 ∧ ready (.wbload 0 3 2 0) fullQueue = true ∧ ready (.txst 0 1 1 3 5) fullQueue = true ∧ fullQueue.cp.stepping = 0
    ∧ okOf (fullQueue.fetchRecord (fullQueue.aReg 1).toNat).2 = some (rawRecord, true) ∧ 16 ≤ (fullQueue.engine 0).length := by decide +kernel

theorem test_engine_fences : ready (.recfence 1) eng = true ∧ eng.cp.queue = [] ∧ ready .recfenceAll eng = true
    ∧ ready (.qfence 15) eng = true ∧ (List.range 4).all (fun i => decide ((eng.engine i).length < 16)) = true
    ∧ ready (.qwait 15 0) eng = true ∧ (List.range 4).all (fun i => (eng.engine i).all (·.wid != 0)) = true
    ∧ ready (.qwait 8 1) waiting9 = true ∧ waiting9.cp.stepping = 0 ∧ (waiting9.engine 3).map (·.wid) = [0] := by decide +kernel
theorem test_start_record : State.reset.plat.recordOk = true := by decide

/-! ## Hypotheses of the change tree, of raises and of reaps -/

/-- Nodes 1 and 3 under the root, system 5 of one plot that watches node 1, a granule of the context; s1 = 1, s3 = 3, s4 = 5,
s5 = 65535, s6 = 2^20; a1 and a2 in the mapped page. -/
def tree : State := { (mapped sc).modW (fun w => { w with
      s := [(1, 1), (3, 3), (4, 5), (5, 0xFFFF), (6, 0x100000)], a := [(1, 0x10000), (2, 0x10008)] }) with
  nodes := [(0, { first := 3 }), (1, { depth := 1 }), (3, { depth := 1, next := 1, count := 9 })]
  systems := [(5, { watch := [(0, (1, 0, 1))], plots := [(0, {})] })]
  hub := { hubTlb0 with ssown := [(5, 0x8000000000000000)] }
  mem := { sc.mem with owner := [(0x15, 1)], counts := [(0x150, 7)] } }
where hubTlb0 : Hub := sc.hub
def watched : State := tree.modNode 0 1 (fun x => { x with wref := 0x8000800080008000 &&& 0x0000FFFFFFFFFFFF })

theorem test_tree_forms : ready (.cread 7 1 0) tree = true ∧ namesNode tree 1 1 ∧ ready (.creadG 7 2 0) tree = true
    ∧ earlyFault 1 (((tree.aReg 2).toNat : Nat) : Int) = none
    ∧ placed (translate tree tree.agent (tree.aReg 2).toNat .noData).2 = some 0x150008
    ∧ ready (.cnode 7 3 0) tree = true ∧ namesNode tree 3 3 ∧ tree.nodeLive tree.cw.ctx 2 = false
    ∧ tree.nodeLive tree.cw.ctx 1 = true ∧ (tree.nodeN 3).depth ≠ 31 := by unfold namesNode; decide +kernel

theorem test_tree_links : ready (.cwatch 1 4 0) tree = true ∧ (tree.sReg 0).toNat < 64
    ∧ (tree.systems.find (tree.sReg 4).toNat).map (fun q => (q.ctx, q.watch.find (tree.sReg 0).toNat)) = some (tree.cw.ctx, some (1, 0, 1))
    ∧ tree.ownsSys tree.cw.ctx (tree.sReg 4).toNat = true
    ∧ bitsN (tree.nodeN 1).wref 15 0 < 2 ^ 15 ∧ ready (.cwatch 1 4 0) watched = true ∧ bitsN (watched.nodeN 1).wref 63 48 < 2 ^ 15
    ∧ (List.range 3).all (fun j => decide (2 ^ 15 ≤ bitsN (watched.nodeN 1).wref (16 * j + 15) (16 * j))) = true
    ∧ ready (.crepar 1 0) tree = true ∧ namesNode tree 0 0 ∧ (tree.nodeN 1).parent.toNat = 0 ∧ tree.subtree tree.cw.ctx 1 = [1]
    ∧ ready (.crepar 3 1) tree = true ∧ (tree.nodeN 3).parent.toNat ≠ 1 ∧ tree.subtree tree.cw.ctx 3 = [3]
    ∧ (tree.nodeN 1).depth.toNat + 1 ≤ 31 ∧ ready (.cfree 3) tree = true ∧ (tree.nodeN 3).first = 0 ∧ (tree.nodeN 3).enrol = 0
    ∧ (tree.nodeN 3).watches = [] ∧ (tree.nodeN 3).parent.toNat ≠ 3 := by unfold namesNode; decide +kernel

theorem test_enrolment : ready (.cenrol 1 1 1) tree = true ∧ tree.cp.queue = [] ∧ (tree.aReg 1).toNat % 4096 = 0
    ∧ 1 ≤ (tree.sReg 1).toNat ∧ (tree.sReg 1).toNat ≤ 1048576
    ∧ okOf (tree.granules (tree.aReg 1).toNat (tree.sReg 1).toNat).2 = some [0x150] ∧ tree.mem.ownerOf 0x150 = tree.cw.ctx + 1
    ∧ ready (.cunrol 1 1) tree = true ∧ ready (.csettle 7 1 0) tree = true ∧ tree.treeRuns tree.cw.ctx = true := by decide +kernel

/-- One lane, whose run holds the system's number in s4. -/
def raising : State := { ln with
  systems := tree.systems, hub := tree.hub }.modP (fun p => { p with queue := [{ off := 0, count := 1, s := [(4, 5)] }] })
/-- The team works for the plot. -/
def tasked : State := tree.modTeam 0 (fun t => { t with owner := .plot 5 0, stated := some 3 })

theorem test_raises : lanesAt raising [.vraise (lw 0 0 1 2 4 1)] = true
    ∧ raising.run.s.get ((lw 0 0 1 2 4 1).c.toNat % 64) = 5 ∧ (raising.sysOf raising.cw.ctx 5).map (·.plots.length) = some 1
    ∧ (raising.actLanes (lw 0 0 1 2 4 1)).all (fun l => raising.cw.vReg 2 l == 0 && raising.cw.vReg 1 l == 0) = true
    ∧ ready (.raise 4 0 5) tree = true ∧ ready (.raiseSum 4 0 5) tree = true
    ∧ (tree.sysOf tree.cw.ctx (tree.sReg 4).toNat).map (·.plots.length) = some 1 ∧ (tree.sReg 0).toNat = 0
    ∧ (tree.sReg 5).toNat < 2 ^ 16 ∧ ready (.plotend 5) tasked = true ∧ tasked.cteam.owner = .plot 5 0
    ∧ (tasked.teams.find tasked.cw.team).isSome = true ∧ tasked.cp.queue = [] ∧ tasked.raisesArrived = true
    ∧ (tasked.core (coreOf tasked.cur.1)).latch = [] ∧ ready (.plotend 5) tree = true ∧ tree.cteam.owner = .none := by
  decide +kernel

/-- VRAISE whose C names no system, whose lanes' B and whose A are out of range. -/
def raisingBad (v : Tab Word) : State := raising.modW (fun w => { w with v := v })

theorem test_raise_faults : ([(raising, lw 0 0 1 2 5 0), (raisingBad [(256, 1), (257, 1)], lw 0 0 1 2 4 0), (raisingBad [(128, 0x10000), (129, 0x10000)], lw 0 0 1 2 4 0)]).all
      (fun x => lanesAt x.1 [.vraise x.2] && x.1.actLanes x.2 == [0, 1] && activeMask x.1.cw x.1.cp x.2 == x.1.cp.liveMask x.1.cw
        && (x.1.actLanes x.2).all (fun l => raiseCause (x.1.sysOf x.1.cw.ctx (x.1.run.s.get (x.2.c.toNat % 64)).toNat)
          (x.1.cw.vReg x.2.b.toNat l).toNat (x.1.cw.vReg x.2.a.toNat l).toNat != 0)) = true := by decide +kernel

theorem test_tree_faults : ready (.cread 1 6 0) tree = true ∧ 2 ^ 20 ≤ (tree.sReg 6).toNat ∧ ready (.cread 1 4 0) tree = true
    ∧ tree.nodeLive tree.cw.ctx (tree.sReg 4).toNat = false ∧ ready (.cfree 0) tree = true ∧ tree.sReg 0 = 0
    ∧ ready (.crepar 0 1) tree = true ∧ ready (.cunrol 2 1) tree = true ∧ (tree.aReg 2).toNat % 4096 ≠ 0
    ∧ ready (.cunrol 1 0) tree = true ∧ ready (.cunrol 1 7) (tree.modW (fun w => { w with s := [(7, 0x100001)] })) = true
    ∧ ready (.raise 1 0 0) tree = true ∧ (tree.sysOf tree.cw.ctx (tree.sReg 1).toNat) = none ∧ ready (.raise 4 1 0) tree = true
    ∧ 1 ≤ (tree.sReg 1).toNat ∧ ready (.raise 4 0 6) tree = true ∧ 2 ^ 16 ≤ (tree.sReg 6).toNat := by decide +kernel

/-- The near page at a1 holds the descriptor of a reap of the system's one plot. -/
def describing : State := { tree with
  mem := { tree.mem with bytes := tree.mem.bytes.writeN 0x150000 (([5, 0x10000, 8, 0x10400].map (bytesOf 8)).flatten) } }
/-- A reap of the path with every plot copied. -/
def reapWindow : Window := { lane := false, left := 3, dests := [.s 7], pend := some (.reap 2 7) }
def reaping : State := { tree.modP (fun p => { p with windows := [reapWindow] }) with
  reaps := [(2, { wid := some 0, ctx := 0, sys := 5, first := 0, count := 1, dst := 0x10000, stride := 8, rpt := 0x10400, pos := 1 })] }

theorem test_reaps : ready (.reap 7 1 2) describing = true ∧ describing.cp.stepping = 0 ∧ (describing.aReg 1).toNat % 64 = 0
    ∧ okOf (describing.reapDescriptor (describing.aReg 1).toNat).2 = some [5, 0x10000, 8, 0x10400, 0, 0, 0, 0]
    ∧ (describing.reapDescriptor (describing.aReg 1).toNat).1.held = none ∧ reapReserved [5, 0x10000, 8, 0x10400, 0, 0, 0, 0] = true
    ∧ ((describing.reapDescriptor (describing.aReg 1).toNat).1.sysOf 0 5).map (fun y =>
        reapShape y (reapOf [5, 0x10000, 8, 0x10400, 0, 0, 0, 0])) = some true
    ∧ ((describing.reapDescriptor (describing.aReg 1).toNat).1.checkPages describing.agent .write (pagesOf 0x10000 0 ++ pagesOf 0x10400 576)).2 = none
    ∧ reaping.cp.windows = [reapWindow] ∧ reaping.held = none
    ∧ (reaping.reaps.find 2).map (fun r => decide (r.count ≤ r.pos) && (reaping.reapStores r 4 r.rpt (reportBytes reaping r)).2
        && (reaping.reapStores r 4 r.rpt (reportBytes reaping r)).1.held.isNone) = some true
    ∧ ready (.reap 7 2 15) tree = true ∧ (tree.aReg 2).toNat % 64 ≠ 0 := by decide +kernel

/-! ## Hypotheses of canvases, rings and the matrix engine -/

/-- A word with no base register and an offset of its own. -/
def ow (ty d a c md off : Nat) : LaneWord := { lw ty d a 255 c md with ext := BitVec.ofNat 32 off }

/-- Every active lane of a canvas word reaches the canvas. -/
def reachesCanvas (s : State) (f : LaneWord) (w : Nat) (rd wr : Bool) : Bool :=
  !s.matrixPending && (s.actLanes f).all (fun l => decide (0 ≤ laneEa s.cw s.run f l ∧ laneEa s.cw s.run f l + w ≤ s.cteam.canvasSize
    ∧ laneEa s.cw s.run f l % w = 0) && !touchesHeader s.cteam (laneEa s.cw s.run f l).toNat w
    && (watchCode s.cctx s.cteam true rd wr (laneEa s.cw s.run f l).toNat w).isNone)

theorem canvas_reach {s : State} {f : LaneWord} {w : Nat} {rd wr : Bool} (h : reachesCanvas s f w rd wr = true) :
    CanvasReach s f w rd wr := by
  unfold reachesCanvas at h
  simp only [Bool.and_eq_true, List.all_eq_true, decide_eq_true_eq, Bool.not_eq_true', Option.isNone_iff_eq_none] at h
  exact ⟨h.1, fun l hl => ⟨(h.2 l hl).1.1.1, (h.2 l hl).1.1.2.1⟩, fun l hl => (h.2 l hl).1.1.2.2, fun _ l hl => (h.2 l hl).1.2,
    fun l hl => (h.2 l hl).2⟩

/-- One lane at a canvas word. -/
def canv : State := ln.modP (fun p => { p with mask := 1 })

theorem test_canvas : lanesAt canv [.cld (ow 9 1 0 0 0 65532), .cst (ow 10 0 0 2 0 8), .camo (ow 3 1 2 3 31 4), .camo (ow 16 1 0 3 3 4),
      .cupd (ow 16 0 8 4 0x1C 0), .cupd (ow 3 0 0 4 0 4), .cred (ow 3 1 0 0 4 64)] = true
    ∧ reachesCanvas canv (ow 9 1 0 0 0 65532) 4 true false = true ∧ reachesCanvas canv (ow 10 0 0 2 0 8) 8 false true = true
    ∧ reachesCanvas canv (ow 3 1 2 3 31 4) 4 false true = true ∧ reachesCanvas canv (ow 16 0 8 4 0x1C 0) (4 * 2 ^ 2) false true = true
    ∧ reachesCanvas canv (ow 3 1 0 0 4 64) (4 * 2 ^ 4) true false = true
    ∧ (canv.raceLanes canv.laneOff true 4 (canvasAccs canv (ow 9 1 0 0 0 65532))).2.2.1 = []
    ∧ (canv.raceLanes canv.laneOff true 8 (canvasAccs canv (ow 10 0 0 2 0 8))).2.2.1 = []
    ∧ canv.actLanes (ow 10 0 0 2 0 8) = [0] := by decide +kernel

theorem test_element_types : isInt 3 = true ∧ isPacked 13 = true ∧ isPacked 15 = true ∧ [(0 : Nat), 1, 2, 3].length = 2 ^ 2 := by decide

/-- The team's ring at 256 with a header and SEG of stage 0; register v1 holds a value in lane 0. -/
def ringed (live : Bool) (r : Ring) (seg v : Nat) : State :=
  let s : State := { canv with mem := { canv.mem with
    canvas := (canv.mem.canvas.writeN (canvasKey canv.cteam 256) ((r.words.map (bytesOf 8)).flatten)).set (canvasKey canv.cteam 320) (BitVec.ofNat 8 seg) } }
  (s.modTeam 0 (fun t => { t with rings := if live then [256] else [] })).modW (fun w => { w with v := [(128, BitVec.ofNat 32 v)] })

/-- A ring of two stages of one segment, both free; one claimed; both claimed and held as given. -/
def ring2 : Ring := Ring.fresh 0x201
def claimed1 : Ring := { ring2 with free := 1, pidx := 1 }
def held2 (h : DWord) : Ring := { ring2 with free := 0, held := h }
def filled1 : Ring := { claimed1 with ready := 1 }

/-- A ring word reaches its ring. -/
def reachesRing (s : State) (f : LaneWord) : Bool :=
  activeMask s.cw s.cp f != 0 && !s.matrixPending && laneEa s.cw s.run f 0 == 256 && canvasCause s.cteam false 8 256 == 0
    && (s.teams.find s.cw.team).isSome && (watchCode s.cctx s.cteam true false true 256 256).isNone

theorem ring_reach {s : State} {f : LaneWord} (h : reachesRing s f = true) : RingReach s f 256 := by
  unfold reachesRing at h
  simp only [Bool.and_eq_true, bne_iff_ne, Bool.not_eq_true', beq_iff_eq, Option.isNone_iff_eq_none] at h
  exact ⟨h.1.1.1.1.1, h.1.1.1.1.2, h.1.1.1.2, h.1.1.2, h.2, h.1.2⟩

def aWord : LaneWord := ow 0 0 1 0 0 256
def dWord : LaneWord := ow 0 1 0 0 0 256

theorem test_ring_setup : lanesAt (ringed true ring2 0 0x201) [.rinit aWord] = true ∧ reachesRing (ringed true ring2 0 0x201) aWord = true
    ∧ ringValue (ringed true ring2 0 0x201) aWord = 0x201
    ∧ ringConfigOk (ringed true ring2 0 0x201) (ringed true ring2 0 0x201).cteam 256 0x201 = true
    ∧ (ringed true ring2 0 0x201).ringBusy 0 256 = false ∧ (ringed true ring2 0 0x201).cteam.rings = [256]
    ∧ ringConfigOk (ringed false ring2 0 0x201) (ringed false ring2 0 0x201).cteam 256 0x201 = true
    ∧ ringValue (ringed true ring2 0 0) aWord = 0 ∧ (ringed true ring2 0 0).ringBusy 0 256 = false
    ∧ (ringed false ring2 0 0).cteam.rings = [] ∧ lanesAt (ringed false ring2 0 0) [.rinit aWord] = true := by decide +kernel

theorem test_ring_stages : lanesAt (ringed true claimed1 0 512) [.rpost aWord] = true ∧ reachesRing (ringed true claimed1 0 512) aWord = true
    ∧ ((ringed true claimed1 0 512).ringHere 256 = claimed1) ∧ claimed1.mode = 0 ∧ 0 < claimed1.nst ∧ claimed1.nst ≤ 64 ∧ 1 ≤ claimed1.ssz
    ∧ ringValue (ringed true claimed1 0 512) aWord = claimed1.stageOff 256 0
    ∧ (ringed true claimed1 0 512).stage (ringed true claimed1 0 512).cteam 256 claimed1 0 = .claimed
    ∧ lanesAt (ringed true (held2 2) 0 768) [.rfree aWord] = true ∧ (ringed true (held2 2) 0 768).ringHere 256 = held2 2
    ∧ ringValue (ringed true (held2 2) 0 768) aWord = (held2 2).stageOff 256 1 ∧ 1 < (held2 2).nst ∧ (held2 2).ridx < (held2 2).nst
    ∧ (ringed true (held2 2) 0 768).stage (ringed true (held2 2) 0 768).cteam 256 (held2 2) 1 = .granted
    ∧ bitB (held2 2).done (held2 2).ridx = false
    ∧ (ringed true (held2 1) 0 512).stage (ringed true (held2 1) 0 512).cteam 256 (held2 1) 0 = .granted
    ∧ ringValue (ringed true (held2 1) 0 512) aWord = (held2 1).stageOff 256 0 ∧ bitB (held2 1).done ((held2 1).next (held2 1).ridx) = false := by
  decide +kernel

theorem test_ring_waits : lanesAt (ringed true filled1 1 0) [.rwaitFill dWord, .rwaitFree { dWord with md := 1 }] = true
    ∧ reachesRing (ringed true filled1 1 0) dWord = true ∧ (ringed true filled1 1 0).ringHere 256 = filled1
    ∧ (ringed true filled1 1 0).ringQueue 0 256 false = [] ∧ (ringed true filled1 1 0).ringQueue 0 256 true = []
    ∧ (ringed true filled1 1 0).stage (ringed true filled1 1 0).cteam 256 filled1 filled1.cidx = .filled
    ∧ (ringed true claimed1 0 0).stage (ringed true claimed1 0 0).cteam 256 claimed1 claimed1.cidx = .claimed
    ∧ (ringed true filled1 1 0).ringRuns ((ringed true filled1 1 0).ringWait dWord 256 false) = true
    ∧ (ringed true filled1 1 0).ringRuns ((ringed true filled1 1 0).ringWait { dWord with md := 1 } 256 true) = true
    ∧ filled1.mode ≠ 1 ∧ filled1.free ≠ 0 ∧ (held2 1).free = 0 ∧ (ringed true (held2 1) 0 0).ringHere 256 = held2 1 := by decide +kernel

/-- Two warps of a gang, the second of which has arrived at the latch with its word; a dense DX8 tile's head at offset 0. -/
def gang (opc : Nat) (f : LaneWord) : State :=
  let g0 : DWord := 0x4200000010
  let s : State := { mapped (ln.modW (fun w => { w with g0 := g0 })) with
    names := 4
    mem := { ln.mem with canvas := ln.mem.canvas.writeN (canvasKey ln.cteam 0) (bytesOf 8 (1 + 64 * 256)) }
    teams := [(0, { warps := [0, 1], matrix := true, gang := true })] }
  let s := (s.modP (fun p => { p with queue := [{ off := 0, count := 1, a := [(1, 0x10010)] }] })).putWarp 1 {
    tindex := 1, g0 := g0, slot0 := some { pc := 0x10000, mask := 1, mx := some 3, queue := [{ off := 0, count := 1 }] } }
  s.modCore 0 (fun c => { c with
    grant := some 0, wslots := [(0, { state := 1, fmt := 1 })]
    latch := [{ id := 3, wid := 1, opc := opc, word := f, g0 := g0, coff := 0, amaxVa := 0x10014, amax := 0x150014 }] })

/-- The maximums of drains translated at their release, one after another. -/
def amaxAll : State → List Arrival → Option (State × List Arrival)
  | s, [] => some (s, [])
  | s, a :: r =>
    let x := if a.merges = true then s.amaxAgain a else (s, .ok a)
    match x.2 with
    | .ok b => (amaxAll x.1 r).map (fun y => (y.1, b :: y.2))
    | .error _ => none

theorem amax_reach {l k : List Arrival} {s u : State} (h : amaxAll s l = some (u, k)) : AmaxReach s l u k := by
  induction l generalizing s k with
  | nil => cases h; exact ⟨rfl, rfl⟩
  | cons a r ih =>
    by_cases ha : a.merges = true
    · simp only [amaxAll, ha, if_true] at h
      generalize hx : s.amaxAgain a = x at h
      obtain ⟨t, x⟩ := x
      cases x with
      | error e => exact nomatch h
      | ok b =>
        obtain ⟨y, hy, e⟩ := Option.map_eq_some_iff.mp h
        cases e; exact ⟨t, b, y.2, by rw [if_pos ha]; exact hx, ih hy, rfl⟩
    · simp only [amaxAll, ha] at h
      obtain ⟨y, hy, e⟩ := Option.map_eq_some_iff.mp h
      cases e; exact ⟨s, a, y.2, by rw [if_neg ha]; exact ⟨rfl, rfl⟩, ih hy, rfl⟩

/-- The hypotheses of a release of both warps. -/
def releases (i : Instr) (opc : Nat) (f : LaneWord) (s : State) : Bool :=
  let core := coreOf s.cur.1
  let r := s.mxOperands opc f
  let g := s.cw.g0
  match okOf r.2 with
  | none => false
  | some x =>
    let s' := matrixArrived r.1 opc f x
    let as := (s'.core core).latch
    lanesAt s [i] && s.cp.mx.isNone && (s.core core).grant == some s.cw.team && g != 0 && (gangList g).contains s.cw.tindex
      && s.teamWarp s.cw.team s.cw.tindex == some s.cur.1
      && (s.core core).latch.all (fun a => a.wid != s.cur.1 && decide (a.id < s.names))
      && s.cw.paths.all (·.mx.isNone)
      && as.all (fun a => a.opc == opc && a.g0 == g && s'.teamOf a.wid == s.cw.team && decide (mxReg a.opc a.word + gangN g - 1 ≤ gangMcnt g))
      && !gangExited s' s.cw.team g && !s'.gangParked core s.cw.team g
      && (match s'.listed as g s.cw.team with
          | some l => l.length == 2 && l.all (fun a => mxFields a.word == mxFields f) && l.all (s'.formatOk core) && (amaxAll s' l).isSome
          | none => false)

def accWord : LaneWord := { lw 18 0 0 255 0 0 with la := 3 }
def zeroWord : LaneWord := lw 0 0 0 0 0 0
def loadWord : LaneWord := lw 18 0 0 255 0 0
def drainWord : LaneWord := lw 16 0 0 255 1 2

theorem test_matrix : releases (.mxacc accWord) 0x380 accWord (gang 0x380 accWord) = true
    ∧ releases (.mxzero zeroWord) 0x381 zeroWord (gang 0x381 zeroWord) = true
    ∧ releases (.mxloadc loadWord) 0x382 loadWord (gang 0x382 loadWord) = true
    ∧ releases (.mxdrain drainWord) 0x383 drainWord (gang 0x383 drainWord) = true := by decide +kernel

/-- v4 to v7 hold the mask of lane 0 in lane 0. -/
def masked : State := (ln.modP (fun p => { p with mask := 1 })).modW (fun w => { w with v := [(512, 1)] })

theorem test_vsync : lanesAt ln [.vsync { lw 0 0 4 0 0 0 with g := 1 }] = true ∧ ln.cp.vsync = none
    ∧ ln.actLanes { lw 0 0 4 0 0 0 with g := 1 } = [] ∧ lanesAt masked [.vsync (lw 0 0 4 0 0 0)] = true
    ∧ masked.cw.paths.all (·.vsync.isNone) = true ∧ masked.actLanes (lw 0 0 4 0 0 0) = [0]
    ∧ BitVec.ofNat 128 (masked.cw.vWide 4 0 4) &&& ~~~goneMask masked.cw = activeMask masked.cw masked.cp (lw 0 0 4 0 0 0) := by
  decide +kernel

/-! ## Hypotheses of events: the change tree, systems, the dealer -/

/-- Granule 0x150 and nodes 0, 3 hold marks; a watch event and a raise are on their way; plot 0's task has ended. -/
def marked : State := { tree with
  mem := { tree.mem with pend := [(0x150, 1)], enrol := [(0x150, 1)] }
  nodes := [(0, { first := 3, pend := true }), (1, { depth := 1 }), (3, { depth := 1, next := 1, pend := true })]
  watchEvents := [(5, 0)]
  raises := [{ id := 1, sender := 0, sys := 5, plot := 0, key := 9, sum := true }]
  systems := [(5, { told := 0xFF, due := true, watch := [(0, (1, 0, 1))], plots := [(0, { ended := some none })] })] }

/-- A re-home of plot 0 of system 5 to die 2 has been asked for, and has begun. -/
def rehoming (st : PlotState) (m : Option Nat) : State := { tree with
  hub := { tree.hub with sets := [(4, { rhwork := 0x0214000000000000, rhat := 6, rhbusy := true })] }
  systems := [(5, { plots := [(0, { st := st, mover := m })] })] }

/-- Queue 3 of the context offers one launch of teams of one warp of 8 registers; die 0 is up. -/
def oneWarp : List DWord := [0x80000]
def offering : State := ({ sc with plat := { sc.plat with dieup := 1 } }).modCtx 0 (fun c => { c with
  cfg := 0xC00800FF00000000
  queues := [(3, { qcfg := 0x8000000100010000, entry := some { index := 0, words := [0x101000000], launch := some {
    card := [], ttype := oneWarp, count := 5, prologue := 3 } } })] })
/-- The team's one warp has ended. -/
def over0 : State := sc.modW (fun w => { w with ended := true, slot0 := none })

/-- Links that have never held anything take requests of the hub. -/
theorem links_take {s : State} (h : s.links = []) (h1 : s.held = none) (h2 : s.credit = []) : s.linksTake :=
  ⟨h1, h2, fun n => by rw [link_new h]; exact ⟨by decide, rfl, by decide⟩⟩

/-- A quiet round of system 5, which watches nothing, has its answers; the dies of the mask have armed marks. -/
def rounding (m : BitVec 8) : State := { tree with
  systems := [(5, { round := some { counts := List.replicate 64 0, armed := m, key := 0 } })] }

theorem test_round : (rounding 0xFF).linksTake ∧ (rounding 0xFF).settleWatches 5 = (rounding 0xFF, List.replicate 64 0)
    ∧ ((rounding 0xFF).systems.find 5).map (fun y => y.round.map (fun r => (r.counts, r.armed))) = some (some (List.replicate 64 0, BitVec.allOnes 8))
    ∧ ((rounding 0x7F).systems.find 5).map (fun y => y.round.map (·.armed != BitVec.allOnes 8)) = some (some true)
    ∧ (rounding 0x7F).hub.fatal = false := ⟨links_take rfl rfl rfl, by decide +kernel, by decide +kernel, by decide +kernel, rfl⟩

theorem test_links_take : marked.linksTake ∧ (rehoming .moving (some 4)).linksTake := ⟨links_take rfl rfl rfl, links_take rfl rfl rfl⟩

theorem test_tree_events : marked.mem.pend.get 0x150 = 1 ∧ marked.mem.ownerOf 0x150 = 0 + 1 ∧ marked.treeRuns 0 = true
    ∧ (marked.ctx 0).st = .running ∧ (marked.node 0 3).pend = true ∧ (marked.node 0 3).parent.toNat ≠ 3
    ∧ (marked.node 0 0).pend = true ∧ marked.hub.fatal = false ∧ (5, 0) ∈ marked.watchEvents ∧ marked.watchFirst (5, 0) = true
    ∧ (marked.systems.find 5).map (fun y => (y.watch.find 0, y.plots.find 0 != none)) = some (some (1, 0, 1), true)
    ∧ marked.raises[0]?.map (·.sys) = some 5 ∧ marked.raiseFirst 0 = true ∧ marked.reapsAt 5 0 = [] ∧ marked.movesAt 5 0 = []
    ∧ (marked.systems.find 5).map (fun y => (y.roundDue, y.plots.find 0 |>.map (·.ended))) = some (true, some (some none)) := by
  decide +kernel

/-- The same with the control block in the near page. -/
def arriving : State := marked.modSys 5 (fun y => { y with sscb := 0x10400 })

theorem test_system_arrivals : (arriving.watchArrives 5 0).held = none ∧ ((arriving.watchArrives 5 0).ctx 0).st ≠ .tornDown
    ∧ (5, 0) ∈ arriving.watchEvents ∧ arriving.watchFirst (5, 0) = true ∧ arriving.raises[0]?.map (·.sys) = some 5
    ∧ arriving.raiseFirst 0 = true ∧ arriving.reapsAt 5 0 = [] ∧ arriving.movesAt 5 0 = [] ∧ arriving.hub.fatal = false
    ∧ (arriving.raiseArrives 0).held = none ∧ ((arriving.raiseArrives 0).ctx 0).st ≠ .tornDown
    ∧ (arriving.completePlot 5 0).held = none ∧ ((arriving.completePlot 5 0).ctx 0).st ≠ .tornDown
    ∧ ((arriving.systems.find 5).map (fun y => (y.watch.find 0, y.plots.find 0 |>.map (·.ended)))) = some (some (1, 0, 1), some (some none))
    ∧ ((arriving.systems.find 5).map (fun y => (y.ctx, y.plots.find 0 != none))) = some (0, true) := by decide +kernel

theorem test_rehome_events : ((rehoming .pending none).regSet 4).rhbusy = true
    ∧ (rhSys ((rehoming .pending none).regSet 4).rhwork, rhPlot ((rehoming .pending none).regSet 4).rhwork) = (5, 0)
    ∧ first ((rehoming .pending none).movesAt 5 0) 6 = true ∧ first ((rehoming .pending none).reapsAt 5 0) 6 = true
    ∧ (rehoming .moving (some 4)).movesAt 5 0 = [(4, 6)] ∧ (rehoming .moving (some 4)).reapsAt 5 0 = []
    ∧ ((rehoming .pending none).plot? 5 0).map (·.st) = some .pending ∧ ((rehoming .idle none).plot? 5 0).map (·.st) = some .idle
    ∧ ((rehoming .moving (some 4)).plot? 5 0).map (fun p => (p.st, p.mover)) = some (.moving, some 4) := by decide +kernel

theorem test_deal_event : 0 ∈ (offering.findHomes 0).dealOrder 0 ∧ ((offering.findHomes 0).dealOrder 0).takeWhile (· != 0) = []
    ∧ ((offering.findHomes 0).offers 0 0).map (fun x => (x.1, x.2.1, x.2.2.held)) = [(3, 0, none)] ∧ 0 < ((offering.findHomes 0).queue 0 3).tickets
    ∧ over0.teamOver 0 = true ∧ (over0.teams.find 0).isSome = true := by decide +kernel

/-! ## Hypotheses of events of paths, of the matrix engine and of the copy engines -/

/-- A READY fragment and one that waits for data; page 5 has a migrate leaf. -/
def frag (st : Nat) (cls : BitVec 8) : Frag := { warp := 0, serial := 7, state := st, path := aPath, rcd := { cls := cls } }
def parked : State := { (sc.modCore 0 (fun c => { c with frags := [(2, frag 1 1), (3, frag 0 7)] })) with
  moves := [(0, 5, 0, 0)]
  mem := { sc.mem with bytes := (sc.mem.bytes.writeN 0x140028 (bytesOf 8 (2 ^ 63 + 2 ^ 62 + 2 ^ 61 + 7 * 2 ^ 55 + 2 ^ 48))) } }
/-- A warp with an event pending, with and without a vector. -/
def notified : State := vectored.modW (fun w => { w with evFull := true })
/-- Both slots of the warp hold paths, and a READY fragment waits. -/
def crowded : State := (sc.modW (fun w => { w with slot1 := some aPath })).modCore 0 (fun c => { c with frags := [(2, frag 1 1)] })
def napping : State := sc.modP (fun p => { p with nap := 1 })

/-- A warp with both slots free, whose fragment waits for data. -/
def emptied : State := (sc.modW (fun w => { w with slot0 := none })).modCore 0 (fun c => { c with frags := [(3, frag 0 7)] })

theorem test_data_arrivals : (emptied.core 0).frags.find 3 = some (frag 0 7) ∧ emptied.stallOver (frag 0 7) = true
    ∧ (emptied.warps.find 0).map (fun w => (w.slot0, w.slot1)) = some (none, none) ∧ (parked.warps.find 0).map (·.slot0.isSome) = some true
    ∧ parked.pageAwaited (parked.oldPlace 0 5 0) = false
    ∧ parked.amaxOn (fun sp va => sp == xdSpace (parked.ctx 0).xdesc && va / 65536 == 5) = false := by decide +kernel

theorem test_path_events : (parked.core 0).frags.find 2 = some (frag 1 1) ∧ (parked.warps.find 0).isSome = true ∧ parked.cw.stack = []
    ∧ freeSlot parked.cw = some 1 ∧ oldestReady (parked.core 0) 0 = some (2, frag 1 1)
    ∧ (parked.core 0).frags.find 3 = some (frag 0 7) ∧ parked.stallOver (frag 0 7) = true
    ∧ parked.placeable 0x15 = true ∧ parked.moves = [(0, 5, 0, 0)] ∧ parked.cores.all (fun c => c.2.ops.isEmpty) = true ∧ parked.pu = none
    ∧ parked.pageWaiters 0 5 = [] ∧ parked.parkedOn 0 5 = []
    ∧ (match peekLeaf parked 0 0x50000 with
       | .leaf _ e k => ptePl e == 2 && isDrawer (pteBase e) && pteBase e % 65536 == 0 && k == 0x140028 && decide (k + 8 ≤ 0x15 * 65536)
       | _ => false) = true
    ∧ (notified.warps.find 0).map (·.evFull) = some true ∧ bitB (notified.ctx 0).trap 63 = true ∧ notified.anyHandler 0 notified.cw = false
    ∧ notified.cp.begun = false ∧ notified.mayIssue false 0 0 = true ∧ crowded.cw.slot0.isSome = true ∧ crowded.cw.slot1.isSome = true
    ∧ crowded.cw.stack.length + crowded.cw.jrecs.length < 12 ∧ oldestReady (crowded.core 0) 0 = some (2, frag 1 1)
    ∧ (sc.modW (fun w => { w with evNotice := true })).cw.evNotice = true ∧ bitB (sc.ctx 0).trap 63 = false
    ∧ napping.pathAt 0 0 = some napping.cp ∧ napping.napOver 0 napping.cp = true := by decide +kernel

/-- Two parts of an operation of a gang on tiles of their own, the oldest of the core. -/
def parts (opc : Nat) (f : LaneWord) : List Arrival :=
  [{ id := 3, wid := 0, opc := opc, word := f, g0 := 0x4200000010, coff := 0, amaxVa := 0x10000, amax := 0x150000 },
    { id := 4, wid := 1, opc := opc, word := f, g0 := 0x4200000010, coff := 8192, amaxVa := 0x10004, amax := 0x150004 }]
def oldestOp (opc : Nat) (f : LaneWord) : State := (gang opc f).modCore 0 (fun c => { c with ops := [{ id := 2, parts := parts opc f }] })

theorem gang_op {opc : Nat} {ps : List Arrival} {s : State} (h1 : (s.core 0).ops = [{ id := 2, parts := ps }])
    (h2 : ps.all (fun a => a.opc == opc && ((s.core 0).wslots.getD a.word.a.toNat {}).state != 2) = true)
    (h3 : (ps.zipIdx.map (fun x => x.1.tile x.2)).Nodup)
    (h4 : ps.all (fun a => match s.warps.find a.wid with
      | some w => w.stack.isEmpty && ([w.slot0, w.slot1]).all (fun p => match p with | some p => p.windows.isEmpty | none => true)
      | none => true) = true) : GangOp s 0 opc ps [] := by
  simp only [List.all_eq_true, Bool.and_eq_true, beq_iff_eq, bne_iff_ne] at h2
  refine ⟨⟨2, h1⟩, fun a ha => (h2 a ha).1, fun _ a ha => (h2 a ha).2, h3, fun a ha w hw k p hp d hd => ?_⟩
  have h := List.all_eq_true.mp h4 a ha
  simp only [hw, List.all_cons, List.all_nil, Bool.and_true, Bool.and_eq_true, List.isEmpty_iff] at h
  have : p.windows = [] := by
    match k, hp with
    | 0, hp => have h0 := h.2.1; rw [show w.slot0 = some p from hp] at h0; exact List.isEmpty_iff.mp h0
    | 1, hp => have h1 := h.2.2; rw [show w.slot1 = some p from hp] at h1; exact List.isEmpty_iff.mp h1
    | k + 2, hp => simp [Warp.slot, h.1] at hp
  rw [this] at hd; exact nomatch hd

theorem test_matrix_operations : GangOp (oldestOp 0x381 zeroWord) 0 0x381 (parts 0x381 zeroWord) []
    ∧ GangOp (oldestOp 0x380 accWord) 0 0x380 (parts 0x380 accWord) [] ∧ GangOp (oldestOp 0x382 loadWord) 0 0x382 (parts 0x382 loadWord) []
    ∧ GangOp (oldestOp 0x383 drainWord) 0 0x383 (parts 0x383 drainWord) [] :=
  ⟨gang_op (by decide +kernel) (by decide +kernel) (by decide +kernel) (by decide +kernel),
    gang_op (by decide +kernel) (by decide +kernel) (by decide +kernel) (by decide +kernel),
    gang_op (by decide +kernel) (by decide +kernel) (by decide +kernel) (by decide +kernel),
    gang_op (by decide +kernel) (by decide +kernel) (by decide +kernel) (by decide +kernel)⟩

/-- Queue 1 of core 0 holds an entry. -/
def engineAt (e : EngEntry) : State := (mapped eng).modCore 0 (fun c => { c with queues := [(1, { entries := [e] })] })
def loadEntry : EngEntry := { id := 9, form := .txld, wid := 0, team := 0, ctx := 0, rcd := rawRecord, base := 0x10000, coff := 4096 }
def tileEntry : EngEntry := { loadEntry with rcd := [0x1000000000000000] }
def storeEntry : EngEntry := { loadEntry with form := .txst, started := true }
def weightEntry : EngEntry := { loadEntry with form := .wbload, head0 := 1, slot := 255 }
def fenceEntry : EngEntry := { loadEntry with form := .fence, fence := 9, fenceMask := 2 }

theorem engine_goes {e : EngEntry} (h : ((engineAt e).ctx e.ctx).st = .running) (h2 : (engineAt e).engHead 0 1 = some e)
    (h3 : (((engineAt e).core 0).queues.getD 1 {}).park = none) (h4 : e.outside = []) : EngineGoes (engineAt e) 0 1 e :=
  ⟨h2, h3, h4, by rw [h]; decide⟩

theorem test_engine_goes : ∀ e ∈ [loadEntry, tileEntry, storeEntry, weightEntry, { weightEntry with started := true },
    { loadEntry with started := true }, { weightEntry with started := true, segs := 9 }, fenceEntry], EngineGoes (engineAt e) 0 1 e :=
  fun e he => engine_goes (by revert e; decide +kernel) (by revert e; decide +kernel) (by revert e; decide +kernel)
    (by revert e; decide +kernel)

/-- A slot of a sparse DX8 tile with column 4 alone live, whose index word keeps rows 0 and 1 of each group. -/
def sparseSlot : WSlot := { fmt := 5, bitmap := 16, live := 1, planes := [(64, 0x44), (65, 0x44), (66, 0x44), (67, 0x44)] }

theorem test_formats : sparseSlot.fmt.toNat ∈ [5, 6] ∧ sparseSlot.bitmap.getLsbD 4 = true ∧ sparseSlot.bitmap.getLsbD 3 = false
    ∧ numAt sparseSlot.planes.get 64 4 / 4 ^ 0 % 4 < numAt sparseSlot.planes.get 64 4 / 4 ^ 1 % 4
    ∧ ({ sparseSlot with fmt := 4 }).fmt.toNat ∈ [1, 2, 3, 4] ∧ (lw 18 0 0 255 0 0).tyN ∈ [12, 14, 16, 18, 19]
    ∧ (List.replicate 64 (List.replicate 32 (0 : Nat))).length = 64
    ∧ (List.replicate 64 (List.replicate 32 (0 : Nat))).all (fun x => x.length == 32 && x.all (fun y => decide (y < 2 ^ 32))) = true := by
  decide +kernel

/-- Records of one A tile: .f32 to DX8, .f32 to .h16, and DX8 blocks. -/
def tileRecord (sf cf : Nat) : List DWord := [BitVec.ofNat 64 (sf * 2 ^ 60 + cf * 2 ^ 54), 0, 0x100000001, 0x3F800000] ++ List.replicate 20 0
def tileCopy (sf cf : Nat) : EngEntry := { loadEntry with rcd := tileRecord sf cf }

theorem test_copied_tiles : ([(1, 1), (1, 3)]).all (fun x => Shape.isPlain (tileRecord x.1 x.2) && !Shape.isB (tileRecord x.1 x.2)
      && ((okOf ((engineAt (tileCopy x.1 x.2)).engRead 1 (tileCopy x.1 x.2) ((List.range 32).map (fun k =>
        plainPlace (tileRecord x.1 x.2) 0x10000 0 5 k))).2).map (·.length)) == some 32) = true
    ∧ Shape.isBlocks (tileRecord 4 1) = true
    ∧ ((okOf ((engineAt (tileCopy 4 1)).engRead 1 (tileCopy 4 1) ((List.range (Shape.blockSize (tileRecord 4 1))).map
        (blockPlace (tileRecord 4 1) 0x10000 0 5))).2).map (·.length)) = some 34
    ∧ Shape.isRaw (tileRecord 1 1) = false ∧ Shape.sfmt (tileRecord 1 1) ≠ 6
    ∧ ((okOf ((engineAt (tileCopy 1 1)).loadSegment 1 (tileCopy 1 1) 0).2).map (·.length)) = some 256
    ∧ ([((0, 5), ([1], [2, 3], false))] : List ((Nat × Nat) × List Byte × List Byte × Bool)).find? (fun x => x.1 == (0, 5)) = some ((0, 5), ([1], [2, 3], false)) := by
  decide +kernel

theorem test_engine_events : Shape.isRaw tileEntry.rcd = false ∧ Shape.ring tileEntry.rcd = false ∧ tileEntry.started = false
    ∧ (engineAt weightEntry).slotInUse 0 255 (engineAt weightEntry).names = false ∧ weightEntry.reached = 0 ∧ Tensor.isSparse (bitsN weightEntry.head0 3 0) = false
    ∧ 0 < weightEntry.total ∧ weightEntry.total ≤ 9
    ∧ (okOf ((engineAt { loadEntry with started := true }).loadSegment 1 { loadEntry with started := true } 0).2).map
        (fun xs => (xs.length, decide (xs.map (·.1)).Nodup)) = some (4, true) ∧ loadEntry.total = 1 ∧ loadEntry.stage = none
    ∧ okOf ((engineAt storeEntry).engAt storeEntry ((storeUnits storeEntry).getD 0 0 * 256) true).2 = some 0x150000
    ∧ isDrawer 0x150000 = false ∧ storeEntry.total = 1
    ∧ ((((engineAt loadEntry).modCore 0 (fun c => { c with queues := [(1, { park := some (.link 3) })] })).core 0).queues.getD 1 {}).park = some (.link 3)
    ∧ (engineAt loadEntry).parkOver (.link 3) = true ∧ (engineAt fenceEntry).fenceReady 0 fenceEntry = true := by decide +kernel

/-- The path waits at the ring's word. -/
def waitOf (free : Bool) : RingWait := { header := 256, wid := 0, slot := 0, free := free, lpc := 0, word := dWord }
def ringWaiting (free : Bool) (r : Ring) (seg : Nat) : State :=
  (ringed true r seg 0).modTeam 0 (fun t => { t with ringWaits := [waitOf free] })

theorem ring_first {s : State} {w : RingWait} (h1 : s.ringFirst 0 256 w.free = some w)
    (h2 : (s.warps.find w.wid).isSome && s.teamOf w.wid == 0 && (s.teams.find 0).isSome && (s.teams.getD 0 {}).rings.contains 256
      && decide (1 ≤ (s.ring (s.teams.getD 0 {}) 256).nst ∧ (s.ring (s.teams.getD 0 {}) 256).nst ≤ 64)
      && (match s.pathAt w.wid w.slot with | some p => p.windows.isEmpty | none => true) = true) : RingFirst s 0 256 w := by
  simp only [Bool.and_eq_true, beq_iff_eq, decide_eq_true_eq, List.contains_iff_mem] at h2
  obtain ⟨⟨⟨⟨⟨a, b⟩, c⟩, d⟩, e⟩, f⟩ := h2
  refine ⟨h1, ⟨a, b⟩, ⟨c, d⟩, e, fun p hp => ?_⟩
  simpa [hp] using f

theorem test_ring_grants : RingFirst (ringWaiting false filled1 1) 0 256 (waitOf false)
    ∧ RingFirst (ringWaiting true filled1 1) 0 256 (waitOf true) :=
  ⟨ring_first (by decide +kernel) (by decide +kernel), ring_first (by decide +kernel) (by decide +kernel)⟩

theorem test_ring_grant_stages : (ringWaiting false filled1 1).ring ((ringWaiting false filled1 1).teams.getD 0 {}) 256 = filled1
    ∧ (ringWaiting false filled1 1).stage ((ringWaiting false filled1 1).teams.getD 0 {}) 256 filled1 filled1.cidx = .filled
    ∧ (ringWaiting true filled1 1).ringFirst 0 256 false = none ∧ filled1.free ≠ 0 ∧ filled1.mode ≠ 1
    ∧ ((ringWaiting true filled1 1).ring ((ringWaiting true filled1 1).teams.getD 0 {}) 256) = filled1 := by decide +kernel

/-! ## Hypotheses of events of links, the hub and the mailboxes -/

def linked (l : Link) : State := { sc with links := [(31, l)] }
/-- No drawer region, so that no controller has a count to write back. -/
def unregioned : State := { linked {} with plat := { sc.plat with record2 := 0 } }
def aReq : Req := { id := 4, kind := 0, addr := 2 ^ 48 + 31 * 4096 }
/-- A store of one byte, and a path whose store of it waits outside the queue. -/
def bReq : Req := { aReq with kind := 2, data := [7], be := 1, eff := .store }
def heldStore : Access := { i := .sst 1 2 0 0 0, lane := false, k := 0, dests := [], off := true, xs := [{ lane := 0, ea := 0x30000, pa := 2 ^ 48 + 31 * 4096, data := [7] }], outside := [4] }
def storeWaits : State := { sc.modP (fun p => { p with access := some heldStore }) with
  links := [(31, { waiting := [.access 0 0 { aReq with kind := 2, data := [7], be := 1 } 1] })] }

theorem test_store_waits : (storeWaits.link 31).waiting = [.access 0 0 { aReq with kind := 2, data := [7], be := 1 } 1]
    ∧ (storeWaits.link 31).queue.length < 192 ∧ storeWaits.pathAt 0 0 = some storeWaits.cp ∧ storeWaits.cp.windows = []
    ∧ storeWaits.cp.access = some heldStore ∧ bitB (1 : Mask) 0 = true ∧ storeWaits.hub.fatal = false := by decide +kernel

def away : Link := { inflight := [{ req := aReq, slots := [2] }], slot := 3 }
def bad128 : DWord := 3 * 2 ^ 56

theorem test_link_events : ((linked { waiting := [.posted aReq] }).link 31).waiting = [.posted aReq]
    ∧ ((linked { waiting := [.posted aReq] }).link 31).queue.length < 192
    ∧ linkOf aReq.addr = 31 ∧ aReq.core = none ∧ aReq.eff = .none
    ∧ ((linked { waiting := [.posted bReq] }).link 31).waiting = [.posted bReq] ∧ bReq.eff = .store ∧ bReq.core = none
    ∧ ((linked { waiting := [.hub (.event .securityAlarm) aReq] }).link 31).waiting = [.hub (.event .securityAlarm) aReq]
    ∧ ((linked {}).link 31).waiting = [] ∧ ((linked {}).link 31).queue = []
    ∧ ((linked {}).link 31).resend = [] ∧ regionGranules unregioned = 0 ∧ (unregioned.link 31).mayStep = true
    ∧ ((linked {}).link 31).mayStep = true ∧ ((linked { queue := [aReq] }).link 31).mayStep = true
    ∧ ((linked away).link 31).due = some (2, { req := aReq, slots := [2] }) ∧ upK (2 ^ 126) = 1 ∧ upSt (2 ^ 126) = 0 ∧ upK (2 ^ 127) = 2
    ∧ ((linked { away with pend := true, slot := 128 }).link 31).atBoundary = true
    ∧ (List.range 128).all (fun i => decide (((linked { pend := true, slot := 128 }).link 31).shadowOf i ≤ 16)) = true
    ∧ ((linked { st := .parking, slot := 256 }).link 31).atBoundary = true ∧ ((linked {}).link 31).pend = false
    ∧ bitB (2 ^ 63 : DWord) 63 = true ∧ bitsN (0 : DWord) 57 56 ≠ 3 ∧ bitsN (0 : DWord) 55 54 ≠ 3 ∧ bitB (0 : DWord) 53 = false
    ∧ ((linked {}).link 31).st ≠ .down ∧ bitsN bad128 57 56 = 3 ∧ bitsN (3 * 2 ^ 54 : DWord) 55 54 = 3
    ∧ ((linked { st := .down }).link 31).st = .down := by decide +kernel

theorem test_link_states : ((linked { st := .retune }).link 31).st = .retune ∧ ((linked { st := .locking }).link 31).st = .locking
    ∧ ((linked { st := .switch, slot := 512 }).link 31).atMark = true ∧ ((linked {}).link 31).running = true
    ∧ ((linked { st := .parking }).link 31).running = true ∧ ((linked { st := .retrain, lock := false }).link 31).st = .retrain
    ∧ (linked {}).blocksLive = true := by decide +kernel

/-- Register set 4 is free in the first state; it holds a command in the second. -/
def commanded (v : DWord) : State := { tree with hub := { tree.hub with sets := [(4, { xsbusy := true, ctbusy := true, ctwork := v, ctwhere := 16, rhbusy := true })] } }

theorem test_hub_events : (tree.regSet 4).xsbusy = false ∧ bitsN (1 : DWord) 31 0 ≠ 0 ∧ 256 < bitsN (257 : DWord) 31 0
    ∧ ((commanded 0).regSet 4).xsbusy = true ∧ (tree.regSet 4).ctbusy = false ∧ tree.ctxOfSpace (bitsN (2 ^ 50 + 3 : DWord) 59 50) = some 0
    ∧ tree.nodeLive 0 (bitsN (2 ^ 50 + 3 : DWord) 19 0) = true
    ∧ ({ tree with hub := { tree.hub with sets := [(4, { ctaddr := 16 })] } }.ctGranule 0 16).2 = some 0x150
    ∧ bitsN (2 ^ 61 + 2 ^ 50 + 3 : DWord) 62 61 = 1 ∧ ((commanded (2 ^ 61 + 2 ^ 50 + 3)).regSet 4).ctbusy = true
    ∧ (commanded (2 ^ 61 + 2 ^ 50 + 3)).ctxOfSpace (bitsN ((commanded (2 ^ 61 + 2 ^ 50 + 3)).regSet 4).ctwork 59 50) = some 0
    ∧ (commanded 0).reached ((commanded 0).regSet 4).xsfrom = true
    ∧ (commanded 0).amaxOn (shootHits ((commanded 0).regSet 4).xswhere ((commanded 0).regSet 4).xswork) = false
    ∧ bitsN ((commanded (2 ^ 61 + 2 ^ 50 + 3)).regSet 4).ctwork 62 61 = 1
    ∧ (commanded (2 ^ 61 + 2 ^ 50 + 3)).nodeLive 0 (bitsN ((commanded (2 ^ 61 + 2 ^ 50 + 3)).regSet 4).ctwork 19 0) = true
    ∧ (tree.regSet 4).rhbusy = false ∧ tree.rhRefused 0x0214000000000000 = 0 ∧ ((commanded 0).regSet 4).rhbusy = true := by decide +kernel

theorem test_registers : (0x40031 : Nat) % 8 ≠ 0 ∧ tree.ownsCtx 0 255 = true ∧ tree.ownsCtx 0 0 = true ∧ bitB (tree.ctx 0).cfg 62 = true
    ∧ bitB (tree.ctx 255).cfg 62 = false ∧ bitsN (199 : DWord) 7 0 < 200 ∧ tree.sysLive 63 = false ∧ bitsN (2 ^ 63 + 255 : DWord) 62 8 = 0
    ∧ tree.sysLive 5 = true ∧ bitsN (256 : DWord) 62 8 ≠ 0 := by decide +kernel

/-- Mailbox 7 of the physical function names the near page; it is busy in the second state. -/
def boxed (b : Bool) : State := { tree with hub := { tree.hub with mailboxes := [(7, { addr := 0x10008, data := 5, cmp := 6, busy := b })] } }
def boxCmd (op : Nat) : DWord := BitVec.ofNat 64 (3 * 2 ^ 58 + op * 2 ^ 60)

theorem me_ready {op : Nat} (h : op < 5) : MeReady (boxed false) 7 op (boxCmd op) := by
  have a : ∀ o, o < 5 → (xdescOk ((boxed false).ctx (MbCmd.ctx (boxCmd o))).xdesc = true
      ∧ bitsN ((boxed false).ctx (MbCmd.ctx (boxCmd o))).cfg 55 48 = 7 / 8) ∧ (bitsN (boxCmd o) 57 56 = 0 ∧ bitsN (boxCmd o) 47 8 = 0)
      ∧ 4 ≤ MbCmd.size (boxCmd o) ∧ MbCmd.addr (boxCmd o) ((boxed false).mailbox 7).addr % MbCmd.size (boxCmd o) = 0
      ∧ inWindow (MbCmd.addr (boxCmd o) ((boxed false).mailbox 7).addr) = false := by decide +kernel
  exact ⟨by decide +kernel, by decide +kernel, (a op h).1.2, (a op h).1.1, (a op h).2.1, fun _ => (a op h).2.2.1, (a op h).2.2.2.1, (a op h).2.2.2.2, by decide +kernel⟩

theorem me_reaches {op : Nat} (h : op < 5) : ∃ x : State × Hit, MeReaches (boxed false) 7 op (boxCmd op) x.1 x.2 := by
  have a : ∀ o, o < 5 →
      (match okOf (((boxed false).meTaken 7 o (boxCmd o)).hub? (MbCmd.ctx (boxCmd o)) (MbCmd.addr (boxCmd o) ((boxed false).mailbox 7).addr) (meWant o)).2 with
       | some x => !isDrawer x.pa && !poisoned (((boxed false).meTaken 7 o (boxCmd o)).hub? (MbCmd.ctx (boxCmd o))
          (MbCmd.addr (boxCmd o) ((boxed false).mailbox 7).addr) (meWant o)).1.mem.poison x.pa (MbCmd.size (boxCmd o))
       | none => false) = true := by decide +kernel
  have b := a op h
  revert b
  generalize hr : ((boxed false).meTaken 7 op (boxCmd op)).hub? (MbCmd.ctx (boxCmd op)) (MbCmd.addr (boxCmd op) ((boxed false).mailbox 7).addr) (meWant op) = r
  obtain ⟨s, r⟩ := r
  cases r with
  | error e => exact fun b => nomatch b
  | ok x => intro b; simp only [okOf, Bool.and_eq_true, Bool.not_eq_true'] at b; exact ⟨(s, x), hr, fun hd => absurd hd (by rw [b.1]; decide), b.2⟩

theorem test_mailbox_events : (∀ op < 5, MeReady (boxed false) 7 op (boxCmd op) ∧ ∃ x : State × Hit, MeReaches (boxed false) 7 op (boxCmd op) x.1 x.2)
    ∧ ((boxed true).mailbox 7).busy = true ∧ ((boxed true).mailbox 7).todo = none ∧ ((boxed false).mailbox 7).busy = false
    ∧ isHost 0x150000 = false ∧ isDrawer 0x150000 = false ∧ mappable tree 0x150000 8 = true
    ∧ tree.hub.mailboxes.all (fun b => b.2.todo.isNone) = true ∧ tree.blocksLive = true :=
  ⟨fun _ h => ⟨me_ready h, me_reaches h⟩, by decide +kernel, by decide +kernel, by decide +kernel, by decide +kernel, by decide +kernel,
    by decide +kernel, by decide +kernel, by decide +kernel⟩

/-! ## Hypotheses of events of queues -/

/-- Words at places of the mapped page, and queue 3 of the context. -/
def holdingWords (ws : List (Nat × Nat)) (q : Queue) : State :=
  let s : State := { mapped sc with
    mem := { sc.mem with bytes := ws.foldl (fun m w => m.writeN (0x150000 + w.1) (bytesOf 8 w.2)) sc.mem.bytes }
    hub := { sc.hub with ssown := [(5, 0x8000000000000000), (6, 0x8000000000000000)] } }
  s.modCtx 0 (fun c => { c with cfg := 0xC000000100000000, ttab := 0x10080, queues := [(3, q)] })

/-- The queue is enabled over the page; entry 0 is published in its slot where a marker is given. -/
def ready3 (marker : Nat) (wait : Bool) : State :=
  holdingWords [(0, marker * 2 ^ 32 + 2 ^ 24)] { qcfg := 0x8000000100010000, qbase := 0x10000, qtail := 1, waitpub := wait }
def scrubbing : Queue := { qcfg := 0x8000000100010000, qbase := 0x10000, scrub := true }
/-- An entry of a command in progress. -/
def entry3 (ws : List Nat) (e : Entry) : Entry := { e with words := ws.map (BitVec.ofNat 64) }
def doing (ms : List (Nat × Nat)) (e : Entry) (block : Bool) : State := holdingWords ms { qcfg := 0x8000000100010000, entry := some e, block := block }
def anEntry : Entry := { index := 0, words := [] }
def done3 (a : Nat) : Entry := entry3 [2 ^ 24, 0, 0, 0, 0, 0, 0, a] { anEntry with status := some 0 }

theorem test_queue_events : (ready3 1 false).blocksLive = true ∧ (2 ^ 32 : DWord).toNat ≤ ((ready3 1 false).queue 0 3).qhead.toNat + 2 ^ 32
    ∧ ((ready3 1 false).queue 0 3).waitpub = false ∧ ((ready3 1 false).queue 0 3).qhead.toNat + 2 ^ 32 < (2 ^ 32 + 1 : DWord).toNat
    ∧ qcfgOk ((ready3 1 false).queue 0 9) 0x8000000100100000 = true ∧ ((ready3 1 false).queue 0 9).en = false
    ∧ ((holdingWords [] scrubbing).queue 0 3).scrub = true ∧ (holdingWords [] scrubbing).links = []
    ∧ ((holdingWords [] scrubbing).scrubSlots 0 3 (List.range scrubbing.size)).2 = true
    ∧ ((holdingWords [] scrubbing).scrubSlots 0 3 (List.range scrubbing.size)).1.held = none ∧ (ready3 1 false).mayConsume 0 3 = true
    ∧ ((ready3 1 false).queueRead 0 3 (((ready3 1 false).queue 0 3).slotVa 0) 64).2 = some (2 ^ 32 + 2 ^ 24)
    ∧ bitsN ((lineWords (2 ^ 32 + 2 ^ 24)).getD 0 0) 63 32 = (((ready3 1 false).queue 0 3).qhead.toNat + 1) % 2 ^ 32
    ∧ (ready3 1 true).mayConsume 0 3 = true ∧ ((ready3 1 true).queue 0 3).waitpub = true
    ∧ ((ready3 1 true).queueRead 0 3 (((ready3 1 true).queue 0 3).slotVa 0) 64).2 = some (2 ^ 32 + 2 ^ 24)
    ∧ ((ready3 0 true).queueRead 0 3 (((ready3 0 true).queue 0 3).slotVa 0) 64).2 = some (2 ^ 24) ∧ (ready3 0 true).mayConsume 0 3 = true
    ∧ bitsN ((lineWords (2 ^ 24)).getD 0 0) 63 32 ≠ 1 ∧ (doing [] (done3 0) false).advances 0 = true
    ∧ ((doing [] (done3 0) false).queue 0 3).entry = some (done3 0) ∧ bitsN ((done3 0).words.getD 7 0) 63 3 = 0
    ∧ bitsN ((done3 0x10008).words.getD 7 0) 63 3 ≠ 0
    ∧ placed ((doing [] (done3 0x10008) false).hub? 0 (bitsN ((done3 0x10008).words.getD 7 0) 63 3 * 8) .write).2 = some 0x150008
    ∧ ((doing [] (done3 0x10008) false).hub? 0 (bitsN ((done3 0x10008).words.getD 7 0) 63 3 * 8) .write).1.links = [] := by
  decide +kernel

/-- The scrub of a queue whose base is in no page fails; a published slot is read with no wait. -/
def unscrubbed : State := holdingWords [] { scrubbing with qbase := 0x70000 }

theorem test_queue_reads : (unscrubbed.queue 0 3).scrub = true ∧ (unscrubbed.scrubSlots 0 3 (List.range (unscrubbed.queue 0 3).size)).2 = false
    ∧ (unscrubbed.scrubSlots 0 3 (List.range (unscrubbed.queue 0 3).size)).1.held = none
    ∧ ((ready3 1 false).readSlot 0 3).held = none ∧ (((ready3 1 false).readSlot 0 3).ctx 0).st ≠ .tornDown := by decide +kernel

/-- A job card at 0x10040 of task type 0, whose entry stands at 0x10080. -/
def cardWords : List (Nat × Nat) := [(0x40, 8 * 2 ^ 32 + 2 ^ 16), (0x50, 5 * 2 ^ 32), (0x80, 0x80000)]
def launch3 (l : Option Launch) : Entry := entry3 [2 ^ 24, 0x10040, 7] { anEntry with launch := l }
def aLaunch : Launch := { card := [], ttype := oneWarp, count := 5, prologue := 3 }
def homed : Launch := { aLaunch with ttype := [0x80004], args := 0x10000, home := some (some (homeDie 0x150000)) }

theorem test_launch_events : (doing cardWords (launch3 none) false).entryOf 0 3 = some (launch3 none) ∧ (launch3 none).cmd = 1
    ∧ (okOf ((doing cardWords (launch3 none) false).readLaunch 0 3 ((launch3 none).word 1).toNat ((launch3 none).word 2)).2).map (·.count) = some 5
    ∧ ((doing cardWords (launch3 none) false).readLaunch 0 3 ((launch3 none).word 1).toNat ((launch3 none).word 2)).1.held = none
    ∧ ((doing [] (launch3 none) false).readLaunch 0 3 ((launch3 none).word 1).toNat ((launch3 none).word 2)).1.held = none
    ∧ (match ((doing [] (launch3 none) false).readLaunch 0 3 ((launch3 none).word 1).toNat ((launch3 none).word 2)).2 with
       | .error k => k == 3 | .ok _ => false) = true
    ∧ (doing [] (launch3 (some { aLaunch with prologue := 1 })) false).launchOf 0 3 = some { aLaunch with prologue := 1 }
    ∧ (doing [] (launch3 (some { aLaunch with prologue := 1 })) false).pu = none
    ∧ (doing [] (launch3 (some { aLaunch with prologue := 1 })) false).puQueue = [(0, 0, 3)]
    ∧ (doing [] (launch3 (some { aLaunch with dealt := 5 })) false).entryOf 0 3 = some (launch3 (some { aLaunch with dealt := 5 }))
    ∧ Launch.over { aLaunch with dealt := 5 } = true ∧ Launch.misfit { aLaunch with dealt := 5 } = false
    ∧ Launch.over { aLaunch with dealt := 5, again := true } = true
    ∧ (doing [(0, 0x10000)] (launch3 (some homed)) false).launchOf 0 3 = some homed ∧ TType.strict homed.ttype = false ∧ homed.lrec = []
    ∧ ((doing [(0, 0x10000)] (launch3 (some homed)) false).chunkHome 0 3 homed).2 = some (homeDie 0x150000) ∧ homed.home = some (some (homeDie 0x150000)) ∧ homed.prologue = 3
    ∧ (doing [(0, 0x10000)] (launch3 (some homed)) false).bestCore 0 homed.ttype (dieCores (homeDie 0x150000)) = none := by decide +kernel

def wait3 (v : Nat) : Entry := entry3 [2 * 2 ^ 24, 0x10000, v, 0, 0] anEntry
def signal3 : Entry := entry3 [3 * 2 ^ 24, 0x10000, 9, 0, 1] anEntry
def fence3 (m : Nat) : Entry := entry3 [4 * 2 ^ 24, m, 7] anEntry
/-- Queue 2 is enabled with nothing in progress. -/
def besides (e : Entry) : State := (doing [] e false).modQueue 0 2 (fun x => { x with qcfg := 0x8000000100010000 })
/-- Queue 2 waits at a fence of the tag whose mask names queue 3. -/
def opposed : State := (besides (fence3 8)).modQueue 0 2 (fun x => { x with entry := some (fence3 12) })

/-- No fence of any queue stands in the way of one. -/
theorem unopposed_of {s : State} {e : Entry} (h : (List.range 16).all (fun k => match s.fenceOf 0 k with
    | some f => f.2 != (e.word 2).toNat || f.1 == (e.word 1).toNat || !f.1.testBit 3
    | none => true) = true) : Unopposed s 0 3 e := by
  intro k f hk hf ht
  have := List.all_eq_true.mp h k (List.mem_range.mpr hk)
  simp only [hf, ht, bne_self_eq_false, Bool.false_or, Bool.or_eq_true, beq_iff_eq, Bool.not_eq_true'] at this
  exact this

theorem test_fences : Unopposed (besides (fence3 8)) 0 3 (fence3 8) ∧ Unopposed (besides (fence3 12)) 0 3 (fence3 12)
    ∧ opposed.entryOf 0 3 = some (fence3 8) ∧ opposed.fenceOf 0 2 = some (12, 7) ∧ (12 : Nat) ≠ ((fence3 8).word 1).toNat
    ∧ (12 : Nat).testBit 3 = true ∧ (opposed.queue 0 3).en = true :=
  ⟨unopposed_of (by decide +kernel), unopposed_of (by decide +kernel), by decide +kernel, by decide +kernel, by decide +kernel,
    by decide +kernel, by decide +kernel⟩

theorem test_semaphore_events : (doing [(0, 5)] (wait3 5) false).entryOf 0 3 = some (wait3 5) ∧ (wait3 5).cmd = 2
    ∧ ((doing [(0, 5)] (wait3 5) false).queue 0 3).block = false ∧ ((doing [(0, 5)] (wait3 6) true).queue 0 3).block = true
    ∧ ((doing [(0, 5)] (wait3 5) false).readNamed 0 3 ((wait3 5).word 1).toNat).2 = some 5
    ∧ ((doing [(0, 5)] (wait3 6) true).readNamed 0 3 ((wait3 6).word 1).toNat).2 = some 5
    ∧ ((doing [(0, 5)] (wait3 5) false).readNamed 0 3 ((wait3 5).word 1).toNat).1.held = none
    ∧ ((doing [(0, 5)] (wait3 6) true).readNamed 0 3 ((wait3 6).word 1).toNat).1.held = none
    ∧ semHolds 0 5 5 0 = true ∧ semHolds 0 5 6 0 = false ∧ (doing [(0, 5)] signal3 false).entryOf 0 3 = some signal3 ∧ signal3.cmd = 3
    ∧ ((doing [(0, 5)] signal3 false).readNamed 0 3 (signal3.word 1).toNat).2 = some 5
    ∧ (((doing [(0, 5)] signal3 false).readNamed 0 3 (signal3.word 1).toNat).1.hubWrite 0 0 (signal3.word 1).toNat 8 14).2 = true
    ∧ (((doing [(0, 5)] signal3 false).readNamed 0 3 (signal3.word 1).toNat).1.hubWrite 0 0 (signal3.word 1).toNat 8 14).1.held = none
    ∧ (besides (fence3 8)).entryOf 0 3 = some (fence3 8) ∧ (fence3 8).cmd = 4 ∧ maskQueues 8 = [3] ∧ ((besides (fence3 8)).queue 0 3).en = true
    ∧ (besides (fence3 8)).fenceOf 0 3 = some (8, 7) ∧ maskQueues 12 = [2, 3] ∧ (besides (fence3 12)).fenceOf 0 2 = none
    ∧ (besides (fence3 12)).fenceOf 0 3 = some (12, 7) ∧ ((besides (fence3 12)).queue 0 2).en = true := by decide +kernel

/-! ### Graphs and systems -/

def graph3 (g : Option Graph) : Entry := entry3 [5 * 2 ^ 24, 0x10000, 0, 7] { anEntry with graph := g }
/-- A graph of one node that stands at it, with its kind and code in the upper half of word 0 and a limit. -/
def oneNode (hi max a : Nat) : Graph := { nodes := [[BitVec.ofNat 64 (hi * 2 ^ 32 + max), BitVec.ofNat 64 a, 5, 0]], pos := 0, steps := 1, counts := [(0, 2)] }
def at3 (g : Graph) : State := doing ((0, 5) :: cardWords) (graph3 (some g)) false

def nodesRead (e : Entry) : State × Option (List DWord) :=
  (doing [] e false).hubWords ((doing [] e false).queueClass 0 3) 0 (e.word 1).toNat (4 * (bitsN (e.word 2) 27 16 + 1))

theorem test_graph_events : (doing [] (graph3 none) false).entryOf 0 3 = some (graph3 none) ∧ (graph3 none).cmd = 5
    ∧ ((graph3 none).word 1).toNat % 32 = 0 ∧ bitsN ((graph3 none).word 2) 27 16 + 1 = 1
    ∧ (nodesRead (graph3 none)).2 = some [0, 0, 0, 0] ∧ (nodesRead (graph3 none)).1.held = none
    ∧ ((nodesRead (graph3 none)).1.queue 0 3).entry = some (graph3 none)
    ∧ ([(1, oneNode 0x10000000 0 0x10040), (2, oneNode 0x20000000 0 0x10000), (3, oneNode 0x30000000 3 0x10000),
        (3, oneNode 0x30000000 2 0x10000), (0, oneNode 0 0 0)]).all (fun x => (at3 x.2).entryOf 0 3 == some (graph3 (some x.2))
          && x.2.ok && nodeKind x.2.node == x.1) = true
    ∧ (okOf ((at3 (oneNode 0x10000000 0 0x10040)).readLaunch 0 3 0x10040 0).2).map (·.count) = some 5
    ∧ ((at3 (oneNode 0x20000000 0 0x10000)).readNamed 0 3 0x10000).2 = some 5
    ∧ ((at3 (oneNode 0x10000000 0 0x10040)).readLaunch 0 3 0x10040 0).1.held = none
    ∧ ((at3 (oneNode 0x20000000 0 0x10000)).readNamed 0 3 0x10000).1.held = none
    ∧ (match ((at3 (oneNode 0x10000000 0 0x10200)).readLaunch 0 3 0x10200 0).2 with | .error k => k == 3 | .ok _ => false) = true
    ∧ ((at3 (oneNode 0x10000000 0 0x10200)).readLaunch 0 3 0x10200 0).1.held = none
    ∧ ((at3 (oneNode 0x30000000 3 0x10000)).readNamed 0 3 0x10000).2 = some 5
    ∧ ((at3 (oneNode 0x30000000 3 0x10000)).readNamed 0 3 0x10000).1.held = none := by decide +kernel

/-- An SSCB at 0x10400 of one plot, whose record is at 0x10600. -/
def sscbWords : List (Nat × Nat) := [(0x408, 0x10600), (0x418, 0x10800), (0x420, 0x10800), (0x428, 0x10A00), (0x80, 0x80000)]
def attach3 : Entry := entry3 [6 * 2 ^ 24, 0x10400, 6] anEntry
/-- It names a system that the context does not own. -/
def attach7 : Entry := entry3 [6 * 2 ^ 24, 0x10400, 7] anEntry
def attaching : State := doing sscbWords attach3 false
def detach3 : Entry := entry3 [7 * 2 ^ 24, 0, 5] anEntry
def detaching (st : PlotState) : State := { doing [] detach3 false with systems := [(5, { plots := [(0, { st := st })] })] }
def reapq3 : Entry := entry3 [8 * 2 ^ 24, 0x10000] { anEntry with reap := some 2 }
def reapDone : State := { doing [] reapq3 false with
  reaps := [(2, { wid := none, ctx := 0, sys := 5, first := 0, count := 1, dst := 0x10000, stride := 8, rpt := 0x10400, pos := 1 })] }
/-- The entry's descriptor, of system 5's one plot, is in the page. -/
def reapStart3 : Entry := entry3 [8 * 2 ^ 24, 0x10000] anEntry
def reapWords3 : List DWord := [5, 0x10000, 8, 0x10400, 0, 0, 0, 0]
def reapBegins : State := { doing [(0, 5), (8, 0x10000), (16, 8), (24, 0x10400)] reapStart3 false with systems := [(5, { plots := [(0, {})] })] }
def copy3 : Entry := entry3 [9 * 2 ^ 24, 0x10000, 0x10008, 64] anEntry
def copyOne : Entry := entry3 [9 * 2 ^ 24, 0x10000, 0x10008, 8] anEntry

theorem test_attach_events : attaching.entryOf 0 3 = some attach3 ∧ attach3.cmd = 6 ∧ attaching.ownsSys 0 6 = true ∧ attaching.links = []
    ∧ attaching.sysLive 6 = false
    ∧ (match attaching.readLines 0 3 0x10400 4 with
       | (s1, some ws) => (match s1.readSystem 0 3 0x10400 ws with
         | (s2, some y) =>
           let u := ({ s2 with systems := s2.systems.put 6 y }).goLive 6
           ({ s2 with systems := s2.systems.put 6 y }).withinLimits && u.held.isNone && decide ((u.ctx 0).st ≠ .tornDown)
         | (_, none) => false)
       | (_, none) => false) = true
    ∧ (doing [] attach3 false).entryOf 0 3 = some attach3 ∧ (doing [] attach3 false).ownsSys 0 6 = true ∧ (doing [] attach3 false).sysLive 6 = false
    ∧ (match (doing [] attach3 false).readLines 0 3 0x10400 4 with
       | (s1, some ws) => (s1.readSystem 0 3 0x10400 ws).2.isNone && (s1.readSystem 0 3 0x10400 ws).1.held.isNone
       | (_, none) => false) = true
    ∧ (doing [] attach7 false).entryOf 0 3 = some attach7 ∧ attach7.cmd = 6 ∧ (doing [] attach7 false).ownsSys 0 7 = false := by
  decide +kernel

theorem test_system_events : (detaching .idle).entryOf 0 3 = some detach3 ∧ detach3.cmd = 7 ∧ (detaching .idle).links = []
    ∧ ([(PlotState.idle, true), (.service, false)]).all (fun x => match (detaching x.1).sysOf 0 5 with
        | some y => (detaching x.1).sysIdle 5 y == x.2 | none => false) = true ∧ (doing [] detach3 false).sysOf 0 5 = none
    ∧ (doing [] detach3 false).entryOf 0 3 = some detach3
    ∧ reapDone.entryOf 0 3 = some reapq3 ∧ reapq3.cmd = 8 ∧ reapDone.links = []
    ∧ (reapDone.reaps.find 2).map (fun r => (r.ctx, decide (r.count ≤ r.pos))) = some (0, true)
    ∧ (reapDone.reaps.find 2).map (fun r => (reapDone.reapStores r 4 r.rpt (reportBytes reapDone r)).2
        && (reapDone.reapStores r 4 r.rpt (reportBytes reapDone r)).1.held.isNone) = some true := by decide +kernel

theorem test_reapq_start : reapBegins.entryOf 0 3 = some reapStart3 ∧ reapStart3.cmd = 8 ∧ reapStart3.reap = none
    ∧ (reapBegins.queueRead 0 3 0x10000 64).2.map lineWords = some reapWords3 ∧ reapReserved reapWords3 = true
    ∧ ((reapBegins.queueRead 0 3 0x10000 64).1.sysOf 0 5).map (fun y => reapShape y (reapOf reapWords3)) = some true
    ∧ ((reapBegins.queueRead 0 3 0x10000 64).1.queueProbe 0 .write (pagesOf 0x10000 0 ++ pagesOf 0x10400 576)).2 = true
    ∧ ((reapBegins.queueRead 0 3 0x10000 64).1.queueProbe 0 .write (pagesOf 0x10000 0 ++ pagesOf 0x10400 576)).1.held = none := by decide +kernel

theorem test_copies : (doing [] copy3 false).entryOf 0 3 = some copy3 ∧ copy3.cmd = 9 ∧ (doing [] copy3 false).links = []
    ∧ ((doing [] copy3 false).queueProbe 0 .read (pagesOf 0x10000 64)).2 = true
    ∧ (((doing [] copy3 false).queueProbe 0 .read (pagesOf 0x10000 64)).1.queueProbe 0 .write (pagesOf 0x10008 64)).2 = true
    ∧ (doing [(0, 5)] copyOne false).entryOf 0 3 = some copyOne ∧ (copyOne.word 3).toNat = 8
    ∧ (let s1 := ((doing [(0, 5)] copyOne false).queueProbe 0 .read (pagesOf 0x10000 8))
       let s2 := s1.1.queueProbe 0 .write (pagesOf 0x10008 8)
       let s3 := s2.1.hub? 0 0x10000 .read
       s1.2 && s2.2 && placed s3.2 == some 0x150000 && placed (s3.1.hub? 0 0x10008 .write).2 == some 0x150008
         && !poisoned s3.1.mem.poison 0x150000 8) = true := by decide +kernel

theorem test_copy_ends : (let s1 := (doing [(0, 5)] copyOne false).queueProbe 0 .read (pagesOf 0x10000 8)
      let s2 := s1.1.queueProbe 0 .write (pagesOf 0x10008 8)
      let r := s2.1.copyRead 0 3 2 0x10000 8
      s1.2 && s2.2 && (r.1.copyWrite 0 3 0x10008 2 r.2).held.isNone) = true := by decide +kernel

/-! ## Hypotheses of events of contexts, errors, the platform and the debugger -/

/-- Context 0 with a state and CTXCFG, with or without its team. -/
def inState (st : CtxState) (cfg : DWord) (teams : Bool) : State :=
  ({ sc with teams := if teams then sc.teams else [] }).modCtx 0 (fun c => { c with st := st, cfg := cfg })
def startValue : DWord := 0xC000000000000000
/-- A frozen context whose image is good, with nothing in it. -/
def anImage : Image :=
  { ctx := 0, queues := [], teams := [], warps := [], cores := [], canvas := [], canvasPoison := [], canvasStamps := []
    systems := [], raises := [], watchEvents := [], reaps := [], nodes := [], frames := [], counts := [], pend := []
    enrol := [], reqs := [], lost := 0, draw := 0, size := 0 }
def imaged (st : CtxState) : State := { inState st startValue false with images := [(0, anImage)] }

/-- A freezing context whose save area is not in near memory. -/
def farSave : State := (inState .freezing startValue true).modCtx 0 (fun c => { c with save := 0x1000000000000 })

theorem test_context_events : (inState .running 0 false).ownsCtx 0 0 = true ∧ (inState .running 0 false).ownsCtx 0 255 = true
    ∧ bitB ((inState .running 0 false).ctx 0).cfg 63 = false ∧ bitB ((inState .running 0 false).ctx 0).cfg 62 = false
    ∧ ((inState .running 0 false).ctx 0).st ≠ .tornDown ∧ bitB startValue 63 = true ∧ bitB startValue 62 = true
    ∧ xdescOk ((inState .running 0 false).ctx 0).xdesc = true ∧ xdescOk ((inState .running 0 false).ctx 255).xdesc = false
    ∧ ((inState .running 0 false).ctx 255).st ≠ .tornDown ∧ bitB ((inState .running 0 false).ctx 255).cfg 62 = false
    ∧ (inState .tornDown 0x8000000000000000 false).mayFree 0 = true ∧ bitB ((inState .tornDown 0x8000000000000000 false).ctx 0).cfg 63 = true
    ∧ (inState .running startValue true).blocksLive = true ∧ bitsN (7 : DWord) 59 32 = 0 ∧ bitsN (7 : DWord) 31 0 ≠ 0
    ∧ ctxTeams (inState .running startValue true) 0 ≠ [] ∧ ctxTeams (inState .running startValue false) 0 = []
    ∧ ((inState .drained startValue false).ctx 0).st = .drained ∧ bitsN (2 ^ 32 : DWord) 59 32 ≠ 0
    ∧ ((imaged .frozen).goodImage ((imaged .frozen).ctx 0).saveArea).isSome = true ∧ ((imaged .frozen).ctx 0).st = .frozen
    ∧ ((inState .draining startValue true).ctx 0).st = .draining
    ∧ (inState .draining startValue true).deadlinePassed ((inState .draining startValue true).ctx 0) = true
    ∧ bitB ((inState .draining 0xE000000000000000 true).ctx 0).cfg 61 = true
    ∧ (inState .draining 0xE000000000000000 true).deadlinePassed ((inState .draining 0xE000000000000000 true).ctx 0) = true
    ∧ bitB ((inState .draining startValue true).ctx 0).cfg 61 = false ∧ ((inState .freezing startValue true).ctx 0).st = .freezing
    ∧ (inState .freezing startValue true).atBoundaries 0 = true ∧ (farSave.freeze 0).held = none
    ∧ (farSave.ctx 0).st = .freezing ∧ farSave.atBoundaries 0 = true
    ∧ (inState .freezing startValue true).links = [] ∧ isNear ((inState .freezing startValue true).ctx 0).saveArea = true
    ∧ (inState .freezing startValue true).systems = []
    ∧ ((imaged .restoring).ctx 0).st = .restoring ∧ (imaged .restoring).images.find ((imaged .restoring).ctx 0).image = some anImage
    ∧ anImage.teams = [] := by decide +kernel

/-- The module before and after stage 1, with a record it accepts. -/
def starting (st : BitVec 2) : State := { State.reset with plat := { State.reset.plat with live := true, stage := st } }
/-- The same with a VERSION the module has gone beyond, and with a record that is out of range. -/
def rolledBack : State := { starting 0 with plat := { (starting 0).plat with version := 0xFFFFFFFF } }
def outOfRange : State := { starting 0 with plat := { (starting 0).plat with record4 := 1 } }
/-- Keys of the attestation with some signatures made. -/
def keyed (id g : Nat) : State := { sc with plat := { sc.plat with idIndex := id, genIndex := g } }

theorem test_error_events : (sc.warps.find 0).isSome = true ∧ sc.hub.fatal = false ∧ bitB (2 ^ 63 : DWord) 63 = true
    ∧ sc.plat.live = true ∧ 1 ≤ sc.plat.stage.toNat ∧ sc.plat.genIndex < 2 ^ 30
    ∧ ([(starting 0), (starting 1)]).all (fun s => !s.plat.inReset && !s.plat.fail && s.plat.live && s.plat.recordOk && !s.hub.fatal) = true
    ∧ (starting 0).plat.stage = 0 ∧ (starting 1).plat.stage = 1 ∧ (starting 0).plat.version.toNat ≤ bitsN (starting 0).plat.record0 31 0
    ∧ ({ State.reset with plat := { State.reset.plat with inReset := false } } : State).plat.live = false
    ∧ outOfRange.plat.recordOk = false ∧ rolledBack.plat.recordOk = true
    ∧ bitsN rolledBack.plat.record0 31 0 < rolledBack.plat.version.toNat ∧ (6 : BitVec 8) ≠ 0 ∧ (0 : BitVec 32) ≠ BitVec.allOnes 32
    ∧ (keyed 5 7).plat.idIndex < 2 ^ 30 ∧ (keyed 5 7).plat.genIndex < 2 ^ 30 ∧ 2 ^ 30 ≤ (keyed 5 (2 ^ 30)).plat.genIndex
    ∧ 2 ^ 30 ≤ (keyed (2 ^ 30) 0).plat.idIndex ∧ (sc.plat.points.get 7).toNat < 3
    ∧ sc.plat.points.get 7 = 0 ∧ sc.plat.changing.find 7 = none ∧ (0 : BitVec 2) ≠ 1
    ∧ ({ sc.plat with changing := [(7, 2)] }).changing.find 7 = some 2 ∧ sc.coreTeams 1599 = 0
    ∧ ((sc.modCore 9 (fun c => { c with gated := true })).core 9).gated = true := by decide +kernel

/-- Whatever the rest of the module draws, a die that draws 65,535 W takes it over its limit. -/
theorem test_over_power : ({ sc with plat := { sc.plat with watts := sc.plat.watts.set 7 0xFFFF } } : State).overPower = true := by
  have h : ((List.range 8).map (fun d => ((sc.plat.watts.set 7 0xFFFF).get d).toNat)).foldl (· + ·) 0 = 65535 := by decide +kernel
  have h' : bitsN sc.plat.record1 47 32 < 65535 := by decide +kernel
  unfold State.overPower
  simp only [decide_eq_true_eq]
  show bitsN sc.plat.record1 47 32 < ((List.range 8).map (fun d => ((sc.plat.watts.set 7 0xFFFF).get d).toNat)).foldl (· + ·) 0 + _
  omega

/-- A breakpoint on the path's word; a stopped path with a lane word; a fragment parked on a watch hit. -/
def broken : State := sc.modCtx 0 (fun c => { c with dbgctl := 0xC000000000000000, dbgbp := [(0, 0x8000000000000000)] })
def stopped : State := (queued 1).modP (fun p => { p with stopped := true })
def watching : State := sc.modCore 0 (fun c => { c with frags := [(2, { warp := 0, serial := 7, state := 0, path := aPath, rcd := { cls := 6 } })] })
/-- Bits of DBGCMD that name fragment 7 of warp 0. -/
def fragName : DWord := 2 * 2 ^ 16 + 7

/-- A fragment on a watch hit whose warp has both slots free. -/
def watchingAlone : State := watching.modW (fun w => { w with slot0 := none })

theorem test_debug_reads : ([6, 7]).all (fun op => watchingAlone.named 0 (putBits fragName 62 60 op) == some (0, .frag 2)) = true
    ∧ ((watchingAlone.core (coreOf 0)).frags.find 2).map (fun f => (f.onWatch, f.warp)) = some (true, 0)
    ∧ (watchingAlone.warps.find 0).map (fun w => (w.slot0, w.slot1)) = some (none, none) ∧ watchingAlone.pathIn 0 (.frag 2) = some aPath
    ∧ (watching.warps.find 0).map (·.slot0.isSome) = some true
    ∧ bitB (broken.ctx 0).dbgctl 63 = true ∧ cycles (standing (broken.waitGraph 0) (broken.ctx 0).graphSeen) = [] := by decide +kernel

theorem test_debug_events : broken.pathAt 0 0 = some broken.cp ∧ broken.cp.stopped = false ∧ broken.breaks false 0 broken.cp = true
    ∧ sc.blocksLive = true ∧ ([0, 1]).all (fun op => sc.named 0 (putBits 0 62 60 op) == some (0, .place 0)) = true
    ∧ sc.pathIn 0 (.place 0) = some sc.cp ∧ sc.cp.stopped = false
    ∧ ([1, 2, 3]).all (fun op => stopped.named 0 (putBits 0 62 60 op) == some (0, .place 0)) = true
    ∧ stopped.pathIn 0 (.place 0) = some stopped.cp ∧ stopped.cp.stopped = true ∧ stopped.cp.hasLane = true
    ∧ ([6, 7]).all (fun op => watching.named 0 (putBits fragName 62 60 op) == some (0, .frag 2)) = true
    ∧ ((watching.core (coreOf 0)).frags.find 2).map (·.onWatch) = some true ∧ watching.pathIn 0 (.frag 2) = some aPath
    ∧ (bitB (broken.ctx 0).dbgctl 63 = true ∧ bitB (0x8000000000000000 : DWord) 63 = true) ∧ bitB (sc.ctx 0).dbgctl 63 = false
    ∧ bitB (sc.ctx 0).dbgctl 59 = false ∧ bitB ((sc.modCtx 0 (fun c => { c with dbgctl := 2 ^ 59 })).ctx 0).dbgctl 59 = true
    ∧ ((sc.modCtx 0 (fun c => { c with dbgctl := 2 ^ 59 })).nextSampled 0 0).map (·.1) = some 0
    ∧ cycles (broken.waitGraph 0) = [] := by decide +kernel

/-! ## Hypotheses of the step, of encodings and of a stopped module -/

def added : State := State.reset.placeWord 32 0x04310500
def laned : State := State.reset.placeWord 96 0x0C0002028000000500000000
def halted : State := { State.reset with hub := { State.reset.hub with fatal := true } }
/-- A step of a module whose agenda holds an event, and of one that offers no turn. -/
def eventful : State := { State.reset with agenda := [.event .resetRelease] }
def allotted : State := { sc with agenda := [.outside (.giveFrame 0x15 0)] }

/-- The turn a state takes, and the state with it. -/
def turnOf (s : State) : Option Turn := s.choose.2
def taken (s : State) (wid k : Nat) : State := ({ s.choose.1 with cur := (wid, k) }).settleAll wid k
/-- Places of a word's three parts, each translated in the state the one before leaves. -/
def parts3 (s : State) (va : Nat) : Option (List Byte) :=
  let a := translate s s.agent va .fetch
  let b := translate a.1 a.1.agent (va + 4) .fetch
  let c := translate b.1 b.1.agent (va + 8) .fetch
  match placed a.2, placed b.2, placed c.2 with
  | some h, some g, some f => some ((List.range 4).map (fun j => a.1.byte (h + j)) ++ (List.range 4).map (fun j => b.1.byte (g + j))
      ++ (List.range 4).map (fun j => c.1.byte (f + j)))
  | _, _, _ => none

theorem test_scalar_step : turnOf added = some (.scalar 0 0) ∧ added.choose.1.canIssue false 0 0 = true
    ∧ (taken added 0 0).canIssue false 0 0 = true ∧ (taken added 0 0).breaks false 0 (taken added 0 0).cp = false
    ∧ (taken added 0 0).cp.pc.toNat / 2 ^ 68 ≠ 15
    ∧ (match translate (taken added 0 0) (taken added 0 0).agent (taken added 0 0).cp.pc.toNat .fetch with
       | (s2, .ok h) => okOf (decode false ((List.range 4).map (fun j => s2.byte (h.pa + j)))) == some (.sadd 3 4 5, [])
       | _ => false) = true := by decide +kernel

theorem test_lane_step : turnOf laned = some (.lane 0 0) ∧ laned.choose.1.canIssue true 0 0 = true
    ∧ (taken laned 0 0).canIssue true 0 0 = true ∧ (taken laned 0 0).breaks true 0 (taken laned 0 0).cp = false
    ∧ (taken laned 0 0).cp.windows = []
    ∧ lanebaseN (taken laned 0 0).cctx + 12 * ((taken laned 0 0).run.off + (taken laned 0 0).run.pos) + 12 ≤ 15 * 2 ^ 68
    ∧ (parts3 (taken laned 0 0) (lanebaseN (taken laned 0 0).cctx + 12 * ((taken laned 0 0).run.off + (taken laned 0 0).run.pos))).isSome = true
    ∧ ((parts3 (taken laned 0 0) (lanebaseN (taken laned 0 0).cctx + 12 * ((taken laned 0 0).run.off + (taken laned 0 0).run.pos))).map
        (fun bs => (okOf (decode true bs)).isSome)) = some true := by decide +kernel

theorem test_other_turns : turnOf eventful = some (.event .resetRelease) ∧ turnOf allotted = some (.outside (.giveFrame 0x15 0)) ∧ turnOf halted = none := by decide +kernel

theorem test_encodings : (Instr.sadd 3 4 5).wf = true ∧ encode (.sadd 3 4 5) = some [0x00, 0x05, 0x31, 0x04]
    ∧ halted.hub.fatal = true ∧ halted.agenda = [] := ⟨by decide, rfl, rfl, rfl⟩

theorem test_reset_memory : State.reset.memOk = true := by decide

/-! ## Decoding: words written out from the encodings of the spec -/

/-- A word of each scalar form, from the match and the fields of its row (R43, R203 to R222). -/
def scalarWords : List (Nat × Instr) := [
      (0x068B7200, .sadd 40 45 50), (0x068B7201, .ssub 40 45 50), (0x068B7202, .smul 40 45 50), (0x068B7283, .smulh 40 45 50 1),
      (0x068B7284, .sdiv 40 45 50 1), (0x068B7285, .srem 40 45 50 1), (0x068B7206, .sand 40 45 50), (0x068B7207, .sor 40 45 50),
      (0x068B7208, .sxor 40 45 50), (0x068B7209, .sshl 40 45 50), (0x068B720A, .sshr 40 45 50), (0x068B720B, .ssar 40 45 50),
      (0x068B728C, .smin 40 45 50 1), (0x068B728D, .smax 40 45 50 1), (0x068B400E, .spopc 40 45), (0x068B400F, .sclz 40 45),
      (0x068B4010, .smov 40 45), (0x068B7227, .ssel 40 45 50 7), (0x044B7237, .scmp 4 45 50 7), (0x08837200, .aadd 8 13 50),
      (0x0A834A01, .asub 40 13 10), (0x088B4002, .aset 8 45), (0x088B7203, .asetW 8 45 50), (0x0A834004, .aget 40 13),
      (0x0A834005, .agetHi 40 13), (0x08434A37, .acmp 4 13 10 7), (0x0E8B6012, .saddi 40 45 8210), (0x128B6012, .sandi 40 45 8210),
      (0x168B6012, .sori 40 45 8210), (0x1A8B6012, .sxori 40 45 8210), (0x1E8B4032, .sshli 40 45 50), (0x228B4032, .sshri 40 45 50),
      (0x268B4032, .ssari 40 45 50), (0x284B7417, .scmpi 4 45 6 1047), (0x2C836012, .aaddi 8 13 8210), (0x3288000D, .slui 40 524301),
      (0x40200008, .br 2097160), (0x46600012, .bq 4 1 2097170), (0x4A609417, .brd 4 1 1042 1047), (0x4C200008, .call 2097160),
      (0x50000000, .join), (0x500A0001, .calli 40), (0x50000002, .ret), (0x50000003, .exit)]
def scalarWords2 : List (Nat × Instr) := [
      (0x500A0004, .nap 40), (0x50000005, .yield), (0x5680200D, .loop 40 8205), (0x628DAF9C, .sld 40 13 10 15 156),
      (0x668DAF9C, .sst 40 13 10 15 156), (0x688DAF9C, .slda 8 13 10 15 156), (0x6C8D8A97, .ssta 8 13 10 151),
      (0x728372FB, .samo 40 13 50 15 2 3), (0x8288000D, .lrun 40 524301), (0x84000000, .lsync), (0x90800000, .bara 8),
      (0x90800001, .barw 8), (0x90800002, .baraw 8), (0x900A0010, .gangset 40), (0xA2D2B70C, .txld 2 13 10 55 12),
      (0xA2D2B71C, .txst 2 13 10 55 12), (0xA2D28020, .txpf 2 13 10), (0xA20B723F, .wbload 2 45 50 15), (0xA0800040, .recfence 8),
      (0xA1000040, .recfenceAll), (0xA0800080, .qfence 8), (0xA080009D, .qwait 8 13), (0xB28B400A, .cnode 40 45 10),
      (0xB2837210, .cenrol 40 13 50), (0xB0022D20, .cunrol 8 45), (0xB28B403A, .cread 40 45 10), (0xB28B404A, .csettle 40 45 10),
      (0xB28B7250, .cwatch 40 45 50), (0xB28B4060, .crepar 40 45), (0xB2800070, .cfree 40), (0xB283408A, .creadG 40 13 10),
      (0xBA8B7200, .raise 40 45 50), (0xBA8B7210, .raiseSum 40 45 50), (0xBA800020, .plotend 40), (0xBA83403A, .reap 40 13 10),
      (0xC2880D00, .sysr 40 2061), (0xC2880D01, .sysw 40 2061), (0xC0008802, .trap 136), (0xC0000003, .tret), (0xC0080804, .brkpt 2056),
      (0xC1E00010, .fence 1 3 2), (0xD2880D00, .pset 40 2061), (0xD0000001, .pcancel), (0xD0000002, .prepeat)]

/-- Fields of a lane word, each with its own bits, and the word they make with opcode 0 (R39). -/
def laneFields : LaneWord :=
  { g := 2, gn := 1, la := 5, ty := 0x13, d := 0xa5, a := 0x3c, b := 0xc3, c := 0x96, rnd := 1, sat := 1, md := 6, ext := 0xdeadbeef }
def fieldBits : Nat := 0x15674A79872C66DEADBEEF

/-- The opcodes of appendix 22. -/
def laneOps : List (Nat × (LaneWord → Instr)) := [
      (0x001, .vadd), (0x002, .vsub), (0x003, .vmul), (0x004, .vmulh), (0x005, .vmad), (0x006, .vmin), (0x007, .vmax), (0x008, .vabs),
      (0x009, .vneg), (0x040, .vdot4), (0x010, .vshl), (0x011, .vshr), (0x012, .vsar), (0x018, .vand), (0x019, .vor), (0x01A, .vxor),
      (0x01B, .vnot), (0x01C, .vlop3), (0x020, .vpopc), (0x021, .vclz), (0x022, .vbrev), (0x023, .vbfx), (0x024, .vbfi), (0x030, .vmov),
      (0x031, .vmovi), (0x032, .vmovs), (0x033, .vsel), (0x038, .vcmp), (0x048, .vlane), (0x100, .fadd), (0x101, .fsub), (0x102, .fmul),
      (0x103, .ffma), (0x104, .fmin), (0x105, .fmax), (0x108, .fabs), (0x109, .fneg), (0x10A, .fcpys), (0x10B, .fclass), (0x110, .fdiv),
      (0x111, .fsqrt), (0x112, .frcp), (0x113, .frsq), (0x118, .fexp2), (0x119, .flog2), (0x11A, .fsin), (0x11B, .fcos), (0x1C0, .cvt),
      (0x200, .vshuf), (0x208, .vvote), (0x210, .vred), (0x211, .vredix), (0x218, .vscan), (0x220, .vget), (0x228, .vsync), (0x230, .pand),
      (0x231, .por), (0x232, .pxor), (0x233, .pnot), (0x234, .pmov), (0x238, .pget), (0x280, .vld), (0x281, .vst), (0x282, .vpf),
      (0x300, .cld), (0x301, .cst), (0x308, .camo), (0x310, .cupd), (0x318, .cred), (0x320, .rinit), (0x321, .rwaitFill), (0x322, .rfree),
      (0x323, .rpost), (0x340, .vamo 0), (0x341, .vamo 1), (0x342, .vamo 2), (0x343, .vamo 3), (0x348, .vfence), (0x380, .mxacc),
      (0x381, .mxzero), (0x382, .mxloadc), (0x383, .mxdrain), (0x3C0, .vrkey), (0x3C8, .vraise)]

theorem test_decode_scalar : scalarWords.all (fun x => decodeTableWord 32 x.1 == some x.2) = true := by decide +kernel
theorem test_decode_scalar_rest : scalarWords2.all (fun x => decodeTableWord 32 x.1 == some x.2) = true := by decide +kernel
theorem test_decode_lane : laneOps.all (fun x => decodeTableWord 96 (x.1 * 2 ^ 86 + fieldBits) == some (x.2 laneFields)) = true := by
  decide +kernel
theorem test_decode_rwait_free : decodeTableWord 96 (0x321 * 2 ^ 86 + fieldBits + 2 ^ 32) = some (.rwaitFree { laneFields with md := 7 }) := by
  decide +kernel

/-- Examples the spec gives with their words. -/
theorem test_decode_examples : ([(0x04310500, .sadd 3 4 5), (0x0461C884, .sdiv 6 7 8 1), (0x0C30FFFF, .saddi 3 3 0x3FFF),
      (0x28211064, .scmpi 2 4 2 100), (0x303ABCDE, .slui 3 0xABCDE), (0x403FFFFA, .br 0x3FFFFA), (0x54903FFC, .loop 9 0x3FFC),
      (0x50028001, .calli 10), (0x50000003, .exit), (0x5002C004, .nap 11), (0x60353203, .sld 3 5 3 2 3), (0x82D00000, .lrun 45 0),
      (0x8020002D, .lrun 2 45), (0x84000000, .lsync), (0x90500000, .bara 5), (0x90500001, .barw 5), (0x90000002, .baraw 0),
      (0x90030010, .gangset 12), (0xC0500100, .sysr 5 1), (0xC0610901, .sysw 6 0x109), (0xC0002102, .trap 0x21), (0xC0000003, .tret),
      (0xC0000704, .brkpt 7), (0xD0400000, .pset 4 0), (0xD0000002, .prepeat), (0xB0610042, .csettle 6 4 2),
      (0xB040C510, .cenrol 4 3 5)] : List (Nat × Instr)).all (fun x => decodeTableWord 32 x.1 == some x.2) = true := by decide +kernel

theorem test_decode_lane_examples : decodeTableWord 96 0xC00092100008000032000040 = some (.cld { lw 9 8 0 4 0 0 with la := 2, ext := 0x32000040 })
    ∧ decodeTableWord 96 0xA000D2100008000023000010 = some (.vld { lw 9 8 0 4 0 0 with la := 3, ext := 0x23000010 })
    ∧ decodeTableWord 96 0x00400E0C0C00000100000001 = some (.vadd { lw 7 6 6 0 0 1 with ext := 1 })
    ∧ decodeTableWord 96 0x40C020282A2C2E5000000000 = some (.ffma { lw 16 20 21 22 23 16 with rnd := 1 })
    ∧ decodeTableWord 96 0x7000060A0800005000000000 = some (.cvt { lw 3 5 4 0 0 16 with rnd := 1 })
    ∧ decodeTableWord 96 0x80001212100000030000017B = some (.vshuf { lw 9 9 8 0 0 3 with ext := 0x17B })
    ∧ decodeTableWord 96 0x84480E0828000000FFFFFFFF = some (.vredix { lw 7 4 20 0 0 0 with g := 1, ext := 0xFFFFFFFF })
    ∧ decodeTableWord 96 0xD0804E14000C180242000000 = some (.vamo 2 { lw 7 10 0 6 12 2 with la := 1, ext := 0x42000000 })
    ∧ decodeTableWord 96 0xD20000000000000A00000000 = some (.vfence (lw 0 0 0 0 0 10))
    ∧ decodeTableWord 96 0xE001240223FE000030002000 = some (.mxacc { lw 18 1 17 255 0 0 with la := 4, ext := 0x30002000 })
    ∧ decodeTableWord 96 0xE0C0A40603FE0A0330006000 = some (.mxdrain { lw 18 3 1 255 5 3 with la := 2, ext := 0x30006000 }) := by decide +kernel

/-! ## Terms the checks refuse (R51) -/

/-- Each ill-formed term with the row of R51 that turns it away. -/
def illFormed : List (Instr × Cause) := [
  (.sld 1 1 7 0 0, .type), (.sst 1 1 8 0 0, .type), (.slda 1 1 2 0 0, .type), (.acmp 1 2 3 2, .field), (.brd 0 0 4 0, .field),
  (.brd 0 0 4 0xFFF, .field), (.samo 1 1 2 10 0 0, .opcode), (.samo 1 1 2 0 0 1, .field), (.qfence 0, .field), (.qwait 0 0, .field),
  (.vadd (lw 16 1 2 3 0 0), .type), (.vadd (lw 3 1 2 3 4 0), .field), (.vadd (lw 3 1 2 3 0 2), .field), (.vadd (lw 3 1 2 3 0 1), .field),
  (.vadd { lw 3 1 2 3 0 0 with ext := 1 }, .field), (.vadd { lw 3 1 2 3 0 0 with rnd := 1 }, .field),
  (.vmin { lw 3 1 2 3 0 0 with sat := 1 }, .field), (.vadd { lw 3 1 2 3 0 0 with la := 1 }, .field),
  (.vadd { lw 3 1 2 3 0 0 with gn := 1 }, .field), (.vadd (lw 4 1 2 4 0 0), .register), (.vmov (lw 11 2 4 0 0 0), .register),
  (.fadd { lw 16 1 2 3 0 0 with rnd := 5 }, .field), (.fadd (lw 9 1 2 3 0 0), .type), (.vcmp (lw 3 1 2 3 0 12), .field),
  (.vcmp (lw 3 8 2 3 0 0), .field), (.vmovs (lw 9 1 64 0 0 0), .field), (.vmovs (lw 10 2 16 0 0 1), .field),
  (.vredix (lw 3 63 2 0 0 0), .register), (.vvote (lw 0 1 2 0 0 6), .field), (.vvote (lw 0 1 2 0 0 4), .register),
  (.vred (lw 3 1 2 0 0 24), .field), (.vred (lw 9 1 2 0 0 0), .type), (.vshuf (lw 9 1 2 3 4 0), .field),
  (.vld { lw 9 1 0 3 0 0 with ext := 0x10000000 }, .register), (.vld { lw 9 1 0 255 0 0 with ext := 0x18000000 }, .field),
  (.vst (lw 12 0 0 2 1 0), .type), (.vsync (lw 0 0 2 0 0 0), .register), (.cvt (lw 3 1 2 0 0 3), .type), (.cvt (lw 13 1 2 3 0 12), .type),
  (.rwaitFree (lw 0 1 2 255 0 0), .field), (.rinit (lw 0 0 2 0 0 0), .field), (.mxzero (lw 0 8 0 0 0 0), .field),
  (.mxacc { lw 18 1 2 255 0 0 with g := 1 }, .field), (.mxdrain (lw 16 3 1 255 0 1), .field), (.mxdrain (lw 18 32 1 255 0 1), .field),
  (.pget { lw 0 2 1 0 0 0 with g := 1 }, .field), (.pget (lw 0 3 1 0 0 0), .register)]

theorem test_ill_formed : illFormed.all (fun x => !x.1.wf && x.1.illegal == some x.2) = true := by decide +kernel

/-! ## Results the spec works out -/

/-- R237's example: cvt.i32.f32.rz of -2.7 and of 3.0e9. -/
theorem test_convert_example : convert 3 16 1 false false 0xC02CCCCD = (0xFFFFFFFE, Float.NX)
    ∧ convert 3 16 1 false false 0x4F32D05E = (0x7FFFFFFF, Float.NV) := by decide +kernel

/-- The example of R240 to R247: lane 5 is dead, p1 is clear in lanes 100 to 119. -/
def ties : State :=
  (State.reset.placeWord 96 0).modW (fun w => { w with
    dead := 32, p := [(1, 0xFF00000FFFFFFFFFFFFFFFFFFFFFFFFF)]
    v := [(0, 0xFFFFFFFF), (4, 0xFFFFFFFF), (99, 0xFFFFFFFF), (127, 0xFFFFFFFF)]
      ++ ((List.range 128).map (fun l => (20 * 128 + l, if l = 5 then 1 else if l = 37 ∨ l = 64 then 3 else if l = 110 then 0 else 9))).filter
        (fun x => x.2 ≠ (0 : Word)) })

theorem test_tie_example : (ties.doRedix { lw 7 4 20 0 0 0 with g := 1, ext := 0xFFFFFFFF }).sReg 4 = 3
    ∧ (ties.doRedix { lw 7 4 20 0 0 0 with g := 1, ext := 0xFFFFFFFF }).sReg 5 = 37 := by decide +kernel

/-- And its shuffle: vshuf.down.b32 v21, v20, 1, v0, p3 under p1. -/
def shuffled : Warp := (ties.doShuf { lw 9 21 20 0 0 7 with g := 1, ext := 0x17B }).cw
theorem test_shuffle_example : [4, 99, 127].map (fun l => (shuffled.vReg 21 l, bitB (shuffled.pred 3) l, bitB (shuffled.predDs 3) l))
      = [(0xFFFFFFFF, false, true), (0xFFFFFFFF, false, false), (0xFFFFFFFF, false, false)]
    ∧ shuffled.vReg 21 5 = 0 ∧ shuffled.predDs 3 = 16 ∧ shuffled.vReg 21 36 = 3 ∧ shuffled.pred 3 = 0x7F000007FFFFFFFFFFFFFFFFFFFFFFCF := by
  decide +kernel

/-- The walk of R10's worked example. -/
def tables : State :=
  State.reset.modMem (fun m =>
    let b : Cells 8 := [(0x200008, 0x8000000000210000), (0x210010, 0x8000000000220000), (0x220018, 0x8000000000230000),
      (0x230020, 0x8000000000240000), (0x240028, 0xC300000123400000)].foldl
        (fun (b : Cells 8) (e : Nat × Nat) => b.writeN e.1 (bytesOf 8 e.2)) m.bytes
    { m with bytes := b })

theorem test_walk_example : (match (walkFrom tables [] 1 0x1001000C0080050678 5 0x200000).1 with
    | .leaf _ e _ => pteBase e + 0x678 | _ => 0) = 0x123400678 := by decide +kernel

/-- The DX8 block of R255's example, and the dithered element. -/
def dxBlock (mode phase : Nat) : Nat × Nat × List Tensor.Elem :=
  Tensor.convertDx true mode phase ([some ⟨false, 3, 1⟩, some ⟨true, 3, 4⟩, some ⟨false, 1, 10⟩] ++ List.replicate 29 (some ⟨false, 0, 1⟩))
def dxBytes (b : Nat × Nat × List Tensor.Elem) : List Nat := [b.1, b.2.1] ++ (b.2.2.take 4).map (Tensor.Elem.code true)

theorem test_dx8_example : dxBytes (dxBlock 0 0) = [0x80, 0x7C, 0x30, 0x4C, 0x9A, 0x00] ∧ dxBytes (dxBlock 1 0) = [0x80, 0x7C, 0x30, 0x4C, 0x99, 0x00]
    ∧ dxBytes (dxBlock 2 7) = [0x80, 0x7C, 0x30, 0x4C, 0x9A, 0x00] := by decide +kernel

/-- The draws of R319's example and the chunks of R324's. -/
theorem test_draws_example : lotteryNext 1 = 0x40822041 ∧ (lotteryNext 1).toNat % 12 = 9 ∧ lotteryNext 0x40822041 = 0x100041060C011441
    ∧ (lotteryNext 0x40822041).toNat % 12 = 5 := by decide +kernel
theorem test_chunks_example : chunkSize 1000 4 100 = 5 ∧ chunkSize 60 4 50 = 4 ∧ chunkSize 3 4 50 = 3 := by decide

/-- MODSTAT's example (R377). -/
theorem test_modstat_example : { State.reset with plat := { stage := 2, dieup := 0xFF, linkup := 0xFFFFFFFF } }.modstat = 0x8000FF00FFFFFFFF := by decide

def nextOf (o : Out) : Option State := match o with | .next s => some s | _ => none

/-- The BRD of 09's example splits: its word is the spec's, side T holds lanes 0 to 63. -/
def split64 : State := (State.reset.placeWord 32 0x48C02006).modW (fun w => { w with p := [(1, 0xFFFFFFFFFFFFFFFF)] })
theorem test_split_example : ((nextOf (step split64)).map (fun s => (s.cw.slot0.map (fun p => (p.mask, p.pc)), s.cw.slot1.map (fun p => (p.mask, p.pc)))))
    = some (some (0xFFFFFFFFFFFFFFFF0000000000000000, 0x10004), some (0xFFFFFFFFFFFFFFFF, 0x10010)) := by decide +kernel

theorem test_no_lane_ready : lanesAt ln [.vredix { lw 3 62 2 0 0 1 with g := 1 }, .vvote { lw 0 62 2 0 0 4 with g := 1 },
      .vred { lw 3 1 2 0 0 4 with g := 1 }, .vget { lw 9 1 2 0 0 0 with g := 1, ext := 128 }] = true
    ∧ ln.actLanes { lw 3 62 2 0 0 1 with g := 1 } = [] := by decide +kernel

end Sys2Proof.Tests
end

/-! PROOFS of the statements of the address spaces. First, what a translation leaves changed: the translations held, the
draw, and the A bit of the leaf its walk read (R11, R17). -/

namespace Sys2Proof

/-- A byte of a number written lowest address first (R30). -/
theorem getD_bytesOf (n : Nat) : ∀ x i : Nat, i < n → (bytesOf n x).getD i 0 = BitVec.ofNat 8 (x / 256 ^ i) := by
  induction n with
  | zero => intro x i h; omega
  | succ n ih =>
    intro x i h
    cases i with
    | zero => simp [bytesOf]
    | succ i =>
      have hi := ih (x / 256) i (by omega)
      simp only [bytesOf, List.getD_cons_succ, hi, Nat.div_div_eq_div_mul, pow_succ, Nat.mul_comm]

/-- Setting a bit that is clear adds its weight. -/
theorem toNat_putBit_clear {w k : Nat} (e : BitVec w) (hk : k < w) (h : bitB e k = false) :
    (putBit e k true).toNat = e.toNat + 2 ^ k := by
  have hand : e &&& BitVec.twoPow w k = 0#w := by
    rw [BitVec.and_twoPow, show e.getLsbD k = false from h]; rfl
  have hone : BitVec.ofNat w ((2 ^ (k + 1 - k) - 1) <<< k) = BitVec.twoPow w k := by
    apply BitVec.eq_of_toNat_eq
    simp only [Nat.add_sub_cancel_left, BitVec.toNat_ofNat, BitVec.toNat_twoPow, pow_one, Nat.reduceSub, Nat.one_shiftLeft]
  have hput : putBit e k true = e ||| BitVec.twoPow w k := by
    unfold putBit putBits
    simp only [if_true, Nat.add_sub_cancel_left, pow_one, Nat.reduceMod, Nat.reduceSub] at hone ⊢
    rw [hone]
    apply BitVec.eq_of_getLsbD_eq
    intro i hi
    cases he : e.getLsbD i <;> cases ht : (BitVec.twoPow w k).getLsbD i <;> simp_all
  rw [hput, ← BitVec.add_eq_or_of_and_eq_zero _ _ hand, BitVec.toNat_add, BitVec.toNat_twoPow_of_lt hk]
  refine Nat.mod_eq_of_lt ?_
  have := BitVec.toNat_add_of_and_eq_zero hand
  rw [BitVec.toNat_twoPow_of_lt hk] at this
  omega

end Sys2Proof

namespace Sys2Proof.Machine

/-! ## A translation -/

/-- A number written lowest address first, as storedAt says it. -/
theorem get_writeN_bytesOf (m : Cells 8) (a n x : Nat) : Cells.get (m.writeN a (bytesOf n x)) = storedAt m.get a n x := by
  funext k
  rw [Cells.get_writeN, length_bytesOf]
  unfold storedAt
  by_cases h : a ≤ k ∧ k < a + n
  · rw [if_pos h, if_pos h, getD_bytesOf n x (k - a) (by omega)]
  · rw [if_neg h, if_neg h]

/-- Everything a translation may change: the bytes of memory, the translations held and the draw. -/
structure HeldOnly (s t : State) : Prop where
  cores : ∀ c, t.core c = { s.core c with tlb := (t.core c).tlb }
  rest : t = { s with
    mem := { s.mem with bytes := t.mem.bytes }, cores := t.cores, l2 := t.l2, hubTlb := t.hubTlb
    pointers := t.pointers, freeCtr := t.freeCtr }

theorem HeldOnly.refl (s : State) : HeldOnly s s := ⟨fun _ => rfl, rfl⟩

theorem HeldOnly.trans {s t u : State} (h1 : HeldOnly s t) (h2 : HeldOnly t u) : HeldOnly s u :=
  ⟨fun c => by rw [h2.cores c, h1.cores c], by rw [h2.rest, h1.rest]⟩

theorem core_modCore (s : State) (c d : Nat) (f : Core → Core) :
    (s.modCore c f).core d = if d = c then f (s.core c) else s.core d := by
  simp [State.core, State.modCore, Tab.getD_put]

theorem heldOnly_install (s : State) (core : Option Nat) (x : TlbEntry) (va : Nat) (walked : Bool) :
    HeldOnly s (install s core x va walked) := by
  cases core with
  | none => exact ⟨fun _ => rfl, rfl⟩
  | some k =>
    have hcore : ∀ c, (s.draw.2.modCore k (fun y => { y with tlb := capped 128 s.draw.1 y.tlb x })).core c
        = { s.core c with tlb := ((s.draw.2.modCore k (fun y => { y with tlb := capped 128 s.draw.1 y.tlb x })).core c).tlb } := by
      intro c
      rw [core_modCore]
      split
      · subst c; rfl
      · rfl
    cases walked with
    | false => exact ⟨hcore, rfl⟩
    | true => exact ⟨hcore, rfl⟩

theorem heldOnly_keepPointers (s : State) (core : Option Nat) (ps : List Pointer) : HeldOnly s (s.keepPointers core ps) :=
  ⟨fun _ => rfl, rfl⟩

theorem heldOnly_setA1 (s : State) (at_ : Nat) (e : DWord) : HeldOnly s (setA1 s at_ e) := ⟨fun _ => rfl, rfl⟩

/-- The state a translation leaves: nothing changed, a translation held elsewhere was installed, or a walk kept pointers, and
where its leaf passed the tests, installed it and set its A bit. -/
theorem translate_state (s : State) (a : Agent) (va : Nat) (want : Want) :
    let t := (translate s a va want).1
    let xd := (s.ctx a.ctx).xdesc
    t = s ∨ (∃ x, t = install s a.core x va false)
      ∨ ∃ ps, t = s.keepPointers a.core ps ∨ ∃ x, t = install (s.keepPointers a.core ps) a.core x va true
        ∨ ∃ lvl e at_, t = setA1 (install (s.keepPointers a.core ps) a.core x va true) at_ e ∧ bitB e 53 = false
          ∧ (walkRoot s (s.pointersOf a.core) (xdSpace xd) va (xdRoot xd)).1 = .leaf lvl e at_ := by
  unfold translate
  split
  · exact .inl rfl
  · split
    · split <;> exact .inl rfl
    · dsimp only
      split
      · split
        · exact .inl rfl
        · split
          · exact .inl rfl
          · exact .inr (.inl ⟨_, rfl⟩)
      · refine .inr (.inr ⟨(walkRoot s (s.pointersOf a.core) (xdSpace (s.ctx a.ctx).xdesc) va
          (xdRoot (s.ctx a.ctx).xdesc)).2, ?_⟩)
        split
        · exact .inl rfl
        · exact .inl rfl
        · rename_i lvl e at_ hleaf
          split
          · exact .inl rfl
          · dsimp only
            refine .inr ⟨{
              space := xdSpace (s.ctx a.ctx).xdesc, vpn := if decide (lvl = 3) then va / 2 ^ 29 else va / 65536
              big := decide (lvl = 3), leaf := e }, ?_⟩
            split
            · rename_i hA
              simp only [Bool.and_eq_true, Bool.not_eq_true'] at hA
              exact .inr ⟨lvl, e, at_, rfl, hA.2, hleaf⟩
            · exact .inl rfl

theorem translate_heldOnly (s : State) (a : Agent) (va : Nat) (want : Want) : HeldOnly s (translate s a va want).1 := by
  rcases translate_state s a va want with h | ⟨x, h⟩ | ⟨ps, h | ⟨x, h | ⟨lvl, e, at_, h, -, -⟩⟩⟩ <;> rw [h]
  · exact HeldOnly.refl s
  · exact heldOnly_install ..
  · exact heldOnly_keepPointers ..
  · exact (heldOnly_keepPointers ..).trans (heldOnly_install ..)
  · exact ((heldOnly_keepPointers ..).trans (heldOnly_install ..)).trans (heldOnly_setA1 ..)

theorem setA1_byte (s : State) (at_ : Nat) (e : DWord) (h : bitB e 53 = false) :
    (setA1 s at_ e).byte = storedAt s.byte at_ 8 (e.toNat + 2 ^ 53) := by
  rw [← toNat_putBit_clear e (by decide) h]
  exact get_writeN_bytesOf ..

/-- Settles O24: by the cases of translate_state, all of which leave HeldOnly, and only the last of which writes memory. -/
theorem translationFrame : Obligations.TranslationFrame := by
  unfold Obligations.TranslationFrame
  intro s a va want
  refine ⟨?_, (translate_heldOnly s a va want).cores, (translate_heldOnly s a va want).rest⟩
  rcases translate_state s a va want with h | ⟨x, h⟩ | ⟨ps, h | ⟨x, h | ⟨lvl, e, at_, h, hA, hleaf⟩⟩⟩ <;> rw [h]
  · exact .inl rfl
  · exact .inl (by rw [install_mem])
  · exact .inl rfl
  · exact .inl (by rw [install_mem]; rfl)
  · refine .inr ⟨lvl, e, at_, hleaf, hA, ?_⟩
    rw [setA1_byte _ _ _ hA]
    unfold State.byte
    rw [install_mem]
    rfl

end Sys2Proof.Machine

namespace Sys2Proof.Machine

/-! ## Faults of scalar forms -/

/-- A form of a warp that is no control form does its body in the state it finds. -/
theorem scalarForm_of_warpReady {i : Instr} {s : State} (body : State → State) (hi : isControl i = false) (h : warpReady i s) :
    scalarForm i s body = .next (body s) := by
  obtain ⟨hq, hr, -⟩ := h
  rw [scalarForm_ready body hq hr, State.gated, if_neg (by simp [hi])]

theorem State.performed_quiet {s : State} (h : s.quiet = true) : s.performed = true := by
  simp [State.performed, State.quiet_windows h]

/-- A sum outside the address space is the fault "wrap" of a warp (R207). -/
theorem State.addA_wrap {s : State} {a : BitVec 4} {x : Int} (d : BitVec 4) (hpu : s.inPu = false)
    (h : ((s.aReg a).toNat : Int) + x < 0 ∨ 2 ^ 72 ≤ ((s.aReg a).toNat : Int) + x) : s.addA d a x = s.scalarFault 2 1 0 0 := by
  simp only [State.addA, Nat.cast_pow, Nat.cast_ofNat, if_pos h, State.pathFaultOr, hpu, if_false, Bool.false_eq_true]

theorem aadd_wrap {d a : BitVec 4} {b : BitVec 6} {s : State} (hr : warpReady (.aadd d a b) s)
    (h : ((s.aReg a).toNat : Int) + (s.sReg b).toInt < 0 ∨ 2 ^ 72 ≤ ((s.aReg a).toNat : Int) + (s.sReg b).toInt) :
    exec (.aadd d a b) s = .next (s.scalarFault 2 1 0 0) := by
  show execAadd d a b s = _
  rw [execAadd, scalarForm_of_warpReady _ rfl hr, State.addA_wrap d hr.2.2 h]

theorem aaddi_wrap {d a : BitVec 4} {i : BitVec 14} {s : State} (hr : warpReady (.aaddi d a i) s)
    (h : ((s.aReg a).toNat : Int) + i.toInt < 0 ∨ 2 ^ 72 ≤ ((s.aReg a).toNat : Int) + i.toInt) :
    exec (.aaddi d a i) s = .next (s.scalarFault 2 1 0 0) := by
  show execAaddi d a i s = _
  rw [execAaddi, scalarForm_of_warpReady _ rfl hr, State.addA_wrap d hr.2.2 h]

/-! ### Scalar accesses (R22, R145, R146) -/

theorem earlyFault_eq (n : Nat) (ea : Int) : earlyFault n ea = earlyCause n ea := by
  unfold earlyFault earlyCause
  push_cast
  split
  · rfl
  · rename_i hin
    split
    · rfl
    · refine if_congr ?_ rfl rfl
      omega

theorem earlyCause_none_range {n : Nat} {ea : Int} (h : earlyCause n ea = none) : 0 ≤ ea ∧ ea < 2 ^ 72 := by
  unfold earlyCause at h
  split at h
  · simp at h
  · omega

/-- An address that passes the tests is its own 72-bit form. -/
theorem toNat_ofInt_of_range {ea : Int} (h : 0 ≤ ea ∧ ea < 2 ^ 72) : (BitVec.ofInt 72 ea).toNat = ea.toNat := by
  rw [BitVec.toNat_ofInt, Int.emod_eq_of_lt h.1 (by simpa using h.2)]

/-- A scalar form whose effect is an access at an address fails as AccessFaults says. -/
theorem accessFaults_of_atScalar {i : Instr} {n : Nat} {want : Want} {ea : State → Int} {rd wr : Bool}
    {body : State → State → VAddr → Nat → State}
    (he : ∀ s, warpReady i s → exec i s = .next (s.atScalar (ea s) n want rd wr (body s))) : AccessFaults i n want ea := by
  intro s hr
  rw [he s hr]
  unfold State.atScalar
  rw [earlyFault_eq]
  refine ⟨fun x hx => by simp only [hx], fun x s1 hnone htr => ?_⟩
  simp only [hnone, toNat_ofInt_of_range (earlyCause_none_range hnone), htr]

theorem sld_faults (d : BitVec 6) (r z l : BitVec 4) (i : BitVec 8) : AccessFaults (.sld d r z l i) (sizeBytes z.toNat) .read
    (fun s => ((s.aReg r).toNat : Int) + i.toInt * sizeBytes z.toNat) :=
  accessFaults_of_atScalar (fun _ hr => scalarForm_of_warpReady _ rfl hr)

theorem slda_faults (d r z l : BitVec 4) (i : BitVec 8) : AccessFaults (.slda d r z l i) (sizeBytes z.toNat) .read
    (fun s => ((s.aReg r).toNat : Int) + i.toInt * sizeBytes z.toNat) :=
  accessFaults_of_atScalar (fun _ hr => scalarForm_of_warpReady _ rfl hr)

theorem sst_faults (d : BitVec 6) (r z l : BitVec 4) (i : BitVec 8) : AccessFaults (.sst d r z l i) (sizeBytes z.toNat) .write
    (fun s => ((s.aReg r).toNat : Int) + i.toInt * sizeBytes z.toNat) :=
  accessFaults_of_atScalar
    (body := fun _ s va pa => s.scalarMemory (.sst d r z l i) l.toNat [] va pa (bytesOf (sizeBytes z.toNat) (s.sReg d).toNat))
    (fun _ hr => scalarForm_of_warpReady _ rfl hr)

theorem ssta_faults (d r l : BitVec 4) (i : BitVec 8) : AccessFaults (.ssta d r l i) 16 .write
    (fun s => ((s.aReg r).toNat : Int) + i.toInt * 16) :=
  accessFaults_of_atScalar
    (body := fun _ s va pa => s.scalarMemory (.ssta d r l i) l.toNat [] va pa (bytesOf 16 (s.aReg d).toNat))
    (fun _ hr => scalarForm_of_warpReady _ rfl hr)

theorem samo_faults (d : BitVec 6) (a : BitVec 4) (b : BitVec 6) (o : BitVec 4) (r sc : BitVec 2) :
    AccessFaults (.samo d a b o r sc) 8 .atomic (fun s => ((s.aReg a).toNat : Int)) := by
  refine accessFaults_of_atScalar (rd := false) (wr := true)
    (body := fun _ s va pa =>
      s.scalarMemory (.samo d a b o r sc) 0 [.s d.toNat] va pa (bytesOf 8 (s.sReg b).toNat ++ bytesOf 8 (s.sReg d).toNat))
    (fun s hr => ?_)
  show execSamo d a b o r sc s = _
  rw [execSamo, scalarForm_of_warpReady _ rfl hr]
  simp only [State.performed_quiet hr.1, Bool.not_true, Bool.and_false, Bool.false_eq_true, if_false]

/-! ### System registers (R37) -/

/-- A register the model reads is listed. -/
theorem sysValue_none {s : State} {n : Nat} (h : sysRead s n = none) : sysValue s n = none := by
  unfold sysRead at h
  dsimp only at h
  split at h
  case h_28 =>
    have hrecord : ¬(0x31 ≤ n ∧ n ≤ 0x38) := by
      rintro ⟨hlo, hhi⟩
      interval_cases n <;> contradiction
    simp_all [sysValue]
  all_goals cases hh : s.cp.handler <;> simp [hh] at h

theorem sysr_unlisted {d : BitVec 6} {n : BitVec 12} {s : State} (hr : warpReady (.sysr d n) s) (h : sysRead s n.toNat = none) :
    exec (.sysr d n) s = .next (s.scalarFault 0x11 7 0 0) := by
  show execSysr d n s = _
  rw [execSysr, scalarForm_of_warpReady _ rfl hr]
  simp only [hr.2.2, Bool.false_eq_true, if_false, sysValue_none h, State.illegalScalar]
  rfl

/-- A register of access P: sys.trap and the link registers (R37). -/
theorem sysPriv_of {n : BitVec 12} (h : n = 0x030 ∨ (0x100 ≤ n.toNat ∧ n.toNat ≤ 0x11F)) :
    sysPriv n.toNat = true ∧ sysWritable n.toNat = true ∧ ∀ s, sysValue s n.toNat ≠ none := by
  rcases h with rfl | hlink
  · exact ⟨rfl, rfl, fun s => by simp [sysValue]⟩
  · have hpriv : sysPriv n.toNat = true := by simp [sysPriv, hlink]
    refine ⟨hpriv, by simp [sysWritable, hpriv], fun s => ?_⟩
    unfold sysValue
    dsimp only
    repeat rw [if_neg (by omega)]
    rw [if_pos hlink]
    exact Option.some_ne_none _

theorem sysw_unlisted {r : BitVec 6} {n : BitVec 12} {s : State} (hr : warpReady (.sysw r n) s)
    (hn : n.toNat ∉ [0x012, 0x013, 0x030, 0x039]) (hlink : n.toNat < 0x100 ∨ 0x11F < n.toNat) :
    exec (.sysw r n) s = .next (s.scalarFault 0x11 7 0 0) := by
  have hw : sysWritable n.toNat = false := by
    simp only [List.mem_cons, List.not_mem_nil, or_false, not_or] at hn
    simp only [sysWritable, sysPriv, Bool.or_eq_false_iff, beq_eq_false_iff_ne, decide_eq_false_iff_not]
    omega
  show execSysw r n s = _
  rw [execSysw, scalarForm_of_warpReady _ rfl hr]
  simp only [hw, Bool.not_false, if_true, State.illegalScalar, hr.2.2, Bool.false_eq_true, if_false]
  rfl

theorem sysr_privilege {d : BitVec 6} {n : BitVec 12} {s : State} (hr : warpReady (.sysr d n) s) (hp : s.cw.priv = false)
    (hn : n = 0x030 ∨ (0x100 ≤ n.toNat ∧ n.toNat ≤ 0x11F)) : exec (.sysr d n) s = .next (s.scalarFault 2 4 0 0) := by
  obtain ⟨hpriv, -, hval⟩ := sysPriv_of hn
  obtain ⟨x, hx⟩ := Option.ne_none_iff_exists'.mp (hval s)
  show execSysr d n s = _
  rw [execSysr, scalarForm_of_warpReady _ rfl hr]
  simp only [hr.2.2, Bool.false_eq_true, if_false, hx, hpriv, hp, Bool.not_false, Bool.and_self, if_true]

theorem sysw_privilege {r : BitVec 6} {n : BitVec 12} {s : State} (hr : warpReady (.sysw r n) s) (hp : s.cw.priv = false)
    (hn : n = 0x030 ∨ (0x100 ≤ n.toNat ∧ n.toNat ≤ 0x11F)) : exec (.sysw r n) s = .next (s.scalarFault 2 4 0 0) := by
  obtain ⟨hpriv, hw, -⟩ := sysPriv_of hn
  show execSysw r n s = _
  rw [execSysw, scalarForm_of_warpReady _ rfl hr]
  simp only [hw, hpriv, hp, Bool.not_true, Bool.not_false, Bool.and_self, Bool.false_eq_true, if_false, if_true]

end Sys2Proof.Machine

namespace Sys2Proof.Tab

/-- Keys of a table rise, as every table the model makes from an empty one has them. -/
def Rising {α : Type} (m : Tab α) : Prop := m.Pairwise (fun x y => x.1 < y.1)

theorem erase_eq_self {α : Type} {m : Tab α} {k : Nat} (h : ∀ e ∈ m, k < e.1) : m.erase k = m :=
  List.filter_eq_self.mpr (fun e he => by simpa using Nat.ne_of_gt (h e he))

theorem ins_eq_cons {α : Type} {m : Tab α} {k : Nat} {x : α} (h : ∀ e ∈ m, k < e.1) : Tab.ins m k x = (k, x) :: m := by
  cases m with
  | nil => rfl
  | cons e r => simp [Tab.ins, h e]

theorem mem_of_find {α : Type} {m : Tab α} {k : Nat} {x : α} (h : m.find k = some x) : (k, x) ∈ m := by
  induction m with
  | nil => simp at h
  | cons e r ih =>
    obtain ⟨j, y⟩ := e
    simp only [find] at h
    split at h
    · rename_i hj
      simp_all
    · exact List.mem_cons_of_mem _ (ih h)

/-- Putting back what a table holds changes nothing. -/
theorem put_find_self {α : Type} {m : Tab α} {k : Nat} {x : α} (hr : Rising m) (h : m.find k = some x) : m.put k x = m := by
  induction m with
  | nil => simp at h
  | cons e r ih =>
    obtain ⟨j, y⟩ := e
    obtain ⟨hhead, htail⟩ := List.pairwise_cons.mp hr
    by_cases hj : j = k
    · subst hj
      obtain rfl : y = x := by simpa [find] using h
      unfold put
      rw [show erase ((j, y) :: r) j = r from
        (List.filter_cons_of_neg (by simp)).trans (erase_eq_self hhead), ins_eq_cons hhead]
    · have hfind : find r k = some x := by simpa [find, hj] using h
      have hlt : j < k := hhead _ (mem_of_find hfind)
      unfold put at ih ⊢
      rw [show erase ((j, y) :: r) k = (j, y) :: erase r k from List.filter_cons_of_pos (by simpa using hj)]
      rw [Tab.ins, if_neg (by omega), ih htail hfind]

end Sys2Proof.Tab

namespace Sys2Proof.Machine

theorem Warp.setSlot_slot {w : Warp} {k : Nat} {p : Path} (h : w.slot k = some p) : w.setSlot k (some p) = w := by
  unfold Warp.setSlot
  unfold Warp.slot at h
  split
  · rw [if_pos ‹_›] at h
    rw [← h]
  · split
    · rw [if_neg ‹_›, if_pos ‹_›] at h
      rw [← h]
    · rename_i h0 h1
      simp only [h0, h1, if_false] at h
      obtain ⟨e, he, rfl⟩ := Option.map_eq_some_iff.mp h
      have hstack : w.stack.modify (k - 2) (fun x => { x with path := e.path }) = w.stack := by
        apply List.ext_getElem?
        intro n
        rw [List.getElem?_modify]
        split
        · rename_i hn
          subst hn
          simp [he]
        · simp
      simp only [hstack]

/-- An update of the issuing path that leaves it as it is changes nothing, where the warps stand in the order of their keys. -/
theorem State.modP_self {s : State} {f : Path → Path} (hr : Tab.Rising s.warps) (hp : s.path?.isSome = true) (hf : f s.cp = s.cp) :
    s.modP f = s := by
  obtain ⟨p, hp⟩ := Option.isSome_iff_exists.mp hp
  obtain ⟨w, hw, hs⟩ := State.path?_some hp
  rw [State.cp_of hp] at hf
  unfold State.modP State.modPathAt State.modWarp
  simp only [hw, hs, Option.map_some, hf, Warp.setSlot_slot hs, State.putWarp, Tab.put_find_self hr hw]

theorem popRun_nil {p : Path} (h : p.queue = []) : popRun p = p := by
  simp [popRun, h]

theorem State.closeScalar_self {s : State} (hr : Tab.Rising s.warps) (hp : s.path?.isSome = true) (hw : s.cp.windows = [])
    (hq : s.cp.queue = []) : s.closeScalar = s := by
  have hend : endWindows false s.cp.windows = s.cp.windows := by rw [hw]; rfl
  rw [State.closeScalar_quiet hp hw, State.modP_self hr hp (by rw [hend]), State.modP_self hr hp (popRun_nil hq)]

/-- A BRD with no record or no entry of the stack free takes "path stack" (R176). -/
theorem State.diverge_full {s : State} (n : Nat) (sense : Bool) (taken join : VAddr)
    (h : s.cw.jrecs.freeKey 0 12 = none ∨ s.cw.stackFree = 0) : s.diverge n sense taken join = s.scalarFault 0x10 1 0 0 := by
  unfold State.diverge
  dsimp only
  cases hk : s.cw.jrecs.freeKey 0 12 with
  | none => rfl
  | some k =>
    have hfree : s.cw.stackFree = 0 := h.resolve_left (by simp [hk])
    exact if_pos (by rw [hfree]; split <;> omega)

theorem brd_pathStack {p : BitVec 3} {sn : BitVec 1} {tf jo : BitVec 11} {s : State} (hwarps : Tab.Rising s.warps)
    (hr : warpReady (.brd p sn tf jo) s) (hq : s.cp.queue = []) (h : s.cw.jrecs.freeKey 0 12 = none ∨ s.cw.stackFree = 0) :
    exec (.brd p sn tf jo) s = .next (s.scalarFault 0x10 1 0 0) := by
  obtain ⟨hquiet, hready, -⟩ := hr
  have hself : s.gated (.brd p sn tf jo) = s :=
    State.closeScalar_self hwarps (scalarReady_path hready) (State.quiet_windows hquiet) hq
  show execBrd p sn tf jo s = _
  rw [execBrd, scalarForm_ready _ hquiet hready, hself, afterRuns, State.runsDone, hq, List.isEmpty_nil, if_pos rfl,
    State.diverge_full _ _ _ _ h]

end Sys2Proof.Machine

namespace Sys2Proof.Machine

/-! ## Faults of every live lane of a word -/

/-- The least of a list of numbers below a bound is one of them. -/
theorem foldl_min_spec {l : List Nat} {a : Nat} (hne : l ≠ []) (ha : ∀ x ∈ l, x ≤ a) :
    l.foldl min a ∈ l ∧ ∀ x ∈ l, l.foldl min a ≤ x := by
  obtain ⟨hmem, hle⟩ := List.min?_eq_some_iff.mp (List.min?_cons' (x := a) (xs := l))
  have hall : ∀ x ∈ l, l.foldl min a ≤ x := fun x hx => hle x (List.mem_cons_of_mem _ hx)
  refine ⟨?_, hall⟩
  rcases List.mem_cons.mp hmem with heq | hmem
  · obtain ⟨y, hy⟩ := List.exists_mem_of_ne_nil l hne
    have hya : y = a := Nat.le_antisymm (ha y hy) (heq ▸ hall y hy)
    rwa [heq, ← hya]
  · exact hmem

theorem maskOf_lanesOf (m : Mask) : maskOf (lanesOf m) = m := by
  apply BitVec.eq_of_getLsbD_eq
  intro l hl
  have h := bitB_maskOf (lanesOf m) l hl
  rw [show (maskOf (lanesOf m)).getLsbD l = bitB (maskOf (lanesOf m)) l from rfl, h, Bool.eq_iff_iff]
  simp [mem_lanesOf, hl, bitB]

theorem lanesOf_ne_nil {m : Mask} : lanesOf m ≠ [] ↔ m ≠ 0 := by
  rw [not_iff_not]
  refine ⟨fun h => by rw [← maskOf_lanesOf m, h]; rfl, fun h => by subst h; rfl⟩

/-- A group of every live lane leaves nothing of the path: it is its fault. -/
theorem State.splitGo_whole {s : State} {g : Split} {gs : List Split} (rest : State → State) (hp : s.path?.isSome = true)
    (hg : g.lanes = s.cp.liveMask s.cw) (hne : g.lanes ≠ 0) (hw : g.waits = []) (hgs : ∀ h ∈ gs, h.lanes = 0) :
    s.splitGo (g :: gs) rest = s.wholeFault g.rcd g.page := by
  obtain ⟨p, hp⟩ := Option.isSome_iff_exists.mp hp
  have hfilter : (g :: gs).filter (fun g => g.lanes ≠ 0) = [g] := by
    rw [List.filter_cons_of_pos (by simpa using hne), List.filter_eq_nil_iff.mpr (by simpa using hgs)]
  have hours : s.stillOurs s.cp.mask = true := by
    simp [State.stillOurs, hp, State.cp_of hp]
  have hnone : s.cp.liveMask s.cw &&& ~~~splitLanes [g] = 0 := by
    simp [splitLanes, hg]
  simp only [State.splitGo, hfilter, List.isEmpty_cons, Bool.false_eq_true, if_false, hnone, if_true, State.raiseGroups, hours,
    State.wholeFault, hg, hw]

/-! ### Arithmetic (R228, R342) -/

theorem arithCause_eq : ∀ e : Float.Flags, arithCause e = trapCode e := by decide

theorem trapCode_le (e : Float.Flags) : trapCode e ≤ 5 := by
  unfold trapCode
  split_ifs <;> decide

theorem trapsAll_of_floatForm {i : Instr} {f : LaneWord} {n : Nat} {g : Warp → Nat → Nat × Float.Flags}
    {x : State → Nat → Nat × Float.Flags} (he : ∀ s, exec i s = floatForm i f n g s) (hv : ∀ f, i ≠ .vsync f)
    (hg : ∀ s l, g s.cw l = x s l) : TrapsAll i f x := by
  intro s hq hr hne hact htr
  set code := fun l => trapCode ((x s l).2 &&& s.run.traps) with hcode
  have hleast := foldl_min_spec (l := (s.actLanes f).map code) (a := 5) (by simpa using hne)
    (by simp [hcode, trapCode_le])
  set c := ((s.actLanes f).map code).foldl min 5 with hc
  refine ⟨c, by simpa using hleast.1, by simpa using hleast.2, ?_⟩
  have hbad : ((s.actLanes f).map (fun l => (l, g s.cw l))).filter (fun y => y.2.2 &&& s.run.traps ≠ 0)
      = (s.actLanes f).map (fun l => (l, x s l)) := by
    simp only [hg]
    rw [List.filter_eq_self]
    simpa using htr
  have hlanes : (arithSplit s ((s.actLanes f).map (fun l => (l, x s l)))).lanes = activeMask s.cw s.cp f := by
    simp [arithSplit, Function.comp_def, State.actLanes, maskOf_lanesOf]
  rw [he, floatForm, laneForm_ready _ hv hq hr, State.finishFloat]
  dsimp only
  rw [hbad, State.splitThen, State.splitGo_whole _ (laneReady_path hr) (hlanes.trans hact) (by rw [hlanes]; exact lanesOf_ne_nil.mp hne) rfl
    (by simp)]
  simp [arithSplit, Function.comp_def, arithCause_eq, hc, hcode, List.filter_map]

theorem trapsAll_of_fltForm {i : Instr} {f : LaneWord} {op : Nat → Nat → Nat → Nat × Float.Flags}
    (he : ∀ s, exec i s = fltForm i f op s) (hv : ∀ f, i ≠ .vsync f) : TrapsAll i f (floatOf f op) :=
  trapsAll_of_floatForm he hv (fun _ _ => rfl)

/-! ### Addresses (R22) -/

/-- Causes a test of an address can give, in R22's order (log 147). -/
def addressCauses : List XFault := [(1, 1), (2, 1), (2, 5), (2, 2), (2, 3), (2, 4), (1, 2), (1, 3)]

theorem xPriority_eq : ∀ x ∈ addressCauses, xPriority x = causeRank x := by decide

theorem causeRank_inj : ∀ x ∈ addressCauses, ∀ y ∈ addressCauses, causeRank x = causeRank y → x = y := by decide

theorem causeRank_le (x : XFault) : causeRank x ≤ 8 := List.idxOf_le_length

theorem earlyFault_mem {n : Nat} {ea : Int} {x : XFault} (h : earlyFault n ea = some x) : x ∈ addressCauses := by
  unfold earlyFault at h
  split_ifs at h <;> obtain rfl := Option.some.inj h <;> decide

theorem leafFault_mem {want : Want} {priv : Bool} {e : DWord} {x : XFault} (h : leafFault want priv e = some x) :
    x ∈ addressCauses := by
  unfold leafFault at h
  dsimp only at h
  split_ifs at h <;> obtain rfl := Option.some.inj h <;> decide

theorem extFault_mem {want : Want} {e : BitVec 128} {x : XFault} (h : extFault want e = some x) : x ∈ addressCauses := by
  unfold extFault at h
  dsimp only at h
  split_ifs at h
  obtain rfl := Option.some.inj h
  decide

/-- A translation fails with one of the causes R22 orders. -/
theorem translate_error_mem {s t : State} {a : Agent} {va : Nat} {want : Want} {x : XFault}
    (h : translate s a va want = (t, .error x)) : x ∈ addressCauses := by
  have herr := congrArg Prod.snd h
  unfold translate at herr
  dsimp only at herr
  split at herr
  · obtain rfl := Except.error.inj herr; decide
  · split at herr
    · split at herr
      · rename_i hx; obtain rfl := Except.error.inj herr; exact extFault_mem hx
      · cases herr
    · split at herr
      · split at herr
        · rename_i hx; obtain rfl := Except.error.inj herr; exact leafFault_mem hx
        · cases herr
      · split at herr
        · obtain rfl := Except.error.inj herr; decide
        · obtain rfl := Except.error.inj herr; decide
        · split at herr
          · rename_i hx; obtain rfl := Except.error.inj herr; exact leafFault_mem hx
          · cases herr

/-- What a failing lane records: its address, a cause of R22's, and the early test's where that one fails. -/
def LaneFails (n : Nat) (x : Nat × Int) (b : LaneBad) : Prop :=
  b.lane = x.1 ∧ b.ea = BitVec.ofInt 72 x.2 ∧ b.why ∈ addressCauses ∧ ∀ y, earlyCause n x.2 = some y → b.why = y

/-- Where no lane passes, each fails as LaneFails says, and the state changes by translations alone. -/
theorem xlateLanes_allBad {a : Agent} {n : Nat} {want : Want} : ∀ {xs : List (Nat × Int)} {s t : State} {bs : List LaneBad},
    s.xlateLanes a n want xs = (t, [], bs) → HeldOnly s t ∧ List.Forall₂ (LaneFails n) xs bs
  | [], s, t, bs, h => by
    obtain ⟨rfl, rfl⟩ : s = t ∧ bs = [] := by simpa [State.xlateLanes] using h
    exact ⟨HeldOnly.refl s, .nil⟩
  | (l, ea) :: r, s, t, bs, h => by
    unfold State.xlateLanes at h
    dsimp only at h
    split at h
    · rename_i x hx
      simp only [Prod.mk.injEq] at h
      obtain ⟨ht, hnil, rfl⟩ := h
      obtain ⟨hheld, hrest⟩ := xlateLanes_allBad (Prod.ext ht (Prod.ext hnil rfl))
      refine ⟨hheld, .cons ⟨rfl, rfl, earlyFault_mem hx, fun y hy => ?_⟩ hrest⟩
      rw [← earlyFault_eq, hx] at hy
      exact Option.some.inj hy
    · rename_i hx
      split at h
      · rename_i s1 x htr
        simp only [Prod.mk.injEq] at h
        obtain ⟨ht, hnil, rfl⟩ := h
        obtain ⟨hheld, hrest⟩ := xlateLanes_allBad (Prod.ext ht (Prod.ext hnil rfl))
        have hstep : HeldOnly s s1 := by simpa only [htr] using translate_heldOnly s a (BitVec.ofInt 72 ea).toNat want
        refine ⟨hstep.trans hheld, .cons ⟨rfl, rfl, translate_error_mem htr, fun y hy => ?_⟩ hrest⟩
        rw [← earlyFault_eq, hx] at hy
        cases hy
      · simp at h

theorem LaneFails.lanes {n : Nat} {xs : List (Nat × Int)} {bs : List LaneBad} (h : List.Forall₂ (LaneFails n) xs bs) :
    bs.map (·.lane) = xs.map (·.1) := by
  induction h with
  | nil => rfl
  | cons hb _ ih => rw [List.map_cons, List.map_cons, ih, hb.1]

theorem LaneFails.of_mem {n : Nat} {xs : List (Nat × Int)} {bs : List LaneBad} (h : List.Forall₂ (LaneFails n) xs bs)
    {b : LaneBad} (hb : b ∈ bs) : ∃ x ∈ xs, LaneFails n x b := by
  induction h with
  | nil => cases hb
  | @cons x c _ _ hxc _ ih =>
    rcases List.mem_cons.mp hb with rfl | hb
    · exact ⟨x, List.mem_cons_self, hxc⟩
    · obtain ⟨y, hy, hyb⟩ := ih hb
      exact ⟨y, List.mem_cons_of_mem _ hy, hyb⟩

/-- The record of failing lanes: the first cause in R22's order, the lowest lane that has it, and the mask of those lanes. -/
theorem badSplit_first {s : State} {bs : List LaneBad} (hne : bs ≠ []) (hwhy : ∀ b ∈ bs, b.why ∈ addressCauses)
    (hlanes : (bs.map (·.lane)).Pairwise (· < ·)) :
    ∃ b ∈ bs, (∀ c ∈ bs, causeRank b.why ≤ causeRank c.why) ∧ (∀ c ∈ bs, c.why = b.why → b.lane ≤ c.lane)
      ∧ (badSplit s bs).rcd = {
          cls := BitVec.ofNat 8 b.why.1, cause := BitVec.ofNat 8 b.why.2, lane := true, dev := b.why == (1, 3), addr := b.ea
          mask := maskOf ((bs.filter (fun c => c.why = b.why)).map (·.lane)), flpc := BitVec.ofNat 20 s.cp.lpc }
      ∧ (badSplit s bs).page = if b.why = (1, 3) then some (s.cw.ctx, b.ea.toNat / 65536) else none := by
  have hrank : bs.map (fun b => xPriority b.why) = bs.map (fun b => causeRank b.why) :=
    List.map_congr_left (fun b hb => xPriority_eq _ (hwhy b hb))
  obtain ⟨hmem, hle⟩ := foldl_min_spec (l := bs.map (fun b => causeRank b.why)) (a := 8) (by simpa using hne)
    (by simp [causeRank_le])
  have hbest : bs.foldl (fun m b => min m (xPriority b.why)) 8 = (bs.map (fun b => causeRank b.why)).foldl min 8 := by
    rw [← hrank, List.foldl_map]
  generalize (bs.map (fun b => causeRank b.why)).foldl min 8 = best at hmem hle hbest
  obtain ⟨e, he, rfl⟩ := List.mem_map.mp hmem
  have hshare : bs.filter (fun b => xPriority b.why = causeRank e.why) = bs.filter (fun b => b.why = e.why) := by
    refine List.filter_congr (fun b hb => decide_eq_decide.mpr ?_)
    rw [xPriority_eq _ (hwhy b hb)]
    exact ⟨causeRank_inj _ (hwhy b hb) _ (hwhy e he), congrArg causeRank⟩
  cases hhave : bs.filter (fun b => b.why = e.why) with
  | nil => exact absurd (decide_eq_true rfl) (List.filter_eq_nil_iff.mp hhave e he)
  | cons b r =>
    obtain ⟨hb, hwb⟩ := List.mem_filter.mp (hhave ▸ List.mem_cons_self : b ∈ bs.filter (fun b => b.why = e.why))
    have hwb : b.why = e.why := by simpa using hwb
    have hlow : ∀ c ∈ b :: r, b.lane ≤ c.lane := by
      have hsorted := (List.pairwise_map.mp hlanes).filter (fun b => b.why = e.why)
      rw [hhave, List.pairwise_cons] at hsorted
      intro c hc
      rcases List.mem_cons.mp hc with rfl | hc
      · exact Nat.le_refl _
      · exact Nat.le_of_lt (hsorted.1 c hc)
    refine ⟨b, hb, fun c hc => ?_, fun c hc hcb => hlow c ?_, ?_, ?_⟩
    · rw [hwb]
      exact hle _ (List.mem_map_of_mem hc)
    · rw [← hhave]
      exact List.mem_filter.mpr ⟨hc, by simp [hcb, hwb]⟩
    · rw [hwb]
      simp only [badSplit, hbest, hshare, hhave, hwb]
    · simp only [badSplit, hbest, hshare, hhave, hwb, beq_iff_eq]

theorem HeldOnly.path {s t : State} (h : HeldOnly s t) : t.path? = s.path? ∧ t.cp = s.cp ∧ t.cw = s.cw := by
  rw [h.rest]
  exact ⟨rfl, rfl, rfl⟩

/-- What a lane access whose lanes all fail does: nothing but their fragment. -/
theorem laneMemory_allBad {i : Instr} {f : LaneWord} {want : Want} {s t : State} {bs : List LaneBad} (dests : List Dest)
    (data : Warp → Nat → List Byte) (hp : s.path?.isSome = true) (hne : s.actLanes f ≠ [])
    (hact : activeMask s.cw s.cp f = s.cp.liveMask s.cw) (hreqs : t.accessReqs i [] = [])
    (hx : s.xlateLanes s.agent (typeBytes f.tyN) want (s.laneEas f) = (t, [], bs)) :
    s.laneMemory i f want dests data = t.wholeFault (badSplit t bs).rcd (badSplit t bs).page := by
  obtain ⟨hheld, hfails⟩ := xlateLanes_allBad hx
  obtain ⟨hpath, hcp, hcw⟩ := hheld.path
  have hlanes : (badSplit t bs).lanes = activeMask s.cw s.cp f := by
    rw [← maskOf_lanesOf (activeMask s.cw s.cp f)]
    simp only [badSplit, LaneFails.lanes hfails, State.laneEas, List.map_map, Function.comp_def, List.map_id']
    rfl
  have hglobal : s.globalLanes f (typeBytes f.tyN) want (want == .read) = (t, [], [badSplit t bs, watchSplit t []]) := by
    simp [State.globalLanes, hx]
  have hclash : t.amaxClash [] (typeBytes f.tyN) = false := by simp [State.amaxClash]
  unfold State.laneMemory
  dsimp only
  rw [hglobal]
  simp only [List.map_nil, hclash, Bool.false_eq_true, if_false, hreqs, List.cons_append, List.nil_append]
  refine State.splitGo_whole _ (by rw [hpath, hp]) (by rw [hlanes, hact, hcp, hcw]) ?_ rfl ?_
  · rw [hlanes]
    exact lanesOf_ne_nil.mp hne
  · simp [watchSplit, stallSplit, State.stalledMask, maskOf]

theorem actLanes_ascending (s : State) (f : LaneWord) : (s.actLanes f).Pairwise (· < ·) :=
  List.pairwise_lt_range.filter _

/-- A lane form whose effect is an access to memory fails as LaneAccessFaults says. -/
theorem laneAccessFaults_of_laneMemory {i : Instr} {f : LaneWord} {want : Want} {dests : List Dest}
    {data : Warp → Nat → List Byte} (he : ∀ s, lanesReady i s → exec i s = .next (s.laneMemory i f want dests data))
    (hreqs : ∀ s : State, s.accessReqs i [] = []) : LaneAccessFaults i f want := by
  intro s t bs hr hne hact hx
  obtain ⟨hheld, hfails⟩ := xlateLanes_allBad hx
  obtain ⟨-, hcp, hcw⟩ := hheld.path
  have hlanes : bs.map (·.lane) = s.actLanes f := by
    rw [LaneFails.lanes hfails]
    simp [State.laneEas, Function.comp_def]
  have hfail : ∀ b ∈ bs, LaneFails (typeBytes f.tyN) (b.lane, laneEa s.cw s.run f b.lane) b := by
    intro b hb
    obtain ⟨x, hx, hxb⟩ := LaneFails.of_mem hfails hb
    obtain ⟨l, -, rfl⟩ := List.mem_map.mp hx
    obtain rfl : b.lane = l := hxb.1
    exact hxb
  obtain ⟨b, hb, hfirst, hlow, hrcd, hpage⟩ := badSplit_first (s := t) (bs := bs)
    (by rintro rfl; exact hne hlanes.symm) (fun b hb => (hfail b hb).2.2.1) (hlanes ▸ actLanes_ascending s f)
  refine ⟨hlanes, fun b hb => ⟨(hfail b hb).2.1, (hfail b hb).2.2.2⟩, b, hb, hfirst, hlow, ?_⟩
  rw [he s hr, laneMemory_allBad dests data (laneReady_path hr.2) hne hact (hreqs t) hx, hrcd, hpage, hcp, hcw]

theorem vld_faults (f : LaneWord) : LaneAccessFaults (.vld f) f .read :=
  laneAccessFaults_of_laneMemory (fun _ hr => laneForm_ready _ (by simp) hr.1 hr.2) (fun _ => rfl)

theorem vst_faults (f : LaneWord) : LaneAccessFaults (.vst f) f .write :=
  laneAccessFaults_of_laneMemory (fun _ hr => laneForm_ready _ (by simp) hr.1 hr.2) (fun _ => rfl)

theorem vamo_faults (sc : BitVec 2) (f : LaneWord) : LaneAccessFaults (.vamo sc f) f .atomic := by
  refine laneAccessFaults_of_laneMemory (dests := vDests f.d (typeRegs f.tyN))
    (data := fun w l => amoData w f (typeBytes f.tyN) l) (fun s hr => ?_) (fun _ => rfl)
  show execVamo sc f s = _
  rw [execVamo, laneForm_ready _ (by simp) hr.1 hr.2]
  simp only [State.performed_quiet hr.1, Bool.not_true, Bool.and_false, Bool.false_eq_true, if_false]

end Sys2Proof.Machine

namespace Sys2Proof.Machine

/-! ## Path faults: O18 -/

/-- The clause of O18 on a BRD that lacks a free record or an entry of the path stack (R176). -/
def BranchFaults : Prop :=
  ∀ p sn tf jo s, warpReady (.brd p sn tf jo) s → s.cp.queue = [] →
    s.cw.jrecs.freeKey 0 12 = none ∨ s.cw.stackFree = 0 → exec (.brd p sn tf jo) s = .next (s.scalarFault 0x10 1 0 0)

/-- Every clause of O18 but that of BRD holds; and brd_pathStack says that BRD's holds too where the table of warps is in the
order of its keys. -/
theorem pathFaults_iff_branchFaults : Obligations.PathFaults ↔ BranchFaults := by
  unfold Obligations.PathFaults
  refine ⟨fun h => h.2.1, fun hbrd => ⟨⟨?_, ?_⟩, hbrd, ⟨sld_faults, slda_faults, sst_faults, ssta_faults, samo_faults, ?_⟩,
    ⟨?_, ?_, ?_, ?_⟩, ?_⟩⟩
  · exact fun d a b s => aadd_wrap
  · exact fun d a i s => aaddi_wrap
  · exact fun f => ⟨vld_faults f, vst_faults f, fun sc => vamo_faults sc f⟩
  · exact fun d n s => sysr_unlisted
  · exact fun r n s => sysw_unlisted
  · exact fun d n s => sysr_privilege
  · exact fun r n s => sysw_privilege
  · exact fun f => ⟨trapsAll_of_fltForm (fun _ => rfl) (by simp), trapsAll_of_fltForm (fun _ => rfl) (by simp),
      trapsAll_of_fltForm (fun _ => rfl) (by simp), trapsAll_of_fltForm (fun _ => rfl) (by simp),
      trapsAll_of_fltForm (fun _ => rfl) (by simp), trapsAll_of_fltForm (fun _ => rfl) (by simp)⟩

/-- A BRD of a path without lanes, of a warp whose path stack is full; the table of warps lists warp 1 before warp 0. -/
def unsortedWarps : State :=
  { cur := (1, 0)
    warps := [(1, { slot0 := some {}, stack := List.replicate 12 { yielded := false, path := {} } }), (0, {})] }

/-- Keys of the warps an outcome leaves, in the order of their table. -/
def warpKeys (o : Out) : List Nat := match o with | .next t => t.warps.map (·.1) | _ => []

/-- Refutes O18: the tests before a BRD write its warp back into the table of warps, which puts it in the order of the keys;
a table that was not in that order is then not the one s.scalarFault leaves. -/
theorem not_pathFaults : ¬ Obligations.PathFaults := by
  rw [pathFaults_iff_branchFaults]
  intro hbrd
  have h := hbrd 1 0 1 2 unsortedWarps (by unfold warpReady; decide) (by decide) (by decide)
  exact absurd (congrArg warpKeys h) (by decide)

end Sys2Proof.Machine

namespace Sys2Proof

/-- A number whose bytes stand lowest address first. -/
theorem numAt_of_bytes {b : Nat → Byte} {a x : Nat} : ∀ {n : Nat}, (∀ i, i < n → b (a + i) = BitVec.ofNat 8 (x / 256 ^ i)) →
    Machine.numAt b a n = x % 256 ^ n
  | 0, _ => by simp [Machine.numAt, Nat.mod_one]
  | n + 1, h => by
    have hlow := numAt_of_bytes (n := n) (fun i hi => h i (by omega))
    unfold Machine.numAt at hlow ⊢
    rw [List.range_succ, List.map_append, List.sum_append, hlow, Nat.mod_pow_succ, List.map_singleton, List.sum_singleton,
      h n (by omega), BitVec.toNat_ofNat, Nat.mul_comm]

namespace Cells

variable {w : Nat}

theorem get_eq_zero {m : Cells w} {k : Nat} (h : ∀ e ∈ m, e.1 ≠ k) : get m k = 0 := by
  induction m with
  | nil => rfl
  | cons e r ih =>
    rw [get, if_neg (h e List.mem_cons_self), ih (fun e he => h e (List.mem_cons_of_mem _ he))]

/-- What a key of the destination holds once the entries of a canonical list have been set there, one after another. -/
theorem get_foldl_set_moved {src dst : Nat} (j : Nat) : ∀ (l : Cells w) (m : Cells w), wf l = true → (∀ e ∈ l, src ≤ e.1) →
    get (l.foldl (fun r e => r.set (e.1 - src + dst) e.2) m) (dst + j)
      = if get l (src + j) = 0 then get m (dst + j) else get l (src + j)
  | [], m, _, _ => by simp
  | (a, x) :: r, m, hwf, hsrc => by
    rw [wf_cons] at hwf
    obtain ⟨hx, hrise, hr⟩ := hwf
    have ha : src ≤ a := hsrc (a, x) List.mem_cons_self
    rw [List.foldl_cons, get_foldl_set_moved j r _ hr (fun e he => hsrc e (List.mem_cons_of_mem _ he)), get_set, get]
    by_cases hj : a = src + j
    · have hlater : get r (src + j) = 0 := get_eq_zero (fun e he => by have := hrise e he; omega)
      rw [if_pos hlater, if_pos (by omega), if_pos hj, if_neg hx]
    · rw [if_neg (show ¬ dst + j = a - src + dst by omega), if_neg hj]

/-- A copy of a canonical store holds at the destination what the source held. -/
theorem get_copyTo {m : Cells w} {src dst n j : Nat} (hwf : wf m = true) (hj : j < n) :
    get (m.copyTo src dst n) (dst + j) = get m (src + j) := by
  have hsrc : ∀ e ∈ m.slice src n, src ≤ e.1 := fun e he => (by simpa using (List.mem_filter.mp he).2 : src ≤ e.1 ∧ _).1
  have hfrom : get (m.slice src n) (src + j) = get m (src + j) := by rw [get_slice, if_pos (by omega)]
  have hto : get (m.clear dst n) (dst + j) = 0 := by rw [get_clear, if_neg (by omega)]
  rw [copyTo, get_foldl_set_moved j _ _ (wf_slice m src n hwf) hsrc, hfrom, hto]
  split
  · exact Eq.symm ‹_›
  · rfl

end Cells

namespace Tab

/-- A field that a map of the records keeps. -/
theorem getD_map {α : Type} {β : Type} (f : α → α) (g : α → β) (d : α) (hg : ∀ x, g (f x) = g x) (m : Tab α) (k : Nat) :
    g (Tab.getD (m.map (fun x => (x.1, f x.2))) k d) = g (m.getD k d) := by
  unfold getD
  induction m with
  | nil => rfl
  | cons e r ih =>
    obtain ⟨i, x⟩ := e
    simp only [List.map_cons, find]
    split
    · exact hg x
    · exact ih

end Tab

end Sys2Proof

namespace Sys2Proof.Machine

/-! ## What the hub's writes leave alone -/

/-- Nothing of the warps, the fragments and the trap vectors changes, and no step begins to wait for a link. -/
structure Aside (s t : State) : Prop where
  warps : t.warps = s.warps
  frags : ∀ c, (t.core c).frags = (s.core c).frags
  vector : ∀ c, (t.ctx c).trap = (s.ctx c).trap ∧ (t.ctx c).textbase = (s.ctx c).textbase
  held : t.held = s.held

theorem Aside.refl (s : State) : Aside s s := ⟨rfl, fun _ => rfl, fun _ => ⟨rfl, rfl⟩, rfl⟩

theorem Aside.trans {s t u : State} (h : Aside s t) (h' : Aside t u) : Aside s u :=
  ⟨h'.warps.trans h.warps, fun c => (h'.frags c).trans (h.frags c),
    fun c => ⟨(h'.vector c).1.trans (h.vector c).1, (h'.vector c).2.trans (h.vector c).2⟩, h'.held.trans h.held⟩

theorem HeldOnly.aside {s t : State} (h : HeldOnly s t) : Aside s t := by
  refine ⟨by rw [h.rest], fun c => by rw [h.cores c], fun c => ?_, by rw [h.rest]⟩
  rw [h.rest]
  exact ⟨rfl, rfl⟩

theorem aside_modMem (s : State) (f : Mem → Mem) : Aside s (s.modMem f) := ⟨rfl, fun _ => rfl, fun _ => ⟨rfl, rfl⟩, rfl⟩

theorem State.effect_cores {s : State} {r : Req} (h : r.core = none) : (s.effect r).cores = s.cores := by
  unfold State.effect
  rw [h]
  cases r.eff with
  | atomic => cases r.amo <;> rfl
  | none => rfl
  | store => rfl
  | quiet => rfl

theorem State.postReq_cores {s : State} {r : Req} (h : r.core = none) : (s.postReq r).cores = s.cores := by
  unfold State.postReq
  dsimp only
  split
  · exact State.effect_cores h
  · rfl

/-- A read acts on no memory as it enters. -/
theorem State.postReq_mem {s : State} {r : Req} (h : r.eff = .none) : (s.postReq r).mem = s.mem := by
  have heff : (s.name r).1.effect (s.name r).2 = (s.name r).1 := by
    unfold State.effect State.name
    rw [h]
  unfold State.postReq
  dsimp only
  split
  · exact (congrArg State.mem heff :)
  · rfl

theorem aside_postReq {s : State} {r : Req} (h : r.core = none) : Aside s (s.postReq r) := by
  refine ⟨State.postReq_warps s r, fun c => ?_, fun c => ?_, State.postReq_held s r⟩
  · rw [State.core, State.postReq_cores h]; rfl
  · rw [State.ctx, State.postReq_ctxs]; exact ⟨rfl, rfl⟩

theorem aside_postAll {rs : List Req} (h : ∀ r ∈ rs, r.core = none) : ∀ s : State, Aside s (rs.foldl State.postReq s) := by
  induction rs with
  | nil => exact Aside.refl
  | cons r rs ih =>
    exact fun s => (aside_postReq (h r List.mem_cons_self)).trans (ih (fun r hr => h r (List.mem_cons_of_mem _ hr)) _)

theorem dropPages_cores (s : State) (space va n size : Nat) : ∃ keep : TlbEntry → Bool,
    (dropPages s space va n size).cores = s.cores.map (fun x => (x.1, { x.2 with tlb := x.2.tlb.filter keep })) := ⟨_, rfl⟩

theorem aside_dropPages (s : State) (space va n size : Nat) : Aside s (dropPages s space va n size) := by
  refine ⟨rfl, fun c => ?_, fun _ => ⟨rfl, rfl⟩, rfl⟩
  obtain ⟨keep, hcores⟩ := dropPages_cores s space va n size
  unfold State.core
  rw [hcores]
  exact Tab.getD_map (fun x => { x with tlb := x.tlb.filter keep }) Core.frags {} (fun _ => rfl) s.cores c

/-- Reads of the drawer that a migrate move makes, and that no one waits for (R83). -/
def moveReads (src : Nat) : List Req := (List.range 16).map (fun i => readReq 16 (src + 4096 * i) 15 none)

theorem moveReads_core {src : Nat} : ∀ r ∈ moveReads src, r.core = none := by
  simp [moveReads, readReq]

/-- A page copied to a frame with its leaf rewritten, before its translations are dropped. -/
def State.copyPage (s : State) (src dst at_ : Nat) (leaf : DWord) : State :=
  ((moveReads src).foldl State.postReq s).modMem (fun m => (m.movePage src dst).quiet at_ (bytesOf 8 leaf.toNat))

/-- A migrate move changes nothing, or is of a migrate-on-touch page. -/
theorem migrate_cases (s : State) (c v f : Nat) :
    (s.migrate c v f = s ∧ ∀ lvl e at_, peekLeaf s c (pageVa v) = .leaf lvl e at_ → ptePl e ≠ 2)
      ∨ ∃ lvl e at_ sp, peekLeaf s c (pageVa v) = .leaf lvl e at_
        ∧ s.migrate c v f = dropPages (s.copyPage (pteBase e) (f * 65536) at_ (movedLeaf e (f * 65536))) sp (pageVa v) 1 65536 := by
  unfold State.migrate
  split
  · rename_i lvl e at_ hleaf
    split
    · unfold State.copyPage moveReads
      simp only [List.foldl_map]
      exact .inr ⟨lvl, e, at_, _, hleaf, rfl⟩
    · rename_i hpl
      refine .inl ⟨rfl, fun lvl' e' at' h => ?_⟩
      obtain ⟨-, rfl, -⟩ := Walk.leaf.inj (hleaf.symm.trans h)
      exact hpl
  · rename_i hnone
    exact .inl ⟨rfl, fun lvl e at_ h => absurd h (hnone lvl e at_)⟩

/-- The state a migrate move of a migrate-on-touch page leaves. -/
theorem migrate_of_leaf {s : State} {c v f lvl at_ : Nat} {e : DWord} (hleaf : peekLeaf s c (pageVa v) = .leaf lvl e at_)
    (hpl : ptePl e = 2) : ∃ sp, s.migrate c v f
      = dropPages (s.copyPage (pteBase e) (f * 65536) at_ (movedLeaf e (f * 65536))) sp (pageVa v) 1 65536 := by
  rcases migrate_cases s c v f with ⟨-, hnone⟩ | ⟨lvl', e', at', sp, hleaf', h⟩
  · exact absurd hpl (hnone lvl e at_ hleaf)
  · obtain ⟨-, rfl, rfl⟩ := Walk.leaf.inj (hleaf.symm.trans hleaf')
    exact ⟨sp, h⟩

theorem aside_copyPage (s : State) (src dst at_ : Nat) (leaf : DWord) : Aside s (s.copyPage src dst at_ leaf) :=
  (aside_postAll moveReads_core s).trans (aside_modMem _ _)

theorem aside_migrate (s : State) (c v f : Nat) : Aside s (s.migrate c v f) := by
  rcases migrate_cases s c v f with ⟨h, -⟩ | ⟨lvl, e, at_, sp, -, h⟩ <;> rw [h]
  · exact Aside.refl s
  · exact (aside_copyPage ..).trans (aside_dropPages ..)

theorem aside_hub? (s : State) (c va : Nat) (want : Want) : Aside s (s.hub? c va want).1 := by
  have htr := (translate_heldOnly s (hubAgent c) va want).aside
  unfold State.hub?
  dsimp only
  split
  · refine htr.trans ?_
    unfold State.afterMove
    dsimp only
    have hdraw : ∀ u : State, Aside u u.draw.2 := fun u => ⟨rfl, fun _ => rfl, fun _ => ⟨rfl, rfl⟩, rfl⟩
    split
    · exact ((hdraw _).trans (aside_migrate ..)).trans (translate_heldOnly ..).aside
    · exact hdraw _
  · exact htr

theorem aside_modCtx {s : State} {c : Nat} {f : Ctx → Ctx} (h : ∀ x, (f x).trap = x.trap ∧ (f x).textbase = x.textbase) :
    Aside s (s.modCtx c f) := by
  refine ⟨rfl, fun _ => rfl, fun d => ?_, rfl⟩
  simp only [State.ctx, State.modCtx, Tab.getD_put]
  split
  · subst d; exact h _
  · exact ⟨rfl, rfl⟩

theorem maskedReqs_core {cls pa : Nat} {bs : List Byte} {eff : OnEntry} {core : Option Nat} :
    ∀ r ∈ maskedReqs cls pa bs eff core, r.core = core := by
  simp [maskedReqs]

theorem aside_trace (s : State) (wid kind idx : Nat) (p : Path) (event : Nat) (detail : DWord) :
    Aside s (s.trace wid kind idx p event detail) := by
  unfold State.trace State.traceIn
  dsimp only
  split
  · have hhub := fun va => aside_hub? s ((s.warps.find wid).getD {}).ctx va .write
    split
    · rename_i u h hu
      have hu := hu ▸ hhub _
      refine (hu.trans ?_).trans (aside_modCtx (fun _ => ⟨rfl, rfl⟩))
      split
      · exact aside_postAll maskedReqs_core _
      · exact aside_modMem _ _
    · rename_i u x hu
      exact (hu ▸ hhub _).trans (aside_modCtx (fun _ => ⟨rfl, rfl⟩))
  · exact Aside.refl s

/-! ## Events of paths and fragments -/

/-- An event that begins to wait for no link takes place. -/
theorem eventForm_of_held {i : Instr} {s : State} {body : State → State} (hf : s.hub.fatal = false)
    (h : (body s).held = s.held) : eventForm i s body = .next (body s) := by
  have hsame : (body s).orWait s (.event i) = body s := by
    unfold State.orWait
    cases hh : (body s).held with
    | none => rfl
    | some r => simp [← h, hh]
  rw [eventForm, if_neg (by simp [hf]), hsame]

theorem happens_of_eventForm {i : Instr} {body : State → State} {ok : State → Prop} {post : State → State → Prop}
    (he : ∀ s, exec i s = eventForm i s body) (h : ∀ s, ok s → (body s).held = s.held ∧ post s (body s)) : Happens i ok post :=
  fun s hf hok => ⟨body s, by rw [he, eventForm_of_held hf (h s hok).1], (h s hok).2⟩

theorem State.pathAt_modWarp {s : State} {wid : Nat} {w : Warp} (k : Nat) (f : Warp → Warp) (hw : s.warps.find wid = some w) :
    (s.modWarp wid f).pathAt wid k = (f w).slot k := by
  simp [State.pathAt, State.find_modWarp, hw]

theorem Warp.slot_occupy {w : Warp} {k : Nat} {p : Path} (hk : k < 2) : (w.occupy k p).slot k = some p := by
  interval_cases k <;> rfl

theorem State.frags_modCore (s : State) (c e : Nat) (f : Frag) :
    ((s.modCore c (fun x => { x with frags := x.frags.put e f })).core c).frags.find e = some f := by
  rw [core_modCore, if_pos rfl, Tab.find_put, if_pos rfl]

theorem State.core_modWarp (s : State) (wid c : Nat) (f : Warp → Warp) : (s.modWarp wid f).core c = s.core c := by
  rw [State.core, State.modWarp_cores]; rfl

/-- Which slot a warp's READY fragment may take. -/
theorem freeSlot_lt {w : Warp} {k : Nat} (h : freeSlot w = some k) : k < 2 := by
  unfold freeSlot at h
  split_ifs at h <;> obtain rfl := Option.some.inj h <;> decide

/-- A fragment that takes a slot is its path there, and LIVE. -/
theorem takeFrag_live {s : State} {wid k e : Nat} {f : Frag} {w : Warp} (hf : (s.core (coreOf wid)).frags.find e = some f)
    (hw : s.warps.find wid = some w) (hk : k < 2) : (s.takeFrag wid k e).pathIs wid k (fragPath (s.ctx w.ctx) f)
      ∧ ((s.takeFrag wid k e).core (coreOf wid)).frags.find e = some { f with state := 2, waits := [], page := none } := by
  unfold State.takeFrag State.pathIs
  simp only [hf, hw, Option.getD_some]
  rw [State.core_modWarp, State.frags_modCore]
  exact ⟨(State.pathAt_modWarp (s := s.modCore _ _) k _ hw).trans (Warp.slot_occupy hk), rfl⟩

theorem takeFrag_held (s : State) (wid k e : Nat) : (s.takeFrag wid k e).held = s.held := by
  unfold State.takeFrag
  dsimp only
  split
  · rfl
  · exact State.modWarp_held ..

theorem fragment_takes_slot (core e : Nat) (f : Frag) (w : Warp) (k : Nat) : Happens (.fragmentHandlerEntry core e)
    (fun s => (s.core core).frags.find e = some f ∧ s.warps.find f.warp = some w ∧ coreOf f.warp = core ∧ w.stack = []
      ∧ freeSlot w = some k ∧ oldestReady (s.core core) f.warp = some (e, f))
    (fun s t => t.pathIs f.warp k (fragPath (s.ctx w.ctx) f)
      ∧ (t.core core).frags.find e = some { f with state := 2, waits := [], page := none }) := by
  refine happens_of_eventForm (body := fun s => s.enterFrag core e) (fun _ => rfl) (fun s hok => ?_)
  obtain ⟨hf, hw, rfl, hstack, hfree, hold⟩ := hok
  have henter : s.enterFrag (coreOf f.warp) e = s.takeFrag f.warp k e := by
    simp only [State.enterFrag, hf, hw, Warp.openSlot, hstack, List.isEmpty_nil, if_true, hfree, hold]
  rw [henter]
  exact ⟨takeFrag_held .., takeFrag_live hf hw (freeSlot_lt hfree)⟩

theorem fragment_takes_stack (core e : Nat) (f : Frag) (w : Warp) : Happens (.fragmentHandlerEntry core e)
    (fun s => (s.core core).frags.find e = some f ∧ s.warps.find f.warp = some w ∧ coreOf f.warp = core
      ∧ w.slot0.isSome = true ∧ w.slot1.isSome = true ∧ w.stack.length + w.jrecs.length < 12
      ∧ oldestReady (s.core core) f.warp = some (e, f))
    (fun s t => t.warps.find f.warp = some { w with stack := { yielded := false, path := fragPath (s.ctx w.ctx) f } :: w.stack }
      ∧ (t.core core).frags.find e = some { f with state := 2, waits := [], page := none }) := by
  refine happens_of_eventForm (body := fun s => s.enterFrag core e) (fun _ => rfl) (fun s hok => ?_)
  obtain ⟨hf, hw, rfl, h0, h1, hroom, hold⟩ := hok
  have hfree : freeSlot w = none := by
    simp [freeSlot, Option.isNone_eq_false_iff.mpr h0, Option.isNone_eq_false_iff.mpr h1]
  have hopen : w.openSlot = none := by simp [Warp.openSlot, hfree]
  have hstack : 0 < w.stackFree := by unfold Warp.stackFree; omega
  have henter : s.enterFrag (coreOf f.warp) e = s.pushFrag f.warp e := by
    simp [State.enterFrag, hf, hw, hopen, hold, hfree, hstack]
  rw [henter]
  unfold State.pushFrag
  simp only [hf, hw, Option.getD_some]
  rw [State.core_modWarp, State.frags_modCore, State.find_modWarp, if_pos rfl]
  exact ⟨State.modWarp_held .., by simp [hw], rfl⟩

/-- A fragment made READY, and the trace record of that, before it takes a slot. -/
def State.markReady (s : State) (core e : Nat) (f : Frag) : State :=
  (s.modCore core (fun c => { c with frags := c.frags.put e { f with state := 1, page := none } })).trace
    f.warp 2 f.serial.toNat f.path 4 (BitVec.ofNat 64 f.serial.toNat)

/-- What a fragment made READY leaves: itself READY, and every warp, every vector and what waits as they were. -/
theorem markReady_spec (s : State) (core e : Nat) (f : Frag) :
    ((s.markReady core e f).core core).frags.find e = some { f with state := 1, page := none }
      ∧ (s.markReady core e f).warps = s.warps ∧ (s.markReady core e f).held = s.held
      ∧ ∀ c, ((s.markReady core e f).ctx c).trap = (s.ctx c).trap ∧ ((s.markReady core e f).ctx c).textbase = (s.ctx c).textbase := by
  have h := aside_trace (s.modCore core (fun c => { c with frags := c.frags.put e { f with state := 1, page := none } }))
    f.warp 2 f.serial.toNat f.path 4 (BitVec.ofNat 64 f.serial.toNat)
  exact ⟨by rw [State.markReady, h.frags, State.frags_modCore], h.warps, h.held, h.vector⟩

/-- The path of a fragment depends on its context's trap vector alone. -/
theorem fragPath_congr {c d : Ctx} (f : Frag) (h : d.trap = c.trap ∧ d.textbase = c.textbase) : fragPath d f = fragPath c f := by
  simp only [fragPath, enterHandler, trapEntry, textbaseN, h.1, h.2]

/-- Data that came makes its fragment READY; where both slots of its warp are free it takes slot 0. -/
theorem dataArrives_of_waiting {s : State} {core e : Nat} {f : Frag} (hf : (s.core core).frags.find e = some f)
    (hst : f.state = 0) (hcls : f.rcd.cls = 7) (hover : s.stallOver f = true) : s.dataArrives core e =
      match s.warps.find f.warp with
      | some w => if w.slot0.isNone && w.slot1.isNone then (s.markReady core e f).takeFrag f.warp 0 e else s.markReady core e f
      | none => s.markReady core e f := by
  have hwarps : ((s.modCore core (fun c => { c with frags := c.frags.put e { f with state := 1, page := none } })).trace
      f.warp 2 f.serial.toNat f.path 4 (BitVec.ofNat 64 f.serial.toNat)).warps = s.warps := (markReady_spec s core e f).2.1
  simp only [State.dataArrives, hf, hst, hcls, hover, State.readyFrag, beq_self_eq_true, Bool.and_self, decide_true, if_true, hwarps]
  cases s.warps.find f.warp <;> rfl

theorem data_makes_ready (core e : Nat) (f : Frag) : Happens (.pendingDataArrival core e)
    (fun s => (s.core core).frags.find e = some f ∧ f.state = 0 ∧ f.rcd.cls = 7 ∧ s.stallOver f = true
      ∧ ∀ w, s.warps.find f.warp = some w → w.slot0.isSome = true ∨ w.slot1.isSome = true)
    (fun _ t => (t.core core).frags.find e = some { f with state := 1, page := none }) := by
  refine happens_of_eventForm (body := fun s => s.dataArrives core e) (fun _ => rfl) (fun s hok => ?_)
  obtain ⟨hf, hst, hcls, hover, hslots⟩ := hok
  have hstay : s.dataArrives core e = s.markReady core e f := by
    rw [dataArrives_of_waiting hf hst hcls hover]
    cases hw : s.warps.find f.warp with
    | none => rfl
    | some w =>
      refine if_neg ?_
      rcases hslots w hw with h | h <;> simp [Option.isNone_eq_false_iff.mpr h]
  rw [hstay]
  obtain ⟨hready, -, hheld, -⟩ := markReady_spec s core e f
  exact ⟨hheld, hready⟩

theorem data_makes_live (core e : Nat) (f : Frag) (w : Warp) : Happens (.pendingDataArrival core e)
    (fun s => (s.core core).frags.find e = some f ∧ f.state = 0 ∧ f.rcd.cls = 7 ∧ s.stallOver f = true
      ∧ s.warps.find f.warp = some w ∧ coreOf f.warp = core ∧ w.slot0 = none ∧ w.slot1 = none)
    (fun s t => t.pathIs f.warp 0 (fragPath (s.ctx w.ctx) { f with state := 1, page := none })
      ∧ (t.core core).frags.find e = some { f with state := 2, waits := [], page := none }) := by
  refine happens_of_eventForm (body := fun s => s.dataArrives core e) (fun _ => rfl) (fun s hok => ?_)
  obtain ⟨hf, hst, hcls, hover, hw, rfl, h0, h1⟩ := hok
  obtain ⟨hready, hwarps, hheld, hvector⟩ := markReady_spec s (coreOf f.warp) e f
  have htake : s.dataArrives (coreOf f.warp) e = (s.markReady (coreOf f.warp) e f).takeFrag f.warp 0 e := by
    rw [dataArrives_of_waiting hf hst hcls hover, hw]
    simp [h0, h1]
  obtain ⟨hpath, hlive⟩ := takeFrag_live hready (hwarps ▸ hw) (show 0 < 2 by decide)
  rw [htake]
  exact ⟨(takeFrag_held ..).trans hheld, by rwa [fragPath_congr _ (hvector _)] at hpath, hlive⟩

/-- A move that no driver began holds no leaf. -/
theorem move_leaf_zero {s : State} {c v : Nat} (h : ∀ x ∈ s.moves, x.1 = c → x.2.1 = v → x.2.2.1 = 0)
    {x : Nat × Nat × DWord × Nat} (hx : s.moves.find? (fun x => x.1 == c && x.2.1 == v) = some x) : x.2.2.1 = 0 := by
  have hkey : x.1 = c ∧ x.2.1 = v := by simpa using List.find?_some hx
  exact h x (List.mem_of_find?_eq_some hx) hkey.1 hkey.2

theorem move_without_frame (c v : Nat) : Happens (.migrateMove c v none) (fun s => s.pageWaiters c v = [] ∧ s.parkedOn c v = []
      ∧ s.pu = none ∧ ∀ x ∈ s.moves, x.1 = c → x.2.1 = v → x.2.2.1 = 0)
    (fun s t => t = { s with moves := s.moves.filter (fun x => !(x.1 == c && x.2.1 == v)) }) := by
  refine happens_of_eventForm (body := fun s => s.moveDone c v none) (fun _ => rfl) (fun s hok => ?_)
  obtain ⟨hwait, hpark, hpu, hmoves⟩ := hok
  have hfail : s.moveDone c v none = s.endMove c v := by
    have hwait' : (s.endMove c v).pageWaiters c v = [] := hwait
    have hpark' : (s.endMove c v).parkedOn c v = [] := hpark
    have hpu' : (s.endMove c v).pu = none := hpu
    unfold State.moveDone State.moveFailed
    cases hx : s.moves.find? (fun x => x.1 == c && x.2.1 == v) with
    | none => simp only [Option.filter_none, ne_eq, not_true_eq_false, if_false, hwait', List.foldl_nil, hpu', hpark']
    | some x =>
      simp only [Option.filter_none, move_leaf_zero hmoves hx, ne_eq, not_true_eq_false, if_false, hwait', List.foldl_nil, hpu', hpark']
  rw [hfail]
  exact ⟨rfl, rfl⟩

/-! ### A migrate move (R23) -/

/-- When O50 has a migrate move end with the page in a frame. -/
def MoveEnds (c v f : Nat) (s : State) : Prop :=
  s.placeable f = true ∧ s.pageWaiters c v = [] ∧ s.pageAwaited (s.oldPlace c v 0) = false
    ∧ s.amaxOn (fun sp va => sp == xdSpace (s.ctx c).xdesc && va / 65536 == v) = false
    ∧ ∀ x ∈ s.moves, x.1 = c → x.2.1 = v → x.2.2.1 = 0

/-- What O50 says the move leaves: its record gone, the page's bytes in the frame and its leaf rewritten. -/
def PageMoved (c v f : Nat) (s t : State) : Prop :=
  (∀ x ∈ t.moves, x.1 ≠ c ∨ x.2.1 ≠ v) ∧ ∀ lvl e at_, peekLeaf s c (v * 65536) = .leaf lvl e at_ → ptePl e = 2 →
    isDrawer (pteBase e) = true → pteBase e % 65536 = 0 → at_ + 8 ≤ f * 65536 ∨ f * 65536 + 65536 ≤ at_ →
    (∀ j, j < 65536 → t.byte (f * 65536 + j) = s.byte (pteBase e + j)) ∧ numAt t.byte at_ 8 = (movedLeaf e (f * 65536)).toNat

theorem postAll_mem {rs : List Req} (h : ∀ r ∈ rs, r.eff = .none) : ∀ s : State, (rs.foldl State.postReq s).mem = s.mem := by
  induction rs with
  | nil => exact fun _ => rfl
  | cons r rs ih =>
    exact fun s => (ih (fun r hr => h r (List.mem_cons_of_mem _ hr)) _).trans (State.postReq_mem (h r List.mem_cons_self))

theorem postAll_cores {rs : List Req} (h : ∀ r ∈ rs, r.core = none) : ∀ s : State, (rs.foldl State.postReq s).cores = s.cores := by
  induction rs with
  | nil => exact fun _ => rfl
  | cons r rs ih =>
    exact fun s => (ih (fun r hr => h r (List.mem_cons_of_mem _ hr)) _).trans (State.postReq_cores (h r List.mem_cons_self))

/-- A shoot-down takes no fragment from those that wait for a page. -/
theorem pageWaiters_dropPages (s : State) (space va n size c v : Nat) :
    (dropPages s space va n size).pageWaiters c v = s.pageWaiters c v := by
  obtain ⟨keep, hcores⟩ := dropPages_cores s space va n size
  unfold State.pageWaiters
  rw [hcores, List.map_map]
  rfl

theorem copyPage_cores (s : State) (src dst at_ : Nat) (leaf : DWord) : (s.copyPage src dst at_ leaf).cores = s.cores :=
  (State.modMem_cores _ _).trans (postAll_cores moveReads_core s)

theorem copyPage_mem (s : State) (src dst at_ : Nat) (leaf : DWord) :
    (s.copyPage src dst at_ leaf).mem = (s.mem.movePage src dst).quiet at_ (bytesOf 8 leaf.toNat) := by
  have hreads : ((moveReads src).foldl State.postReq s).mem = s.mem := postAll_mem (by simp [moveReads, readReq]) s
  rw [← hreads]
  rfl

theorem migrate_pageWaiters (s : State) (c v f : Nat) : (s.migrate c v f).pageWaiters c v = s.pageWaiters c v := by
  rcases migrate_cases s c v f with ⟨h, -⟩ | ⟨lvl, e, at_, sp, -, h⟩ <;> rw [h]
  rw [pageWaiters_dropPages]
  unfold State.pageWaiters
  rw [copyPage_cores]

theorem Mem.quiet_bytes (m : Mem) (pa : Nat) (bs : List Byte) : (m.quiet pa bs).bytes = m.bytes.writeN pa bs := rfl
theorem Mem.movePage_bytes (m : Mem) (src dst : Nat) : (m.movePage src dst).bytes = m.bytes.copyTo src dst 65536 := rfl

theorem migrate_bytes {s : State} {c v f lvl at_ : Nat} {e : DWord} (hleaf : peekLeaf s c (pageVa v) = .leaf lvl e at_)
    (hpl : ptePl e = 2) : (s.migrate c v f).byte
      = storedAt (s.mem.bytes.copyTo (pteBase e) (f * 65536) 65536).get at_ 8 (movedLeaf e (f * 65536)).toNat := by
  obtain ⟨sp, h⟩ := migrate_of_leaf (f := f) hleaf hpl
  unfold State.byte
  rw [h, dropPages_mem, copyPage_mem, Mem.quiet_bytes, Mem.movePage_bytes, get_writeN_bytesOf]

theorem endMove_pageWaiters (s : State) (c v d u : Nat) : (s.endMove c v).pageWaiters d u = s.pageWaiters d u := rfl
theorem endMove_held (s : State) (c v : Nat) : (s.endMove c v).held = s.held := rfl
theorem endMove_byte (s : State) (c v : Nat) : (s.endMove c v).byte = s.byte := rfl

theorem moves_endMove {s : State} {c v : Nat} {x : Nat × Nat × DWord × Nat} (h : x ∈ (s.endMove c v).moves) : x.1 ≠ c ∨ x.2.1 ≠ v := by
  have hkey := (List.mem_filter.mp h).2
  simpa only [Bool.not_eq_true', Bool.and_eq_false_iff, beq_eq_false_iff_ne] using hkey

theorem moveDone_of_moveEnds {s : State} {c v f : Nat} (h : MoveEnds c v f s) :
    s.moveDone c v (some f) = (s.migrate c v f).endMove c v := by
  obtain ⟨hplace, hwait, hawait, hamax, hmoves⟩ := h
  have hwait' : ((s.migrate c v f).endMove c v).pageWaiters c v = [] := by
    rw [endMove_pageWaiters, migrate_pageWaiters, hwait]
  unfold State.moveDone
  cases hx : s.moves.find? (fun x => x.1 == c && x.2.1 == v) with
  | none =>
    simp only [Option.filter_some, hplace, if_true, hamax, hawait, Bool.or_self, Bool.false_eq_true, if_false, State.placePage,
      hwait', List.foldl_nil]
  | some x =>
    simp only [Option.filter_some, hplace, if_true, move_leaf_zero hmoves hx, hamax, hawait, Bool.or_self, Bool.false_eq_true,
      if_false, State.placePage, hwait', List.foldl_nil]

/-- The move's clause of O50 holds of a canonical memory. -/
theorem page_moves (c v f : Nat) : Happens (.migrateMove c v (some f)) (fun s => s.memOk = true ∧ MoveEnds c v f s) (PageMoved c v f) := by
  refine happens_of_eventForm (body := fun s => s.moveDone c v (some f)) (fun _ => rfl) (fun s ⟨hmem, hends⟩ => ?_)
  rw [moveDone_of_moveEnds hends]
  refine ⟨(endMove_held ..).trans (aside_migrate s c v f).held, fun x => moves_endMove, fun lvl e at_ hleaf hpl _ _ hapart => ?_⟩
  have hwf : s.mem.bytes.wf = true := ((Mem.wf_iff s.mem).mp hmem).1
  rw [← pageVa] at hleaf
  rw [endMove_byte, migrate_bytes hleaf hpl]
  refine ⟨fun j hj => ?_, ?_⟩
  · rw [storedAt, if_neg (by omega), Cells.get_copyTo hwf hj]
    rfl
  · rw [numAt_of_bytes (x := (movedLeaf e (f * 65536)).toNat) (fun i hi => by rw [storedAt, if_pos (by omega), Nat.add_sub_cancel_left])]
    exact Nat.mod_eq_of_lt (movedLeaf e (f * 65536)).isLt

theorem event_enters_handler (wid : Nat) (w : Warp) (p : Path) : Happens (.asyncEventDelivery wid)
    (fun s => s.warps.find wid = some w ∧ (w.evFull = true ∨ w.evNotice = true) ∧ bitB (s.ctx w.ctx).trap 63 = true
      ∧ s.anyHandler wid w = false ∧ w.slot0 = some p ∧ p.begun = false ∧ s.mayIssue false wid 0 = true)
    (fun s t => ∃ q h, t.pathAt wid 0 = some q ∧ q.handler = some h ∧ q.pc = trapEntry (s.ctx w.ctx) ∧ q.queue = []
      ∧ h.pc = p.pc ∧ h.q = p.q ∧ h.queue = p.queue ∧ h.rcd.cls = 0x20 ∧ h.rcd.async = true
      ∧ h.rcd.cause = if w.evFull then 1 else 2) := by
  refine happens_of_eventForm (body := fun s => s.deliver wid) (fun _ => rfl) (fun s hok => ?_)
  obtain ⟨hw, hev, htrap, hnone, hp, hbegun, hissue⟩ := hok
  have hslot : w.slot 0 = some p := hp
  have hany : (w.evFull || w.evNotice) = true := by simpa using hev
  have hdel : s.deliverable wid = some 0 := by
    simp [State.deliverable, hw, hany, trapEn, htrap, hnone, hp, hslot, hbegun, hissue]
  let q := enterHandler (s.ctx w.ctx) p (asyncRec (if w.evFull then 1 else 2) (p.liveMask w))
  have henter : s.deliver wid
      = s.putWarp wid ((if w.evFull then { w with evFull := false } else { w with evNotice := false }).setSlot 0 (some q)) := by
    simp only [State.deliver, hw, trapEn, htrap, Bool.not_true, Bool.false_eq_true, if_false, hdel, hslot]
    rfl
  have hpath : (s.deliver wid).pathAt wid 0 = some q := by
    rw [henter]
    simp only [State.pathAt, State.putWarp, Tab.find_put, if_true, Option.bind_some]
    rfl
  exact ⟨by rw [henter]; rfl, q, _, hpath, rfl, rfl, rfl, rfl, rfl, rfl, rfl, rfl, rfl⟩

theorem event_without_handler (wid : Nat) (w : Warp) : Happens (.asyncEventDelivery wid)
    (fun s => s.warps.find wid = some w ∧ (w.evFull = true ∨ w.evNotice = true) ∧ bitB (s.ctx w.ctx).trap 63 = false)
    (fun _ t => t.warps.find wid = some { w with evFull := false, evNotice := false }) := by
  refine happens_of_eventForm (body := fun s => s.deliver wid) (fun _ => rfl) (fun s hok => ?_)
  obtain ⟨hw, -, htrap⟩ := hok
  simp [State.deliver, hw, trapEn, htrap, State.putWarp]

theorem nap_ends (wid k : Nat) (p : Path) : Happens (.napExpiry wid k)
    (fun s => s.pathAt wid k = some p ∧ s.napOver wid p = true)
    (fun _ t => t.pathIs wid k { p with nap := 0, stall := 0 }) := by
  refine happens_of_eventForm (body := fun s => s.wake wid k) (fun _ => rfl) (fun s hok => ?_)
  obtain ⟨hp, hover⟩ := hok
  obtain ⟨w, hw, hslot⟩ := Option.bind_eq_some_iff.mp hp
  simp only [State.wake, hp, hover, if_true]
  refine ⟨State.modPathAt_held .., ?_⟩
  unfold State.pathIs State.modPathAt
  rw [State.pathAt_modWarp k _ hw, hslot, Option.map_some, Warp.slot_setSlot w k _ (by rw [hslot]; rfl)]

end Sys2Proof.Machine

namespace Sys2Proof.Machine

/-! ## Events of paths: O50 -/

/-- Every clause of O50 but that of a migrate move holds; and page_moves says that the move's holds too of a canonical memory. -/
theorem pathEvents_iff_pageMoves : Obligations.PathEvents
    ↔ ∀ c v f, Happens (.migrateMove c v (some f)) (MoveEnds c v f) (PageMoved c v f) := by
  unfold Obligations.PathEvents
  refine ⟨fun ⟨_, _, _, _, hmove, _⟩ => hmove, fun hmove => ⟨?_, ?_, ?_, ?_, hmove, ?_, ?_, ?_, ?_⟩⟩
  · exact fragment_takes_slot
  · exact fragment_takes_stack
  · exact data_makes_ready
  · exact data_makes_live
  · exact move_without_frame
  · exact event_enters_handler
  · exact event_without_handler
  · exact nap_ends

/-- Page 1 of context 0 is a migrate-on-touch page of the drawer, walked through a table at address 0 whose first entry is a
pointer to the table itself and whose second is the page's leaf; the store of bytes lists the page's first byte twice. -/
def repeatedByte : State := { mem := { bytes := [(7, 0x80), (14, 0x01), (15, 0xE0), (2 ^ 48, 1), (2 ^ 48, 2)] } }

theorem peekLeaf_repeatedByte : peekLeaf repeatedByte 0 (1 * 65536) = .leaf 4 0xE001000000000000 8 := by decide +kernel

/-- Byte a of the state an outcome leaves. -/
def Outcome.byteAt (o : Out) (a : Nat) : Option Byte := match o with | .next t => some (t.byte a) | _ => none

/-- Refutes O50: a migrate move copies every entry of the page in turn, so that the last one of a key listed twice stands, where
a read finds the first. -/
theorem not_pathEvents : ¬ Obligations.PathEvents := by
  rw [pathEvents_iff_pageMoves]
  intro hmove
  obtain ⟨t, hexec, -, hpost⟩ := hmove 0 1 1 repeatedByte rfl (by unfold MoveEnds; decide +kernel)
  have hcopied := (hpost _ _ _ peekLeaf_repeatedByte (by decide) (by decide) (by decide) (by decide)).1 0 (by decide)
  have hrun : Outcome.byteAt (exec (.migrateMove 0 1 (some 1)) repeatedByte) 65536 = some 2 := by decide +kernel
  have hsecond : t.byte 65536 = 2 := by simpa [hexec, Outcome.byteAt] using hrun
  exact absurd (hsecond.symm.trans hcopied) (by decide +kernel)

end Sys2Proof.Machine

/-! PROOFS of the statements of the instruction words. First the encodings: a word of a format is the word that has its fields,
so a word decodes to an instruction exactly where it is that instruction's word (R39, R43). -/

namespace Sys2Proof

/-! ## Fields of a word -/

/-- A word of two parts has them for its fields. -/
theorem append_eq_iff {m n : Nat} {x : BitVec m} {y : BitVec n} {w : BitVec (m + n)} :
    x ++ y = w ↔ x = w.extractLsb' n m ∧ y = w.extractLsb' 0 n := by
  constructor
  · rintro rfl
    exact ⟨BitVec.extractLsb'_append_eq_left.symm, BitVec.extractLsb'_append_eq_right.symm⟩
  · rintro ⟨rfl, rfl⟩
    rw [BitVec.extractLsb'_append_extractLsb'_eq_extractLsb' (Nat.zero_add n).symm, field_all]

theorem append3_eq_iff {m n p : Nat} {x : BitVec m} {y : BitVec n} {z : BitVec p} {w : BitVec (m + n + p)} :
    x ++ y ++ z = w ↔ x = w.extractLsb' (p + n) m ∧ y = w.extractLsb' p n ∧ z = w.extractLsb' 0 p := by
  rw [append_eq_iff, append_eq_iff, field_field _ _ _ _ _ (Nat.le_of_eq (Nat.add_comm n m)), field_field _ _ _ _ _ (by omega), and_assoc]
  rfl

theorem append4_eq_iff {m n p q : Nat} {x : BitVec m} {y : BitVec n} {z : BitVec p} {u : BitVec q} {w : BitVec (m + n + p + q)} :
    x ++ y ++ z ++ u = w ↔ x = w.extractLsb' (q + (p + n)) m ∧ y = w.extractLsb' (q + p) n ∧ z = w.extractLsb' q p
      ∧ u = w.extractLsb' 0 q := by
  rw [append_eq_iff, append3_eq_iff, field_field _ _ _ _ _ (by omega), field_field _ _ _ _ _ (by omega),
    field_field _ _ _ _ _ (by omega), and_assoc, and_assoc]
  rfl

theorem encS3_eq_iff {o d a b : BitVec 6} {f : BitVec 8} {w : Word} :
    encS3 o d a b f = w ↔ o = w.extractLsb' 26 6 ∧ d = xF w ∧ a = yF w ∧ b = zF w ∧ f = fF w := by
  unfold encS3 xF yF zF fF
  rw [append_eq_iff, append_eq_iff, append_eq_iff, append_eq_iff]
  simp only [field_field, and_assoc, Nat.reduceAdd, Nat.reduceLeDiff]

theorem encSI_eq_iff {o d a : BitVec 6} {i : BitVec 14} {w : Word} :
    encSI o d a i = w ↔ o = w.extractLsb' 26 6 ∧ d = xF w ∧ a = yF w ∧ i = immF w := by
  unfold encSI xF yF immF
  rw [append_eq_iff, append_eq_iff, append_eq_iff]
  simp only [field_field, and_assoc, Nat.reduceAdd, Nat.reduceLeDiff]

theorem encSM_eq_iff {o d : BitVec 6} {r z l : BitVec 4} {i : BitVec 8} {w : Word} :
    encSM o d r z l i = w ↔ o = w.extractLsb' 26 6 ∧ d = xF w ∧ r = baseF w ∧ z = szF w ∧ l = smLa w ∧ i = dispF w := by
  unfold encSM xF baseF szF smLa dispF
  rw [append_eq_iff, append_eq_iff, append_eq_iff, append_eq_iff, append_eq_iff]
  simp only [field_field, and_assoc, Nat.reduceAdd, Nat.reduceLeDiff]

theorem encSX_eq_iff {o x y z : BitVec 6} {p l : BitVec 4} {w : Word} :
    encSX o x y z p l = w ↔ o = w.extractLsb' 26 6 ∧ x = xF w ∧ y = yF w ∧ z = zF w ∧ p = w.extractLsb' 4 4 ∧ l = laF w := by
  unfold encSX xF yF zF laF
  rw [append_eq_iff, append_eq_iff, append_eq_iff, append_eq_iff, append_eq_iff]
  simp only [field_field, and_assoc, Nat.reduceAdd, Nat.reduceLeDiff]

theorem encLane_eq_iff {o : BitVec 10} {f : LaneWord} {w : BitVec 96} :
    encLane o f = w ↔ o = w.extractLsb' 86 10 ∧ f = laneFields w := by
  obtain ⟨g, gn, la, ty, d, a, b, c, rnd, sat, md, ext⟩ := f
  unfold encLane laneFields
  rw [append_eq_iff, append_eq_iff, append_eq_iff, append_eq_iff, append_eq_iff, append_eq_iff, append_eq_iff, append_eq_iff, append_eq_iff, append_eq_iff, append_eq_iff, append_eq_iff]
  simp only [field_field, and_assoc, Nat.reduceAdd, Nat.reduceLeDiff, LaneWord.mk.injEq]

/-! ## What the checks of a field say -/

theorem zero_eq_ok {n : Nat} {x : BitVec n} {i j : Instr} : zero x i = .ok j ↔ x = 0 ∧ i = j := by
  unfold zero
  split <;> simp_all

theorem aF_eq_iff {r : BitVec 4} {x : BitVec 6} : aF r = x ↔ 0 = x.extractLsb' 4 2 ∧ r = x.extractLsb' 0 4 := by
  unfold aF
  rw [append_eq_iff]

theorem qF_eq_iff {r : BitVec 3} {x : BitVec 6} : qF r = x ↔ 0 = x.extractLsb' 3 3 ∧ r = x.extractLsb' 0 3 := by
  unfold qF
  rw [append_eq_iff]

theorem aReg_eq_ok {x : BitVec 6} {k : BitVec 4 → Except Cause Instr} {j : Instr} :
    aReg x k = .ok j ↔ ∃ r, aF r = x ∧ k r = .ok j := by
  unfold aReg
  simp only [aF_eq_iff, eq_comm (a := (0 : BitVec 2))]
  split <;> simp_all

theorem qReg_eq_ok {x : BitVec 6} {k : BitVec 3 → Except Cause Instr} {j : Instr} :
    qReg x k = .ok j ↔ ∃ r, qF r = x ∧ k r = .ok j := by
  unfold qReg
  simp only [qF_eq_iff, eq_comm (a := (0 : BitVec 3))]
  split <;> simp_all

theorem bind_eq_ok {m : Except Cause Instr} {f : Instr → Except Cause Instr} {j : Instr} :
    m >>= f = .ok j ↔ ∃ i, m = .ok i ∧ f i = .ok j := by
  cases m <;> simp [bind, Except.bind]

theorem yz_zero_iff {w : Word} : w.extractLsb' 8 12 = 0 ↔ yF w = 0 ∧ zF w = 0 := by
  rw [show (0 : BitVec 12) = (0 : BitVec 6) ++ (0 : BitVec 6) from rfl, eq_comm, append_eq_iff]
  simp only [field_field, Nat.reduceAdd, Nat.reduceLeDiff, eq_comm, yF, zF]

theorem xyz_zero_iff {w : Word} : w.extractLsb' 8 18 = 0 ↔ xF w = 0 ∧ yF w = 0 ∧ zF w = 0 := by
  rw [show (0 : BitVec 18) = (0 : BitVec 6) ++ (0 : BitVec 6) ++ (0 : BitVec 6) from rfl, eq_comm, append_eq_iff, append_eq_iff]
  simp only [field_field, and_assoc, Nat.reduceAdd, Nat.reduceLeDiff, eq_comm, xF, yF, zF]

theorem aF_eq_append (r : BitVec 4) : aF r = (0 : BitVec 1) ++ (0 : BitVec 1) ++ r := by revert r; decide

/-! ## Decoding a word that an instruction has -/

theorem bit_cases (u : BitVec 1) : u = 0 ∨ u = 1 := by revert u; decide

theorem bits2_cases (n : BitVec 2) : n = 0 ∨ n = 1 ∨ n = 2 ∨ n = 3 := by revert n; decide

theorem bits3_cases (n : BitVec 3) : n = 0 ∨ n = 1 ∨ n = 2 ∨ n = 3 ∨ n = 4 ∨ n = 5 ∨ n = 6 ∨ n = 7 := by revert n; decide

theorem decodeScalar_encodeScalar {i : Instr} {w : Word} (h : encodeScalar i = some w) : decodeScalar w = .ok i := by
  cases i with
  | sadd | ssub | smul | sand | sor | sxor | sshl | sshr | ssar | spopc | sclz | smov =>
    obtain ⟨hm, rfl, rfl, hz, hf⟩ := encS3_eq_iff.mp (Option.some.inj h)
    simp [decodeScalar, ← hm, scalar01, ← hf, ← hz, zero_eq_ok]
  | smulh d a b u | sdiv d a b u | srem d a b u | smin d a b u | smax d a b u =>
    obtain ⟨hm, rfl, rfl, rfl, hf⟩ := encS3_eq_iff.mp (Option.some.inj h)
    obtain rfl | rfl := bit_cases u <;> simp [decodeScalar, ← hm, scalar01, ← hf]
  | ssel d a b n =>
    obtain ⟨hm, rfl, rfl, rfl, hf⟩ := encS3_eq_iff.mp (Option.some.inj h)
    obtain rfl | rfl | rfl | rfl | rfl | rfl | rfl | rfl := bits3_cases n <;> simp [decodeScalar, ← hm, scalar01, ← hf]
  | scmp d a b n =>
    obtain ⟨hm, hx, rfl, rfl, hf⟩ := encS3_eq_iff.mp (Option.some.inj h)
    obtain rfl | rfl | rfl | rfl | rfl | rfl | rfl | rfl := bits3_cases n <;>
      simp [decodeScalar, ← hm, scalar01, ← hf, ← hx, qReg_qF]
  | acmp d a b n =>
    obtain ⟨hm, hx, hy, hz, hf⟩ := encS3_eq_iff.mp (Option.some.inj h)
    obtain rfl | rfl | rfl | rfl | rfl | rfl | rfl | rfl := bits3_cases n <;>
      simp [decodeScalar, ← hm, scalar02, ← hf, ← hx, ← hy, ← hz, qReg_qF, aReg_aF]
  | aadd | asub | aset | asetW | aget | agetHi  =>
    obtain ⟨hm, hx, hy, hz, hf⟩ := encS3_eq_iff.mp (Option.some.inj h)
    simp [decodeScalar, ← hm, scalar02, ← hf, ← hx, ← hy, ← hz, aReg_aF, zero_eq_ok]
  | saddi | sandi | sori | sxori =>
    obtain ⟨hm, rfl, rfl, rfl⟩ := encSI_eq_iff.mp (Option.some.inj h)
    simp [decodeScalar, ← hm, scalarImm]
  | sshli | sshri | ssari =>
    obtain ⟨hm, rfl, rfl, hi⟩ := encSI_eq_iff.mp (Option.some.inj h)
    rw [append_eq_iff, immF, field_field _ _ _ _ _ (by decide), field_field _ _ _ _ _ (by decide)] at hi
    obtain ⟨hhigh, rfl⟩ := hi
    simp [decodeScalar, ← hm, scalarImm, shiftImm, zero_eq_ok, ← hhigh]
  | scmpi =>
    obtain ⟨hm, hx, rfl, hi⟩ := encSI_eq_iff.mp (Option.some.inj h)
    rw [append_eq_iff, immF, field_field _ _ _ _ _ (by decide), field_field _ _ _ _ _ (by decide)] at hi
    obtain ⟨rfl, rfl⟩ := hi
    simp [decodeScalar, ← hm, scalarImm, ← hx, qReg_qF]
  | aaddi =>
    obtain ⟨hm, hx, hy, rfl⟩ := encSI_eq_iff.mp (Option.some.inj h)
    simp [decodeScalar, ← hm, scalarImm, ← hx, ← hy, aReg_aF]
  | slui | lrun =>
    obtain ⟨hm, rfl, rfl⟩ := append3_eq_iff.mp (Option.some.inj h)
    simp [decodeScalar, ← hm, scalarImm, xF]
  | br | call =>
    obtain ⟨hm, hx, rfl⟩ := append3_eq_iff.mp (Option.some.inj h)
    simp [decodeScalar, ← hm, scalarCtl, ← hx, zero_eq_ok]
  | bq | sysr | sysw | pset =>
    obtain ⟨hm, rfl, rfl, hz⟩ := append4_eq_iff.mp (Option.some.inj h)
    simp [decodeScalar, ← hm, scalarCtl, scalar30, scalar34, fF, yzF, xF, ← hz]
  | brkpt =>
    obtain ⟨hm, hx, rfl, hf⟩ := append4_eq_iff.mp (Option.some.inj h)
    simp [decodeScalar, ← hm, scalar30, fF, yzF, xF, ← hx, ← hf, zero_eq_ok]
  | trap =>
    obtain ⟨hm, hx, rfl, hf⟩ := append4_eq_iff.mp (Option.some.inj h)
    rw [show (0 : BitVec 10) = (0 : BitVec 6) ++ (0 : BitVec 4) from rfl, append_eq_iff, field_field _ _ _ _ _ (by decide),
      field_field _ _ _ _ _ (by decide)] at hx
    simp [decodeScalar, ← hm, scalar30, fF, xF, ← hf, ← hx.1, ← hx.2, zero_eq_ok, bind_eq_ok]
  | brd =>
    obtain ⟨hhead, rfl⟩ := append_eq_iff.mp (Option.some.inj h)
    obtain ⟨hm, rfl, rfl, rfl⟩ := append4_eq_iff.mp hhead
    simp only [field_field, Nat.reduceAdd, Nat.reduceLeDiff] at hm ⊢
    simp [decodeScalar, ← hm, scalarCtl]
  | join | ret | exit | yield | tret | pcancel | prepeat =>
    obtain ⟨hm, hx, hy, hz, hf⟩ := encS3_eq_iff.mp (Option.some.inj h)
    have hxyz := xyz_zero_iff.mpr ⟨hx.symm, hy.symm, hz.symm⟩
    simp [decodeScalar, ← hm, scalarCtl, scalar14, scalar30, scalar34, ← hf, hxyz, zero_eq_ok]
  | calli | nap | gangset =>
    obtain ⟨hm, hx, rfl, hz, hf⟩ := encS3_eq_iff.mp (Option.some.inj h)
    simp [decodeScalar, ← hm, scalarCtl, scalar14, scalar24, ← hf, ← hx, ← hz, zero_eq_ok, bind_eq_ok]
  | loop =>
    obtain ⟨hm, rfl, hy, rfl⟩ := encSI_eq_iff.mp (Option.some.inj h)
    simp [decodeScalar, ← hm, scalarCtl, ← hy, zero_eq_ok]
  | sld | sst =>
    obtain ⟨hm, rfl, rfl, rfl, rfl, rfl⟩ := encSM_eq_iff.mp (Option.some.inj h)
    simp [decodeScalar, ← hm, scalarMem]
  | slda | ssta =>
    obtain ⟨hm, hx, rfl, hz, rfl, rfl⟩ := encSM_eq_iff.mp (Option.some.inj h)
    simp [decodeScalar, ← hm, scalarMem, ← hx, ← hz, aReg_aF, (aF_eq_iff.mp rfl).1.symm]
  | samo =>
    obtain ⟨hm, rfl, hy, rfl, hf⟩ := encS3_eq_iff.mp (Option.some.inj h)
    obtain ⟨ho, hr, hs⟩ := append3_eq_iff.mp hf
    simp only [fF, field_field, Nat.reduceAdd, Nat.reduceLeDiff] at ho hr hs
    simp [decodeScalar, ← hm, scalarMem, ← hy, ← ho, ← hr, ← hs, aReg_aF, (aF_eq_iff.mp rfl).1.symm]
  | lsync =>
    obtain ⟨hm, hz⟩ := append_eq_iff.mp (Option.some.inj h)
    simp [decodeScalar, ← hm, ← hz, zero_eq_ok]
  | bara | barw | baraw =>
    obtain ⟨hm, hx, hy, hz, hf⟩ := encS3_eq_iff.mp (Option.some.inj h)
    have hyz := yz_zero_iff.mpr ⟨hy.symm, hz.symm⟩
    simp [decodeScalar, ← hm, scalar24, ← hf, ← hx, hyz, aReg_aF, zero_eq_ok]
  | fence =>
    obtain ⟨hm, hx, hy, hz, hf⟩ := encS3_eq_iff.mp (Option.some.inj h)
    obtain ⟨hone, hl, hs, ho⟩ := append4_eq_iff.mp hx
    have hyz := yz_zero_iff.mpr ⟨hy.symm, hz.symm⟩
    simp only [xF, field_field, Nat.reduceAdd, Nat.reduceLeDiff] at hone hl hs ho
    simp [decodeScalar, ← hm, scalar30, ← hf, ← hone, ← hl, ← hs, ← ho, hyz, zero_eq_ok, bind_eq_ok]
  | txld | txst | txpf | wbload =>
    obtain ⟨hm, hx, hy, hz, hp, hl⟩ := encSX_eq_iff.mp (Option.some.inj h)
    obtain ⟨hq, hr⟩ := append_eq_iff.mp hx
    simp only [xF, field_field, Nat.reduceAdd, Nat.reduceLeDiff] at hq hr
    simp [decodeScalar, ← hm, scalar28, opF, ← hp, ← hq, ← hr, ← hy, ← hz, ← hl, aReg_aF, zero_eq_ok, bind_eq_ok]
  | recfence r =>
    obtain ⟨hm, hx, hy, hz, hp, hl⟩ := encSX_eq_iff.mp (Option.some.inj h)
    have hyz := yz_zero_iff.mpr ⟨hy.symm, hz.symm⟩
    rw [aF_eq_append, append3_eq_iff] at hx
    simp only [xF, field_field, Nat.reduceAdd, Nat.reduceLeDiff] at hx
    simp [decodeScalar, ← hm, scalar28, opF, ← hp, ← hx.1, ← hx.2.1, ← hx.2.2, hyz, ← hl, zero_eq_ok, bind_eq_ok]
  | recfenceAll =>
    obtain ⟨hm, hx, hy, hz, hp, hl⟩ := encSX_eq_iff.mp (Option.some.inj h)
    have hyz := yz_zero_iff.mpr ⟨hy.symm, hz.symm⟩
    rw [show (0x10 : BitVec 6) = (0 : BitVec 1) ++ (1 : BitVec 1) ++ (0 : BitVec 4) from rfl, append3_eq_iff] at hx
    simp only [xF, field_field, Nat.reduceAdd, Nat.reduceLeDiff] at hx
    simp [decodeScalar, ← hm, scalar28, opF, ← hp, ← hx.1, ← hx.2.1, ← hx.2.2, hyz, ← hl, zero_eq_ok, bind_eq_ok]
  | qfence | qwait =>
    obtain ⟨hm, hx, hy, hz, hp, hl⟩ := encSX_eq_iff.mp (Option.some.inj h)
    have hyz := yz_zero_iff.mpr ⟨hy.symm, hz.symm⟩
    simp [decodeScalar, ← hm, scalar28, opF, ← hp, ← hx, hyz, ← hl, aReg_aF, zero_eq_ok, bind_eq_ok]
  | cnode | cenrol | cunrol | cread | csettle | cwatch | crepar | creadG =>
    obtain ⟨hm, hx, hy, hz, hp, hl⟩ := encSX_eq_iff.mp (Option.some.inj h)
    simp [decodeScalar, ← hm, scalar2C, opF, ← hp, ← hx, ← hy, ← hz, ← hl, aReg_aF, zero_eq_ok, bind_eq_ok]
  | raise | raiseSum | reap =>
    obtain ⟨hm, hx, hy, hz, hp, hl⟩ := encSX_eq_iff.mp (Option.some.inj h)
    simp [decodeScalar, ← hm, scalar2E, opF, ← hp, ← hx, ← hy, ← hz, ← hl, aReg_aF, zero_eq_ok]
  | cfree | plotend =>
    obtain ⟨hm, hx, hy, hz, hp, hl⟩ := encSX_eq_iff.mp (Option.some.inj h)
    have hyz := yz_zero_iff.mpr ⟨hy.symm, hz.symm⟩
    simp [decodeScalar, ← hm, scalar2C, scalar2E, opF, ← hp, ← hx, hyz, ← hl, zero_eq_ok, bind_eq_ok]
  | _ => exact nomatch h

/-! ## A word that decodes is the word of its instruction -/

theorem ofNat_eq_of_toNat {n k : Nat} {x : BitVec n} (h : x.toNat = k) : BitVec.ofNat n k = x :=
  h ▸ BitVec.eq_of_toNat_eq (by simp)

section
variable {w : Word} {i : Instr}

theorem encodeScalar_of_scalar01 (hm : 0x01 = w.extractLsb' 26 6) (h : scalar01 w = .ok i) : encodeScalar i = some w := by
  unfold scalar01 at h
  split at h
  case h_39 => cases h
  case h_20 hf | h_21 hf | h_22 hf =>
    obtain ⟨hz, rfl⟩ := zero_eq_ok.mp h
    exact congrArg some (encS3_eq_iff.mpr ⟨hm, rfl, rfl, hz.symm, ofNat_eq_of_toNat hf⟩)
  case h_31 hf | h_32 hf | h_33 hf | h_34 hf | h_35 hf | h_36 hf | h_37 hf | h_38 hf =>
    obtain ⟨d, hd, h⟩ := qReg_eq_ok.mp h
    obtain rfl := Except.ok.inj h
    exact congrArg some (encS3_eq_iff.mpr ⟨hm, hd, rfl, rfl, ofNat_eq_of_toNat hf⟩)
  all_goals
    rename_i hf
    obtain rfl := Except.ok.inj h
    exact congrArg some (encS3_eq_iff.mpr ⟨hm, rfl, rfl, rfl, ofNat_eq_of_toNat hf⟩)

theorem encodeScalar_of_scalar02 (hm : 0x02 = w.extractLsb' 26 6) (h : scalar02 w = .ok i) : encodeScalar i = some w := by
  unfold scalar02 at h
  split at h
  all_goals rename_i hf
  all_goals simp only [aReg_eq_ok, qReg_eq_ok, zero_eq_ok, Except.ok.injEq, reduceCtorEq] at h
  case h_1 =>
    obtain ⟨d, hd, a, ha, rfl⟩ := h
    exact congrArg some (encS3_eq_iff.mpr ⟨hm, hd, ha, rfl, ofNat_eq_of_toNat hf⟩)
  case h_2 =>
    obtain ⟨a, ha, b, hb, rfl⟩ := h
    exact congrArg some (encS3_eq_iff.mpr ⟨hm, rfl, ha, hb, ofNat_eq_of_toNat hf⟩)
  case h_3 =>
    obtain ⟨d, hd, hz, rfl⟩ := h
    exact congrArg some (encS3_eq_iff.mpr ⟨hm, hd, rfl, hz.symm, ofNat_eq_of_toNat hf⟩)
  case h_4 =>
    obtain ⟨d, hd, rfl⟩ := h
    exact congrArg some (encS3_eq_iff.mpr ⟨hm, hd, rfl, rfl, ofNat_eq_of_toNat hf⟩)
  case h_5 | h_6 =>
    obtain ⟨a, ha, hz, rfl⟩ := h
    exact congrArg some (encS3_eq_iff.mpr ⟨hm, rfl, ha, hz.symm, ofNat_eq_of_toNat hf⟩)
  all_goals
    obtain ⟨d, hd, a, ha, b, hb, rfl⟩ := h
    exact congrArg some (encS3_eq_iff.mpr ⟨hm, hd, ha, hb, ofNat_eq_of_toNat hf⟩)

theorem encodeScalar_of_scalarImm {m : Nat} (hm : BitVec.ofNat 6 m = w.extractLsb' 26 6) (h : scalarImm m w = .ok i) :
    encodeScalar i = some w := by
  unfold scalarImm at h
  split at h
  all_goals simp only [shiftImm, aReg_eq_ok, qReg_eq_ok, zero_eq_ok, Except.ok.injEq, reduceCtorEq] at h
  case h_5 | h_6 | h_7 =>
    obtain ⟨hz, rfl⟩ := h
    refine congrArg some (encSI_eq_iff.mpr ⟨hm, rfl, rfl, append_eq_iff.mpr ⟨?_, ?_⟩⟩)
    · rw [immF, field_field _ _ _ _ _ (by decide), hz]
    · rw [immF, field_field _ _ _ _ _ (by decide)]
  case h_8 =>
    obtain ⟨d, hd, rfl⟩ := h
    refine congrArg some (encSI_eq_iff.mpr ⟨hm, hd, rfl, append_eq_iff.mpr ⟨?_, ?_⟩⟩)
    · rw [immF, field_field _ _ _ _ _ (by decide)]
    · rw [immF, field_field _ _ _ _ _ (by decide)]
  case h_9 =>
    obtain ⟨d, hd, a, ha, rfl⟩ := h
    exact congrArg some (encSI_eq_iff.mpr ⟨hm, hd, ha, rfl⟩)
  case h_10 =>
    subst h
    exact congrArg some (append3_eq_iff.mpr ⟨hm, rfl, rfl⟩)
  all_goals
    subst h
    exact congrArg some (encSI_eq_iff.mpr ⟨hm, rfl, rfl, rfl⟩)

theorem encodeScalar_of_scalar14 (hm : 0x14 = w.extractLsb' 26 6) (h : scalar14 w = .ok i) : encodeScalar i = some w := by
  unfold scalar14 at h
  split at h
  all_goals rename_i hf
  all_goals simp only [xyz_zero_iff, bind_eq_ok, zero_eq_ok, reduceCtorEq] at h
  case h_2 | h_5 =>
    obtain ⟨_, ⟨hx, rfl⟩, hz, rfl⟩ := h
    exact congrArg some (encS3_eq_iff.mpr ⟨hm, hx.symm, rfl, hz.symm, ofNat_eq_of_toNat hf⟩)
  all_goals
    obtain ⟨⟨hx, hy, hz⟩, rfl⟩ := h
    exact congrArg some (encS3_eq_iff.mpr ⟨hm, hx.symm, hy.symm, hz.symm, ofNat_eq_of_toNat hf⟩)

theorem encodeScalar_of_scalarCtl {m : Nat} (hm : BitVec.ofNat 6 m = w.extractLsb' 26 6) (h : scalarCtl m w = .ok i) :
    encodeScalar i = some w := by
  unfold scalarCtl at h
  split at h
  case h_5 => exact encodeScalar_of_scalar14 hm h
  all_goals simp only [zero_eq_ok, Except.ok.injEq, reduceCtorEq] at h
  case h_1 | h_4 =>
    obtain ⟨hx, rfl⟩ := h
    exact congrArg some (append3_eq_iff.mpr ⟨hm, hx.symm, rfl⟩)
  case h_2 =>
    subst h
    exact congrArg some (append4_eq_iff.mpr ⟨hm, rfl, rfl, rfl⟩)
  case h_3 =>
    subst h
    refine congrArg some (append_eq_iff.mpr ⟨append4_eq_iff.mpr ⟨?_, ?_, ?_, ?_⟩, rfl⟩) <;>
      rw [field_field _ _ _ _ _ (by decide)]
    exact hm
  case h_6 =>
    obtain ⟨hy, rfl⟩ := h
    exact congrArg some (encSI_eq_iff.mpr ⟨hm, rfl, hy.symm, rfl⟩)

theorem encodeScalar_of_scalarMem {m : Nat} (hm : BitVec.ofNat 6 m = w.extractLsb' 26 6) (h : scalarMem m w = .ok i) :
    encodeScalar i = some w := by
  unfold scalarMem at h
  split at h
  case h_1 | h_2 =>
    obtain rfl := Except.ok.inj h
    exact congrArg some (encSM_eq_iff.mpr ⟨hm, rfl, rfl, rfl, rfl, rfl⟩)
  case h_3 =>
    split at h
    · cases h
    · simp only [aReg_eq_ok, Except.ok.injEq] at h
      obtain ⟨d, hd, rfl⟩ := h
      exact congrArg some (encSM_eq_iff.mpr ⟨hm, hd, rfl, rfl, rfl, rfl⟩)
  case h_4 =>
    split at h
    · rename_i hz
      simp only [aReg_eq_ok, Except.ok.injEq] at h
      obtain ⟨d, hd, rfl⟩ := h
      exact congrArg some (encSM_eq_iff.mpr ⟨hm, hd, rfl, hz.symm, rfl, rfl⟩)
    · cases h
  case h_5 =>
    split at h
    · cases h
    · simp only [aReg_eq_ok, Except.ok.injEq] at h
      obtain ⟨a, ha, rfl⟩ := h
      refine congrArg some (encS3_eq_iff.mpr ⟨hm, rfl, ha, rfl, append3_eq_iff.mpr ⟨?_, ?_, ?_⟩⟩) <;>
        rw [fF, field_field _ _ _ _ _ (by decide)]
  case h_6 => cases h

theorem encodeScalar_of_scalar24 (hm : 0x24 = w.extractLsb' 26 6) (h : scalar24 w = .ok i) : encodeScalar i = some w := by
  unfold scalar24 at h
  split at h
  all_goals rename_i hf
  all_goals simp only [yz_zero_iff, aReg_eq_ok, bind_eq_ok, zero_eq_ok, reduceCtorEq] at h
  case h_4 =>
    obtain ⟨_, ⟨hx, rfl⟩, hz, rfl⟩ := h
    exact congrArg some (encS3_eq_iff.mpr ⟨hm, hx.symm, rfl, hz.symm, ofNat_eq_of_toNat hf⟩)
  all_goals
    obtain ⟨b, hb, ⟨hy, hz⟩, rfl⟩ := h
    exact congrArg some (encS3_eq_iff.mpr ⟨hm, hb, hy.symm, hz.symm, ofNat_eq_of_toNat hf⟩)

/-- The x field of an engine form: its queue, and the register above it. -/
theorem queue_field : (w.extractLsb' 24 2 ++ w.extractLsb' 20 4 : BitVec 6) = xF w := by
  refine append_eq_iff.mpr ⟨?_, ?_⟩ <;> rw [xF, field_field _ _ _ _ _ (by decide)]

theorem encodeScalar_of_scalar28 (hm : 0x28 = w.extractLsb' 26 6) (h : scalar28 w = .ok i) : encodeScalar i = some w := by
  unfold scalar28 at h
  dsimp only at h
  split at h
  all_goals rename_i hp
  all_goals simp only [yz_zero_iff, aReg_eq_ok, bind_eq_ok, zero_eq_ok, Except.ok.injEq, reduceCtorEq] at h
  case h_1 | h_2 =>
    obtain ⟨g, hg, rfl⟩ := h
    exact congrArg some (encSX_eq_iff.mpr ⟨hm, queue_field, hg, rfl, ofNat_eq_of_toNat hp, rfl⟩)
  case h_3 =>
    obtain ⟨_, ⟨g, hg, hz, rfl⟩, hl, rfl⟩ := h
    exact congrArg some (encSX_eq_iff.mpr ⟨hm, queue_field, hg, hz.symm, ofNat_eq_of_toNat hp, hl.symm⟩)
  case h_4 =>
    obtain ⟨hr, rfl⟩ := h
    exact congrArg some (encSX_eq_iff.mpr ⟨hm, hr ▸ queue_field, rfl, rfl, ofNat_eq_of_toNat hp, rfl⟩)
  case h_5 =>
    obtain ⟨_, ⟨_, ⟨_, ⟨htop, rfl⟩, hr, rfl⟩, ⟨hy, hz⟩, rfl⟩, hl, rfl⟩ := h
    have hx : w.extractLsb' 25 1 ++ w.extractLsb' 24 1 ++ w.extractLsb' 20 4 = xF w := by
      refine append3_eq_iff.mpr ⟨?_, ?_, ?_⟩ <;> rw [xF, field_field _ _ _ _ _ (by decide)]
    rw [htop] at hx
    by_cases hall : w.extractLsb' 24 1 = 1
    · rw [if_pos hall] at hr ⊢
      rw [hall, hr] at hx
      exact congrArg some (encSX_eq_iff.mpr ⟨hm, hx, hy.symm, hz.symm, ofNat_eq_of_toNat hp, hl.symm⟩)
    · rw [if_neg hall]
      rw [(bit_cases _).resolve_right hall, ← aF_eq_append] at hx
      exact congrArg some (encSX_eq_iff.mpr ⟨hm, hx, hy.symm, hz.symm, ofNat_eq_of_toNat hp, hl.symm⟩)
  case h_6 =>
    obtain ⟨_, ⟨m, hx, ⟨hy, hz⟩, rfl⟩, hl, rfl⟩ := h
    exact congrArg some (encSX_eq_iff.mpr ⟨hm, hx, hy.symm, hz.symm, ofNat_eq_of_toNat hp, hl.symm⟩)
  case h_7 =>
    obtain ⟨m, hx, ⟨hy, hz⟩, rfl⟩ := h
    exact congrArg some (encSX_eq_iff.mpr ⟨hm, hx, hy.symm, hz.symm, ofNat_eq_of_toNat hp, rfl⟩)

theorem encodeScalar_of_scalar2C (hm : 0x2C = w.extractLsb' 26 6) (h : scalar2C w = .ok i) : encodeScalar i = some w := by
  unfold scalar2C at h
  split at h
  all_goals rename_i hp
  all_goals simp only [yz_zero_iff, aReg_eq_ok, bind_eq_ok, zero_eq_ok, reduceCtorEq] at h
  case h_1 | h_4 | h_5 =>
    obtain ⟨hz, rfl⟩ := h
    exact congrArg some (encSX_eq_iff.mpr ⟨hm, rfl, rfl, hz.symm, ofNat_eq_of_toNat hp, rfl⟩)
  case h_2 =>
    obtain ⟨a, ha, hl, rfl⟩ := h
    exact congrArg some (encSX_eq_iff.mpr ⟨hm, rfl, ha, rfl, ofNat_eq_of_toNat hp, hl.symm⟩)
  case h_3 =>
    obtain ⟨_, ⟨a, ha, hl, rfl⟩, hx, rfl⟩ := h
    exact congrArg some (encSX_eq_iff.mpr ⟨hm, hx.symm, ha, rfl, ofNat_eq_of_toNat hp, hl.symm⟩)
  case h_6 =>
    obtain ⟨hl, rfl⟩ := h
    exact congrArg some (encSX_eq_iff.mpr ⟨hm, rfl, rfl, rfl, ofNat_eq_of_toNat hp, hl.symm⟩)
  case h_7 =>
    obtain ⟨_, ⟨hl, rfl⟩, hz, rfl⟩ := h
    exact congrArg some (encSX_eq_iff.mpr ⟨hm, rfl, rfl, hz.symm, ofNat_eq_of_toNat hp, hl.symm⟩)
  case h_8 =>
    obtain ⟨_, ⟨hl, rfl⟩, ⟨hy, hz⟩, rfl⟩ := h
    exact congrArg some (encSX_eq_iff.mpr ⟨hm, rfl, hy.symm, hz.symm, ofNat_eq_of_toNat hp, hl.symm⟩)
  case h_9 =>
    obtain ⟨a, ha, hz, rfl⟩ := h
    exact congrArg some (encSX_eq_iff.mpr ⟨hm, rfl, ha, hz.symm, ofNat_eq_of_toNat hp, rfl⟩)

theorem encodeScalar_of_scalar2E (hm : 0x2E = w.extractLsb' 26 6) (h : scalar2E w = .ok i) : encodeScalar i = some w := by
  unfold scalar2E at h
  split at h
  all_goals rename_i hp
  all_goals simp only [yz_zero_iff, aReg_eq_ok, bind_eq_ok, zero_eq_ok, reduceCtorEq] at h
  case h_1 | h_2 =>
    obtain ⟨hl, rfl⟩ := h
    exact congrArg some (encSX_eq_iff.mpr ⟨hm, rfl, rfl, rfl, ofNat_eq_of_toNat hp, hl.symm⟩)
  case h_3 =>
    obtain ⟨_, ⟨hl, rfl⟩, ⟨hy, hz⟩, rfl⟩ := h
    exact congrArg some (encSX_eq_iff.mpr ⟨hm, rfl, hy.symm, hz.symm, ofNat_eq_of_toNat hp, hl.symm⟩)
  case h_4 =>
    obtain ⟨a, ha, hz, rfl⟩ := h
    exact congrArg some (encSX_eq_iff.mpr ⟨hm, rfl, ha, hz.symm, ofNat_eq_of_toNat hp, rfl⟩)

theorem encodeScalar_of_scalar30 (hm : 0x30 = w.extractLsb' 26 6) (h : scalar30 w = .ok i) : encodeScalar i = some w := by
  unfold scalar30 at h
  split at h
  all_goals rename_i hf
  all_goals simp only [yz_zero_iff, xyz_zero_iff, bind_eq_ok, zero_eq_ok, Except.ok.injEq, reduceCtorEq] at h
  case h_1 | h_2 =>
    subst h
    exact congrArg some (append4_eq_iff.mpr ⟨hm, rfl, rfl, ofNat_eq_of_toNat hf⟩)
  case h_3 =>
    obtain ⟨_, ⟨hx, rfl⟩, hy, rfl⟩ := h
    have hhigh : (0 : BitVec 6) ++ (0 : BitVec 4) = w.extractLsb' 16 10 := by
      rw [append_eq_iff, field_field _ _ _ _ _ (by decide), field_field _ _ _ _ _ (by decide)]
      exact ⟨hx.symm, hy.symm⟩
    exact congrArg some (append4_eq_iff.mpr ⟨hm, hhigh, rfl, ofNat_eq_of_toNat hf⟩)
  case h_4 =>
    obtain ⟨⟨hx, hy, hz⟩, rfl⟩ := h
    exact congrArg some (encS3_eq_iff.mpr ⟨hm, hx.symm, hy.symm, hz.symm, ofNat_eq_of_toNat hf⟩)
  case h_5 =>
    obtain ⟨hx, rfl⟩ := h
    exact congrArg some (append4_eq_iff.mpr ⟨hm, hx.symm, rfl, ofNat_eq_of_toNat hf⟩)
  case h_6 =>
    obtain ⟨_, ⟨hone, rfl⟩, ⟨hy, hz⟩, rfl⟩ := h
    refine congrArg some (encS3_eq_iff.mpr
      ⟨hm, append4_eq_iff.mpr ⟨?_, ?_, ?_, ?_⟩, hy.symm, hz.symm, ofNat_eq_of_toNat hf⟩) <;>
      rw [xF, field_field _ _ _ _ _ (by decide)]
    exact hone.symm

theorem encodeScalar_of_scalar34 (hm : 0x34 = w.extractLsb' 26 6) (h : scalar34 w = .ok i) : encodeScalar i = some w := by
  unfold scalar34 at h
  split at h
  all_goals rename_i hf
  case h_1 =>
    obtain rfl := Except.ok.inj h
    exact congrArg some (append4_eq_iff.mpr ⟨hm, rfl, rfl, ofNat_eq_of_toNat hf⟩)
  case h_2 | h_3 =>
    split at h
    · rename_i hz
      obtain ⟨hx, hy, hz⟩ := xyz_zero_iff.mp hz
      obtain rfl := Except.ok.inj h
      exact congrArg some (encS3_eq_iff.mpr ⟨hm, hx.symm, hy.symm, hz.symm, ofNat_eq_of_toNat hf⟩)
    · cases h
  case h_4 => cases h

theorem encodeScalar_of_decodeScalar (h : decodeScalar w = .ok i) : encodeScalar i = some w := by
  unfold decodeScalar at h
  dsimp only at h
  have hm : BitVec.ofNat 6 (w.extractLsb' 26 6).toNat = w.extractLsb' 26 6 := ofNat_eq_of_toNat rfl
  generalize (w.extractLsb' 26 6).toNat = m at h hm
  split at h
  · split at h
    · subst m; exact encodeScalar_of_scalar01 hm h
    · split at h
      · subst m; exact encodeScalar_of_scalar02 hm h
      · exact encodeScalar_of_scalarImm hm h
  · split at h
    · exact encodeScalar_of_scalarCtl hm h
    · split at h
      · exact encodeScalar_of_scalarMem hm h
      · split at h
        case h_1 =>
          obtain rfl := Except.ok.inj h
          exact congrArg some (append3_eq_iff.mpr ⟨hm, rfl, rfl⟩)
        case h_2 =>
          obtain ⟨hz, rfl⟩ := zero_eq_ok.mp h
          exact congrArg some (append_eq_iff.mpr ⟨hm, hz.symm⟩)
        case h_3 => exact encodeScalar_of_scalar24 hm h
        case h_4 => exact encodeScalar_of_scalar28 hm h
        case h_5 => exact encodeScalar_of_scalar2C hm h
        case h_6 => exact encodeScalar_of_scalar2E hm h
        case h_7 => exact encodeScalar_of_scalar30 hm h
        case h_8 => exact encodeScalar_of_scalar34 hm h
        case h_9 => cases h

end

/-! ## Lane words -/

/-- An RWAIT that is well formed has the bit of MOD that tells the two forms apart (R60, R71). -/
theorem rwaitFill_wf {f : LaneWord} (h : (Instr.rwaitFill f).wf = true) : bitB f.md 0 = false := by
  simp only [Instr.wf, Instr.illegal, laneCard, Card.illegal, Option.isNone_iff_eq_none] at h
  split_ifs at h with htype hfield hreg
  simp only [Card.fieldOk, cardRing, Bool.not_eq_true', Bool.not_eq_false, Bool.and_eq_true, beq_iff_eq] at hfield
  obtain ⟨⟨⟨-, hmd⟩, -⟩, -⟩ := hfield
  rw [show ~~~(BitVec.ofNat 5 0) = BitVec.allOnes 5 from rfl, BitVec.and_allOnes] at hmd
  rw [hmd]
  rfl

theorem rwaitFree_wf {f : LaneWord} (h : (Instr.rwaitFree f).wf = true) : bitB f.md 0 = true := by
  simp only [Instr.wf, Instr.illegal, laneCard, Card.illegal, Option.isNone_iff_eq_none] at h
  split_ifs at h with htype hfield hreg
  simp_all [Card.fieldOk, LaneWord.imm]

theorem laneForm?_of_laneParts {i : Instr} {o : BitVec 10} {f : LaneWord} (hwf : i.wf = true) (h : laneParts i = some (o, f)) :
    laneForm? o.toNat f = some i := by
  cases i with
  | rwaitFill f =>
    cases h
    exact congrArg some (if_neg (by simp [rwaitFill_wf hwf]))
  | rwaitFree f =>
    cases h
    exact congrArg some (if_pos (rwaitFree_wf hwf))
  | vamo s f =>
    cases h
    obtain rfl | rfl | rfl | rfl := bits2_cases s <;> rfl
  | _ => cases h <;> rfl

section
variable {n : Nat} {f : LaneWord} {i : Instr}

theorem laneParts_of_laneInt (h : laneInt n f = some i) : laneParts i = some (BitVec.ofNat 10 n, f) := by
  unfold laneInt at h
  split at h <;> cases h <;> rfl

theorem laneParts_of_laneFlt (h : laneFlt n f = some i) : laneParts i = some (BitVec.ofNat 10 n, f) := by
  unfold laneFlt at h
  split at h <;> cases h <;> rfl

theorem laneParts_of_laneCross (h : laneCross n f = some i) : laneParts i = some (BitVec.ofNat 10 n, f) := by
  unfold laneCross at h
  split at h <;> cases h <;> rfl

theorem laneParts_of_laneMem (h : laneMem n f = some i) : laneParts i = some (BitVec.ofNat 10 n, f) := by
  unfold laneMem at h
  split at h
  case h_10 =>
    cases h
    split <;> rfl
  all_goals cases h <;> rfl

theorem laneParts_of_laneForm? (h : laneForm? n f = some i) : laneParts i = some (BitVec.ofNat 10 n, f) := by
  unfold laneForm? at h
  split_ifs at h
  · exact laneParts_of_laneInt h
  · exact laneParts_of_laneFlt h
  · exact laneParts_of_laneCross h
  · exact laneParts_of_laneMem h

end

/-- A lane form has no scalar word. -/
theorem encodeScalar_of_laneParts {i : Instr} {x : BitVec 10 × LaneWord} (h : laneParts i = some x) : encodeScalar i = none := by
  cases i <;> cases h <;> rfl

theorem decodeLane_encLane {i : Instr} {o : BitVec 10} {f : LaneWord} (hwf : i.wf = true) (h : laneParts i = some (o, f)) :
    decodeLane (encLane o f) = .ok i := by
  obtain ⟨ho, hf⟩ := encLane_eq_iff.mp (rfl : encLane o f = _)
  rw [decodeLane, ← ho, ← hf, laneForm?_of_laneParts hwf h]

theorem laneParts_of_decodeLane {w : BitVec 96} {i : Instr} (h : decodeLane w = .ok i) :
    ∃ o f, laneParts i = some (o, f) ∧ encLane o f = w := by
  unfold decodeLane at h
  split at h
  · rename_i hform
    obtain rfl := Except.ok.inj h
    exact ⟨_, _, laneParts_of_laneForm? hform, encLane_eq_iff.mpr ⟨ofNat_eq_of_toNat rfl, rfl⟩⟩
  · cases h

/-! ## Bytes -/

theorem bytesOf_ofBytes (bs : List Byte) : bytesOf bs.length (ofBytes bs) = bs := by
  induction bs with
  | nil => rfl
  | cons b r ih =>
    have hb : b.toNat < 256 := b.isLt
    have hdiv : (b.toNat + 256 * ofBytes r) / 256 = ofBytes r := by omega
    rw [List.length_cons, bytesOf, ofBytes, hdiv, ih]
    congr 1
    apply BitVec.eq_of_toNat_eq
    rw [BitVec.toNat_ofNat]
    omega

theorem ofBytes_lt (bs : List Byte) : ofBytes bs < 256 ^ bs.length := by
  induction bs with
  | nil => simp [ofBytes]
  | cons b r ih =>
    have hb : b.toNat < 256 := b.isLt
    rw [ofBytes, List.length_cons, pow_succ]
    omega

/-- The word of the bytes of a word is that word. -/
theorem ofNat_ofBytes_bytesOf (k : Nat) (w : BitVec (8 * k)) : BitVec.ofNat (8 * k) (ofBytes (bytesOf k w.toNat)) = w := by
  rw [ofBytes_bytesOf k _ (by rw [show 256 = 2 ^ 8 from rfl, ← pow_mul]; exact w.isLt)]
  exact ofNat_eq_of_toNat rfl

theorem bytesOf_toNat_ofBytes {k : Nat} {bs : List Byte} (h : bs.length = k) :
    bytesOf k (BitVec.ofNat (8 * k) (ofBytes bs)).toNat = bs := by
  have hlt := ofBytes_lt bs
  rw [h, show 256 = 2 ^ 8 from rfl, ← pow_mul] at hlt
  rw [BitVec.toNat_ofNat, Nat.mod_eq_of_lt hlt, ← h, bytesOf_ofBytes]

theorem decode_scalar_eq_ok {bs rest : List Byte} {i : Instr} : decode false bs = .ok (i, rest) ↔
    4 ≤ bs.length ∧ decodeScalar (BitVec.ofNat 32 (ofBytes (bs.take 4))) = .ok i ∧ bs.drop 4 = rest := by
  unfold decode
  simp only [Bool.false_eq_true, if_false]
  split
  · simp; omega
  · split <;> simp_all

theorem decode_lane_eq_ok {bs rest : List Byte} {i : Instr} : decode true bs = .ok (i, rest) ↔
    12 ≤ bs.length ∧ decodeLane (BitVec.ofNat 96 (ofBytes (bs.take 12))) = .ok i ∧ bs.drop 12 = rest := by
  unfold decode
  simp only [if_true]
  split
  · simp; omega
  · split <;> simp_all

theorem decode_bytesOf_scalar {w : Word} {i : Instr} (h : decodeScalar w = .ok i) : decode false (bytesOf 4 w.toNat) = .ok (i, []) := by
  have hlen := length_bytesOf 4 w.toNat
  refine decode_scalar_eq_ok.mpr ⟨hlen.ge, ?_, List.drop_of_length_le hlen.le⟩
  rw [List.take_of_length_le hlen.le, ofNat_ofBytes_bytesOf 4 w, h]

theorem decode_bytesOf_lane {w : BitVec 96} {i : Instr} (h : decodeLane w = .ok i) : decode true (bytesOf 12 w.toNat) = .ok (i, []) := by
  have hlen := length_bytesOf 12 w.toNat
  refine decode_lane_eq_ok.mpr ⟨hlen.ge, ?_, List.drop_of_length_le hlen.le⟩
  rw [List.take_of_length_le hlen.le, ofNat_ofBytes_bytesOf 12 w, h]

theorem encode_of_decodeScalar {w : Word} {i : Instr} (h : decodeScalar w = .ok i) : encode i = some (bytesOf 4 w.toNat) := by
  rw [encode, encodeScalar_of_decodeScalar h]

theorem encode_of_decodeLane {w : BitVec 96} {i : Instr} (h : decodeLane w = .ok i) : encode i = some (bytesOf 12 w.toNat) := by
  obtain ⟨o, f, hparts, rfl⟩ := laneParts_of_decodeLane h
  rw [encode, encodeScalar_of_laneParts hparts, hparts]

/-- Settles O44: a scalar form's word decodes to it by its major opcode, a lane form's by its opcode, and the bytes of
either read back as the word. -/
theorem encodeDecodes : Obligations.EncodeDecodes := by
  unfold Obligations.EncodeDecodes
  intro i bs hwf h
  unfold encode at h
  split at h
  case h_1 w hw =>
    obtain rfl := Option.some.inj h
    rw [length_bytesOf]
    exact decode_bytesOf_scalar (decodeScalar_encodeScalar hw)
  case h_2 =>
    split at h
    case h_1 o f hparts =>
      obtain rfl := Option.some.inj h
      rw [length_bytesOf]
      exact decode_bytesOf_lane (decodeLane_encLane hwf hparts)
    case h_2 => cases h

/-- Settles O45: the word of the instruction that bytes decode to is the word its first 4 or 12 bytes make. -/
theorem decodedIsEncoded : Obligations.DecodedIsEncoded := by
  unfold Obligations.DecodedIsEncoded
  intro lane bs i rest h
  cases lane with
  | false =>
    obtain ⟨hlen, hd, rfl⟩ := decode_scalar_eq_ok.mp h
    have hbs : (bs.take 4).length = 4 := List.length_take_of_le hlen
    refine ⟨bs.take 4, ?_, (List.take_append_drop 4 bs).symm, hbs⟩
    rw [encode_of_decodeScalar hd, bytesOf_toNat_ofBytes hbs]
  | true =>
    obtain ⟨hlen, hd, rfl⟩ := decode_lane_eq_ok.mp h
    have hbs : (bs.take 12).length = 12 := List.length_take_of_le hlen
    refine ⟨bs.take 12, ?_, (List.take_append_drop 12 bs).symm, hbs⟩
    rw [encode_of_decodeLane hd, bytesOf_toNat_ofBytes hbs]

/-- Settles O43: each word decodes to its instruction. -/
theorem decodeWords : Obligations.DecodeWords := by
  unfold Obligations.DecodeWords
  decide +kernel

end Sys2Proof

namespace Sys2Proof

theorem ofBytes_append (xs ys : List Byte) : ofBytes (xs ++ ys) = ofBytes xs + 256 ^ xs.length * ofBytes ys := by
  induction xs with
  | nil => simp [ofBytes]
  | cons b r ih =>
    rw [List.cons_append, ofBytes, ih, ofBytes, List.length_cons, pow_succ]
    ring

end Sys2Proof

namespace Sys2Proof.Machine

/-! ## A step that fetches (O42) -/

/-- The four bytes at a place of memory. -/
def State.bytes4 (s : State) (pa : Nat) : List Byte := (List.range 4).map (fun j => s.byte (pa + j))

theorem State.length_bytes4 (s : State) (pa : Nat) : (s.bytes4 pa).length = 4 := rfl

theorem State.fetch4_ok {s t : State} {va : Nat} {h : Hit} (hva : va / 2 ^ 68 ≠ 15)
    (ht : translate s s.agent va .fetch = (t, .ok h)) : s.fetch4 va = (t, .ok (ofBytes (t.bytes4 h.pa))) := by
  rw [State.fetch4, if_neg hva, ht]
  rfl

theorem State.nextScalar_ok {s t : State} {h : Hit} {i : Instr} (hva : s.cp.pc.toNat / 2 ^ 68 ≠ 15)
    (ht : translate s s.agent s.cp.pc.toNat .fetch = (t, .ok h)) (hd : decode false (t.bytes4 h.pa) = .ok (i, [])) :
    s.nextScalar = (t, some i) := by
  obtain ⟨-, hi, -⟩ := decode_scalar_eq_ok.mp hd
  rw [List.take_of_length_le (t.length_bytes4 h.pa).le] at hi
  simp only [State.nextScalar, State.fetch4_ok hva ht, hi]

theorem State.fetchLane_ok {s a b c : State} {va : Nat} {h g f : Hit} (hva : va + 12 ≤ 15 * 2 ^ 68)
    (ha : translate s s.agent va .fetch = (a, .ok h)) (hb : translate a a.agent (va + 4) .fetch = (b, .ok g))
    (hc : translate b b.agent (va + 8) .fetch = (c, .ok f)) :
    s.fetchLane va 3 0 = (c, .ok (ofBytes (a.bytes4 h.pa ++ b.bytes4 g.pa ++ c.bytes4 f.pa))) := by
  have hfirst := State.fetch4_ok (by omega) ha
  have hsecond := State.fetch4_ok (by omega) hb
  have hthird := State.fetch4_ok (by omega) hc
  simp only [State.fetchLane, Nat.sub_self, Nat.reduceSub, Nat.mul_zero, Nat.mul_one, Nat.reduceMul, Nat.add_zero, hfirst, hsecond,
    hthird, ofBytes_append, List.length_append, State.length_bytes4]
  congr 2
  ring

theorem State.nextLane_ok {s a b c : State} {h g f : Hit} {i : Instr} (hw : s.cp.windows = [])
    (hva : lanebaseN s.cctx + 12 * (s.run.off + s.run.pos) + 12 ≤ 15 * 2 ^ 68)
    (ha : translate s s.agent (lanebaseN s.cctx + 12 * (s.run.off + s.run.pos)) .fetch = (a, .ok h))
    (hb : translate a a.agent (lanebaseN s.cctx + 12 * (s.run.off + s.run.pos) + 4) .fetch = (b, .ok g))
    (hc : translate b b.agent (lanebaseN s.cctx + 12 * (s.run.off + s.run.pos) + 8) .fetch = (c, .ok f))
    (hd : decode true (a.bytes4 h.pa ++ b.bytes4 g.pa ++ c.bytes4 f.pa) = .ok (i, [])) : s.nextLane = (c, some i) := by
  obtain ⟨-, hi, -⟩ := decode_lane_eq_ok.mp hd
  rw [List.take_of_length_le (by simp only [List.length_append, State.length_bytes4]; decide)] at hi
  have hblock : windowsBlock true s.cp.windows = false := by rw [hw]; rfl
  simp only [State.nextLane, hblock, Bool.false_eq_true, if_false, laneVa, State.fetchLane_ok hva ha hb hc, hi]

theorem step_of_pick {s s1 t : State} {u : Turn} {i : Instr} (hc : s.choose = (s1, some u)) (hp : s1.pick u = (t, some i)) :
    step s = exec i t := by
  simp only [step, hc, hp]

/-- Settles O42: what a turn picks is what the bytes its path fetches decode to. -/
theorem stepRunsDecoded : Obligations.StepRunsDecoded := by
  unfold Obligations.StepRunsDecoded
  refine ⟨?_, ?_, ?_, ?_, ?_⟩
  · intro s s1 s2 wid k h i hc h1 s' h2 hb hva ht hd
    exact step_of_pick hc ((if_neg (ne_true_of_eq_false (congrArg not h1))).trans ((if_neg (ne_true_of_eq_false (congrArg not h2))).trans
      ((if_neg (ne_true_of_eq_false hb)).trans (State.nextScalar_ok hva ht hd))))
  · intro s s1 a b c wid k h g f i hc h1 s' va h2 hb hw hva ha hb' hc' hd
    exact step_of_pick hc ((if_neg (ne_true_of_eq_false (congrArg not h1))).trans ((if_neg (ne_true_of_eq_false (congrArg not h2))).trans
      ((if_neg (ne_true_of_eq_false hb)).trans (State.nextLane_ok hw hva ha hb' hc' hd))))
  · exact fun s s1 e hc => step_of_pick hc rfl
  · intro s s1 o hc
    simp only [step, hc, State.pick]
  · intro s s1 hc
    simp only [step, hc]

end Sys2Proof.Machine

namespace Sys2Proof.Machine

/-! ## A window that stays open (R45) -/

/-- Scalar, address and condition registers hang on the warp's and the path's own. -/
theorem SameScalars.of_regs {s t : State} (hws : t.cw.s = s.cw.s) (hwa : t.cw.a = s.cw.a) (hps : t.cp.s = s.cp.s) (hpq : t.cp.q = s.cp.q) :
    SameScalars s t := by
  refine ⟨?_, ?_, ?_⟩
  · funext n; unfold State.sN sOf; rw [hws, hps]
  · funext n; unfold State.aN; rw [hwa]
  · funext n; unfold State.qN Path.qBit; rw [hpq]

theorem SameScalars.refl (s : State) : SameScalars s s := ⟨rfl, rfl, rfl⟩

theorem SameScalars.trans {s t u : State} (h1 : SameScalars s t) (h2 : SameScalars t u) : SameScalars s u :=
  ⟨h2.1.trans h1.1, h2.2.1.trans h1.2.1, h2.2.2.trans h1.2.2⟩

theorem SameScalars.modP (s : State) (f : Path → Path) (hp : s.path?.isSome = true) (hs : (f s.cp).s = s.cp.s) (hq : (f s.cp).q = s.cp.q) :
    SameScalars s (s.modP f) := by
  have hw := State.cw_modP s f hp
  have hc := State.cp_modP s f hp
  exact .of_regs (by rw [hw]) (by rw [hw]) (by rw [hc, hs]) (by rw [hc, hq])

/-- No window of the path has ended and completed: nothing becomes visible. -/
theorem State.settleAll_open {s : State} (h : s.cp.windows.find? (fun d => d.left = 0 && d.complete) = none) :
    s.settleAll s.cur.1 s.cur.2 = s.modP popRun := by
  have hone : s.settleOne s.cur.1 s.cur.2 = (s, false) := by
    unfold State.settleOne
    cases hp : s.pathAt s.cur.1 s.cur.2 with
    | none => rfl
    | some p =>
      rw [State.cp_of (by simpa [State.path?] using hp)] at h
      simp only [h]
  have hsettle : s.settle s.cur.1 s.cur.2 40 = s := by
    unfold State.settle
    simp only [hone, Bool.false_eq_true, if_false]
  rw [State.settleAll, hsettle]
  rfl

/-- A window of a stream with lookahead left, or with something on its way. -/
def Window.open_ (d : Window) : Prop := d.left ≠ 0 ∨ d.complete = false

theorem Window.open_find {d : Window} (h : d.open_) : [d].find? (fun d => d.left = 0 && d.complete) = none := by
  unfold Window.open_ at h
  rw [List.find?_singleton, if_neg]
  simp only [Bool.and_eq_true, decide_eq_true_eq]
  rintro ⟨h0, hc⟩
  simp [h0, hc] at h

theorem State.path?_modP_isSome {s : State} (f : Path → Path) (h : s.path?.isSome = true) : (s.modP f).path?.isSome = true := by
  rw [State.path?_modP, Option.isSome_map, h]

/-- The path as a lane word leaves it whose window stays open. -/
theorem Path.movedLane_open {p : Path} {r : Run} {q : List Run} {d : Window} (hq : p.queue = r :: q) (hr : r.pos + 1 < r.count)
    (hst : p.stepping = 0) (hw : p.windows = [d]) (hl : d.lane = true) : p.movedLane = { p with
      queue := { r with pos := r.pos + 1 } :: q, lstall := 0, both := false, begun := false, skipBp := false, vsync := none
      windows := [{ d with left := d.left - 1 }] } := by
  simp only [Path.movedLane, hq, hw, tickWindows, List.map_cons, List.map_nil, hl, if_true, ge_iff_le, Path.stepped, hst,
    if_neg (Nat.not_le_of_lt hr), show ((0 : BitVec 2) = 2) = False from by decide, if_false]

theorem popRun_unfinished {p : Path} {r : Run} {q : List Run} (hq : p.queue = r :: q) (hr : r.pos < r.count) : popRun p = p := by
  unfold popRun
  simp only [hq, ge_iff_le, show ¬ r.count ≤ r.pos from Nat.not_le_of_lt hr, decide_false, Bool.false_and, Bool.false_eq_true, if_false]

/-- No lane that waits at the end of a window waits for a link in RETRAIN: none splits (R94). -/
theorem State.splitStalled_none {s : State} {d : Window} (hw : s.cp.windows = [d])
    (h : d.left ≠ 0 ∨ ∀ x ∈ d.waits, (s.link x.1).st ≠ .retrain) : s.splitStalled s.cur.1 s.cur.2 = s := by
  unfold State.splitStalled
  cases hp : s.pathAt s.cur.1 s.cur.2 with
  | none => rfl
  | some p =>
    rw [State.cp_of (by simpa [State.path?] using hp)] at hw
    have hnone : ((p.windows.filter (fun d => d.lane && d.left == 0)).map (·.waits)).flatten.filter
        (fun x => (s.link x.1).st = .retrain) = [] := by
      rw [List.filter_eq_nil_iff]
      intro x hx
      obtain ⟨ws, hws, hx⟩ := List.mem_flatten.mp hx
      obtain ⟨e, he, rfl⟩ := List.mem_map.mp hws
      obtain ⟨he, hend⟩ := List.mem_filter.mp he
      rw [hw, List.mem_singleton] at he
      subst he
      simp only [Bool.and_eq_true, beq_iff_eq] at hend
      simpa using h.resolve_left (not_not.mpr hend.2) x hx
    simp only [hnone, List.foldl_nil, decide_true, Bool.true_or, if_true]

/-- A lane word whose window stays open is done: the run moves on, and no register and no byte changes. -/
theorem State.advanceLane_open {s : State} {r : Run} {q : List Run} {d : Window} {k : Nat} (hp : s.path?.isSome = true)
    (hq : s.cp.queue = r :: q) (hr : r.pos + 1 < r.count) (hst : s.cp.stepping = 0) (hw : s.cp.windows = [d]) (hl : d.lane = true)
    (hd : d.left = k + 1) (ho : k ≠ 0 ∨ d.complete = false ∧ ∀ x ∈ d.waits, (s.link x.1).st ≠ .retrain) :
    s.advanceLane.cp.windows = [{ d with left := k }] ∧ s.advanceLane.cp.queue = { r with pos := r.pos + 1 } :: q
      ∧ s.advanceLane.cw.v = s.cw.v ∧ SameScalars s s.advanceLane ∧ s.advanceLane.mem = s.mem := by
  have hmoved := Path.movedLane_open hq hr hst hw hl
  rw [hd, Nat.add_sub_cancel] at hmoved
  have hp1 := State.path?_modP_isSome Path.movedLane hp
  have hp2 := State.path?_modP_isSome popRun hp1
  have hc1 := (State.cp_modP s Path.movedLane hp).trans hmoved
  have hpop : popRun (s.modP Path.movedLane).cp = (s.modP Path.movedLane).cp :=
    popRun_unfinished (by rw [hc1]) hr
  have hc2 : ((s.modP Path.movedLane).modP popRun).progress.cp = (s.modP Path.movedLane).cp := by
    rw [State.cp_progress, State.cp_modP _ _ hp1, hpop]
  have hsettle := State.settleAll_open (s := s.modP Path.movedLane) (by
    rw [hc1]; exact Window.open_find (ho.imp id And.left))
  have hsplit := State.splitStalled_none (s := ((s.modP Path.movedLane).modP popRun).progress) (d := { d with left := k })
    (by rw [hc2, hc1]) (ho.imp id (fun h x hx => by simpa [State.link] using h.2 x hx))
  have heq : s.advanceLane = ((s.modP Path.movedLane).modP popRun).progress := by
    show (((s.modP Path.movedLane).settleAll (s.modP Path.movedLane).cur.1 (s.modP Path.movedLane).cur.2).progress).splitStalled _ _ = _
    rw [hsettle]
    simpa using hsplit
  rw [heq]
  refine ⟨by rw [hc2, hc1], by rw [hc2, hc1], ?_, ?_, by simp⟩
  · rw [State.cw_progress, State.cw_modP _ _ hp1, State.cw_modP _ _ hp]
  · refine .of_regs ?_ ?_ (by rw [hc2, hc1]) (by rw [hc2, hc1])
    · rw [State.cw_progress, State.cw_modP _ _ hp1, State.cw_modP _ _ hp]
    · rw [State.cw_progress, State.cw_modP _ _ hp1, State.cw_modP _ _ hp]

/-- A scalar form whose window stays open is done: the PC moves, and no register and no byte changes. -/
theorem State.goto_open {s : State} {d : Window} {k : Nat} (pc : VAddr) (hp : s.path?.isSome = true) (hst : s.cp.stepping = 0)
    (hw : s.cp.windows = [d]) (hl : d.lane = false) (hd : d.left = k + 1) (ho : k ≠ 0 ∨ d.complete = false) :
    (s.goto pc).cp.pc = pc ∧ (s.goto pc).cp.windows = [{ d with left := k }] ∧ (s.goto pc).cw.v = s.cw.v
      ∧ SameScalars s (s.goto pc) ∧ (s.goto pc).mem = s.mem := by
  have hmoved : s.cp.moved pc = { s.cp with
      pc := pc, stall := 0, begun := false, skipBp := false, awaits := none, windows := [{ d with left := k }] } := by
    simp only [Path.moved, hw, tickWindows, List.map_cons, List.map_nil, hl, if_true, hd, Nat.add_sub_cancel, Path.stepped, hst,
      Bool.false_eq_true, if_false, show ((0 : BitVec 2) = 1) = False from by decide]
  have hp1 := State.path?_modP_isSome (fun p => p.moved pc) hp
  have hc1 := (State.cp_modP s (fun p => p.moved pc) hp).trans hmoved
  have hc2 := State.cp_modP _ popRun hp1
  have hsettle := State.settleAll_open (s := s.modP (fun p => p.moved pc)) (by
    rw [hc1]; exact Window.open_find ho)
  have heq : s.goto pc = ((s.modP (fun p => p.moved pc)).modP popRun).progress.puTick := by
    show ((s.modP (fun p => p.moved pc)).settleAll (s.modP (fun p => p.moved pc)).cur.1 (s.modP (fun p => p.moved pc)).cur.2).progress.puTick = _
    rw [hsettle]
  have hcw : (s.goto pc).cw = ((s.modP (fun p => p.moved pc)).modP popRun).cw := by rw [heq, State.cw_puTick, State.cw_progress]
  have hcp : (s.goto pc).cp = popRun (s.modP (fun p => p.moved pc)).cp := by rw [heq, State.cp_puTick, State.cp_progress, hc2]
  refine ⟨by rw [hcp, popRun_eq, hc1], by rw [hcp, popRun_eq, hc1], ?_, .of_regs ?_ ?_ ?_ ?_, by rw [heq]; simp⟩
  · rw [hcw, State.cw_modP _ _ hp1, State.cw_modP _ _ hp]
  · rw [hcw, State.cw_modP _ _ hp1, State.cw_modP _ _ hp]
  · rw [hcw, State.cw_modP _ _ hp1, State.cw_modP _ _ hp]
  · rw [hcp, popRun_eq, hc1]
  · rw [hcp, popRun_eq, hc1]

end Sys2Proof.Machine

namespace Sys2Proof.Machine

/-! ## The float forms: O12 -/

theorem GivesF.of_fltForm {i : Instr} {f : LaneWord} {op op' : Nat → Nat → Nat → Nat × Float.Flags}
    (he : ∀ s, exec i s = fltForm i f op s) (hv : ∀ f, i ≠ .vsync f)
    (hop : ∀ a b c, a < 2 ^ (fmtOf f).width → b < 2 ^ (fmtOf f).width → op a b c = op' a b c) :
    GivesF i f (typeRegs f.tyN) (floatOf f op') := by
  refine GivesF.of_floatForm he hv (fun s l => ?_)
  have helement : ∀ j x, element f.tyN j x < 2 ^ (fmtOf f).width := fun j x => Nat.mod_lt _ (Nat.two_pow_pos _)
  unfold floatOf
  simp only [hop _ _ _ (helement _ _) (helement _ _)]

/-- What the lanes of a float form give, where no exception is trapped, before the result is visible: no lane splits away. -/
theorem finishFloat_untrapped {s : State} {f : LaneWord} {n : Nat} {x : Nat → Nat × Float.Flags}
    (htr : ∀ l ∈ s.actLanes f, (x l).2 &&& s.run.traps = 0) :
    s.finishFloat f n ((s.actLanes f).map (fun l => (l, x l)))
      = ((s.raiseFlags (raisedFlags s f x)).result true f.la.toNat (vDests f.d n)
          (laneWrites f.d n (fun _ => false) ((s.actLanes f).map (fun l => (l, (x l).1)))) [] none).advanceLane := by
  have hgood : ((s.actLanes f).map (fun l => (l, x l))).filter (fun y => y.2.2 &&& s.run.traps = 0)
      = (s.actLanes f).map (fun l => (l, x l)) := by
    rw [List.filter_eq_self]
    simpa using htr
  have hbad : ((s.actLanes f).map (fun l => (l, x l))).filter (fun y => y.2.2 &&& s.run.traps ≠ 0) = [] := by
    rw [List.filter_eq_nil_iff]
    simpa using htr
  have hflags : ((s.actLanes f).map (fun l => (l, x l))).foldl (fun a y => a ||| y.2.2) 0 = raisedFlags s f x := by
    rw [raisedFlags, List.foldl_map]
  unfold State.finishFloat
  dsimp only
  rw [hgood, hbad, State.splitThen_none _ _ _ (by simp [arithSplit, maskOf]), hflags]
  simp only [List.map_map, Function.comp_def]

/-- A result under lookahead opens a window (R45). -/
theorem State.result_lookahead {s : State} {lane : Bool} {k : Nat} {dests : List Dest} {writes : List RegWrite} (hk : k ≠ 0) :
    s.result lane k dests writes [] none = s.modP (fun p => { p with windows :=
      p.windows ++ [{ lane := lane, left := k + 1, dests := dests, writes := writes }] }) := by
  simp [State.result, hk]

theorem State.raiseFlags_path {s : State} (x : Float.Flags) : (s.raiseFlags x).path? = s.path? := by
  unfold State.raiseFlags
  split
  · rfl
  · exact State.path?_modW _ _ (fun _ _ => rfl)

theorem State.raiseFlags_mem {s : State} (x : Float.Flags) : (s.raiseFlags x).mem = s.mem := by
  unfold State.raiseFlags
  split
  · rfl
  · simp

theorem GivesLater.of_floatForm {i : Instr} {f : LaneWord} {n : Nat} {g : Warp → Nat → Nat × Float.Flags}
    {x : State → Nat → Nat × Float.Flags} (he : ∀ s, exec i s = floatForm i f n g s) (hv : ∀ f, i ≠ .vsync f)
    (hg : ∀ s l, g s.cw l = x s l) : GivesLater i f n x := by
  intro s hq hr htr hla hst hrun
  have hp := laneReady_path hr
  obtain ⟨r, q, hqueue, -⟩ := laneReady_run hr
  have hr1 : r.pos + 1 < r.count := by simpa only [State.run, hqueue] using hrun
  have hk : f.la.toNat ≠ 0 := fun h => hla (BitVec.eq_of_toNat_eq h)
  set u := s.raiseFlags (raisedFlags s f (x s)) with hu
  have hup : u.path?.isSome = true := by rw [hu, State.raiseFlags_path, hp]
  have hucp : u.cp = s.cp := by rw [State.cp, hu, State.raiseFlags_path, State.cp]
  have hucw := State.raiseFlags_cw s (raisedFlags s f (x s)) hp
  set d : Window := {
    lane := true, left := f.la.toNat + 1, dests := vDests f.d n
    writes := laneWrites f.d n (fun _ => false) ((s.actLanes f).map (fun l => (l, (x s l).1))) } with hd
  set v := u.modP (fun p => { p with windows := p.windows ++ [d] }) with hv'
  have hvcp : v.cp = { s.cp with windows := [d] } := by
    rw [hv', State.cp_modP _ _ hup, hucp, State.quiet_windows hq, List.nil_append]
  have hvcw := State.cw_modP u (fun p => { p with windows := p.windows ++ [d] }) hup
  obtain ⟨hwin, -, hvv, hscal, hmem⟩ := State.advanceLane_open (s := v) (r := r) (q := q) (d := d) (k := f.la.toNat)
    (State.path?_modP_isSome _ hup) (by rw [hvcp, ← hqueue]) hr1 (by rw [hvcp, hst]) (by rw [hvcp]) rfl rfl (.inl hk)
  refine ⟨v.advanceLane, { d with left := f.la.toNat }, ?_, hwin, rfl, rfl, rfl, ?_, ?_, ?_, ?_⟩
  · rw [he, floatForm, laneForm_ready _ hv hq hr]
    simp only [hg]
    rw [finishFloat_untrapped htr, State.result_lookahead hk]
  · intro r' l hl
    have hlanes : ∀ l ∈ s.actLanes f, l < 128 := fun l h => (mem_actLanes.mp h).1
    refine ((Warp.applyAll_laneWrites s.cur.2 f.d n (fun _ => false) (fun l => (x s l).1) (s.actLanes f) s.cw hlanes).2 r' l hl).trans ?_
    simp only [laneRegs, writesLane, mem_actLanes, hl, true_and, Bool.and_eq_true, decide_eq_true_eq]
  · intro r' l _
    exact Warp.vReg_congr (by rw [hvv, hvcw, hucw]) r' l
  · intro m
    have hsame : SameScalars s v := .of_regs (by rw [hvcw, hucw]) (by rw [hvcw, hucw]) (by rw [hvcp]) (by rw [hvcp])
    rw [(hsame.trans hscal).1]
  · rw [hmem, hv', State.modP_mem, hu, State.raiseFlags_mem]

theorem GivesLater.of_fltForm {i : Instr} {f : LaneWord} {op : Nat → Nat → Nat → Nat × Float.Flags}
    (he : ∀ s, exec i s = fltForm i f op s) (hv : ∀ f, i ≠ .vsync f) : GivesLater i f (typeRegs f.tyN) (floatOf f op) :=
  GivesLater.of_floatForm he hv (fun _ _ => rfl)

/-! ### Forms on the sign bit -/

theorem signPlace_eq (f : LaneWord) : signPlace f = 2 ^ ((fmtOf f).width - 1) := rfl

theorem width_eq (t : Float.Fmt) : 2 ^ t.width = 2 ^ (t.width - 1) + 2 ^ (t.width - 1) := by
  rw [Float.Fmt.width, Nat.add_sub_cancel, pow_succ]
  omega

/-- The sign of a pattern flipped. -/
theorem xor_sign {a k : Nat} (h : a < 2 ^ k + 2 ^ k) : Nat.xor a (2 ^ k) = if a < 2 ^ k then a + 2 ^ k else a - 2 ^ k := by
  have hlow : ∀ c, c < 2 ^ k → c ^^^ 2 ^ k = c + 2 ^ k := by
    intro c hc
    apply Nat.eq_of_testBit_eq
    intro j
    rw [Nat.testBit_xor, Nat.testBit_two_pow, Nat.add_comm]
    rcases lt_trichotomy j k with hj | rfl | hj
    · rw [Nat.testBit_two_pow_add_gt hj]
      simp [Nat.ne_of_gt hj]
    · rw [Nat.testBit_two_pow_add_eq]
      simp
    · have hpow : 2 ^ (k + 1) ≤ 2 ^ j := Nat.pow_le_pow_right (by decide) hj
      rw [Nat.testBit_lt_two_pow (by omega), Nat.testBit_lt_two_pow (by rw [pow_succ] at hpow; omega)]
      simp [Nat.ne_of_lt hj]
  split
  · exact hlow a ‹_›
  · have hback := hlow (a - 2 ^ k) (by omega)
    rw [Nat.sub_add_cancel (by omega)] at hback
    show a ^^^ 2 ^ k = _
    rw [← hback, Nat.xor_assoc, Nat.xor_self, Nat.xor_zero]
    omega

theorem div_sign {b k : Nat} (h : b < 2 ^ k + 2 ^ k) : b / 2 ^ k * 2 ^ k = if b < 2 ^ k then 0 else 2 ^ k := by
  split
  · rw [Nat.div_eq_of_lt ‹_›, Nat.zero_mul]
  · rw [Nat.div_eq_of_lt_le (k := 1) (by omega) (by omega), Nat.one_mul]

theorem GivesF.of_form {i : Instr} {f : LaneWord} {op : Nat → Nat → Nat → Nat × Float.Flags}
    (he : exec i = fltForm i f op) (hv : ∀ f, i ≠ .vsync f) : GivesF i f (typeRegs f.tyN) (floatOf f op) :=
  GivesF.of_fltForm (congrFun he) hv (fun _ _ _ _ _ => rfl)

/-- A form that takes lookahead completes both ways. -/
theorem GivesF.and_later {i : Instr} {f : LaneWord} {op : Nat → Nat → Nat → Nat × Float.Flags}
    (he : exec i = fltForm i f op) (hv : ∀ f, i ≠ .vsync f) :
    GivesF i f (typeRegs f.tyN) (floatOf f op) ∧ GivesLater i f (typeRegs f.tyN) (floatOf f op) :=
  ⟨GivesF.of_form he hv, GivesLater.of_fltForm (congrFun he) hv⟩

theorem fneg_gives (f : LaneWord) : GivesF (.fneg f) f (typeRegs f.tyN) (floatOf f (fun a _ _ =>
    (if a < 2 ^ ((fmtOf f).width - 1) then a + 2 ^ ((fmtOf f).width - 1) else a - 2 ^ ((fmtOf f).width - 1), 0))) := by
  refine GivesF.of_fltForm (op := fun a _ _ => (Nat.xor a (signPlace f), 0)) (fun _ => rfl) (by simp) (fun a _ _ ha _ => ?_)
  rw [signPlace_eq, xor_sign (by rwa [← width_eq])]

theorem fcpys_gives (f : LaneWord) : GivesF (.fcpys f) f (typeRegs f.tyN) (floatOf f (fun a b _ =>
    (a % 2 ^ ((fmtOf f).width - 1) + (if b < 2 ^ ((fmtOf f).width - 1) then 0 else 2 ^ ((fmtOf f).width - 1)), 0))) := by
  refine GivesF.of_fltForm (op := fun a b _ => (a % signPlace f + b / signPlace f * signPlace f, 0)) (fun _ => rfl) (by simp)
    (fun a b _ _ hb => ?_)
  rw [signPlace_eq, div_sign (by rwa [← width_eq])]

theorem fclass_gives (f : LaneWord) : GivesF (.fclass f) f 1 (fun s l => elements f.tyN (fun j =>
    (2 ^ Float.classBit (fmtOf f) (element f.tyN j (s.cw.rd f f.a l)), 0))) := by
  refine GivesF.of_floatForm (g := fun w l => elements f.tyN (fun j =>
    (2 ^ Float.classBit (fmtOf f) (element f.tyN j (w.rd f f.a l)), 0))) (fun _ => rfl) (by simp) (fun _ _ => rfl)

/-- Settles O12: without lookahead a form writes its lanes' results at once, with it they stand in the window it opens. The
forms on the sign bit say the same of a pattern as the statement's arithmetic does. -/
theorem floatForms : Obligations.FloatForms := by
  unfold Obligations.FloatForms
  constructor
  · intro f
    refine ⟨?_, ?_, ?_, ?_, ?_, ?_, ?_, fneg_gives f, fcpys_gives f, fclass_gives f⟩
    · exact GivesF.of_form rfl (by simp)
    · exact GivesF.of_form rfl (by simp)
    · exact GivesF.of_form rfl (by simp)
    · exact GivesF.of_form rfl (by simp)
    · exact GivesF.of_form rfl (by simp)
    · exact GivesF.of_form rfl (by simp)
    · exact GivesF.of_form rfl (by simp)
  · intro f
    dsimp only
    refine ⟨?_, ?_, ?_, ?_, ?_, ?_, ?_, ?_⟩
    · exact GivesF.and_later rfl (by simp)
    · exact GivesF.and_later rfl (by simp)
    · exact GivesF.and_later rfl (by simp)
    · exact GivesF.and_later rfl (by simp)
    · exact GivesF.and_later rfl (by simp)
    · exact GivesF.and_later rfl (by simp)
    · exact GivesF.and_later rfl (by simp)
    · exact GivesF.and_later rfl (by simp)

end Sys2Proof.Machine

namespace Sys2Proof.Machine

/-! ## Scalar words that take a cause before any effect: O28 -/

/-- The tests before a scalar word acts do not depend on what it does: each form with a scalar word is such a form. -/
theorem exec_scalarForm {i : Instr} {w : BitVec 32} (h : encodeScalar i = some w) :
    ∃ body, ∀ s, exec i s = scalarForm i s body := by
  cases i <;> cases h <;> exact ⟨_, fun _ => rfl⟩

theorem exec_of_scalarGate_done {i : Instr} {w : BitVec 32} {s t : State} (hw : decodeScalar w = .ok i)
    (hfatal : s.hub.fatal = false) (hp : s.path?.isSome = true) (hg : scalarGate i s = .done t) : exec i s = .next t := by
  obtain ⟨body, he⟩ := exec_scalarForm (encodeScalar_of_decodeScalar hw)
  rw [he, scalarForm, hg, hfatal, if_neg Bool.false_ne_true, Option.isNone_eq_false_iff.mpr hp, if_neg Bool.false_ne_true]

theorem scalarGate_illegal {i : Instr} {s : State} {c : Cause} (hi : i.illegal = some c) (hpro : isPrologue i = false)
    (hpu : s.inPu = false) (hq : s.quiet = true) (htr : s.transferStall = false) :
    scalarGate i s = .done (s.scalarFault 0x11 c.code 0 0) := by
  unfold scalarGate
  simp [hi, hpro, hpu, htr, State.quiet_windows hq, windowsBlock, State.illegalScalar]

/-- The forms barred in a handler are not the Prologue Unit's own. -/
theorem isPrologue_of_handlerBars {i : Instr} (h : handlerBars i = true) : isPrologue i = false := by
  cases i <;> cases h <;> rfl

theorem scalarGate_barred {i : Instr} {s : State} (hi : i.illegal = none) (hbar : handlerBars i = true)
    (hh : s.cp.handler.isSome = true) (hpu : s.inPu = false) (hq : s.quiet = true) (htr : s.transferStall = false) :
    scalarGate i s = .done (s.scalarFault 0x10 0x0F 0 0) := by
  unfold scalarGate
  simp [hi, isPrologue_of_handlerBars hbar, hpu, htr, State.quiet_windows hq, windowsBlock, hbar, hh]

/-- Settles O28: the gate of the scalar forms gives the fault, whatever the form would do. -/
theorem handlerAndIllegalWords : Obligations.HandlerAndIllegalWords := by
  unfold Obligations.HandlerAndIllegalWords
  constructor
  · intro w i c s hw hi hpro hfatal hp hpu hq htr
    exact exec_of_scalarGate_done hw hfatal hp (scalarGate_illegal hi hpro hpu hq htr)
  · intro w i s hw hi hbar hfatal hp hpu hq htr hh
    exact exec_of_scalarGate_done hw hfatal hp (scalarGate_barred hi hbar hh hpu hq htr)

end Sys2Proof.Machine

namespace Sys2Proof.Machine

/-! ## System registers: O25 -/

theorem ofNat_bitsN {w : Nat} (x : BitVec w) (hi lo : Nat) :
    BitVec.ofNat 64 (bitsN x hi lo) = (x.extractLsb' lo (hi + 1 - lo)).setWidth 64 := by
  apply BitVec.eq_of_toNat_eq
  simp [bitsN]

theorem ofNat_base (x : DWord) : BitVec.ofNat 64 (bitsN x 63 16 * 65536) = x &&& ~~~0xFFFF#64 := by
  apply BitVec.eq_of_getLsbD_eq
  intro i hi
  have hmul : bitsN x 63 16 * 65536 = bitsN x 63 16 <<< 16 := by rw [Nat.shiftLeft_eq]
  have hmask : (0xFFFF#64).getLsbD i = decide (i < 16) := by
    rw [show (0xFFFF#64) = BitVec.ofNat 64 (2 ^ 16 - 1) from rfl, BitVec.getLsbD_ofNat, Nat.testBit_two_pow_sub_one]
    simp [hi]
  rw [BitVec.getLsbD_ofNat, hmul, Nat.testBit_shiftLeft, BitVec.getLsbD_and, BitVec.getLsbD_not, hmask, bitsN,
    Nat.testBit_mod_two_pow, Nat.testBit_shiftRight]
  by_cases h : i < 16
  · simp [h, show ¬ 16 ≤ i by omega]
  · simp [h, show 16 ≤ i by omega, hi, show i - 16 < 48 by omega, show 16 + (i - 16) = i by omega, BitVec.getLsbD]

/-- A fault register of a path with no handler reads 0. -/
theorem faultReg_none (c : Ctx) {p : Path} (n : Nat) (h : p.handler = none) : faultReg c p n = 0 := by
  rw [faultReg, h]

theorem sysValue_fault (s : State) {n : Nat} (h : 0x31 ≤ n ∧ n ≤ 0x38) : sysValue s n = some (BitVec.ofNat 64 (faultReg s.cctx s.cp n)) := by
  unfold sysValue
  dsimp only
  repeat rw [if_neg (by omega)]
  rw [if_pos h]

/-- The fault registers are those of the statement's table. -/
theorem sysValue_of_sysRead_fault {s : State} {n : Nat} (hn : 0x31 ≤ n ∧ n ≤ 0x38) : sysValue s n = sysRead s n := by
  rw [sysValue_fault s hn]
  obtain ⟨hlo, hhi⟩ := hn
  cases hh : s.cp.handler with
  | none =>
    rw [faultReg_none _ _ hh]
    interval_cases n <;> simp [sysRead, hh]
  | some h =>
    interval_cases n <;> simp [sysRead, hh, faultReg, fclass, ofNat_bitsN, Nat.mul_comm]

theorem sysValue_of_sysRead {s : State} {n : Nat} {x : DWord} (h : sysRead s n = some x) : sysValue s n = some x := by
  by_cases hn : 0x31 ≤ n ∧ n ≤ 0x38
  · rw [sysValue_of_sysRead_fault hn, h]
  · rw [← h]
    unfold sysRead
    dsimp only
    split
    case h_28 => simp_all [sysValue]
    all_goals simp_all [sysValue, ofNat_bitsN, textbaseN, lanebaseN, ofNat_base, dieOf, coreOf]

theorem afterWarpRuns_settled {n : Nat} {s : State} (body : State → State) (h : sysSettled s n) : afterWarpRuns n body s = body s := by
  unfold afterWarpRuns
  split
  · rfl
  · obtain ⟨hruns, hwait⟩ := h (by omega)
    simp [hruns, hwait]

theorem exec_sysr {d : BitVec 6} {n : BitVec 12} {s : State} {x : DWord} (hr : warpReady (.sysr d n) s)
    (hx : sysRead s n.toNat = some x) (hpriv : sysPriv n.toNat = true → s.cw.priv = true) (hset : sysSettled s n.toNat) :
    exec (.sysr d n) s = .next (s.setS d x).advance := by
  have hread : ¬(sysPriv n.toNat && !s.cw.priv) = true := by
    simpa using hpriv
  show execSysr d n s = _
  rw [execSysr, scalarForm_of_warpReady _ rfl hr]
  simp only [hr.2.2, Bool.false_eq_true, if_false, sysValue_of_sysRead hx, hread, afterWarpRuns_settled _ hset, Option.getD_some]

theorem exec_sysw {r : BitVec 6} {n : BitVec 12} {s : State} (hr : warpReady (.sysw r n) s) (hw : sysWritable n.toNat = true)
    (hpriv : sysPriv n.toNat = true → s.cw.priv = true) (hset : sysSettled s n.toNat) :
    exec (.sysw r n) s = .next (s.sysWrite n.toNat (s.sReg r)).advance := by
  have hwrite : ¬(sysPriv n.toNat && !s.cw.priv) = true := by
    simpa using hpriv
  show execSysw r n s = _
  rw [execSysw, scalarForm_of_warpReady _ rfl hr]
  simp only [hw, Bool.not_true, Bool.false_eq_true, if_false, hwrite, afterWarpRuns_settled _ hset]

/-- A form that leaves a state whose path has no window open and then moves on completes with that state as its effect. -/
theorem Effect.of_advance {i : Instr} {s u : State} (h : exec i s = .next u.advance) (hp : u.path?.isSome = true)
    (hw : u.cp.windows = []) (hpc : u.cp.pc = s.cp.pc) : Effect i s u (s.cp.pc + 4) := by
  obtain ⟨hdone, hs, ha, hq⟩ := (RegsOnly.refl hp).goto (by rw [State.quiet, hw]; rfl) rfl (u.cp.pc + 4)
  rw [hpc] at hdone hs ha hq
  refine ⟨u.goto (s.cp.pc + 4), ?_, hs, ha, hq, hdone⟩
  rw [h, ← hpc]
  rfl

theorem sysr_gives {d : BitVec 6} {n : BitVec 12} {s : State} {x : DWord} (hr : warpReady (.sysr d n) s)
    (hx : sysRead s n.toNat = some x) (hpriv : sysPriv n.toNat = true → s.cw.priv = true) (hset : sysSettled s n.toNat) :
    ∃ t, exec (.sysr d n) s = .next t ∧ ScalarResult s t (s.cp.pc + 4) (setAt s.sN d.toNat x) s.aN s.qN := by
  have hp := scalarReady_path hr.2.1
  have hregs := (RegsOnly.refl hp).setS d x
  obtain ⟨hdone, hs, ha, hq⟩ := hregs.goto hr.1 (State.setS_pu s d x) (s.cp.pc + 4)
  refine ⟨(s.setS d x).goto (s.cp.pc + 4), ?_, ?_, ?_, ?_, hdone⟩
  · rw [exec_sysr hr hx hpriv hset, ← hregs.pc]
    rfl
  · intro n
    rw [hs, State.setS, State.sN_setSN _ _ _ _ hp]
    rfl
  · intro n
    rw [ha, State.setS, State.aN_setSN _ hp]
  · intro n
    rw [hq, State.setS, State.qN_setSN _ hp]

theorem sysWrite_link {s : State} {n : Nat} (x : DWord) (h : 0x100 ≤ n) : s.sysWrite n x = s.modLink (n - 0x100) (·.writeDlctl x) := by
  unfold State.sysWrite
  repeat rw [if_neg (by omega)]

theorem sysWrite_fdisp (s : State) (x : DWord) : s.sysWrite 0x39 x
    = if x.extractLsb' 0 2 = 3 then s else s.modP (fun p => { p with fdisp := x.extractLsb' 0 2 }) := by
  have hbits : BitVec.ofNat 2 (bitsN x 1 0) = x.extractLsb' 0 2 := by
    apply BitVec.eq_of_toNat_eq
    simp [bitsN]
  have h3 : bitsN x 1 0 = 3 ↔ x.extractLsb' 0 2 = 3 := by
    rw [← hbits, ← BitVec.toNat_inj]
    simp [bitsN]
  simp only [State.sysWrite, Nat.reduceEqDiff, if_false, if_true, hbits, h3]

/-- A write of a system register leaves the path's place and windows. -/
theorem sysWrite_path {s : State} (n : Nat) (x : DWord) (hp : s.path?.isSome = true) : (s.sysWrite n x).path?.isSome = true
    ∧ (s.sysWrite n x).cp.windows = s.cp.windows ∧ (s.sysWrite n x).cp.pc = s.cp.pc := by
  have hpath : ∀ t : State, t.path? = s.path? → t.path?.isSome = true ∧ t.cp.windows = s.cp.windows ∧ t.cp.pc = s.cp.pc :=
    fun t h => ⟨h ▸ hp, by rw [State.cp, State.cp, h], by rw [State.cp, State.cp, h]⟩
  unfold State.sysWrite
  split
  · exact hpath _ (State.path?_modW _ _ (fun _ _ => rfl))
  split
  · exact hpath _ (State.path?_modW _ _ (fun _ _ => rfl))
  split
  · split
    · exact hpath _ rfl
    · exact ⟨State.path?_modP_isSome _ hp, by rw [State.cp_modP _ _ hp], by rw [State.cp_modP _ _ hp]⟩
  split
  · exact hpath _ rfl
  · exact hpath _ rfl

theorem sysw_effect {r : BitVec 6} {n : BitVec 12} {s : State} (hr : warpReady (.sysw r n) s) (hw : sysWritable n.toNat = true)
    (hpriv : sysPriv n.toNat = true → s.cw.priv = true) (hset : sysSettled s n.toNat) :
    Effect (.sysw r n) s (s.sysWrite n.toNat (s.sReg r)) (s.cp.pc + 4) := by
  obtain ⟨hp, hwin, hpc⟩ := sysWrite_path n.toNat (s.sReg r) (scalarReady_path hr.2.1)
  exact Effect.of_advance (exec_sysw hr hw hpriv hset) hp (hwin ▸ State.quiet_windows hr.1) hpc

/-- Settles O25: a read gives the value the table names, and a write leaves the path where it was, in the register's own part. -/
theorem systemRegisters : Obligations.SystemRegisters := by
  unfold Obligations.SystemRegisters
  refine ⟨fun d n s x => sysr_gives, fun r s hr hset => ?_, fun r s hr hset => ?_, fun r s hr => ?_, fun r s hr hpriv => ?_,
    fun r n s hr hpriv hlo hhi => ?_⟩
  · exact sysw_effect hr rfl (fun h => nomatch h) hset
  · exact sysw_effect hr rfl (fun h => nomatch h) hset
  · rw [← sysWrite_fdisp]
    exact sysw_effect hr rfl (fun h => nomatch h) (by rintro (h | h) <;> cases h)
  · exact sysw_effect hr rfl (fun _ => hpriv) (by rintro (h | h) <;> cases h)
  · rw [← sysWrite_link _ hlo]
    have hn : sysPriv n.toNat = true := by simp [sysPriv, hlo, hhi]
    exact sysw_effect hr (by simp [sysWritable, hn]) (fun _ => hpriv) (by rintro (h | h) <;> omega)

end Sys2Proof.Machine

namespace Sys2Proof.Machine

/-! ## What an access leaves beside its values: O19 to O22 -/

theorem Kept.refl (s : State) : Kept s s :=
  ⟨rfl, rfl, .inl rfl, rfl, fun _ _ => rfl, fun _ => rfl, fun _ => rfl, rfl⟩

theorem Kept.cur {s u : State} (h : Kept s u) : u.cur = s.cur := by rw [h.rest]

theorem Kept.trans {s t u : State} (h1 : Kept s t) (h2 : Kept t u) : Kept s u where
  warp := by rw [h2.warp, h1.warp]
  path := by rw [h2.path, h1.path]
  access := by
    rcases h2.access with h | h
    · exact h1.access.imp (h.trans ·) (h.trans ·)
    · exact .inr h
  runs := h2.runs.trans h1.runs
  warps w hw := (h2.warps w (by rwa [h1.cur])).trans (h1.warps w hw)
  cores c := by rw [h2.cores, h1.cores]
  ctxs c := by rw [h2.ctxs, h1.ctxs]
  rest := by rw [h2.rest, h1.rest]

/-- A step of an access that writes no register of the warp or its paths. -/
structure Passes (s u : State) : Prop where
  kept : Kept s u
  path : u.path?.isSome = true
  scalars : u.cw.s = s.cw.s ∧ u.cw.a = s.cw.a ∧ u.cp.s = s.cp.s
  lanes : u.cw.v = s.cw.v

theorem Passes.refl {s : State} (h : s.path?.isSome = true) : Passes s s := ⟨Kept.refl s, h, ⟨rfl, rfl, rfl⟩, rfl⟩

theorem Passes.trans {s t u : State} (h1 : Passes s t) (h2 : Passes t u) : Passes s u where
  kept := h1.kept.trans h2.kept
  path := h2.path
  scalars := ⟨h2.scalars.1.trans h1.scalars.1, h2.scalars.2.1.trans h1.scalars.2.1, h2.scalars.2.2.trans h1.scalars.2.2⟩
  lanes := h2.lanes.trans h1.lanes

theorem Passes.cur {s u : State} (h : Passes s u) : u.cur = s.cur := h.kept.cur

theorem Passes.sameScalars {s u : State} (h : Passes s u) : SameScalars s u :=
  .of_regs h.scalars.1 h.scalars.2.1 h.scalars.2.2 (by rw [h.kept.path])

theorem Passes.windows {s u : State} (h : Passes s u) : u.cp.windows = s.cp.windows := by rw [h.kept.path]
theorem Passes.pc {s u : State} (h : Passes s u) : u.cp.pc = s.cp.pc := by rw [h.kept.path]
theorem Passes.stepping {s u : State} (h : Passes s u) : u.cp.stepping = s.cp.stepping := by rw [h.kept.path]
theorem Passes.inPu {s u : State} (h : Passes s u) : u.inPu = s.inPu := by rw [State.inPu, State.inPu, h.cur]

/-- A step that leaves every warp and touches, of the rest, what an access may. -/
structure BesideWarps (s u : State) : Prop where
  cores : ∀ c, u.core c = { s.core c with tlb := (u.core c).tlb, l1 := (u.core c).l1 }
  ctxs : ∀ c, u.ctx c = { s.ctx c with covlost := (u.ctx c).covlost }
  rest : u = { s with
    mem := u.mem, ctxs := u.ctxs, cores := u.cores, links := u.links, l2 := u.l2, hubTlb := u.hubTlb, pointers := u.pointers
    names := u.names, freeCtr := u.freeCtr }

theorem BesideWarps.refl (s : State) : BesideWarps s s := ⟨fun _ => rfl, fun _ => rfl, rfl⟩

theorem BesideWarps.trans {s t u : State} (h1 : BesideWarps s t) (h2 : BesideWarps t u) : BesideWarps s u :=
  ⟨fun c => by rw [h2.cores, h1.cores], fun c => by rw [h2.ctxs, h1.ctxs], by rw [h2.rest, h1.rest]⟩

theorem BesideWarps.warps {s u : State} (h : BesideWarps s u) : u.warps = s.warps := by rw [h.rest]
theorem BesideWarps.cur {s u : State} (h : BesideWarps s u) : u.cur = s.cur := by rw [h.rest]
theorem BesideWarps.path? {s u : State} (h : BesideWarps s u) : u.path? = s.path? := by
  rw [State.path?, State.path?, State.pathAt, State.pathAt, h.warps, h.cur]
theorem BesideWarps.cp {s u : State} (h : BesideWarps s u) : u.cp = s.cp := by rw [State.cp, State.cp, h.path?]
theorem BesideWarps.cw {s u : State} (h : BesideWarps s u) : u.cw = s.cw := by rw [State.cw, State.cw, h.warps, h.cur]

theorem BesideWarps.passes {s u : State} (h : BesideWarps s u) (hp : s.path?.isSome = true) : Passes s u where
  kept := {
    warp := by rw [h.cw]
    path := by rw [h.cp]
    access := .inl (by rw [h.cp])
    runs := by rw [h.cp]
    warps := fun w _ => by rw [h.warps]
    cores := h.cores
    ctxs := h.ctxs
    rest := h.rest.trans (by rw [h.warps]) }
  path := h.path? ▸ hp
  scalars := by rw [h.cw, h.cp]; exact ⟨rfl, rfl, rfl⟩
  lanes := by rw [h.cw]

theorem BesideWarps.foldl {α : Type} {f : State → α → State} (h : ∀ s x, BesideWarps s (f s x)) (l : List α) :
    ∀ s, BesideWarps s (l.foldl f s) := by
  induction l with
  | nil => exact BesideWarps.refl
  | cons x l ih => exact fun s => (h s x).trans (ih _)

theorem HeldOnly.besideWarps {s t : State} (h : HeldOnly s t) : BesideWarps s t :=
  ⟨fun c => by rw [h.cores], fun c => by rw [State.ctx, State.ctx, h.rest], by rw [h.rest]⟩

/-! ### Race stamps (R132-R138) -/

/-- A step of the race detector beside the warps: the stamps of memory, the coverage lost and the draw. -/
structure StampsOnly (s u : State) : Prop where
  ctxs : ∀ c, u.ctx c = { s.ctx c with covlost := (u.ctx c).covlost }
  rest : u = { s with
    mem := { s.mem with stamps := u.mem.stamps, canvasStamps := u.mem.canvasStamps }, ctxs := u.ctxs, freeCtr := u.freeCtr }

theorem StampsOnly.refl (s : State) : StampsOnly s s := ⟨fun _ => rfl, rfl⟩

theorem StampsOnly.trans {s t u : State} (h1 : StampsOnly s t) (h2 : StampsOnly t u) : StampsOnly s u :=
  ⟨fun c => by rw [h2.ctxs, h1.ctxs], by rw [h2.rest, h1.rest]⟩

theorem StampsOnly.foldl {α : Type} {f : State → α → State} (h : ∀ s x, StampsOnly s (f s x)) (l : List α) :
    ∀ s, StampsOnly s (l.foldl f s) := by
  induction l with
  | nil => exact StampsOnly.refl
  | cons x l ih => exact fun s => (h s x).trans (ih _)

theorem StampsOnly.mem {s u : State} (h : StampsOnly s u) :
    u.mem = { s.mem with stamps := u.mem.stamps, canvasStamps := u.mem.canvasStamps } := by rw [h.rest]
theorem StampsOnly.cores {s u : State} (h : StampsOnly s u) : u.cores = s.cores := by rw [h.rest]
theorem StampsOnly.links {s u : State} (h : StampsOnly s u) : u.links = s.links := by rw [h.rest]

theorem StampsOnly.besideWarps {s u : State} (h : StampsOnly s u) : BesideWarps s u :=
  ⟨fun c => by rw [State.core, State.core, h.cores], h.ctxs, by rw [h.rest]⟩

theorem stampsOnly_setStamp (s : State) (canvas : Bool) (k : Nat) (x : BitVec 128) : StampsOnly s (s.setStamp canvas k x) := by
  refine ⟨fun _ => rfl, ?_⟩
  cases canvas <;> rfl

theorem ctx_modCtx (s : State) (c d : Nat) (f : Ctx → Ctx) : (s.modCtx c f).ctx d = if d = c then f (s.ctx c) else s.ctx d := Tab.getD_put ..

theorem stampsOnly_addCovlost (s : State) (ctx n : Nat) : StampsOnly s (s.addCovlost ctx n) := by
  unfold State.addCovlost
  split
  · exact StampsOnly.refl s
  · refine ⟨fun c => ?_, rfl⟩
    rw [ctx_modCtx]
    split
    · next h => rw [h]
    · rfl

theorem stampsOnly_draw (s : State) : StampsOnly s s.draw.2 := ⟨fun _ => rfl, rfl⟩

theorem stampsOnly_ageStamps (s : State) (ctx : Nat) (canvas : Bool) (a n : Nat) : StampsOnly s (s.ageStamps ctx canvas a n) := by
  unfold State.ageStamps
  refine StampsOnly.foldl (fun s k => ?_) _ s
  split
  · exact StampsOnly.refl s
  · dsimp only
    split
    · exact (stampsOnly_draw s).trans ((stampsOnly_setStamp _ canvas k 0).trans (stampsOnly_addCovlost _ ctx 1))
    · exact stampsOnly_draw s

theorem stampsOnly_raceOk (s : State) (wid : Nat) (off canvas : Bool) (a n : Nat) : StampsOnly s (s.raceOk wid off canvas a n).2 := by
  unfold State.raceOk
  split
  · exact StampsOnly.refl s
  · dsimp only
    split
    · exact stampsOnly_ageStamps ..
    · exact (stampsOnly_ageStamps ..).trans (stampsOnly_addCovlost ..)

theorem stampsOnly_raceLanes (off canvas : Bool) (n : Nat) : ∀ (xs : List LaneAcc) (s : State),
    StampsOnly s (s.raceLanes off canvas n xs).1
  | [], s => StampsOnly.refl s
  | x :: xs, s => by
    have hx := stampsOnly_raceOk s s.cur.1 off canvas x.pa n
    rw [State.raceLanes]
    split
    · next h =>
      rw [h] at hx
      exact hx.trans (stampsOnly_raceLanes off canvas n xs _)
    · next h =>
      rw [h] at hx
      exact hx.trans (stampsOnly_raceLanes off canvas n xs _)

theorem stampsOnly_stampPlain (s : State) (wid : Nat) (canvas : Bool) (a n : Nat) : StampsOnly s (s.stampPlain wid canvas a n) := by
  unfold State.stampPlain
  split
  · exact StampsOnly.refl s
  · exact StampsOnly.foldl (fun s k => (stampsOnly_setStamp ..).trans (stampsOnly_addCovlost ..)) _ s

theorem stampsOnly_stampAtomic (s : State) (wid : Nat) (canvas : Bool) (a n : Nat) (release : Option Nat) :
    StampsOnly s (s.stampAtomic wid canvas a n release) := by
  unfold State.stampAtomic
  split
  · exact StampsOnly.refl s
  · exact StampsOnly.foldl (fun s k => (stampsOnly_setStamp ..).trans (stampsOnly_addCovlost ..)) _ s

/-! ### Lines dropped, and requests that enter (R81, R82, R149) -/

theorem besideWarps_modMem (s : State) (f : Mem → Mem) : BesideWarps s (s.modMem f) := ⟨fun _ => rfl, fun _ => rfl, rfl⟩

theorem besideWarps_modLink (s : State) (n : Nat) (f : Link → Link) : BesideWarps s (s.modLink n f) := ⟨fun _ => rfl, fun _ => rfl, rfl⟩

theorem core_dropHit (s : State) (core c : Nat) (hit : Nat → Bool) : (s.dropHit core hit).core c
    = if c = core then { s.core core with l1 := (s.core core).l1.filter (fun x => !hit x.n) } else s.core c :=
  Tab.getD_put ..

theorem besideWarps_dropHit (s : State) (core : Nat) (hit : Nat → Bool) : BesideWarps s (s.dropHit core hit) := by
  refine ⟨fun c => ?_, fun _ => rfl, rfl⟩
  rw [core_dropHit]
  split
  · next h => rw [h]
  · rfl

theorem besideWarps_dropLines (s : State) (core pa n : Nat) : BesideWarps s (s.dropLines core pa n) := by
  unfold State.dropLines
  split
  · exact besideWarps_dropHit ..
  · exact BesideWarps.refl s

theorem besideWarps_name (s : State) (r : Req) : BesideWarps s (s.name r).1 := ⟨fun _ => rfl, fun _ => rfl, rfl⟩

/-- A request that does nothing to memory as it enters changes its link alone. -/
theorem besideWarps_enter {s : State} {r : Req} (h : r.eff = .none) : BesideWarps s (s.enter r) := by
  have heff : s.effect r = s := by rw [State.effect, h]
  rw [State.enter, heff]
  exact besideWarps_modLink ..

theorem besideWarps_storePa (s : State) (pa : Nat) (bs : List Byte) : BesideWarps s (s.storePa false pa bs) :=
  (besideWarps_modMem s _).trans ((stampsOnly_stampPlain ..).besideWarps.trans (besideWarps_dropLines ..))

theorem besideWarps_atomicPa (s : State) (pa n new : Nat) (rel : Option Nat) : BesideWarps s (s.atomicPa false pa n new rel) :=
  (besideWarps_modMem s _).trans ((stampsOnly_stampAtomic ..).besideWarps.trans (besideWarps_dropLines ..))

end Sys2Proof.Machine

namespace Sys2Proof.Machine

/-! ### What an access changes in the issuing warp (R130, R134, R138) -/

theorem State.find_cw {s : State} (hp : s.path?.isSome = true) : s.warps.find s.cur.1 = some s.cw := by
  obtain ⟨p, hp⟩ := Option.isSome_iff_exists.mp hp
  obtain ⟨w, hw, -⟩ := State.path?_some hp
  rw [State.cw, hw, Option.getD_some]

/-- An update of the warp that changes its paths by one function. -/
theorem State.path?_modW_map {s : State} {f : Warp → Warp} {g : Path → Path} (hp : s.path?.isSome = true)
    (h : ∀ k, (f s.cw).slot k = (s.cw.slot k).map g) : (s.modW f).path? = s.path?.map g := by
  have hfind := State.find_cw hp
  unfold State.path? State.pathAt
  simp only [State.modW, State.modWarp_cur, State.find_modWarp, hfind, if_true, Option.map_some, Option.bind_some, h]

/-- An update of the issuing warp that changes what an access may, and its paths by one function. -/
theorem Kept.of_modW {s : State} {f : Warp → Warp} {g : Path → Path} (hp : s.path?.isSome = true)
    (hslot : ∀ k, (f s.cw).slot k = (s.cw.slot k).map g)
    (hwarp : f s.cw = { s.cw with
      s := (f s.cw).s, a := (f s.cw).a, v := (f s.cw).v, vpoison := (f s.cw).vpoison, racectl := (f s.cw).racectl
      interval := (f s.cw).interval, table := (f s.cw).table, teamvec := (f s.cw).teamvec, floor := (f s.cw).floor
      rel := (f s.cw).rel, slot0 := (f s.cw).slot0, slot1 := (f s.cw).slot1, stack := (f s.cw).stack })
    (hpath : g s.cp = { s.cp with queue := (g s.cp).queue })
    (hruns : (g s.cp).queue.map (fun r => (r.off, r.count, r.pos, r.s, r.a)) = s.cp.queue.map (fun r => (r.off, r.count, r.pos, r.s, r.a))) :
    Kept s (s.modW f) ∧ (s.modW f).path?.isSome = true ∧ (s.modW f).cp = g s.cp := by
  have hcw := State.cw_modW s f hp
  have hp' := State.path?_modW_map hp hslot
  have hcp : (s.modW f).cp = g s.cp := by
    obtain ⟨p, hpp⟩ := Option.isSome_iff_exists.mp hp
    rw [State.cp, hp', State.cp, hpp]
    rfl
  have hrest := State.modW_rest s f
  have hpu : (s.modW f).pu = s.pu := by simp
  refine ⟨⟨?_, ?_, ?_, ?_, fun w hw => State.find_modW_ne s f w hw, fun c => ?_, fun c => ?_, ?_⟩, ?_, hcp⟩
  · rw [hcw, hwarp]
  · rw [hcp, hpath]
  · rw [hcp, hpath]; exact .inl rfl
  · rw [hcp, hruns]
  · rw [hrest]; rfl
  · rw [hrest]; rfl
  · rw [hpu] at hrest; rw [hrest]
  · rw [hp', Option.isSome_map, hp]

theorem Passes.of_modW {s : State} {f : Warp → Warp} {g : Path → Path} (hp : s.path?.isSome = true)
    (hslot : ∀ k, (f s.cw).slot k = (s.cw.slot k).map g)
    (hwarp : f s.cw = { s.cw with
      racectl := (f s.cw).racectl, interval := (f s.cw).interval, table := (f s.cw).table, teamvec := (f s.cw).teamvec
      floor := (f s.cw).floor, rel := (f s.cw).rel, slot0 := (f s.cw).slot0, slot1 := (f s.cw).slot1, stack := (f s.cw).stack })
    (hpath : g s.cp = { s.cp with queue := (g s.cp).queue })
    (hruns : (g s.cp).queue.map (fun r => (r.off, r.count, r.pos, r.s, r.a)) = s.cp.queue.map (fun r => (r.off, r.count, r.pos, r.s, r.a))) :
    Passes s (s.modW f) := by
  obtain ⟨hkept, hp', hcp⟩ := Kept.of_modW hp hslot (by rw [hwarp]) hpath hruns
  have hcw := State.cw_modW s f hp
  refine ⟨hkept, hp', ?_, ?_⟩
  · rw [hcw, hcp, hwarp, hpath]; exact ⟨rfl, rfl, rfl⟩
  · rw [hcw, hwarp]

theorem Passes.of_modW_slots {s : State} {f : Warp → Warp} (hp : s.path?.isSome = true)
    (hwarp : f s.cw = { s.cw with
      racectl := (f s.cw).racectl, interval := (f s.cw).interval, table := (f s.cw).table, teamvec := (f s.cw).teamvec
      floor := (f s.cw).floor, rel := (f s.cw).rel }) :
    Passes s (s.modW f) := by
  refine Passes.of_modW (g := id) hp (fun k => ?_) ?_ rfl rfl
  · rw [hwarp, Option.map_id]; rfl
  · rw [hwarp]

/-- An update of the issuing path that changes what an access may. -/
theorem Kept.of_modP {s : State} {f : Path → Path} (hp : s.path?.isSome = true)
    (hpath : f s.cp = { s.cp with
      s := (f s.cp).s, relFence := (f s.cp).relFence, acqReads := (f s.cp).acqReads, access := (f s.cp).access })
    (haccess : (f s.cp).access = s.cp.access ∨ (f s.cp).access = none) : Kept s (s.modP f) := by
  have hcw := State.cw_modP s f hp
  have hcp := State.cp_modP s f hp
  have hrest := State.modP_rest s f
  have hpu : (s.modP f).pu = s.pu := by simp
  refine ⟨?_, ?_, ?_, ?_, fun w hw => State.find_modP_ne s f w hw, fun c => ?_, fun c => ?_, ?_⟩
  · rw [hcw]
  · rw [hcp, hpath]
  · rw [hcp]; exact haccess
  · rw [hcp, hpath]
  · rw [hrest]; rfl
  · rw [hrest]; rfl
  · rw [hpu] at hrest; rw [hrest]

theorem Passes.of_modP {s : State} {f : Path → Path} (hp : s.path?.isSome = true)
    (hpath : f s.cp = { s.cp with relFence := (f s.cp).relFence, acqReads := (f s.cp).acqReads, access := (f s.cp).access })
    (haccess : (f s.cp).access = s.cp.access ∨ (f s.cp).access = none) : Passes s (s.modP f) := by
  have hcw := State.cw_modP s f hp
  have hcp := State.cp_modP s f hp
  refine ⟨Kept.of_modP hp (by rw [hpath]) haccess, State.path?_modP_isSome f hp, ?_, ?_⟩
  · rw [hcw, hcp, hpath]; exact ⟨rfl, rfl, rfl⟩
  · rw [hcw]

/-- A path whose runs no longer pass the check once (R138). -/
def Path.spent (p : Path) : Path := { p with queue := p.queue.map (fun r => { r with racectl := r.racectl &&& 1 }) }

theorem Warp.useOnce_slot (w : Warp) (k : Nat) : w.useOnce.slot k = (w.slot k).map Path.spent := by
  unfold Warp.useOnce Warp.slot
  split
  · rfl
  split
  · rfl
  · simp only [List.getElem?_map, Option.map_map]
    rfl

theorem passes_useOnce {s : State} (hp : s.path?.isSome = true) : Passes s (s.modW Warp.useOnce) :=
  Passes.of_modW (g := Path.spent) hp (fun k => Warp.useOnce_slot _ k) rfl rfl (by simp [Path.spent])

theorem passes_releaseW {s : State} (hp : s.path?.isSome = true) : Passes s (s.releaseW s.cur.1) :=
  Passes.of_modW_slots (f := Warp.release) hp rfl

/-! ### Acquires (R134, R152) -/

/-- What a warp has acquired, of all it holds. -/
def Acquired (w u : Warp) : Prop := u = { w with table := u.table, teamvec := u.teamvec, floor := u.floor }

theorem Acquired.refl (w : Warp) : Acquired w w := rfl

theorem Acquired.trans {w u v : Warp} (h1 : Acquired w u) (h2 : Acquired u v) : Acquired w v := by
  unfold Acquired at *
  rw [h2, h1]

theorem acquired_record (w : Warp) (now : Word) (wr : Nat) (iv : Word) : Acquired w (w.record now wr iv).1 := by
  unfold Warp.record
  split
  · rfl
  split
  · rfl
  · rfl

theorem acquired_recordAll (now : Word) (es : List (Nat × Word)) : ∀ (w : Warp) (n : Nat),
    Acquired w (es.foldl (fun r e => let x := r.1.record now e.1 e.2; (x.1, r.2 + x.2)) (w, n)).1 := by
  induction es with
  | nil => exact fun w _ => Acquired.refl w
  | cons e es ih => exact fun w n => (acquired_record w now e.1 e.2).trans (ih _ _)

theorem acquired_raiseFloor (w : Warp) (ep : Word) : Acquired w (w.raiseFloor ep).1 := by
  unfold Warp.raiseFloor
  split
  · rfl
  · rfl

theorem acquired_mergeRel (w : Warp) (now : Word) (r : RelRec) : Acquired w (w.mergeRel now r).1 := by
  have hteam : ∀ (u : Warp) (v : Cells 32), Acquired u { u with teamvec := v } := fun _ _ => rfl
  exact (acquired_recordAll now r.table w 0).trans ((hteam _ _).trans (acquired_raiseFloor _ _))

/-- Every link stands as it did, for those who ask whether it takes a request. -/
def LinksStand (s u : State) : Prop :=
  ∀ n, (u.link n).st = (s.link n).st ∧ (u.link n).waiting = (s.link n).waiting ∧ (u.link n).queue.length = (s.link n).queue.length

theorem LinksStand.of_links {s u : State} (h : u.links = s.links) : LinksStand s u := fun n => by
  rw [State.link, State.link, h]
  exact ⟨rfl, rfl, rfl⟩

theorem LinksStand.trans {s t u : State} (h1 : LinksStand s t) (h2 : LinksStand t u) : LinksStand s u := fun n =>
  ⟨(h2 n).1.trans (h1 n).1, (h2 n).2.1.trans (h1 n).2.1, (h2 n).2.2.trans (h1 n).2.2⟩

/-- A link whose reads no longer fill some lines of a core's L1 (R149). -/
def Link.without (core : Nat) (hit : Nat → Bool) (l : Link) : Link :=
  { l with queue := l.queue.map (Req.spoil core hit), inflight := l.inflight.map (fun x => { x with req := x.req.spoil core hit }) }

theorem linksStand_dropHit (s : State) (core : Nat) (hit : Nat → Bool) : LinksStand s (s.dropHit core hit) := fun n =>
  ⟨Tab.getD_map (Link.without core hit) Link.st {} (fun _ => rfl) s.links n,
    Tab.getD_map (Link.without core hit) Link.waiting {} (fun _ => rfl) s.links n,
    Tab.getD_map (Link.without core hit) (fun l => l.queue.length) {} (fun _ => List.length_map ..) s.links n⟩

theorem linksStand_dropLines (s : State) (core pa n : Nat) : LinksStand s (s.dropLines core pa n) := by
  unfold State.dropLines
  split
  · exact linksStand_dropHit s core _
  · exact .of_links rfl

/-- What the race detector records of an access in its warp: no byte of memory and no link moves. -/
structure Records (s u : State) : Prop where
  passes : Passes s u
  mem : u.mem = s.mem
  links : LinksStand s u

theorem Records.refl {s : State} (hp : s.path?.isSome = true) : Records s s := ⟨Passes.refl hp, rfl, .of_links rfl⟩

theorem Records.trans {s t u : State} (h1 : Records s t) (h2 : Records t u) : Records s u :=
  ⟨h1.passes.trans h2.passes, h2.mem.trans h1.mem, h1.links.trans h2.links⟩

theorem Records.of_passes {s u : State} (h : Passes s u) (hmem : u.mem = s.mem) (hlinks : u.links = s.links) : Records s u :=
  ⟨h, hmem, .of_links hlinks⟩

theorem records_useOnce {s : State} (hp : s.path?.isSome = true) : Records s (s.modW Warp.useOnce) :=
  .of_passes (passes_useOnce hp) (by simp) (by simp)

theorem records_spendOnce {s : State} (some_ : Bool) (hp : s.path?.isSome = true) : Records s (s.spendOnce some_) := by
  unfold State.spendOnce
  split
  · exact Records.refl hp
  · exact records_useOnce hp

theorem records_releaseW {s : State} (hp : s.path?.isSome = true) : Records s (s.releaseW s.cur.1) :=
  .of_passes (passes_releaseW hp) (by simp [State.releaseW]) (by simp [State.releaseW])

theorem records_beforeAtomic {s : State} (ord : Nat) (hp : s.path?.isSome = true) : Records s (s.beforeAtomic ord) := by
  unfold State.beforeAtomic
  split
  · exact records_releaseW hp
  · exact Records.refl hp

/-- A change of what the warp has acquired, and the coverage it loses. -/
theorem records_tally {s : State} {f : Warp → Warp × Nat} (hp : s.path?.isSome = true) (hf : ∀ w, Acquired w (f w).1) :
    Records s (s.tally s.cur.1 f) := by
  have hfind := State.find_cw hp
  have htally : s.tally s.cur.1 f = (s.modW (fun w => (f w).1)).addCovlost s.cw.ctx (f s.cw).2 := by
    unfold State.tally State.modW State.modWarp
    simp only [hfind]
  have hmod : Records s (s.modW (fun w => (f w).1)) :=
    .of_passes (Passes.of_modW_slots hp (by rw [hf])) (by simp) (by simp)
  have hlost := stampsOnly_addCovlost (s.modW (fun w => (f w).1)) s.cw.ctx (f s.cw).2
  have hmem : ((s.modW (fun w => (f w).1)).addCovlost s.cw.ctx (f s.cw).2).mem = (s.modW (fun w => (f w).1)).mem := by
    unfold State.addCovlost
    split <;> rfl
  rw [htally]
  exact hmod.trans (.of_passes (hlost.besideWarps.passes hmod.passes.path) hmem hlost.links)

theorem records_acquireRelease {s : State} (h : Nat) (iv ep : Word) (hp : s.path?.isSome = true) :
    Records s (s.acquireRelease s.cur.1 h iv ep) := by
  refine records_tally hp (fun w => (acquired_record w s.now (wrOf h).toNat iv).trans ?_)
  split
  · split
    · split
      · exact acquired_mergeRel ..
      · exact acquired_raiseFloor ..
    · exact acquired_raiseFloor ..
  · exact acquired_raiseFloor ..

theorem records_acquireStamp {s : State} (scope : Nat) (st : Option (BitVec 128)) (hp : s.path?.isSome = true) :
    Records s (s.acquireStamp s.cur.1 scope st) := by
  unfold State.acquireStamp
  split
  · exact records_tally hp (fun _ => rfl)
  · split
    · split
      · exact records_acquireRelease _ _ _ hp
      · exact Records.refl hp
    · dsimp only
      split
      · exact Records.refl hp
      · exact records_tally hp (fun w => (acquired_record ..).trans (acquired_raiseFloor ..))

theorem records_acquireStamps (scope wid : Nat) : ∀ (sts : List (Option (BitVec 128))) {s : State}, s.cur.1 = wid →
    s.path?.isSome = true → Records s (sts.foldl (fun s st => s.acquireStamp wid scope st) s)
  | [], s, _, hp => Records.refl hp
  | st :: sts, s, hw, hp => by
    subst hw
    have hst := records_acquireStamp scope st hp
    exact hst.trans (records_acquireStamps scope _ sts (by rw [hst.passes.cur]) hst.passes.path)

theorem records_dropL1 {s : State} (wid scope : Nat) (hp : s.path?.isSome = true) : Records s (s.dropL1 wid scope) := by
  unfold State.dropL1
  split
  · exact Records.refl hp
  · exact ⟨(besideWarps_dropHit ..).passes hp, rfl, linksStand_dropHit s _ _⟩

theorem records_modP {s : State} {f : Path → Path} (hp : s.path?.isSome = true)
    (hpath : f s.cp = { s.cp with relFence := (f s.cp).relFence, acqReads := (f s.cp).acqReads, access := (f s.cp).access })
    (haccess : (f s.cp).access = s.cp.access ∨ (f s.cp).access = none) : Records s (s.modP f) :=
  .of_passes (Passes.of_modP hp hpath haccess) (by simp) (by simp)

theorem records_acquireP {s : State} (scope : Nat) (sts : List (Option (BitVec 128))) (hp : s.path?.isSome = true) :
    Records s (s.acquireP scope sts) := by
  have hsts := records_acquireStamps scope s.cur.1 sts rfl hp
  set t := sts.foldl (fun s' st => s'.acquireStamp s.cur.1 scope st) s with ht
  have hcur : s.cur.1 = t.cur.1 := by rw [hsts.passes.cur]
  have hbump : Records t (t.bumpInterval s.cur.1) := by
    rw [hcur]
    exact .of_passes (Passes.of_modW_slots (f := fun w => { w with interval := w.interval + 1 }) hsts.passes.path rfl)
      (by simp [State.bumpInterval]) (by simp [State.bumpInterval])
  have hdrop := records_dropL1 s.cur.1 scope hbump.passes.path
  exact hsts.trans (hbump.trans (hdrop.trans (records_modP hdrop.passes.path rfl (.inl rfl))))

theorem records_afterAtomic {s : State} (ord scope : Nat) (sts : List (Option (BitVec 128))) (hp : s.path?.isSome = true) :
    Records s (s.afterAtomic ord scope sts) := by
  unfold State.afterAtomic
  dsimp only
  split
  · exact records_acquireP scope sts hp
  split
  · exact records_modP hp rfl (.inl rfl)
  · exact records_modP hp rfl (.inl rfl)

end Sys2Proof.Machine

namespace Sys2Proof.Machine

/-! ### The check does not read what ONCE's use changes (R135, R138) -/

/-- What the race check reads of a warp. -/
def SameRacer (w u : Warp) : Prop :=
  u.ctx = w.ctx ∧ u.team = w.team ∧ u.teamvec = w.teamvec ∧ u.table = w.table ∧ u.floor = w.floor

def State.withWarps (s : State) (ws : Tab Warp) : State := { s with warps := ws }

@[simp] theorem State.withWarps_warps (s : State) (ws : Tab Warp) : (s.withWarps ws).warps = ws := rfl
@[simp] theorem State.withWarps_teams (s : State) (ws : Tab Warp) : (s.withWarps ws).teams = s.teams := rfl
@[simp] theorem State.withWarps_cur (s : State) (ws : Tab Warp) : (s.withWarps ws).cur = s.cur := rfl
@[simp] theorem State.withWarps_now (s : State) (ws : Tab Warp) : (s.withWarps ws).now = s.now := rfl
@[simp] theorem State.withWarps_stampAt (s : State) (ws : Tab Warp) (canvas : Bool) (k : Nat) :
    (s.withWarps ws).stampAt canvas k = s.stampAt canvas k := rfl

theorem foldl_withWarps {α : Type} {f : State → α → State} {ws : Tab Warp} (h : ∀ s x, f (s.withWarps ws) x = (f s x).withWarps ws)
    (l : List α) : ∀ s : State, l.foldl f (s.withWarps ws) = (l.foldl f s).withWarps ws := by
  induction l with
  | nil => exact fun _ => rfl
  | cons x l ih => exact fun s => by rw [List.foldl_cons, h, ih, List.foldl_cons]

theorem addCovlost_withWarps (s : State) (ws : Tab Warp) (ctx n : Nat) :
    (s.withWarps ws).addCovlost ctx n = (s.addCovlost ctx n).withWarps ws := by
  unfold State.addCovlost
  split <;> rfl

theorem ageStamps_withWarps (s : State) (ws : Tab Warp) (ctx : Nat) (canvas : Bool) (a n : Nat) :
    (s.withWarps ws).ageStamps ctx canvas a n = (s.ageStamps ctx canvas a n).withWarps ws := by
  unfold State.ageStamps
  refine foldl_withWarps (fun s k => ?_) _ s
  have hst : (s.withWarps ws).stampAt canvas k = s.stampAt canvas k := rfl
  rw [hst]
  split
  · rfl
  · dsimp only
    split
    · next h =>
      rw [if_pos (show Config.stampLost s.draw.1 = true from h)]
      exact addCovlost_withWarps (s.draw.2.setStamp canvas k 0) ws ctx 1
    · next h =>
      rw [if_neg (show ¬ Config.stampLost s.draw.1 = true from h)]
      rfl

theorem raceOk_withWarps {s : State} {ws : Tab Warp} {wid : Nat} (off canvas : Bool) (a n : Nat)
    (hw : SameRacer ((s.warps.find wid).getD {}) ((ws.find wid).getD {})) :
    (s.withWarps ws).raceOk wid off canvas a n = ((s.raceOk wid off canvas a n).1, (s.raceOk wid off canvas a n).2.withWarps ws) := by
  obtain ⟨hctx, hteam, hvec, htable, hfloor⟩ := hw
  have hcheck : ∀ (t : Team) (now : Word) (st : BitVec 128) (bm : Nat),
      raceCheck ((ws.find wid).getD {}) t wid now st bm = raceCheck ((s.warps.find wid).getD {}) t wid now st bm := by
    intro t now st bm
    unfold raceCheck
    rw [hvec, htable, hfloor]
  unfold State.raceOk
  split
  · rfl
  · have hage := ageStamps_withWarps s ws ((s.warps.find wid).getD {}).ctx canvas a n
    have hwarps : (s.ageStamps ((s.warps.find wid).getD {}).ctx canvas a n).warps = s.warps :=
      (stampsOnly_ageStamps ..).besideWarps.warps
    simp only [State.withWarps_warps, State.withWarps_teams, State.withWarps_now, State.withWarps_stampAt, hctx, hage, hwarps,
      hteam, hcheck]
    split
    · rfl
    · exact congrArg _ (addCovlost_withWarps ..)

theorem raceLanes_withWarps (off canvas : Bool) (n : Nat) : ∀ (xs : List LaneAcc) {s : State} {ws : Tab Warp},
    SameRacer ((s.warps.find s.cur.1).getD {}) ((ws.find s.cur.1).getD {}) →
    (s.withWarps ws).raceLanes off canvas n xs
      = ((s.raceLanes off canvas n xs).1.withWarps ws, (s.raceLanes off canvas n xs).2)
  | [], s, ws, _ => rfl
  | x :: xs, s, ws, hw => by
    have hx := stampsOnly_raceOk s s.cur.1 off canvas x.pa n
    have hrest := raceLanes_withWarps off canvas n xs (s := (s.raceOk s.cur.1 off canvas x.pa n).2) (ws := ws)
      (by rwa [hx.besideWarps.warps, hx.besideWarps.cur])
    rw [State.raceLanes, State.raceLanes, State.withWarps_cur, raceOk_withWarps off canvas x.pa n hw]
    rcases h : s.raceOk s.cur.1 off canvas x.pa n with ⟨st, u⟩
    rw [h] at hrest
    cases st with
    | none => simp only [hrest]
    | some st => simp only [hrest]

/-- The state that uses up ONCE differs in the warps alone, and not for the check. -/
theorem useOnce_withWarps {s : State} (hp : s.path?.isSome = true) : ∃ ws, s.modW Warp.useOnce = s.withWarps ws
    ∧ SameRacer ((s.warps.find s.cur.1).getD {}) ((ws.find s.cur.1).getD {}) := by
  refine ⟨(s.modW Warp.useOnce).warps, ?_, ?_⟩
  · have hrest := State.modW_rest s Warp.useOnce
    rw [State.modW_pu] at hrest
    exact hrest
  · have hcw := State.cw_modW s Warp.useOnce hp
    rw [State.cw, State.modW_cur, State.cw] at hcw
    rw [hcw]
    exact ⟨rfl, rfl, rfl, rfl, rfl⟩

theorem raceOk_useOnce {s : State} (off canvas : Bool) (a n : Nat) (hp : s.path?.isSome = true) :
    ((s.modW Warp.useOnce).raceOk s.cur.1 off canvas a n).1 = (s.raceOk s.cur.1 off canvas a n).1 := by
  obtain ⟨ws, heq, hw⟩ := useOnce_withWarps hp
  rw [heq, raceOk_withWarps off canvas a n hw]

theorem raceLanes_useOnce {s : State} (off canvas : Bool) (n : Nat) (xs : List LaneAcc) (hp : s.path?.isSome = true) :
    ((s.modW Warp.useOnce).raceLanes off canvas n xs).2 = (s.raceLanes off canvas n xs).2 := by
  obtain ⟨ws, heq, hw⟩ := useOnce_withWarps hp
  rw [heq, raceLanes_withWarps off canvas n xs hw]

theorem raceLanes_spendOnce {s : State} (some_ off canvas : Bool) (n : Nat) (xs : List LaneAcc) (hp : s.path?.isSome = true) :
    ((s.spendOnce some_).raceLanes off canvas n xs).2 = (s.raceLanes off canvas n xs).2 := by
  unfold State.spendOnce
  split
  · rfl
  · exact raceLanes_useOnce off canvas n xs hp

/-- Where no lane fails the check, every lane passes and no stamp is met. -/
theorem raceLanes_allPass {off canvas : Bool} {n : Nat} : ∀ {xs : List LaneAcc} {s : State},
    (s.raceLanes off canvas n xs).2.2.1 = [] → (s.raceLanes off canvas n xs).2 = (xs, [], none)
  | [], _, _ => rfl
  | x :: xs, s, h => by
    rw [State.raceLanes] at h ⊢
    rcases hx : s.raceOk s.cur.1 off canvas x.pa n with ⟨st, u⟩
    rw [hx] at h
    cases st with
    | none =>
      have hrest := raceLanes_allPass (xs := xs) (s := u) h
      simp only [hrest]
    | some st => exact absurd h (List.cons_ne_nil _ _)

/-- Drawer bytes carry no stamp: the check is skipped (R132). -/
theorem raceOk_drawer {s : State} {wid a : Nat} (off : Bool) (n : Nat) (h : isDrawer a = true) :
    s.raceOk wid off false a n = (none, s) := by
  have hnear : isNear a = false := by
    rw [isDrawer, decide_eq_true_eq, drawerBase, drawerEnd] at h
    rw [isNear, decide_eq_false_iff_not, nearEnd]
    omega
  simp [State.raceOk, stamped, hnear]

theorem raceLanes_drawer {s : State} (off : Bool) (n : Nat) : ∀ {xs : List LaneAcc}, (∀ x ∈ xs, isDrawer x.pa = true) →
    s.raceLanes off false n xs = (s, xs, [], none)
  | [], _ => rfl
  | x :: xs, h => by
    obtain ⟨hx, hxs⟩ := List.forall_mem_cons.mp h
    rw [State.raceLanes, raceOk_drawer off n hx]
    simp only [raceLanes_drawer off n hxs]

end Sys2Proof.Machine

namespace Sys2Proof.Machine

/-! ### Bytes as numbers (R30) -/

theorem readNat_eq_numAt (m : Cells 8) (a : Nat) : ∀ n, m.readNat a n = numAt m.get a n
  | 0 => rfl
  | n + 1 => by
    have ih := readNat_eq_numAt m a n
    unfold Cells.readNat Cells.readN at ih ⊢
    rw [List.range_succ, List.map_append, ofBytes_append, ih, numAt, numAt, List.range_succ, List.map_append, List.sum_append]
    simp [ofBytes, Nat.mul_comm]

theorem numAt_lt (b : Nat → Byte) (a : Nat) : ∀ n, numAt b a n < 256 ^ n
  | 0 => by simp [numAt]
  | n + 1 => by
    have ih := numAt_lt b a n
    unfold numAt at ih ⊢
    have hb := (b (a + n)).isLt
    rw [List.range_succ, List.map_append, List.sum_append, List.map_singleton, List.sum_singleton, pow_succ]
    have hmul : (b (a + n)).toNat * 256 ^ n ≤ 255 * 256 ^ n := Nat.mul_le_mul_right _ (by omega)
    omega

theorem numAt_congr {b c : Nat → Byte} {a n : Nat} (h : ∀ i, i < n → b (a + i) = c (a + i)) : numAt b a n = numAt c a n := by
  unfold numAt
  congr 1
  exact List.map_congr_left (fun i hi => by rw [h i (List.mem_range.mp hi)])

/-- What a store leaves is read back. -/
theorem numAt_storedAt (b : Nat → Byte) (a n x : Nat) : numAt (storedAt b a n x) a n = x % 256 ^ n := by
  refine numAt_of_bytes (fun i hi => ?_)
  rw [storedAt, if_pos ⟨by omega, by omega⟩, Nat.add_sub_cancel_left]

theorem storedAt_apart {b : Nat → Byte} {a n x k : Nat} (h : ¬(a ≤ k ∧ k < a + n)) : storedAt b a n x k = b k := if_neg h

/-! ### Translated places (R11, R18) -/

theorem translate_ok_mod {s t : State} {a : Agent} {va : Nat} {want : Want} {h : Hit} (ht : translate s a va want = (t, .ok h)) :
    h.pa % 65536 = va % 65536 := by
  have hleaf : ∀ big e, (leafHit big e va).pa % 65536 = va % 65536 := by
    intro big e
    unfold leafHit pteBase
    dsimp only
    split
    · omega
    · omega
  have hext : ∀ x, extHolds x va = true → (extHit x va).pa % 65536 = va % 65536 := by
    intro x hx
    have hbase : extBase x ≤ va := (of_decide_eq_true ((Bool.and_eq_true _ _ ▸ hx : extV x = true ∧ _).2)).1
    unfold extBase at hbase
    unfold extHit extBase
    dsimp only
    omega
  unfold translate at ht
  split at ht
  · simp at ht
  split at ht
  · next x hx =>
    split at ht
    · simp at ht
    · simp only [Prod.mk.injEq, Except.ok.injEq] at ht
      rw [← ht.2]
      exact hext x (by simpa using List.find?_some hx)
  · dsimp only at ht
    split at ht
    · split at ht
      · simp at ht
      · simp only [Prod.mk.injEq, Except.ok.injEq] at ht
        rw [← ht.2]
        exact hleaf _ _
    · split at ht
      · simp at ht
      · simp at ht
      · split at ht
        · simp at ht
        · simp only [Prod.mk.injEq, Except.ok.injEq] at ht
          rw [← ht.2]
          exact hleaf _ _

end Sys2Proof.Machine

namespace Sys2Proof.Machine

/-! ### An accepted access (R45, R82) -/

/-- What an accepted access leaves before its results: the path has no access left, and an acquire has recorded (R134). -/
def State.ended (s : State) (a : Access) : State :=
  let u := s.modP (fun p => { p with access := none })
  (atomicOrder a.i).elim u (fun x => if a.stamps.isEmpty then u else u.afterAtomic x.1 x.2 a.stamps)

theorem records_ended {s : State} (a : Access) (hp : s.path?.isSome = true) : Records s (s.ended a) := by
  have hnone : Records s (s.modP (fun p => { p with access := none })) := records_modP hp rfl (.inr rfl)
  unfold State.ended
  cases atomicOrder a.i with
  | none => exact hnone
  | some x =>
    dsimp only [Option.elim]
    split
    · exact hnone
    · exact hnone.trans (records_afterAtomic _ _ _ hnone.passes.path)

theorem keepAccess_accepted {s : State} {a : Access} (hkill : a.kill = false) (hout : a.outside = []) :
    s.keepAccess a = ((s.ended a).result a.lane a.k a.dests a.writes a.waits a.race).advanceIn a.lane := by
  unfold State.keepAccess State.endAccess State.ended
  rw [hkill, hout, if_neg Bool.false_ne_true, List.isEmpty_nil, if_pos rfl]
  cases atomicOrder a.i <;> rfl

/-- A result that nothing delays is written. -/
theorem State.result_now (s : State) (lane : Bool) (dests : List Dest) (writes : List RegWrite) :
    s.result lane 0 dests writes [] none = s.modW (fun w => w.applyAll s.cur.2 writes) := rfl

/-- A result under lookahead, or that something on its way holds back, opens a window. -/
theorem State.result_later {s : State} {lane : Bool} {k : Nat} {dests : List Dest} {writes : List RegWrite} {waits : List (Nat × Nat × Mask)}
    (h : k ≠ 0 ∨ waits ≠ []) : s.result lane k dests writes waits none = s.modP (fun p => { p with windows :=
      p.windows ++ [{ lane := lane, left := k + 1, dests := dests, writes := writes, waits := waits }] }) := by
  unfold State.result
  rw [if_neg]
  rcases h with h | h <;> simp [h]

/-! ### Scalar results -/

/-- Results that a scalar access may have: none, a scalar or an address register. -/
theorem State.applyAll_scalar {s : State} {ws : List RegWrite} (hp : s.path?.isSome = true)
    (hws : ws = [] ∨ (∃ n x, ws = [.s n x]) ∨ ∃ n x, ws = [.a n x]) :
    Kept s (s.modW (fun w => w.applyAll s.cur.2 ws)) ∧ (s.modW (fun w => w.applyAll s.cur.2 ws)).path?.isSome = true
      ∧ (s.modW (fun w => w.applyAll s.cur.2 ws)).cw.v = s.cw.v := by
  rcases hws with rfl | ⟨n, x, rfl⟩ | ⟨n, x, rfl⟩
  · have h := Passes.of_modW_slots (f := fun w => w) hp rfl
    exact ⟨h.kept, h.path, h.lanes⟩
  · by_cases hn : n < 32
    · have heq : (fun w : Warp => w.applyAll s.cur.2 [.s n x]) = fun w => { w with s := w.s.set n x } := by
        funext w
        exact if_pos hn
      have h := Kept.of_modW (f := fun w => { w with s := w.s.set n x }) (g := id) hp (fun k => Option.map_id'.symm) rfl rfl rfl
      rw [heq]
      exact ⟨h.1, h.2.1, by rw [State.cw_modW _ _ hp]⟩
    · have heq : s.modW (fun w => w.applyAll s.cur.2 [.s n x]) = s.modP (fun p => { p with s := p.s.set n x }) := by
        unfold State.modP State.modPathAt State.modW
        congr 1
        funext w
        exact if_neg hn
      rw [heq]
      exact ⟨Kept.of_modP hp rfl (.inl rfl), State.path?_modP_isSome _ hp, by rw [State.cw_modP _ _ hp]⟩
  · have h := Kept.of_modW (f := fun w => { w with a := w.a.set n x }) (g := id) hp (fun k => Option.map_id'.symm) rfl rfl rfl
    exact ⟨h.1, h.2.1, by rw [State.cw_modW _ _ hp]; rfl⟩

/-- A scalar access whose result nothing delays completes with that result as its effect. -/
theorem scalarAccess_visible {i : Instr} {s u : State} {a : Access} (he : exec i s = .next (u.keepAccess a)) (hr : warpReady i s)
    (hu : Passes s u) (hkill : a.kill = false) (hout : a.outside = []) (hlane : a.lane = false) (hk : a.k = 0) (hwaits : a.waits = [])
    (hrace : a.race = none) (hws : a.writes = [] ∨ (∃ n x, a.writes = [.s n x]) ∨ ∃ n x, a.writes = [.a n x]) :
    ∃ v, Records u v ∧ Effect i s (v.modW (fun w => w.applyAll v.cur.2 a.writes)) (s.cp.pc + 4)
      ∧ Kept s (v.modW (fun w => w.applyAll v.cur.2 a.writes)) ∧ (v.modW (fun w => w.applyAll v.cur.2 a.writes)).cw.v = s.cw.v := by
  have hend := records_ended a hu.path
  have hv := hu.trans hend.passes
  obtain ⟨hkept, hp, hlanes⟩ := State.applyAll_scalar (ws := a.writes) hend.passes.path hws
  have hall := hv.kept.trans hkept
  refine ⟨u.ended a, hend, Effect.of_advance ?_ hp ?_ ?_, hall, hlanes.trans hv.lanes⟩
  · rw [he, keepAccess_accepted hkill hout, hlane, hk, hwaits, hrace, State.result_now]
    rfl
  · rw [hall.path]
    exact State.quiet_windows hr.1
  · rw [hall.path]

theorem Window.complete_of {lane : Bool} {k : Nat} {dests : List Dest} {writes : List RegWrite} {waits : List (Nat × Nat × Mask)} :
    ({ lane := lane, left := k, dests := dests, writes := writes, waits := waits } : Window).complete = waits.isEmpty := by
  simp [Window.complete]

/-- A scalar access with lookahead, or that waits for what it asked, has issued: its result waits in its window. -/
theorem scalarAccess_opens {i : Instr} {s u : State} {a : Access} (he : exec i s = .next (u.keepAccess a)) (hr : warpReady i s)
    (hst : s.cp.stepping = 0) (hu : Passes s u) (hkill : a.kill = false) (hout : a.outside = []) (hlane : a.lane = false)
    (hrace : a.race = none) (hlater : a.k ≠ 0 ∨ a.waits ≠ []) :
    ∃ t w, exec i s = .next t ∧ ScalarWaits s t w a.k a.waits.isEmpty ∧ w.writes = a.writes ∧ t.mem = u.mem := by
  have hend := records_ended a hu.path
  have hv := hu.trans hend.passes
  set v := u.ended a with hvdef
  set d : Window := { lane := false, left := a.k + 1, dests := a.dests, writes := a.writes, waits := a.waits } with hd
  set x := v.modP (fun p => { p with windows := p.windows ++ [d] }) with hx
  have hvp := hv.path
  have hxcp : x.cp = { v.cp with windows := [d] } := by
    rw [hx, State.cp_modP _ _ hvp, hv.windows, State.quiet_windows hr.1, List.nil_append]
  have hopen : a.k ≠ 0 ∨ d.complete = false := hlater.imp id (fun h => by
    rw [hd, Window.complete_of, List.isEmpty_eq_false_iff]; exact h)
  obtain ⟨hpc, hwin, hvv, hscal, hmem⟩ := State.goto_open (s := x) (x.cp.pc + 4) (State.path?_modP_isSome _ hvp)
    (by rw [hxcp]; exact hv.stepping.trans hst) (by rw [hxcp]) rfl rfl hopen
  refine ⟨x.goto (x.cp.pc + 4), { d with left := a.k }, ?_, ⟨?_, hwin, rfl, rfl, Window.complete_of, ?_, ?_⟩, rfl, ?_⟩
  · rw [he, keepAccess_accepted hkill hout, hlane, hrace, State.result_later hlater]
    rfl
  · rw [hpc, hxcp]
    exact congrArg (· + 4) hv.pc
  · exact hv.sameScalars.trans ((SameScalars.modP v _ hvp rfl rfl).trans hscal)
  · rw [hvv, hx, State.cw_modP _ _ hvp]
    exact hv.lanes
  · rw [hmem, hx, State.modP_mem, hend.mem]

end Sys2Proof.Machine

namespace Sys2Proof.Machine

/-! ### An address that passes (R15, R22) -/

theorem Reaches.beside {s s1 : State} {ea : Int} {n pa : Nat} {want : Want} {rd wr : Bool} (h : Reaches s ea n want rd wr s1 pa) :
    BesideWarps s s1 := by
  obtain ⟨hit, ht, -⟩ := h.tests
  have hheld := (translate_heldOnly s s.agent (BitVec.ofInt 72 ea).toNat want).besideWarps
  rwa [ht] at hheld

/-- A place is aligned as its address is. -/
theorem Reaches.aligned {s s1 : State} {ea : Int} {n pa : Nat} {want : Want} {rd wr : Bool} (h : Reaches s ea n want rd wr s1 pa)
    (hn : n ∣ 65536) : pa % n = 0 := by
  obtain ⟨hit, ht, rfl⟩ := h.tests
  have hmod := translate_ok_mod ht
  have hearly := h.early
  rw [earlyFault_eq] at hearly
  have hrange := earlyCause_none_range hearly
  rw [toNat_ofInt_of_range hrange] at hmod
  have hea : ea % n = 0 := by
    unfold earlyCause at hearly
    split at hearly
    · simp at hearly
    split at hearly
    · simp at hearly
    · next hmod => exact not_not.mp hmod
  have hnat : ea.toNat % n = 0 := by
    obtain ⟨m, rfl⟩ := Int.eq_ofNat_of_zero_le hrange.1
    exact_mod_cast hea
  rw [← Nat.mod_mod_of_dvd _ hn, hmod, Nat.mod_mod_of_dvd _ hn, hnat]

theorem atScalar_of_reaches {s s1 : State} {ea : Int} {n pa : Nat} {want : Want} {rd wr : Bool} (h : Reaches s ea n want rd wr s1 pa)
    (hpu : s.inPu = false) (body : State → VAddr → Nat → State) :
    s.atScalar ea n want rd wr body = body s1 (BitVec.ofInt 72 ea) pa := by
  obtain ⟨hit, ht, rfl⟩ := h.tests
  have hpu1 : s1.inPu = false := by rw [State.inPu, h.beside.cur]; exact hpu
  unfold State.atScalar
  simp only [h.early, ht, hpu1, h.watch, Bool.false_eq_true, if_false]

/-! ### One scalar access (R81, R145) -/

/-- The scalar forms that access memory. -/
def scalarMem : Instr → Prop
  | .sld .. | .slda .. | .sst .. | .ssta .. | .samo .. => True
  | _ => False

theorem accessReqs_near {s : State} {i : Instr} {xs : List HeldLane} (h : ∀ x ∈ xs, isDrawer x.pa = false) : s.accessReqs i xs = [] := by
  have hfilter : xs.filter (fun x => isDrawer x.pa) = [] := List.filter_eq_nil_iff.mpr (fun x hx => by simp [h x hx])
  have hmiss : ∀ core, s.misses core xs = [] := by
    intro core
    rw [State.misses, List.map_eq_nil_iff, List.filter_eq_nil_iff]
    exact fun x hx => by simp [h x hx]
  have hload : ∀ cls core, loadReqs cls core (s.misses core xs) = [] := fun cls core => by rw [hmiss]; rfl
  have hstore : ∀ cls, storeReqs cls xs = [] := fun cls => by rw [storeReqs, hfilter]; rfl
  have hatomic : ∀ cls cmd, atomicReqs cls cmd xs = [] := fun cls cmd => by rw [atomicReqs, hfilter]; rfl
  unfold State.accessReqs
  dsimp only
  split <;> simp only [hload, hstore, hatomic]

theorem linkOf_congr {x y : Nat} (h : x / 4096 = y / 4096) : linkOf x = linkOf y := by
  have hbits : ∀ hi k, natBits x hi (12 + k) = natBits y hi (12 + k) := by
    intro hi k
    unfold natBits
    rw [Nat.shiftRight_add, Nat.shiftRight_add, Nat.shiftRight_eq_div_pow x 12, Nat.shiftRight_eq_div_pow y 12]
    exact congrArg (fun z => z >>> k % _) h
  unfold linkOf
  rw [hbits 16 0, hbits 21 5, hbits 26 10, hbits 31 15, hbits 36 20, hbits 41 25, hbits 43 30]

theorem linkOf_block {k : Nat} (pa : Nat) (hk : k ∣ 4096) : linkOf (pa / k * k) = linkOf pa := by
  obtain ⟨j, hj⟩ := hk
  refine linkOf_congr ?_
  have hpos : 0 < k := Nat.pos_of_ne_zero (by rintro rfl; simp at hj)
  rw [hj, ← Nat.div_div_eq_div_mul, ← Nat.div_div_eq_div_mul, Nat.mul_div_cancel _ hpos]

theorem maskOf_singleton (l : Nat) (hl : l < 128) : bitB (maskOf [l]) l = true := by
  rw [bitB_maskOf _ _ hl]
  simp

/-- A scalar access to the drawer asks for one thing. -/
theorem accessReqs_scalar {s : State} {i : Instr} {y : HeldLane} (hi : scalarMem i) (hy : y.lane = 0) (hd : isDrawer y.pa = true)
    (hmiss : s.l1Line (coreOf s.cur.1) y.pa = none ∨ isStore i = true ∨ (∃ x, atomicOrder i = some x)) (hpu : s.inPu = false) :
    ∃ r m, s.accessReqs i [y] = [(r, m)] ∧ bitB m y.lane = true ∧ r.eff = .none ∧ linkOf r.addr = linkOf y.pa := by
  have hlane : bitB (maskOf [y.lane]) y.lane = true := maskOf_singleton _ (by omega)
  have hfilter : [y].filter (fun x => isDrawer x.pa) = [y] := by simp [hd]
  have hload : s.l1Line (coreOf s.cur.1) y.pa = none → ∃ r m, loadReqs s.scalarClass (some (coreOf s.cur.1))
      (s.misses (some (coreOf s.cur.1)) [y]) = [(r, m)] ∧ bitB m y.lane = true ∧ r.eff = .none ∧ linkOf r.addr = linkOf y.pa := by
    intro hnone
    have hm : s.misses (some (coreOf s.cur.1)) [y] = [(y.lane, y.pa)] := by simp [State.misses, hd, hnone]
    rw [hm]
    refine ⟨_, _, rfl, by simpa using hlane, rfl, ?_⟩
    show linkOf (y.pa / 256 * 256 / 256 * 256) = _
    rw [linkOf_block _ (by decide), linkOf_block _ (by decide)]
  have hstore : ∃ r m, storeReqs s.scalarClass [y] = [(r, m)] ∧ bitB m y.lane = true ∧ r.eff = .none ∧ linkOf r.addr = linkOf y.pa := by
    unfold storeReqs
    rw [hfilter]
    exact ⟨_, _, rfl, by simpa using hlane, rfl, linkOf_block _ (by decide)⟩
  have hatomic : ∀ cmd, ∃ r m, atomicReqs s.scalarClass cmd [y] = [(r, m)] ∧ bitB m y.lane = true ∧ r.eff = .none
      ∧ linkOf r.addr = linkOf y.pa := by
    intro cmd
    unfold atomicReqs
    rw [hfilter]
    refine ⟨{ id := 0, kind := 3, addr := y.pa, cls := s.scalarClass, amo := some (cmd y) }, 1#128 <<< y.lane, by simp [blocksOf], ?_, rfl, rfl⟩
    simpa [maskOf] using hlane
  cases i with
  | sld d r z l o => simpa [State.accessReqs, hpu] using hload (by simpa [isStore, atomicOrder] using hmiss)
  | slda d r z l o => simpa [State.accessReqs, hpu] using hload (by simpa [isStore, atomicOrder] using hmiss)
  | sst d r z l o => exact hstore
  | ssta d r l o => exact hstore
  | samo d a b o r sc => exact hatomic (samoCmd o.toNat)
  | _ => exact hi.elim

theorem records_beginAccess {s : State} (lane : Bool) (k : Nat) (dests : List Dest) (i : Instr) (xs : List HeldLane)
    (hp : s.path?.isSome = true) : Records s (s.beginAccess lane k dests i xs).1 := by
  unfold State.beginAccess
  dsimp only
  split
  · split
    · exact Records.refl hp
    · exact records_beforeAtomic _ hp
  · split
    · exact records_spendOnce _ hp
    split
    · exact Records.refl hp
    · exact records_useOnce hp

/-- The access as it begins, with nothing performed. -/
theorem beginAccess_access (s : State) (lane : Bool) (k : Nat) (dests : List Dest) (i : Instr) (xs : List HeldLane) :
    ∃ rel, (s.beginAccess lane k dests i xs).2 = { i := i, lane := lane, k := k, dests := dests, xs := xs
                                                   off := if lane then s.laneOff else s.scalarOff, rel := rel } := by
  unfold State.beginAccess
  dsimp only
  split
  · exact ⟨_, rfl⟩
  · exact ⟨_, rfl⟩

theorem beginAccess_cores (s : State) (lane : Bool) (k : Nat) (dests : List Dest) (i : Instr) (xs : List HeldLane) :
    (s.beginAccess lane k dests i xs).1.cores = s.cores := by
  unfold State.beginAccess State.beforeAtomic State.spendOnce State.releaseW
  dsimp only
  repeat' split
  all_goals simp

theorem act_nothing {s : State} {a : Access} (hi : scalarMem a.i) : s.act a [] = (s, a) := by
  have hxs : a.xs.filter (fun x => !(([] : List HeldLane).contains x)) = a.xs := by simp
  unfold State.act
  rw [hxs]
  cases a with
  | mk i =>
    cases i with
    | sld => rfl
    | slda => rfl
    | sst => rfl
    | ssta => rfl
    | samo => rfl
    | _ => exact hi.elim

theorem LinksStand.takes {s u : State} (h : LinksStand s u) (n : Nat) : (u.link n).takes = (s.link n).takes := by
  obtain ⟨-, hwait, hlen⟩ := h n
  rw [Link.takes, Link.takes, hwait, hlen]

theorem offer_takes {s : State} {a : Access} {r : Req} {m : Mask} (hkill : a.kill = false)
    (htakes : (s.link (linkOf r.addr)).takes = true) : s.offer a r m = (s.name r).1.enterPart a { r with id := s.names } m := by
  unfold State.offer
  simp only [hkill, htakes, Bool.false_eq_true, if_false, if_true]
  rfl

/-- Performing lanes does not change what the access is of. -/
theorem act_i (s : State) (a : Access) (ys : List HeldLane) : (s.act a ys).2.i = a.i := by
  unfold State.act State.actLoad State.actStore State.actAmo State.actScalarLoad State.actScalarStore State.actSamo
  dsimp only
  repeat' split
  all_goals rfl

theorem enterPart_alive {s : State} {a : Access} {r : Req} {m : Mask}
    (hkill : (s.act a (a.xs.filter (fun x => bitB m x.lane))).2.kill = false) : s.enterPart a r m
      = ((s.act a (a.xs.filter (fun x => bitB m x.lane))).1.enter r, { (s.act a (a.xs.filter (fun x => bitB m x.lane))).2 with
          outside := (s.act a (a.xs.filter (fun x => bitB m x.lane))).2.outside.filter (· ≠ r.id)
          waits := if isStore a.i
            then (s.act a (a.xs.filter (fun x => bitB m x.lane))).2.waits
            else (s.act a (a.xs.filter (fun x => bitB m x.lane))).2.waits ++ [(linkOf r.addr, r.id, m)] }) := by
  have hi : (s.act a (a.xs.filter (fun x => bitB m x.lane))).2.i = a.i := act_i _ _ _
  unfold State.enterPart
  simp only [hkill, Bool.false_eq_true, if_false, hi]

/-- A scalar access is performed in one go, as it begins or as its request enters; for what it asked for it then waits. -/
theorem take_scalar {s : State} {i : Instr} {k : Nat} {dests : List Dest} {y : HeldLane} (hi : scalarMem i) (hp : s.path?.isSome = true)
    (hpu : s.inPu = false) (hy : y.lane = 0)
    (hplace : isDrawer y.pa = false ∨ (isDrawer y.pa = true ∧ (s.link (linkOf y.pa)).takes = true
      ∧ (s.l1Line (coreOf s.cur.1) y.pa = none ∨ isStore i = true ∨ ∃ x, atomicOrder i = some x))) :
    ∃ u, Passes s u ∧ u.mem = s.mem ∧ u.cores = s.cores ∧ (isDrawer y.pa = false → u = (s.beginAccess false k dests i [y]).1)
      ∧ ∀ z, u.act (s.beginAccess false k dests i [y]).2 [y] = z → z.2.kill = false → z.2.outside = [] → z.2.waits = [] →
        ∃ t a, s.take false k dests i [y] = t.keepAccess a ∧ BesideWarps z.1 t ∧ t.mem = z.1.mem ∧ a = { z.2 with waits := a.waits }
          ∧ a.waits.isEmpty = (!isDrawer y.pa || isStore i) := by
  have hbegin := records_beginAccess false k dests i [y] hp
  have hcores := beginAccess_cores s false k dests i [y]
  obtain ⟨rel, hacc⟩ := beginAccess_access s false k dests i [y]
  cases hd : isDrawer y.pa with
  | false =>
    refine ⟨(s.beginAccess false k dests i [y]).1, hbegin.passes, hbegin.mem, hcores, fun _ => rfl, fun z hz _ _ hwaits => ?_⟩
    refine ⟨z.1, z.2, ?_, BesideWarps.refl _, rfl, rfl, by rw [hwaits]; rfl⟩
    have hreqs : s.accessReqs i [y] = [] := accessReqs_near (by simpa using hd)
    have hnone : [y].filter (fun x => !bitB (0 : Mask) x.lane) = [y] := by simp [bitB]
    unfold State.take
    simp only [hreqs, List.foldl_nil, hnone, hz]
  | true =>
    obtain ⟨htakes, hmiss⟩ := (hplace.resolve_left (by simp [hd])).2
    obtain ⟨r, m, hreqs, hm, heff, hlink⟩ := accessReqs_scalar hi hy hd hmiss hpu
    set b := s.beginAccess false k dests i [y] with hb
    have hnamed : Passes b.1 (b.1.name r).1 := (besideWarps_name b.1 r).passes hbegin.passes.path
    refine ⟨(b.1.name r).1, hbegin.passes.trans hnamed, hbegin.mem, hcores, (fun h => nomatch h), fun z hz hkill hout hwaits => ?_⟩
    have hentered := besideWarps_enter (s := z.1) (r := { r with id := b.1.names }) heff
    refine ⟨z.1.enter { r with id := b.1.names }, { z.2 with
      waits := if isStore i then [] else [(linkOf r.addr, b.1.names, m)] }, ?_, hentered, ?_, rfl, ?_⟩
    · have hnone : [y].filter (fun x => !bitB ((0 : Mask) ||| m) x.lane) = [] := by
        simpa [bitB] using hm
      have hsome : b.2.xs.filter (fun x => bitB m x.lane) = [y] := by rw [hacc]; simp [hm]
      have htakes' : (b.1.link (linkOf r.addr)).takes = true := by rw [hlink, hbegin.links.takes, htakes]
      have hact : b.1.act b.2 [] = b := act_nothing (by rw [hacc]; exact hi)
      have hbkill : b.2.kill = false := by rw [hacc]
      have hbi : b.2.i = i := by rw [hacc]
      unfold State.take
      simp only [hreqs, List.foldl_cons, List.foldl_nil, hnone, ← hb, hact]
      rw [offer_takes hbkill htakes', enterPart_alive (by rw [hsome, hz]; exact hkill), hsome, hz, hbi]
      simp only [hout, hwaits, List.filter_nil, List.nil_append]
    · have heffect : z.1.effect { r with id := b.1.names } = z.1 := by rw [State.effect, heff]
      rw [State.enter, heffect]
      rfl
    · cases isStore i <;> rfl

end Sys2Proof.Machine

namespace Sys2Proof.Machine

/-! ### Scalar loads: O19 -/

theorem State.byte_congr {s u : State} (h : u.mem.bytes = s.mem.bytes) : u.byte = s.byte := by
  funext a
  rw [State.byte, State.byte, h]

theorem readPa_memory {s : State} {core pa : Nat} (n : Nat) (h : isDrawer pa = false ∨ s.l1Line core pa = none) :
    s.readPa (some core) pa n = numAt s.byte pa n := by
  unfold State.readPa
  dsimp only
  rw [readNat_eq_numAt]
  rcases h with h | h
  · simp only [h, Bool.false_eq_true, if_false]; rfl
  · simp only [h, ite_self]; rfl

theorem readBad_memory {s : State} {core pa : Nat} (n : Nat) (h : isDrawer pa = false ∨ s.l1Line core pa = none) :
    s.readBad (some core) pa n = poisoned s.mem.poison pa n := by
  unfold State.readBad
  rcases h with h | h
  · simp [h]
  · simp [h]

theorem actScalarLoad_passes {s : State} {a : Access} {n ty dest : Nat} {y : HeldLane} {wr : Nat → RegWrite} (hpu : s.inPu = false)
    (hmem : isDrawer y.pa = false ∨ s.l1Line (coreOf s.cur.1) y.pa = none) (hpoison : poisoned s.mem.poison y.pa n = false)
    (hrace : (s.raceOk s.cur.1 a.off false y.pa n).1 = none) :
    s.actScalarLoad a n ty dest y wr
      = ((s.raceOk s.cur.1 a.off false y.pa n).2, { a with writes := [wr (numAt s.byte y.pa n)] }) := by
  have hstamps := stampsOnly_raceOk s s.cur.1 a.off false y.pa n
  have hread : (s.raceOk s.cur.1 a.off false y.pa n).2.readPa (some (coreOf s.cur.1)) y.pa n = numAt s.byte y.pa n := by
    rw [readPa_memory n, State.byte_congr (s := s) (by rw [hstamps.mem])]
    refine hmem.imp id (fun h => ?_)
    rwa [State.l1Line, State.core, hstamps.cores]
  unfold State.actScalarLoad
  simp only [hpu, Bool.false_eq_true, if_false, readBad_memory n hmem, hpoison, Bool.false_and, hrace, hread]

/-- An access as it stands accepted: what it left on the way, and what its window holds. -/
structure Accepted (s t : State) (a : Access) (k : Nat) (ws : List RegWrite) (done : Bool) : Prop where
  passes : Passes s t
  kill : a.kill = false
  outside : a.outside = []
  scalar : a.lane = false
  lookahead : a.k = k
  race : a.race = none
  writes : a.writes = ws
  waits : a.waits.isEmpty = done

/-- Where a scalar access finds its bytes: memory, or the drawer with a place in its queue. -/
def Served (s : State) (pa : Nat) : Prop :=
  isDrawer pa = false ∨ (isDrawer pa = true ∧ s.l1Line (coreOf s.cur.1) pa = none ∧ (s.link (linkOf pa)).takes = true)

theorem take_scalarLoad {s : State} {i : Instr} {k n ty dest : Nat} {dests : List Dest} {va : VAddr} {pa : Nat} {wr : Nat → RegWrite}
    (hp : s.path?.isSome = true) (hpu : s.inPu = false) (hi : scalarMem i) (hstore : isStore i = false) (hplain : atomicOrder i = none)
    (hact : ∀ (u : State) (a : Access) (y : HeldLane), a.i = i → u.act a [y]
      = u.actScalarLoad { a with xs := a.xs.filter (fun x => !([y] : List HeldLane).contains x) } n ty dest y wr)
    (hserved : Served s pa) (hpoison : poisoned s.mem.poison pa n = false)
    (hrace : isDrawer pa = false → (s.raceOk s.cur.1 s.scalarOff false pa n).1 = none) :
    ∃ t a, s.scalarMemory i k dests va pa [] = t.keepAccess a ∧ Accepted s t a k [wr (numAt s.byte pa n)] (!isDrawer pa)
      ∧ t.mem.bytes = s.mem.bytes := by
  set y : HeldLane := { lane := 0, ea := va, pa := pa, data := [] } with hy
  obtain ⟨u, hu, hmem, hcores, hnear, hdone⟩ := take_scalar (k := k) (dests := dests) (y := y) hi hp hpu rfl
    (hserved.imp id (fun ⟨hd, hline, htakes⟩ => ⟨hd, htakes, .inl hline⟩))
  obtain ⟨rel, hacc⟩ := beginAccess_access s false k dests i [y]
  have hrace' : (u.raceOk u.cur.1 s.scalarOff false pa n).1 = none := by
    cases hd : isDrawer pa with
    | false =>
      have hbegin : (s.beginAccess false k dests i [y]).1 = s.modW Warp.useOnce := by
        unfold State.beginAccess
        simp only [hplain, hpu, Bool.false_eq_true, if_false]
      rw [hu.cur, hnear hd, hbegin, raceOk_useOnce _ _ _ _ hp]
      exact hrace hd
    | true => rw [raceOk_drawer _ _ hd]
  have hline : isDrawer pa = false ∨ u.l1Line (coreOf u.cur.1) pa = none := by
    refine hserved.imp id (fun ⟨_, h, _⟩ => ?_)
    rwa [State.l1Line, State.core, hcores, hu.cur]
  rw [hacc] at hdone
  obtain ⟨t, a, htake, hbeside, htmem, ha, hwaits⟩ := hdone _ ((hact u _ y rfl).trans
    (actScalarLoad_passes (hu.inPu.trans hpu) hline (by rw [hmem]; exact hpoison) hrace')) rfl rfl rfl
  have hstamps := stampsOnly_raceOk u u.cur.1 s.scalarOff false pa n
  refine ⟨t, a, htake, ⟨?_, ?_, ?_, ?_, ?_, ?_, ?_, ?_⟩, ?_⟩
  · have hraced := hu.trans (hstamps.besideWarps.passes hu.path)
    exact hraced.trans (hbeside.passes hraced.path)
  · rw [ha]
  · rw [ha]
  · rw [ha]
  · rw [ha]
  · rw [ha]
  · rw [ha, ← State.byte_congr (s := s) (u := u) (by rw [hmem])]
  · rw [hwaits, hstore, Bool.or_false]
  · have hbytes : (u.raceOk u.cur.1 s.scalarOff false pa n).2.mem.bytes = u.mem.bytes := by rw [hstamps.mem]
    rw [htmem, ← hmem]
    exact hbytes

/-! #### The values -/

theorem signedNat_eq_toInt {k : Nat} (x : Nat) (hk : 0 < k) : signedNat k x = (BitVec.ofNat k x).toInt := by
  have hpow : 2 ^ k = 2 * 2 ^ (k - 1) := by rw [← pow_succ']; congr 1; omega
  have hcast : ((2 : Int) ^ k) = ((2 ^ k : Nat) : Int) := by push_cast; rfl
  unfold signedNat
  rw [BitVec.toInt_eq_toNat_cond, BitVec.toNat_ofNat, hcast]
  dsimp only
  generalize 2 ^ k = p at hpow
  generalize 2 ^ (k - 1) = q at hpow
  generalize x % p = m
  split <;> split <;> omega

theorem ofNat_wrapN (x : Int) : BitVec.ofNat 64 (wrapN 64 x) = BitVec.ofInt 64 x := by
  apply BitVec.eq_of_toNat_eq
  unfold wrapN
  rw [BitVec.toNat_ofNat, BitVec.toNat_ofInt]
  omega

/-- A narrow value, extended to 64 bits by sign. -/
theorem ofNat_wrapN_signedNat {k : Nat} (x : Nat) (hk : 0 < k) :
    BitVec.ofNat 64 (wrapN 64 (signedNat k x)) = (BitVec.ofNat k x).signExtend 64 := by
  rw [ofNat_wrapN, signedNat_eq_toInt x hk]
  rfl

theorem scalarValue_eq_loadedValue {z : Nat} (b : Nat → Byte) (pa : Nat) :
    scalarValue z (numAt b pa (sizeBytes z)) = loadedValue z (numAt b pa (sizeBytes z)) := by
  have hlt := numAt_lt b pa (sizeBytes z)
  generalize numAt b pa (sizeBytes z) = x at hlt
  unfold scalarValue loadedValue
  split
  · next h => exact ofNat_wrapN_signedNat x (by decide)
  · next h => exact ofNat_wrapN_signedNat x (by decide)
  · next h => exact ofNat_wrapN_signedNat x (by decide)
  · split
    · rw [Nat.mod_eq_of_lt (by simpa [sizeBytes] using hlt)]
    · rw [Nat.mod_eq_of_lt (by simpa [sizeBytes] using hlt)]
    · rw [Nat.mod_eq_of_lt (by simpa [sizeBytes] using hlt)]
    · contradiction
    · contradiction
    · contradiction
    · rfl

/-! #### The forms -/

theorem exec_sld {d : BitVec 6} {r z l : BitVec 4} {i : BitVec 8} {s s1 : State} {pa : Nat} (hr : warpReady (.sld d r z l i) s)
    (h : Reaches s (((s.aReg r).toNat : Int) + i.toInt * sizeBytes z.toNat) (sizeBytes z.toNat) .read true false s1 pa) :
    ∃ va, exec (.sld d r z l i) s = .next (s1.scalarMemory (.sld d r z l i) l.toNat [.s d.toNat] va pa []) := by
  have he : exec (.sld d r z l i) s = .next (s.atScalar (s.scalarEa r (sizeBytes z.toNat) i) (sizeBytes z.toNat) .read true false
      (fun s va pa => s.scalarMemory (.sld d r z l i) l.toNat [.s d.toNat] va pa [])) := scalarForm_of_warpReady _ rfl hr
  exact ⟨_, he.trans (congrArg _ (atScalar_of_reaches h hr.2.2 _))⟩

theorem exec_slda {d r z l : BitVec 4} {i : BitVec 8} {s s1 : State} {pa : Nat} (hr : warpReady (.slda d r z l i) s)
    (h : Reaches s (((s.aReg r).toNat : Int) + i.toInt * sizeBytes z.toNat) (sizeBytes z.toNat) .read true false s1 pa) :
    ∃ va, exec (.slda d r z l i) s = .next (s1.scalarMemory (.slda d r z l i) l.toNat [.a d.toNat] va pa []) := by
  have he : exec (.slda d r z l i) s = .next (s.atScalar (s.scalarEa r (sizeBytes z.toNat) i) (sizeBytes z.toNat) .read true false
      (fun s va pa => s.scalarMemory (.slda d r z l i) l.toNat [.a d.toNat] va pa [])) := scalarForm_of_warpReady _ rfl hr
  exact ⟨_, he.trans (congrArg _ (atScalar_of_reaches h hr.2.2 _))⟩

/-- A scalar load passes on its way and leaves its access accepted, with the value it found. -/
theorem sld_accepted {d : BitVec 6} {r z l : BitVec 4} {i : BitVec 8} {s s1 : State} {pa : Nat} (hr : warpReady (.sld d r z l i) s)
    (h : Reaches s (((s.aReg r).toNat : Int) + i.toInt * sizeBytes z.toNat) (sizeBytes z.toNat) .read true false s1 pa)
    (hserved : Served s1 pa) (hpoison : poisoned s1.mem.poison pa (sizeBytes z.toNat) = false)
    (hrace : isDrawer pa = false → (s1.raceOk s.cur.1 s1.scalarOff false pa (sizeBytes z.toNat)).1 = none) :
    ∃ t a, exec (.sld d r z l i) s = .next (t.keepAccess a) ∧ t.mem.bytes = s1.mem.bytes
      ∧ Accepted s t a l.toNat [.s d.toNat (loadedValue z.toNat (numAt s1.byte pa (sizeBytes z.toNat)))] (!isDrawer pa) := by
  obtain ⟨va, he⟩ := exec_sld hr h
  have hs1 := h.beside.passes (scalarReady_path hr.2.1)
  obtain ⟨t, a, htake, hacc, hbytes⟩ := take_scalarLoad (i := .sld d r z l i) (k := l.toNat) (dests := [.s d.toNat]) (va := va)
    (ty := z.toNat) (dest := d.toNat) (wr := fun x => .s d.toNat (scalarValue z.toNat x)) hs1.path (hs1.inPu.trans hr.2.2) trivial rfl rfl
    (fun u a y ha => by unfold State.act; simp only [ha]) hserved hpoison (by rwa [hs1.cur])
  refine ⟨t, a, by rw [he, htake], hbytes, { hacc with passes := hs1.trans hacc.passes, writes := ?_ }⟩
  rw [hacc.writes, scalarValue_eq_loadedValue]

theorem slda_accepted {d r z l : BitVec 4} {i : BitVec 8} {s s1 : State} {pa : Nat} (hr : warpReady (.slda d r z l i) s)
    (h : Reaches s (((s.aReg r).toNat : Int) + i.toInt * sizeBytes z.toNat) (sizeBytes z.toNat) .read true false s1 pa)
    (hserved : Served s1 pa) (hpoison : poisoned s1.mem.poison pa (sizeBytes z.toNat) = false)
    (hrace : isDrawer pa = false → (s1.raceOk s.cur.1 s1.scalarOff false pa (sizeBytes z.toNat)).1 = none) :
    ∃ t a, exec (.slda d r z l i) s = .next (t.keepAccess a) ∧ t.mem.bytes = s1.mem.bytes
      ∧ Accepted s t a l.toNat [.a d.toNat (BitVec.ofNat 72 (numAt s1.byte pa (sizeBytes z.toNat)))] (!isDrawer pa) := by
  obtain ⟨va, he⟩ := exec_slda hr h
  have hs1 := h.beside.passes (scalarReady_path hr.2.1)
  obtain ⟨t, a, htake, hacc, hbytes⟩ := take_scalarLoad (i := .slda d r z l i) (k := l.toNat) (dests := [.a d.toNat]) (va := va)
    (ty := 16 + z.toNat) (dest := d.toNat) (wr := fun x => .a d.toNat (BitVec.ofNat 72 x)) hs1.path (hs1.inPu.trans hr.2.2) trivial rfl rfl
    (fun u a y ha => by unfold State.act; simp only [ha]) hserved hpoison (by rwa [hs1.cur])
  exact ⟨t, a, by rw [he, htake], hbytes, { hacc with passes := hs1.trans hacc.passes }⟩

/-- An accepted access with no lookahead and nothing on its way writes its results. -/
theorem Accepted.visible {i : Instr} {s t : State} {a : Access} {ws : List RegWrite} (hacc : Accepted s t a 0 ws true)
    (he : exec i s = .next (t.keepAccess a)) (hr : warpReady i s) (hws : ws = [] ∨ (∃ n x, ws = [.s n x]) ∨ ∃ n x, ws = [.a n x]) :
    ∃ v, Passes s v ∧ v.mem = t.mem ∧ Effect i s (v.modW (fun w => w.applyAll v.cur.2 ws)) (s.cp.pc + 4)
      ∧ Kept s (v.modW (fun w => w.applyAll v.cur.2 ws)) ∧ (v.modW (fun w => w.applyAll v.cur.2 ws)).cw.v = s.cw.v := by
  obtain ⟨v, hv, heffect, hkept, hlanes⟩ := scalarAccess_visible he hr hacc.passes hacc.kill hacc.outside hacc.scalar hacc.lookahead
    (List.isEmpty_iff.mp hacc.waits) hacc.race (by rw [hacc.writes]; exact hws)
  rw [hacc.writes] at heffect hkept hlanes
  exact ⟨v, hacc.passes.trans hv.passes, hv.mem, heffect, hkept, hlanes⟩

/-- An accepted access with lookahead, or with something on its way, opens its window. -/
theorem Accepted.opens {i : Instr} {s t : State} {a : Access} {k : Nat} {ws : List RegWrite} {done : Bool} (hacc : Accepted s t a k ws done)
    (he : exec i s = .next (t.keepAccess a)) (hr : warpReady i s) (hst : s.cp.stepping = 0) (hlater : k ≠ 0 ∨ done = false) :
    ∃ u w, exec i s = .next u ∧ ScalarWaits s u w k done ∧ w.writes = ws ∧ u.mem = t.mem := by
  have hlater' : a.k ≠ 0 ∨ a.waits ≠ [] := hacc.lookahead ▸ hlater.imp id (fun h => by
    rw [← hacc.waits, List.isEmpty_eq_false_iff] at h; exact h)
  have h := scalarAccess_opens he hr hst hacc.passes hacc.kill hacc.outside hacc.scalar hacc.race hlater'
  rwa [hacc.lookahead, hacc.waits, hacc.writes] at h

theorem State.applyAll_s (s : State) (n : Nat) (x : DWord) : s.modW (fun w => w.applyAll s.cur.2 [.s n x]) = s.setSN n x := by
  unfold State.setSN
  split
  · next hn =>
    congr 1
    funext w
    exact if_pos hn
  · next hn =>
    unfold State.modP State.modPathAt State.modW
    congr 1
    funext w
    exact if_neg hn

theorem State.applyAll_a (s : State) (d : BitVec 4) (x : VAddr) : s.modW (fun w => w.applyAll s.cur.2 [.a d.toNat x]) = s.setA d x := rfl

/-- Settles O19: the access finds its bytes where its address leads, and its value is written at once or stands in its window. -/
theorem scalarLoads : Obligations.ScalarLoads := by
  unfold Obligations.ScalarLoads
  refine ⟨?_, ?_, ?_, ?_, ?_⟩
  · intro d r z i s s1 pa hr h hd hpoison hrace
    obtain ⟨t, a, he, hbytes, hacc⟩ := sld_accepted hr h (.inl hd) hpoison (fun _ => hrace)
    rw [hd] at hacc
    obtain ⟨v, hv, hmem, heffect, hkept, hlanes⟩ := hacc.visible he hr (.inr (.inl ⟨_, _, rfl⟩))
    rw [State.applyAll_s] at heffect hkept hlanes
    obtain ⟨hs, ha, hq⟩ := hv.sameScalars
    refine ⟨_, heffect, hkept, ?_, ?_, hlanes, ?_, ?_⟩
    · rw [← ha]; funext n; exact State.aN_setSN v hv.path _ _ _
    · rw [← hq]; funext n; exact State.qN_setSN v hv.path _ _ _
    · rw [← hs]; funext n; exact State.sN_setSN v _ _ _ hv.path
    · rw [State.setSN_mem, hmem, hbytes]
  · intro d r z l i s s1 pa hr hl hst h hd hpoison hrace
    obtain ⟨t, a, he, hbytes, hacc⟩ := sld_accepted hr h (.inl hd) hpoison (fun _ => hrace)
    rw [hd] at hacc
    obtain ⟨u, w, hu, hwaits, hwrites, hmem⟩ := hacc.opens he hr hst (.inl (fun h => hl (BitVec.eq_of_toNat_eq h)))
    exact ⟨u, w, hu, hwaits.pc, hwaits.regs.1, hwaits.windows, hwaits.lane, hwaits.left, hwaits.complete, hwrites, by rw [hmem, hbytes]⟩
  · intro d r z l i s s1 pa hr hst h hd hpoison hline htakes
    obtain ⟨t, a, he, hbytes, hacc⟩ := sld_accepted hr h (.inr ⟨hd, by rwa [h.beside.cur], htakes⟩) hpoison (fun hn => by rw [hd] at hn; cases hn)
    rw [hd] at hacc
    obtain ⟨u, w, hu, hwaits, hwrites, hmem⟩ := hacc.opens he hr hst (.inr rfl)
    exact ⟨u, w, hu, hwaits, hwrites, by rw [hmem, hbytes]⟩
  · intro d r z l i s s1 pa hr hst h hpoison hplace
    have hserved : Served s1 pa := hplace.imp (·.1) (fun ⟨hd, hline, htakes⟩ => ⟨hd, by rwa [h.beside.cur], htakes⟩)
    obtain ⟨t, a, he, hbytes, hacc⟩ := slda_accepted hr h hserved hpoison
      (fun hn => hplace.elim (·.2.2) (fun ⟨hd, _⟩ => by rw [hd] at hn; cases hn))
    obtain ⟨u, w, hu, hwaits, hwrites, hmem⟩ := hacc.opens he hr hst
      (hplace.imp (fun ⟨_, hl, _⟩ h => hl (BitVec.eq_of_toNat_eq h)) (fun ⟨hd, _⟩ => by rw [hd]; rfl))
    exact ⟨u, w, hu, hwaits, hwrites, by rw [hmem, hbytes]⟩
  · intro d r z i s s1 pa hr h hd hpoison hrace
    obtain ⟨t, a, he, hbytes, hacc⟩ := slda_accepted hr h (.inl hd) hpoison (fun _ => hrace)
    rw [hd] at hacc
    obtain ⟨v, hv, hmem, heffect, hkept, hlanes⟩ := hacc.visible he hr (.inr (.inr ⟨_, _, rfl⟩))
    rw [State.applyAll_a] at heffect hkept hlanes
    obtain ⟨hs, ha, hq⟩ := hv.sameScalars
    refine ⟨_, heffect, hkept, ?_, ?_, hlanes, ?_, ?_⟩
    · rw [← hs]; funext n; exact State.sN_setA v hv.path _ _ _
    · rw [← hq]; funext n; exact State.qN_setA v _ _ _
    · rw [← ha]; funext n; exact State.aN_setA v hv.path _ _ _
    · rw [State.setA_mem, hmem, hbytes]

end Sys2Proof.Machine

namespace Sys2Proof.Machine

/-! ### Scalar stores and atomics: O20 -/

/-! #### A store's bytes, count and mark (R99) -/

theorem counted_granule (pa : Nat) : counted (pa / 4096 * 4096) = counted pa := by
  unfold counted isNear isDrawer nearEnd drawerBase drawerEnd
  congr 1
  · rw [decide_eq_decide]; omega
  · rw [decide_eq_decide]; omega

theorem countedOnce_bump (m : Mem) (pa : Nat) : countedOnce m (m.bump (pa / 4096 * 4096)) pa := by
  have hgranule : pa / 4096 * 4096 / 4096 = pa / 4096 := by omega
  unfold Mem.bump
  rw [counted_granule, hgranule]
  cases hc : counted pa with
  | false =>
    have hnone : ∀ g, ¬(counted pa = true ∧ g = pa / 4096) := by simp [hc]
    exact ⟨fun g => (if_neg (hnone g)).symm, fun g => (if_neg (hnone g)).symm⟩
  | true =>
    refine ⟨fun g => ?_, fun g => ?_⟩
    · rw [if_pos rfl]
      simp only [Cells.get_set, hc, true_and]
      split
      · next h => rw [h]
      · rfl
    · rw [if_pos rfl]
      simp only [Cells.get_set, hc, true_and]

/-- An aligned access lies in one granule. -/
theorem bumpSpan_aligned {pa n : Nat} (m : Mem) (hn : 0 < n) (hdvd : n ∣ 4096) (ha : pa % n = 0) :
    m.bumpSpan pa n = m.bump (pa / 4096 * 4096) := by
  have hone : (pa + n - 1) / 4096 - pa / 4096 + 1 = 1 := by
    obtain ⟨k, hk⟩ := hdvd
    have hpa : pa = n * (pa / n) := (Nat.mul_div_cancel' (Nat.dvd_of_mod_eq_zero ha)).symm
    have hend : (pa + n - 1) / 4096 = pa / 4096 := by
      rw [hk, ← Nat.div_div_eq_div_mul, ← Nat.div_div_eq_div_mul]
      congr 1
      rw [show pa + n - 1 = (n - 1) + n * (pa / n) by omega, Nat.add_mul_div_left _ _ hn, Nat.div_eq_of_lt (by omega), Nat.zero_add]
    omega
  rw [Mem.bumpSpan, hone]
  rfl

theorem bumpSpan_bytes (m : Mem) (pa n : Nat) : (m.bumpSpan pa n).bytes = m.bytes := by
  unfold Mem.bumpSpan
  generalize List.range _ = l
  induction l generalizing m with
  | nil => rfl
  | cons i l ih =>
    rw [List.foldl_cons, ih]
    unfold Mem.bump
    split <;> rfl

theorem Mem.store_bytes (m : Mem) (pa : Nat) (bs : List Byte) : (m.store pa bs).bytes = m.bytes.writeN pa bs := by
  unfold Mem.store
  split
  · rfl
  · exact congrArg (fun b => Cells.writeN b pa bs) (bumpSpan_bytes m pa bs.length)

theorem countedOnce_store {m : Mem} {pa : Nat} {bs : List Byte} (hn : 0 < bs.length) (hdvd : bs.length ∣ 4096) (ha : pa % bs.length = 0) :
    countedOnce m (m.store pa bs) pa := by
  have hbump := countedOnce_bump m pa
  unfold Mem.store
  rw [if_neg (by rw [List.isEmpty_iff]; rintro rfl; simp at hn), bumpSpan_aligned m hn hdvd ha]
  exact hbump

theorem storePa_mem (s : State) (pa : Nat) (bs : List Byte) : (s.storePa false pa bs).mem
    = { s.mem.store pa bs with stamps := (s.storePa false pa bs).mem.stamps, canvasStamps := (s.storePa false pa bs).mem.canvasStamps } := by
  have h := (stampsOnly_stampPlain (s.modMem (·.store pa bs)) s.cur.1 false pa bs.length).mem
  show (State.dropLines _ _ _ _).mem = _
  unfold State.storePa
  simp only [Bool.false_eq_true, if_false, State.dropLines_mem]
  exact h

theorem atomicPa_mem (s : State) (pa n new : Nat) (rel : Option Nat) : (s.atomicPa false pa n new rel).mem
    = { s.mem.store pa (bytesOf n new) with
        stamps := (s.atomicPa false pa n new rel).mem.stamps, canvasStamps := (s.atomicPa false pa n new rel).mem.canvasStamps } := by
  have h := (stampsOnly_stampAtomic (s.modMem (·.store pa (bytesOf n new))) s.cur.1 false pa n rel).mem
  unfold State.atomicPa
  simp only [Bool.false_eq_true, if_false, State.dropLines_mem]
  exact h

/-- A number stored at an aligned place: its bytes, and one count. -/
def Stored (s t : State) (pa n x : Nat) : Prop := t.byte = storedAt s.byte pa n x ∧ countedOnce s.mem t.mem pa

theorem Stored.of_mem {s t : State} {pa n x : Nat} (hn : 0 < n) (hdvd : n ∣ 4096) (ha : pa % n = 0)
    (hbytes : t.mem.bytes = (s.mem.store pa (bytesOf n x)).bytes) (hcounts : t.mem.counts = (s.mem.store pa (bytesOf n x)).counts)
    (hpend : t.mem.pend = (s.mem.store pa (bytesOf n x)).pend) : Stored s t pa n x := by
  have hlen := length_bytesOf n x
  have hcounted := countedOnce_store (m := s.mem) (pa := pa) (bs := bytesOf n x) (by rwa [hlen]) (by rwa [hlen]) (by rwa [hlen])
  refine ⟨?_, ?_⟩
  · funext a
    rw [State.byte, hbytes, Mem.store_bytes, get_writeN_bytesOf]
    rfl
  · unfold countedOnce
    rw [hcounts, hpend]
    exact hcounted

theorem stored_storePa {s : State} {pa n x : Nat} (hn : 0 < n) (hdvd : n ∣ 4096) (ha : pa % n = 0) :
    Stored s (s.storePa false pa (bytesOf n x)) pa n x :=
  .of_mem hn hdvd ha (by rw [storePa_mem]) (by rw [storePa_mem]) (by rw [storePa_mem])

theorem stored_atomicPa {s : State} {pa n x : Nat} (rel : Option Nat) (hn : 0 < n) (hdvd : n ∣ 4096) (ha : pa % n = 0) :
    Stored s (s.atomicPa false pa n x rel) pa n x :=
  .of_mem hn hdvd ha (by rw [atomicPa_mem]) (by rw [atomicPa_mem]) (by rw [atomicPa_mem])

/-- What stands around a store leaves its bytes and its count. -/
theorem Stored.congr {s s' t t' : State} {pa n x : Nat} (h : Stored s t pa n x) (hs : s.mem.bytes = s'.mem.bytes)
    (hsc : s.mem.counts = s'.mem.counts) (hsp : s.mem.pend = s'.mem.pend) (ht : t'.mem = t.mem) : Stored s' t' pa n x := by
  obtain ⟨hbyte, hcount⟩ := h
  refine ⟨?_, ?_⟩
  · rw [State.byte_congr (s := t) (by rw [ht]), hbyte, State.byte_congr hs]
  · unfold countedOnce at *
    rwa [ht, ← hsc, ← hsp]

/-! #### The accesses -/

theorem actScalarStore_passes {s : State} {a : Access} {y : HeldLane} (hrace : (s.raceOk s.cur.1 a.off false y.pa y.data.length).1 = none) :
    s.actScalarStore a y = ((s.raceOk s.cur.1 a.off false y.pa y.data.length).2.storePa false y.pa y.data, a) := by
  unfold State.actScalarStore
  simp only [hrace]

theorem act_store {s : State} {a : Access} {i : Instr} (y : HeldLane) (hi : (∃ d r z l o, i = .sst d r z l o) ∨ ∃ d r l o, i = .ssta d r l o)
    (ha : a.i = i) : s.act a [y] = s.actScalarStore { a with xs := a.xs.filter (fun x => !([y] : List HeldLane).contains x) } y := by
  unfold State.act
  rcases hi with ⟨d, r, z, l, o, rfl⟩ | ⟨d, r, l, o, rfl⟩ <;> simp only [ha]

theorem take_scalarStore {s : State} {i : Instr} {k n x : Nat} {dests : List Dest} {va : VAddr} {pa : Nat}
    (hp : s.path?.isSome = true) (hpu : s.inPu = false)
    (hi : (∃ d r z l o, i = .sst d r z l o) ∨ ∃ d r l o, i = .ssta d r l o)
    (hplace : isDrawer pa = false ∨ (s.link (linkOf pa)).takes = true)
    (hrace : (s.raceOk s.cur.1 s.scalarOff false pa n).1 = none) (hn : 0 < n) (hdvd : n ∣ 4096) (ha : pa % n = 0) :
    ∃ t a, s.scalarMemory i k dests va pa (bytesOf n x) = t.keepAccess a ∧ Accepted s t a k [] true ∧ Stored s t pa n x := by
  have hmem : scalarMem i ∧ isStore i = true ∧ atomicOrder i = none := by
    rcases hi with ⟨d, r, z, l, o, rfl⟩ | ⟨d, r, l, o, rfl⟩ <;> exact ⟨trivial, rfl, rfl⟩
  obtain ⟨hscal, hstore, hplain⟩ := hmem
  set y : HeldLane := { lane := 0, ea := va, pa := pa, data := bytesOf n x } with hy
  have hlen : y.data.length = n := length_bytesOf n x
  obtain ⟨u, hu, hmem, hcores, hnear, hdone⟩ := take_scalar (k := k) (dests := dests) (y := y) hscal hp hpu rfl (by
    cases hd : isDrawer pa with
    | false => exact .inl rfl
    | true => exact .inr ⟨rfl, hplace.resolve_left (by simp [hd]), .inr (.inl hstore)⟩)
  obtain ⟨rel, hacc⟩ := beginAccess_access s false k dests i [y]
  have hrace' : (u.raceOk u.cur.1 s.scalarOff false pa n).1 = none := by
    cases hd : isDrawer pa with
    | false =>
      have hbegin : (s.beginAccess false k dests i [y]).1 = s.modW Warp.useOnce := by
        unfold State.beginAccess
        simp only [hplain, hpu, Bool.false_eq_true, if_false]
      rw [hu.cur, hnear hd, hbegin, raceOk_useOnce _ _ _ _ hp]
      exact hrace
    | true => rw [raceOk_drawer _ _ hd]
  rw [hacc] at hdone
  obtain ⟨t, a, htake, hbeside, htmem, ha', hwaits⟩ := hdone _
    ((act_store y hi rfl).trans (actScalarStore_passes (by rw [hlen]; exact hrace'))) rfl rfl rfl
  rw [hlen] at hbeside htmem
  have hstamps := stampsOnly_raceOk u u.cur.1 s.scalarOff false pa n
  have hraced := hu.trans (hstamps.besideWarps.passes hu.path)
  refine ⟨t, a, htake, ⟨?_, ?_, ?_, ?_, ?_, ?_, ?_, ?_⟩, ?_⟩
  · have hput := hraced.trans ((besideWarps_storePa _ pa (bytesOf n x)).passes hraced.path)
    exact hput.trans (hbeside.passes hput.path)
  · rw [ha']
  · rw [ha']
  · rw [ha']
  · rw [ha']
  · rw [ha']
  · rw [ha']
  · rw [hwaits, hstore, Bool.or_true]
  · exact (stored_storePa (s := (u.raceOk u.cur.1 s.scalarOff false pa n).2) hn hdvd ha).congr (by rw [hstamps.mem, hmem])
      (by rw [hstamps.mem, hmem]) (by rw [hstamps.mem, hmem]) htmem

theorem sizeBytes_dvd (z : Nat) : 0 < sizeBytes z ∧ sizeBytes z ∣ 4096 := by
  unfold sizeBytes
  split <;> decide

/-- A scalar store passes on its way, and its bytes stand in memory. -/
theorem sst_accepted {d : BitVec 6} {r z l : BitVec 4} {i : BitVec 8} {s s1 : State} {pa : Nat} (hr : warpReady (.sst d r z l i) s)
    (h : Reaches s (((s.aReg r).toNat : Int) + i.toInt * sizeBytes z.toNat) (sizeBytes z.toNat) .write false true s1 pa)
    (hplace : isDrawer pa = false ∨ (s1.link (linkOf pa)).takes = true)
    (hrace : (s1.raceOk s.cur.1 s1.scalarOff false pa (sizeBytes z.toNat)).1 = none) :
    ∃ t a, exec (.sst d r z l i) s = .next (t.keepAccess a) ∧ Accepted s t a l.toNat [] true
      ∧ Stored s1 t pa (sizeBytes z.toNat) (s.sReg d).toNat := by
  have he : exec (.sst d r z l i) s = .next (s.atScalar (s.scalarEa r (sizeBytes z.toNat) i) (sizeBytes z.toNat) .write false true
      (fun s va pa => s.scalarMemory (.sst d r z l i) l.toNat [] va pa (bytesOf (sizeBytes z.toNat) (s.sReg d).toNat))) :=
    scalarForm_of_warpReady _ rfl hr
  have hs1 := h.beside.passes (scalarReady_path hr.2.1)
  have hreg : s1.sReg d = s.sReg d := congrFun hs1.sameScalars.1 d.toNat
  obtain ⟨hpos, hdvd⟩ := sizeBytes_dvd z.toNat
  obtain ⟨t, a, htake, hacc, hstored⟩ := take_scalarStore (i := .sst d r z l i) (k := l.toNat) (x := (s1.sReg d).toNat) (dests := [])
    (va := BitVec.ofInt 72 (s.scalarEa r (sizeBytes z.toNat) i)) hs1.path (hs1.inPu.trans hr.2.2) (.inl ⟨_, _, _, _, _, rfl⟩)
    hplace (by rwa [hs1.cur]) hpos hdvd (h.aligned (hdvd.trans (by decide)))
  rw [hreg] at hstored
  exact ⟨t, a, he.trans (congrArg _ ((atScalar_of_reaches h hr.2.2 _).trans htake)), { hacc with passes := hs1.trans hacc.passes }, hstored⟩

theorem ssta_accepted {d r l : BitVec 4} {i : BitVec 8} {s s1 : State} {pa : Nat} (hr : warpReady (.ssta d r l i) s)
    (h : Reaches s (((s.aReg r).toNat : Int) + i.toInt * 16) 16 .write false true s1 pa)
    (hplace : isDrawer pa = false ∨ (s1.link (linkOf pa)).takes = true)
    (hrace : (s1.raceOk s.cur.1 s1.scalarOff false pa 16).1 = none) :
    ∃ t a, exec (.ssta d r l i) s = .next (t.keepAccess a) ∧ Accepted s t a l.toNat [] true ∧ Stored s1 t pa 16 (s.aReg d).toNat := by
  have he : exec (.ssta d r l i) s = .next (s.atScalar (s.scalarEa r 16 i) 16 .write false true
      (fun s va pa => s.scalarMemory (.ssta d r l i) l.toNat [] va pa (bytesOf 16 (s.aReg d).toNat))) :=
    scalarForm_of_warpReady _ rfl hr
  have hs1 := h.beside.passes (scalarReady_path hr.2.1)
  have hreg : s1.aReg d = s.aReg d := congrFun hs1.sameScalars.2.1 d.toNat
  obtain ⟨t, a, htake, hacc, hstored⟩ := take_scalarStore (i := .ssta d r l i) (k := l.toNat) (x := (s1.aReg d).toNat) (dests := [])
    (va := BitVec.ofInt 72 (s.scalarEa r 16 i)) hs1.path (hs1.inPu.trans hr.2.2) (.inr ⟨_, _, _, _, rfl⟩)
    hplace (by rwa [hs1.cur]) (by decide) (by decide) (h.aligned (by decide))
  rw [hreg] at hstored
  exact ⟨t, a, he.trans (congrArg _ ((atScalar_of_reaches h hr.2.2 _).trans htake)), { hacc with passes := hs1.trans hacc.passes }, hstored⟩

/-- A store without lookahead is done, its registers as they were. -/
theorem Accepted.stored {i : Instr} {s s1 t : State} {a : Access} {pa n x : Nat} (hacc : Accepted s t a 0 [] true)
    (he : exec i s = .next (t.keepAccess a)) (hr : warpReady i s) (hstored : Stored s1 t pa n x) :
    ∃ u, Effect i s u (s.cp.pc + 4) ∧ Kept s u ∧ SameScalars s u ∧ u.cw.v = s.cw.v ∧ u.byte = storedAt s1.byte pa n x
      ∧ countedOnce s1.mem u.mem pa := by
  obtain ⟨v, hv, hmem, heffect, hkept, hlanes⟩ := hacc.visible he hr (.inl rfl)
  have hsame := hv.trans (Passes.of_modW_slots (f := fun w => w.applyAll v.cur.2 []) hv.path rfl)
  obtain ⟨hbyte, hcount⟩ := hstored.congr rfl rfl rfl ((State.modW_mem v (fun w => w.applyAll v.cur.2 [])).trans hmem)
  exact ⟨_, heffect, hkept, hsame.sameScalars, hlanes, hbyte, hcount⟩

theorem Accepted.storedLater {i : Instr} {s s1 t : State} {a : Access} {pa n x k : Nat} (hacc : Accepted s t a k [] true)
    (he : exec i s = .next (t.keepAccess a)) (hr : warpReady i s) (hst : s.cp.stepping = 0) (hk : k ≠ 0) (hstored : Stored s1 t pa n x) :
    ∃ u w, exec i s = .next u ∧ ScalarWaits s u w k true ∧ w.writes = [] ∧ u.byte = storedAt s1.byte pa n x
      ∧ countedOnce s1.mem u.mem pa := by
  obtain ⟨u, w, hu, hwaits, hwrites, hmem⟩ := hacc.opens he hr hst (.inl hk)
  obtain ⟨hbyte, hcount⟩ := hstored.congr rfl rfl rfl hmem
  exact ⟨u, w, hu, hwaits, hwrites, hbyte, hcount⟩

/-! #### SAMO (R146) -/

theorem ofNat_min (x y : DWord) : BitVec.ofNat 64 (min x.toNat y.toNat) = if y.toNat < x.toNat then y else x := by
  split
  · next h => rw [Nat.min_eq_right h.le, BitVec.ofNat_toNat, BitVec.setWidth_eq]
  · next h => rw [Nat.min_eq_left (Nat.le_of_not_lt h), BitVec.ofNat_toNat, BitVec.setWidth_eq]

theorem ofNat_max (x y : DWord) : BitVec.ofNat 64 (max x.toNat y.toNat) = if x.toNat < y.toNat then y else x := by
  split
  · next h => rw [Nat.max_eq_right h.le, BitVec.ofNat_toNat, BitVec.setWidth_eq]
  · next h => rw [Nat.max_eq_left (Nat.le_of_not_lt h), BitVec.ofNat_toNat, BitVec.setWidth_eq]

theorem ofInt_min (x y : DWord) : BitVec.ofInt 64 (min x.toInt y.toInt) = if y.toInt < x.toInt then y else x := by
  split
  · next h => rw [min_eq_right h.le, BitVec.ofInt_toInt]
  · next h => rw [min_eq_left (Int.not_lt.mp h), BitVec.ofInt_toInt]

theorem ofInt_max (x y : DWord) : BitVec.ofInt 64 (max x.toInt y.toInt) = if x.toInt < y.toInt then y else x := by
  split
  · next h => rw [max_eq_right h.le, BitVec.ofInt_toInt]
  · next h => rw [max_eq_left (Int.not_lt.mp h), BitVec.ofInt_toInt]

theorem samoNew_eq_table (o : Nat) (old b d : DWord) : samoNew o old b d = samoTable o old b d := by
  unfold samoNew samoTable
  split <;> simp only [ofNat_min, ofNat_max, ofInt_min, ofInt_max, decide_eq_true_eq]

theorem actSamo_lives {s : State} {a : Access} {d : BitVec 6} {o : Nat} {va : VAddr} {pa : Nat} {b x : DWord}
    (hpoison : poisoned s.mem.poison pa 8 = false) :
    s.actSamo a d o { lane := 0, ea := va, pa := pa, data := bytesOf 8 b.toNat ++ bytesOf 8 x.toNat }
      = (s.atomicPa false pa 8 (samoTable o (BitVec.ofNat 64 (numAt s.byte pa 8)) b x).toNat a.rel,
         { a with writes := [.s d.toNat (BitVec.ofNat 64 (numAt s.byte pa 8))], stamps := [s.releaseStamp false pa 8] }) := by
  have hread : s.mem.bytes.readNat pa 8 = numAt s.byte pa 8 := readNat_eq_numAt ..
  have hof : ∀ z : DWord, BitVec.ofNat 64 (ofBytes (bytesOf 8 z.toNat)) = z := fun z => by
    rw [ofBytes_bytesOf 8 _ (by simpa using z.isLt), BitVec.ofNat_toNat, BitVec.setWidth_eq]
  have htake : (bytesOf 8 b.toNat ++ bytesOf 8 x.toNat).take 8 = bytesOf 8 b.toNat :=
    List.take_left' (length_bytesOf ..)
  have hdrop : (bytesOf 8 b.toNat ++ bytesOf 8 x.toNat).drop 8 = bytesOf 8 x.toNat :=
    List.drop_left' (length_bytesOf ..)
  unfold State.actSamo HeldLane.operand HeldLane.compare
  simp only [hpoison, Bool.false_eq_true, if_false, hread, htake, hdrop, hof, samoNew_eq_table]

theorem samo_accepted {d : BitVec 6} {a : BitVec 4} {b : BitVec 6} {o : BitVec 4} {r sc : BitVec 2} {s s1 : State} {pa : Nat}
    (hr : warpReady (.samo d a b o r sc) s) (h : Reaches s (s.aReg a).toNat 8 .atomic false true s1 pa)
    (hplace : isDrawer pa = false ∨ (s1.link (linkOf pa)).takes = true) (hpoison : poisoned s1.mem.poison pa 8 = false) :
    ∃ t x, exec (.samo d a b o r sc) s = .next (t.keepAccess x)
      ∧ Accepted s t x 0 [.s d.toNat (BitVec.ofNat 64 (numAt s1.byte pa 8))] (!isDrawer pa)
      ∧ Stored s1 t pa 8 (samoTable o.toNat (BitVec.ofNat 64 (numAt s1.byte pa 8)) (s.sReg b) (s.sReg d)).toNat := by
  set i := Instr.samo d a b o r sc with hi
  have he : exec i s = .next (s.atScalar (s.aReg a).toNat 8 .atomic false true (fun s va pa =>
      s.scalarMemory i 0 [.s d.toNat] va pa (bytesOf 8 (s.sReg b).toNat ++ bytesOf 8 (s.sReg d).toNat))) := by
    show execSamo d a b o r sc s = _
    rw [execSamo, scalarForm_of_warpReady _ rfl hr]
    simp only [State.performed_quiet hr.1, Bool.not_true, Bool.and_false, Bool.false_eq_true, if_false, ← hi]
  have hs1 := h.beside.passes (scalarReady_path hr.2.1)
  have hb : s1.sReg b = s.sReg b := congrFun hs1.sameScalars.1 b.toNat
  have hd : s1.sReg d = s.sReg d := congrFun hs1.sameScalars.1 d.toNat
  have he' := he.trans (congrArg _ (atScalar_of_reaches h hr.2.2 _))
  rw [hb, hd] at he'
  set y : HeldLane := {
    lane := 0, ea := BitVec.ofInt 72 ((s.aReg a).toNat : Int), pa := pa
    data := bytesOf 8 (s.sReg b).toNat ++ bytesOf 8 (s.sReg d).toNat } with hy
  obtain ⟨u, hu, hmem, hcores, hnear, hdone⟩ := take_scalar (i := i) (k := 0) (dests := [.s d.toNat]) (y := y) trivial hs1.path
    (hs1.inPu.trans hr.2.2) rfl (by
      cases hd : isDrawer pa with
      | false => exact .inl rfl
      | true => exact .inr ⟨rfl, hplace.resolve_left (by simp [hd]), .inr (.inr ⟨_, rfl⟩)⟩)
  obtain ⟨rel, hacc⟩ := beginAccess_access s1 false 0 [.s d.toNat] i [y]
  rw [hacc] at hdone
  have hact : ∀ x : Access, x.i = i → u.act x [y]
      = u.actSamo { x with xs := x.xs.filter (fun x => !([y] : List HeldLane).contains x) } d o.toNat y := by
    intro x hx
    unfold State.act
    simp only [hx, hi]
  obtain ⟨t, x, htake, hbeside, htmem, hx, hwaits⟩ := hdone _ ((hact _ rfl).trans (actSamo_lives (by rw [hmem]; exact hpoison))) rfl rfl rfl
  have hbyte : u.byte = s1.byte := State.byte_congr (by rw [hmem])
  have hput := hu.trans ((besideWarps_atomicPa u pa 8
    (samoTable o.toNat (BitVec.ofNat 64 (numAt u.byte pa 8)) (s.sReg b) (s.sReg d)).toNat rel).passes hu.path)
  rw [← hbyte]
  refine ⟨t, x, he'.trans (congrArg _ htake), ⟨?_, ?_, ?_, ?_, ?_, ?_, ?_, ?_⟩, ?_⟩
  · exact hs1.trans (hput.trans (hbeside.passes hput.path))
  · rw [hx]
  · rw [hx]
  · rw [hx]
  · rw [hx]
  · rw [hx]
  · rw [hx]
  · rw [hwaits]
    exact Bool.or_false _
  · exact (stored_atomicPa rel (by decide) (by decide) (h.aligned (by decide))).congr (by rw [hmem]) (by rw [hmem]) (by rw [hmem]) htmem

/-- Settles O20: a store's bytes and count stand once its access is accepted, and its registers do; an atomic's old value is
written besides. -/
theorem scalarStoresAndAtomics : Obligations.ScalarStoresAndAtomics := by
  unfold Obligations.ScalarStoresAndAtomics
  refine ⟨⟨?_, ?_, ?_, ?_⟩, ?_, ?_⟩
  · intro d r z i s s1 pa hr h hplace hrace
    obtain ⟨t, a, he, hacc, hstored⟩ := sst_accepted hr h hplace hrace
    exact hacc.stored he hr hstored
  · intro d r i s s1 pa hr h hplace hrace
    obtain ⟨t, a, he, hacc, hstored⟩ := ssta_accepted hr h hplace hrace
    exact hacc.stored he hr hstored
  · intro d r z l i s s1 pa hr hl hst h hplace hrace
    obtain ⟨t, a, he, hacc, hstored⟩ := sst_accepted hr h hplace hrace
    exact hacc.storedLater he hr hst (fun h => hl (BitVec.eq_of_toNat_eq h)) hstored
  · intro d r l i s s1 pa hr hl hst h hplace hrace
    obtain ⟨t, a, he, hacc, hstored⟩ := ssta_accepted hr h hplace hrace
    exact hacc.storedLater he hr hst (fun h => hl (BitVec.eq_of_toNat_eq h)) hstored
  · intro d a b o r sc s s1 pa hr h hd hpoison
    obtain ⟨t, x, he, hacc, hstored⟩ := samo_accepted hr h (.inl hd) hpoison
    rw [hd] at hacc
    obtain ⟨v, hv, hmem, heffect, hkept, hlanes⟩ := hacc.visible he hr (.inr (.inl ⟨_, _, rfl⟩))
    rw [State.applyAll_s] at heffect hkept hlanes
    obtain ⟨hs, ha, hq⟩ := hv.sameScalars
    obtain ⟨hbyte, hcount⟩ := hstored.congr rfl rfl rfl
      ((State.setSN_mem v d.toNat (BitVec.ofNat 64 (numAt s1.byte pa 8))).trans hmem)
    refine ⟨_, heffect, hkept, ?_, ?_, hlanes, ?_, hbyte, hcount⟩
    · rw [← ha]; funext n; exact State.aN_setSN v hv.path _ _ _
    · rw [← hq]; funext n; exact State.qN_setSN v hv.path _ _ _
    · rw [← hs]; funext n; exact State.sN_setSN v _ _ _ hv.path
  · intro d a b o r sc s s1 pa hr hst h hd hpoison htakes
    obtain ⟨t, x, he, hacc, hstored⟩ := samo_accepted hr h (.inr htakes) hpoison
    rw [hd] at hacc
    obtain ⟨u, w, hu, hwaits, hwrites, hmem⟩ := hacc.opens he hr hst (.inr rfl)
    obtain ⟨hbyte, hcount⟩ := hstored.congr rfl rfl rfl hmem
    exact ⟨u, w, hu, hwaits, hwrites, hbyte, hcount⟩

end Sys2Proof.Machine

namespace Sys2Proof.Machine

/-! ### Addresses of lanes (R15, R22, R140) -/

/-- A lane whose address passes: its exact address, in range, at a place aligned as it is. -/
def LanePasses (n : Nat) (e : Nat × Int) (x : LaneAcc) : Prop :=
  x.lane = e.1 ∧ (x.ea.toNat : Int) = e.2 ∧ (n ∣ 65536 → x.pa % n = 0)

theorem early_aligned {n : Nat} {ea : Int} (h : earlyFault n ea = none) : (0 ≤ ea ∧ ea < 2 ^ 72) ∧ ea % n = 0 := by
  rw [earlyFault_eq] at h
  refine ⟨earlyCause_none_range h, ?_⟩
  unfold earlyCause at h
  split at h
  · simp at h
  split at h
  · simp at h
  · next hmod => exact not_not.mp hmod

theorem xlateLanes_heldOnly (a : Agent) (n : Nat) (want : Want) : ∀ (es : List (Nat × Int)) (s : State),
    HeldOnly s (s.xlateLanes a n want es).1
  | [], s => HeldOnly.refl s
  | (l, ea) :: es, s => by
    have hstep := translate_heldOnly s a (BitVec.ofInt 72 ea).toNat want
    rw [State.xlateLanes]
    split
    · exact xlateLanes_heldOnly a n want es s
    · split
      · next h => rw [h] at hstep; exact hstep.trans (xlateLanes_heldOnly a n want es _)
      · next h => rw [h] at hstep; exact hstep.trans (xlateLanes_heldOnly a n want es _)

theorem xlateLanes_allGood {a : Agent} {n : Nat} {want : Want} : ∀ {es : List (Nat × Int)} {s t : State} {xs : List LaneAcc},
    s.xlateLanes a n want es = (t, xs, []) → List.Forall₂ (LanePasses n) es xs
  | [], s, t, xs, h => by
    simp only [State.xlateLanes, Prod.mk.injEq] at h
    rw [← h.2.1]
    exact .nil
  | (l, ea) :: es, s, t, xs, h => by
    rw [State.xlateLanes] at h
    split at h
    · simp at h
    · next hearly =>
      split at h
      · simp at h
      · next u hit htr =>
        obtain ⟨hrange, hmod⟩ := early_aligned hearly
        rcases hrest : u.xlateLanes a n want es with ⟨v, ys, bs⟩
        rw [hrest] at h
        simp only [Prod.mk.injEq] at h
        obtain ⟨-, rfl, rfl⟩ := h
        refine .cons ⟨rfl, ?_, fun hn => ?_⟩ (xlateLanes_allGood hrest)
        · rw [toNat_ofInt_of_range hrange]
          exact Int.toNat_of_nonneg hrange.1
        · have hpa := translate_ok_mod htr
          rw [toNat_ofInt_of_range hrange] at hpa
          have hnat : ea.toNat % n = 0 := by
            obtain ⟨m, rfl⟩ := Int.eq_ofNat_of_zero_le hrange.1
            exact_mod_cast hmod
          rw [← Nat.mod_mod_of_dvd _ hn, hpa, Nat.mod_mod_of_dvd _ hn, hnat]

/-- What the lanes of a word are whose addresses all pass. -/
structure LanesPass (s : State) (f : LaneWord) (n : Nat) (s1 : State) (xs : List LaneAcc) : Prop where
  beside : BesideWarps s s1
  lanes : lanesOfWord s f xs
  aligned : n ∣ 65536 → ∀ x ∈ xs, x.pa % n = 0

theorem LanesPass.of_tests {s s1 : State} {f : LaneWord} {n : Nat} {want : Want} {xs : List LaneAcc}
    (h : s.xlateLanes s.agent n want (s.laneEas f) = (s1, xs, [])) : LanesPass s f n s1 xs := by
  have hheld := (xlateLanes_heldOnly s.agent n want (s.laneEas f) s).besideWarps
  rw [h] at hheld
  have hall := xlateLanes_allGood h
  unfold State.laneEas at hall
  rw [List.forall₂_map_left_iff] at hall
  refine ⟨hheld, ⟨?_, ?_⟩, fun hn => ?_⟩
  · clear h hheld
    generalize s.actLanes f = ls at hall
    induction hall with
    | nil => rfl
    | cons hx _ ih => rw [List.map_cons, hx.1, ih]
  · clear h hheld
    generalize s.actLanes f = ls at hall
    induction hall with
    | nil => simp
    | cons hx _ ih =>
      refine List.forall_mem_cons.mpr ⟨?_, ih⟩
      rw [hx.1]
      exact hx.2.1
  · clear h hheld
    generalize s.actLanes f = ls at hall
    induction hall with
    | nil => simp
    | cons hx _ ih => exact List.forall_mem_cons.mpr ⟨hx.2.2 hn, ih⟩

/-- Lanes of an access are ascending, each below 128. -/
theorem LanesPass.ascending {s s1 : State} {f : LaneWord} {n : Nat} {xs : List LaneAcc} (h : LanesPass s f n s1 xs) :
    (xs.map (·.lane)).Pairwise (· < ·) ∧ ∀ x ∈ xs, x.lane < 128 := by
  obtain ⟨hlanes, -⟩ := h.lanes
  rw [hlanes]
  refine ⟨actLanes_ascending s f, fun x hx => ?_⟩
  have hmem : x.lane ∈ s.actLanes f := by rw [← hlanes]; exact List.mem_map_of_mem hx
  exact (mem_actLanes.mp hmem).1

end Sys2Proof.Machine

namespace Sys2Proof.Machine

/-! ### Requests of a lane access (R81) -/

/-- Blocks so far, and the block of one more address. -/
def insBlock (bs : List Nat) (b : Nat) : List Nat :=
  if bs.contains b then bs else (bs.filter (fun x => x < b)) ++ b :: bs.filter (fun x => b < x)

theorem blocksOf_eq (size : Nat) (pas : List Nat) : blocksOf size pas = (pas.map (· / size)).foldl insBlock [] := by
  rw [List.foldl_map]
  rfl

theorem insBlock_perm {bs : List Nat} {b : Nat} (h : b ∉ bs) : (insBlock bs b).Perm (b :: bs) := by
  have hsplit : bs.filter (fun x => decide (b < x)) = bs.filter (fun x => !decide (x < b)) := by
    refine List.filter_congr (fun x hx => ?_)
    have hne : x ≠ b := fun he => h (he ▸ hx)
    by_cases hlt : x < b
    · simp [hlt, Nat.le_of_lt hlt]
    · simp [hlt, show b < x by omega]
  rw [insBlock, if_neg (by simpa using h), hsplit]
  exact List.perm_middle.trans (.cons b (List.filter_append_perm _ bs))

theorem mem_insBlock {bs : List Nat} {b x : Nat} : x ∈ insBlock bs b ↔ x = b ∨ x ∈ bs := by
  by_cases h : b ∈ bs
  · rw [insBlock, if_pos (by simpa using h)]
    exact ⟨.inr, fun hx => hx.elim (· ▸ h) id⟩
  · rw [(insBlock_perm h).mem_iff, List.mem_cons]

theorem nodup_insBlock {bs : List Nat} {b : Nat} (hbs : bs.Nodup) : (insBlock bs b).Nodup := by
  by_cases h : b ∈ bs
  · rw [insBlock, if_pos (by simpa using h)]
    exact hbs
  · rw [(insBlock_perm h).nodup_iff, List.nodup_cons]
    exact ⟨h, hbs⟩

theorem length_insBlock (bs : List Nat) (b : Nat) : (insBlock bs b).length ≤ bs.length + 1 := by
  by_cases h : b ∈ bs
  · rw [insBlock, if_pos (by simpa using h)]
    omega
  · rw [(insBlock_perm h).length_eq, List.length_cons]

theorem foldl_insBlock (ks : List Nat) : ∀ bs : List Nat, bs.Nodup → (ks.foldl insBlock bs).Nodup
    ∧ (ks.foldl insBlock bs).length ≤ bs.length + ks.length ∧ ∀ x, x ∈ ks.foldl insBlock bs ↔ x ∈ ks ∨ x ∈ bs := by
  induction ks with
  | nil => exact fun bs h => ⟨h, Nat.le_refl _, by simp⟩
  | cons k ks ih =>
    intro bs h
    obtain ⟨hnodup, hlen, hmem⟩ := ih (insBlock bs k) (nodup_insBlock h)
    have hone := length_insBlock bs k
    refine ⟨hnodup, by rw [List.length_cons]; exact hlen.trans (by omega), fun x => ?_⟩
    rw [List.foldl_cons, hmem, mem_insBlock, List.mem_cons]
    tauto

theorem blocksOf_nodup (size : Nat) (pas : List Nat) : (blocksOf size pas).Nodup := by
  rw [blocksOf_eq]
  exact (foldl_insBlock _ [] List.nodup_nil).1

theorem length_blocksOf (size : Nat) (pas : List Nat) : (blocksOf size pas).length ≤ pas.length := by
  rw [blocksOf_eq]
  simpa using (foldl_insBlock (pas.map (· / size)) [] List.nodup_nil).2.1

theorem mem_blocksOf {size b : Nat} {pas : List Nat} : b ∈ blocksOf size pas ↔ ∃ pa ∈ pas, pa / size = b := by
  rw [blocksOf_eq, (foldl_insBlock _ [] List.nodup_nil).2.2, List.mem_map]
  simp

/-- Values sorted by key into classes, each once, are no more than the values. -/
theorem length_classes {α : Type} (key : α → Nat) {bs : List Nat} (hbs : bs.Nodup) (xs : List α) :
    ((bs.map (fun b => (xs.filter (fun x => key x = b)).length))).sum ≤ xs.length := by
  induction xs with
  | nil => simp
  | cons x xs ih =>
    have hone : ((bs.map (fun b => if key x = b then 1 else 0))).sum ≤ 1 := by
      have hcount := List.nodup_iff_count_le_one.mp hbs (key x)
      have hsum : ((bs.map (fun b => if key x = b then 1 else 0))).sum = bs.count (key x) := by
        clear hbs hcount ih
        induction bs with
        | nil => rfl
        | cons b bs ih =>
          rw [List.map_cons, List.sum_cons, ih, List.count_cons]
          simp only [beq_iff_eq, eq_comm (a := b)]
          omega
      omega
    have hsplit : ((bs.map (fun b => ((x :: xs).filter (fun x => key x = b)).length))).sum
        = ((bs.map (fun b => if key x = b then 1 else 0))).sum + ((bs.map (fun b => (xs.filter (fun x => key x = b)).length))).sum := by
      rw [← List.sum_map_add]
      congr 1
      refine List.map_congr_left (fun b _ => ?_)
      by_cases h : key x = b
      · simp [h]; omega
      · simp [h]
    rw [hsplit, List.length_cons]
    omega

/-- Requests that serve every lane: few enough for any queue with room, none acting on memory as it enters. -/
structure Serving (rs : List (Req × Mask)) (xs : List HeldLane) : Prop where
  few : rs.length ≤ xs.length
  quiet : ∀ r ∈ rs, r.1.eff = .none
  each : ∀ x ∈ xs, ∃ r ∈ rs, bitB r.2 x.lane = true

theorem bitB_maskOf_lanes {xs : List HeldLane} {p : HeldLane → Bool} (hx : ∀ x ∈ xs, x.lane < 128) (hnodup : (xs.map (·.lane)).Nodup)
    {y : HeldLane} (hy : y ∈ xs) : bitB (maskOf ((xs.filter p).map (·.lane))) y.lane = p y := by
  rw [bitB_maskOf _ _ (hx y hy)]
  cases hp : p y with
  | true => exact decide_eq_true (List.mem_map_of_mem (List.mem_filter.mpr ⟨hy, hp⟩))
  | false =>
    refine decide_eq_false (fun hmem => ?_)
    obtain ⟨z, hz, hlane⟩ := List.mem_map.mp hmem
    obtain ⟨hzm, hzp⟩ := List.mem_filter.mp hz
    rw [List.inj_on_of_nodup_map hnodup hzm hy hlane, hp] at hzp
    cases hzp

end Sys2Proof.Machine

namespace Sys2Proof.Machine

/-- Lanes of an access: each below 128 and there once. -/
structure DistinctLanes (xs : List HeldLane) : Prop where
  bound : ∀ x ∈ xs, x.lane < 128
  nodup : (xs.map (·.lane)).Nodup

/-- Drawer lanes that miss, of those that all do. -/
theorem misses_all {s : State} {core : Option Nat} {xs : List HeldLane} (hd : ∀ x ∈ xs, isDrawer x.pa = true)
    (hmiss : ∀ c, core = some c → ∀ x ∈ xs, s.l1Line c x.pa = none) : s.misses core xs = xs.map (fun x => (x.lane, x.pa)) := by
  unfold State.misses
  rw [List.filter_eq_self.mpr]
  intro x hx
  cases core with
  | none => simp [hd x hx]
  | some c => simp [hd x hx, hmiss c rfl x hx]

theorem serving_loadReqs {cls : Nat} {core : Option Nat} {xs : List HeldLane} (hx : DistinctLanes xs) :
    Serving (loadReqs cls core (xs.map (fun x => (x.lane, x.pa)))) xs := by
  have hmask : ∀ b, ((xs.map (fun x => (x.lane, x.pa))).filter (fun x => x.2 / 256 = b)).map (·.1)
      = (xs.filter (fun x => x.pa / 256 = b)).map (·.lane) := by
    intro b
    rw [List.filter_map, List.map_map]
    rfl
  have hpas : (xs.map (fun x => (x.lane, x.pa))).map (·.2) = xs.map (·.pa) := by rw [List.map_map]; rfl
  unfold loadReqs
  rw [hpas]
  refine ⟨?_, ?_, fun x hxm => ?_⟩
  · rw [List.length_map]
    exact (length_blocksOf _ _).trans (by rw [List.length_map])
  · intro r hr
    obtain ⟨b, -, rfl⟩ := List.mem_map.mp hr
    rfl
  · refine ⟨_, List.mem_map_of_mem (mem_blocksOf.mpr ⟨x.pa, List.mem_map_of_mem hxm, rfl⟩), ?_⟩
    rw [hmask, bitB_maskOf_lanes hx.bound hx.nodup hxm]
    exact decide_eq_true rfl

theorem serving_storeReqs {cls : Nat} {xs : List HeldLane} (hx : DistinctLanes xs) (hd : ∀ x ∈ xs, isDrawer x.pa = true) :
    Serving (storeReqs cls xs) xs ∧ ∀ r ∈ storeReqs cls xs, ∀ x ∈ xs, ∀ y ∈ xs, x.pa / 128 = y.pa / 128 → bitB r.2 x.lane = bitB r.2 y.lane := by
  unfold storeReqs
  rw [List.filter_eq_self.mpr hd]
  dsimp only
  refine ⟨⟨?_, ?_, fun x hxm => ?_⟩, ?_⟩
  · rw [List.length_map]
    exact (length_blocksOf _ _).trans (by rw [List.length_map])
  · intro r hr
    obtain ⟨b, -, rfl⟩ := List.mem_map.mp hr
    rfl
  · refine ⟨_, List.mem_map_of_mem (mem_blocksOf.mpr ⟨x.pa, List.mem_map_of_mem hxm, rfl⟩), ?_⟩
    rw [bitB_maskOf_lanes hx.bound hx.nodup hxm]
    exact decide_eq_true rfl
  · intro r hr x hxm y hym hblock
    obtain ⟨b, -, rfl⟩ := List.mem_map.mp hr
    dsimp only
    rw [bitB_maskOf_lanes hx.bound hx.nodup hxm, bitB_maskOf_lanes hx.bound hx.nodup hym, hblock]

theorem serving_atomicReqs {cls : Nat} {cmd : HeldLane → AmoCmd} {xs : List HeldLane} (hx : DistinctLanes xs)
    (hd : ∀ x ∈ xs, isDrawer x.pa = true) : Serving (atomicReqs cls cmd xs) xs := by
  unfold atomicReqs
  rw [List.filter_eq_self.mpr hd]
  dsimp only
  refine ⟨?_, ?_, fun x hxm => ?_⟩
  · rw [List.length_flatten, List.map_map]
    have hlen := length_classes (fun x : HeldLane => x.pa / 4) (blocksOf_nodup 4 (xs.map (·.pa))) xs
    refine le_trans (le_of_eq ?_) hlen
    congr 1
    exact List.map_congr_left (fun b _ => List.length_map _)
  · intro r hr
    obtain ⟨l, hl, hr⟩ := List.mem_flatten.mp hr
    obtain ⟨b, -, rfl⟩ := List.mem_map.mp hl
    obtain ⟨x, -, rfl⟩ := List.mem_map.mp hr
    rfl
  · refine ⟨({ id := 0, kind := 3, addr := x.pa, cls := cls, amo := some (cmd x) }, 1#128 <<< x.lane), List.mem_flatten.mpr
      ⟨_, List.mem_map_of_mem (mem_blocksOf.mpr ⟨x.pa, List.mem_map_of_mem hxm, rfl⟩), ?_⟩, ?_⟩
    · exact List.mem_map_of_mem (List.mem_filter.mpr ⟨hxm, decide_eq_true rfl⟩)
    · have h := maskOf_singleton x.lane (hx.bound x hxm)
      simpa [maskOf] using h

/-! ### Links that serve (R82, R94) -/

/-- Every link is out of RETRAIN, with nothing waiting and at most k requests. -/
def LinksOpen (s : State) (k : Nat) : Prop :=
  ∀ n, (s.link n).st ≠ .retrain ∧ (s.link n).waiting = [] ∧ (s.link n).queue.length ≤ k

theorem LinksOpen.of_stand {s u : State} {k : Nat} (h : LinksOpen s k) (hu : LinksStand s u) : LinksOpen u k := fun n => by
  obtain ⟨hst, hwait, hlen⟩ := hu n
  rw [hst, hwait, hlen]
  exact h n

theorem LinksOpen.takes {s : State} {k : Nat} (h : LinksOpen s k) (hk : k < 192) (n : Nat) : (s.link n).takes = true := by
  obtain ⟨-, hwait, hlen⟩ := h n
  rw [Link.takes, hwait]
  simp only [List.isEmpty_nil, Bool.true_and, decide_eq_true_eq]
  omega

theorem Link.act_calm {l : Link} (h : l.st ≠ .retrain) : l.act.st ≠ .retrain ∧ l.act.waiting = l.waiting ∧ l.act.queue = l.queue := by
  unfold Link.act
  split
  · split
    · exact ⟨by simp, rfl, rfl⟩
    split
    · exact ⟨by simp, rfl, rfl⟩
    · exact ⟨h, rfl, rfl⟩
  · split
    · exact ⟨by simp, rfl, rfl⟩
    split
    · exact ⟨by simp, rfl, rfl⟩
    · exact ⟨h, rfl, rfl⟩
  · exact ⟨h, rfl, rfl⟩

theorem Link.push_calm {l : Link} (r : Req) (h : l.st ≠ .retrain) :
    (l.push r).st ≠ .retrain ∧ (l.push r).waiting = l.waiting ∧ (l.push r).queue.length = l.queue.length + 1 := by
  unfold Link.push Link.crossing
  split
  · obtain ⟨hst, hwait, hqueue⟩ := Link.act_calm (l := { ({ l with queue := l.queue ++ [r] } : Link) with wtgt := l.wwake }) h
    exact ⟨hst, hwait, by rw [hqueue, List.length_append]; rfl⟩
  · exact ⟨h, rfl, by rw [List.length_append]; rfl⟩

theorem link_modLink (s : State) (n m : Nat) (f : Link → Link) : (s.modLink n f).link m = if m = n then f (s.link n) else s.link m :=
  Tab.getD_put ..

theorem LinksOpen.enter {s : State} {k : Nat} {r : Req} (h : LinksOpen s k) (hr : r.eff = .none) : LinksOpen (s.enter r) (k + 1) := by
  intro n
  have heffect : s.effect r = s := by rw [State.effect, hr]
  obtain ⟨hst, hwait, hlen⟩ := h n
  rw [State.enter, heffect, link_modLink]
  split
  · next hn =>
    rw [← hn]
    have hspoil : ∀ l : Link, l.st ≠ .retrain ∧ l.waiting = [] ∧ l.queue.length ≤ k →
        (l.push (s.entered r)).st ≠ .retrain ∧ (l.push (s.entered r)).waiting = [] ∧ (l.push (s.entered r)).queue.length ≤ k + 1 := by
      intro l ⟨hl, hw, hq⟩
      obtain ⟨hst', hwait', hlen'⟩ := Link.push_calm (s.entered r) hl
      exact ⟨hst', hwait'.trans hw, by omega⟩
    refine hspoil _ ?_
    split
    · split
      · exact ⟨hst, hwait, hlen⟩
      · exact ⟨hst, hwait, by simpa [Link.spoil] using hlen⟩
    · exact ⟨hst, hwait, hlen⟩
  · exact ⟨hst, hwait, by omega⟩

end Sys2Proof.Machine

namespace Sys2Proof.Machine

/-! ### Lanes performed as their requests enter (R82, R121) -/

/-- What is known of a lane access on the way: the lanes performed, memory, the cores and the results so far. -/
abbrev LaneFact := List HeldLane → Mem → Tab Core → List RegWrite → Prop

/-- What may change in an access before it is accepted. -/
def Access.Same (a0 a : Access) : Prop := a = { a0 with xs := a.xs, writes := a.writes, waits := a.waits, stamps := a.stamps }

/-- Lanes that are performed keep a fact: ys after done, where some request serves each of done and not yet ys. -/
def ActsBy (s1 : State) (a0 : Access) (n : Nat) (all : List HeldLane) (rs : List (Req × Mask)) (P : LaneFact) : Prop :=
  ∀ (s : State) (a : Access) (done ys : List HeldLane), Passes s1 s → a0.Same a → ys.Sublist all →
    (atomicOrder a0.i = none → (s.raceLanes a0.off false n (ys.map HeldLane.acc)).2.2.1 = []) →
    (∀ x ∈ done, ∀ y ∈ ys, ∃ r ∈ rs, bitB r.2 x.lane = true ∧ bitB r.2 y.lane = false) →
    P done s.mem s.cores a.writes →
    ∃ u ws sts, s.act a ys = (u, { a with xs := a.xs.filter (fun x => !ys.contains x), writes := ws, stamps := sts })
      ∧ Passes s u ∧ LinksStand s u ∧ P (done ++ ys) u.mem u.cores ws

/-- A lane access with some of its requests in their queues. -/
structure Carried (s1 : State) (a0 : Access) (all : List HeldLane) (P : LaneFact) (pre : List (Req × Mask)) (done : List HeldLane)
    (z : State × Access) : Prop where
  passes : Passes s1 z.1
  links : LinksOpen z.1 (64 + pre.length)
  same : a0.Same z.2
  left : z.2.xs = all.filter (fun x => pre.all (fun r => !bitB r.2 x.lane))
  covered : ∀ x ∈ done, x ∈ all ∧ ∃ r ∈ pre, bitB r.2 x.lane = true
  whole : ∀ x ∈ all, (∃ r ∈ pre, bitB r.2 x.lane = true) → x ∈ done
  waits : z.2.waits.isEmpty = (pre.isEmpty || isStore a0.i)
  holds : P done z.1.mem z.1.cores z.2.writes

theorem filter_not_contains {L : List HeldLane} (p : HeldLane → Bool) :
    L.filter (fun x => !(L.filter p).contains x) = L.filter (fun x => !p x) := by
  refine List.filter_congr (fun x hx => ?_)
  congr 1
  rw [Bool.eq_iff_iff, List.contains_iff_mem, List.mem_filter]
  exact ⟨And.right, fun h => ⟨hx, h⟩⟩

theorem Carried.offer {s1 : State} {a0 : Access} {n : Nat} {all : List HeldLane} {P : LaneFact} {rs pre : List (Req × Mask)}
    {done : List HeldLane} {z : State × Access} {r : Req × Mask} (hacts : ActsBy s1 a0 n all rs P)
    (h0 : a0.kill = false ∧ a0.outside = [] ∧ a0.race = none) (hd : ∀ x ∈ all, isDrawer x.pa = true) (hpre : pre ⊆ rs) (hr : r.1.eff = .none)
    (hroom : pre.length < 128) (h : Carried s1 a0 all P pre done z) :
    Carried s1 a0 all P (pre ++ [r]) (done ++ z.2.xs.filter (fun x => bitB r.2 x.lane)) (z.1.offer z.2 r.1 r.2) := by
  obtain ⟨s, a⟩ := z
  obtain ⟨hkill, hout, hrace⟩ := h0
  have hsame : a0.Same a := h.same
  set ys := a.xs.filter (fun x => bitB r.2 x.lane) with hys
  have hxs : a.xs = all.filter (fun x => pre.all (fun r => !bitB r.2 x.lane)) := h.left
  have hysall : ys.Sublist all := List.filter_sublist.trans (hxs ▸ List.filter_sublist)
  have hakill : a.kill = false := by rw [hsame, hkill]
  have haout : a.outside = [] := by rw [hsame, hout]
  have hai : a.i = a0.i := by rw [hsame]
  have hnamed := (besideWarps_name s r.1).passes h.passes.path
  have hmem : ∀ x ∈ ys, pre.all (fun r => !bitB r.2 x.lane) = true ∧ bitB r.2 x.lane = true := by
    intro x hx
    obtain ⟨hx1, hx2⟩ := List.mem_filter.mp hx
    rw [hxs] at hx1
    exact ⟨(List.mem_filter.mp hx1).2, hx2⟩
  obtain ⟨u, ws, sts, hact, hu, hlinks, hP⟩ := hacts (s.name r.1).1 a done ys (h.passes.trans hnamed) hsame hysall
    (fun _ => by
      rw [raceLanes_drawer]
      intro x hx
      obtain ⟨y, hy, rfl⟩ := List.mem_map.mp hx
      exact hd y (hysall.subset hy))
    (fun x hx y hy => by
      obtain ⟨-, q, hq, hqx⟩ := h.covered x hx
      refine ⟨q, hpre hq, hqx, ?_⟩
      simpa using List.all_eq_true.mp (hmem y hy).1 q hq)
    h.holds
  have hopen : LinksOpen u (64 + pre.length) := (h.links.of_stand (.of_links rfl : LinksStand s (s.name r.1).1)).of_stand hlinks
  have hentered := (besideWarps_enter (s := u) (r := { r.1 with id := s.names }) hr).passes hu.path
  have heffect : u.effect { r.1 with id := s.names } = u := by rw [State.effect, hr]
  have hoffer : s.offer a r.1 r.2 = (u.enter { r.1 with id := s.names }, { a with
      xs := a.xs.filter (fun x => !ys.contains x), writes := ws, stamps := sts
      waits := if isStore a.i then a.waits else a.waits ++ [(linkOf r.1.addr, s.names, r.2)] }) := by
    rw [offer_takes hakill (h.links.takes (by omega) _), enterPart_alive (by rw [← hys, hact]; exact hakill), ← hys, hact]
    simp only [haout, List.filter_nil]
  rw [hoffer]
  refine ⟨h.passes.trans (hnamed.trans (hu.trans hentered)), ?_, ?_, ?_, ?_, ?_, ?_, ?_⟩
  · rw [List.length_append]
    exact hopen.enter hr
  · unfold Access.Same at hsame ⊢
    rw [hsame]
  · show a.xs.filter (fun x => !ys.contains x) = _
    rw [hys, filter_not_contains, hxs, List.filter_filter]
    refine List.filter_congr (fun x _ => ?_)
    rw [List.all_append, Bool.and_comm]
    simp
  · intro x hx
    rcases List.mem_append.mp hx with hx | hx
    · obtain ⟨hall, q, hq, hqx⟩ := h.covered x hx
      exact ⟨hall, q, List.mem_append_left _ hq, hqx⟩
    · exact ⟨hysall.subset hx, r, List.mem_append_right _ (List.mem_singleton_self r), (hmem x hx).2⟩
  · intro x hx ⟨q, hq, hqx⟩
    rw [List.mem_append]
    by_cases hold : ∃ q ∈ pre, bitB q.2 x.lane = true
    · exact .inl (h.whole x hx hold)
    · right
      have hqr : q = r := by
        rcases List.mem_append.mp hq with hq | hq
        · exact absurd ⟨q, hq, hqx⟩ hold
        · exact List.mem_singleton.mp hq
      rw [hys, List.mem_filter, hxs, List.mem_filter, List.all_eq_true]
      refine ⟨⟨hx, fun q hq => ?_⟩, hqr ▸ hqx⟩
      by_contra hbit
      exact hold ⟨q, hq, by simpa using hbit⟩
  · have hw : a.waits.isEmpty = (pre.isEmpty || isStore a0.i) := h.waits
    show (if isStore a.i then a.waits else a.waits ++ [(linkOf r.1.addr, s.names, r.2)]).isEmpty = _
    rw [hai]
    cases hst : isStore a0.i with
    | true => rw [if_pos rfl, hw, hst, Bool.or_true, Bool.or_true]
    | false =>
      rw [if_neg Bool.false_ne_true, Bool.or_false, List.isEmpty_eq_false_iff.mpr (by simp), List.isEmpty_eq_false_iff.mpr (by simp)]
  · have hPu : P (done ++ ys) u.mem u.cores ws := hP
    rw [State.enter, heffect]
    exact hPu

theorem Carried.offers {s1 : State} {a0 : Access} {n : Nat} {all : List HeldLane} {P : LaneFact} {rs : List (Req × Mask)}
    (hacts : ActsBy s1 a0 n all rs P) (h0 : a0.kill = false ∧ a0.outside = [] ∧ a0.race = none) (hd : ∀ x ∈ all, isDrawer x.pa = true)
    (hquiet : ∀ r ∈ rs, r.1.eff = .none) (hfew : rs.length ≤ 128) :
    ∀ (rest pre : List (Req × Mask)) (done : List HeldLane) (z : State × Access), pre ++ rest = rs → Carried s1 a0 all P pre done z →
      ∃ done', Carried s1 a0 all P rs done' (rest.foldl (fun x r => x.1.offer x.2 r.1 r.2) z)
  | [], pre, done, z, hrs, h => by
    rw [List.append_nil] at hrs
    exact ⟨done, hrs ▸ h⟩
  | r :: rest, pre, done, z, hrs, h => by
    have hlen : pre.length + rest.length + 1 = rs.length := by rw [← hrs, List.length_append, List.length_cons]; omega
    have hmem : r ∈ rs := by rw [← hrs]; simp
    refine Carried.offers hacts h0 hd hquiet hfew rest (pre ++ [r]) _ _ (by simpa using hrs)
      (h.offer hacts h0 hd (by rw [← hrs]; exact List.subset_append_left _ _) (hquiet r hmem) (by omega))

end Sys2Proof.Machine

namespace Sys2Proof.Machine

/-! ### A lane access as it is taken (R81, R82, R121) -/

theorem bitB_or (a b : Mask) (n : Nat) : bitB (a ||| b) n = (bitB a n || bitB b n) := BitVec.getLsbD_or

theorem bitB_foldl_or {rs : List (Req × Mask)} {l : Nat} : ∀ m : Mask,
    bitB (rs.foldl (fun m r => m ||| r.2) m) l = (bitB m l || rs.any (fun r => bitB r.2 l)) := by
  induction rs with
  | nil => exact fun m => by simp
  | cons r rs ih => exact fun m => by rw [List.foldl_cons, ih, bitB_or, List.any_cons, Bool.or_assoc]

theorem DistinctLanes.length {xs : List HeldLane} (h : DistinctLanes xs) : xs.length ≤ 128 := by
  have hsub : xs.map (·.lane) ⊆ List.range 128 := by
    intro l hl
    obtain ⟨x, hx, rfl⟩ := List.mem_map.mp hl
    exact List.mem_range.mpr (h.bound x hx)
  simpa using (h.nodup.subperm hsub).length_le

/-- Where the lanes of an access find their bytes: all in memory, or some and all in the drawer, whose links serve. -/
def LanesServed (s : State) (all : List HeldLane) : Prop :=
  (∀ x ∈ all, isDrawer x.pa = false)
    ∨ (all ≠ [] ∧ (∀ x ∈ all, isDrawer x.pa = true) ∧ (∀ x ∈ all, s.l1Line (coreOf s.cur.1) x.pa = none) ∧ LinksOpen s 64)

/-- A lane access whose last part has been performed. -/
structure Taken (s : State) (a0 : Access) (all : List HeldLane) (P : LaneFact) (t : State) (a : Access) (near : Bool) : Prop where
  passes : Passes s t
  same : a0.Same a
  holds : ∃ done, P done t.mem t.cores a.writes ∧ ∀ x, x ∈ done ↔ x ∈ all
  waits : a.waits.isEmpty = (near || isStore a0.i)
  links : near = false → ∀ n, (t.link n).st ≠ .retrain

/-- The forms of lanes that access memory. -/
def laneMem : Instr → Prop
  | .vld _ | .vst _ | .vamo .. => True
  | _ => False

theorem serving_accessReqs {s : State} {i : Instr} {all : List HeldLane} (hi : laneMem i) (hx : DistinctLanes all)
    (hd : ∀ x ∈ all, isDrawer x.pa = true) (hmiss : ∀ x ∈ all, s.l1Line (coreOf s.cur.1) x.pa = none) : Serving (s.accessReqs i all) all := by
  have hall : ∀ core, core = (if s.inPu then none else some (coreOf s.cur.1)) → s.misses core all = all.map (fun x => (x.lane, x.pa)) := by
    intro core hcore
    refine misses_all hd (fun c hc x hxm => ?_)
    rw [hcore] at hc
    split at hc
    · cases hc
    · cases hc; exact hmiss x hxm
  cases i with
  | vld f =>
    show Serving (loadReqs _ _ (s.misses _ all)) all
    rw [hall _ rfl]
    exact serving_loadReqs hx
  | vst f => exact (serving_storeReqs hx hd).1
  | vamo sc f => exact serving_atomicReqs hx hd
  | _ => exact hi.elim

theorem lanes_taken {s : State} {i : Instr} {k n : Nat} {dests : List Dest} {all : List HeldLane} {P : LaneFact} {a0 : Access}
    (hi : laneMem i) (hp : s.path?.isSome = true) (hx : DistinctLanes all) (ha0 : (s.beginAccess true k dests i all).2 = a0)
    (hserved : LanesServed s all)
    (hrace : atomicOrder i = none → (s.raceLanes s.laneOff false n (all.map HeldLane.acc)).2.2.1 = [])
    (hacts : ActsBy (s.beginAccess true k dests i all).1 a0 n all (s.accessReqs i all) P) (hP : P [] s.mem s.cores []) :
    ∃ t a near, s.take true k dests i all = t.keepAccess a ∧ Taken s a0 all P t a near ∧ near = all.all (fun x => !isDrawer x.pa) := by
  have hbegin := records_beginAccess true k dests i all hp
  have hcores := beginAccess_cores s true k dests i all
  obtain ⟨rel, hacc⟩ := beginAccess_access s true k dests i all
  set b := s.beginAccess true k dests i all with hb
  have haccess : a0 = { i := i, lane := true, k := k, dests := dests, xs := all, off := s.laneOff, rel := rel } := by
    rw [← ha0, hacc]; rfl
  have hstart : P [] b.1.mem b.1.cores b.2.writes := by rw [hbegin.mem, hcores, ha0, haccess]; exact hP
  have hsame0 : a0.Same b.2 := by rw [ha0]; rfl
  rcases hserved with hnear | ⟨hsome, hd, hline, hopen⟩
  · have hreqs : s.accessReqs i all = [] := accessReqs_near hnear
    have hbrace : atomicOrder a0.i = none → (b.1.raceLanes a0.off false n (all.map HeldLane.acc)).2.2.1 = [] := by
      intro hplain
      rw [haccess] at hplain ⊢
      have hplain' : atomicOrder i = none := hplain
      have hbs : b.1 = s.spendOnce (!all.isEmpty) := by
        rw [hb]
        unfold State.beginAccess
        simp only [hplain', if_true]
      rw [hbs, raceLanes_spendOnce _ _ _ _ _ hp]
      exact hrace hplain'
    obtain ⟨u, ws, sts, hact, hu, -, hPu⟩ := hacts b.1 b.2 [] all (Passes.refl hbegin.passes.path) hsame0 (List.Sublist.refl all) hbrace
      (fun x hx => absurd hx (by simp)) hstart
    rw [List.nil_append] at hPu
    refine ⟨u, { b.2 with xs := b.2.xs.filter (fun x => !all.contains x), writes := ws, stamps := sts }, true, ?_, ⟨hbegin.passes.trans hu, ?_, ⟨all, hPu, fun _ => Iff.rfl⟩, ?_, fun h => nomatch h⟩, ?_⟩
    · have hnone : all.filter (fun x => !bitB (0 : Mask) x.lane) = all := by simp [bitB]
      unfold State.take
      simp only [hreqs, List.foldl_nil, hnone, ← hb, hact]
    · unfold Access.Same at hsame0 ⊢
      rw [hsame0]
    · rw [ha0, haccess]; rfl
    · exact (List.all_eq_true.mpr (fun x hx => by rw [hnear x hx]; rfl)).symm
  · have hserving := serving_accessReqs (s := s) hi hx hd hline
    set rs := s.accessReqs i all with hrs
    obtain ⟨u, ws, sts, hact, hu, hlinks, hPu⟩ := hacts b.1 b.2 [] [] (Passes.refl hbegin.passes.path) hsame0 (List.nil_sublist all)
      (fun _ => rfl) (fun x hx => absurd hx (by simp)) hstart
    have hfilter : b.2.xs.filter (fun x => !(([] : List HeldLane).contains x)) = all := by rw [ha0, haccess]; simp
    rw [hfilter] at hact
    have hcarried : Carried b.1 a0 all P [] [] (b.1.act b.2 []) := by
      rw [hact]
      refine ⟨hu, ?_, ?_, ?_, fun x hx => absurd hx (by simp), fun x _ ⟨r, hr, _⟩ => absurd hr (by simp), ?_, hPu⟩
      · exact (hopen.of_stand hbegin.links).of_stand hlinks
      · unfold Access.Same at hsame0 ⊢
        rw [hsame0]
      · simp
      · rw [ha0, haccess]; rfl
    have hfew : rs.length ≤ 128 := hserving.few.trans hx.length
    obtain ⟨done, hdone⟩ := Carried.offers hacts (by rw [haccess]; exact ⟨rfl, rfl, rfl⟩) hd hserving.quiet hfew rs [] [] _ rfl hcarried
    set z := rs.foldl (fun x r => x.1.offer x.2 r.1 r.2) (b.1.act b.2 []) with hz
    refine ⟨z.1, z.2, false, ?_, ⟨hbegin.passes.trans hdone.passes, hdone.same, ⟨done, hdone.holds, fun x => ?_⟩, ?_, fun _ n => (hdone.links n).1⟩, ?_⟩
    · have hnone : all.filter (fun x => !bitB (rs.foldl (fun m r => m ||| r.2) 0) x.lane) = [] := by
        rw [List.filter_eq_nil_iff]
        intro x hxm
        obtain ⟨r, hr, hbit⟩ := hserving.each x hxm
        rw [bitB_foldl_or, List.any_eq_true.mpr ⟨r, hr, hbit⟩]
        simp
      unfold State.take
      simp only [← hrs, hnone, ← hb, ← hz]
    · exact ⟨fun h => (hdone.covered x h).1, fun h => hdone.whole x h (hserving.each x h)⟩
    · have hne : rs.isEmpty = false := by
        obtain ⟨x, hxm⟩ := List.exists_mem_of_ne_nil _ hsome
        obtain ⟨r, hr, -⟩ := hserving.each x hxm
        exact List.isEmpty_eq_false_iff.mpr (List.ne_nil_of_mem hr)
      rw [hdone.waits, hne]
    · obtain ⟨x, hxm⟩ := List.exists_mem_of_ne_nil _ hsome
      exact (List.all_eq_false.mpr ⟨x, hxm, by simp [hd x hxm]⟩).symm

end Sys2Proof.Machine

namespace Sys2Proof.Machine

/-! ### A memory word whose lanes all pass (R22, R94, R140) -/

/-- The lanes that pass, with the bytes they carry. -/
def heldOf (data : Nat → List Byte) (xs : List LaneAcc) : List HeldLane :=
  xs.map (fun x => { lane := x.lane, ea := x.ea, pa := x.pa, data := data x.lane })

theorem heldOf_acc (data : Nat → List Byte) (xs : List LaneAcc) : (heldOf data xs).map HeldLane.acc = xs := by
  rw [heldOf, List.map_map]
  exact List.map_id'' (fun _ => rfl) xs

theorem mem_heldOf {data : Nat → List Byte} {xs : List LaneAcc} {y : HeldLane} :
    y ∈ heldOf data xs ↔ y.acc ∈ xs ∧ y.data = data y.lane := by
  rw [heldOf, List.mem_map]
  constructor
  · rintro ⟨x, hx, rfl⟩
    exact ⟨hx, rfl⟩
  · rintro ⟨hx, hdata⟩
    refine ⟨y.acc, hx, ?_⟩
    rw [show y.acc.lane = y.lane from rfl, ← hdata]
    rfl

/-- Every active lane of a memory word passes the tests, and finds its bytes. -/
structure LanesFound (s : State) (f : LaneWord) (n : Nat) (want : Want) (s1 : State) (xs : List LaneAcc) : Prop where
  tests : s.xlateLanes s.agent n want (s.laneEas f) = (s1, xs, [])
  watch : ∀ x ∈ xs, watchCode s1.cctx s1.cteam false (want == .read) (!(want == .read)) x.ea.toNat n = none
  drains : ∀ x ∈ xs, ∀ o ∈ (s1.core (coreOf s1.cur.1)).ops, ∀ y ∈ o.parts, y.wid = s1.cur.1 → y.opc = 0x383 → bitB y.word.md 1 = true →
    x.pa + n ≤ y.amax ∨ y.amax + 4 ≤ x.pa
  served : ∀ data, LanesServed s1 (heldOf data xs)

theorem LanesFound.pass {s s1 : State} {f : LaneWord} {n : Nat} {want : Want} {xs : List LaneAcc} (h : LanesFound s f n want s1 xs) :
    LanesPass s f n s1 xs := LanesPass.of_tests h.tests

theorem LanesFound.of_reach {s s1 : State} {f : LaneWord} {n : Nat} {want : Want} {xs : List LaneAcc}
    (h : LanesReach s f n want (want == .read) (!(want == .read)) s1 xs) : LanesFound s f n want s1 xs := by
  have hcur := (LanesPass.of_tests h.tests).beside.cur
  exact ⟨h.tests, h.watch, by rw [hcur]; exact h.drains, fun _ => .inl (fun _ hy => h.place _ (mem_heldOf.mp hy).1)⟩

theorem LanesFound.of_drawer {s s1 : State} {f : LaneWord} {n : Nat} {want : Want} {xs : List LaneAcc}
    (h : DrawerReach s f n want (want == .read) (!(want == .read)) s1 xs) : LanesFound s f n want s1 xs := by
  have hcur := (LanesPass.of_tests h.tests).beside.cur
  refine ⟨h.tests, h.watch, by rw [hcur]; exact h.drains, fun data => .inr ⟨?_, fun _ hy => h.place _ (mem_heldOf.mp hy).1, ?_, h.links⟩⟩
  · simpa [heldOf] using h.some_
  · rw [hcur]; exact fun _ hy => h.lines _ (mem_heldOf.mp hy).1

theorem LanesPass.distinct {s s1 : State} {f : LaneWord} {n : Nat} {xs : List LaneAcc} (h : LanesPass s f n s1 xs) (data : Nat → List Byte) :
    DistinctLanes (heldOf data xs) := by
  obtain ⟨hasc, hbound⟩ := h.ascending
  refine ⟨fun y hy => hbound _ (mem_heldOf.mp hy).1, ?_⟩
  have hmap : (heldOf data xs).map (·.lane) = xs.map (·.lane) := by rw [heldOf, List.map_map]; rfl
  rw [hmap]
  exact hasc.imp Nat.ne_of_lt

theorem stalledMask_calm {s : State} {rs : List (Req × Mask)} (h : rs = [] ∨ ∀ n, (s.link n).st ≠ .retrain) : s.stalledMask rs = 0 := by
  rcases h with rfl | h
  · rfl
  · unfold State.stalledMask
    simp [h]

/-- Where every lane passes and is served, a memory word takes its access on all of them. -/
theorem laneMemory_found {s s1 : State} {f : LaneWord} {want : Want} {xs : List LaneAcc} {i : Instr} {dests : List Dest}
    {data : Warp → Nat → List Byte} (h : LanesFound s f (typeBytes f.tyN) want s1 xs) :
    s.laneMemory i f want dests data = s1.take true f.la.toNat dests i (heldOf (data s.cw) xs) := by
  have hglobal : s.globalLanes f (typeBytes f.tyN) want (want == .read) = (s1, xs, [badSplit s1 [], watchSplit s1 []]) := by
    have hhits : xs.filterMap (fun x => (watchCode s1.cctx s1.cteam false (want == .read) (!(want == .read)) x.ea.toNat
        (typeBytes f.tyN)).map (fun c => (x.lane, x.ea, c))) = [] := by
      rw [List.filterMap_eq_nil_iff]
      intro x hx
      rw [h.watch x hx]
      rfl
    unfold State.globalLanes
    simp only [h.tests, hhits, List.any_nil, Bool.not_false, List.filter_true]
  have hcw : s1.cw = s.cw := h.pass.beside.cw
  have hclash : s1.amaxClash (heldOf (data s.cw) xs) (typeBytes f.tyN) = false := by
    rw [← Bool.not_eq_true]
    intro hclash
    unfold State.amaxClash at hclash
    simp only [Bool.and_eq_true, beq_iff_eq, List.any_eq_true, decide_eq_true_eq] at hclash
    obtain ⟨o, ho, y, hy, ⟨⟨hwid, hopc⟩, hbit⟩, x, hx, hlo, hhi⟩ := hclash
    have hapart := h.drains x.acc (mem_heldOf.mp hx).1 o ho y hy hwid hopc hbit
    simp only [HeldLane.acc] at hapart
    omega
  have hcalm : s1.stalledMask (s1.accessReqs i (heldOf (data s.cw) xs)) = 0 := by
    refine stalledMask_calm ?_
    rcases h.served (data s.cw) with hnear | ⟨-, -, -, hopen⟩
    · exact .inl (accessReqs_near hnear)
    · exact .inr (fun n => (hopen n).1)
  have hall : (heldOf (data s.cw) xs).filter (fun x => !bitB (0 : Mask) x.lane) = heldOf (data s.cw) xs := by simp [bitB]
  unfold State.laneMemory
  simp only [hglobal, hcw]
  rw [show xs.map (fun x => ({ lane := x.lane, ea := x.ea, pa := x.pa, data := data s.cw x.lane } : HeldLane)) = heldOf (data s.cw) xs from rfl,
    if_neg (by rw [hclash]; exact Bool.false_ne_true), hcalm, hall]
  refine State.splitGo_none _ _ _ (fun g hg => ?_)
  rcases List.mem_append.mp hg with hg | hg
  · rcases List.mem_pair.mp hg with rfl | rfl
    · rfl
    · rfl
  · rw [List.mem_singleton.mp hg]
    rfl

end Sys2Proof.Machine

namespace Sys2Proof.Machine

/-! ### Results of lanes (R225) -/

/-- Results of n registers from D, each of a lane with its value and its mark of poison. -/
def markedWrites (d : BitVec 8) (n : Nat) (vs : List (Nat × Nat × Bool)) : List RegWrite :=
  (vs.map (fun x => (List.range n).map (fun j => RegWrite.v (d.toNat + j) x.1 (BitVec.ofNat 32 (x.2.1 >>> (32 * j))) x.2.2))).flatten

theorem laneWrites_eq (d : BitVec 8) (n : Nat) (poison : Nat → Bool) (vs : List (Nat × Nat)) :
    laneWrites d n poison vs = markedWrites d n (vs.map (fun x => (x.1, x.2, poison x.1))) := by
  rw [laneWrites, markedWrites, List.map_map]
  rfl

theorem markedWrites_append (d : BitVec 8) (n : Nat) (vs us : List (Nat × Nat × Bool)) :
    markedWrites d n vs ++ markedWrites d n us = markedWrites d n (vs ++ us) := by
  rw [markedWrites, markedWrites, markedWrites, List.map_append, List.flatten_append]

/-- Results of distinct lanes: each lane's registers read its value, and every other register is as it was. -/
structure LanesRead (w u : Warp) (d : BitVec 8) (n : Nat) (vs : List (Nat × Nat × Bool)) : Prop where
  same : SameButLanes w u
  value : ∀ x ∈ vs, ∀ j, j < n → u.vReg (d.toNat + j) x.1 = BitVec.ofNat 32 (x.2.1 >>> (32 * j))
  frame : ∀ r l, l < 128 → ¬(l ∈ vs.map (·.1) ∧ d.toNat ≤ r ∧ r < d.toNat + n) → u.vReg r l = w.vReg r l

theorem SameButLanes.trans {w u v : Warp} (h1 : SameButLanes w u) (h2 : SameButLanes u v) : SameButLanes w v := by
  unfold SameButLanes at *
  rw [h2, h1]

theorem applyAll_markedWrites (k : Nat) (d : BitVec 8) (n : Nat) : ∀ (vs : List (Nat × Nat × Bool)) (w : Warp),
    (∀ x ∈ vs, x.1 < 128) → (vs.map (·.1)).Nodup → LanesRead w (w.applyAll k (markedWrites d n vs)) d n vs
  | [], w, _, _ => ⟨SameButLanes.refl w, fun x hx => absurd hx (by simp), fun _ _ _ _ => rfl⟩
  | v :: vs, w, hbound, hnodup => by
    obtain ⟨hv, hvs⟩ := List.forall_mem_cons.mp hbound
    rw [List.map_cons, List.nodup_cons] at hnodup
    have hsplit : markedWrites d n (v :: vs)
        = (List.range n).map (fun j => RegWrite.v (d.toNat + j) v.1 (BitVec.ofNat 32 (v.2.1 >>> (32 * j))) v.2.2) ++ markedWrites d n vs := by
      rw [markedWrites, List.map_cons, List.flatten_cons]
      rfl
    obtain ⟨hsame, hregs⟩ := Warp.applyAll_regs w k d.toNat v.1 v.2.2 v.2.1 hv n
    rw [hsplit, Warp.applyAll_append]
    generalize w.applyAll k ((List.range n).map _) = u at hsame hregs ⊢
    have ih := applyAll_markedWrites k d n vs u hvs hnodup.2
    refine ⟨hsame.trans ih.same, ?_, fun r l hl hnot => ?_⟩
    · intro x hx j hj
      rcases List.mem_cons.mp hx with rfl | hx
      · rw [ih.frame _ _ hv (fun h => hnodup.1 h.1), hregs _ _ hv, if_pos ⟨rfl, by omega, by omega⟩, Nat.add_sub_cancel_left]
      · exact ih.value x hx j hj
    · rw [List.map_cons, List.mem_cons] at hnot
      rw [ih.frame r l hl (fun h => hnot ⟨.inr h.1, h.2⟩), hregs r l hl, if_neg (fun h => hnot ⟨.inl h.1, h.2⟩)]

/-- The lanes of a word keep their other registers. -/
theorem LanesRead.frame_word {s : State} {f : LaneWord} {n : Nat} {w u : Warp} {vs : List (Nat × Nat × Bool)}
    (h : LanesRead w u f.d n vs) (hlanes : ∀ l, l ∈ vs.map (·.1) ↔ l ∈ s.actLanes f) {r l : Nat} (hl : l < 128)
    (hw : writesLane s f n r l = false) : u.vReg r l = w.vReg r l := by
  refine h.frame r l hl (fun ⟨hmem, hr⟩ => ?_)
  have hact := (mem_actLanes.mp ((hlanes l).mp hmem)).2
  simp [writesLane, hact, hr] at hw

/-! ### An accepted lane access (R45, R82) -/

/-- A lane access whose results nothing delays completes with them as its effect. -/
theorem laneAccess_visible {i : Instr} {s u : State} {a : Access} (he : exec i s = .next (u.keepAccess a)) (hq : s.quiet = true)
    (hr : laneReady i s = true) (hu : Passes s u) (hkill : a.kill = false) (hout : a.outside = []) (hlane : a.lane = true) (hk : a.k = 0)
    (hwaits : a.waits = []) (hrace : a.race = none) (hws : ∀ w k, SameButLanes w (w.applyAll k a.writes)) :
    ∃ v, LaneEffect i s v ∧ Kept s v ∧ SameScalars s v ∧ v.mem = u.mem ∧ ∃ w : Warp, w.v = s.cw.v ∧ v.cw = w.applyAll s.cur.2 a.writes := by
  have hend := records_ended a hu.path
  have hv := hu.trans hend.passes
  set v := u.ended a with hvdef
  set g : Warp → Warp := fun w => w.applyAll v.cur.2 a.writes with hg
  obtain ⟨hkept, hp, hcp⟩ := Kept.of_modW (f := g) (g := id) hv.path (fun k => by rw [(hws v.cw _).slot k, Option.map_id]; rfl)
    (by have h := hws v.cw v.cur.2; unfold SameButLanes at h; rw [hg]; dsimp only; rw [h]) rfl rfl
  have hall := hv.kept.trans hkept
  have hcw := State.cw_modW v g hv.path
  obtain ⟨r, q, hqueue, -⟩ := laneReady_run hr
  have hquiet : (v.modW g).quiet = true := by
    rw [State.quiet, hall.path]
    exact hq
  have hrun : ∃ r' q', (v.modW g).cp.queue = r' :: q' := by
    have hruns := hall.runs
    rw [hqueue] at hruns
    cases h : (v.modW g).cp.queue with
    | nil => rw [h] at hruns; simp at hruns
    | cons r' q' => exact ⟨r', q', rfl⟩
  obtain ⟨r', q', hrun⟩ := hrun
  obtain ⟨hdone, hs, hvv, hpp, hds, hfp⟩ := (LanesOnly.refl hp).advance hquiet hrun
  refine ⟨v.modW g, ⟨_, ?_, ⟨fun r l _ => Warp.vReg_congr hvv r l, ?_, ?_, hs, hfp, hdone⟩⟩, hall, ?_, ?_, v.cw, hv.lanes, ?_⟩
  · rw [he, keepAccess_accepted hkill hout, hlane, hk, hwaits, hrace, State.result_now]
    rfl
  · intro m c _
    unfold State.predN Warp.pred
    rw [hpp]
  · intro m c _
    unfold State.deadN Warp.predDs
    rw [hds]
  · have hsame := hws v.cw v.cur.2
    unfold SameButLanes at hsame
    exact hv.sameScalars.trans (.of_regs (by rw [hcw, hg]; dsimp only; rw [hsame]) (by rw [hcw, hg]; dsimp only; rw [hsame]) (by rw [hcp]; rfl)
      (by rw [hcp]; rfl))
  · rw [State.modW_mem, hend.mem]
  · rw [hcw, hg, hv.cur]

/-- A lane access with lookahead, or that waits for what it asked, has issued: its results wait in their window. -/
theorem laneAccess_opens {i : Instr} {s u : State} {a : Access} (he : exec i s = .next (u.keepAccess a)) (hq : s.quiet = true)
    (hr : laneReady i s = true) (hst : s.cp.stepping = 0) (hmore : s.run.pos + 1 < s.run.count) (hu : Passes s u) (hkill : a.kill = false)
    (hout : a.outside = []) (hlane : a.lane = true) (hrace : a.race = none)
    (hlater : a.k ≠ 0 ∨ (a.waits ≠ [] ∧ ∀ n, (u.link n).st ≠ .retrain)) :
    ∃ t d, exec i s = .next t ∧ Waits s t d a.k a.waits.isEmpty ∧ d.writes = a.writes ∧ t.mem = u.mem := by
  have hend := records_ended a hu.path
  have hv := hu.trans hend.passes
  set v := u.ended a with hvdef
  set d : Window := { lane := true, left := a.k + 1, dests := a.dests, writes := a.writes, waits := a.waits } with hd
  set x := v.modP (fun p => { p with windows := p.windows ++ [d] }) with hx
  have hvp := hv.path
  have hxcp : x.cp = { v.cp with windows := [d] } := by
    rw [hx, State.cp_modP _ _ hvp, hv.windows, State.quiet_windows hq, List.nil_append]
  have hxcw : x.cw.v = v.cw.v := by rw [hx, State.cw_modP _ _ hvp]
  obtain ⟨r, q, hqueue, -⟩ := laneReady_run hr
  have hr1 : r.pos + 1 < r.count := by simpa only [State.run, hqueue] using hmore
  have hruns := hv.kept.runs
  rw [hqueue] at hruns
  obtain ⟨r', q', hrun, hhead, htail⟩ : ∃ r' q', v.cp.queue = r' :: q'
      ∧ (r'.off, r'.count, r'.pos, r'.s, r'.a) = (r.off, r.count, r.pos, r.s, r.a)
      ∧ q'.map (fun r => (r.off, r.count, r.pos, r.s, r.a)) = q.map (fun r => (r.off, r.count, r.pos, r.s, r.a)) := by
    cases h : v.cp.queue with
    | nil => rw [h] at hruns; simp at hruns
    | cons r' q' =>
      rw [h, List.map_cons, List.map_cons, List.cons.injEq] at hruns
      exact ⟨r', q', rfl, hruns⟩
  simp only [Prod.mk.injEq] at hhead
  obtain ⟨hoff, hcount, hpos, -, -⟩ := hhead
  have hopen : a.k ≠ 0 ∨ d.complete = false ∧ ∀ y ∈ d.waits, (x.link y.1).st ≠ .retrain := by
    refine hlater.imp id (fun ⟨hw, hcalm⟩ => ⟨?_, fun y _ => ?_⟩)
    · rw [hd, Window.complete_of, List.isEmpty_eq_false_iff]; exact hw
    · have hlink : x.link y.1 = v.link y.1 := by rw [hx, State.link, State.modP_links, State.link]
      rw [hlink, (hend.links y.1).1]
      exact hcalm y.1
  obtain ⟨hwin, hq', hvv, hscal, hmem⟩ := State.advanceLane_open (s := x) (r := r') (q := q') (d := d) (k := a.k)
    (State.path?_modP_isSome _ hvp) (by rw [hxcp]; exact hrun) (by omega) (by rw [hxcp]; exact hv.stepping.trans hst) (by rw [hxcp]) rfl rfl hopen
  refine ⟨x.advanceLane, { d with left := a.k }, ?_, ⟨hwin, rfl, rfl, Window.complete_of, ?_, ?_, ?_⟩, rfl, ?_⟩
  · rw [he, keepAccess_accepted hkill hout, hlane, hrace, State.result_later (hlater.imp id And.left)]
    rfl
  · have htail' : q'.map (fun r => (r.off, r.count, r.pos)) = q.map (fun r => (r.off, r.count, r.pos)) := by
      have h := congrArg (List.map (fun y : Nat × Nat × Nat × Cells 64 × Cells 72 => (y.1, y.2.1, y.2.2.1))) htail
      rwa [List.map_map, List.map_map] at h
    rw [hq', hqueue, movedRuns, if_pos hr1, List.map_cons, List.map_cons, htail']
    simp only [hoff, hcount, hpos]
  · intro r l _
    exact Warp.vReg_congr (hvv.trans (hxcw.trans hv.lanes)) r l
  · exact hv.sameScalars.trans ((SameScalars.modP v _ hvp rfl rfl).trans hscal)
  · rw [hmem, hx, State.modP_mem, hend.mem]

end Sys2Proof.Machine

namespace Sys2Proof.Machine

/-- A lane access as it stands accepted: what it left on the way, and what its window holds. -/
structure LaneAccepted (s t : State) (a : Access) (k : Nat) (done : Bool) : Prop where
  passes : Passes s t
  kill : a.kill = false
  outside : a.outside = []
  lane : a.lane = true
  lookahead : a.k = k
  race : a.race = none
  waits : a.waits.isEmpty = done
  links : done = false → ∀ n, (t.link n).st ≠ .retrain

/-- A memory word whose lanes all pass is accepted, and every lane has been performed. -/
theorem laneMemory_accepted {s s1 : State} {i : Instr} {f : LaneWord} {want : Want} {dests : List Dest} {data : Warp → Nat → List Byte}
    {xs : List LaneAcc} {P : LaneFact} (hi : laneMem i) (hp : s.path?.isSome = true) (h : LanesFound s f (typeBytes f.tyN) want s1 xs)
    (hrace : atomicOrder i = none → (s1.raceLanes s1.laneOff false (typeBytes f.tyN) xs).2.2.1 = [])
    (hacts : ∀ (b : State) (a0 : Access), Passes s1 b → b.cores = s1.cores → a0.i = i → a0.race = none →
      ActsBy b a0 (typeBytes f.tyN) (heldOf (data s.cw) xs) (s1.accessReqs i (heldOf (data s.cw) xs)) P)
    (hP : P [] s1.mem s1.cores []) :
    ∃ t a done, s.laneMemory i f want dests data = t.keepAccess a
      ∧ LaneAccepted s t a f.la.toNat (xs.all (fun x => !isDrawer x.pa) || isStore i)
      ∧ P done t.mem t.cores a.writes ∧ ∀ x, x ∈ done ↔ x ∈ heldOf (data s.cw) xs := by
  have hs1 := h.pass.beside.passes hp
  set all := heldOf (data s.cw) xs
  obtain ⟨rel, hacc⟩ := beginAccess_access s1 true f.la.toNat dests i all
  have hbegin := records_beginAccess true f.la.toNat dests i all hs1.path
  have hacts' := hacts (s1.beginAccess true f.la.toNat dests i all).1 (s1.beginAccess true f.la.toNat dests i all).2
    hbegin.passes (beginAccess_cores ..) (by rw [hacc]) (by rw [hacc])
  obtain ⟨t, a, near, htake, htaken, hnear⟩ := lanes_taken hi hs1.path (h.pass.distinct (data s.cw)) rfl (h.served (data s.cw))
    (by rw [heldOf_acc]; exact hrace) hacts' hP
  obtain ⟨done, hdone, hmem⟩ := htaken.holds
  have hsame := htaken.same
  rw [hacc] at hsame
  have hnear' : near = xs.all (fun x => !isDrawer x.pa) := by
    rw [hnear, heldOf, List.all_map]
    rfl
  refine ⟨t, a, done, (laneMemory_found h).trans htake, ⟨hs1.trans htaken.passes, ?_, ?_, ?_, ?_, ?_, ?_, fun hd => htaken.links ?_⟩, hdone, hmem⟩
  · rw [hsame]
  · rw [hsame]
  · rw [hsame]
  · rw [hsame]
  · rw [hsame]
  · rw [htaken.waits, hacc, hnear']
  · rw [hnear']
    exact (Bool.or_eq_false_iff.mp hd).1

theorem LaneAccepted.visible {i : Instr} {s t : State} {a : Access} (hacc : LaneAccepted s t a 0 true)
    (he : exec i s = .next (t.keepAccess a)) (hr : lanesReady i s) (hws : ∀ (w : Warp) (k : Nat), SameButLanes w (w.applyAll k a.writes)) :
    ∃ v, LaneEffect i s v ∧ Kept s v ∧ SameScalars s v ∧ v.mem = t.mem ∧ ∃ w : Warp, w.v = s.cw.v ∧ v.cw = w.applyAll s.cur.2 a.writes :=
  laneAccess_visible he hr.1 hr.2 hacc.passes hacc.kill hacc.outside hacc.lane hacc.lookahead (List.isEmpty_iff.mp hacc.waits) hacc.race hws

theorem LaneAccepted.opens {i : Instr} {s t : State} {a : Access} {k : Nat} {done : Bool} (hacc : LaneAccepted s t a k done)
    (he : exec i s = .next (t.keepAccess a)) (hr : lanesReady i s) (hst : s.cp.stepping = 0) (hmore : s.run.pos + 1 < s.run.count)
    (hlater : k ≠ 0 ∨ done = false) :
    ∃ u d, exec i s = .next u ∧ Waits s u d k done ∧ d.writes = a.writes ∧ u.mem = t.mem := by
  have hlater' : a.k ≠ 0 ∨ (a.waits ≠ [] ∧ ∀ n, (t.link n).st ≠ .retrain) := hlater.imp (hacc.lookahead ▸ ·) (fun h => by
    refine ⟨?_, hacc.links h⟩
    rw [← hacc.waits, List.isEmpty_eq_false_iff] at h
    exact h)
  have h := laneAccess_opens he hr.1 hr.2 hst hmore hacc.passes hacc.kill hacc.outside hacc.lane hacc.race hlater'
  rwa [hacc.lookahead, hacc.waits] at h

/-- Results of lanes read in a warp that holds what another's lanes held. -/
theorem LanesRead.frame_of {s : State} {f : LaneWord} {n : Nat} {w u : Warp} {vs : List (Nat × Nat × Bool)} (h : LanesRead w u f.d n vs)
    (hw : w.v = s.cw.v) (hlanes : ∀ l, l ∈ vs.map (·.1) ↔ l ∈ s.actLanes f) :
    ∀ r l, l < 128 → writesLane s f n r l = false → u.vReg r l = s.cw.vReg r l := fun r l hl hout =>
  (h.frame_word hlanes hl hout).trans (Warp.vReg_congr hw r l)

/-- Lanes performed are those of the word. -/
theorem LanesPass.lanes_iff {s s1 : State} {f : LaneWord} {n : Nat} {xs : List LaneAcc} (h : LanesPass s f n s1 xs)
    {data : Nat → List Byte} {done : List HeldLane} (hdone : ∀ x, x ∈ done ↔ x ∈ heldOf data xs) (l : Nat) :
    l ∈ done.map (·.lane) ↔ l ∈ s.actLanes f := by
  rw [← h.lanes.1, List.mem_map, List.mem_map]
  constructor
  · rintro ⟨y, hy, rfl⟩
    exact ⟨y.acc, (mem_heldOf.mp ((hdone y).mp hy)).1, rfl⟩
  · rintro ⟨x, hx, rfl⟩
    exact ⟨_, (hdone _).mpr (List.mem_map_of_mem hx), rfl⟩

end Sys2Proof.Machine

namespace Sys2Proof.Machine

/-! ### Lane loads: O21 -/

theorem joinHold_none (a : Option RaceHold) : joinHold a none = a := by cases a <;> rfl

/-- Lanes performed later, by other requests, are other lanes. -/
theorem nodup_lanes {rs : List (Req × Mask)} {all done ys : List HeldLane} (hall : DistinctLanes all) (hys : ys.Sublist all)
    (hdone : (done.map (·.lane)).Nodup) (hsep : ∀ x ∈ done, ∀ y ∈ ys, ∃ r ∈ rs, bitB r.2 x.lane = true ∧ bitB r.2 y.lane = false) :
    ((done ++ ys).map (·.lane)).Nodup := by
  rw [List.map_append, List.nodup_append]
  refine ⟨hdone, (hys.map _).nodup hall.nodup, ?_⟩
  intro l hl l' hl' heq
  obtain ⟨x, hx, rfl⟩ := List.mem_map.mp hl
  obtain ⟨y, hy, rfl⟩ := List.mem_map.mp hl'
  obtain ⟨r, -, h1, h2⟩ := hsep x hx y hy
  rw [heq, h2] at h1
  cases h1

/-- What a load of lanes has done: no byte and no line has moved, and each lane has its value. -/
structure LoadFact (m0 : Mem) (cs : Tab Core) (f : LaneWord) (done : List HeldLane) (m : Mem) (cores : Tab Core) (ws : List RegWrite) : Prop where
  bytes : m.bytes = m0.bytes
  lines : cores = cs
  nodup : (done.map (·.lane)).Nodup
  values : ∃ vs, ws = markedWrites f.d (typeRegs f.tyN) vs
    ∧ vs.map (fun v => (v.1, v.2.1)) = done.map (fun y => (y.lane, narrow f.tyN (numAt m0.bytes.get y.pa (typeBytes f.tyN))))

theorem loadFact_nil (m0 : Mem) (cs : Tab Core) (f : LaneWord) : LoadFact m0 cs f [] m0 cs [] :=
  ⟨rfl, rfl, List.nodup_nil, [], rfl, rfl⟩

theorem actsBy_load {b : State} {a0 : Access} {f : LaneWord} {all : List HeldLane} {rs : List (Req × Mask)} {m0 : Mem} (hi : a0.i = .vld f)
    (hall : DistinctLanes all) (hplace : ∀ y ∈ all, isDrawer y.pa = false ∨ b.l1Line (coreOf b.cur.1) y.pa = none) :
    ActsBy b a0 (typeBytes f.tyN) all rs (LoadFact m0 b.cores f) := by
  intro s a done ys hs hsame hys hrace hsep hP
  have hai : a.i = .vld f := by rw [hsame]; exact hi
  have haoff : a.off = a0.off := by rw [hsame]
  have hpass := raceLanes_allPass (hrace (by rw [hi]; rfl))
  have hstamps := stampsOnly_raceLanes a0.off false (typeBytes f.tyN) (ys.map HeldLane.acc) s
  set u := (s.raceLanes a0.off false (typeBytes f.tyN) (ys.map HeldLane.acc)).1 with hu
  have hr : s.raceLanes a0.off false (typeBytes f.tyN) (ys.map HeldLane.acc) = (u, ys.map HeldLane.acc, [], none) := by
    rw [← hpass]
  have hbytes : u.mem.bytes = m0.bytes := by rw [hstamps.mem, ← hP.bytes]
  have hread : ∀ y ∈ ys, u.readPa (some (coreOf s.cur.1)) y.pa (typeBytes f.tyN) = numAt m0.bytes.get y.pa (typeBytes f.tyN) := by
    intro y hy
    rw [readPa_memory]
    · exact congrArg (fun b => numAt (Cells.get b) y.pa (typeBytes f.tyN)) hbytes
    · refine (hplace y (hys.subset hy)).imp id (fun h => ?_)
      rwa [State.l1Line, State.core, hstamps.cores, hP.lines, hs.cur]
  obtain ⟨vs, hws, hvs⟩ := hP.values
  set new := ys.map (fun y => (y.lane, narrow f.tyN (u.readPa (some (coreOf s.cur.1)) y.pa (typeBytes f.tyN)))) with hnew
  obtain ⟨pz, hact⟩ : ∃ pz, s.act a ys = (u, { a with
      xs := a.xs.filter (fun x => !ys.contains x), writes := a.writes ++ laneWrites f.d (typeRegs f.tyN) pz new }) := by
    unfold State.act
    simp only [hai]
    unfold State.actLoad
    simp only [haoff, hr, holdOf, joinHold_none, List.map_map]
    exact ⟨_, rfl⟩
  refine ⟨u, a.writes ++ laneWrites f.d (typeRegs f.tyN) pz new, a.stamps, hact, hstamps.besideWarps.passes hs.path, .of_links hstamps.links,
    hbytes, ?_, nodup_lanes hall hys hP.nodup hsep, vs ++ new.map (fun x => (x.1, x.2, pz x.1)), ?_, ?_⟩
  · rw [hstamps.cores, hP.lines]
  · rw [hws, laneWrites_eq, markedWrites_append]
  · rw [List.map_append, List.map_append, hvs, List.map_map, hnew, List.map_map]
    congr 1
    refine List.map_congr_left (fun y hy => ?_)
    simp only [Function.comp, hread y hy]

/-- What an accepted load of lanes holds. -/
structure LoadedLanes (s s1 t : State) (f : LaneWord) (xs : List LaneAcc) (ws : List RegWrite) (vs : List (Nat × Nat × Bool)) : Prop where
  bytes : t.mem.bytes = s1.mem.bytes
  writes : ws = markedWrites f.d (typeRegs f.tyN) vs
  bound : ∀ v ∈ vs, v.1 < 128
  nodup : (vs.map (·.1)).Nodup
  lanes : ∀ l, l ∈ vs.map (·.1) ↔ l ∈ s.actLanes f
  values : ∀ x ∈ xs, ∃ v ∈ vs, v.1 = x.lane ∧ v.2.1 = narrow f.tyN (numAt s1.byte x.pa (typeBytes f.tyN))

theorem loadedLanes {s s1 t : State} {f : LaneWord} {n : Nat} {xs : List LaneAcc} {cs : Tab Core} {done : List HeldLane} {ws : List RegWrite}
    {data : Nat → List Byte} (hp : LanesPass s f n s1 xs) (h : LoadFact s1.mem cs f done t.mem t.cores ws)
    (hdone : ∀ x, x ∈ done ↔ x ∈ heldOf data xs) : ∃ vs, LoadedLanes s s1 t f xs ws vs := by
  obtain ⟨vs, hws, hvs⟩ := h.values
  have hlanes : vs.map (·.1) = done.map (·.lane) := by
    have hfst := congrArg (List.map Prod.fst) hvs
    rwa [List.map_map, List.map_map] at hfst
  have hiff : ∀ l, l ∈ vs.map (·.1) ↔ l ∈ s.actLanes f := fun l => by rw [hlanes]; exact hp.lanes_iff hdone l
  refine ⟨vs, h.bytes, hws, fun v hv => (mem_actLanes.mp ((hiff v.1).mp (List.mem_map_of_mem hv))).1, hlanes ▸ h.nodup, hiff, fun x hx => ?_⟩
  have hy := (hdone _).mpr (List.mem_map_of_mem (f := fun x : LaneAcc =>
    ({ lane := x.lane, ea := x.ea, pa := x.pa, data := data x.lane } : HeldLane)) hx)
  have hval := List.mem_map_of_mem (f := fun y : HeldLane => (y.lane, narrow f.tyN (numAt s1.mem.bytes.get y.pa (typeBytes f.tyN)))) hy
  rw [← hvs, List.mem_map] at hval
  obtain ⟨v, hv, heq⟩ := hval
  exact ⟨v, hv, congrArg Prod.fst heq, congrArg Prod.snd heq⟩

/-- What a warp reads once the results of a load are written in it. -/
theorem LoadedLanes.read {s s1 t : State} {f : LaneWord} {xs : List LaneAcc} {ws : List RegWrite} {vs : List (Nat × Nat × Bool)}
    (h : LoadedLanes s s1 t f xs ws vs) (w : Warp) (k : Nat) (hw : w.v = s.cw.v) :
    (∀ x ∈ xs, ∀ j, j < typeRegs f.tyN → (w.applyAll k ws).vReg (f.d.toNat + j) x.lane
        = BitVec.ofNat 32 (narrow f.tyN (numAt s1.byte x.pa (typeBytes f.tyN)) >>> (32 * j)))
      ∧ ∀ r l, l < 128 → writesLane s f (typeRegs f.tyN) r l = false → (w.applyAll k ws).vReg r l = s.cw.vReg r l := by
  have hread := applyAll_markedWrites k f.d (typeRegs f.tyN) vs w h.bound h.nodup
  rw [h.writes]
  refine ⟨fun x hx j hj => ?_, hread.frame_of hw h.lanes⟩
  obtain ⟨v, hv, hlane, hval⟩ := h.values x hx
  rw [← hlane, ← hval]
  exact hread.value v hv j hj

/-- A load of lanes that all pass is accepted, with the values it found. -/
theorem vld_accepted {f : LaneWord} {s s1 : State} {xs : List LaneAcc} (hr : lanesReady (.vld f) s)
    (h : LanesFound s f (typeBytes f.tyN) .read s1 xs) (hrace : (s1.raceLanes s1.laneOff false (typeBytes f.tyN) xs).2.2.1 = []) :
    ∃ t a vs, exec (.vld f) s = .next (t.keepAccess a)
      ∧ LaneAccepted s t a f.la.toNat (xs.all (fun x => !isDrawer x.pa)) ∧ LoadedLanes s s1 t f xs a.writes vs := by
  have he : exec (.vld f) s = .next (s.laneMemory (.vld f) f .read (vDests f.d (typeRegs f.tyN)) (fun _ _ => [])) :=
    laneForm_ready _ (fun _ h => nomatch h) hr.1 hr.2
  obtain ⟨t, a, done, htake, hacc, hfact, hdone⟩ := laneMemory_accepted (i := .vld f) (P := LoadFact s1.mem s1.cores f)
    (data := fun _ _ => []) (dests := vDests f.d (typeRegs f.tyN)) trivial (laneReady_path hr.2) h (fun _ => hrace)
    (fun b a0 hb hcores hi _ => hcores ▸ actsBy_load hi (h.pass.distinct _) (fun y hy => by
      rcases h.served (fun _ => []) with hnear | ⟨-, -, hline, -⟩
      · exact .inl (hnear y hy)
      · right
        rw [State.l1Line, State.core, hcores, hb.cur]
        exact hline y hy)) (loadFact_nil _ _ _)
  obtain ⟨vs, hvs⟩ := loadedLanes h.pass hfact hdone
  rw [show isStore (.vld f) = false from rfl, Bool.or_false] at hacc
  exact ⟨t, a, vs, he.trans (congrArg _ htake), hacc, hvs⟩

/-- A lookahead field that is 0. -/
theorem la_toNat {f : LaneWord} (h : f.la = 0) : f.la.toNat = 0 := by rw [h]; rfl

theorem all_near {xs : List LaneAcc} (h : ∀ x ∈ xs, isDrawer x.pa = false) : xs.all (fun x => !isDrawer x.pa) = true :=
  List.all_eq_true.mpr (fun x hx => by rw [h x hx]; rfl)

theorem DrawerReach.not_near {s s1 : State} {f : LaneWord} {n : Nat} {want : Want} {rd wr : Bool} {xs : List LaneAcc}
    (h : DrawerReach s f n want rd wr s1 xs) : xs.all (fun x => !isDrawer x.pa) = false := by
  obtain ⟨x, hx⟩ := List.exists_mem_of_ne_nil _ h.some_
  exact List.all_eq_false.mpr ⟨x, hx, by simp [h.place x hx]⟩

theorem HeldOnly.mem {s t : State} (h : HeldOnly s t) : t.mem = { s.mem with bytes := t.mem.bytes } := by rw [h.rest]

/-- A prefetch moves on, whatever its lanes' addresses are. -/
theorem vpf_effect {f : LaneWord} {s : State} (hr : lanesReady (.vpf f) s) :
    LaneEffect (.vpf f) s (s.xlateLanes s.agent 1 .read (s.laneEas f)).1 := by
  have hheld := xlateLanes_heldOnly s.agent 1 .read (s.laneEas f) s
  have hpass := hheld.besideWarps.passes (laneReady_path hr.2)
  set u := (s.xlateLanes s.agent 1 .read (s.laneEas f)).1 with hu
  obtain ⟨r, q, hqueue, -⟩ := laneReady_run hr.2
  have hcp : u.cp = s.cp := hheld.besideWarps.cp
  have hquiet : u.quiet = true := by rw [State.quiet, hcp]; exact hr.1
  obtain ⟨hdone, hs, hvv, hpp, hds, hfp⟩ := (LanesOnly.refl hpass.path).advance hquiet (by rw [hcp]; exact hqueue)
  refine ⟨u.advanceLane, laneForm_ready _ (fun _ h => nomatch h) hr.1 hr.2, ⟨fun r l _ => Warp.vReg_congr hvv r l, ?_, ?_, hs, hfp, hdone⟩⟩
  · intro m c _
    unfold State.predN Warp.pred
    rw [hpp]
  · intro m c _
    unfold State.deadN Warp.predDs
    rw [hds]

/-- Settles O21: the lanes of a load find their values where their addresses lead, and these are written at once or stand in a
window; a prefetch only translates. -/
theorem laneLoads : Obligations.LaneLoads := by
  unfold Obligations.LaneLoads
  refine ⟨?_, ?_, ?_⟩
  · intro f s s1 xs hr hla h hrace
    have hfound := LanesFound.of_reach h
    obtain ⟨t, a, vs, he, hacc, hvs⟩ := vld_accepted hr hfound hrace
    rw [la_toNat hla, all_near h.place] at hacc
    obtain ⟨v, heffect, hkept, hscal, hmem, w, hw, hcw⟩ := hacc.visible he hr (fun w k => by
      rw [hvs.writes]; exact (applyAll_markedWrites k _ _ vs w hvs.bound hvs.nodup).same)
    obtain ⟨hvalue, hframe⟩ := hvs.read w s.cur.2 hw
    rw [← hcw] at hvalue hframe
    exact ⟨v, heffect, hkept, hscal, hfound.pass.lanes, hvalue, hframe, by rw [hmem, hvs.bytes]⟩
  · intro f s s1 xs hr hst hmore h hrace
    have hfound : LanesFound s f (typeBytes f.tyN) .read s1 xs := h.elim (fun h => .of_reach h.2) (fun h => .of_drawer h)
    obtain ⟨t, a, vs, he, hacc, hvs⟩ := vld_accepted hr hfound hrace
    obtain ⟨u, d, hu, hwaits, hwrites, hmem⟩ := hacc.opens he hr hst hmore
      (h.imp (fun h h0 => h.1 (BitVec.eq_of_toNat_eq h0)) DrawerReach.not_near)
    obtain ⟨hvalue, hframe⟩ := hvs.read s.cw s.cur.2 rfl
    exact ⟨u, d, hu, hwaits, hfound.pass.lanes, by rw [hwrites]; exact hvalue, by rw [hwrites]; exact hframe, by rw [hmem, hvs.bytes]⟩
  · intro f s hr
    have hheld := xlateLanes_heldOnly s.agent 1 .read (s.laneEas f) s
    have hpass := hheld.besideWarps.passes (laneReady_path hr.2)
    exact ⟨_, vpf_effect hr, hpass.kept, hpass.sameScalars, hheld.besideWarps.cw, hheld.mem, rfl⟩

end Sys2Proof.Machine

namespace Sys2Proof.Machine

/-! ### Lane stores: O22 -/

theorem typeBytes_mem (t : Nat) : typeBytes t ∈ [1, 2, 4, 8, 16] := by
  unfold typeBytes typeRegs
  repeat' split
  all_goals decide

theorem typeBytes_dvd (t : Nat) : typeBytes t ∣ 128 := by
  have h := typeBytes_mem t
  generalize typeBytes t = n at h
  revert n
  decide

/-- Two accesses of n bytes apart. -/
def KeptApart (n : Nat) (x y : HeldLane) : Prop := x.pa + n ≤ y.pa ∨ y.pa + n ≤ x.pa

/-- Aligned accesses of different blocks are apart. -/
theorem apart_of_blocks {n : Nat} {x y : HeldLane} (hn : n ∣ 128) (hx : x.pa % n = 0) (hy : y.pa % n = 0) (h : x.pa / 128 ≠ y.pa / 128) :
    KeptApart n x y := by
  obtain ⟨k, hk⟩ := hn
  obtain ⟨a, ha⟩ := Nat.dvd_of_mod_eq_zero hx
  obtain ⟨b, hb⟩ := Nat.dvd_of_mod_eq_zero hy
  have hne : a ≠ b := fun hab => h (by rw [ha, hb, hab])
  rcases Nat.lt_or_gt_of_ne hne with hlt | hlt
  · left
    rw [ha, hb, ← Nat.mul_succ]
    exact Nat.mul_le_mul_left n hlt
  · right
    rw [ha, hb, ← Nat.mul_succ]
    exact Nat.mul_le_mul_left n hlt

/-- What a store of lanes has done: bytes no lane covers stand, and each byte is the highest-numbered lane's that covers it. -/
structure StoreFact (m0 : Mem) (all : List HeldLane) (n : Nat) (val : Nat → Nat) (done : List HeldLane) (m : Mem) (cores : Tab Core)
    (ws : List RegWrite) : Prop where
  sub : ∀ y ∈ done, y ∈ all
  writes : ws = []
  outside : ∀ a, (∀ y ∈ done, ¬(y.pa ≤ a ∧ a < y.pa + n)) → m.bytes.get a = m0.bytes.get a
  stored : ∀ y ∈ done, ∀ i, i < n → (∀ z ∈ done, y.lane < z.lane → ¬(z.pa ≤ y.pa + i ∧ y.pa + i < z.pa + n)) →
    m.bytes.get (y.pa + i) = BitVec.ofNat 8 (val y.lane / 256 ^ i)

theorem storeFact_nil (m0 : Mem) (all : List HeldLane) (n : Nat) (val : Nat → Nat) (cs : Tab Core) : StoreFact m0 all n val [] m0 cs [] :=
  ⟨fun _ h => absurd h (by simp), rfl, fun _ _ => rfl, fun _ h => absurd h (by simp)⟩

/-- One lane more, above those it meets. -/
theorem StoreFact.snoc {m0 m m' : Mem} {all done : List HeldLane} {n : Nat} {val : Nat → Nat} {cs cs' : Tab Core} {ws : List RegWrite}
    {y : HeldLane} (h : StoreFact m0 all n val done m cs ws) (hall : y ∈ all) (hy : ∀ x ∈ done, x.lane < y.lane ∨ KeptApart n x y)
    (hm : ∀ a, m'.bytes.get a = storedAt m.bytes.get y.pa n (val y.lane) a) : StoreFact m0 all n val (done ++ [y]) m' cs' ws := by
  refine ⟨?_, h.writes, fun a hout => ?_, fun x hx i hi hhigh => ?_⟩
  · intro x hx
    rcases List.mem_append.mp hx with hx | hx
    · exact h.sub x hx
    · rw [List.mem_singleton.mp hx]; exact hall
  · rw [hm, storedAt_apart (hout y (by simp))]
    exact h.outside a (fun z hz => hout z (List.mem_append_left _ hz))
  · rw [hm]
    rcases List.mem_append.mp hx with hx | hx
    · rw [storedAt_apart]
      · exact h.stored x hx i hi (fun z hz => hhigh z (List.mem_append_left _ hz))
      · rcases hy x hx with hlt | hapart
        · exact hhigh y (by simp) hlt
        · unfold KeptApart at hapart
          omega
    · rw [List.mem_singleton.mp hx, storedAt, if_pos ⟨by omega, by omega⟩, Nat.add_sub_cancel_left]

theorem storePa_get (s : State) (pa n x a : Nat) :
    (s.storePa false pa (bytesOf n x)).mem.bytes.get a = storedAt s.mem.bytes.get pa n x a := by
  rw [storePa_mem]
  exact (congrArg (fun b => Cells.get b a) (Mem.store_bytes s.mem pa (bytesOf n x))).trans (congrFun (get_writeN_bytesOf ..) a)

theorem linksStand_storePa (s : State) (pa : Nat) (bs : List Byte) : LinksStand s (s.storePa false pa bs) :=
  (LinksStand.of_links (stampsOnly_stampPlain (s.modMem (·.store pa bs)) s.cur.1 false pa bs.length).links).trans
    (linksStand_dropLines _ _ _ _)

theorem LinksStand.refl (s : State) : LinksStand s s := .of_links rfl

/-- Stores of lanes in ascending order, each above those before it that it meets. -/
theorem storeFact_foldl {m0 : Mem} {all : List HeldLane} {n : Nat} {val : Nat → Nat} {data : Nat → List Byte} {ws : List RegWrite} :
    ∀ (zs : List HeldLane) (done : List HeldLane) (s : State), (∀ y ∈ zs, y ∈ all ∧ data y.lane = bytesOf n (val y.lane)) →
      zs.Pairwise (·.lane < ·.lane) → (∀ x ∈ done, ∀ y ∈ zs, x.lane < y.lane ∨ KeptApart n x y) → StoreFact m0 all n val done s.mem s.cores ws →
      ∃ u, (zs.map HeldLane.acc).foldl (fun s x => s.storePa false x.pa (data x.lane)) s = u ∧ BesideWarps s u ∧ LinksStand s u
        ∧ StoreFact m0 all n val (done ++ zs) u.mem u.cores ws
  | [], done, s, _, _, _, h => ⟨s, rfl, BesideWarps.refl s, LinksStand.refl s, by rwa [List.append_nil]⟩
  | y :: zs, done, s, hdata, hasc, hdone, h => by
    obtain ⟨⟨hall, hy⟩, hzs⟩ := List.forall_mem_cons.mp hdata
    obtain ⟨hlt, hasc⟩ := List.pairwise_cons.mp hasc
    have hone : StoreFact m0 all n val (done ++ [y]) (s.storePa false y.pa (data y.lane)).mem (s.storePa false y.pa (data y.lane)).cores ws :=
      h.snoc hall (fun x hx => hdone x hx y (by simp)) (fun a => by rw [hy, storePa_get])
    obtain ⟨u, hu, hbeside, hlinks, hfact⟩ := storeFact_foldl zs (done ++ [y]) _ hzs hasc (fun x hx z hz => by
      rcases List.mem_append.mp hx with hx | hx
      · exact hdone x hx z (List.mem_cons_of_mem _ hz)
      · rw [List.mem_singleton.mp hx]; exact .inl (hlt z hz)) hone
    refine ⟨u, hu, (besideWarps_storePa ..).trans hbeside, (linksStand_storePa _ _ _).trans hlinks, ?_⟩
    rwa [List.append_assoc, List.singleton_append] at hfact

theorem dataOf_mem {ys : List HeldLane} (h : (ys.map (·.lane)).Nodup) {y : HeldLane} (hy : y ∈ ys) : dataOf ys y.lane = y.data := by
  unfold dataOf
  have hfind : ys.find? (fun x => x.lane = y.lane) = some y := by
    cases hf : ys.find? (fun x => x.lane = y.lane) with
    | none => simpa using List.find?_eq_none.mp hf y hy
    | some z =>
      have hz := List.find?_some hf
      rw [List.inj_on_of_nodup_map h (List.mem_of_find?_eq_some hf) hy (by simpa using hz)]
  rw [hfind]

theorem actsBy_store {b : State} {a0 : Access} {f : LaneWord} {all : List HeldLane} {rs : List (Req × Mask)} {m0 : Mem} {val : Nat → Nat}
    (hi : a0.i = .vst f) (hasc : all.Pairwise (·.lane < ·.lane)) (hdata : ∀ y ∈ all, y.data = bytesOf (typeBytes f.tyN) (val y.lane))
    (haligned : ∀ y ∈ all, y.pa % typeBytes f.tyN = 0)
    (hblocks : ∀ r ∈ rs, ∀ x ∈ all, ∀ y ∈ all, x.pa / 128 = y.pa / 128 → bitB r.2 x.lane = bitB r.2 y.lane) :
    ActsBy b a0 (typeBytes f.tyN) all rs (StoreFact m0 all (typeBytes f.tyN) val) := by
  intro s a done ys hs hsame hys hrace hsep hP
  have hai : a.i = .vst f := by rw [hsame]; exact hi
  have haoff : a.off = a0.off := by rw [hsame]
  have hpass := raceLanes_allPass (hrace (by rw [hi]; rfl))
  have hstamps := stampsOnly_raceLanes a0.off false (typeBytes f.tyN) (ys.map HeldLane.acc) s
  set v := (s.raceLanes a0.off false (typeBytes f.tyN) (ys.map HeldLane.acc)).1 with hv
  have hr : s.raceLanes a0.off false (typeBytes f.tyN) (ys.map HeldLane.acc) = (v, ys.map HeldLane.acc, [], none) := by
    rw [← hpass]
  have hys' := hasc.sublist hys
  have hnodup : (ys.map (·.lane)).Nodup := List.pairwise_map.mpr (hys'.imp Nat.ne_of_lt)
  have hapart : ∀ x ∈ done, ∀ y ∈ ys, x.lane < y.lane ∨ KeptApart (typeBytes f.tyN) x y := by
    intro x hx y hy
    obtain ⟨r, hr, hbx, hby⟩ := hsep x hx y hy
    refine .inr (apart_of_blocks (typeBytes_dvd _) (haligned x (hP.sub x hx)) (haligned y (hys.subset hy)) (fun heq => ?_))
    rw [hblocks r hr x (hP.sub x hx) y (hys.subset hy) heq, hby] at hbx
    cases hbx
  have hstart : StoreFact m0 all (typeBytes f.tyN) val done v.mem v.cores a.writes := by
    have hmem : v.mem.bytes = s.mem.bytes := by rw [hstamps.mem]
    exact ⟨hP.sub, hP.writes, by rw [hmem]; exact hP.outside, by rw [hmem]; exact hP.stored⟩
  obtain ⟨u, hu, hbeside, hlinks, hfact⟩ := storeFact_foldl (data := dataOf ys) ys done v
    (fun y hy => ⟨hys.subset hy, (dataOf_mem hnodup hy).trans (hdata y (hys.subset hy))⟩) hys' hapart hstart
  have hraced := hstamps.besideWarps.passes hs.path
  refine ⟨u, a.writes, a.stamps, ?_, hraced.trans (hbeside.passes hraced.path), (LinksStand.of_links hstamps.links).trans hlinks, hfact⟩
  unfold State.act
  simp only [hai]
  unfold State.actStore
  simp only [haoff, hr, holdOf, joinHold_none, hu]

theorem heldOf_ascending {s s1 : State} {f : LaneWord} {n : Nat} {xs : List LaneAcc} (h : LanesPass s f n s1 xs) (data : Nat → List Byte) :
    (heldOf data xs).Pairwise (·.lane < ·.lane) := by
  rw [heldOf, List.pairwise_map]
  exact List.pairwise_map.mp h.ascending.1

theorem heldOf_aligned {s s1 : State} {f : LaneWord} {xs : List LaneAcc} (h : LanesPass s f (typeBytes f.tyN) s1 xs)
    (data : Nat → List Byte) : ∀ y ∈ heldOf data xs, y.pa % typeBytes f.tyN = 0 := fun _ hy =>
  h.aligned ((typeBytes_dvd _).trans (by decide)) _ (mem_heldOf.mp hy).1

/-- The bytes lanes store, of a value for each lane. -/
structure StoredLanes (s1 t : State) (n : Nat) (val : Nat → Nat) (xs : List LaneAcc) : Prop where
  outside : ∀ a, (∀ x ∈ xs, ¬(x.pa ≤ a ∧ a < x.pa + n)) → t.byte a = s1.byte a
  stored : ∀ x ∈ xs, ∀ i, i < n → (∀ y ∈ xs, x.lane < y.lane → ¬(y.pa ≤ x.pa + i ∧ x.pa + i < y.pa + n)) →
    t.byte (x.pa + i) = BitVec.ofNat 8 (val x.lane / 256 ^ i)

theorem storedLanes {s1 t : State} {n : Nat} {val : Nat → Nat} {xs : List LaneAcc} {data : Nat → List Byte} {done : List HeldLane}
    {ws : List RegWrite} (h : StoreFact s1.mem (heldOf data xs) n val done t.mem t.cores ws)
    (hdone : ∀ x, x ∈ done ↔ x ∈ heldOf data xs) : StoredLanes s1 t n val xs := by
  have hacc : ∀ y ∈ done, y.acc ∈ xs := fun y hy => (mem_heldOf.mp ((hdone y).mp hy)).1
  refine ⟨fun a hout => h.outside a (fun y hy => hout _ (hacc y hy)), fun x hx i hi hhigh => ?_⟩
  have hy := (hdone _).mpr (List.mem_map_of_mem (f := fun x : LaneAcc =>
    ({ lane := x.lane, ea := x.ea, pa := x.pa, data := data x.lane } : HeldLane)) hx)
  exact h.stored _ hy i hi (fun z hz hlt => hhigh _ (hacc z hz) hlt)

theorem StoredLanes.congr {s1 t u : State} {n : Nat} {val : Nat → Nat} {xs : List LaneAcc} (h : StoredLanes s1 t n val xs)
    (hmem : u.mem = t.mem) : StoredLanes s1 u n val xs := by
  have hbyte : u.byte = t.byte := State.byte_congr (by rw [hmem])
  exact ⟨by rw [hbyte]; exact h.outside, by rw [hbyte]; exact h.stored⟩

/-- A store of lanes that all pass is accepted, and its bytes stand in memory. -/
theorem vst_accepted {f : LaneWord} {s s1 : State} {xs : List LaneAcc} (hr : lanesReady (.vst f) s)
    (h : LanesFound s f (typeBytes f.tyN) .write s1 xs) (hrace : (s1.raceLanes s1.laneOff false (typeBytes f.tyN) xs).2.2.1 = []) :
    ∃ t a, exec (.vst f) s = .next (t.keepAccess a) ∧ LaneAccepted s t a f.la.toNat true ∧ a.writes = []
      ∧ StoredLanes s1 t (typeBytes f.tyN) (s.cw.rd f f.c) xs := by
  set data : Warp → Nat → List Byte := fun w l => storeBytes w f (typeBytes f.tyN) l with hdata
  have he : exec (.vst f) s = .next (s.laneMemory (.vst f) f .write [] data) := laneForm_ready _ (fun _ h => nomatch h) hr.1 hr.2
  have hblocks : ∀ r ∈ s1.accessReqs (.vst f) (heldOf (data s.cw) xs), ∀ x ∈ heldOf (data s.cw) xs, ∀ y ∈ heldOf (data s.cw) xs,
      x.pa / 128 = y.pa / 128 → bitB r.2 x.lane = bitB r.2 y.lane := by
    rcases h.served (data s.cw) with hnear | ⟨-, hd, -, -⟩
    · intro r hr
      rw [accessReqs_near hnear] at hr
      cases hr
    · exact (serving_storeReqs (h.pass.distinct _) hd).2
  obtain ⟨t, a, done, htake, hacc, hfact, hdone⟩ := laneMemory_accepted (i := .vst f) (data := data) (dests := [])
    (P := StoreFact s1.mem (heldOf (data s.cw) xs) (typeBytes f.tyN) (s.cw.rd f f.c)) trivial (laneReady_path hr.2) h (fun _ => hrace)
    (fun b a0 _ _ hi _ => actsBy_store hi (heldOf_ascending h.pass _) (fun y hy => (mem_heldOf.mp hy).2) (heldOf_aligned h.pass _) hblocks)
    (storeFact_nil _ _ _ _ _)
  rw [show isStore (.vst f) = true from rfl, Bool.or_true] at hacc
  exact ⟨t, a, he.trans (congrArg _ htake), hacc, hfact.writes, storedLanes hfact hdone⟩

end Sys2Proof.Machine

namespace Sys2Proof.Float

/-! ### Patterns of results (R36, R233) -/

theorem boolNat_le (b : Bool) : boolNat b ≤ 1 := by cases b <;> decide

theorem two_pow_width (f : Fmt) : 2 ^ f.width = 2 * (2 ^ f.ew * 2 ^ f.fw) := by
  rw [Fmt.width, pow_succ, pow_add]
  omega

theorem zero_le (f : Fmt) (neg : Bool) : f.zero neg ≤ 2 ^ f.ew * 2 ^ f.fw := by
  rw [Fmt.zero, ← pow_add]
  calc boolNat neg * 2 ^ (f.ew + f.fw) ≤ 1 * 2 ^ (f.ew + f.fw) := Nat.mul_le_mul_right _ (boolNat_le neg)
    _ = 2 ^ (f.ew + f.fw) := Nat.one_mul _

theorem inf_eq (f : Fmt) (neg : Bool) : f.inf neg = f.zero neg + f.inf false := by
  simp [Fmt.inf, Fmt.zero, boolNat]

theorem inf_false_add (f : Fmt) : f.inf false + 2 ^ f.fw = 2 ^ f.ew * 2 ^ f.fw := by
  have hpos : 0 < 2 ^ f.ew := Nat.two_pow_pos _
  have h : f.inf false = (2 ^ f.ew - 1) * 2 ^ f.fw := by simp [Fmt.inf, boolNat]
  rw [h, ← Nat.succ_mul, Nat.succ_eq_add_one, Nat.sub_add_cancel hpos]

theorem inf_lt (f : Fmt) (neg : Bool) : f.inf neg < 2 ^ f.width := by
  have h0 := zero_le f neg
  have h1 := inf_false_add f
  have h2 : 0 < 2 ^ f.fw := Nat.two_pow_pos _
  rw [inf_eq, two_pow_width]
  omega

theorem zero_lt (f : Fmt) (neg : Bool) : f.zero neg < 2 ^ f.width := by
  have h := inf_eq f neg
  have hlt := inf_lt f neg
  omega

theorem nan_lt (f : Fmt) : f.nan < 2 ^ f.width := by
  have h : f.nan = f.inf false + 2 ^ (f.fw - 1) := by simp [Fmt.nan, Fmt.inf, boolNat]
  have h1 := inf_false_add f
  have h2 : 2 ^ (f.fw - 1) ≤ 2 ^ f.fw := Nat.pow_le_pow_right (by decide) (by omega)
  have h3 : 0 < 2 ^ f.ew * 2 ^ f.fw := Nat.mul_pos (Nat.two_pow_pos _) (Nat.two_pow_pos _)
  rw [two_pow_width]
  omega

theorem overflowed_lt (f : Fmt) (rm : Nat) (neg : Bool) : overflowed f rm neg < 2 ^ f.width := by
  unfold overflowed Fmt.maxFinite
  dsimp only
  have hmax : f.inf neg - 1 < 2 ^ f.width := Nat.lt_of_le_of_lt (Nat.sub_le _ _) (inf_lt f neg)
  have hinf := inf_lt f neg
  repeat' split
  all_goals assumption

theorem round_lt (f : Fmt) (rm : Nat) (ftz neg : Bool) (m : Nat) (e : Int) (sticky : Bool) :
    (round f rm ftz neg m e sticky).1 < 2 ^ f.width := by
  have hzero := zero_lt f neg
  have hinf := inf_lt f neg
  have hsum := inf_eq f neg
  unfold round
  dsimp only
  split
  · exact hzero
  split
  · exact overflowed_lt f rm neg
  split
  · exact hzero
  · dsimp only
    omega

theorem addNum_lt (f : Fmt) (rm : Nat) (ftz s1 : Bool) (m1 : Nat) (e1 : Int) (s2 : Bool) (m2 : Nat) (e2 : Int) :
    (addNum f rm ftz s1 m1 e1 s2 m2 e2).1 < 2 ^ f.width := by
  unfold addNum
  dsimp only
  generalize (if m1 = 0 then (0 : Int) else _) + _ = x
  split
  · exact zero_lt ..
  · exact round_lt ..

theorem addVal_lt (f : Fmt) (rm : Nat) (ftz : Bool) (a b : Val) : (addVal f rm ftz a b).1 < 2 ^ f.width := by
  unfold addVal
  split
  · exact addNum_lt ..
  · split
    · exact inf_lt ..
    · exact nan_lt f
  · exact inf_lt ..
  · exact inf_lt ..
  · exact nan_lt f

/-! ### Minimum and maximum (R62, R235) -/

theorem readFtz_false (f : Fmt) (x : Nat) : readFtz f false x = read f x := by
  unfold readFtz
  cases read f x <;> rfl

/-- A pattern reads by its own bits. -/
theorem read_mod (f : Fmt) (x : Nat) : read f (x % 2 ^ f.width) = read f x := by
  have hbits : ∀ k n, k + n ≤ f.width → (x % 2 ^ f.width) >>> k % 2 ^ n = x >>> k % 2 ^ n := by
    intro k n h
    apply Nat.eq_of_testBit_eq
    intro i
    simp only [Nat.testBit_mod_two_pow, Nat.testBit_shiftRight]
    by_cases hi : i < n
    · simp [hi, show k + i < f.width by omega]
    · simp [hi]
  have hs := hbits (f.ew + f.fw) 1 (by rw [Fmt.width])
  have he := hbits f.fw f.ew (by rw [Fmt.width]; omega)
  have hm := hbits 0 f.fw (by rw [Fmt.width]; omega)
  rw [pow_one] at hs
  rw [Nat.shiftRight_zero, Nat.shiftRight_zero] at hm
  unfold read
  simp only [hs, he, hm]

/-- The bits of a pattern: fraction, exponent and sign. -/
theorem mod_width (f : Fmt) (x : Nat) :
    x % 2 ^ f.width = x % 2 ^ f.fw + x >>> f.fw % 2 ^ f.ew * 2 ^ f.fw + x >>> (f.ew + f.fw) % 2 * 2 ^ (f.ew + f.fw) := by
  have h1 : x % 2 ^ f.width = x % 2 ^ (f.ew + f.fw) + 2 ^ (f.ew + f.fw) * (x / 2 ^ (f.ew + f.fw) % 2) := by
    rw [Fmt.width, pow_succ, Nat.mod_mul]
  have h2 : x % 2 ^ (f.ew + f.fw) = x % 2 ^ f.fw + 2 ^ f.fw * (x / 2 ^ f.fw % 2 ^ f.ew) := by
    rw [Nat.add_comm f.ew, pow_add, Nat.mod_mul]
  rw [h1, h2, Nat.shiftRight_eq_div_pow, Nat.shiftRight_eq_div_pow, Nat.mul_comm (2 ^ f.fw), Nat.mul_comm (2 ^ (f.ew + f.fw))]

theorem boolNat_mod_two (n : Nat) : boolNat (decide (n % 2 = 1)) = n % 2 := by
  rcases Nat.mod_two_eq_zero_or_one n with h | h
  · rw [h]; rfl
  · rw [h]; rfl

/-- Where nothing is flushed, a pattern keeps its bits. -/
theorem flushed_false (f : Fmt) (x : Nat) : flushed f false x = x % 2 ^ f.width := by
  unfold flushed
  rw [readFtz_false]
  split
  · next s e h =>
    rw [mod_width]
    unfold read at h
    dsimp only at h
    split at h
    · split at h
      · cases h
      · cases h
    split at h
    · next he =>
      obtain ⟨rfl, hm, -⟩ := Val.num.inj h
      rw [he, hm, Nat.zero_mul, Nat.zero_add, Fmt.zero, boolNat_mod_two]
    · have hm := (Val.num.inj h).2.1
      have hpos : 0 < 2 ^ f.fw := Nat.two_pow_pos _
      omega
  · rfl

theorem minMax_lt (f : Fmt) (isMax : Bool) (a b : Nat) : (minMax f false isMax a b).1 < 2 ^ f.width := by
  have hmod : ∀ x, flushed f false x < 2 ^ f.width := fun x => by
    rw [flushed_false]; exact Nat.mod_lt _ (Nat.two_pow_pos _)
  unfold minMax
  dsimp only
  split
  · exact nan_lt f
  · exact hmod b
  · exact hmod a
  · split <;> split <;> exact hmod _

end Sys2Proof.Float
namespace Sys2Proof.Machine

/-! ### The table of R62 -/

theorem not_isNaN {t : Float.Fmt} {x : Nat} : ¬isNaN t x ↔ (Float.read t x).isNan = false := by
  unfold isNaN
  cases Float.read t x <;> simp [Float.Val.isNan]

theorem toInt_zero (neg : Bool) (e q : Int) : Float.toInt neg 0 e q = 0 := by cases neg <;> simp [Float.toInt]

theorem isZero_num (neg : Bool) (k : Nat) (e : Int) : (Float.Val.num neg k e).isZero = decide (k = 0) := by
  cases k <;> simp [Float.Val.isZero]

/-- The order of the statement is the model's. -/
theorem floatBelow_iff {t : Float.Fmt} {x y : Nat} (hx : ¬isNaN t x) (hy : ¬isNaN t y) :
    floatBelow t x y ↔ Float.below (Float.read t x) (Float.read t y) = true := by
  rw [not_isNaN] at hx hy
  unfold floatBelow Float.below Float.ltVal
  cases hrx : Float.read t x with
  | nan k => rw [hrx] at hx; cases hx
  | inf s =>
    cases hry : Float.read t y with
    | nan k => rw [hry] at hy; cases hy
    | inf r => cases s <;> cases r <;> simp [Float.Val.isZero]
    | num r n e => cases s <;> simp [Float.Val.isZero]
  | num s m e =>
    cases hry : Float.read t y with
    | nan k => rw [hry] at hy; cases hy
    | inf r => cases r <;> simp [Float.Val.isZero]
    | num r n f =>
      simp only [isZero_num, Float.Val.neg, Bool.or_eq_true, Bool.and_eq_true, decide_eq_true_eq, Bool.not_eq_true', and_assoc]

/-- The order of R62 on two finite values. -/
theorem below_num (s r : Bool) (m n : Nat) (e f : Int) : Float.below (.num s m e) (.num r n f) = true
    ↔ Float.toInt s m e (min e f) < Float.toInt r n f (min e f) ∨ (m = 0 ∧ n = 0 ∧ s = true ∧ r = false) := by
  simp only [Float.below, Float.ltVal, isZero_num, Float.Val.neg, Bool.or_eq_true, Bool.and_eq_true, decide_eq_true_eq,
    Bool.not_eq_true', and_assoc]

theorem below_asymm {a b : Float.Val} (ha : a.isNan = false) (hb : b.isNan = false) (h : Float.below a b = true) :
    Float.below b a = false := by
  cases a with
  | nan k => cases ha
  | inf s =>
    cases b with
    | nan k => cases hb
    | inf r => revert h; revert s r; decide
    | num r n f =>
      simp [Float.below, Float.ltVal, Float.Val.isZero] at h ⊢
      exact h
  | num s m e =>
    cases b with
    | nan k => cases hb
    | inf r =>
      simp [Float.below, Float.ltVal, Float.Val.isZero] at h ⊢
      exact h
    | num r n f =>
      rw [below_num] at h
      rw [← Bool.not_eq_true, below_num, min_comm]
      rcases h with h | ⟨rfl, rfl, rfl, rfl⟩
      · rintro (h' | ⟨rfl, rfl, rfl, rfl⟩)
        · omega
        · rw [toInt_zero, toInt_zero] at h
          omega
      · rintro (h' | ⟨-, -, h', -⟩)
        · rw [toInt_zero, toInt_zero] at h'
          omega
        · cases h'

theorem floatBelow_mod_left (t : Float.Fmt) (x y : Nat) : floatBelow t (x % 2 ^ t.width) y ↔ floatBelow t x y := by
  unfold floatBelow
  rw [Float.read_mod]

theorem floatBelow_mod_right (t : Float.Fmt) (x y : Nat) : floatBelow t x (y % 2 ^ t.width) ↔ floatBelow t x y := by
  unfold floatBelow
  rw [Float.read_mod]

theorem floatMinMax (t : Float.Fmt) (isMax : Bool) (x y : Nat) : FloatMinMax t isMax x y (Float.minMax t false isMax x y).1 := by
  have hnan : ∀ z, isNaN t z → (Float.read t z).isNan = true := fun z ⟨k, hk⟩ => by rw [hk]; rfl
  have hasymm : ∀ u v, ¬isNaN t u → ¬isNaN t v → floatBelow t u v → ¬floatBelow t v u := by
    intro u v hu hv h
    rw [floatBelow_iff hu hv] at h
    rw [floatBelow_iff hv hu, below_asymm (not_isNaN.mp hu) (not_isNaN.mp hv) h]
    exact Bool.false_ne_true
  have hirr : ∀ u, ¬isNaN t u → ¬floatBelow t u u := fun u hu h => hasymm u u hu hu h h
  unfold Float.minMax
  simp only [Float.readFtz_false, Float.flushed_false]
  refine ⟨fun hx hy => ?_, fun hx hy => ?_, fun hx hy => ?_, fun hx hy => ?_⟩
  · rw [hnan x hx, hnan y hy]
  · rw [hnan x hx, not_isNaN.mp hy]
  · rw [not_isNaN.mp hx, hnan y hy]
  · rw [not_isNaN.mp hx, not_isNaN.mp hy]
    dsimp only
    cases isMax with
    | true =>
      by_cases h : floatBelow t x y
      · have hb := (floatBelow_iff hx hy).mp h
        simp only [if_true, hb, floatBelow_mod_left]
        exact ⟨.inr trivial, hasymm x y hx hy h, hirr y hy⟩
      · have hb : Float.below (Float.read t x) (Float.read t y) = false := by
          rwa [floatBelow_iff hx hy, Bool.not_eq_true] at h
        simp only [if_true, hb, Bool.false_eq_true, if_false, floatBelow_mod_left]
        exact ⟨.inl trivial, hirr x hx, h⟩
    | false =>
      by_cases h : floatBelow t y x
      · have hb := (floatBelow_iff hy hx).mp h
        simp only [Bool.false_eq_true, if_false, hb, if_true, floatBelow_mod_right]
        exact ⟨.inr trivial, hasymm y x hy hx h, hirr y hy⟩
      · have hb : Float.below (Float.read t y) (Float.read t x) = false := by
          rwa [floatBelow_iff hy hx, Bool.not_eq_true] at h
        simp only [Bool.false_eq_true, if_false, hb, floatBelow_mod_right]
        exact ⟨.inl trivial, hirr x hx, h⟩

theorem narrowed_eq (sat signed : Bool) (n : Nat) (x : Int) :
    narrowed sat signed n x = if sat then satN signed n x else wrapN n x := by
  have hpow : ∀ k : Nat, ((2 ^ k : Nat) : Int) = 2 ^ k := fun k => by push_cast; rfl
  unfold narrowed satN wrapN
  dsimp only
  rw [hpow, hpow]
  cases sat with
  | false => rfl
  | true =>
    have hone : (1 : Int) ≤ 2 ^ n := by exact_mod_cast Nat.one_le_two_pow
    have hhalf : (1 : Int) ≤ 2 ^ (n - 1) := by exact_mod_cast Nat.one_le_two_pow
    have hclamp : ∀ lo hi : Int, lo ≤ hi → max lo (min hi x) = if x < lo then lo else if hi < x then hi else x := by
      intro lo hi h
      split
      · omega
      · split <;> omega
    simp only [if_true]
    rw [hclamp]
    split <;> omega

theorem isInt_not_isFloat {t : Nat} (h : isInt t = true) : isFloat t = false := by
  simp only [isInt, Bool.and_eq_true, decide_eq_true_eq] at h
  simp only [isFloat, Bool.or_eq_false_iff, decide_eq_false_iff_not]
  omega

theorem aluMinMax_int {t : Nat} (h : isInt t = true) (isMax : Bool) (x y : Nat) :
    (aluMinMax t isMax x y = x ∨ aluMinMax t isMax x y = y)
      ∧ intN (isSigned t) (32 * typeRegs t) (aluMinMax t isMax x y)
        = if isMax then max (intN (isSigned t) (32 * typeRegs t) x) (intN (isSigned t) (32 * typeRegs t) y)
          else min (intN (isSigned t) (32 * typeRegs t) x) (intN (isSigned t) (32 * typeRegs t) y) := by
  unfold aluMinMax aluBits
  simp only [isInt_not_isFloat h, Bool.false_eq_true, if_false]
  cases isMax with
  | true =>
    simp only [if_true, decide_eq_true_eq]
    split
    · exact ⟨.inr rfl, by omega⟩
    · exact ⟨.inl rfl, by omega⟩
  | false =>
    simp only [Bool.false_eq_true, if_false, decide_eq_true_eq]
    split
    · exact ⟨.inr rfl, by omega⟩
    · exact ⟨.inl rfl, by omega⟩

theorem add_nan (rm x y : Nat) (h : isNaN Float.f32 x ∨ isNaN Float.f32 y) :
    (Float.add Float.f32 rm false x y).1 = 0x7FC00000 := by
  unfold Float.add Float.addVal
  rw [Float.readFtz_false, Float.readFtz_false]
  rcases h with ⟨k, hk⟩ | ⟨k, hk⟩
  · rw [hk]
    cases Float.read Float.f32 y <;> rfl
  · rw [hk]
    cases Float.read Float.f32 x <;> rfl

/-- The model's new value is the table's (R62). -/
theorem atomicRow_aluNew (op t : Nat) (sat : Bool) (rm o c d : Nat) : AtomicRow op t sat rm o c d (aluNew op t sat rm o c d) := by
  have hfloat : t = 16 → isFloat t = true ∧ Float.ofType t = Float.f32 := by rintro rfl; exact ⟨rfl, rfl⟩
  unfold AtomicRow aluNew
  match op with
  | 0 =>
    refine ⟨fun h => ?_, fun h => ?_⟩
    · simp only [aluAdd, isInt_not_isFloat h, Bool.false_eq_true, if_false, narrowed_eq, aluBits]
    · simp only [aluAdd, (hfloat h).1, (hfloat h).2, if_true, true_and]
      exact add_nan rm o c
  | 1 =>
    refine ⟨fun h => aluMinMax_int h false o c, fun h => ?_⟩
    simp only [aluMinMax, (hfloat h).1, (hfloat h).2, if_true]
    exact floatMinMax _ _ _ _
  | 2 =>
    refine ⟨fun h => aluMinMax_int h true o c, fun h => ?_⟩
    simp only [aluMinMax, (hfloat h).1, (hfloat h).2, if_true]
    exact floatMinMax _ _ _ _
  | 3 => exact fun j => Nat.testBit_and o c j
  | 4 => exact fun j => Nat.testBit_or o c j
  | 5 => exact fun j => Nat.testBit_xor o c j
  | 6 => rfl
  | n + 7 => rfl

theorem wrapN_lt (n : Nat) (x : Int) : wrapN n x < 2 ^ n := by
  have hpos : (0 : Int) < (2 ^ n : Nat) := by exact_mod_cast Nat.two_pow_pos n
  have h := Int.emod_lt_of_pos x hpos
  have h0 := Int.emod_nonneg x (ne_of_gt hpos)
  unfold wrapN
  omega

theorem aluAdd_lt {t : Nat} (sat : Bool) (rm x y : Nat) (ht : t ∈ Card.arith) : aluAdd t sat rm x y < 2 ^ aluBits t := by
  unfold aluAdd
  split
  · next hf =>
    have h16 : t = 16 := by
      clear x y rm sat
      revert hf t
      decide
    subst h16
    exact Float.addVal_lt ..
  · dsimp only
    split
    · exact wrapN_lt ..
    · exact wrapN_lt ..

theorem aluMinMax_lt {t x y : Nat} (isMax : Bool) (ht : t ∈ Card.arith) (hx : x < 2 ^ aluBits t) (hy : y < 2 ^ aluBits t) :
    aluMinMax t isMax x y < 2 ^ aluBits t := by
  unfold aluMinMax
  split
  · next hf =>
    have h16 : t = 16 := by
      clear hx hy
      revert hf t
      decide
    subst h16
    exact Float.minMax_lt ..
  · dsimp only
    generalize (if isMax = true then _ else _ : Bool) = b
    cases b with
    | true => exact hy
    | false => exact hx

/-- A new value fits the type where what it comes from does (R62). -/
theorem aluNew_lt {op t : Nat} {sat : Bool} {rm o c d : Nat} (ht : t ∈ opTypes op) (ho : o < 2 ^ aluBits t) (hc : c < 2 ^ aluBits t) :
    aluNew op t sat rm o c d < 2 ^ aluBits t := by
  unfold aluNew
  match op with
  | 0 => exact aluAdd_lt sat rm o c ht
  | 1 => exact aluMinMax_lt false ht ho hc
  | 2 => exact aluMinMax_lt true ht ho hc
  | 3 => exact Nat.and_lt_two_pow o hc
  | 4 => exact Nat.or_lt_two_pow ho hc
  | 5 => exact Nat.xor_lt_two_pow ho hc
  | 6 => exact hc
  | n + 7 =>
    show (if o = d then c else o) < _
    split
    · exact hc
    · exact ho

end Sys2Proof.Machine

namespace Sys2Proof.Machine

/-! ### Lane atomics (R62, R126, R142) -/

/-- No other lane of an access overlaps this one. -/
def AloneIn (all : List HeldLane) (n : Nat) (y : HeldLane) : Prop := ∀ z ∈ all, z.lane ≠ y.lane → KeptApart n z y

/-- What atomics of lanes have done: bytes no lane covers stand, and a lane that no other overlaps has the old value of its place
and leaves the new one there. -/
structure AmoDone (m0 : Mem) (all : List HeldLane) (n : Nat) (new : Nat → Nat → Nat) (done : List HeldLane) (m : Mem)
    (vals : List (Nat × Nat)) : Prop where
  sub : ∀ y ∈ done, y ∈ all
  nodup : (done.map (·.lane)).Nodup
  lanes : vals.map (·.1) = done.map (·.lane)
  outside : ∀ a, (∀ y ∈ done, ¬(y.pa ≤ a ∧ a < y.pa + n)) → m.bytes.get a = m0.bytes.get a
  old : ∀ y ∈ done, AloneIn all n y → (y.lane, numAt m0.bytes.get y.pa n) ∈ vals
  stored : ∀ y ∈ done, AloneIn all n y → numAt m.bytes.get y.pa n = new y.lane (numAt m0.bytes.get y.pa n) % 256 ^ n

theorem amoDone_nil (m0 : Mem) (all : List HeldLane) (n : Nat) (new : Nat → Nat → Nat) : AmoDone m0 all n new [] m0 [] :=
  ⟨fun _ h => absurd h (by simp), List.nodup_nil, rfl, fun _ _ => rfl, fun _ h => absurd h (by simp), fun _ h => absurd h (by simp)⟩

/-- One lane more. -/
theorem AmoDone.snoc {m0 m m' : Mem} {all done : List HeldLane} {n : Nat} {new : Nat → Nat → Nat} {vals : List (Nat × Nat)} {y : HeldLane}
    (h : AmoDone m0 all n new done m vals) (hall : y ∈ all) (hy : ∀ x ∈ done, x.lane ≠ y.lane)
    (hm : ∀ a, m'.bytes.get a = storedAt m.bytes.get y.pa n (new y.lane (numAt m.bytes.get y.pa n)) a) :
    AmoDone m0 all n new (done ++ [y]) m' (vals ++ [(y.lane, numAt m.bytes.get y.pa n)]) := by
  have hfirst : AloneIn all n y → numAt m.bytes.get y.pa n = numAt m0.bytes.get y.pa n := fun halone =>
    numAt_congr (fun i hi => h.outside _ (fun z hz => by
      have hapart := halone z (h.sub z hz) (hy z hz)
      unfold KeptApart at hapart
      omega))
  have hmem : ∀ x, x ∈ done ++ [y] ↔ x ∈ done ∨ x = y := fun x => by rw [List.mem_append, List.mem_singleton]
  refine ⟨fun x hx => ?_, ?_, ?_, fun a hout => ?_, fun x hx halone => ?_, fun x hx halone => ?_⟩
  · rcases (hmem x).mp hx with hx | rfl
    · exact h.sub x hx
    · exact hall
  · rw [List.map_append, List.nodup_append]
    refine ⟨h.nodup, by simp, ?_⟩
    intro l hl l' hl' heq
    obtain ⟨x, hx, rfl⟩ := List.mem_map.mp hl
    rw [List.map_singleton, List.mem_singleton] at hl'
    exact hy x hx (heq.trans hl')
  · rw [List.map_append, List.map_append, h.lanes]
    rfl
  · rw [hm, storedAt_apart (hout y ((hmem y).mpr (.inr rfl)))]
    exact h.outside a (fun z hz => hout z ((hmem z).mpr (.inl hz)))
  · rw [List.mem_append, List.mem_singleton]
    rcases (hmem x).mp hx with hx | rfl
    · exact .inl (h.old x hx halone)
    · rw [hfirst halone]
      exact .inr rfl
  · rcases (hmem x).mp hx with hx | rfl
    · rw [← h.stored x hx halone]
      refine numAt_congr (fun i hi => ?_)
      have hapart := halone y hall (hy x hx).symm
      unfold KeptApart at hapart
      rw [hm, storedAt_apart (by omega)]
    · rw [← hfirst halone, ← numAt_storedAt m.bytes.get x.pa n]
      exact numAt_congr (fun i _ => hm _)

/-- The state of lanes' atomics on their way: memory, old values, stamps met, lanes of poisoned data. -/
abbrev AmoState := State × List (Nat × Nat) × List (Option (BitVec 128)) × List Nat

/-- One lane's atomic. -/
def amoStep (rel : Option Nat) (f : LaneWord) (r : AmoState) (x : HeldLane) : AmoState :=
  let n := typeBytes f.tyN
  (r.1.atomicPa false x.pa n (aluNew (f.mdN 4 2) f.tyN (f.sat == 1) f.rnd.toNat (r.1.mem.bytes.readNat x.pa n) (x.operand n) (x.compare n)) rel,
   r.2.1 ++ [(x.lane, r.1.mem.bytes.readNat x.pa n)], r.2.2.1 ++ [r.1.releaseStamp false x.pa n],
   r.2.2.2 ++ if poisoned r.1.mem.poison x.pa n then [x.lane] else [])

theorem amoLanes_eq (s : State) (rel : Option Nat) (f : LaneWord) (ys : List HeldLane) :
    s.amoLanes false rel f ys = ys.foldl (amoStep rel f) (s, [], [], []) := rfl

theorem atomicPa_get (s : State) (pa n x : Nat) (rel : Option Nat) (a : Nat) :
    (s.atomicPa false pa n x rel).mem.bytes.get a = storedAt s.mem.bytes.get pa n x a := by
  rw [atomicPa_mem]
  exact (congrArg (fun b => Cells.get b a) (Mem.store_bytes s.mem pa (bytesOf n x))).trans (congrFun (get_writeN_bytesOf ..) a)

theorem linksStand_atomicPa (s : State) (pa n x : Nat) (rel : Option Nat) : LinksStand s (s.atomicPa false pa n x rel) :=
  (LinksStand.of_links (stampsOnly_stampAtomic (s.modMem (·.store pa (bytesOf n x))) s.cur.1 false pa n rel).links).trans
    (linksStand_dropLines _ _ _ _)

theorem amoDone_foldl {m0 : Mem} {all : List HeldLane} {new : Nat → Nat → Nat} {rel : Option Nat} {f : LaneWord}
    (hnew : ∀ y ∈ all, ∀ old, aluNew (f.mdN 4 2) f.tyN (f.sat == 1) f.rnd.toNat old (y.operand (typeBytes f.tyN)) (y.compare (typeBytes f.tyN))
      = new y.lane old) :
    ∀ (zs : List HeldLane) (done : List HeldLane) (r : AmoState), (∀ y ∈ zs, y ∈ all) → ((done ++ zs).map (·.lane)).Nodup →
      AmoDone m0 all (typeBytes f.tyN) new done r.1.mem r.2.1 →
      BesideWarps r.1 (zs.foldl (amoStep rel f) r).1 ∧ LinksStand r.1 (zs.foldl (amoStep rel f) r).1
        ∧ AmoDone m0 all (typeBytes f.tyN) new (done ++ zs) (zs.foldl (amoStep rel f) r).1.mem (zs.foldl (amoStep rel f) r).2.1
  | [], done, r, _, _, h => ⟨BesideWarps.refl _, LinksStand.refl _, by rwa [List.append_nil]⟩
  | y :: zs, done, r, hall, hnodup, h => by
    obtain ⟨hy, hzs⟩ := List.forall_mem_cons.mp hall
    have hlane : ∀ x ∈ done, x.lane ≠ y.lane := by
      intro x hx heq
      rw [List.map_append, List.nodup_append] at hnodup
      exact hnodup.2.2 _ (List.mem_map_of_mem hx) _ (List.mem_map_of_mem (List.mem_cons_self ..)) heq
    have hread : r.1.mem.bytes.readNat y.pa (typeBytes f.tyN) = numAt r.1.mem.bytes.get y.pa (typeBytes f.tyN) := readNat_eq_numAt ..
    have hone : AmoDone m0 all (typeBytes f.tyN) new (done ++ [y]) (amoStep rel f r y).1.mem (amoStep rel f r y).2.1 := by
      unfold amoStep
      dsimp only
      rw [hread, hnew y hy]
      exact h.snoc hy hlane (fun a => atomicPa_get ..)
    obtain ⟨hbeside, hlinks, hfact⟩ := amoDone_foldl hnew zs (done ++ [y]) (amoStep rel f r y) hzs (by
      rwa [List.append_assoc, List.singleton_append]) hone
    rw [List.append_assoc, List.singleton_append] at hfact
    exact ⟨(besideWarps_atomicPa ..).trans hbeside, (linksStand_atomicPa _ _ _ _ _).trans hlinks, hfact⟩

/-- The same, of an access with its results so far. -/
def AmoFact (m0 : Mem) (all : List HeldLane) (f : LaneWord) (new : Nat → Nat → Nat) : LaneFact := fun done m _ ws =>
  ∃ vs, ws = markedWrites f.d (typeRegs f.tyN) vs ∧ AmoDone m0 all (typeBytes f.tyN) new done m (vs.map (fun v => (v.1, v.2.1)))

theorem amoStep_vals (rel : Option Nat) (f : LaneWord) (pre : List (Nat × Nat)) : ∀ (zs : List HeldLane) (s : State) (vals : List (Nat × Nat))
    (sts : List (Option (BitVec 128))) (pz : List Nat),
    zs.foldl (amoStep rel f) (s, pre ++ vals, sts, pz)
      = ((zs.foldl (amoStep rel f) (s, vals, sts, pz)).1, pre ++ (zs.foldl (amoStep rel f) (s, vals, sts, pz)).2.1,
          (zs.foldl (amoStep rel f) (s, vals, sts, pz)).2.2)
  | [], _, _, _, _ => rfl
  | y :: zs, s, vals, sts, pz => by
    rw [List.foldl_cons, List.foldl_cons]
    unfold amoStep
    dsimp only
    rw [List.append_assoc]
    exact amoStep_vals rel f pre zs ..

theorem actsBy_amo {b : State} {a0 : Access} {sc : BitVec 2} {f : LaneWord} {all : List HeldLane} {rs : List (Req × Mask)} {m0 : Mem}
    {new : Nat → Nat → Nat} (hi : a0.i = .vamo sc f) (hall : DistinctLanes all)
    (hnew : ∀ y ∈ all, ∀ old, aluNew (f.mdN 4 2) f.tyN (f.sat == 1) f.rnd.toNat old (y.operand (typeBytes f.tyN)) (y.compare (typeBytes f.tyN))
      = new y.lane old) :
    ActsBy b a0 (typeBytes f.tyN) all rs (AmoFact m0 all f new) := by
  intro s a done ys hs hsame hys _ hsep hP
  have hai : a.i = .vamo sc f := by rw [hsame]; exact hi
  obtain ⟨vs, hws, hdone⟩ := hP
  have hfold := amoDone_foldl (rel := a.rel) hnew ys done (s, vs.map (fun v => (v.1, v.2.1)), [], []) (fun y hy => hys.subset hy)
    (nodup_lanes hall hys hdone.nodup hsep) hdone
  have hpre := amoStep_vals a.rel f (vs.map (fun v => (v.1, v.2.1))) ys s [] [] []
  rw [List.append_nil] at hpre
  rw [hpre] at hfold
  set r := ys.foldl (amoStep a.rel f) (s, [], [], []) with hr
  obtain ⟨hbeside, hlinks, hfact⟩ := hfold
  refine ⟨r.1, a.writes ++ laneWrites f.d (typeRegs f.tyN) (fun l => r.2.2.2.contains l) r.2.1, a.stamps ++ r.2.2.1, ?_,
    hbeside.passes hs.path, hlinks, vs ++ r.2.1.map (fun x => (x.1, x.2, r.2.2.2.contains x.1)), ?_, ?_⟩
  · unfold State.act
    simp only [hai]
    unfold State.actAmo
    simp only [amoLanes_eq, ← hr]
  · rw [hws, laneWrites_eq, markedWrites_append]
  · rw [List.map_append, List.map_map]
    have hid : ((fun v : Nat × Nat × Bool => (v.1, v.2.1)) ∘ fun x : Nat × Nat => (x.1, x.2, r.2.2.2.contains x.1)) = id := rfl
    rw [hid, List.map_id]
    exact hfact

theorem vWide_lt (w : Warp) (l : Nat) : ∀ k n, w.vWide n l k < 2 ^ (32 * k)
  | 0, _ => by simp [Warp.vWide]
  | k + 1, n => by
    have ih := vWide_lt w l k (n + 1)
    have hreg := (w.vReg n l).isLt
    rw [Warp.vWide, Nat.mul_succ, pow_add, Nat.mul_comm (2 ^ (32 * k))]
    have hmul : 2 ^ 32 * (w.vWide (n + 1) l k + 1) ≤ 2 ^ 32 * 2 ^ (32 * k) := Nat.mul_le_mul_left _ ih
    omega

/-- An operand of a type an atomic takes is of as many bytes as its access. -/
theorem aluBits_typeBytes {op t : Nat} (h : t ∈ opTypes op) : 2 ^ aluBits t = 256 ^ typeBytes t := by
  have hall : t ∈ Card.all7 := by
    unfold opTypes at h
    split at h
    · revert h t; decide
    split at h
    · revert h t; decide
    · exact h
  have hbytes : typeBytes t = 4 * typeRegs t := by
    clear h
    revert hall t
    decide
  rw [hbytes, aluBits, show (256 : Nat) = 2 ^ 8 from rfl, ← pow_mul]
  congr 1
  omega

theorem vamo_types {sc : BitVec 2} {f : LaneWord} {s : State} (hr : lanesReady (.vamo sc f) s) : f.tyN ∈ opTypes (f.mdN 4 2) := by
  have hwf : Instr.wf (.vamo sc f) = true := by
    have h := hr.2
    simp only [laneReady, Bool.and_eq_true] at h
    exact h.1.1.1.2
  simp only [Instr.wf, Instr.illegal, laneCard, Card.illegal, Option.isNone_iff_eq_none] at hwf
  split at hwf
  · simp at hwf
  · next htype =>
    simpa [Card.typeOk, cardAmo] using htype

theorem operands_amoData {w : Warp} {f : LaneWord} {y : HeldLane} {op : Nat} (ht : f.tyN ∈ opTypes op)
    (hy : y.data = amoData w f (typeBytes f.tyN) y.lane) :
    y.operand (typeBytes f.tyN) = w.rd f f.c y.lane ∧ y.compare (typeBytes f.tyN) = w.rd f f.a y.lane := by
  have hlt : ∀ r, w.rd f r y.lane < 256 ^ typeBytes f.tyN := fun r => aluBits_typeBytes ht ▸ vWide_lt ..
  unfold HeldLane.operand HeldLane.compare
  rw [hy, amoData, List.take_left' (length_bytesOf ..), List.drop_left' (length_bytesOf ..), ofBytes_bytesOf _ _ (hlt _),
    ofBytes_bytesOf _ _ (hlt _)]
  exact ⟨rfl, rfl⟩

/-- The new value of a lane's atomic by its old one. -/
def laneNew (w : Warp) (f : LaneWord) (l old : Nat) : Nat :=
  aluNew (f.mdN 4 2) f.tyN (f.sat == 1) f.rnd.toNat old (w.rd f f.c l) (w.rd f f.a l)

/-- What an accepted atomic of lanes holds and has left in memory. -/
structure AmoLanes (s s1 t : State) (f : LaneWord) (xs : List LaneAcc) (ws : List RegWrite) (vs : List (Nat × Nat × Bool)) : Prop where
  writes : ws = markedWrites f.d (typeRegs f.tyN) vs
  bound : ∀ v ∈ vs, v.1 < 128
  nodup : (vs.map (·.1)).Nodup
  lanes : ∀ l, l ∈ vs.map (·.1) ↔ l ∈ s.actLanes f
  outside : ∀ a, (∀ x ∈ xs, ¬(x.pa ≤ a ∧ a < x.pa + typeBytes f.tyN)) → t.byte a = s1.byte a
  old : ∀ x ∈ xs, alone xs (typeBytes f.tyN) x → ∃ v ∈ vs, v.1 = x.lane ∧ v.2.1 = numAt s1.byte x.pa (typeBytes f.tyN)
  stored : ∀ x ∈ xs, alone xs (typeBytes f.tyN) x → numAt t.byte x.pa (typeBytes f.tyN)
    = laneNew s.cw f x.lane (numAt s1.byte x.pa (typeBytes f.tyN)) % 256 ^ typeBytes f.tyN

theorem amoLanes_of_fact {s s1 t : State} {f : LaneWord} {xs : List LaneAcc} {data : Nat → List Byte} {done : List HeldLane}
    {ws : List RegWrite} (hp : LanesPass s f (typeBytes f.tyN) s1 xs)
    (h : AmoFact s1.mem (heldOf data xs) f (laneNew s.cw f) done t.mem t.cores ws) (hdone : ∀ x, x ∈ done ↔ x ∈ heldOf data xs) :
    ∃ vs, AmoLanes s s1 t f xs ws vs := by
  obtain ⟨vs, hws, hfact⟩ := h
  have hlanes : vs.map (·.1) = done.map (·.lane) := by
    rw [← hfact.lanes, List.map_map]
    rfl
  have hiff : ∀ l, l ∈ vs.map (·.1) ↔ l ∈ s.actLanes f := fun l => by rw [hlanes]; exact hp.lanes_iff hdone l
  have hacc : ∀ y ∈ heldOf data xs, y.acc ∈ xs := fun y hy => (mem_heldOf.mp hy).1
  have hheld : ∀ x ∈ xs, ({ lane := x.lane, ea := x.ea, pa := x.pa, data := data x.lane } : HeldLane) ∈ done := fun x hx =>
    (hdone _).mpr (List.mem_map_of_mem (f := fun x : LaneAcc => ({ lane := x.lane, ea := x.ea, pa := x.pa, data := data x.lane } : HeldLane)) hx)
  have halone : ∀ x ∈ xs, alone xs (typeBytes f.tyN) x →
      AloneIn (heldOf data xs) (typeBytes f.tyN) { lane := x.lane, ea := x.ea, pa := x.pa, data := data x.lane } :=
    fun x _ hx z hz hne => hx z.acc (hacc z hz) hne
  refine ⟨vs, hws, fun v hv => (mem_actLanes.mp ((hiff v.1).mp (List.mem_map_of_mem hv))).1, hlanes ▸ hfact.nodup, hiff,
    fun a hout => hfact.outside a (fun y hy => hout _ (hacc y ((hdone y).mp hy))), fun x hx hx' => ?_,
    fun x hx hx' => hfact.stored _ (hheld x hx) (halone x hx hx')⟩
  obtain ⟨v, hv, heq⟩ := List.mem_map.mp (hfact.old _ (hheld x hx) (halone x hx hx'))
  exact ⟨v, hv, congrArg Prod.fst heq, congrArg Prod.snd heq⟩

/-- An atomic of lanes that all pass is accepted, with the old values it found. -/
theorem vamo_accepted {sc : BitVec 2} {f : LaneWord} {s s1 : State} {xs : List LaneAcc} (hr : lanesReady (.vamo sc f) s)
    (h : LanesFound s f (typeBytes f.tyN) .atomic s1 xs) :
    ∃ t a vs, exec (.vamo sc f) s = .next (t.keepAccess a)
      ∧ LaneAccepted s t a f.la.toNat (xs.all (fun x => !isDrawer x.pa)) ∧ AmoLanes s s1 t f xs a.writes vs := by
  set data : Warp → Nat → List Byte := fun w l => amoData w f (typeBytes f.tyN) l with hdata
  have he : exec (.vamo sc f) s = .next (s.laneMemory (.vamo sc f) f .atomic (vDests f.d (typeRegs f.tyN)) data) := by
    refine (laneForm_ready _ (fun _ h => by cases h) hr.1 hr.2).trans ?_
    simp only [State.performed_quiet hr.1, Bool.not_true, Bool.and_false, Bool.false_eq_true, if_false]
    rfl
  obtain ⟨t, a, done, htake, hacc, hfact, hdone⟩ := laneMemory_accepted (i := .vamo sc f) (data := data) (dests := vDests f.d (typeRegs f.tyN))
    (P := AmoFact s1.mem (heldOf (data s.cw) xs) f (laneNew s.cw f)) trivial (laneReady_path hr.2) h (fun hno => absurd hno (by simp [atomicOrder]))
    (fun b a0 _ _ hi _ => actsBy_amo hi (h.pass.distinct _) (fun y hy old => by
      obtain ⟨hop, hcmp⟩ := operands_amoData (vamo_types hr) (mem_heldOf.mp hy).2
      rw [hop, hcmp]
      rfl))
    ⟨[], rfl, amoDone_nil _ _ _ _⟩
  obtain ⟨vs, hvs⟩ := amoLanes_of_fact h.pass hfact hdone
  rw [show isStore (.vamo sc f) = false from rfl, Bool.or_false] at hacc
  exact ⟨t, a, vs, he.trans (congrArg _ htake), hacc, hvs⟩

/-- What a warp reads once the old values of an atomic are written in it. -/
theorem AmoLanes.read {s s1 t : State} {f : LaneWord} {xs : List LaneAcc} {ws : List RegWrite} {vs : List (Nat × Nat × Bool)}
    (h : AmoLanes s s1 t f xs ws vs) (w : Warp) (k : Nat) (hw : w.v = s.cw.v) :
    (∀ x ∈ xs, alone xs (typeBytes f.tyN) x → ∀ j, j < typeRegs f.tyN → (w.applyAll k ws).vReg (f.d.toNat + j) x.lane
        = BitVec.ofNat 32 (numAt s1.byte x.pa (typeBytes f.tyN) >>> (32 * j)))
      ∧ ∀ r l, l < 128 → writesLane s f (typeRegs f.tyN) r l = false → (w.applyAll k ws).vReg r l = s.cw.vReg r l := by
  have hread := applyAll_markedWrites k f.d (typeRegs f.tyN) vs w h.bound h.nodup
  rw [h.writes]
  refine ⟨fun x hx hx' j hj => ?_, hread.frame_of hw h.lanes⟩
  obtain ⟨v, hv, hlane, hval⟩ := h.old x hx hx'
  rw [← hlane, ← hval]
  exact hread.value v hv j hj

/-- What stands in memory is the table's new value. -/
theorem AmoLanes.row {s s1 t u : State} {sc : BitVec 2} {f : LaneWord} {xs : List LaneAcc} {ws : List RegWrite}
    {vs : List (Nat × Nat × Bool)} (h : AmoLanes s s1 t f xs ws vs) (hr : lanesReady (.vamo sc f) s) (hmem : u.mem = t.mem) :
    (∀ a, (∀ x ∈ xs, ¬(x.pa ≤ a ∧ a < x.pa + typeBytes f.tyN)) → u.byte a = s1.byte a)
      ∧ ∀ x ∈ xs, alone xs (typeBytes f.tyN) x → AtomicRow (f.mdN 4 2) f.tyN (f.sat == 1) f.rnd.toNat
          (numAt s1.byte x.pa (typeBytes f.tyN)) (s.cw.rd f f.c x.lane) (s.cw.rd f f.a x.lane) (numAt u.byte x.pa (typeBytes f.tyN))
        ∧ numAt u.byte x.pa (typeBytes f.tyN) = laneNew s.cw f x.lane (numAt s1.byte x.pa (typeBytes f.tyN)) % 256 ^ typeBytes f.tyN := by
  have hbyte : u.byte = t.byte := State.byte_congr (by rw [hmem])
  have htypes := vamo_types hr
  rw [hbyte]
  refine ⟨h.outside, fun x hx hx' => ⟨?_, h.stored x hx hx'⟩⟩
  have hbits := aluBits_typeBytes htypes
  rw [h.stored x hx hx', Nat.mod_eq_of_lt]
  · exact atomicRow_aluNew _ _ _ _ _ _ _
  · rw [← hbits]
    exact aluNew_lt htypes (hbits ▸ numAt_lt ..) (vWide_lt ..)

/-- Settles O22: a store's bytes stand once its access is accepted; an atomic's new values do, and its old ones are written at once
or stand in a window. -/
theorem laneStoresAndAtomics : Obligations.LaneStoresAndAtomics := by
  unfold Obligations.LaneStoresAndAtomics
  refine ⟨?_, ?_, atomicRow_aluNew⟩
  · intro f s s1 xs hr h hrace
    have hfound : LanesFound s f (typeBytes f.tyN) .write s1 xs := h.elim .of_reach .of_drawer
    obtain ⟨t, a, he, hacc, hwrites, hstored⟩ := vst_accepted hr hfound hrace
    refine ⟨fun hla => ?_, fun hla hst hmore => ?_⟩
    · rw [la_toNat hla] at hacc
      obtain ⟨v, heffect, hkept, hscal, hmem, w, hw, hcw⟩ := hacc.visible he hr (fun w k => by rw [hwrites]; exact SameButLanes.refl w)
      rw [hwrites] at hcw
      obtain ⟨hout, hin⟩ := hstored.congr hmem
      exact ⟨v, heffect, hkept, hscal, by rw [hcw]; exact hw, hfound.pass.lanes, hout, hin⟩
    · obtain ⟨u, d, hu, hwaits, hd, hmem⟩ := hacc.opens he hr hst hmore (.inl (fun h0 => hla (BitVec.eq_of_toNat_eq h0)))
      obtain ⟨hout, hin⟩ := hstored.congr hmem
      exact ⟨u, d, hu, hwaits, hd.trans hwrites, hfound.pass.lanes, hout, hin⟩
  · intro sc f s s1 xs hr
    refine ⟨fun hla h => ?_, fun hst hmore h => ?_⟩
    · have hfound := LanesFound.of_reach h
      obtain ⟨t, a, vs, he, hacc, hvs⟩ := vamo_accepted hr hfound
      rw [la_toNat hla, all_near h.place] at hacc
      obtain ⟨v, heffect, hkept, hscal, hmem, w, hw, hcw⟩ := hacc.visible he hr (fun w k => by
        rw [hvs.writes]; exact (applyAll_markedWrites k _ _ vs w hvs.bound hvs.nodup).same)
      have hresults := hvs.read w s.cur.2 hw
      rw [← hcw] at hresults
      exact ⟨v, heffect, hkept, hscal, hfound.pass.lanes, hvs.row hr hmem, hresults⟩
    · have hfound : LanesFound s f (typeBytes f.tyN) .atomic s1 xs := h.elim (fun h => .of_reach h.2) (fun h => .of_drawer h)
      obtain ⟨t, a, vs, he, hacc, hvs⟩ := vamo_accepted hr hfound
      obtain ⟨u, d, hu, hwaits, hwrites, hmem⟩ := hacc.opens he hr hst hmore
        (h.imp (fun h h0 => h.1 (BitVec.eq_of_toNat_eq h0)) DrawerReach.not_near)
      exact ⟨u, d, hu, hwaits, hfound.pass.lanes, hvs.row hr hmem, by rw [hwrites]; exact hvs.read s.cw s.cur.2 rfl⟩

end Sys2Proof.Machine

namespace Sys2Proof.Float

/-! ## Rounding to nearest: O13 -/

/-- The rational value of ±m × 2^e. -/
def ratio (neg : Bool) (m : Nat) (e : Int) : ℚ := (if neg then -(m : ℚ) else m) * 2 ^ e

theorem two_zpow_pos (e : Int) : (0 : ℚ) < 2 ^ e := zpow_pos (by norm_num) e

theorem toInt_eq_ratio {neg : Bool} {m : Nat} {e q : Int} (h : q ≤ e) : ((toInt neg m e q : Int) : ℚ) = ratio neg m e / 2 ^ q := by
  have hshift : ((m <<< (e - q).toNat : Nat) : ℚ) = m * 2 ^ (e - q) := by
    rw [Nat.shiftLeft_eq]
    push_cast
    rw [← zpow_natCast, Int.toNat_of_nonneg (by omega)]
  have hdiv : ∀ x : ℚ, x * 2 ^ e / 2 ^ q = x * 2 ^ (e - q) := by
    intro x
    rw [zpow_sub₀ (by norm_num), mul_div_assoc]
  have hcast : (((m <<< (e - q).toNat : Nat) : Int) : ℚ) = m * 2 ^ (e - q) := by rw [Int.cast_natCast, hshift]
  unfold toInt ratio
  rw [hdiv]
  cases neg with
  | false => exact hcast
  | true =>
    show ((-((m <<< (e - q).toNat : Nat) : Int) : Int) : ℚ) = -(m : ℚ) * 2 ^ (e - q)
    rw [Int.cast_neg, hcast, neg_mul]

theorem natAbs_le_iff {a b : Int} {x y p : ℚ} (hp : 0 < p) (ha : (a : ℚ) = x / p) (hb : (b : ℚ) = y / p) :
    a.natAbs ≤ b.natAbs ↔ |x| ≤ |y| := by
  have habs : a.natAbs ≤ b.natAbs ↔ |a| ≤ |b| := by rw [Int.abs_eq_natAbs, Int.abs_eq_natAbs]; exact Int.ofNat_le.symm
  have hcast : |a| ≤ |b| ↔ |(a : ℚ)| ≤ |(b : ℚ)| := by exact_mod_cast Iff.rfl
  rw [habs, hcast, ha, hb, abs_div, abs_div, div_le_div_iff_of_pos_right (abs_pos.mpr hp.ne')]

/-! ### The multiple a value is rounded to -/

/-- Rounding to nearest gives an integer within a half, inexact where it differs. -/
theorem roundShift_near (neg : Bool) (m sh : Nat) :
    |((roundShift 0 neg m sh false).1 : ℚ) - m / 2 ^ sh| ≤ 1 / 2
      ∧ ((roundShift 0 neg m sh false).2 = false ↔ (m : ℚ) / 2 ^ sh = (roundShift 0 neg m sh false).1) := by
  have hpow : (0 : ℚ) < 2 ^ sh := by positivity
  have hsplit : (m : ℚ) = (m / 2 ^ sh : Nat) * 2 ^ sh + (m % 2 ^ sh : Nat) := by
    exact_mod_cast (Nat.div_add_mod' m (2 ^ sh)).symm
  have hlt : m % 2 ^ sh < 2 ^ sh := Nat.mod_lt _ (Nat.two_pow_pos sh)
  unfold roundShift
  simp only [Nat.shiftRight_eq_div_pow, Bool.or_false, Bool.false_or]
  generalize hk : m / 2 ^ sh = k at hsplit
  generalize hr : m % 2 ^ sh = r at hsplit hlt
  have hy : (m : ℚ) / 2 ^ sh = k + r / 2 ^ sh := by
    rw [hsplit]
    field_simp
  have hfrac : (r : ℚ) / 2 ^ sh < 1 := by
    rw [div_lt_one hpow]
    exact_mod_cast hlt
  have hfrac0 : (0 : ℚ) ≤ r / 2 ^ sh := by positivity
  have hhalf : ∀ c : Nat, ((c : ℚ) / 2 ^ sh ≤ 1 / 2 ↔ 2 * c ≤ 2 ^ sh) := by
    intro c
    rw [div_le_div_iff₀ hpow (by norm_num), one_mul]
    constructor
    · intro h
      have : ((c * 2 : Nat) : ℚ) ≤ (2 ^ sh : Nat) := by push_cast; exact h
      have := Nat.cast_le.mp this
      omega
    · intro h
      have : ((c * 2 : Nat) : ℚ) ≤ (2 ^ sh : Nat) := Nat.cast_le.mpr (by omega)
      push_cast at this
      exact this
  rw [hy]
  split
  · next hup =>
    have hge : 2 ^ sh ≤ 2 * r := by
      simp only [Bool.or_eq_true, Bool.and_eq_true, decide_eq_true_eq] at hup
      omega
    have hpos : r ≠ 0 := by
      have := Nat.two_pow_pos sh
      omega
    have hupper : 1 / 2 ≤ (r : ℚ) / 2 ^ sh := by
      rw [div_le_div_iff₀ (by norm_num) hpow, one_mul]
      exact_mod_cast (by omega : 2 ^ sh ≤ r * 2)
    push_cast
    refine ⟨abs_le.mpr ⟨by linarith, by linarith⟩, ?_⟩
    simp only [hpos, ne_eq, not_false_eq_true, decide_true, Bool.true_eq_false, false_iff]
    intro h
    linarith
  · next hup =>
    have hle : 2 * r ≤ 2 ^ sh := by
      simp only [Bool.or_eq_true, Bool.and_eq_true, decide_eq_true_eq, not_or] at hup
      omega
    have hlower := (hhalf r).mpr hle
    refine ⟨abs_le.mpr ⟨by linarith, by linarith⟩, ?_⟩
    have hzero : (r : ℚ) / 2 ^ sh = 0 ↔ r = 0 := by
      rw [div_eq_zero_iff, Nat.cast_eq_zero, or_iff_left hpow.ne']
    rw [add_eq_left, hzero]
    simp

/-- The multiple of 2^q a value is rounded to, as rationals. -/
theorem roundAt_near (neg : Bool) (m : Nat) (e q : Int) :
    |((roundAt 0 neg m e q false).1 : ℚ) - m * 2 ^ (e - q)| ≤ 1 / 2
      ∧ ((roundAt 0 neg m e q false).2 = false ↔ (m : ℚ) * 2 ^ (e - q) = (roundAt 0 neg m e q false).1) := by
  unfold roundAt
  split
  · next h =>
    have hshift : ((m <<< (e - q).toNat : Nat) : ℚ) = m * 2 ^ (e - q) := by
      rw [Nat.shiftLeft_eq]
      push_cast
      rw [← zpow_natCast, Int.toNat_of_nonneg (by omega)]
    rw [hshift]
    exact ⟨by simp, by simp⟩
  · next h =>
    have hdiv : (m : ℚ) * 2 ^ (e - q) = m / 2 ^ (q - e).toNat := by
      rw [div_eq_mul_inv, ← zpow_natCast, ← zpow_neg, Int.toNat_of_nonneg (by omega), neg_sub]
    rw [hdiv]
    exact roundShift_near neg m _

/-- An integer within a half is a nearest one. -/
theorem nearest_of_half {y : ℚ} {r : Nat} (h : |(r : ℚ) - y| ≤ 1 / 2) (k : Int) : |y - r| ≤ |y - k| := by
  rw [abs_sub_comm] at h
  by_cases hk : k = r
  · rw [hk, Int.cast_natCast]
  · have hone : (1 : ℚ) ≤ |((k - r : Int) : ℚ)| := by
      have : 1 ≤ |k - (r : Int)| := Int.one_le_abs (sub_ne_zero.mpr hk)
      exact_mod_cast this
    have htri : |((k - r : Int) : ℚ)| ≤ |y - r| + |y - k| := by
      push_cast
      calc |(k : ℚ) - r| = |(y - r) - (y - k)| := by ring_nf
        _ ≤ |y - r| + |y - k| := abs_sub _ _
    linarith

/-! ### The pattern of a rounded value -/

theorem bitLen_bounds {m : Nat} (h : m ≠ 0) : 2 ^ (bitLen m - 1) ≤ m ∧ m < 2 ^ bitLen m := by
  rw [bitLen, if_neg h, Nat.add_sub_cancel]
  exact ⟨Nat.log2_self_le h, Nat.lt_log2_self⟩

/-- A pattern below the infinity reads a value of its sign, by its exponent and fraction. -/
theorem read_finite {f : Fmt} {neg : Bool} {mag : Nat} (h : mag < f.inf false) :
    read f (f.zero neg + mag) = if mag / 2 ^ f.fw = 0 then .num neg (mag % 2 ^ f.fw) f.qmin
      else .num neg (mag % 2 ^ f.fw + 2 ^ f.fw) (f.qmin + (mag / 2 ^ f.fw : Nat) - 1) := by
  have hfw : 0 < 2 ^ f.fw := Nat.two_pow_pos _
  have hinf : f.inf false = (2 ^ f.ew - 1) * 2 ^ f.fw := by simp [Fmt.inf, boolNat]
  have hexp : mag / 2 ^ f.fw < 2 ^ f.ew - 1 := by
    rw [Nat.div_lt_iff_lt_mul hfw, ← hinf]
    exact h
  have hlt : mag / 2 ^ f.fw < 2 ^ f.ew := Nat.lt_of_lt_of_le hexp (Nat.sub_le _ _)
  have hzero : f.zero neg = 2 ^ f.fw * (2 ^ f.ew * boolNat neg) := by
    rw [Fmt.zero, pow_add]
    ring
  have hlow : (f.zero neg + mag) % 2 ^ f.fw = mag % 2 ^ f.fw := by rw [hzero, Nat.mul_add_mod]
  have hmid : (f.zero neg + mag) >>> f.fw = 2 ^ f.ew * boolNat neg + mag / 2 ^ f.fw := by
    rw [Nat.shiftRight_eq_div_pow, hzero, Nat.mul_add_div hfw]
  have hhigh : (f.zero neg + mag) >>> (f.ew + f.fw) = boolNat neg := by
    rw [Nat.add_comm f.ew, Nat.shiftRight_add, hmid, Nat.shiftRight_eq_div_pow, Nat.mul_add_div (Nat.two_pow_pos _),
      Nat.div_eq_of_lt hlt, Nat.add_zero]
  have hmid' : (f.zero neg + mag) >>> f.fw % 2 ^ f.ew = mag / 2 ^ f.fw := by
    rw [hmid, Nat.mul_add_mod, Nat.mod_eq_of_lt hlt]
  have hsign : decide (boolNat neg % 2 = 1) = neg := by cases neg <;> rfl
  unfold read
  simp only [hlow, hhigh, hmid', hsign]
  rw [if_neg (Nat.ne_of_lt hexp)]

/-- What a finite pattern of a format reads. -/
theorem read_num_bounds {f : Fmt} {x m : Nat} {s : Bool} {e : Int} (h : read f x = .num s m e) : m < 2 ^ (f.fw + 1) ∧ f.qmin ≤ e := by
  have hfrac : x % 2 ^ f.fw < 2 ^ f.fw := Nat.mod_lt _ (Nat.two_pow_pos _)
  have hpow : 2 ^ (f.fw + 1) = 2 ^ f.fw + 2 ^ f.fw := by rw [pow_succ]; omega
  unfold read at h
  dsimp only at h
  split at h
  · split at h
    · cases h
    · cases h
  split at h
  · obtain ⟨-, rfl, rfl⟩ := Val.num.inj h
    exact ⟨by omega, le_refl _⟩
  · next hexp =>
    obtain ⟨-, rfl, rfl⟩ := Val.num.inj h
    exact ⟨by omega, by omega⟩

/-- A finite pattern read as a value of its sign: exponents and fractions follow each other without a gap. -/
theorem read_mag {f : Fmt} {neg : Bool} {d r : Nat} (hr : r ≤ 2 ^ (f.fw + 1)) (hd : d = 0 ∨ 2 ^ f.fw ≤ r)
    (h : d * 2 ^ f.fw + r < f.inf false) :
    ∃ m e, read f (f.zero neg + (d * 2 ^ f.fw + r)) = .num neg m e ∧ ratio neg m e = ratio neg r (f.qmin + d) := by
  have hfw : 0 < 2 ^ f.fw := Nat.two_pow_pos _
  have hpow : 2 ^ (f.fw + 1) = 2 ^ f.fw + 2 ^ f.fw := by rw [pow_succ]; omega
  have hdiv : (d * 2 ^ f.fw + r) / 2 ^ f.fw = d + r / 2 ^ f.fw := by rw [Nat.mul_comm, Nat.mul_add_div hfw]
  have hmod : (d * 2 ^ f.fw + r) % 2 ^ f.fw = r % 2 ^ f.fw := by rw [Nat.mul_comm, Nat.mul_add_mod]
  rw [read_finite h, hdiv, hmod]
  rcases Nat.lt_or_ge r (2 ^ f.fw) with hlow | hlow
  · obtain rfl : d = 0 := hd.resolve_right (by omega)
    rw [Nat.div_eq_of_lt hlow, Nat.mod_eq_of_lt hlow, if_pos rfl]
    exact ⟨_, _, rfl, by rw [Nat.cast_zero, add_zero]⟩
  rcases Nat.lt_or_ge r (2 ^ (f.fw + 1)) with hmid | hhigh
  · have hq : r / 2 ^ f.fw = 1 := Nat.div_eq_of_lt_le (by omega) (by omega)
    have hm : r % 2 ^ f.fw + 2 ^ f.fw = r := by rw [Nat.mod_eq_sub_mod hlow, Nat.mod_eq_of_lt (by omega)]; omega
    rw [hq, if_neg (by omega), hm]
    exact ⟨_, _, rfl, by push_cast; congr 1; ring⟩
  · obtain rfl : r = 2 ^ (f.fw + 1) := by omega
    have hq : 2 ^ (f.fw + 1) / 2 ^ f.fw = 2 := by rw [pow_succ, Nat.mul_comm, Nat.mul_div_cancel _ hfw]
    have hm : 2 ^ (f.fw + 1) % 2 ^ f.fw = 0 := by rw [pow_succ, Nat.mul_mod_right]
    rw [hq, hm, if_neg (by omega), Nat.zero_add]
    refine ⟨_, _, rfl, ?_⟩
    have hexp : f.qmin + ((d + 2 : Nat) : Int) - 1 = (f.qmin + d) + 1 := by push_cast; ring
    have htwo : (2 : ℚ) ^ (f.qmin + (d : Int) + 1) = 2 ^ (f.qmin + (d : Int)) * 2 := zpow_add_one₀ (by norm_num) _
    rw [hexp]
    unfold ratio
    rw [htwo]
    push_cast
    rw [pow_succ]
    cases neg <;> simp <;> ring

/-! ### No finite value is nearer -/

/-- Rounding of m × 2^e to the multiple r of 2^q its format keeps. -/
structure KeptMultiple (f : Fmt) (m : Nat) (e q : Int) (r : Nat) : Prop where
  least : f.qmin ≤ q
  near : |(r : ℚ) - m * 2 ^ (e - q)| ≤ 1 / 2
  normal : q = f.qmin ∨ (2 : ℚ) ^ f.fw ≤ m * 2 ^ (e - q)

theorem ratio_le (neg : Bool) (m : Nat) (e : Int) : ratio neg m e ≤ m * 2 ^ e := by
  have hpos : (0 : ℚ) ≤ m * 2 ^ e := mul_nonneg (Nat.cast_nonneg _) (two_zpow_pos e).le
  unfold ratio
  cases neg with
  | false => exact le_refl _
  | true =>
    simp only [if_true, neg_mul]
    linarith

/-- No finite value of the format lies nearer, in units of the multiple's place. -/
theorem KeptMultiple.nearest {f : Fmt} {m r n : Nat} {e q k : Int} (h : KeptMultiple f m e q r) (neg : Bool) (hn : n < 2 ^ (f.fw + 1))
    (hk : f.qmin ≤ k) : |(m : ℚ) * 2 ^ (e - q) - r| ≤ |(m : ℚ) * 2 ^ (e - q) - ratio neg n k / 2 ^ q| := by
  rcases Int.lt_or_le k q with hlt | hle
  · have hnormal := h.normal.resolve_left (by omega)
    have hnear := nearest_of_half h.near ((2 ^ f.fw : Nat) : Int)
    push_cast at hnear
    have hbelow : ratio neg n k / 2 ^ q ≤ 2 ^ f.fw := by
      rw [div_le_iff₀ (two_zpow_pos q)]
      have hn' : (n : ℚ) ≤ 2 ^ f.fw * 2 := by
        have : ((n : Nat) : ℚ) ≤ ((2 ^ (f.fw + 1) : Nat) : ℚ) := Nat.cast_le.mpr hn.le
        rw [pow_succ] at this
        exact_mod_cast this
      have hk' : (2 : ℚ) * 2 ^ k ≤ 2 ^ q := by
        rw [mul_comm, ← zpow_add_one₀ (by norm_num)]
        exact zpow_le_zpow_right₀ (by norm_num) hlt
      calc ratio neg n k ≤ n * 2 ^ k := ratio_le ..
        _ ≤ 2 ^ f.fw * 2 * 2 ^ k := mul_le_mul_of_nonneg_right hn' (two_zpow_pos k).le
        _ = 2 ^ f.fw * (2 * 2 ^ k) := mul_assoc ..
        _ ≤ 2 ^ f.fw * 2 ^ q := mul_le_mul_of_nonneg_left hk' (by positivity)
    rw [abs_of_nonneg (by linarith : (0 : ℚ) ≤ m * 2 ^ (e - q) - 2 ^ f.fw)] at hnear
    rw [abs_of_nonneg (by linarith : (0 : ℚ) ≤ m * 2 ^ (e - q) - ratio neg n k / 2 ^ q)]
    linarith
  · rw [← toInt_eq_ratio hle]
    exact nearest_of_half h.near _

/-- The multiple a nonzero value is rounded to. -/
theorem keptMultiple_round (f : Fmt) (neg : Bool) {m : Nat} (e : Int) (hm : m ≠ 0) :
    let q := max (e + bitLen m - 1 - f.fw) f.qmin
    KeptMultiple f m e q (roundAt 0 neg m e q false).1 ∧ (m : ℚ) * 2 ^ (e - q) ≤ 2 ^ (f.fw + 1) := by
  intro q
  obtain ⟨hlow, hhigh⟩ := bitLen_bounds hm
  have hpos : 0 < bitLen m := by rw [bitLen, if_neg hm]; omega
  refine ⟨⟨le_max_right _ _, (roundAt_near neg m e q).1, ?_⟩, ?_⟩
  · rcases max_choice (e + bitLen m - 1 - f.fw) f.qmin with hq | hq
    · right
      have hlow' : ((2 : ℚ)) ^ ((bitLen m - 1 : Nat) : Int) ≤ m := by rw [zpow_natCast]; exact_mod_cast hlow
      calc (2 : ℚ) ^ f.fw = 2 ^ ((bitLen m - 1 : Nat) : Int) * 2 ^ (e - q) := by
            rw [← zpow_add₀ (by norm_num), ← zpow_natCast]
            congr 1
            show ((f.fw : Nat) : Int) = _
            omega
        _ ≤ m * 2 ^ (e - q) := mul_le_mul_of_nonneg_right hlow' (two_zpow_pos _).le
    · exact .inl hq
  · have hhigh' : (m : ℚ) ≤ 2 ^ (bitLen m : Int) := by rw [zpow_natCast]; exact_mod_cast hhigh.le
    calc (m : ℚ) * 2 ^ (e - q) ≤ 2 ^ (bitLen m : Int) * 2 ^ (e - q) := mul_le_mul_of_nonneg_right hhigh' (two_zpow_pos _).le
      _ = 2 ^ (bitLen m + (e - q)) := (zpow_add₀ (by norm_num) _ _).symm
      _ ≤ 2 ^ ((f.fw + 1 : Nat) : Int) := zpow_le_zpow_right₀ (by norm_num) (by
          have := le_max_left (e + bitLen m - 1 - f.fw) f.qmin
          push_cast
          omega)
      _ = 2 ^ (f.fw + 1) := zpow_natCast _ _

/-- A rounded integer stays within integer bounds. -/
theorem le_of_near {y : ℚ} {r b : Nat} (h : |(r : ℚ) - y| ≤ 1 / 2) (hy : y ≤ b) : r ≤ b := by
  have h1 := (abs_le.mp h).2
  have : (r : ℚ) < b + 1 := by linarith
  exact Nat.lt_succ_iff.mp (by exact_mod_cast this)

theorem ge_of_near {y : ℚ} {r b : Nat} (h : |(r : ℚ) - y| ≤ 1 / 2) (hy : (b : ℚ) ≤ y) : b ≤ r := by
  have h1 := (abs_le.mp h).1
  have : (b : ℚ) < r + 1 := by linarith
  exact Nat.lt_succ_iff.mp (by exact_mod_cast this)

theorem inexact_flag_iff (b u : Bool) : ((if b then NX else 0) ||| (if b && u then UF else 0)) &&& NX = 0 ↔ b = false := by
  revert b u
  decide

/-- What a rounding that does not overflow answers: the pattern of the multiple, and whether it differs. -/
theorem round_finite {f : Fmt} {neg : Bool} {m : Nat} {e : Int} (hm : m ≠ 0) (h : (round f 0 false neg m e false).2 &&& OF = 0) :
    let q := max (e + bitLen m - 1 - f.fw) f.qmin
    let r := roundAt 0 neg m e q false
    (q - f.qmin).toNat * 2 ^ f.fw + r.1 < f.inf false
      ∧ (round f 0 false neg m e false).1 = f.zero neg + ((q - f.qmin).toNat * 2 ^ f.fw + r.1)
      ∧ ((round f 0 false neg m e false).2 &&& NX = 0 ↔ r.2 = false) := by
  intro q r
  unfold round at h ⊢
  rw [if_neg hm] at h ⊢
  dsimp only at h ⊢
  split at h
  · exact absurd h (by show (OF ||| NX) &&& OF ≠ 0; decide)
  · next hlt =>
    rw [if_neg hlt, if_neg (by simp)]
    exact ⟨Nat.lt_of_not_le hlt, rfl, inexact_flag_iff _ _⟩

theorem ratio_not (neg : Bool) (m : Nat) (e : Int) : ratio (!neg) m e = -ratio neg m e := by
  unfold ratio
  cases neg <;> simp

theorem ratio_div (neg : Bool) (m : Nat) (e q : Int) : ratio neg m e / 2 ^ q = if neg then -((m : ℚ) * 2 ^ (e - q)) else (m : ℚ) * 2 ^ (e - q) := by
  have h : ∀ x : ℚ, x * 2 ^ e / 2 ^ q = x * 2 ^ (e - q) := fun x => by rw [zpow_sub₀ (by norm_num), mul_div_assoc]
  unfold ratio
  cases neg with
  | false => simpa using h m
  | true => simpa using h (-m)

/-- Among values of either sign, none is nearer than the one rounded to. -/
theorem KeptMultiple.nearest_ratio {f : Fmt} {m r n : Nat} {e q k : Int} (h : KeptMultiple f m e q r) (neg s : Bool) (hn : n < 2 ^ (f.fw + 1))
    (hk : f.qmin ≤ k) : |ratio neg m e - ratio neg r q| ≤ |ratio neg m e - ratio s n k| := by
  have hpos := two_zpow_pos q
  have hdiv : ∀ x : ℚ, |x| = |x / 2 ^ q| * 2 ^ q := fun x => by rw [abs_div, abs_of_pos hpos, div_mul_cancel₀ _ hpos.ne']
  rw [hdiv, hdiv (_ - ratio s n k)]
  refine mul_le_mul_of_nonneg_right ?_ hpos.le
  rw [sub_div, sub_div, ratio_div, ratio_div neg r, sub_self, zpow_zero, mul_one]
  cases neg with
  | false => exact h.nearest s hn hk
  | true =>
    have hflip := h.nearest (!s) hn hk
    rw [ratio_not, neg_div, sub_neg_eq_add] at hflip
    simp only [if_true]
    rw [← abs_neg, ← abs_neg (-_ - _)]
    simpa [sub_eq_add_neg, add_comm] using hflip

/-- Values stand in units of a place as they stand exactly. -/
theorem nearest_of_ratio {neg s1 s2 : Bool} {m m1 m2 : Nat} {e e1 e2 q : Int} (h : q ≤ e) (h1 : q ≤ e1) (h2 : q ≤ e2)
    (hle : |ratio neg m e - ratio s1 m1 e1| ≤ |ratio neg m e - ratio s2 m2 e2|) :
    (toInt neg m e q - toInt s1 m1 e1 q).natAbs ≤ (toInt neg m e q - toInt s2 m2 e2 q).natAbs := by
  refine (natAbs_le_iff (two_zpow_pos q) ?_ ?_).mpr hle
  · rw [Int.cast_sub, toInt_eq_ratio h, toInt_eq_ratio h1, sub_div]
  · rw [Int.cast_sub, toInt_eq_ratio h, toInt_eq_ratio h2, sub_div]

theorem toInt_eq_iff {neg s1 : Bool} {m m1 : Nat} {e e1 q : Int} (h : q ≤ e) (h1 : q ≤ e1) :
    toInt neg m e q = toInt s1 m1 e1 q ↔ ratio neg m e = ratio s1 m1 e1 := by
  rw [← Int.cast_inj (α := ℚ), toInt_eq_ratio h, toInt_eq_ratio h1, div_left_inj' (two_zpow_pos q).ne']

/-- A rounding that answers a finite pattern answers the nearest one. -/
theorem nearest_of_kept {f : Fmt} {neg : Bool} {m r m1 : Nat} {e e1 q : Int} {x : Nat} {fl : Flags} (hkept : KeptMultiple f m e q r)
    (hread : read f x = .num neg m1 e1) (hval : ratio neg m1 e1 = ratio neg r q) (hfl : fl &&& NX = 0 ↔ ratio neg m e = ratio neg r q) :
    ∃ s1 m1 e1, read f x = .num s1 m1 e1 ∧ (fl &&& NX = 0 ↔ toInt neg m e (min e e1) = toInt s1 m1 e1 (min e e1))
      ∧ ∀ y s2 m2 e2, read f y = .num s2 m2 e2 →
        let q := min (min e e1) e2
        (toInt neg m e q - toInt s1 m1 e1 q).natAbs ≤ (toInt neg m e q - toInt s2 m2 e2 q).natAbs := by
  refine ⟨neg, m1, e1, hread, ?_, fun y s2 m2 e2 hy => ?_⟩
  · rw [hfl, toInt_eq_iff (min_le_left _ _) (min_le_right _ _), hval]
  · obtain ⟨hm2, he2⟩ := read_num_bounds hy
    refine nearest_of_ratio (by omega) (by omega) (by omega) ?_
    rw [hval]
    exact hkept.nearest_ratio neg s2 hm2 he2

theorem nearest_round {f : Fmt} (hf : 0 < f.inf false) (neg : Bool) (m : Nat) (e : Int) : Nearest f neg m e := by
  by_cases hm : m = 0
  · subst hm
    intro _
    have hzero : ∀ e, ratio neg 0 e = 0 := fun e => by unfold ratio; cases neg <;> simp
    obtain ⟨m1, e1, hread, hval⟩ := read_mag (f := f) (neg := neg) (d := 0) (r := 0) (Nat.zero_le _) (.inl rfl) (by simpa using hf)
    rw [Nat.zero_mul, Nat.add_zero] at hread
    rw [Nat.cast_zero, add_zero] at hval
    have hkept : KeptMultiple f 0 e f.qmin 0 := ⟨le_refl _, by simp, .inl rfl⟩
    exact nearest_of_kept hkept hread hval (by rw [hzero, hzero]; simp [round, noFlags])
  · intro hof
    obtain ⟨hlt, hr, hnx⟩ := round_finite hm hof
    obtain ⟨hkept, hupper⟩ := keptMultiple_round f neg e hm
    set q := max (e + bitLen m - 1 - f.fw) f.qmin with hq
    set k := (roundAt 0 neg m e q false).1 with hk
    have hd : (q - f.qmin).toNat = 0 ∨ 2 ^ f.fw ≤ k := hkept.normal.imp (fun h => by rw [h]; omega) (fun h => by
      refine ge_of_near hkept.near ?_
      exact_mod_cast h)
    obtain ⟨m1, e1, hread, hval⟩ := read_mag (neg := neg) (le_of_near hkept.near (by exact_mod_cast hupper)) hd hlt
    have hplace : f.qmin + ((q - f.qmin).toNat : Int) = q := by
      have := hkept.least
      omega
    rw [hplace] at hval
    rw [← hr] at hread
    refine nearest_of_kept hkept hread hval (hnx.trans ((roundAt_near neg m e q).2.trans ?_))
    rw [← div_left_inj' (a := ratio neg m e) (two_zpow_pos q).ne', ratio_div, ratio_div, sub_self, zpow_zero, mul_one]
    cases neg with
    | false => exact Iff.rfl
    | true => exact neg_inj.symm

/-! ### Sums and products, rounded once (R233, R234) -/

theorem toInt_not (neg : Bool) (m : Nat) (e q : Int) : toInt (!neg) m e q = -toInt neg m e q := by
  unfold toInt
  cases neg <;> simp

theorem addNum_nonzero (f : Fmt) (rm : Nat) (ftz s1 s2 : Bool) {m1 m2 : Nat} (e1 e2 : Int) (h1 : m1 ≠ 0) (h2 : m2 ≠ 0)
    (hx : toInt s1 m1 e1 (min e1 e2) + toInt s2 m2 e2 (min e1 e2) ≠ 0) :
    addNum f rm ftz s1 m1 e1 s2 m2 e2 = round f rm ftz (decide (toInt s1 m1 e1 (min e1 e2) + toInt s2 m2 e2 (min e1 e2) < 0))
      (toInt s1 m1 e1 (min e1 e2) + toInt s2 m2 e2 (min e1 e2)).natAbs (min e1 e2) false := by
  unfold addNum
  simp only [if_neg h1, if_neg h2, if_neg hx]

theorem exactOnce (t : Fmt) (rm a b c : Nat) : ExactOnce t rm a b c := by
  intro s1 s2 s3 m1 m2 m3 e1 e2 e3 ha hb hc h1 h2 h3
  have hprod : m1 * m2 ≠ 0 := Nat.mul_ne_zero h1 h2
  refine ⟨fun hx => ?_, fun hx => ?_, ?_, fun hx => ?_⟩
  · unfold add addVal
    simp only [readFtz_false, ha, hb]
    exact addNum_nonzero t rm false s1 s2 e1 e2 h1 h2 hx
  · rw [sub_eq_add_neg, ← toInt_not] at hx ⊢
    unfold sub addVal Val.flip
    simp only [readFtz_false, ha, hb]
    exact addNum_nonzero t rm false s1 (!s2) e1 e2 h1 h2 hx
  · unfold mul
    simp only [readFtz_false, ha, hb]
  · unfold fma
    simp only [readFtz_false, ha, hb, hc]
    exact addNum_nonzero t rm false (s1 != s2) s3 (e1 + e2) e3 hprod h3 hx

/-! ### Special cases (R234, R235) -/

theorem readFtz_nan {f : Fmt} {ftz k : Bool} {x : Nat} (h : read f x = .nan k) : readFtz f ftz x = .nan k := by
  unfold readFtz
  rw [h]

theorem readFtz_inf {f : Fmt} {ftz s : Bool} {x : Nat} (h : read f x = .inf s) : readFtz f ftz x = .inf s := by
  unfold readFtz
  rw [h]

theorem readFtz_zero {f : Fmt} {ftz s : Bool} {x : Nat} {e : Int} (h : read f x = .num s 0 e) : readFtz f ftz x = .num s 0 e := by
  unfold readFtz
  rw [h]
  dsimp only
  split <;> rfl

theorem nan_operand {t : Fmt} {a : Nat} {k : Bool} (rm b : Nat) (ftz : Bool) (h : read t a = .nan k) :
    (add t rm ftz a b).1 = t.nan ∧ (add t rm ftz b a).1 = t.nan ∧ (mul t rm ftz a b).1 = t.nan ∧ (div t rm ftz a b).1 = t.nan
      ∧ (sqrt t rm ftz a).1 = t.nan ∧ (k = true → (add t rm ftz a b).2 = NV ∧ (mul t rm ftz a b).2 = NV) := by
  unfold add addVal mul div sqrt
  rw [readFtz_nan h]
  cases readFtz t ftz b with
  | nan j => exact ⟨rfl, rfl, rfl, rfl, rfl, fun hk => by rw [hk]; exact ⟨rfl, rfl⟩⟩
  | inf s => exact ⟨rfl, rfl, rfl, rfl, rfl, fun hk => by rw [hk]; exact ⟨rfl, rfl⟩⟩
  | num s m e => exact ⟨rfl, rfl, rfl, rfl, rfl, fun hk => by rw [hk]; exact ⟨rfl, rfl⟩⟩

theorem div_zero_operand {t : Fmt} {a b m : Nat} {s1 s2 : Bool} {e z : Int} (rm : Nat) (ha : read t a = .num s1 m e) (hm : m ≠ 0)
    (hb : read t b = .num s2 0 z) : div t rm false a b = (t.inf (s1 != s2), DZ) := by
  unfold div
  simp only [readFtz_false, ha, hb, if_true, if_neg hm]

theorem fma_inf_zero {t : Fmt} {a b : Nat} {s1 s2 : Bool} {z : Int} (rm c : Nat) (ftz : Bool) (ha : read t a = .inf s1)
    (hb : read t b = .num s2 0 z) : fma t rm ftz a b c = invalid t := by
  unfold fma
  simp only [readFtz_inf ha, readFtz_zero hb, Val.isZero, Bool.or_true, if_true]

theorem minMax_nan {t : Fmt} {a b : Nat} {k : Bool} (mx : Bool) (ha : read t a = .nan k) (hb : (read t b).isNan = false) :
    (minMax t false mx a b).1 = b % 2 ^ t.width ∧ (minMax t false mx b a).1 = b % 2 ^ t.width := by
  unfold minMax
  simp only [readFtz_false, ha, hb, flushed_false]
  exact ⟨rfl, rfl⟩

theorem minMax_nans {t : Fmt} {a b : Nat} {k j : Bool} (ftz mx : Bool) (ha : read t a = .nan k) (hb : read t b = .nan j) :
    (minMax t ftz mx a b).1 = t.nan := by
  unfold minMax
  simp only [readFtz_nan ha, readFtz_nan hb]
  rfl

theorem classBit_lt (t : Fmt) (a : Nat) : classBit t a < 10 := by
  unfold classBit
  repeat' split
  all_goals decide

theorem specials (t : Fmt) (rm a b c : Nat) (ftz : Bool) : Specials t rm a b c ftz :=
  ⟨fun _ h => nan_operand rm b ftz h, fun _ _ _ _ _ ha hm hb => div_zero_operand rm ha hm hb,
    fun _ _ _ ha hb => by rw [fma_inf_zero rm c ftz ha hb]; exact ⟨rfl, fun _ => rfl, fun _ => rfl⟩,
    fun _ ha hb mx => minMax_nan mx ha hb, fun _ _ ha hb mx => minMax_nans ftz mx ha hb, classBit_lt t a⟩

theorem formats_inf : ∀ t ∈ formats, 0 < t.inf false := by decide

end Sys2Proof.Float
namespace Sys2Proof.Machine

/-- Settles O13: sums and products round their exact value by their definitions; a value rounded to nearest is the nearest multiple
of its place, and finite values of smaller places are too small to lie nearer. -/
theorem floatRounding : Obligations.FloatRounding := by
  unfold Obligations.FloatRounding
  exact ⟨Float.exactOnce, fun t ht neg m e => Float.nearest_round (Float.formats_inf t ht) neg m e,
    fun t _ rm a b c ftz => Float.specials t rm a b c ftz⟩

end Sys2Proof.Machine

namespace Sys2Proof.Machine

/-! ## Engine forms: O31 -/

/-- Warp 0's other path has issued an entry with lookahead for queue 0, which is full of warp 1's entries: the entry waits in a
window of that path for its place (R45, R266), and no entry of warp 0 is in a queue. -/
def entryInWindow : State := {
  cur := (0, 0)
  warps := [(0, {
    slot0 := some { pc := 0x10000, mask := 1 }
    slot1 := some { pc := 0x10000, mask := 2, windows := [{
      lane := false, left := 3, pend := some (.engine 0 { id := 7, form := .txst, wid := 0, team := 0, ctx := 0 }) }] } })]
  cores := [(0, { queues := [(0, { entries := List.replicate 16 { id := 9, form := .txpf, wid := 1, team := 0, ctx := 0 } })] })] }

/-- It may issue a QWAIT of queue 0. -/
theorem entryInWindow_ready : warpReady (.qwait 1 0) entryInWindow := by
  unfold warpReady
  decide

/-- No queue the QWAIT names holds an entry of warp 0. -/
theorem entryInWindow_engine : ∀ e ∈ entryInWindow.engine 0, e.wid ≠ entryInWindow.cur.1 := by decide

/-- The issuing warp's interval after a step. -/
def intervalAfter : Out → Option Word
  | .next t => some t.cw.interval
  | _ => none

/-- The QWAIT finds the entry in the other path's window all the same, and waits for it: no acquire, no rise of the interval. -/
theorem entryInWindow_waits : intervalAfter (exec (.qwait 1 0) entryInWindow) = some entryInWindow.cw.interval := by decide

/-- Refutes O31: a QWAIT waits too for an entry that a path of its warp holds in a window, its queue being full, where no entry of the
warp is in the queues; the statement's clause on QWAIT has it complete as an acquire. -/
theorem not_engineForms : ¬ Obligations.EngineForms := by
  unfold Obligations.EngineForms
  rintro ⟨-, -, -, -, -, hqwait, -⟩
  obtain ⟨u, ⟨t, he, hresult⟩, -, hinterval, -⟩ := hqwait 1 0 entryInWindow entryInWindow_ready (fun i hi hm => by
    have hzero : i = 0 := by
      revert hm
      revert i
      decide
    rw [hzero]
    exact entryInWindow_engine)
  have hwaits := entryInWindow_waits
  have hsame : t.cw.interval = u.cw.interval := by rw [hresult.done.warp]
  rw [he] at hwaits
  have hone := (Option.some.inj hwaits).symm.trans (hsame.trans hinterval)
  exact absurd hone (by decide)

end Sys2Proof.Machine

namespace Sys2Proof.Machine

/-! ## Canvas forms: O37, O38 -/

/-! ### Lane forms that complete with an effect -/

/-- A lane form that moves on from a state whose path has a run and no window completes with that state as its effect. -/
theorem laneEffect_of_advance {i : Instr} {s u : State} (he : exec i s = .next u.advanceLane) (hp : u.path?.isSome = true)
    (hw : u.cp.windows = []) (hrun : u.cp.queue ≠ []) : LaneEffect i s u := by
  obtain ⟨r, q, hrun⟩ := List.exists_cons_of_ne_nil hrun
  obtain ⟨hdone, hs, hv, hpred, hds, hfp⟩ := (LanesOnly.refl hp).advance (by rw [State.quiet, hw]; rfl) hrun
  refine ⟨_, he, ⟨fun r l _ => Warp.vReg_congr hv r l, fun m c _ => ?_, fun m c _ => ?_, hs, hfp, hdone⟩⟩
  · rw [Warp.pred_congr hpred]
    rfl
  · rw [Warp.predDs_congr hds]
    rfl

theorem Kept.effect {i : Instr} {s u : State} (h : Kept s u) (hp : u.path?.isSome = true) (hr : lanesReady i s)
    (he : exec i s = .next u.advanceLane) : LaneEffect i s u := by
  obtain ⟨r, q, hqueue, -⟩ := laneReady_run hr.2
  refine laneEffect_of_advance he hp (by rw [h.path]; exact State.quiet_windows hr.1) (fun hnil => ?_)
  have hruns := h.runs
  rw [hqueue, hnil] at hruns
  cases hruns

/-- Results written at once in the lanes, after steps that write no register, are the form's effect. -/
theorem Passes.results {i : Instr} {s t : State} {ws : List RegWrite} (h : Passes s t) (hr : lanesReady i s)
    (he : exec i s = .next (t.modW (fun w => w.applyAll t.cur.2 ws)).advanceLane)
    (hws : ∀ (w : Warp) (k : Nat), SameButLanes w (w.applyAll k ws)) :
    ∃ u, LaneEffect i s u ∧ Kept s u ∧ SameScalars s u ∧ u.mem = t.mem ∧ u.cw = t.cw.applyAll s.cur.2 ws := by
  set g : Warp → Warp := fun w => w.applyAll t.cur.2 ws with hg
  have hsame := hws t.cw t.cur.2
  unfold SameButLanes at hsame
  obtain ⟨hkept, hp, hcp⟩ := Kept.of_modW (f := g) (g := id) h.path (fun k => by rw [(hws t.cw _).slot k, Option.map_id]; rfl)
    (by rw [hg]; dsimp only; rw [hsame]) rfl rfl
  have hcw := State.cw_modW t g h.path
  have hall := h.kept.trans hkept
  refine ⟨t.modW g, hall.effect hp hr he, hall, h.sameScalars.trans ?_, State.modW_mem .., ?_⟩
  · exact .of_regs (by rw [hcw, hg]; dsimp only; rw [hsame]) (by rw [hcw, hg]; dsimp only; rw [hsame]) (by rw [hcp]; rfl) (by rw [hcp]; rfl)
  · rw [hcw, hg, h.cur]

/-! ### The checks of R58 -/

/-- Where every active lane passes, its accesses are those of the active lanes and no lane leaves. -/
theorem canvasLanes_reach {s : State} {f : LaneWord} {w : Nat} {rd wr : Bool} (h : CanvasReach s f w rd wr) :
    ∃ gs, s.canvasLanes f w rd wr = (canvasAccs s f, gs) ∧ ∀ g ∈ gs, g.lanes = 0 := by
  have hcause : ∀ l ∈ s.actLanes f, canvasCause s.cteam wr w (laneEa s.cw s.run f l) = 0 := by
    intro l hl
    obtain ⟨hlo, hhi⟩ := h.inside l hl
    have hplain : (wr && touchesHeader s.cteam (laneEa s.cw s.run f l).toNat w) = false := by
      cases wr
      · rfl
      · rw [Bool.true_and, h.plain rfl l hl]
    rw [canvasCause, if_neg (by omega), if_neg (by simp [h.aligned l hl]), if_neg (by simp [hplain])]
  have hxs : (s.laneEas f).map (fun x => (x.1, x.2, canvasCause s.cteam wr w x.2))
      = (s.actLanes f).map (fun l => (l, laneEa s.cw s.run f l, 0)) := by
    rw [State.laneEas, List.map_map]
    exact List.map_congr_left (fun l hl => by simp only [Function.comp, hcause l hl])
  have hgood : ((s.actLanes f).map (fun l => (l, laneEa s.cw s.run f l, 0))).filter (fun x => x.2.2 = 0)
      = (s.actLanes f).map (fun l => (l, laneEa s.cw s.run f l, 0)) := by
    rw [List.filter_eq_self]
    intro x hx
    obtain ⟨l, -, rfl⟩ := List.mem_map.mp hx
    rfl
  have hbad : ((s.actLanes f).map (fun l => (l, laneEa s.cw s.run f l, 0))).filter (fun x => x.2.2 ≠ 0) = [] := by
    rw [List.filter_eq_nil_iff]
    intro x hx
    obtain ⟨l, -, rfl⟩ := List.mem_map.mp hx
    simp
  have hhits : ((s.actLanes f).map (fun l => (l, laneEa s.cw s.run f l, 0))).filterMap (fun x =>
      (watchCode s.cctx s.cteam true rd wr x.2.1.toNat w).map (fun c => (x.1, BitVec.ofInt 72 x.2.1, c))) = [] := by
    rw [List.filterMap_eq_nil_iff]
    intro x hx
    obtain ⟨l, hl, rfl⟩ := List.mem_map.mp hx
    rw [h.watch l hl, Option.map_none]
  refine ⟨[canvasSplit s [], watchSplit s []], ?_, ?_⟩
  · unfold State.canvasLanes
    simp only [hxs, hgood, hbad, hhits, List.any_nil, Bool.not_false, List.filter_true, List.map_map]
    rfl
  · intro g hg
    rcases List.mem_cons.mp hg with rfl | hg
    · rfl
    · rw [List.mem_singleton.mp hg]
      rfl

/-- A canvas form all of whose lanes pass does its body on them. -/
theorem canvasForm_reach {i : Instr} {f : LaneWord} {w : Nat} {rd wr : Bool} {s : State} (body : State → List LaneAcc → State)
    (hv : ∀ f, i ≠ .vsync f) (hr : lanesReady i s) (h : CanvasReach s f w rd wr) :
    canvasForm i f w rd wr s body = .next (body s (canvasAccs s f)).advanceLane := by
  obtain ⟨gs, hlanes, hgs⟩ := canvasLanes_reach h
  rw [canvasForm, laneForm_ready _ hv hr.1 hr.2, h.idle, if_neg Bool.false_ne_true]
  simp only [hlanes]
  rw [State.splitThen_none _ _ _ hgs]

theorem canvasAccs_lanes (s : State) (f : LaneWord) : (canvasAccs s f).map (·.lane) = s.actLanes f := by
  rw [canvasAccs, List.map_map]
  exact List.map_id'' (fun _ => rfl) _

theorem mem_canvasAccs {s : State} {f : LaneWord} {l : Nat} (h : l ∈ s.actLanes f) :
    { lane := l, ea := BitVec.ofInt 72 (laneEa s.cw s.run f l), pa := canvasAt s f l } ∈ canvasAccs s f :=
  List.mem_map_of_mem (f := fun l => ({ lane := l, ea := BitVec.ofInt 72 (laneEa s.cw s.run f l), pa := canvasAt s f l } : LaneAcc)) h

theorem canvasAccs_nodup (s : State) (f : LaneWord) : ((canvasAccs s f).map (·.lane)).Nodup := by
  rw [canvasAccs_lanes]
  exact (actLanes_ascending s f).imp Nat.ne_of_lt

/-- Results of each active lane: what the registers read once they are written. -/
theorem lanesRead_actLanes {s : State} {f : LaneWord} {vs : List (Nat × Nat × Bool)} (h : vs.map (·.1) = s.actLanes f) (w : Warp) (k n : Nat) :
    LanesRead w (w.applyAll k (markedWrites f.d n vs)) f.d n vs :=
  applyAll_markedWrites k f.d n vs w (fun v hv => (mem_actLanes.mp (h ▸ List.mem_map_of_mem hv)).1)
    (by rw [h]; exact (actLanes_ascending s f).imp Nat.ne_of_lt)

theorem LanesRead.frame_act {s : State} {f : LaneWord} {n : Nat} {w u : Warp} {vs : List (Nat × Nat × Bool)} (h : LanesRead w u f.d n vs)
    (hw : w.v = s.cw.v) (hlanes : vs.map (·.1) = s.actLanes f) :
    ∀ r l, l < 128 → writesLane s f n r l = false → u.vReg r l = s.cw.vReg r l :=
  h.frame_of hw (fun l => by rw [hlanes])

/-- A value and a mark of poison for each access of a canvas word. -/
def canvasVals (s : State) (f : LaneWord) (val : LaneAcc → Nat) (bad : LaneAcc → Bool) : List (Nat × Nat × Bool) :=
  (canvasAccs s f).map (fun x => (x.lane, val x, bad x))

theorem canvasVals_lanes (s : State) (f : LaneWord) (val : LaneAcc → Nat) (bad : LaneAcc → Bool) :
    (canvasVals s f val bad).map (·.1) = s.actLanes f := by
  rw [canvasVals, List.map_map]
  exact canvasAccs_lanes s f

/-! ### CLD (R61) -/

theorem CanvasOnly.of_mem {s t u : State} (hk : Kept s u) (hs : SameScalars s u) (hmem : u.mem = t.mem) (hb : t.mem.bytes = s.mem.bytes)
    (hc : t.mem.counts = s.mem.counts) : CanvasOnly s u := ⟨hk, hs, by rw [hmem, hb], by rw [hmem, hc]⟩

/-- The race check of lanes that all pass, and the use of ONCE, leave no byte changed (R135, R138). -/
theorem raceLanes_spent {s : State} (n : Nat) {xs : List LaneAcc} (b : Bool) (hp : s.path?.isSome = true)
    (h : (s.raceLanes s.laneOff true n xs).2.2.1 = []) : ∃ t, s.raceLanes s.laneOff true n xs = (t, xs, [], none)
      ∧ Passes s (t.spendOnce b) ∧ (t.spendOnce b).mem = { s.mem with stamps := t.mem.stamps, canvasStamps := t.mem.canvasStamps } := by
  have hstamps := stampsOnly_raceLanes s.laneOff true n xs s
  have hall := raceLanes_allPass h
  set t := (s.raceLanes s.laneOff true n xs).1
  have hpass := hstamps.besideWarps.passes hp
  have hspent := records_spendOnce b hpass.path
  exact ⟨t, by rw [← hall], hpass.trans hspent.passes, by rw [hspent.mem, hstamps.mem]⟩

theorem cld_effect {f : LaneWord} {s : State} (hr : lanesReady (.cld f) s) (hla : f.la = 0) (h : CanvasReach s f (typeBytes f.tyN) true false)
    (hrace : (s.raceLanes s.laneOff true (typeBytes f.tyN) (canvasAccs s f)).2.2.1 = []) :
    ∃ u, LaneEffect (.cld f) s u ∧ CanvasOnly s u ∧ u.mem.canvas = s.mem.canvas
      ∧ (∀ l ∈ s.actLanes f, ∀ j, j < typeRegs f.tyN → u.cw.vReg (f.d.toNat + j) l
          = BitVec.ofNat 32 (narrow f.tyN (numAt s.cbyte (canvasAt s f l) (typeBytes f.tyN)) >>> (32 * j)))
      ∧ ∀ r l, l < 128 → writesLane s f (typeRegs f.tyN) r l = false → u.cw.vReg r l = s.cw.vReg r l := by
  obtain ⟨t, hlanes, hpass, hmem⟩ := raceLanes_spent (typeBytes f.tyN) (!(canvasAccs s f).isEmpty) (laneReady_path hr.2) hrace
  set v := t.spendOnce (!(canvasAccs s f).isEmpty) with hv
  set bad : LaneAcc → Bool := fun x => (canvasAccs s f).any (fun y => y.lane = x.lane && poisoned v.mem.canvasPoison y.pa (typeBytes f.tyN))
  set val : LaneAcc → Nat := fun x => narrow f.tyN (numAt s.cbyte x.pa (typeBytes f.tyN))
  have hval : ∀ x : LaneAcc, narrow f.tyN (v.mem.canvas.readNat x.pa (typeBytes f.tyN)) = val x := fun x => by
    rw [readNat_eq_numAt, hmem]
    rfl
  have he : exec (.cld f) s = .next (v.modW (fun w => w.applyAll v.cur.2
      (markedWrites f.d (typeRegs f.tyN) (canvasVals s f val bad)))).advanceLane := by
    refine (canvasForm_reach (i := .cld f) (fun s ls => s.finishCld f (typeBytes f.tyN) ls) (fun _ h => nomatch h) hr h).trans ?_
    unfold State.finishCld
    simp only [hlanes, ← hv, hval, holdOf, la_toNat hla, State.result_now, laneWrites_eq, List.map_map]
    rfl
  have hvals := canvasVals_lanes s f val bad
  obtain ⟨u, heffect, hkept, hscal, humem, hcw⟩ := hpass.results hr he (fun w k => (lanesRead_actLanes hvals w k _).same)
  have hread := lanesRead_actLanes hvals v.cw s.cur.2 (typeRegs f.tyN)
  rw [← hcw] at hread
  exact ⟨u, heffect, .of_mem hkept hscal humem (by rw [hmem]) (by rw [hmem]), by rw [humem, hmem],
    fun l hl => hread.value _ (List.mem_map_of_mem (mem_canvasAccs hl)), hread.frame_act hpass.lanes hvals⟩

/-! ### CST (R61) -/

/-- Memory with the canvases in the place of its bytes, so that what is said of lanes' accesses to memory is said of those to a canvas. -/
def Mem.canvasSide (m : Mem) : Mem := { m with bytes := m.canvas }

theorem storePa_canvas (s : State) (pa n x a : Nat) :
    (s.storePa true pa (bytesOf n x)).mem.canvas.get a = storedAt s.mem.canvas.get pa n x a := by
  have hstamps := stampsOnly_stampPlain (s.modMem (·.storeCanvas pa (bytesOf n x))) s.cur.1 true pa (bytesOf n x).length
  rw [State.storePa, if_pos rfl, hstamps.mem]
  exact congrFun (get_writeN_bytesOf ..) a

/-- A step that changes canvas bytes and what stands beside memory and canvases, and no byte of memory. -/
structure CanvasStep (s u : State) : Prop where
  beside : BesideWarps s u
  bytes : u.mem.bytes = s.mem.bytes
  counts : u.mem.counts = s.mem.counts

theorem CanvasStep.refl (s : State) : CanvasStep s s := ⟨.refl s, rfl, rfl⟩

theorem CanvasStep.trans {s t u : State} (h1 : CanvasStep s t) (h2 : CanvasStep t u) : CanvasStep s u :=
  ⟨h1.beside.trans h2.beside, h2.bytes.trans h1.bytes, h2.counts.trans h1.counts⟩

theorem StampsOnly.canvasStep {s u : State} (h : StampsOnly s u) : CanvasStep s u :=
  ⟨h.besideWarps, by rw [h.mem], by rw [h.mem]⟩

theorem canvasStep_storeCanvas (s : State) (pa : Nat) (bs : List Byte) : CanvasStep s (s.modMem (·.storeCanvas pa bs)) :=
  ⟨besideWarps_modMem .., rfl, rfl⟩

theorem canvasStep_storePa (s : State) (pa : Nat) (bs : List Byte) : CanvasStep s (s.storePa true pa bs) := by
  rw [State.storePa, if_pos rfl]
  exact (canvasStep_storeCanvas s pa bs).trans (stampsOnly_stampPlain ..).canvasStep

theorem canvasStep_atomicPa (s : State) (pa n x : Nat) (rel : Option Nat) : CanvasStep s (s.atomicPa true pa n x rel) := by
  rw [State.atomicPa, if_pos rfl]
  exact (canvasStep_storeCanvas s pa _).trans (stampsOnly_stampAtomic ..).canvasStep

theorem CanvasStep.foldl {α : Type} {g : State → α → State} (h : ∀ s x, CanvasStep s (g s x)) (l : List α) :
    ∀ s, CanvasStep s (l.foldl g s) := by
  induction l with
  | nil => exact CanvasStep.refl
  | cons x l ih => exact fun s => (h s x).trans (ih _)

/-- Canvas stores of lanes in ascending order. -/
theorem canvasStores {m0 : Mem} {all : List HeldLane} {n : Nat} {val : Nat → Nat} :
    ∀ (zs done : List HeldLane) (s : State), (∀ y ∈ zs, y ∈ all) → (done ++ zs).Pairwise (·.lane < ·.lane) →
      StoreFact m0.canvasSide all n val done s.mem.canvasSide s.cores [] →
      let u := (zs.map HeldLane.acc).foldl (fun s x => s.storePa true x.pa (bytesOf n (val x.lane))) s
      StoreFact m0.canvasSide all n val (done ++ zs) u.mem.canvasSide u.cores []
  | [], done, s, _, _, h => by rwa [List.append_nil]
  | y :: zs, done, s, hall, hasc, h => by
    obtain ⟨hy, hzs⟩ := List.forall_mem_cons.mp hall
    have hlt : ∀ x ∈ done, x.lane < y.lane := fun x hx => (List.pairwise_append.mp hasc).2.2 x hx y (List.mem_cons_self ..)
    have hone : StoreFact m0.canvasSide all n val (done ++ [y]) (s.storePa true y.pa (bytesOf n (val y.lane))).mem.canvasSide
        (s.storePa true y.pa (bytesOf n (val y.lane))).cores [] :=
      h.snoc hy (fun x hx => .inl (hlt x hx)) (fun a => storePa_canvas s y.pa n (val y.lane) a)
    have hrest := canvasStores zs (done ++ [y]) _ hzs (by rwa [List.append_assoc, List.singleton_append]) hone
    rwa [List.append_assoc, List.singleton_append] at hrest

theorem canvasHeld_ascending (s : State) (f : LaneWord) (data : Nat → List Byte) :
    (heldOf data (canvasAccs s f)).Pairwise (·.lane < ·.lane) := by
  have hlanes : (heldOf data (canvasAccs s f)).map (·.lane) = s.actLanes f := by
    rw [heldOf, List.map_map]
    exact canvasAccs_lanes s f
  exact List.pairwise_map.mp (hlanes ▸ actLanes_ascending s f)

theorem cst_effect {f : LaneWord} {s : State} (hr : lanesReady (.cst f) s) (hla : f.la = 0) (h : CanvasReach s f (typeBytes f.tyN) false true)
    (hrace : (s.raceLanes s.laneOff true (typeBytes f.tyN) (canvasAccs s f)).2.2.1 = []) :
    ∃ u, LaneEffect (.cst f) s u ∧ CanvasOnly s u ∧ u.cw.v = s.cw.v
      ∧ (∀ a, (∀ x ∈ canvasAccs s f, ¬(x.pa ≤ a ∧ a < x.pa + typeBytes f.tyN)) → u.cbyte a = s.cbyte a)
      ∧ ∀ x ∈ canvasAccs s f, alone (canvasAccs s f) (typeBytes f.tyN) x → ∀ i, i < typeBytes f.tyN →
          u.cbyte (x.pa + i) = BitVec.ofNat 8 (s.cw.rd f f.c x.lane / 256 ^ i) := by
  set n := typeBytes f.tyN
  obtain ⟨t, hlanes, hpass, hmem⟩ := raceLanes_spent n (!(canvasAccs s f).isEmpty) (laneReady_path hr.2) hrace
  set v := t.spendOnce (!(canvasAccs s f).isEmpty) with hv
  set u := (canvasAccs s f).foldl (fun s' x => s'.storePa true x.pa (bytesOf n (s.cw.rd f f.c x.lane))) v with hu
  have hstep : CanvasStep v u := CanvasStep.foldl (fun s _ => canvasStep_storePa s _ _) _ _
  have hall := hpass.trans (hstep.beside.passes hpass.path)
  have he : exec (.cst f) s = .next (u.modW (fun w => w.applyAll u.cur.2 [])).advanceLane := by
    refine (canvasForm_reach (i := .cst f) (fun s ls => s.finishCst f n ls) (fun _ h => nomatch h) hr h).trans ?_
    unfold State.finishCst storeBytes
    simp only [hlanes, ← hv, ← hu, holdOf, la_toNat hla, State.result_now]
  obtain ⟨w, heffect, hkept, hscal, hwmem, hcw⟩ := hall.results hr he (fun w _ => SameButLanes.refl w)
  have hcanvas : v.mem.canvas = s.mem.canvas := by rw [hmem]
  have hfact := canvasStores (m0 := v.mem) (n := n) (val := s.cw.rd f f.c) (heldOf (fun _ => []) (canvasAccs s f)) [] v (fun _ hy => hy)
    (by rw [List.nil_append]; exact canvasHeld_ascending s f _) (storeFact_nil _ _ _ _ _)
  rw [heldOf_acc, ← hu, List.nil_append] at hfact
  have hheld : ∀ x ∈ canvasAccs s f, ({ lane := x.lane, ea := x.ea, pa := x.pa, data := [] } : HeldLane) ∈ heldOf (fun _ => []) (canvasAccs s f) :=
    fun x hx => mem_heldOf.mpr ⟨hx, rfl⟩
  refine ⟨w, heffect, .of_mem hkept hscal hwmem (by rw [hstep.bytes, hmem]) (by rw [hstep.counts, hmem]), by rw [hcw]; exact hall.lanes, ?_, ?_⟩
  · intro a hout
    rw [State.cbyte, hwmem, State.cbyte, ← hcanvas]
    exact hfact.outside a (fun y hy => hout y.acc (mem_heldOf.mp hy).1)
  · intro x hx halone i hi
    rw [State.cbyte, hwmem]
    refine hfact.stored _ (hheld x hx) i hi (fun z hz hlt hover => ?_)
    have hapart := halone z.acc (mem_heldOf.mp hz).1 (Nat.ne_of_gt hlt)
    simp only [HeldLane.acc] at hapart hover
    omega

/-! ### CAMO (R62, R131) -/

theorem atomicPa_canvas (s : State) (pa n x : Nat) (rel : Option Nat) (a : Nat) :
    (s.atomicPa true pa n x rel).mem.canvas.get a = storedAt s.mem.canvas.get pa n x a := by
  have hstamps := stampsOnly_stampAtomic (s.modMem (·.storeCanvas pa (bytesOf n x))) s.cur.1 true pa n rel
  rw [State.atomicPa, if_pos rfl, hstamps.mem]
  exact congrFun (get_writeN_bytesOf ..) a

/-- One lane's atomic on its canvas. -/
def canvasAmoStep (rel : Option Nat) (f : LaneWord) (r : AmoState) (x : HeldLane) : AmoState :=
  let n := typeBytes f.tyN
  (r.1.atomicPa true x.pa n (aluNew (f.mdN 4 2) f.tyN (f.sat == 1) f.rnd.toNat (r.1.mem.canvas.readNat x.pa n) (x.operand n) (x.compare n)) rel,
   r.2.1 ++ [(x.lane, r.1.mem.canvas.readNat x.pa n)], r.2.2.1 ++ [r.1.releaseStamp true x.pa n],
   r.2.2.2 ++ if poisoned r.1.mem.canvasPoison x.pa n then [x.lane] else [])

theorem amoLanes_canvas (s : State) (rel : Option Nat) (f : LaneWord) (ys : List HeldLane) :
    s.amoLanes true rel f ys = ys.foldl (canvasAmoStep rel f) (s, [], [], []) := rfl

theorem canvasAmos {m0 : Mem} {all : List HeldLane} {new : Nat → Nat → Nat} {rel : Option Nat} {f : LaneWord}
    (hnew : ∀ y ∈ all, ∀ old, aluNew (f.mdN 4 2) f.tyN (f.sat == 1) f.rnd.toNat old (y.operand (typeBytes f.tyN)) (y.compare (typeBytes f.tyN))
      = new y.lane old) :
    ∀ (zs done : List HeldLane) (r : AmoState), (∀ y ∈ zs, y ∈ all) → ((done ++ zs).map (·.lane)).Nodup →
      AmoDone m0.canvasSide all (typeBytes f.tyN) new done r.1.mem.canvasSide r.2.1 →
      CanvasStep r.1 (zs.foldl (canvasAmoStep rel f) r).1
        ∧ AmoDone m0.canvasSide all (typeBytes f.tyN) new (done ++ zs) (zs.foldl (canvasAmoStep rel f) r).1.mem.canvasSide
            (zs.foldl (canvasAmoStep rel f) r).2.1
  | [], done, r, _, _, h => ⟨CanvasStep.refl _, by rwa [List.append_nil]⟩
  | y :: zs, done, r, hall, hnodup, h => by
    obtain ⟨hy, hzs⟩ := List.forall_mem_cons.mp hall
    have hlane : ∀ x ∈ done, x.lane ≠ y.lane := by
      intro x hx heq
      rw [List.map_append, List.nodup_append] at hnodup
      exact hnodup.2.2 _ (List.mem_map_of_mem hx) _ (List.mem_map_of_mem (List.mem_cons_self ..)) heq
    have hone : AmoDone m0.canvasSide all (typeBytes f.tyN) new (done ++ [y]) (canvasAmoStep rel f r y).1.mem.canvasSide
        (canvasAmoStep rel f r y).2.1 := by
      unfold canvasAmoStep
      dsimp only
      rw [readNat_eq_numAt, hnew y hy]
      exact h.snoc hy hlane (fun a => atomicPa_canvas ..)
    obtain ⟨hstep, hfact⟩ := canvasAmos hnew zs (done ++ [y]) (canvasAmoStep rel f r y) hzs
      (by rwa [List.append_assoc, List.singleton_append]) hone
    rw [List.append_assoc, List.singleton_append] at hfact
    exact ⟨(canvasStep_atomicPa ..).trans hstep, hfact⟩

theorem camo_types {f : LaneWord} {s : State} (hr : lanesReady (.camo f) s) : f.tyN ∈ opTypes (f.mdN 4 2) := by
  have hwf : Instr.wf (.camo f) = true := by
    have h := hr.2
    simp only [laneReady, Bool.and_eq_true] at h
    exact h.1.1.1.2
  simp only [Instr.wf, Instr.illegal, laneCard, Card.illegal, Option.isNone_iff_eq_none] at hwf
  split at hwf
  · simp at hwf
  · next htype =>
    simpa [Card.typeOk, cardAmo] using htype

/-- What a step does before and after the accesses of an atomic, with no lane nothing. -/
theorem records_ite {s t : State} (b : Bool) (hp : s.path?.isSome = true) (h : Records s t) : Records s (if b = true then s else t) := by
  cases b
  · exact h
  · exact Records.refl hp

theorem camo_effect {f : LaneWord} {s : State} (hr : lanesReady (.camo f) s) (hla : f.la = 0)
    (h : CanvasReach s f (typeBytes f.tyN) false true) :
    ∃ u, LaneEffect (.camo f) s u ∧ CanvasOnly s u
      ∧ (∀ a, (∀ x ∈ canvasAccs s f, ¬(x.pa ≤ a ∧ a < x.pa + typeBytes f.tyN)) → u.cbyte a = s.cbyte a)
      ∧ (∀ x ∈ canvasAccs s f, alone (canvasAccs s f) (typeBytes f.tyN) x →
          let old := numAt s.cbyte x.pa (typeBytes f.tyN)
          (∀ j, j < typeRegs f.tyN → u.cw.vReg (f.d.toNat + j) x.lane = BitVec.ofNat 32 (old >>> (32 * j)))
            ∧ numAt u.cbyte x.pa (typeBytes f.tyN) = laneNew s.cw f x.lane old % 256 ^ typeBytes f.tyN)
      ∧ ∀ r l, l < 128 → writesLane s f (typeRegs f.tyN) r l = false → u.cw.vReg r l = s.cw.vReg r l := by
  obtain ⟨gs, hlanes, hgs⟩ := canvasLanes_reach h
  set ord := f.mdN 1 0 with hord
  set all := heldOf (amoData s.cw f (typeBytes f.tyN)) (canvasAccs s f) with hall
  set s1 := if all.isEmpty = true then s else s.beforeAtomic ord with hs1
  have hbefore : Records s s1 := records_ite _ (laneReady_path hr.2) (records_beforeAtomic ord (laneReady_path hr.2))
  set r := all.foldl (canvasAmoStep (s.releaseScope ord 0) f) (s1, [], [], []) with hrdef
  have hmap : all.map (·.lane) = s.actLanes f := by
    rw [hall, heldOf, List.map_map]
    exact canvasAccs_lanes s f
  obtain ⟨hstep, hfact⟩ := canvasAmos (m0 := s1.mem) (all := all) (new := laneNew s.cw f) (rel := s.releaseScope ord 0) (f := f)
    (fun y hy old => by
      obtain ⟨hop, hcmp⟩ := operands_amoData (camo_types hr) (mem_heldOf.mp hy).2
      rw [hop, hcmp]
      rfl) all [] (s1, [], [], []) (fun _ hy => hy)
    (by rw [List.nil_append, hmap]; exact (actLanes_ascending s f).imp Nat.ne_of_lt) (amoDone_nil _ _ _ _)
  rw [← hrdef, List.nil_append] at hfact
  rw [← hrdef] at hstep
  have hmid := hbefore.passes.trans (hstep.beside.passes hbefore.passes.path)
  set t := if all.isEmpty = true then r.1 else r.1.afterAtomic ord 0 r.2.2.1 with ht
  have hafter : Records r.1 t := records_ite _ hmid.path (records_afterAtomic ord 0 _ hmid.path)
  have hpass := hmid.trans hafter.passes
  set vs := r.2.1.map (fun x => (x.1, x.2, r.2.2.2.contains x.1)) with hvs
  have hvlanes : vs.map (·.1) = s.actLanes f := by
    rw [hvs, List.map_map, ← hmap, ← hfact.lanes]
    rfl
  have he : exec (.camo f) s = .next (t.modW (fun w => w.applyAll t.cur.2 (markedWrites f.d (typeRegs f.tyN) vs))).advanceLane := by
    refine (laneForm_ready _ (fun _ h => by cases h) hr.1 hr.2).trans ?_
    simp only [h.idle, State.performed_quiet hr.1, Bool.not_true, Bool.and_false, Bool.false_eq_true, if_false, hlanes]
    rw [State.splitThen_none _ _ _ hgs]
    have hamo : s.canvasAmo 0 f all = (t, markedWrites f.d (typeRegs f.tyN) vs) :=
      congrArg (Prod.mk t) (laneWrites_eq f.d (typeRegs f.tyN) (fun l => r.2.2.2.contains l) r.2.1)
    have hfinish : s.finishCamo f (canvasAccs s f)
        = (s.canvasAmo 0 f all).1.result true f.la.toNat (vDests f.d (typeRegs f.tyN)) (s.canvasAmo 0 f all).2 [] none := rfl
    rw [hfinish, hamo, la_toNat hla, State.result_now]
  obtain ⟨u, heffect, hkept, hscal, hmem, hcw⟩ := hpass.results hr he (fun w k => (lanesRead_actLanes hvlanes w k _).same)
  have hread := lanesRead_actLanes hvlanes t.cw s.cur.2 (typeRegs f.tyN)
  rw [← hcw] at hread
  have hstart : s1.mem = s.mem := hbefore.mem
  have hend : u.mem = r.1.mem := hmem.trans hafter.mem
  have hheld : ∀ x ∈ canvasAccs s f, ({ lane := x.lane, ea := x.ea, pa := x.pa, data := amoData s.cw f (typeBytes f.tyN) x.lane } : HeldLane) ∈ all :=
    fun x hx => mem_heldOf.mpr ⟨hx, rfl⟩
  have hold : numAt s.cbyte = numAt s1.mem.canvasSide.bytes.get := by rw [hstart]; rfl
  refine ⟨u, heffect, .of_mem hkept hscal hend (by rw [hstep.bytes, hstart]) (by rw [hstep.counts, hstart]), ?_, ?_,
    hread.frame_act hpass.lanes hvlanes⟩
  · intro a hout
    rw [State.cbyte, hend, State.cbyte, ← hstart]
    exact hfact.outside a (fun y hy => hout y.acc (mem_heldOf.mp hy).1)
  · intro x hx halone
    have halone' : AloneIn all (typeBytes f.tyN) { lane := x.lane, ea := x.ea, pa := x.pa, data := amoData s.cw f (typeBytes f.tyN) x.lane } :=
      fun z hz hne => halone z.acc (mem_heldOf.mp hz).1 hne
    have hget : numAt u.cbyte = numAt r.1.mem.canvasSide.bytes.get := by
      rw [show u.cbyte = u.mem.canvas.get from rfl, hend]
      rfl
    refine ⟨fun j hj => ?_, ?_⟩
    · have hin := hread.value _ (List.mem_map_of_mem (f := fun x => (x.1, x.2, r.2.2.2.contains x.1)) (hfact.old _ (hheld x hx) halone')) j hj
      rw [hold]
      exact hin
    · rw [hget, hold]
      exact hfact.stored _ (hheld x hx) halone'

/-- Settles O37: the accesses of a canvas word are those of its active lanes, and each form's effect on them is that of the access
to memory of the same kind, on canvas bytes. -/
theorem canvasAccess : Obligations.CanvasAccess := by
  unfold Obligations.CanvasAccess
  exact ⟨fun f s hr hla h hrace => cld_effect hr hla h hrace, fun f s hr hla h hrace => cst_effect hr hla h hrace,
    fun f s hr hla h => camo_effect hr hla h⟩

end Sys2Proof.Machine

namespace Sys2Proof.Machine

/-! ### CUPD (R63) -/

/-- What updates of `k` elements from `pa` leave of the bytes `b`. -/
def Updated (new : Nat → Nat → Nat) (pa k : Nat) (b c : Nat → Byte) : Prop :=
  (∀ a, ¬(pa ≤ a ∧ a < pa + 4 * k) → c a = b a)
    ∧ ∀ e, e < k → numAt c (pa + 4 * e) 4 = new e (numAt b (pa + 4 * e) 4) % 2 ^ 32

/-- The update of the next element. -/
theorem Updated.snoc {new : Nat → Nat → Nat} {pa k x : Nat} {b c : Nat → Byte} (h : Updated new pa k b c)
    (hx : x = new k (numAt c (pa + 4 * k) 4)) : Updated new pa (k + 1) b (storedAt c (pa + 4 * k) 4 x) := by
  obtain ⟨hout, hin⟩ := h
  refine ⟨fun a ha => ?_, fun e he => ?_⟩
  · rw [storedAt_apart (by omega), hout a (by omega)]
  · rcases Nat.lt_succ_iff_lt_or_eq.mp he with hlt | rfl
    · rw [← hin e hlt]
      exact numAt_congr (fun i hi => storedAt_apart (by omega))
    · rw [numAt_storedAt, hx, numAt_congr (fun i hi => hout _ (by omega))]
      rfl

/-- The new value of a lane's element by CUPD. -/
def cupdLane (w : Warp) (f : LaneWord) (l e old : Nat) : Nat :=
  cupdNew (f.mdN 4 3) f.tyN (f.sat == 1) f.rnd.toNat old (w.vReg (f.c.toNat + e) l).toNat (w.vReg (f.a.toNat + e) l).toNat

/-- One element's atomic, with the release stamp its read finds. -/
def cupdStep (f : LaneWord) (w : Warp) (rel : Option Nat) (x : LaneAcc) (r : State × List (Option (BitVec 128))) (e : Nat) :
    State × List (Option (BitVec 128)) :=
  (r.1.atomicPa true (x.pa + 4 * e) 4 (cupdLane w f x.lane e (r.1.mem.canvas.readNat (x.pa + 4 * e) 4)) rel,
    r.2 ++ [r.1.releaseStamp true (x.pa + 4 * e) 4])

theorem updateLane_eq (s : State) (f : LaneWord) (w : Warp) (rel : Option Nat) (x : LaneAcc) :
    s.updateLane f w rel x = (List.range (2 ^ f.mdN 2 1)).foldl (cupdStep f w rel x) (s, []) := rfl

theorem cupdSteps (f : LaneWord) (w : Warp) (rel : Option Nat) (x : LaneAcc) (s : State) (l : List (Option (BitVec 128))) (k : Nat) :
    CanvasStep s ((List.range k).foldl (cupdStep f w rel x) (s, l)).1
      ∧ Updated (cupdLane w f x.lane) x.pa k s.cbyte ((List.range k).foldl (cupdStep f w rel x) (s, l)).1.cbyte := by
  induction k with
  | zero => exact ⟨.refl s, fun _ _ => rfl, fun e he => absurd he (Nat.not_lt_zero e)⟩
  | succ k ih =>
    obtain ⟨hstep, hupd⟩ := ih
    rw [List.range_succ, List.foldl_append]
    set r := (List.range k).foldl (cupdStep f w rel x) (s, l)
    refine ⟨hstep.trans (canvasStep_atomicPa ..), ?_⟩
    have hbytes : (cupdStep f w rel x r k).1.cbyte
        = storedAt r.1.cbyte (x.pa + 4 * k) 4 (cupdLane w f x.lane k (r.1.mem.canvas.readNat (x.pa + 4 * k) 4)) :=
      funext (fun a => atomicPa_canvas ..)
    rw [List.foldl_cons, List.foldl_nil, hbytes]
    exact hupd.snoc (by rw [readNat_eq_numAt]; rfl)

/-- What CUPD leaves in a canvas of the lanes it has done: bytes that none covers stand, and a lane that no other overlaps has its
elements updated. -/
def LanesUpdated (new : Nat → Nat → Nat → Nat) (n : Nat) (all done : List LaneAcc) (b c : Nat → Byte) : Prop :=
  (∀ a, (∀ x ∈ done, ¬(x.pa ≤ a ∧ a < x.pa + 4 * n)) → c a = b a)
    ∧ ∀ x ∈ done, alone all (4 * n) x → ∀ e, e < n → numAt c (x.pa + 4 * e) 4 = new x.lane e (numAt b (x.pa + 4 * e) 4) % 2 ^ 32

theorem LanesUpdated.snoc {new : Nat → Nat → Nat → Nat} {n : Nat} {all done : List LaneAcc} {b c d : Nat → Byte} {y : LaneAcc}
    (h : LanesUpdated new n all done b c) (hdone : ∀ x ∈ done, x ∈ all ∧ x.lane ≠ y.lane) (hy : y ∈ all)
    (hd : Updated (new y.lane) y.pa n c d) : LanesUpdated new n all (done ++ [y]) b d := by
  obtain ⟨hout, hin⟩ := h
  obtain ⟨hbeside, hnew⟩ := hd
  refine ⟨fun a ha => ?_, fun x hx halone e he => ?_⟩
  · rw [hbeside a (ha y (by simp)), hout a (fun x hx => ha x (List.mem_append_left _ hx))]
  · rcases List.mem_append.mp hx with hx | hx
    · rw [← hin x hx halone e he]
      refine numAt_congr (fun i hi => hbeside _ ?_)
      have hapart := halone y hy (hdone x hx).2.symm
      omega
    · obtain rfl := List.mem_singleton.mp hx
      rw [hnew e he]
      congr 2
      refine numAt_congr (fun i hi => hout _ (fun z hz => ?_))
      have hapart := halone z (hdone z hz).1 (hdone z hz).2
      omega

/-- All lanes of CUPD, with the stamps their reads find. -/
def cupdLanes (f : LaneWord) (w : Warp) (rel : Option Nat) (r : State × List (Option (BitVec 128))) (x : LaneAcc) :
    State × List (Option (BitVec 128)) :=
  ((r.1.updateLane f w rel x).1, r.2 ++ (r.1.updateLane f w rel x).2)

theorem canvasUpdates {f : LaneWord} {w : Warp} {rel : Option Nat} {all : List LaneAcc} {b : Nat → Byte} :
    ∀ (zs done : List LaneAcc) (r : State × List (Option (BitVec 128))), (∀ y ∈ done ++ zs, y ∈ all) →
      ((done ++ zs).map (·.lane)).Nodup → LanesUpdated (cupdLane w f) (2 ^ f.mdN 2 1) all done b r.1.cbyte →
      CanvasStep r.1 (zs.foldl (cupdLanes f w rel) r).1
        ∧ LanesUpdated (cupdLane w f) (2 ^ f.mdN 2 1) all (done ++ zs) b (zs.foldl (cupdLanes f w rel) r).1.cbyte
  | [], done, r, _, _, h => ⟨.refl _, by rwa [List.append_nil]⟩
  | y :: zs, done, r, hall, hnodup, h => by
    obtain ⟨hstep, hupd⟩ := cupdSteps f w rel y r.1 [] (2 ^ f.mdN 2 1)
    have hdone : ∀ x ∈ done, x ∈ all ∧ x.lane ≠ y.lane := by
      intro x hx
      refine ⟨hall x (List.mem_append_left _ hx), fun heq => ?_⟩
      rw [List.map_append, List.nodup_append] at hnodup
      exact hnodup.2.2 _ (List.mem_map_of_mem hx) _ (List.mem_map_of_mem (List.mem_cons_self ..)) heq
    have hone := h.snoc hdone (hall y (by simp)) hupd
    have hlist : done ++ y :: zs = (done ++ [y]) ++ zs := by rw [List.append_assoc, List.singleton_append]
    rw [hlist] at hall hnodup ⊢
    obtain ⟨hrest, hfact⟩ := canvasUpdates (rel := rel) zs (done ++ [y]) (cupdLanes f w rel r y) hall hnodup hone
    exact ⟨hstep.trans hrest, hfact⟩

theorem cupd_effect {f : LaneWord} {s : State} (hr : lanesReady (.cupd f) s) (hla : f.la = 0)
    (h : CanvasReach s f (4 * 2 ^ f.mdN 2 1) false true) :
    ∃ u, LaneEffect (.cupd f) s u ∧ CanvasOnly s u ∧ u.cw.v = s.cw.v
      ∧ LanesUpdated (cupdLane s.cw f) (2 ^ f.mdN 2 1) (canvasAccs s f) (canvasAccs s f) s.cbyte u.cbyte := by
  set xs := canvasAccs s f with hxs
  set s1 := if xs.isEmpty = true then s else s.beforeAtomic 0 with hs1
  have hbefore : Records s s1 := records_ite _ (laneReady_path hr.2) (records_beforeAtomic 0 (laneReady_path hr.2))
  set r := xs.foldl (cupdLanes f s.cw (s.releaseScope 0 0)) (s1, []) with hrdef
  obtain ⟨hstep, hupd⟩ := canvasUpdates (f := f) (w := s.cw) (rel := s.releaseScope 0 0) (all := xs) (b := s1.cbyte) xs [] (s1, [])
    (fun _ hy => hy) (canvasAccs_nodup s f) ⟨fun _ _ => rfl, fun x hx => nomatch hx⟩
  rw [← hrdef] at hstep hupd
  have hmid := hbefore.passes.trans (hstep.beside.passes hbefore.passes.path)
  set t := if xs.isEmpty = true then r.1 else r.1.afterAtomic 0 0 r.2 with ht
  have hafter : Records r.1 t := records_ite _ hmid.path (records_afterAtomic 0 0 _ hmid.path)
  have hpass := hmid.trans hafter.passes
  have he : exec (.cupd f) s = .next (t.modW (fun w => w.applyAll t.cur.2 [])).advanceLane := by
    refine (canvasForm_reach (i := .cupd f) (fun s ls => s.finishCupd f ls) (fun _ h => nomatch h) hr h).trans ?_
    have hfinish : s.finishCupd f xs = t.result true f.la.toNat [] [] [] none := rfl
    rw [hfinish, la_toNat hla, State.result_now]
  obtain ⟨u, heffect, hkept, hscal, hmem, hcw⟩ := hpass.results hr he (fun w _ => SameButLanes.refl w)
  have hstart : s1.mem = s.mem := hbefore.mem
  have hend : u.mem = r.1.mem := hmem.trans hafter.mem
  refine ⟨u, heffect, .of_mem hkept hscal hend (by rw [hstep.bytes, hstart]) (by rw [hstep.counts, hstart]),
    by rw [hcw]; exact hpass.lanes, ?_⟩
  have hcbyte : u.cbyte = r.1.cbyte := congrArg (fun m : Mem => m.canvas.get) hend
  have hcbyte1 : s1.cbyte = s.cbyte := congrArg (fun m : Mem => m.canvas.get) hstart
  rw [hcbyte, ← hcbyte1]
  exact hupd

/-! ### CRED (R64) -/

/-- Integers that stand for the same bits have the same low half-word of 32 bits. -/
theorem ofNat_eq_of_modEq {x y : Nat} (h : (x : Int) ≡ y [ZMOD 2 ^ 32]) : BitVec.ofNat 32 x = BitVec.ofNat 32 y := by
  refine BitVec.eq_of_toNat_eq ?_
  rw [BitVec.toNat_ofNat, BitVec.toNat_ofNat]
  have hmod : ((x % 2 ^ 32 : Nat) : Int) = ((y % 2 ^ 32 : Nat) : Int) := by push_cast; exact h
  exact_mod_cast hmod

theorem intN_modEq (signed : Bool) (n x : Nat) : intN signed n x ≡ x [ZMOD 2 ^ n] := by
  have hmod : ((x % 2 ^ n : Nat) : Int) ≡ x [ZMOD 2 ^ n] := by push_cast; exact Int.mod_modEq _ _
  unfold intN signedNat
  cases signed with
  | false => exact hmod
  | true =>
    dsimp only
    rw [if_pos rfl]
    split
    · exact hmod
    · exact (Int.sub_modulus_modEq_iff.mpr hmod)

theorem wrapN_modEq (n : Nat) (x : Int) : (wrapN n x : Int) ≡ x [ZMOD 2 ^ n] := by
  have hpow : (0 : Int) < (2 ^ n : Nat) := by exact_mod_cast Nat.two_pow_pos n
  have hcast : ((2 ^ n : Nat) : Int) = 2 ^ n := by push_cast; rfl
  rw [wrapN, Int.toNat_of_nonneg (Int.emod_nonneg _ hpow.ne'), hcast]
  exact Int.mod_modEq _ _

theorem sum_intN_modEq (signed : Bool) (n : Nat) (xs : List Nat) : (xs.map (intN signed n)).sum ≡ xs.sum [ZMOD 2 ^ n] := by
  induction xs with
  | nil => rfl
  | cons x xs ih =>
    rw [List.map_cons, List.sum_cons, List.sum_cons, Nat.cast_add]
    exact (intN_modEq signed n x).add ih

/-- An integer reduction by add is the exact sum, narrowed once (R64). -/
theorem aluTree_sum {t : Nat} (ht : isInt t = true) (sat : Bool) (rm k : Nat) (xs : List Nat) :
    aluTree 0 t sat rm k xs = narrowed sat (isSigned t) (32 * typeRegs t) (xs.map (intN (isSigned t) (32 * typeRegs t))).sum := by
  rw [aluTree, isInt_not_isFloat ht, narrowed_eq]
  rfl

theorem thirtytwo_le_aluBits (t : Nat) : 32 ≤ 32 * typeRegs t := by
  unfold typeRegs
  split
  · omega
  · split <;> omega

/-- The low 32 bits of an integer sum are those of the sum of the patterns. -/
theorem ofNat_aluTree_sum {t : Nat} (ht : isInt t = true) (rm k : Nat) (xs : List Nat) :
    BitVec.ofNat 32 (aluTree 0 t false rm k xs) = BitVec.ofNat 32 xs.sum := by
  rw [aluTree_sum ht, narrowed_eq, if_neg Bool.false_ne_true]
  refine ofNat_eq_of_modEq ?_
  exact ((wrapN_modEq _ _).trans (sum_intN_modEq _ _ _)).of_dvd (pow_dvd_pow 2 (thirtytwo_le_aluBits t))

/-- What CRED reads in a lane's elements. -/
def credVal (s : State) (f : LaneWord) (pa : Nat) : Nat :=
  aluTree (f.mdN 4 3) f.tyN (f.sat == 1) f.rnd.toNat (f.mdN 2 0) ((List.range (2 ^ f.mdN 2 0)).map (fun i => numAt s.cbyte (pa + 4 * i) 4))

theorem cred_effect {f : LaneWord} {s : State} (hr : lanesReady (.cred f) s) (hla : f.la = 0)
    (h : CanvasReach s f (4 * 2 ^ f.mdN 2 0) true false) :
    ∃ u, LaneEffect (.cred f) s u ∧ CanvasOnly s u ∧ u.mem.canvas = s.mem.canvas
      ∧ (∀ l ∈ s.actLanes f, u.cw.vReg f.d.toNat l = BitVec.ofNat 32 (credVal s f (canvasAt s f l)))
      ∧ ∀ r l, l < 128 → writesLane s f 1 r l = false → u.cw.vReg r l = s.cw.vReg r l := by
  set n := 2 ^ f.mdN 2 0
  set sts := ((canvasAccs s f).map (fun x => s.runStamps x.pa (4 * n))).flatten with hsts
  have hrec : Records s (s.modP (fun p => { p with acqReads := p.acqReads ++ sts })) := records_modP (laneReady_path hr.2) rfl (.inl rfl)
  set t := s.modP (fun p => { p with acqReads := p.acqReads ++ sts }) with ht
  set bad : LaneAcc → Bool := fun x => (canvasAccs s f).any (fun y => y.lane = x.lane && poisoned s.mem.canvasPoison y.pa (4 * n))
  set val : LaneAcc → Nat := fun x => credVal s f x.pa
  have he : exec (.cred f) s = .next (t.modW (fun w => w.applyAll t.cur.2
      (markedWrites f.d 1 (canvasVals s f val bad)))).advanceLane := by
    refine (canvasForm_reach (i := .cred f) (fun s ls => s.finishCred f ls) (fun _ h => nomatch h) hr h).trans ?_
    unfold State.finishCred
    simp only [la_toNat hla, State.result_now, laneWrites_eq, List.map_map, readNat_eq_numAt]
    rfl
  have hvals := canvasVals_lanes s f val bad
  obtain ⟨u, heffect, hkept, hscal, humem, hcw⟩ := hrec.passes.results hr he (fun w k => (lanesRead_actLanes hvals w k _).same)
  have hread := lanesRead_actLanes hvals t.cw s.cur.2 1
  rw [← hcw] at hread
  have hmem : t.mem = s.mem := hrec.mem
  refine ⟨u, heffect, .of_mem hkept hscal humem (by rw [hmem]) (by rw [hmem]), by rw [humem, hmem], fun l hl => ?_,
    hread.frame_act hrec.passes.lanes hvals⟩
  have hone := hread.value _ (List.mem_map_of_mem (f := fun x : LaneAcc => (x.lane, val x, bad x)) (mem_canvasAccs hl)) 0 (by omega)
  rwa [Nat.add_zero, Nat.mul_zero, Nat.shiftRight_zero] at hone

/-! ### The values of R63 and R64 -/

theorem cupdNew_f32 {op rm x v c : Nat} (sat : Bool) (hop : op < 4) (hx : x < 2 ^ 32) (hv : v < 2 ^ 32) (hc : c < 2 ^ 32) :
    cupdNew op 16 sat rm x v c = halfUpdate Float.f32 op rm x v c := by
  have helem : ∀ y, y < 2 ^ 32 → element 16 0 y = y := fun y hy => Nat.mod_eq_of_lt hy
  have hfm : Float.ofType 16 = Float.f32 := rfl
  have hone : ∀ g : Nat → Nat × Float.Flags, elements 16 g = g 0 := fun _ => rfl
  have hint : isInt 16 = false := rfl
  simp only [cupdNew, halfUpdate, hint, Bool.false_eq_true, if_false, hone, hfm, helem x hx, helem v hv, helem c hc]
  match op with
  | 0 | 1 | 2 | 3 => rfl

/-- An element of a packed operand is its half. -/
theorem element_packed {t : Nat} (ht : isPacked t = true) (j x : Nat) : element t j x = x / 65536 ^ j % 65536 := by
  have hwidth : 2 ^ (Float.ofType t).width = 65536 := by
    simp only [isPacked, Bool.or_eq_true, decide_eq_true_eq] at ht
    rcases ht with rfl | rfl <;> rfl
  rw [element, hwidth, Nat.shiftRight_eq_div_pow, pow_mul]
  rfl

theorem cupdNew_packed {op t rm x v c : Nat} (sat : Bool) (hop : op < 4) (ht : isPacked t = true) :
    cupdNew op t sat rm x v c
      = halfUpdate (Float.ofType t) op rm (x / 65536 ^ 0 % 65536) (v / 65536 ^ 0 % 65536) (c / 65536 ^ 0 % 65536)
        + 65536 * halfUpdate (Float.ofType t) op rm (x / 65536 ^ 1 % 65536) (v / 65536 ^ 1 % 65536) (c / 65536 ^ 1 % 65536) := by
  have hint : isInt t = false := by
    simp only [isPacked, Bool.or_eq_true, decide_eq_true_eq] at ht
    rcases ht with rfl | rfl <;> rfl
  simp only [cupdNew, elements, halfUpdate, hint, ht, Bool.false_eq_true, if_false, if_true, element_packed ht]
  match op with
  | 0 | 1 | 2 | 3 => rfl

theorem ofType_packed {t : Nat} (ht : isPacked t = true) : Float.ofType t = if t = 13 then Float.h16 else Float.w16 := by
  simp only [isPacked, Bool.or_eq_true, decide_eq_true_eq] at ht
  rcases ht with rfl | rfl <;> rfl

theorem getD_pairUp {α : Type} (op : α → α → α) (z : α) : ∀ (k : Nat) (xs : List α) (i : Nat), xs.length = 2 * k → i < k →
    (pairUp op xs).getD i z = op (xs.getD (2 * i) z) (xs.getD (2 * i + 1) z)
  | k + 1, a :: b :: r, 0, _, _ => rfl
  | k + 1, a :: b :: r, i + 1, hlen, hi => by
    have hrest := getD_pairUp op z k r i (by simp only [List.length_cons] at hlen; omega) (by omega)
    simpa only [pairUp, List.getD_cons_succ, Nat.mul_add, Nat.mul_one] using hrest

theorem length_pairUp {α : Type} (op : α → α → α) : ∀ (k : Nat) (xs : List α), xs.length = 2 * k → (pairUp op xs).length = k
  | 0, xs, h => by rw [List.length_eq_zero_iff.mp h]; rfl
  | k + 1, a :: b :: r, h => by
    rw [pairUp, List.length_cons, length_pairUp op k r (by simp only [List.length_cons] at h; omega)]

/-- Only the elements in range bear on a tree. -/
theorem halvesTree_congr (op : Nat → Nat → Nat) : ∀ (k : Nat) {g h : Nat → Nat}, (∀ i, i < 2 ^ k → g i = h i) →
    halvesTree op k g = halvesTree op k h
  | 0, _, _, heq => heq 0 (by decide)
  | k + 1, _, _, heq => by
    rw [halvesTree, halvesTree]
    refine halvesTree_congr op k (fun i hi => ?_)
    rw [heq _ (by rw [pow_succ]; omega), heq _ (by rw [pow_succ]; omega)]

/-- The list's fixed tree over neighbours is R64's. -/
theorem treeFold_eq_halvesTree (op : Nat → Nat → Nat) : ∀ (k : Nat) (xs : List Nat), xs.length = 2 ^ k →
    (treeFold op k xs).headD 0 = halvesTree op k (fun i => xs.getD i 0)
  | 0, [a], _ => rfl
  | k + 1, xs, h => by
    have hlen : xs.length = 2 * 2 ^ k := by rw [h, pow_succ, Nat.mul_comm]
    rw [treeFold, treeFold_eq_halvesTree op k _ (length_pairUp op _ xs hlen), halvesTree]
    exact halvesTree_congr op k (fun i hi => getD_pairUp op 0 _ xs i hlen hi)

/-- Settles O38: the lanes' elements are updated one after another and each is its own; a reduction reads the same bytes and writes
none; and the shared operation of the model is the table's. -/
theorem canvasTensor : Obligations.CanvasTensor := by
  unfold Obligations.CanvasTensor
  refine ⟨⟨fun f s hr hla h => ?_, fun f s hr hla h => ?_⟩, ?_, ?_, ?_, ?_, ?_⟩
  · obtain ⟨u, heffect, honly, hv, hout, hin⟩ := cupd_effect hr hla h
    exact ⟨u, heffect, honly, hv, hout, hin⟩
  · obtain ⟨u, heffect, honly, hcanvas, hval, hframe⟩ := cred_effect hr hla h
    refine ⟨u, heffect, honly, hcanvas, fun l hl => ⟨hval l hl, fun hint hop hsat => ?_⟩, hframe⟩
    rw [hval l hl, credVal, hop, hsat]
    exact ofNat_aluTree_sum hint ..
  · intro op t sat rm x v c hint
    rw [cupdNew, if_pos hint]
    exact atomicRow_aluNew ..
  · exact fun op sat rm x v c hop hx hv hc => cupdNew_f32 sat hop hx hv hc
  · intro op t sat rm x v c hop hpacked _ _ _
    rw [← ofType_packed hpacked]
    exact cupdNew_packed sat hop hpacked
  · exact fun t sat rm k xs hint => aluTree_sum hint sat rm k xs
  · intro op t sat rm k xs hop hlen
    have htree : ¬((op = 0 && !isFloat t) = true) := by
      rcases hop with h | rfl
      · simp [h]
      · simp [isFloat]
    rw [aluTree, if_neg htree]
    exact treeFold_eq_halvesTree _ k xs hlen

end Sys2Proof.Machine

namespace Sys2Proof.Machine

/-! ## Lanes to the scalar stream: O10 -/

/-! ### Scalar registers a lane form writes -/

/-- A scalar write leaves the lanes' registers. -/
theorem setSN_lanes {s : State} (hp : s.path?.isSome = true) (n : Nat) (x : DWord) :
    (s.setSN n x).cw.v = s.cw.v ∧ (s.setSN n x).cw.p = s.cw.p ∧ (s.setSN n x).cw.pds = s.cw.pds
      ∧ (s.setSN n x).cw.fpctl = s.cw.fpctl := by
  unfold State.setSN
  split
  · rw [State.cw_modW _ _ hp]
    exact ⟨rfl, rfl, rfl, rfl⟩
  · rw [State.cw_modP _ _ hp]
    exact ⟨rfl, rfl, rfl, rfl⟩

theorem givesScalar_setSN {i : Instr} {d : Nat} {x : State → DWord} (he : ∀ s, exec i s = laneOp i s (fun s => s.setSN d (x s)))
    (hv : ∀ f, i ≠ .vsync f) : GivesScalar i (fun s => setAt s.sN d (x s)) :=
  .of_laneOp he hv (fun s hp => ⟨(LanesOnly.refl hp).setSN .., fun n => State.sN_setSN s d n _ hp, setSN_lanes hp ..⟩)

theorem givesScalar_pair {i : Instr} {d : Nat} {x y : State → DWord}
    (he : ∀ s, exec i s = laneOp i s (fun s => (s.setSN d (x s)).setSN (d + 1) (y s))) (hv : ∀ f, i ≠ .vsync f) :
    GivesScalar i (fun s => setAt (setAt s.sN d (x s)) (d + 1) (y s)) := by
  refine .of_laneOp he hv (fun s hp => ?_)
  have hone := (LanesOnly.refl hp).setSN d (x s)
  obtain ⟨hv1, hp1, hds1, hfp1⟩ := setSN_lanes hp d (x s)
  obtain ⟨hv2, hp2, hds2, hfp2⟩ := setSN_lanes hone.some (d + 1) (y s)
  refine ⟨hone.setSN .., fun n => ?_, hv2.trans hv1, hp2.trans hp1, hds2.trans hds1, hfp2.trans hfp1⟩
  rw [State.sN_setSN _ _ _ _ hone.some, State.sN_setSN _ _ _ _ hp]
  rfl

theorem setMaskPair_eq (s : State) (d : Nat) (m : Mask) :
    s.setMaskPair d m = (s.setSN d (m.extractLsb' 0 64)).setSN (d + 1) (m.extractLsb' 64 64) := by
  have hlow : m.setWidth 64 = m.extractLsb' 0 64 := BitVec.setWidth_eq_extractLsb' (by omega)
  have hhigh : (m >>> 64).setWidth 64 = m.extractLsb' 64 64 := rfl
  rw [State.setMaskPair, hlow, hhigh]

/-! ### Masks of lanes that satisfy something (R245 to R247) -/

theorem lanesOf_and (p m : Mask) : lanesOf (p &&& m) = (lanesOf m).filter (fun l => bitB p l) := by
  simp [lanesOf, List.filter_filter, bitB]

theorem and_eq_maskOf (p m : Mask) : p &&& m = maskOf ((lanesOf m).filter (fun l => bitB p l)) := by
  rw [← lanesOf_and, maskOf_lanesOf]

theorem and_ne_zero_iff_any (p m : Mask) : p &&& m ≠ 0 ↔ (lanesOf m).any (fun l => bitB p l) = true := by
  rw [← lanesOf_ne_nil, lanesOf_and, ne_eq, List.filter_eq_nil_iff, List.any_eq_true]
  push Not
  rfl

theorem and_eq_iff_all (p m : Mask) : p &&& m = m ↔ (lanesOf m).all (fun l => bitB p l) = true := by
  rw [List.all_eq_true, ← List.filter_eq_self, ← lanesOf_and]
  refine ⟨fun h => by rw [h], fun h => ?_⟩
  rw [← maskOf_lanesOf (p &&& m), h, maskOf_lanesOf]

theorem lowestLane_of_lanesOf {m : Mask} {l : Nat} {r : List Nat} (h : lanesOf m = l :: r) : lowestLane m = l := by
  have hfind : (List.range 128).find? (fun l => m.getLsbD l) = some l := by
    rw [← List.head?_filter]
    exact congrArg List.head? h
  rw [lowestLane, hfind]
  rfl

theorem vvote_ballot (f : LaneWord) (hm : f.mdN 2 1 = 2) : GivesScalar (.vvote f) (fun s =>
    let b := maskOf ((s.actLanes f).filter (fun l => s.predN f.a.toNat l))
    setAt (setAt s.sN f.d.toNat (b.extractLsb' 0 64)) (f.d.toNat + 1) (b.extractLsb' 64 64)) := by
  refine givesScalar_pair (fun s => ?_) (fun _ h => nomatch h)
  show laneOp _ s (fun s => s.doVote f) = _
  simp only [State.doVote, hm, setMaskPair_eq, and_eq_maskOf]
  rfl

theorem vvote_any (f : LaneWord) (hm : f.mdN 2 1 = 0) : GivesScalar (.vvote f) (fun s => setAt s.sN f.d.toNat
    (if (s.actLanes f).any (fun l => s.predN f.a.toNat l) then 1 else 0)) := by
  refine givesScalar_setSN (fun s => ?_) (fun _ h => nomatch h)
  show laneOp _ s (fun s => s.doVote f) = _
  simp only [State.doVote, hm, and_ne_zero_iff_any]
  rfl

theorem vvote_all (f : LaneWord) (hm : f.mdN 2 1 = 1) : GivesScalar (.vvote f) (fun s => setAt s.sN f.d.toNat
    (if (s.actLanes f).all (fun l => s.predN f.a.toNat l) then 1 else 0)) := by
  refine givesScalar_setSN (fun s => ?_) (fun _ h => nomatch h)
  show laneOp _ s (fun s => s.doVote f) = _
  simp only [State.doVote, hm, and_eq_iff_all]
  rfl

theorem pget_mask (f : LaneWord) : GivesScalar (.pget f) (fun s =>
    let b := maskOf ((lanesOf (s.cp.liveMask s.cw)).filter (fun l => if f.imm then s.deadN f.a.toNat l else s.predN f.a.toNat l))
    setAt (setAt s.sN f.d.toNat (b.extractLsb' 0 64)) (f.d.toNat + 1) (b.extractLsb' 64 64)) := by
  refine givesScalar_pair (fun s => ?_) (fun _ h => nomatch h)
  show laneOp _ s (fun s => s.doPget f) = _
  simp only [State.doPget, setMaskPair_eq, and_eq_maskOf]
  cases f.imm <;> rfl

theorem vget_named (f : LaneWord) (h7 : f.ext.getLsbD 7 = false) : GivesScalar (.vget f) (fun s => setAt s.sN f.d.toNat
    (if f.ext.toNat % 128 ∈ s.actLanes f then BitVec.ofNat 64 (s.cw.rd f f.a (f.ext.toNat % 128)) else 0)) := by
  refine givesScalar_setSN (fun s => ?_) (fun _ h => nomatch h)
  show laneOp _ s (fun s => s.doGet f) = _
  have hlane : f.extN 6 0 = f.ext.toNat % 128 := rfl
  have hact : ∀ s : State, (activeMask s.cw s.cp f ≠ 0 && bitB (activeMask s.cw s.cp f) (f.ext.toNat % 128)) = true
      ↔ f.ext.toNat % 128 ∈ s.actLanes f := by
    intro s
    rw [mem_actLanes, Bool.and_eq_true, decide_eq_true_eq]
    refine ⟨fun h => ⟨by omega, h.2⟩, fun h => ⟨fun h0 => ?_, h.2⟩⟩
    rw [h0] at h
    simp [bitB] at h
  simp only [State.doGet, bitB, h7, Bool.false_eq_true, if_false, hlane]
  simp only [bitB] at hact
  simp only [hact]

theorem vget_lowest (f : LaneWord) (h7 : f.ext.getLsbD 7 = true) : GivesScalar (.vget f) (fun s => setAt s.sN f.d.toNat
    (match s.actLanes f with | l :: _ => BitVec.ofNat 64 (s.cw.rd f f.a l) | [] => 0)) := by
  refine givesScalar_setSN (fun s => ?_) (fun _ h => nomatch h)
  show laneOp _ s (fun s => s.doGet f) = _
  refine congrArg (laneOp _ s) (funext fun s => ?_)
  rw [State.doGet, show bitB f.ext 7 = true from h7]
  simp only [if_true]
  congr 1
  cases hact : s.actLanes f with
  | nil =>
    have hzero : activeMask s.cw s.cp f = 0 := by
      by_contra hne
      exact lanesOf_ne_nil.mpr hne hact
    rw [hzero]
    rfl
  | cons l r =>
    have hmem := mem_actLanes.mp (hact ▸ List.mem_cons_self .. : l ∈ s.actLanes f)
    have hne : activeMask s.cw s.cp f ≠ 0 := lanesOf_ne_nil.mp (fun h => by cases hact.symm.trans h)
    rw [lowestLane_of_lanesOf hact, hmem.2, decide_eq_true hne]
    rfl

/-! ### VRED (R241) -/

/-- Steps that double from w: each level of R241's tree is a level of R64's over every w-th lane. -/
theorem foldl_treeStep (op : Nat → Nat → Nat) : ∀ (k w : Nat) (x : Nat → Nat),
    (List.iterate (2 * ·) w k).foldl (fun x step => treeStep op step x) x 0 = halvesTree op k (fun i => x (w * i))
  | 0, w, x => by rw [halvesTree, Nat.mul_zero]; rfl
  | k + 1, w, x => by
    rw [List.iterate, List.foldl_cons, foldl_treeStep op k, halvesTree]
    congr 1
    funext i
    rw [treeStep, if_pos (Nat.mul_mod_right ..)]
    congr 2
    · ring
    · ring

theorem laneTree_eq (op : Nat → Nat → Nat) (x : Nat → Nat) : laneTree op x = halvesTree op 7 x := by
  have h := foldl_treeStep op 7 1 x
  simp only [Nat.one_mul] at h
  exact h

theorem doRed_eq (f : LaneWord) (s : State) : s.doRed f = s.setSN f.d.toNat (toScalar f.tyN
    (aluTree (f.mdN 4 2) f.tyN (f.sat == 1) f.rnd.toNat 7 ((List.range 128).map (redValue f s)))) := rfl

theorem aluTree_lanes {op t : Nat} (sat : Bool) (rm : Nat) (x : Nat → Nat) (hop : op ≠ 0 ∨ isFloat t = true) :
    aluTree op t sat rm 7 ((List.range 128).map x) = laneTree (fun x y => aluNew op t false rm x y 0) x := by
  have htree : ¬((op = 0 && !isFloat t) = true) := by
    rcases hop with h | h
    · simp [h]
    · simp [h]
  rw [aluTree, if_neg htree, treeFold_eq_halvesTree _ 7 _ (by rw [List.length_map, List.length_range]; rfl), laneTree_eq]
  exact halvesTree_congr _ 7 (fun i hi => by
    rw [List.getD_eq_getElem _ _ (by simpa using hi), List.getElem_map, List.getElem_range])

theorem vred_tree (f : LaneWord) (hop : f.mdN 4 2 ≠ 0 ∨ isFloat f.tyN = true) : GivesScalar (.vred f) (fun s => setAt s.sN f.d.toNat
    (toScalar f.tyN (laneTree (fun x y => aluNew (f.mdN 4 2) f.tyN false f.rnd.toNat x y 0) (redValue f s)))) := by
  refine givesScalar_setSN (fun s => ?_) (fun _ h => nomatch h)
  show laneOp _ s (fun s => s.doRed f) = _
  refine congrArg (laneOp _ s) (funext fun s => ?_)
  rw [doRed_eq, aluTree_lanes _ _ _ hop]

theorem vred_sum (f : LaneWord) (hop : f.mdN 4 2 = 0) (hint : isInt f.tyN = true) : GivesScalar (.vred f) (fun s => setAt s.sN f.d.toNat
    (toScalar f.tyN (narrowed (f.sat == 1) (isSigned f.tyN) (opBits f)
      (((List.range 128).map (fun l => intN (isSigned f.tyN) (opBits f) (redValue f s l))).sum)))) := by
  refine givesScalar_setSN (fun s => ?_) (fun _ h => nomatch h)
  show laneOp _ s (fun s => s.doRed f) = _
  refine congrArg (laneOp _ s) (funext fun s => ?_)
  rw [doRed_eq, hop, aluTree_sum hint, List.map_map]
  rfl

/-! ### VREDIX (R242) -/

/-- The search keeps a value that no value seen beats, at the lowest lane that holds it. -/
def Found (better : Nat → Nat → Bool) (seen : List (Nat × Nat)) (b : Nat × Nat) : Prop :=
  (b.2, b.1) ∈ seen ∧ ∀ y ∈ seen, better y.2 b.1 = false ∧ (y.2 = b.1 → b.2 ≤ y.1)

/-- One value more. -/
def searchStep (better : Nat → Nat → Bool) (best y : Nat × Nat) : Nat × Nat := if better y.2 best.1 then (y.2, y.1) else best

theorem Found.step {better : Nat → Nat → Bool} {seen : List (Nat × Nat)} {b y : Nat × Nat}
    (htrans : ∀ x y z, better x y = true → better y z = true → better x z = true) (hirr : ∀ x, better x x = false)
    (h : Found better seen b) (hlt : ∀ x ∈ seen, x.1 < y.1) : Found better (seen ++ [y]) (searchStep better b y) := by
  obtain ⟨hmem, hbest⟩ := h
  unfold searchStep
  by_cases hy : better y.2 b.1 = true
  · rw [if_pos hy]
    refine ⟨by simp, fun z hz => ?_⟩
    rcases List.mem_append.mp hz with hz | hz
    · have hno : better z.2 b.1 = false := (hbest z hz).1
      refine ⟨?_, fun heq => ?_⟩
      · by_contra hz'
        rw [htrans _ _ _ (Bool.not_eq_false _ ▸ hz') hy] at hno
        cases hno
      · rw [heq, hy] at hno
        cases hno
    · rw [List.mem_singleton.mp hz]
      exact ⟨hirr _, fun _ => le_rfl⟩
  · rw [if_neg hy]
    refine ⟨List.mem_append_left _ hmem, fun z hz => ?_⟩
    rcases List.mem_append.mp hz with hz | hz
    · exact hbest z hz
    · rw [List.mem_singleton.mp hz]
      exact ⟨by simpa using hy, fun _ => (hlt _ hmem).le⟩

theorem Found.foldl {better : Nat → Nat → Bool} (htrans : ∀ x y z, better x y = true → better y z = true → better x z = true)
    (hirr : ∀ x, better x x = false) : ∀ (xs seen : List (Nat × Nat)) (b : Nat × Nat), Found better seen b →
      (seen ++ xs).Pairwise (·.1 < ·.1) → Found better (seen ++ xs) (xs.foldl (searchStep better) b)
  | [], seen, b, h, _ => by rwa [List.append_nil]
  | y :: xs, seen, b, h, hasc => by
    have hlt : ∀ x ∈ seen, x.1 < y.1 := fun x hx => (List.pairwise_append.mp hasc).2.2 x hx y (List.mem_cons_self ..)
    have hrest := Found.foldl htrans hirr xs (seen ++ [y]) _ (h.step htrans hirr hlt) (by rwa [List.append_assoc, List.singleton_append])
    rwa [List.append_assoc, List.singleton_append] at hrest

/-- Values none of which beats the first leave it. -/
theorem search_stays {better : Nat → Nat → Bool} {b : Nat × Nat} : ∀ (xs : List (Nat × Nat)), (∀ y ∈ xs, better y.2 b.1 = false) →
    xs.foldl (searchStep better) b = b
  | [], _ => rfl
  | y :: xs, h => by
    obtain ⟨hy, hxs⟩ := List.forall_mem_cons.mp h
    rw [List.foldl_cons, searchStep, hy, if_neg Bool.false_ne_true, search_stays xs hxs]

theorem below_ratio (s r : Bool) (m n : Nat) (e f : Int) : Float.below (.num s m e) (.num r n f) = true
    ↔ Float.ratio s m e < Float.ratio r n f ∨ (m = 0 ∧ n = 0 ∧ s = true ∧ r = false) := by
  have hpos := Float.two_zpow_pos (min e f)
  rw [below_num, ← Int.cast_lt (R := ℚ), Float.toInt_eq_ratio (min_le_left e f), Float.toInt_eq_ratio (min_le_right e f),
    div_lt_div_iff_of_pos_right hpos]

theorem below_inf_num (s r : Bool) (n : Nat) (f : Int) : Float.below (.inf s) (.num r n f) = s := by
  simp [Float.below, Float.ltVal, Float.Val.isZero]

theorem below_num_inf (s r : Bool) (n : Nat) (f : Int) : Float.below (.num r n f) (.inf s) = !s := by
  simp [Float.below, Float.ltVal, Float.Val.isZero]

theorem below_inf_inf (s r : Bool) : Float.below (.inf s) (.inf r) = (s && !r) := by revert s r; decide

theorem ratio_zero (s : Bool) (e : Int) : Float.ratio s 0 e = 0 := by simp [Float.ratio]

theorem below_trans {a b c : Float.Val} (ha : a.isNan = false) (hb : b.isNan = false) (hc : c.isNan = false)
    (hab : Float.below a b = true) (hbc : Float.below b c = true) : Float.below a c = true := by
  cases b with
  | nan k => cases hb
  | inf t =>
    cases a with
    | nan k => cases ha
    | inf s =>
      cases t
      · cases c with
        | nan k => cases hc
        | inf r => rw [below_inf_inf] at hbc; cases hbc
        | num r n f => rw [below_inf_num] at hbc; cases hbc
      · rw [below_inf_inf, Bool.not_true, Bool.and_false] at hab
        cases hab
    | num s m e =>
      rw [below_num_inf, Bool.not_eq_true'] at hab
      subst hab
      cases c with
      | nan k => cases hc
      | inf r => rw [below_inf_inf] at hbc; cases hbc
      | num r n f => rw [below_inf_num] at hbc; cases hbc
  | num t k g =>
    cases a with
    | nan k => cases ha
    | inf s =>
      rw [below_inf_num] at hab
      subst hab
      cases c with
      | nan k => cases hc
      | inf r => rwa [below_num_inf, ← Bool.true_and (!r), ← below_inf_inf] at hbc
      | num r n f => exact below_inf_num ..
    | num s m e =>
      cases c with
      | nan k => cases hc
      | inf r => rwa [below_num_inf] at hbc ⊢
      | num r n f =>
        rw [below_ratio] at hab hbc ⊢
        rcases hab with hab | ⟨rfl, rfl, rfl, rfl⟩
        · rcases hbc with hbc | ⟨rfl, rfl, rfl, rfl⟩
          · exact .inl (hab.trans hbc)
          · rw [ratio_zero] at hab ⊢
            exact .inl hab
        · rcases hbc with hbc | ⟨-, -, h, -⟩
          · rw [ratio_zero] at hbc ⊢
            exact .inl hbc
          · cases h

theorem redixBetter_irrefl (t : Nat) (isMax : Bool) (x : Nat) : redixBetter t isMax x x = false := by
  unfold redixBetter
  split
  · dsimp only
    split
    · rfl
    · next h =>
      have hnan := Bool.eq_false_of_not_eq_true h
      have hself : Float.below (Float.read (Float.ofType t) x) (Float.read (Float.ofType t) x) = false := by
        by_contra hself
        rw [Bool.not_eq_false] at hself
        exact absurd (below_asymm hnan hnan hself) (by rw [hself]; decide)
      simp [hself]
  · cases isMax <;> simp

theorem redixBetter_trans (t : Nat) (isMax : Bool) (x y z : Nat) (hxy : redixBetter t isMax x y = true)
    (hyz : redixBetter t isMax y z = true) : redixBetter t isMax x z = true := by
  unfold redixBetter at hxy hyz ⊢
  split at hxy
  · next hfloat =>
    rw [if_pos hfloat] at hyz ⊢
    dsimp only at hxy hyz ⊢
    cases hx : (Float.read (Float.ofType t) x).isNan
    case true => rw [hx, if_pos rfl] at hxy; cases hxy
    cases hy : (Float.read (Float.ofType t) y).isNan
    case true => rw [hy, if_pos rfl] at hyz; cases hyz
    cases hz : (Float.read (Float.ofType t) z).isNan
    case true => rfl
    simp only [hx, hy, hz, Bool.false_eq_true, if_false] at hxy hyz ⊢
    cases isMax
    · exact below_trans hx hy hz hxy hyz
    · exact below_trans hz hy hx hyz hxy
  · next hfloat =>
    rw [if_neg hfloat] at hyz ⊢
    cases isMax
    · simp only [Bool.false_eq_true, if_false, decide_eq_true_eq] at hxy hyz ⊢
      omega
    · simp only [if_true, decide_eq_true_eq] at hxy hyz ⊢
      omega

/-- What VREDIX leaves in D and D + 1. -/
theorem vredix_result {f : LaneWord} {s : State} (hq : s.quiet = true) (hr : laneReady (.vredix f) s = true) :
    ∃ t, exec (.vredix f) s = .next t
      ∧ t.sN f.d.toNat = toScalar f.tyN (redix f.tyN f.imm f.ext.toNat ((s.actLanes f).map (fun l => (l, s.cw.rd f f.a l)))).1
      ∧ t.sN (f.d.toNat + 1)
        = BitVec.ofNat 64 (redix f.tyN f.imm f.ext.toNat ((s.actLanes f).map (fun l => (l, s.cw.rd f f.a l)))).2 := by
  obtain ⟨t, ht, hres⟩ := givesScalar_pair (i := .vredix f) (d := f.d.toNat)
    (x := fun s => toScalar f.tyN (redix f.tyN f.imm f.ext.toNat ((s.actLanes f).map (fun l => (l, s.cw.rd f f.a l)))).1)
    (y := fun s => BitVec.ofNat 64 (redix f.tyN f.imm f.ext.toNat ((s.actLanes f).map (fun l => (l, s.cw.rd f f.a l)))).2)
    (fun _ => rfl) (fun _ h => nomatch h) s hq hr
  exact ⟨t, ht, (hres.sRegs _).trans ((if_neg (by omega)).trans (if_pos rfl)), (hres.sRegs _).trans (if_pos rfl)⟩

/-- The types VREDIX takes are of 32 bits. -/
theorem vredix_types {f : LaneWord} {s : State} (hr : laneReady (.vredix f) s = true) : f.tyN = 3 ∨ f.tyN = 7 ∨ f.tyN = 16 := by
  have hwf : Instr.wf (.vredix f) = true := by
    simp only [laneReady, Bool.and_eq_true] at hr
    exact hr.1.1.1.2
  simp only [Instr.wf, Instr.illegal, laneCard, Card.illegal, Option.isNone_iff_eq_none] at hwf
  split at hwf
  · simp at hwf
  · next htype => simpa [Card.typeOk, or_iff_not_imp_left] using htype

/-- A search over 32-bit values: VREDIX takes no other type. -/
theorem vredix_bits {f : LaneWord} {t : State} (hr : laneReady (.vredix f) t = true) (s : State) :
    opBits f = 32 ∧ ∀ l, s.cw.rd f f.a l < 2 ^ 32 := by
  have hregs : typeRegs f.tyN = 1 := by
    rcases vredix_types hr with h | h | h <;> rw [h] <;> rfl
  refine ⟨by rw [opBits, hregs], fun l => ?_⟩
  have h := vWide_lt s.cw l (typeRegs f.tyN) f.a.toNat
  rw [hregs] at h
  rw [Warp.rd, hregs]
  exact h

theorem redix_cons (t : Nat) (isMax : Bool) (ident l x : Nat) (r : List (Nat × Nat)) : redix t isMax ident ((l, x) :: r)
    = let b := r.foldl (searchStep (redixBetter t isMax)) (x, l)
      if (isFloat t && (Float.read (Float.ofType t) b.1).isNan) = true then ((Float.ofType t).nan, b.2) else b := rfl

/-- The present lanes with their values, of which the search finds one. -/
theorem redix_found (f : LaneWord) (s : State) (h : s.actLanes f ≠ []) :
    ∃ l ∈ s.actLanes f, (∀ j ∈ s.actLanes f, redixBetter f.tyN f.imm (s.cw.rd f f.a j) (s.cw.rd f f.a l) = false
          ∧ (s.cw.rd f f.a j = s.cw.rd f f.a l → l ≤ j))
      ∧ (redix f.tyN f.imm f.ext.toNat ((s.actLanes f).map (fun l => (l, s.cw.rd f f.a l))))
        = if (isFloat f.tyN && (Float.read (Float.ofType f.tyN) (s.cw.rd f f.a l)).isNan) = true then ((Float.ofType f.tyN).nan, l)
          else (s.cw.rd f f.a l, l) := by
  obtain ⟨l0, r, hact⟩ := List.exists_cons_of_ne_nil h
  generalize s.cw.rd f f.a = val
  have hasc : ((s.actLanes f).map (fun l => (l, val l))).Pairwise (·.1 < ·.1) := List.pairwise_map.mpr (actLanes_ascending s f)
  rw [hact, List.map_cons] at hasc ⊢
  have hfound := Found.foldl (redixBetter_trans f.tyN f.imm) (redixBetter_irrefl f.tyN f.imm) (r.map (fun l => (l, val l))) [(l0, val l0)]
    (val l0, l0) ⟨List.mem_singleton.mpr rfl, fun y hy => by
      rw [List.mem_singleton.mp hy]
      exact ⟨redixBetter_irrefl .., fun _ => le_rfl⟩⟩ hasc
  set b := (r.map (fun l => (l, val l))).foldl (searchStep (redixBetter f.tyN f.imm)) (val l0, l0) with hb
  obtain ⟨hmem, hbest⟩ := hfound
  have hlist : [(l0, val l0)] ++ r.map (fun l => (l, val l)) = (l0 :: r).map (fun l => (l, val l)) := rfl
  rw [hlist] at hmem hbest
  obtain ⟨l, hl, heq⟩ := List.mem_map.mp hmem
  obtain ⟨rfl, hval⟩ := Prod.mk.inj heq
  refine ⟨b.2, hl, fun j hj => ?_, ?_⟩
  · rw [hval]
    exact hbest _ (List.mem_map_of_mem hj)
  · rw [hval, redix_cons]

theorem vredix_none {f : LaneWord} {s : State} (hq : s.quiet = true) (hr : laneReady (.vredix f) s = true) (h : s.actLanes f = []) :
    ∃ t, exec (.vredix f) s = .next t ∧ t.sN f.d.toNat = toScalar f.tyN f.ext.toNat ∧ t.sN (f.d.toNat + 1) = 128 := by
  obtain ⟨t, ht, hd, hd1⟩ := vredix_result hq hr
  rw [h] at hd hd1
  exact ⟨t, ht, hd, hd1⟩

theorem vredix_int {f : LaneWord} {s : State} (hq : s.quiet = true) (hr : laneReady (.vredix f) s = true) (hint : isInt f.tyN = true)
    (h : s.actLanes f ≠ []) : ∃ t l, exec (.vredix f) s = .next t ∧ l ∈ s.actLanes f
      ∧ t.sN f.d.toNat = toScalar f.tyN (s.cw.rd f f.a l) ∧ t.sN (f.d.toNat + 1) = BitVec.ofNat 64 l
      ∧ ∀ j ∈ s.actLanes f, (if f.imm then intA f s j ≤ intA f s l else intA f s l ≤ intA f s j) ∧ (intA f s j = intA f s l → l ≤ j) := by
  obtain ⟨t, ht, hd, hd1⟩ := vredix_result hq hr
  obtain ⟨l, hl, hbest, hred⟩ := redix_found f s h
  rw [isInt_not_isFloat hint, Bool.false_and, if_neg Bool.false_ne_true] at hred
  rw [hred] at hd hd1
  refine ⟨t, l, ht, hl, hd, hd1, fun j hj => ?_⟩
  obtain ⟨hno, hfirst⟩ := hbest j hj
  obtain ⟨hbits, hlt⟩ := vredix_bits hr s
  have hnum : ∀ k, intA f s k = intN (isSigned f.tyN) 32 (s.cw.rd f f.a k) := fun k => by rw [intA, hbits]
  rw [redixBetter, isInt_not_isFloat hint, if_neg Bool.false_ne_true, ← hnum, ← hnum] at hno
  refine ⟨?_, fun heq => hfirst ?_⟩
  · cases himm : f.imm
    · simpa [himm] using hno
    · simpa [himm] using hno
  · rw [hnum, hnum] at heq
    have hmod := (intN_modEq _ _ _).symm.trans (heq ▸ intN_modEq (isSigned f.tyN) 32 (s.cw.rd f f.a l))
    have hcast : ((s.cw.rd f f.a j : Nat) : Int) % 2 ^ 32 = (s.cw.rd f f.a l : Nat) % 2 ^ 32 := hmod
    have hj := hlt j
    have hl := hlt l
    omega

/-- A float search that finds a number: none beats it. -/
theorem redixBetter_f32 {isMax : Bool} {x best : Nat} (h : redixBetter 16 isMax x best = false) (hx : ¬isNaN Float.f32 x) :
    ¬isNaN Float.f32 best ∧ if isMax then ¬floatBelow Float.f32 best x else ¬floatBelow Float.f32 x best := by
  have hfm : Float.ofType 16 = Float.f32 := rfl
  have hfloat : isFloat 16 = true := rfl
  have hxn := not_isNaN.mp hx
  simp only [redixBetter, hfloat, hfm, hxn, if_true, Bool.false_eq_true, if_false] at h
  split at h
  · cases h
  · next hbest =>
    have hb : ¬isNaN Float.f32 best := not_isNaN.mpr (Bool.eq_false_of_not_eq_true hbest)
    refine ⟨hb, ?_⟩
    cases isMax
    · rw [if_neg Bool.false_ne_true, floatBelow_iff hx hb, Bool.not_eq_true]
      exact h
    · rw [if_pos rfl, floatBelow_iff hb hx, Bool.not_eq_true]
      exact h

theorem not_floatBelow_nan {t : Float.Fmt} {x y : Nat} (h : isNaN t x) : ¬floatBelow t x y ∧ ¬floatBelow t y x := by
  obtain ⟨k, hk⟩ := h
  unfold floatBelow
  rw [hk]
  refine ⟨fun h => h, ?_⟩
  cases Float.read t y <;> exact fun h => h

/-- NaNs alone: the first of them stays (R242). -/
theorem redix_nans {f : LaneWord} {s : State} (hty : f.tyN = 16) {l : Nat} {r : List Nat} (hact : s.actLanes f = l :: r)
    (h : ∀ j ∈ s.actLanes f, isNaN Float.f32 (s.cw.rd f f.a j)) :
    redix f.tyN f.imm f.ext.toNat ((s.actLanes f).map (fun l => (l, s.cw.rd f f.a l))) = (0x7FC00000, l) := by
  have hnan : ∀ x, isNaN Float.f32 x → (Float.read Float.f32 x).isNan = true := by
    rintro x ⟨k, hk⟩
    rw [hk]
    rfl
  have hfm : Float.ofType 16 = Float.f32 := rfl
  have hfloat : isFloat 16 = true := rfl
  rw [hact] at h ⊢
  obtain ⟨hl, hr⟩ := List.forall_mem_cons.mp h
  rw [List.map_cons, redix_cons, search_stays]
  · simp only [hty, hfm, hfloat, hnan _ hl, Bool.and_self, if_true]
    rfl
  · intro y hy
    obtain ⟨j, hj, rfl⟩ := List.mem_map.mp hy
    simp [redixBetter, hty, hfm, hfloat, hnan _ (hr j hj)]

theorem vredix_float {f : LaneWord} {s : State} (hq : s.quiet = true) (hr : laneReady (.vredix f) s = true) (hty : f.tyN = 16)
    (h : s.actLanes f ≠ []) : ∃ t l, exec (.vredix f) s = .next t ∧ l ∈ s.actLanes f ∧ t.sN (f.d.toNat + 1) = BitVec.ofNat 64 l
      ∧ ((∀ j ∈ s.actLanes f, isNaN Float.f32 (s.cw.rd f f.a j)) → t.sN f.d.toNat = 0x7FC00000 ∧ ∀ j ∈ s.actLanes f, l ≤ j)
      ∧ ((∃ j ∈ s.actLanes f, ¬isNaN Float.f32 (s.cw.rd f f.a j)) →
          t.sN f.d.toNat = BitVec.ofNat 64 (s.cw.rd f f.a l) ∧ ¬isNaN Float.f32 (s.cw.rd f f.a l)
          ∧ ∀ j ∈ s.actLanes f, (if f.imm then ¬floatBelow Float.f32 (s.cw.rd f f.a l) (s.cw.rd f f.a j)
              else ¬floatBelow Float.f32 (s.cw.rd f f.a j) (s.cw.rd f f.a l))
            ∧ (s.cw.rd f f.a j = s.cw.rd f f.a l → l ≤ j)) := by
  obtain ⟨t, ht, hd, hd1⟩ := vredix_result hq hr
  by_cases hall : ∀ j ∈ s.actLanes f, isNaN Float.f32 (s.cw.rd f f.a j)
  · obtain ⟨l, r, hact⟩ := List.exists_cons_of_ne_nil h
    rw [redix_nans hty hact hall, hty] at hd
    rw [redix_nans hty hact hall] at hd1
    refine ⟨t, l, ht, hact ▸ List.mem_cons_self .., hd1, fun _ => ⟨hd, fun j hj => ?_⟩, fun ⟨j, hj, hno⟩ => absurd (hall j hj) hno⟩
    have hasc := hact ▸ actLanes_ascending s f
    rcases List.mem_cons.mp (hact ▸ hj) with rfl | hj
    · exact le_rfl
    · exact ((List.pairwise_cons.mp hasc).1 j hj).le
  · obtain ⟨l, hl, hbest, hred⟩ := redix_found f s h
    push Not at hall
    obtain ⟨k, hk, hnum⟩ := hall
    rw [hty] at hbest
    have hlnum := (redixBetter_f32 (hbest k hk).1 hnum).1
    have hfm : Float.ofType 16 = Float.f32 := rfl
    rw [hty, hfm, not_isNaN.mp hlnum, Bool.and_false, if_neg Bool.false_ne_true] at hred
    rw [hty, hred] at hd
    rw [hty, hred] at hd1
    refine ⟨t, l, ht, hl, hd1, fun hno => absurd (hno k hk) hnum, fun _ => ⟨hd, hlnum, fun j hj => ⟨?_, (hbest j hj).2⟩⟩⟩
    by_cases hj' : isNaN Float.f32 (s.cw.rd f f.a j)
    · obtain ⟨h1, h2⟩ := not_floatBelow_nan (y := s.cw.rd f f.a l) hj'
      cases f.imm
      · exact h1
      · exact h2
    · exact (redixBetter_f32 (hbest j hj).1 hj').2

/-- Settles O10: a scalar form writes its one or two registers; the tree over lanes is R64's on 128 elements; and VREDIX is a search
whose order is transitive. -/
theorem lanesToScalarForms : Obligations.LanesToScalarForms := by
  unfold Obligations.LanesToScalarForms
  exact ⟨fun f => ⟨vvote_any f, vvote_all f, vvote_ballot f, pget_mask f, vget_named f, vget_lowest f⟩,
    fun f => ⟨vred_tree f, vred_sum f, fun s hq hr h => vredix_none hq hr h, fun s hq hr hint h => vredix_int hq hr hint h,
      fun s hq hr hty h => vredix_float hq hr hty h⟩⟩

end Sys2Proof.Machine

namespace Sys2Proof.Machine

/-! ## Rings: O39, O40 and the grants of O52 -/

/-! ### One bit of a header word -/

theorem getLsbD_putBit {w : Nat} (e : BitVec w) (k : Nat) (b : Bool) (i : Nat) :
    (putBit e k b).getLsbD i = if i = k then decide (k < w) && b else e.getLsbD i := by
  have hbit : ∀ n, BitVec.ofNat w (2 ^ n) = BitVec.twoPow w n := fun n => by
    apply BitVec.eq_of_toNat_eq
    rw [BitVec.toNat_ofNat, BitVec.toNat_twoPow]
  have hone : putBit e k b = (e &&& ~~~(BitVec.twoPow w k)) ||| if b then BitVec.twoPow w k else 0#w := by
    unfold putBit putBits
    cases b <;> simp [Nat.one_shiftLeft, hbit]
  rw [hone]
  by_cases hk : i = k
  · subst hk
    cases b <;> by_cases hw : i < w <;> simp [hw]
  · have hwidth : e.getLsbD i = true → i < w := fun h => BitVec.lt_of_getLsbD h
    cases b
    · simpa [hk, Ne.symm hk, BitVec.getLsbD_twoPow] using hwidth
    · simpa [hk, Ne.symm hk, BitVec.getLsbD_twoPow] using hwidth

theorem bitB_putBit_self {k w : Nat} (e : BitVec w) (b : Bool) (hk : k < w) : bitB (putBit e k b) k = b := by
  rw [bitB, getLsbD_putBit, if_pos rfl, decide_eq_true hk, Bool.true_and]

theorem bitB_putBit_ne {k i w : Nat} (e : BitVec w) (b : Bool) (h : i ≠ k) : bitB (putBit e k b) i = bitB e i := by
  rw [bitB, getLsbD_putBit, if_neg h]
  rfl

theorem putBit_putBit {k w : Nat} (e : BitVec w) (a b : Bool) : putBit (putBit e k a) k b = putBit e k b := by
  apply BitVec.eq_of_getLsbD_eq
  intro i _
  rw [getLsbD_putBit, getLsbD_putBit, getLsbD_putBit]
  split <;> rfl

theorem putBit_true {k : Nat} (e : DWord) : putBit e k true = e ||| BitVec.ofNat 64 (2 ^ k) := by
  apply BitVec.eq_of_getLsbD_eq
  intro i hi
  rw [getLsbD_putBit, BitVec.getLsbD_or, BitVec.getLsbD_ofNat, Nat.testBit_two_pow, decide_eq_true hi]
  split
  · next h => simp [h, show k < 64 by omega]
  · next h => simp [Ne.symm h]

/-! ### Numbers one after another (R30) -/

theorem getD_flatten_bytesOf (n : Nat) : ∀ (xs : List Nat) (i j : Nat), j < n →
    ((xs.map (bytesOf n)).flatten).getD (n * i + j) 0 = (bytesOf n (xs.getD i 0)).getD j 0
  | [], i, j, hj => by
    rw [List.getD_nil, getD_bytesOf n 0 j hj]
    simp
  | x :: xs, 0, j, hj => by
    rw [Nat.mul_zero, Nat.zero_add, List.map_cons, List.flatten_cons, List.getD_append _ _ _ _ (by rwa [length_bytesOf]),
      List.getD_cons_zero]
  | x :: xs, i + 1, j, hj => by
    rw [List.map_cons, List.flatten_cons, List.getD_append_right _ _ _ _ (by rw [length_bytesOf, Nat.mul_add]; omega), length_bytesOf,
      List.getD_cons_succ, ← getD_flatten_bytesOf n xs i j hj, Nat.mul_add]
    congr 1
    omega

theorem length_flatten_bytesOf (n : Nat) (xs : List Nat) : ((xs.map (bytesOf n)).flatten).length = n * xs.length := by
  induction xs with
  | nil => rfl
  | cons x xs ih => rw [List.map_cons, List.flatten_cons, List.length_append, ih, length_bytesOf, List.length_cons, Nat.mul_add]; omega

/-- Each of the numbers is read back. -/
theorem numAt_flatten_bytesOf (n : Nat) (xs : List Nat) (i : Nat) :
    numAt (fun a => ((xs.map (bytesOf n)).flatten).getD a 0) (n * i) n = xs.getD i 0 % 256 ^ n :=
  numAt_of_bytes (fun j hj => by rw [getD_flatten_bytesOf n xs i j hj, getD_bytesOf n _ j hj])

/-! ### A ring's header (R65) -/

/-- The ring that the bytes from a place give. -/
def ringOf (b : Nat → Byte) (k : Nat) : Ring :=
  let w (i : Nat) : Nat := numAt b (k + 8 * i) 8
  { cfg := w 0, ready := natBits (w 1) 38 32, free := natBits (w 1) 30 24, ridx := natBits (w 1) 21 16
    cidx := natBits (w 1) 13 8, pidx := natBits (w 1) 5 0, held := BitVec.ofNat 64 (w 2), poison := BitVec.ofNat 64 (w 3)
    done := BitVec.ofNat 64 (w 4) }

theorem ring_eq (s : State) (t : Team) (h : Nat) : s.ring t h = ringOf s.cbyte (canvasKey t h) := by
  unfold State.ring
  simp only [readNat_eq_numAt]
  rfl

/-- The fields fit their bits. -/
structure Ring.Fits (r : Ring) : Prop where
  cfg : r.cfg < 2 ^ 64
  ready : r.ready < 128
  free : r.free < 128
  ridx : r.ridx < 64
  cidx : r.cidx < 64
  pidx : r.pidx < 64

theorem ringOf_fits (b : Nat → Byte) (k : Nat) : (ringOf b k).Fits :=
  ⟨numAt_lt b _ 8, Nat.mod_lt _ (by decide), Nat.mod_lt _ (by decide), Nat.mod_lt _ (by decide), Nat.mod_lt _ (by decide),
    Nat.mod_lt _ (by decide)⟩

theorem ringOf_congr {b c : Nat → Byte} {k : Nat} (h : ∀ i, i < 64 → c (k + i) = b (k + i)) : ringOf c k = ringOf b k := by
  have hword : ∀ i, i < 8 → numAt c (k + 8 * i) 8 = numAt b (k + 8 * i) 8 := fun i hi =>
    numAt_congr (fun j hj => by rw [Nat.add_assoc]; exact h _ (by omega))
  unfold ringOf
  simp only [hword _ (show 0 < 8 by decide), hword _ (show 1 < 8 by decide), hword _ (show 2 < 8 by decide), hword _ (show 3 < 8 by decide),
    hword _ (show 4 < 8 by decide)]

/-- The bytes with a header written at a place. -/
def withHeader (b : Nat → Byte) (k : Nat) (r : Ring) (a : Nat) : Byte :=
  if k ≤ a ∧ a < k + 64 then ((r.words.map (bytesOf 8)).flatten).getD (a - k) 0 else b a

theorem setRing_cbyte (s : State) (t : Team) (h : Nat) (r : Ring) :
    (s.setRing t h r).cbyte = withHeader s.cbyte (canvasKey t h) r := by
  have hcanvas : (s.setRing t h r).mem.canvas = s.mem.canvas.writeN (canvasKey t h) ((r.words.map (bytesOf 8)).flatten) := by
    rw [State.setRing, State.modMem]
  have hlen : ((r.words.map (bytesOf 8)).flatten).length = 64 := by
    rw [length_flatten_bytesOf]
    rfl
  funext a
  rw [State.cbyte, hcanvas, Cells.get_writeN, hlen, withHeader, State.cbyte]

theorem withHeader_apart {b : Nat → Byte} {k a : Nat} {r : Ring} (h : ¬(k ≤ a ∧ a < k + 64)) : withHeader b k r a = b a := if_neg h

theorem numAt_withHeader (b : Nat → Byte) (k : Nat) (r : Ring) {i : Nat} (hi : i < 8) :
    numAt (withHeader b k r) (k + 8 * i) 8 = r.words.getD i 0 % 256 ^ 8 := by
  rw [← numAt_flatten_bytesOf 8 r.words i]
  unfold numAt
  congr 1
  refine List.map_congr_left (fun j hj => ?_)
  have hlt := List.mem_range.mp hj
  rw [withHeader, if_pos ⟨by omega, by omega⟩, show k + 8 * i + j - k = 8 * i + j by omega]

/-- A header is read as it was written. -/
theorem ringOf_withHeader (b : Nat → Byte) (k : Nat) {r : Ring} (h : r.Fits) : ringOf (withHeader b k r) k = r := by
  obtain ⟨hcfg, hready, hfree, hridx, hcidx, hpidx⟩ := h
  have hpos : r.words.getD 1 0 = r.ready * 2 ^ 32 + r.free * 2 ^ 24 + r.ridx * 2 ^ 16 + r.cidx * 2 ^ 8 + r.pidx := by
    simp [Ring.words, Nat.mod_eq_of_lt hready, Nat.mod_eq_of_lt hfree, Nat.mod_eq_of_lt hridx, Nat.mod_eq_of_lt hcidx,
      Nat.mod_eq_of_lt hpidx]
  have hword : ∀ e : DWord, BitVec.ofNat 64 (e.toNat % 256 ^ 8) = e := fun e => by
    apply BitVec.eq_of_toNat_eq
    rw [BitVec.toNat_ofNat]
    have := e.isLt
    omega
  have h2 : r.words.getD 2 0 = r.held.toNat := rfl
  have h3 : r.words.getD 3 0 = r.poison.toNat := rfl
  have h4 : r.words.getD 4 0 = r.done.toNat := rfl
  have h0 : r.words.getD 0 0 = r.cfg := rfl
  unfold ringOf
  simp only [numAt_withHeader b k r (show 0 < 8 by decide), numAt_withHeader b k r (show 1 < 8 by decide),
    numAt_withHeader b k r (show 2 < 8 by decide), numAt_withHeader b k r (show 3 < 8 by decide),
    numAt_withHeader b k r (show 4 < 8 by decide), h0, hpos, h2, h3, h4, hword, natBits, Nat.shiftRight_eq_div_pow]
  cases r
  congr 1 <;> dsimp only at * <;> omega

end Sys2Proof.Machine

namespace Sys2Proof.Machine

/-! ### What a ring form's steps leave -/

/-- A step of a ring form: it may change the canvas, its team's ring records, what the race detector keeps and lane registers. -/
structure RingKept (s u : State) : Prop where
  cur : u.cur = s.cur
  path : u.path?.isSome = true
  windows : u.cp.windows = s.cp.windows
  runs : u.cp.queue = [] ↔ s.cp.queue = []
  scalars : SameScalars s u
  warps : ∀ w, w ≠ s.cur.1 → u.warps.find w = s.warps.find w
  team : u.cw.team = s.cw.team
  places : ∀ m c, canvasKey (u.teams.getD m {}) c = canvasKey (s.teams.getD m {}) c
  bytes : u.mem.bytes = s.mem.bytes
  counts : u.mem.counts = s.mem.counts

theorem RingKept.trans {s t u : State} (h1 : RingKept s t) (h2 : RingKept t u) : RingKept s u where
  cur := h2.cur.trans h1.cur
  path := h2.path
  windows := h2.windows.trans h1.windows
  runs := h2.runs.trans h1.runs
  scalars := h1.scalars.trans h2.scalars
  warps w hw := (h2.warps w (by rwa [h1.cur])).trans (h1.warps w hw)
  team := h2.team.trans h1.team
  places m c := (h2.places m c).trans (h1.places m c)
  bytes := h2.bytes.trans h1.bytes
  counts := h2.counts.trans h1.counts

theorem Passes.ringKept {s u : State} (h : Passes s u) (hb : u.mem.bytes = s.mem.bytes) (hc : u.mem.counts = s.mem.counts) : RingKept s u where
  cur := h.cur
  path := h.path
  windows := h.windows
  runs := by rw [← List.map_eq_nil_iff, h.kept.runs, List.map_eq_nil_iff]
  scalars := h.sameScalars
  warps := h.kept.warps
  team := by rw [h.kept.warp]
  places m c := by rw [h.kept.rest]
  bytes := hb
  counts := hc

theorem Records.ringKept {s u : State} (h : Records s u) : RingKept s u := h.passes.ringKept (by rw [h.mem]) (by rw [h.mem])

theorem CanvasStep.ringKept {s u : State} (h : CanvasStep s u) (hp : s.path?.isSome = true) : RingKept s u :=
  (h.beside.passes hp).ringKept h.bytes h.counts

theorem canvasStep_modCanvas (s : State) (g : Cells 8 → Cells 8) : CanvasStep s (s.modMem (fun m => { m with canvas := g m.canvas })) :=
  ⟨besideWarps_modMem .., rfl, rfl⟩

theorem canvasStep_setRing (s : State) (t : Team) (h : Nat) (r : Ring) : CanvasStep s (s.setRing t h r) :=
  canvasStep_modCanvas s (fun c => c.writeN (canvasKey t h) ((r.words.map (bytesOf 8)).flatten))

theorem canvasStep_setSeg (s : State) (t : Team) (h i n : Nat) : CanvasStep s (s.setSeg t h i n) :=
  canvasStep_modCanvas s (fun c => c.set (canvasKey t h + 64 + i) (BitVec.ofNat 8 n))

theorem canvasStep_stampHeader (s : State) (t : Team) (h : Nat) (rel : Option Nat) : CanvasStep s (s.stampHeader t h rel) :=
  (stampsOnly_stampAtomic ..).canvasStep

theorem cbyte_congr {s u : State} (h : u.mem.canvas = s.mem.canvas) : u.cbyte = s.cbyte := congrArg Cells.get h

theorem stampAtomic_cbyte (s : State) (w : Nat) (c : Bool) (a n : Nat) (rel : Option Nat) : (s.stampAtomic w c a n rel).cbyte = s.cbyte :=
  cbyte_congr (by rw [(stampsOnly_stampAtomic s w c a n rel).mem])

theorem Records.cbyte {s u : State} (h : Records s u) : u.cbyte = s.cbyte := cbyte_congr (by rw [h.mem])

/-! ### The team's records -/

theorem getD_modTeam {s : State} {m : Nat} (f : Team → Team) (hm : (s.teams.find m).isSome = true) (k : Nat) :
    (s.modTeam m f).teams.getD k {} = if k = m then f (s.teams.getD m {}) else s.teams.getD k {} := by
  obtain ⟨x, hx⟩ := Option.isSome_iff_exists.mp hm
  have hget : s.teams.getD m {} = x := by rw [Tab.getD, hx, Option.getD_some]
  rw [State.modTeam, hx, hget]
  exact Tab.getD_put ..

/-- A change of a team's ring records. -/
theorem ringKept_modTeam {s : State} (m : Nat) (f : Team → Team) (hp : s.path?.isSome = true)
    (hf : ∀ t, (f t).core = t.core ∧ (f t).canvasBase = t.canvasBase) : RingKept s (s.modTeam m f) := by
  have hwarps : (s.modTeam m f).warps = s.warps := by simp
  have hcur : (s.modTeam m f).cur = s.cur := by simp
  have hpath : (s.modTeam m f).path? = s.path? := by rw [State.path?, State.path?, State.pathAt, State.pathAt, hwarps, hcur]
  have hcw : (s.modTeam m f).cw = s.cw := by rw [State.cw, State.cw, hwarps, hcur]
  have hcp : (s.modTeam m f).cp = s.cp := by rw [State.cp, State.cp, hpath]
  refine ⟨hcur, by rw [hpath, hp], by rw [hcp], by rw [hcp], .of_regs (by rw [hcw]) (by rw [hcw]) (by rw [hcp]) (by rw [hcp]),
    fun w _ => by rw [hwarps], by rw [hcw], fun k c => ?_, by simp, by simp⟩
  cases hfind : s.teams.find m with
  | none => rw [State.modTeam, hfind]
  | some x =>
    rw [getD_modTeam f (by rw [hfind]; rfl)]
    split
    · next heq =>
      subst heq
      obtain ⟨hcore, hbase⟩ := hf (s.teams.getD k {})
      rw [canvasKey, canvasKey, hcore, hbase]
    · rfl

theorem modTeam_cbyte (s : State) (m : Nat) (f : Team → Team) : (s.modTeam m f).cbyte = s.cbyte :=
  cbyte_congr (by rw [State.modTeam_mem])

theorem modTeam_cw (s : State) (m : Nat) (f : Team → Team) : (s.modTeam m f).cw = s.cw := by
  rw [State.cw, State.cw, State.modTeam_warps, State.modTeam_cur]

theorem unwait_ringKept {s : State} (h : Nat) (hp : s.path?.isSome = true) : RingKept s (s.unwait h) :=
  ringKept_modTeam _ _ hp (fun _ => ⟨rfl, rfl⟩)

/-! ### Synchronisation (R73) -/

theorem records_bumpInterval {s : State} (hp : s.path?.isSome = true) : Records s (s.bumpInterval s.cur.1) :=
  .of_passes (Passes.of_modW_slots (f := fun w => { w with interval := w.interval + 1 }) hp rfl)
    (by simp [State.bumpInterval]) (by simp [State.bumpInterval])

theorem records_takeStage {s : State} (h i : Nat) (hp : s.path?.isSome = true) : Records s (s.takeStage h i) := by
  have hmatch : Records s (match s.cteam.stageRel.find (h * 64 + i) with
      | some (w, iv, ep) => s.acquireRelease s.cur.1 w iv ep
      | none => s) := by
    split
    · exact records_acquireRelease _ _ _ hp
    · exact Records.refl hp
  have hbump := records_bumpInterval hmatch.passes.path
  rw [hmatch.passes.cur] at hbump
  exact (hmatch.trans hbump).trans (records_modP hbump.passes.path rfl (.inl rfl))

theorem records_releaseP {s : State} (hp : s.path?.isSome = true) : Records s s.releaseP :=
  (records_releaseW hp).trans (records_modP (records_releaseW hp).passes.path rfl (.inl rfl))

theorem releaseP_interval {s : State} (hp : s.path?.isSome = true) : s.releaseP.cw.interval = s.cw.interval + 1 := by
  have hrel : (s.releaseW s.cur.1).cw = s.cw.release := State.cw_modW s Warp.release hp
  rw [State.releaseP, State.cw_modP _ _ (records_releaseW hp).passes.path, hrel]
  rfl

theorem releaseStage_ringKept {s : State} (h i : Nat) (hp : s.path?.isSome = true) : RingKept s (s.releaseStage h i) :=
  (records_releaseP hp).ringKept.trans (ringKept_modTeam _ _ (records_releaseP hp).passes.path (fun _ => ⟨rfl, rfl⟩))

theorem releaseStage_cw (s : State) (h i : Nat) : (s.releaseStage h i).cw = s.releaseP.cw := modTeam_cw ..

theorem releaseStage_cbyte {s : State} (h i : Nat) (hp : s.path?.isSome = true) : (s.releaseStage h i).cbyte = s.cbyte :=
  (modTeam_cbyte ..).trans (records_releaseP hp).cbyte

/-! ### What the form leaves in all -/

theorem RingKept.key {s u : State} (h : RingKept s u) (c : Nat) : canvasKey u.cteam c = canvasKey s.cteam c := by
  rw [State.cteam, h.team, h.places, State.cteam]

theorem RingKept.effect {i : Instr} {s u : State} (h : RingKept s u) (hr : lanesReady i s) (he : exec i s = .next u.advanceLane) :
    LaneEffect i s u := by
  obtain ⟨r, q, hqueue, -⟩ := laneReady_run hr.2
  refine laneEffect_of_advance he h.path (h.windows.trans (State.quiet_windows hr.1)) (fun hnil => ?_)
  rw [h.runs.mp hnil] at hqueue
  cases hqueue

theorem RingKept.only {s u : State} {h : Nat} (hk : RingKept s u)
    (hc : ∀ a, ¬(canvasKey s.cteam h ≤ a ∧ a < canvasKey s.cteam h + 256) → u.cbyte a = s.cbyte a) : RingOnly s u h :=
  ⟨hk.scalars, hk.bytes, hk.counts, hc, hk.warps⟩

theorem RingKept.ringHere {s u : State} (hk : RingKept s u) (h : Nat) : u.ringHere h = ringOf u.cbyte (canvasKey s.cteam h) := by
  rw [State.ringHere, ring_eq, hk.key]

theorem RingKept.seg {s u : State} (hk : RingKept s u) (h i : Nat) : u.seg u.cteam h i = (u.cbyte (canvasKey s.cteam h + 64 + i)).toNat := by
  rw [State.seg, hk.key, State.cbyte]

/-- A ring form whose offset passes the checks does its body. -/
theorem ringForm_reach {i : Instr} {f : LaneWord} {s u : State} {h : Nat} (body : State → Nat → Mask → State × Option Nat)
    (hv : ∀ f, i ≠ .vsync f) (hr : lanesReady i s) (hreach : RingReach s f h) (hbody : body s h (activeMask s.cw s.cp f) = (u, none)) :
    ringForm i f s body = .next u := by
  obtain ⟨hlanes, hidle, hplace, hchecks, hwatch, -⟩ := hreach
  rw [ringForm, laneForm_ready _ hv hr.1 hr.2, if_neg hlanes, hidle, if_neg Bool.false_ne_true]
  simp only [hplace, hchecks, Int.toNat_natCast, hwatch, hbody]

/-! ### RINIT (R70) -/

theorem rinit_fresh {f : LaneWord} {s : State} {h : Nat} (hr : lanesReady (.rinit f) s) (hreach : RingReach s f h)
    (hcfg : ringValue s f ≠ 0) (hok : ringConfigOk s s.cteam h (ringValue s f) = true)
    (hbusy : h ∈ s.cteam.rings → s.ringBusy s.cw.team h = false) :
    ∃ u, LaneEffect (.rinit f) s u ∧ RingOnly s u h ∧ u.cw.v = s.cw.v ∧ u.ringHere h = Ring.fresh (ringValue s f)
      ∧ (∀ i, i < 64 → u.seg u.cteam h i = 0)
      ∧ u.cteam.rings = if h ∈ s.cteam.rings then s.cteam.rings else s.cteam.rings ++ [h] := by
  set cfg := ringValue s f with hcfgdef
  set k := canvasKey s.cteam h with hk
  have hp := laneReady_path hr.2
  set s1 := s.modMem (fun m => { m with canvas := m.canvas.clear k 256 }) with hs1
  have h1 : CanvasStep s s1 := canvasStep_modCanvas s (fun c => c.clear k 256)
  have hp1 : s1.path?.isSome = true := (h1.ringKept hp).path
  have h2 := records_beforeAtomic 0 hp1
  set s2 := s1.beforeAtomic 0
  have h3 := (canvasStep_setRing s2 s.cteam h (Ring.fresh cfg)).trans
    (stampsOnly_stampAtomic (s2.setRing s.cteam h (Ring.fresh cfg)) s1.cur.1 true k 256 (s1.releaseScope 0 0)).canvasStep
  set s3 := (s2.setRing s.cteam h (Ring.fresh cfg)).stampAtomic s1.cur.1 true k 256 (s1.releaseScope 0 0) with hs3
  have hpass3 : Passes s s3 := ((h1.beside.passes hp).trans h2.passes).trans (h3.beside.passes h2.passes.path)
  have h4 := records_afterAtomic 0 0 [] hpass3.path
  set s4 := s3.afterAtomic 0 0 []
  have hpass := hpass3.trans h4.passes
  set g : Team → Team := fun t => { t with
    rings := if s.cteam.rings.contains h = true then t.rings else t.rings ++ [h], stageRel := t.stageRel.filter (fun e => e.1 / 64 ≠ h) } with hg
  set u := s4.modTeam s.cw.team g with hu
  have hkept : RingKept s u := (((h1.ringKept hp).trans h2.ringKept).trans ((h3.ringKept h2.passes.path).trans h4.ringKept)).trans
    (ringKept_modTeam _ g h4.passes.path (fun _ => ⟨rfl, rfl⟩))
  have he : exec (.rinit f) s = .next u.advanceLane := by
    refine ringForm_reach (i := .rinit f) (fun s h act => s.rinit f h act) (fun _ h => nomatch h) hr hreach ?_
    have hoperand : ringOperand s f (activeMask s.cw s.cp f) = cfg := rfl
    have hbusy' : (s.cteam.rings.contains h && s.ringBusy s.cw.team h) = false := by
      by_cases hm : h ∈ s.cteam.rings
      · rw [hbusy hm, Bool.and_false]
      · simp [hm]
    unfold State.rinit
    simp only [hoperand, hok, hbusy', hcfg, Bool.not_true, Bool.and_false, Bool.false_eq_true, if_false]
    rfl
  have hcbyte : u.cbyte = withHeader (Cells.get (s.mem.canvas.clear k 256)) k (Ring.fresh cfg) := by
    rw [hu, modTeam_cbyte, h4.cbyte, hs3, stampAtomic_cbyte, setRing_cbyte, h2.cbyte]
    rfl
  have hconfig : cfg < 2 ^ 20 ∧ 2 ≤ cfg / 256 % 256 ∧ cfg / 256 % 256 ≤ 64 := by
    simp only [ringConfigOk, Bool.and_eq_true, decide_eq_true_eq] at hok
    exact ⟨hok.1.1.1.1.1.1.1, hok.1.1.1.1.2⟩
  refine ⟨u, hkept.effect hr he, hkept.only (fun a ha => ?_), ?_, ?_, fun i hi => ?_, ?_⟩
  · rw [hcbyte, withHeader_apart (by omega), Cells.get_clear, if_pos (by omega)]
    rfl
  · rw [hu, modTeam_cw, hpass.lanes]
  · rw [hkept.ringHere, hcbyte, ringOf_withHeader]
    exact ⟨by show cfg < _; omega, by show 0 < _; omega, by show cfg / 256 % 256 < _; omega, by show 0 < _; omega, by show 0 < _; omega,
      by show 0 < _; omega⟩
  · rw [hkept.seg, hcbyte, withHeader_apart (by omega), Cells.get_clear, if_neg (by omega)]
    rfl
  · have hteams : s4.teams = s.teams := by rw [hpass.kept.rest]
    rw [State.cteam, hkept.team, hu, getD_modTeam g (by rw [hteams]; exact hreach.team), if_pos rfl, hteams]
    simp only [hg, List.contains_iff_mem]
    rfl

theorem rinit_gone {f : LaneWord} {s : State} {h : Nat} (hr : lanesReady (.rinit f) s) (hreach : RingReach s f h)
    (hcfg : ringValue s f = 0) (hlive : h ∈ s.cteam.rings) (hbusy : s.ringBusy s.cw.team h = false) :
    ∃ u, LaneEffect (.rinit f) s u ∧ RingOnly s u h ∧ u.cw.v = s.cw.v ∧ u.mem = s.mem ∧ u.cteam.rings = s.cteam.rings.erase h := by
  set u := s.modTeam s.cw.team (fun t => { t with rings := t.rings.erase h }) with hu
  have hkept : RingKept s u := ringKept_modTeam _ _ (laneReady_path hr.2) (fun _ => ⟨rfl, rfl⟩)
  have he : exec (.rinit f) s = .next u.advanceLane := by
    refine ringForm_reach (i := .rinit f) (fun s h act => s.rinit f h act) (fun _ h => nomatch h) hr hreach ?_
    have hoperand : ringOperand s f (activeMask s.cw s.cp f) = 0 := hcfg
    unfold State.rinit
    simp only [hoperand, hbusy, List.contains_iff_mem.mpr hlive, Bool.and_false, Bool.false_eq_true, if_false, if_true, ne_eq,
      not_true_eq_false, decide_false, Bool.false_and]
    rfl
  refine ⟨u, hkept.effect hr he, hkept.only (fun a _ => by rw [hu, modTeam_cbyte]), by rw [hu, modTeam_cw], by simp [hu], ?_⟩
  rw [State.cteam, hkept.team, hu, getD_modTeam _ hreach.team, if_pos rfl]
  rfl

theorem rinit_nothing {f : LaneWord} {s : State} {h : Nat} (hr : lanesReady (.rinit f) s) (hreach : RingReach s f h)
    (hcfg : ringValue s f = 0) (hlive : h ∉ s.cteam.rings) : LaneEffect (.rinit f) s s := by
  have hkept : RingKept s s := (Records.refl (laneReady_path hr.2)).ringKept
  refine hkept.effect hr (ringForm_reach (i := .rinit f) (fun s h act => s.rinit f h act) (fun _ h => nomatch h) hr hreach ?_)
  have hoperand : ringOperand s f (activeMask s.cw s.cp f) = 0 := hcfg
  have hcontains : s.cteam.rings.contains h = false := by simpa using hlive
  unfold State.rinit
  simp only [hoperand, hcontains, Bool.false_eq_true, if_false, if_true, ne_eq, not_true_eq_false, decide_false, Bool.false_and]

end Sys2Proof.Machine

namespace Sys2Proof.Machine

/-! ### RPOST and RFREE (R72) -/

theorem setSeg_cbyte (s : State) (t : Team) (h i n a : Nat) : (s.setSeg t h i n).cbyte a
    = if a = canvasKey t h + 64 + i then BitVec.ofNat 8 n else s.cbyte a := by
  rw [State.cbyte, State.setSeg, State.modMem, State.cbyte]
  exact Cells.get_set ..

theorem stampHeader_cbyte (s : State) (t : Team) (h : Nat) (rel : Option Nat) : (s.stampHeader t h rel).cbyte = s.cbyte :=
  stampAtomic_cbyte ..

/-- The stages of a ring stand at different offsets. -/
theorem Ring.stageAt_stageOff {r : Ring} {i : Nat} (h : Nat) (hi : i < r.nst) (hssz : 1 ≤ r.ssz) : r.stageAt h (r.stageOff h i) = some i := by
  have hpos : 0 < r.ssz * 256 := by omega
  have hinj : ∀ j, r.stageOff h j = r.stageOff h i → j = i := by
    intro j heq
    simp only [Ring.stageOff, Nat.mul_assoc] at heq
    exact Nat.eq_of_mul_eq_mul_right hpos (by omega)
  rw [Ring.stageAt, List.find?_range_eq_some]
  exact ⟨by simp, List.mem_range.mpr hi, fun j hj => by simpa using fun heq => absurd (hinj j heq) (by omega)⟩

theorem stage_granted {s : State} {t : Team} {h i : Nat} {r : Ring} (hs : s.stage t h r i = .granted) :
    ¬r.nst - r.free ≤ (i + r.nst - r.ridx) % r.nst ∧ bitB r.held i = true := by
  unfold State.stage at hs
  split at hs
  · cases hs
  · next hfree =>
    split at hs
    · next hheld => exact ⟨hfree, hheld⟩
    · split at hs
      · cases hs
      · split at hs
        · cases hs
        · split at hs <;> cases hs

theorem stage_released {s : State} {t : Team} {h i : Nat} {r : Ring} (hfree : ¬r.nst - r.free ≤ (i + r.nst - r.ridx) % r.nst)
    (hheld : bitB r.held i = false) (hdone : bitB r.done i = true) : s.stage t h r i = .released := by
  rw [State.stage, if_neg hfree, hheld, if_neg Bool.false_ne_true, hdone, if_pos rfl]

theorem stage_not_released {s : State} {t : Team} {h i : Nat} {r : Ring} (hdone : bitB r.done i = false) :
    s.stage t h r i ≠ .released := by
  rw [State.stage, hdone, if_neg Bool.false_ne_true]
  split
  · exact fun h => nomatch h
  split
  · exact fun h => nomatch h
  split
  · exact fun h => nomatch h
  split <;> exact fun h => nomatch h

/-- Where the oldest stage is not released, none becomes free. -/
theorem freeStages_stop {s : State} {t : Team} {h : Nat} {r : Ring} (hs : s.stage t h r r.ridx ≠ .released) :
    ∀ n, s.freeStages t h n r = (s, r)
  | 0 => rfl
  | n + 1 => by rw [State.freeStages, if_neg hs]

theorem ring_fits (s : State) (t : Team) (h : Nat) : (s.ring t h).Fits := by
  rw [ring_eq]
  exact ringOf_fits ..

/-- The SEG bytes lie behind the header's words. -/
theorem ringOf_setSeg {b c : Nat → Byte} {k i : Nat} (h : ∀ a, a ≠ k + 64 + i → c a = b a) : ringOf c k = ringOf b k :=
  ringOf_congr (fun j hj => h _ (by omega))

theorem rpost_effect {f : LaneWord} {s : State} {h i : Nat} (hr : lanesReady (.rpost f) s) (hreach : RingReach s f h)
    (hlive : h ∈ s.cteam.rings) (hmode : (s.ringHere h).mode = 0) (hi : i < (s.ringHere h).nst) (hnst : (s.ringHere h).nst ≤ 64)
    (hssz : 1 ≤ (s.ringHere h).ssz) (hval : ringValue s f = (s.ringHere h).stageOff h i)
    (hstage : s.stage s.cteam h (s.ringHere h) i = .claimed) :
    ∃ u, LaneEffect (.rpost f) s u ∧ RingOnly s u h ∧ u.cw.v = s.cw.v ∧ u.cw.interval = s.cw.interval + 1
      ∧ u.ringHere h = { s.ringHere h with ready := ((s.ringHere h).ready + 1) % 128 } ∧ u.seg u.cteam h i = (s.ringHere h).ssz
      ∧ ∀ j, j < 64 → j ≠ i → u.seg u.cteam h j = s.seg s.cteam h j := by
  have hp := laneReady_path hr.2
  have hfits : (s.ringHere h).Fits := ring_fits ..
  have hring : s.ring s.cteam h = s.ringHere h := rfl
  generalize s.ringHere h = r at *
  set k := canvasKey s.cteam h with hk
  set s1 := s.releaseStage h i with hs1
  set s2 := s1.setRing s.cteam h { r with ready := r.ready + 1 } with hs2
  set s3 := s2.setSeg s.cteam h i r.ssz with hs3
  set u := s3.stampHeader s.cteam h (some 0) with hu
  have h1 : RingKept s s1 := releaseStage_ringKept h i hp
  have hcanvas : CanvasStep s1 u := (canvasStep_setRing ..).trans ((canvasStep_setSeg ..).trans (canvasStep_stampHeader ..))
  have hkept : RingKept s u := h1.trans (hcanvas.ringKept h1.path)
  have he : exec (.rpost f) s = .next u.advanceLane := by
    refine ringForm_reach (i := .rpost f) (fun s h act => s.rpost f h act) (fun _ h => nomatch h) hr hreach ?_
    have hoperand : ringOperand s f (activeMask s.cw s.cp f) = r.stageOff h i := hval
    have hcontains : s.cteam.rings.contains h = true := List.contains_iff_mem.mpr hlive
    unfold State.rpost
    simp only [hring, hoperand, hmode, hcontains, r.stageAt_stageOff h hi hssz, hstage, State.performed_quiet hr.1, Bool.not_true,
      Bool.false_or, ne_eq, not_true_eq_false, decide_false, Bool.false_eq_true, if_false, if_true]
    rfl
  have hcbyte : ∀ a, u.cbyte a = if a = k + 64 + i then BitVec.ofNat 8 r.ssz
      else withHeader s.cbyte k { r with ready := r.ready + 1 } a := fun a => by
    rw [hu, stampHeader_cbyte, hs3, setSeg_cbyte, hs2, setRing_cbyte, hs1, releaseStage_cbyte h i hp]
  have hcw : u.cw = s.releaseP.cw := hcanvas.beside.cw.trans (releaseStage_cw ..)
  have hwords : withHeader s.cbyte k { r with ready := r.ready + 1 } = withHeader s.cbyte k { r with ready := (r.ready + 1) % 128 } := by
    funext a
    simp only [withHeader, Ring.words, Nat.mod_mod]
  refine ⟨u, hkept.effect hr he, hkept.only (fun a ha => ?_), ?_, ?_, ?_, ?_, fun j hj hne => ?_⟩
  · rw [hcbyte, if_neg (by omega), withHeader_apart (by omega)]
  · rw [hcw, (records_releaseP hp).passes.lanes]
  · rw [hcw, releaseP_interval hp]
  · rw [hkept.ringHere, ringOf_setSeg (b := withHeader s.cbyte k { r with ready := r.ready + 1 }) (i := i)
      (fun a ha => by rw [hcbyte, if_neg ha]), hwords, ringOf_withHeader]
    exact ⟨hfits.cfg, Nat.mod_lt _ (by decide), hfits.free, hfits.ridx, hfits.cidx, hfits.pidx⟩
  · rw [hkept.seg, hcbyte, if_pos rfl, BitVec.toNat_ofNat]
    exact Nat.mod_eq_of_lt (Nat.mod_lt _ (by decide))
  · rw [hkept.seg, hcbyte, if_neg (by omega), withHeader_apart (by omega)]
    rfl

/-- What RFREE does of a granted stage, up to the stages that become free. -/
theorem rfree_exec {f : LaneWord} {s v : State} {h i : Nat} {r' : Ring} (hr : lanesReady (.rfree f) s) (hreach : RingReach s f h)
    (hlive : h ∈ s.cteam.rings) (hi : i < (s.ringHere h).nst) (hssz : 1 ≤ (s.ringHere h).ssz)
    (hval : ringValue s f = (s.ringHere h).stageOff h i) (hstage : s.stage s.cteam h (s.ringHere h) i = .granted)
    (hfreed : (s.releaseStage h i).freeStages s.cteam h (s.ringHere h).nst ((s.ringHere h).release i) = (v, r')) :
    exec (.rfree f) s = .next ((v.setRing s.cteam h r').stampHeader s.cteam h (some 0)).advanceLane := by
  have hring : s.ring s.cteam h = s.ringHere h := rfl
  refine ringForm_reach (i := .rfree f) (fun s h act => s.rfree f h act) (fun _ h => nomatch h) hr hreach ?_
  have hoperand : ringOperand s f (activeMask s.cw s.cp f) = (s.ringHere h).stageOff h i := hval
  have hcontains : s.cteam.rings.contains h = true := List.contains_iff_mem.mpr hlive
  unfold State.rfree
  simp only [hring, hoperand, hcontains, (s.ringHere h).stageAt_stageOff h hi hssz, hstage, State.performed_quiet hr.1, Bool.not_true,
    Bool.false_eq_true, if_false, decide_true, Bool.true_or, if_true, hfreed]

theorem rfree_younger {f : LaneWord} {s : State} {h i : Nat} (hr : lanesReady (.rfree f) s) (hreach : RingReach s f h)
    (hlive : h ∈ s.cteam.rings) (hi : i < (s.ringHere h).nst) (hssz : 1 ≤ (s.ringHere h).ssz)
    (hval : ringValue s f = (s.ringHere h).stageOff h i) (hstage : s.stage s.cteam h (s.ringHere h) i = .granted)
    (hne : i ≠ (s.ringHere h).ridx) (hdone : bitB (s.ringHere h).done (s.ringHere h).ridx = false) :
    ∃ u, LaneEffect (.rfree f) s u ∧ RingOnly s u h ∧ u.cw.v = s.cw.v
      ∧ u.ringHere h = { s.ringHere h with
          held := putBit (s.ringHere h).held i false, done := putBit (s.ringHere h).done i true } := by
  have hp := laneReady_path hr.2
  have hfits : (s.ringHere h).Fits := ring_fits ..
  have hrelease : (s.ringHere h).release i
      = { s.ringHere h with held := putBit (s.ringHere h).held i false, done := putBit (s.ringHere h).done i true } :=
    if_pos (stage_granted hstage).2
  have hstop := freeStages_stop (s := s.releaseStage h i) (t := s.cteam) (h := h)
    (stage_not_released (r := (s.ringHere h).release i) (i := ((s.ringHere h).release i).ridx)
      (by rw [hrelease]; exact (bitB_putBit_ne _ _ hne.symm).trans hdone)) (s.ringHere h).nst
  have he := rfree_exec hr hreach hlive hi hssz hval hstage hstop
  rw [hrelease] at he
  generalize s.ringHere h = r at *
  set r' : Ring := { r with held := putBit r.held i false, done := putBit r.done i true } with hr'
  have h1 : RingKept s (s.releaseStage h i) := releaseStage_ringKept h i hp
  have hcanvas := (canvasStep_setRing (s.releaseStage h i) s.cteam h r').trans (canvasStep_stampHeader _ s.cteam h (some 0))
  set u := ((s.releaseStage h i).setRing s.cteam h r').stampHeader s.cteam h (some 0) with hu
  have hkept : RingKept s u := h1.trans (hcanvas.ringKept h1.path)
  have hcbyte : u.cbyte = withHeader s.cbyte (canvasKey s.cteam h) r' := by
    rw [hu, stampHeader_cbyte, setRing_cbyte, releaseStage_cbyte h i hp]
  refine ⟨u, hkept.effect hr he, hkept.only (fun a ha => ?_), ?_, ?_⟩
  · rw [hcbyte, withHeader_apart (by omega)]
  · rw [hcanvas.beside.cw, releaseStage_cw, (records_releaseP hp).passes.lanes]
  · rw [hkept.ringHere, hcbyte, ringOf_withHeader]
    exact ⟨hfits.cfg, hfits.ready, hfits.free, hfits.ridx, hfits.cidx, hfits.pidx⟩

theorem Ring.next_lt {r : Ring} {i : Nat} (h : 1 ≤ r.nst) : r.next i < r.nst := Nat.mod_lt _ h

theorem Ring.next_ne {r : Ring} {i : Nat} (hi : i < r.nst) (h : 2 ≤ r.nst) : r.next i ≠ i := by
  unfold Ring.next
  rcases Nat.lt_or_ge (i + 1) r.nst with hlt | hge
  · rw [Nat.mod_eq_of_lt hlt]
    omega
  · rw [show i + 1 = r.nst by omega, Nat.mod_self]
    omega

theorem rfree_oldest {f : LaneWord} {s : State} {h : Nat} (hr : lanesReady (.rfree f) s) (hreach : RingReach s f h)
    (hlive : h ∈ s.cteam.rings) (hi : (s.ringHere h).ridx < (s.ringHere h).nst) (hnst : (s.ringHere h).nst ≤ 64)
    (htwo : 2 ≤ (s.ringHere h).nst) (hssz : 1 ≤ (s.ringHere h).ssz)
    (hval : ringValue s f = (s.ringHere h).stageOff h (s.ringHere h).ridx)
    (hstage : s.stage s.cteam h (s.ringHere h) (s.ringHere h).ridx = .granted)
    (hdone : bitB (s.ringHere h).done ((s.ringHere h).next (s.ringHere h).ridx) = false) :
    ∃ u, LaneEffect (.rfree f) s u ∧ RingOnly s u h ∧ u.cw.v = s.cw.v ∧ u.seg u.cteam h (s.ringHere h).ridx = 0
      ∧ u.ringHere h = { s.ringHere h with
          held := putBit (s.ringHere h).held (s.ringHere h).ridx false, done := putBit (s.ringHere h).done (s.ringHere h).ridx false
          poison := putBit (s.ringHere h).poison (s.ringHere h).ridx false, free := (s.ringHere h).free + 1
          ridx := (s.ringHere h).next (s.ringHere h).ridx } := by
  have hp := laneReady_path hr.2
  have hfits : (s.ringHere h).Fits := ring_fits ..
  obtain ⟨hfree, hheld⟩ := stage_granted hstage
  have hexec := fun v r' => rfree_exec (v := v) (r' := r') hr hreach hlive hi hssz hval hstage
  have hrelease : (s.ringHere h).release (s.ringHere h).ridx = { s.ringHere h with
      held := putBit (s.ringHere h).held (s.ringHere h).ridx false, done := putBit (s.ringHere h).done (s.ringHere h).ridx true } :=
    if_pos hheld
  generalize s.ringHere h = r at *
  set i := r.ridx with hiridx
  set r1 : Ring := { r with held := putBit r.held i false, done := putBit r.done i true } with hr1
  set r' : Ring := { r with
    held := putBit r.held i false, done := putBit r.done i false, poison := putBit r.poison i false, free := r.free + 1
    ridx := r.next i } with hr'
  set s1 := s.releaseStage h i with hs1
  have hfirst : s1.stage s.cteam h r1 r1.ridx = .released :=
    stage_released (r := r1) hfree (bitB_putBit_self _ _ hfits.ridx) (bitB_putBit_self _ _ hfits.ridx)
  have hnext : bitB r'.done r'.ridx = false := (bitB_putBit_ne _ _ (Ring.next_ne hi htwo)).trans hdone
  have hfreed : s1.freeStages s.cteam h r.nst (r.release i) = (s1.setSeg s.cteam h i 0, r') := by
    obtain ⟨n, hn⟩ : ∃ n, r.nst = n + 1 := ⟨r.nst - 1, by omega⟩
    have hstep : s1.freeStages s.cteam h (n + 1) r1 = (s1.setSeg s.cteam h i 0).freeStages s.cteam h n
        { r1 with done := putBit (putBit r.done i true) i false, poison := putBit r.poison i false, free := r.free + 1, ridx := r.next i } :=
      if_pos hfirst
    rw [putBit_putBit] at hstep
    rw [hrelease, hn, hstep]
    exact freeStages_stop (stage_not_released hnext) n
  have he := hexec _ _ hfreed
  have h1 : RingKept s s1 := releaseStage_ringKept h i hp
  set s2 := s1.setSeg s.cteam h i 0 with hs2
  have hcanvas : CanvasStep s1 ((s2.setRing s.cteam h r').stampHeader s.cteam h (some 0)) :=
    (canvasStep_setSeg ..).trans ((canvasStep_setRing ..).trans (canvasStep_stampHeader ..))
  set u := (s2.setRing s.cteam h r').stampHeader s.cteam h (some 0) with hu
  have hkept : RingKept s u := h1.trans (hcanvas.ringKept h1.path)
  have hcbyte : u.cbyte = withHeader s2.cbyte (canvasKey s.cteam h) r' := by
    rw [hu, stampHeader_cbyte, setRing_cbyte]
  have hseg : ∀ a, s2.cbyte a = if a = canvasKey s.cteam h + 64 + i then BitVec.ofNat 8 0 else s.cbyte a := fun a => by
    rw [hs2, setSeg_cbyte, hs1, releaseStage_cbyte h i hp]
  have hsmall : i < 64 := hfits.ridx
  refine ⟨u, hkept.effect hr he, hkept.only (fun a ha => ?_), ?_, ?_, ?_⟩
  · rw [hcbyte, withHeader_apart (by omega), hseg, if_neg (by omega)]
  · rw [hcanvas.beside.cw, hs1, releaseStage_cw, (records_releaseP hp).passes.lanes]
  · rw [hkept.seg, hcbyte, withHeader_apart (by omega), hseg, if_pos rfl]
    rfl
  · rw [hkept.ringHere, hcbyte, ringOf_withHeader]
    have hlt : r.next i < r.nst := Ring.next_lt (by omega)
    exact ⟨hfits.cfg, hfits.ready, by show r.free + 1 < 128; omega, by show r.next i < 64; omega, hfits.cidx, hfits.pidx⟩

/-- Settles O39: each form writes its header once, and its other steps leave canvas bytes and registers. -/
theorem ringForms : Obligations.RingForms := by
  unfold Obligations.RingForms
  refine ⟨⟨fun f s h => rinit_fresh, fun f s h => rinit_gone, fun f s h => rinit_nothing⟩, fun f s h i hr hreach hlive => ?_,
    fun f s h i hr hreach hlive => ?_⟩
  · exact fun hmode hi hnst hssz hval hstage => rpost_effect hr hreach hlive hmode hi hnst hssz hval hstage
  · intro r hi hnst htwo _ hssz hval hstage
    refine ⟨fun hne hdone => rfree_younger hr hreach hlive hi hssz hval hstage hne hdone, ?_⟩
    rintro rfl hdone
    exact rfree_oldest hr hreach hlive hi hnst htwo hssz hval hstage hdone

end Sys2Proof.Machine

namespace Sys2Proof.Machine

/-! ### A ring form's destination (R71, R360) -/

theorem State.path?_modW_slot {s : State} (f : Warp → Warp) (hp : s.path?.isSome = true) : (s.modW f).path? = (f s.cw).slot s.cur.2 := by
  unfold State.path? State.pathAt
  simp only [State.modW, State.modWarp_cur, State.find_modWarp, State.find_cw hp, if_true, Option.map_some, Option.bind_some]

theorem State.slot_cur {s : State} (hp : s.path?.isSome = true) : s.cw.slot s.cur.2 = some s.cp := by
  have hslot : s.path? = s.cw.slot s.cur.2 := by rw [State.path?, State.pathAt, State.find_cw hp, Option.bind_some]
  obtain ⟨p, hp⟩ := Option.isSome_iff_exists.mp hp
  rw [← hslot, State.cp_of hp, hp]

/-- Agreement with the shadow touches what records the differences alone (R361). -/
theorem Warp.agreeOn_regs {w : Warp} {k : Nat} {p : Path} (ds : List (Dest × Nat)) (hp : w.slot k = some p) :
    (w.agreeOn k ds).v = w.v ∧ (w.agreeOn k ds).s = w.s ∧ (w.agreeOn k ds).a = w.a ∧ (w.agreeOn k ds).team = w.team
      ∧ ∃ tw, (w.agreeOn k ds).slot k = some { p with twin := tw } := by
  unfold Warp.agreeOn
  split
  · exact ⟨rfl, rfl, rfl, rfl, p.twin, hp⟩
  · have hsome : ∀ tw, (({ w with twin := tw } : Warp).slot k).isSome = true := fun tw => by
      show (w.slot k).isSome = true
      rw [hp]
      rfl
    rw [hp, Option.map_some]
    refine ⟨?_, ?_, ?_, ?_, _, Warp.slot_setSlot _ _ _ (hsome _)⟩ <;> rw [Warp.setSlot_some_eq]

/-- The lanes' results that a ring form writes: one value in every active lane. -/
def ringWrites (f : LaneWord) (act : Mask) (x : Nat) : List RegWrite :=
  laneWrites f.d 1 (fun _ => false) ((lanesOf act).map (fun l => (l, x)))

theorem ringDest_eq (s : State) (f : LaneWord) (act : Mask) (x : Nat) : ringDest s f act x
    = s.modW (fun w => (w.applyAll s.cur.2 (ringWrites f act x)).agreeOn s.cur.2 (placesOf [.v f.d.toNat] act)) := rfl

theorem applyAll_ringWrites (w : Warp) (k : Nat) (f : LaneWord) (act : Mask) (x : Nat) :
    SameButLanes w (w.applyAll k (ringWrites f act x)) ∧ ∀ r c, c < 128 → (w.applyAll k (ringWrites f act x)).vReg r c
      = if c ∈ lanesOf act ∧ f.d.toNat ≤ r ∧ r < f.d.toNat + 1 then BitVec.ofNat 32 (x >>> (32 * (r - f.d.toNat))) else w.vReg r c :=
  Warp.applyAll_laneWrites k f.d 1 (fun _ => false) (fun _ => x) (lanesOf act) w (fun l hl => ((mem_lanesOf act l).mp hl).1)

theorem ringDest_kept {s : State} (f : LaneWord) (act : Mask) (x : Nat) (hp : s.path?.isSome = true) :
    RingKept s (ringDest s f act x) ∧ ∀ r c, c < 128 → (ringDest s f act x).cw.vReg r c
      = if c ∈ lanesOf act ∧ f.d.toNat ≤ r ∧ r < f.d.toNat + 1 then BitVec.ofNat 32 (x >>> (32 * (r - f.d.toNat))) else s.cw.vReg r c := by
  rw [ringDest_eq]
  obtain ⟨hsame, hval⟩ := applyAll_ringWrites s.cw s.cur.2 f act x
  obtain ⟨hv, hs, ha, hteam, tw, hslot⟩ := Warp.agreeOn_regs (placesOf [.v f.d.toNat] act) ((hsame.slot _).trans (State.slot_cur hp))
  set g : Warp → Warp := fun w => (w.applyAll s.cur.2 (ringWrites f act x)).agreeOn s.cur.2 (placesOf [.v f.d.toNat] act)
  have hcw : (s.modW g).cw = g s.cw := State.cw_modW s g hp
  have hpath : (s.modW g).path? = some { s.cp with twin := tw } := (State.path?_modW_slot g hp).trans hslot
  have hcp : (s.modW g).cp = { s.cp with twin := tw } := State.cp_of hpath
  have hteams : (s.modW g).teams = s.teams := by simp
  unfold SameButLanes at hsame
  refine ⟨⟨by simp, by rw [hpath]; rfl, by rw [hcp], by rw [hcp], .of_regs ?_ ?_ (by rw [hcp]) (by rw [hcp]),
    fun w hw => State.find_modW_ne s g w hw, ?_, fun m c => by rw [hteams], by simp, by simp⟩, fun r c hc => ?_⟩
  · rw [hcw, hs, hsame]
  · rw [hcw, ha, hsame]
  · rw [hcw, hteam, hsame]
  · rw [hcw, Warp.vReg_congr hv]
    exact hval r c hc

/-! ### RWAIT (R71) -/

/-- The state in which the path has its place in the waiting order. -/
def State.joined (s : State) (free : Bool) (h : Nat) (me : RingWait) : State :=
  if (s.ringQueue s.cw.team h free).contains me then s
  else (s.unwait h).modTeam s.cw.team (fun t => { t with ringWaits := t.ringWaits ++ [me] })

/-- The state in which the first wait has had its effect: the header r is written, stage i is taken, and D holds x. -/
def State.served (s : State) (t : Team) (h i : Nat) (r : Ring) (f : LaneWord) (act : Mask) (x : Nat) : State :=
  ringDest (((((s.unwait h).beforeAtomic 0).setRing t h r).stampHeader t h ((s.unwait h).releaseScope 0 0)).takeStage h i) f act x

theorem joined_kept {s : State} (free : Bool) (h : Nat) (me : RingWait) (hp : s.path?.isSome = true) :
    RingKept s (s.joined free h me) ∧ (s.joined free h me).mem = s.mem ∧ (s.joined free h me).cw = s.cw
      ∧ (s.joined free h me).cur = s.cur := by
  unfold State.joined
  split
  · exact ⟨(Records.refl hp).ringKept, rfl, rfl, rfl⟩
  · have hun := unwait_ringKept h hp
    refine ⟨hun.trans (ringKept_modTeam _ _ hun.path (fun _ => ⟨rfl, rfl⟩)), ?_, ?_, ?_⟩
    · rw [State.modTeam_mem, State.unwait, State.modTeam_mem]
    · rw [modTeam_cw, State.unwait, modTeam_cw]
    · rw [State.modTeam_cur, State.unwait, State.modTeam_cur]

theorem served_kept {s : State} (t : Team) (h i : Nat) (r : Ring) (f : LaneWord) (act : Mask) (x : Nat) (hp : s.path?.isSome = true) :
    RingKept s (s.served t h i r f act x) ∧ (s.served t h i r f act x).cbyte = withHeader s.cbyte (canvasKey t h) r
      ∧ ∀ n c, c < 128 → (s.served t h i r f act x).cw.vReg n c
        = if c ∈ lanesOf act ∧ f.d.toNat ≤ n ∧ n < f.d.toNat + 1 then BitVec.ofNat 32 (x >>> (32 * (n - f.d.toNat))) else s.cw.vReg n c := by
  have h1 := unwait_ringKept h hp
  have h2 := records_beforeAtomic 0 h1.path
  set s2 := (s.unwait h).beforeAtomic 0 with hs2
  have h3 := (canvasStep_setRing s2 t h r).trans (canvasStep_stampHeader _ t h ((s.unwait h).releaseScope 0 0))
  set s3 := (s2.setRing t h r).stampHeader t h ((s.unwait h).releaseScope 0 0) with hs3
  have hp3 : s3.path?.isSome = true := (h3.ringKept h2.passes.path).path
  have h4 := records_takeStage h i hp3
  obtain ⟨h5, hval⟩ := ringDest_kept f act x h4.passes.path
  have hserved : s.served t h i r f act x = ringDest (s3.takeStage h i) f act x := rfl
  rw [hserved]
  refine ⟨(h1.trans h2.ringKept).trans ((h3.ringKept h2.passes.path).trans (h4.ringKept.trans h5)), ?_, fun n c hc => ?_⟩
  · have hdest : (ringDest (s3.takeStage h i) f act x).cbyte = (s3.takeStage h i).cbyte := cbyte_congr (by rw [ringDest_eq, State.modW_mem])
    have hunwait : (s.unwait h).cbyte = s.cbyte := modTeam_cbyte ..
    rw [hdest, h4.cbyte, hs3, stampHeader_cbyte, setRing_cbyte, hs2, h2.cbyte, hunwait]
  · have hcw : (s3.takeStage h i).cw.v = s.cw.v := by
      rw [h4.passes.lanes, h3.beside.cw, h2.passes.lanes, State.unwait, modTeam_cw]
    rw [hval n c hc, Warp.vReg_congr hcw]

theorem stage_congr {s u : State} (h : u.mem = s.mem) (t : Team) (c : Nat) (r : Ring) (i : Nat) : u.stage t c r i = s.stage t c r i := by
  unfold State.stage State.seg
  rw [h]

/-- RWAIT of a live ring that serves its kind, once the path has its place in the waiting order. -/
theorem rwait_live {s : State} {free : Bool} {f : LaneWord} {h : Nat} {act : Mask} (hlive : h ∈ s.cteam.rings)
    (hmode : free = true → (s.ringHere h).mode ≠ 1) :
    s.rwait free f h act =
      let r := s.ringHere h
      let v := s.joined free h (s.ringWait f h free)
      let first := decide (v.ringFirst s.cw.team h free = some (s.ringWait f h free))
      let st := v.stage s.cteam h r r.cidx
      if free = true then
        if (first && r.free ≠ 0) = true then ((v.served s.cteam h r.pidx r.claim f act (r.stageOff h r.pidx)).advanceLane, none)
        else (v.ringStall, none)
      else if (first && st = .poisoned) = true then (v.unwait h, some 7)
      else if (first && st = .filled) = true then ((v.served s.cteam h r.cidx r.grant f act (r.stageOff h r.cidx)).advanceLane, none)
      else (v.ringStall, none) := by
  have hring : s.ring s.cteam h = s.ringHere h := rfl
  have hcontains : s.cteam.rings.contains h = true := List.contains_iff_mem.mpr hlive
  have hpass : (free && decide ((s.ringHere h).mode = 1)) = false := by
    cases free
    · rfl
    · simpa using hmode rfl
  have hjoined : (if (s.ringQueue s.cw.team h free).contains (s.ringWait f h free) = true then s
      else (s.unwait h).modTeam s.cw.team (fun t => { t with ringWaits := t.ringWaits ++ [s.ringWait f h free] }))
    = s.joined free h (s.ringWait f h free) := rfl
  have hme : ({ header := h, wid := s.cur.1, slot := s.cur.2, free := free, lpc := s.cp.lpc, word := f } : RingWait)
    = s.ringWait f h free := rfl
  unfold State.rwait
  simp only [hme, hjoined, hring, hcontains, hpass, Bool.not_true, Bool.or_false, Bool.false_eq_true, if_false]
  rfl

/-- A wait that can be served is: RWAIT.FILL of a filled stage. -/
theorem rwait_filled {s : State} {f : LaneWord} {h : Nat} {act : Mask} (hp : s.path?.isSome = true) (hlive : h ∈ s.cteam.rings)
    (hfirst : (s.joined false h (s.ringWait f h false)).ringFirst s.cw.team h false = some (s.ringWait f h false))
    (hstage : s.stage s.cteam h (s.ringHere h) (s.ringHere h).cidx = .filled) :
    s.rwait false f h act = (((s.joined false h (s.ringWait f h false)).served s.cteam h (s.ringHere h).cidx (s.ringHere h).grant f act
      ((s.ringHere h).stageOff h (s.ringHere h).cidx)).advanceLane, none) := by
  rw [← stage_congr (joined_kept false h (s.ringWait f h false) hp).2.1] at hstage
  rw [rwait_live (free := false) hlive (fun h => absurd h Bool.false_ne_true)]
  simp [hfirst, hstage]

/-- And RWAIT.FREE of a ring with a free stage. -/
theorem rwait_room {s : State} {f : LaneWord} {h : Nat} {act : Mask} (hlive : h ∈ s.cteam.rings) (hmode : (s.ringHere h).mode ≠ 1)
    (hfirst : (s.joined true h (s.ringWait f h true)).ringFirst s.cw.team h true = some (s.ringWait f h true))
    (hroom : (s.ringHere h).free ≠ 0) :
    s.rwait true f h act = (((s.joined true h (s.ringWait f h true)).served s.cteam h (s.ringHere h).pidx (s.ringHere h).claim f act
      ((s.ringHere h).stageOff h (s.ringHere h).pidx)).advanceLane, none) := by
  rw [rwait_live hlive (fun _ => hmode)]
  simp [hfirst, hroom]

/-- Else the path waits in its place. -/
theorem rwait_unfilled {s : State} {f : LaneWord} {h : Nat} {act : Mask} (hp : s.path?.isSome = true) (hlive : h ∈ s.cteam.rings)
    (hfilled : s.stage s.cteam h (s.ringHere h) (s.ringHere h).cidx ≠ .filled)
    (hpoisoned : s.stage s.cteam h (s.ringHere h) (s.ringHere h).cidx ≠ .poisoned) :
    s.rwait false f h act = ((s.joined false h (s.ringWait f h false)).ringStall, none) := by
  rw [← stage_congr (joined_kept false h (s.ringWait f h false) hp).2.1] at hfilled hpoisoned
  rw [rwait_live (free := false) hlive (fun h => absurd h Bool.false_ne_true)]
  simp [hfilled, hpoisoned]

theorem rwait_full {s : State} {f : LaneWord} {h : Nat} {act : Mask} (hlive : h ∈ s.cteam.rings) (hmode : (s.ringHere h).mode ≠ 1)
    (hroom : (s.ringHere h).free = 0) : s.rwait true f h act = ((s.joined true h (s.ringWait f h true)).ringStall, none) := by
  rw [rwait_live hlive (fun _ => hmode)]
  simp [hroom]

/-- The only wait of its kind is the first of it, once it has its place. -/
theorem ringFirst_joined {s : State} {h : Nat} {free : Bool} {me : RingWait} (hteam : (s.teams.find s.cw.team).isSome = true)
    (hkind : me.header = h ∧ me.free = free) (hstands : s.waitStands me = true) (hruns : s.ringRuns me = true)
    (hall : ∀ w ∈ s.ringQueue s.cw.team h free, w = me) : (s.joined free h me).ringFirst s.cw.team h free = some me := by
  unfold State.joined
  split
  · next hin =>
    cases hqueue : s.ringQueue s.cw.team h free with
    | nil => rw [hqueue] at hin; cases hin
    | cons w ws =>
      obtain rfl := hall w (hqueue ▸ List.mem_cons_self ..)
      rw [State.ringFirst, hqueue, List.filter_cons_of_pos hruns, List.head?_cons]
  · next hout =>
    have hempty : s.ringQueue s.cw.team h free = [] := by
      rw [List.eq_nil_iff_forall_not_mem]
      intro w hw
      exact hout (List.contains_iff_mem.mpr (hall w hw ▸ hw))
    set v := (s.unwait h).modTeam s.cw.team (fun t => { t with ringWaits := t.ringWaits ++ [me] }) with hv
    have hwarps : v.warps = s.warps := by rw [hv, State.modTeam_warps, State.unwait, State.modTeam_warps]
    have hctxs : v.ctxs = s.ctxs := by rw [hv, State.modTeam_ctxs, State.unwait, State.modTeam_ctxs]
    have hstand : v.waitStands = s.waitStands := by
      funext w
      rw [State.waitStands, State.waitStands, State.pathAt, State.pathAt, hwarps]
    have hrun : v.ringRuns me = true := by
      rw [← hruns, State.ringRuns, State.ringRuns, State.pathAt, State.pathAt, hwarps, State.ctx, State.ctx, hctxs]
    have hunwait := fun f => getD_modTeam (s := s) f hteam s.cw.team
    have hfind : ((s.unwait h).teams.find s.cw.team).isSome = true := by
      obtain ⟨x, hx⟩ := Option.isSome_iff_exists.mp hteam
      rw [State.unwait, State.modTeam, hx]
      exact (congrArg Option.isSome (Tab.find_put ..)).trans (by rw [if_pos rfl]; rfl)
    have hwaits : (v.teams.getD s.cw.team {}).ringWaits = (s.teams.getD s.cw.team {}).ringWaits.filter
        (fun w => !(w.header = h && w.wid = s.cur.1 && w.slot = s.cur.2)) ++ [me] := by
      rw [hv, getD_modTeam _ hfind, if_pos rfl, State.unwait, hunwait, if_pos rfl]
    have hold : ((((s.teams.getD s.cw.team {}).ringWaits.filter (fun w => !(w.header = h && w.wid = s.cur.1 && w.slot = s.cur.2))).filter
        (fun w => w.header = h && w.free = free)).filter s.waitStands) = [] := by
      refine List.eq_nil_iff_forall_not_mem.mpr (fun w hw => ?_)
      have hin : w ∈ s.ringQueue s.cw.team h free := List.filter_subset _ (List.filter_subset _ (List.filter_subset_self _)) hw
      rw [hempty] at hin
      cases hin
    have hmine : ([me].filter (fun w => w.header = h && w.free = free)).filter s.waitStands = [me] := by
      simp [hkind, hstands]
    rw [State.ringFirst, State.ringQueue, hwaits, hstand, List.filter_append, List.filter_append, hold, hmine, List.nil_append,
      List.filter_cons_of_pos hrun, List.head?_cons]

theorem waitStands_self {s : State} {i : Instr} (hr : lanesReady i s) (f : LaneWord) (h : Nat) (free : Bool) :
    s.waitStands (s.ringWait f h free) = true := by
  obtain ⟨r, q, hqueue, -⟩ := laneReady_run hr.2
  obtain ⟨p, hp⟩ := Option.isSome_iff_exists.mp (laneReady_path hr.2)
  have hat : s.pathAt (s.ringWait f h free).wid (s.ringWait f h free).slot = some p := hp
  rw [State.cp_of hp] at hqueue
  rw [State.waitStands, hat, State.ringWait, State.cp_of hp]
  simp [hqueue]

/-- A path that waits changes nothing but its place in the order and its stall. -/
theorem ringStall_waits {s : State} {h : Nat} {free : Bool} {me : RingWait} (hp : s.path?.isSome = true)
    (hfirst : (s.joined free h me).ringFirst s.cw.team h free = some me) :
    SameScalars s (s.joined free h me).ringStall ∧ (s.joined free h me).ringStall.cw.v = s.cw.v
      ∧ (s.joined free h me).ringStall.mem = s.mem ∧ me ∈ (s.joined free h me).ringStall.cteam.ringWaits := by
  obtain ⟨hkept, hmem, hcw, -⟩ := joined_kept free h me hp
  generalize s.joined free h me = v at *
  have h1 := SameScalars.modP v (fun p => { p with both := true }) hkept.path rfl rfl
  have hp1 : (v.modP (fun p => { p with both := true })).path?.isSome = true := State.path?_modP_isSome _ hkept.path
  have h2 := SameScalars.modP (v.modP (fun p => { p with both := true })) (fun p => { p with lstall := 6 }) hp1 rfl rfl
  have hcw2 : v.ringStall.cw.v = v.cw.v ∧ v.ringStall.cw.team = v.cw.team := by
    rw [State.ringStall, State.waitLane, State.cw_modP _ _ hp1, State.cw_modP _ _ hkept.path]
    exact ⟨rfl, rfl⟩
  have hteams : v.ringStall.teams = v.teams := by rw [State.ringStall, State.waitLane_teams, State.modP_teams]
  refine ⟨hkept.scalars.trans (h1.trans h2), by rw [hcw2.1, hcw], by rw [State.ringStall, State.waitLane_mem, State.modP_mem, hmem], ?_⟩
  have hin : me ∈ v.ringQueue s.cw.team h free := List.mem_of_mem_filter (List.mem_of_mem_head? hfirst)
  rw [State.cteam, hteams, hcw2.2, hcw]
  exact List.mem_of_mem_filter (List.mem_of_mem_filter hin)

/-- The header that a grant writes. -/
theorem grant_eq (r : Ring) : r.grant
    = { r with ready := r.ready - 1, held := r.held ||| BitVec.ofNat 64 (2 ^ r.cidx), cidx := (r.cidx + 1) % r.nst } := by
  rw [Ring.grant, putBit_true, Ring.next]

theorem Ring.Fits.grant {r : Ring} (h : r.Fits) (h1 : 1 ≤ r.nst) (h64 : r.nst ≤ 64) : r.grant.Fits :=
  ⟨h.cfg, by have := h.ready; show r.ready - 1 < 128; omega, h.free, h.ridx,
    by have := Ring.next_lt (i := r.cidx) h1; show r.next r.cidx < 64; omega, h.pidx⟩

theorem Ring.Fits.claim {r : Ring} (h : r.Fits) (h1 : 1 ≤ r.nst) (h64 : r.nst ≤ 64) : r.claim.Fits :=
  ⟨h.cfg, h.ready, by have := h.free; show r.free - 1 < 128; omega, h.ridx, h.cidx,
    by have := Ring.next_lt (i := r.pidx) h1; show r.next r.pidx < 64; omega⟩

/-- A ring of no stage has none that is filled. -/
theorem stage_filled_nst {s : State} {t : Team} {h i : Nat} {r : Ring} (hs : s.stage t h r i = .filled) : 1 ≤ r.nst := by
  by_contra hz
  rw [State.stage, if_pos (by omega)] at hs
  cases hs

/-- What a ring form leaves that is served at once. -/
theorem served_effect {i : Instr} {f : LaneWord} {s : State} {h j x : Nat} {free : Bool} {r' : Ring} (hr : lanesReady i s)
    (he : exec i s = .next ((s.joined free h (s.ringWait f h free)).served s.cteam h j r' f (activeMask s.cw s.cp f) x).advanceLane)
    (hfits : r'.Fits) :
    ∃ u, LaneEffect i s u ∧ RingOnly s u h ∧ (∀ n l, l < 128 → u.cw.vReg n l = laneRegs s f 1 (fun _ => x) n l) ∧ u.ringHere h = r' := by
  obtain ⟨h1, hmem, hcw, -⟩ := joined_kept free h (s.ringWait f h free) (laneReady_path hr.2)
  obtain ⟨h2, hcbyte, hval⟩ := served_kept s.cteam h j r' f (activeMask s.cw s.cp f) x h1.path
  have hkept := h1.trans h2
  have hjoined : (s.joined free h (s.ringWait f h free)).cbyte = s.cbyte := cbyte_congr (by rw [hmem])
  rw [hjoined] at hcbyte
  refine ⟨_, hkept.effect hr he, hkept.only (fun a ha => ?_), fun n l hl => ?_, ?_⟩
  · rw [hcbyte, withHeader_apart (by omega)]
  · rw [hval n l hl, hcw, laneRegs, writesLane]
    simp only [mem_lanesOf, hl, true_and, Bool.and_eq_true, decide_eq_true_eq]
  · rw [hkept.ringHere, hcbyte, ringOf_withHeader _ _ hfits]

/-- Settles O40: the path's wait is the first of its kind once it has its place, so what decides is the ring's own stage. -/
theorem ringWaits : Obligations.RingWaits := by
  unfold Obligations.RingWaits
  refine ⟨fun f s h hr hreach hlive => ?_, fun f s h hr hreach hlive => ?_⟩
  · intro r h64 hruns hall
    have hp := laneReady_path hr.2
    have hfirst := ringFirst_joined hreach.team ⟨rfl, rfl⟩ (waitStands_self hr f h false) hruns hall
    refine ⟨fun hstage => ?_, fun hfilled hpoisoned => ?_⟩
    · have he := ringForm_reach (i := .rwaitFill f) (fun s h act => s.rwait false f h act) (fun _ h => nomatch h) hr hreach
        (rwait_filled hp hlive hfirst hstage)
      rw [← grant_eq]
      exact served_effect hr he ((ring_fits s s.cteam h).grant (stage_filled_nst hstage) h64)
    · have he := ringForm_reach (i := .rwaitFill f) (fun s h act => s.rwait false f h act) (fun _ h => nomatch h) hr hreach
        (rwait_unfilled hp hlive hfilled hpoisoned)
      exact ⟨_, he, ringStall_waits hp hfirst⟩
  · intro r h64 h1 hmode hruns hall
    have hp := laneReady_path hr.2
    have hfirst := ringFirst_joined hreach.team ⟨rfl, rfl⟩ (waitStands_self hr f h true) hruns hall
    refine ⟨fun hroom => ?_, fun hroom => ?_⟩
    · have he := ringForm_reach (i := .rwaitFree f) (fun s h act => s.rwait true f h act) (fun _ h => nomatch h) hr hreach
        (rwait_room hlive hmode hfirst hroom)
      exact served_effect hr he ((ring_fits s s.cteam h).claim h1 h64)
    · have he := ringForm_reach (i := .rwaitFree f) (fun s h act => s.rwait true f h act) (fun _ h => nomatch h) hr hreach
        (rwait_full hlive hmode hroom)
      exact ⟨_, he, ringStall_waits hp hfirst⟩

end Sys2Proof.Machine


namespace Sys2Proof.Machine

/-! ## Engine events: O52 -/

/-! ### Events of a queue's head -/

/-- What an engine event does of the entry at a queue's head. -/
def engineBody (core q : Nat) (act : State → EngEntry → State) (s : State) : State :=
  match s.engHead core q with
  | some e =>
    let st := (s.ctx e.ctx).st
    if ((s.core core).queues.getD q {}).park.isSome || st = .freezing || st = .frozen || st = .restoring then s else act s e
  | none => s

theorem engineBody_goes {s : State} {core q : Nat} {e : EngEntry} (act : State → EngEntry → State) (h : EngineGoes s core q e) :
    engineBody core q act s = act s e := by
  obtain ⟨hhead, hopen, -, hfreezing, hfrozen, hrestoring⟩ := h
  rw [engineBody, hhead]
  simp only [hopen, hfreezing, hfrozen, hrestoring, Option.isSome_none, decide_false, Bool.or_self, Bool.false_eq_true, if_false]

/-- An engine event whose entry goes acts on it. -/
theorem happens_engine {i : Instr} {core q : Nat} {e : EngEntry} {act : State → EngEntry → State} {ok : State → Prop}
    {post : State → State → Prop} (he : ∀ s, exec i s = eventForm i s (engineBody core q act))
    (h : ∀ s, ok s → EngineGoes s core q e ∧ (act s e).held = s.held ∧ post s (act s e)) : Happens i ok post := by
  refine happens_of_eventForm he (fun s hok => ?_)
  obtain ⟨hgoes, hheld, hpost⟩ := h s hok
  rw [engineBody_goes act hgoes]
  exact ⟨hheld, hpost⟩

theorem queues_modQ (s : State) (core q j : Nat) (f : EngQueue → EngQueue) : ((s.modQ core q f).core core).queues.getD j {}
    = if j = q then f ((s.core core).queues.getD q {}) else (s.core core).queues.getD j {} := by
  rw [State.modQ, core_modCore, if_pos rfl]
  exact Tab.getD_put ..

theorem engHead_setHead (s : State) (core q : Nat) (e : EngEntry) : (s.setHead core q e).engHead core q = some e := by
  rw [State.engHead, State.setHead, queues_modQ, if_pos rfl, List.head?_cons]

theorem wslots_modQ (s : State) (core q : Nat) (f : EngQueue → EngQueue) :
    ((s.modQ core q f).core core).wslots = (s.core core).wslots := by
  rw [State.modQ, core_modCore, if_pos rfl]

theorem wslots_modSlot (s : State) (core n : Nat) (f : WSlot → WSlot) :
    ((s.modSlot core n f).core core).wslots.getD n {} = f ((s.core core).wslots.getD n {}) := by
  rw [State.modSlot, core_modCore, if_pos rfl]
  exact (Tab.getD_put ..).trans (if_pos rfl)

theorem queues_modSlot (s : State) (core n : Nat) (f : WSlot → WSlot) :
    ((s.modSlot core n f).core core).queues = (s.core core).queues := by
  rw [State.modSlot, core_modCore, if_pos rfl]

/-! ### Starts (R263, R269) -/

/-- What an entry's start does where it has not started. -/
def startAct (core q : Nat) (s : State) (e : EngEntry) : State := if e.started then s else s.engStart core q e

theorem exec_engineEntryStart (core q : Nat) (s : State) :
    exec (.engineEntryStart core q) s = eventForm (.engineEntryStart core q) s (engineBody core q (startAct core q)) := rfl

theorem startLoad_happens (core q : Nat) (e : EngEntry) : Happens (.engineEntryStart core q)
    (fun s => EngineGoes s core q e ∧ e.started = false ∧ e.form = .txld ∧ Shape.isRaw e.rcd = false ∧ Shape.ring e.rcd = false)
    (fun s t => t.engHead core q = some { e with started := true } ∧ t.mem = s.mem ∧ t.teams = s.teams) := by
  refine happens_engine (e := e) (exec_engineEntryStart core q) ?_
  rintro s ⟨hgoes, hstarted, hform, hraw, hring⟩
  have hact : startAct core q s e = s.setHead core q { e with started := true } := by
    rw [startAct, hstarted, if_neg Bool.false_ne_true, State.engStart]
    simp only [hform, hraw, hring, Bool.false_eq_true, if_false, reduceCtorEq]
  rw [hact]
  exact ⟨hgoes, rfl, engHead_setHead .., rfl, rfl⟩

/-- The slot that a WBLOAD's start fills in (R269). -/
def startedSlot (e : EngEntry) : WSlot :=
  { scale := BitVec.ofNat 32 (bitsN e.head0 63 32), bitmap := BitVec.ofNat 32 (bitsN e.head1 31 0)
    live := BitVec.ofNat 8 (bitsN e.head1 39 32), fmt := BitVec.ofNat 4 (bitsN e.head0 3 0), state := 2, poison := e.headBad }

theorem engStart_weights {s : State} {core q : Nat} {e : EngEntry} (hform : e.form = .wbload)
    (huse : s.slotInUse core e.slot (if e.reached = 0 then s.names else e.reached) = false)
    (hsparse : Tensor.isSparse (bitsN e.head0 3 0) = false) :
    s.engStart core q e = (s.modCore core (fun k => { k with wslots := k.wslots.put e.slot (startedSlot e) })).setHead core q
      { e with started := true, reached := if e.reached = 0 then s.names else e.reached } := by
  have hreached : (if e.reached = 0 then { e with reached := s.names } else e)
      = { e with reached := if e.reached = 0 then s.names else e.reached } := by split <;> rfl
  unfold State.engStart
  split
  · next h => exact absurd (h.symm.trans hform) (by decide)
  · next h => exact absurd (h.symm.trans hform) (by decide)
  · dsimp only
    rw [hreached, if_neg (by rw [huse]; decide), hsparse, Bool.false_and, if_neg Bool.false_ne_true]
    rfl
  · next h => exact absurd hform h

theorem startWeights_happens (core q : Nat) (e : EngEntry) : Happens (.engineEntryStart core q)
    (fun s => EngineGoes s core q e ∧ e.started = false ∧ e.form = .wbload
      ∧ s.slotInUse core e.slot (if e.reached = 0 then s.names else e.reached) = false ∧ Tensor.isSparse (bitsN e.head0 3 0) = false)
    (fun s t => t.engHead core q = some { e with started := true, reached := if e.reached = 0 then s.names else e.reached }
      ∧ ((t.core core).wslots.getD e.slot {}).state = 2 ∧ ((t.core core).wslots.getD e.slot {}).fmt.toNat = bitsN e.head0 3 0) := by
  refine happens_engine (e := e) (exec_engineEntryStart core q) ?_
  rintro s ⟨hgoes, hstarted, hform, huse, hsparse⟩
  rw [startAct, hstarted, if_neg Bool.false_ne_true, engStart_weights hform huse hsparse]
  have hslot : ∀ e', (((s.modCore core (fun k => { k with wslots := k.wslots.put e.slot (startedSlot e) })).setHead core q e').core core).wslots.getD
      e.slot {} = startedSlot e := fun e' => by
    rw [State.setHead, wslots_modQ, core_modCore, if_pos rfl]
    exact (Tab.getD_put ..).trans (if_pos rfl)
  refine ⟨hgoes, rfl, engHead_setHead .., by rw [hslot]; rfl, ?_⟩
  rw [hslot]
  exact Nat.mod_eq_of_lt (Nat.mod_lt _ (by decide))

/-! ### Segments (R263) -/

/-- What a segment of an entry does where one is left. -/
def segmentAct (core q : Nat) (s : State) (e : EngEntry) : State :=
  if e.started && decide (e.segs < e.total) then s.engSegment core q e else s

theorem exec_engineSegmentComplete (core q : Nat) (s : State) : exec (.engineSegmentComplete core q) s
    = eventForm (.engineSegmentComplete core q) s (engineBody core q (segmentAct core q)) := rfl

theorem segmentAct_left {s : State} {core q : Nat} {e : EngEntry} (hstarted : e.started = true)
    (hsegs : e.segs < e.total) : segmentAct core q s e = s.engSegment core q e := by
  rw [segmentAct, hstarted, decide_eq_true hsegs, Bool.and_self, if_pos rfl]

/-- A segment of an entry that fills no ring stage is counted at the queue's head. -/
theorem engCount_plain {s : State} {core q : Nat} {e : EngEntry} (h : e.form ≠ .txld ∨ e.stage = none) :
    s.engCount core q e = s.setHead core q { e with segs := e.segs + 1 } := by
  unfold State.engCount
  dsimp only
  split
  · next hform hstage =>
    rcases h with h | h
    · exact absurd hform h
    · rw [hstage] at h
      cases h
  · rfl

/-- The slot once a segment of its planes is written. -/
def weightsWritten (s : State) (e : EngEntry) (w : WSlot) : WSlot :=
  let n := min 256 (e.planeBytes - 256 * e.segs)
  { w with
    planes := w.planes.writeN (256 * e.segs) (s.canvasBytes e.team (e.coff + 64 + 256 * e.segs) n)
    poison := w.poison || s.canvasBad e.team (e.coff + 64 + 256 * e.segs) n }

theorem engSegment_weights {s : State} {core q : Nat} {e : EngEntry} (hin : e.outside = []) (hform : e.form = .wbload) :
    s.engSegment core q e = (s.modSlot core e.slot (weightsWritten s e)).engCount core q e := by
  rw [State.engSegment, if_neg (by rw [hin]; decide)]
  simp only [hform]
  rfl

theorem segmentWeights_happens (core q : Nat) (e : EngEntry) : Happens (.engineSegmentComplete core q)
    (fun s => EngineGoes s core q e ∧ e.started = true ∧ e.segs < e.total ∧ e.form = .wbload)
    (fun s t => t.engHead core q = some { e with segs := e.segs + 1 } ∧ t.mem = s.mem
      ∧ ∀ i, i < 256 → 256 * e.segs + i < e.planeBytes → ((t.core core).wslots.getD e.slot {}).planes.get (256 * e.segs + i)
          = s.cbyte (canvasKey (s.teams.getD e.team {}) (e.coff + 64 + 256 * e.segs) + i)) := by
  refine happens_engine (e := e) (exec_engineSegmentComplete core q) ?_
  rintro s ⟨hgoes, hstarted, hsegs, hform⟩
  rw [segmentAct_left hstarted hsegs, engSegment_weights hgoes.inside hform, engCount_plain (.inl (by rw [hform]; decide))]
  refine ⟨hgoes, rfl, engHead_setHead .., rfl, fun i hi hplane => ?_⟩
  have hlen : ∀ k, (s.canvasBytes e.team (e.coff + 64 + 256 * e.segs) k).length = k := fun k => by
    rw [State.canvasBytes, Cells.readN, List.length_map, List.length_range]
  have hi' : i < min 256 (e.planeBytes - 256 * e.segs) := by omega
  rw [State.setHead, wslots_modQ, wslots_modSlot, weightsWritten]
  refine (Cells.get_writeN ..).trans ?_
  rw [hlen, if_pos ⟨by omega, by omega⟩, Nat.add_sub_cancel_left, List.getD_eq_getElem _ _ (by rw [hlen]; exact hi')]
  simp only [State.canvasBytes, Cells.readN, List.getElem_map, List.getElem_range]
  rfl

/-- Bytes written one by one: those elsewhere stand, and each of different places is read back. -/
theorem get_foldl_set : ∀ (xs : List (Nat × Byte × Bool)) (m : Cells 8),
    (∀ a, a ∉ xs.map (·.1) → (xs.foldl (fun m x => m.set x.1 x.2.1) m).get a = m.get a)
      ∧ ((xs.map (·.1)).Nodup → ∀ x ∈ xs, (xs.foldl (fun m x => m.set x.1 x.2.1) m).get x.1 = x.2.1)
  | [], m => ⟨fun _ _ => rfl, fun _ x hx => nomatch hx⟩
  | y :: xs, m => by
    obtain ⟨hout, hin⟩ := get_foldl_set xs (m.set y.1 y.2.1)
    refine ⟨fun a ha => ?_, fun hnodup x hx => ?_⟩
    · rw [List.map_cons, List.mem_cons, not_or] at ha
      rw [List.foldl_cons, hout a ha.2, Cells.get_set, if_neg ha.1]
    · rw [List.map_cons, List.nodup_cons] at hnodup
      rcases List.mem_cons.mp hx with rfl | hx
      · rw [List.foldl_cons, hout x.1 hnodup.1, Cells.get_set, if_pos rfl]
      · exact hin hnodup.2 x hx

theorem stampsOnly_stampEngine (s : State) (e : EngEntry) (canvas : Bool) (k bm : Nat) : StampsOnly s (s.stampEngine e canvas k bm) :=
  (stampsOnly_setStamp ..).trans (stampsOnly_addCovlost ..)

/-- A segment's write counts once for memory, and not for a canvas (R99). -/
theorem Mem.bump_sides (m : Mem) (pa : Nat) : (m.bump pa).canvas = m.canvas ∧ (m.bump pa).bytes = m.bytes := by
  unfold Mem.bump
  split <;> exact ⟨rfl, rfl⟩

/-- What a segment's write changes: the bytes of its side, and what stands beside the bytes. -/
theorem engWrite_spec (s : State) (e : EngEntry) (canvas : Bool) (xs : List (Nat × Byte × Bool)) :
    (s.engWrite e canvas xs).held = s.held
      ∧ (s.engWrite e canvas xs).mem.canvas = (if canvas then xs.foldl (fun m x => m.set x.1 x.2.1) s.mem.canvas else s.mem.canvas)
      ∧ (s.engWrite e canvas xs).mem.bytes = (if canvas then s.mem.bytes else xs.foldl (fun m x => m.set x.1 x.2.1) s.mem.bytes) := by
  unfold State.engWrite
  extract_lets m1 as m2 m3
  have h1 : m1.held = s.held ∧ m1.mem.canvas = (if canvas then xs.foldl (fun m x => m.set x.1 x.2.1) s.mem.canvas else s.mem.canvas)
      ∧ m1.mem.bytes = (if canvas then s.mem.bytes else xs.foldl (fun m x => m.set x.1 x.2.1) s.mem.bytes) := by
    cases canvas
    · cases xs with
      | nil => exact ⟨rfl, rfl, rfl⟩
      | cons x xs => exact ⟨rfl, (Mem.bump_sides ..).1, (Mem.bump_sides ..).2⟩
    · exact ⟨rfl, rfl, rfl⟩
  have h2 : m2.held = m1.held ∧ m2.mem = m1.mem := by
    cases xs with
    | nil => exact ⟨rfl, rfl⟩
    | cons x xs =>
      dsimp only [m2]
      split <;> exact ⟨rfl, rfl⟩
  have h3 : StampsOnly m2 m3 := by
    refine StampsOnly.foldl (fun s k => ?_) _ m2
    split
    · exact stampsOnly_stampEngine ..
    · exact .refl s
  have hm3 : m3.held = s.held
      ∧ m3.mem.canvas = (if canvas then xs.foldl (fun m x => m.set x.1 x.2.1) s.mem.canvas else s.mem.canvas)
      ∧ m3.mem.bytes = (if canvas then s.mem.bytes else xs.foldl (fun m x => m.set x.1 x.2.1) s.mem.bytes) := by
    refine ⟨?_, ?_, ?_⟩
    · rw [h3.rest, h2.1, h1.1]
    · rw [h3.mem, h2.2, h1.2.1]
    · rw [h3.mem, h2.2, h1.2.2]
  split <;> exact hm3

/-! ### Translations of an entry (R21, R264) -/

theorem engAt_heldOnly {s s1 : State} {e : EngEntry} {va pa : Nat} {writing : Bool} (h : s.engAt e va writing = (s1, .ok pa)) :
    HeldOnly s s1 := by
  unfold State.engAt State.engHit at h
  have htr := translate_heldOnly s (s.engAgent e) va (e.want writing)
  split at h
  · next hhit =>
    obtain ⟨rfl, -⟩ := Prod.mk.inj h
    split at hhit
    · cases hhit
    · split at hhit
      · next hok =>
        obtain ⟨rfl, -⟩ := Prod.mk.inj hhit
        rwa [hok] at htr
      · cases hhit
      · cases hhit
      · cases hhit
  · cases h

theorem engData_ok {s : State} {q : Nat} {e : EngEntry} {va pa n : Nat} {x : State × EngEntry} {v : Nat × Bool}
    (h : s.engData q e va pa n = (x, .ok v)) : x = (s, e) := by
  unfold State.engData at h
  split at h
  · exact (Prod.mk.inj h).1.symm
  · dsimp only at h
    split at h
    · exact (Prod.mk.inj h).1.symm
    · split at h
      · cases h
      · split at h <;> cases h

theorem engRead_ok {q : Nat} : ∀ (ps : List (Option (Nat × Nat))) {s : State} {e : EngEntry} {x : State × EngEntry} {vs : List (Nat × Bool)},
    s.engRead q e ps = (x, .ok vs) → HeldOnly s x.1 ∧ x.2 = e ∧ vs.length = ps.length
  | [], s, e, x, vs, h => by
    obtain ⟨rfl, hvs⟩ := Prod.mk.inj h
    obtain rfl := Except.ok.inj hvs
    exact ⟨.refl s, rfl, rfl⟩
  | none :: r, s, e, x, vs, h => by
    rw [State.engRead] at h
    split at h
    · next hrest =>
      obtain ⟨rfl, hvs⟩ := Prod.mk.inj h
      obtain rfl := Except.ok.inj hvs
      obtain ⟨hheld, he, hlen⟩ := engRead_ok r hrest
      exact ⟨hheld, he, by rw [List.length_cons, List.length_cons, hlen]⟩
    · cases h
  | some (va, n) :: r, s, e, x, vs, h => by
    rw [State.engRead] at h
    split at h
    · cases h
    · next hat =>
      split at h
      · cases h
      · next hdata =>
        obtain ⟨rfl, rfl⟩ := Prod.mk.inj (engData_ok hdata)
        split at h
        · next hrest =>
          obtain ⟨rfl, hvs⟩ := Prod.mk.inj h
          obtain rfl := Except.ok.inj hvs
          obtain ⟨hheld, he, hlen⟩ := engRead_ok r hrest
          exact ⟨(engAt_heldOnly hat).trans hheld, he, by rw [List.length_cons, List.length_cons, hlen]⟩
        · cases h

theorem loadBlock_ok {s : State} {q : Nat} {e : EngEntry} {t b : Nat} {x : State × EngEntry} {v : List Byte × List Byte × Bool}
    (h : s.loadBlock q e t b = (x, .ok v)) : HeldOnly s x.1 ∧ x.2 = e := by
  unfold State.loadBlock at h
  dsimp only at h
  split at h
  · split at h
    · next hread =>
      obtain ⟨rfl, -⟩ := Prod.mk.inj h
      exact ⟨(engRead_ok _ hread).1, (engRead_ok _ hread).2.1⟩
    · cases h
  · split at h
    · cases h
    · next hread =>
      obtain ⟨hheld, he, -⟩ := engRead_ok _ hread
      split at h
      · obtain ⟨rfl, -⟩ := Prod.mk.inj h
        exact ⟨hheld, he⟩
      · obtain ⟨rfl, -⟩ := Prod.mk.inj h
        exact ⟨hheld, he⟩

theorem loadBlocks_ok {q : Nat} : ∀ (ks : List (Nat × Nat)) {s : State} {e : EngEntry} {x : State × EngEntry}
    {bs : List ((Nat × Nat) × List Byte × List Byte × Bool)}, s.loadBlocks q e ks = (x, .ok bs) →
    (HeldOnly s x.1 ∧ x.2 = e) ∧ ∀ z ∈ bs, ∃ u y, HeldOnly s u ∧ State.loadBlock u q e z.1.1 z.1.2 = (y, .ok z.2)
  | [], s, e, x, bs, h => by
    obtain ⟨rfl, hbs⟩ := Prod.mk.inj h
    obtain rfl := Except.ok.inj hbs
    exact ⟨⟨.refl s, rfl⟩, fun z hz => nomatch hz⟩
  | (t, b) :: r, s, e, x, bs, h => by
    rw [State.loadBlocks] at h
    split at h
    · cases h
    · next y v hblock =>
      obtain ⟨hheld, he⟩ := loadBlock_ok hblock
      split at h
      · next hrest =>
        obtain ⟨rfl, hbs⟩ := Prod.mk.inj h
        obtain rfl := Except.ok.inj hbs
        obtain ⟨⟨hheld', he'⟩, hall⟩ := loadBlocks_ok r hrest
        refine ⟨⟨hheld.trans hheld', he'.trans he⟩, fun z hz => ?_⟩
        rcases List.mem_cons.mp hz with rfl | hz
        · exact ⟨s, y, .refl s, hblock⟩
        · obtain ⟨u, y', hu, hz⟩ := hall z hz
          rw [he] at hz
          exact ⟨u, y', hheld.trans hu, hz⟩
      · cases h

theorem loadSegment_ok {s : State} {q : Nat} {e : EngEntry} {k : Nat} {x : State × EngEntry} {xs : List (Nat × Byte × Bool)}
    (h : s.loadSegment q e k = (x, .ok xs)) : HeldOnly s x.1 ∧ x.2 = e := by
  unfold State.loadSegment at h
  dsimp only at h
  split at h
  · split at h
    · next hread =>
      obtain ⟨rfl, -⟩ := Prod.mk.inj h
      exact ⟨(engRead_ok _ hread).1, (engRead_ok _ hread).2.1⟩
    · cases h
  · split at h
    · next hblocks =>
      obtain ⟨rfl, -⟩ := Prod.mk.inj h
      exact (loadBlocks_ok _ hblocks).1
    · cases h

theorem segmentLoad_happens (core q : Nat) (e : EngEntry) (s1 : State) (e1 : EngEntry) (xs : List (Nat × Byte × Bool)) :
    Happens (.engineSegmentComplete core q)
      (fun s => EngineGoes s core q e ∧ e.started = true ∧ e.segs < e.total ∧ e.form = .txld ∧ e.stage = none
        ∧ s.loadSegment q e e.segs = ((s1, e1), .ok xs) ∧ (xs.map (·.1)).Nodup)
      (fun _ t => t.engHead core q = some { e1 with segs := e1.segs + 1 } ∧ t.mem.bytes = s1.mem.bytes
        ∧ (∀ x ∈ xs, t.cbyte x.1 = x.2.1) ∧ ∀ a, a ∉ xs.map (·.1) → t.cbyte a = s1.cbyte a) := by
  refine happens_engine (e := e) (exec_engineSegmentComplete core q) ?_
  rintro s ⟨hgoes, hstarted, hsegs, hform, hstage, hload, hnodup⟩
  obtain ⟨hheld, he⟩ := loadSegment_ok hload
  dsimp only at hheld he
  subst he
  have hact : segmentAct core q s e1 = (s1.engWrite e1 true xs).setHead core q { e1 with segs := e1.segs + 1 } := by
    rw [segmentAct_left hstarted hsegs, ← engCount_plain (.inr hstage), State.engSegment, if_neg (by rw [hgoes.inside]; decide)]
    simp only [hform, hload]
  obtain ⟨hwheld, hcanvas, hbytes⟩ := engWrite_spec s1 e1 true xs
  rw [if_pos rfl] at hcanvas hbytes
  obtain ⟨hout, hin⟩ := get_foldl_set xs s1.mem.canvas
  have hcbyte : ((s1.engWrite e1 true xs).setHead core q { e1 with segs := e1.segs + 1 }).cbyte
      = Cells.get (xs.foldl (fun m x => m.set x.1 x.2.1) s1.mem.canvas) := congrArg Cells.get hcanvas
  rw [hact]
  refine ⟨hgoes, hwheld.trans (by rw [hheld.rest]), engHead_setHead .., hbytes, fun x hx => ?_, fun a ha => ?_⟩
  · rw [hcbyte]
    exact hin hnodup x hx
  · rw [hcbyte]
    exact hout a ha

theorem segmentStore_happens (core q : Nat) (e : EngEntry) (s1 : State) (pa : Nat) : Happens (.engineSegmentComplete core q)
    (fun s => EngineGoes s core q e ∧ e.started = true ∧ e.segs < e.total ∧ e.form = .txst
      ∧ s.engAt e ((storeUnits e).getD e.segs 0 * 256) true = (s1, .ok pa) ∧ isDrawer pa = false)
    (fun _ t => t.engHead core q = some { e with segs := e.segs + 1 } ∧ t.mem.canvas = s1.mem.canvas
      ∧ ∀ a, ¬(pa ≤ a ∧ a < pa + 256) → t.byte a = s1.byte a) := by
  refine happens_engine (e := e) (exec_engineSegmentComplete core q) ?_
  rintro s ⟨hgoes, hstarted, hsegs, hform, hat, hdrawer⟩
  set xs := (s1.storeSegment e ((storeUnits e).getD e.segs 0)).map (fun x => (pa + x.1 % 256, x.2)) with hxs
  have hact : segmentAct core q s e = (s1.engWrite e false xs).setHead core q { e with segs := e.segs + 1 } := by
    rw [segmentAct_left hstarted hsegs, ← engCount_plain (.inl (by rw [hform]; decide)), State.engSegment,
      if_neg (by rw [hgoes.inside]; decide)]
    simp only [hform, hat, hdrawer, Bool.false_eq_true, if_false]
    rfl
  clear_value xs
  obtain ⟨hwheld, hcanvas, hbytes⟩ := engWrite_spec s1 e false xs
  rw [if_neg Bool.false_ne_true] at hcanvas hbytes
  have hbyte : ((s1.engWrite e false xs).setHead core q { e with segs := e.segs + 1 }).byte
      = Cells.get (xs.foldl (fun m x => m.set x.1 x.2.1) s1.mem.bytes) := congrArg Cells.get hbytes
  rw [hact]
  refine ⟨hgoes, hwheld.trans (by rw [(engAt_heldOnly hat).rest]), engHead_setHead .., hcanvas, fun a ha => ?_⟩
  rw [hbyte]
  refine (get_foldl_set xs s1.mem.bytes).1 a (fun hmem => ha ?_)
  simp only [hxs, List.map_map, List.mem_map, Function.comp] at hmem
  obtain ⟨x, -, rfl⟩ := hmem
  omega

/-! ### Retirements, resumptions and fences (R168, R263, R264) -/

theorem retire_happens (core q : Nat) (e : EngEntry) : Happens (.engineEntryRetire core q)
    (fun s => EngineGoes s core q e ∧ e.started = true ∧ e.total ≤ e.segs)
    (fun s t => ((t.core core).queues.getD q {}).entries = ((s.core core).queues.getD q {}).entries.drop 1 ∧ t.mem = s.mem
      ∧ (e.form = .wbload → ((t.core core).wslots.getD e.slot {}).state = 1)) := by
  refine happens_engine (e := e) (act := fun s e => if e.started && decide (e.total ≤ e.segs) then s.engRetire core q e else s)
    (fun _ => rfl) ?_
  rintro s ⟨hgoes, hstarted, htotal⟩
  rw [hstarted, decide_eq_true htotal, Bool.and_self, if_pos rfl, State.engRetire]
  by_cases hform : e.form = .wbload
  · rw [if_pos hform]
    refine ⟨hgoes, rfl, ?_, rfl, fun _ => ?_⟩
    · rw [queues_modSlot, queues_modQ, if_pos rfl]
    · rw [wslots_modSlot]
  · rw [if_neg hform]
    exact ⟨hgoes, rfl, by rw [queues_modQ, if_pos rfl], rfl, fun h => absurd h hform⟩

theorem resume_happens (core q : Nat) (p : Park) : Happens (.engineQueueResume core q)
    (fun s => ((s.core core).queues.getD q {}).park = some p ∧ s.parkOver p = true)
    (fun s t => (t.core core).queues.getD q {} = { (s.core core).queues.getD q {} with park := none } ∧ t.mem = s.mem) := by
  refine happens_of_eventForm (fun _ => rfl) ?_
  rintro s ⟨hpark, hover⟩
  simp only [hpark, hover, if_true]
  exact ⟨rfl, by rw [queues_modQ, if_pos rfl], rfl⟩

/-- Fences leave the queues they are in. -/
theorem queues_dropFences (core : Nat) : ∀ (qs : List Nat) (s : State), qs.Nodup →
    let t := qs.foldl (fun s i => s.modQ core i (fun x => { x with entries := x.entries.drop 1 })) s
    t.held = s.held ∧ ∀ i, ((t.core core).queues.getD i {}).entries
      = if i ∈ qs then ((s.core core).queues.getD i {}).entries.drop 1 else ((s.core core).queues.getD i {}).entries
  | [], s, _ => ⟨rfl, fun _ => rfl⟩
  | j :: qs, s, hnodup => by
    obtain ⟨hj, hqs⟩ := List.nodup_cons.mp hnodup
    obtain ⟨hheld, hqueues⟩ := queues_dropFences core qs (s.modQ core j (fun x => { x with entries := x.entries.drop 1 })) hqs
    refine ⟨hheld, fun i => (hqueues i).trans ?_⟩
    rw [queues_modQ]
    by_cases hi : i = j
    · subst hi
      rw [if_neg hj, if_pos rfl, if_pos (List.mem_cons_self ..)]
    · simp [hi]

theorem fence_happens (core q : Nat) (e : EngEntry) : Happens (.qfenceRetire core q)
    (fun s => EngineGoes s core q e ∧ e.form = .fence ∧ s.fenceReady core e = true)
    (fun s t => ∀ i, i < 4 → ((t.core core).queues.getD i {}).entries
      = if e.fenceMask.testBit i then ((s.core core).queues.getD i {}).entries.drop 1 else ((s.core core).queues.getD i {}).entries) := by
  refine happens_engine (e := e) (act := fun s e => if e.form = .fence && s.fenceReady core e then
      ((List.range 4).filter (fun i => e.fenceMask.testBit i)).foldl (fun s i =>
        s.modQ core i (fun x => { x with entries := x.entries.drop 1 })) s
    else s) (fun _ => rfl) ?_
  rintro s ⟨hgoes, hform, hready⟩
  rw [hform, hready, decide_eq_true rfl, Bool.and_self, if_pos rfl]
  obtain ⟨hheld, hqueues⟩ := queues_dropFences core _ s (List.nodup_range.filter (fun i => e.fenceMask.testBit i))
  refine ⟨hgoes, hheld, fun i hi => (hqueues i).trans ?_⟩
  simp only [List.mem_filter, List.mem_range, hi, true_and]

end Sys2Proof.Machine


namespace Sys2Proof.Machine

/-! ### Grants of a ring (R71) -/

/-- A word that is done moves its team's progress and its path. -/
theorem advanceLane_canvas {u : State} (hp : u.path?.isSome = true) (hw : u.cp.windows = []) (hq : u.cp.queue ≠ []) :
    u.advanceLane.cbyte = u.cbyte ∧ ∀ m c, canvasKey (u.advanceLane.teams.getD m {}) c = canvasKey (u.teams.getD m {}) c := by
  obtain ⟨r, q, hqueue⟩ := List.exists_cons_of_ne_nil hq
  have hadvance := State.advanceLane_quiet hp hw hqueue
  have hp1 : (u.modP Path.movedLane).path?.isSome = true := State.path?_modP_isSome _ hp
  have hp2 : ((u.modP Path.movedLane).modP popRun).path?.isSome = true := State.path?_modP_isSome _ hp1
  have hmem : u.advanceLane.mem = u.mem := by rw [hadvance, State.progress_mem, State.modP_mem, State.modP_mem]
  have hcanvas : u.advanceLane.mem.canvas = u.mem.canvas := by rw [hmem]
  refine ⟨cbyte_congr hcanvas, fun m c => ?_⟩
  have hteams : ((u.modP Path.movedLane).modP popRun).teams = u.teams := by rw [State.modP_teams, State.modP_teams]
  rw [hadvance, ← hteams]
  generalize (u.modP Path.movedLane).modP popRun = v at hp2
  have hprogress : RingKept v (v.modTeam v.cw.team (fun t => { t with progress := t.progress + 1 })) :=
    ringKept_modTeam _ _ hp2 (fun _ => ⟨rfl, rfl⟩)
  rw [State.progress]
  split
  · rfl
  · exact hprogress.places m c

/-- The state in which the path of a wait is the issuing one. -/
def State.grantee (s : State) (w : RingWait) : State := { s with cur := (w.wid, w.slot) }

/-- The first wait of a ring, as the path it is of issues it. -/
theorem RingFirst.grantee {s : State} {m h : Nat} {w : RingWait} {free : Bool} (hf : RingFirst s m h w) (hfree : w.free = free) :
    (s.grantee w).path?.isSome = true ∧ (s.grantee w).cp.windows = [] ∧ (s.grantee w).cp.queue ≠ []
      ∧ (s.grantee w).cw.team = m ∧ (s.grantee w).ringWait w.word h free = w
      ∧ (s.grantee w).joined free h w = s.grantee w := by
  subst hfree
  obtain ⟨hhead, ⟨hwarp, hteam⟩, -, -, hcalm⟩ := hf
  have hin : w ∈ s.ringQueue m h w.free := List.mem_of_mem_filter (List.mem_of_mem_head? hhead)
  obtain ⟨hmem, hstands⟩ := List.mem_filter.mp hin
  have hheader : w.header = h := by
    have hkind := (List.mem_filter.mp hmem).2
    simp only [Bool.and_eq_true, decide_eq_true_eq] at hkind
    exact hkind.1
  unfold State.waitStands at hstands
  split at hstands
  · next p hp =>
    have hpath : (s.grantee w).path? = some p := hp
    have hcp : (s.grantee w).cp = p := State.cp_of hpath
    simp only [Bool.and_eq_true, beq_iff_eq, Bool.not_eq_true', List.isEmpty_eq_false_iff] at hstands
    obtain ⟨hlpc, hqueue⟩ := hstands
    have hcteam : (s.grantee w).cw.team = m := hteam
    have hwait : (s.grantee w).ringWait w.word h w.free = w := by
      rw [State.ringWait, hcp, hlpc]
      subst hheader
      rfl
    refine ⟨by rw [hpath]; rfl, by rw [hcp]; exact hcalm p hp, by rw [hcp]; exact hqueue, hcteam, hwait, ?_⟩
    rw [State.joined, hcteam, if_pos]
    exact List.contains_iff_mem.mpr hin
  · cases hstands

/-- The header that serving a wait leaves. -/
theorem served_grant {s : State} {m h j x : Nat} {w : RingWait} {r' : Ring} (hf : RingFirst s m h w) (act : Mask) (hfits : r'.Fits) :
    (((s.grantee w).served (s.teams.getD m {}) h j r' w.word act x).advanceLane).ring
      ((((s.grantee w).served (s.teams.getD m {}) h j r' w.word act x).advanceLane).teams.getD m {}) h = r' := by
  obtain ⟨hp, hw, hq, -⟩ := hf.grantee rfl
  obtain ⟨hkept, hcbyte, -⟩ := served_kept (s.teams.getD m {}) h j r' w.word act x hp
  obtain ⟨hbytes, hplaces⟩ := advanceLane_canvas hkept.path (hkept.windows.trans hw) (fun hnil => hq (hkept.runs.mp hnil))
  have hkey : canvasKey ((s.grantee w).teams.getD m {}) h = canvasKey (s.teams.getD m {}) h := rfl
  rw [ring_eq, hbytes, hplaces, hkept.places, hcbyte, hkey, ringOf_withHeader _ _ hfits]

theorem exec_ringGrant {s : State} {m h : Nat} {w : RingWait} {free : Bool} {t : State} (hfatal : s.hub.fatal = false)
    (hfree : w.free = free)
    (hnext : ((s.ringFirst m h false).filter (fun _ => s.stage (s.teams.getD m {}) h (s.ring (s.teams.getD m {}) h)
          (s.ring (s.teams.getD m {}) h).cidx == .filled
        || s.stage (s.teams.getD m {}) h (s.ring (s.teams.getD m {}) h) (s.ring (s.teams.getD m {}) h).cidx == .poisoned)).or
      ((s.ringFirst m h true).filter (fun _ => (s.ring (s.teams.getD m {}) h).free != 0)) = some w)
    (hserved : (s.grantee w).rwait free w.word h (activeMask (s.grantee w).cw (s.grantee w).cp w.word) = (t, none)) :
    exec (.ringGrant m h) s = .next t := by
  show execRingGrant m h s = _
  unfold execRingGrant
  rw [if_neg (by rw [hfatal]; decide)]
  dsimp only
  rw [hnext]
  dsimp only
  rw [show ({ s with cur := (w.wid, w.slot) } : State) = s.grantee w from rfl, hfree, hserved]

theorem grantFilled_happens (m h : Nat) (w : RingWait) : Happens (.ringGrant m h)
    (fun s => RingFirst s m h w ∧ w.free = false ∧
      s.stage (s.teams.getD m {}) h (s.ring (s.teams.getD m {}) h) (s.ring (s.teams.getD m {}) h).cidx = .filled)
    (fun s t => let r := s.ring (s.teams.getD m {}) h
      t.ring (t.teams.getD m {}) h = { r with
        ready := r.ready - 1, held := r.held ||| BitVec.ofNat 64 (2 ^ r.cidx), cidx := (r.cidx + 1) % r.nst }) := by
  rintro s hfatal ⟨hf, hfree, hstage⟩
  obtain ⟨hp, -, -, hteam, hwait, hjoined⟩ := hf.grantee hfree
  have hhead := hf.head
  rw [hfree] at hhead
  have hcteam : (s.grantee w).cteam = s.teams.getD m {} := by rw [State.cteam, hteam]; rfl
  have hring : (s.grantee w).ringHere h = s.ring (s.teams.getD m {}) h := by rw [State.ringHere, hcteam]; rfl
  have hserved := rwait_filled (f := w.word) (h := h) (act := activeMask (s.grantee w).cw (s.grantee w).cp w.word) hp
    (by rw [hcteam]; exact hf.live.2) (by rw [hwait, hjoined, hteam]; exact hhead) (by rw [hcteam, hring]; exact hstage)
  rw [hwait, hjoined, hcteam, hring] at hserved
  refine ⟨_, exec_ringGrant hfatal hfree (by rw [hhead, hstage]; rfl) hserved, ?_⟩
  dsimp only
  rw [served_grant hf _ ((ring_fits ..).grant hf.stages.1 hf.stages.2), grant_eq]

theorem grantRoom_happens (m h : Nat) (w : RingWait) : Happens (.ringGrant m h)
    (fun s => RingFirst s m h w ∧ w.free = true ∧ s.ringFirst m h false = none ∧ (s.ring (s.teams.getD m {}) h).free ≠ 0
      ∧ (s.ring (s.teams.getD m {}) h).mode ≠ 1)
    (fun s t => let r := s.ring (s.teams.getD m {}) h
      t.ring (t.teams.getD m {}) h = { r with free := r.free - 1, pidx := (r.pidx + 1) % r.nst }) := by
  rintro s hfatal ⟨hf, hfree, hnone, hroom, hmode⟩
  obtain ⟨hp, -, -, hteam, hwait, hjoined⟩ := hf.grantee hfree
  have hhead := hf.head
  rw [hfree] at hhead
  have hcteam : (s.grantee w).cteam = s.teams.getD m {} := by rw [State.cteam, hteam]; rfl
  have hring : (s.grantee w).ringHere h = s.ring (s.teams.getD m {}) h := by rw [State.ringHere, hcteam]; rfl
  have hserved := rwait_room (f := w.word) (h := h) (act := activeMask (s.grantee w).cw (s.grantee w).cp w.word)
    (by rw [hcteam]; exact hf.live.2) (by rw [hring]; exact hmode) (by rw [hwait, hjoined, hteam]; exact hhead) (by rw [hring]; exact hroom)
  rw [hwait, hjoined, hcteam, hring] at hserved
  refine ⟨_, exec_ringGrant hfatal hfree (by rw [hnone, hhead, Option.filter_some, if_pos (bne_iff_ne.mpr hroom)]; rfl) hserved, ?_⟩
  exact served_grant hf _ ((ring_fits ..).claim hf.stages.1 hf.stages.2)

end Sys2Proof.Machine


namespace Sys2Proof.Machine

/-! ## O52: formats -/

/-! ### Conversion into a DX block (R255) -/

theorem isRatio_ratioOf (x d : Float.Val) : IsRatio x d (Tensor.ratioOf x d) := by
  cases x with
  | nan => rfl
  | inf => rfl
  | num s m e =>
    cases d with
    | nan => rfl
    | inf => rfl
    | num t n f =>
      refine ⟨_, rfl, rfl, fun hn => ?_, ?_⟩
      · dsimp only
        split
        · exact hn
        · simp [Nat.shiftLeft_eq, hn]
      · dsimp only
        split
        · rw [min_eq_right (by omega), sub_self, Int.toNat_zero, pow_zero, Nat.mul_one, Nat.shiftLeft_eq]
          exact Nat.mul_comm _ _
        · rw [min_eq_left (by omega), sub_self, Int.toNat_zero, pow_zero, Nat.mul_one, Nat.shiftLeft_eq]
          exact Nat.mul_comm _ _

/-- The palette's entries are the reversals that R255 writes out. -/
theorem palette_eq : ∀ j, j < 32 →
    Tensor.palette j = 16 * (j % 2) + 8 * (j / 2 % 2) + 4 * (j / 4 % 2) + 2 * (j / 8 % 2) + j / 16 := by
  decide

theorem roundRatio_palette (mode phase i n d : Nat) :
    Tensor.roundRatio mode (Tensor.palette ((i + phase) % 32)) n d = dxRound mode phase i n d := by
  match mode with
  | 0 =>
    unfold Tensor.roundRatio dxRound
    simp only [Bool.or_eq_true, Bool.and_eq_true, decide_eq_true_eq]
    exact if_congr (or_congr Iff.rfl (and_congr eq_comm Iff.rfl)) rfl rfl
  | 1 => rfl
  | k + 2 => rw [Tensor.roundRatio, dxRound, palette_eq _ (Nat.mod_lt _ (by decide))] <;> simp

/-- The magnitude of value i under an exponent. -/
def dxMag (d8 : Bool) (mode phase e i : Nat) (x : Tensor.Ratio) : Nat :=
  if e = 0 then 0
  else min (if d8 then 63 else 3) (dxRound mode phase i (x.num * (if d8 then 32 else 2) * 2 ^ 127) (x.den * 2 ^ e))

/-- Its error, with one scale for every exponent. -/
def dxErr (d8 : Bool) (mode phase e i : Nat) (x : Tensor.Ratio) : Nat :=
  ((x.num * (if d8 then 32 else 2) * 2 ^ 127 : Nat) - (dxMag d8 mode phase e i x * 2 ^ e * x.den : Nat) : Int).natAbs

theorem scaled_eq (d8 : Bool) (n : Nat) : n * 2 ^ (Tensor.unitBits d8 + 127) = n * (if d8 then 32 else 2) * 2 ^ 127 := by
  rw [pow_add, ← Nat.mul_assoc]
  cases d8 <;> rfl

theorem natAbs_sub_eq (a b : Nat) : (if a ≤ b then b - a else a - b) = ((a : Int) - b).natAbs := by
  split <;> omega

theorem quantize_eq (d8 : Bool) (mode phase e i : Nat) (x : Tensor.Ratio) :
    Tensor.quantize d8 mode (Tensor.palette ((i + phase) % 32)) e x = (dxMag d8 mode phase e i x, dxErr d8 mode phase e i x) := by
  unfold Tensor.quantize dxErr dxMag
  dsimp only
  rw [scaled_eq, roundRatio_palette]
  exact Prod.ext rfl (natAbs_sub_eq _ _)

theorem dxMag_le (d8 : Bool) (mode phase e i : Nat) (x : Tensor.Ratio) : dxMag d8 mode phase e i x ≤ Tensor.magMax d8 := by
  unfold dxMag
  split
  · exact Nat.zero_le _
  · exact Nat.min_le_left _ _

/-- The first number from 1 on that passes a test, and the last where none does. -/
theorem firstUpTo {p : Nat → Bool} {n e : Nat} (hn : 0 < n) (he : (((List.range n).map (· + 1)).find? p).getD n = e) :
    1 ≤ e ∧ e ≤ n ∧ (e = n ∨ p e = true) ∧ ∀ k, 1 ≤ k → k < e → p k = false := by
  rw [List.find?_map] at he
  cases hfind : (List.range n).find? (p ∘ (· + 1)) with
  | none =>
    rw [hfind] at he
    obtain rfl : n = e := he
    refine ⟨hn, Nat.le_refl _, .inl rfl, fun k hk hlt => ?_⟩
    have hfails := List.find?_eq_none.mp hfind (k - 1) (List.mem_range.mpr (by omega))
    simpa [Nat.sub_add_cancel hk] using hfails
  | some i =>
    rw [hfind] at he
    obtain rfl : i + 1 = e := he
    obtain ⟨hp, hmem, hbefore⟩ := List.find?_range_eq_some.mp hfind
    refine ⟨Nat.le_add_left _ _, List.mem_range.mp hmem, .inr hp, fun k hk hlt => ?_⟩
    have hfails := hbefore (k - 1) (by omega)
    simpa [Nat.sub_add_cancel hk] using hfails

/-- An element of a block of 32 values none of which is NaN or an infinity. -/
def dxElemOf (d8 : Bool) (mode phase e0 e1 i : Nat) (x : Tensor.Ratio) : Tensor.Elem :=
  let sel := decide (dxErr d8 mode phase e1 i x < dxErr d8 mode phase e0 i x)
  let q := if sel then dxMag d8 mode phase e1 i x else dxMag d8 mode phase e0 i x
  { sel := sel, neg := x.neg && decide (0 < q), mag := q }

theorem dxElemOf_mag_le (d8 : Bool) (mode phase e0 e1 i : Nat) (x : Tensor.Ratio) :
    (dxElemOf d8 mode phase e0 e1 i x).mag ≤ Tensor.magMax d8 := by
  dsimp only [dxElemOf]
  split <;> exact dxMag_le ..

/-- The least exponent under which every value fits, and 254 where none is. -/
def dxExponent (d8 : Bool) (rs : List Tensor.Ratio) : Nat :=
  (((List.range 254).map (· + 1)).find? (fun e => rs.all (Tensor.fits d8 e))).getD 254

theorem convertDx_none {d8 : Bool} {mode phase : Nat} {xs : List (Option Tensor.Ratio)} (h : none ∈ xs) :
    Tensor.convertDx d8 mode phase xs = (255, 255, List.replicate xs.length { sel := false, neg := false, mag := 0 }) := by
  have hany : xs.any (·.isNone) = true := List.any_eq_true.mpr ⟨none, h, rfl⟩
  rw [Tensor.convertDx, if_pos hany, List.map_const']

theorem convertDx_some (d8 : Bool) (mode phase : Nat) (rs : List Tensor.Ratio) :
    Tensor.convertDx d8 mode phase (rs.map some)
      = if rs.all (fun x => x.num = 0) then (0, 0, List.replicate rs.length { sel := false, neg := false, mag := 0 })
        else (dxExponent d8 rs, dxExponent d8 rs - (if d8 then 4 else 2),
          rs.zipIdx.map (fun p => dxElemOf d8 mode phase (dxExponent d8 rs) (dxExponent d8 rs - (if d8 then 4 else 2)) p.2 p.1)) := by
  have hany : (rs.map some).any (·.isNone) = false := by simp
  have hrs : (rs.map some).filterMap id = rs := by simp [List.filterMap_map]
  rw [Tensor.convertDx, if_neg (by rw [hany]; decide), hrs, List.map_const', List.length_map]
  dsimp only
  split
  · rfl
  · refine Prod.ext rfl (Prod.ext rfl (List.map_congr_left fun p _ => ?_))
    simp only [quantize_eq]
    rfl

/-- Values none of which is missing. -/
theorem exists_map_some {α : Type} : ∀ {xs : List (Option α)}, none ∉ xs → ∃ rs : List α, xs = rs.map some
  | [], _ => ⟨[], rfl⟩
  | none :: _, h => absurd (List.mem_cons_self ..) h
  | some x :: xs, h =>
    have ⟨rs, hrs⟩ := exists_map_some (fun hmem => h (List.mem_cons_of_mem _ hmem))
    ⟨x :: rs, by rw [hrs, List.map_cons]⟩

theorem fits_iff (d8 : Bool) (e : Nat) (rs : List Tensor.Ratio) :
    rs.all (Tensor.fits d8 e) = true ↔ ∀ x, some x ∈ rs.map some →
      x.num * (if d8 then 32 else 2) * 2 ^ 127 ≤ (if d8 then 63 else 3) * 2 ^ e * x.den := by
  simp only [List.all_eq_true, Tensor.fits, scaled_eq, decide_eq_true_eq, Tensor.magMax, List.mem_map, Option.some.injEq, exists_eq_right]

theorem convertDx_dxBlock (d8 : Bool) (mode phase : Nat) (xs : List (Option Tensor.Ratio)) :
    DxBlock d8 mode phase xs (Tensor.convertDx d8 mode phase xs).1 (Tensor.convertDx d8 mode phase xs).2.1
      (Tensor.convertDx d8 mode phase xs).2.2 := by
  unfold DxBlock
  dsimp only
  split
  · next hnone => rw [convertDx_none hnone]; exact ⟨rfl, rfl, rfl⟩
  · next hsome =>
    obtain ⟨rs, rfl⟩ := exists_map_some hsome
    have hzero : (rs.map some).all (fun x => x.all (·.num == 0)) = rs.all (fun x => x.num = 0) := by
      rw [List.all_map]
      rfl
    rw [hzero, convertDx_some]
    split
    · rw [List.length_map]; exact ⟨rfl, rfl, rfl⟩
    · obtain ⟨hpos, hle, hfit, hbefore⟩ := firstUpTo (e := dxExponent d8 rs) (by decide) rfl
      refine ⟨hpos, hle, hfit.imp_right (fits_iff d8 _ rs).mp, fun e he hlt hfits => ?_, rfl, by simp, fun i x hx => ?_⟩
      · exact absurd ((fits_iff d8 e rs).mpr hfits) (by rw [hbefore e he hlt]; decide)
      · have hi : rs[i]? = some x := by simpa [List.getElem?_map] using hx
        refine ⟨dxElemOf d8 mode phase (dxExponent d8 rs) (dxExponent d8 rs - (if d8 then 4 else 2)) i x, ?_, rfl,
          (apply_ite (fun e => dxMag d8 mode phase e i x) ..).symm, rfl⟩
        rw [List.getElem?_map, List.getElem?_zipIdx, hi, Nat.zero_add]
        rfl

/-! ### Packed elements (R254) -/

theorem convertDx_mag {d8 : Bool} {mode phase : Nat} {xs : List (Option Tensor.Ratio)} {y : Tensor.Elem}
    (hy : y ∈ (Tensor.convertDx d8 mode phase xs).2.2) : y.mag ≤ Tensor.magMax d8 := by
  by_cases hnone : none ∈ xs
  · rw [convertDx_none hnone] at hy
    rw [List.eq_of_mem_replicate hy]
    exact Nat.zero_le _
  · obtain ⟨rs, rfl⟩ := exists_map_some hnone
    rw [convertDx_some] at hy
    split at hy
    · rw [List.eq_of_mem_replicate hy]
      exact Nat.zero_le _
    · obtain ⟨p, -, rfl⟩ := List.mem_map.mp hy
      exact dxElemOf_mag_le ..

theorem code_lt {d8 : Bool} {y : Tensor.Elem} (hy : y.mag ≤ Tensor.magMax d8) : y.code d8 < if d8 then 256 else 16 := by
  obtain ⟨sel, neg, mag⟩ := y
  cases d8 <;> cases sel <;> cases neg <;> simp [Tensor.Elem.code, Tensor.magBits, Tensor.magMax, boolNat] at hy ⊢ <;> omega

theorem elemOf_code {d8 : Bool} {y : Tensor.Elem} (hy : y.mag ≤ Tensor.magMax d8) : Tensor.elemOf d8 (y.code d8) = y := by
  obtain ⟨sel, neg, mag⟩ := y
  cases d8 <;> cases sel <;> cases neg <;>
    simp [Tensor.elemOf, Tensor.Elem.code, Tensor.magBits, Tensor.magMax, boolNat] at hy ⊢ <;> omega

/-- The code of an element among others, 0 past the last. -/
def codeAt (els : List Tensor.Elem) (i : Nat) : Nat :=
  match els[i]? with | some x => x.code false | none => 0

theorem codeAt_lt {els : List Tensor.Elem} (h : ∀ y ∈ els, y.mag ≤ Tensor.magMax false) (i : Nat) : codeAt els i < 16 := by
  unfold codeAt
  split
  · next hx => exact code_lt (h _ (List.mem_of_getElem? hx))
  · decide

theorem nibble_of_pair {a b i : Nat} (ha : a < 16) (hb : b < 16) :
    (BitVec.ofNat 8 (a + 16 * b)).toNat / 16 ^ (i % 2) % 16 = if i % 2 = 0 then a else b := by
  rw [BitVec.toNat_ofNat]
  rcases Nat.mod_two_eq_zero_or_one i with h | h <;> rw [h] <;> simp <;> omega

theorem elemAt_packElems {d8 : Bool} {els : List Tensor.Elem} {i : Nat} {y : Tensor.Elem} (hmag : ∀ z ∈ els, z.mag ≤ Tensor.magMax d8)
    (hi : i < 32) (hy : els[i]? = some y) : Tensor.elemAt d8 (Tensor.packElems d8 els) i = y := by
  have hbound := hmag y (List.mem_of_getElem? hy)
  cases d8 with
  | true =>
    have hbyte : ((Tensor.packElems true els).getD i 0).toNat = y.code true := by
      have hlt : y.code true < 256 := code_lt hbound
      simp [Tensor.packElems, List.getD_eq_getElem?_getD, hy, Nat.mod_eq_of_lt hlt]
    rw [Tensor.elemAt, if_pos rfl, hbyte, elemOf_code hbound]
  | false =>
    have hbyte : (Tensor.packElems false els).getD (i / 2) 0
        = BitVec.ofNat 8 (codeAt els (2 * (i / 2)) + 16 * codeAt els (2 * (i / 2) + 1)) := by
      have hhalf : i / 2 < 16 := by omega
      simp [Tensor.packElems, List.getD_eq_getElem?_getD, hhalf]
      rfl
    have hcode : (if i % 2 = 0 then codeAt els (2 * (i / 2)) else codeAt els (2 * (i / 2) + 1)) = y.code false := by
      have hself : codeAt els i = y.code false := by rw [codeAt, hy]
      rw [← hself]
      split <;> congr 1 <;> omega
    rw [Tensor.elemAt, if_neg (by decide), hbyte, nibble_of_pair (codeAt_lt hmag _) (codeAt_lt hmag _), hcode, elemOf_code hbound]

end Sys2Proof.Machine


namespace Sys2Proof.Machine

/-! ### Places of a tensor in memory (R267) -/

/-- A place past the elements that a clipped axis has, or on a clipped line. -/
theorem lt_clip_iff {r : List DWord} {l c n k : Nat} (hk : k < n) :
    k < Shape.clip r l c n ↔ ¬((Shape.grows r ≠ 0 ∧ Shape.grows r ≤ l) ∨ (Shape.gcols r ≠ 0 ∧ Shape.gcols r ≤ c + k)) := by
  unfold Shape.clip
  simp only [Bool.and_eq_true, decide_eq_true_eq, ne_eq]
  split
  · next h => simp only [Nat.not_lt_zero, h, not_false_eq_true, true_and, true_or, not_true_eq_false]
  · next h => split <;> omega

theorem elemSize_pos (r : List DWord) : 0 < Shape.elemSize r := by
  unfold Shape.elemSize
  split <;> decide

theorem sfmt_of_isPlain {r : List DWord} (h : Shape.isPlain r = true) : 1 ≤ Shape.sfmt r ∧ Shape.sfmt r ≤ 3 :=
  of_decide_eq_true h

theorem isBlocks_of_isPlain {r : List DWord} (h : Shape.isPlain r = true) : Shape.isBlocks r = false := by
  have hs := sfmt_of_isPlain h
  unfold Shape.isBlocks
  simp only [Bool.or_eq_false_iff, beq_eq_false_iff_ne]
  omega

theorem isPlain_of_isBlocks {r : List DWord} (h : Shape.isBlocks r = true) : Shape.isPlain r = false ∧ Shape.sfmt r ≠ 6 := by
  unfold Shape.isBlocks at h
  simp only [Bool.or_eq_true, beq_iff_eq] at h
  exact ⟨decide_eq_false (by omega), by omega⟩

/-- A line of a tile of a plain tensor. -/
theorem tileSpans_plain {r : List DWord} {line : Nat} (g t : Nat) (h : Shape.isPlain r = true) (hline : line < if Shape.isB r then 32 else 64) :
    (Shape.tileSpans r g t)[line]? = some
      { va := g + ((if Shape.isB r then 32 else 64) * (t / Shape.tk r) + line) * Shape.gstride r
          + 32 * (t % Shape.tk r) * Shape.elemSize r
        len := Shape.clip r ((if Shape.isB r then 32 else 64) * (t / Shape.tk r) + line) (32 * (t % Shape.tk r)) 32 * Shape.elemSize r
        src := .line t line } := by
  have hs := sfmt_of_isPlain h
  unfold Shape.tileSpans
  dsimp only
  rw [if_neg (by omega), if_pos h, List.getElem?_map, List.getElem?_range hline]
  rfl

/-- Where the model finds an element of such a line. -/
theorem plainPlace_eq (r : List DWord) (g t line : Nat) {pos : Nat} (hpos : pos < 32) :
    (if pos * Shape.elemSize r < Shape.clip r ((if Shape.isB r then 32 else 64) * (t / Shape.tk r) + line)
        (32 * (t % Shape.tk r)) 32 * Shape.elemSize r
      then some (g + ((if Shape.isB r then 32 else 64) * (t / Shape.tk r) + line) * Shape.gstride r
        + 32 * (t % Shape.tk r) * Shape.elemSize r + pos * Shape.elemSize r, Shape.elemSize r)
      else none) = plainPlace r g t line pos := by
  have hlt := lt_clip_iff (r := r) (l := (if Shape.isB r then 32 else 64) * (t / Shape.tk r) + line) (c := 32 * (t % Shape.tk r)) hpos
  unfold plainPlace
  simp only [Nat.mul_lt_mul_right (elemSize_pos r), hlt, ite_not, Nat.add_mul, Nat.add_assoc]

/-! ### Blocks of a load (R255, R267) -/

/-- The places of block b of tile t of a plain tensor. -/
def plainPlaces (r : List DWord) (g t b : Nat) : List (Option (Nat × Nat)) :=
  (List.range 32).map (fun k => if Shape.isB r then plainPlace r g t k b else plainPlace r g t b k)

theorem loadBlock_places {s : State} {q : Nat} {e : EngEntry} {t b : Nat} (h : Shape.isPlain e.rcd = true)
    (hb : b < Tensor.tileBlocks (Shape.isB e.rcd)) {x : State × EngEntry} {vs : List (Nat × Bool)}
    (hread : s.engRead q e (plainPlaces e.rcd e.base.toNat t b) = (x, .ok vs)) :
    s.loadBlock q e t b =
      let xs := vs.map (fun v => Float.read (Shape.plainSrc e.rcd) v.1)
      let c := Shape.cfmt e.rcd
      let z := Tensor.convertDx (Tensor.isDx8 c) (Shape.rmode e.rcd) ((Shape.phase0 e.rcd + t * Shape.step e.rcd) % 32)
        (xs.map (fun x => Tensor.ratioOf x (Float.read Float.f32 (Shape.scale e.rcd))))
      (x, .ok (if Tensor.isDx c then
          (Tensor.packElems (Tensor.isDx8 c) z.2.2, [BitVec.ofNat 8 z.1, BitVec.ofNat 8 z.2.1], vs.any (·.2))
        else ((xs.map (fun v => bytesOf (Tensor.plainSize c) (Tensor.roundVal (Tensor.plainFmt c) 0 v))).flatten, [], vs.any (·.2)))) := by
  unfold Tensor.tileBlocks at hb
  unfold State.loadBlock
  dsimp only
  rw [if_neg (by rw [isBlocks_of_isPlain h]; decide), List.map_congr_left (l := List.range 32)
    (g := fun k => if Shape.isB e.rcd then plainPlace e.rcd e.base.toNat t k b else plainPlace e.rcd e.base.toNat t b k) fun k hk => ?_]
  · unfold plainPlaces at hread
    rw [hread]
    dsimp only
    split <;> rfl
  · have hk32 := List.mem_range.mp hk
    have hline : (if Shape.isB e.rcd then k else b) < if Shape.isB e.rcd then 32 else 64 := by
      split
      · exact hk32
      · next hB => rwa [if_neg hB] at hb
    have hpos : (if Shape.isB e.rcd then b else k) < 32 := by
      split
      · next hB => rwa [if_pos hB] at hb
      · exact hk32
    rw [tileSpans_plain _ t h hline]
    dsimp only
    rw [plainPlace_eq e.rcd _ t _ hpos]
    split <;> rfl

theorem roundVal_lt (f : Float.Fmt) (rm : Nat) (x : Float.Val) : Tensor.roundVal f rm x < 2 ^ f.width := by
  cases x with
  | nan => exact Float.nan_lt f
  | inf => exact Float.inf_lt f _
  | num => exact Float.round_lt ..

theorem roundVal_plain_lt {c : Nat} (hc : c = 3 ∨ c = 4 ∨ c = 7) (x : Float.Val) :
    Tensor.roundVal (Tensor.plainFmt c) 0 x < 256 ^ Tensor.plainSize c := by
  have hlt := roundVal_lt (Tensor.plainFmt c) 0 x
  rcases hc with rfl | rfl | rfl <;> exact hlt

/-- What a load divides by SCALE into, and the block R255 makes of it. -/
def blockRatios (r : List DWord) (vs : List (Nat × Bool)) : List (Option Tensor.Ratio) :=
  vs.map (fun v => Tensor.ratioOf (Float.read (Shape.plainSrc r) v.1) (Float.read Float.f32 (Shape.scale r)))

def blockDx (r : List DWord) (t : Nat) (vs : List (Nat × Bool)) : Nat × Nat × List Tensor.Elem :=
  Tensor.convertDx (decide (Shape.cfmt r = 1)) (Shape.rmode r) ((Shape.phase0 r + t * Shape.step r) % 32) (blockRatios r vs)

theorem loadBlock_dx {s : State} {q : Nat} {e : EngEntry} {t b : Nat} {x : State × EngEntry} {vs : List (Nat × Bool)}
    (h : Shape.isPlain e.rcd = true) (hb : b < Tensor.tileBlocks (Shape.isB e.rcd)) (hc : Shape.cfmt e.rcd = 1 ∨ Shape.cfmt e.rcd = 2)
    (hread : s.engRead q e (plainPlaces e.rcd e.base.toNat t b) = (x, .ok vs)) :
    ∃ (bs : List Byte) (ys : List (Option Tensor.Ratio)) (e0 e1 : Nat) (els : List Tensor.Elem),
      s.loadBlock q e t b = (x, .ok (bs, [BitVec.ofNat 8 e0, BitVec.ofNat 8 e1], vs.any (·.2)))
        ∧ (∀ (i : Nat) y, vs[i]? = some y → ∃ z, ys[i]? = some z
            ∧ IsRatio (Float.read (Shape.plainSrc e.rcd) y.1) (Float.read Float.f32 (Shape.scale e.rcd)) z)
        ∧ ys.length = vs.length ∧ DxBlock (decide (Shape.cfmt e.rcd = 1)) (Shape.rmode e.rcd)
            ((Shape.phase0 e.rcd + t * Shape.step e.rcd) % 32) ys e0 e1 els
        ∧ ∀ (i : Nat) y, i < 32 → els[i]? = some y → Tensor.elemAt (decide (Shape.cfmt e.rcd = 1)) bs i = y := by
  have hd8 : Tensor.isDx8 (Shape.cfmt e.rcd) = decide (Shape.cfmt e.rcd = 1) := by rcases hc with hc | hc <;> rw [hc] <;> rfl
  have hdx : Tensor.isDx (Shape.cfmt e.rcd) = true := by rcases hc with hc | hc <;> rw [hc] <;> rfl
  refine ⟨Tensor.packElems (decide (Shape.cfmt e.rcd = 1)) (blockDx e.rcd t vs).2.2, blockRatios e.rcd vs, (blockDx e.rcd t vs).1,
    (blockDx e.rcd t vs).2.1, (blockDx e.rcd t vs).2.2, (loadBlock_places h hb hread).trans ?_, fun i y hy => ?_, List.length_map ..,
    convertDx_dxBlock .., fun i y hi hy => elemAt_packElems (fun z hz => convertDx_mag hz) hi hy⟩
  · dsimp only
    rw [if_pos hdx, hd8, List.map_map]
    rfl
  · exact ⟨_, by rw [blockRatios, List.getElem?_map, hy, Option.map_some], isRatio_ratioOf _ _⟩

theorem loadBlock_float {s : State} {q : Nat} {e : EngEntry} {t b : Nat} {x : State × EngEntry} {vs : List (Nat × Bool)}
    (h : Shape.isPlain e.rcd = true) (hb : b < Tensor.tileBlocks (Shape.isB e.rcd))
    (hc : Shape.cfmt e.rcd = 3 ∨ Shape.cfmt e.rcd = 4 ∨ Shape.cfmt e.rcd = 7)
    (hread : s.engRead q e (plainPlaces e.rcd e.base.toNat t b) = (x, .ok vs)) :
    ∃ bs, s.loadBlock q e t b = (x, .ok (bs, [], vs.any (·.2)))
      ∧ ∀ i y, vs[i]? = some y →
        numAt (fun a => bs.getD a 0) (Tensor.plainSize (Shape.cfmt e.rcd) * i) (Tensor.plainSize (Shape.cfmt e.rcd))
          = Tensor.roundVal (Tensor.plainFmt (Shape.cfmt e.rcd)) 0 (Float.read (Shape.plainSrc e.rcd) y.1) := by
  have hdx : Tensor.isDx (Shape.cfmt e.rcd) = false := by rcases hc with hc | hc | hc <;> rw [hc] <;> rfl
  refine ⟨((vs.map (fun v => Tensor.roundVal (Tensor.plainFmt (Shape.cfmt e.rcd)) 0 (Float.read (Shape.plainSrc e.rcd) v.1))).map
    (bytesOf (Tensor.plainSize (Shape.cfmt e.rcd)))).flatten, (loadBlock_places h hb hread).trans ?_, fun i y hy => ?_⟩
  · dsimp only
    rw [hdx, if_neg Bool.false_ne_true, List.map_map, List.map_map]
    rfl
  · rw [numAt_flatten_bytesOf, List.getD_eq_getElem?_getD, List.getElem?_map, hy]
    exact Nat.mod_eq_of_lt (roundVal_plain_lt hc _)

/-- A block of block storage. -/
theorem tileSpans_blocks {r : List DWord} {b : Nat} (g t : Nat) (h : Shape.isBlocks r = true) (hb : b < Tensor.tileBlocks (Shape.isB r)) :
    ∃ p, (Shape.tileSpans r g t)[b]? = some p
      ∧ ∀ j, (if p.len = 0 then none else some (p.va + j, 1)) = blockPlace r g t b j := by
  obtain ⟨hplain, hs⟩ := isPlain_of_isBlocks h
  have hsize : Shape.blockSize r ≠ 0 := by unfold Shape.blockSize; split <;> decide
  have hclip : ∀ l c, (if Shape.clip r l c 1 = 0 then 0 else Shape.blockSize r) = 0 ↔
      (Shape.grows r ≠ 0 ∧ Shape.grows r ≤ l) ∨ (Shape.gcols r ≠ 0 ∧ Shape.gcols r ≤ c) := by
    intro l c
    have hlt := lt_clip_iff (r := r) (l := l) (c := c) (show 0 < 1 by decide)
    rw [Nat.pos_iff_ne_zero, Nat.add_zero, not_iff_not] at hlt
    rw [← hlt]
    split
    · next hnone => exact iff_of_true rfl hnone
    · next hsome => exact iff_of_false hsize hsome
  unfold Tensor.tileBlocks at hb
  unfold Shape.tileSpans
  dsimp only
  rw [if_neg hs, hplain, if_neg Bool.false_ne_true]
  cases hB : Shape.isB r with
  | true =>
    rw [hB, if_pos rfl] at hb
    refine ⟨_, by rw [if_pos rfl, List.getElem?_map, List.getElem?_range hb, Option.map_some], fun j => ?_⟩
    unfold blockPlace
    rw [hB]
    exact if_congr (hclip _ _) rfl rfl
  | false =>
    rw [hB, if_neg Bool.false_ne_true] at hb
    refine ⟨_, by rw [if_neg Bool.false_ne_true, List.getElem?_map, List.getElem?_range hb, Option.map_some], fun j => ?_⟩
    unfold blockPlace
    rw [hB]
    exact if_congr (hclip _ _) rfl rfl

theorem loadBlock_blocks {s : State} {q : Nat} {e : EngEntry} {t b : Nat} {x : State × EngEntry} {vs : List (Nat × Bool)}
    (h : Shape.isBlocks e.rcd = true) (hb : b < Tensor.tileBlocks (Shape.isB e.rcd))
    (hread : s.engRead q e ((List.range (Shape.blockSize e.rcd)).map (blockPlace e.rcd e.base.toNat t b)) = (x, .ok vs)) :
    s.loadBlock q e t b = (x, .ok ((vs.map (fun y => BitVec.ofNat 8 y.1)).drop 2, (vs.map (fun y => BitVec.ofNat 8 y.1)).take 2,
      vs.any (·.2))) := by
  obtain ⟨p, hp, hplace⟩ := tileSpans_blocks e.base.toNat t h hb
  unfold State.loadBlock
  dsimp only
  rw [if_pos h, hp, Option.getD_some, List.map_congr_left (l := List.range _) fun j _ => hplace j, hread]

end Sys2Proof.Machine


namespace Sys2Proof.Machine

/-! ### Bytes of a dense tile (R256) -/

/-- The formats of a dense tile. -/
theorem dense_cases {c : Nat} (h : c ∈ [1, 2, 3, 4, 7]) : c = 1 ∨ c = 2 ∨ c = 3 ∨ c = 4 ∨ c = 7 := by
  simpa using h

theorem isDx_dense {c : Nat} (h : c ∈ [1, 2, 3, 4, 7]) : Tensor.isDx c = decide (c ≤ 2) := by
  rcases dense_cases h with rfl | rfl | rfl | rfl | rfl <;> rfl

/-- The element plane of a dense tile fills whole 64-byte units. -/
theorem expPlane_dense (b : Bool) {c : Nat} (h : c ∈ [1, 2, 3, 4, 7]) :
    Tensor.expPlane b c = 64 + Tensor.tileBlocks b * Tensor.blockBytes c := by
  rcases dense_cases h with rfl | rfl | rfl | rfl | rfl <;> cases b <;> rfl

theorem scale_lt (r : List DWord) : Shape.scale r < 2 ^ 32 := Nat.mod_lt _ (by decide)

theorem headWord0_eq (b : Bool) {c sc : Nat} (hsc : sc < 2 ^ 32) :
    Tensor.headWord0 b c sc = sc * 2 ^ 32 + (if b then 32 else 64) * 2 ^ 8 + c := by
  rw [Tensor.headWord0, Nat.mod_eq_of_lt hsc]
  rfl

section TileByte

variable {r : List DWord} {bs : List ((Nat × Nat) × List Byte × List Byte × Bool)} {t : Nat}

theorem tileByte_head {o : Nat} (hc : Shape.cfmt r ∈ [1, 2, 3, 4, 7]) (ho : o < 8) :
    tileByte r bs t o = (BitVec.ofNat 8 (((if Shape.cfmt r ≤ 2 then Shape.scale r else 0x3F800000) * 2 ^ 32
      + (if Shape.isB r then 32 else 64) * 2 ^ 8 + Shape.cfmt r) / 256 ^ o), false) := by
  have hsc : (if Shape.cfmt r ≤ 2 then Shape.scale r else 0x3F800000) < 2 ^ 32 := by
    split
    · exact scale_lt r
    · decide
  unfold tileByte
  dsimp only
  rw [if_pos (by omega), isDx_dense hc, getD_bytesOf 8 _ o ho]
  simp only [decide_eq_true_eq, headWord0_eq _ hsc]

theorem tileByte_pad {o : Nat} (hlow : 8 ≤ o) (ho : o < 64) : tileByte r bs t o = (0, false) := by
  unfold tileByte
  dsimp only
  rw [if_pos ho, List.getD_eq_default _ _ (by rw [length_bytesOf]; exact hlow)]

theorem tileByte_element {b j : Nat} {v : List Byte × List Byte × Bool} (hb : b < Tensor.tileBlocks (Shape.isB r))
    (hfind : bs.find? (fun x => x.1 == (t, b)) = some ((t, b), v)) (hj : j < Tensor.blockBytes (Shape.cfmt r)) :
    tileByte r bs t (64 + b * Tensor.blockBytes (Shape.cfmt r) + j) = (v.1.getD j 0, v.2.2) := by
  have hoff : 64 + b * Tensor.blockBytes (Shape.cfmt r) + j - 64 = j + Tensor.blockBytes (Shape.cfmt r) * b := by
    rw [Nat.mul_comm b]; omega
  have hplane : (b + 1) * Tensor.blockBytes (Shape.cfmt r) ≤ Tensor.tileBlocks (Shape.isB r) * Tensor.blockBytes (Shape.cfmt r) :=
    Nat.mul_le_mul_right _ hb
  rw [Nat.add_mul, Nat.one_mul] at hplane
  unfold tileByte
  dsimp only
  rw [if_neg (by omega), if_pos (by omega), hoff, Nat.add_mul_div_left _ _ (by omega), Nat.add_mul_mod_self_left, Nat.div_eq_of_lt hj,
    Nat.mod_eq_of_lt hj, Nat.zero_add, hfind]

theorem tileByte_exponent {b j : Nat} {v : List Byte × List Byte × Bool} (hc : Shape.cfmt r ∈ [1, 2, 3, 4, 7]) (hdx : Shape.cfmt r ≤ 2)
    (hb : b < Tensor.tileBlocks (Shape.isB r)) (hfind : bs.find? (fun x => x.1 == (t, b)) = some ((t, b), v)) (hj : j < 2) :
    tileByte r bs t (64 + Tensor.tileBlocks (Shape.isB r) * Tensor.blockBytes (Shape.cfmt r) + 2 * b + j) = (v.2.1.getD j 0, v.2.2) := by
  unfold tileByte
  dsimp only
  rw [expPlane_dense _ hc, isDx_dense hc]
  generalize Tensor.tileBlocks (Shape.isB r) * Tensor.blockBytes (Shape.cfmt r) = plane
  have hblock : (64 + plane + 2 * b + j - (64 + plane)) / 2 = b := by omega
  have hbyte : (64 + plane + 2 * b + j - (64 + plane)) % 2 = j := by omega
  rw [if_neg (by omega), if_neg (by omega), if_pos (by simp only [hdx, decide_true, Bool.true_and, decide_eq_true_eq]; omega), hblock,
    hbyte, hfind]

end TileByte

/-! ### Segments of a load (R263, R267) -/

theorem loadSegment_blocks {s : State} {q : Nat} {e : EngEntry} {k : Nat} {x : State × EngEntry} {ys : List (Nat × Byte × Bool)}
    (hraw : Shape.isRaw e.rcd = false) (hcx : Shape.sfmt e.rcd ≠ 6) (h : s.loadSegment q e k = (x, .ok ys)) :
    ∃ bs, (∀ z ∈ bs, ∃ u e1 y, EngEntry.rcd e1 = e.rcd ∧ EngEntry.base e1 = e.base ∧ State.loadBlock u q e1 z.1.1 z.1.2 = (y, .ok z.2))
      ∧ ∀ z, z ∈ ys ↔ ∃ p, 256 * k ≤ p ∧ p < 256 * k + 256 ∧ p < Shape.output e.rcd
        ∧ s.engCanvas e + p / Shape.size e.rcd * Shape.pitch e.rcd + p % Shape.size e.rcd < (s.teams.getD e.team {}).canvasSize
        ∧ z = (canvasKey (s.teams.getD e.team {}) (s.engCanvas e + p / Shape.size e.rcd * Shape.pitch e.rcd + p % Shape.size e.rcd),
            tileByte e.rcd bs (p / Shape.size e.rcd) (p % Shape.size e.rcd)) := by
  unfold State.loadSegment at h
  simp only [hraw, beq_eq_false_iff_ne.mpr hcx, Bool.or_self, Bool.false_eq_true, if_false] at h
  split at h
  · next bs hblocks =>
    obtain ⟨-, hys⟩ := Prod.mk.inj h
    obtain rfl := Except.ok.inj hys
    refine ⟨bs, fun z hz => ?_, fun z => ?_⟩
    · obtain ⟨u, y, -, hz⟩ := (loadBlocks_ok _ hblocks).2 z hz
      exact ⟨u, e, y, rfl, rfl, hz⟩
    · simp only [List.mem_map, List.mem_filter, List.mem_range, decide_eq_true_eq, outOffset, hraw, Bool.false_eq_true, if_false,
        ← Nat.add_assoc]
      constructor
      · rintro ⟨p, ⟨⟨i, hi, rfl⟩, hfits⟩, rfl⟩
        exact ⟨256 * k + i, by omega, by omega, by omega, hfits, rfl⟩
      · rintro ⟨p, hlow, hhigh, hout, hfits, rfl⟩
        exact ⟨p, ⟨⟨p - 256 * k, by omega, by omega⟩, hfits⟩, rfl⟩
  · cases h

end Sys2Proof.Machine


namespace Sys2Proof.Machine

/-! ### Bytes of a store (R267) -/

theorem canvasKey_add (m : Team) (c d : Nat) : canvasKey m (c + d) = canvasKey m c + d := (Nat.add_assoc _ c d).symm

theorem canvasBytes_eq (s : State) (team c n : Nat) :
    s.canvasBytes team c n = (List.range n).map (fun i => s.cbyte (canvasKey (s.teams.getD team {}) c + i)) := rfl

theorem getD_canvasBytes (s : State) (team c : Nat) {n i : Nat} (hi : i < n) :
    (s.canvasBytes team c n).getD i 0 = s.cbyte (canvasKey (s.teams.getD team {}) c + i) := by
  rw [canvasBytes_eq, List.getD_eq_getElem?_getD, List.getElem?_map, List.getElem?_range hi]
  rfl

theorem ofBytes_canvasBytes (s : State) (team c n : Nat) :
    ofBytes (s.canvasBytes team c n) = numAt s.cbyte (canvasKey (s.teams.getD team {}) c) n := readNat_eq_numAt ..

theorem canvasBytes_drop_take (s : State) (team c : Nat) {n d k : Nat} (h : d + k ≤ n) :
    ((s.canvasBytes team c n).drop d).take k = s.canvasBytes team (c + d) k := by
  apply List.ext_getElem
  · simp only [canvasBytes_eq, List.length_take, List.length_drop, List.length_map, List.length_range]
    omega
  · intro i _ _
    simp only [canvasBytes_eq, List.getElem_take, List.getElem_drop, List.getElem_map, List.getElem_range, canvasKey_add, Nat.add_assoc]

theorem ofBytes_canvasBytes_part (s : State) (team c : Nat) {n d k : Nat} (h : d + k ≤ n) :
    ofBytes (((s.canvasBytes team c n).drop d).take k) = numAt s.cbyte (canvasKey (s.teams.getD team {}) c + d) k := by
  rw [canvasBytes_drop_take s team c h, ofBytes_canvasBytes, canvasKey_add]

/-! An element's value (R254) -/

theorem value_elemOf (d8 : Bool) (e0 e1 code : Nat) : (Tensor.elemOf d8 code).value d8 e0 e1 = dxElem d8 e0 e1 code := by
  unfold Tensor.Elem.value Tensor.elemOf dxElem
  cases d8 <;> simp [Tensor.magBits, Tensor.unitBits]

theorem getD_blockValues (c e0 e1 : Nat) (bs : List Byte) {i : Nat} (hi : i < 32) :
    (Tensor.blockValues c e0 e1 bs).getD i (.num false 0 0)
      = if Tensor.isDx c then (Tensor.elemAt (Tensor.isDx8 c) bs i).value (Tensor.isDx8 c) e0 e1
        else Float.read (Tensor.plainFmt c) (ofBytes ((bs.drop (Tensor.plainSize c * i)).take (Tensor.plainSize c))) := by
  rw [Tensor.blockValues, List.getD_eq_getElem?_getD, List.getElem?_map, List.getElem?_range hi]
  rfl

/-- The values that the model reads of a block of a dense tile are those of R254 and R256. -/
theorem getD_tileValues (s : State) (team c : Nat) (tileB : Bool) {cf b i : Nat} (hc : cf ∈ [1, 2, 3, 4, 7]) (hi : i < 32) :
    (s.tileValues team c tileB cf b).getD i (.num false 0 0)
      = tileElem s.cbyte (canvasKey (s.teams.getD team {}) c) cf tileB b i := by
  unfold State.tileValues
  dsimp only
  rw [getD_blockValues _ _ _ _ hi, expPlane_dense tileB hc, getD_canvasBytes _ _ _ (show 0 < 2 by decide),
    getD_canvasBytes _ _ _ (show 1 < 2 by decide)]
  unfold tileElem
  rcases dense_cases hc with rfl | rfl | rfl | rfl | rfl
  · have helem := getD_canvasBytes s team (c + 64 + b * Tensor.blockBytes 1) (show i < Tensor.blockBytes 1 from hi)
    rw [if_pos (show Tensor.isDx 1 = true from rfl)]
    refine (value_elemOf true ..).trans ?_
    rw [helem]
    simp only [canvasKey_add, Tensor.tileBlocks, show Tensor.blockBytes 1 = 32 from rfl, Nat.mul_comm, ← Nat.add_assoc, Nat.add_zero]
  · have helem := getD_canvasBytes s team (c + 64 + b * Tensor.blockBytes 2) (show i / 2 < Tensor.blockBytes 2 from by change i / 2 < 16; omega)
    rw [if_pos (show Tensor.isDx 2 = true from rfl)]
    refine (value_elemOf false ..).trans ?_
    rw [helem]
    simp only [canvasKey_add, Tensor.tileBlocks, show Tensor.blockBytes 2 = 16 from rfl, Nat.mul_comm, ← Nat.add_assoc, Nat.add_zero]
  · have hbytes := ofBytes_canvasBytes_part s team (c + 64 + b * 64) (show 2 * i + 2 ≤ 64 by omega)
    rw [if_neg (by decide)]
    refine (congrArg (Float.read Float.h16) hbytes).trans ?_
    simp only [canvasKey_add, Nat.mul_comm b]
  · have hbytes := ofBytes_canvasBytes_part s team (c + 64 + b * 64) (show 2 * i + 2 ≤ 64 by omega)
    rw [if_neg (by decide)]
    refine (congrArg (Float.read Float.w16) hbytes).trans ?_
    simp only [canvasKey_add, Nat.mul_comm b]
  · have hbytes := ofBytes_canvasBytes_part s team (c + 64 + b * 128) (show 4 * i + 4 ≤ 128 by omega)
    rw [if_neg (by decide)]
    refine (congrArg (Float.read Float.f32) hbytes).trans ?_
    simp only [canvasKey_add, Nat.mul_comm b]

/-! ### Runs of memory (R267) -/

/-- Value j of line k of a dense tile in the canvas, before scaling. -/
def lineElem (s : State) (e : EngEntry) (t k j : Nat) : Float.Val :=
  let key := canvasKey (s.teams.getD e.team {}) (e.coff + t * Shape.pitch e.rcd)
  if Shape.isB e.rcd then tileElem s.cbyte key (Shape.cfmt e.rcd) true j k else tileElem s.cbyte key (Shape.cfmt e.rcd) false k j

/-- The tile's scale; 1 for a plain format. -/
def lineScale (s : State) (e : EngEntry) (t : Nat) : Float.Val :=
  let key := canvasKey (s.teams.getD e.team {}) (e.coff + t * Shape.pitch e.rcd)
  if Shape.cfmt e.rcd ≤ 2 then Float.read Float.f32 (numAt s.cbyte (key + 4) 4) else .num false 1 0

theorem map_fst_pair (bad : Bool) (l : List Byte) : (l.map (fun x => (x, bad))).map (·.1) = l := by
  rw [List.map_map]
  exact List.map_id l

theorem getD_tileValues_line (s : State) (e : EngEntry) (t : Nat) {k j : Nat} (hc : Shape.cfmt e.rcd ∈ [1, 2, 3, 4, 7])
    (hk : k < Tensor.tileBlocks (Shape.isB e.rcd)) (hj : j < 32) :
    (s.tileValues e.team (e.coff + t * Shape.pitch e.rcd) (Shape.isB e.rcd) (Shape.cfmt e.rcd)
      (if Shape.isB e.rcd then j else k)).getD (if Shape.isB e.rcd then k else j) (.num false 0 0) = lineElem s e t k j := by
  unfold lineElem
  cases hB : Shape.isB e.rcd with
  | true =>
    rw [hB] at hk
    exact getD_tileValues s _ _ _ hc hk
  | false => exact getD_tileValues s _ _ _ hc hj

theorem spanBytes_line (s : State) (e : EngEntry) (va len t : Nat) {k : Nat} (hc : Shape.cfmt e.rcd ∈ [1, 2, 3, 4, 7])
    (hk : k < Tensor.tileBlocks (Shape.isB e.rcd)) :
    (s.spanBytes e { va := va, len := len, src := .line t k }).map (·.1)
      = ((((List.range 32).map (fun j => Tensor.roundVal (Shape.plainSrc e.rcd) 0
          (Tensor.mulVal (lineElem s e t k j) (lineScale s e t)))).map (bytesOf (Shape.elemSize e.rcd))).flatten).take len := by
  unfold State.spanBytes
  dsimp only
  rw [isDx_dense hc, ofBytes_canvasBytes, canvasKey_add]
  simp only [List.map_take, List.map_flatten, List.map_map]
  refine congrArg (fun l => List.take len (List.flatten l)) (List.map_congr_left fun j hj => ?_)
  have hj32 := List.mem_range.mp hj
  simp only [Function.comp_apply, map_fst_pair, getD_tileValues_line s e t hc hk hj32, decide_eq_true_eq]
  rfl

theorem spanBytes_block (s : State) (e : EngEntry) (va len t b : Nat) (hc : Shape.cfmt e.rcd ∈ [1, 2]) :
    (s.spanBytes e { va := va, len := len, src := .block t b }).map (·.1)
      = (List.range 2).map (fun j => s.cbyte (canvasKey (s.teams.getD e.team {}) (e.coff + t * Shape.pitch e.rcd) + 64
          + (if Shape.isB e.rcd then 32 else 64) * Tensor.blockBytes (Shape.cfmt e.rcd) + 2 * b + j))
        ++ (List.range (Tensor.blockBytes (Shape.cfmt e.rcd))).map (fun j =>
          s.cbyte (canvasKey (s.teams.getD e.team {}) (e.coff + t * Shape.pitch e.rcd) + 64 + b * Tensor.blockBytes (Shape.cfmt e.rcd) + j)) := by
  have hdense : Shape.cfmt e.rcd ∈ [1, 2, 3, 4, 7] := List.mem_append_left [3, 4, 7] hc
  unfold State.spanBytes
  dsimp only
  rw [map_fst_pair, expPlane_dense _ hdense]
  simp only [canvasBytes_eq, canvasKey_add, Tensor.tileBlocks, ← Nat.add_assoc]

theorem spanBytes_line_byte (s : State) (e : EngEntry) (va len t : Nat) {k j i : Nat} (hc : Shape.cfmt e.rcd ∈ [1, 2, 3, 4, 7])
    (hk : k < Tensor.tileBlocks (Shape.isB e.rcd)) (hj : j < 32) (hi : i < Shape.elemSize e.rcd)
    (hlen : Shape.elemSize e.rcd * j + i < len) :
    ((s.spanBytes e { va := va, len := len, src := .line t k })[Shape.elemSize e.rcd * j + i]?).map (·.1)
      = some (BitVec.ofNat 8 (Tensor.roundVal (Shape.plainSrc e.rcd) 0
          (Tensor.mulVal (lineElem s e t k j) (lineScale s e t)) / 256 ^ i)) := by
  have hin : Shape.elemSize e.rcd * j + i < Shape.elemSize e.rcd * 32 := by
    have hrow := Nat.mul_le_mul_left (Shape.elemSize e.rcd) (Nat.succ_le_of_lt hj)
    rw [Nat.mul_succ] at hrow
    omega
  rw [← List.getElem?_map, spanBytes_line s e va len t hc hk, List.getElem?_take_of_lt hlen,
    List.getElem?_eq_getElem (by rwa [length_flatten_bytesOf, List.length_map, List.length_range]), ← List.getD_eq_getElem _ 0,
    getD_flatten_bytesOf _ _ _ _ hi, getD_bytesOf _ _ _ hi, List.getD_eq_getElem?_getD, List.getElem?_map, List.getElem?_range hj]
  rfl

/-- Settles O52: each event's own steps, then the blocks, tiles and bytes of R255 and R267. -/
theorem engineEvents : Obligations.EngineEvents := by
  unfold Obligations.EngineEvents
  refine ⟨⟨startLoad_happens, startWeights_happens, segmentWeights_happens, segmentLoad_happens, segmentStore_happens, retire_happens,
    resume_happens, fence_happens, grantFilled_happens, grantRoom_happens⟩, ?_⟩
  refine ⟨fun s q e t b x vs hplain hb hread => ⟨fun hc => ?_, fun hc => ?_⟩, fun s q e t b x vs hblocks hb hread => ?_,
    fun r bs t o hc => ⟨fun ho => tileByte_head hc ho, fun hlow ho => tileByte_pad hlow ho, fun b v hb hfind => ⟨?_, ?_⟩⟩,
    fun s q e k x ys hraw hcx h => loadSegment_blocks hraw hcx h, fun s e va len t k hc hk j i hj hi hlen => ?_,
    fun s e va len t b hc _ => spanBytes_block s e va len t b hc⟩
  · exact loadBlock_dx hplain hb hc hread
  · exact loadBlock_float hplain hb hc hread
  · exact loadBlock_blocks hblocks hb hread
  · rintro j hj rfl
    exact tileByte_element hb hfind hj
  · rintro j hj hdx rfl
    exact tileByte_exponent hc hdx hb hfind hj
  · exact spanBytes_line_byte s e va len t hc hk hj hi hlen

end Sys2Proof.Machine

namespace Sys2Proof.Machine

/-! ## The state after reset: O46 -/

/-- No context block, link or byte has been written. -/
theorem reset_ctx (c : Nat) : State.reset.ctx c = {} := rfl

theorem reset_link (n : Nat) : State.reset.link n = {} := rfl

/-- A link whose table lists no slot leaves every slot to the pool. -/
theorem Link.owner_nil {l : Link} (h : l.table = []) (i : Nat) : l.owner i = 16 := by
  unfold Link.owner
  rw [h]
  rfl

theorem reset_memOk : State.reset.memOk = true := by decide

/-- Settles O46: what reset leaves is the empty state, whose records are all at their defaults. -/
theorem reset : Obligations.Reset := by
  unfold Obligations.Reset
  refine ⟨⟨rfl, rfl, fun c => ?_, fun n => ⟨show bitB (0 : DWord) 63 = false by decide, rfl⟩, fun n i => ?_, rfl, rfl, rfl, rfl⟩, reset_memOk, fun _ => rfl⟩
  · rw [reset_ctx]
    exact ⟨by decide, rfl, rfl⟩
  · rw [reset_link]
    exact ⟨Link.owner_nil rfl i, rfl, rfl⟩

/-! ## Links: O53 -/

/-- A masked write of the first half block of the drawer with no byte enabled (R85), whose entry stores its bytes. -/
def emptyWrite : Req := { id := 0, kind := 2, addr := drawerBase, eff := .store }

/-- It waits outside the queue of link 0, which has room for it. -/
def emptyWriteWaits : State := { links := [(0, { waiting := [.posted emptyWrite] })] }

/-- Count of the granule of a place in the state an outcome leaves. -/
def Outcome.countAt (o : Out) (pa : Nat) : Option Word := match o with | .next t => some (t.mem.counts.get (pa / 4096)) | _ => none

/-- It enters, stores nothing, and counts nothing. -/
theorem emptyWrite_uncounted : Outcome.countAt (exec (.drawerRequestEnqueue 0) emptyWriteWaits) drawerBase = some 0 := by
  decide +kernel

/-- Refutes O53: a posted masked write with no byte enabled has a place in a counted granule, and its entry, which stores no
byte, counts nothing there. -/
theorem not_links : ¬ Obligations.Links := by
  unfold Obligations.Links
  rintro ⟨⟨hposted, -⟩, -⟩
  obtain ⟨t, hexec, -, -, -, -, hstore⟩ := hposted 0 emptyWrite [] emptyWriteWaits rfl (by decide)
  obtain ⟨-, hcount, -⟩ := hstore rfl
  have hone : t.mem.counts.get (drawerBase / 4096) = 1 := by
    rw [show drawerBase / 4096 = (emptyWrite.addr + emptyWrite.first) / 4096 by decide, hcount, if_pos (by decide)]
    rfl
  have hrun := emptyWrite_uncounted
  rw [hexec] at hrun
  exact absurd (hone.symm.trans (Option.some.inj hrun)) (by decide)

/-! ## Graphs and systems: O57 -/

/-- A DETACH of system 0 in queue 0 of context 0. -/
def detachEntry : Entry := { index := 0, words := [7 * 2 ^ 24] }

/-- System 0 with 33 idle plots, whose records lie in a page of the drawer. -/
def drawerPlots : Sys := { plots := (List.range 33).map (fun i => (i, {})) }

/-- Context 0 owns the system and its DETACH is in progress; the hub holds the translation of the page; link 0 has 128 requests
in its queue, which leaves room for 64. -/
def detachesDrawer : State := {
  hub := { ssown := [(0, 2 ^ 63)] }
  ctxs := [(0, { queues := [(0, { entry := some detachEntry })] })]
  systems := [(0, drawerPlots)]
  hubTlb := [{ space := 0, vpn := 0, big := true, leaf := 2 ^ 57 + 2 ^ 56 + 2 ^ 48 }]
  links := [(0, { queue := List.replicate 128 { id := 0, kind := 0, addr := drawerBase } })] }

theorem detachesDrawer_inProgress : InProgress detachesDrawer 0 0 7 detachEntry := by
  unfold InProgress
  decide

theorem detachesDrawer_idle : detachesDrawer.sysOf 0 (detachEntry.word 2).toNat = some drawerPlots
    ∧ detachesDrawer.sysIdle (detachEntry.word 2).toNat drawerPlots = true := by decide +kernel

theorem detachesDrawer_linksTake : detachesDrawer.linksTake := by
  refine ⟨rfl, rfl, fun n => ?_⟩
  have hlink : detachesDrawer.link n = if 0 = n then detachesDrawer.link 0 else {} := by
    show Tab.getD _ _ _ = _
    unfold Tab.getD detachesDrawer
    simp only [Tab.find]
    split <;> rfl
  rw [hlink]
  split
  · exact ⟨by decide, rfl, (List.length_replicate ..).le⟩
  · exact ⟨by decide, rfl, by decide⟩

/-- Whether a system is live in the state an outcome leaves. -/
def Outcome.hasSystem (o : Out) (n : Nat) : Bool := match o with | .next t => (t.systems.find n).isSome | _ => false

/-- Each plot's key costs a read and a write: the 65th request finds the queue full, and the DETACH waits. -/
theorem detachesDrawer_waits : Outcome.hasSystem (exec (.detach 0 0) detachesDrawer) 0 = true := by decide +kernel

/-- Refutes O57: a DETACH rewrites the record of every plot, and with 33 plots whose records share a link that takes 66 requests, where
linksTake gives room for 64; so the step waits for its link (R82, R398), and the system stays. The clause of an ATTACH that no link
makes wait has no bound on its requests either. -/
theorem not_graphsAndSystems : ¬ Obligations.GraphsAndSystems := by
  unfold Obligations.GraphsAndSystems
  rintro ⟨-, -, -, -, -, -, -, -, -, -, hdetach, -⟩
  obtain ⟨hsys, hidle⟩ := detachesDrawer_idle
  obtain ⟨t, hexec, hgone, -⟩ := hdetach 0 0 detachEntry drawerPlots detachesDrawer rfl
    ⟨⟨detachesDrawer_inProgress, hsys, hidle⟩, detachesDrawer_linksTake⟩
  have hlive := detachesDrawer_waits
  rw [hexec] at hlive
  have hsome : (t.systems.find 0).isSome = true := hlive
  rw [show (0 : Nat) = (detachEntry.word 2).toNat from rfl, hgone] at hsome
  cases hsome

end Sys2Proof.Machine

namespace Sys2Proof.Machine

/-! ## Operands and faults of the change tree's forms: O35 -/

/-- A node operand that names a live node, not the root where the card forbids it, is the node (R109). -/
theorem State.atNode_of_namesNode {s : State} {r : BitVec 6} {n : Nat} {rootOk : Bool} (body : State → Nat → State)
    (h : namesNode s r n) (hroot : rootOk = true ∨ n ≠ 0) : s.atNode r rootOk body = body s n := by
  obtain ⟨hreg, hlt, hlive⟩ := h
  have hop : s.nodeOperand r rootOk = some n := by
    unfold State.nodeOperand
    dsimp only
    rw [hreg, hlive, decide_eq_true hlt]
    exact if_pos (by simpa using hroot)
  rw [State.atNode, hop]

/-- One that names no live node, or the root where the card forbids it, has the cause "node" (R109). -/
theorem State.atNode_fault {s : State} {r : BitVec 6} {rootOk : Bool} (body : State → Nat → State)
    (h : 2 ^ 20 ≤ (s.sReg r).toNat ∨ s.nodeLive s.cw.ctx (s.sReg r).toNat = false ∨ rootOk = false ∧ s.sReg r = 0) :
    s.atNode r rootOk body = s.scalarFault 0x10 4 0 0 := by
  have hop : s.nodeOperand r rootOk = none := by
    refine if_neg ?_
    simp only [Bool.and_eq_true, Bool.or_eq_true, decide_eq_true_eq, bne_iff_ne]
    rintro ⟨⟨hlt, hlive⟩, hroot⟩
    rcases h with h | h | ⟨hno, h0⟩
    · omega
    · rw [h] at hlive
      cases hlive
    · exact hroot.elim (by simp [hno]) (fun h => h (by rw [h0]; rfl))
  rw [State.atNode, hop]
  rfl

/-- A range off its granule, or of a count outside 1 to 1,048,576, has the cause "range" (R109). -/
theorem State.atRange_fault {s : State} {a : BitVec 4} {c : BitVec 6} (body : State → List Nat → State)
    (h : (s.aReg a).toNat % 4096 ≠ 0 ∨ s.sReg c = 0 ∨ 1048576 < (s.sReg c).toNat) :
    s.atRange a c body = s.scalarFault 0x10 9 0 0 := by
  refine if_pos (h.imp_right (Or.imp_left fun h0 => ?_))
  rw [h0]
  exact Nat.zero_lt_one

/-- A form that waits for the stores of its path's runs finds none left. -/
theorem afterStores_done {s : State} (body : State → State) (hq : s.cp.queue = []) (hquiet : s.quiet = true) :
    afterStores body s = body s := by
  unfold afterStores
  rw [State.runsDone, hq, State.performed_quiet hquiet]
  rfl

theorem cread_fault {d n : BitVec 6} {l : BitVec 4} {s : State} (hr : warpReady (.cread d n l) s)
    (h : 2 ^ 20 ≤ (s.sReg n).toNat ∨ s.nodeLive s.cw.ctx (s.sReg n).toNat = false) :
    exec (.cread d n l) s = .next (s.scalarFault 0x10 4 0 0) := by
  show execCread d n l s = _
  rw [execCread, scalarForm_of_warpReady _ rfl hr, State.atNode_fault _ (h.imp_right .inl)]

theorem cfree_root {n : BitVec 6} {s : State} (hr : warpReady (.cfree n) s) (h : s.sReg n = 0) :
    exec (.cfree n) s = .next (s.scalarFault 0x10 4 0 0) := by
  show execCfree n s = _
  rw [execCfree, scalarForm_of_warpReady _ rfl hr, State.atNode_fault _ (.inr (.inr ⟨rfl, h⟩))]

theorem crepar_root {n p : BitVec 6} {s : State} (hr : warpReady (.crepar n p) s) (h : s.sReg n = 0) :
    exec (.crepar n p) s = .next (s.scalarFault 0x10 4 0 0) := by
  show execCrepar n p s = _
  rw [execCrepar, scalarForm_of_warpReady _ rfl hr, State.atNode_fault _ (.inr (.inr ⟨rfl, h⟩))]

theorem cunrol_fault {a : BitVec 4} {c : BitVec 6} {s : State} (hr : warpReady (.cunrol a c) s) (hq : s.cp.queue = [])
    (h : (s.aReg a).toNat % 4096 ≠ 0 ∨ s.sReg c = 0 ∨ 1048576 < (s.sReg c).toNat) :
    exec (.cunrol a c) s = .next (s.scalarFault 0x10 9 0 0) := by
  show execCunrol a c s = _
  rw [execCunrol, scalarForm_of_warpReady _ rfl hr, afterStores_done _ hq hr.1, State.atRange_fault _ h]

/-! ### RAISE and VRAISE (R300, R302) -/

theorem exec_raise {x y z : BitVec 6} {s : State} (hr : warpReady (.raise x y z) s) :
    exec (.raise x y z) s = .next (s.raiseForm x y z false) := by
  show execRaise x y z s = _
  rw [execRaise, scalarForm_of_warpReady _ rfl hr]

theorem State.raiseForm_system {s : State} {x : BitVec 6} (y z : BitVec 6) (sum : Bool)
    (h : s.sysOf s.cw.ctx (s.sReg x).toNat = none) : s.raiseForm x y z sum = s.scalarFault 0x10 0x0B 0 0 := by
  rw [State.raiseForm, h]

theorem State.raiseForm_plot {s : State} {x y : BitVec 6} {q : Sys} (z : BitVec 6) (sum : Bool)
    (h : s.sysOf s.cw.ctx (s.sReg x).toNat = some q) (hy : q.plots.length ≤ (s.sReg y).toNat) :
    s.raiseForm x y z sum = s.scalarFault 0x10 0x0C 0 0 := by
  rw [State.raiseForm, h]
  exact if_pos hy

/-- A key above 16 bits. -/
theorem bitsN_high_ne_zero {k : DWord} (h : 2 ^ 16 ≤ k.toNat) : bitsN k 63 16 ≠ 0 := by
  have := k.isLt
  simp only [bitsN, Nat.shiftRight_eq_div_pow]
  omega

theorem State.raiseForm_key {s : State} {x y z : BitVec 6} {q : Sys} (sum : Bool)
    (h : s.sysOf s.cw.ctx (s.sReg x).toNat = some q) (hy : (s.sReg y).toNat < q.plots.length) (hz : 2 ^ 16 ≤ (s.sReg z).toNat) :
    s.raiseForm x y z sum = s.scalarFault 0x10 0x0D 0 0 := by
  simp only [State.raiseForm, h, if_neg (Nat.not_le.mpr hy), if_pos (bitsN_high_ne_zero hz)]

theorem raiseCause_le (y : Option Sys) (i k : Nat) : raiseCause y i k ≤ 4 := by
  unfold raiseCause
  split
  · decide
  · split_ifs <;> decide

/-- The code of a lane of a VRAISE (R300). -/
def State.raiseCode (s : State) (f : LaneWord) (l : Nat) : Nat :=
  raiseCause (s.sysOf s.cw.ctx (s.run.sVal (f.c.toNat % 64)).toNat) (s.cw.vReg f.b.toNat l).toNat (s.cw.vReg f.a.toNat l).toNat

theorem State.raiseCode_le (s : State) (f : LaneWord) (l : Nat) : s.raiseCode f l ≤ 4 := raiseCause_le ..

/-- A VRAISE all of whose lanes fail is the fault of the path, with the least code among them (R300). -/
theorem vraise_allFail {f : LaneWord} {s : State} (hr : lanesReady (.vraise f) s) (hne : s.actLanes f ≠ [])
    (hact : activeMask s.cw s.cp f = s.cp.liveMask s.cw) (hbad : ∀ l ∈ s.actLanes f, s.raiseCode f l ≠ 0) :
    ∃ c, (∃ l ∈ s.actLanes f, s.raiseCode f l = c) ∧ (∀ l ∈ s.actLanes f, c ≤ s.raiseCode f l)
      ∧ exec (.vraise f) s = .next (s.wholeFault {
          cls := 0x0A, cause := BitVec.ofNat 8 c, lane := true, flpc := BitVec.ofNat 20 s.cp.lpc
          mask := maskOf ((s.actLanes f).filter (fun l => s.raiseCode f l = c)) } none) := by
  set best := ((s.actLanes f).map (s.raiseCode f)).foldl min 4 with hbest
  have hleast : best ∈ (s.actLanes f).map (s.raiseCode f) ∧ ∀ x ∈ (s.actLanes f).map (s.raiseCode f), best ≤ x :=
    foldl_min_spec (by simpa using hne) (by simpa using fun l _ => s.raiseCode_le f l)
  refine ⟨best, by simpa using hleast.1, by simpa using hleast.2, ?_⟩
  have hall : ((s.actLanes f).map (fun l => (l, (s.cw.vReg f.b.toNat l).toNat, (s.cw.vReg f.a.toNat l).toNat))).filter
      (fun x => raiseCause (s.sysOf s.cw.ctx (s.run.sVal (f.c.toNat % 64)).toNat) x.2.1 x.2.2 ≠ 0)
      = (s.actLanes f).map (fun l => (l, (s.cw.vReg f.b.toNat l).toNat, (s.cw.vReg f.a.toNat l).toNat)) := by
    rw [List.filter_eq_self]
    simpa [State.raiseCode] using hbad
  have hlanes : maskOf (s.actLanes f) = activeMask s.cw s.cp f := maskOf_lanesOf _
  show execVraise f s = _
  rw [execVraise, laneForm_ready _ (fun _ h => by cases h) hr.1 hr.2, State.performed_quiet hr.1, Bool.not_true, if_neg Bool.false_ne_true,
    State.vraise, hall, State.splitThen, State.splitGo_whole _ (laneReady_path hr.2) (by simpa [Function.comp_def] using hlanes.trans hact)
    (by simpa [Function.comp_def, hlanes] using lanesOf_ne_nil.mp hne) rfl (by simp)]
  simp only [List.foldl_map, List.filter_map, List.map_map, Function.comp_def, List.map_id'] at hbest ⊢
  rw [hbest]
  rfl

/-- Settles O35: each operand is tested before the form acts; a VRAISE all of whose lanes fail leaves nothing of its path. -/
theorem treeAndRaiseFaults : Obligations.TreeAndRaiseFaults := by
  unfold Obligations.TreeAndRaiseFaults
  refine ⟨⟨fun d n l s => cread_fault, fun n s => cfree_root, fun n p s => crepar_root, fun a c s => cunrol_fault⟩,
    fun x y z s hr => ⟨fun h => ?_, fun q hq => ⟨fun hy => ?_, fun hy hz => ?_⟩⟩, fun f s hr hne hact => ?_⟩
  · rw [exec_raise hr, State.raiseForm_system _ _ _ h]
  · rw [exec_raise hr, State.raiseForm_plot _ _ hq hy]
  · rw [exec_raise hr, State.raiseForm_key _ hq hy hz]
  · exact vraise_allFail hr hne hact

end Sys2Proof.Machine

namespace Sys2Proof.Machine

/-! ## Node records, roll-up steps and settles (R97, R101, R103): O32, O33 and O49 -/

theorem nodeKey_inj {c m n : Nat} : nodeKey c m = nodeKey c n ↔ m = n := by
  unfold nodeKey
  omega

theorem node_modNode (s : State) (c n m : Nat) (f : Node → Node) :
    (s.modNode c n f).node c m = if m = n then f (s.node c n) else s.node c m := by
  simp only [State.node, State.modNode, Tab.getD_put, nodeKey_inj]

theorem node_modNode_self (s : State) (c n : Nat) (f : Node → Node) : (s.modNode c n f).node c n = f (s.node c n) := by
  rw [node_modNode, if_pos rfl]

theorem node_modNode_ne {s : State} {c n m : Nat} (f : Node → Node) (h : m ≠ n) : (s.modNode c n f).node c m = s.node c m := by
  rw [node_modNode, if_neg h]

/-- A node after a change was carried to it (R101). -/
def Node.bumped (x : Node) : Node := { x with count := x.count + 1, pend := true }

theorem node_bumpNode (s : State) (c n m : Nat) : (s.bumpNode c n).node c m = if m = n then (s.node c n).bumped else s.node c m :=
  node_modNode s c n m Node.bumped

theorem node_bumpNode_self (s : State) (c n : Nat) : (s.bumpNode c n).node c n = (s.node c n).bumped :=
  node_modNode_self s c n Node.bumped

theorem node_bumpNode_ne {s : State} {c n m : Nat} (h : m ≠ n) : (s.bumpNode c n).node c m = s.node c m :=
  node_modNode_ne Node.bumped h

theorem watchEvents_bumpNode (s : State) (c n : Nat) : (s.bumpNode c n).watchEvents = s.watchEvents ++ (s.node c n).watches := by
  show s.watchEvents ++ ((s.modNode c n (fun x => { x with count := x.count + 1, pend := true })).node c n).watches = _
  rw [node_modNode_self]
  rfl

/-! ### What stands beside the tree -/

theorem treeOnly.refl (s : State) : treeOnly s s := rfl

theorem treeOnly.trans {s t u : State} (h1 : treeOnly s t) (h2 : treeOnly t u) : treeOnly s u := by
  unfold treeOnly at *
  rw [h2, h1]

theorem treeOnly.foldl {α : Type} {f : State → α → State} (h : ∀ s x, treeOnly s (f s x)) (l : List α) :
    ∀ s, treeOnly s (l.foldl f s) := by
  induction l with
  | nil => exact treeOnly.refl
  | cons x l ih => exact fun s => (h s x).trans (ih _)

theorem treeOnly.eq {s u : State} (h : treeOnly s u) : u = { s with
    nodes := u.nodes, watchEvents := u.watchEvents, mem := { s.mem with pend := u.mem.pend, enrol := u.mem.enrol } } := h

theorem treeOnly.mem {s u : State} (h : treeOnly s u) : u.mem = { s.mem with pend := u.mem.pend, enrol := u.mem.enrol } := by
  rw [h.eq]

theorem treeOnly.bytes {s u : State} (h : treeOnly s u) : u.mem.bytes = s.mem.bytes := by rw [h.mem]
theorem treeOnly.owner {s u : State} (h : treeOnly s u) : u.mem.ownerOf = s.mem.ownerOf := by
  rw [h.mem]
  rfl
theorem treeOnly.warps {s u : State} (h : treeOnly s u) : u.warps = s.warps := by rw [h.eq]
theorem treeOnly.cur {s u : State} (h : treeOnly s u) : u.cur = s.cur := by rw [h.eq]
theorem treeOnly.ctx {s u : State} (h : treeOnly s u) : u.ctx = s.ctx := by
  funext c
  rw [h.eq]
  rfl
theorem treeOnly.systems {s u : State} (h : treeOnly s u) : u.systems = s.systems := by rw [h.eq]
theorem treeOnly.held {s u : State} (h : treeOnly s u) : u.held = s.held := by rw [h.eq]
theorem treeOnly.treeRuns {s u : State} (h : treeOnly s u) : u.treeRuns = s.treeRuns := by
  funext c
  rw [State.treeRuns, State.treeRuns, h.ctx]
theorem treeOnly.path? {s u : State} (h : treeOnly s u) : u.path? = s.path? := by
  rw [State.path?, State.path?, State.pathAt, State.pathAt, h.warps, h.cur]
theorem treeOnly.cp {s u : State} (h : treeOnly s u) : u.cp = s.cp := by rw [State.cp, State.cp, h.path?]
theorem treeOnly.cw {s u : State} (h : treeOnly s u) : u.cw = s.cw := by rw [State.cw, State.cw, h.warps, h.cur]
theorem treeOnly.sameScalars {s u : State} (h : treeOnly s u) : SameScalars s u :=
  .of_regs (by rw [h.cw]) (by rw [h.cw]) (by rw [h.cp]) (by rw [h.cp])

theorem treeOnly_modNode (s : State) (c n : Nat) (f : Node → Node) : treeOnly s (s.modNode c n f) := rfl

theorem treeOnly_bumpNode (s : State) (c n : Nat) : treeOnly s (s.bumpNode c n) := rfl

/-- A step of a granule carries nothing, clears its mark, or clears it and bumps its node (R101). -/
theorem granuleStep_cases (s : State) (g : Nat) : s.granuleStep g = s ∨
    (s.granuleStep g = s.modMem (fun m => { m with pend := m.pend.set g 0 })
      ∨ s.granuleStep g = (s.modMem (fun m => { m with pend := m.pend.set g 0 })).bumpNode (s.mem.ownerOf g - 1) (s.mem.enrol.get g).toNat) := by
  unfold State.granuleStep
  dsimp only
  split
  · exact .inl rfl
  split
  · exact .inl rfl
  split
  · exact .inr (.inl rfl)
  · exact .inr (.inr rfl)

theorem treeOnly_granuleStep (s : State) (g : Nat) : treeOnly s (s.granuleStep g) := by
  rcases granuleStep_cases s g with h | h | h <;> rw [h]
  · exact treeOnly.refl s
  · rfl
  · rfl

theorem enrol_granuleStep (s : State) (g : Nat) : (s.granuleStep g).mem.enrol = s.mem.enrol := by
  rcases granuleStep_cases s g with h | h | h <;> rw [h] <;> rfl

/-- A step of a granule leaves every other mark, and sets none. -/
theorem pend_granuleStep (s : State) (g k : Nat) : (s.granuleStep g).mem.pend.get k = s.mem.pend.get k
    ∨ (k = g ∧ (s.granuleStep g).mem.pend.get k = 0) := by
  have hset : (s.mem.pend.set g 0).get k = s.mem.pend.get k ∨ (k = g ∧ (s.mem.pend.set g 0).get k = 0) := by
    rw [Cells.get_set]
    split
    · exact .inr ⟨‹_›, rfl⟩
    · exact .inl rfl
  rcases granuleStep_cases s g with h | h | h <;> rw [h]
  · exact .inl rfl
  · exact hset
  · exact hset

/-- Of a context that has a tree it leaves no mark. -/
theorem pend_granuleStep_self {s : State} {g c : Nat} (ho : s.mem.ownerOf g = c + 1) (ht : s.treeRuns c = true) :
    (s.granuleStep g).mem.pend.get g = 0 := by
  have hset : (s.mem.pend.set g 0).get g = 0 := by rw [Cells.get_set, if_pos rfl]
  unfold State.granuleStep
  dsimp only
  rw [ho, Nat.add_sub_cancel, ht]
  split
  · next h => exact h
  rw [if_neg (by simp)]
  split
  · exact hset
  · exact hset

/-- A step of a node carries nothing, or clears its mark and bumps its parent unless it is the root (R101). -/
theorem nodeStep_cases (s : State) (c n : Nat) : s.nodeStep c n = s ∨
    (s.nodeStep c n = s.modNode c n (fun x => { x with pend := false })
      ∨ s.nodeStep c n = (s.modNode c n (fun x => { x with pend := false })).bumpNode c (s.node c n).parent.toNat) := by
  unfold State.nodeStep
  dsimp only
  split
  · exact .inl rfl
  split
  · exact .inr (.inl rfl)
  · exact .inr (.inr rfl)

theorem treeOnly_nodeStep (s : State) (c n : Nat) : treeOnly s (s.nodeStep c n) := by
  rcases nodeStep_cases s c n with h | h | h <;> rw [h]
  · exact treeOnly.refl s
  · rfl
  · rfl

theorem nodeStep_mem (s : State) (c n : Nat) : (s.nodeStep c n).mem = s.mem := by
  rcases nodeStep_cases s c n with h | h | h <;> rw [h] <;> rfl

/-- The part of a settle that carries the marks of nodes, from the deepest up (R103). -/
def State.settleLevels (s : State) (c n : Nat) (ns : List Nat) : State :=
  (List.range 32).foldl (fun s i =>
    (ns.filter (fun m => m != n && (s.node c m).depth.toNat == 31 - i)).foldl (fun s m => s.nodeStep c m) s) s

theorem settleNode_eq (s : State) (c n : Nat) : s.settleNode c n
    = ((s.pendingUnder c (s.subtree c n)).foldl State.granuleStep s).settleLevels c n (s.subtree c n) := rfl

/-- What every step of a node keeps, the levels of a settle keep. -/
theorem settleLevels_keeps {P : State → Prop} {c : Nat} (hstep : ∀ s m, P s → P (s.nodeStep c m)) {s : State} (n : Nat) (ns : List Nat)
    (hs : P s) : P (s.settleLevels c n ns) :=
  List.foldlRecOn _ _ hs (fun _ hu _ _ => List.foldlRecOn _ _ hu (fun _ hv m _ => hstep _ m hv))

theorem settleLevels_mem (s : State) (c n : Nat) (ns : List Nat) : (s.settleLevels c n ns).mem = s.mem :=
  settleLevels_keeps (P := fun u => u.mem = s.mem) (fun u m hu => (nodeStep_mem u c m).trans hu) n ns rfl

theorem treeOnly_settleNode (s : State) (c n : Nat) : treeOnly s (s.settleNode c n) := by
  rw [settleNode_eq]
  exact settleLevels_keeps (P := treeOnly s) (fun u m hu => hu.trans (treeOnly_nodeStep u c m)) _ _
    (treeOnly.foldl treeOnly_granuleStep _ s)

/-- A node that is live stays live as records are written. -/
theorem nodeLive_modNode {s : State} {c n m k : Nat} (f : Node → Node) (h : s.nodeLive k m = true) :
    (s.modNode c n f).nodeLive k m = true := by
  unfold State.nodeLive at h ⊢
  split
  · next h0 => rwa [if_pos h0] at h
  · next h0 =>
    rw [if_neg h0] at h
    rw [State.modNode, Tab.find_put]
    split
    · rfl
    · exact h

theorem nodeLive_bumpNode {s : State} {c n m k : Nat} (h : s.nodeLive k m = true) : (s.bumpNode c n).nodeLive k m = true :=
  nodeLive_modNode (n := n) Node.bumped h

theorem nodeLive_granuleStep {s : State} {k m : Nat} (g : Nat) (h : s.nodeLive k m = true) : (s.granuleStep g).nodeLive k m = true := by
  rcases granuleStep_cases s g with heq | heq | heq <;> rw [heq]
  · exact h
  · exact h
  · exact nodeLive_bumpNode (s := s.modMem _) h

theorem nodeLive_nodeStep {s : State} {c k m : Nat} (n : Nat) (h : s.nodeLive k m = true) : (s.nodeStep c n).nodeLive k m = true := by
  rcases nodeStep_cases s c n with heq | heq | heq <;> rw [heq]
  · exact h
  · exact nodeLive_modNode _ h
  · exact nodeLive_bumpNode (nodeLive_modNode _ h)

theorem nodeLive_settleNode {s : State} {k m : Nat} (c n : Nat) (h : s.nodeLive k m = true) : (s.settleNode c n).nodeLive k m = true := by
  rw [settleNode_eq]
  exact settleLevels_keeps (P := fun u => u.nodeLive k m = true) (fun u n hu => nodeLive_nodeStep n hu) _ _
    (List.foldlRecOn (motive := fun u : State => u.nodeLive k m = true) _ _ h (fun _ hu g _ => nodeLive_granuleStep g hu))

/-! ### Links between nodes -/

/-- Taking a node out of its parent's list writes one record, in which NEXT or FIRST alone changes. -/
theorem unlink_cases (s : State) (c n : Nat) : s.unlink c n = s
    ∨ ∃ m f, s.unlink c n = s.modNode c m f ∧ ∀ x : Node, f x = { x with first := (f x).first, next := (f x).next } := by
  unfold State.unlink
  dsimp only
  split
  · exact .inr ⟨_, _, rfl, fun _ => rfl⟩
  split
  · exact .inr ⟨_, _, rfl, fun _ => rfl⟩
  · exact .inl rfl

theorem treeOnly_unlink (s : State) (c n : Nat) : treeOnly s (s.unlink c n) := by
  rcases unlink_cases s c n with h | ⟨m, f, h, -⟩ <;> rw [h]
  · exact treeOnly.refl s
  · rfl

theorem unlink_mem (s : State) (c n : Nat) : (s.unlink c n).mem = s.mem := by
  rcases unlink_cases s c n with h | ⟨m, f, h, -⟩ <;> rw [h]
  rfl

theorem node_unlink_count (s : State) (c n k : Nat) : ((s.unlink c n).node c k).count = (s.node c k).count := by
  rcases unlink_cases s c n with h | ⟨m, f, h, hf⟩ <;> rw [h]
  rw [node_modNode]
  split
  · next hk => rw [hf, hk]
  · rfl

end Sys2Proof.Machine

namespace Sys2Proof.Machine

/-! ## The change tree's forms: O32 -/

/-- A form that writes one scalar register over a state that left the path where it was, and then moves on. -/
theorem Effect.of_setSN {i : Instr} {s v : State} {d : Nat} {x : DWord} (he : exec i s = .next (v.setSN d x).advance)
    (hp : v.path?.isSome = true) (hw : v.cp.windows = []) (hpc : v.cp.pc = s.cp.pc) :
    Effect i s (v.setSN d x) (s.cp.pc + 4) ∧ (v.setSN d x).sN = setAt v.sN d x ∧ (v.setSN d x).aN = v.aN ∧ (v.setSN d x).qN = v.qN := by
  have hregs := (RegsOnly.refl hp).setSN d x
  refine ⟨Effect.of_advance he ?_ (hregs.windows.trans hw) (hregs.pc.trans hpc), ?_, ?_, ?_⟩
  · rw [State.path?_setSN]
    split
    · exact hp
    · rwa [Option.isSome_map]
  · funext n
    exact State.sN_setSN v d n x hp
  · funext n
    exact State.aN_setSN v hp d n x
  · funext n
    exact State.qN_setSN v hp d n x

/-- A tree form's result without lookahead is written at once. -/
theorem treeResult_now (s : State) (d : BitVec 6) (x : DWord) : s.treeResult d 0 x = (s.setSN d.toNat x).advance := by
  rw [← State.applyAll_s]
  rfl

/-- A form that changes the tree alone and then moves on. -/
theorem Effect.of_tree {i : Instr} {s u : State} (he : exec i s = .next u.advance) (hr : warpReady i s) (ht : treeOnly s u) :
    Effect i s u (s.cp.pc + 4) :=
  Effect.of_advance he (ht.path? ▸ scalarReady_path hr.2.1) (ht.cp ▸ State.quiet_windows hr.1) (by rw [ht.cp])

/-! ### CREAD (R112) -/

theorem cread_gives {d n : BitVec 6} {s : State} {x : Nat} (hr : warpReady (.cread d n 0) s) (hn : namesNode s n x) :
    ∃ t, exec (.cread d n 0) s = .next t ∧ ScalarResult s t (s.cp.pc + 4) (setAt s.sN d.toNat (s.nodeN x).count) s.aN s.qN := by
  have hp := scalarReady_path hr.2.1
  have he : exec (.cread d n 0) s = .next (s.setS d (s.nodeN x).count).advance := by
    show execCread d n 0 s = _
    rw [execCread, scalarForm_of_warpReady _ rfl hr, State.atNode_of_namesNode _ hn (.inl rfl), treeResult_now]
    rfl
  have hregs := (RegsOnly.refl hp).setS d (s.nodeN x).count
  obtain ⟨hdone, hs, ha, hq⟩ := hregs.goto hr.1 (State.setS_pu ..) ((s.setS d (s.nodeN x).count).cp.pc + 4)
  rw [hregs.pc] at hdone hs ha hq
  refine ⟨_, he, fun m => ?_, fun m => ?_, fun m => ?_, ?_⟩ <;> rw [State.advance, hregs.pc]
  · exact (hs m).trans (State.sN_setSN s d.toNat m _ hp)
  · exact (ha m).trans (State.aN_setSN s hp ..)
  · exact (hq m).trans (State.qN_setSN s hp ..)
  · exact hdone

theorem granules_one {s s1 : State} {va : Nat} {h : Hit} (he : earlyFault 1 (va : Int) = none)
    (ht : translate s s.agent va .noData = (s1, .ok h)) : s.granules va 1 = (s1, .ok [h.pa / 4096]) := by
  rw [State.granules, he]
  dsimp only
  rw [ht]
  rfl

theorem creadG_gives {d : BitVec 6} {a : BitVec 4} {s s1 : State} {h : Hit} (hr : warpReady (.creadG d a 0) s)
    (he : earlyFault 1 ((s.aReg a).toNat : Int) = none) (ht : translate s s.agent (s.aReg a).toNat .noData = (s1, .ok h)) :
    ∃ u, Effect (.creadG d a 0) s u (s.cp.pc + 4) ∧ Kept s u ∧ u.mem.bytes = s1.mem.bytes ∧ u.aN = s.aN
      ∧ u.sN = setAt s.sN d.toNat ((s1.mem.counts.get (h.pa / 4096)).setWidth 64) := by
  have hheld : HeldOnly s s1 := by
    have := translate_heldOnly s s.agent (s.aReg a).toNat .noData
    rwa [ht] at this
  have hpass := hheld.besideWarps.passes (scalarReady_path hr.2.1)
  have hexec : exec (.creadG d a 0) s = .next (s1.setSN d.toNat ((s1.mem.counts.get (h.pa / 4096)).setWidth 64)).advance := by
    show execCreadG d a 0 s = _
    rw [execCreadG, scalarForm_of_warpReady _ rfl hr, granules_one he ht]
    dsimp only
    rw [treeResult_now, BitVec.ofNat_toNat]
    rfl
  obtain ⟨heff, hs, ha, -⟩ := Effect.of_setSN hexec hpass.path (hpass.windows.trans (State.quiet_windows hr.1)) hpass.pc
  have hkept := (State.applyAll_scalar (s := s1) hpass.path (.inr (.inl ⟨d.toNat, (s1.mem.counts.get (h.pa / 4096)).setWidth 64, rfl⟩))).1
  rw [State.applyAll_s] at hkept
  obtain ⟨hsN, haN, -⟩ := hpass.sameScalars
  exact ⟨_, heff, hpass.kept.trans hkept, by rw [State.setSN_mem], ha.trans haN, by rw [hs, hsN]⟩

/-! ### CNODE (R110) -/

/-- The least free key is the one below which every key has a record. -/
theorem freeKey_eq {α : Type} {m : Tab α} : ∀ {len lo k : Nat}, lo ≤ k → k < lo + len → m.find k = none →
    (∀ j, lo ≤ j → j < k → (m.find j).isSome = true) → m.freeKey lo len = some k
  | 0, _, _, h1, h2, _, _ => by omega
  | len + 1, lo, k, h1, h2, hk, hbelow => by
    rw [Tab.freeKey]
    by_cases heq : lo = k
    · rw [heq, hk]
      rfl
    · rw [if_neg (by rw [Option.isNone_eq_false_iff.mpr (hbelow lo (Nat.le_refl _) (by omega))]; decide)]
      exact freeKey_eq (by omega) (by omega) hk (fun j hj => hbelow j (by omega))

/-- The record of a new node under a parent (R110). -/
def childOf (a : Nat) (y : Node) : Node := { depth := y.depth + 1, parent := BitVec.ofNat 20 a, next := y.first }

/-- The tree with a new node n, the first child of node a, which takes one bump (R110). -/
def State.withChild (s : State) (c a n : Nat) : State :=
  ((s.modNode c n (fun _ => childOf a (s.node c a))).modNode c a (fun y => { y with first := BitVec.ofNat 20 n })).bumpNode c a

theorem treeOnly_withChild (s : State) (c a n : Nat) : treeOnly s (s.withChild c a n) := rfl

theorem node_withChild {s : State} {c a n : Nat} (h : a ≠ n) (m : Nat) : (s.withChild c a n).node c m
    = if m = a then { s.node c a with count := (s.node c a).count + 1, pend := true, first := BitVec.ofNat 20 n }
      else if m = n then childOf a (s.node c a) else s.node c m := by
  rw [State.withChild, node_bumpNode, node_modNode_self, node_modNode_ne _ h]
  split
  · rfl
  · rw [node_modNode_ne _ ‹_›, node_modNode]

theorem exec_cnode {d p : BitVec 6} {s : State} {a n : Nat} (hr : warpReady (.cnode d p 0) s) (hp : namesNode s p a) (h1 : 1 ≤ n)
    (hn : n < 2 ^ 20) (hfree : s.nodeLive s.cw.ctx n = false) (hbelow : ∀ m, 1 ≤ m → m < n → s.nodeLive s.cw.ctx m = true)
    (hdepth : (s.nodeN a).depth ≠ 31) :
    exec (.cnode d p 0) s = .next ((s.withChild s.cw.ctx a n).setSN d.toNat (BitVec.ofNat 64 n)).advance := by
  have hlive : ∀ m, 1 ≤ m → s.nodeLive s.cw.ctx m = (s.nodes.find (nodeKey s.cw.ctx m)).isSome := fun m hm => if_neg (by omega)
  rw [hlive n h1, Option.isSome_eq_false_iff, Option.isNone_iff_eq_none] at hfree
  have hkey : s.nodes.freeKey (nodeKey s.cw.ctx 1) (2 ^ 20 - 1) = some (nodeKey s.cw.ctx n) := by
    refine freeKey_eq (by unfold nodeKey; omega) (by unfold nodeKey; omega) hfree (fun j hlo hhi => ?_)
    obtain ⟨m, rfl⟩ : ∃ m, j = nodeKey s.cw.ctx m := ⟨j - s.cw.ctx * 2 ^ 20, by unfold nodeKey at *; omega⟩
    have hm : 1 ≤ m ∧ m < n := by
      unfold nodeKey at hlo hhi
      omega
    rw [← hlive m hm.1]
    exact hbelow m hm.1 hm.2
  have hindex : nodeKey s.cw.ctx n - nodeKey s.cw.ctx 0 = n := by
    unfold nodeKey
    omega
  show execCnode d p 0 s = _
  rw [execCnode, scalarForm_of_warpReady _ rfl hr, State.atNode_of_namesNode _ hp (.inl rfl)]
  dsimp only
  rw [hkey]
  dsimp only
  rw [hindex, if_neg (show ¬ (s.node s.cw.ctx a).depth = 31 from hdepth), treeResult_now]
  rfl

theorem nodeN_setSN {v : State} {d : Nat} {x : DWord} (hp : v.path?.isSome = true) : (v.setSN d x).nodeN = v.nodeN := by
  funext m
  have hctx : (v.setSN d x).cw.ctx = v.cw.ctx := by rw [((RegsOnly.refl hp).setSN d x).warp]
  rw [State.nodeN, hctx, State.node, State.setSN_nodes]
  rfl

theorem cnode_effect {d p : BitVec 6} {s : State} {a n : Nat} (hr : warpReady (.cnode d p 0) s) (hp : namesNode s p a) (h1 : 1 ≤ n)
    (hn : n < 2 ^ 20) (hfree : s.nodeLive s.cw.ctx n = false) (hbelow : ∀ m, 1 ≤ m → m < n → s.nodeLive s.cw.ctx m = true)
    (hdepth : (s.nodeN a).depth ≠ 31) :
    ∃ u, Effect (.cnode d p 0) s u (s.cp.pc + 4) ∧ u.aN = s.aN ∧ u.qN = s.qN
      ∧ u.sN = setAt s.sN d.toNat (BitVec.ofNat 64 n) ∧ u.mem = s.mem
      ∧ u.nodeN n = { depth := (s.nodeN a).depth + 1, parent := BitVec.ofNat 20 a, next := (s.nodeN a).first }
      ∧ u.nodeN a = { s.nodeN a with count := (s.nodeN a).count + 1, pend := true, first := BitVec.ofNat 20 n }
      ∧ ∀ m, m < 2 ^ 20 → m ≠ a → m ≠ n → u.nodeN m = s.nodeN m := by
  have htree := treeOnly_withChild s s.cw.ctx a n
  have hne : a ≠ n := by
    rintro rfl
    have hlive := hp.2.2
    rw [hfree] at hlive
    cases hlive
  have hnode := node_withChild (s := s) (c := s.cw.ctx) hne
  have hmem : (s.withChild s.cw.ctx a n).mem = s.mem := rfl
  have hexec := exec_cnode hr hp h1 hn hfree hbelow hdepth
  generalize s.withChild s.cw.ctx a n = v at htree hnode hmem hexec
  have hpath : v.path?.isSome = true := htree.path? ▸ scalarReady_path hr.2.1
  obtain ⟨heff, hs, ha, hq⟩ := Effect.of_setSN hexec hpath (htree.cp ▸ State.quiet_windows hr.1) (by rw [htree.cp])
  obtain ⟨hsN, haN, hqN⟩ := htree.sameScalars
  have hnodeN : (v.setSN d.toNat (BitVec.ofNat 64 n)).nodeN = v.node s.cw.ctx := by
    rw [nodeN_setSN hpath, ← htree.cw]
    rfl
  refine ⟨_, heff, ha.trans haN, hq.trans hqN, by rw [hs, hsN], by rw [State.setSN_mem, hmem], ?_, ?_, fun m _ hma hmn => ?_⟩
    <;> rw [hnodeN, hnode]
  · rw [if_neg hne.symm, if_pos rfl]
    rfl
  · rw [if_pos rfl]
    rfl
  · rw [if_neg hma, if_neg hmn]
    rfl

/-! ### CWATCH (R105, R114) -/

/-- The lowest of a node's four references that passes a test. -/
theorem wrefAt_eq {x : Node} {test : Nat → Bool} {i : Nat} (hi : i < 4) (hit : test (bitsN x.wref (16 * i + 15) (16 * i)) = true)
    (hmiss : ∀ j, j < i → test (bitsN x.wref (16 * j + 15) (16 * j)) = false) : x.wrefAt test = some i := by
  rw [Node.wrefAt, List.find?_range_eq_some]
  exact ⟨hit, List.mem_range.mpr hi, fun j hj => by rw [hmiss j hj]; rfl⟩

theorem cwatch_effect {n y z : BitVec 6} {s : State} {x i : Nat} {q : Sys} (hr : warpReady (.cwatch n y z) s) (hn : namesNode s n x)
    (hz : (s.sReg z).toNat < 64) (hq : s.systems.find (s.sReg y).toNat = some q) (hctx : q.ctx = s.cw.ctx)
    (hown : s.ownsSys s.cw.ctx (s.sReg y).toNat = true) (hslot : ∃ w, q.watch.find (s.sReg z).toNat = some w ∧ w.1 = x) (hi : i < 4)
    (hfree : bitsN (s.nodeN x).wref (16 * i + 15) (16 * i) < 2 ^ 15)
    (hused : ∀ j, j < i → 2 ^ 15 ≤ bitsN (s.nodeN x).wref (16 * j + 15) (16 * j)) :
    Effect (.cwatch n y z) s (s.modNode s.cw.ctx x (fun r => { r with
      wref := putBits r.wref (16 * i + 15) (16 * i) (2 ^ 15 + (s.sReg y).toNat * 64 + (s.sReg z).toNat) })) (s.cp.pc + 4) := by
  obtain ⟨w, hw, hwx⟩ := hslot
  have hplace : (s.node s.cw.ctx x).wrefAt (fun r => decide (r < 2 ^ 15)) = some i :=
    wrefAt_eq hi (decide_eq_true hfree) (fun j hj => decide_eq_false (Nat.not_lt.mpr (hused j hj)))
  have hmod : (s.sReg z).toNat % 64 = (s.sReg z).toNat := Nat.mod_eq_of_lt hz
  refine Effect.of_tree ?_ hr (treeOnly_modNode ..)
  show execCwatch n y z s = _
  rw [execCwatch, scalarForm_of_warpReady _ rfl hr, State.atNode_of_namesNode _ hn (.inl rfl)]
  dsimp only
  rw [if_neg (by omega), hq]
  dsimp only
  rw [hmod, hw, hown, if_neg (by simp [hctx, hwx]), if_neg (by omega), hplace]
  dsimp only
  rw [if_neg (by omega)]
  rfl

/-! ### CREPAR (R106, R115) -/

theorem foldl_max_le {α : Type} {g : α → Nat} {b : Nat} : ∀ {l : List α} {a : Nat}, a ≤ b → (∀ k ∈ l, g k ≤ b) →
    l.foldl (fun m k => max m (g k)) a ≤ b
  | [], _, ha, _ => ha
  | k :: l, _, ha, hl => foldl_max_le (l := l) (Nat.max_le.mpr ⟨ha, hl k List.mem_cons_self⟩)
      (fun j hj => hl j (List.mem_cons_of_mem _ hj))

theorem mem_subtree_self (s : State) (c n : Nat) : n ∈ s.subtree c n := List.mem_cons_self

/-- A node of a subtree may go under a parent outside it, where no depth then exceeds 31. -/
theorem exec_crepar {n p : BitVec 6} {s : State} {x q : Nat} (hr : warpReady (.crepar n p) s) (hn : namesNode s n x) (h0 : x ≠ 0)
    (hp : namesNode s p q) (hout : q ∉ s.subtree s.cw.ctx x)
    (hdepth : ∀ m ∈ s.subtree s.cw.ctx x, (s.nodeN q).depth.toNat + 1 + ((s.nodeN m).depth.toNat - (s.nodeN x).depth.toNat) ≤ 31) :
    exec (.crepar n p) s
      = .next (if (s.nodeN x).parent.toNat = q then s.advance else (s.reparent s.cw.ctx x q).advance) := by
  have hself := hdepth x (mem_subtree_self ..)
  have hdeepest : (s.subtree s.cw.ctx x).foldl (fun m k => max m (s.node s.cw.ctx k).depth.toNat) (s.node s.cw.ctx x).depth.toNat
      ≤ (s.nodeN x).depth.toNat + (30 - (s.nodeN q).depth.toNat) := by
    refine foldl_max_le (Nat.le_add_right ..) (fun m hm => ?_)
    have := hdepth m hm
    show (s.nodeN m).depth.toNat ≤ _
    omega
  show execCrepar n p s = _
  rw [execCrepar, scalarForm_of_warpReady _ rfl hr, State.atNode_of_namesNode _ hn (.inr h0), State.atNode_of_namesNode _ hp (.inl rfl)]
  dsimp only
  rw [if_neg, if_neg (by simpa using hout)]
  · rfl
  · show ¬ 31 < (s.nodeN q).depth.toNat + 1 + (_ - (s.nodeN x).depth.toNat)
    omega

/-- What a move of a subtree is before its node takes its place under the new parent (R106). -/
theorem reparent_eq (s : State) (c n q : Nat) : ∃ t f, treeOnly s t
    ∧ s.reparent c n q = ((t.modNode c n f).modNode c q (fun x => { x with first := BitVec.ofNat 20 n })).bumpNode c q
    ∧ ∀ x, (f x).parent = BitVec.ofNat 20 q := by
  refine ⟨_, _, ?_, rfl, fun _ => rfl⟩
  refine .trans ?_ (treeOnly.foldl (fun u m => treeOnly_modNode u c m _) _ _)
  exact ((treeOnly_settleNode s c n).trans (treeOnly_nodeStep _ c n)).trans ((treeOnly_unlink _ c n).trans (treeOnly_bumpNode ..))

theorem treeOnly_reparent (s : State) (c n q : Nat) : treeOnly s (s.reparent c n q) := by
  obtain ⟨t, f, ht, h, -⟩ := reparent_eq s c n q
  rw [h]
  exact ht.trans rfl

/-- The node is then the first child of its parent, which has changed (R106). -/
theorem node_reparent (s : State) {c n q : Nat} (hne : n ≠ q) : ((s.reparent c n q).node c n).parent = BitVec.ofNat 20 q
    ∧ ((s.reparent c n q).node c q).first = BitVec.ofNat 20 n ∧ ((s.reparent c n q).node c q).pend = true := by
  obtain ⟨t, f, -, h, hf⟩ := reparent_eq s c n q
  rw [h, node_bumpNode_self, node_bumpNode_ne hne, node_modNode_ne _ hne, node_modNode_self, node_modNode_self]
  exact ⟨hf _, rfl, rfl⟩

theorem crepar_moves {n p : BitVec 6} {s : State} {x q : Nat} (hr : warpReady (.crepar n p) s) (hn : namesNode s n x) (h0 : x ≠ 0)
    (hp : namesNode s p q) (hne : (s.nodeN x).parent.toNat ≠ q) (hout : q ∉ s.subtree s.cw.ctx x)
    (hdepth : ∀ m ∈ s.subtree s.cw.ctx x, (s.nodeN q).depth.toNat + 1 + ((s.nodeN m).depth.toNat - (s.nodeN x).depth.toNat) ≤ 31) :
    ∃ u, Effect (.crepar n p) s u (s.cp.pc + 4) ∧ SameScalars s u ∧ (u.nodeN x).parent.toNat = q
      ∧ (u.nodeN q).first.toNat = x ∧ (u.nodeN q).pend = true ∧ u.mem.bytes = s.mem.bytes := by
  have htree := treeOnly_reparent s s.cw.ctx x q
  have hxq : x ≠ q := by
    rintro rfl
    exact hout (mem_subtree_self ..)
  have he := exec_crepar hr hn h0 hp hout hdepth
  rw [if_neg hne] at he
  obtain ⟨hparent, hfirst, hpend⟩ := node_reparent s (c := s.cw.ctx) hxq
  have hnodeN : (s.reparent s.cw.ctx x q).nodeN = (s.reparent s.cw.ctx x q).node s.cw.ctx := by
    funext m
    rw [State.nodeN, htree.cw]
  refine ⟨_, Effect.of_tree he hr htree, htree.sameScalars, ?_, ?_, ?_, htree.bytes⟩ <;> rw [hnodeN]
  · rw [hparent, BitVec.toNat_ofNat, Nat.mod_eq_of_lt hp.2.1]
  · rw [hfirst, BitVec.toNat_ofNat, Nat.mod_eq_of_lt hn.2.1]
  · exact hpend

/-! ### CFREE (R116) -/

/-- The tree without a node, whose parent takes one bump (R116). -/
def State.freeNode (s : State) (c n : Nat) : State :=
  ({ s.unlink c n with nodes := (s.unlink c n).nodes.erase (nodeKey c n) } : State).bumpNode c (s.node c n).parent.toNat

theorem treeOnly_freeNode (s : State) (c n : Nat) : treeOnly s (s.freeNode c n) :=
  (treeOnly_unlink s c n).trans rfl

theorem find_freeNode {s : State} {c n : Nat} (h : (s.node c n).parent.toNat ≠ n) : (s.freeNode c n).nodes.find (nodeKey c n) = none := by
  show (((s.unlink c n).nodes.erase (nodeKey c n)).put (nodeKey c (s.node c n).parent.toNat) _).find (nodeKey c n) = none
  rw [Tab.find_put, if_neg (by simpa [nodeKey_inj] using Ne.symm h), Tab.find_erase, if_pos rfl]

theorem node_freeNode_parent {s : State} {c n : Nat} (h : (s.node c n).parent.toNat ≠ n) :
    ((s.freeNode c n).node c (s.node c n).parent.toNat).count = (s.node c (s.node c n).parent.toNat).count + 1
      ∧ ((s.freeNode c n).node c (s.node c n).parent.toNat).pend = true := by
  have herase : ({ s.unlink c n with nodes := (s.unlink c n).nodes.erase (nodeKey c n) } : State).node c (s.node c n).parent.toNat
      = (s.unlink c n).node c (s.node c n).parent.toNat := by
    rw [State.node, Tab.getD, Tab.find_erase, if_neg (by simpa only [nodeKey_inj] using h)]
    rfl
  rw [State.freeNode, node_bumpNode_self, herase]
  exact ⟨congrArg (· + 1) (node_unlink_count ..), rfl⟩

theorem exec_cfree {n : BitVec 6} {s : State} {x : Nat} (hr : warpReady (.cfree n) s) (hn : namesNode s n x) (h0 : x ≠ 0)
    (hfirst : (s.nodeN x).first = 0) (henrol : (s.nodeN x).enrol = 0) (hwatch : (s.nodeN x).watches = []) :
    exec (.cfree n) s = .next (s.freeNode s.cw.ctx x).advance := by
  show execCfree n s = _
  rw [execCfree, scalarForm_of_warpReady _ rfl hr, State.atNode_of_namesNode _ hn (.inr h0)]
  exact congrArg Host.Outcome.next (if_neg (by
    show ¬ ((decide ((s.nodeN x).first ≠ 0) || decide ((s.nodeN x).enrol ≠ 0) || !(s.nodeN x).watches.isEmpty) = true)
    rw [hfirst, henrol, hwatch]
    decide))

theorem cfree_effect {n : BitVec 6} {s : State} {x : Nat} (hr : warpReady (.cfree n) s) (hn : namesNode s n x) (h0 : x ≠ 0)
    (hfirst : (s.nodeN x).first = 0) (henrol : (s.nodeN x).enrol = 0) (hwatch : (s.nodeN x).watches = [])
    (hparent : (s.nodeN x).parent.toNat ≠ x) :
    ∃ u, Effect (.cfree n) s u (s.cp.pc + 4) ∧ SameScalars s u ∧ u.nodes.find (s.cw.ctx * 2 ^ 20 + x) = none
      ∧ (u.nodeN (s.nodeN x).parent.toNat).count = (s.nodeN (s.nodeN x).parent.toNat).count + 1
      ∧ (u.nodeN (s.nodeN x).parent.toNat).pend = true ∧ u.mem = s.mem := by
  have htree := treeOnly_freeNode s s.cw.ctx x
  obtain ⟨hcount, hpend⟩ := node_freeNode_parent hparent
  have hnodeN : (s.freeNode s.cw.ctx x).nodeN = (s.freeNode s.cw.ctx x).node s.cw.ctx := by
    funext m
    rw [State.nodeN, htree.cw]
  refine ⟨_, Effect.of_tree (exec_cfree hr hn h0 hfirst henrol hwatch) hr htree, htree.sameScalars, find_freeNode hparent,
    ?_, ?_, unlink_mem ..⟩ <;> rw [hnodeN]
  · exact hcount
  · exact hpend

/-- Settles O32: each form's operands pass, and what it then does to the tree is said of the records it writes. -/
theorem treeForms : Obligations.TreeForms := by
  unfold Obligations.TreeForms
  refine ⟨⟨fun d n s x => cread_gives, fun d a s s1 h => creadG_gives⟩, fun d p s a n => cnode_effect, ?_, ?_, ?_, ?_⟩
  · exact fun n y z s x q i hr hn hz hq hctx hown hslot hi hfree hused => cwatch_effect hr hn hz hq hctx hown hslot hi hfree hused
  · intro n p s x q hr hn h0 hp hsame hout hdepth
    have he := exec_crepar hr hn h0 hp hout hdepth
    rw [if_pos hsame] at he
    exact Effect.of_tree he hr (treeOnly.refl s)
  · exact fun n p s x q => crepar_moves
  · exact fun n s x => cfree_effect

end Sys2Proof.Machine

namespace Sys2Proof.Machine

/-! ## Enrolment and settling: O33 -/

/-- Translating a range for its granules leaves what translations may change (R17). -/
theorem granules_heldOnly : ∀ (n : Nat) (s : State) (va : Nat), HeldOnly s (s.granules va n).1
  | 0, s, _ => HeldOnly.refl s
  | n + 1, s, va => by
    have htr := translate_heldOnly s s.agent va .noData
    rw [State.granules]
    split
    · exact HeldOnly.refl s
    split
    · next h =>
      rw [h] at htr
      exact htr
    · next t _ h =>
      rw [h] at htr
      have hrest := htr.trans (granules_heldOnly n t (va + 4096))
      split <;> next h' => rwa [h'] at hrest

theorem State.atRange_ok {s s1 : State} {a : BitVec 4} {c : BitVec 6} {gs : List Nat} (body : State → List Nat → State)
    (ha : (s.aReg a).toNat % 4096 = 0) (h1 : 1 ≤ (s.sReg c).toNat) (hc : (s.sReg c).toNat ≤ 1048576)
    (h : s.granules (s.aReg a).toNat (s.sReg c).toNat = (s1, .ok gs)) : s.atRange a c body = body s1 gs := by
  unfold State.atRange
  dsimp only
  rw [if_neg (by omega), h]

/-- One granule's enrolment: under the node where the context owns it, else as it was (R111). -/
theorem enrol1_spec (s : State) (c n g : Nat) : treeOnly s (s.enrol1 c n g).1
    ∧ ∀ k, (s.enrol1 c n g).1.mem.enrol.get k
        = if k = g ∧ s.mem.ownerOf g = c + 1 then BitVec.ofNat 20 n else s.mem.enrol.get k := by
  unfold State.enrol1
  dsimp only
  split
  · next h =>
    refine ⟨treeOnly.refl s, fun k => ?_⟩
    split
    · next hk =>
      obtain ⟨rfl, ho⟩ := hk
      rw [← h.resolve_left (not_not_intro ho), BitVec.ofNat_toNat, BitVec.setWidth_eq]
    · rfl
  · next h =>
    have ho : s.mem.ownerOf g = c + 1 := not_not.mp (fun ho => h (.inl ho))
    set t := (s.granuleStep g).modMem (fun m => { m with enrol := m.enrol.set g (BitVec.ofNat 20 n) }) with ht
    have hstep : treeOnly s t := (treeOnly_granuleStep s g).trans rfl
    have hget : ∀ k, t.mem.enrol.get k = if k = g ∧ s.mem.ownerOf g = c + 1 then BitVec.ofNat 20 n else s.mem.enrol.get k := by
      intro k
      show ((s.granuleStep g).mem.enrol.set g (BitVec.ofNat 20 n)).get k = _
      rw [enrol_granuleStep, Cells.get_set]
      simp only [ho, and_true]
    have hcount : ∀ (u : State) (m : Nat) (f : Node → Node), treeOnly s u → u.mem = t.mem →
        treeOnly s (if m = 0 then u else u.modNode c m f) ∧ (if m = 0 then u else u.modNode c m f).mem = t.mem := by
      intro u m f hu hm
      split
      · exact ⟨hu, hm⟩
      · exact ⟨hu.trans (treeOnly_modNode ..), hm⟩
    obtain ⟨h1, hm1⟩ := hcount t n (fun x => { x with enrol := x.enrol + 1 }) hstep rfl
    obtain ⟨h2, hm2⟩ := hcount _ (s.mem.enrol.get g).toNat (fun x => { x with enrol := x.enrol - 1 }) h1 hm1
    exact ⟨h2, fun k => by rw [hm2]; exact hget k⟩

theorem enrol1s_spec (c n : Nat) : ∀ (gs : List Nat) (s : State) (l : List Nat),
    let r := gs.foldl (fun (r : State × List Nat) g => let x := r.1.enrol1 c n g; (x.1, r.2 ++ x.2)) (s, l)
    treeOnly s r.1 ∧ ∀ k, r.1.mem.enrol.get k
      = if k ∈ gs ∧ s.mem.ownerOf k = c + 1 then BitVec.ofNat 20 n else s.mem.enrol.get k
  | [], s, _ => ⟨treeOnly.refl s, fun k => by simp⟩
  | g :: gs, s, l => by
    obtain ⟨htree, hget⟩ := enrol1_spec s c n g
    obtain ⟨hrest, hgets⟩ := enrol1s_spec c n gs (s.enrol1 c n g).1 (l ++ (s.enrol1 c n g).2)
    refine ⟨htree.trans hrest, fun k => ?_⟩
    rw [List.foldl_cons, hgets, htree.owner, hget]
    by_cases hk : k ∈ gs ∧ s.mem.ownerOf k = c + 1
    · rw [if_pos hk, if_pos ⟨List.mem_cons_of_mem g hk.1, hk.2⟩]
    · rw [if_neg hk]
      by_cases hg : k = g
      · subst hg
        simp
      · rw [if_neg (fun h => hg h.1), if_neg (fun h => hk ⟨(List.mem_cons.mp h.1).resolve_left hg, h.2⟩)]

/-- Granules of a range go under a node where the context owns them (R111). -/
theorem enrolAll_spec (s : State) (c n : Nat) (gs : List Nat) : treeOnly s (s.enrolAll c n gs)
    ∧ ∀ k, (s.enrolAll c n gs).mem.enrol.get k
        = if k ∈ gs ∧ s.mem.ownerOf k = c + 1 then BitVec.ofNat 20 n else s.mem.enrol.get k := by
  obtain ⟨htree, hget⟩ := enrol1s_spec c n gs s []
  unfold State.enrolAll
  dsimp only
  split
  · exact ⟨htree, hget⟩
  · have hbump : ∀ (l : List Nat) (u : State), treeOnly u (l.foldl (fun s m => s.bumpNode c m) u)
        ∧ (l.foldl (fun s m => s.bumpNode c m) u).mem = u.mem := fun l u =>
      ⟨treeOnly.foldl (fun u m => treeOnly_bumpNode u c m) l u, foldl_mem _ (fun u m => State.bumpNode_mem u c m) l u⟩
    obtain ⟨hb, hm⟩ := hbump (List.eraseDups _) _
    exact ⟨htree.trans (hb.trans (treeOnly_bumpNode ..)), fun k => by rw [State.bumpNode_mem, hm]; exact hget k⟩

/-- A form that has translated its range and then enrols its granules completes with them enrolled. -/
theorem enrol_effect {i : Instr} {s s1 : State} {va n x : Nat} {gs : List Nat} (hr : warpReady i s)
    (hg : s.granules va n = (s1, .ok gs)) (he : exec i s = .next (s1.enrolAll s1.cw.ctx x gs).advance) :
    ∃ u, Effect i s u (s.cp.pc + 4) ∧ SameScalars s u ∧ u.mem.bytes = s1.mem.bytes
      ∧ ∀ g, u.mem.enrol.get g = if g ∈ gs ∧ s.mem.ownerOf g = s.cw.ctx + 1 then BitVec.ofNat 20 x else s.mem.enrol.get g := by
  have hheld : HeldOnly s s1 := by
    have := granules_heldOnly n s va
    rwa [hg] at this
  have hpass := hheld.besideWarps.passes (scalarReady_path hr.2.1)
  obtain ⟨htree, hget⟩ := enrolAll_spec s1 s1.cw.ctx x gs
  refine ⟨_, Effect.of_advance he (htree.path? ▸ hpass.path) ?_ ?_, hpass.sameScalars.trans htree.sameScalars, htree.bytes, fun g => ?_⟩
  · rw [htree.cp, hpass.windows, State.quiet_windows hr.1]
  · rw [htree.cp, hpass.pc]
  · have howner : s1.mem.ownerOf g = s.mem.ownerOf g := by rw [hheld.rest]; rfl
    have henrol : s1.mem.enrol = s.mem.enrol := by rw [hheld.rest]
    rw [hget, howner, henrol, hheld.path.2.2]

theorem exec_cenrol {n c : BitVec 6} {a : BitVec 4} {s s1 : State} {x : Nat} {gs : List Nat} (hr : warpReady (.cenrol n a c) s)
    (hq : s.cp.queue = []) (hn : namesNode s n x) (ha : (s.aReg a).toNat % 4096 = 0) (h1 : 1 ≤ (s.sReg c).toNat)
    (hc : (s.sReg c).toNat ≤ 1048576) (hg : s.granules (s.aReg a).toNat (s.sReg c).toNat = (s1, .ok gs)) :
    exec (.cenrol n a c) s = .next (s1.enrolAll s1.cw.ctx x gs).advance := by
  show execCenrol n a c s = _
  rw [execCenrol, scalarForm_of_warpReady _ rfl hr, State.atNode_of_namesNode _ hn (.inl rfl), afterStores_done _ hq hr.1,
    State.atRange_ok _ ha h1 hc hg]

theorem exec_cunrol {c : BitVec 6} {a : BitVec 4} {s s1 : State} {gs : List Nat} (hr : warpReady (.cunrol a c) s)
    (hq : s.cp.queue = []) (ha : (s.aReg a).toNat % 4096 = 0) (h1 : 1 ≤ (s.sReg c).toNat)
    (hc : (s.sReg c).toNat ≤ 1048576) (hg : s.granules (s.aReg a).toNat (s.sReg c).toNat = (s1, .ok gs)) :
    exec (.cunrol a c) s = .next (s1.enrolAll s1.cw.ctx 0 gs).advance := by
  show execCunrol a c s = _
  rw [execCunrol, scalarForm_of_warpReady _ rfl hr, afterStores_done _ hq hr.1, State.atRange_ok _ ha h1 hc hg]

/-! ### CSETTLE (R103, R113) -/

theorem pend_granuleSteps_zero {k : Nat} (l : List Nat) {s : State} (h : s.mem.pend.get k = 0) :
    (l.foldl State.granuleStep s).mem.pend.get k = 0 :=
  List.foldlRecOn (motive := fun u : State => u.mem.pend.get k = 0) _ _ h
    (fun u hu g _ => (pend_granuleStep u g k).elim (·.trans hu) (·.2))

/-- Steps of granules leave no mark at those of a context that has a tree. -/
theorem pend_granuleSteps_mem {g c : Nat} (l : List Nat) (s : State) (hmem : g ∈ l) (ho : s.mem.ownerOf g = c + 1)
    (ht : s.treeRuns c = true) : (l.foldl State.granuleStep s).mem.pend.get g = 0 := by
  induction l generalizing s with
  | nil => exact absurd hmem List.not_mem_nil
  | cons k l ih =>
    have htree := treeOnly_granuleStep s k
    rw [List.foldl_cons]
    rcases List.mem_cons.mp hmem with rfl | hmem
    · exact pend_granuleSteps_zero l (pend_granuleStep_self ho ht)
    · exact ih _ hmem (by rw [htree.owner, ho]) (by rw [htree.treeRuns, ht])

/-- A settle leaves no mark of a granule beneath its node, and sets none (R103). -/
theorem pend_settleNode {s : State} {c : Nat} (n : Nat) (ht : s.treeRuns c = true) (g : Nat) :
    (s.mem.ownerOf g = c + 1 → (s.mem.enrol.get g).toNat ∈ s.subtree c n → (s.settleNode c n).mem.pend.get g = 0)
      ∧ (s.mem.pend.get g = 0 → (s.settleNode c n).mem.pend.get g = 0) := by
  rw [settleNode_eq, settleLevels_mem]
  have hzero : s.mem.pend.get g = 0 → ((s.pendingUnder c (s.subtree c n)).foldl State.granuleStep s).mem.pend.get g = 0 :=
    pend_granuleSteps_zero _
  refine ⟨fun ho hsub => ?_, hzero⟩
  by_cases h0 : s.mem.pend.get g = 0
  · exact hzero h0
  · have hkey : g ∈ s.mem.pend.map (·.1) := by
      by_contra hno
      exact h0 (Cells.get_eq_zero (fun e he heq => hno (heq ▸ List.mem_map_of_mem he)))
    exact pend_granuleSteps_mem _ s (List.mem_filter.mpr ⟨hkey, by simp [ho, hsub]⟩) ho ht

theorem cw_putWarp_self (s : State) (w : Warp) : (s.putWarp s.cur.1 w).cw = w := by
  simp [State.cw, State.putWarp]

/-- An acquire that finds no release raises the interval by one (R134). -/
theorem interval_acquireP_none {s : State} (scope : Nat) (hp : s.path?.isSome = true) :
    (s.acquireP scope [none]).cw.interval = s.cw.interval + 1 := by
  have hnone : Records s (s.acquireNothing s.cur.1) := records_acquireStamps scope s.cur.1 [none] rfl hp
  have hinterval : (s.acquireNothing s.cur.1).cw.interval = s.cw.interval := by
    rw [State.acquireNothing, State.tally, State.find_cw hp, (stampsOnly_addCovlost ..).besideWarps.cw, cw_putWarp_self]
  have hbump := records_bumpInterval hnone.passes.path
  rw [hnone.passes.cur] at hbump
  have hdrop := records_dropL1 s.cur.1 scope hbump.passes.path
  have hwarps : (((s.acquireNothing s.cur.1).bumpInterval s.cur.1).dropL1 s.cur.1 scope).cw
      = ((s.acquireNothing s.cur.1).bumpInterval s.cur.1).cw := by
    unfold State.dropL1
    split
    · rfl
    · exact (besideWarps_dropHit ..).cw
  show ((((s.acquireNothing s.cur.1).bumpInterval s.cur.1).dropL1 s.cur.1 scope).modP Path.synced).cw.interval = _
  rw [State.cw_modP _ _ hdrop.passes.path, ← hinterval]
  show (((s.acquireNothing s.cur.1).bumpInterval s.cur.1).dropL1 s.cur.1 scope).cw.interval = _
  rw [hwarps]
  have hmod := State.cw_modW (s.acquireNothing s.cur.1) (fun w => { w with interval := w.interval + 1 }) hnone.passes.path
  rw [State.modW, hnone.passes.cur] at hmod
  rw [State.bumpInterval, hmod]

/-- Nodes and contexts' trees stand in an acquire. -/
theorem Passes.nodes {s u : State} (h : Passes s u) : u.node = s.node ∧ u.nodeLive = s.nodeLive := by
  have hnodes : u.nodes = s.nodes := by rw [h.kept.rest]
  have hruns : u.treeRuns = s.treeRuns := by
    funext c
    rw [State.treeRuns, State.treeRuns, h.kept.ctxs c]
  refine ⟨?_, ?_⟩
  · funext c n
    rw [State.node, State.node, hnodes]
  · funext c n
    rw [State.nodeLive, State.nodeLive, hnodes, hruns]

/-- A settle of a live node answers its count, as it then stands, and acquires (R103, R113). -/
theorem settleCount_live {s : State} {x : Nat} (hp : s.path?.isSome = true) (hlive : s.nodeLive s.cw.ctx x = true) :
    ∃ w, s.settleCount x = (w, (w.nodeN x).count) ∧ Records (s.settleNode s.cw.ctx x) w ∧ w.cw.interval = s.cw.interval + 1 := by
  have htree := treeOnly_settleNode s s.cw.ctx x
  have hpath : (s.settleNode s.cw.ctx x).path?.isSome = true := htree.path? ▸ hp
  have hrec := records_acquireP 2 [none] hpath
  have hctx : ((s.settleNode s.cw.ctx x).acquireP 2 [none]).cw.ctx = s.cw.ctx := by rw [hrec.passes.kept.warp, htree.cw]
  refine ⟨_, ?_, hrec, by rw [interval_acquireP_none 2 hpath, htree.cw]⟩
  unfold State.settleCount
  dsimp only
  rw [hctx, hrec.passes.nodes.2, nodeLive_settleNode _ _ hlive, if_pos rfl, State.nodeN, hctx]

theorem csettle_effect {d n : BitVec 6} {s : State} {x : Nat} (hr : warpReady (.csettle d n 0) s) (hq : s.cp.queue = [])
    (hn : namesNode s n x) (hruns : s.treeRuns s.cw.ctx = true) :
    ∃ u, Effect (.csettle d n 0) s u (s.cp.pc + 4) ∧ u.aN = s.aN ∧ u.qN = s.qN
      ∧ u.sN = setAt s.sN d.toNat (u.nodeN x).count ∧ u.cw.interval = s.cw.interval + 1 ∧ u.mem.bytes = s.mem.bytes
      ∧ (∀ g, s.mem.ownerOf g = s.cw.ctx + 1 → (s.mem.enrol.get g).toNat ∈ s.subtree s.cw.ctx x → u.mem.pend.get g = 0)
      ∧ ∀ g, s.mem.pend.get g = 0 → u.mem.pend.get g = 0 := by
  have hp := scalarReady_path hr.2.1
  have htree := treeOnly_settleNode s s.cw.ctx x
  obtain ⟨w, hw, hrec, hinterval⟩ := settleCount_live hp hn.2.2
  have hdone : (s.runsDone && s.performed) = true := by
    rw [State.runsDone, hq, State.performed_quiet hr.1]
    rfl
  have hexec : exec (.csettle d n 0) s = .next (w.setSN d.toNat (w.nodeN x).count).advance := by
    show execCsettle d n 0 s = _
    rw [execCsettle, scalarForm_of_warpReady _ rfl hr, State.atNode_of_namesNode _ hn (.inl rfl)]
    rw [if_pos hdone, hw, treeResult_now]
  obtain ⟨heff, hs, ha, hqr⟩ := Effect.of_setSN hexec hrec.passes.path
    (by rw [hrec.passes.windows, htree.cp, State.quiet_windows hr.1]) (by rw [hrec.passes.pc, htree.cp])
  obtain ⟨hsN, haN, hqN⟩ := htree.sameScalars.trans hrec.passes.sameScalars
  have hmem : (w.setSN d.toNat (w.nodeN x).count).mem = (s.settleNode s.cw.ctx x).mem := by rw [State.setSN_mem, hrec.mem]
  refine ⟨_, heff, ha.trans haN, hqr.trans hqN, ?_, ?_, ?_, ?_, ?_⟩
  · rw [hs, hsN, nodeN_setSN hrec.passes.path]
  · rw [((RegsOnly.refl hrec.passes.path).setSN _ _).warp]
    exact hinterval
  · rw [hmem, htree.bytes]
  · rw [hmem]
    exact fun g => (pend_settleNode x hruns g).1
  · rw [hmem]
    exact fun g => (pend_settleNode x hruns g).2

/-- Settles O33: a range's granules are enrolled one after another, and a settle takes a step of every marked granule beneath its
node before it reads the count. -/
theorem enrolmentAndSettling : Obligations.EnrolmentAndSettling := by
  unfold Obligations.EnrolmentAndSettling
  refine ⟨⟨fun n a c s s1 x gs hr hq hn ha h1 hc hg => ?_, fun a c s s1 gs hr hq ha h1 hc hg => ?_⟩, fun d n s x => csettle_effect⟩
  · exact enrol_effect hr hg (exec_cenrol hr hq hn ha h1 hc hg)
  · exact enrol_effect hr hg (exec_cunrol hr hq ha h1 hc hg)

end Sys2Proof.Machine

namespace Sys2Proof.Machine

/-! ## What the hub's accesses leave alone, and how many requests they give each link (R82, R279) -/

/-- A run of accesses through the hub: memory, translations, links and what the step holds of its requests. -/
structure ThroughHub (s t : State) : Prop where
  frags : ∀ c, (t.core c).frags = (s.core c).frags
  ctxs : ∀ c, t.ctx c = { s.ctx c with covlost := (t.ctx c).covlost }
  rest : t = { s with
    mem := t.mem, ctxs := t.ctxs, cores := t.cores, links := t.links, l2 := t.l2, hubTlb := t.hubTlb, pointers := t.pointers
    teams := t.teams, names := t.names, freeCtr := t.freeCtr, credit := t.credit, sent := t.sent, held := t.held }

theorem ThroughHub.refl (s : State) : ThroughHub s s := ⟨fun _ => rfl, fun _ => rfl, rfl⟩

theorem ThroughHub.trans {s t u : State} (h1 : ThroughHub s t) (h2 : ThroughHub t u) : ThroughHub s u :=
  ⟨fun c => (h2.frags c).trans (h1.frags c), fun c => by rw [h2.ctxs, h1.ctxs], by rw [h2.rest, h1.rest]⟩

theorem HeldOnly.throughHub {s t : State} (h : HeldOnly s t) : ThroughHub s t :=
  ⟨fun c => by rw [h.cores c], fun c => by rw [State.ctx, State.ctx, h.rest], by rw [h.rest]⟩

theorem StampsOnly.throughHub {s t : State} (h : StampsOnly s t) : ThroughHub s t :=
  ⟨fun c => by rw [State.core, State.core, h.cores], h.ctxs, by rw [h.rest]⟩

theorem stampsOnly_clearStamps (s : State) (ctx : Nat) (canvas : Bool) (a n : Nat) : StampsOnly s (s.clearStamps ctx canvas a n) :=
  StampsOnly.foldl (fun s k => by
    split
    · exact (stampsOnly_setStamp ..).trans (stampsOnly_addCovlost ..)
    · exact StampsOnly.refl s) _ s

theorem effect_hub {s : State} {r : Req} (h : r.core = none) : ∃ m, s.effect r = { s with mem := m } := by
  unfold State.effect
  rw [h]
  cases r.eff with
  | none => exact ⟨_, rfl⟩
  | store => exact ⟨_, rfl⟩
  | quiet => exact ⟨_, rfl⟩
  | atomic => cases r.amo <;> exact ⟨_, rfl⟩

/-- A request of the hub that enters changes memory and its own link. -/
theorem enter_hub {s : State} {r : Req} (h : r.core = none) : ∃ m, s.enter r
    = { s with mem := m, links := s.links.put (linkOf r.addr) ((s.link (linkOf r.addr)).push (s.entered r)) } := by
  obtain ⟨m, hm⟩ := effect_hub (s := s) h
  refine ⟨m, ?_⟩
  unfold State.enter
  rw [hm, h]
  rfl

theorem throughHub_enter {s : State} {r : Req} (h : r.core = none) : ThroughHub s (s.enter r) := by
  obtain ⟨m, hm⟩ := enter_hub (s := s) h
  rw [hm]
  exact ⟨fun _ => rfl, fun _ => rfl, rfl⟩

theorem link_enter {s : State} {r : Req} (h : r.core = none) (n : Nat) :
    (s.enter r).link n = if n = linkOf r.addr then (s.link n).push (s.entered r) else s.link n := by
  obtain ⟨m, hm⟩ := enter_hub (s := s) h
  rw [hm, State.link, Tab.getD_put]
  split
  · next hn => rw [hn]
  · rfl

theorem throughHub_name (s : State) (r : Req) : ThroughHub s (s.name r).1 := ⟨fun _ => rfl, fun _ => rfl, rfl⟩

theorem throughHub_postReq {s : State} {r : Req} (h : r.core = none) : ThroughHub s (s.postReq r) := by
  unfold State.postReq
  dsimp only
  split
  · exact (throughHub_name s r).trans (throughHub_enter h)
  · exact ⟨fun _ => rfl, fun _ => rfl, rfl⟩

theorem throughHub_postAll {rs : List Req} (h : ∀ r ∈ rs, r.core = none) (s : State) : ThroughHub s (rs.foldl State.postReq s) :=
  List.foldlRecOn (motive := ThroughHub s) rs _ (ThroughHub.refl s) (fun _ hu r hr => hu.trans (throughHub_postReq (h r hr)))

theorem throughHub_modMem (s : State) (f : Mem → Mem) : ThroughHub s (s.modMem f) := ⟨fun _ => rfl, fun _ => rfl, rfl⟩

theorem throughHub_dropPages (s : State) (space va n size : Nat) : ThroughHub s (dropPages s space va n size) :=
  ⟨(aside_dropPages s space va n size).frags, fun _ => rfl, rfl⟩

theorem throughHub_migrate (s : State) (c v f : Nat) : ThroughHub s (s.migrate c v f) := by
  rcases migrate_cases s c v f with ⟨h, -⟩ | ⟨lvl, e, at_, sp, -, h⟩ <;> rw [h]
  · exact ThroughHub.refl s
  · exact ((throughHub_postAll moveReads_core s).trans (throughHub_modMem _ _)).trans (throughHub_dropPages ..)

theorem throughHub_draw (s : State) : ThroughHub s s.draw.2 := ⟨fun _ => rfl, fun _ => rfl, rfl⟩

/-- A translation of the hub is one translation, or two about a migrate move, with the draw of its frame between them. -/
theorem hub?_cases (s : State) (c va : Nat) (want : Want) : HeldOnly s (s.hub? c va want).1
    ∨ ∃ t v f, HeldOnly s t ∧ ((s.hub? c va want).1 = t.draw.2 ∨ HeldOnly (t.draw.2.migrate c v f) (s.hub? c va want).1) := by
  have htr := translate_heldOnly s (hubAgent c) va want
  unfold State.hub?
  dsimp only
  split
  · unfold State.afterMove
    dsimp only
    split
    · exact .inr ⟨_, va / 65536, _, htr, .inr (translate_heldOnly ..)⟩
    · exact .inr ⟨_, 0, 0, htr, .inl rfl⟩
  · exact .inl htr

theorem throughHub_hub? (s : State) (c va : Nat) (want : Want) : ThroughHub s (s.hub? c va want).1 := by
  rcases hub?_cases s c va want with h | ⟨t, v, f, h, h' | h'⟩
  · exact h.throughHub
  · rw [h']
    exact h.throughHub.trans (throughHub_draw t)
  · exact ((h.throughHub.trans (throughHub_draw t)).trans (throughHub_migrate ..)).trans h'.throughHub

theorem throughHub_hold (s : State) (r : Req) : ThroughHub s (s.hold r) := by
  unfold State.hold
  split
  · exact ThroughHub.refl s
  · exact ⟨fun _ => rfl, fun _ => rfl, rfl⟩

theorem throughHub_ask {s : State} {r : Req} (h : r.core = none) : ThroughHub s (s.ask r).1 := by
  have hsent : ∀ (u : State) l, ThroughHub u { u with sent := l } := fun u l => ⟨fun _ => rfl, fun _ => rfl, rfl⟩
  have hcredit : ∀ (u : State) l, ThroughHub u { u with credit := l } := fun u l => ⟨fun _ => rfl, fun _ => rfl, rfl⟩
  have hin := ((throughHub_name s r).trans (throughHub_enter (r := (s.name r).2) h)).trans (hsent _ (s.sent ++ [(s.name r).1.entered (s.name r).2]))
  unfold State.ask
  split
  · split
    · exact throughHub_hold s r
    · exact hcredit s _
  · split
    · exact ThroughHub.refl s
    split
    · split
      · exact hin.trans (throughHub_hold _ r)
      · exact hin
    · exact throughHub_hold s r

theorem State.asks_cons (s : State) (r : Req) (rs : List Req) : (s.asks (r :: rs)).1 = ((s.ask r).1.asks rs).1 := by
  have hfirst : ∀ (rs : List Req) (u : State) (l m : List Req),
      (rs.foldl (fun (r : State × List Req) q => let x := r.1.ask q; (x.1, r.2 ++ [x.2])) (u, l)).1
        = (rs.foldl (fun (r : State × List Req) q => let x := r.1.ask q; (x.1, r.2 ++ [x.2])) (u, m)).1 := by
    intro rs
    induction rs with
    | nil => exact fun _ _ _ => rfl
    | cons q rs ih => exact fun u l m => ih _ _ _
  exact hfirst rs _ _ _

theorem throughHub_asks {rs : List Req} (h : ∀ r ∈ rs, r.core = none) (s : State) : ThroughHub s (s.asks rs).1 := by
  induction rs generalizing s with
  | nil => exact ThroughHub.refl s
  | cons r rs ih =>
    rw [State.asks_cons]
    exact (throughHub_ask (h r List.mem_cons_self)).trans (ih (fun q hq => h q (List.mem_cons_of_mem _ hq)) _)

theorem hubReadReqs_core {cls pa n : Nat} : ∀ r ∈ hubReadReqs cls pa n, r.core = none := by
  simp [hubReadReqs, readReq]

theorem throughHub_hubLoad (s : State) (cls pa n : Nat) : ThroughHub s (s.hubLoad cls pa n).1 := by
  unfold State.hubLoad
  split
  · exact throughHub_asks hubReadReqs_core s
  · exact ThroughHub.refl s

theorem throughHub_hubStore (s : State) (cls pa : Nat) (bs : List Byte) (posted : Bool) : ThroughHub s (s.hubStore cls pa bs posted) := by
  unfold State.hubStore
  split
  · split
    · exact throughHub_postAll maskedReqs_core s
    · exact throughHub_asks maskedReqs_core s
  · exact throughHub_modMem s _

/-! ### Links that take requests of the hub -/

/-- The step waits for nothing, and every link serves with at most k requests in its queue. -/
structure HubServed (k : Nat) (s : State) : Prop where
  held : s.held = none
  credit : s.credit = []
  links : LinksOpen s k

theorem HubServed.of_linksTake {s : State} (h : s.linksTake) : HubServed 128 s := ⟨h.1, h.2.1, h.2.2⟩

theorem HubServed.mono {j k : Nat} {s : State} (h : HubServed j s) (hk : j ≤ k) : HubServed k s :=
  ⟨h.held, h.credit, fun n => ⟨(h.links n).1, (h.links n).2.1, (h.links n).2.2.trans hk⟩⟩

theorem HubServed.of_links {k : Nat} {s t : State} (h : HubServed k s) (hlinks : t.links = s.links) (hheld : t.held = s.held)
    (hcredit : t.credit = s.credit) : HubServed k t :=
  ⟨hheld.trans h.held, hcredit.trans h.credit, h.links.of_stand (.of_links hlinks)⟩

theorem HubServed.heldOnly {k : Nat} {s t : State} (h : HubServed k s) (ht : HeldOnly s t) : HubServed k t :=
  h.of_links (by rw [ht.rest]) (by rw [ht.rest]) (by rw [ht.rest])

theorem HubServed.stampsOnly {k : Nat} {s t : State} (h : HubServed k s) (ht : StampsOnly s t) : HubServed k t :=
  h.of_links (by rw [ht.rest]) (by rw [ht.rest]) (by rw [ht.rest])

theorem link_postReq {k : Nat} {s : State} {r : Req} (h : LinksOpen s k) (hk : k < 192) (hr : r.core = none) (n : Nat) :
    (s.postReq r).link n = if n = linkOf r.addr then (s.link n).push ((s.name r).1.entered (s.name r).2) else s.link n := by
  unfold State.postReq
  rw [if_pos (h.takes hk _)]
  exact link_enter (s := (s.name r).1) (r := (s.name r).2) hr n

/-- Requests that no one waits for, each on a link of its own, give each link one at most. -/
theorem linksOpen_postAll {k : Nat} (hk : k + 1 < 192) {rs : List Req} (hcore : ∀ r ∈ rs, r.core = none)
    (hnodup : (rs.map (fun r => linkOf r.addr)).Nodup) (s : State) (h : LinksOpen s (k + 1))
    (hroom : ∀ r ∈ rs, (s.link (linkOf r.addr)).queue.length ≤ k) : LinksOpen (rs.foldl State.postReq s) (k + 1) := by
  induction rs generalizing s with
  | nil => exact h
  | cons r rs ih =>
    obtain ⟨hnew, hrest⟩ := List.nodup_cons.mp hnodup
    have hlink := link_postReq h hk (hcore r List.mem_cons_self)
    refine ih (fun q hq => hcore q (List.mem_cons_of_mem _ hq)) hrest _ (fun n => ?_) (fun q hq => ?_)
    · rw [hlink]
      split
      · next hn =>
        obtain ⟨hst, hwait, hlen⟩ := Link.push_calm (l := s.link n) ((s.name r).1.entered (s.name r).2) (h n).1
        have hroom := hroom r List.mem_cons_self
        rw [← hn] at hroom
        exact ⟨hst, hwait.trans (h n).2.1, by omega⟩
      · exact h n
    · rw [hlink, if_neg]
      · exact hroom q (List.mem_cons_of_mem _ hq)
      · exact fun heq => hnew (List.mem_map.mpr ⟨q, hq, heq⟩)

/-- The reads of a migrate move go to links of their own (R80, R23). -/
theorem linkOf_page (src i : Nat) (hsrc : src % 65536 = 0) (hi : i < 16) :
    linkOf (src + 4096 * i) = (src / 65536 % 2 * 16 + i) ^^^ linkOf (src / 131072 * 131072) := by
  have hhigh : ∀ hi k, natBits (src + 4096 * i) hi (17 + k) = natBits (src / 131072 * 131072) hi (17 + k) := by
    intro hi k
    unfold natBits
    rw [Nat.shiftRight_add, Nat.shiftRight_add, Nat.shiftRight_eq_div_pow _ 17, Nat.shiftRight_eq_div_pow _ 17]
    congr 2
    omega
  have hlow : natBits (src + 4096 * i) 16 12 = src / 65536 % 2 * 16 + i := by
    rw [natBits, Nat.shiftRight_eq_div_pow]
    omega
  have hzero : natBits (src / 131072 * 131072) 16 12 = 0 := by
    rw [natBits, Nat.shiftRight_eq_div_pow]
    omega
  unfold linkOf
  rw [hlow, hzero, hhigh 21 0, hhigh 26 5, hhigh 31 10, hhigh 36 15, hhigh 41 20, hhigh 43 25]
  simp only [Nat.xor_assoc, Nat.zero_xor]

theorem moveReads_links {src : Nat} (h : src % 65536 = 0) : ((moveReads src).map (fun r => linkOf r.addr)).Nodup := by
  rw [moveReads, List.map_map]
  refine (List.nodup_map_iff_inj_on List.nodup_range).mpr (fun i hi j hj heq => ?_)
  have haddr : ∀ k, (readReq 16 (src + 4096 * k) 15 none).addr = src + 4096 * k := by
    intro k
    show (src + 4096 * k) / 256 * 256 = _
    omega
  simp only [Function.comp_apply, haddr] at heq
  rw [linkOf_page src i h (List.mem_range.mp hi), linkOf_page src j h (List.mem_range.mp hj)] at heq
  have := Nat.xor_left_injective heq
  omega

theorem HubServed.moveReads {k : Nat} {s : State} (h : HubServed k s) (hk : k + 1 < 192) (e : DWord) :
    HubServed (k + 1) ((moveReads (pteBase e)).foldl State.postReq s) := by
  have hopen := linksOpen_postAll hk moveReads_core (moveReads_links (src := pteBase e) (Nat.mul_mod_left ..)) s
    (h.mono (Nat.le_succ k)).links (fun r _ => (h.links _).2.2)
  have hkeeps := List.foldlRecOn (motive := fun u : State => u.held = none ∧ u.credit = []) (Machine.moveReads (pteBase e)) State.postReq
    (b := s) ⟨h.held, h.credit⟩ (fun u hu r _ => by rwa [State.postReq_held, State.postReq_credit])
  exact ⟨hkeeps.1, hkeeps.2, hopen⟩

theorem HubServed.modMem_dropPages {k : Nat} {s : State} (h : HubServed k s) (f : Mem → Mem) (space va n size : Nat) :
    HubServed k (dropPages (s.modMem f) space va n size) := h.of_links rfl rfl rfl

theorem HubServed.migrate {k : Nat} {s : State} (h : HubServed k s) (hk : k + 1 < 192) (c v f : Nat) : HubServed (k + 1) (s.migrate c v f) := by
  rcases migrate_cases s c v f with ⟨hm, -⟩ | ⟨lvl, e, at_, sp, -, hm⟩ <;> rw [hm]
  · exact h.mono (Nat.le_succ k)
  · exact (h.moveReads hk e).modMem_dropPages _ sp _ 1 65536

theorem HubServed.hub? {k : Nat} {s : State} (h : HubServed k s) (hk : k + 1 < 192) (c va : Nat) (want : Want) :
    HubServed (k + 1) (s.hub? c va want).1 := by
  have hdraw : ∀ {j : Nat} {t : State}, HubServed j t → HubServed j t.draw.2 := fun ht => ht.of_links rfl rfl rfl
  rcases hub?_cases s c va want with ht | ⟨t, v, f, ht, hu | hu⟩
  · exact (h.heldOnly ht).mono (Nat.le_succ k)
  · rw [hu]
    exact (hdraw (h.heldOnly ht)).mono (Nat.le_succ k)
  · exact ((hdraw (h.heldOnly ht)).migrate hk c v f).heldOnly hu

/-- A link that serves takes a step's request at once. -/
theorem HubServed.ask {k : Nat} {s : State} (h : HubServed k s) (hk : k < 192) {r : Req} (hr : r.core = none) :
    HubServed (k + 1) (s.ask r).1 := by
  have hlink : ∀ n, ((s.name r).1.enter (s.name r).2).link n
      = if n = linkOf r.addr then (s.link n).push ((s.name r).1.entered (s.name r).2) else s.link n :=
    link_enter (s := (s.name r).1) (r := (s.name r).2) hr
  have hin : HubServed (k + 1) { (s.name r).1.enter (s.name r).2 with sent := s.sent ++ [(s.name r).1.entered (s.name r).2] } := by
    obtain ⟨m, hm⟩ := enter_hub (s := (s.name r).1) (r := (s.name r).2) hr
    refine ⟨by rw [hm]; exact h.held, by rw [hm]; exact h.credit, fun n => ?_⟩
    show (((s.name r).1.enter (s.name r).2).link n).st ≠ .retrain ∧ (((s.name r).1.enter (s.name r).2).link n).waiting = []
      ∧ (((s.name r).1.enter (s.name r).2).link n).queue.length ≤ k + 1
    obtain ⟨hst, hwait, hlen⟩ := h.links n
    rw [hlink]
    split
    · obtain ⟨hst', hwait', hlen'⟩ := Link.push_calm (l := s.link n) ((s.name r).1.entered (s.name r).2) hst
      exact ⟨hst', hwait'.trans hwait, by rw [hlen']; omega⟩
    · exact ⟨hst, hwait, by omega⟩
  unfold State.ask
  rw [h.credit, List.find?_nil]
  dsimp only
  rw [if_neg (by simp [h.held]), if_pos (h.links.takes hk _), if_neg]
  · exact hin
  · rw [State.stalls, beq_eq_false_iff_ne.mpr (h.links _).1]
    simp

theorem HubServed.asks {k : Nat} {s : State} (h : HubServed k s) {rs : List Req} (hk : k + rs.length ≤ 192) (hr : ∀ r ∈ rs, r.core = none) :
    HubServed (k + rs.length) (s.asks rs).1 := by
  induction rs generalizing s k with
  | nil => exact h
  | cons r rs ih =>
    rw [List.length_cons] at hk ⊢
    rw [State.asks_cons, show k + (rs.length + 1) = k + 1 + rs.length by omega]
    exact ih (h.ask (by omega) (hr r List.mem_cons_self)) (by omega) (fun q hq => hr q (List.mem_cons_of_mem _ hq))

/-- A read of few bytes makes two requests at most, and a write of few bytes too (log 112). -/
theorem hubReadReqs_length {cls pa n : Nat} (hn : n ≤ 256) : (hubReadReqs cls pa n).length ≤ 2 := by
  rw [hubReadReqs, List.length_map, List.length_range]
  omega

theorem maskedReqs_length {cls pa : Nat} {bs : List Byte} {eff : OnEntry} {core : Option Nat} (hn : bs.length ≤ 128) :
    (maskedReqs cls pa bs eff core).length ≤ 2 := by
  rw [maskedReqs, List.length_map, List.length_range]
  omega

theorem HubServed.hubLoad {k n : Nat} {s : State} (h : HubServed k s) (hk : k + 2 ≤ 192) (hn : n ≤ 256) (cls pa : Nat) :
    HubServed (k + 2) (s.hubLoad cls pa n).1 := by
  have hlen := hubReadReqs_length (cls := cls) (pa := pa) hn
  unfold State.hubLoad
  split
  · exact (h.asks (by omega) hubReadReqs_core).mono (by omega)
  · exact h.mono (by omega)

theorem HubServed.hubStore {k : Nat} {s : State} (h : HubServed k s) (hk : k + 2 ≤ 192) {bs : List Byte} (hn : bs.length ≤ 128) (cls pa : Nat) :
    HubServed (k + 2) (s.hubStore cls pa bs) := by
  have hlen : (hubWriteReqs cls pa bs).length ≤ 2 := maskedReqs_length hn
  unfold State.hubStore
  split
  · rw [if_neg Bool.false_ne_true]
    exact (h.asks (rs := hubWriteReqs cls pa bs) (by omega) maskedReqs_core).mono (by omega)
  · exact HubServed.mono (j := k) (h.of_links rfl rfl rfl) (by omega)

/-! ### Whole reads and writes of the hub -/

theorem throughHub_hubWrite (s : State) (cls ctx va n x : Nat) (posted : Bool) : ThroughHub s (s.hubWrite cls ctx va n x posted).1 := by
  have htr := throughHub_hub? s ctx va .write
  unfold State.hubWrite
  split
  · next t hit heq =>
    rw [heq] at htr
    exact (htr.trans (throughHub_hubStore ..)).trans (stampsOnly_clearStamps ..).throughHub
  · next t e heq =>
    rwa [heq] at htr

theorem HubServed.hubWrite {k n : Nat} {s : State} (h : HubServed k s) (hk : k + 3 ≤ 192) (hn : n ≤ 128) (cls ctx va x : Nat) :
    HubServed (k + 3) (s.hubWrite cls ctx va n x).1 := by
  have htr := h.hub? (by omega) ctx va .write
  unfold State.hubWrite
  split
  · next t hit heq =>
    rw [heq] at htr
    exact (htr.hubStore (by omega) (by rwa [length_bytesOf]) cls hit.pa).stampsOnly (stampsOnly_clearStamps ..)
  · next t e heq =>
    rw [heq] at htr
    exact htr.mono (by omega)

theorem throughHub_hubRead (s : State) (cls ctx va n : Nat) : ThroughHub s (s.hubRead cls ctx va n).1 := by
  have htr := throughHub_hub? s ctx va .read
  unfold State.hubRead
  split
  · next t hit heq =>
    rw [heq] at htr
    split <;> exact htr.trans (throughHub_hubLoad ..)
  · next t e heq =>
    rwa [heq] at htr

theorem HubServed.hubRead {k n : Nat} {s : State} (h : HubServed k s) (hk : k + 3 ≤ 192) (hn : n ≤ 256) (cls ctx va : Nat) :
    HubServed (k + 3) (s.hubRead cls ctx va n).1 := by
  have htr := h.hub? (by omega) ctx va .read
  unfold State.hubRead
  split
  · next t hit heq =>
    rw [heq] at htr
    split <;> exact htr.hubLoad (by omega) hn cls hit.pa
  · next t e heq =>
    rw [heq] at htr
    exact htr.mono (by omega)

end Sys2Proof.Machine

namespace Sys2Proof.Machine

/-! ## Context faults: what a failed write of the module leaves (R279, R355, R356) -/

/-- A teardown's steps begin no wait for a link and leave the register sets and, but for the context's own, the systems. -/
structure Undisturbed (s t : State) : Prop where
  held : t.held = s.held
  sets : t.hub.sets = s.hub.sets
  systems : t.systems = s.systems

theorem Undisturbed.refl (s : State) : Undisturbed s s := ⟨rfl, rfl, rfl⟩

theorem Undisturbed.trans {s t u : State} (h1 : Undisturbed s t) (h2 : Undisturbed t u) : Undisturbed s u :=
  ⟨h2.held.trans h1.held, h2.sets.trans h1.sets, h2.systems.trans h1.systems⟩

theorem Undisturbed.foldl {α : Type} {f : State → α → State} (h : ∀ s x, Undisturbed s (f s x)) (l : List α) (s : State) :
    Undisturbed s (l.foldl f s) :=
  List.foldlRecOn (motive := Undisturbed s) l f (Undisturbed.refl s) (fun _ hu x _ => hu.trans (h _ x))

theorem ThroughHub.undisturbed {s t : State} (h : ThroughHub s t) (hheld : t.held = s.held) : Undisturbed s t :=
  ⟨hheld, by rw [h.rest], by rw [h.rest]⟩

theorem undisturbed_releaseTeam (s : State) (t : Nat) : Undisturbed s (s.releaseTeam t) := by
  unfold State.releaseTeam
  split
  · exact Undisturbed.refl s
  · exact ⟨rfl, rfl, rfl⟩

theorem undisturbed_dropTeams (s : State) (c : Nat) : Undisturbed s (s.dropTeams c) :=
  (Undisturbed.foldl undisturbed_releaseTeam (ctxTeams s c) s).trans ⟨rfl, rfl, rfl⟩

theorem undisturbed_postAll (rs : List Req) (s : State) : Undisturbed s (rs.foldl State.postReq s) :=
  Undisturbed.foldl (fun s r => ⟨State.postReq_held s r, by rw [State.postReq_hub], State.postReq_systems s r⟩) rs s

theorem undisturbed_clearStamps (s : State) (c : Nat) (canvas : Bool) (a n : Nat) : Undisturbed s (s.clearStamps c canvas a n) := by
  have h := stampsOnly_clearStamps s c canvas a n
  exact h.throughHub.undisturbed (by rw [h.rest])

/-- A posted write waits for nothing (R398). -/
theorem undisturbed_hubStore_posted (s : State) (cls pa : Nat) (bs : List Byte) : Undisturbed s (s.hubStore cls pa bs true) := by
  unfold State.hubStore
  split
  · exact undisturbed_postAll _ s
  · exact ⟨rfl, rfl, rfl⟩

theorem undisturbed_postDone (s : State) (c q : Nat) (e : Entry) (x : BitVec 8) : Undisturbed s (s.postDone c q e x) := by
  unfold State.postDone
  dsimp only
  split
  · exact Undisturbed.refl s
  · have htr := (throughHub_hub? s c (bitsN (e.words.getD 7 0) 63 3 * 8) .write).undisturbed (aside_hub? ..).held
    split
    · next t hit heq =>
      rw [heq] at htr
      exact (htr.trans (undisturbed_hubStore_posted ..)).trans (undisturbed_clearStamps ..)
    · next t err heq =>
      rwa [heq] at htr

/-- The context is torn down and its systems are gone; the register sets stand (R356). -/
structure Faulted (c : Nat) (s t : State) : Prop where
  torn : (t.ctx c).st = .tornDown
  systems : t.systems = s.systems.filter (fun y => y.2.ctx ≠ c)
  sets : t.hub.sets = s.hub.sets

theorem dropPu_ctxs (s : State) (c : Nat) : (s.dropPu c).ctxs = s.ctxs := by
  unfold State.dropPu
  split
  · split <;> rfl
  · rfl

theorem undisturbed_dropPu (s : State) (c : Nat) : Undisturbed s (s.dropPu c) := by
  unfold State.dropPu
  split
  · split
    · exact ⟨rfl, rfl, rfl⟩
    · exact Undisturbed.refl s
  · exact Undisturbed.refl s

theorem teardown_faulted (s : State) (c : Nat) : Faulted c s (s.teardown c true) ∧ (s.teardown c true).held = s.held := by
  have hteams := undisturbed_dropTeams (dropSpace s (xdSpace (s.ctx c).xdesc)) c
  obtain ⟨u, hu⟩ : ∃ u, u = ((dropSpace s (xdSpace (s.ctx c).xdesc)).dropTeams c).dropStanding c := ⟨_, rfl⟩
  have hheld : u.held = s.held := by rw [hu]; exact hteams.held
  have hsets : u.hub.sets = s.hub.sets := by rw [hu]; exact hteams.sets
  have hsystems : u.systems = s.systems.filter (fun y => y.2.ctx ≠ c) := by
    rw [hu]
    show List.filter _ ((dropSpace s (xdSpace (s.ctx c).xdesc)).dropTeams c).systems = _
    rw [hteams.systems]
    rfl
  unfold State.teardown
  dsimp only
  rw [← hu, if_pos rfl]
  generalize hv : (queueKeys u c).foldl _ u = v
  have hqueues : Undisturbed u v := by
    rw [← hv]
    refine Undisturbed.foldl (fun x q => ?_) _ u
    split
    · exact (undisturbed_postDone ..).trans ⟨rfl, rfl, rfl⟩
    · exact Undisturbed.refl x
  have hlast := undisturbed_dropPu (({ v with images := v.images.filter (fun i => i.1 ≠ (v.ctx c).image || i.2.source.isNone) } : State).modCtx c
    (fun c => { c with cfg := putBit c.cfg 62 false, st := .tornDown })) c
  refine ⟨⟨?_, ?_, ?_⟩, ?_⟩
  · show ((State.dropPu _ c).ctx c).st = _
    rw [State.ctx, dropPu_ctxs]
    exact congrArg Ctx.st ((ctx_modCtx ..).trans (if_pos rfl))
  · exact (hlast.systems.trans hqueues.systems).trans hsystems
  · exact (hlast.sets.trans hqueues.sets).trans hsets
  · exact (hlast.held.trans hqueues.held).trans hheld

/-- A context fault does nothing to a context that is torn down already (R355). -/
theorem contextFault_cases (s : State) (c : Nat) (a b : BitVec 8) :
    ((s.ctx c).st = .tornDown ∧ s.contextFault c a b = s)
      ∨ (Faulted c s (s.contextFault c a b) ∧ (s.contextFault c a b).held = s.held) := by
  unfold State.contextFault
  split
  · next h => exact .inl ⟨h, rfl⟩
  · obtain ⟨⟨htorn, hsystems, hsets⟩, hheld⟩ := teardown_faulted (s.modCtx c (fun x => { x with cfcause := a, ecause := b })) c
    exact .inr ⟨⟨htorn, hsystems, hsets⟩, hheld⟩

theorem contextFault_torn (s : State) (c : Nat) (a b : BitVec 8) : ((s.contextFault c a b).ctx c).st = .tornDown := by
  rcases contextFault_cases s c a b with ⟨h, he⟩ | ⟨h, -⟩
  · rwa [he]
  · exact h.torn

theorem contextFault_held (s : State) (c : Nat) (a b : BitVec 8) : (s.contextFault c a b).held = s.held := by
  rcases contextFault_cases s c a b with ⟨-, he⟩ | ⟨-, h⟩
  · rw [he]
  · exact h

/-- What an access of the module for a context's system leaves: what accesses through the hub may change, or the context torn
down. Links that serve give it room for three requests more. -/
def Accessed (c : Nat) (s t : State) : Prop :=
  (ThroughHub s t ∧ ∀ k, k + 3 ≤ 192 → HubServed k s → HubServed (k + 3) t)
    ∨ (Faulted c s t ∧ ∀ k, k + 3 ≤ 192 → HubServed k s → t.held = none)

theorem accessed_contextFault {s t : State} (h : ThroughHub s t) (hserved : ∀ k, k + 3 ≤ 192 → HubServed k s → HubServed (k + 3) t)
    (c : Nat) (a b : BitVec 8) : Accessed c s (t.contextFault c a b) := by
  rcases contextFault_cases t c a b with ⟨-, he⟩ | ⟨⟨htorn, hsystems, hsets⟩, hheld⟩
  · rw [he]
    exact .inl ⟨h, hserved⟩
  · refine .inr ⟨⟨htorn, ?_, ?_⟩, fun k hk hs => hheld.trans (hserved k hk hs).held⟩
    · rw [hsystems, h.rest]
    · rw [hsets, h.rest]

theorem accessed_rdWriteOf (s : State) (y : Sys) (va x : Nat) : Accessed y.ctx s (s.rdWriteOf y va x) := by
  have htr := throughHub_hubWrite s (s.queueClass y.ctx y.queue) y.ctx va 8 x false
  have hserved : ∀ k, k + 3 ≤ 192 → HubServed k s → HubServed (k + 3) (s.hubWrite (s.queueClass y.ctx y.queue) y.ctx va 8 x).1 :=
    fun k hk hs => hs.hubWrite hk (by omega) ..
  unfold State.rdWriteOf
  dsimp only
  split
  · exact .inl ⟨htr, hserved⟩
  · exact accessed_contextFault htr hserved ..

end Sys2Proof.Machine

namespace Sys2Proof.Machine

/-! ## Steps of the Residual Dispatcher on one system (R279, R280, R285, R287, R290) -/

/-- What the dispatcher's steps on a system leave alone: what is in flight, the register sets, and the reaps that stand at plots. -/
structure RdKept (s t : State) : Prop where
  raises : t.raises = s.raises
  watchEvents : t.watchEvents = s.watchEvents
  sets : t.hub.sets = s.hub.sets
  reapsAt : t.reapsAt = s.reapsAt

theorem RdKept.refl (s : State) : RdKept s s := ⟨rfl, rfl, rfl, rfl⟩

theorem RdKept.trans {s t u : State} (h1 : RdKept s t) (h2 : RdKept t u) : RdKept s u :=
  ⟨h2.raises.trans h1.raises, h2.watchEvents.trans h1.watchEvents, h2.sets.trans h1.sets, h2.reapsAt.trans h1.reapsAt⟩

theorem reapLive_congr {s t : State} (hwarps : t.warps = s.warps) (hfrags : ∀ c, (t.core c).frags = (s.core c).frags)
    (hqueues : ∀ c, (t.ctx c).queues = (s.ctx c).queues) : t.reapLive = s.reapLive := by
  funext id r
  unfold State.reapLive State.pendsOf
  simp only [hwarps, hfrags, hqueues]

theorem reapsAt_congr {s t : State} (hreaps : t.reaps = s.reaps) (hlive : t.reapLive = s.reapLive) : t.reapsAt = s.reapsAt := by
  funext n i
  rw [State.reapsAt, State.reapsAt, hreaps, hlive]

theorem ThroughHub.rdKept {s t : State} (h : ThroughHub s t) : RdKept s t :=
  ⟨by rw [h.rest], by rw [h.rest], by rw [h.rest],
    reapsAt_congr (by rw [h.rest]) (reapLive_congr (by rw [h.rest]) h.frags (fun c => by rw [h.ctxs]))⟩

theorem rdKept_modSys (s : State) (n : Nat) (f : Sys → Sys) : RdKept s (s.modSys n f) :=
  ⟨State.modSys_raises .., State.modSys_watchEvents .., by rw [State.modSys_hub],
    reapsAt_congr (State.modSys_reaps ..) (reapLive_congr (State.modSys_warps ..) (fun c => by rw [State.core, State.core, State.modSys_cores])
      (fun c => by rw [State.ctx, State.ctx, State.modSys_ctxs]))⟩

theorem rdKept_rdSeq (s : State) (m : Cells 64) : RdKept s { s with hub := { s.hub with rdSeq := m } } :=
  ⟨rfl, rfl, rfl, reapsAt_congr rfl (reapLive_congr rfl (fun _ => rfl) (fun _ => rfl))⟩

/-- The bound of a reap says nothing of where it stands. -/
theorem rdKept_noteBound (s : State) (n : Nat) : RdKept s (s.noteBound n) := by
  unfold State.noteBound
  split
  · refine ⟨rfl, rfl, rfl, ?_⟩
    have hlive : ∀ (m : Nat) (r : Nat × Reap) (b : BitVec 16), s.reapLive r.1 (if r.2.sys = m then { r.2 with bound := b } else r.2)
        = s.reapLive r.1 r.2 := by
      intro m r b
      split <;> rfl
    funext m i
    unfold State.reapsAt
    rw [List.filter_map, List.map_map]
    congr 1
    · funext r
      dsimp only [Function.comp_apply]
      split <;> rfl
    · refine List.filter_congr (fun r _ => ?_)
      dsimp only [Function.comp_apply]
      split <;> rfl
  · exact RdKept.refl s

/-! ### A system's record on the way -/

theorem find_modSys {s : State} {n : Nat} {y : Sys} (h : s.systems.find n = some y) (f : Sys → Sys) :
    (s.modSys n f).systems = s.systems.put n (f y) := by
  rw [State.modSys, h]

theorem modSys_none {s : State} {n : Nat} (h : s.systems.find n = none) (f : Sys → Sys) : s.modSys n f = s := by
  rw [State.modSys, h]

theorem Tab.mem_ins {α : Type} {m : Tab α} {k : Nat} {x : α} {e : Nat × α} (h : e ∈ Tab.ins m k x) : e = (k, x) ∨ e ∈ m := by
  induction m with
  | nil => exact .inl (List.mem_singleton.mp h)
  | cons a m ih =>
    rw [Tab.ins] at h
    split at h
    · exact List.mem_cons.mp h
    · rcases List.mem_cons.mp h with rfl | h
      · exact .inr List.mem_cons_self
      · exact (ih h).imp_right (List.mem_cons_of_mem _)

/-- A table holds one record at most of a key that has been put in. -/
theorem Tab.mem_put {α : Type} {m : Tab α} {k : Nat} {x : α} {e : Nat × α} (h : e ∈ m.put k x) : e = (k, x) ∨ (e ∈ m ∧ e.1 ≠ k) := by
  rcases Tab.mem_ins h with h | h
  · exact .inl h
  · obtain ⟨hm, hk⟩ := List.mem_filter.mp h
    exact .inr ⟨hm, by simpa using hk⟩

theorem Tab.find_eq_none {α : Type} {m : Tab α} {k : Nat} (h : ∀ e ∈ m, e.1 ≠ k) : m.find k = none := by
  induction m with
  | nil => rfl
  | cons a m ih =>
    rw [Tab.find, if_neg (h a List.mem_cons_self)]
    exact ih (fun e he => h e (List.mem_cons_of_mem _ he))

/-- The system's record is z, and the links serve the steps that follow. -/
structure RdFound (via : Prop) (k n c : Nat) (s0 : State) (z : Sys) (s : State) : Prop where
  kept : RdKept s0 s
  find : s.systems.find n = some z
  ctx : z.ctx = c
  served : via → HubServed k s

/-- The record is the only one of its number too. -/
structure RdLive (via : Prop) (k n c : Nat) (s0 : State) (z : Sys) (s : State) : Prop extends RdFound via k n c s0 z s where
  only : ∀ e ∈ s.systems, e.1 = n → e.2 = z

/-- A write for the system has failed: its context is torn down and the system is gone (R279, R356). -/
structure RdTorn (via : Prop) (n c : Nat) (s0 : State) (s : State) : Prop where
  torn : (s.ctx c).st = .tornDown
  gone : s.systems.find n = none
  sets : s.hub.sets = s0.hub.sets
  held : via → s.held = none

def RdState (via : Prop) (k n c : Nat) (s0 : State) (z : Sys) (s : State) : Prop := RdLive via k n c s0 z s ∨ RdTorn via n c s0 s

/-- A state before the first change of the system's record, from which it is the only one of its number. -/
def RdBegun (via : Prop) (k n c : Nat) (s0 : State) (z : Sys) (s : State) : Prop := RdFound via k n c s0 z s ∨ RdTorn via n c s0 s

section
variable {via : Prop} {j k n c i : Nat} {s0 s : State} {z : Sys}

theorem RdState.begun (h : RdState via k n c s0 z s) : RdBegun via k n c s0 z s := h.imp_left (·.toRdFound)

theorem RdBegun.of_find {y : Sys} (hfind : s.systems.find n = some y) (hserved : via → HubServed k s) : RdBegun via k n y.ctx s y s :=
  .inl ⟨RdKept.refl s, hfind, rfl, hserved⟩

theorem RdState.held (h : RdState via k n c s0 z s) (hv : via) : s.held = none :=
  h.elim (fun h => (h.served hv).held) (fun h => h.held hv)

theorem RdState.sets (h : RdState via k n c s0 z s) : s.hub.sets = s0.hub.sets := h.elim (fun h => h.kept.sets) (·.sets)

theorem RdState.live (h : RdState via k n c s0 z s) (hs : s.stands c) : RdLive via k n c s0 z s :=
  h.resolve_right (fun h => hs h.torn)

theorem RdState.mono (h : RdState via j n c s0 z s) (hk : j ≤ k) : RdState via k n c s0 z s :=
  h.imp_left (fun h => { h with served := fun hv => (h.served hv).mono hk })

/-- A step that does nothing where the system is gone. -/
theorem RdBegun.step {k' : Nat} {z' : Sys} {f : State → State} (h : RdBegun via k n c s0 z s)
    (hfound : RdFound via k n c s0 z s → RdState via k' n c s0 z' (f s)) (hgone : s.systems.find n = none → f s = s) :
    RdState via k' n c s0 z' (f s) :=
  h.elim hfound (fun h => .inr (by rwa [hgone h.gone]))

theorem RdState.step {k' : Nat} {z' : Sys} {f : State → State} (h : RdState via k n c s0 z s)
    (hlive : RdLive via k n c s0 z s → RdState via k' n c s0 z' (f s)) (hgone : s.systems.find n = none → f s = s) :
    RdState via k' n c s0 z' (f s) :=
  h.elim hlive (fun h => .inr (by rwa [hgone h.gone]))

theorem HubServed.modSys (h : HubServed k s) (f : Sys → Sys) : HubServed k (s.modSys n f) :=
  h.of_links (State.modSys_links ..) (State.modSys_held ..) (State.modSys_credit ..)

/-- The first change of a system's record makes it the only one of its number. -/
theorem rdLive_modSys {y : Sys} (hfind : s.systems.find n = some y) (hserved : via → HubServed k s) {f : Sys → Sys} (hf : (f y).ctx = y.ctx) :
    RdLive via k n y.ctx s (f y) (s.modSys n f) where
  kept := rdKept_modSys s n f
  find := by rw [find_modSys hfind, Tab.find_put, if_pos rfl]
  only := by
    rw [find_modSys hfind]
    intro e he hn
    rcases Tab.mem_put he with rfl | ⟨-, hne⟩
    · rfl
    · exact absurd hn hne
  ctx := hf
  served := fun hv => (hserved hv).modSys f

theorem RdFound.modSys (h : RdFound via k n c s0 z s) {f : Sys → Sys} (hf : (f z).ctx = z.ctx) : RdLive via k n c s0 (f z) (s.modSys n f) := by
  have hnew := rdLive_modSys h.find h.served hf
  exact { hnew with kept := h.kept.trans hnew.kept, ctx := hf.trans h.ctx }

theorem RdBegun.modSys {z' : Sys} (h : RdBegun via k n c s0 z s) {f : Sys → Sys} (hf : f z = z') (hc : z'.ctx = z.ctx) :
    RdState via k n c s0 z' (s.modSys n f) := by
  subst hf
  exact h.step (f := fun s => s.modSys n f) (fun h => .inl (h.modSys hc)) (fun h => modSys_none h f)

theorem RdState.modSys {z' : Sys} (h : RdState via k n c s0 z s) {f : Sys → Sys} (hf : f z = z') (hc : z'.ctx = z.ctx) :
    RdState via k n c s0 z' (s.modSys n f) := h.begun.modSys hf hc

/-- A plot's record changes to that of a function. -/
def Sys.withPlot (y : Sys) (i : Nat) (p : Plot) : Sys := { y with plots := y.plots.put i p }

theorem RdBegun.modPlot (h : RdBegun via k n c s0 z s) {p : Plot} (hp : z.plots.find i = some p) (f : Plot → Plot) :
    RdState via k n c s0 (z.withPlot i (f p)) (s.modPlot n i f) := by
  refine h.modSys ?_ rfl
  rw [hp]
  rfl

theorem RdState.modPlot (h : RdState via k n c s0 z s) {p : Plot} (hp : z.plots.find i = some p) (f : Plot → Plot) :
    RdState via k n c s0 (z.withPlot i (f p)) (s.modPlot n i f) := h.begun.modPlot hp f

theorem plot?_of_found (h : RdFound via k n c s0 z s) (i : Nat) : s.plot? n i = z.plots.find i := by
  rw [State.plot?, h.find]
  rfl

/-- A step beside the system's record. -/
theorem RdState.beside {t : State} (h : RdState via k n c s0 z s) (hkept : RdKept s t) (hsystems : t.systems = s.systems) (hctxs : t.ctxs = s.ctxs)
    (hlinks : t.links = s.links) (hheld : t.held = s.held) (hcredit : t.credit = s.credit) : RdState via k n c s0 z t := by
  refine h.imp (fun h => ?_) (fun h => ?_)
  · exact { kept := h.kept.trans hkept, find := by rw [hsystems, h.find], only := by rw [hsystems]; exact h.only, ctx := h.ctx
            served := fun hv => (h.served hv).of_links hlinks hheld hcredit }
  · exact { torn := by rw [State.ctx, hctxs]; exact h.torn, gone := by rw [hsystems, h.gone], sets := hkept.sets.trans h.sets
            held := fun hv => hheld.trans (h.held hv) }

/-- A die's raise sequence advances (R290). -/
theorem RdState.rdSeq (h : RdState via k n c s0 z s) (m : Cells 64) :
    RdState via k n c s0 z { s with hub := { s.hub with rdSeq := m } } :=
  h.beside (rdKept_rdSeq s m) rfl rfl rfl rfl rfl

theorem RdState.noteBound (h : RdState via k n c s0 z s) : RdState via k n c s0 z (s.noteBound n) := by
  refine h.beside (rdKept_noteBound s n) ?_ ?_ ?_ ?_ ?_ <;> (unfold State.noteBound; split <;> rfl)

/-- An access of the module for the system, which fails or goes through the hub. -/
theorem RdLive.accessed {t : State} (h : RdLive via k n c s0 z s) (hk : k + 3 ≤ 192) (ha : Accessed c s t) : RdState via (k + 3) n c s0 z t := by
  rcases ha with ⟨htr, hserved⟩ | ⟨⟨htorn, hsystems, hsets⟩, hheld⟩
  · have hsys : t.systems = s.systems := by rw [htr.rest]
    exact .inl { kept := h.kept.trans htr.rdKept, find := by rw [hsys, h.find], only := by rw [hsys]; exact h.only, ctx := h.ctx
                 served := fun hv => hserved k hk (h.served hv) }
  · refine .inr { torn := htorn, gone := ?_, sets := hsets.trans h.kept.sets, held := fun hv => hheld k hk (h.served hv) }
    rw [hsystems]
    refine Tab.find_eq_none (fun e he hn => ?_)
    obtain ⟨hm, hc⟩ := List.mem_filter.mp he
    exact (of_decide_eq_true hc) (by rw [h.only e hm hn, h.ctx])

theorem RdState.rdWrite (h : RdState via k n c s0 z s) (hk : k + 3 ≤ 192) (va x : Nat) : RdState via (k + 3) n c s0 z (s.rdWrite n va x) := by
  refine h.step (f := fun s => s.rdWrite n va x) (fun h => ?_) (fun h => by rw [State.rdWrite, h])
  rw [State.rdWrite, h.find]
  exact h.accessed hk (h.ctx ▸ accessed_rdWriteOf s z va x)

theorem RdState.sscbWrite (h : RdState via k n c s0 z s) (hk : k + 3 ≤ 192) (i : Nat) (x : DWord) :
    RdState via (k + 3) n c s0 z (s.sscbWrite n i x) := by
  refine h.step (f := fun s => s.sscbWrite n i x) (fun h' => ?_) (fun h => by rw [State.sscbWrite, h])
  rw [State.sscbWrite, h'.find]
  exact h.rdWrite hk _ _

/-- A status word that changes is written (R280). -/
theorem RdState.setStatus (h : RdState via k n c s0 z s) (hk : k + 3 ≤ 192) (f : DWord → DWord) :
    RdState via (if f z.status = z.status then k else k + 3) n c s0 { z with status := f z.status } (s.setStatus n f) := by
  refine h.step (f := fun s => s.setStatus n f) (fun h' => ?_) (fun h => by rw [State.setStatus, h])
  rw [State.setStatus, h'.find]
  dsimp only
  split
  · next heq =>
    rw [heq]
    exact h
  · exact (h.modSys (f := fun y => { y with status := f y.status }) rfl rfl).sscbWrite hk 6 _

end

end Sys2Proof.Machine

namespace Sys2Proof.Machine

/-! ## Raises, watch events and tasks that complete (R105, R285, R287, R290) -/

/-- Beside a plot, a step on a system keeps its threshold, its count of watch events and its plots. -/
structure Sys.Beside (i : Nat) (z z' : Sys) : Prop where
  eps : z'.eps = z.eps
  nwev : z'.nwev = z.nwev
  plots : ∀ j, j ≠ i → z'.plots.find j = z.plots.find j

theorem Sys.Beside.trans {i : Nat} {x y z : Sys} (h1 : x.Beside i y) (h2 : y.Beside i z) : x.Beside i z :=
  ⟨h2.eps.trans h1.eps, h2.nwev.trans h1.nwev, fun j hj => (h2.plots j hj).trans (h1.plots j hj)⟩

theorem Sys.beside_withPlot (z : Sys) (i : Nat) (p : Plot) : z.Beside i (z.withPlot i p) :=
  ⟨rfl, rfl, fun j hj => by rw [Sys.withPlot, Tab.find_put, if_neg hj]⟩

theorem Sys.find_withPlot (z : Sys) (i : Nat) (p : Plot) : (z.withPlot i p).plots.find i = some p := by
  rw [Sys.withPlot, Tab.find_put, if_pos rfl]

theorem toNat_kmax (a b : BitVec 16) : (kmax a b).toNat = max a.toNat b.toNat := by
  unfold kmax
  split
  · next h => exact (max_eq_right (BitVec.lt_def.mp h).le).symm
  · next h => exact (max_eq_left (not_lt.mp (fun h' => h (BitVec.lt_def.mpr h')))).symm

theorem toNat_raisedKey (key k : BitVec 16) (sum : Bool) :
    (raisedKey key k sum).toNat = if sum then min 65535 (key.toNat + k.toNat) else max key.toNat k.toNat := by
  cases sum with
  | false => exact toNat_kmax key k
  | true =>
    show (BitVec.ofNat 16 (min 0xFFFF (key.toNat + k.toNat))).toNat = _
    rw [BitVec.toNat_ofNat, Nat.mod_eq_of_lt (by omega)]
    rfl

/-- Room a step has left, where the first plot that becomes PENDING may yet clear SET (R290). -/
def rdBudget (k : Nat) (z : Sys) : Nat := if bitB z.status 62 then k else k + 3

theorem le_rdBudget (k : Nat) (z : Sys) : k ≤ rdBudget k z := by
  unfold rdBudget
  split <;> omega

theorem rdBudget_le (k : Nat) (z : Sys) : rdBudget k z ≤ k + 3 := by
  unfold rdBudget
  split <;> omega

section
variable {via : Prop} {k n c i : Nat} {s0 s : State} {z : Sys} {p : Plot}

/-- SET is cleared, in a write where it was set. -/
theorem RdState.clearSet (h : RdState via (rdBudget k z) n c s0 z s) (hk : k + 3 ≤ 192) :
    RdState via (k + 3) n c s0 { z with status := putBit z.status 62 false } (s.setStatus n (fun v => putBit v 62 false)) := by
  cases hset : bitB z.status 62 with
  | true =>
    rw [rdBudget, if_pos hset] at h
    refine (h.setStatus hk (fun v => putBit v 62 false)).mono ?_
    split <;> omega
  | false =>
    rw [rdBudget, if_neg (by simp [hset])] at h
    have hsame : putBit z.status 62 false = z.status := by
      apply BitVec.eq_of_getLsbD_eq
      intro j _
      rw [getLsbD_putBit]
      split
      · next hj =>
        rw [hj, Bool.and_false]
        exact hset.symm
      · rfl
    refine h.step (f := fun s => s.setStatus n (fun v => putBit v 62 false)) (fun h' => ?_) (fun h => by rw [State.setStatus, h])
    rw [State.setStatus, h'.find]
    dsimp only
    rw [if_pos hsame, hsame]
    exact h

/-- A plot becomes PENDING with its key. -/
theorem RdState.becomePending (h : RdState via (rdBudget k z) n c s0 z s) (hk : k + 3 ≤ 192) (hp : z.plots.find i = some p) :
    ∃ z' q, RdState via (rdBudget k z') n c s0 z' (s.becomePending n i) ∧ z.Beside i z' ∧ z'.plots.find i = some q
      ∧ q.key = p.key ∧ q.st = .pending ∧ q.ended = p.ended := by
  have hbudget : ∀ q, rdBudget k { z.withPlot i q with status := putBit z.status 62 false } = k + 3 := fun q => by
    rw [rdBudget, bitB_putBit_self _ _ (by omega)]
    rfl
  have hbeside : ∀ q, z.Beside i { z.withPlot i q with status := putBit z.status 62 false } := fun q =>
    ⟨rfl, rfl, (z.beside_withPlot i q).plots⟩
  rcases h with h | h
  · have hstep := fun (f : Plot → Plot) m => RdState.clearSet (z := z.withPlot i (f p)) ((RdState.rdSeq (.inl h) m).modPlot hp f) hk
    refine ⟨_, { p with st := .pending, stamp := z.disp.get p.home, rseq := s.hub.rdSeq.get p.home + 1 }, ?_, hbeside _, z.find_withPlot i _,
      rfl, rfl, rfl⟩
    rw [hbudget, State.becomePending, plot?_of_found h.toRdFound, h.find, hp]
    exact hstep (fun q => { q with st := .pending, stamp := z.disp.get q.home, rseq := s.hub.rdSeq.get p.home + 1 }) _
  · refine ⟨_, { p with st := .pending }, .inr ?_, hbeside _, z.find_withPlot i _, rfl, rfl, rfl⟩
    rwa [State.becomePending, h.gone]

/-- A raise gives its plot the key of R285, and an idle plot above the threshold becomes PENDING (R285, R290). -/
theorem RdBegun.applyRaise (h : RdBegun via (rdBudget k z) n c s0 z s) (hk : k + 3 ≤ 192) (hp : z.plots.find i = some p)
    (x : BitVec 16) (sum : Bool) :
    ∃ z' q, RdState via (rdBudget k z') n c s0 z' (s.applyRaise n i x sum) ∧ z.Beside i z' ∧ z'.plots.find i = some q
      ∧ q.key = raisedKey p.key x sum ∧ q.st = if p.st = .idle ∧ z.eps < q.key then .pending else p.st := by
  set p' : Plot := { p with key := raisedKey p.key x sum } with hp'
  set y : Sys := { z.withPlot i p' with round := z.round.map (fun r => { r with armed := putBit r.armed p.home false }) } with hy
  have hyp : y.plots.find i = some p' := z.find_withPlot i _
  have hbeside : z.Beside i y := ⟨rfl, rfl, (z.beside_withPlot i _).plots⟩
  have hraised : RdState via (rdBudget k y) n c s0 y ((s.modPlot n i (fun p' => { p' with key := raisedKey p.key x sum })).disarm n p.home) :=
    (h.modPlot hp _).modSys rfl rfl
  by_cases hpend : p.st = .idle ∧ z.eps < p'.key
  · obtain ⟨z', q, hz, hbeside', hq, hkey, hst, -⟩ := hraised.becomePending hk hyp
    refine ⟨z', q, ?_, hbeside.trans hbeside', hq, hkey, by rw [hkey, if_pos hpend, hst]⟩
    refine h.step (f := fun s => s.applyRaise n i x sum) (fun h' => ?_) (fun h => by rw [State.applyRaise, h])
    rw [State.applyRaise, h'.find, plot?_of_found h', hp]
    dsimp only
    rw [if_pos (by simpa [Sys.above] using hpend)]
    exact hz.noteBound
  · refine ⟨y, p', ?_, hbeside, hyp, rfl, by rw [if_neg hpend]⟩
    refine h.step (f := fun s => s.applyRaise n i x sum) (fun h' => ?_) (fun h => by rw [State.applyRaise, h])
    rw [State.applyRaise, h'.find, plot?_of_found h', hp]
    dsimp only
    rw [if_neg (by simpa [Sys.above] using hpend)]
    exact hraised.noteBound

/-- A raise of a plot that is not there does nothing. -/
theorem RdState.applyRaise_none (h : RdState via k n c s0 z s) (hp : z.plots.find i = none) (x : BitVec 16) (sum : Bool) :
    RdState via k n c s0 z (s.applyRaise n i x sum) := by
  refine h.step (f := fun s => s.applyRaise n i x sum) (fun h' => ?_) (fun h => by rw [State.applyRaise, h])
  rw [State.applyRaise, h'.find, plot?_of_found h'.toRdFound, hp]
  exact h

end

end Sys2Proof.Machine

namespace Sys2Proof.Machine

/-! ## Events of the Residual Dispatcher (R105, R285, R287) -/

/-- An event whose step waits for no link takes place. -/
theorem happens_of_unheld {i : Instr} {body : State → State} {ok : State → Prop} {post : State → State → Prop}
    (he : ∀ s, exec i s = eventForm i s body) (h : ∀ s, ok s → (body s).held = none ∧ post s (body s)) : Happens i ok post := by
  intro s hf hok
  obtain ⟨hheld, hpost⟩ := h s hok
  refine ⟨body s, ?_, hpost⟩
  rw [he, eventForm, if_neg (by simp [hf]), State.orWait, hheld]

section
variable {via : Prop} {k n c i : Nat} {s0 s : State} {z : Sys}

theorem RdState.freeForwards (h : RdState via k n c s0 z s) (i : Nat) :
    ∃ z', RdState via k n c s0 z' (s.freeForwards n i) ∧ z'.plots = z.plots := by
  unfold State.freeForwards
  split
  · exact ⟨z, h, rfl⟩
  · exact ⟨_, h.modSys rfl (by split <;> rfl), by split <;> rfl⟩

/-- The dies that became quiet are noted (R291). -/
theorem RdState.noteQuiet (h : RdState via k n c s0 z s) (was : BitVec 8) :
    ∃ z', RdState via k n c s0 z' (s.noteQuiet n was) ∧ z'.plots = z.plots := ⟨_, h.modSys rfl rfl, rfl⟩

/-- Raises to the largest key of each plot of a range. -/
theorem RdState.raiseRange (h : RdState via (rdBudget k z) n c s0 z s) (hk : k + 3 ≤ 192) (b m : Nat) :
    ∃ z', RdState via (rdBudget k z') n c s0 z' ((List.range m).foldl (fun s i => s.applyRaise n (b + i) 0xFFFF false) s) ∧ z'.nwev = z.nwev
      ∧ ∀ j p, j < m → z'.plots.find (b + j) = some p → p.key = 0xFFFF := by
  induction m with
  | zero => exact ⟨z, h, rfl, fun j p hj => absurd hj (Nat.not_lt_zero j)⟩
  | succ m ih =>
    obtain ⟨x, hx, hnwev, hkeys⟩ := ih
    rw [List.range_succ, List.foldl_append, List.foldl_cons, List.foldl_nil]
    cases hp : x.plots.find (b + m) with
    | none =>
      refine ⟨x, hx.applyRaise_none hp _ _, hnwev, fun j p hj hfind => ?_⟩
      rcases Nat.lt_succ_iff_lt_or_eq.mp hj with hj | rfl
      · exact hkeys j p hj hfind
      · rw [hp] at hfind
        cases hfind
    | some p =>
      obtain ⟨y, q, hy, hbeside, hq, hkey, -⟩ := hx.begun.applyRaise hk hp 0xFFFF false
      refine ⟨y, hy, hbeside.nwev.trans hnwev, fun j p' hj hfind => ?_⟩
      rcases Nat.lt_succ_iff_lt_or_eq.mp hj with hj | rfl
      · exact hkeys j p' hj (by rw [← hbeside.plots (b + j) (by omega), hfind])
      · rw [hq] at hfind
        obtain rfl := Option.some.inj hfind
        rw [hkey]
        apply BitVec.eq_of_toNat_eq
        rw [toNat_raisedKey]
        exact max_eq_right (show p.key.toNat ≤ 65535 from Nat.le_of_lt_succ p.key.isLt)

end

/-- A watch event raises the plots of its slot to 0xFFFF, and is counted (R105, R280). -/
theorem watchArrives_state {via : Prop} {s : State} {n k : Nat} {y : Sys} {w : Nat × Nat × Nat} (hmem : (n, k) ∈ s.watchEvents)
    (hfirst : s.watchFirst (n, k) = true) (hy : s.systems.find n = some y) (hw : y.watch.find k = some w) (hserved : via → HubServed 128 s) :
    ∃ z, RdState via 137 n y.ctx { s with watchEvents := s.watchEvents.erase (n, k) } z (s.watchArrives n k)
      ∧ z.nwev = y.nwev + 1 ∧ ∀ i p, i < w.2.2 → z.plots.find (w.2.1 + i) = some p → p.key = 0xFFFF := by
  set s0 : State := { s with watchEvents := s.watchEvents.erase (n, k) } with hs0
  have hbegun : RdBegun via 128 n y.ctx s0 y s0 := .of_find hy (fun hv => (hserved hv).of_links rfl rfl rfl)
  have hcount := (hbegun.modSys (z' := { y with nwev := y.nwev + 1 }) (f := fun y => { y with nwev := y.nwev + 1 }) rfl rfl).sscbWrite
    (by omega) 9 (y.nwev + 1)
  have hstatus := hcount.setStatus (by omega) (fun v => putBit v 61 true)
  obtain ⟨z, hz, hnwev, hkeys⟩ := RdState.raiseRange (k := 134) (hstatus.mono (le_trans (by split <;> omega) (le_rdBudget 134 _))) (by omega) w.2.1 w.2.2
  refine ⟨z, ?_, hnwev, hkeys⟩
  rw [State.watchArrives, if_neg (by simp [hmem, hfirst]), ← hs0]
  dsimp only
  rw [show s0.systems.find n = some y from hy]
  dsimp only
  rw [hw]
  exact hz.mono (rdBudget_le 134 z)

/-- A raise gives its plot its key, and leaves the way (R285). -/
theorem raiseArrives_state {via : Prop} {s : State} {k : Nat} {r : Raise} {y : Sys} {p : Plot} (hr : s.raises[k]? = some r)
    (hfirst : s.raiseFirst k = true) (hy : s.systems.find r.sys = some y) (hp : y.plots.find r.plot = some p) (hserved : via → HubServed 128 s) :
    ∃ z q, RdState via 134 r.sys y.ctx { s with raises := s.raises.eraseIdx k } z (s.raiseArrives k) ∧ z.plots.find r.plot = some q
      ∧ q.key = raisedKey p.key r.key r.sum ∧ q.st = if p.st = .idle ∧ y.eps < q.key then .pending else p.st := by
  set s0 : State := { s with raises := s.raises.eraseIdx k } with hs0
  have hbegun : RdBegun via (rdBudget 128 y) r.sys y.ctx s0 y s0 :=
    .of_find hy (fun hv => HubServed.mono (j := 128) ((hserved hv).of_links rfl rfl rfl) (le_rdBudget 128 y))
  obtain ⟨z, q, hz, -, hq, hkey, hst⟩ := hbegun.applyRaise (by omega) hp r.key r.sum
  obtain ⟨z', hz', hplots⟩ := hz.freeForwards r.plot
  refine ⟨z', q, ?_, by rw [hplots, hq], hkey, hst⟩
  rw [State.raiseArrives, hr]
  dsimp only
  rw [if_pos hfirst, ← hs0]
  exact hz'.mono ((rdBudget_le 128 z).trans (by omega))

/-! ### Who has a plot next (R290, R296, R305) -/

theorem nextHolder_nothing {s : State} {n i : Nat} (hmoves : s.movesAt n i = []) (hreaps : s.reapsAt n i = []) : s.nextHolder n i = s := by
  rw [State.nextHolder, hmoves, hreaps]
  rfl

theorem movesAt_congr {s t : State} (h : t.hub.sets = s.hub.sets) : t.movesAt = s.movesAt := by
  funext n i
  rw [State.movesAt, State.movesAt, h]

theorem holdPlot_keeps (s : State) (n i : Nat) (st : PlotState) (mover : Option Nat) :
    (s.holdPlot n i st mover).held = s.held ∧ (s.holdPlot n i st mover).hub = s.hub ∧ (s.holdPlot n i st mover).ctxs = s.ctxs :=
  ⟨State.modPlot_held .., State.modPlot_hub .., State.modPlot_ctxs ..⟩

/-- What has a plot next changes the plot and the reap alone. -/
theorem nextHolder_keeps (s : State) (n i : Nat) :
    (s.nextHolder n i).held = s.held ∧ (s.nextHolder n i).hub = s.hub ∧ (s.nextHolder n i).ctxs = s.ctxs := by
  unfold State.nextHolder
  dsimp only
  split
  · exact holdPlot_keeps ..
  · split
    · unfold State.beginCopy
      rw [State.modReap_held, State.modReap_hub, State.modReap_ctxs]
      exact holdPlot_keeps ..
    · exact ⟨rfl, rfl, rfl⟩
  · exact ⟨rfl, rfl, rfl⟩

/-- A change of some system's record makes no other system. -/
theorem gone_modSys {s : State} {n : Nat} (h : s.systems.find n = none) (m : Nat) (f : Sys → Sys) : (s.modSys m f).systems.find n = none := by
  unfold State.modSys
  split
  · next y hy =>
    rw [Tab.find_put, if_neg, h]
    rintro rfl
    rw [hy] at h
    cases h
  · exact h

theorem gone_nextHolder {s : State} {n : Nat} (h : s.systems.find n = none) (m i : Nat) : (s.nextHolder m i).systems.find n = none := by
  unfold State.nextHolder
  dsimp only
  split
  · exact gone_modSys h _ _
  · split
    · unfold State.beginCopy
      rw [State.modReap_systems]
      exact gone_modSys h _ _
    · exact h
  · exact h

/-- A plot that nothing waits for is not taken. -/
theorem RdState.nextHolder {via : Prop} {k n c i : Nat} {s0 s : State} {z : Sys} (h : RdState via k n c s0 z s)
    (hmoves : s.movesAt n i = []) (hreaps : s0.reapsAt n i = []) : RdState via k n c s0 z (s.nextHolder n i) := by
  rcases h with h | h
  · rw [nextHolder_nothing hmoves (by rw [h.kept.reapsAt, hreaps])]
    exact .inl h
  · obtain ⟨hheld, hhub, hctxs⟩ := nextHolder_keeps s n i
    exact .inr { torn := by rw [State.ctx, hctxs]; exact h.torn, gone := gone_nextHolder h.gone n i, sets := by rw [hhub, h.sets]
                 held := fun hv => hheld.trans (h.held hv) }

/-- A plot's task leaves the larger of the plot's key and its stated key, which is 0xFFFF where it stated none (R287). -/
theorem completePlot_state {via : Prop} {s : State} {n i : Nat} {y : Sys} {p : Plot} {x : Option (BitVec 16)} (hy : s.systems.find n = some y)
    (hp : y.plots.find i = some p) (hx : p.ended = some x) (hmoves : s.movesAt n i = []) (hreaps : s.reapsAt n i = [])
    (hserved : via → HubServed 128 s) :
    ∃ z q, RdState via 134 n y.ctx s z (s.completePlot n i) ∧ z.plots.find i = some q ∧ q.key = kmax p.key (x.getD 0xFFFF)
      ∧ q.ended = none ∧ q.st = if y.eps < q.key then .pending else .idle := by
  have hidle := (RdBegun.of_find hy hserved).modPlot hp (fun p' => { p' with key := kmax p.key (x.getD 0xFFFF), st := .idle, ended := none })
  set y1 : Sys := y.withPlot i { p with key := kmax p.key (x.getD 0xFFFF), st := .idle, ended := none } with hy1
  set s1 := s.modPlot n i (fun p' => { p' with key := kmax p.key (x.getD 0xFFFF), st := .idle, ended := none }) with hs1
  have hstated : ∃ z, RdState via 131 n y.ctx s z (if x.isNone then s1.setStatus n (fun v => putBit v 60 true) else s1)
      ∧ z.plots = y1.plots ∧ z.eps = y.eps := by
    split
    · exact ⟨_, (hidle.setStatus (by omega) (fun v => putBit v 60 true)).mono (by split <;> omega), rfl, rfl⟩
    · exact ⟨_, hidle.mono (by omega), rfl, rfl⟩
  obtain ⟨z, hz, hplots, heps⟩ := hstated
  have hzp : z.plots.find i = some { p with key := kmax p.key (x.getD 0xFFFF), st := .idle, ended := none } := by
    rw [hplots]
    exact y.find_withPlot i _
  generalize hs2 : (if x.isNone then s1.setStatus n (fun v => putBit v 60 true) else s1) = s2 at hz
  have hpending : ∃ z' q, RdState via 134 n y.ctx s z' (if y.above (kmax p.key (x.getD 0xFFFF)) then s2.becomePending n i else s2)
      ∧ z'.plots.find i = some q ∧ q.key = kmax p.key (x.getD 0xFFFF) ∧ q.ended = none ∧ q.st = if y.eps < q.key then .pending else .idle := by
    split
    · next habove =>
      obtain ⟨z', q, hz', -, hq, hkey, hst, hended⟩ := RdState.becomePending (k := 131) (hz.mono (le_rdBudget 131 z)) (by omega) hzp
      exact ⟨z', q, hz'.mono (rdBudget_le 131 z'), hq, hkey, hended, by rw [hst, hkey, if_pos (of_decide_eq_true habove)]⟩
    · next habove =>
      exact ⟨z, _, hz.mono (by omega), hzp, rfl, rfl, by rw [if_neg (fun h => habove (decide_eq_true h))]⟩
  obtain ⟨z', q, hz', hq, hkey, hended, hst⟩ := hpending
  generalize hs3 : (if y.above (kmax p.key (x.getD 0xFFFF)) then s2.becomePending n i else s2) = s3 at hz'
  obtain ⟨z2, hz2, hplots2⟩ := (hz'.nextHolder (i := i) (by rw [movesAt_congr hz'.sets, hmoves]) hreaps).noteBound.noteQuiet y.quietMask
  refine ⟨z2, q, ?_, by rw [hplots2, hq], hkey, hended, hst⟩
  rw [State.completePlot, State.plot?, hy, Option.bind_some, hp]
  dsimp only
  rw [hx]
  dsimp only
  rw [← hs1, hs2, hs3]
  exact hz2

end Sys2Proof.Machine

namespace Sys2Proof.Machine

/-! ## Quiet rounds (R292, R293) -/

/-- The low half of a word that has been given it. -/
theorem bitsN_putBits_low (x : DWord) (v : Nat) : bitsN (putBits x 31 0 v) 31 0 = v % 2 ^ 32 := by
  have hmask : (~~~BitVec.ofNat 64 ((2 ^ 32 - 1) <<< 0)).toNat % 2 ^ 32 = 0 := by decide
  show (((x &&& ~~~BitVec.ofNat 64 ((2 ^ 32 - 1) <<< 0)) ||| BitVec.ofNat 64 ((v % 2 ^ 32) <<< 0)).toNat >>> 0) % 2 ^ 32 = _
  rw [Nat.shiftRight_zero, BitVec.toNat_or, Nat.or_mod_two_pow, BitVec.toNat_and, Nat.and_mod_two_pow, hmask, Nat.and_zero, Nat.zero_or,
    Nat.shiftLeft_zero, BitVec.toNat_ofNat]
  omega

theorem treeOnly_settleWatches (s : State) (n : Nat) : treeOnly s (s.settleWatches n).1 := by
  unfold State.settleWatches
  split
  · exact treeOnly.refl s
  · refine List.foldlRecOn (motive := fun r : State × List DWord => treeOnly s r.1) _ _ (treeOnly.refl s) (fun r hr i _ => ?_)
    split
    · split
      · exact hr.trans (treeOnly_settleNode ..)
      · exact hr
    · exact hr

theorem HubServed.treeOnly {k : Nat} {s t : State} (h : HubServed k s) (ht : treeOnly s t) : HubServed k t :=
  h.of_links (by rw [ht.eq]) ht.held (by rw [ht.eq])

section
variable {via : Prop} {k n c i : Nat} {s0 s : State} {z : Sys}

/-- Settles change the tree alone. -/
theorem RdState.settleWatches (h : RdState via k n c s0 z s) :
    RdState via k n c (s.settleWatches n).1 z (s.settleWatches n).1 := by
  have htree := treeOnly_settleWatches s n
  refine h.imp (fun h => ?_) (fun h => ?_)
  · exact { kept := RdKept.refl _, find := by rw [htree.systems, h.find], only := by rw [htree.systems]; exact h.only, ctx := h.ctx
            served := fun hv => (h.served hv).treeOnly htree }
  · exact { torn := by rw [htree.ctx]; exact h.torn, gone := by rw [htree.systems, h.gone], sets := rfl
            held := fun hv => htree.held.trans (h.held hv) }

end

/-- A round that begins counts in the status word (R280, R292). -/
theorem beginRound_state {via : Prop} {s : State} {n : Nat} {y : Sys} (hy : s.systems.find n = some y) (hdue : y.roundDue = true)
    (hserved : via → HubServed 128 s) :
    ∃ s0 z, RdState via 131 n y.ctx s0 z (s.quietRound n) ∧ bitsN z.status 31 0 = (bitsN y.status 31 0 + 1) % 2 ^ 32 := by
  have hround : y.round = none := by
    unfold Sys.roundDue at hdue
    simp only [Bool.and_eq_true, Option.isNone_iff_eq_none] at hdue
    exact hdue.1.1.1
  set f : DWord → DWord := fun v => putBits v 31 0 (bitsN v 31 0 + 1) with hf
  have hbits : bitsN (f y.status) 31 0 = (bitsN y.status 31 0 + 1) % 2 ^ 32 := bitsN_putBits_low ..
  have hchanges : f y.status ≠ y.status := by
    intro heq
    have hlt : bitsN y.status 31 0 < 2 ^ 32 := Nat.mod_lt _ (by decide)
    rw [heq] at hbits
    omega
  have hcount : RdState via 131 n y.ctx s { y with status := f y.status } (s.setStatus n f) := by
    rw [State.setStatus, hy]
    dsimp only
    rw [if_neg hchanges]
    exact ((RdBegun.of_find hy hserved).modSys (f := fun y => { y with status := f y.status }) rfl rfl).sscbWrite (by omega) 6 _
  have hsettled := hcount.settleWatches
  refine ⟨((s.setStatus n f).settleWatches n).1, ?_⟩
  rw [State.quietRound, hy]
  dsimp only
  rw [hround]
  dsimp only
  rw [if_neg (by simp [hdue])]
  split
  · exact ⟨_, hsettled.modSys rfl rfl, hbits⟩
  · exact ⟨_, hsettled.modSys rfl rfl, hbits⟩

theorem recordWords_lines (n : Nat) (report : Bool) (key : BitVec 16) (seq : DWord) (nwatch : Nat) (time : DWord) (counts : List DWord) :
    (linesOf (recordWords n report key seq nwatch time counts)).length = 9 := by
  simp [linesOf, recordWords]

/-- Lines of 64 bytes go through the hub one after another, until one fails. -/
theorem hubLines_served (cls ctx : Nat) (ls : List (List Byte)) : ∀ (va k : Nat) (s : State), k + 3 * ls.length ≤ 192 → HubServed k s →
    ThroughHub s (s.hubLines cls ctx va ls).1 ∧ HubServed (k + 3 * ls.length) (s.hubLines cls ctx va ls).1 := by
  induction ls with
  | nil => exact fun va k s _ h => ⟨ThroughHub.refl s, h⟩
  | cons b ls ih =>
    intro va k s hk h
    rw [List.length_cons] at hk ⊢
    have htr := throughHub_hubWrite s cls ctx va 64 (ofBytes b) false
    have hserved := h.hubWrite (n := 64) (by omega) (by omega) cls ctx va (ofBytes b)
    rw [State.hubLines]
    split
    · next t heq =>
      rw [heq] at htr hserved
      obtain ⟨hrest, hserved'⟩ := ih (va + 64) (k + 3) t (by omega) hserved
      exact ⟨htr.trans hrest, hserved'.mono (by omega)⟩
    · next t heq =>
      rw [heq] at htr hserved
      exact ⟨htr, hserved.mono (by omega)⟩

/-- A settled record is written, with the next sequence number and SET, or its context is torn down (R293). -/
theorem settled_state {s : State} {n : Nat} {y : Sys} (hy : s.systems.find n = some y) (hserved : HubServed 128 s) (key : BitVec 16)
    (counts : List DWord) :
    (((s.settled n key counts).ctx y.ctx).st = .tornDown ∧ (s.settled n key counts).held = none)
      ∨ ∃ s0 z, RdState True 164 n y.ctx s0 z (s.settled n key counts) ∧ z.seq = y.seq + 1 ∧ bitB z.status 62 = true := by
  rw [State.settled, hy]
  dsimp only
  generalize hls : linesOf (recordWords n false key (y.seq + 1) y.nwatch s.cycle counts) = ls
  have hlen : ls.length = 9 := by rw [← hls, recordWords_lines]
  obtain ⟨htr, hlines⟩ := hubLines_served (s.queueClass y.ctx y.queue) y.ctx ls y.report 128 s (by omega) hserved
  generalize s.hubLines (s.queueClass y.ctx y.queue) y.ctx y.report ls = r at htr hlines ⊢
  split
  · exact .inl ⟨contextFault_torn .., by rw [contextFault_held, hlines.held]⟩
  · have hfind : r.1.systems.find n = some y := by rw [htr.rest, hy]
    have hbegun : RdBegun True 155 n y.ctx r.1 y r.1 := .of_find hfind (fun _ => hlines.mono (by omega))
    have hseq := (hbegun.modSys (z' := { y with seq := y.seq + 1 }) (f := fun z => { z with seq := y.seq + 1 }) rfl rfl).sscbWrite
      (by omega) 7 (y.seq + 1)
    have hset := (hseq.setStatus (by omega) (fun v => putBit (putBit v 62 true) 61 false)).mono (k := 161) (by split <;> omega)
    refine .inr ⟨_, _, hset.rdWrite (by omega) y.sem _, rfl, ?_⟩
    rw [bitB_putBit_ne _ _ (by omega), bitB_putBit_self _ _ (by omega)]

/-- A round whose marks are still armed and whose counts agree ends in a settled record (R292). -/
theorem endRound_settled {s s1 : State} {n : Nat} {y : Sys} {r : Round} (hy : s.systems.find n = some y) (hr : y.round = some r)
    (harmed : r.armed = BitVec.allOnes 8) (hcounts : s.settleWatches n = (s1, r.counts)) (hserved : HubServed 128 s) :
    (s.quietRound n).held = none ∧ ((s.quietRound n).stands y.ctx → ∃ z, (s.quietRound n).systems.find n = some z ∧ z.round = none
      ∧ z.seq = y.seq + 1 ∧ bitB z.status 62 = true) := by
  have htree : treeOnly s s1 := by
    have h := treeOnly_settleWatches s n
    rwa [hcounts] at h
  have hround : s.quietRound n = (s1.settled n r.key r.counts).endRound n := by
    rw [State.quietRound, hy]
    dsimp only
    rw [hr]
    dsimp only
    rw [hcounts, if_pos (by simp [harmed])]
  rw [hround]
  rcases settled_state (htree.systems ▸ hy) (hserved.treeOnly htree) r.key r.counts with ⟨htorn, hheld⟩ | ⟨s0, z, hz, hseq, hset⟩
  · refine ⟨(State.modSys_held ..).trans hheld, fun hs => absurd ?_ hs⟩
    rw [State.endRound, State.ctx, State.modSys_ctxs]
    exact htorn
  · have hend := hz.modSys (n := n) (f := fun y => { y with
      round := none, told := y.quietMask, due := y.quietMask == BitVec.allOnes 8 && !bitB y.status 62 }) rfl rfl
    exact ⟨hend.held trivial, fun hs => ⟨_, (hend.live hs).find, rfl, hseq, hset⟩⟩

/-- A round in which a mark is no longer armed fails (R292). -/
theorem endRound_failed {s : State} {n : Nat} {y : Sys} {r : Round} (hy : s.systems.find n = some y) (hr : y.round = some r)
    (harmed : r.armed ≠ BitVec.allOnes 8) : (s.quietRound n).held = s.held ∧ ∃ z, (s.quietRound n).systems.find n = some z
      ∧ z.round = none ∧ z.seq = y.seq ∧ z.status = y.status := by
  have htree := treeOnly_settleWatches s n
  have hround : s.quietRound n = (s.settleWatches n).1.endRound n := by
    rw [State.quietRound, hy]
    dsimp only
    rw [hr]
    dsimp only
    rw [if_neg (fun h => harmed (of_decide_eq_true (Bool.and_eq_true_iff.mp h).1))]
  rw [hround, State.endRound, State.modSys_held, htree.held]
  refine ⟨rfl, { y with round := none, told := y.quietMask, due := y.quietMask == BitVec.allOnes 8 && !bitB y.status 62 }, ?_, rfl, rfl, rfl⟩
  rw [find_modSys (y := y) (by rw [htree.systems, hy]), Tab.find_put, if_pos rfl]

end Sys2Proof.Machine

namespace Sys2Proof.Machine

/-! ## Re-homes (R296) -/

section
variable {via : Prop} {k n c i : Nat} {s0 s : State} {z : Sys}

/-- HOME is read, and written anew (R282). -/
theorem RdState.writeHome (h : RdState via k n c s0 z s) (hk : k + 6 ≤ 192) (p : Plot) (die : Nat) :
    RdState via (k + 6) n c s0 z (s.writeHome n p die) := by
  refine h.step (f := fun s => s.writeHome n p die) (fun h' => ?_) (fun h => by rw [State.writeHome, h])
  have htr := throughHub_hubRead s (s.queueClass z.ctx z.queue) z.ctx p.record 8
  have hserved : ∀ k, k + 3 ≤ 192 → HubServed k s → HubServed (k + 3) (s.hubRead (s.queueClass z.ctx z.queue) z.ctx p.record 8).1 :=
    fun k hk hs => hs.hubRead hk (by omega) ..
  rw [State.writeHome, h'.find]
  dsimp only
  split
  · next t x heq =>
    rw [heq] at htr hserved
    exact (h'.accessed (by omega) (.inl ⟨htr, hserved⟩)).rdWrite (by omega) _ _
  · next t heq =>
    rw [heq] at htr hserved
    exact (h'.accessed (by omega) (h'.ctx ▸ accessed_contextFault htr hserved z.ctx 0x0A 0)).mono (by omega)

end

/-- The switch moves the plot with its state and its key, unless its context is torn down (R296). -/
theorem switchHome_state {via : Prop} {s : State} {n i : Nat} {y : Sys} {p : Plot} (hy : s.systems.find n = some y)
    (hp : y.plots.find i = some p) (hserved : via → HubServed 128 s) (new : Nat) :
    ∃ z q, RdState via 134 n y.ctx s z (s.switchHome n i new) ∧ z.plots.find i = some q ∧ q.home = new ∧ q.key = p.key
      ∧ q.st = if p.wasPending then .pending else .idle := by
  rw [State.switchHome, State.plot?, hy, Option.bind_some, hp]
  dsimp only
  generalize hs1 : (if p.wasPending then _ else s) = s1
  have hbegun : RdBegun via 128 n y.ctx s y s1 := by
    rw [← hs1]
    split
    · exact .inl ⟨rdKept_rdSeq s _, hy, rfl, fun hv => (hserved hv).of_links rfl rfl rfl⟩
    · exact .of_find hy hserved
  set switched : Plot → Plot := fun q => { q with
    home := new, st := if q.wasPending then .pending else .idle, stamp := y.disp.get new - (y.disp.get p.home - p.stamp)
    rseq := if q.wasPending then s.hub.rdSeq.get new + 1 else q.rseq, wasPending := false, mover := none }
  have hmoved := (hbegun.modPlot hp switched).modSys
    (f := fun y => { y with forward := (p.home, i, new) :: y.forward }) rfl rfl
  obtain ⟨z1, hz1, hplots1⟩ := hmoved.freeForwards i
  obtain ⟨z2, hz2, hplots2⟩ := (hz1.writeHome (by omega) p new).noteQuiet y.quietMask
  refine ⟨z2, switched p, hz2, ?_, rfl, rfl, rfl⟩
  rw [hplots2, hplots1]
  exact y.find_withPlot i _

theorem regSet_rehomeDone (s : State) (k : Nat) : (s.rehomeDone k).regSet k
    = { s.regSet k with rhbusy := false, rhseq := (s.regSet k).rhseq + 1 } := by
  rw [State.rehomeDone, State.modSet, State.regSet, Tab.getD_put, if_pos rfl]
  rfl

/-- A register set whose re-home is done waits for no plot. -/
theorem movesAt_rehomeDone {s : State} {k n i : Nat} (h : ∀ x ∈ s.movesAt n i, x.1 = k) : (s.rehomeDone k).movesAt n i = [] := by
  rw [State.movesAt, List.map_eq_nil_iff, List.filter_eq_nil_iff]
  intro e he hwaits
  rcases Tab.mem_put he with rfl | ⟨hm, hne⟩
  · simp at hwaits
  · exact hne (h (e.1, e.2.rhat) (List.mem_map_of_mem (f := fun r : Nat × RegSet => (r.1, r.2.rhat)) (List.mem_filter.mpr ⟨hm, hwaits⟩)))

/-- A plot that is IDLE or PENDING enters MOVING for the re-home whose turn it is (R296). -/
theorem rehomeStep_holds {s : State} {k : Nat} {p : Plot} (hbusy : (s.regSet k).rhbusy = true)
    (hp : s.plot? (rhSys (s.regSet k).rhwork) (rhPlot (s.regSet k).rhwork) = some p) (hst : p.st = .idle ∨ p.st = .pending)
    (hmoves : first (s.movesAt (rhSys (s.regSet k).rhwork) (rhPlot (s.regSet k).rhwork)) (s.regSet k).rhat = true)
    (hreaps : first (s.reapsAt (rhSys (s.regSet k).rhwork) (rhPlot (s.regSet k).rhwork)) (s.regSet k).rhat = true) :
    s.rehomeStep k = s.holdPlot (rhSys (s.regSet k).rhwork) (rhPlot (s.regSet k).rhwork) .moving (some k) := by
  rw [State.rehomeStep]
  dsimp only
  rw [if_neg (by simp [hbusy]), hp, hmoves, hreaps]
  dsimp only
  rcases hst with h | h <;> rw [h] <;> rfl

theorem plot?_holdPlot {s : State} {n i : Nat} {p : Plot} (hp : s.plot? n i = some p) (st : PlotState) (mover : Option Nat) :
    (s.holdPlot n i st mover).plot? n i = some { p with st := st, wasPending := decide (p.st = .pending), mover := mover } := by
  obtain ⟨y, hy, hyp⟩ := Option.bind_eq_some_iff.mp hp
  rw [State.holdPlot, State.modPlot, State.plot?, find_modSys hy, Tab.find_put, if_pos rfl, Option.bind_some, hyp]
  dsimp only
  rw [Tab.find_put, if_pos rfl]

/-- The switch of a re-home: its register set is done with, and the plot is at its new home (R295, R296). -/
theorem rehomeStep_switches {s : State} {k : Nat} {p : Plot} (hbusy : (s.regSet k).rhbusy = true)
    (hp : s.plot? (rhSys (s.regSet k).rhwork) (rhPlot (s.regSet k).rhwork) = some p) (hst : p.st = .moving) (hmover : p.mover = some k)
    (hmoves : ∀ x ∈ s.movesAt (rhSys (s.regSet k).rhwork) (rhPlot (s.regSet k).rhwork), x.1 = k)
    (hreaps : s.reapsAt (rhSys (s.regSet k).rhwork) (rhPlot (s.regSet k).rhwork) = []) (hserved : HubServed 128 s) :
    (s.rehomeStep k).held = none ∧ ((s.rehomeStep k).regSet k).rhbusy = false
      ∧ ((s.rehomeStep k).regSet k).rhseq = (s.regSet k).rhseq + 1
      ∧ ∀ y, s.systems.find (rhSys (s.regSet k).rhwork) = some y → (s.rehomeStep k).stands y.ctx →
        ∃ q, (s.rehomeStep k).plot? (rhSys (s.regSet k).rhwork) (rhPlot (s.regSet k).rhwork) = some q
          ∧ q.home = rhNew (s.regSet k).rhwork ∧ q.key = p.key ∧ q.st = if p.wasPending then .pending else .idle := by
  have hstep : s.rehomeStep k = ((s.switchHome (rhSys (s.regSet k).rhwork) (rhPlot (s.regSet k).rhwork) (rhNew (s.regSet k).rhwork)).rehomeDone k).nextHolder
      (rhSys (s.regSet k).rhwork) (rhPlot (s.regSet k).rhwork) := by
    rw [State.rehomeStep]
    dsimp only
    rw [if_neg (by simp [hbusy]), hp]
    dsimp only
    rw [hst]
    dsimp only
    rw [if_pos hmover]
  rw [hstep]
  generalize rhSys (s.regSet k).rhwork = n, rhPlot (s.regSet k).rhwork = i, rhNew (s.regSet k).rhwork = new at hp hmoves hreaps ⊢
  obtain ⟨y, hy, hyp⟩ := Option.bind_eq_some_iff.mp hp
  obtain ⟨z, q, hz, hq, hhome, hkey, hqst⟩ := switchHome_state hy hyp (via := True) (fun _ => hserved) new
  generalize s.switchHome n i new = u at hz ⊢
  have hregs : u.regSet k = s.regSet k := by rw [State.regSet, State.regSet, hz.sets]
  obtain ⟨hheld, hhub, hctxs⟩ := nextHolder_keeps (u.rehomeDone k) n i
  have hset : ((u.rehomeDone k).nextHolder n i).regSet k = { s.regSet k with rhbusy := false, rhseq := (s.regSet k).rhseq + 1 } := by
    rw [State.regSet, hhub, ← State.regSet, regSet_rehomeDone, hregs]
  refine ⟨hheld.trans (hz.held trivial), by rw [hset], by rw [hset], fun y' hy' hstands => ?_⟩
  obtain rfl := Option.some.inj (hy.symm.trans hy')
  have hlive := hz.live (fun htorn => hstands (by rw [State.ctx, hctxs]; exact htorn))
  have hreaps' : (u.rehomeDone k).reapsAt n i = [] := by
    rw [reapsAt_congr (s := u) (t := u.rehomeDone k) rfl (reapLive_congr rfl (fun _ => rfl) (fun _ => rfl)), hlive.kept.reapsAt, hreaps]
  have hmoves' : (u.rehomeDone k).movesAt n i = [] := movesAt_rehomeDone (by rwa [movesAt_congr hlive.kept.sets])
  rw [nextHolder_nothing hmoves' hreaps']
  exact ⟨q, (plot?_of_found hlive.toRdFound i).trans hq, hhome, hkey, hqst⟩

/-! ## Deals and ends of teams (R262, R319, R320, R323, R324) -/

/-- The first of a list for which a function has a value. -/
theorem findSome?_of_takeWhile {α β : Type} [BEq α] [LawfulBEq α] {f : α → Option β} {l : List α} {x : α} {b : β} (hx : x ∈ l)
    (hbefore : ∀ d ∈ l.takeWhile (· != x), f d = none) (hf : f x = some b) : l.findSome? f = some b := by
  induction l with
  | nil => cases hx
  | cons a l ih =>
    by_cases ha : a = x
    · rw [List.findSome?_cons, ha, hf]
    · have hne : (a != x) = true := by simpa using ha
      rw [List.takeWhile_cons_of_pos (p := (· != x)) hne] at hbefore
      rw [List.findSome?_cons, hbefore a List.mem_cons_self]
      exact ih ((List.mem_cons.mp hx).resolve_left (Ne.symm ha)) (fun d hd => hbefore d (List.mem_cons_of_mem _ hd))

/-- What a deal does with the state the winner's team has been started in. -/
def State.dealt (u : State) (die c q k : Nat) (seed : DWord) : State :=
  let t := (u.modCtx c (fun b => { b with seed := seed })).modQueue c q (fun b => { b with lastCand := k })
  { t with hub := { t.hub with lastCtx := t.hub.lastCtx.set die (BitVec.ofNat 9 (c + 1)) } }

theorem dealDie_of_offer {s u : State} {die c q k : Nat} (hc : c ∈ s.dealOrder die)
    (hbefore : ∀ d ∈ (s.dealOrder die).takeWhile (· != c), s.offers d die = []) (hoffer : s.offers c die = [(q, k, u)])
    (htickets : 0 < (s.queue c q).tickets) : s.dealDie die = u.dealt die c q k (lotteryNext (s.ctx c).seed) := by
  have hwins : (lotteryNext (s.ctx c).seed).toNat % (0 + (s.queue c q).tickets) < (s.queue c q).tickets := by
    rw [Nat.zero_add]
    exact Nat.mod_lt _ htickets
  unfold State.dealDie
  generalize hfirst : (s.dealOrder die).findSome? _ = o
  obtain rfl : o = some (c, [(q, k, u)]) := by
    rw [← hfirst]
    exact findSome?_of_takeWhile hc (fun d hd => by rw [hbefore d hd]) (by rw [hoffer])
  dsimp only
  rw [List.foldl_cons, List.foldl_nil, lotteryWinner, if_pos hwins]
  rfl

theorem ctx_dealt (u : State) (die c q k : Nat) (seed : DWord) : (u.dealt die c q k seed).ctx c
    = { u.ctx c with seed := seed, queues := (u.ctx c).queues.put q { (u.ctx c).queues.getD q {} with lastCand := k } } := by
  show ((u.modCtx c (fun b => { b with seed := seed })).modCtx c
    (fun b => { b with queues := b.queues.put q { b.queues.getD q {} with lastCand := k } })).ctx c = _
  rw [ctx_modCtx, if_pos rfl, ctx_modCtx, if_pos rfl]

theorem lastCand_dealt (u : State) (die c q k : Nat) (seed : DWord) : ((u.dealt die c q k seed).queue c q).lastCand = k := by
  rw [State.queue, ctx_dealt, Tab.getD_put, if_pos rfl]

theorem lastCtx_dealt (u : State) (die c q k : Nat) (seed : DWord) :
    (u.dealt die c q k seed).hub.lastCtx.get die = BitVec.ofNat 9 (c + 1) := by
  show (u.hub.lastCtx.set die (BitVec.ofNat 9 (c + 1))).get die = _
  rw [Cells.get_set, if_pos rfl]

theorem noteDrained_keeps (s : State) (c : Nat) : (s.noteDrained c).held = s.held ∧ (s.noteDrained c).teams = s.teams
    ∧ (s.noteDrained c).warps = s.warps ∧ (s.noteDrained c).mem = s.mem := by
  unfold State.noteDrained
  split <;> exact ⟨rfl, rfl, rfl, rfl⟩

/-- What a team's owner learns of its end leaves the teams and their warps (R286, R327). -/
theorem endTeam_releases {s : State} {m : Nat} {x : Team} (hover : s.teamOver m = true) (hx : s.teams.find m = some x) :
    ∃ u : State, s.endTeam m = (u.releaseTeam m).noteDrained x.ctx ∧ u.held = s.held ∧ u.teams.find m = some x := by
  rw [State.endTeam, if_neg (by simp [hover]), hx]
  refine ⟨_, rfl, ?_⟩
  dsimp only
  split
  · exact ⟨(State.modPlot_held ..).trans (State.modSys_held ..), by rw [State.modPlot_teams, State.modSys_teams, hx]⟩
  · exact ⟨rfl, hx⟩
  · exact ⟨rfl, hx⟩

theorem releaseTeam_eq {s : State} {m : Nat} {x : Team} (hx : s.teams.find m = some x) : (s.releaseTeam m).held = s.held
    ∧ (s.releaseTeam m).teams = s.teams.erase m ∧ (s.releaseTeam m).warps = s.warps.filter (fun e => !x.warps.contains e.1)
    ∧ (s.releaseTeam m).mem.canvas = s.mem.canvas.clear (canvasKey x 0) x.canvasSize := by
  rw [State.releaseTeam, hx]
  exact ⟨rfl, rfl, rfl, rfl⟩

/-- A team's end takes its warps and leaves its canvas zero (R262, R357). -/
theorem endTeam_ends {s : State} {m : Nat} {x : Team} (hover : s.teamOver m = true) (hx : s.teams.find m = some x) :
    (s.endTeam m).held = s.held ∧ (s.endTeam m).teams.find m = none ∧ (∀ w ∈ x.warps, (s.endTeam m).warps.find w = none)
      ∧ ∀ a, a < x.canvasSize → (s.endTeam m).cbyte (canvasKey x 0 + a) = 0 := by
  obtain ⟨u, hend, hheld, hteam⟩ := endTeam_releases hover hx
  obtain ⟨hheld', hteams, hwarps, hcanvas⟩ := releaseTeam_eq hteam
  obtain ⟨hheld'', hteams'', hwarps'', hmem''⟩ := noteDrained_keeps (u.releaseTeam m) x.ctx
  rw [hend]
  refine ⟨hheld''.trans (hheld'.trans hheld), ?_, fun w hw => ?_, fun a ha => ?_⟩
  · rw [hteams'', hteams, Tab.find_erase, if_pos rfl]
  · rw [hwarps'', hwarps]
    refine Tab.find_eq_none (fun e he heq => ?_)
    have hnot := (List.mem_filter.mp he).2
    simp [heq, hw] at hnot
  · rw [State.cbyte, hmem'', hcanvas, Cells.get_clear, if_neg (by omega)]

end Sys2Proof.Machine

namespace Sys2Proof.Machine

/-! ## Roll-up steps (R101, R103) and O49 -/

/-- The step of a marked granule whose context has a tree and stands. -/
theorem granuleStep_marked {s : State} {g c : Nat} (hmark : s.mem.pend.get g = 1) (ho : s.mem.ownerOf g = c + 1) (ht : s.treeRuns c = true)
    (hs : s.stands c) : s.granuleStep g = (s.modMem (fun m => { m with pend := m.pend.set g 0 })).bumpNode c (s.mem.enrol.get g).toNat := by
  unfold State.granuleStep
  dsimp only
  rw [hmark, ho, Nat.add_sub_cancel, ht, if_neg (by decide), if_neg (by simp), if_neg (by simpa [State.stands] using hs)]

/-- The step of a marked node below the root. -/
theorem nodeStep_marked {s : State} {c n : Nat} (hmark : (s.node c n).pend = true) (ht : s.treeRuns c = true) (hn : n ≠ 0) :
    s.nodeStep c n = (s.modNode c n (fun x => { x with pend := false })).bumpNode c (s.node c n).parent.toNat := by
  unfold State.nodeStep
  dsimp only
  rw [hmark, ht, if_neg (by decide), if_neg hn]

theorem nodeStep_root {s : State} {c : Nat} (hmark : (s.node c 0).pend = true) (ht : s.treeRuns c = true) :
    s.nodeStep c 0 = s.modNode c 0 (fun x => { x with pend := false }) := by
  unfold State.nodeStep
  dsimp only
  rw [hmark, ht, if_neg (by decide), if_pos rfl]

theorem rollupGranule_happens (g c : Nat) : Happens (.rollupGranuleStep g)
    (fun s => s.mem.pend.get g = 1 ∧ s.mem.ownerOf g = c + 1 ∧ s.treeRuns c = true ∧ s.stands c)
    (fun s t => let n := (s.mem.enrol.get g).toNat
      treeOnly s t ∧ (∀ k, t.mem.pend.get k = if k = g then 0 else s.mem.pend.get k)
        ∧ t.node c n = { s.node c n with count := (s.node c n).count + 1, pend := true }
        ∧ (∀ m, m ≠ n → t.node c m = s.node c m) ∧ t.watchEvents = s.watchEvents ++ (s.node c n).watches) := by
  refine happens_of_eventForm (fun _ => rfl) (fun s ⟨hmark, ho, ht, hs⟩ => ?_)
  have htree := treeOnly_granuleStep s g
  refine ⟨htree.held, htree, ?_⟩
  rw [granuleStep_marked hmark ho ht hs]
  refine ⟨fun k => Cells.get_set s.mem.pend g k 0, node_bumpNode_self .., fun m hm => node_bumpNode_ne hm, watchEvents_bumpNode ..⟩

theorem rollupNode_happens (c n : Nat) : Happens (.rollupNodeStep c n)
    (fun s => (s.node c n).pend = true ∧ s.treeRuns c = true ∧ n ≠ 0 ∧ (s.node c n).parent.toNat ≠ n)
    (fun s t => let m := (s.node c n).parent.toNat
      treeOnly s t ∧ t.mem = s.mem ∧ t.node c n = { s.node c n with pend := false }
        ∧ t.node c m = { s.node c m with count := (s.node c m).count + 1, pend := true }
        ∧ (∀ k, k ≠ n → k ≠ m → t.node c k = s.node c k) ∧ t.watchEvents = s.watchEvents ++ (s.node c m).watches) := by
  refine happens_of_eventForm (fun _ => rfl) (fun s ⟨hmark, ht, hn, hparent⟩ => ?_)
  have htree := treeOnly_nodeStep s c n
  have hbelow : ∀ k, k ≠ n → (s.modNode c n (fun x => { x with pend := false })).node c k = s.node c k := fun k hk => node_modNode_ne _ hk
  refine ⟨htree.held, htree, nodeStep_mem .., ?_⟩
  rw [nodeStep_marked hmark ht hn]
  refine ⟨?_, ?_, fun k hkn hkm => ?_, ?_⟩
  · rw [node_bumpNode_ne hparent.symm, node_modNode_self]
  · rw [node_bumpNode_self, hbelow _ hparent]
    rfl
  · rw [node_bumpNode_ne hkm, hbelow k hkn]
  · rw [watchEvents_bumpNode, hbelow _ hparent]
    rfl

theorem rollupRoot_happens (c : Nat) : Happens (.rollupNodeStep c 0) (fun s => (s.node c 0).pend = true ∧ s.treeRuns c = true)
    (fun s t => treeOnly s t ∧ t.mem = s.mem ∧ t.watchEvents = s.watchEvents ∧ t.node c 0 = { s.node c 0 with pend := false }) := by
  refine happens_of_eventForm (fun _ => rfl) (fun s ⟨hmark, ht⟩ => ?_)
  have htree := treeOnly_nodeStep s c 0
  refine ⟨htree.held, htree, nodeStep_mem .., ?_⟩
  rw [nodeStep_root hmark ht]
  exact ⟨rfl, node_modNode_self ..⟩

/-! ### Standing systems -/

theorem raise_facts {s0 t : State} {n i c : Nat} {z : Sys} {p q : Plot} {x : BitVec 16} {sum : Bool} {eps : BitVec 16} {via : Prop} {k : Nat}
    (hz : RdState via k n c s0 z t) (hs : t.stands c) (hq : z.plots.find i = some q) (hkey : q.key = raisedKey p.key x sum)
    (hst : q.st = if p.st = .idle ∧ eps < q.key then .pending else p.st) :
    t.raises = s0.raises ∧ ∃ q, t.plot? n i = some q
      ∧ q.key.toNat = (if sum then min 65535 (p.key.toNat + x.toNat) else max p.key.toNat x.toNat)
      ∧ q.st = if p.st = .idle ∧ eps < q.key then .pending else p.st := by
  have hlive := hz.live hs
  exact ⟨hlive.kept.raises, q, (plot?_of_found hlive.toRdFound i).trans hq, by rw [hkey, toNat_raisedKey], hst⟩

theorem watch_facts {s0 t : State} {n c b m : Nat} {z : Sys} {nwev : DWord} {via : Prop} {k : Nat} (hz : RdState via k n c s0 z t) (hs : t.stands c)
    (hnwev : z.nwev = nwev) (hkeys : ∀ i p, i < m → z.plots.find (b + i) = some p → p.key = 0xFFFF) :
    t.watchEvents = s0.watchEvents ∧ ∃ z, t.systems.find n = some z ∧ z.nwev = nwev
      ∧ ∀ i p, i < m → z.plots.find (b + i) = some p → p.key = 0xFFFF :=
  ⟨(hz.live hs).kept.watchEvents, z, (hz.live hs).find, hnwev, hkeys⟩

theorem task_facts {s0 t : State} {n i c : Nat} {z : Sys} {p q : Plot} {x : Option (BitVec 16)} {eps : BitVec 16} {via : Prop} {k : Nat}
    (hz : RdState via k n c s0 z t) (hs : t.stands c) (hq : z.plots.find i = some q) (hkey : q.key = kmax p.key (x.getD 0xFFFF))
    (hended : q.ended = none) (hst : q.st = if eps < q.key then .pending else .idle) :
    ∃ q, t.plot? n i = some q ∧ q.key.toNat = max p.key.toNat (x.getD 0xFFFF).toNat ∧ q.ended = none
      ∧ q.st = if eps < q.key then .pending else .idle :=
  ⟨q, (plot?_of_found (hz.live hs).toRdFound i).trans hq, by rw [hkey, toNat_kmax], hended, hst⟩

/-- Settles O49: the tree's steps carry one mark each; a dispatcher's step leaves the record of its system in a state it names, or
its context torn down by a write that failed; and a die deals the one candidate its turn comes to. -/
theorem treeAndDealerEvents : Obligations.TreeAndDealerEvents := by
  unfold Obligations.TreeAndDealerEvents
  refine ⟨⟨rollupGranule_happens, rollupNode_happens, rollupRoot_happens⟩,
    ⟨fun n k y w => ?_, fun n k y w => ?_, fun k r y p => ?_, fun k r y p => ?_, fun n i y p k => ?_, fun n i y p k => ?_, fun n y => ?_,
      fun n y r s1 => ?_, fun n y r => ?_, fun k p => ⟨?_, ?_⟩⟩,
    fun die c q k u => ?_, fun m x => ?_⟩
  · refine happens_of_unheld (fun _ => rfl) (fun s ⟨⟨hmem, hfirst, hy, hw⟩, hlinks⟩ => ?_)
    obtain ⟨z, hz, hnwev, hkeys⟩ := watchArrives_state (via := True) hmem hfirst hy hw (fun _ => .of_linksTake hlinks)
    exact ⟨hz.held trivial, fun hs => (watch_facts hz hs hnwev hkeys).2⟩
  · refine happens_of_unheld (fun _ => rfl) (fun s ⟨hmem, hfirst, hy, hw, hheld, hs⟩ => ?_)
    obtain ⟨z, hz, hnwev, hkeys⟩ := watchArrives_state (via := False) hmem hfirst hy hw False.elim
    exact ⟨hheld, rfl, watch_facts hz hs hnwev hkeys⟩
  · refine happens_of_unheld (fun _ => rfl) (fun s ⟨⟨hr, hfirst, hy, hp⟩, hlinks⟩ => ?_)
    obtain ⟨z, q, hz, hq, hkey, hst⟩ := raiseArrives_state (via := True) hr hfirst hy hp (fun _ => .of_linksTake hlinks)
    exact ⟨hz.held trivial, fun hs => raise_facts hz hs hq hkey hst⟩
  · refine happens_of_unheld (fun _ => rfl) (fun s ⟨hr, hfirst, hy, hp, hheld, hs⟩ => ?_)
    obtain ⟨z, q, hz, hq, hkey, hst⟩ := raiseArrives_state (via := False) hr hfirst hy hp False.elim
    exact ⟨hheld, rfl, raise_facts hz hs hq hkey hst⟩
  · refine happens_of_unheld (fun _ => rfl) (fun s ⟨⟨hy, hp, hk, hreaps, hmoves⟩, hlinks⟩ => ?_)
    obtain ⟨z, q, hz, hq, hkey, hended, hst⟩ := completePlot_state (via := True) hy hp hk hmoves hreaps (fun _ => .of_linksTake hlinks)
    exact ⟨hz.held trivial, fun hs => task_facts hz hs hq hkey hended hst⟩
  · refine happens_of_unheld (fun _ => rfl) (fun s ⟨hy, hp, hk, hreaps, hmoves, hheld, hs⟩ => ?_)
    obtain ⟨z, q, hz, hq, hkey, hended, hst⟩ := completePlot_state (via := False) hy hp hk hmoves hreaps False.elim
    exact ⟨hheld, rfl, task_facts hz hs hq hkey hended hst⟩
  · refine happens_of_unheld (fun _ => rfl) (fun s ⟨⟨hy, hdue⟩, hlinks⟩ => ?_)
    obtain ⟨s0, z, hz, hbits⟩ := beginRound_state (via := True) hy hdue (fun _ => .of_linksTake hlinks)
    exact ⟨hz.held trivial, fun hs => ⟨z, (hz.live hs).find, hbits⟩⟩
  · exact happens_of_unheld (fun _ => rfl)
      (fun s ⟨⟨hy, hr, harmed, hcounts⟩, hlinks⟩ => endRound_settled hy hr harmed hcounts (.of_linksTake hlinks))
  · exact happens_of_eventForm (fun _ => rfl) (fun s ⟨hy, hr, harmed⟩ => endRound_failed hy hr harmed)
  · refine happens_of_eventForm (fun _ => rfl) (fun s ⟨hbusy, hp, hst, hmoves, hreaps⟩ => ?_)
    rw [rehomeStep_holds hbusy hp hst hmoves hreaps]
    exact ⟨State.modPlot_held .., plot?_holdPlot hp .moving (some k)⟩
  · exact happens_of_unheld (fun _ => rfl) (fun s ⟨⟨hbusy, hp, hst, hmover, hmoves, hreaps⟩, hlinks⟩ =>
      rehomeStep_switches hbusy hp hst hmover hmoves hreaps (.of_linksTake hlinks))
  · refine happens_of_unheld (fun _ => rfl) (fun s ⟨hdie, _, hc, hbefore, hoffer, htickets, hheld⟩ => ?_)
    rw [if_pos hdie, dealDie_of_offer hc hbefore hoffer htickets]
    exact ⟨hheld, rfl, rfl, rfl, rfl, congrArg Ctx.seed (ctx_dealt ..), lastCand_dealt .., lastCtx_dealt ..⟩
  · exact happens_of_eventForm (fun _ => rfl) (fun s ⟨hover, hx⟩ => endTeam_ends hover hx)

end Sys2Proof.Machine
